-- ==== Sys2Proof/Word.lean ====
section
/-! DEFINITION. The word types of the Rhoja and the one table type the state is written in. -/

namespace Sys2Proof

/-- One byte of memory or of a record (R4: bit 0 is the least significant bit). -/
abbrev Byte := BitVec 8

/-- A 32-bit register or instruction word. -/
abbrev Word := BitVec 32

/-- A 64-bit message, descriptor or record word (R4). -/
abbrev DWord := BitVec 64

/-- A sparse table: values by number, keys strictly rising. What an unlisted key reads as is said at
each use (`Tab.get`). -/
abbrev Tab (α : Type) := List (Nat × α)

/-- The three packages of R1 and R2. -/
inductive Package where
  | rj2048 | rj512 | rj128
deriving DecidableEq, Repr

/-- An endpoint (p, x, y) of the event fabric (R116). Tiles have x 0–31, hub endpoints x 32–63. -/
structure Coord where
  p : Nat
  x : Nat
  y : Nat
deriving DecidableEq, Repr

/-- The completion and status codes of R354. -/
inductive Code where
  | done | notReady | empty | busy | repeated
  | failedFenced | failedPeerReset | failedParked | failedAccess | failedLink
  | failedUncorrectable | failedStewardReset | failedEpoch | failedSchedule | failedGambit
  | droppedSquall | droppedDetached | droppedRackFull
deriving DecidableEq, Repr, Inhabited

/-- A right on a target (R203), in rising order. -/
inductive Right where
  | none | read | use | admin
deriving DecidableEq, Repr

/-- The targets that have an access table of their own (R205). `tile i` is the register block of the
tile window with index i = x × 64 + y. -/
inductive Target where
  | rack (n : Nat) | pipBlock (b : Nat) | world (w : Nat) | poolWin (i : Nat) | port (n : Nat)
  | trace | hubBlock | bootBlock | poolBlock | powerBlock | tempoBlock | rackStoreBlock
  | tile (i : Nat)
deriving DecidableEq, Repr

end Sys2Proof
end

