-- ==== Sys2Proof/Image.lean ====
section
/-! DEFINITION. What the boot engine and AMEND read: the NVM directory, the Lanbel image, its sections,
the soft-fuse overlay, the charters and the hard fuses (11_bring_up.md, R244 to R258), as plain data.
The spec gives the byte layout of the directory, header and section table, and of some sections; of the
others (RACKS, ACCESS, PORTS, POOL, POWER, TRACE, LEARN, TILE_CONFIG ...) it gives the content only, so
every section's content is held as typed data (log 10). -/

namespace Sys2Proof

/-- A host table entry (R196). -/
structure HostEntry where
  ld : Nat
  enabled : Bool
  port : Nat
  pcieFallback : Bool
  cmdRack : Nat
  cplRack : Nat
  irq : BitVec 256
deriving DecidableEq, Repr

/-- What the image gives a rack (R149). -/
structure RackCfg where
  rack : Nat
  base : Nat
  size : Nat
  hubReserve : Nat
deriving DecidableEq, Repr

/-- A rack set (R157): its members in image order, and its policy (false priority, true rotation). -/
structure SetCfg where
  set : Nat
  members : List Nat
  rotation : Bool
deriving DecidableEq, Repr

/-- Words 0 to 5 of a world table entry (R34). -/
structure WorldEntry where
  w0 : Word
  w1 : Word
  w2 : Word
  w3 : Word
  w4 : Word
  w5 : Word
deriving DecidableEq, Repr

/-- The content of a PORTS section, one per port (R220 to R241). -/
structure PortCfg where
  mode : Nat
  presIgnore : Bool
  armAtReady : Bool
  inCount : Nat
  outCount : Nat
  statusRack : Nat
  protocol : DWord
  chans : Tab DWord
  lost : List (DWord × DWord)
  polls : List DWord
  targets : List DWord
  filters : List (DWord × DWord)
  outs : List (DWord × DWord)
  slots : List DWord
deriving DecidableEq, Repr

/-- The content of a POOL section (R177, R180, R185, POOL_KEEP_CFG). -/
structure PoolCfg where
  windows : Tab (DWord × DWord)
  mgroups : Tab (List Nat)
  members : List Nat
  spare : Option Nat
  floorPct : Nat
deriving DecidableEq, Repr

/-- The content of a POWER section (12_power.md). -/
structure PowerCfg where
  idle : Tab Word
  depth : BitVec 20
  pins : Tab Word
  wakeEn : BitVec 23
  capW : Nat
  turnDelayUs : Nat
  autoMs : Nat
  graceMs : Nat
  warmEnable : Bool
  rollOnWake : Bool
deriving DecidableEq, Repr

/-- The content of a TRACE section (14_drift_trace.md). -/
structure TraceCfg where
  out : Word
  filtWorld : Word
  filtA : Word
  filtAMask : Word
  trigs : Tab (Word × Word)
  srcs : Tab Word
  start : Bool
deriving DecidableEq, Repr

/-- A learning rule set (R101): the two tables and bytes 128–135. -/
structure RuleSet where
  pot : List Byte
  dep : List Byte
  params : DWord
deriving DecidableEq, Repr

/-- The configuration fields of a tile window that a TILE_CONFIG section carries (R53, R248). -/
structure TileCfg where
  cfg : Word
  spill : Word
  intakeCfg : Word
  twin : Word
  rtCfg : Word
  foA : Word
  foB : Word
  schedA : Word
  schedB : Word
  rules : Tab RuleSet
  repl : Word
  pret : Word
  wbase : Word
  abase : Word
  tbase : Word
  tabase : Word
  grps : Tab Nat
deriving DecidableEq, Repr

/-- A source directive (R257): words 0–2 of a bulk descriptor, the verify flag and the digest. -/
structure Directive where
  w0 : DWord
  w1 : DWord
  w2 : DWord
  verify : Bool
  digest : BitVec 384
deriving DecidableEq, Repr

/-- A section's content by type (R248). -/
inductive SectionData where
  | hostTable (es : List HostEntry)
  | access (ts : List (Target × BitVec 128))
  | racks (rs : List RackCfg) (sets : List SetCfg)
  | rackBindings (bs : Tab Word)
  | pips (ps : Tab (DWord × DWord))
  | worldTable (es : Tab WorldEntry) (pinCfg : Option (BitVec 8))
  | learn (modes : Tab Nat) (rack : Nat) (period : Nat)
  | hubFabric (lockstep : BitVec 4) (routes : Tab Word) (drainPip : Nat)
  | hubSchedule (ws : List DWord)
  | injection (es : Tab DWord)
  | ports (c : PortCfg)
  | portDest (es : Tab DWord)
  | pool (c : PoolCfg)
  | power (c : PowerCfg)
  | trace (c : TraceCfg)
  | steward (faultCfg : Word)
  | sources (ds : List Directive)
  | tileConfig (c : TileCfg)
  | tileRowdir (es : Tab DWord)
  | tileStateBlocks (bs : List (DWord × DWord))
  | tileModels (seed : Word) (ms : Tab (List DWord)) (leaks : Tab (List Word))
  | tileStore (ws : Tab Word)
  | tileUpstream (us : List (Coord × Nat))
  | tileColumn (bytes : List Byte)
  | tileInitState (rs : List (List (BitVec 128)))
  | tileDetour (es : Tab Word)
  | reserved
deriving DecidableEq, Repr

/-- A section table entry with the data it names (R247). `target` is 0xFFFF for a hub-wide section. -/
structure Section where
  target : Nat
  param : Word
  offset : Nat
  digest : BitVec 384
  data : SectionData
deriving DecidableEq, Repr

/-- A Lanbel image or amendment: the fields of its header (R245) and its sections. -/
structure Image where
  magic : Word
  version : Nat
  headerSize : Nat
  imageId : DWord
  secVersion : Nat
  packageMask : BitVec 8
  p : Nat
  allowDegraded : Bool
  commitFloor : Bool
  keeper : Bool
  standby : Bool
  bootRack : Nat
  keySlot : Nat
  hostWaitMs : Nat
  poolWaitMs : Nat
  baseImageId : DWord
  amendSeq : Nat
  key : BitVec 768
  signature : BitVec 768
  sections : List Section
deriving DecidableEq, Repr

/-- A charter (R252). -/
structure Charter where
  magic : Word
  version : Nat
  kind : Nat
  packageMask : BitVec 8
  serial : Word
  uid : BitVec 128
  signature : BitVec 768
deriving DecidableEq, Repr

/-- The key block of the charter store (R252). -/
structure CharterKey where
  magic : Word
  version : Nat
  key : BitVec 768
deriving DecidableEq, Repr

/-- The soft-fuse overlay (R251): `mapOut` lists (stack, physical tile). -/
structure Overlay where
  magic : Word
  uid : BitVec 128
  spanMask : Byte
  portMask : BitVec 16
  maxWidth : Nat
  capW : Nat
  mapOut : List (Nat × Nat)
  key : BitVec 768
  signature : BitVec 768
deriving DecidableEq, Repr

/-- The NVM (R244): directory magic, version and CRC, and what the directory's offsets name. -/
structure Nvm where
  magic : Word
  version : Nat
  crc : Word
  slotA : Option Image
  slotB : Option Image
  charterKey : CharterKey
  charters : List Charter
  overlay : Option Overlay
deriving DecidableEq, Repr

/-- The hard fuses (R250): `defects` lists (stack, physical tile). -/
structure Fuses where
  uid : BitVec 128
  hubRev : Byte
  baseRev : Byte
  keyHash0 : BitVec 384
  keyHash1 : BitVec 384
  keyHash2 : BitVec 384
  revoke : BitVec 3
  floor : Nat
  defects : List (Nat × Nat)
deriving DecidableEq, Repr

/-- What lies outside the hub die and is met by a boot: the NVM on the xSPI pins, the stacks whose DRAM
does not calibrate (R255), the tiles that fail the opening roll with their engine bits and the routers that fail it, as
(stack, physical tile) (R256), the bank voltages in mV (R333), the time from RAIL_EN to PWR_GOOD in 0.1 ms (PWR_RAIL), and
what each source directive reads: its bytes, or none where a line fails (R261). -/
structure BootEnv where
  nvm : Nvm
  dramFail : List Nat
  rollFail : List (Nat × Nat × BitVec 6)
  routerFail : List (Nat × Nat)
  bankMv : List Nat
  pgTime : Nat
  sources : List (Option (List Byte))
deriving DecidableEq, Repr

end Sys2Proof
end

