-- ==== Sys2Proof/Syntax.lean ====
section
/-! DEFINITION. The commands of the Rhoja: one constructor per row of the opcode table, in the table's
order, with the row's operands (log 1).

Operands. `rk`, `seq`: the command rack and sequence number of a host command the dispatcher has passed to
its executing unit (R155, R210). `m`: the 6-bit ID of the master that makes an access (R202). `t`: a tile by
its column index x × 64 + y (R171). `w`: a world id. `st`: a stack. `pt`: a stream port. `lk`: a span link.
`ep`: an endpoint by `epKey` (a tile's index, or 2,048 + 64 × (x − 32) + y for a hub endpoint). What stands in
a queue or in flight in the package is not an operand: the command takes it from the state. -/

namespace Sys2Proof

/-- What a LINK_DROP or HOT_RESET reaches (R217, R218): every LD of a port, or one LD. -/
inductive LinkTarget where
  | port (k : Nat)
  | ld (n : Nat)
deriving DecidableEq, Repr

/-- A volley as it crosses a package boundary (R122, R124, R125): header fields and body words. -/
structure WireVolley where
  dst : Coord
  src : Coord
  group : Nat
  epoch : Bool
  cls : Nat
  headwind : Bool
  urgent : Bool
  kind : Nat
  slot : Nat
  tempoBase : Nat
  phops : Nat
  body : List Word
deriving DecidableEq, Repr

/-- A span frame (R135): its sequence numbers, credit returns, whether its CRC and FEC are good, and the
volleys its flits carry. -/
structure SpanFrame where
  seq : Nat
  ack : Nat
  credit0 : Nat
  credit1 : Nat
  credit2 : Nat
  good : Bool
  volleys : List WireVolley
deriving DecidableEq, Repr

/-- The commands (spec/opcode_table.json, one constructor per row). -/
inductive Instr where
  -- host commands, executed by their unit after dispatch (R41, R211)
  | advance (rk seq : Nat)
  | groupAdvance (rk seq : Nat)
  | start (rk seq : Nat)
  | park (rk seq : Nat)
  | unpark (rk seq : Nat)
  | retire (rk seq : Nat)
  | inject (rk seq : Nat)
  | epochFlip (rk seq : Nat)
  /-- `am`: what the fetch of the named source returns (R267); none where the fetch fails. -/
  | amend (rk seq : Nat) (am : Option Image)
  | portRearm (rk seq : Nat)
  | traceStop (rk seq : Nat)
  | traceStart (rk seq : Nat)
  | traceSource (rk seq : Nat)
  | traceFilter (rk seq : Nat)
  | traceTrigger (rk seq : Nat)
  | traceOutput (rk seq : Nat)
  | traceClear (rk seq : Nat)
  | powerSetCap (rk seq : Nat)
  | powerSetDepth (rk seq : Nat)
  | powerSetDoldrums (rk seq : Nat)
  | fence (rk seq : Nat)
  /-- `env`: what the stack boot of R314 meets, for a stack. -/
  | resume (rk seq : Nat) (env : BootEnv)
  | sync (rk seq : Nat)
  | hostNop (rk seq : Nat)
  | commandDispatch (rk : Nat)
  -- register writes and reads with a row of their own
  | tmpHostAdv (m : Nat) (v : Word)
  | tileClear (m t : Nat) (v : Word)
  | tmpLearnGrp (m g : Nat) (v : Word)
  | push (m rk : Nat) (hdr : DWord)
  | pop (m rk : Nat)
  | peek (m rk : Nat)
  | latch (m rk : Nat)
  | setPop (m set : Nat)
  | setPeek (m set : Nat)
  | rackAck (m rk : Nat) (v : Word)
  | pipAdd (m : Nat) (v : Word)
  | pipSet (m : Nat) (v : Word)
  | pipTrysub (m : Nat) (v : Word)
  | pipArrive (m : Nat) (v : Word)
  | pipWait (m : Nat) (v : Word)
  | pipCancel (m : Nat) (v : Word)
  | pipTarget (m : Nat) (v : Word)
  | pipMode (m : Nat) (v : Word)
  | pipOvfClear (m : Nat) (v : Word)
  | poolKeepCfg (m : Nat) (v : Word)
  | addSpare (m : Nat) (v : Word)
  | reinit (m : Nat) (v : Word)
  | poolFlush (m : Nat) (v : Word)
  | hubLossTail (m : Nat) (v : Word)
  | stewardReset (m : Nat) (v : Word)
  | restart (m : Nat) (v : Word)
  /-- A read of `size` bytes of BAR0, or of BAR2; a LO register latches its HI register (R351). -/
  | loRead (m : Nat) (bar2 : Bool) (off size : Nat)
  /-- A 4-byte BAR0 read of a HI register at `off` (R351). -/
  | hiRead (m off : Nat)
  /-- A BAR0 write of `size` bytes, the low bytes of `v`; `bar2` for a write to BAR2 (R199). -/
  | registerWrite (m : Nat) (bar2 : Bool) (off size : Nat) (v : BitVec 256)
  /-- `line`: package address / 64 (R171). -/
  | hdmRead (m line : Nat)
  | hdmWrite (m line : Nat) (data : BitVec 512)
  | h2dSnoop (port addr : Nat)
  /-- `whole`: some true grants the whole range, some false removes it, none asks for anything else. -/
  | setLdAllocations (ld : Nat) (whole : Option Bool)
  | getLdInfo (port : Nat)
  | getLdAllocations (port : Nat)
  | linkDrop (what : LinkTarget)
  | linkRecovery (port : Nat)
  | hotReset (what : LinkTarget)
  /-- What the training reached (R192): width, 64 GT/s or 32, latency-optimised flits, and whether the
  partner offers no CXL (R195). -/
  | cxlLinkUp (port width : Nat) (fast lopt pcie : Bool)
  -- gambit instructions, executed by tile t's engine (R82, R83)
  | gNop (t : Nat)
  | gMov (t : Nat) (rd ra : BitVec 3)
  | gMovi (t : Nat) (rd : BitVec 3) (imm : BitVec 17)
  | gMovhi (t : Nat) (rd : BitVec 3) (imm : BitVec 16)
  | gLdp (t : Nat) (rd : BitVec 3) (k : BitVec 4)
  | gLdf (t : Nat) (rd : BitVec 3) (pos : BitVec 7) (wm1 : BitVec 5) (sx : Bool)
  | gStf (t : Nat) (ra : BitVec 3) (pos : BitVec 7) (wm1 : BitVec 5) (sat : Bool)
  | gAdd (t : Nat) (rd ra rb : BitVec 3)
  | gSub (t : Nat) (rd ra rb : BitVec 3)
  | gAdds (t : Nat) (rd ra rb : BitVec 3)
  | gSubs (t : Nat) (rd ra rb : BitVec 3)
  | gAddi (t : Nat) (rd ra : BitVec 3) (imm : BitVec 17)
  | gAddsi (t : Nat) (rd ra : BitVec 3) (imm : BitVec 17)
  | gMin (t : Nat) (rd ra rb : BitVec 3)
  | gMax (t : Nat) (rd ra rb : BitVec 3)
  | gAnd (t : Nat) (rd ra rb : BitVec 3)
  | gOr (t : Nat) (rd ra rb : BitVec 3)
  | gXor (t : Nat) (rd ra rb : BitVec 3)
  | gShli (t : Nat) (rd ra : BitVec 3) (sh : BitVec 5)
  | gShri (t : Nat) (rd ra : BitVec 3) (sh : BitVec 5)
  | gShrli (t : Nat) (rd ra : BitVec 3) (sh : BitVec 5)
  | gDecz (t : Nat) (rd ra rb : BitVec 3)
  | gMulq (t : Nat) (rd ra rb : BitVec 3) (sh : BitVec 5)
  | gMulqi (t : Nat) (rd ra : BitVec 3) (imm : BitVec 12) (sh : BitVec 5)
  | gLeak (t : Nat) (rd ra rb : BitVec 3) (table : BitVec 3)
  | gCmp (t : Nat) (ra rb : BitVec 3)
  | gCmpi (t : Nat) (ra : BitVec 3) (imm : BitVec 17)
  | gB (t : Nat) (cond : BitVec 3) (target : BitVec 9)
  | gRand (t : Nat) (rd : BitVec 3) (n : BitVec 5)
  | gEmit (t : Nat) (cond ra : BitVec 3) (bin learn fin : Bool)
  | gWake (t : Nat) (ra : BitVec 3) (useImm : Bool) (imm : BitVec 6)
  | gEnd (t : Nat)
  | gambitStepOverrun (t : Nat)
  -- tile events
  | events (t : Nat)
  | mergeDispatch (t : Nat)
  | stampUpdate (t w : Nat)
  | frontier (t : Nat)
  | turnReport
  | turnOpen (w : Nat)
  | turnClose (w : Nat)
  -- tempo events
  | tempoInEdge (pin : Nat) (rising : Bool)
  | tempoInGlitch (pin ns : Nat)
  | encoderCount (pt : Nat) (forward : Bool)
  | indexPulse (pt : Nat)
  | tetherExpiry (w : Nat)
  | retireComplete (w : Nat)
  | subscribe (lk leader follower : Nat)
  | tempoFwd (lk leader inc : Nat)
  | age (t : Nat)
  | sweepAck
  | tempoGrant (t : Nat)
  -- bank chain, learning, bank background work
  | psum (t : Nat)
  | lacc (t : Nat)
  | rrow (t : Nat)
  | chainAck (t : Nat)
  | consolidationPoint (t : Nat)
  | refreshDue (t bank : Nat)
  | scrubDeadline (t bank : Nat)
  | scrubBurst (t bank : Nat)
  -- fan-out, congestion, routing
  | lingerExpiry (t : Nat)
  | echo (ep : Nat)
  | echoSend (t src : Nat)
  | rateRecovery (ep : Nat)
  /-- The volley at the head of VC `vc` of input `inp` of the router at physical (px, py). -/
  | routeVolley (px py inp vc : Nat)
  | domainReady (dom : Nat)
  | spanVolley (lk : Nat)
  | spanFrame (lk : Nat) (f : SpanFrame)
  | spanAckTimeout (lk : Nat)
  | spanLinkRetrain (lk : Nat)
  | spanLinkUp (lk lanes : Nat)
  -- Lockstep slots
  | gather (t : Nat)
  | runSlot (t : Nat)
  | pot (t : Nat)
  | dep (t : Nat)
  | emitSlot (t : Nat)
  | quiet (t : Nat)
  | learnSlot (t : Nat)
  | slotMark (t : Nat)
  -- epochs, fences, control messages
  | epochNotice (st : Nat)
  | epochAck
  | epochEnd
  | drainDelta
  | fenceNotice (who : Nat)
  | pipAddMessage
  | cfgWrite (t : Nat)
  | cfgRead (t : Nat)
  | cfgReply
  | powerReqWake (dom : Nat)
  | powerReqIdle (dom : Nat)
  | powerReqState (dom state : Nat)
  | linkHold (lk : Nat)
  | linkHoldAck (lk : Nat)
  | powerReqCap (dom : Nat) (on : Bool)
  -- rack bindings and stream ports
  | rackBindingEvent (y : Nat)
  | outputEvent (pt : Nat)
  | canSlotSend (pt slot : Nat)
  | holdExpiry (pt ch : Nat)
  | rampStep (pt ch : Nat)
  /-- `ns`: how long HALT_N has been low (R342). -/
  | haltNAssert (ns : Nat)
  | haltNRelease
  | presenceChange (pt : Nat) (present : Bool)
  /-- `pids`: the provisional IDs of the I3C targets that answered ENTDAA (R224). -/
  | enumerationComplete (pt : Nat) (pids : List (BitVec 48))
  | enumerationTimeout (pt : Nat)
  | enumerationRetry (pt : Nat)
  | protocolLoss (pt : Nat)
  | i3cPoll (pt entry : Nat) (bytes : List Byte)
  | ibi (pt target : Nat) (bytes : Tab (List Byte))
  | hotJoin (pt : Nat)
  | csi2Packet (pt vcn dt : Nat) (crcOk : Bool) (words : List Word)
  | aerAddress (pt : Nat) (addr : Byte)
  | canFrame (pt : Nat) (ide remote : Bool) (fid : Nat) (data : List Byte)
  -- bulk plane and pool
  /-- `who`: the issuer (0 boot engine, 1 steward, or 0x24 + s for a tile of stack s); `w0`–`w3` the
  descriptor (R176); `ext`: what a POOL, HOST or NVM source returns line by line, none where it fails. -/
  | bulkTransfer (who : Nat) (w0 w1 w2 w3 : DWord) (ext : List (Option (BitVec 512)))
  | bulkComplete
  | rdS (agent win line : Nat)
  | rdX (agent win line : Nat)
  | wb (agent win line : Nat) (data : BitVec 512)
  | evc (agent win line : Nat)
  | grantS (agent : Nat)
  /-- `store`: the data the agent's one access stores into the line, none for a load (R183). -/
  | grantX (agent : Nat) (store : Option (BitVec 512))
  | wbDone (agent : Nat)
  | recall (agent : Nat)
  | inv (agent : Nat)
  | ack
  /-- `kind`: 0 BISnpCur, 1 BISnpData, 2 BISnpInv (R179). `conflict`: it crosses the gateway's own request. -/
  | bisnp (win line kind : Nat) (conflict : Bool)
  | poolWriteComplete (win line : Nat)
  | leaseTick
  /-- `lease`: the counter read; `claimed`: the id read back after a claim is this package's own (R186). -/
  | leaseCheck (lease : Nat) (claimed : Bool)
  /-- `member`: a member's place in the member list, or 8 for the spare. -/
  | memberFailed (member : Nat)
  /-- `granted`: line transfers the window leaves to the rebuild; `capacity`: transfers the port carries. -/
  | rebuildWindow (granted capacity : Nat)
  -- faults
  | lossItem
  | drainEnd (dom : Nat)
  | updateWritten (dom : Nat)
  | resetComplete (dom : Nat)
  | stackLost (st : Nat)
  | recoveryComplete (t : Nat)
  | recoveryRetry (t : Nat)
  | stewardWatchdog
  | stewardMemoryError
  | stewardRestart
  | amendCommit
  | traceRecord
  -- power
  | lullEntry (dom : Nat)
  | holdEntry (dom : Nat)
  /-- `p`: the average of the window in 0.1 W (R285). -/
  | capWindow (p : Nat)
  | thermalThrottle (sensor tj : Nat)
  | thermalClear (tj : Nat)
  | thermalTrip (sensor tj : Nat)
  | doldrumsEntry
  | doldrumsAuto
  | wakeTimerExpiry
  | perstRelease (port : Nat)
  | aonResetRelease
  | porRelease (env : BootEnv)
  | stackLinkTimeout (st : Nat)
  | sourceWaitExpiry
  | ready
  | pwrGoodTimeout
  | railRetry
  | supplyFault
  | resetN (low : Bool) (us : Nat)
  -- rows added to the table's end
  /-- `hc`: the handshake cycles passed since the endpoint's last refill (R139). -/
  | tokenBucketRefill (ep hc : Nat)
  | pwmPeriodStart (pt ch : Nat)
  | illegalTransition (pt : Nat)
  | msixVectorUnmask (m vec : Nat)
  | spanHoldWake (lk : Nat)
  | spanHoldRetrainTimeout (lk : Nat)
  | poolReadComplete (win line : Nat) (data : BitVec 512)
  | tracePortDrain (halfwords : Nat)
  | tripCooldown
  | alwaysOnSupplyLoss
  | leaderParked (lk leader : Nat)
  | dirtyLineHoldExpiry
deriving DecidableEq, Repr

end Sys2Proof
end

