-- ==== Sys2Proof/Decode.lean ====
section
/-! DEFINITION. The decoders. No row of the opcode table gives bits, so `decodeTableWord` reads no command from a
word. The one encoding the spec gives is that of the gambit instructions in a tile's store (R82, R83):
`decodeGambit` reads it, and `encodeGambit` writes it. -/

namespace Sys2Proof

/-- The command a word spells by the opcode table's bits: the table gives no row any bits, so none (log 18). -/
def decodeTableWord (_nbits _w : Nat) : Option Instr := none

/-- The instruction of tile t's engine that the store word w holds (R82, R83): reserved bits are ignored (R96),
an opcode the table does not name is undefined. -/
def decodeGambit (t : Nat) (w : Word) : Option Instr :=
  let rd := w.extractLsb' 23 3
  let ra := w.extractLsb' 20 3
  let rb := w.extractLsb' 17 3
  let imm17 := w.extractLsb' 0 17
  let sh := w.extractLsb' 0 5
  match (w.extractLsb' 26 6).toNat with
  | 0x00 => some (.gNop t)
  | 0x01 => some (.gMov t rd ra)
  | 0x02 => some (.gMovi t rd imm17)
  | 0x03 => some (.gMovhi t rd (w.extractLsb' 0 16))
  | 0x04 => some (.gLdp t rd (w.extractLsb' 0 4))
  | 0x05 => some (.gLdf t rd (w.extractLsb' 10 7) (w.extractLsb' 5 5) (w.getLsbD 4))
  | 0x06 => some (.gStf t ra (w.extractLsb' 10 7) (w.extractLsb' 5 5) (w.getLsbD 4))
  | 0x08 => some (.gAdd t rd ra rb)
  | 0x09 => some (.gSub t rd ra rb)
  | 0x0A => some (.gAdds t rd ra rb)
  | 0x0B => some (.gSubs t rd ra rb)
  | 0x0C => some (.gAddi t rd ra imm17)
  | 0x0D => some (.gAddsi t rd ra imm17)
  | 0x0E => some (.gMin t rd ra rb)
  | 0x0F => some (.gMax t rd ra rb)
  | 0x10 => some (.gAnd t rd ra rb)
  | 0x11 => some (.gOr t rd ra rb)
  | 0x12 => some (.gXor t rd ra rb)
  | 0x13 => some (.gShli t rd ra sh)
  | 0x14 => some (.gShri t rd ra sh)
  | 0x15 => some (.gShrli t rd ra sh)
  | 0x16 => some (.gDecz t rd ra rb)
  | 0x18 => some (.gMulq t rd ra rb (w.extractLsb' 12 5))
  | 0x19 => some (.gMulqi t rd ra (w.extractLsb' 5 12) sh)
  | 0x1A => some (.gLeak t rd ra rb (w.extractLsb' 14 3))
  | 0x1C => some (.gCmp t ra rb)
  | 0x1D => some (.gCmpi t ra imm17)
  | 0x20 => some (.gB t rd (w.extractLsb' 0 9))
  | 0x24 => some (.gRand t rd sh)
  | 0x28 => some (.gEmit t rd ra (w.getLsbD 2) (w.getLsbD 1) (w.getLsbD 0))
  | 0x29 => some (.gWake t ra (w.getLsbD 6) (w.extractLsb' 0 6))
  | 0x2C => some (.gEnd t)
  | _ => none

/-- An instruction word from its opcode and the fields rd, ra and rb at [25:23], [22:20] and [19:17] over a 17-bit
tail (R82). -/
def gWord (op : BitVec 6) (rd ra : BitVec 3) (tail : BitVec 20) : Word := op ++ rd ++ ra ++ tail

/-- The tail of the R format: rb at [19:17] over 17 bits. -/
def gTail (rb : BitVec 3) (low : BitVec 17) : BitVec 20 := rb ++ low

/-- The store word of a gambit instruction, reserved bits 0 (R82, R83); none for every other command. CMP and CMPI
take no rd; LDF takes its source from the record and STF has no rd. -/
def encodeGambit : Instr → Option Word
  | .gNop _ => some (gWord 0x00 0 0 0)
  | .gMov _ rd ra => some (gWord 0x01 rd ra 0)
  | .gMovi _ rd imm => some (gWord 0x02 rd 0 (gTail 0 imm))
  | .gMovhi _ rd imm => some (gWord 0x03 rd 0 (imm.zeroExtend 20))
  | .gLdp _ rd k => some (gWord 0x04 rd 0 (k.zeroExtend 20))
  | .gLdf _ rd pos wm1 sx => some (gWord 0x05 rd 0 (gTail 0 (pos ++ wm1 ++ BitVec.ofBool sx ++ 0#4)))
  | .gStf _ ra pos wm1 sat => some (gWord 0x06 0 ra (gTail 0 (pos ++ wm1 ++ BitVec.ofBool sat ++ 0#4)))
  | .gAdd _ rd ra rb => some (gWord 0x08 rd ra (gTail rb 0))
  | .gSub _ rd ra rb => some (gWord 0x09 rd ra (gTail rb 0))
  | .gAdds _ rd ra rb => some (gWord 0x0A rd ra (gTail rb 0))
  | .gSubs _ rd ra rb => some (gWord 0x0B rd ra (gTail rb 0))
  | .gAddi _ rd ra imm => some (gWord 0x0C rd ra (gTail 0 imm))
  | .gAddsi _ rd ra imm => some (gWord 0x0D rd ra (gTail 0 imm))
  | .gMin _ rd ra rb => some (gWord 0x0E rd ra (gTail rb 0))
  | .gMax _ rd ra rb => some (gWord 0x0F rd ra (gTail rb 0))
  | .gAnd _ rd ra rb => some (gWord 0x10 rd ra (gTail rb 0))
  | .gOr _ rd ra rb => some (gWord 0x11 rd ra (gTail rb 0))
  | .gXor _ rd ra rb => some (gWord 0x12 rd ra (gTail rb 0))
  | .gShli _ rd ra sh => some (gWord 0x13 rd ra (sh.zeroExtend 20))
  | .gShri _ rd ra sh => some (gWord 0x14 rd ra (sh.zeroExtend 20))
  | .gShrli _ rd ra sh => some (gWord 0x15 rd ra (sh.zeroExtend 20))
  | .gDecz _ rd ra rb => some (gWord 0x16 rd ra (gTail rb 0))
  | .gMulq _ rd ra rb sh => some (gWord 0x18 rd ra (gTail rb (sh ++ 0#12)))
  | .gMulqi _ rd ra imm sh => some (gWord 0x19 rd ra (gTail 0 (imm ++ sh)))
  | .gLeak _ rd ra rb table => some (gWord 0x1A rd ra (gTail rb (table ++ 0#14)))
  | .gCmp _ ra rb => some (gWord 0x1C 0 ra (gTail rb 0))
  | .gCmpi _ ra imm => some (gWord 0x1D 0 ra (gTail 0 imm))
  | .gB _ cond target => some (gWord 0x20 cond 0 (target.zeroExtend 20))
  | .gRand _ rd n => some (gWord 0x24 rd 0 (n.zeroExtend 20))
  | .gEmit _ cond ra bin learn fin =>
    some (gWord 0x28 cond ra ((BitVec.ofBool bin ++ BitVec.ofBool learn ++ BitVec.ofBool fin).zeroExtend 20))
  | .gWake _ ra useImm imm => some (gWord 0x29 0 ra ((BitVec.ofBool useImm ++ imm).zeroExtend 20))
  | .gEnd _ => some (gWord 0x2C 0 0 0)
  | _ => none

/-- The tile a gambit instruction runs in, none for every other command. -/
def gambitTile : Instr → Option Nat
  | .gNop t => some t
  | .gMov t _ _ => some t
  | .gMovi t _ _ => some t
  | .gMovhi t _ _ => some t
  | .gLdp t _ _ => some t
  | .gLdf t _ _ _ _ => some t
  | .gStf t _ _ _ _ => some t
  | .gAdd t _ _ _ => some t
  | .gSub t _ _ _ => some t
  | .gAdds t _ _ _ => some t
  | .gSubs t _ _ _ => some t
  | .gAddi t _ _ _ => some t
  | .gAddsi t _ _ _ => some t
  | .gMin t _ _ _ => some t
  | .gMax t _ _ _ => some t
  | .gAnd t _ _ _ => some t
  | .gOr t _ _ _ => some t
  | .gXor t _ _ _ => some t
  | .gShli t _ _ _ => some t
  | .gShri t _ _ _ => some t
  | .gShrli t _ _ _ => some t
  | .gDecz t _ _ _ => some t
  | .gMulq t _ _ _ _ => some t
  | .gMulqi t _ _ _ _ => some t
  | .gLeak t _ _ _ _ => some t
  | .gCmp t _ _ => some t
  | .gCmpi t _ _ => some t
  | .gB t _ _ => some t
  | .gRand t _ _ => some t
  | .gEmit t _ _ _ _ _ => some t
  | .gWake t _ _ _ => some t
  | .gEnd t => some t
  | _ => none

end Sys2Proof
end

