-- ==== Sys2Proof/Config.lean ====
section
/-! DEFINITION. What the spec names and does not compute, as constants without a body: the cryptographic
functions of R244 to R257 (log 8) and the free values (log 9). -/

namespace Sys2Proof

/-- SHA-384 of the 96 bytes of a public key (R246, R251, R252). -/
opaque Config.keyHash : BitVec 768 → BitVec 384
/-- SHA-384 of a section's data (R247). -/
opaque Config.sectionDigest : SectionData → BitVec 384
/-- SHA-384 of the data a source directive reads (R257). -/
opaque Config.dataDigest : List Byte → BitVec 384
/-- SHA-384 of the NVM directory, image header and section table, kept in the warm image (R282). -/
opaque Config.bootDigest : Nvm → Nat → BitVec 384
/-- SHA-384 of the soft-fuse overlay (R282). -/
opaque Config.overlayDigest : Option Overlay → BitVec 384
/-- ECDSA P-384 over header bytes 0x000–0x15F and the section table, with the header's key (R246). -/
opaque Config.imageVerifies : Image → Bool
/-- ECDSA P-384 over the overlay's bytes 0x000–0x25F with the overlay's key (R251). -/
opaque Config.overlayVerifies : Overlay → Bool
/-- ECDSA P-384 over a charter's bytes 0x00–0x5F with the charter store's key (R252). -/
opaque Config.charterVerifies : CharterKey → Charter → Bool
/-- The IEEE 802.3 CRC-32 of the directory's bytes 0–4,091 (R244). -/
opaque Config.directoryCrc : Nvm → Word
/-- A free choice of the hardware where the spec allows either outcome (R341, R342), by a plain counter. -/
opaque Config.freeBit : Nat → Bool
/-- A code the spec leaves open (R315), by the same counter. -/
opaque Config.freeCode : Nat → Code
/-- A choice among waiting units whose order the spec leaves open (R323), by the same counter. -/
opaque Config.freeIndex : Nat → Nat
/-- The bytes of memory of expander i, which the switch holds outside the package (R187). -/
opaque Config.expanderSize : Nat → Nat
/-- A 64-byte line whose content the spec leaves open (R174), by the same counter. -/
opaque Config.freeLine : Nat → BitVec 512

end Sys2Proof
end

