-- ==== Sys2Proof/Machine/State.lean ====
section
/-! DEFINITION. The state of the Rhoja as plain data: every register, table, queue, buffer, counter and
message in flight that the spec gives the package, the outcomes' reasons, and the state after reset.

Conventions. Tempo is the full 40-bit number held as a Nat; a stamp is its low 20 bits. Tables are sparse
(`Tab`); an unlisted key reads as the type's reset value. Field defaults are the reset values: a value the
Reset columns give, or the value log 3 names for a field whose reset is "Image", "Fuse" or not given. -/

namespace Sys2Proof.Machine

/-! ### Hub: masters, links, logical devices, dispatcher (09_host_link_and_access.md) -/

/-- What the last access of a master returned: words, completion code, CXL data poison (R200). -/
structure Response where
  words : List DWord := []
  code : Code := .done
  poison : Bool := false
deriving DecidableEq, Repr

/-- RACK_RES of one master at one rack (07). -/
structure RackRes where
  ack : Code := .done
  push : Code := .done
  refused : Nat := 0
deriving DecidableEq, Repr

/-- The state kept per master (R153, R158, R197, R351, registers marked "per master"). -/
structure Master where
  errValid : Bool := false
  errCode : Code := .done
  errBar2 : Bool := false
  errOffset : Nat := 0
  errCount : Nat := 0
  pipSel : Nat := 0
  waitTag : Nat := 0
  waitRack : Nat := 0
  waitCond : Nat := 0
  pipResCode : Code := .done
  pipResOp : Nat := 0
  fenceSel : Nat := 0
  domSel : Nat := 0
  /-- Staging body words by rack (R153). -/
  staging : Tab (Tab DWord) := []
  /-- POP latches by window: rack n, or 256 + set (R158). -/
  latches : Tab (List DWord) := []
  rackRes : Tab RackRes := []
  /-- HI latches by LO register offset (R351). -/
  loLatch : Tab Word := []
  resp : Response := {}
deriving DecidableEq, Repr

/-- A CXL port (HUB_LINK_k, HUB_LINK_EVT_k, HUB_LINK_ERR_k). State: 0 DOWN, 1 TRAINING, 2 UP_CXL, 3 UP_PCIE. -/
structure Link where
  state : Nat := 0
  width : Nat := 0
  rate : Nat := 0
  lopt : Bool := false
  drops : Nat := 0
  retrains : Nat := 0
  uncorrected : Nat := 0
  replays : Nat := 0
deriving DecidableEq, Repr

/-- A logical device (HUB_LD_n, HUB_LD_EVT_n, R196, R201). -/
structure Ld where
  enabled : Bool := false
  port : Nat := 0
  cmdRack : Nat := 0
  cplRack : Nat := 0
  irq : BitVec 256 := 0
  pcieFallback : Bool := false
  hdm : Bool := false
  up : Bool := false
  drops : Nat := 0
  failedLink : Nat := 0
  /-- Masked vectors; PBA bits; how often each vector has fired. -/
  masked : BitVec 32 := 0xFFFF_FFFF
  pba : BitVec 32 := 0
  fired : Tab Nat := []
  msixTable : Tab Word := []
deriving DecidableEq, Repr

/-- A command the dispatcher has taken and not completed (R155, R210, R215). `stage`: 0 taken, 1 begun and
waiting for a later event (RETIRE, FENCE, RESUME, EPOCH_FLIP, AMEND). -/
structure ExecCmd where
  rk : Nat
  seq : Nat
  src : Nat
  op : Nat
  words : List DWord
  stage : Nat
deriving DecidableEq, Repr

/-- The epoch flip in progress and HUB_EPOCH (R144 to R146). State: 0 STEADY, 1 FLIPPING, 2 DRAINING. -/
structure Epoch where
  state : Nat := 0
  /-- Current bank: false A, true B. -/
  current : Bool := false
  loaded : Bool := false
  drainPip : Nat := 0
  flips : Nat := 0
  /-- Stacks (16 for the hub endpoints) whose EPOCH_END has been sent, and whose is in. -/
  endsSent : List Nat := []
  ends : List Nat := []
  cmd : Option (Nat × Nat) := none
  /-- Old-epoch volleys sent and received by stack (16 the hub), and the received total last reported. -/
  sent : Tab Nat := []
  recv : Tab Nat := []
  told : Tab Nat := []
  /-- Stacks lost since the flip was accepted (R313). -/
  lost : List Nat := []
  /-- Sums the hub core keeps while the steward is in reset (R311). -/
  heldSum : Int := 0
deriving DecidableEq, Repr

/-- A Lockstep input that waits for its EMIT slot of the hub schedule: the hub endpoint and channel it entered by, its
world, its tempo, its destination entry and its value (R212, R228). -/
structure LockIn where
  ep : Nat
  ch : Nat
  w : Nat
  tempo : Nat
  dest : DWord
  value : Nat
deriving DecidableEq, Repr

structure Hub where
  p : Nat := 0
  reduced : BitVec 16 := 0
  masters : Tab Master := []
  links : Tab Link := []
  lds : Tab Ld := []
  executing : List ExecCmd := []
  /-- Commands failed by a link drop that wait for a completion entry (R217): in the rack, never executed. -/
  failedHeads : Tab Nat := []
  classLockstep : BitVec 4 := 0
  epoch : Epoch := {}
  fabLost : Nat := 0
  spanRoute : Tab Word := []
  injection : Tab DWord := []
  /-- Hub schedule banks A and B (R141). -/
  schedA : List DWord := []
  schedB : List DWord := []
  /-- The last answer to an H2D snoop (true RspIHitI) and to an FM API request (R193, R197). -/
  snoopHitI : Bool := false
  fmResp : List Nat := []
  /-- Lockstep inputs waiting for their hub EMIT slot (R228, R212). -/
  lockIn : List LockIn := []
deriving DecidableEq, Repr

/-! ### Racks and pips (07_racks_and_pips.md) -/

/-- A rack (R149, R154): configuration, messages oldest first, reserved entries, counters. -/
structure Rack where
  enabled : Bool := false
  base : Nat := 0
  size : Nat := 0
  hubReserve : Nat := 0
  set : Option Nat := none
  msgs : List (List DWord) := []
  reserved : Nat := 0
  next : Word := 0
  hubDropped : Nat := 0
  refused : Nat := 0
  /-- Sequence numbers of entries held in an uncorrectable word (R310). -/
  bad : List Word := []
deriving DecidableEq, Repr

structure RackSet where
  members : List Nat := []
  rotation : Bool := false
  last : Nat := 0
deriving DecidableEq, Repr

structure RackStore where
  racks : Tab Rack := []
  sets : Tab RackSet := []
  bindings : Tab Word := []
deriving DecidableEq, Repr

/-- A pip descriptor (R165). Mode: 0 COUNT, 1 GATE, 2 FLAG, 3 TURN. -/
structure Pip where
  count : Word := 0
  target : Word := 0
  mode : Nat := 0
  owner : Nat := 0
  ovf : Bool := false
  period : Nat := 0
  gen : BitVec 16 := 0
deriving DecidableEq, Repr

/-- A registered waiter (R168). -/
structure Waiter where
  pip : Nat
  master : Nat
  cond : Nat
  value : Word
  rack : Nat
  tag : Nat
deriving DecidableEq, Repr

structure PipStore where
  pips : Tab Pip := []
  waiters : List Waiter := []
  refused : Nat := 0
deriving DecidableEq, Repr

/-! ### Tempo, worlds and results (02_tempo_turns_worlds.md, 07) -/

inductive WState where
  | free | standby | running | parked | retiring
deriving DecidableEq, Repr

/-- A snapshot channel entry (R163). -/
structure Chan where
  value : Nat := 0
  stamp : Nat := 0
  valid : Bool := false
  count : Nat := 0
deriving DecidableEq, Repr

/-- What the hub gathers for an open or closing turn: flags, counts, channel working copy, and the tiles
whose report is in (R126, R161, R163, R305). -/
structure TurnInfo where
  reverse : Bool := false
  overrun : Bool := false
  jumped : Bool := false
  nondet : Bool := false
  incomplete : Bool := false
  loss : Bool := false
  outputLost : Bool := false
  intake : Nat := 0
  wheel : Nat := 0
  lossOvf : Nat := 0
  chans : Tab Chan := []
  reports : List Nat := []
  worked : Bool := false
deriving DecidableEq, Repr

/-- A world: its table entry, counters and state (R19 to R43). `opened` and `closed` count turns, so the
highest open turn is `opened − 1` and the last closed turn `closed − 1`. -/
structure World where
  st : WState := .free
  owner : Nat := 0
  peerLink : Nat := 0
  peerPackage : Nat := 0
  srcIndex : Nat := 0
  srcKind : Nat := 0
  statusRack : Nat := 0
  autostart : Bool := false
  privateLearn : Bool := false
  gateEn : Bool := false
  parkOnOverrun : Bool := false
  lagLimit : Nat := 0
  turnLenM1 : Nat := 0
  scaleDiv : Nat := 0
  tetherMs : Nat := 0
  scaleMul : Nat := 0
  turnPip : Nat := 0
  anchor : Nat := 0
  s : Nat := 0
  t : Nat := 0
  rem : Nat := 0
  debt : Nat := 0
  opened : Nat := 0
  closed : Nat := 0
  parkCause : Nat := 0
  overrun : Bool := false
  padv : Nat := 0
  /-- Wall time of the last advance that reached the tempo unit (R28, R36). -/
  lastAdv : Nat := 0
  /-- Age sweeps not yet acknowledged: notice tempo and the tiles still owing (R30). -/
  sweeps : List (Nat × List Nat) := []
  turns : Tab TurnInfo := []
  /-- Turns closed without a snapshot since the last one (R38). -/
  skipped : Nat := 0
  /-- Turns below this one opened by a JUMP and not yet closed (R38). -/
  jumpTo : Nat := 0
  /-- The flip turn, and the stacks whose EPOCH_ACK is due (R145). -/
  flipTurn : Option Nat := none
  flipAcks : List Nat := []
  /-- Events discarded while RETIRING (R42, R356), and the RETIRE command to complete. -/
  discarded : Nat := 0
  retireCmd : Option (Nat × Nat) := none
  /-- Turns delayed by the cap law under Lockstep (R287): wall time before which the next may not open. -/
  notBefore : Nat := 0
  /-- An amended entry that takes effect at the next turn boundary (R266). -/
  staged : Option WorldEntry := none
  /-- The tempo below which the hub has run its EMIT slots for this world (R141). -/
  hubEmit : Nat := 0
  /-- Turns at which the group's learning froze or resumed for this world, newest first (R115). -/
  freezes : List (Nat × Bool) := []
deriving DecidableEq, Repr

/-- A result-window slot (R161, R163). -/
structure Slot where
  turn : Nat := 0
  ready : Bool := false
  last : Word := 0xFFFF_FFFF
  flags : BitVec 7 := 0
  skipped : Nat := 0
  intake : Nat := 0
  wheel : Nat := 0
  lossOvf : Nat := 0
  tempo : Nat := 0
  wall : Nat := 0
  chans : Tab Chan := []
deriving DecidableEq, Repr

/-- A learning group (TMP_LEARN_GRP_g). -/
structure LearnGrp where
  mode : Nat := 0
  frozen : Bool := false
  points : Nat := 0
deriving DecidableEq, Repr

structure Tempo where
  advErrValid : Bool := false
  advErrWorld : Nat := 0
  advErrCode : Code := .done
  advErrCnt : Nat := 0
  learnRack : Nat := 0
  learnPeriod : Nat := 0
  groups : Tab LearnGrp := []
  worlds : Tab World := []
  /-- Slots by 4 × world + k; an unlisted slot is in the stage 1 form of R161. -/
  slots : Tab Slot := []
  /-- Subscriptions held for other packages (R27): link, leader, follower. -/
  subs : List (Nat × Nat × Nat) := []
deriving DecidableEq, Repr

/-! ### The event fabric (06_event_fabric.md) -/

/-- A control message (R134, R289, R294). -/
inductive Ctl where
  | fence (dom state seq : Nat)
  | age (w notice : Nat)
  | tempoGrant (w t : Nat)
  | epochNotice (w turn : Nat) (bank : Bool)
  | epochAck (st w : Nat)
  | epochEnd (st sent : Nat)
  | drainDelta (st recv : Nat)
  | powerReq (dom req state : Nat)
  | pipAdd (pip : Nat) (inc : Word) (by_ : Nat)
  | cfgWrite (t off : Nat) (data : Word) (m : Nat)
  | cfgRead (t off size : Nat) (m : Nat)
  | cfgReply (t off size : Nat) (data : DWord) (code : Code) (m : Nat)
  | subscribe (leader follower : Nat)
  | tempoFwd (leader inc : Nat)
  /-- The acknowledgement of an age sweep; the spec names no message for it (log 20). -/
  | sweepAck (t w notice : Nat)
deriving DecidableEq, Repr

/-- The body of a volley by kind (R125). -/
inductive VBody where
  | events (ws : List Word)
  | frontier (f : Nat) (mask : Word)
  | turnReport (lane : Nat) (nondet incomplete loss : Bool) (turn intake wheel : Nat)
  | echo (n : Nat)
  | control (root : Bool) (c : Ctl)
  | slotMark (n : Nat)
  | other (kind : Nat)
deriving DecidableEq, Repr

/-- A volley in flight (R122). `phys` is the physical column and row of a tile destination. -/
structure Volley where
  dst : Coord
  src : Coord
  physX : Nat
  physY : Nat
  group : Nat
  epoch : Bool
  cls : Nat
  vc : Nat
  headwind : Bool
  urgent : Bool
  slot : Nat
  tempoBase : Nat
  phops : Nat
  /-- hcheck agrees with the header. -/
  okHeader : Bool
  body : VBody
deriving DecidableEq, Repr

/-- A router (R118, R119): input buffers by 3 × input + VC (inputs 0 N, 1 E, 2 S, 3 W, 4 local, 5 spine), and
per output whether VC2 goes next. -/
structure Router where
  bufs : Tab (List Volley) := []
  vc2Next : Tab Bool := []
  failed : Bool := false
deriving DecidableEq, Repr

/-- Breeze pacing of one endpoint (R139): rate, bucket in 1/4,096 flit, and the endpoint's hc clock with
the times of the last decrease, ECHO and recovery. -/
structure Pace where
  r : Nat := 174
  bucket : Nat := 65536
  clock : Nat := 0
  lastDec : Option Nat := none
  lastEcho : Option Nat := none
  lastUp : Nat := 0
  waiting : List Volley := []
deriving DecidableEq, Repr

/-- A span link (R135, R136, R276, HUB_SPAN_STATE_k, HUB_SPAN_ERR_k). State: 0 DOWN, 1 TRAINING, 2 UP.
Hold: 0 active, 1 proposed by this end, 2 in Hold, 3 waking. -/
structure Span where
  state : Nat := 0
  lanes : Nat := 0
  replays : Nat := 0
  uncorrected : Nat := 0
  corrected : Nat := 0
  txSeq : Nat := 0
  rxSeq : Nat := 0
  /-- Frames sent and not acknowledged, oldest first. -/
  replay : List (Nat × List Volley) := []
  queue : List Volley := []
  arrived : List Volley := []
  credits : Tab Nat := []
  hold : Nat := 0
deriving DecidableEq, Repr

/-- A message of a network other than the event plane: the draft network, the bank chain, the bulk plane. -/
inductive MailBody where
  | ctl (c : Ctl)
  | psum (from_ seq : Nat) (es : List (Nat × Nat × Nat × Int))
  | lacc (from_ seq seg : Nat) (accs : List Word)
  | rrow (from_ seq seg : Nat) (words : List (BitVec 16))
  | chainAck (from_ seq : Nat)
deriving DecidableEq, Repr

/-- A message to `dst`, an endpoint key (`epKey`), a stack root (0x2000 + s) or a fence requester. -/
structure Mail where
  dst : Nat
  body : MailBody
deriving DecidableEq, Repr

structure Fabric where
  routers : Tab Router := []
  /-- Volleys at an endpoint's port that its unit has not yet taken, by `epKey`. -/
  inbox : Tab (List Volley) := []
  hubPace : Tab Pace := []
  /-- Marked volleys since the last ECHO, by 2^18 × destination key + source coordinate (R138). -/
  marked : Tab Nat := []
  spans : Tab Span := []
  mail : List Mail := []
deriving DecidableEq, Repr

/-! ### Tiles (03_tile.md, 04_gambits.md, 05_learning.md) -/

inductive FenceState where
  | active | draining | fenced | reset | update
deriving DecidableEq, Repr

/-- An event in an intake slot (R60, R102). `stamp` is the 20-bit stamp. -/
structure Ev where
  id : Nat
  w : Nat
  row : Nat
  value : Nat
  stamp : Nat
  lockstep : Bool
  cls : Nat
  src : Coord
  tag : Nat
  macDone : Bool
  depDone : Bool
deriving DecidableEq, Repr

/-- An open merge entry (R61): its key, the ids of its events, and the open slot it belongs to. -/
structure MergeEntry where
  row : Nat
  group : Nat
  cls : Nat
  lockstep : Bool
  evs : List (Nat × Nat)
deriving DecidableEq, Repr

/-- A wheel entry (R57, R58, R91). `due` is the full due tempo. -/
structure WheelEntry where
  w : Nat
  neuron : Nat
  due : Nat
  sum : Int
  woken : Bool
deriving DecidableEq, Repr

/-- A run waiting for the engine: a due wheel entry or a reflex event (R74). -/
structure DueRun where
  w : Nat
  neuron : Nat
  now : Nat
  input : Int
  woken : Bool
  reflex : Bool
deriving DecidableEq, Repr

/-- The run in progress (R74 to R79): entry data, registers g0–g7, flags, pc, steps, hc, the record buffer and
what completion will issue. -/
structure Run where
  w : Nat
  neuron : Nat
  slot : Nat
  now : Nat
  reflex : Bool
  g : List Word
  n : Bool
  z : Bool
  i : Bool
  pc : Nat
  steps : Nat
  hc : Nat
  buf : BitVec 128
  keepStamp : Bool
  emit : Option (Nat × Bool)
  wake : Option Nat
  lfsr : Option Word
deriving DecidableEq, Repr

/-- An open fan-out volley (R132). -/
structure OpenVolley where
  dst : DWord
  group : Nat
  cls : Nat
  epoch : Bool
  base : Nat
  words : List Word
  urgent : Bool
deriving DecidableEq, Repr

/-- An upstream table entry (R55): source, group, last frontier and mask; `seen` once a notice has come;
`out` while its tile is fenced and until its first notice after (R297, R298). -/
structure Upstream where
  src : Coord
  group : Nat
  frontier : Nat
  mask : Word
  seen : Bool
  out : Bool
deriving DecidableEq, Repr

/-- What a tile keeps of a resident world: frontier F, the T it was granted, drop counts and sampled
descriptors by turn, turn flags, how many turns it has reported, and the frontier of its last notice. -/
structure TileWorld where
  f : Nat := 0
  t : Nat := 0
  intakeDrops : Tab Nat := []
  wheelDrops : Tab Nat := []
  sampled : Tab Nat := []
  nondet : List Nat := []
  incomplete : List Nat := []
  loss : List Nat := []
  reported : Nat := 0
deriving DecidableEq, Repr

/-- A quarantined unit (R307). Source: 0 none yet, 1 twin, 2 home, 3 reset value. -/
structure Quar where
  unit : Nat
  repl : Nat
  recovered : Bool
  source : Nat
deriving DecidableEq, Repr

/-- A trace record before it is written (R318 to R320). -/
structure TraceRec where
  src : Nat
  kind : Nat
  time : Nat
  w : Nat
  wv : Bool
  a : Nat
  payload : List Nat
deriving DecidableEq, Repr

structure Tile where
  /-- A TILE_CONFIG section names the tile (R53). -/
  configured : Bool := false
  cfg : TileCfg := { cfg := 0x0004_1004, spill := 0, intakeCfg := 0, twin := 0, rtCfg := 0, foA := 0, foB := 0,
                     schedA := 0, schedB := 0, rules := [], repl := 0, pret := 0, wbase := 0, abase := 0,
                     tbase := 0, tabase := 0, grps := [] }
  seed : Word := 0
  rowdir : Tab DWord := []
  blocks : List (DWord × DWord) := []
  models : Tab (List DWord) := []
  leaks : Tab (List Word) := []
  store : Tab Word := []
  upstream : List Upstream := []
  detourA : Tab Word := []
  detourB : Tab Word := []
  initState : List (List (BitVec 128)) := []
  wsel : Nat := 0
  sram : Tab DWord := []
  spillCache : List Nat := []
  worlds : Tab TileWorld := []
  nextId : Nat := 0
  intake : List Ev := []
  merge : List MergeEntry := []
  wheel : List WheelEntry := []
  /-- The worlds and stamps being updated, with the runs still to start (R54, R58). -/
  upd : List (Nat × Nat) := []
  due : List DueRun := []
  run : Option Run := none
  /-- Post spikes that wait for their potentiation pass: neuron, world, stamp (R92, R106). -/
  posts : List (Nat × Nat × Nat) := []
  openVols : List OpenVolley := []
  /-- Emissions stalled while all open volleys wait (R132): world, neuron, stamp, value. -/
  stalled : List (Nat × Nat × Nat × Nat) := []
  lastNotice : Tab Nat := []
  pace : Pace := {}
  throttled : Bool := false
  sqSrcs : List (Coord × Nat) := []
  sqOther : Nat := 0
  intakeHigh : Nat := 0
  wheelHigh : Nat := 0
  /-- Current postponement by bank, and the page each bank's patrol stands at (R69). -/
  postponed : Tab Nat := []
  scrubPage : Tab Nat := []
  refPostponed : Nat := 0
  refForced : Nat := 0
  scrubForced : Nat := 0
  streaming : Bool := false
  ceDram : Nat := 0
  ceSram : Nat := 0
  ueParity : Nat := 0
  ueDram : Nat := 0
  ueSram : Nat := 0
  rowpass : Word := 0
  lanes : Word := 0
  gbRuns : Word := 0
  gbSteps : Word := 0
  gbFaultValid : Bool := false
  gbFaultCause : Nat := 0
  gbFaultModel : Nat := 0
  gbFaultPc : Nat := 0
  gbFaultWorld : Nat := 0
  gbFaultNeuron : Nat := 0
  gbFaultCnt : Nat := 0
  gbEmit2 : Nat := 0
  gbSlotOver : Nat := 0
  gbMaxModel : Nat := 0
  gbMaxHc : Nat := 0
  lrnDep : Nat := 0
  lrnPot : Nat := 0
  lrnClamp : Nat := 0
  lrnDchg : Nat := 0
  lrnPoint : Nat := 0
  /-- The consolidation point in progress here, and the segments rewritten since it began (R111). -/
  lrnBusy : Option Nat := none
  lrnRows : List Nat := []
  /-- Accumulators received from replicas, by segment unit, with their senders (R111). -/
  laccIn : List (Nat × Nat × List Word) := []
  hwEchoes : Nat := 0
  hwMarked : Nat := 0
  oldSent : Nat := 0
  oldRecv : Nat := 0
  /-- Lockstep: current schedule entry and turn; marks and volley counts: tag, source key, group, count. -/
  slot : Nat := 0
  schedTurn : Nat := 0
  marks : List (Nat × Nat × Nat × Nat) := []
  /-- Lockstep volleys sent since the last EMIT slot that covers them: destination, group, tag (R140). -/
  lockSent : List (Coord × Nat × Nat) := []
  got : List (Nat × Nat × Nat × Nat) := []
  chainSeq : Nat := 0
  /-- Chain messages sent and not acknowledged: sequence number, destination tile, message. -/
  chainOut : List (Nat × Nat × MailBody) := []
  quar : List Quar := []
  quarFull : Bool := false
  quarRecovered : Nat := 0
  quarLastUnit : Nat := 0
  quarLastSource : Nat := 0
  traceFifo : List TraceRec := []
  /-- Store addresses and SRAM words whose parity or SEC-DED code is broken (upsets; R71, R97, R309). -/
  badStore : List Nat := []
  badSram : List Nat := []
deriving DecidableEq, Repr

/-! ### Package memory, bulk plane and pool (08_memory_and_pool.md) -/

/-- Package DRAM: bytes by package address (R171) in canonical form, and the 64-bit words (address / 8) that
are uncorrectable or hold a corrected single-bit error (R71). -/
structure Memory where
  cells : List Host.Cell := []
  bad : List Nat := []
  soft : List Nat := []
deriving DecidableEq, Repr

/-- An agent's cached pool line (R182, R183). -/
structure CacheLine where
  win : Nat
  line : Nat
  data : BitVec 512
  dirty : Bool
  excl : Bool
deriving DecidableEq, Repr

/-- A request queued at a directory entry (R183, R184). -/
structure DirReq where
  agent : Nat
  excl : Bool
deriving DecidableEq, Repr

/-- What a line's holders are recalled for: a queued request, or a snoop of a kind (`DirEntry.snoops`). -/
inductive Why where
  | req (r : DirReq)
  | snoop (kind : Nat)
deriving DecidableEq, Repr

/-- The transaction that holds an entry: a pool read for a request; a writeback of an agent; answers awaited, with the
dirty data that has come; a pool write of such data. -/
inductive Trans where
  | read (r : DirReq)
  | writeback (agent : Nat) (data : BitVec 512)
  | await (from_ : List Nat) (data : Option (BitVec 512)) (why : Why)
  | store (data : BitVec 512) (why : Why)
deriving DecidableEq, Repr

/-- A directory entry (R182): the pool line, the window and line it was asked for by, its state (0 I, 1 S, 2 X), its
holders, its transaction, the requests and the snoops that wait: 0 BISnpCur, 1 BISnpData, 2 BISnpInv, 3 a flush of the
window, 4 an eviction. -/
structure DirEntry where
  key : Nat
  win : Nat
  line : Nat
  st : Nat := 0
  holders : List Nat := []
  trans : Option Trans := none
  queue : List DirReq := []
  snoops : List Nat := []
deriving DecidableEq, Repr

/-- A directory message on its way to an agent (R182). `dirty`: the data granted is not in the pool. -/
inductive DirMsg where
  | grantS (data : BitVec 512)
  | grantX (data : BitVec 512) (dirty : Bool)
  | wbDone | recall | inv
deriving DecidableEq, Repr

/-- An operation of the gateway on a pool line (R183, R188, R190): whether the directory waits for it, the agents it
serves otherwise, its stripe group, the accesses to expanders still to be made (expander, device address), the lines read
so far, the line to be written. `plan`: 0 plain, 1 data and parity, 2 data reconstructed with parity, 3 parity only. -/
structure PoolOp where
  win : Nat
  line : Nat
  cached : Bool
  agents : List Nat
  grp : Option Nat
  plan : Nat
  reads : List (Nat × Nat)
  got : List (BitVec 512)
  new : Option (BitVec 512)
  writes : List (Nat × Nat × BitVec 512)
deriving DecidableEq, Repr

/-- A bulk transfer issued and not complete (R176): its issuer and word 3 of its descriptor. -/
structure Bulk where
  who : Nat
  w3 : DWord
deriving DecidableEq, Repr

structure Pool where
  windows : Tab (DWord × DWord) := []
  mgroups : Tab (List Nat) := []
  members : List Nat := []
  spare : Option Nat := none
  /-- 0 NONE, 1 KEEPER, 2 STANDBY. -/
  role : Nat := 0
  /-- 0 HEALTHY, 1 DEGRADED, 2 REBUILDING, 3 FAILED. -/
  stripe : Nat := 0
  /-- The failed member, and the members that failed after it. -/
  failed : Option Nat := none
  failedMore : List Nat := []
  floorPct : Nat := 0
  /-- The rebuild cursor: its row, the line reached within it, and the row last published in the keeper block (R189). -/
  cursor : Nat := 0
  lineInRow : Nat := 0
  published : Nat := 0
  lease : Nat := 0
  /-- Standby: consecutive 100 ms reads that saw no change (R186). -/
  leaseStale : Nat := 0
  recon : Nat := 0
  merge : Nat := 0
  dirRecall : Nat := 0
  snoops : Nat := 0
  conflicts : Nat := 0
  dir : List DirEntry := []
  /-- Messages from the directory to agents, and answers from agents, oldest first: agent, window, line. -/
  toAgent : List (Nat × Nat × Nat × DirMsg) := []
  toDir : List (Nat × Nat × Nat × Option (BitVec 512)) := []
  /-- Requests that wait in the bulk plane while 256 lines are in transaction (R183). -/
  waitingReqs : List (Nat × Nat × DirReq) := []
  caches : Tab (List CacheLine) := []
  misses : Tab Nat := []
  /-- The code of an agent's last request that ended without a grant (R181). -/
  agentRes : Tab Code := []
  /-- Operations on the expanders, oldest first. -/
  ops : List PoolOp := []
  /-- The last BIRsp sent: window, line, 0 I, 1 S, 2 E. -/
  birsp : Option (Nat × Nat × Nat) := none
  bulks : List Bulk := []
  bulkDone : Nat := 0
  bulkFailed : Nat := 0
  hdmErrValid : Bool := false
  hdmErrCount : Nat := 0
  hdmErrCode : Code := .done
  hdmErrAddr : Nat := 0
  /-- The pool CXL link has dropped and dirty lines are held (R290, coincidence 8 of the pool chapter). -/
  linkLost : Bool := false
deriving DecidableEq, Repr

/-! ### Stream ports (10_stream_ports.md) -/

inductive PortState where
  | off | detached | enumerating | attached | fenced
deriving DecidableEq, Repr

inductive OState where
  | safe | armed | hold | ramp
deriving DecidableEq, Repr

/-- An output channel (R235 to R238): state, value, hold left, drops, and what its pin shows. -/
structure OutCh where
  ostate : OState := .safe
  value : Nat := 0
  holdLeft : Nat := 0
  drops : Nat := 0
  sampled : Tab Nat := []
  /-- Pin level: 0 low, 1 high, 2 high-impedance, 3 PWM. -/
  pin : Nat := 2
  compare : Nat := 0
  nextCompare : Option Nat := none
deriving DecidableEq, Repr

/-- A CAN transmit slot (R235, R236): data bytes, a frame due after min_gap, resending, frames sent. -/
structure CanSlot where
  bytes : Tab Nat := []
  due : Bool := false
  resend : Bool := false
  sent : Nat := 0
deriving DecidableEq, Repr

/-- A formed input event in the port queue (R228, R229): destination entry, world, value, stamp (tempo). -/
structure PortEv where
  dest : DWord
  w : Nat
  value : Nat
  stamp : Nat
deriving DecidableEq, Repr

structure Port where
  cfg : PortCfg := { mode := 0, presIgnore := false, armAtReady := false, inCount := 0, outCount := 0, statusRack := 0,
                     protocol := 0, chans := [], lost := [], polls := [], targets := [], filters := [], outs := [],
                     slots := [] }
  st : PortState := .detached
  pres : Bool := false
  presRaw : Bool := false
  enumFail : Bool := false
  cause : Nat := 0
  detaches : Nat := 0
  attaches : Nat := 0
  /-- The one-time arming of R240 is still to come. -/
  armPending : Bool := false
  sent : Nat := 0
  dropped : Nat := 0
  idle : Nat := 0
  coal : Nat := 0
  errors : Nat := 0
  ignored : Nat := 0
  encPos : Word := 0
  encErr : Nat := 0
  /-- Consecutive CRC errors or NACKs, and illegal transitions in the running millisecond. -/
  badRun : Nat := 0
  illegalRun : List Nat := []
  lastCap : Tab Nat := []
  queue : List PortEv := []
  sampled : Tab Nat := []
  drops : Tab Nat := []
  outs : Tab OutCh := []
  slots : Tab CanSlot := []
  /-- CAN transmitter recessive (R239). -/
  recessive : Bool := false
deriving DecidableEq, Repr

/-! ### Always-on domain and power (12_power.md, 15_electrical_and_package.md) -/

/-- Where the package stands: the always-on domain in reset; rails down; rails up with power-on reset
asserted; running; in Doldrums. -/
inductive Phase where
  | aonReset | railsDown | porAsserted | running | doldrums
deriving DecidableEq, Repr

/-- The warm image (R282). -/
structure Warm where
  valid : Bool := false
  slot : Nat := 0
  imageId : DWord := 0
  digest : BitVec 384 := 0
  overlayDigest : BitVec 384 := 0
  charters : BitVec 6 := 0
  rollOnWake : Bool := false
  lastRoll : Nat := 0
  /-- The remap and absent coordinates of R258, and the stacks whose links and DRAM have kept coefficients. -/
  defects : Tab (List Nat) := []
  absentStacks : List Nat := []
  absent : List Nat := []
  shifted : Nat := 0
  cause : Nat := 0
deriving DecidableEq, Repr

/-- The always-on domain (R270). -/
structure Aon where
  phase : Phase := .aonReset
  wall : Nat := 0
  pinCfg : BitVec 8 := 0
  pinCount : Tab Word := []
  glitch : Tab Nat := []
  haltN : Bool := false
  haltCount : Nat := 0
  resetLow : Bool := false
  railEn : Bool := false
  pwrGood : Bool := false
  railFaults : Nat := 0
  pgTime : Nat := 0
  wakeEn : BitVec 23 := 0
  wakeTimer : Nat := 0
  wakeHead : Nat := 0
  wakeLast : DWord := 0
  wakeHist : Tab DWord := []
  doldEntries : Nat := 0
  warmWakes : Nat := 0
  doldWorlds : Nat := 0
  doldMessages : Nat := 0
  doldLoss : Nat := 0
  warm : Warm := {}
  /-- The tether deadline for which the hub core armed the wake timer on its way into Hold (R275). -/
  tetherAt : Option Nat := none
  /-- A wake source latched during Doldrums entry or a trip: kind, detail (R280, R344). -/
  latched : Option (Nat × Nat) := none
  tripped : Bool := false
  fromDoldrums : Bool := false
  therm : Bool := false
  tjMax : Nat := 25
  vddTile : Nat := 100
  sensor : Nat := 0
deriving DecidableEq, Repr

/-- A power domain (R269, R271): 0 ACTIVE, 1 LULL, 2 HOLD; a wake in progress with its kind and detail. -/
structure Dom where
  state : Nat := 0
  holdWakes : Nat := 0
  waking : Option (Nat × Nat) := none
  /-- POWER_REQ IDLE has come since the domain last woke (R289). -/
  idle : Bool := false
deriving DecidableEq, Repr

structure Power where
  cfg : PowerCfg := { idle := [], depth := 0, pins := [], wakeEn := 0, capW := 0, turnDelayUs := 0, autoMs := 0,
                      graceMs := 0, warmEnable := false, rollOnWake := false }
  setCap : Nat := 0
  fuseCap : Nat := 0
  level : Nat := 0
  under : Nat := 0
  avg : Nat := 0
  capOver : Nat := 0
  telemDrop : Nat := 0
  doms : Tab Dom := []
  doldPending : Bool := false
  dispatchOff : Bool := false
deriving DecidableEq, Repr

/-! ### Faults (13_faults_and_fencing.md) -/

/-- A fence domain (R292, R299): state, sequence number of the last transition, records written while not
ACTIVE, the command to complete and whether it goes on through RESET. -/
structure Fence where
  st : FenceState := .active
  seq : Nat := 0
  losses : Nat := 0
  cmd : Option (Nat × Nat) := none
  reset : Bool := false
  drainUs : Nat := 0
  staged : List Section := []
  lost : Bool := false
  ok : Bool := true
deriving DecidableEq, Repr

/-- A loss item at the loss writer (R300 to R302). `turn`: the world's turn of R305, when it has one. -/
structure LossItem where
  code : Code
  kind : Nat
  w : Option Nat
  reporter : Coord
  a : Nat
  b : DWord
  ext : Option DWord
  stamp : Option Nat
  /-- A sampled descriptor of DROPPED_SQUALL or DROPPED_DETACHED (R304). -/
  sampled : Bool
deriving DecidableEq, Repr

structure Faults where
  queue : List LossItem := []
  head : Word := 0
  tail : Word := 0
  ovf : Nat := 0
  ovfNoWorld : Nat := 0
  late : Nat := 0
  cfg : Word := 0
  codeCnt : Tab Nat := []
  fences : Tab Fence := []
  fenceSeq : Nat := 0
  fenceCount : Nat := 0
  /-- Fence notices on their way to requesters: requester, domain, state (R295). -/
  notices : List (Nat × Nat × Nat) := []
  stwReset : Bool := false
  stwResets : Nat := 0
  stackLost : BitVec 16 := 0
  /-- Host register accesses outstanding at a tile: master, tile, offset, size, 0 for a write (R295). -/
  hostReqs : List (Nat × Nat × Nat × Nat) := []
deriving DecidableEq, Repr

/-! ### Drift trace (14_drift_trace.md) -/

/-- The last record of a source and kind, for delta form (R319, R321). -/
structure TraceCtx where
  time : Nat
  w : Nat
  wv : Bool
  a : Nat
deriving DecidableEq, Repr

/-- The trace unit. State: 0 OFF, 1 ARMED, 2 RUNNING, 3 POST, 4 DONE. -/
structure Trace where
  st : Nat := 0
  out : Word := 0
  serOk : Bool := false
  owner : Nat := 1
  fired : BitVec 4 := 0
  post : Nat := 0
  filtWorld : Word := 0
  filtA : Word := 0
  filtAMask : Word := 0
  trigs : Tab (Word × Word) := []
  srcs : Tab Word := []
  records : Nat := 0
  dropped : Nat := 0
  gaps : Nat := 0
  /-- The buffer by halfword index; the byte offset of the next write; the halfwords held; the byte offsets of the SYNC
  records it holds, oldest first. -/
  buf : Tab (BitVec 16) := []
  head : Nat := 0
  held : Nat := 0
  syncs : List Nat := []
  /-- Halfwords and records output since START, and the count of halfwords before the last SYNC (R322). -/
  outHw : Nat := 0
  sinceStart : Nat := 0
  syncAt : Nat := 0
  ctx : Tab TraceCtx := []
  lost : Tab Nat := []
  queue : List TraceRec := []
  /-- What the last drain drove on the parallel port: TRC_SOR and TRC_D of each edge; the halfwords left of its record.
  On the serial port: lane, data or control, block before the line code; blocks sent since START (R328). -/
  parOut : List (Bool × BitVec 16) := []
  recLeft : Nat := 0
  serOut : List (Nat × Bool × DWord) := []
  serBlocks : Nat := 0
deriving DecidableEq, Repr

/-! ### Boot (11_bring_up.md) -/

/-- An amendment between its checks and its completion (R267, R268). -/
structure Amending where
  rk : Nat
  seq : Nat
  im : Image
  committed : Bool
  /-- The domains that take an update of it. -/
  doms : List Nat
deriving DecidableEq, Repr

structure Boot where
  /-- 0 RUNNING, 1 READY, 2 FAILED (BOOT_STATUS.state); `started` once power-on reset was released. -/
  st : Nat := 0
  started : Bool := false
  slot : Nat := 0
  degraded : Bool := false
  phase : Nat := 1
  fail : Nat := 0
  timeMs : Nat := 0
  releaseWall : Nat := 0
  imageId : DWord := 0
  secVersion : Nat := 0
  chartersRead : Nat := 0
  chartersIgnored : BitVec 6 := 0
  chartersValid : BitVec 6 := 0
  amendSeq : Nat := 0
  amending : Option Amending := none
  /-- The sections of the amendments applied since the boot, oldest first (R266). -/
  amended : List Section := []
  refSection : Nat := 0
  refCode : Nat := 0
  hostBase : DWord := 0
  log : Tab (Word × Word) := []
  logHead : Nat := 0
  /-- BOOT_ROLL_s and BOOT_ROLL_FIRST_s. -/
  roll : Tab Word := []
  rollFirst : Tab Word := []
  env : BootEnv := { nvm := { magic := 0, version := 0, crc := 0, slotA := none, slotB := none,
                              charterKey := { magic := 0, version := 0, key := 0 }, charters := [], overlay := none },
                     dramFail := [], rollFail := [], routerFail := [], bankMv := [], pgTime := 0, sources := [] }
  image : Option Image := none
  /-- Physical defects by 8 × stack + column (R258), and absent stacks. -/
  defects : Tab (List Nat) := []
  absentStacks : List Nat := []
  /-- Tiles absent for reduced capacity, by column index. -/
  absent : List Nat := []
  shifted : Nat := 0
  /-- Directives still to run, with what each reads (R261). -/
  dirs : List (Directive × Option (List Byte)) := []
  spanDisable : Byte := 0
  portDisable : BitVec 16 := 0
  maxWidth : Nat := 0
  warmPath : Bool := false
deriving DecidableEq, Repr

/-- The state of the package. -/
structure State where
  /-- The package and its hard fuses (R2, R250): no reset changes them, but for the floor (R262). -/
  pkg : Package := .rj2048
  fuses : Fuses := { uid := 0, hubRev := 0, baseRev := 0, keyHash0 := 0, keyHash1 := 0, keyHash2 := 0, revoke := 0,
                     floor := 0, defects := [] }
  aon : Aon := {}
  pwr : Power := {}
  boot : Boot := {}
  hub : Hub := {}
  access : List (Target × BitVec 128) := []
  racks : RackStore := {}
  pips : PipStore := {}
  tmp : Tempo := {}
  fab : Fabric := {}
  tiles : Tab Tile := []
  mem : Memory := {}
  pool : Pool := {}
  ports : Tab Port := []
  portDest : Tab DWord := []
  flt : Faults := {}
  trc : Trace := {}
  /-- The MODEL's own counter: how many free values have been taken (`Config.freeBit`); no rule gives it. -/
  freeCtr : Nat := 0
  /-- The commands that wait, first in, first out. -/
  pending : List Instr := []
deriving DecidableEq, Repr

/-- Why a command faults. No meaning of this model faults: every command the spec gives an effect has it, and
a command whose trigger does not hold leaves the state as it is (log 2). -/
inductive Fault where
  /-- Raised by `exec` of an operand outside its range (`Instr.wf` false) only in a model that checks it; this
  model raises it nowhere. Safe: it would only stop the machine. -/
  | illFormed
deriving DecidableEq, Repr

/-- Why a command is refused. -/
inductive Refusal where
  /-- Raised by an arm of `exec` whose command has no meaning yet. Safe: nothing is claimed of that command. -/
  | notModelled (mnemonic : String)
deriving DecidableEq, Repr

/-- The package right after power is applied: the always-on domain still in its reset, nothing booted, every
field at its reset value (R8, R335; log 3 and log 4 for the values the spec does not state). -/
def State.reset : State := {}

end Sys2Proof.Machine
end

