-- ==== Sys2Proof/Machine/Ops.lean ====
section
/-! DEFINITION. The shared operations: sparse tables, bit fields, the named parts of the state, the package's
populations, memory, rights, refused accesses, racks, the loss queue, completions and wakes. Every meaning is
written over these. -/

namespace Sys2Proof

/-! ### Codes (R354), rights (R203), packages (R2, R11), coordinates (R116) -/

def Code.toNat : Code → Nat
  | .done => 0x00 | .notReady => 0x01 | .empty => 0x02 | .busy => 0x03 | .repeated => 0x04
  | .failedFenced => 0x10 | .failedPeerReset => 0x11 | .failedParked => 0x12 | .failedAccess => 0x13
  | .failedLink => 0x14 | .failedUncorrectable => 0x15 | .failedStewardReset => 0x16 | .failedEpoch => 0x17
  | .failedSchedule => 0x18 | .failedGambit => 0x19
  | .droppedSquall => 0x20 | .droppedDetached => 0x21 | .droppedRackFull => 0x22

def Right.rank : Right → Nat
  | .none => 0 | .read => 1 | .use => 2 | .admin => 3

def Right.ofBits (n : Nat) : Right :=
  if n = 0 then .none else if n = 1 then .read else if n = 2 then .use else .admin

def Package.code : Package → Nat
  | .rj2048 => 1 | .rj512 => 2 | .rj128 => 3

/-- Logical columns and rows of the package (R2). -/
def Package.xs : Package → Nat
  | .rj2048 => 32 | .rj512 => 8 | .rj128 => 8
def Package.ys : Package → Nat
  | .rj2048 => 64 | .rj512 => 64 | .rj128 => 16

/-- The stacks of the package (R2). -/
def Package.stacks : Package → List Nat
  | .rj2048 => [0, 1, 2, 3, 4, 5, 6, 7, 8, 9, 10, 11, 12, 13, 14, 15]
  | .rj512 => [0, 4, 8, 12]
  | .rj128 => [0]

def Package.cxlPorts : Package → Nat
  | .rj2048 => 2 | .rj512 => 1 | .rj128 => 1

def Package.spanLinks : Package → Nat
  | .rj2048 => 8 | .rj512 => 4 | .rj128 => 1

/-- An endpoint's coordinate as a 12-bit source field, x × 64 + y. -/
def Coord.key (c : Coord) : Nat := 64 * c.x + c.y

end Sys2Proof

namespace Sys2Proof.Machine

open Sys2Proof

/-! ### Sparse tables -/

/-- The value at key k, `d` where the table lists none. -/
def tget {α : Type} (d : α) (k : Nat) : Tab α → α
  | [] => d
  | (k', v) :: r => if k' = k then v else tget d k r

/-- The value at key k, if listed. -/
def tfind {α : Type} (k : Nat) : Tab α → Option α
  | [] => none
  | (k', v) :: r => if k' = k then some v else tfind k r

/-- The table with value v at key k, keys kept rising. -/
def tset {α : Type} (k : Nat) (v : α) : Tab α → Tab α
  | [] => [(k, v)]
  | (k', v') :: r =>
    if k < k' then (k, v) :: (k', v') :: r
    else if k' = k then (k, v) :: r
    else (k', v') :: tset k v r

/-- The table without key k. -/
def tdel {α : Type} (k : Nat) : Tab α → Tab α
  | [] => []
  | (k', v') :: r => if k' = k then tdel k r else (k', v') :: tdel k r

/-- The table with key k's value changed by f. -/
def tmod {α : Type} (d : α) (k : Nat) (f : α → α) (t : Tab α) : Tab α := tset k (f (tget d k t)) t

/-! ### Bit fields and counters (R4) -/

/-- Bits [hi:lo] of x. -/
def fb (x hi lo : Nat) : Nat := x / 2 ^ lo % 2 ^ (hi + 1 - lo)

/-- Bit i of x. -/
def bit (x i : Nat) : Bool := x / 2 ^ i % 2 = 1

def b2n (b : Bool) : Nat := if b then 1 else 0

/-- Bits [hi:lo] of the 64-bit word w. -/
def wf (w : DWord) (hi lo : Nat) : Nat := fb w.toNat hi lo

/-- Saturating count: n + k held at 2^w − 1. -/
def sat (w n k : Nat) : Nat := min (n + k) (2 ^ w - 1)

/-- x held at 2^w − 1. -/
def satv (w x : Nat) : Nat := min x (2 ^ w - 1)

/-- Signed saturation to 24 bits (R63, R81). -/
def sat24 (x : Int) : Int := min (max x (-8388608)) 8388607

/-- The low w bits of a signed number. -/
def mask (w : Nat) (x : Int) : Nat := (x % (2 ^ w : Int)).toNat

/-- x, a w-bit pattern, read as a signed number. -/
def sgn (w x : Nat) : Int := if x % 2 ^ w < 2 ^ (w - 1) then (x % 2 ^ w : Nat) else (x % 2 ^ w : Nat) - (2 ^ w : Int)

def ceilDiv (a b : Nat) : Nat := (a + b - 1) / b

/-- The number of ones among the low w bits of x. -/
def popcount : Nat → Nat → Nat
  | 0, _ => 0
  | w + 1, x => x % 2 + popcount w (x / 2)

/-! ### Named parts of the state -/

def State.master (s : State) (m : Nat) : Master := tget {} m s.hub.masters
def State.modMaster (s : State) (m : Nat) (f : Master → Master) : State :=
  { s with hub.masters := tmod {} m f s.hub.masters }
def State.link (s : State) (k : Nat) : Link := tget {} k s.hub.links
def State.modLink (s : State) (k : Nat) (f : Link → Link) : State := { s with hub.links := tmod {} k f s.hub.links }
def State.ld (s : State) (n : Nat) : Ld := tget {} n s.hub.lds
def State.modLd (s : State) (n : Nat) (f : Ld → Ld) : State := { s with hub.lds := tmod {} n f s.hub.lds }
def State.rack (s : State) (r : Nat) : Rack := tget {} r s.racks.racks
def State.modRack (s : State) (r : Nat) (f : Rack → Rack) : State :=
  { s with racks.racks := tmod {} r f s.racks.racks }
def State.rackSet (s : State) (n : Nat) : RackSet := tget {} n s.racks.sets
def State.pip (s : State) (n : Nat) : Pip := tget {} n s.pips.pips
def State.modPip (s : State) (n : Nat) (f : Pip → Pip) : State := { s with pips.pips := tmod {} n f s.pips.pips }
def State.world (s : State) (w : Nat) : World := tget {} w s.tmp.worlds
def State.modWorld (s : State) (w : Nat) (f : World → World) : State :=
  { s with tmp.worlds := tmod {} w f s.tmp.worlds }
def State.tile (s : State) (t : Nat) : Tile := tget {} t s.tiles
def State.modTile (s : State) (t : Nat) (f : Tile → Tile) : State := { s with tiles := tmod {} t f s.tiles }
def State.port (s : State) (n : Nat) : Port := tget {} n s.ports
def State.modPort (s : State) (n : Nat) (f : Port → Port) : State := { s with ports := tmod {} n f s.ports }
def State.span (s : State) (k : Nat) : Span := tget {} k s.fab.spans
def State.modSpan (s : State) (k : Nat) (f : Span → Span) : State := { s with fab.spans := tmod {} k f s.fab.spans }
def State.fence (s : State) (d : Nat) : Fence := tget {} d s.flt.fences
def State.modFence (s : State) (d : Nat) (f : Fence → Fence) : State :=
  { s with flt.fences := tmod {} d f s.flt.fences }
def State.dom (s : State) (d : Nat) : Dom := tget {} d s.pwr.doms
def State.modDom (s : State) (d : Nat) (f : Dom → Dom) : State := { s with pwr.doms := tmod {} d f s.pwr.doms }

def Tile.world (t : Tile) (w : Nat) : TileWorld := tget {} w t.worlds
def Tile.modWorld (t : Tile) (w : Nat) (f : TileWorld → TileWorld) : Tile :=
  { t with worlds := tmod {} w f t.worlds }

/-- The package is past READY (R262). -/
def State.isReady (s : State) : Bool := s.boot.st = 1

/-! ### Populations (R2, R11, R116, R171) -/

/-- Charter kind k (1 LEARN, 2 KEEPER, 3 SPAN, 4 TRACE_SER, 5 WORLDS_8K, 6 HOST_X16) is valid (R3, R252). -/
def State.charter (s : State) (k : Nat) : Bool := bit s.boot.chartersValid.toNat (k - 1)

/-- The highest live world id plus 1 (R3). -/
def State.worldLimit (s : State) : Nat := if s.charter 5 then 8192 else 1024

def tileX (t : Nat) : Nat := t / 64
def tileY (t : Nat) : Nat := t % 64

/-- The stack of a tile (R2). -/
def stackOf (t : Nat) : Nat := tileX t / 8 + 4 * (tileY t / 16)

/-- The index of a tile within its stack, in logical order. -/
def tileInStack (t : Nat) : Nat := tileX t % 8 * 16 + tileY t % 16

/-- The coordinate is one the package populates (R2). -/
def State.populated (s : State) (t : Nat) : Bool := tileX t < s.pkg.xs && tileY t < s.pkg.ys

/-- The tile is populated and not declared absent for reduced capacity (R258). -/
def State.tilePresent (s : State) (t : Nat) : Bool := s.populated t && !(s.boot.absent.contains t)

def State.stackPresent (s : State) (st : Nat) : Bool := s.pkg.stacks.contains st

/-- The key of an endpoint: a tile's index, or 2,048 + 64 × (x − 32) + y for a hub endpoint. -/
def epKey (x y : Nat) : Nat := 64 * x + y

def epX (k : Nat) : Nat := k / 64
def epY (k : Nat) : Nat := k % 64

/-- The coordinate of an endpoint of this package. -/
def State.coord (s : State) (k : Nat) : Coord := { p := s.hub.p, x := epX k, y := epY k }

/-- The hub endpoint a hub column and row name exists (R116, R117). -/
def hubEndpointExists (x y : Nat) : Bool :=
  (x = 32 && y < 64) || (x = 33 && y = 0) || (x = 34 && y < 16)
    || ((x = 35 || x = 36 || x = 37 || x = 38) && y = 0) || (40 ≤ x && x < 48 && y = 0)

/-- The reporter coordinate of the fence controller and the steward (R301). -/
def State.hubReporter (s : State) : Coord := { p := s.hub.p, x := 36, y := 0 }

/-! ### Domain ids (R269, R291) -/

def tileDom (t : Nat) : Nat := 0x800 + t
def stackDom (st : Nat) : Nat := 0x040 + st
def dramDom (st : Nat) : Nat := 0x050 + st
def portDom (n : Nat) : Nat := 0x020 + n
def spanDom (k : Nat) : Nat := 0x010 + k

/-- The domain class of R269, none where the domain does not exist. -/
def State.domClass (s : State) (d : Nat) : Option Nat :=
  if d = 1 then some 3 else if d = 2 then some 4 else if d = 3 then some 5 else if d = 4 then some 6
  else if d = 8 || d = 9 then (if d - 8 < s.pkg.cxlPorts then some 7 else none)
  else if 0x010 ≤ d && d < 0x018 then (if d - 0x010 < s.pkg.spanLinks then some 8 else none)
  else if 0x020 ≤ d && d < 0x030 then some 9
  else if 0x040 ≤ d && d < 0x050 then (if s.stackPresent (d - 0x040) then some 1 else none)
  else if 0x050 ≤ d && d < 0x060 then (if s.stackPresent (d - 0x050) then some 2 else none)
  else if 0x800 ≤ d && d < 0x1000 then (if s.populated (d - 0x800) then some 0 else none)
  else none

/-- The domain can be fenced (R291): tiles, stacks, stream ports, span links, pool gateway, trace unit. -/
def State.fenceable (s : State) (d : Nat) : Bool :=
  match s.domClass d with
  | some 0 => !(s.boot.absent.contains (d - 0x800))
  | some 1 => !(s.boot.absentStacks.contains (d - 0x040))
  | some 9 => true | some 8 => true | some 5 => true | some 6 => true
  | _ => false

def State.domState (s : State) (d : Nat) : FenceState := (s.fence d).st
def State.domActive (s : State) (d : Nat) : Bool := (s.fence d).st = .active

def FenceState.toNat : FenceState → Nat
  | .active => 0 | .draining => 1 | .fenced => 2 | .reset => 3 | .update => 4

/-- The tile and its stack are both ACTIVE (R296, R350). -/
def State.tileActive (s : State) (t : Nat) : Bool :=
  s.domActive (tileDom t) && s.domActive (stackDom (stackOf t))

/-- The domain does its accepted work: it is ACTIVE or DRAINING (R292, R293). -/
def State.domRuns (s : State) (d : Nat) : Bool := s.domState d = .active || s.domState d = .draining

/-- The tile runs: it and its stack are ACTIVE or DRAINING. A tile that does not has sent its fence notice (R297). -/
def State.tileRuns (s : State) (t : Nat) : Bool := s.domRuns (tileDom t) && s.domRuns (stackDom (stackOf t))

/-- The stack is lost and has not come back (R313, R314). -/
def State.stackIsLost (s : State) (st : Nat) : Bool := (s.fence (stackDom st)).lost

/-! ### Rights (R203 to R208) -/

/-- The entry of master m in a 128-bit table (R203). -/
def tableEntry (tab : BitVec 128) (m : Nat) : Right := Right.ofBits (fb tab.toNat (2 * m + 1) (2 * m))

/-- The image's table of a target; NONE for every master where it names none (R205). -/
def findTable (tg : Target) : List (Target × BitVec 128) → BitVec 128
  | [] => 0
  | (t, b) :: r => if t = tg then b else findTable tg r

/-- The four fixed rules of R204 over a right r. -/
def State.fixedRight (s : State) (m : Nat) (r : Right) : Right :=
  if m = 1 then .admin
  else if m = 0 then (if s.isReady then .none else .admin)
  else if 0x3C ≤ m then .none
  else if m = 2 && r.rank > 1 then .read
  else r

/-- The right of master m on a target (R203 to R205): the table, the world's owner, the fixed rules. -/
def State.right (s : State) (m : Nat) (tg : Target) : Right :=
  let base := tableEntry (findTable tg s.access) m
  match tg with
  | .world w =>
    if s.worldLimit ≤ w then s.fixedRight m .none
    else if (s.world w).owner = m && (s.world w).st ≠ .free then s.fixedRight m .admin
    else s.fixedRight m base
  | _ => s.fixedRight m base

/-- The right on pip n: its block's, or ADMIN for its owner (R165, R204). -/
def State.pipRight (s : State) (m n : Nat) : Right :=
  if (s.pip n).owner = m && (tfind n s.pips.pips).isSome then s.fixedRight m .admin
  else s.right m (.pipBlock (n / 4096))

def State.has (s : State) (m : Nat) (tg : Target) (need : Right) : Bool := need.rank ≤ (s.right m tg).rank

/-- A set window needs its right on every member rack (R205). -/
def State.hasSet (s : State) (m n : Nat) (need : Right) : Bool :=
  (s.rackSet n).members.all (fun r => s.has m (.rack r) need)

/-- The LD of a host master (R197). -/
def ldOf (m : Nat) : Nat := m - 4
def isHost (m : Nat) : Bool := 4 ≤ m && m < 20

/-! ### Wakes (R273, R284) -/

/-- The wake record (R284). -/
def wakeRecord (kind from_ dom detail wall : Nat) : DWord :=
  BitVec.ofNat 64 (kind + from_ * 2 ^ 4 + dom * 2 ^ 6 + detail % 2 ^ 14 * 2 ^ 18 + wall % 2 ^ 32 * 2 ^ 32)

def State.recordWake (s : State) (kind from_ dom detail : Nat) : State :=
  let r := wakeRecord kind from_ dom detail s.aon.wall
  { s with aon.wakeLast := r, aon.wakeHist := tset s.aon.wakeHead r s.aon.wakeHist,
           aon.wakeHead := (s.aon.wakeHead + 1) % 16 }

/-- The first request to a domain in Lull or Hold wakes it (R273). Its exit stall ends with DOMAIN_READY; the stall
is wall time, so the request itself is served in the same step (log 17). -/
def State.wakeDom (s : State) (d kind detail : Nat) : State :=
  let x := s.dom d
  if x.state = 0 || x.waking.isSome then s
  else
    let s1 := s.modDom d (fun y =>
      { y with waking := some (kind, detail), idle := false, holdWakes := if y.state = 2 then sat 16 y.holdWakes 1 else y.holdWakes })
    if x.state = 2 then s1.recordWake kind 2 d detail else s1

/-- The package leaves Doldrums: the source is recorded, and RAIL_EN rises (R280, R284). -/
def State.packageWake (s : State) (kind detail : Nat) : State :=
  let s1 := s.recordWake kind 3 0 detail
  { s1 with aon.phase := .porAsserted, aon.railEn := true, aon.fromDoldrums := true, aon.latched := none }

/-- Wake source i of PWR_WAKE_EN fires: in Doldrums it wakes the package; during entry and after a trip it is latched
(R280, R344). -/
def State.wakeSource (s : State) (i kind detail : Nat) : State :=
  let late : State := { s with aon.latched := if s.aon.latched.isSome then s.aon.latched else some (kind, detail) }
  if !s.aon.wakeEn.getLsbD i then s
  else if s.aon.phase = .doldrums then (if s.aon.tripped then late else s.packageWake kind detail)
  else if s.pwr.doldPending then late
  else s

/-- Wakes a tile and its stack fabric. -/
def State.wakeTile (s : State) (t kind detail : Nat) : State :=
  (s.wakeDom (stackDom (stackOf t)) kind detail).wakeDom (tileDom t) kind detail

/-- A tile's bank is accessed: its DRAM domain wakes (R273, R284). -/
def State.wakeBank (s : State) (t : Nat) : State := s.wakeDom (dramDom (stackOf t)) 11 t

/-- A host access by master m wakes its CXL port and the hub core (R273). -/
def State.hostWake (s : State) (m : Nat) : State :=
  (if isHost m then s.wakeDom (8 + (s.ld (ldOf m)).port) 1 m else s).wakeDom 1 1 m

/-! ### Host responses and refused accesses (R200) -/

/-- The access returns these words with code DONE. -/
def State.respond (s : State) (m : Nat) (ws : List DWord) : State :=
  (s.hostWake m).modMaster m (fun x => { x with resp := { words := ws, code := .done, poison := false } })

/-- The access is refused (R200): nothing changes but the master's HUB_ACC_ERR, its count, and the answer, which
is poison for a read. -/
def State.refuse (s : State) (m : Nat) (bar2 : Bool) (off : Nat) (c : Code) (isRead : Bool) : State :=
  (s.hostWake m).modMaster m (fun x =>
    { x with
      errValid := true
      errCode := if x.errValid then x.errCode else c
      errBar2 := if x.errValid then x.errBar2 else bar2
      errOffset := if x.errValid then x.errOffset else off
      errCount := sat 32 x.errCount 1
      resp := { words := if isRead then [0] else [], code := c, poison := isRead } })

/-! ### Trace records (R317, R318, R320, R324, R326) -/

/-- Trace is on in ARMED, RUNNING and POST (R324), and no record is taken while its domain is not ACTIVE (R330). -/
def State.traceOn (s : State) : Bool := 1 ≤ s.trc.st && s.trc.st ≤ 3 && s.domActive 4

/-- The source ids that trace records of a kind at endpoint (x, y) (R318, R324). -/
def State.traceSources (s : State) (x y kind : Nat) : List Nat :=
  if s.traceOn then
    (s.trc.srcs.filter (fun e => bit e.2.toNat 31 && bit e.2.toNat (11 + kind) && fb e.2.toNat 11 6 = x
      && fb e.2.toNat 5 0 = y)).map (·.1)
  else []

/-- A record passes the filters and its target is one that the trace owner may read (R324). -/
def State.tracePasses (s : State) (w : Nat) (wv : Bool) (a : Nat) (tg : Target) : Bool :=
  let f := s.trc.filtWorld.toNat
  (!bit f 31 || !wv || (w ^^^ fb f 12 0) &&& fb f 25 13 = 0)
    && (!bit f 30 || (a ^^^ s.trc.filtA.toNat) &&& s.trc.filtAMask.toNat = 0)
    && s.has s.trc.owner tg .read

/-- Counts a dropped record of a source (R326). -/
def Trace.drop (t : Trace) (src : Nat) : Trace :=
  { t with dropped := sat 32 t.dropped 1, lost := tmod 0 src (· + 1) t.lost }

/-- Tile t produces a trace record: it enters the tile's FIFO of 16, or is dropped; a tile in Lull or Hold produces none
(R317, R326). `stamp`: 20 bits. `wv` false for ROUTE, whose world field holds the group. -/
def State.traceTile (s : State) (t kind stamp w : Nat) (wv : Bool) (a : Nat) (payload : List Nat) : State :=
  let ids := if (s.dom (0x800 + t)).state = 0 && s.tracePasses w wv a (.world (if wv then w else 32 * w))
    then s.traceSources (tileX t) (tileY t) kind else []
  ids.foldl (fun s i =>
    if (s.tile t).traceFifo.length < 16 then
      s.modTile t (fun x => { x with traceFifo := x.traceFifo ++
        [{ src := i, kind := kind, time := stamp % 2 ^ 20, w := w, wv := wv, a := a, payload := payload }] })
    else { s with trc := s.trc.drop i }) s

/-- The time of a hub record: hub cycles / 16 modulo 2^20, taken from the wall counter (R320, log 30). -/
def State.hubTime (s : State) : Nat := s.aon.wall * 1250 / 16 % 2 ^ 20

/-- A hub unit at column x produces a trace record (R318, R320). -/
def State.traceHub (s : State) (x kind a : Nat) (payload : List Nat) (tg : Target) : State :=
  if s.tracePasses 0 false a tg then
    { s with trc.queue := s.trc.queue ++ (s.traceSources x 0 kind).map (fun i =>
        { src := i, kind := kind, time := s.hubTime, w := 0, wv := false, a := a, payload := payload }) }
  else s

/-- A RACK record (R318): op 1 PUSH, 2 POP, 3 PEEK, 4 ACK, 5 record post, 6 drop. -/
def State.traceRack (s : State) (r op m : Nat) (c : Code) (kind seq : Nat) : State :=
  let v := r + op * 2 ^ 8 + m * 2 ^ 11 + c.toNat * 2 ^ 17 + kind % 256 * 2 ^ 23
  s.traceHub 32 7 seq [v % 2 ^ 16, v / 2 ^ 16] (.rack r)

/-! ### Package memory (R71, R171; log 11: an unlisted byte reads as 0) -/

/-- What an unlisted address reads as. -/
def memDefault : Byte := 0

def cellsGet (a : Nat) : List Host.Cell → Byte
  | [] => memDefault
  | (k, v) :: r => if k = a then v else cellsGet a r

/-- The canonical cells with byte v at address a: keys rising, no entry equal to the default. -/
def cellsSet (a : Nat) (v : Byte) : List Host.Cell → List Host.Cell
  | [] => if v = memDefault then [] else [(a, v)]
  | (k, w) :: r =>
    if a < k then (if v = memDefault then (k, w) :: r else (a, v) :: (k, w) :: r)
    else if k = a then (if v = memDefault then r else (a, v) :: r)
    else (k, w) :: cellsSet a v r

/-- Every address of the cells is above a. -/
def cellsAbove (a : Nat) : List Host.Cell → Bool
  | [] => true
  | (k, _) :: r => a < k && cellsAbove a r

/-- The canonical form: addresses strictly rising, no entry equal to what an unlisted address reads as. -/
def cellsWf : List Host.Cell → Bool
  | [] => true
  | (k, v) :: r => v ≠ memDefault && cellsAbove k r && cellsWf r

/-- The memory keeps its canonical form. -/
def Memory.wf (m : Memory) : Bool := cellsWf m.cells

def Memory.read (m : Memory) (a : Nat) : Byte := cellsGet a m.cells
def Memory.write (m : Memory) (a : Nat) (v : Byte) : Memory := { m with cells := cellsSet a v m.cells }

/-- Bytes from a on, the lowest address first. -/
def Memory.readBytes (m : Memory) (a : Nat) : Nat → List Byte
  | 0 => []
  | n + 1 => m.read a :: m.readBytes (a + 1) n

def Memory.writeBytes (m : Memory) (a : Nat) : List Byte → Memory
  | [] => m
  | b :: r => (m.write a b).writeBytes (a + 1) r

/-- Little-endian number of n bytes at a (R4). -/
def Memory.readLE (m : Memory) (a : Nat) : Nat → Nat
  | 0 => 0
  | n + 1 => (m.read a).toNat + 256 * m.readLE (a + 1) n

/-- Stores the low n bytes of v, little-endian (R4). -/
def Memory.writeLE (m : Memory) (a : Nat) : Nat → Nat → Memory
  | 0, _ => m
  | n + 1, v => (m.write a (BitVec.ofNat 8 v)).writeLE (a + 1) n (v / 256)

/-- n zero bytes from a on. -/
def Memory.zero (m : Memory) (a n : Nat) : Memory :=
  { m with cells := m.cells.filter (fun c => c.1 < a || a + n ≤ c.1) }

/-- A 64-bit word among the n bytes at a is uncorrectable (R71). -/
def Memory.anyBad (m : Memory) (a n : Nat) : Bool :=
  m.bad.any (fun w => a / 8 ≤ w && w ≤ (a + n - 1) / 8)

/-- Single-bit errors met by a read of n bytes at a (R71). -/
def Memory.softCount (m : Memory) (a n : Nat) : Nat :=
  (m.soft.filter (fun w => a / 8 ≤ w && w ≤ (a + n - 1) / 8)).length

/-- Words wholly written carry fresh check bits (R71). -/
def Memory.heal (m : Memory) (a n : Nat) : Memory :=
  { m with bad := m.bad.filter (fun w => w < (a + 7) / 8 || (a + n) / 8 ≤ w),
           soft := m.soft.filter (fun w => w < (a + 7) / 8 || (a + n) / 8 ≤ w) }

/-- The package address of column address a of tile t (R171). -/
def colAddr (t a : Nat) : Nat := t * 2 ^ 28 + a

/-! ### Quarantined units (R306, R307) -/

/-- The quarantine entry of a unit, if any. -/
def Tile.quarOf (t : Tile) (u : Nat) : Option Quar := t.quar.find? (fun q => q.unit = u)

/-- The unit of replacement segment i (R306). -/
def replUnit (i : Nat) : Nat := 0x1FEA60 + i

/-- The column address that accesses of unit u go to: its replacement once it has recovered. -/
def Tile.unitAddr (t : Tile) (u : Nat) : Nat :=
  match t.quarOf u with
  | some q => if q.recovered then 128 * replUnit q.repl else 128 * u
  | none => 128 * u

/-- Where an access to package address a goes (R307). -/
def State.memAddr (s : State) (a : Nat) : Nat :=
  colAddr (a / 2 ^ 28) ((s.tile (a / 2 ^ 28)).unitAddr (a % 2 ^ 28 / 128) + a % 128)

/-- A word of n bytes of tile t's column, within one unit. -/
def State.colLE (s : State) (t a n : Nat) : Nat := s.mem.readLE (s.memAddr (colAddr t a)) n

/-- Stores the low n bytes of v in tile t's column, within one unit; whole words carry fresh check bits. -/
def State.colWrite (s : State) (t a n v : Nat) : State :=
  let p := s.memAddr (colAddr t a)
  { s with mem := ((s.mem.writeLE p n v).heal p n) }

/-- Stores bytes from address a of tile t's column on, with fresh check bits. -/
def State.colBytes (s : State) (t a : Nat) (bs : List Byte) : State :=
  { s with mem := ((bs.zipIdx.foldl (fun m e => m.write (s.memAddr (colAddr t (a + e.2))) e.1) s.mem).heal (colAddr t a) bs.length) }

/-! ### Loss items (R300 to R305) and world flags -/

/-- A reporter sends a loss item to the loss writer (R300). -/
def State.pushLoss (s : State) (i : LossItem) : State := { s with flt.queue := s.flt.queue ++ [i] }

/-- The turn of world w that holds tempo τ. -/
def World.turnOf (w : World) (tau : Nat) : Nat := (tau - w.anchor) / (w.turnLenM1 + 1)

/-- The first tu of turn n (R20). -/
def World.start (w : World) (n : Nat) : Nat := w.anchor + n * (w.turnLenM1 + 1)

/-- The full tempo of a 20-bit stamp, taken as the latest at or below `near` + 2^19 (R29, R31). -/
def fullTempo (near stamp : Nat) : Nat :=
  let e := (near + 2 ^ 20 - stamp % 2 ^ 20) % 2 ^ 20
  if e < 2 ^ 19 then near - e else near + (2 ^ 20 - e)

/-- Changes what the hub gathers for turn n of world w, when that turn is open (R305). -/
def State.modTurn (s : State) (w n : Nat) (f : TurnInfo → TurnInfo) : State :=
  let x := s.world w
  if x.closed ≤ n && n < x.opened && (x.st = .running || x.st = .parked)
  then s.modWorld w (fun y => { y with turns := tmod {} n f y.turns }) else s

/-- The turn an item of world w with this stamp belongs to (R305): the open turn that contains its stamp, else
the highest open turn, none for a world without an open turn. -/
def State.turnOfItem (s : State) (w : Nat) (stamp : Option Nat) : Option Nat :=
  let x := s.world w
  if x.st ≠ .running && x.st ≠ .parked then none
  else if x.opened = 0 then none
  else
    match stamp with
    | some st =>
      let tau := fullTempo x.t st
      if x.anchor ≤ tau && x.closed ≤ x.turnOf tau && x.turnOf tau < x.opened then some (x.turnOf tau)
      else some (x.opened - 1)
    | none => some (x.opened - 1)

/-! ### Racks (R149 to R155, R201) -/

/-- Free entries (R154). -/
def Rack.free (r : Rack) : Nat := r.size - r.msgs.length - r.reserved

/-- The header the rack gateway stores: src, rack and seq overwritten (R150, R151). -/
def stampHeader (h : DWord) (src r seq : Nat) : DWord :=
  BitVec.ofNat 64 (fb h.toNat 1 0 + src % 64 * 4 + fb h.toNat 23 8 * 2 ^ 8 + r % 256 * 2 ^ 24 + seq % 2 ^ 32 * 2 ^ 32)

/-- Vector v of LD n is raised (R201): it fires, or its PBA bit is set while it is masked. -/
def Ld.raise (l : Ld) (v : Nat) : Ld :=
  if l.masked.getLsbD v then { l with pba := l.pba ||| BitVec.ofNat 32 (2 ^ v) }
  else { l with fired := tmod 0 v (· + 1) l.fired }

/-- Rack r went from 0 to 1 occupied: every LD whose interrupt mask names it raises vector r mod 32 (R201). -/
def State.raiseRack (s : State) (r : Nat) : State :=
  { s with hub.lds := s.hub.lds.map (fun e =>
      if e.2.enabled && e.2.irq.getLsbD r then (e.1, e.2.raise (r % 32)) else e) }

/-- A message enters rack r whole, stamped (R151, R153). -/
def State.rackPut (s : State) (r src : Nat) (msg : List DWord) : State :=
  let k := s.rack r
  let m := match msg with
    | [] => []
    | h :: b => stampHeader h src r k.next.toNat :: b
  let s' := s.modRack r (fun x => { x with msgs := x.msgs ++ [m], next := x.next + 1 })
  if k.msgs.isEmpty then s'.raiseRack r else s'

/-- The header of a record: len_m1, kind, code (R150). -/
def recHeader (kind : Nat) (c : Code) (body : List DWord) : DWord :=
  BitVec.ofNat 64 (body.length % 4 + kind * 2 ^ 8 + c.toNat * 2 ^ 16)

/-- A dropped message (R154): one RACK loss item with its header as stamped, seq 0, and its first body word. -/
def State.dropMsg (s : State) (r src : Nat) (w : Option Nat) (msg : List DWord) : State :=
  let h := stampHeader (msg.headD 0) src r 0
  ((s.traceRack r 6 src .droppedRackFull (fb h.toNat 15 8) 0).modRack r (fun x =>
    { x with hubDropped := sat 16 x.hubDropped 1 })).pushLoss
    { code := .droppedRackFull, kind := 0xA, w := w, reporter := { p := s.hub.p, x := 32, y := 0 }, a := 0, b := h,
      ext := some (msg.getD 1 0), stamp := none, sampled := false }

/-- A record of the class "other records" (R154): posted when an entry is free, else dropped and recorded. -/
def State.postRecord (s : State) (r src kind : Nat) (c : Code) (w : Option Nat) (body : List DWord) : State :=
  let msg := recHeader kind c body :: body
  if 0 < (s.rack r).free then (s.traceRack r 5 src c kind (s.rack r).next.toNat).rackPut r src msg
  else s.dropMsg r src w msg

/-- A record whose entry was reserved (R154, R155, R169): the reservation becomes the message. -/
def State.postReserved (s : State) (r kind : Nat) (c : Code) (body : List DWord) : State :=
  ((s.traceRack r 5 1 c kind (s.rack r).next.toNat).modRack r (fun x => { x with reserved := x.reserved - 1 })).rackPut r 1
    (recHeader kind c body :: body)

/-- The FAULT record (R315). Its code is a free value (log 39). -/
def State.postFault (s : State) (event dom detail : Nat) : State :=
  let r := fb s.flt.cfg.toNat 7 0
  if (s.rack r).enabled then
    let c := Config.freeCode s.freeCtr
    ({ s with freeCtr := s.freeCtr + 1 } : State).postRecord r 1 0x89 c none
      [BitVec.ofNat 64 (event + c.toNat * 2 ^ 8 + dom * 2 ^ 16 + detail % 2 ^ 32 * 2 ^ 32), BitVec.ofNat 64 s.aon.wall]
  else s

/-! ### Completions (R155, R213, R215) -/

/-- The logical device whose command rack is r. -/
def State.ldOfRack (s : State) (r : Nat) : Option Nat :=
  (s.hub.lds.find? (fun e => e.2.enabled && e.2.cmdRack = r)).map (·.1)

def State.findExec (s : State) (rk seq : Nat) : Option ExecCmd :=
  s.hub.executing.find? (fun c => c.rk = rk && c.seq = seq)

/-- The completion of a command (R213): its record goes into the entry reserved for it, and it leaves execution.
FAILED_LINK is counted in its LD (HUB_LD_EVT). -/
def State.complete (s : State) (c : ExecCmd) (code : Code) (results : List DWord) : State :=
  let s1 := { s with hub.executing := s.hub.executing.filter (fun d => !(d.rk = c.rk && d.seq = c.seq)) }
  match s.ldOfRack c.rk with
  | none => s1
  | some n =>
    let w1 := BitVec.ofNat 64 (c.seq % 2 ^ 32 + c.op * 2 ^ 32 + c.rk * 2 ^ 40)
    let s2 := s1.postReserved (s.ld n).cplRack 0x80 code (w1 :: results)
    if code = .failedLink then s2.modLd n (fun l => { l with failedLink := sat 16 l.failedLink 1 }) else s2

/-- The command (rk, seq) completes, when it is in execution. -/
def State.completeAt (s : State) (rk seq : Nat) (code : Code) (results : List DWord) : State :=
  match s.findExec rk seq with
  | some c => s.complete c code results
  | none => s

/-- Marks a command as begun and waiting for a later event. -/
def State.begun (s : State) (c : ExecCmd) : State :=
  { s with hub.executing := s.hub.executing.map (fun d =>
      if d.rk = c.rk && d.seq = c.seq then { d with stage := 1 } else d) }

/-! ### Fence transitions (R292, R294, R297, R299, R315) -/

/-- Domain d moves to a fence state, and a FAULT record says so (R292, R315). -/
def State.fenceMove (s : State) (d : Nat) (st : FenceState) : State :=
  (s.modFence d (fun f => { f with st := st })).postFault 1 d st.toNat

/-- A fence of domain d begins: the domain wakes, takes the next fence sequence number and enters DRAINING (R277, R292,
R293). `us`: its drain limit, 0 for that of HUB_FAULT_CFG; `reset`: it goes on through RESET; `cmd`: the command to
complete. -/
def State.fenceStart (s : State) (d us : Nat) (reset : Bool) (cmd : Option (Nat × Nat)) (wake detail : Nat) : State :=
  let s1 := s.wakeDom d wake detail
  let q := (s1.flt.fenceSeq + 1) % 2 ^ 32
  let s2 : State := { s1 with flt.fenceSeq := q, flt.fenceCount := sat 16 s1.flt.fenceCount 1 }
  (s2.modFence d (fun f =>
    { f with seq := q, losses := 0, cmd := cmd, reset := reset, ok := true,
             drainUs := if us = 0 then fb s2.flt.cfg.toNat 23 8 else us })).fenceMove d .draining

/-- A staged update of domain d begins (R98, R266, R307): an ACTIVE domain is fenced, a FENCED one enters UPDATE, and any
other takes the update on its way. -/
def State.updateStart (s : State) (d : Nat) : State :=
  match s.domState d with
  | .active => s.fenceStart d 0 true none 10 0x11
  | .fenced => s.fenceMove d .update
  | _ => s

def State.stageUpdate (s : State) (d : Nat) (l : List Section) : State :=
  s.modFence d (fun f => { f with staged := f.staged ++ l })

/-- The sections of the running image and of its amendments, oldest first. -/
def State.allSections (s : State) : List Section :=
  (match s.boot.image with
  | some im => im.sections
  | none => []) ++ s.boot.amended

/-- Those that tile t was loaded from and q accepts. -/
def State.imageSections (s : State) (t : Nat) (q : SectionData → Bool) : List Section :=
  s.allSections.filter (fun x => x.target = t && q x.data)

/-- The amendment in hand completes once every section has taken effect: no domain still holds an update of it, and no
world an entry (R215, R268). -/
def State.amendCheck (s : State) : State :=
  match s.boot.amending with
  | none => s
  | some a =>
    if a.committed && a.doms.all (fun d => s.domActive d && (s.fence d).staged.isEmpty)
        && s.tmp.worlds.all (fun e => e.2.staged.isNone) then
      ({ s with boot.amending := none } : State).completeAt a.rk a.seq .done
        [BitVec.ofNat 64 (a.im.amendSeq % 2 ^ 32 + a.im.sections.length % 2 ^ 16 * 2 ^ 32)]
    else s

end Sys2Proof.Machine
end

