-- ==== Sys2Proof/Machine/Losses.lean ====
section
/-! DEFINITION. The loss writer: records, the full ring, turns, FAULT records at the mark and at the full ring, and the
command LOSS_ITEM (R173, R299 to R305, R313, R315, R316). -/

namespace Sys2Proof.Machine

open Sys2Proof

/-- Word 0 of a record (R301). -/
def LossItem.word0 (i : LossItem) : Nat :=
  i.code.toNat + i.kind * 2 ^ 8 + b2n i.w.isSome * 2 ^ 12 + (i.w.getD 0) % 2 ^ 13 * 2 ^ 13 + i.reporter.y % 64 * 2 ^ 26
    + i.reporter.x % 64 * 2 ^ 32 + i.reporter.p % 64 * 2 ^ 38 + i.a % 2 ^ 20 * 2 ^ 44

/-- The records that an item takes (R302). -/
def LossItem.size (i : LossItem) : Nat := if i.kind = 0x9 || i.kind = 0xA then 2 else 1

/-- The fence domains that an item's record is of (R299): those of its reporter, or the domain that a DOMAIN record
names. -/
def LossItem.doms (i : LossItem) : List Nat :=
  let c := i.reporter
  if i.kind = 0x8 then [wf i.b 11 0]
  else if c.x < 32 then [tileDom (epKey c.x c.y), stackDom (stackOf (epKey c.x c.y))]
  else if c.x = 34 then [portDom c.y]
  else if c.x = 35 then [3]
  else if c.x = 37 then [4]
  else if 40 ≤ c.x && c.x < 48 then [spanDom (c.x - 40)]
  else []

/-- Records held (R303). -/
def Faults.held (f : Faults) : Nat := (f.head - f.tail).toNat

/-- Counts an item of a code (HUB_CODE_CNT, R316). -/
def State.countCode (s : State) (c : Code) : State := { s with flt.codeCnt := tmod 0 c.toNat (fun n => sat 32 n 1) s.flt.codeCnt }

/-- An item that finds the ring full (R304, R305): a sampled descriptor goes; any other is counted, against its turn where it
has one. -/
def State.overflow (s : State) (i : LossItem) : State :=
  if i.sampled then s
  else
    let s1 := ({ s with flt.ovf := sat 32 s.flt.ovf 1 } : State).countCode i.code
    match i.w.bind (fun w => (s.turnOfItem w i.stamp).map (fun n => (w, n))) with
    | some (w, n) => s1.modTurn w n (fun t => { t with lossOvf := t.lossOvf + 1, incomplete := true })
    | none => { s1 with flt.ovfNoWorld := sat 32 s1.flt.ovfNoWorld 1 }

/-- An item that names a world marks its turn (R305). -/
def State.lossTurn (s : State) (i : LossItem) : State :=
  match i.w.bind (fun w => (s.turnOfItem w i.stamp).map (fun n => (w, n))) with
  | some (w, n) => s.modTurn w n (fun t => { t with loss := true })
  | none => s

/-- Stores a record: two 64-bit words (R173, R301). -/
def State.lossStore (s : State) (k w0 w1 : Nat) : State :=
  let t := k % 65536 / 4096
  (((s.wakeBank t).colWrite t (0xFF00000 + 16 * (k % 4096)) 8 w0)).colWrite t (0xFF00000 + 16 * (k % 4096) + 8) 8 w1

/-- The FAULT records of the mark and of the full ring, as the records held pass each (R315). -/
def State.lossMarks (s : State) (before : Nat) : State :=
  let mark := fb s.flt.cfg.toNat 31 24 * 256
  let now := s.flt.held
  let s1 := if mark ≠ 0 && before < mark && mark ≤ now then s.postFault 8 1 s.flt.head.toNat else s
  if before < 65536 && now = 65536 then s1.postFault 9 1 s.flt.head.toNat else s1

/-- An item is written: its record, and its extension in the next (R301, R302); it counts for its domain while that is not
ACTIVE (R299). -/
def State.lossWrite (s : State) (i : LossItem) : State :=
  let k := s.flt.head.toNat
  let before := s.flt.held
  let s1 := s.lossStore k i.word0 i.b.toNat
  let s2 := match i.ext with
    | some e => if i.size = 2 then s1.lossStore (k + 1) 0 e.toNat else s1
    | none => if i.size = 2 then s1.lossStore (k + 1) 0 0 else s1
  let s3 := ({ s2 with flt.head := s2.flt.head + BitVec.ofNat 32 i.size } : State).countCode i.code
  let s4 := (i.doms.filter (fun d => !s.domActive d)).foldl (fun s d => s.modFence d (fun f => { f with losses := sat 32 f.losses 1 })) s3
  (s4.lossTurn i).lossMarks before

/-- The writer takes the next item in arrival order (R300). The loss of stack 0 stops the ring (R313). -/
def State.lossNext (s : State) : State :=
  match s.flt.queue with
  | [] => s
  | i :: r =>
    let s1 : State := { s with flt.queue := r }
    if s.stackIsLost 0 || 65536 < s.flt.held + i.size then s1.overflow i else s1.lossWrite i

/-- The writer takes every item that waits, with those that its own FAULT records cause. -/
def State.lossDrain (s : State) : State :=
  (List.range (2 * s.flt.queue.length + 2)).foldl (fun s _ => s.lossNext) s

/-- LOSS_ITEM (R300 to R305). -/
def execLossItem (s : State) : Host.Outcome State Fault Refusal := .next s.lossNext

end Sys2Proof.Machine
end

