-- ==== Sys2Proof/Machine/Operands.lean ====
section
/-! DEFINITION. The words the package reads its tables through: event words, destination entries, state blocks, row
directory entries, synapse words, fan-out banks, schedule and detour entries, model descriptors, pool windows. -/

namespace Sys2Proof.Machine

open Sys2Proof

/-! ### Event words and destination entries (R124, R131) -/

/-- An EVENTS body word: row, lane, value, offset (R124). -/
def mkEvent (row lane value offset : Nat) : Word :=
  BitVec.ofNat 32 (row % 2 ^ 13 + lane % 32 * 2 ^ 13 + value % 256 * 2 ^ 18 + offset % 64 * 2 ^ 26)

def evRow (w : Word) : Nat := fb w.toNat 12 0
def evLane (w : Word) : Nat := fb w.toNat 17 13
def evValue (w : Word) : Nat := fb w.toNat 25 18
def evOffset (w : Word) : Nat := fb w.toNat 31 26

/-- The destination coordinate of an entry of R131. -/
def destCoord (e : DWord) : Coord := { p := wf e 17 12, x := wf e 11 6, y := wf e 5 0 }
def destRow (e : DWord) : Nat := wf e 42 30
def destClass (e : DWord) : Nat := wf e 44 43
def destUrgent (e : DWord) : Bool := wf e 45 45 = 1

/-- Class c is Lockstep (R123). -/
def State.lockstep (s : State) (c : Nat) : Bool := bit s.hub.classLockstep.toNat c

/-! ### State blocks (R45) -/

abbrev Block := DWord × DWord

def blkBase (b : Block) : Nat := wf b.1 21 0
def blkFirst (b : Block) : Nat := wf b.1 35 22
def blkCount (b : Block) : Nat := wf b.1 49 36 + 1
def blkGroup (b : Block) : Nat := wf b.1 57 50
def blkSlot (b : Block) : Nat := wf b.1 60 58
def blkWide (b : Block) : Bool := wf b.1 61 61 = 1
def blkSpill (b : Block) : Bool := wf b.1 62 62 = 1
def blkLaneLo (b : Block) : Nat := wf b.2 4 0
def blkLanes (b : Block) : Nat := 2 ^ wf b.2 7 5

def blkHasLane (b : Block) (l : Nat) : Bool := blkLaneLo b ≤ l && l < blkLaneLo b + blkLanes b
def blkHasNeuron (b : Block) (n : Nat) : Bool := blkFirst b ≤ n && n < blkFirst b + blkCount b

/-- The block that holds neuron n of world w. -/
def Tile.blockOf (t : Tile) (w n : Nat) : Option Block :=
  t.blocks.find? (fun b => blkGroup b = w / 32 && blkHasLane b (w % 32) && blkHasNeuron b n)

/-- The word address of the record of neuron n, lane l, in 64-bit words of the SRAM or spill region (R45). -/
def blkAddr (b : Block) (n l : Nat) : Nat :=
  blkBase b + ((n - blkFirst b) * blkLanes b + (l - blkLaneLo b)) * (if blkWide b then 2 else 1)

/-- The tile holds state of world w. -/
def Tile.resident (t : Tile) (w : Nat) : Bool := t.blocks.any (fun b => blkGroup b = w / 32 && blkHasLane b (w % 32))

/-- The lanes of group g that are resident in the tile. -/
def Tile.residentLanes (t : Tile) (g : Nat) : List Nat :=
  (List.range 32).filter (fun l => t.resident (g * 32 + l))

/-- The tile holds state of a world of group g. -/
def Tile.holdsGroup (t : Tile) (g : Nat) : Bool := t.blocks.any (fun b => blkGroup b = g)

/-- The groups with state in the tile. -/
def Tile.groups (t : Tile) : List Nat := (t.blocks.map blkGroup).eraseDups

/-- The tiles that hold state of world w. -/
def State.holders (s : State) (w : Nat) : List Nat := (s.tiles.filter (fun e => e.2.resident w)).map (·.1)

/-- The stacks that hold state of world w. -/
def State.holderStacks (s : State) (w : Nat) : List Nat := ((s.holders w).map stackOf).eraseDups

/-! ### Row directory and synapses (R48 to R52) -/

def rowPostBase (e : DWord) : Nat := wf e 63 50
def rowReflex (e : DWord) : Bool := wf e 49 49 = 1
def rowPriv (e : DWord) : Bool := wf e 48 48 = 1
def rowTwin (e : DWord) : Bool := wf e 47 47 = 1
def rowPair (e : DWord) : Bool := wf e 46 46 = 1
def rowSegs (e : DWord) : Nat := wf e 45 35
def rowSegBase (e : DWord) : Nat := wf e 34 14

/-- The column address of segment k of a row as lane l reads it (R48, R50). -/
def rowSegAddr (e : DWord) (l k : Nat) : Nat :=
  128 * (rowSegBase e + (if rowPriv e then l * rowSegs e else 0) + k)

def synWeight (w : Nat) : Int := sgn 8 (fb w 15 8)
def synDelay (w : Nat) : Nat := fb w 7 2
def synFlags (w : Nat) : Nat := fb w 1 0

/-! ### Tile configuration fields (R53, TILE_CFG) -/

def tcMergeWindow (c : TileCfg) : Nat := fb c.cfg.toNat 31 24
def tcLookahead (c : TileCfg) : Nat := fb c.cfg.toNat 23 18
def tcNoticeStep (c : TileCfg) : Nat := fb c.cfg.toNat 17 12
def tcScrubPeriod (c : TileCfg) : Nat := fb c.cfg.toNat 5 0
def tcSpillBase (c : TileCfg) : Nat := fb c.spill.toNat 23 16 * 2 ^ 20
def tcReserve (c : TileCfg) : Nat := fb c.intakeCfg.toNat 10 0
def tcLinger (c : TileCfg) : Nat := fb c.rtCfg.toNat 31 24
def tcMarkThr (c : TileCfg) : Nat := fb c.rtCfg.toNat 23 20

/-- Column address of the fan-out bank (false A, true B). -/
def tcFoBase (c : TileCfg) (bank : Bool) : Nat := 128 * fb (if bank then c.foB else c.foA).toNat 20 0
/-- Column address of the schedule bank; 0 where the tile has none (log 21). -/
def tcSchedBase (c : TileCfg) (bank : Bool) : Nat := 128 * fb (if bank then c.schedB else c.schedA).toNat 20 0

/-! ### Fan-out banks (R131) -/

/-- The destination entries of neuron n in a bank of tile t. -/
def State.fanout (s : State) (t : Nat) (bank : Bool) (n : Nat) : List DWord :=
  let base := tcFoBase (s.tile t).cfg bank
  if base = 0 then []
  else
    let ix := s.colLE t (base + 4 * n) 4
    (List.range (fb ix 31 20)).map (fun i => BitVec.ofNat 64 (s.colLE t (base + 8 * (fb ix 19 0 + i)) 8))

/-- The local neurons that the tile's state blocks name. -/
def Tile.neurons (t : Tile) : List Nat :=
  (t.blocks.flatMap (fun b => (List.range (blkCount b)).map (blkFirst b + ·))).eraseDups

/-- The destinations of a tile's fan-out bank: those of every neuron that a state block names (log 22). -/
def State.fanDests (s : State) (t : Nat) (bank : Bool) : List (Coord × Nat) :=
  (((s.tile t).neurons.flatMap (s.fanout t bank)).map (fun e => (destCoord e, destClass e))).eraseDups

/-! ### Schedules (R140, R141) -/

/-- The entries of a schedule bank of tile t; none where it has no schedule. -/
def State.schedule (s : State) (t : Nat) (bank : Bool) : List DWord :=
  let base := tcSchedBase (s.tile t).cfg bank
  if base = 0 then []
  else (List.range (fb (s.colLE t base 8) 13 0)).map (fun i => BitVec.ofNat 64 (s.colLE t (base + 8 + 8 * i) 8))

/-- The bank whose schedule tile t runs (R145): the new one from the flip turn of every world it holds on. -/
def State.schedBank (s : State) (t : Nat) : Bool :=
  let x := s.tile t
  if s.hub.epoch.state ≠ 0 && s.tmp.worlds.any (fun e => e.2.st = .running && x.resident e.1
      && (match e.2.flipTurn with
        | some f => decide (x.schedTurn < f)
        | none => false))
  then !s.hub.epoch.current else s.hub.epoch.current

/-- The schedule that tile t runs. -/
def State.curSchedule (s : State) (t : Nat) : List DWord := s.schedule t (s.schedBank t)

def schOp (e : DWord) : Nat := wf e 3 0
def schOffset (e : DWord) : Nat := wf e 15 4
def schGroup (e : DWord) : Nat := wf e 23 16
def schN (e : DWord) : Nat := wf e 33 24
def schSpan (e : DWord) : Nat := wf e 39 34 + 1

/-- The slot tag of turn n's offset (R141). -/
def slotTag (turn offset : Nat) : Nat := turn % 4 * 4096 + offset

/-! ### Detour entries (R129) -/

/-- A detour entry matches the physical destination (x, y). -/
def detourMatches (e : Word) (x y : Nat) : Bool :=
  let n := e.toNat
  bit n 27 && fb n 18 14 ≤ x && x ≤ fb n 23 19 && fb n 6 0 ≤ y && y ≤ fb n 13 7

def detourOut (e : Word) : Nat := fb e.toNat 26 24

/-! ### Model descriptors (R93) -/

def mdWord (d : List DWord) (i : Nat) : DWord := d.getD i 0
def mdEntry (d : List DWord) : Nat := wf (mdWord d 0) 8 0
def mdEnd (d : List DWord) : Nat := wf (mdWord d 0) 17 9
def mdWide (d : List DWord) : Bool := wf (mdWord d 0) 18 18 = 1
def mdStateless (d : List DWord) : Bool := wf (mdWord d 0) 19 19 = 1
def mdLearn (d : List DWord) : Bool := wf (mdWord d 0) 20 20 = 1
def mdReflex (d : List DWord) : Bool := wf (mdWord d 0) 21 21 = 1
def mdStepLimit (d : List DWord) : Nat := wf (mdWord d 0) 29 22
/-- Parameter P(k). -/
def mdParam (d : List DWord) (k : Nat) : Word :=
  BitVec.ofNat 32 (if k % 2 = 0 then wf (mdWord d (1 + k / 2)) 31 0 else wf (mdWord d (1 + k / 2)) 63 32)
/-- The rest template. -/
def mdRest (d : List DWord) : BitVec 128 := mdWord d 10 ++ mdWord d 9

/-! ### World table entries (R34, R41) -/

/-- The configuration of a world as the entry gives it; counters and state are left as they are. -/
def World.load (x : World) (e : WorldEntry) : World :=
  { x with
    owner := fb e.w0.toNat 30 25
    peerLink := fb e.w0.toNat 24 22
    peerPackage := fb e.w0.toNat 21 16
    srcIndex := fb e.w0.toNat 15 3
    srcKind := fb e.w0.toNat 2 0
    statusRack := fb e.w1.toNat 31 24
    autostart := bit e.w1.toNat 23
    privateLearn := bit e.w1.toNat 22
    gateEn := bit e.w1.toNat 21
    parkOnOverrun := bit e.w1.toNat 20
    lagLimit := fb e.w1.toNat 19 12
    turnLenM1 := fb e.w1.toNat 11 0
    scaleDiv := fb e.w2.toNat 31 16
    tetherMs := fb e.w2.toNat 15 0
    scaleMul := fb e.w3.toNat 25 18
    turnPip := fb e.w3.toNat 17 0
    anchor := e.w4.toNat + fb e.w5.toNat 7 0 * 2 ^ 32 }

/-! ### Pool windows (R180) -/

abbrev PoolWin := DWord × DWord

def winBase (x : PoolWin) : Nat := wf x.1 47 0
def winExpander (x : PoolWin) : Nat := wf x.1 51 48
def winStriped (x : PoolWin) : Bool := wf x.1 52 52 = 1
def winCacheable (x : PoolWin) : Bool := wf x.1 53 53 = 1
def winWritable (x : PoolWin) : Bool := wf x.1 54 54 = 1
def winValid (x : PoolWin) : Bool := wf x.1 55 55 = 1
def winSize (x : PoolWin) : Nat := wf x.2 47 0

end Sys2Proof.Machine
end

