-- ==== Sys2Proof/Machine/Send.lean ====
section
/-! DEFINITION. How a volley leaves an endpoint: the remap, reachability, epochs, pacing, injection, span queues,
volley assembly and frontier notices (R55, R116, R117, R127, R131 to R133, R135, R139, R146, R258). -/

namespace Sys2Proof.Machine

open Sys2Proof

/-! ### The remap (R127, R258) -/

/-- The first defective row of a physical column, 16 (the spare) where there is none. -/
def firstDefect (ds : List Nat) : Nat := ds.foldl min 16

/-- The physical row within its stack of logical row j (R258; log 23 for two or more defects). -/
def physRow (ds : List Nat) (j : Nat) : Nat := if j < firstDefect ds then j else j + 1

def State.colDefects (s : State) (st c : Nat) : List Nat := tget [] (8 * st + c) s.boot.defects

/-- The physical column and row in the package of a tile (R127). -/
def State.phys (s : State) (t : Nat) : Nat × Nat :=
  let st := stackOf t
  (8 * (st % 4) + tileX t % 8, 17 * (st / 4) + physRow (s.colDefects st (tileX t % 8)) (tileY t % 16))

/-- The tile that a physical position serves, if any. -/
def State.logAt (s : State) (px py : Nat) : Option Nat :=
  let st := px / 8 + 4 * (py / 17)
  let ds := s.colDefects st (px % 8)
  let f := py % 17
  let j := if f < firstDefect ds then f else f - 1
  let t := epKey px (16 * (st / 4) + j)
  if s.stackPresent st && !(ds.contains f) && j < 16 && physRow ds j = f && s.tilePresent t then some t else none

/-- The physical position of stack st's root: physical (0, 0) of the stack (R134). -/
def rootPos (st : Nat) : Nat × Nat := (8 * (st % 4), 17 * (st / 4))

/-- The stack's logical origin, to which root messages are addressed (R134). -/
def State.rootCoord (s : State) (st : Nat) : Coord := { p := s.hub.p, x := 8 * (st % 4), y := 16 * (st / 4) }

/-! ### Volleys -/

/-- The number of 32-bit body words (R124 to R126, R134). -/
def VBody.words : VBody → Nat
  | .events ws => ws.length
  | .frontier _ _ => 2
  | .turnReport _ _ _ _ _ _ _ => 3
  | .echo _ => 1
  | .control _ _ => 3
  | .slotMark _ => 1
  | .other _ => 1

/-- Flits of a volley: 1 + ⌈k / 4⌉. -/
def Volley.flits (v : Volley) : Nat := 1 + ceilDiv v.body.words 4

/-- A volley from an endpoint of this package, with the physical destination filled in (R127). -/
def State.mkVolley (s : State) (src : Nat) (dst : Coord) (group : Nat) (epoch : Bool) (cls vc slot base : Nat)
    (body : VBody) : Volley :=
  let ph := if dst.p = s.hub.p && dst.x < 32 then s.phys (epKey dst.x dst.y) else (31, 127)
  { dst := dst, src := s.coord src, physX := ph.1, physY := ph.2, group := group, epoch := epoch, cls := cls, vc := vc,
    headwind := false, urgent := false, slot := slot, tempoBase := base % 2 ^ 24, phops := 0, okHeader := true,
    body := body }

/-! ### Loss of a volley's events (R117, R302) -/

/-- The EVENT loss item of one event word of a volley. -/
def eventItem (v : Volley) (e : Word) (c : Code) (rep : Coord) : LossItem :=
  { code := c, kind := 0x1, w := some (v.group * 32 + evLane e), reporter := rep,
    a := (v.tempoBase + evOffset e) % 2 ^ 20,
    b := BitVec.ofNat 64 (e.toNat + v.dst.y % 64 * 2 ^ 32 + v.dst.x % 64 * 2 ^ 38 + v.dst.p % 64 * 2 ^ 44
      + b2n v.epoch * 2 ^ 50 + v.cls % 4 * 2 ^ 51 + b2n v.urgent * 2 ^ 53),
    ext := none, stamp := some ((v.tempoBase + evOffset e) % 2 ^ 20), sampled := false }

/-- Each event of the volley is recorded with code c; a volley without events loses none. -/
def State.loseEvents (s : State) (v : Volley) (c : Code) (rep : Coord) : State :=
  match v.body with
  | .events ws => { s with flt.queue := s.flt.queue ++ ws.map (fun e => eventItem v e c rep) }
  | _ => s

/-! ### Epochs (R133, R144 to R147) -/

/-- The volley was routed by the bank that a flip is draining. -/
def State.isOld (s : State) (v : Volley) : Bool := s.hub.epoch.state ≠ 0 && v.epoch ≠ s.hub.epoch.current

/-- Counts an old-epoch volley sent by a stack, or by the hub endpoints (16) (R146). -/
def State.countSent (s : State) (st : Nat) (v : Volley) : State :=
  if s.isOld v then { s with hub.epoch.sent := tmod 0 st (· + 1) s.hub.epoch.sent } else s

/-- Counts an old-epoch volley delivered or absorbed (R146, R147). -/
def State.countRecv (s : State) (st : Nat) (v : Volley) : State :=
  if s.isOld v then { s with hub.epoch.recv := tmod 0 st (· + 1) s.hub.epoch.recv } else s

/-- The world runs and has not yet reached its flip turn: it stamps the old epoch (R133). -/
def stampsOld (x : World) (reached : Bool) : Bool :=
  match x.flipTurn with
  | some _ => x.st = .running && !reached
  | none => false

/-- The bank that tile t's fan-out engine stamps for world w (R133). -/
def State.tileBank (s : State) (t w : Nat) : Bool :=
  let x := s.world w
  let reached := match x.flipTurn with
    | some f => x.start f ≤ ((s.tile t).world w).f
    | none => true
  if s.hub.epoch.state ≠ 0 && stampsOld x reached then !s.hub.epoch.current else s.hub.epoch.current

/-- The bank that a hub endpoint stamps for world w: the new one once the flip turn has opened (R133, R145). -/
def State.hubBank (s : State) (w : Nat) : Bool :=
  let x := s.world w
  let reached := match x.flipTurn with
    | some f => f < x.opened
    | none => true
  if s.hub.epoch.state ≠ 0 && stampsOld x reached then !s.hub.epoch.current else s.hub.epoch.current

/-! ### Reachability (R117) -/

/-- The link toward package p, when the route is valid (R130). -/
def State.spanRouteTo (s : State) (p : Nat) : Option Nat :=
  let e := (tget (0 : Word) p s.hub.spanRoute).toNat
  if bit e 3 then some (fb e 2 0) else none

/-- The span link carries traffic: UP, or in Hold, from which a volley wakes it (R276). -/
def State.spanUsable (s : State) (k : Nat) : Bool := (s.span k).state = 2

/-- Why a destination is unreachable, none when it is reachable (R117). -/
def State.unreach (s : State) (d : Coord) : Option Code :=
  if d.p ≠ s.hub.p then
    match s.spanRouteTo d.p with
    | some k => if s.spanUsable k then none else some .failedLink
    | none => some .failedLink
  else if d.x < 32 then (if s.tilePresent (epKey d.x d.y) then none else some .failedAccess)
  else if hubEndpointExists d.x d.y then none
  else some .failedAccess

/-! ### Injection -/

/-- The key of the router at physical (px, py). -/
def rtKey (px py : Nat) : Nat := py * 32 + px

def State.router (s : State) (k : Nat) : Router := tget {} k s.fab.routers

/-- Appends a volley to an input buffer of a router (R118). -/
def State.enqueue (s : State) (px py inp : Nat) (v : Volley) : State :=
  { s with fab.routers := tmod {} (rtKey px py) (fun r =>
      { r with bufs := tmod [] (3 * inp + v.vc) (· ++ [v]) r.bufs }) s.fab.routers }

/-- A coordinate as an 18-bit number. -/
def coordNum (c : Coord) : Nat := c.p * 4096 + c.x * 64 + c.y

/-- A destination counts the marked volleys of each source; a throttled tile counts every Breeze volley (R138). -/
def State.countMark (s : State) (k : Nat) (v : Volley) : State :=
  if v.vc = 0 && (v.headwind || (k < 2048 && (s.tile k).throttled)) then
    let s1 := { s with fab.marked := tmod 0 (k * 2 ^ 18 + coordNum v.src) (· + 1) s.fab.marked }
    if k < 2048 then s1.modTile k (fun t => { t with hwMarked := sat 16 t.hwMarked 1 }) else s1
  else s

/-- A frontier notice or a slot mark. -/
def VBody.isMark : VBody → Bool
  | .frontier _ _ => true
  | .slotMark _ => true
  | _ => false

/-- The wake kind and detail of a volley: a TEMPO_GRANT wakes for its world (R274, R284). -/
def Volley.wakeKind (v : Volley) : Nat × Nat :=
  match v.body with
  | .control _ (.tempoGrant w _) => (3, w)
  | _ => (2, v.src.key)

/-- The power domain of a hub endpoint (R116, R269). -/
def hubDom (k : Nat) : Nat :=
  if epX k = 34 then portDom (epY k) else if epX k = 35 then 3 else if epX k = 36 then 2 else 1

/-- A volley reaches an endpoint's port; a hub endpoint has no upstream table and no schedule that gathers, so it takes no
notices and no slot marks (R55, R140). -/
def State.deliver (s : State) (k : Nat) (v : Volley) : State :=
  let s0 := if 2048 ≤ k then s.wakeDom (hubDom k) v.wakeKind.1 v.wakeKind.2 else s
  let s1 := s0.countMark k v
  if 2048 ≤ k && v.body.isMark then s1 else { s1 with fab.inbox := tmod [] k (· ++ [v]) s1.fab.inbox }

/-- Sends what a span link's queue can send: one frame for each volley while the link is up and out of Hold, its
replay buffer has room and the VC has credit (R135, R136). -/
def Span.pump (x : Span) : Nat → Span
  | 0 => x
  | n + 1 =>
    match x.queue with
    | [] => x
    | v :: r =>
      let c := tget 256 v.vc x.credits
      if x.state = 2 && x.hold ≠ 2 && x.hold ≠ 3 && x.replay.length < 1024 && v.flits ≤ c then
        Span.pump { x with queue := r, credits := tset v.vc (c - v.flits) x.credits,
                           replay := x.replay ++ [(x.txSeq, [v])], txSeq := (x.txSeq + 1) % 4096 } n
      else x

/-- A volley enters a span link's queue; in Hold it wakes the link and waits in the sender (R276); a link whose domain is
not ACTIVE takes none (R293). -/
def State.spanSend (s : State) (k : Nat) (v : Volley) : State :=
  if !s.domActive (spanDom k) then s.loseEvents v .failedFenced (s.coord (epKey (40 + k) 0))
  else
  let s1 := s.modSpan k (fun x => { x with queue := x.queue ++ [v] })
  let s2 := s1.modSpan k (fun x => x.pump x.queue.length)
  if (s2.span k).hold = 2 then
    ((s2.modSpan k (fun x => { x with hold := 3 })).modDom (spanDom k) (fun d =>
      { d with state := 0, holdWakes := sat 16 d.holdWakes 1 })).recordWake 2 2 (spanDom k) v.src.key
  else s2

/-- A volley leaves the mesh at a spine stop, or starts at a hub endpoint, for the hub or another package. -/
def State.toHub (s : State) (v : Volley) : State :=
  if v.dst.p = s.hub.p then (s.countRecv 16 v).deliver (epKey v.dst.x v.dst.y) v
  else
    match s.spanRouteTo v.dst.p with
    | some k =>
      if s.spanUsable k then (s.countRecv 16 v).spanSend k v
      else (s.countRecv 16 v).loseEvents v .failedLink (s.coord (epKey 40 0))
    | none => (s.countRecv 16 v).loseEvents v .failedLink (s.coord (epKey 40 0))

/-- A paced or unpaced volley enters the fabric from endpoint k. -/
def State.inject (s : State) (k : Nat) (v : Volley) : State :=
  if k < 2048 then
    let ph := s.phys k
    let s1 := (s.countSent (stackOf k) v).enqueue ph.1 ph.2 4 v
    if s.isOld v then s1.modTile k (fun t => { t with oldSent := sat 32 t.oldSent 1 }) else s1
  else
    let s1 := s.countSent 16 v
    if v.dst.p = s.hub.p && v.dst.x < 32 then (s1.wakeDom (stackDom (stackOf (epKey v.dst.x v.dst.y))) v.wakeKind.1 v.wakeKind.2).enqueue 0 v.physY 5 v
    else s1.toHub v

/-! ### Pacing (R139) -/

def State.pace (s : State) (k : Nat) : Pace := if k < 2048 then (s.tile k).pace else tget {} k s.fab.hubPace

def State.modPace (s : State) (k : Nat) (f : Pace → Pace) : State :=
  if k < 2048 then s.modTile k (fun t => { t with pace := f t.pace })
  else { s with fab.hubPace := tmod {} k f s.fab.hubPace }

/-- Endpoint k sends a volley to a reachable destination: VC0 waits for tokens, VC1 and VC2 are not paced. -/
def State.paced (s : State) (k : Nat) (v : Volley) : State :=
  if v.vc ≠ 0 then s.inject k v
  else
    let p := s.pace k
    if p.waiting.isEmpty && v.flits * 4096 ≤ p.bucket then
      (s.modPace k (fun q => { q with bucket := q.bucket - v.flits * 4096 })).inject k v
    else s.modPace k (fun q => { q with waiting := q.waiting ++ [v] })

/-- Endpoint k sends a volley: to an unreachable destination it is not sent, each event is recorded and HUB_FAB_LOST
counts the volley (R117). -/
def State.send (s : State) (k : Nat) (v : Volley) : State :=
  match s.unreach v.dst with
  | some c => ({ s with hub.fabLost := sat 32 s.hub.fabLost 1 }).loseEvents v c (s.coord k)
  | none => s.paced k v

/-- Sends the volleys that waited for tokens, in order, while the bucket holds their flits. -/
def State.drainPace (s : State) (k : Nat) : Nat → State
  | 0 => s
  | n + 1 =>
    let p := s.pace k
    match p.waiting with
    | [] => s
    | v :: r =>
      if v.flits * 4096 ≤ p.bucket then
        ((s.modPace k (fun q => { q with bucket := q.bucket - v.flits * 4096, waiting := r })).inject k v).drainPace k n
      else s

/-- A control message on VC1 from the hub to a stack root (R134). -/
def State.toRoot (s : State) (src st : Nat) (c : Ctl) : State :=
  let v := s.mkVolley src (s.rootCoord st) 0 s.hub.epoch.current 0 1 0 0 (.control true c)
  s.inject src { v with physX := (rootPos st).1, physY := (rootPos st).2 }

/-- A control message on VC1 from a stack root to a hub unit (R134). -/
def State.fromRoot (s : State) (st dstX : Nat) (c : Ctl) : State :=
  let v := s.mkVolley (epKey (8 * (st % 4)) (16 * (st / 4))) { p := s.hub.p, x := dstX, y := 0 } 0 s.hub.epoch.current 0 1 0 0
    (.control false c)
  (s.countSent st v).enqueue (rootPos st).1 (rootPos st).2 4 v

/-! ### Volley assembly (R132) -/

/-- The destination fields of an entry, which key an open volley: dst, and the class. -/
def entryKey (e : DWord) : DWord := BitVec.ofNat 64 (wf e 17 0)

/-- Sends an open volley of tile t. -/
def State.sendOpen (s : State) (t : Nat) (o : OpenVolley) : State :=
  let lock := s.lockstep o.cls
  let x := s.world (o.group * 32 + evLane (o.words.headD 0))
  let tag := if lock then slotTag (x.turnOf o.base) (o.base - x.start (x.turnOf o.base)) else 0
  let v := s.mkVolley t (destCoord o.dst) o.group o.epoch o.cls (if lock then 2 else 0) tag o.base (.events o.words)
  let s1 := if lock
    then s.modTile t (fun y => { y with lockSent := y.lockSent ++ [(destCoord o.dst, o.group, tag)] }) else s
  s1.send t { v with urgent := o.urgent }

/-- Sends, in the order they opened, the open volleys of tile t that p selects. -/
def State.flushOpen (s : State) (t : Nat) (p : OpenVolley → Bool) : State :=
  let out := (s.tile t).openVols.filter p
  let s1 := s.modTile t (fun x => { x with openVols := x.openVols.filter (fun o => !p o) })
  out.foldl (fun s o => s.sendOpen t o) s1

def sameKey (o : OpenVolley) (dst : DWord) (g c : Nat) (ep : Bool) : Bool :=
  o.dst = dst && o.group = g && o.cls = c && o.epoch = ep

/-- One event word joins its open volley or opens one (R132). tau is the event's full tempo. -/
def State.addWord (s : State) (t : Nat) (e : DWord) (w tau value : Nat) (ep : Bool) : State :=
  let g := w / 32
  let key := entryKey e
  let c := destClass e
  let out := fun (o : OpenVolley) => sameKey o key g c ep && !(o.base ≤ tau && tau ≤ o.base + 63)
  let s1 := s.flushOpen t out
  let s2 :=
    if ((s1.tile t).openVols.any (fun o => sameKey o key g c ep)) then
      s1.modTile t (fun x => { x with openVols := x.openVols.map (fun o =>
        if sameKey o key g c ep then
          { o with words := o.words ++ [mkEvent (destRow e) (w % 32) value (tau - o.base)], urgent := o.urgent || destUrgent e }
        else o) })
    else
      let s1' :=
        if 8 ≤ (s1.tile t).openVols.length then
          match (s1.tile t).openVols with
          | [] => s1
          | o :: r => (s1.modTile t (fun x => { x with openVols := r })).sendOpen t o
        else s1
      s1'.modTile t (fun x => { x with openVols := x.openVols ++
        [{ dst := key, group := g, cls := c, epoch := ep, base := tau, words := [mkEvent (destRow e) (w % 32) value 0],
           urgent := destUrgent e }] })
  s2.flushOpen t (fun o => sameKey o key g c ep && (o.urgent || 32 ≤ o.words.length))

/-- All 8 volleys of the engine wait for pacing (R132). -/
def Tile.fanStalled (t : Tile) : Bool := 8 ≤ (t.pace.waiting.filter (fun v => match v.body with
  | .events _ => true
  | _ => false)).length

/-- The fan-out of one emission: one event word for each destination entry of the neuron (R131, R132). -/
def State.fanEmit (s : State) (t w n tau value : Nat) : State :=
  let ep := s.tileBank t w
  (s.fanout t ep n).foldl (fun s e => s.addWord t e w tau value ep) (s.wakeBank t)

/-- An emission of a run: stalled while all 8 volleys wait for pacing (R132). -/
def State.emission (s : State) (t w n tau value : Nat) : State :=
  if (s.tile t).fanStalled || !(s.tile t).stalled.isEmpty then
    s.modTile t (fun x => { x with stalled := x.stalled ++ [(w, n, tau, value)] })
  else s.fanEmit t w n tau value

/-- Emissions that were stalled go out once a volley slot is free. -/
def State.unstall (s : State) (t : Nat) : Nat → State
  | 0 => s
  | k + 1 =>
    if (s.tile t).fanStalled then s
    else
      match (s.tile t).stalled with
      | [] => s
      | (w, n, tau, value) :: r => ((s.modTile t (fun x => { x with stalled := r })).fanEmit t w n tau value).unstall t k

/-! ### Frontier notices (R55) -/

/-- Group g runs a Lockstep schedule in tile t (R54, R140). -/
def State.groupLockstep (s : State) (t g : Nat) : Bool :=
  (s.curSchedule t).any (fun e => schGroup e = g)

/-- The lanes of group g resident in tile t whose world is RUNNING. -/
def State.runningLanes (s : State) (t g : Nat) : List Nat :=
  ((s.tile t).residentLanes g).filter (fun l => (s.world (g * 32 + l)).st = .running)

/-- The group's frontier in tile t: the lowest among its RUNNING resident lanes; the last notice's where none runs. -/
def State.groupFrontier (s : State) (t g : Nat) : Nat :=
  match (s.runningLanes t g).map (fun l => ((s.tile t).world (g * 32 + l)).f) with
  | [] => tget 0 g (s.tile t).lastNotice
  | f :: r => r.foldl min f

/-- The lanes a notice of tile t covers: every lane but the resident lanes that are not RUNNING. -/
def State.noticeMask (s : State) (t g : Nat) : Word :=
  BitVec.ofNat 32 ((List.range 32).foldl (fun a l =>
    if (s.tile t).resident (g * 32 + l) && (s.world (g * 32 + l)).st ≠ .running then a else a + 2 ^ l) 0)

/-- Tile t sends a frontier notice for group g to each destination of its fan-out table, behind the volleys it covers;
none under Lockstep (R55, R132). -/
def State.sendNotice (s : State) (t g : Nat) : State :=
  if s.groupLockstep t g || !(s.tile t).configured then s
  else
    let f := s.groupFrontier t g
    let m := s.noticeMask t g
    let ep := s.tileBank t (g * 32 + ((s.tile t).residentLanes g).headD 0)
    let ds := ((s.fanDests t ep).filter (fun d => !s.lockstep d.2)).map (·.1) |>.eraseDups
    let s1 := ds.foldl (fun s d =>
      (s.flushOpen t (fun o => destCoord o.dst = d && o.group = g)).send t
        (s.mkVolley t d g ep 0 0 0 0 (.frontier (f % 2 ^ 20) m))) s
    s1.modTile t (fun x => { x with lastNotice := tset g f x.lastNotice })

/-- Every tile with state of group g sends a notice at once (R55). -/
def State.noticeGroup (s : State) (g : Nat) : State :=
  (s.tiles.filter (fun e => e.2.holdsGroup g)).foldl (fun s e => s.sendNotice e.1 g) s

/-- The RUNNING worlds of group g. -/
def State.runningOf (s : State) (g : Nat) : List Nat :=
  ((List.range 32).map (g * 32 + ·)).filter (fun w => (s.world w).st = .running)

/-- The Breeze destinations that a hub endpoint injects into for group g: the injection table at the rack gateway, the
input map at a stream port (R212, R227, R228). -/
def State.hubDests (s : State) (k g : Nat) : List Coord :=
  let es :=
    if epX k = 32 then s.hub.injection.map (·.2)
    else
      (s.port (epY k)).cfg.chans.flatMap (fun c =>
        if wf c.2 57 57 = 1 && wf c.2 44 32 / 32 = g then
          (List.range (wf c.2 31 20)).map (fun i => tget 0 (wf c.2 19 0 + i) s.portDest)
        else [])
  ((es.filter (fun e => !s.lockstep (destClass e))).map destCoord).eraseDups

/-- Hub endpoint k sends its notice for group g (R55): the lowest T of its RUNNING worlds, and the lanes that run. -/
def State.hubNotice (s : State) (k g : Nat) : State :=
  let ws := s.runningOf g
  let f := match ws.map (fun w => (s.world w).t) with
    | [] => 0
    | t :: r => r.foldl min t
  let m : Word := BitVec.ofNat 32 (ws.foldl (fun a w => a + 2 ^ (w % 32)) 0)
  (s.hubDests k g).foldl (fun s d =>
    s.send k (s.mkVolley k d g (s.hubBank (ws.headD (g * 32))) 0 0 0 0 (.frontier (f % 2 ^ 20) m))) s

/-- Every hub endpoint that injects input for group g sends a notice. -/
def State.hubNotices (s : State) (g : Nat) : State :=
  let ports := (s.ports.filter (fun e => !e.2.cfg.chans.isEmpty)).map (fun e => epKey 34 e.1)
  ((if s.hub.injection.isEmpty then [] else [epKey 32 0]) ++ ports).foldl (fun s k => s.hubNotice k g) s

/-! ### Taking a volley from a port -/

/-- The first volley that p accepts with no earlier volley of its source and VC ahead of it (R120), and the rest. -/
def takeVolley (p : Volley → Bool) (seen : List (Coord × Nat)) : List Volley → Option (Volley × List Volley)
  | [] => none
  | v :: r =>
    if p v && !seen.contains (v.src, v.vc) then some (v, r)
    else
      match takeVolley p ((v.src, v.vc) :: seen) r with
      | some (x, r') => some (x, v :: r')
      | none => none

/-- Takes a volley that p accepts from the port of endpoint k. -/
def State.takeInbox (s : State) (k : Nat) (p : Volley → Bool) : Option (Volley × State) :=
  match takeVolley p [] (tget [] k s.fab.inbox) with
  | some (v, r) => some (v, { s with fab.inbox := if r.isEmpty then tdel k s.fab.inbox else tset k r s.fab.inbox })
  | none => none

/-- Takes the first message of the mail that p accepts. -/
def takeMail (p : Mail → Bool) : List Mail → Option (Mail × List Mail)
  | [] => none
  | x :: r =>
    if p x then some (x, r)
    else
      match takeMail p r with
      | some (y, r') => some (y, x :: r')
      | none => none

/-- Takes the first message that p accepts from the draft network and the other message planes. -/
def State.takeMail (s : State) (p : Mail → Bool) : Option (Mail × State) :=
  match Machine.takeMail p s.fab.mail with
  | some (x, r) => some (x, { s with fab.mail := r })
  | none => none

/-- Posts a message to an endpoint, a stack root or a fence requester. -/
def State.post (s : State) (dst : Nat) (b : MailBody) : State :=
  { s with fab.mail := s.fab.mail ++ [{ dst := dst, body := b }] }

end Sys2Proof.Machine
end

