-- ==== Sys2Proof/Machine/Outputs.lean ====
section
/-! DEFINITION. Stream port channels: descriptors, safe states and triggers, re-arm, the formation of input events and
the port state machine (R221 to R229, R235 to R242). -/

namespace Sys2Proof.Machine

open Sys2Proof

/-! ### Output channel descriptors (R235) -/

abbrev OutDesc := DWord × DWord

def outWorld (d : OutDesc) : Nat := wf d.1 12 0
/-- 0 LEVEL, 1 PWM, 2 CAN. -/
def outKind (d : OutDesc) : Nat := wf d.1 14 13
def outSync (d : OutDesc) : Bool := wf d.1 15 15 = 1
/-- 0 LOW, 1 HIGH, 2 HIZ. -/
def outSafe (d : OutDesc) : Nat := wf d.1 17 16
def outHold (d : OutDesc) : Nat := wf d.1 34 26
def outRamp (d : OutDesc) : Nat := wf d.1 42 35
def outThr (d : OutDesc) : Nat := wf d.2 7 0
def outPeriod (d : OutDesc) : Nat := wf d.2 15 0

/-- The value a ramp moves toward (R238). -/
def outTarget (d : OutDesc) : Nat := if outKind d = 2 then wf d.1 25 18 else if outSafe d = 1 then 255 else 0

/-- The high time of value v in ticks (R236). -/
def outHigh (d : OutDesc) (v : Nat) : Nat := (v * outPeriod d + 127) / 255

def Port.desc (p : Port) (c : Nat) : Option OutDesc := if c < p.cfg.outCount then p.cfg.outs[c]? else none

def Port.out (p : Port) (c : Nat) : OutCh := tget {} c p.outs
def Port.modOut (p : Port) (c : Nat) (f : OutCh → OutCh) : Port := { p with outs := tmod {} c f p.outs }
def Port.slot (p : Port) (k : Nat) : CanSlot := tget {} k p.slots
def Port.modSlot (p : Port) (k : Nat) (f : CanSlot → CanSlot) : Port := { p with slots := tmod {} k f p.slots }

/-- Writes byte v of channel c into its transmit slot, due for sending; `resend`: it goes on being resent (R235,
R236). -/
def Port.canByte (p : Port) (c v : Nat) (resend : Bool) : Port :=
  p.modSlot (c / 8) (fun x =>
    { x with bytes := tset (c % 8) v x.bytes, due := true,
             resend := resend && wf (p.cfg.slots.getD (c / 8) 0) 63 48 ≠ 0 })

/-! ### Safe triggers (R238, R239) -/

/-- Channel c enters SAFE; `frame`: a CAN channel sends its slot once with safe bytes. -/
def Port.enterSafe (p : Port) (c : Nat) (d : OutDesc) (frame : Bool) : Port :=
  let p1 := p.modOut c (fun o =>
    { o with ostate := .safe, value := outTarget d, holdLeft := 0, nextCompare := none,
             pin := if outKind d = 2 then o.pin else outSafe d })
  if outKind d ≠ 2 then p1
  else if frame then p1.canByte c (outTarget d) false
  else p1.modSlot (c / 8) (fun x => { x with bytes := tset (c % 8) (outTarget d) x.bytes, due := false, resend := false })

/-- Step: the channel enters SAFE at once. -/
def Port.stepSafe (p : Port) (c : Nat) (d : OutDesc) : Port :=
  if (p.out c).ostate = .safe then p else p.enterSafe c d true

/-- Ramp: the value will move to the target; a LEVEL channel and a ramp_step of 0 step. -/
def Port.rampSafe (p : Port) (c : Nat) (d : OutDesc) : Port :=
  match (p.out c).ostate with
  | .safe => p
  | .ramp => p
  | _ =>
    if outKind d = 0 || outRamp d = 0 || (p.out c).value = outTarget d then p.enterSafe c d true
    else p.modOut c (fun o => { o with ostate := .ramp, holdLeft := 0 })

/-- HOLD for hold_ms, then ramp. -/
def Port.holdSafe (p : Port) (c : Nat) (d : OutDesc) : Port :=
  match (p.out c).ostate with
  | .armed =>
    if outHold d = 0 then p.rampSafe c d else p.modOut c (fun o => { o with ostate := .hold, holdLeft := outHold d })
  | _ => p

/-- Changes every output channel of a port that q selects. -/
def Port.eachOut (p : Port) (q : OutDesc → Bool) (f : Port → Nat → OutDesc → Port) : Port :=
  (List.range p.cfg.outCount).foldl (fun p c =>
    match p.desc c with
    | some d => if q d then f p c d else p
    | none => p) p

/-- Changes every output channel of every port that q selects. -/
def State.eachOut (s : State) (q : OutDesc → Bool) (f : Port → Nat → OutDesc → Port) : State :=
  { s with ports := s.ports.map (fun e => (e.1, e.2.eachOut q f)) }

/-- The channel's world parks or retires (R238). -/
def State.outsWorldSafe (s : State) (w : Nat) : State := s.eachOut (fun d => outWorld d = w) Port.rampSafe

/-! ### Re-arm (R240) -/

/-- Why channel c of port n cannot be armed, none when it can. -/
def State.armCode (s : State) (n c : Nat) (d : OutDesc) : Option Code :=
  let p := s.port n
  if p.st ≠ .attached || s.aon.haltN then some .busy
  else if (p.out c).ostate = .hold || (p.out c).ostate = .ramp then some .busy
  else if (s.world (outWorld d)).st ≠ .running then some .failedParked
  else none

/-- Arms channel c: it keeps its safe output until its first event. -/
def Port.arm (p : Port) (c : Nat) : Port :=
  p.modOut c (fun o => if o.ostate = .safe then { o with ostate := .armed } else o)

/-- Arms every channel of port n that q selects and that can be armed. -/
def State.armPort (s : State) (n : Nat) (q : OutDesc → Bool) : State :=
  (List.range (s.port n).cfg.outCount).foldl (fun s c =>
    match (s.port n).desc c with
    | some d => if q d && (s.armCode n c d).isNone then s.modPort n (fun p => p.arm c) else s
    | none => s) s

/-- Arms every channel of world w that can be armed (R38, R240). -/
def State.armWorld (s : State) (w : Nat) : State :=
  (s.ports.map (·.1)).foldl (fun s n => s.armPort n (fun d => outWorld d = w)) s

/-- The ports to which world w is bound. -/
def State.boundPorts (s : State) (w : Nat) : List Nat :=
  (s.ports.filter (fun e => (List.range e.2.cfg.outCount).any (fun c =>
    match e.2.desc c with
    | some d => outWorld d = w
    | none => false))).map (·.1)

/-! ### Input events (R226 to R229) -/

/-- The hub endpoint of port n. -/
def portEp (n : Nat) : Nat := epKey 34 n

/-- Counts k intake drops for the turn of world w that contains tempo tau, when the world has open turns (R229). -/
def State.addIntake (s : State) (w tau k : Nat) : State :=
  let x := s.world w
  if (x.st = .running || x.st = .parked) && x.anchor ≤ tau && x.closed ≤ x.turnOf tau
  then s.modWorld w (fun y => { y with turns := tmod {} (y.turnOf tau) (fun i => { i with intake := sat 32 i.intake k }) y.turns })
  else s

/-- The key under which a unit counts its sampled descriptors of world w at tempo tau: one key a turn, 0 for a world
without an open turn. -/
def State.turnKey (s : State) (w tau : Nat) : Nat :=
  let x := s.world w
  if x.st = .running || x.st = .parked then (x.turnOf tau + 1) * 8192 + w else w

/-- The volley that carries one event of a hub endpoint (log 24). -/
def State.eventVolley (s : State) (k : Nat) (e : DWord) (w tau value vc slot : Nat) : Volley :=
  { s.mkVolley k (destCoord e) (w / 32) (s.hubBank w) (destClass e) vc slot tau
      (.events [mkEvent (destRow e) (w % 32) value 0]) with urgent := destUrgent e }

/-- Sends the queued events of port n while its bucket holds a volley's flits (R228, R139). -/
def State.portDrain (s : State) (n : Nat) : Nat → State
  | 0 => s
  | k + 1 =>
    match (s.port n).queue with
    | [] => s
    | e :: r =>
      let p := s.pace (portEp n)
      if p.waiting.isEmpty && 2 * 4096 ≤ p.bucket then
        ((s.modPort n (fun x => { x with queue := r, sent := sat 32 x.sent 1 })).send (portEp n)
          (s.eventVolley (portEp n) e.dest e.w e.stamp e.value 0 0)).portDrain n k
      else s

/-- Sends every queued event of port n, by the usual rules (R225, R242). -/
def State.portFlush (s : State) (n : Nat) : State :=
  let q := (s.port n).queue
  q.foldl (fun s e => s.send (portEp n) (s.eventVolley (portEp n) e.dest e.w e.stamp e.value 0 0))
    (s.modPort n (fun x => { x with queue := [], sent := sat 32 x.sent q.length }))

/-- A Breeze event joins the port queue, or finds it full and is dropped (R229). -/
def State.portQueue (s : State) (n : Nat) (e : DWord) (w value : Nat) : State :=
  let tau := (s.world w).t
  if (s.port n).queue.length < 512 then
    (s.modPort n (fun x => { x with queue := x.queue ++ [{ dest := e, w := w, value := value, stamp := tau }] })).portDrain n 512
  else
    let key := s.turnKey w tau
    let k := tget 0 key (s.port n).sampled
    let s1 := (s.modPort n (fun x =>
      { x with dropped := sat 32 x.dropped 1, sampled := tset key (k + 1) x.sampled })).addIntake w tau 1
    if k < 16 then
      s1.pushLoss { eventItem (s.eventVolley (portEp n) e w tau value 0 0) (mkEvent (destRow e) (w % 32) value 0)
        .droppedSquall (s.coord (portEp n)) with sampled := true }
    else s1

/-- A Lockstep input waits for its EMIT slot; one pending event is kept per channel and turn (R228). -/
def State.lockQueue (s : State) (ep ch : Nat) (e : DWord) (w tau value : Nat) : State :=
  let same := fun (x : LockIn) => x.ep = ep && x.ch = ch && x.w = w && x.tempo = tau && x.dest = e
  if s.hub.lockIn.any same then
    { s with hub.lockIn := s.hub.lockIn.map (fun x => if same x then { x with value := value } else x) }
  else { s with hub.lockIn := s.hub.lockIn ++ [{ ep := ep, ch := ch, w := w, tempo := tau, dest := e, value := value }] }

/-- Port n forms one event (R228): by the discipline of the destination's class. -/
def State.portEvent (s : State) (n ch : Nat) (e : DWord) (w off value : Nat) : State :=
  if s.lockstep (destClass e) then
    s.lockQueue (portEp n) ch e w ((s.world w).start (s.world w).opened + off) value
  else s.portQueue n e w value

/-- The destinations of an input channel word (R227). -/
def State.chanDests (s : State) (c : DWord) : List DWord :=
  (List.range (wf c 31 20)).map (fun i => tget 0 (wf c 19 0 + i) s.portDest)

/-- A captured value on channel ch of port n (R227, R228). -/
def State.capture (s : State) (n ch value : Nat) : State :=
  let p := s.port n
  if p.st ≠ .attached then s
  else
    let c := tget (0 : DWord) ch p.cfg.chans
    let s := s.wakeDom (portDom n) 2 (portEp n)
    if p.cfg.inCount ≤ ch || wf c 57 57 = 0 then s.modPort n (fun x => { x with ignored := sat 16 x.ignored 1 })
    else
      let w := wf c 44 32
      if (s.world w).st ≠ .running then s.modPort n (fun x => { x with idle := sat 32 x.idle 1 })
      else
        let tau := (s.world w).start (s.world w).opened + wf c 56 45
        let ds := s.chanDests c
        let coal := ds.any (fun e => s.lockstep (destClass e) &&
          s.hub.lockIn.any (fun x => x.ep = portEp n && x.ch = ch && x.w = w && x.tempo = tau && x.dest = e))
        let s1 := ds.foldl (fun s e => s.portEvent n ch e w (wf c 56 45) value) s
        if coal then s1.modPort n (fun x => { x with coal := sat 32 x.coal 1 }) else s1

/-- Captures of consecutive channels from `first` on. -/
def State.captures (s : State) (n first : Nat) : List Byte → State
  | [] => s
  | b :: r => (s.capture n first b.toNat).captures n (first + 1) r

/-- The lost (false) or found (true) events of port n (R226): sent whatever the world's state. -/
def State.lostEvents (s : State) (n : Nat) (found : Bool) : State :=
  let es := (s.port n).cfg.lost
  (List.range es.length).foldl (fun s i =>
    let e := es.getD i (0, 0)
    if wf e.2 22 22 = 1 && (wf e.2 21 21 = 1) = found
    then s.portEvent n (4096 + i) e.1 (wf e.2 12 0) 0 (wf e.2 20 13) else s) s

/-! ### The port state machine (R221 to R225, R241) -/

def PortState.toNat : PortState → Nat
  | .off => 0 | .detached => 1 | .enumerating => 2 | .attached => 3 | .fenced => 4

/-- Posts the PORT_STATE record (R241). -/
def State.portRecord (s : State) (n cause : Nat) : State :=
  let s1 := s.modPort n (fun x => { x with cause := cause })
  s1.postRecord (s1.port n).cfg.statusRack (0x14 + n) 0x87 .done none
    [BitVec.ofNat 64 (n + (s1.port n).st.toNat * 2 ^ 4 + cause * 2 ^ 8 + s1.aon.wall % 2 ^ 32 * 2 ^ 32)]

/-- ATTACHED to DETACHED, in the order of R225; `to`: DETACHED, or FENCED by R242 whose channels step. -/
def State.detach (s : State) (n : Nat) (cause : Nat) : State :=
  let s1 := s.modPort n (fun x => { x with st := .detached, detaches := sat 16 x.detaches 1 })
  let s2 := ((s1.portFlush n).lostEvents n false).portFlush n
  (s2.modPort n (fun p => p.eachOut (fun _ => true) Port.rampSafe)).portRecord n cause

/-- ENUMERATING to ATTACHED (R221, R226, R240). -/
def State.attach (s : State) (n : Nat) : State :=
  let s1 := s.modPort n (fun x =>
    { x with st := .attached, attaches := sat 16 x.attaches 1, enumFail := false, badRun := 0, illegalRun := [] })
  let s2 := s1.lostEvents n true
  let s3 := if (s2.port n).armPending then s2.armPort n (fun _ => true) else s2
  (s3.modPort n (fun x => { x with armPending := false })).portRecord n 3

/-- DETACHED to ENUMERATING with its cause; enumeration succeeds at once in modes AER, QUAD and OUT (R224). -/
def State.enumerate (s : State) (n cause : Nat) : State :=
  let s1 := (s.modPort n (fun x => { x with st := .enumerating })).portRecord n cause
  let md := (s1.port n).cfg.mode
  if md = 3 || md = 4 || md = 5 then s1.attach n else s1

/-- The port treats presence as asserted (R222). -/
def Port.present (p : Port) : Bool := p.pres || p.cfg.presIgnore

/-- Enumeration fails (R221, R224). -/
def State.enumFailed (s : State) (n : Nat) : State :=
  (s.modPort n (fun x => { x with st := .detached, enumFail := true })).portRecord n 4

/-- FENCED to DETACHED when the domain returns to ACTIVE; the port enumerates if presence is asserted (R242). -/
def State.portResume (s : State) (n : Nat) : State :=
  if (s.port n).st = .fenced then
    let s1 := (s.modPort n (fun x => { x with st := .detached })).portRecord n 6
    if (s1.port n).present then s1.enumerate n 1 else s1
  else s

/-- What port n has accepted and not sent when its drain ends (R293): the events of its queue, its volleys that wait for
tokens, and its Lockstep inputs. -/
def State.portLeftovers (s : State) (n : Nat) : State :=
  let ep := portEp n
  let item := fun (e : DWord) (w tau value : Nat) =>
    eventItem (s.eventVolley ep e w tau value 0 0) (mkEvent (destRow e) (w % 32) value 0) .failedFenced (s.coord ep)
  let s1 := (s.port n).queue.foldl (fun s e => s.pushLoss (item e.dest e.w e.stamp e.value)) s
  let s2 := (s.pace ep).waiting.foldl (fun s v => s.loseEvents v .failedFenced (s.coord ep)) s1
  let s3 := (s.hub.lockIn.filter (fun x => x.ep = ep)).foldl (fun s x => s.pushLoss (item x.dest x.w x.tempo x.value)) s2
  { (s3.modPort n (fun p => { p with queue := [] })).modPace ep (fun p => { p with waiting := [] }) with
    hub.lockIn := s.hub.lockIn.filter (fun x => x.ep ≠ ep) }

/-- The port's domain is FENCED: the port stops capturing and steps its channels to SAFE (R242). -/
def State.portFence (s : State) (n : Nat) : State :=
  let s1 := s.portLeftovers n
  if (s.port n).st = .off then s1
  else (s1.modPort n (fun p => ({ p with st := .fenced } : Port).eachOut (fun _ => true) Port.stepSafe)).portRecord n 5

end Sys2Proof.Machine
end

