-- ==== Sys2Proof/Machine/Racks.lean ====
section
/-! DEFINITION. The rack windows and set windows: PUSH, POP, PEEK, LATCH and ACK (R149 to R159, R210, R263, R310). -/

namespace Sys2Proof.Machine

open Sys2Proof

/-- BAR0 offsets of a rack window and a set window (R349). -/
def rackWin (rk : Nat) : Nat := 0x200000 + 0x800 * rk
def setWin (n : Nat) : Nat := 0x280000 + 0x100 * n

/-- Rack rk is the command rack of a logical device (R155). -/
def State.isCmdRack (s : State) (rk : Nat) : Bool := (s.ldOfRack rk).isSome

/-- A message as a 32-byte read shows it: words beyond len_m1 read 0 (R158). -/
def padMsg (m : List DWord) : List DWord := [m.getD 0 0, m.getD 1 0, m.getD 2 0, m.getD 3 0]

/-- The EMPTY word of rack rk (R158): kind 0xFF, code EMPTY, the rack, the next sequence number. -/
def emptyWord (rk : Nat) (next : Word) : DWord :=
  BitVec.ofNat 64 (0xFF * 2 ^ 8 + Code.empty.toNat * 2 ^ 16 + rk % 256 * 2 ^ 24 + next.toNat * 2 ^ 32)

/-- The sequence number of the head: next − occupied (RACK_SEQ). -/
def Rack.headSeq (r : Rack) : Word := r.next - BitVec.ofNat 32 r.msgs.length

/-- Removes the head message of rack rk. -/
def State.rackDrop (s : State) (rk : Nat) : State := s.modRack rk (fun r => { r with msgs := r.msgs.tail })

/-- An uncorrectable entry at the head removes its message, recorded as a RACK item (R310). -/
def State.rackScrub (s : State) (rk : Nat) : Nat → State
  | 0 => s
  | n + 1 =>
    let r := s.rack rk
    match r.msgs with
    | [] => s
    | m :: _ =>
      if r.bad.contains r.headSeq then
        let h := m.headD 0
        ((s.rackDrop rk).pushLoss
          { code := .failedUncorrectable, kind := 0xA, w := none, reporter := { p := s.hub.p, x := 32, y := 0 }, a := 0,
            b := BitVec.ofNat 64 (fb h.toNat 31 0), ext := some (m.getD 1 0), stamp := none, sampled := false })
          |>.rackScrub rk n
      else s

/-- The head of rack rk after R310 has removed what cannot be read. -/
def State.rackReady (s : State) (rk : Nat) : State := s.rackScrub rk (s.rack rk).msgs.length

/-- Why an access to window rk with the need given is refused, none when it is allowed: before READY (R263), without
the right (R206), for a rack the image does not configure (R149), and for a command rack where `cmdOk` is false
(R155). -/
def rackRefusal (s : State) (m rk : Nat) (need : Right) (cmdOk : Bool) : Option Code :=
  if !s.isReady then some .notReady
  else if !s.has m (.rack rk) need || !(s.rack rk).enabled then some .failedAccess
  else if !cmdOk && s.isCmdRack rk then some .failedAccess
  else none

/-- The result of a PUSH in RACK_RES and in the rack's counter (R154): a refused PUSH is discarded. -/
def State.pushResult (s : State) (m rk : Nat) (c : Code) : State :=
  let s1 := s.modMaster m (fun x =>
    { x with staging := tdel rk x.staging,
             rackRes := tmod {} rk (fun r =>
               { r with push := c, refused := if c = .done then r.refused else sat 16 r.refused 1 }) x.rackRes })
  if c = .done then s1 else s1.modRack rk (fun r => { r with refused := sat 16 r.refused 1 })

/-- The message the staging area of (rack, master) holds under a header: the header and len_m1 body words (R153). -/
def stagedMsg (s : State) (m rk : Nat) (hdr : DWord) : List DWord :=
  let st := tget [] rk (s.master m).staging
  hdr :: (List.range (wf hdr 1 0)).map (fun i => tget 0 (i + 1) st)

/-- A PUSH to rack rk is taken: the package is READY, or the rack is a command rack and step 9 is done (R263). -/
def pushOpen (s : State) (rk : Nat) : Bool :=
  s.isReady || (10 ≤ s.boot.phase && s.boot.st = 0 && s.isCmdRack rk)

/-- The code a PUSH receives (R154, R210, R263, R279). -/
def pushCode (s : State) (m rk : Nat) : Code :=
  let r := s.rack rk
  if !pushOpen s rk then .notReady
  else if s.isCmdRack rk && !((s.ldOfRack rk) = some (ldOf m) && isHost m) then .failedAccess
  else if s.isCmdRack rk && s.pwr.dispatchOff then .busy
  else if r.hubReserve < r.free then .done
  else .busy

/-- PUSH: the header write commits the staged message (R153, R154, R210). -/
def execPush (m rk : Nat) (hdr : DWord) (s : State) : Host.Outcome State Fault Refusal :=
  let off := rackWin rk
  if pushOpen s rk && (!s.has m (.rack rk) .use || !(s.rack rk).enabled) then .next (s.refuse m false off .failedAccess false)
  else
    match pushCode s m rk with
    | .done =>
      .next ((((s.traceRack rk 1 m .done (fb hdr.toNat 15 8) (s.rack rk).next.toNat).rackPut rk m
        (stagedMsg s m rk hdr)).pushResult m rk .done).respond m [])
    | .notReady => .next ((s.pushResult m rk .notReady).refuse m false off .notReady false)
    | c =>
      .next (((s.traceRack rk 1 m c (fb hdr.toNat 15 8) (s.rack rk).next.toNat).pushResult m rk c).respond m [])

/-- A POP, a PEEK or an ACK of rack rk is traced with its code (R318). -/
def State.traceRead (s : State) (rk op m : Nat) (msg : List DWord) : State :=
  s.traceRack rk op m (if msg.isEmpty then .empty else .done) (wf (msg.headD 0) 15 8)
    (if msg.isEmpty then (s.rack rk).next.toNat else wf (msg.headD 0) 63 32)

/-- A POP's latch and answer (R158). -/
def State.latchMsg (s : State) (m win : Nat) (msg : List DWord) : State :=
  (s.modMaster m (fun x => { x with latches := tset win (padMsg msg) x.latches })).respond m (padMsg msg)

/-- POP: removes the head into the reader's latch, or latches an EMPTY word (R158). -/
def execPop (m rk : Nat) (s : State) : Host.Outcome State Fault Refusal :=
  match rackRefusal s m rk .use false with
  | some c => .next (s.refuse m false (rackWin rk + 0x40) c true)
  | none =>
    let s0 := s.rackReady rk
    let s1 := s0.traceRead rk 2 m ((s0.rack rk).msgs.headD [])
    match (s1.rack rk).msgs with
    | [] => .next (s1.latchMsg m rk [emptyWord rk (s1.rack rk).next])
    | h :: _ => .next ((s1.rackDrop rk).latchMsg m rk h)

/-- What a PEEK of rack rk returns. -/
def peekMsg (s : State) (rk : Nat) : List DWord :=
  match (s.rack rk).msgs with
  | [] => [emptyWord rk (s.rack rk).next]
  | h :: _ => h

/-- PEEK: returns the head without removing it (R158). -/
def execPeek (m rk : Nat) (s : State) : Host.Outcome State Fault Refusal :=
  match rackRefusal s m rk .read false with
  | some c => .next (s.refuse m false (rackWin rk + 0x80) c true)
  | none =>
    let s0 := s.rackReady rk
    let s1 := s0.traceRead rk 3 m ((s0.rack rk).msgs.headD [])
    .next (s1.respond m (padMsg (peekMsg s1 rk)))

/-- LATCH: returns the reader's latch without side effect (R158). -/
def execLatch (m rk : Nat) (s : State) : Host.Outcome State Fault Refusal :=
  match rackRefusal s m rk .read false with
  | some c => .next (s.refuse m false (rackWin rk + 0x60) c true)
  | none => .next (s.respond m (padMsg (tget [] rk (s.master m).latches)))

/-! ### Sets (R157) -/

/-- The member indices in the order a set POP tries them: image order under priority, from the one after the last
served under rotation. -/
def RackSet.order (x : RackSet) : List Nat :=
  let n := x.members.length
  if x.rotation then (List.range n).map (fun i => (x.last + 1 + i) % n) else List.range n

/-- The member a set POP serves at this moment: its index and rack, none when every member is empty. -/
def setServe (s : State) (x : RackSet) : Option (Nat × Nat) :=
  (x.order.map (fun i => (i, x.members.getD i 0))).find? (fun e => !(s.rack e.2).msgs.isEmpty)

/-- The EMPTY word of an empty set (R158): the member a set POP would serve next. -/
def setEmpty (s : State) (x : RackSet) : DWord :=
  let rk := x.members.getD (x.order.headD 0) 0
  emptyWord rk (s.rack rk).next

/-- Every member with its unreadable heads removed (R310). -/
def State.setReady (s : State) (x : RackSet) : State := x.members.foldl (fun s rk => s.rackReady rk) s

def setRefusal (s : State) (m n : Nat) (need : Right) : Option Code :=
  if !s.isReady then some .notReady
  else if (s.rackSet n).members.isEmpty || !s.hasSet m n need then some .failedAccess
  else if (s.rackSet n).members.any s.isCmdRack then some .failedAccess
  else none

/-- SET_POP: a POP served from the member the policy chooses; it moves the rotation pointer (R157). -/
def execSetPop (m set : Nat) (s : State) : Host.Outcome State Fault Refusal :=
  match setRefusal s m set .use with
  | some c => .next (s.refuse m false (setWin set) c true)
  | none =>
    let s1 := s.setReady (s.rackSet set)
    let x := s1.rackSet set
    match setServe s1 x with
    | none => .next (s1.latchMsg m (256 + set) [setEmpty s1 x])
    | some (i, rk) =>
      let s2 := ((s1.traceRead rk 2 m (peekMsg s1 rk)).rackDrop rk).latchMsg m (256 + set) (peekMsg s1 rk)
      .next { s2 with racks.sets := tset set { x with last := i } s2.racks.sets }

/-- SET_PEEK: the message a set POP would return at this moment (R157). -/
def execSetPeek (m set : Nat) (s : State) : Host.Outcome State Fault Refusal :=
  match setRefusal s m set .read with
  | some c => .next (s.refuse m false (setWin set + 0x20) c true)
  | none =>
    let s1 := s.setReady (s.rackSet set)
    let x := s1.rackSet set
    match setServe s1 x with
    | none => .next (s1.respond m (padMsg [setEmpty s1 x]))
    | some (_, rk) => .next ((s1.traceRead rk 3 m (peekMsg s1 rk)).respond m (padMsg (peekMsg s1 rk)))

/-! ### ACK (R159) -/

/-- The result of an ACK of v, and how many messages it removes. -/
def ackResult (r : Rack) (v : Word) : Code × Nat :=
  let h := r.headSeq
  if (v - h).toNat < r.msgs.length then (.done, (v - h).toNat + 1)
  else if (h - 1 - v).toNat < 2 ^ 31 then (.repeated, 0)
  else (.failedAccess, 0)

/-- RACK_ACK: removes every message through sequence number v, or reports REPEAT or FAILED_ACCESS in ack_code. -/
def execRackAck (m rk : Nat) (v : Word) (s : State) : Host.Outcome State Fault Refusal :=
  match rackRefusal s m rk .use false with
  | some c => .next (s.refuse m false (rackWin rk + 0xC0) c false)
  | none =>
    let res := ackResult (s.rack rk) v
    let s1 := (s.traceRack rk 4 m res.1 0 v.toNat).modRack rk (fun r => { r with msgs := r.msgs.drop res.2 })
    .next ((s1.modMaster m (fun x =>
      { x with rackRes := tmod {} rk (fun r => { r with ack := res.1 }) x.rackRes })).respond m [])

end Sys2Proof.Machine
end

