-- ==== Sys2Proof/Machine/Pips.lean ====
section
/-! DEFINITION. The pip store: operations by mode, waiters and wakes, internal adds (R165 to R170). -/

namespace Sys2Proof.Machine

open Sys2Proof

/-- The package's waiter entries (R168). -/
def maxWaiters : Nat := 16384

/-- The GATE loop (R166): count falls below target, gen rises by the number of subtractions. -/
def Pip.gateLoop (p : Pip) (c : Nat) : Pip :=
  { p with count := BitVec.ofNat 32 (c % p.target.toNat),
           gen := p.gen + BitVec.ofNat 16 (c / p.target.toNat) }

/-- ADD n (R166), none where the mode refuses it. -/
def Pip.add (p : Pip) (n : Word) : Option Pip :=
  if p.mode = 0 then
    let sum := p.count.toInt + n.toInt
    some { p with count := p.count + n, ovf := p.ovf || sum < -2147483648 || 2147483647 < sum }
  else if p.mode = 1 then
    if 1 ≤ n.toInt then some (p.gateLoop (p.count.toNat + n.toNat)) else none
  else some { p with count := p.count + n }

/-- SET v (R166). -/
def Pip.set (p : Pip) (v : Word) : Pip := if p.mode = 1 then p.gateLoop v.toNat else { p with count := v }

/-- A waiter's condition (R168). -/
def Waiter.holds (x : Waiter) (p : Pip) : Bool :=
  if x.cond = 0 then p.count = x.value
  else if x.cond = 1 then p.count ≠ x.value
  else if x.cond = 2 then x.value.toInt ≤ p.count.toInt
  else if x.cond = 3 then p.count.toInt ≤ x.value.toInt
  else p.gen.toNat ≠ fb x.value.toNat 15 0

/-- A PIP record (R318): op as PIP_RES.op, 8 a wake, 9 an internal add. -/
def State.tracePip (s : State) (n op m : Nat) (c : Code) : State :=
  s.traceHub 33 8 n [op + m * 2 ^ 4, c.toNat] (.pipBlock (n / 4096))

/-- The PIP_WAKE body (R169). -/
def wakeBody (x : Waiter) (p : Pip) : List DWord :=
  [BitVec.ofNat 64 (x.pip + x.tag * 2 ^ 32), BitVec.ofNat 64 (p.count.toNat + p.gen.toNat * 2 ^ 32)]

/-- Re-evaluates pip n's waiters in registration order: each whose condition holds posts its PIP_WAKE into its
reserved entry and is freed (R168, R169). -/
def State.wakeWaiters (s : State) (n : Nat) : State :=
  let p := s.pip n
  let hit := s.pips.waiters.filter (fun x => x.pip = n && x.holds p)
  let s1 := { s with pips.waiters := s.pips.waiters.filter (fun x => !(x.pip = n && x.holds p)) }
  hit.foldl (fun s x => (s.tracePip n 8 x.master .done).postReserved x.rack 0x85 .done (wakeBody x p)) s1

/-- Pip n takes descriptor p and its waiters are re-evaluated. -/
def State.putPip (s : State) (n : Nat) (p : Pip) : State :=
  ({ s with pips.pips := tset n p s.pips.pips }).wakeWaiters n

/-- An internal add on behalf of master `by_` (R167): applied as ADD, or not applied, recorded with FAILED_ACCESS and
counted in PIP_REFUSED. -/
def State.internalAdd (s : State) (by_ n : Nat) (inc : Word) : State :=
  match if 2 ≤ (s.pipRight by_ n).rank then (s.pip n).add inc else none with
  | some p => (s.tracePip n 9 by_ .done).putPip n p
  | none =>
    ({ s.tracePip n 9 by_ .failedAccess with pips.refused := sat 32 s.pips.refused 1 }).pushLoss
      { code := .failedAccess, kind := 0x7, w := none, reporter := { p := s.hub.p, x := 33, y := 0 }, a := 0,
        b := BitVec.ofNat 64 (n + inc.toNat * 2 ^ 32), ext := none, stamp := none, sampled := false }

/-- BAR0 offset of the pip register at +o. -/
def pipOff (o : Nat) : Nat := 0x300000 + o

/-- A host operation's code is latched in PIP_RES of its master (R166). -/
def State.pipRes (s : State) (m : Nat) (c : Code) (op : Nat) : State :=
  ((s.tracePip (s.master m).pipSel op m c).modMaster m (fun x => { x with pipResCode := c, pipResOp := op })).respond m []

/-- Why a write to the pip registers is refused by R200: before READY, or without the right on the selected pip. -/
def pipRefusal (s : State) (m : Nat) (need : Right) : Option Code :=
  if !s.isReady then some .notReady
  else if need.rank ≤ (s.pipRight m (s.master m).pipSel).rank then none
  else some .failedAccess

/-- Runs a pip operation on the selected pip n: it answers the state and the code, latched with its number. -/
def pipOp (m off op : Nat) (need : Right) (f : State → Nat → State × Code) (s : State) :
    Host.Outcome State Fault Refusal :=
  match pipRefusal s m need with
  | some c => .next (s.refuse m false (pipOff off) c false)
  | none =>
    let r := f s (s.master m).pipSel
    .next (r.1.pipRes m r.2 op)

/-- PIP_ADD (R166). -/
def execPipAdd (m : Nat) (v : Word) (s : State) : Host.Outcome State Fault Refusal :=
  pipOp m 0x14 1 .use (fun s n =>
    match (s.pip n).add v with
    | some p => (s.putPip n p, .done)
    | none => (s, .failedAccess)) s

/-- PIP_SET (R166). -/
def execPipSet (m : Nat) (v : Word) (s : State) : Host.Outcome State Fault Refusal :=
  pipOp m 0x18 2 .use (fun s n => (s.putPip n ((s.pip n).set v), .done)) s

/-- PIP_TRYSUB (R166): COUNT only, and only when 0 ≤ n ≤ count. -/
def execPipTrysub (m : Nat) (v : Word) (s : State) : Host.Outcome State Fault Refusal :=
  pipOp m 0x1C 3 .use (fun s n =>
    let p := s.pip n
    if p.mode ≠ 0 then (s, .failedAccess)
    else if 0 ≤ v.toInt && v.toInt ≤ p.count.toInt then (s.putPip n { p with count := p.count - v }, .done)
    else (s, .busy)) s

/-- The code R168 gives a waiter of master m on pip n, before it is registered. -/
def waitCode (s : State) (m n cond : Nat) : Code :=
  let x := s.master m
  if 4 < cond || !s.has m (.rack x.waitRack) .use || !(s.rack x.waitRack).enabled || s.isCmdRack x.waitRack
  then .failedAccess
  else if maxWaiters ≤ s.pips.waiters.length || (s.rack x.waitRack).free = 0
    || s.pips.waiters.any (fun y => y.master = m && y.tag = x.waitTag && y.pip = n)
  then .busy
  else .done

/-- Registers a waiter of master m on pip n and reserves its wake-rack entry (R168). -/
def State.register (s : State) (m n cond : Nat) (value : Word) : State :=
  let x := s.master m
  let s1 := s.modRack x.waitRack (fun r => { r with reserved := r.reserved + 1 })
  { s1 with pips.waiters := s1.pips.waiters ++
      [{ pip := n, master := m, cond := cond, value := value, rack := x.waitRack, tag := x.waitTag }] }

/-- PIP_ARRIVE (R166): GATE only; adds n and registers a GEN waiter with the gen before the add, both or neither. -/
def execPipArrive (m : Nat) (v : Word) (s : State) : Host.Outcome State Fault Refusal :=
  pipOp m 0x20 5 .use (fun s n =>
    let p := s.pip n
    if p.mode ≠ 1 then (s, .failedAccess)
    else
      match p.add v with
      | none => (s, .failedAccess)
      | some p' =>
        match waitCode s m n 4 with
        | .done => ((s.register m n 4 (p.gen.zeroExtend 32)).putPip n p', .done)
        | c => (s, c)) s

/-- PIP_WAIT (R168): a wake is posted at once when the condition already holds. -/
def execPipWait (m : Nat) (v : Word) (s : State) : Host.Outcome State Fault Refusal :=
  pipOp m 0x24 4 .use (fun s n =>
    match waitCode s m n (s.master m).waitCond with
    | .done => ((s.register m n (s.master m).waitCond v).wakeWaiters n, .done)
    | c => (s, c)) s

/-- PIP_CANCEL (R169). -/
def execPipCancel (m : Nat) (v : Word) (s : State) : Host.Outcome State Fault Refusal :=
  pipOp m 0x2C 6 .use (fun s n =>
    let mine := fun (y : Waiter) => y.pip = n && y.master = m && y.tag = fb v.toNat 15 0
    match s.pips.waiters.find? mine with
    | none => (s, .repeated)
    | some y =>
      (({ s with pips.waiters := s.pips.waiters.filter (fun z => !(mine z)) }).modRack y.rack
        (fun r => { r with reserved := r.reserved - 1 }), .done)) s

/-- A configuration write leaves no GATE pip with target 0, no TURN pip with period 0 and no mode above 3 (R165). -/
def Pip.valid (p : Pip) : Bool := p.mode < 4 && !(p.mode = 1 && p.target = 0) && !(p.mode = 3 && p.period = 0)

/-- A configuration write (R165, R166): refused whole where it would leave an invalid pip; otherwise it takes effect
at once, the GATE loop runs in GATE mode, and waiters are re-evaluated. -/
def pipConfig (f : Pip → Pip) (s : State) (n : Nat) : State × Code :=
  let p := f (s.pip n)
  if !p.valid then (s, .failedAccess)
  else (s.putPip n (if p.mode = 1 then p.gateLoop p.count.toNat else p), .done)

/-- PIP_TARGET (R165). -/
def execPipTarget (m : Nat) (v : Word) (s : State) : Host.Outcome State Fault Refusal :=
  pipOp m 0x08 7 .admin (pipConfig (fun p => { p with target := v })) s

/-- The fields of a PIP_MODE write: period, owner and mode are RW, ovf is W1C. -/
def pipModeFields (v : Word) (p : Pip) : Pip :=
  { p with period := fb v.toNat 31 16, owner := fb v.toNat 8 3, mode := fb v.toNat 2 0, ovf := p.ovf && !v.getLsbD 9 }

/-- PIP_MODE (R165, R166). -/
def execPipMode (m : Nat) (v : Word) (s : State) : Host.Outcome State Fault Refusal :=
  pipOp m 0x0C 7 .admin (pipConfig (pipModeFields v)) s

/-- PIP_OVF_CLEAR: a PIP_MODE write with bit 9 set; as a write of the register it writes the other fields too (R7,
log 19). -/
def execPipOvfClear (m : Nat) (v : Word) (s : State) : Host.Outcome State Fault Refusal :=
  pipOp m 0x0C 7 .admin (pipConfig (pipModeFields (v ||| 0x200))) s

/-- The TURN rule (R170): the pip releases turn n when (count − req) mod 2^32 < 2^31; only in TURN mode (R20). -/
def Pip.releases (p : Pip) (n : Nat) : Bool :=
  p.mode = 3 && (p.count.toNat + 2 ^ 32 - p.target.toNat * (n / p.period) % 2 ^ 32) % 2 ^ 32 < 2 ^ 31

end Sys2Proof.Machine
end

