-- ==== Sys2Proof/Machine/Flags.lean ====
section
/-! DEFINITION. The gambit engine's arithmetic: saturation, rounding, leak, the LFSR, and the flags that CMP sets and
conditions read (R81, R83, R84, R86 to R89). -/

namespace Sys2Proof.Machine

open Sys2Proof

/-- A signed number as a 32-bit register value. -/
def toReg (x : Int) : Word := BitVec.ofInt 32 x

/-- sat24 as a register value (R81). -/
def sat24w (x : Int) : Word := toReg (sat24 x)

/-- A 17-bit immediate, sign-extended (R82). -/
def sext17 (i : BitVec 17) : Word := i.signExtend 32

/-- MULQ (R81): the exact product, rounded half upward over sh bits, then sat24. -/
def mulq (a b : Int) (sh : Nat) : Word :=
  if sh = 0 then sat24w (a * b) else sat24w ((a * b + 2 ^ (sh - 1)) / 2 ^ sh)

/-- The signed maximum and minimum. -/
def maxReg (a b : Word) : Word := if a.toInt < b.toInt then b else a
def minReg (a b : Word) : Word := if b.toInt < a.toInt then b else a

/-- DECZ (R81): a − b wraps, and a negative difference gives 0. -/
def decz (a b : Word) : Word := maxReg (a - b) 0

/-- The flags of CMP (R83): N when a < b exactly, Z when a = b. -/
def cmpN (a b : Word) : Bool := a.toInt < b.toInt
def cmpZ (a b : Word) : Bool := a = b

/-- The conditions of R84. -/
def condHolds (cond : BitVec 3) (n z i : Bool) : Bool :=
  match cond.toNat with
  | 0 => true
  | 1 => z
  | 2 => !z
  | 3 => n
  | 4 => !n
  | 5 => !n && !z
  | 6 => n || z
  | _ => i

/-! ### Lazy leak (R86, R87) -/

def leakF (tab : List Word) (l : Nat) : Nat := fb (tab.getD l 0).toNat 16 0
def leakC (tab : List Word) (k : Nat) : Nat := fb (tab.getD (64 + k) 0).toNat 16 0
def leakZero (tab : List Word) : Nat := fb (tab.getD 77 0).toNat 19 0
def leakMode (tab : List Word) : Nat := fb (tab.getD 78 0).toNat 1 0
def leakRate (tab : List Word) : Nat := fb (tab.getD 79 0).toNat 23 0

/-- The sign of v with magnitude m. -/
def signed (v : Int) (m : Nat) : Int := if v < 0 then -(m : Int) else m

/-- Magnitude m times a Q1.16 factor, rounded toward zero. -/
def leakMul (m f : Nat) : Nat := m * f / 2 ^ 16

/-- The magnitude after the factors of the bits of h from k up to 12. -/
def leakHigh (tab : List Word) (h k m : Nat) : Nat → Nat
  | 0 => m
  | n + 1 => leakHigh tab h (k + 1) (if bit h k then leakMul m (leakC tab k) else m) n

/-- The elapsed tempo takes the value straight to 0. -/
def leakGone (tab : List Word) (e : Int) : Bool :=
  e < 0 || 2 ^ 19 ≤ e || (leakZero tab ≠ 0 && (leakZero tab : Int) ≤ e)

/-- LEAK (R87). -/
def leak (tab : List Word) (v e : Int) : Int :=
  if leakGone tab e then 0
  else if leakMode tab = 1 then signed v (v.natAbs - min (leakRate tab * e.toNat) (2 ^ 23 - 1))
  else signed v (leakHigh tab (e.toNat / 64) 0 (leakMul v.natAbs (leakF tab (e.toNat % 64))) 13)

/-- The time of a LEAK in hc (R87). -/
def leakHc (tab : List Word) (e : Int) : Nat :=
  if leakGone tab e then 2
  else if leakMode tab = 1 then 3
  else 3 + 2 * popcount 13 (e.toNat / 64)

/-! ### RAND (R88) -/

/-- One step of the LFSR. -/
def lfsrStep (s : Word) : Word := if s.getLsbD 0 then (s >>> 1) ^^^ 0x8020_0003 else s >>> 1

def lfsrRun : Nat → Word → Word
  | 0, s => s
  | n + 1, s => lfsrRun n (lfsrStep s)

/-- The state of the first RAND of a run before its draw. -/
def lfsrSeed (seed : Word) (w neuron now : Nat) : Word :=
  let s := (seed + BitVec.ofNat 32 (w * 0x9E37_79B9)) ^^^ BitVec.ofNat 32 (neuron * 2 ^ 18) ^^^ BitVec.ofNat 32 (now % 2 ^ 20)
  lfsrRun 32 (if s = 0 then 1 else s)

/-- The low n bits of a draw; n = 0 means 32. -/
def randBits (s : Word) (n : Nat) : Word := if n = 0 then s else s &&& BitVec.ofNat 32 (2 ^ n - 1)

/-! ### Record fields (R81, R83) and EMIT values (R89) -/

/-- Bits pos to pos + w − 1 of the record buffer, as a register. -/
def ldField (buf : BitVec 128) (pos w : Nat) (sx : Bool) : Word :=
  let x := buf.toNat / 2 ^ pos % 2 ^ w
  if sx then toReg (sgn w x) else BitVec.ofNat 32 x

/-- The w-bit pattern that STF stores of register a. -/
def stBits (a : Word) (w : Nat) (sat : Bool) : Nat :=
  if sat then mask w (min (max a.toInt (-(2 ^ (w - 1)))) (2 ^ (w - 1) - 1)) else a.toNat % 2 ^ w

/-- The record buffer with w bits x at pos. -/
def setBits (buf : BitVec 128) (pos w x : Nat) : BitVec 128 :=
  BitVec.ofNat 128 (buf.toNat % 2 ^ pos + x % 2 ^ w * 2 ^ pos + buf.toNat / 2 ^ (pos + w) * 2 ^ (pos + w))

def stField (buf : BitVec 128) (pos w : Nat) (a : Word) (sat : Bool) : BitVec 128 := setBits buf pos w (stBits a w sat)

/-- clamp(ra, 0, 255). -/
def clampByte (a : Word) : Nat := (min (max a.toInt 0) 255).toNat

end Sys2Proof.Machine
end

