-- ==== Sys2Proof/Machine/Records.lean ====
section
/-! DEFINITION. Neuron state records: where they lie, the spill cache, rest and stamps, the age sweep (R30, R45, R47,
R77, R79, R80, R309). -/

namespace Sys2Proof.Machine

open Sys2Proof

/-- Record fields that the engine owns (R77). -/
def recStamp (r : BitVec 128) : Nat := fb r.toNat 19 0
def recLst (r : BitVec 128) : Nat := fb r.toNat 83 64
def recLv (r : BitVec 128) : Bool := bit r.toNat 84

def setStamp (r : BitVec 128) (t : Nat) : BitVec 128 := setBits r 0 20 t
def setLst (r : BitVec 128) (t : Nat) (v : Bool) : BitVec 128 := setBits (setBits r 64 20 t) 84 1 (b2n v)

/-- The model-owned bits set to the rest template, lv := 0; the stamp and lst stay (R79). -/
def restBits (r rest : BitVec 128) (wide : Bool) : BitVec 128 :=
  if wide then setStamp (setLst rest (recLst r) false) (recStamp r)
  else setStamp (BitVec.ofNat 128 (rest.toNat % 2 ^ 64)) (recStamp r)

/-- A record at rest: the template, a stamp, lv and lst 0 (R80). -/
def restRecord (rest : BitVec 128) (wide : Bool) (stamp : Nat) : BitVec 128 :=
  setStamp (if wide then setLst rest 0 false else BitVec.ofNat 128 (rest.toNat % 2 ^ 64)) stamp

/-- The model descriptor of a block's slot. -/
def Tile.model (t : Tile) (b : Block) : List DWord := tget [] (blkSlot b) t.models

/-- The record at word address a of SRAM, or of the spill region for a spill block. -/
def State.readRec (s : State) (t : Nat) (b : Block) (a : Nat) : BitVec 128 :=
  if blkSpill b then BitVec.ofNat 128 (s.colLE t (tcSpillBase (s.tile t).cfg + 8 * a) (if blkWide b then 16 else 8))
  else (if blkWide b then tget 0 (a + 1) (s.tile t).sram else 0) ++ tget 0 a (s.tile t).sram

/-- Writes a record, with fresh check bits (R71). -/
def State.writeRec (s : State) (t : Nat) (b : Block) (a : Nat) (r : BitVec 128) : State :=
  if blkSpill b then s.colWrite t (tcSpillBase (s.tile t).cfg + 8 * a) (if blkWide b then 16 else 8) r.toNat
  else
    s.modTile t (fun x =>
      let m1 := tset a (r.extractLsb' 0 64) x.sram
      { x with sram := if blkWide b then tset (a + 1) (r.extractLsb' 64 64) m1 else m1,
               badSram := x.badSram.filter (fun k => k ≠ a && !(blkWide b && k = a + 1)) })

/-- The record at a is uncorrectable (R309). -/
def State.badRec (s : State) (t : Nat) (b : Block) (a : Nat) : Bool :=
  if blkSpill b then s.mem.anyBad (colAddr t (tcSpillBase (s.tile t).cfg + 8 * a)) (if blkWide b then 16 else 8)
  else (s.tile t).badSram.any (fun k => k = a || (blkWide b && k = a + 1))

/-- A read of a spill record goes through the 64-record cache: whether it misses, and the cache after it, the most
recently used record first (R47; log 31). -/
def spillTouch (cache : List Nat) (a : Nat) : Bool × List Nat :=
  (!cache.contains a, (a :: cache.filter (· ≠ a)).take 64)

/-- Every record address of world w in tile t: block and word address. -/
def Tile.recordsOf (t : Tile) (w : Nat) : List (Block × Nat × Nat) :=
  t.blocks.flatMap (fun b =>
    if blkGroup b = w / 32 && blkHasLane b (w % 32) && !mdStateless (t.model b) then
      (List.range (blkCount b)).map (fun i => (b, blkFirst b + i, blkAddr b (blkFirst b + i) (w % 32)))
    else [])

/-- The STATE loss item of an uncorrectable record (R302, R309). -/
def State.stateItem (s : State) (t w n : Nat) (b : Block) (stamp : Nat) : LossItem :=
  { code := .failedUncorrectable, kind := 0x4, w := some w, reporter := s.coord t, a := stamp % 2 ^ 20,
    b := BitVec.ofNat 64 (n + b2n (blkWide b) * 2 ^ 14 + b2n (blkSpill b) * 2 ^ 15), ext := none,
    stamp := some (stamp % 2 ^ 20), sampled := false }

/-- The record of neuron n, lane l in the initial state that the image supplies for block index i, if any (R80). -/
def Tile.initial (t : Tile) (i : Nat) (b : Block) (n l : Nat) : Option (BitVec 128) :=
  (t.initState.getD i [])[(n - blkFirst b) * blkLanes b + (l - blkLaneLo b)]?

/-- The records of world w in tile t as its start leaves them (R80). -/
def State.startRecords (s : State) (t w anchor : Nat) : State :=
  let x := s.tile t
  (x.recordsOf w).foldl (fun s e =>
    let i := (x.blocks.findIdx? (fun b => b = e.1)).getD 0
    s.writeRec t e.1 e.2.2 ((x.initial i e.1 e.2.1 (w % 32)).getD
      (restRecord (mdRest (x.model e.1)) (blkWide e.1) (anchor % 2 ^ 20)))) s

/-- The age of a stamp at a notice. -/
def ageOf (notice stamp : Nat) : Nat := (notice + 2 ^ 20 - stamp % 2 ^ 20) % 2 ^ 20

/-- A record as the age sweep of a notice leaves it (R30, R79): at rest when its age is 2^19 to 3 × 2^18 (log 32);
otherwise with lv cleared where lst is 2^19 or more behind. -/
def sweepRecord (r rest : BitVec 128) (wide : Bool) (notice : Nat) : BitVec 128 :=
  let e := ageOf notice (recStamp r)
  if 2 ^ 19 ≤ e && e ≤ 3 * 2 ^ 18 then restRecord rest wide (notice % 2 ^ 20)
  else if wide && 2 ^ 19 ≤ ageOf notice (recLst r) then setLst r (recLst r) false
  else r

/-- The age sweep of world w in tile t over its records; an uncorrectable record is replaced by rest (R309). -/
def State.sweepRecords (s : State) (t w notice : Nat) : State :=
  let x := s.tile t
  (x.recordsOf w).foldl (fun s e =>
    let rest := mdRest (x.model e.1)
    if s.badRec t e.1 e.2.2 then
      (s.writeRec t e.1 e.2.2 (restRecord rest (blkWide e.1) (notice % 2 ^ 20))).pushLoss (s.stateItem t w e.2.1 e.1 notice)
    else
      let r := s.readRec t e.1 e.2.2
      let r' := sweepRecord r rest (blkWide e.1) notice
      if r' = r then s else s.writeRec t e.1 e.2.2 r') s

end Sys2Proof.Machine
end

