-- ==== Sys2Proof/Machine/Worlds.lean ====
section
/-! DEFINITION. The tempo unit's shared operations: how T moves, what each move sends, parks, followers, turns, and the
checks of world commands (R12, R19 to R43, R134, R141, R161 to R163). -/

namespace Sys2Proof.Machine

open Sys2Proof

def maxTempo : Nat := 2 ^ 40 - 1

/-- The tempo unit's and the steward's hub endpoints (R116). -/
def tempoEp : Nat := epKey 38 0
def stewardEp : Nat := epKey 36 0

/-- Turn length of a world. -/
def World.len (x : World) : Nat := x.turnLenM1 + 1

/-- The lag limit in tu (R40). -/
def World.limit (x : World) : Nat := x.lagLimit * x.len

/-! ### Opening turns (R20, R145) -/

/-- Turn `opened` may open with T at tau: T has reached its start, the turn before the highest open one has closed, the
pip releases it when the world is gated, and the acknowledgements of a flip turn are in. -/
def State.canOpen (s : State) (w tau : Nat) : Bool :=
  let x := s.world w
  x.st = .running && x.start x.opened ≤ tau && x.opened ≤ x.closed + 1
    && (!x.gateEn || (s.pip x.turnPip).releases x.opened)
    && !(x.flipTurn = some x.opened && !x.flipAcks.isEmpty)

/-- T waits at a turn start for the TURN pip (R20). -/
def State.gated (s : State) (w : Nat) : Bool :=
  let x := s.world w
  x.st = .running && x.gateEn && x.t = x.start x.opened && !(s.pip x.turnPip).releases x.opened

/-- How far T can move now toward source tempo S (R20, R40): through the turn that can open, not beyond. -/
def State.reach (s : State) (w S : Nat) : Nat :=
  let x := s.world w
  let t1 := max x.t (min S (x.start x.opened))
  if s.canOpen w t1 then max t1 (min S (x.start (x.opened + 1))) else t1

/-! ### What a move of T sends -/

/-- The multiples of 2^18 above a and up to b (R30). -/
def ageMarks (a b : Nat) : List Nat :=
  (List.range (b / 2 ^ 18 - a / 2 ^ 18)).map (fun i => (a / 2 ^ 18 + 1 + i) * 2 ^ 18)

/-- An age notice for world w to every tile that holds its state (R30). -/
def State.ageNotice (s : State) (w notice : Nat) : State :=
  let hs := s.holders w
  if hs.isEmpty then s
  else
    (s.holderStacks w).foldl (fun s st => s.toRoot tempoEp st (.age w notice))
      (s.modWorld w (fun y => { y with sweeps := y.sweeps ++ [(notice, hs)] }))

/-- The volley is a TEMPO_GRANT of world w. -/
def isGrant (w : Nat) (v : Volley) : Bool :=
  match v.body with
  | .control _ (.tempoGrant w' _) => w' = w
  | _ => false

/-- TEMPO_GRANT of world w to stack st: a grant already queued takes the later T (R134). -/
def State.grantRoot (s : State) (w st : Nat) : State :=
  let k := rtKey 0 (rootPos st).2
  let q := tget [] (3 * 5 + 1) (s.router k).bufs
  let mine := fun (v : Volley) => isGrant w v && v.dst = s.rootCoord st
  if q.any mine then
    { s with fab.routers := tmod {} k (fun r =>
        { r with bufs := tset (3 * 5 + 1) (q.map (fun v =>
            if mine v then { v with body := .control true (.tempoGrant w (s.world w).t) } else v)) r.bufs }) s.fab.routers }
  else s.toRoot tempoEp st (.tempoGrant w (s.world w).t)

/-! ### The hub schedule (R141, R142) -/

/-- The entries of the hub schedule that group g runs in turn n: from its flip turn on, the new bank's (R145). -/
def State.hubSchedule (s : State) (g n : Nat) : List DWord :=
  let old := decide (s.hub.epoch.state ≠ 0) && (s.runningOf g).any (fun w => match (s.world w).flipTurn with
    | some f => decide (n < f)
    | none => false)
  let b := if s.hub.epoch.current ≠ old then s.hub.schedB else s.hub.schedA
  match b with
  | [] => []
  | h :: r => r.take (wf h 13 0)

/-- The hub EMIT slots of group g, in order: first and last offset. -/
def State.hubSlots (s : State) (g n : Nat) : List (Nat × Nat) :=
  ((s.hubSchedule g n).filter (fun e => schOp e = 5 && schGroup e = g)).map
    (fun e => (schOffset e, schOffset e + schSpan e - 1))

/-- Sends what hub endpoint k has pending for group g in a slot of turn n, then one mark to each Lockstep destination
that it feeds (R140, R141). -/
def State.hubEmitAt (s : State) (g n a b k : Nat) : State :=
  let mine := fun (x : LockIn) =>
    x.ep = k && x.w / 32 = g && (s.world x.w).start n + a ≤ x.tempo && x.tempo ≤ (s.world x.w).start n + b
      && (s.world x.w).st = .running
  let evs := s.hub.lockIn.filter mine
  let s1 := { s with hub.lockIn := s.hub.lockIn.filter (fun x => !mine x) }
  let s2 := evs.foldl (fun s x =>
    (if epX k = 34 then s.modPort (epY k) (fun p => { p with sent := sat 32 p.sent 1 }) else s).send k
      (s.eventVolley k x.dest x.w x.tempo x.value 2 (slotTag n (x.tempo - (s.world x.w).start n)))) s1
  let es := if epX k = 32 then s.hub.injection.map (·.2)
    else (s.port (epY k)).cfg.chans.flatMap (fun c => if wf c.2 57 57 = 1 && wf c.2 44 32 / 32 = g then s.chanDests c.2 else [])
  let ds := ((es.filter (fun e => s.lockstep (destClass e))).map (fun e => (destCoord e, destClass e))).eraseDups
  ds.foldl (fun s d =>
    s.send k (s.mkVolley k d.1 g (s.hubBank (g * 32 + ((s.runningOf g).headD 0) % 32)) d.2 2 (slotTag n a) 0
      (.slotMark (evs.filter (fun x => destCoord x.dest = d.1)).length))) s2

/-- The hub endpoints that inject input for group g. -/
def State.hubSources (s : State) : List Nat :=
  (if s.hub.injection.isEmpty then [] else [epKey 32 0])
    ++ (s.ports.filter (fun e => !e.2.cfg.chans.isEmpty)).map (fun e => portEp e.1)

/-- Runs the hub's EMIT slots of group g as far as every running lane allows: its turn has opened and T stands above the
slot's last stamp (R141, R142; log 25). -/
def State.hubEmit (s : State) (g : Nat) : Nat → State
  | 0 => s
  | fuel + 1 =>
    let ws := s.runningOf g
    match ws.map (fun w => (s.world w).turnOf (s.world w).hubEmit) with
    | [] => s
    | m :: r =>
      let n := r.foldl min m
      let at_ := ws.filter (fun w => (s.world w).turnOf (s.world w).hubEmit = n)
      let off := (at_.map (fun w => (s.world w).hubEmit - (s.world w).start n)).foldl max 0
      match (s.hubSlots g n).find? (fun e => off ≤ e.1) with
      | some (a, b) =>
        if ws.all (fun w => n < (s.world w).opened && ((s.world w).start n + b < (s.world w).t)) then
          let s1 := s.hubSources.foldl (fun s k => s.hubEmitAt g n a b k) s
          (at_.foldl (fun s w => s.modWorld w (fun y => { y with hubEmit := y.start n + b + 1 })) s1).hubEmit g fuel
        else s
      | none =>
        if !(s.hubSlots g n).isEmpty && ws.all (fun w => n < (s.world w).opened && (s.world w).start (n + 1) ≤ (s.world w).t) then
          (at_.foldl (fun s w => s.modWorld w (fun y => { y with hubEmit := y.start (n + 1) })) s).hubEmit g fuel
        else s

/-- What follows a move of a world's T from `old` (R30, R55, R134): grants, wakes, age notices, notices, hub slots. -/
def State.afterT (s : State) (w old : Nat) : State :=
  let t := (s.world w).t
  if t = old then s
  else
    let s1 := (s.holderStacks w).foldl (fun s st => s.grantRoot w st) s
    let s2 := (ageMarks old t).foldl (fun s m => s.ageNotice w m) s1
    (s2.hubNotices (w / 32)).hubEmit (w / 32) 4096

/-- Moves T toward S, not past the start of the turn that has not opened (R20). -/
def State.moveT (s : State) (w : Nat) : State :=
  let x := s.world w
  let t := max x.t (min x.s (x.start x.opened))
  (s.modWorld w (fun y => { y with t := t })).afterT w x.t

/-! ### Records and parks (R35 to R43) -/

/-- A world status record to the world's status rack (R32, R43). -/
def State.worldRecord (s : State) (w kind : Nat) (body : List DWord) : State :=
  s.postRecord (s.world w).statusRack 1 kind .done (some w) body

/-- Tile t holds no RUNNING world. -/
def State.tileStill (s : State) (t : Nat) : Bool := !s.tmp.worlds.any (fun e => e.2.st = .running && (s.tile t).resident e.1)

/-- The updates that wait at some tiles start where no world of the tile runs (R266). -/
def State.stillUpdates (s : State) (ts : List Nat) : State :=
  (ts.filter (fun t => !(s.fence (tileDom t)).staged.isEmpty && s.tileStill t)).foldl (fun s t => s.updateStart (tileDom t)) s

/-- A leave or entry of RUNNING sends notices at once (R55), and an update that waited for the tile's last RUNNING world
starts (R266). -/
def State.runningChanged (s : State) (w : Nat) : State :=
  (((s.noticeGroup (w / 32)).hubNotices (w / 32)).hubEmit (w / 32) 4096).stillUpdates (s.holders w)

/-- World w parks with a cause (R37). -/
def State.parkCore (s : State) (w cause : Nat) : State :=
  let x := s.world w
  if x.st ≠ .running then s
  else
    let s1 := (s.modWorld w (fun y => { y with st := .parked, parkCause := cause })).outsWorldSafe w
    let s2 := s1.worldRecord w 0x81
      [BitVec.ofNat 64 (w + cause * 2 ^ 16 + x.t * 2 ^ 24),
       BitVec.ofNat 64 ((x.closed + (2 ^ 32 - 1)) % 2 ^ 32 + s.aon.wall % 2 ^ 32 * 2 ^ 32)]
    s2.runningChanged w

/-- The RUNNING followers of world w on this package (R26). -/
def State.followers (s : State) (w : Nat) : List Nat :=
  (s.tmp.worlds.filter (fun e => e.2.srcKind = 5 && e.2.srcIndex = w)).map (·.1)

/-- Followers of a leader that parks or retires park with cause LEADER (R26). -/
def State.parkFollowers (s : State) (w : Nat) : State := (s.followers w).foldl (fun s f => s.parkCore f 7) s

def State.parkWorld (s : State) (w cause : Nat) : State :=
  if (s.world w).st = .running then (s.parkCore w cause).parkFollowers w else s

/-! ### Advances (R19, R23, R28, R31, R40) -/

/-- Judges the lag after an input of a source that cannot be refused (R40). -/
def State.judgeLag (s : State) (w : Nat) : State :=
  let x := s.world w
  let lag := x.s - s.reach w x.s
  if x.limit < lag then
    let s1 :=
      if x.overrun then s
      else
        (s.modWorld w (fun y => { y with overrun := true })).worldRecord w 0x82
          [BitVec.ofNat 64 (w + x.t * 2 ^ 24), BitVec.ofNat 64 (min lag 0xFFFF_FFFF)]
    if x.parkOnOverrun then s1.parkCore w 4 else s1
  else s.modWorld w (fun y => { y with overrun := false })

/-- The source delivers `adv` tu to a RUNNING world that is not HOST-sourced. -/
def State.applyAdvance (s : State) (w adv : Nat) : State :=
  if maxTempo < (s.world w).s + adv then s.parkCore w 8
  else ((s.modWorld w (fun y => { y with s := y.s + adv })).moveT w).judgeLag w

/-- An input of u units from a PIN, ENCODER, PEER or WORLD source (R23, R28, R37). -/
def State.inputCore (s : State) (w u : Nat) : State :=
  let x := s.world w
  match x.st with
  | .running =>
    let r := x.rem + u * x.scaleMul
    ((s.wakeDom 1 3 w).modWorld w (fun y => { y with lastAdv := s.aon.wall, rem := r % y.scaleDiv })).applyAdvance w (r / x.scaleDiv)
  | .parked => s.modWorld w (fun y => { y with padv := sat 32 y.padv 1 })
  | _ => s

/-- The package that a span link leads to: the lowest routed over it (log 28). -/
def State.peerOf (s : State) (lk : Nat) : Nat :=
  ((s.hub.spanRoute.filter (fun e => bit e.2.toNat 3 && fb e.2.toNat 2 0 = lk)).map (·.1)).headD s.hub.p

/-- A control message over a span link to the peer's tempo unit (R134). -/
def State.toPeer (s : State) (lk : Nat) (c : Ctl) : State :=
  s.spanSend lk (s.mkVolley tempoEp { p := s.peerOf lk, x := 38, y := 0 } 0 s.hub.epoch.current 0 1 0 0 (.control false c))

/-- An increment of a leader's T reaches its followers, here and on other packages (R26, R27). -/
def State.follow (s : State) (w inc : Nat) : State :=
  if inc = 0 then s
  else
    let links := ((s.tmp.subs.filter (fun e => e.2.1 = w)).map (·.1)).eraseDups
    let s1 := links.foldl (fun s lk => s.toPeer lk (.tempoFwd w inc)) s
    (s.followers w).foldl (fun s f => s.inputCore f inc) s1

/-- A world that its own advance has parked takes its followers with it (R26). -/
def State.afterPark (s0 s : State) (w : Nat) : State :=
  if (s0.world w).st = .running && (s.world w).st = .parked then s.parkFollowers w else s

/-- An input of u units from a world's source, with what it means for the world's followers. -/
def State.input (s : State) (w u : Nat) : State :=
  let s1 := s.inputCore w u
  State.afterPark s (s1.follow w ((s1.world w).t - (s.world w).t)) w

/-- The worlds whose source is instance i of a kind. -/
def State.sourced (s : State) (kind i : Nat) : List Nat :=
  (s.tmp.worlds.filter (fun e => e.2.srcKind = kind && e.2.srcIndex = i)).map (·.1)

/-- An advance of delta for a HOST-sourced world by master m: its code and the state after it (R28, R31, R40, R42). -/
def State.hostAdvance (s : State) (m w delta : Nat) : State × Code :=
  let x := s.world w
  if s.worldLimit ≤ w || !s.has m (.world w) .use || x.srcKind ≠ 1 || !isHost m || x.srcIndex ≠ ldOf m
  then (s, .failedAccess)
  else
    match x.st with
    | .free => (s, .failedAccess)
    | .standby => (s, .notReady)
    | .retiring => (s, .busy)
    | .parked => (s.modWorld w (fun y => { y with padv := sat 32 y.padv 1 }), .failedParked)
    | .running =>
      let s0 := (s.wakeDom 1 3 w).modWorld w (fun y => { y with lastAdv := s.aon.wall })
      if maxTempo < x.s + delta then (s0.parkWorld w 8, .failedParked)
      else if x.limit < x.s + delta - s0.reach w (x.s + delta) then (s0, .busy)
      else
        let s1 := (s0.modWorld w (fun y => { y with s := y.s + delta })).moveT w
        (s1.follow w ((s1.world w).t - x.t), .done)

/-! ### Turns (R12, R20, R126, R161, R163) -/

/-- The volley carries an event of world w whose tempo, near the world's, lies below bound. -/
def Volley.holds (v : Volley) (x : World) (w bound : Nat) : Bool :=
  v.group = w / 32 &&
    (match v.body with
      | .events ws => ws.any (fun e => evLane e = w % 32 && fullTempo x.t ((v.tempoBase + evOffset e) % 2 ^ 20) < bound)
      | _ => false)

/-- Every volley of this package that has not been placed, dropped or recorded. -/
def State.volleys (s : State) : List Volley :=
  (s.fab.routers.flatMap (fun r => r.2.bufs.flatMap (·.2)))
    ++ s.fab.inbox.flatMap (·.2)
    ++ s.fab.hubPace.flatMap (fun p => p.2.waiting)
    ++ s.tiles.flatMap (fun t => t.2.pace.waiting)
    ++ s.fab.spans.flatMap (fun k => k.2.queue ++ k.2.replay.flatMap (·.2))

/-- A volley, or an open volley or stalled emission of a tile, still holds an event of world w below a tempo. -/
def State.unsettled (s : State) (w bound : Nat) : Bool :=
  let x := s.world w
  s.volleys.any (fun v => v.holds x w bound)
    || s.tiles.any (fun t =>
      t.2.openVols.any (fun o => o.group = w / 32 && o.words.any (fun e => evLane e = w % 32 && o.base + evOffset e < bound))
        || t.2.stalled.any (fun e => e.1 = w && e.2.2.1 < bound))

/-- Tile t's report for turn n is in, or its fence notice counts as one (R126, R297). -/
def State.reportIn (s : State) (w n t : Nat) : Bool :=
  (tget {} n (s.world w).turns).reports.contains t || !s.tileRuns t

/-- Turn `closed` of world w can close (R12, R30, R305). -/
def State.canClose (s : State) (w : Nat) : Bool :=
  let x := s.world w
  let n := x.closed
  x.st = .running && n < x.opened && x.start (n + 1) ≤ x.t
    && (s.holders w).all (fun t => s.reportIn w n t)
    && !s.unsettled w (x.start (n + 1))
    && !(x.sweeps.any (fun e => x.turnOf (e.1 + 2 ^ 17) = n))
    && !(s.flt.queue.any (fun i => i.w = some w && s.turnOfItem w i.stamp = some n))

/-- The flags of a snapshot: REVERSE, OVERRUN, JUMPED, NONDET, INCOMPLETE, LOSS, OUTPUT_LOST (R163). -/
def TurnInfo.flags (i : TurnInfo) (jumped incomplete : Bool) : BitVec 7 :=
  BitVec.ofNat 7 (b2n i.reverse + b2n i.overrun * 2 + b2n (i.jumped || jumped) * 4 + b2n i.nondet * 8
    + b2n (i.incomplete || incomplete) * 16 + b2n i.loss * 32 + b2n i.outputLost * 64)

/-- The snapshot of turn n of world w (R163). -/
def State.snapshot (s : State) (w n : Nat) : Slot :=
  let x := s.world w
  let i := tget {} n x.turns
  { turn := n, ready := true, last := BitVec.ofNat 32 n,
    flags := i.flags (decide (n < x.jumpTo)) ((s.holders w).any (fun t => !s.tileRuns t)),
    skipped := x.skipped, intake := satv 32 i.intake, wheel := satv 32 i.wheel, lossOvf := satv 32 i.lossOvf,
    tempo := x.start n, wall := s.aon.wall, chans := i.chans }

/-- Turn n closes without a snapshot: below the target of a JUMP, not its last, and without work (R38). -/
def World.skips (x : World) (n : Nat) : Bool := n + 1 < x.jumpTo && !(tget {} n x.turns).worked

/-- Result slot key (R161). -/
def slotKey (w n : Nat) : Nat := 4 * w + n % 4

/-- TURN_CLOSE's effect (R12, R38, R161). -/
def State.closeTurn (s : State) (w : Nat) : State :=
  let n := (s.world w).closed
  if (s.world w).skips n then
    s.modWorld w (fun y => { y with closed := n + 1, skipped := y.skipped + 1, turns := tdel n y.turns })
  else
    let sl := s.snapshot w n
    let s1 := s.modWorld w (fun y => { y with closed := n + 1, skipped := 0, turns := tdel n y.turns })
    { s1 with tmp.slots := tset (slotKey w n) sl s1.tmp.slots }

/-- Learning is frozen for the world in turn n (R115). -/
def World.frozenAt (x : World) (n : Nat) : Bool :=
  match x.freezes.find? (fun e => e.1 ≤ n) with
  | some e => e.2
  | none => false

/-- Learning is on for world w at tempo tau (R92, R99, R115). -/
def State.learns (s : State) (w tau : Nat) : Bool :=
  (tget {} (w / 32) s.tmp.groups).mode ≠ 0 && !(s.world w).frozenAt ((s.world w).turnOf tau)

/-- Turn n of world w opens (R20, R161): its slot's header shows NOT_READY and its channels clear. A tile that
has sent its fence notice counts as reported, and the turn is INCOMPLETE (R297). -/
def State.openTurn (s : State) (w : Nat) : State :=
  let x := s.world w
  let n := x.opened
  let out := (s.holders w).filter (fun t => !s.tileRuns t)
  let frozen := (tget {} (w / 32) s.tmp.groups).frozen
  let s1 := s.modWorld w (fun y =>
    { y with opened := n + 1, notBefore := 0,
             freezes := if y.frozenAt n = frozen then y.freezes else (n, frozen) :: y.freezes,
             turns := tmod {} n (fun i =>
               { i with reverse := i.reverse || decide (0 < y.debt), overrun := i.overrun || y.overrun,
                        incomplete := i.incomplete || !out.isEmpty, reports := i.reports ++ out }) y.turns })
  { s1 with tmp.slots := tset (slotKey w n) { turn := n } s1.tmp.slots }

/-- The turn boundary of world w starts the updates that wait at the tiles that hold it (R98, R266). -/
def State.boundaryUpdates (s : State) (w : Nat) : State :=
  ((s.holders w).filter (fun t => !(s.fence (tileDom t)).staged.isEmpty)).foldl (fun s t => s.updateStart (tileDom t)) s

/-- A tile of group g runs a schedule: the group is under Lockstep (R54, R287). -/
def State.groupScheduled (s : State) (g : Nat) : Bool :=
  s.tiles.any (fun e => e.2.holdsGroup g && s.groupLockstep e.1 g)

/-! ### START, UNPARK and their checks (R22, R26, R34, R38, R41) -/

/-- A TMP_W_SRC layout and scale names an instance of its kind (R34). -/
def State.sourceOk (s : State) (kind idx lk mul div : Nat) : Bool :=
  (kind = 1 && idx ≤ 15 && (s.ld idx).enabled)
    || (2 ≤ kind && kind ≤ 5 && mul ≠ 0 && div ≠ 0
      && (kind ≠ 2 || idx ≤ 3)
      && (kind ≠ 3 || (idx ≤ 15 && (s.port idx).cfg.mode = 4))
      && (kind ≠ 4 || lk < s.pkg.spanLinks))

/-- A leader's source kind is HOST, PIN or ENCODER, and a follower leads no world (R26). -/
def State.leaderOk (s : State) (w kind idx : Nat) : Bool :=
  (kind ≠ 5 || (1 ≤ (s.world idx).srcKind && (s.world idx).srcKind ≤ 3 && (s.world idx).st ≠ .free))
    && !((kind = 4 || kind = 5) && s.tmp.worlds.any (fun e => e.2.srcKind = 5 && e.2.srcIndex = w && e.2.st ≠ .free))

/-- A PEER follower subscribes over its span link (R27). -/
def State.subscribePeer (s : State) (w : Nat) : State :=
  let x := s.world w
  if x.srcKind = 4 then s.toPeer x.peerLink (.subscribe x.srcIndex w) else s

/-- Every holder tile's view of a world that starts at its anchor, and its records (R80). -/
def State.startTiles (s : State) (w : Nat) : State :=
  (s.holders w).foldl (fun s t =>
    (s.startRecords t w (s.world w).anchor).modTile t (fun x =>
      x.modWorld w (fun _ => { f := (s.world w).anchor, t := (s.world w).anchor }))) s

/-- STANDBY to RUNNING at an anchor (R35, R36, R41, R161). -/
def State.startWorld (s : State) (w anchor : Nat) : State :=
  let s1 := s.modWorld w (fun y =>
    { y with st := .running, anchor := anchor, s := anchor, t := anchor, rem := 0, debt := 0, opened := 0, closed := 0,
             parkCause := 0, overrun := false, lastAdv := s.aon.wall, sweeps := [], turns := [], skipped := 0, jumpTo := 0, freezes := [],
             flipTurn := none, flipAcks := [], notBefore := 0, hubEmit := anchor })
  let s2 := { s1 with tmp.slots := s1.tmp.slots.filter (fun e => e.1 / 4 ≠ w) }
  ((s2.startTiles w).subscribePeer w).runningChanged w

/-- The new source of an UNPARK (R41). -/
def World.newSource (x : World) (w2 : DWord) : World :=
  { x with srcKind := wf w2 2 0, srcIndex := wf w2 15 3, peerPackage := wf w2 21 16, peerLink := wf w2 24 22,
           scaleMul := wf w2 39 32, scaleDiv := wf w2 55 40 }

/-- The code of an UNPARK with words w1 and w2 by master m, DONE when it takes effect (R38, R41, R42). -/
def State.unparkCode (s : State) (m : Nat) (w1 w2 : DWord) : Code :=
  let w := wf w1 12 0
  let x := s.world w
  let j := wf w1 47 16
  if s.worldLimit ≤ w || !s.has m (.world w) .admin || x.st = .free then .failedAccess
  else if x.st ≠ .parked then .busy
  else if wf w1 13 13 = 1 && (j = 0 || j < x.opened || maxTempo < x.start j) then .failedAccess
  else if wf w1 15 15 = 1 && !(s.sourceOk (wf w2 2 0) (wf w2 15 3) (wf w2 24 22) (wf w2 39 32) (wf w2 55 40)
    && s.leaderOk w (wf w2 2 0) (wf w2 15 3)) then .failedAccess
  else if wf w1 15 15 = 0 && !s.leaderOk w x.srcKind x.srcIndex then .failedAccess
  else if wf w1 14 14 = 1 && !((s.boundPorts w).all (fun n => s.has m (.port n) .admin)) then .failedAccess
  else .done

/-- PARKED to RUNNING (R38): CONTINUE or JUMP to turn j. -/
def State.unparkWorld (s : State) (w1 w2 : DWord) : State :=
  let w := wf w1 12 0
  let x := s.world w
  let j := wf w1 47 16
  let jump := wf w1 13 13 = 1
  let s1 := s.modWorld w (fun y =>
    let y1 := if wf w1 15 15 = 1 then y.newSource w2 else y
    { y1 with st := .running, rem := 0, debt := 0, padv := 0, lastAdv := s.aon.wall,
              s := if jump then y1.start j else y1.s,
              t := if jump then y1.start j else y1.t,
              jumpTo := if jump then j else y1.jumpTo,
              overrun := !jump && y1.overrun })
  let s2 := if wf w1 15 15 = 1 then s1.subscribePeer w else s1
  let s3 := if wf w1 14 14 = 1 then s2.armWorld w else s2
  let s4 := (s3.runningChanged w).afterT w x.t
  if jump then s4
  else
    let s5 := s4.moveT w
    if (s5.world w).srcKind = 1 then s5 else s5.judgeLag w

end Sys2Proof.Machine
end

