-- ==== Sys2Proof/Machine/Learn.lean ====
section
/-! DEFINITION. Units of a tile's column and their quarantine, synapse reads, depression halves, potentiation passes and
the arithmetic of consolidation (R48 to R52, R72, R101 to R113, R307, R308). -/

namespace Sys2Proof.Machine

open Sys2Proof

/-! ### Units and quarantine (R44, R72, R307) -/

/-- Unit u cannot be read: quarantined and not recovered, or holding an uncorrectable word where it is read. -/
def State.unitBad (s : State) (t u : Nat) : Bool :=
  (match (s.tile t).quarOf u with
  | some q => !q.recovered
  | none => false) || s.mem.anyBad (colAddr t ((s.tile t).unitAddr u)) 128

/-- Writes the quarantine table's entry for unit u in tile t's device reserve (R306, R307). -/
def State.putQuar (s : State) (t u : Nat) : State :=
  let l := (s.tile t).quar
  let i := l.findIdx (fun q => q.unit = u)
  match l[i]? with
  | some q =>
    s.colWrite t (0xFF52000 + 16 * i) 8
      (q.unit + q.repl * 2 ^ 21 + 2 ^ 29 + b2n q.recovered * 2 ^ 30 + q.source * 2 ^ 31)
  | none => s

/-- The first replacement segment that no entry of the tile's table names and that reads well (R306, R307). -/
def State.freeRepl (s : State) (t : Nat) : Nat :=
  ((List.range 256).find? (fun i => !(s.tile t).quar.any (fun q => q.repl = i)
    && !s.mem.anyBad (colAddr t (128 * replUnit i)) 128)).getD 255

/-- The unit whose entry an uncorrectable word at unit u concerns: that of a replacement is its original. -/
def Tile.ownerUnit (t : Tile) (u : Nat) : Nat := ((t.quar.find? (fun q => replUnit q.repl = u)).map (·.unit)).getD u

/-- The unit lies in the program copy (R306). -/
def inProgCopy (u : Nat) : Bool := 0xFF50000 ≤ 128 * u && 128 * u < 0xFF52000

def isProgram : SectionData → Bool
  | .tileModels .. => true
  | .tileStore _ => true
  | _ => false

/-- An uncorrectable word in the program copy fences the tile; its staged update reloads the program from NVM (R307). -/
def State.autoFence (s : State) (t u : Nat) : State :=
  if inProgCopy u then (s.stageUpdate (tileDom t) (s.imageSections t isProgram)).updateStart (tileDom t) else s

/-- A unit with an uncorrectable word is quarantined; a unit that waits for its recovery stays as it is, and one whose
replacement fails takes a new replacement. A full table posts one FAULT record and leaves the unit (R307). -/
def State.quarantine (s : State) (t u0 : Nat) : State :=
  let x := s.tile t
  let u := x.ownerUnit u0
  match x.quarOf u with
  | some q =>
    if q.recovered then
      let q1 : Quar := { q with recovered := false, repl := s.freeRepl t, source := 0 }
      ((s.modTile t (fun y => { y with quar := y.quar.map (fun r => if r.unit = u then q1 else r),
                                       quarLastUnit := u })).putQuar t u).autoFence t u
    else s
  | none =>
    if x.quar.length < 256 then
      let q : Quar := { unit := u, repl := s.freeRepl t, recovered := false, source := 0 }
      ((s.modTile t (fun y => { y with quar := y.quar ++ [q], quarLastUnit := u })).putQuar t u).autoFence t u
    else if x.quarFull then s
    else (s.modTile t (fun y => { y with quarFull := true })).postFault 7 (tileDom t) u

/-- The SEGMENT loss item of unit u (R302). kind: 1 transposed, 2 accumulator, 4 time table. -/
def State.segItem (s : State) (t u kind : Nat) (w : Option Nat) (stamp : Option Nat) : LossItem :=
  { code := .failedUncorrectable, kind := 0x5, w := w, reporter := s.coord t, a := 0,
    b := BitVec.ofNat 64 (colAddr t (128 * u) + kind * 2 ^ 39), ext := none, stamp := stamp, sampled := false }

/-- A unit that cannot be read is counted, quarantined and recorded, once for each world in `ws` (R72). -/
def State.unitLost (s : State) (t u kind : Nat) (ws : List (Nat × Nat)) : State :=
  let s1 := (s.modTile t (fun y => { y with ueDram := sat 8 y.ueDram 1 })).quarantine t u
  ws.foldl (fun s w => s.pushLoss (s.segItem t u kind (some w.1) (some w.2))) s1

/-- Corrected single-bit errors of a read of unit u are counted (R71). -/
def State.unitRead (s : State) (t u : Nat) : State :=
  let k := s.mem.softCount (colAddr t ((s.tile t).unitAddr u)) 128
  if k = 0 then s else s.modTile t (fun y => { y with ceDram := sat 16 y.ceDram k })

/-- Word j (16 bits) of row-layout unit u. -/
def State.synapse (s : State) (t u j : Nat) : Nat := s.colLE t ((s.tile t).unitAddr u + 2 * j) 2

def State.setSynapse (s : State) (t u j v : Nat) : State := s.colWrite t ((s.tile t).unitAddr u + 2 * j) 2 v

/-- Bit j of plane p of a unit of bit-planes. -/
def State.planeBit (s : State) (t u p j : Nat) : Nat := s.colLE t ((s.tile t).unitAddr u + 8 * p + j / 8) 1 / 2 ^ (j % 8) % 2

/-- The w-bit word at position j of bit-planes from unit u on (16 planes to a unit). -/
def State.planeWord (s : State) (t u j : Nat) : Nat → Nat
  | 0 => 0
  | w + 1 => s.planeWord t u j w + s.planeBit t (u + w / 16) (w % 16) j * 2 ^ w

/-- Writes the w-bit word v at position j of bit-planes from unit u on. -/
def State.setPlaneWord (s : State) (t u j v : Nat) : Nat → State
  | 0 => s
  | w + 1 =>
    let a := (s.tile t).unitAddr (u + w / 16) + 8 * (w % 16) + j / 8
    let b := s.colLE t a 1
    let b' := b - b / 2 ^ (j % 8) % 2 * 2 ^ (j % 8) + v / 2 ^ w % 2 * 2 ^ (j % 8)
    (s.colWrite t a 1 b').setPlaneWord t u j v w

/-! ### Rule sets (R101) -/

def ruleParam (r : RuleSet) (hi lo : Nat) : Nat := wf r.params hi lo
def ruleOn (r : RuleSet) : Bool := ruleParam r 44 44 = 1
def rulePot (r : RuleSet) (m : Nat) : Nat := (r.pot.getD m 0).toNat
def ruleDep (r : RuleSet) (m : Nat) : Nat := (r.dep.getD m 0).toNat

/-- The rule set of a post neuron: that of its model slot. -/
def Tile.ruleOf (t : Tile) (w n : Nat) : Option RuleSet :=
  match t.blockOf w n with
  | some b =>
    match tfind (blkSlot b) t.cfg.rules with
    | some r => if ruleOn r then some r else none
    | none => none
  | none => none

def plastic (w : Nat) : Bool := synFlags w = 1 || synFlags w = 2

/-! ### Accumulators and times (R105, R107) -/

/-- Column address of the row accumulator word j of unit u. -/
def rowAccAddr (c : TileCfg) (u j : Nat) : Nat := 128 * (fb c.abase.toNat 20 0 + 2 * (u - fb c.wbase.toNat 20 0)) + 4 * j

/-- First unit of the column accumulator of transposed unit v. -/
def colAccUnit (c : TileCfg) (v : Nat) : Nat := fb c.tabase.toNat 20 0 + 2 * (v - fb c.tbase.toNat 20 0)

/-- An accumulator word with dw added to its weight field and dv to its vote, each modulo its width. -/
def accAdd (a : Nat) (dw dv : Int) : Nat := mask 20 (Int.ofNat (a % 2 ^ 20) + dw) + mask 12 (Int.ofNat (a / 2 ^ 20) + dv) * 2 ^ 20

/-- The index of a group's time table (R105). -/
def Tile.grpIndex (t : Tile) (g : Nat) : Option Nat := (t.cfg.grps.find? (fun e => e.2 = g)).map (·.1)

/-- Column address of the presynaptic time entry of (row, group, lane). -/
def timeAddr (c : TileCfg) (i row l : Nat) : Nat :=
  128 * (fb c.pret.toNat 20 0 + i * 8192) + ((row / 64) * 32 + l) * 256 + row % 64 * 4

/-! ### The depression half (R104, R105) -/

/-- One plastic word of a depression half. -/
def State.depWord (s : State) (t w stamp u n j : Nat) : State :=
  let word := s.synapse t u j
  let x := s.tile t
  match x.ruleOf w n, x.blockOf w n with
  | some r, some b =>
    if !plastic word then s
    else
      let rc := s.readRec t b (blkAddr b n (w % 32))
      let m := (stamp + synDelay word + 2 ^ 20 - recLst rc) % 2 ^ 20
      if blkWide b && recLv rc && 1 ≤ m && m ≤ 64 then
        let a := rowAccAddr x.cfg u j
        s.colWrite t a 4 (accAdd (s.colLE t a 4) (-Int.ofNat (ruleDep r (m - 1))) 0)
      else s
  | _, _ => s

/-- The depression half of an event of world w on row r at a 20-bit stamp (R104, R105). -/
def State.depression (s : State) (t w row stamp : Nat) : State :=
  let x := s.tile t
  let e := tget (0 : DWord) row x.rowdir
  let l := w % 32
  let s1 := (List.range (rowSegs e)).foldl (fun s k =>
    let u := rowSegAddr e l k / 128
    if s.unitBad t u then s.unitLost t u 0 [(w, stamp)]
    else (List.range 64).foldl (fun s j => s.depWord t w stamp u (rowPostBase e + 64 * k + j) j) s) (s.wakeBank t)
  let s2 := match x.grpIndex (w / 32) with
    | some i => s1.colWrite t (timeAddr x.cfg i row l) 4 (stamp % 2 ^ 20 + 2 ^ 20)
    | none => s1
  s2.modTile t (fun y => { y with lrnDep := sat 32 y.lrnDep 1 })

/-! ### The potentiation pass (R106, R108) -/

/-- The weight change of a pair at distance delta. -/
def pairChange (r : RuleSet) (delta : Int) : Int :=
  if 0 ≤ delta && delta ≤ 63 then Int.ofNat (rulePot r delta.toNat)
  else if -64 ≤ delta && delta ≤ -1 then -Int.ofNat (ruleDep r (-delta - 1).toNat)
  else 0

/-- The delay vote of a pair at distance delta (R108). -/
def pairVote (r : RuleSet) (flags : Nat) (delta : Int) : Int :=
  let star : Int := Int.ofNat (ruleParam r 25 20)
  if flags = 2 && (delta - star).natAbs ≤ ruleParam r 31 26 then (delta - star).sign else 0

/-- One synapse of a potentiation pass: position j of transposed unit v, from row `row`. -/
def State.potWord (s : State) (t w stamp v j row : Nat) (r : RuleSet) : State :=
  let x := s.tile t
  let word := s.planeWord t v j 16
  match x.grpIndex (w / 32) with
  | none => s
  | some i =>
    let te := s.colLE t (timeAddr x.cfg i row (w % 32)) 4
    let gap := (stamp + 2 ^ 20 - te % 2 ^ 20) % 2 ^ 20
    if plastic word && bit te 20 && gap < 2 ^ 19 then
      let delta : Int := Int.ofNat gap - Int.ofNat (synDelay word)
      let u := colAccUnit x.cfg v
      s.setPlaneWord t u j (accAdd (s.planeWord t u j 32) (pairChange r delta) (pairVote r (synFlags word) delta)) 32
    else s

/-- A column directory entry (R52). -/
def State.colEntry (s : State) (t n : Nat) : DWord :=
  BitVec.ofNat 64 (s.colLE t (128 * fb (s.tile t).cfg.twin.toNat 20 0 + 8 * n) 8)

def colSegs (e : DWord) : Nat := wf e 31 21
def colRow (e : DWord) : Nat := wf e 44 32

/-- The transposed unit k of a column directory entry as lane l's world reads it (R52, R113). -/
def colUnit (e : DWord) (priv : Bool) (l k : Nat) : Nat := wf e 20 0 + (if priv then l * colSegs e else 0) + k

/-- The potentiation pass of post neuron n of world w at a 20-bit stamp (R106). -/
def State.potentiation (s : State) (t w n stamp : Nat) : State :=
  let x := s.tile t
  match x.ruleOf w n with
  | none => s
  | some r =>
    let e := s.colEntry t n
    let s1 := (List.range (colSegs e)).foldl (fun s k =>
      let v := colUnit e (s.world w).privateLearn (w % 32) k
      if s.unitBad t v then s.unitLost t v 1 [(w, stamp)]
      else (List.range 64).foldl (fun s j => s.potWord t w stamp v j (colRow e + 64 * k + j) r) s) (s.wakeBank t)
    s1.modTile t (fun y => { y with lrnPot := sat 32 y.lrnPot 1 })

/-- The age sweep of a world's presynaptic times (R105): valid is cleared where the stamp is 2^19 or more behind. -/
def State.sweepTimes (s : State) (t w notice : Nat) : State :=
  let x := s.tile t
  match x.grpIndex (w / 32) with
  | none => s
  | some i =>
    (x.rowdir.map (·.1)).foldl (fun s row =>
      let a := timeAddr x.cfg i row (w % 32)
      let te := s.colLE t a 4
      if bit te 20 && 2 ^ 19 ≤ ageOf notice (te % 2 ^ 20) then s.colWrite t a 4 (te - 2 ^ 20) else s) s

/-! ### Consolidation (R108, R110 to R112) -/

/-- The arithmetic of one synapse at a point: accumulator a, the word, its rule set, the shift and the delay floor;
the new word, the accumulator kept, and whether the weight clamped and the delay changed. -/
def consolidate (a word sh floor : Nat) (r : RuleSet) : Nat × Nat × Bool × Bool :=
  let s : Int := sgn 20 a
  let q : Int := (s + 2 ^ (sh - 1)) / 2 ^ sh
  let lo := sgn 8 (ruleParam r 7 0)
  let hi := sgn 8 (ruleParam r 15 8)
  let w0 := synWeight word + q
  let w1 := min (max w0 lo) hi
  let v := sgn 12 (a / 2 ^ 20)
  let thr : Int := Int.ofNat (ruleParam r 43 32)
  let d := synDelay word
  let d1 := if synFlags word ≠ 2 then d else if thr ≤ v then min (d + 1) 63 else if v ≤ -thr then max (d - 1) floor else d
  let voted := decide (synFlags word = 2) && (decide (thr ≤ v) || decide (v ≤ -thr))
  (mask 8 w1 * 256 + d1 * 4 + synFlags word, mask 20 (s - q * 2 ^ sh) + mask 12 (if voted then 0 else v) * 2 ^ 20,
    decide (w0 ≠ w1), decide (d ≠ d1))

/-- The rows of tile t that hold a plastic word, with the lane copies of a private row: row, lane, segment, unit. -/
def State.plasticUnits (s : State) (t : Nat) : List (Nat × Nat × Nat × Nat) :=
  (s.tile t).rowdir.flatMap (fun re =>
    if rowTwin re.2 then
      (List.range (if rowPriv re.2 then 32 else 1)).flatMap (fun l =>
        (List.range (rowSegs re.2)).filterMap (fun k =>
          let u := rowSegAddr re.2 l k / 128
          if (List.range 64).any (fun j => plastic (s.synapse t u j)) then some (re.1, l, k, u) else none))
    else [])

/-- The transposed unit and position of the synapse from row r into neuron n, for a private row's lane copy. -/
def State.twinAt (s : State) (t : Nat) (priv : Bool) (l row n : Nat) : Nat × Nat :=
  let e := s.colEntry t n
  (colUnit e priv l ((row - colRow e) / 64), (row - colRow e) % 64)

/-- The accumulator word j of a row segment with its column accumulator folded in, and the column's cleared (R111). -/
def State.foldWord (s : State) (t row l u j : Nat) : State :=
  let x := s.tile t
  let e := tget (0 : DWord) row x.rowdir
  let k := (u - rowSegAddr e l 0 / 128)
  if !plastic (s.synapse t u j) then s
  else
    let vj := s.twinAt t (rowPriv e) l row (rowPostBase e + 64 * k + j)
    let cu := colAccUnit x.cfg vj.1
    let c := s.planeWord t cu vj.2 32
    let a := rowAccAddr x.cfg u j
    (s.setPlaneWord t cu vj.2 0 32).colWrite t a 4 (accAdd (s.colLE t a 4) (Int.ofNat (c % 2 ^ 20)) (Int.ofNat (c / 2 ^ 20)))

/-- Writes a new row word and its transposed copy (R112). -/
def State.rewriteWord (s : State) (t row l u j v : Nat) : State :=
  let x := s.tile t
  let e := tget (0 : DWord) row x.rowdir
  let k := (u - rowSegAddr e l 0 / 128)
  let vj := s.twinAt t (rowPriv e) l row (rowPostBase e + 64 * k + j)
  (s.setSynapse t u j v).setPlaneWord t vj.1 vj.2 v 16

/-- Consolidates word j of a row segment: A is its accumulator plus what the replicas sent (R110). -/
def State.consolWord (s : State) (t row l u j : Nat) (extra : Nat × Nat) (g : Nat) : State :=
  let x := s.tile t
  let e := tget (0 : DWord) row x.rowdir
  let word := s.synapse t u j
  let n := rowPostBase e + 64 * (u - rowSegAddr e l 0 / 128) + j
  let w := g * 32 + (if rowPriv e then l else (x.residentLanes g).headD 0)
  match x.ruleOf w n with
  | none => s
  | some r =>
    if !plastic word then s
    else
      let a := rowAccAddr x.cfg u j
      let sum := accAdd (s.colLE t a 4) (Int.ofNat extra.1) (Int.ofNat extra.2)
      let res := consolidate sum word (if rowPriv e then 4 else 4 + ruleParam r 19 16) (tcLookahead x.cfg + 1) r
      let s1 := (s.rewriteWord t row l u j res.1).colWrite t a 4 res.2.1
      s1.modTile t (fun y => { y with lrnClamp := sat 32 y.lrnClamp (b2n res.2.2.1),
                                      lrnDchg := sat 32 y.lrnDchg (b2n res.2.2.2) })

end Sys2Proof.Machine
end

