-- ==== Sys2Proof/Machine/TileOps.lean ====
section
/-! DEFINITION. What a tile does between its commands: drops, wheel, intake, merge and row passes, runs waiting for the
engine, frontier, notices and turn reports (R46, R54 to R66, R74, R102, R126, R356). -/

namespace Sys2Proof.Machine

open Sys2Proof

def wheelSize : Nat := 32768
def intakeSize : Nat := 1024
def mergeSize : Nat := 32

/-! ### Marks and drops (R17, R65, R66) -/

/-- Marks the turn of tempo tau of world w non-deterministic in the tile's report (R17). -/
def Tile.markNondet (t : Tile) (w turn : Nat) : Tile :=
  t.modWorld w (fun x => { x with nondet := if x.nondet.contains turn then x.nondet else turn :: x.nondet })

def State.nondetAt (s : State) (t w tau : Nat) : State := s.modTile t (fun x => x.markNondet w ((s.world w).turnOf tau))

/-- Counts a drop against its source (R65): 64 sources, then TILE_SQ_OTHER. -/
def Tile.countSource (t : Tile) (src : Coord) : Tile :=
  if t.sqSrcs.any (fun e => e.1 = src) then
    { t with sqSrcs := t.sqSrcs.map (fun e => if e.1 = src then (e.1, sat 32 e.2 1) else e) }
  else if t.sqSrcs.length < 64 then { t with sqSrcs := t.sqSrcs ++ [(src, 1)] }
  else { t with sqOther := sat 32 t.sqOther 1 }

/-- A drop of world w at tempo tau: intake, or wheel (R65); a Lockstep one is a schedule violation (R66). -/
def State.tileDrop (s : State) (t w tau : Nat) (wheel lock : Bool) (src : Coord) (row : Nat) (item : LossItem) : State :=
  if lock then (s.pushLoss { item with code := .failedSchedule, sampled := false }).nondetAt t w tau
  else
    let turn := (s.world w).turnOf tau
    let k := tget 0 turn ((s.tile t).world w).sampled
    let s1 := s.modTile t (fun x => (x.modWorld w (fun y =>
      { y with intakeDrops := if wheel then y.intakeDrops else tmod 0 turn (fun n => sat 16 n 1) y.intakeDrops,
               wheelDrops := if wheel then tmod 0 turn (fun n => sat 16 n 1) y.wheelDrops else y.wheelDrops,
               sampled := tset turn (k + 1) y.sampled })).countSource src)
    let s2 := s1.traceTile t 2 tau w true row [b2n wheel]
    if k < 16 then s2.pushLoss { item with code := .droppedSquall, sampled := true } else s2

/-- The EVENT item of an event of tile t (R302). -/
def State.evItem (s : State) (t : Nat) (ev : Ev) (c : Code) : LossItem :=
  { code := c, kind := 0x1, w := some ev.w, reporter := s.coord t, a := ev.stamp,
    b := BitVec.ofNat 64 ((mkEvent ev.row (ev.w % 32) ev.value 0).toNat + tileY t * 2 ^ 32 + tileX t * 2 ^ 38
      + s.hub.p * 2 ^ 44 + b2n s.hub.epoch.current * 2 ^ 50 + ev.cls * 2 ^ 51), ext := none, stamp := some ev.stamp,
    sampled := false }

/-- The CONTRIB item of a contribution (R302). -/
def State.contribItem (s : State) (t w row n seg due : Nat) (sum : Int) (c : Code) : LossItem :=
  { code := c, kind := 0x2, w := some w, reporter := s.coord t, a := due % 2 ^ 20,
    b := BitVec.ofNat 64 (row + n * 2 ^ 13 + seg * 2 ^ 27 + mask 24 sum * 2 ^ 38), ext := none,
    stamp := some (due % 2 ^ 20), sampled := false }

/-! ### The wheel (R57, R63) -/

/-- A wheel entry of (n, w) due at a tempo takes a sum. -/
def addEntry (w n due : Nat) (sum : Int) (woken : Bool) (e : WheelEntry) : WheelEntry :=
  if e.w = w && e.neuron = n && e.due = due then { e with sum := sat24 (e.sum + sum), woken := e.woken || woken } else e

/-- Adds `sum` to the wheel entry of (n, w) due at tau, allocating it; none when the wheel is full. -/
def Tile.wheelAdd (t : Tile) (w n due : Nat) (sum : Int) (woken : Bool) : Option Tile :=
  if t.wheel.any (fun e => e.w = w && e.neuron = n && e.due = due) then
    some { t with wheel := t.wheel.map (addEntry w n due sum woken) }
  else if t.wheel.length < wheelSize then
    some { t with wheel := t.wheel ++ [{ w := w, neuron := n, due := due, sum := sat24 sum, woken := woken }],
                  wheelHigh := max t.wheelHigh (t.wheel.length + 1) }
  else none

/-- One contribution (R46, R57, R63, R298): to a lane that no block holds, below the frontier, or into the wheel. -/
def State.contribute (s : State) (t w row n seg due : Nat) (sum : Int) (lock : Bool) (src : Coord) : State :=
  let x := s.tile t
  if (x.blockOf w n).isNone then s.pushLoss (s.contribItem t w row n seg due sum .failedAccess)
  else if due < (x.world w).f then s.pushLoss (s.contribItem t w row n seg due sum .failedFenced)
  else
    match x.wheelAdd w n due sum false with
    | some y => s.modTile t (fun _ => y)
    | none => s.tileDrop t w due true lock src row (s.contribItem t w row n seg due sum .droppedSquall)

/-! ### Row passes (R48 to R50, R63, R72) -/

/-- The full tempo of an event's stamp in tile t. -/
def Tile.fullStamp (t : Tile) (ev : Ev) : Nat := fullTempo (t.world ev.w).f ev.stamp

/-- Column j of segment k for one lane's event: the contributions of its word. -/
def State.passWord (s : State) (t row k u j : Nat) (e : DWord) (ev : Ev) : State :=
  let word := s.synapse t u j
  let due := (s.tile t).fullStamp ev + synDelay word
  if synFlags word = 3 then s
  else if rowPair e then
    let n := rowPostBase e + 128 * k + 2 * j
    (s.contribute t ev.w row n k due (sgn 4 (fb word 11 8) * ev.value) ev.lockstep ev.src).contribute t ev.w row (n + 1) k
      due (sgn 4 (fb word 15 12) * ev.value) ev.lockstep ev.src
  else s.contribute t ev.w row (rowPostBase e + 64 * k + j) k due (synWeight word * ev.value) ev.lockstep ev.src

/-- One segment of a pass, or its loss for every lane of the pass (R63, R72). -/
def State.passSeg (s : State) (t row k : Nat) (e : DWord) (evs : List Ev) : State :=
  let u := rowSegAddr e ((evs.map (·.w)).headD 0 % 32) k / 128
  if s.unitBad t u then s.unitLost t u 0 (evs.map (fun ev => (ev.w, ev.stamp)))
  else
    (List.range 64).foldl (fun s j => evs.foldl (fun s ev => s.passWord t row k u j e ev) s) (s.unitRead t u)

/-- A row pass over the lanes of `evs` (R63); an empty row has none. -/
def State.rowPass (s : State) (t row : Nat) (evs : List Ev) : State :=
  let e := tget (0 : DWord) row (s.tile t).rowdir
  if rowSegs e = 0 || evs.isEmpty then s
  else
    let s1 := (s.wakeBank t).modTile t (fun x =>
      { x with rowpass := x.rowpass + 1, lanes := x.lanes + BitVec.ofNat 32 evs.length, streaming := true })
    (List.range (rowSegs e)).foldl (fun s k => s.passSeg t row k e evs) s1

/-- The row of an event holds a plastic word. -/
def State.rowPlastic (s : State) (t row : Nat) : Bool :=
  let e := tget (0 : DWord) row (s.tile t).rowdir
  rowTwin e && (List.range (rowSegs e)).any (fun k =>
    (List.range 64).any (fun j => plastic (s.synapse t (rowSegAddr e 0 k / 128) j)))

/-- The event has a depression half to run: its row is plastic and its world's group learns (R102). -/
def State.hasDep (s : State) (t : Nat) (ev : Ev) : Bool :=
  s.rowPlastic t ev.row && s.learns ev.w ((s.tile t).fullStamp ev) && (s.tile t).rowdir.length ≠ 0

/-- Changes an event in intake. -/
def Tile.modEv (t : Tile) (id : Nat) (f : Ev → Ev) : Tile :=
  { t with intake := t.intake.map (fun e => if e.id = id then f e else e) }

def Tile.dropEv (t : Tile) (id : Nat) : Tile := { t with intake := t.intake.filter (fun e => e.id ≠ id) }

def Tile.ev (t : Tile) (id : Nat) : Option Ev := t.intake.find? (fun e => e.id = id)

/-- Runs the depression half of an event whose MAC half is done, once F = s + 1, and frees its slot (R102). -/
def State.depEvent (s : State) (t : Nat) (ev : Ev) : State :=
  if (s.tile t).fullStamp ev < ((s.tile t).world ev.w).f
  then (s.depression t ev.w ev.row ev.stamp).modTile t (fun x => x.dropEv ev.id) else s

/-- The MAC halves of `evs` are done: an event without a depression half frees its slot (R102). -/
def State.macDone (s : State) (t : Nat) (evs : List Ev) : State :=
  evs.foldl (fun s ev =>
    if s.hasDep t ev then
      let s1 := s.modTile t (fun x => x.modEv ev.id (fun e => { e with macDone := true }))
      if ev.lockstep then s1 else s1.depEvent t ev
    else s.modTile t (fun x => x.dropEv ev.id)) s

/-! ### Merge and dispatch (R61, R62) -/

/-- The entries of the merge table with one key. -/
def sameMerge (a b : MergeEntry) : Bool := a.row = b.row && a.group = b.group && a.cls = b.cls && a.lockstep = b.lockstep

/-- Dispatches one merge entry. -/
def State.dispatchOne (s : State) (t : Nat) (m : MergeEntry) : State :=
  let evs := m.evs.filterMap (fun e => (s.tile t).ev e.2)
  let s1 := s.modTile t (fun x => { x with merge := x.merge.filter (fun k => k ≠ m) })
  (s1.rowPass t m.row evs).macDone t evs

/-- The entries ahead of m in the table that share its key, then m itself (R61). -/
def upTo (m : MergeEntry) : List MergeEntry → List MergeEntry
  | [] => []
  | k :: r => if k = m then [m] else if sameMerge k m then k :: upTo m r else upTo m r

/-- Dispatches an entry, every older entry of its key first. -/
def State.dispatch (s : State) (t : Nat) (m : MergeEntry) : State :=
  (upTo m (s.tile t).merge).foldl (fun s k => s.dispatchOne t k) s

/-- Adds an event to the first entry of the list that takes it. -/
def joinEntry (ev : Ev) (g : Nat) : List MergeEntry → Option (List MergeEntry)
  | [] => none
  | m :: r =>
    if m.row = ev.row && m.group = g && m.cls = ev.cls && m.lockstep = ev.lockstep
        && !(m.evs.any (fun e => e.1 = ev.w % 32))
    then some ({ m with evs := m.evs ++ [(ev.w % 32, ev.id)] } :: r)
    else
      match joinEntry ev g r with
      | some r' => some (m :: r')
      | none => none

/-- A full entry is dispatched (R61). -/
def State.dispatchFull (s : State) (t : Nat) : State :=
  match (s.tile t).merge.find? (fun m => 32 ≤ m.evs.length && !m.lockstep) with
  | some m => s.dispatch t m
  | none => s

/-- An eligible event joins the merge table, or passes alone on a private row (R61). -/
def State.joinMerge (s : State) (t : Nat) (ev : Ev) : State :=
  let e := tget (0 : DWord) ev.row (s.tile t).rowdir
  if rowPriv e then (s.rowPass t ev.row [ev]).macDone t [ev]
  else
    match joinEntry ev (ev.w / 32) (s.tile t).merge with
    | some ms => (s.modTile t (fun x => { x with merge := ms })).dispatchFull t
    | none =>
      let s1 :=
        if mergeSize ≤ (s.tile t).merge.length then
          match (s.tile t).merge with
          | [] => s
          | m :: _ => s.dispatch t m
        else s
      s1.modTile t (fun x => { x with merge := x.merge ++
        [{ row := ev.row, group := ev.w / 32, cls := ev.cls, lockstep := ev.lockstep, evs := [(ev.w % 32, ev.id)] }] })

/-- The event may have its row pass (R57, R62): its world runs, its stamp is at F or below. -/
def State.eligible (s : State) (t : Nat) (ev : Ev) : Bool :=
  (s.world ev.w).st = .running && !ev.macDone && (s.tile t).fullStamp ev ≤ ((s.tile t).world ev.w).f
    && !((s.tile t).merge.any (fun m => m.evs.any (fun e => e.2 = ev.id)))
    && !((s.tile t).lrnBusy.isSome && s.rowPlastic t ev.row)

/-- The event's row is a reflex row (R59). -/
def Tile.reflexRow (t : Tile) (row : Nat) : Bool := rowReflex (tget (0 : DWord) row t.rowdir)

/-- Reflex runs go ahead of wheel runs, in their order (R59). -/
def putReflex (d : DueRun) (l : List DueRun) : List DueRun := l.filter (·.reflex) ++ [d] ++ l.filter (fun e => !e.reflex)

/-- A reflex event of a RUNNING world goes to the gambit engine and frees its slot (R46, R59). -/
def State.reflexEvent (s : State) (t : Nat) (ev : Ev) : State :=
  let x := s.tile t
  let n := rowPostBase (tget (0 : DWord) ev.row x.rowdir)
  let s1 := s.modTile t (fun y => y.dropEv ev.id)
  if (x.blockOf ev.w n).isNone then s1.pushLoss (s.evItem t ev .failedAccess)
  else
    let d : DueRun :=
      { w := ev.w, neuron := n, now := x.fullStamp ev, input := Int.ofNat ev.value, woken := false, reflex := true }
    s1.modTile t (fun y => { y with due := putReflex d y.due })

/-- Everything in intake that may move does: reflex events to the engine, eligible Breeze events to merge. -/
def State.feed (s : State) (t : Nat) : State :=
  ((s.tile t).intake.map (·.id)).foldl (fun s id =>
    match (s.tile t).ev id with
    | none => s
    | some ev =>
      if (s.tile t).reflexRow ev.row then (if (s.world ev.w).st = .running then s.reflexEvent t ev else s)
      else if !ev.lockstep && s.eligible t ev then s.joinMerge t ev
      else s) s

/-! ### Intake (R60, R65, R66, R356) -/

/-- A free slot that an event of this discipline may take (R60). -/
def Tile.slotFree (t : Tile) (lock : Bool) : Bool :=
  let vc2 := (t.intake.filter (·.lockstep)).length
  let free := intakeSize - t.intake.length
  if lock then 0 < free else 0 < free && tcReserve t.cfg - vc2 < free

/-- One event of a volley reaches the tile's intake (R60, R65, R66, R356). -/
def State.intakeEvent (s : State) (t : Nat) (v : Volley) (e : Word) : State :=
  let w := v.group * 32 + evLane e
  let x := s.tile t
  let stamp := (v.tempoBase + evOffset e) % 2 ^ 20
  let lock := decide (v.vc = 2)
  let ev : Ev := { id := x.nextId, w := w, row := evRow e, value := evValue e, stamp := stamp, lockstep := lock, cls := v.cls,
                   src := v.src, tag := v.slot, macDone := false, depDone := false }
  let lost := fun c => s.pushLoss (eventItem v e c (s.coord t))
  match (s.world w).st with
  | .standby => lost .failedParked
  | .free => lost .failedAccess
  | .retiring => s.modWorld w (fun y => { y with discarded := y.discarded + 1 })
  | st =>
    if x.slotFree lock then
      (s.modTile t (fun y => { y with nextId := y.nextId + 1, intake := y.intake ++ [ev],
                                      intakeHigh := max y.intakeHigh (y.intake.length + 1) })).traceTile t 1 stamp w true
        (evRow e) [evValue e + b2n lock * 2 ^ 8 + b2n v.urgent * 2 ^ 9 + b2n (decide (st = .parked)) * 2 ^ 10]
    else
      s.tileDrop t w (fullTempo (x.world w).f stamp) false lock v.src (evRow e) (eventItem v e .droppedSquall (s.coord t))

/-! ### Frontier, notices and reports (R54 to R56, R102, R126, R297) -/

/-- The upstream entries of group g that count: those of a fenced tile are left out (R297, R298). -/
def Tile.upstreamOf (t : Tile) (g : Nat) : List Upstream := t.upstream.filter (fun u => u.group = g && !u.out)

/-- Every upstream entry of world w's group covers its lane and stands at a frontier of at least b (R54, R55). -/
def Tile.upstreamAt (t : Tile) (w b : Nat) : Bool :=
  (t.upstreamOf (w / 32)).all (fun u => u.seen && u.mask.getLsbD (w % 32) && b ≤ u.frontier)

/-- The drop counts and flags of turn n of world w in a tile, as a report (R56, R126). -/
def Tile.report (t : Tile) (w n : Nat) : VBody :=
  let x := t.world w
  .turnReport (w % 32) (x.nondet.contains n) (x.incomplete.contains n) (x.loss.contains n) n (tget 0 n x.intakeDrops)
    (tget 0 n x.wheelDrops)

/-- Every GATHER slot of turn n of group g has closed in tile t: its schedule has gone past the last one (R126, R140). -/
def State.gathersClosed (s : State) (t g n : Nat) : Bool :=
  let x := s.tile t
  n < x.schedTurn || (x.schedTurn = n &&
    (((s.curSchedule t).drop x.slot).all (fun e => !(schOp e = 1 && schGroup e = g))))

/-- Tile t may report turn n of world w (R126). -/
def State.mayReport (s : State) (t w n : Nat) : Bool :=
  let x := s.tile t
  let b := (s.world w).start (n + 1)
  b ≤ (x.world w).f
    && (if s.groupLockstep t (w / 32) then s.gathersClosed t (w / 32) n else x.upstreamAt w b)

/-- Sends the turn reports of world w that are due (R56, R126, R132). -/
def State.reports (s : State) (t w : Nat) : Nat → State
  | 0 => s
  | k + 1 =>
    let n := ((s.tile t).world w).reported
    if (s.world w).st = .running && s.mayReport t w n && s.tileRuns t then
      let g := w / 32
      let lock := s.groupLockstep t g
      let s1 := s.flushOpen t (fun o => o.group = g && 32 ≤ (destCoord o.dst).x)
      let v := s1.mkVolley t { p := s1.hub.p, x := 38, y := 0 } g (s1.tileBank t w) 0 (if lock then 2 else 0) 0
        ((s1.world w).start n) ((s1.tile t).report w n)
      ((s1.send t v).modTile t (fun y => y.modWorld w (fun z =>
        { z with reported := n + 1, intakeDrops := tdel n z.intakeDrops, wheelDrops := tdel n z.wheelDrops,
                 sampled := tdel n z.sampled, nondet := z.nondet.filter (· ≠ n),
                 incomplete := z.incomplete.filter (· ≠ n), loss := z.loss.filter (· ≠ n) }))).reports t w k
    else s

/-- The reports of every lane of group g (R126). -/
def State.groupReports (s : State) (t g : Nat) : State :=
  ((s.tile t).residentLanes g).foldl (fun s l => s.reports t (g * 32 + l) 8) s

/-- A notice for group g is due: its frontier advanced by notice_step, or has passed the last stamp of a turn (R55). -/
def State.noticeDue (s : State) (t g : Nat) : Bool :=
  let f := s.groupFrontier t g
  let l := tget 0 g (s.tile t).lastNotice
  decide (l + tcNoticeStep (s.tile t).cfg ≤ f)
    || (s.runningLanes t g).any (fun i =>
      let x := s.world (g * 32 + i)
      decide (l < f) && decide (x.anchor < f) && decide ((f - x.anchor) % x.len = 0))

/-- What follows an advance of world w's frontier (R55, R56, R102). -/
def State.afterF (s : State) (t w : Nat) : State :=
  let s1 := ((s.tile t).intake.filter (fun e => e.w = w && e.macDone && !e.lockstep)).foldl (fun s ev => s.depEvent t ev) s
  let s2 := s1.feed t
  let s3 := if s2.noticeDue t (w / 32) then s2.sendNotice t (w / 32) else s2
  s3.reports t w 8

/-- The potentiation passes of the post spikes of world w at stamp c (R102, R106). -/
def State.potentiate (s : State) (t w c : Nat) : State :=
  let mine := (s.tile t).posts.filter (fun e => e.2.1 = w && e.2.2 = c)
  let s1 := s.modTile t (fun x => { x with posts := x.posts.filter (fun e => !(e.2.1 = w && e.2.2 = c)) })
  mine.foldl (fun s e => if s.learns w c then s.potentiation t w e.1 (c % 2 ^ 20) else s) s1

/-- The update of stamp c of world w is complete: F := c + 1 (R54, R102). -/
def State.finishUpdate (s : State) (t w c : Nat) (lock : Bool) : State :=
  let s1 := if lock then s else s.potentiate t w c
  (s1.modTile t (fun x => x.modWorld w (fun y => { y with f := c + 1 }))).afterF t w

end Sys2Proof.Machine
end

