-- ==== Sys2Proof/Machine/Runs.lean ====
section
/-! DEFINITION. Gambit runs: how one starts, completes and is abandoned, and the next one (R74 to R80, R88 to R97). -/

namespace Sys2Proof.Machine

open Sys2Proof

/-- The working registers at entry (R76): g0 the input, g1 the elapsed tempo, g2 now, g3 neuron, lane and cause. -/
def entryRegs (d : DueRun) (e : Nat) : List Word :=
  [toReg d.input, BitVec.ofNat 32 e, BitVec.ofNat 32 (d.now % 2 ^ 20),
   BitVec.ofNat 32 (d.neuron * 2 ^ 8 + d.w % 32 * 2 ^ 3 + b2n (!d.reflex && d.woken) * 2 + b2n d.reflex), 0, 0, 0, 0]

/-- The record buffer, elapsed tempo, I flag and keep-stamp of a stateful run (R76, R79, R95, R309). -/
def entryBuffer (d : DueRun) (md : List DWord) (r : BitVec 128) (bad : Bool) : BitVec 128 × Nat × Bool × Bool :=
  if bad then (restRecord (mdRest md) (mdWide md) (d.now % 2 ^ 20), 0, true, false)
  else
    let e := (d.now + 2 ^ 20 - recStamp r) % 2 ^ 20
    if 2 ^ 19 ≤ e then
      if d.reflex then (r, 0, false, true) else (restBits r (mdRest md) (mdWide md), 0, true, false)
    else (r, e, false, false)

/-- The engine starts a run (R74 steps 1 to 4). -/
def State.startRun (s : State) (t : Nat) (d : DueRun) : State :=
  let x := s.tile t
  match x.blockOf d.w d.neuron with
  | none => s
  | some b =>
    let md := x.model b
    let base : Run := { w := d.w, neuron := d.neuron, slot := blkSlot b, now := d.now, reflex := d.reflex, g := [], n := false,
                        z := false, i := false, pc := mdEntry md, steps := 0, hc := 0, buf := 0, keepStamp := false,
                        emit := none, wake := none, lfsr := none }
    if mdStateless md then s.modTile t (fun y => { y with run := some { base with g := entryRegs d 0, hc := 1 } })
    else
      let a := blkAddr b d.neuron (d.w % 32)
      let bad := s.badRec t b a
      let en := entryBuffer d md (s.readRec t b a) bad
      let sp := if blkSpill b then spillTouch x.spillCache a else (false, x.spillCache)
      let s1 := s.modTile t (fun y =>
        { y with run := some { base with g := entryRegs d en.2.1, i := en.2.2.1, buf := en.1, keepStamp := en.2.2.2,
                                         hc := 2 + 24 * b2n sp.1 },
                 spillCache := sp.2, ueSram := if bad && !blkSpill b then sat 8 y.ueSram 1 else y.ueSram,
                 ueDram := if bad && blkSpill b then sat 8 y.ueDram 1 else y.ueDram })
      if bad then s1.pushLoss (s.stateItem t d.w d.neuron b d.now) else s1

/-- The engine takes its next run; when none is left, the update in progress is complete (R54, R58, R74). -/
def State.nextRun (s : State) (t : Nat) : State :=
  let x := s.tile t
  if x.run.isSome then s
  else
    match x.due with
    | d :: r => if x.stalled.isEmpty then (s.modTile t (fun y => { y with due := r })).startRun t d else s
    | [] =>
      x.upd.foldl (fun s e => s.finishUpdate t e.1 e.2 (s.groupLockstep t (e.1 / 32)))
        (s.modTile t (fun y => { y with upd := [] }))

/-- The trace filters let a record of the run pass; PCSTEP follows the run's neuron (R318). -/
def State.tracePc (s : State) (t : Nat) (r : Run) : State :=
  if (s.dom (tileDom t)).state = 0 && s.tracePasses r.w true r.neuron (.world r.w) then
    (s.traceSources (tileX t) (tileY t) 5).foldl (fun s i =>
      if (s.tile t).traceFifo.length < 16 then
        s.modTile t (fun x => { x with traceFifo := x.traceFifo ++
          [{ src := i, kind := 5, time := r.now % 2 ^ 20, w := r.w, wv := true, a := r.pc, payload := [] }] })
      else { s with trc := s.trc.drop i }) s
  else s

/-- The RUN trace record of a run that ends (R318). -/
def State.traceRun (s : State) (t : Nat) (r : Run) (abandoned : Bool) : State :=
  s.traceTile t 4 r.now r.w true r.neuron
    [r.pc + r.slot * 2 ^ 9 + b2n (r.emit.isSome && !abandoned) * 2 ^ 12 + b2n abandoned * 2 ^ 13, min r.hc 0xFFFF]

/-- The record as the completed run leaves it: the stamp, and lst with lv after an emission (R77, R89, R95). -/
def Run.finalRecord (r : Run) (wide : Bool) : BitVec 128 :=
  let b := if r.keepStamp then r.buf else setStamp r.buf (r.now % 2 ^ 20)
  if wide && r.emit.isSome then setLst b (r.now % 2 ^ 20) true else b

/-- The wake a completed run asks for (R91). -/
def State.runWake (s : State) (t : Nat) (r : Run) : State :=
  match r.wake with
  | none => s
  | some d =>
    match (s.tile t).wheelAdd r.w r.neuron (r.now + d) 0 true with
    | some y => s.modTile t (fun _ => y)
    | none =>
      s.tileDrop t r.w (r.now + d) true (s.groupLockstep t (r.w / 32)) (s.coord t) 0
        (s.contribItem t r.w 0 r.neuron 0 (r.now + d) 0 .droppedSquall)

/-- The emission of a completed run, and the post spike it hands to the learning unit (R89, R92). -/
def State.runEmit (s : State) (t : Nat) (r : Run) (md : List DWord) : State :=
  match r.emit with
  | none => s
  | some (v, learn) =>
    let s1 := (s.traceTile t 3 r.now r.w true r.neuron [v]).emission t r.w r.neuron r.now v
    if learn && mdLearn md && s1.learns r.w r.now
    then s1.modTile t (fun y => { y with posts := y.posts ++ [(r.neuron, r.w, r.now)] }) else s1

/-- A run completes (R74 step 6): writeback, emission, wake, learning request, counters; then the next run. -/
def State.completeRun (s : State) (t : Nat) (r : Run) : State :=
  let x := s.tile t
  let md := tget [] r.slot x.models
  let s1 := s.modTile t (fun y =>
    { y with run := none, gbRuns := y.gbRuns + 1,
             gbMaxModel := if y.gbMaxHc < min r.hc 0xFFFF then r.slot else y.gbMaxModel,
             gbMaxHc := max y.gbMaxHc (min r.hc 0xFFFF) })
  let s2 := match x.blockOf r.w r.neuron with
    | some b =>
      if mdStateless md then s1 else s1.writeRec t b (blkAddr b r.neuron (r.w % 32)) (r.finalRecord (blkWide b))
    | none => s1
  let s3 := (s2.traceRun t r false).runEmit t r md
  (s3.runWake t r).nextRun t

/-- The RUN loss item (R97, R302). -/
def State.runItem (s : State) (t : Nat) (r : Run) (c : Code) : LossItem :=
  { code := c, kind := 0x3, w := some r.w, reporter := s.coord t, a := r.now % 2 ^ 20,
    b := BitVec.ofNat 64 (r.neuron + r.slot * 2 ^ 14 + r.pc * 2 ^ 17), ext := none, stamp := some (r.now % 2 ^ 20),
    sampled := false }

/-- A run is abandoned (R97): cause 1 step overrun, 2 store parity. A parity error reloads the store from its copy
(R308). -/
def State.abandonRun (s : State) (t : Nat) (r : Run) (cause : Nat) : State :=
  let s1 := s.modTile t (fun y =>
    { y with run := none, gbFaultCnt := sat 32 y.gbFaultCnt 1, gbFaultValid := true,
             gbFaultCause := if y.gbFaultValid then y.gbFaultCause else cause,
             gbFaultModel := if y.gbFaultValid then y.gbFaultModel else r.slot,
             gbFaultPc := if y.gbFaultValid then y.gbFaultPc else r.pc,
             gbFaultWorld := if y.gbFaultValid then y.gbFaultWorld else r.w,
             gbFaultNeuron := if y.gbFaultValid then y.gbFaultNeuron else r.neuron,
             gbMaxModel := if y.gbMaxHc < min r.hc 0xFFFF then r.slot else y.gbMaxModel,
             gbMaxHc := max y.gbMaxHc (min r.hc 0xFFFF),
             ueParity := if cause = 2 then sat 8 y.ueParity 1 else y.ueParity,
             badStore := if cause = 2 then [] else y.badStore })
  let s2 := s1.nondetAt t r.w r.now
  ((s2.traceRun t r true).pushLoss (s.runItem t r (if cause = 1 then .failedGambit else .failedUncorrectable))).nextRun t

/-- The step limit of a run's model. -/
def Tile.stepLimit (t : Tile) (r : Run) : Nat := mdStepLimit (tget [] r.slot t.models)

/-- What executing an instruction answers: the run goes on, or it completes. -/
inductive GStep where
  | goOn (r : Run)
  | done (r : Run)
deriving DecidableEq, Repr

/-- Fetches and executes instruction i in tile t: it runs only when it is the one at the run's pc (R74, R82, R97).
`hc`: its time; f: its effect on the run, pc and counters apart. -/
def gExec (i : Instr) (t : Nat) (hc : Tile → Run → Nat) (f : Tile → Run → GStep) (s : State) :
    Host.Outcome State Fault Refusal :=
  let x := s.tile t
  match x.run with
  | none => .next s
  | some r =>
    if x.badStore.contains r.pc then .next ((s.tracePc t r).abandonRun t r 2)
    else if decodeGambit t (tget 0 r.pc x.store) = some i && r.steps < x.stepLimit r then
      let s1 := (s.tracePc t r).modTile t (fun y => { y with gbSteps := y.gbSteps + 1 })
      let r1 := { r with steps := r.steps + 1, hc := r.hc + hc x r }
      match f x r1 with
      | .goOn r2 => .next (s1.modTile t (fun y => { y with run := some r2 }))
      | .done r2 => .next (s1.completeRun t r2)
    else .next s

/-! ### Registers -/

def Run.reg (r : Run) (k : BitVec 3) : Word := r.g.getD k.toNat 0
def Run.setReg (r : Run) (k : BitVec 3) (v : Word) : Run := { r with g := r.g.set k.toNat v }

/-- The run goes on at the next instruction. -/
def Run.step (r : Run) : GStep := .goOn { r with pc := r.pc + 1 }

/-- rd := v, and the next instruction; flags are left alone. -/
def Run.put (r : Run) (rd : BitVec 3) (v : Word) : GStep := (r.setReg rd v).step

end Sys2Proof.Machine
end

