-- ==== Sys2Proof/Machine/TileCmds.lean ====
section
/-! DEFINITION. The commands of a tile under Breeze: arriving events and notices, merge dispatch, stamp updates, age notices,
tempo grants, bank background work, linger, echoes and pacing (R30, R54, R55, R60, R61, R68 to R72, R132 to R139). -/

namespace Sys2Proof.Machine

open Sys2Proof

/-! ### Volleys that a tile does not take (R296) -/

/-- The code of events absorbed before a domain that is not ACTIVE (R147, R296). -/
def State.absorbCode (s : State) (v : Volley) : Code := if s.isOld v then .failedEpoch else .failedFenced

/-! ### A volley's header (R122, R302) -/

/-- The kind field of R125. -/
def VBody.kind : VBody → Nat
  | .events _ => 0
  | .frontier _ _ => 1
  | .turnReport .. => 2
  | .echo _ => 3
  | .control _ _ => 4
  | .slotMark _ => 5
  | .other k => k

/-- Header bits 0–119 (R122). -/
def Volley.header (v : Volley) : Nat :=
  v.dst.y % 64 + v.dst.x % 64 * 2 ^ 6 + v.dst.p % 64 * 2 ^ 12 + v.src.y % 64 * 2 ^ 18 + v.src.x % 64 * 2 ^ 24
    + v.src.p % 64 * 2 ^ 30 + v.physY % 128 * 2 ^ 36 + v.physX % 32 * 2 ^ 43 + v.group % 256 * 2 ^ 48
    + b2n v.epoch * 2 ^ 56 + v.cls % 4 * 2 ^ 57 + b2n v.headwind * 2 ^ 59 + b2n v.urgent * 2 ^ 60
    + (v.body.words + 31) % 32 * 2 ^ 64 + v.body.kind % 16 * 2 ^ 69 + v.slot % 2 ^ 14 * 2 ^ 73
    + v.tempoBase % 2 ^ 24 * 2 ^ 88 + v.phops % 8 * 2 ^ 112

/-- hcheck: bit i is the XOR of header bits [15i+14:15i]. -/
def hcheck (h : Nat) : Nat :=
  (List.range 8).foldl (fun a i => a + popcount 15 (h / 2 ^ (15 * i)) % 2 * 2 ^ i) 0

/-- The VOLLEY item of a volley: its header, whose hcheck is inverted where a router found it wrong (R302). -/
def volleyItem (v : Volley) (c : Code) (rep : Coord) : LossItem :=
  let h := v.header
  let k := if v.okHeader then hcheck h else 255 - hcheck h
  { code := c, kind := 0x9, w := none, reporter := rep, a := 0, b := BitVec.ofNat 64 (h % 2 ^ 64),
    ext := some (BitVec.ofNat 64 (h / 2 ^ 64 + k * 2 ^ 56)), stamp := none, sampled := false }

/-! ### Lockstep slots that collect a tag (R140, R141, R143) -/

/-- The GATHER entry of tile t's schedule that collects a tag of group g: its index and the entry. -/
def State.gatherOf (s : State) (t g tag : Nat) : Option (Nat × DWord) :=
  let sch := s.curSchedule t
  ((List.range sch.length).map (fun i => (i, sch.getD i 0))).find? (fun e =>
    schOp e.2 = 1 && schGroup e.2 = g && schOffset e.2 ≤ tag % 4096 && tag % 4096 < schOffset e.2 + schSpan e.2)

/-- The slot of a tag has closed in tile t (R143): its turn is past, or its GATHER entry is. -/
def State.slotClosed (s : State) (t g tag : Nat) : Bool :=
  let x := s.tile t
  let d := (tag / 4096 + 4 - x.schedTurn % 4) % 4
  d = 3 || (d = 0 && (match s.gatherOf t g tag with
    | some (i, _) => decide (i < x.slot)
    | none => true))

/-- A VC2 volley that arrives for a closed slot: one FAILED_SCHEDULE record for each event, and R17 (R143). -/
def State.lateVolley (s : State) (t : Nat) (v : Volley) (e : Word) : State :=
  let w := v.group * 32 + evLane e
  (s.pushLoss (eventItem v e .failedSchedule (s.coord t))).nondetAt t w
    (fullTempo ((s.tile t).world w).f (v.tempoBase + evOffset e))

/-! ### Arrivals -/

/-- What follows arrivals and other changes of a tile's inputs: rows pass, runs start. -/
def State.settle (s : State) (t : Nat) : State := (s.feed t).nextRun t

/-- The events of a volley reach tile t (R60, R121, R143). -/
def State.takeEvents (s : State) (t : Nat) (v : Volley) : State :=
  let ws := match v.body with
    | .events ws => ws
    | _ => []
  if v.vc = 2 && s.slotClosed t v.group v.slot then ws.foldl (fun s e => s.lateVolley t v e) s
  else
    let s1 := if v.vc = 2
      then s.modTile t (fun x => { x with got := x.got ++ [(v.slot, v.src.key, v.group, 1)] }) else s
    (ws.foldl (fun s e => s.intakeEvent t v e) s1).settle t

/-- EVENTS: a volley of events is taken from tile t's port (R60, R296). -/
def execEvents (t : Nat) (s : State) : Host.Outcome State Fault Refusal :=
  let isEv := fun (v : Volley) => match v.body with
    | .events _ => true
    | _ => false
  match s.takeInbox t isEv with
  | none => .next s
  | some (v, s1) =>
    if s.tileActive t then .next ((s1.wakeTile t 2 v.src.key).takeEvents t v)
    else .next (s1.loseEvents v (s1.absorbCode v) (s1.coord t))

/-- MERGE_DISPATCH: the oldest open Breeze entry reaches merge_window_hc (R61). -/
def execMergeDispatch (t : Nat) (s : State) : Host.Outcome State Fault Refusal :=
  match (s.tile t).merge.find? (fun m => !m.lockstep) with
  | some m => if s.tileRuns t then .next (s.dispatch t m) else .next s
  | none => .next s

/-! ### Stamp updates (R54, R58, R68, R102) -/

/-- A PSUM for world w at or below stamp c is still on its way to tile t (R68). -/
def State.psumPending (s : State) (t w c : Nat) : Bool :=
  s.fab.mail.any (fun m => m.dst = t && (match m.body with
    | .psum _ _ es => es.any (fun e => e.2.1 = w % 32 && fullTempo c e.2.2.1 ≤ c
        && (((s.tile t).blockOf w e.1).isSome))
    | _ => false))

/-- The engine of tile t is at rest: no run, none due, no update in progress, no stalled emission. -/
def Tile.idle (x : Tile) : Bool := x.run.isNone && x.due.isEmpty && x.upd.isEmpty && x.stalled.isEmpty

/-- Tile t may update stamp F of world w under Breeze (R54, R102). -/
def State.mayUpdate (s : State) (t w : Nat) : Bool :=
  let x := s.tile t
  let c := (x.world w).f
  s.tileRuns t && x.idle && x.resident w && (s.world w).st = .running && !s.groupLockstep t (w / 32)
    && c < (x.world w).t
    && x.upstreamAt w (if s.learns w c then c else c + 1 - tcLookahead x.cfg)
    && !(x.intake.any (fun ev => ev.w = w && x.fullStamp ev + 1 ≤ c))
    && !s.psumPending t w c

/-- The due wheel entries of world w at stamp c become runs; their entries are freed (R58). -/
def Tile.takeDue (x : Tile) (w c : Nat) : Tile :=
  { x with
    due := x.due ++ (x.wheel.filter (fun e => e.w = w && e.due ≤ c)).map (fun e =>
      { w := w, neuron := e.neuron, now := c, input := e.sum, woken := e.woken, reflex := false }),
    wheel := x.wheel.filter (fun e => !(e.w = w && e.due ≤ c)),
    upd := x.upd ++ [(w, c)],
    streaming := false }

/-- The update of stamp c of world w begins in tile t. -/
def State.beginUpdate (s : State) (t w c : Nat) : State :=
  let work := (s.tile t).wheel.any (fun e => e.w = w && e.due ≤ c)
  let s1 := s.modTile t (fun x => x.takeDue w c)
  if work then s1.modTurn w ((s1.world w).turnOf c) (fun i => { i with worked := true }) else s1

/-- STAMP_UPDATE: tile t updates stamp F of world w; F := c + 1 follows the last of its runs (R54). -/
def execStampUpdate (t w : Nat) (s : State) : Host.Outcome State Fault Refusal :=
  if s.mayUpdate t w then .next ((s.beginUpdate t w ((s.tile t).world w).f).nextRun t) else .next s

/-! ### Frontier notices (R55, R298) -/

/-- An upstream entry after a notice. -/
def Upstream.hear (u : Upstream) (f : Nat) (m : Word) : Upstream :=
  { u with frontier := f, mask := m, seen := true, out := false }

/-- FRONTIER: a notice updates the entry of its source and group; a source that is not listed is ignored (R55). -/
def execFrontier (t : Nat) (s : State) : Host.Outcome State Fault Refusal :=
  let isNotice := fun (v : Volley) => match v.body with
    | .frontier _ _ => true
    | _ => false
  match s.takeInbox t isNotice with
  | none => .next s
  | some (v, s1) =>
    match v.body with
    | .frontier f m =>
      if !s.tileActive t then .next s1
      else
        let near := ((s1.tile t).residentLanes v.group).foldl (fun a l => max a (s1.world (v.group * 32 + l)).t) 0
        let s2 := s1.modTile t (fun x => { x with upstream := x.upstream.map (fun u =>
          if u.src = v.src && u.group = v.group then u.hear (fullTempo near f) m else u) })
        .next (s2.groupReports t v.group)
    | _ => .next s1

/-! ### Draft messages from the tempo unit (R30, R134, R309) -/

/-- The message is one for tile t that q accepts. -/
def toTile (t : Nat) (q : MailBody → Bool) (m : Mail) : Bool := m.dst = t && q m.body

/-- The current schedule entry of tile t, once its lanes exist. -/
def State.slotEntry (s : State) (t : Nat) : DWord := (s.curSchedule t).getD (s.tile t).slot 0

/-- Tile t sweeps world w for a notice and acknowledges (R30, R105, R309; log 20 for the message). -/
def State.sweep (s : State) (t w notice : Nat) : State :=
  ((s.sweepRecords t w notice).sweepTimes t w notice).fromRoot (stackOf t) 38 (.sweepAck t w notice)

/-- An age notice of a group that may be swept now: under Lockstep, in a quiet square only (R30). -/
def State.ageReady (s : State) (t : Nat) : MailBody → Bool
  | .ctl (.age w _) => !s.groupLockstep t (w / 32) || schOp (s.slotEntry t) = 6
  | _ => false

/-- AGE: an age notice reaches tile t; one that holds no work has no sweep to make until its RESET (R298). -/
def execAge (t : Nat) (s : State) : Host.Outcome State Fault Refusal :=
  match s.takeMail (toTile t (s.ageReady t)) with
  | some ({ body := .ctl (.age w n), .. }, s1) => if s.tileRuns t then .next ((s1.wakeTile t 3 w).sweep t w n) else .next s1
  | _ => .next s

def isTempoGrant : MailBody → Bool
  | .ctl (.tempoGrant _ _) => true
  | _ => false

/-- TEMPO_GRANT: tile t takes a world's new T and wakes (R134). -/
def execTempoGrant (t : Nat) (s : State) : Host.Outcome State Fault Refusal :=
  match s.takeMail (toTile t isTempoGrant) with
  | some ({ body := .ctl (.tempoGrant w tau), .. }, s1) =>
    if s.tileRuns t then
      .next (((s1.wakeTile t 3 w).modTile t (fun x => x.modWorld w (fun y => { y with t := tau }))).settle t)
    else .next s1
  | _ => .next s

/-! ### Bank background work (R69, R70, R71, R307) -/

/-- A forced refresh or scrub marks the current turn of every resident world non-deterministic (R70). -/
def State.nondetAll (s : State) (t : Nat) : State :=
  (s.tmp.worlds.filter (fun e => (s.tile t).resident e.1 && (e.2.st = .running || e.2.st = .parked))).foldl
    (fun s e => s.nondetAt t e.1 ((s.tile t).world e.1).f) s

/-- Tile t runs a Lockstep schedule and is outside its quiet squares (R70). -/
def State.outsideQuiet (s : State) (t : Nat) : Bool :=
  !(s.curSchedule t).isEmpty && schOp (s.slotEntry t) ≠ 6

/-- A refresh interval of a bank expires (R69, R70): granted at rank 3, postponed while a pass streams, or granted at
rank 1 once 8 intervals have been postponed. -/
def execRefreshDue (t bank : Nat) (s : State) : Host.Outcome State Fault Refusal :=
  let x := s.tile t
  let k := tget 0 bank x.postponed
  if !x.streaming && !s.outsideQuiet t then .next (s.modTile t (fun x => { x with postponed := tset bank 0 x.postponed }))
  else
    let s1 := s.modTile t (fun x => { x with refPostponed := sat 28 x.refPostponed 1 })
    if k + 1 < 8 then .next (s1.modTile t (fun x => { x with postponed := tset bank (k + 1) x.postponed }))
    else
      let s2 := s1.modTile t (fun x => { x with postponed := tset bank 7 x.postponed })
      if s.outsideQuiet t
      then .next ((s2.modTile t (fun x => { x with refForced := sat 32 x.refForced 1 })).nondetAll t) else .next s2

/-- The units of page p of a bank (R44). -/
def pageUnits (bank p : Nat) : List Nat := (List.range 16).map (fun seg => p * 512 + seg * 32 + bank)

/-- A scrub of one unit: corrected words are written back, an uncorrectable one quarantines its unit (R71, R307). -/
def State.scrubUnit (s : State) (t u : Nat) : State :=
  let a := colAddr t (128 * u)
  let s1 := s.unitRead t u
  let s2 : State := { s1 with mem.soft := s1.mem.soft.filter (fun w => !(a / 8 ≤ w && w < a / 8 + 16)) }
  if s2.mem.anyBad a 128 && ((s2.tile t).quarOf u).isNone then s2.unitLost t u 0 [] else s2

/-- One scrub burst: the bank's next page (R69, R71). -/
def State.scrub (s : State) (t bank : Nat) : State :=
  let p := tget 0 bank (s.tile t).scrubPage
  ((pageUnits bank p).foldl (fun s u => s.scrubUnit t u) s).modTile t (fun x =>
    { x with scrubPage := tset bank ((p + 1) % 4096) x.scrubPage })

/-- SCRUB_DEADLINE: the guarantee grants a burst at rank 2, forced outside a quiet square (R69, R70). -/
def execScrubDeadline (t bank : Nat) (s : State) : Host.Outcome State Fault Refusal :=
  let s1 := s.scrub t bank
  if s.outsideQuiet t then
    .next ((s1.modTile t (fun x => { x with scrubForced := sat 32 x.scrubForced 1 })).nondetAll t)
  else .next s1

/-- SCRUB_BURST: an early burst, only while the bank is idle and, under Lockstep, in a quiet square (R69, R70). -/
def execScrubBurst (t bank : Nat) (s : State) : Host.Outcome State Fault Refusal :=
  if (s.tile t).streaming || s.outsideQuiet t then .next s else .next (s.scrub t bank)

/-! ### Fan-out and congestion (R132, R138, R139) -/

/-- LINGER_EXPIRY: linger_hc has passed since the oldest open Breeze volley opened (R132). -/
def execLingerExpiry (t : Nat) (s : State) : Host.Outcome State Fault Refusal :=
  match (s.tile t).openVols.find? (fun o => !s.lockstep o.cls) with
  | some o =>
    .next ((s.modTile t (fun x => { x with openVols := x.openVols.filter (fun p => p ≠ o) })).sendOpen t o)
  | none => .next s

/-- The clock of an endpoint in hc: the last decrease lies less than 4,096 hc back. -/
def Pace.recent (p : Pace) : Bool :=
  match p.lastDec with
  | some c => p.clock < c + 4096
  | none => false

/-- An ECHO with count n reaches an endpoint's pacing (R139). -/
def Pace.echo (p : Pace) (n : Nat) : Pace :=
  let q := { p with lastEcho := some p.clock }
  if n = 0 || p.recent then q else { q with r := max (7 * p.r / 8) 3, lastDec := some p.clock }

/-- ECHO: a headwind echo reaches endpoint ep (R138, R139). -/
def execEcho (ep : Nat) (s : State) : Host.Outcome State Fault Refusal :=
  let isEcho := fun (v : Volley) => match v.body with
    | .echo _ => true
    | _ => false
  match s.takeInbox ep isEcho with
  | none => .next s
  | some (v, s1) =>
    match v.body with
    | .echo n =>
      let s2 := s1.modPace ep (fun p => p.echo n)
      if ep < 2048 then .next (s2.modTile ep (fun x => { x with hwEchoes := sat 16 x.hwEchoes 1 })) else .next s2
    | _ => .next s1

/-- The coordinate a number names (the reverse of `coordNum`). -/
def coordOf (k : Nat) : Coord := { p := k / 4096 % 64, x := k / 64 % 64, y := k % 64 }

/-- ECHO_SEND: the 1,024 hc interval of source src at endpoint t passes; the count goes out when it is above 0 (R138). -/
def execEchoSend (t src : Nat) (s : State) : Host.Outcome State Fault Refusal :=
  let key := t * 2 ^ 18 + src
  let n := tget 0 key s.fab.marked
  if n = 0 then .next s
  else
    let s1 : State := { s with fab.marked := tdel key s.fab.marked }
    .next (s1.send t (s1.mkVolley t (coordOf src) 0 s1.hub.epoch.current 0 1 0 0 (.echo n)))

/-- RATE_RECOVERY: 4,096 hc without an ECHO have passed at endpoint ep (R139). -/
def execRateRecovery (ep : Nat) (s : State) : Host.Outcome State Fault Refusal :=
  .next (s.modPace ep (fun p => { p with r := min (p.r + 2) 174, lastUp := p.clock }))

/-- Tokens in 1/4,096 flit after hc more cycles (R139): the bucket holds 16 flits. -/
def Pace.refill (p : Pace) (hc : Nat) : Pace :=
  { p with clock := p.clock + hc, bucket := min (p.bucket + p.r * hc) 65536 }

/-- TOKEN_BUCKET_REFILL: tokens of hc cycles arrive at endpoint ep, and volleys that waited go out (R132, R139). -/
def execTokenBucketRefill (ep hc : Nat) (s : State) : Host.Outcome State Fault Refusal :=
  let s1 := s.modPace ep (fun p => p.refill hc)
  let s2 := s1.drainPace ep (s1.pace ep).waiting.length
  if ep < 2048 then .next ((s2.unstall ep (s2.tile ep).stalled.length).nextRun ep)
  else if epX ep = 34 then .next (s2.portDrain (epY ep) 512)
  else .next s2

end Sys2Proof.Machine
end

