-- ==== Sys2Proof/Machine/Fabric.lean ====
section
/-! DEFINITION. The mesh router: route, grant, marking, delivery, absorption, and what a stack root does with a control
message (R118, R119, R122, R128, R129, R134, R137, R146, R147, R296, R313). -/

namespace Sys2Proof.Machine

open Sys2Proof

/-! ### The mesh (R119, R128, R129) -/

/-- Physical rows of the package. -/
def Package.rows : Package → Nat
  | .rj2048 => 68 | .rj512 => 68 | .rj128 => 17

/-- The stack of a physical position. -/
def physStack (px py : Nat) : Nat := px / 8 + 4 * (py / 17)

/-- The volley is bound for the hub: another package, or a hub column. -/
def State.hubBound (s : State) (v : Volley) : Bool := v.dst.p ≠ s.hub.p || 32 ≤ v.dst.x

/-- The detour table of the router at (px, py) in a bank. -/
def State.detours (s : State) (px py : Nat) (bank : Bool) : Tab Word :=
  match s.logAt px py with
  | some t => if bank then (s.tile t).detourB else (s.tile t).detourA
  | none => []

/-- The first detour entry that matches a volley. -/
def State.detour (s : State) (px py : Nat) (v : Volley) : Option Nat :=
  let d := if s.hubBound v then (31, 127) else (v.physX, v.physY)
  ((s.detours px py v.epoch).find? (fun e => detourMatches e.2 d.1 d.2)).map (fun e => detourOut e.2)

/-- The output of R128's rule: 0 N, 1 E, 2 S, 3 W, 4 local, 5 spine. North is toward lower y. -/
def State.xyOut (s : State) (px py : Nat) (v : Volley) : Nat :=
  if s.hubBound v then (if 0 < px then 3 else 5)
  else if px < v.physX then 1 else if v.physX < px then 3
  else if py < v.physY then 2 else if v.physY < py then 0
  else 4

def State.outOf (s : State) (px py : Nat) (v : Volley) : Nat := (s.detour px py v).getD (s.xyOut px py v)

/-- The router beyond an output and the input it enters by; none beyond the mesh. -/
def State.beyond (s : State) (px py out : Nat) : Option (Nat × Nat × Nat) :=
  if out = 0 then (if 0 < py then some (px, py - 1, 2) else none)
  else if out = 1 then (if px + 1 < s.pkg.xs then some (px + 1, py, 3) else none)
  else if out = 2 then (if py + 1 < Package.rows s.pkg then some (px, py + 1, 0) else none)
  else if out = 3 then (if 0 < px then some (px - 1, py, 1) else none)
  else none

/-- Flits of the buffers of each VC (R118). -/
def vcCap (vc : Nat) : Nat := if vc = 1 then 8 else 16

def bufFlits (l : List Volley) : Nat := l.foldl (fun a v => a + v.flits) 0

def State.buf (s : State) (px py inp vc : Nat) : List Volley := tget [] (3 * inp + vc) (s.router (rtKey px py)).bufs

/-- The volley can leave by its output: the next buffer has room; the local port and the spine take every volley. -/
def State.canLeave (s : State) (px py : Nat) (v : Volley) : Bool :=
  let o := s.outOf px py v
  if o = 4 || o = 5 then true
  else
    match s.beyond px py o with
    | some (x, y, i) => bufFlits (s.buf x y i v.vc) + v.flits ≤ vcCap v.vc
    | none => false

/-- The header passes the router's check: hcheck and kind (R122, R125). -/
def Volley.valid (v : Volley) : Bool := v.okHeader && v.body.kind < 6

/-- The heads of a router's buffers that wait for an output and could leave. -/
def State.waiting (s : State) (px py out : Nat) : List Volley :=
  (s.router (rtKey px py)).bufs.filterMap (fun e =>
    match e.2 with
    | v :: _ => if v.valid && s.outOf px py v = out && s.canLeave px py v then some v else none
    | [] => none)

/-- The rank of a volley for its grant: VC1, urgent VC0, then VC2 and VC0 in alternation (R119). -/
def grantRank (vc2Next : Bool) (v : Volley) : Nat :=
  if v.vc = 1 then 0 else if v.vc = 0 && v.urgent then 1 else if (v.vc = 2) = vc2Next then 2 else 3

/-- The volley is the one that its output grants next, or shares its rank. -/
def State.granted (s : State) (px py : Nat) (v : Volley) : Bool :=
  let o := s.outOf px py v
  let n := tget false o (s.router (rtKey px py)).vc2Next
  (s.waiting px py o).all (fun u => grantRank n v ≤ grantRank n u)

/-- The alternation after a grant (R119). -/
def State.turnAlt (s : State) (px py out : Nat) (v : Volley) : State :=
  if v.vc = 1 || v.urgent then s
  else
    { s with fab.routers := tmod {} (rtKey px py) (fun r =>
        { r with vc2Next := tset out (decide (v.vc = 0)) r.vc2Next }) s.fab.routers }

/-- Removes the head of a router's buffer. -/
def State.popBuf (s : State) (px py inp vc : Nat) : State :=
  { s with fab.routers := tmod {} (rtKey px py) (fun r =>
      { r with bufs := tmod [] (3 * inp + vc) List.tail r.bufs }) s.fab.routers }

/-! ### Marking (R137) -/

/-- The marking threshold of a router, none where no tile sets one. -/
def State.markThr (s : State) (px py : Nat) : Nat :=
  match s.logAt px py with
  | some t => tcMarkThr (s.tile t).cfg
  | none => 0

/-- Headwind is set at the grant: the VC0 buffer in which it waited held at least mark_thr flits. -/
def State.marksHere (s : State) (px py inp : Nat) (v : Volley) : Bool :=
  v.vc = 0 && !v.headwind && 0 < s.markThr px py && s.markThr px py ≤ bufFlits (s.buf px py inp 0)

/-! ### Absorption and delivery (R117, R146, R147, R296, R313) -/

/-- Old-epoch volleys that a tile's router delivers or absorbs (TILE_RT_OLD_RECV). -/
def State.oldRecvAt (s : State) (px py : Nat) (v : Volley) : State :=
  if s.isOld v then
    match s.logAt px py with
    | some t => s.modTile t (fun x => { x with oldRecv := sat 32 x.oldRecv 1 })
    | none => s
  else s

/-- A volley is absorbed at a router: its events are recorded and it counts as delivered (R147). -/
def State.absorb (s : State) (px py : Nat) (v : Volley) (c : Code) : State :=
  let rep := match s.logAt px py with
    | some t => s.coord t
    | none => s.hubReporter
  ((s.countRecv (physStack px py) v).oldRecvAt px py v).loseEvents v c rep

/-- The stack that a tile-bound volley ends in. -/
def Volley.dstStack (v : Volley) : Nat := physStack v.physX v.physY

/-- The volley meets a lost stack: its destination lies there, or its next router does (R313). -/
def State.meetsLost (s : State) (px py : Nat) (v : Volley) : Bool :=
  (!s.hubBound v && s.stackIsLost v.dstStack)
    || (match s.beyond px py (s.outOf px py v) with
      | some (x, y, _) => s.stackIsLost (physStack x y)
      | none => false)

/-! ### The stack root (R134) -/

/-- The key of a stack root in the message planes. -/
def rootKey (st : Nat) : Nat := 0x2000 + st

/-- The tiles of a stack that the package has. -/
def State.stackTiles (s : State) (st : Nat) : List Nat :=
  ((List.range 128).map (fun i => epKey (8 * (st % 4) + i / 16) (16 * (st / 4) + i % 16))).filter s.tilePresent

/-- The root of stack st carries a control message on as draft frames. -/
def State.rootTake (s : State) (st : Nat) (c : Ctl) : State :=
  let near := fun (w : Nat) => (s.holders w).filter (fun t => stackOf t = st)
  match c with
  | .fence d k _ => { s with flt.notices := s.flt.notices ++ (s.stackTiles st).map (fun t => (t, d, k)) }
  | .age w _ => (near w).foldl (fun s t => s.post t (.ctl c)) s
  | .tempoGrant w _ => (near w).foldl (fun s t => s.post t (.ctl c)) (s.wakeDom (stackDom st) 3 w)
  | .cfgWrite t _ _ _ => s.post t (.ctl c)
  | .cfgRead t _ _ _ => s.post t (.ctl c)
  | .epochNotice .. => s.post (rootKey st) (.ctl c)
  | .powerReq .. => s.post (rootKey st) (.ctl c)
  | _ => s

/-- A volley reaches the local port of the router at (px, py). -/
def State.localPort (s : State) (px py : Nat) (v : Volley) : State :=
  let st := physStack px py
  match v.body with
  | .control true c =>
    if s.domActive (stackDom st) then (s.countRecv st v).rootTake st c else s.countRecv st v
  | _ =>
    match s.logAt px py with
    | some t =>
      if s.tileActive t || v.vc = 1 then (((s.countRecv st v).oldRecvAt px py v).wakeTile t v.wakeKind.1 v.wakeKind.2).deliver t v
      else s.absorb px py v (s.absorbCode v)
    | none => s.absorb px py v .failedAccess

/-- The ROUTE record of a grant (R318); its wait is 0, as the model has no hc (log 16). -/
def State.traceRoute (s : State) (px py out : Nat) (v : Volley) (det mark : Bool) : State :=
  match s.logAt px py with
  | some t =>
    s.traceTile t 6 v.tempoBase v.group false
      (v.dst.y + v.dst.x * 2 ^ 6 + v.dst.p * 2 ^ 12 + v.body.kind * 2 ^ 18)
      [v.vc + out * 2 ^ 2 + b2n det * 2 ^ 5 + b2n mark * 2 ^ 6 + b2n v.epoch * 2 ^ 7]
  | none => s

/-- The granted volley moves. -/
def State.moveVolley (s : State) (px py inp out : Nat) (v : Volley) : State :=
  let mark := s.marksHere px py inp v
  let v1 := { v with headwind := v.headwind || mark }
  let s1 := ((s.popBuf px py inp v.vc).turnAlt px py out v).traceRoute px py out v (s.detour px py v).isSome mark
  if out = 4 then s1.localPort px py v1
  else if out = 5 then s1.toHub v1
  else
    match s1.beyond px py out with
    | some (x, y, i) => (s1.wakeDom (stackDom (physStack x y)) v.wakeKind.1 v.wakeKind.2).enqueue x y i v1
    | none => s1

/-- ROUTE_VOLLEY: the head of a router's input buffer is granted its output, or absorbed; it waits while another is ranked
ahead of it or the next buffer has no room (R119, R122, R125, R128). -/
def execRouteVolley (px py inp vc : Nat) (s : State) : Host.Outcome State Fault Refusal :=
  match s.buf px py inp vc with
  | [] => .next s
  | v :: _ =>
    let rep := match s.logAt px py with
      | some t => s.coord t
      | none => s.hubReporter
    if !v.valid then
      .next (((s.popBuf px py inp vc).countRecv (physStack px py) v).pushLoss (volleyItem v .failedUncorrectable rep))
    else if s.meetsLost px py v then .next ((s.popBuf px py inp vc).absorb px py v (s.absorbCode v))
    else if s.canLeave px py v && s.granted px py v then .next (s.moveVolley px py inp (s.outOf px py v) v)
    else .next s

end Sys2Proof.Machine
end

