-- ==== Sys2Proof/Machine/Commands.lean ====
section
/-! DEFINITION. Command dispatch: taking a command from its rack, its executing unit and targets, and the order in which
commands begin (R155, R210 to R217, R279). -/

namespace Sys2Proof.Machine

open Sys2Proof

/-- Words of a command's opcode that it needs at least (R211); 0 for a reserved opcode. -/
def opWords (op : Nat) : Nat :=
  if op = 0x01 || (0x03 ≤ op && op ≤ 0x04) || op = 0x06 then 2
  else if op = 0x02 || op = 0x05 || op = 0x07 then 3
  else if op = 0x10 || op = 0x3E || op = 0x3F then 1
  else if op = 0x11 || op = 0x18 || op = 0x20 || op = 0x28 || op = 0x30 || op = 0x31 then 2
  else 0

/-- The executing unit (R211): 1 tempo unit, 2 steward, 3 rack gateway, 4 dispatcher. -/
def opUnit (op : Nat) : Nat :=
  if op = 0x01 || op = 0x02 then 1
  else if op = 0x07 then 3
  else if op = 0x3E || op = 0x3F then 4
  else 2

/-- What a command names (R214): worlds, a stream port, a fence domain. -/
def ExecCmd.targets (c : ExecCmd) : List (Nat × Nat) :=
  let w1 := c.words.getD 1 0
  if c.op = 0x01 || (0x03 ≤ c.op && c.op ≤ 0x07) then [(1, wf w1 12 0)]
  else if c.op = 0x02 then
    ((List.range 32).filter (fun l => wf (c.words.getD 2 0) l l = 1)).map (fun l => (1, wf w1 7 0 * 32 + l))
  else if c.op = 0x18 then [(2, wf w1 3 0)]
  else if c.op = 0x30 || c.op = 0x31 then [(3, wf w1 11 0)]
  else []

/-- The commands of c's rack that the dispatcher took before it and that have not completed. -/
def earlierThan (c : ExecCmd) : List ExecCmd → List ExecCmd
  | [] => []
  | d :: r => if d.rk = c.rk && d.seq = c.seq then [] else if d.rk = c.rk then d :: earlierThan c r else earlierThan c r

/-- Command c may begin (R214): no earlier command of its rack for its unit, or for a target it names, is outstanding;
SYNC waits for every earlier one. -/
def State.mayBegin (s : State) (c : ExecCmd) : Bool :=
  (earlierThan c s.hub.executing).all (fun d =>
    c.op ≠ 0x3E && opUnit d.op ≠ opUnit c.op && !(d.targets.any (fun t => c.targets.contains t)))

/-- A command wakes the hub core, and the steward when it executes there (R273, R284). -/
def State.cmdWake (s : State) (op : Nat) : State :=
  if opUnit op = 2 then (s.wakeDom 1 10 op).wakeDom 2 10 op else s.wakeDom 1 10 op

/-- Runs f on the command (rk, seq) when it is one of opcode op that q accepts, has not begun and may begin; a
steward-executed command fails while the steward is in reset (R42, R311). -/
def runCmd (op : Nat) (q : ExecCmd → Bool) (f : State → ExecCmd → State) (rk seq : Nat) (s : State) :
    Host.Outcome State Fault Refusal :=
  match s.findExec rk seq with
  | none => .next s
  | some c =>
    if c.op = op && c.stage = 0 && q c && s.mayBegin c then
      if opUnit op = 2 && s.flt.stwReset then .next (s.complete c .failedStewardReset [])
      else .next (f (s.cmdWake op) c)
    else .next s

/-- A command every unit refuses: an unknown opcode, a nonzero code, too few words, or a reserved operation of TRACE_CFG
or POWER_SET (R210, R288, R329). -/
def badCmd (msg : List DWord) : Bool :=
  let h := msg.headD 0
  let op := wf h 15 8
  let w1 := msg.getD 1 0
  opWords op = 0 || wf h 23 16 ≠ 0 || msg.length < opWords op
    || (op = 0x20 && 6 < wf w1 3 0) || (op = 0x28 && wf w1 1 0 = 3)

/-- The code of a command that is refused at dispatch: a steward-executed opcode meets the steward in reset first. -/
def State.badCode (s : State) (msg : List DWord) : Code :=
  let op := wf (msg.headD 0) 15 8
  if s.flt.stwReset && (op = 0x20 || op = 0x28) && wf (msg.headD 0) 23 16 = 0 && 2 ≤ msg.length
  then .failedStewardReset else .failedAccess

/-- The head command of rack rk, taken with an entry reserved in completion rack cpl (R155). -/
def State.takeCmd (s : State) (rk cpl : Nat) (msg : List DWord) : State × ExecCmd :=
  let h := msg.headD 0
  let c : ExecCmd := { rk := rk, seq := wf h 63 32, src := wf h 7 2, op := wf h 15 8, words := msg, stage := 0 }
  let s1 := (s.rackDrop rk).modRack cpl (fun r => { r with reserved := r.reserved + 1 })
  ({ s1 with hub.executing := s1.hub.executing ++ [c] }, c)

/-- COMMAND_DISPATCH (R155, R210, R217): takes the head of command rack rk once an entry of its completion rack can be
reserved; a command that a link drop has failed completes with FAILED_LINK, and one that no unit takes with
FAILED_ACCESS. -/
def execCommandDispatch (rk : Nat) (s : State) : Host.Outcome State Fault Refusal :=
  match s.ldOfRack rk with
  | none => .next s
  | some n =>
    if !s.isReady || s.pwr.dispatchOff then .next s
    else
      let s1 := s.rackReady rk
      match (s1.rack rk).msgs with
      | [] => .next s1
      | msg :: _ =>
        let cpl := (s1.ld n).cplRack
        if (s1.rack cpl).free = 0 then .next s1
        else
          let t := s1.takeCmd rk cpl msg
          let failing := tget 0 rk s1.hub.failedHeads
          if 0 < failing then
            .next (({ t.1 with hub.failedHeads := tset rk (failing - 1) t.1.hub.failedHeads }).complete t.2 .failedLink [])
          else if badCmd msg then .next (t.1.complete t.2 (s1.badCode msg) [])
          else .next t.1

/-- SYNC: completes once every earlier command of its rack has completed; it needs USE on its command rack (R211,
R214). -/
def execSync (rk seq : Nat) (s : State) : Host.Outcome State Fault Refusal :=
  runCmd 0x3E (fun _ => true) (fun s c =>
    s.complete c (if s.has c.src (.rack rk) .use then .done else .failedAccess) []) rk seq s

/-- NOP of a command rack (R211): it completes with DONE. -/
def execHostNop (rk seq : Nat) (s : State) : Host.Outcome State Fault Refusal :=
  runCmd 0x3F (fun _ => true) (fun s c =>
    s.complete c (if s.has c.src (.rack rk) .use then .done else .failedAccess) []) rk seq s

end Sys2Proof.Machine
end

