-- ==== Sys2Proof/Machine/Epochs.lean ====
section
/-! DEFINITION. Epoch flips: EPOCH_FLIP, notices, acknowledgements, the drain's totals and the release of the old bank
(R144 to R147, R311). -/

namespace Sys2Proof.Machine

open Sys2Proof

/-! ### Accepting a flip (R144, R145) -/

/-- The flip turn of the running worlds of group g: the turn after the highest open one. -/
def State.flipTurnOf (s : State) (g : Nat) : Nat := ((s.runningOf g).map (fun w => (s.world w).opened)).foldl max 0

/-- World w gets its flip turn, and every stack that holds it a notice (R145). -/
def State.flipWorld (s : State) (w f : Nat) : State :=
  let sts := s.holderStacks w
  sts.foldl (fun s st => s.toRoot tempoEp st (.epochNotice w f s.hub.epoch.current))
    (s.modWorld w (fun x => { x with flipTurn := some f, flipAcks := sts }))

/-- The banks change over (R144, R145). -/
def State.startFlip (s : State) (cmd : Nat × Nat) : State :=
  let ws := (s.tmp.worlds.filter (fun e => e.2.st = .running)).map (·.1)
  let fs := ws.map (fun w => (w, s.flipTurnOf (w / 32)))
  let s1 : State := { s with
    hub.epoch := { s.hub.epoch with
      state := 1, current := !s.hub.epoch.current, loaded := false, endsSent := [], ends := [], cmd := some cmd,
      sent := [], recv := [], told := [], lost := [] }
    tiles := s.tiles.map (fun (e : Nat × Tile) => (e.1, { e.2 with oldSent := 0, oldRecv := 0 })) }
  fs.foldl (fun s e => s.flipWorld e.1 e.2) s1

/-- EPOCH_FLIP (R144); it waits for an amendment in hand, but not while the steward is in reset (R268, R311). -/
def execEpochFlip (rk seq : Nat) (s : State) : Host.Outcome State Fault Refusal :=
  if s.boot.amending.isSome && !s.flt.stwReset then .next s
  else runCmd 0x10 (fun _ => true) (fun s c =>
    if !s.has c.src .hubBlock .admin then s.complete c .failedAccess []
    else if s.hub.epoch.state ≠ 0 || !s.hub.epoch.loaded then s.complete c .busy []
    else (s.startFlip (rk, seq)).begun c) rk seq s

/-! ### Notices and acknowledgements (R145) -/

def isEpochNotice : MailBody → Bool
  | .ctl (.epochNotice ..) => true
  | _ => false

/-- EPOCH_NOTICE: the root of stack st tells its tiles, and acknowledges. -/
def execEpochNotice (st : Nat) (s : State) : Host.Outcome State Fault Refusal :=
  match s.takeMail (toTile (rootKey st) isEpochNotice) with
  | some ({ body := .ctl (.epochNotice w _ _), .. }, s1) => .next (s1.fromRoot st 36 (.epochAck st w))
  | _ => .next s

/-- The volley is a control message that q accepts. -/
def isCtl (q : Ctl → Bool) (v : Volley) : Bool :=
  match v.body with
  | .control _ c => q c
  | _ => false

def isEpochAck : Ctl → Bool
  | .epochAck .. => true
  | _ => false
def isEpochEnd : Ctl → Bool
  | .epochEnd .. => true
  | _ => false
def isDrainDelta : Ctl → Bool
  | .drainDelta .. => true
  | _ => false

/-- EPOCH_ACK: a stack's acknowledgement is in (R145). -/
def execEpochAck (s : State) : Host.Outcome State Fault Refusal :=
  match s.takeInbox stewardEp (isCtl isEpochAck) with
  | some (v, s1) =>
    match v.body with
    | .control _ (.epochAck st w) =>
      .next (s1.modWorld w (fun x => { x with flipAcks := x.flipAcks.filter (· ≠ st) }))
    | _ => .next s1
  | none => .next s

/-! ### The drain (R146, R311) -/

/-- Tile t stamps only the new epoch and holds no volley of the old one. -/
def State.tileNew (s : State) (t : Nat) : Bool :=
  let x := s.tile t
  let b := s.hub.epoch.current
  !s.tileRuns t
    || ((s.tmp.worlds.all (fun e => !x.resident e.1 || s.tileBank t e.1 = b))
      && x.openVols.all (fun o => o.epoch = b) && x.pace.waiting.all (fun v => v.epoch = b))

/-- The hub endpoints stamp only the new epoch. -/
def State.hubNew (s : State) : Bool :=
  let b := s.hub.epoch.current
  s.tmp.worlds.all (fun e => s.hubBank e.1 = b) && s.fab.hubPace.all (fun p => p.2.waiting.all (fun v => v.epoch = b))

/-- The stacks that booted and are not lost. -/
def State.liveStacks (s : State) : List Nat := s.pkg.stacks.filter (fun st => !s.boot.absentStacks.contains st && !s.stackIsLost st)

/-- The senders of totals: those stacks, and the hub (16). -/
def State.drainers (s : State) : List Nat := s.liveStacks ++ [16]

/-- Sender k stamps only the new epoch. -/
def State.senderNew (s : State) (k : Nat) : Bool := if k = 16 then s.hubNew else (s.stackTiles k).all s.tileNew

/-- Sender k sends a message to the steward: a stack root on VC1, the hub at its own port. -/
def State.toSteward (s : State) (k : Nat) (c : Ctl) : State :=
  if k = 16 then
    s.deliver stewardEp (s.mkVolley tempoEp { p := s.hub.p, x := 36, y := 0 } 0 s.hub.epoch.current 0 1 0 0 (.control false c))
  else s.fromRoot k 36 c

/-- The senders whose condition holds send EPOCH_END. -/
def State.sendEnds (s : State) : State :=
  if s.hub.epoch.state = 0 then s
  else
    (s.drainers.filter (fun k => !s.hub.epoch.endsSent.contains k && s.senderNew k)).foldl (fun s k =>
      ({ s with hub.epoch.endsSent := k :: s.hub.epoch.endsSent } : State).toSteward k
        (.epochEnd k (tget 0 k s.hub.epoch.sent))) s

/-- The senders that have sent EPOCH_END and whose received total has risen send DRAIN_DELTA. -/
def State.sendDeltas (s : State) : State :=
  (s.hub.epoch.endsSent.filter (fun k => tget 0 k s.hub.epoch.told < tget 0 k s.hub.epoch.recv)).foldl (fun s k =>
    ({ s with hub.epoch.told := tset k (tget 0 k s.hub.epoch.recv) s.hub.epoch.told } : State).toSteward k
      (.drainDelta k (tget 0 k s.hub.epoch.recv - tget 0 k s.hub.epoch.told))) s

/-- The steward adds a total to the drain pip; while it is in reset, the hub core keeps the sum (R146, R311). -/
def State.drainAdd (s : State) (n : Int) : State :=
  if s.flt.stwReset then { s with hub.epoch.heldSum := s.hub.epoch.heldSum + n }
  else if n = 0 then s
  else s.internalAdd 1 s.hub.epoch.drainPip (BitVec.ofInt 32 n)

/-- Every EPOCH_END is in; that of a lost stack is taken as given (R313). -/
def State.allEnds (s : State) : Bool := s.drainers.all (fun k => s.hub.epoch.ends.contains k || s.hub.epoch.lost.contains k)

/-- The volleys that a stack lost during the flip held cannot be counted: once every live stack has sent its total, the
steward sets the drain pip to 0 and writes one DOMAIN record for the stack. -/
def State.drainLost (s : State) : State :=
  let s1 := s.hub.epoch.lost.foldl (fun s st =>
    s.pushLoss { code := .failedEpoch, kind := 0x8, w := none, reporter := s.hubReporter, a := 0,
                 b := BitVec.ofNat 64 (stackDom st), ext := none, stamp := none, sampled := false }) s
  if s.hub.epoch.lost.isEmpty then s
  else
    let s2 := s1.internalAdd 1 s.hub.epoch.drainPip (-(s.pip s.hub.epoch.drainPip).count)
    { s2 with hub.epoch.lost := [] }

/-- The drain ends when every EPOCH_END is in and the pip stands at 0: the old bank is released (R146). -/
def State.drainCheck (s0 : State) : State :=
  if s0.hub.epoch.state = 0 || s0.flt.stwReset || !s0.allEnds then s0
  else
  let s := s0.drainLost
  if (s.pip s.hub.epoch.drainPip).count = 0 then
    let cmd := s.hub.epoch.cmd
    let s1 : State := { s with
      hub.epoch := { s.hub.epoch with state := 0, flips := sat 32 s.hub.epoch.flips 1, cmd := none }
      tmp.worlds := s.tmp.worlds.map (fun (e : Nat × World) => (e.1, { e.2 with flipTurn := none, flipAcks := [] })) }
    match cmd with
    | some (rk, seq) => s1.completeAt rk seq .done []
    | none => s1
  else { s with hub.epoch.state := 2 }

/-- EPOCH_END: roots whose tiles stamp only the new epoch send their totals, and a total that has reached the steward is
added to the drain pip (R146). -/
def execEpochEnd (s : State) : Host.Outcome State Fault Refusal :=
  let s0 := s.sendEnds
  match s0.takeInbox stewardEp (isCtl isEpochEnd) with
  | some (v, s1) =>
    match v.body with
    | .control _ (.epochEnd k n) =>
      .next (({ s1 with hub.epoch.ends := k :: s1.hub.epoch.ends } : State).drainAdd n |>.drainCheck)
    | _ => .next s1
  | none => .next s0

/-- DRAIN_DELTA: roots whose received totals have risen send the rise, and one that has reached the steward is subtracted
from the drain pip (R146). -/
def execDrainDelta (s : State) : Host.Outcome State Fault Refusal :=
  let s0 := s.sendDeltas
  match s0.takeInbox stewardEp (isCtl isDrainDelta) with
  | some (v, s1) =>
    match v.body with
    | .control _ (.drainDelta _ n) => .next ((s1.drainAdd (-Int.ofNat n)).drainCheck)
    | _ => .next s1
  | none => .next s0.drainCheck

end Sys2Proof.Machine
end

