-- ==== Sys2Proof/Machine/Bindings.lean ====
section
/-! DEFINITION. Rack bindings and internal pip adds by message (R151, R154, R156, R163, R167). -/

namespace Sys2Proof.Machine

open Sys2Proof

/-! ### Rack bindings -/

def bindRack (b : Word) : Nat := fb b.toNat 7 0
def bindToRack (b : Word) : Bool := b.getLsbD 8
def bindToSnapshot (b : Word) : Bool := b.getLsbD 9

/-- The master of the endpoint that sent a volley (R151): a tile's stack, a stream port, the span link it entered by (the
route toward its package; log 40), or M01. -/
def State.senderMaster (s : State) (c : Coord) : Nat :=
  if c.p ≠ s.hub.p then 0x34 + (s.spanRouteTo c.p).getD 0
  else if c.x < 32 then 0x24 + stackOf (epKey c.x c.y)
  else if c.x = 34 then 0x14 + c.y
  else 1

/-- A channel entry takes an event: the highest stamp, and the larger value between equal stamps (R163). `full`: the
event's tempo; the entry holds the tempo while its turn is open, and 20 bits of it once read. -/
def Chan.take (x : Chan) (value full : Nat) : Chan :=
  { value := if !x.valid || x.stamp < full then value else if x.stamp = full then max x.value value else x.value,
    stamp := if x.valid then max x.stamp full else full, valid := true, count := sat 16 x.count 1 }

/-- A WORLD_OUTPUT message is posted when more than hub_reserve entries are free, else dropped with OUTPUT_LOST in the
event's turn (R154, R156, R163). -/
def State.worldOutput (s : State) (r src w ch value full : Nat) : State :=
  let body := [BitVec.ofNat 64 (w + ch * 2 ^ 13 + value * 2 ^ 26 + full % 2 ^ 20 * 2 ^ 34)]
  let msg := recHeader 0x86 .done body :: body
  if (s.rack r).hubReserve < (s.rack r).free then
    (s.traceRack r 5 src .done 0x86 (s.rack r).next.toNat).rackPut r src msg
  else (s.dropMsg r src (some w) msg).modTurn w ((s.world w).turnOf full) (fun i => { i with outputLost := true })

/-- One EVENTS word at binding y. -/
def State.bindWord (s : State) (y : Nat) (v : Volley) (e : Word) : State :=
  let b := tget (0 : Word) y s.racks.bindings
  let w := v.group * 32 + evLane e
  let full := fullTempo (s.world w).t ((v.tempoBase + evOffset e) % 2 ^ 20)
  let s1 := if bindToRack b
    then s.worldOutput (bindRack b) (s.senderMaster v.src) w (evRow e) (evValue e) full else s
  if bindToSnapshot b then
    s1.modTurn w ((s.world w).turnOf full) (fun i =>
      { i with chans := tmod {} (evRow e) (fun c => c.take (evValue e) full) i.chans })
  else s1

/-- RACK_BINDING_EVENT: binding y takes a volley of events from its endpoint. -/
def execRackBindingEvent (y : Nat) (s : State) : Host.Outcome State Fault Refusal :=
  match s.takeInbox (epKey 32 y) (fun v => match v.body with
    | .events _ => true
    | _ => false) with
  | some (v, s1) =>
    match v.body with
    | .events ws => .next (ws.foldl (fun s e => s.bindWord y v e) s1)
    | _ => .next s1
  | none => .next s

/-! ### PIP_ADD messages -/

def isPipAdd : Ctl → Bool
  | .pipAdd .. => true
  | _ => false

/-- PIP_ADD_MESSAGE: an add from a stack root reaches the pip store, applied or refused on behalf of its sender. -/
def execPipAddMessage (s : State) : Host.Outcome State Fault Refusal :=
  match s.takeInbox (epKey 33 0) (isCtl isPipAdd) with
  | some (v, s1) =>
    match v.body with
    | .control _ (.pipAdd p n by_) => .next (s1.internalAdd by_ p n)
    | _ => .next s1
  | none => .next s

end Sys2Proof.Machine
end

