-- ==== Sys2Proof/Machine/Stripe.lean ====
section
/-! DEFINITION. Striped space: where a line and its parity lie, and what the gateway reads and writes for an access in each
stripe state (R187, R188, R190). -/

namespace Sys2Proof.Machine

open Sys2Proof

def State.poolWin (s : State) (i : Nat) : PoolWin := tget (0, 0) i s.pool.windows

/-- The pool address of a line of a window. -/
def winAddr (x : PoolWin) (line : Nat) : Nat := winBase x + 64 * line

/-- A number that names the pool line, whatever window reaches it. -/
def lineKey (x : PoolWin) (line : Nat) : Nat :=
  (if winStriped x then 16 else winExpander x) * 2 ^ 48 + winAddr x line / 64

/-- The pool line lies in the window. -/
def inWindow (x : PoolWin) (key : Nat) : Bool := lineKey x 0 ≤ key && key < lineKey x 0 + winSize x / 64

/-! ### The map (R187) -/

/-- Striped-space row and data index of offset a over n members. -/
def stripeRow (n a : Nat) : Nat := a / 4096 / (n - 1)
def stripeData (n a : Nat) : Nat := a / 4096 % (n - 1)
def parityMember (n r : Nat) : Nat := n - 1 - r % n
def dataMember (n r d : Nat) : Nat := (parityMember n r + 1 + d) % n
def deviceAddr (n a : Nat) : Nat := 0x1_0000 + stripeRow n a * 4096 + a % 4096

/-- The rows of striped space: the smallest member's size less 64 KiB, in whole chunks. -/
def Pool.rowCount (p : Pool) : Nat :=
  match p.members.map (fun e => (Config.expanderSize e - 0x1_0000) / 4096) with
  | [] => 0
  | c :: r => r.foldl min c

/-- The expander that holds member m's chunk of row r: the member itself, or the spare for a row of a failed member that
the rebuild has passed; none while the chunk is missing (R190). -/
def Pool.loc (p : Pool) (r m : Nat) : Option Nat :=
  if p.failedMore.contains m then none
  else if p.failed = some m then (if (p.stripe = 2 || p.stripe = 3) && r < p.cursor then p.spare else none)
  else p.members[m]?

/-- The members whose chunk of row r is missing. -/
def Pool.missing (p : Pool) (r : Nat) : List Nat := (List.range p.members.length).filter (fun m => (p.loc r m).isNone)

/-- The accesses to the other members' lines at one device address. -/
def Pool.others (p : Pool) (r m addr : Nat) : List (Nat × Nat) :=
  ((List.range p.members.length).filter (fun k => k ≠ m)).filterMap (fun k => (p.loc r k).map (fun e => (e, addr)))

/-! ### Plans (R188, R190) -/

/-- A read of a line; none where two chunks of its row are missing. -/
def Pool.planRead (p : Pool) (x : PoolWin) (win line : Nat) (cached : Bool) (agents : List Nat) : Option PoolOp :=
  let op : PoolOp := { win := win, line := line, cached := cached, agents := agents, grp := none, plan := 0,
                       reads := [(winExpander x, winAddr x line)], got := [], new := none, writes := [] }
  if !winStriped x then some op
  else
    let n := p.members.length
    let a := winAddr x line
    let r := stripeRow n a
    let m := dataMember n r (stripeData n a)
    match p.loc r m with
    | some e => some { op with reads := [(e, deviceAddr n a)] }
    | none => if (p.missing r).length ≤ 1 then some { op with plan := 2, reads := p.others r m (deviceAddr n a) } else none

/-- The line is reconstructed from the survivors. -/
def PoolOp.recon (o : PoolOp) : Bool := o.new.isNone && o.plan = 2

/-- A write of a line; none where two chunks of its row are missing. The parity line of a group is owned by one write at a
time (`grp`). -/
def Pool.planWrite (p : Pool) (x : PoolWin) (win line : Nat) (cached : Bool) (agents : List Nat) (d : BitVec 512) :
    Option PoolOp :=
  let op : PoolOp := { win := win, line := line, cached := cached, agents := agents, grp := none, plan := 0, reads := [],
                       got := [], new := some d, writes := [(winExpander x, winAddr x line, d)] }
  if !winStriped x then some op
  else
    let n := p.members.length
    let a := winAddr x line
    let r := stripeRow n a
    let m := dataMember n r (stripeData n a)
    let q := parityMember n r
    let addr := deviceAddr n a
    let g := { op with grp := some (addr / 64), writes := [] }
    if 2 ≤ (p.missing r).length then none
    else
      match p.loc r m, p.loc r q with
      | some e, some f => some { g with plan := 1, reads := [(e, addr), (f, addr)] }
      | some e, none => some { g with writes := [(e, addr, d)] }
      | none, some f =>
        some { g with plan := if p.stripe = 2 then 2 else 3,
                      reads := (f, addr) :: (p.others r m addr).filter (fun k => k.1 ≠ f) }
      | none, none => none

def xorAll (ls : List (BitVec 512)) : BitVec 512 := ls.foldl (· ^^^ ·) 0

/-- The writes of a striped write once its reads are in: P := P ^ old ^ new, the data line and then the parity line. -/
def Pool.writesOf (p : Pool) (x : PoolWin) (o : PoolOp) (d : BitVec 512) : List (Nat × Nat × BitVec 512) :=
  let n := p.members.length
  let a := winAddr x o.line
  let r := stripeRow n a
  let addr := deviceAddr n a
  let mk := fun (k : Option Nat) (v : BitVec 512) => (k.map (fun e => (e, addr, v))).toList
  let parity := p.loc r (parityMember n r)
  if o.plan = 1 then
    mk (p.loc r (dataMember n r (stripeData n a))) d ++ mk parity (o.got.getD 1 0 ^^^ o.got.getD 0 0 ^^^ d)
  else
    (if o.plan = 2 then mk p.spare d else []) ++ mk parity (o.got.getD 0 0 ^^^ xorAll o.got ^^^ d)

/-- A read value comes in; when the reads of a striped write are all in, its writes follow. -/
def Pool.readIn (p : Pool) (x : PoolWin) (o : PoolOp) (v : BitVec 512) : PoolOp :=
  let o1 := { o with reads := o.reads.tail, got := o.got ++ [v] }
  match o1.new with
  | some d => if o1.reads.isEmpty then { o1 with writes := p.writesOf x o1 d } else o1
  | none => o1

end Sys2Proof.Machine
end

