-- ==== Sys2Proof/Machine/Pool.lean ====
section
/-! DEFINITION. The pool gateway and its directory: requests, grants, writebacks, recalls, snoops, the operations on the
expanders, the loss of the pool link, and fences (R178, R179, R181 to R184, R188, R190, R295). -/

namespace Sys2Proof.Machine

open Sys2Proof

/-! ### Agents and the link -/

/-- The master of an agent: a stack, or the steward (R181). -/
def agentMaster (a : Nat) : Nat := if a < 16 then 0x24 + a else 1

/-- Lines in an agent's cache: 2 MiB, or 256 KiB for the steward. -/
def cacheCap (a : Nat) : Nat := if a < 16 then 32768 else 4096

/-- The agent's domain is ACTIVE. -/
def State.agentLive (s : State) (a : Nat) : Bool := 16 ≤ a || s.domActive (stackDom a)

/-- Pool traffic has a CXL link: port 0 while it is up, else port 1 of an RJ-2048 (R195). -/
def State.poolUp (s : State) : Bool := (s.link 0).state = 2 || (s.pkg = .rj2048 && (s.link 1).state = 2)

/-- The key of a line of a window. -/
def State.poolKey (s : State) (win line : Nat) : Nat := lineKey (s.poolWin win) line

def State.cache (s : State) (a : Nat) : List CacheLine := tget [] a s.pool.caches

/-- The agent's copy of a pool line. -/
def State.cached (s : State) (a key : Nat) : Option CacheLine :=
  (s.cache a).find? (fun c => s.poolKey c.win c.line = key)

/-- The agent's copy is replaced, or dropped. -/
def State.setCached (s : State) (a key : Nat) (c : Option CacheLine) : State :=
  { s with pool.caches := tset a (c.toList ++ (s.cache a).filter (fun k => s.poolKey k.win k.line ≠ key)) s.pool.caches }

/-- An agent's request ends with a code and no grant. -/
def State.agentFail (s : State) (a : Nat) (c : Code) : State :=
  { s with pool.agentRes := tset a c s.pool.agentRes }

/-- The LINE record of a pool line (R302). -/
def State.lineItem (s : State) (win line : Nat) (c : Code) : LossItem :=
  { code := c, kind := 0x6, w := none, reporter := { p := s.hub.p, x := 35, y := 0 }, a := win,
    b := BitVec.ofNat 64 (1 + 64 * line), ext := none, stamp := none, sampled := false }

/-- A POOLDIR record (R318): message, agent (17 the pool), queued, the entry's state after. -/
def State.tracePool (s : State) (win line msg agent : Nat) (queued : Bool) (st : Nat) : State :=
  s.traceHub 35 9 (line % 2 ^ 32) [win + msg * 2 ^ 6 + agent * 2 ^ 10 + b2n queued * 2 ^ 15, st] (.poolWin win)

/-! ### Entries -/

def State.entry (s : State) (key : Nat) : Option DirEntry := s.pool.dir.find? (fun e => e.key = key)

def State.modEntry (s : State) (key : Nat) (f : DirEntry → DirEntry) : State :=
  { s with pool.dir := s.pool.dir.map (fun e => if e.key = key then f e else e) }

def State.entrySt (s : State) (key : Nat) : Nat := ((s.entry key).map (·.st)).getD 0

/-- Lines in transaction (R183). -/
def State.transCount (s : State) : Nat := (s.pool.dir.filter (fun e => e.trans.isSome)).length

/-- The directory sends a message to an agent. -/
def State.tell (s : State) (a win line : Nat) (msg : DirMsg) : State :=
  let k := match msg with
    | .grantS _ => 5
    | .grantX _ _ => 6
    | .wbDone => 7
    | .recall => 8
    | .inv => 9
  ({ s with pool.toAgent := s.pool.toAgent ++ [(a, win, line, msg)] } : State).tracePool win line k a false
    (s.entrySt (s.poolKey win line))

/-- An answer to a snoop of an expander: 0 I, 1 S, 2 E; flushes and evictions have none (R184). -/
def State.answer (s : State) (win line kind rsp : Nat) : State :=
  if 3 ≤ kind then s
  else
    ({ s with pool.birsp := some (win, line, rsp) } : State).tracePool win line 12 17 false (s.entrySt (s.poolKey win line))

/-- What a snoop that recalled the owner or invalidated the sharers is answered (R184; log 43): BISnpCur lets the package
keep its ownership at the pool. -/
def snoopRsp (kind : Nat) (wasOwned : Bool) : Nat := if kind = 0 && wasOwned then 2 else 0

/-! ### Operations on the expanders -/

/-- An operation is issued. -/
def State.issue (s : State) (o : PoolOp) : State :=
  { s with pool.ops := s.pool.ops ++ [o], pool.recon := if o.recon then sat 32 s.pool.recon 1 else s.pool.recon }

/-- A grant: the agent becomes a sharer or the owner, and the entry is released (R182, R183). -/
def State.grant (s : State) (e : DirEntry) (r : DirReq) (d : BitVec 512) (dirty : Bool) : State :=
  if !s.agentLive r.agent then s.modEntry e.key (fun x => { x with trans := none })
  else
    (s.modEntry e.key (fun x =>
      { x with trans := none, st := if r.excl then 2 else 1,
               holders := if r.excl then [r.agent] else r.agent :: x.holders.filter (· ≠ r.agent) })).tell
      r.agent e.win e.line (if r.excl then .grantX d dirty else .grantS d)

/-- A pool read for a request: it is issued, or the request ends with FAILED_LINK or FAILED_UNCORRECTABLE (R190). -/
def State.startRead (s : State) (e : DirEntry) (r : DirReq) : State :=
  if !s.poolUp then (s.modEntry e.key (fun x => { x with trans := none })).agentFail r.agent .failedLink
  else
    match s.pool.planRead (s.poolWin e.win) e.win e.line true [r.agent] with
    | some o => (s.modEntry e.key (fun x => { x with trans := some (.read r) })).issue o
    | none =>
      ((s.modEntry e.key (fun x => { x with trans := none })).agentFail r.agent .failedUncorrectable).pushLoss
        (s.lineItem e.win e.line .failedUncorrectable)

/-- What follows the write of a line into the pool for entry e: a writeback's WB_DONE and the first request's grant from the
buffer, or the end of a recall (R183, R184). -/
def State.written (s : State) (e : DirEntry) : State :=
  match e.trans with
  | some (.writeback a d) =>
    let s1 := (s.modEntry e.key (fun x => { x with trans := none, st := 0, holders := [] })).tell a e.win e.line .wbDone
    (match e.snoops, e.queue with
      | [], r :: rs => (s1.modEntry e.key (fun x => { x with queue := rs })).grant { e with holders := [] } r d false
      | _, _ => s1)
  | some (.store d (.req r)) => s.grant e r d false
  | some (.store _ (.snoop k)) =>
    (s.modEntry e.key (fun x => { x with trans := none })).answer e.win e.line k (snoopRsp k true)
  | _ => s

/-- A pool write of data for entry e; where two chunks are missing it is discarded and recorded (R190). -/
def State.startWrite (s : State) (e : DirEntry) (d : BitVec 512) : State :=
  match s.pool.planWrite (s.poolWin e.win) e.win e.line true [] d with
  | some o => s.issue o
  | none => (s.pushLoss (s.lineItem e.win e.line .failedUncorrectable)).written e

/-- Every holder of entry e is recalled or invalidated, for a reason (R182). -/
def State.recallAll (s : State) (e : DirEntry) (hs : List Nat) (why : Why) : State :=
  hs.foldl (fun s a => s.tell a e.win e.line (if e.st = 2 then .recall else .inv))
    (s.modEntry e.key (fun x => { x with trans := some (.await hs none why) }))

/-- Every answer to a recall is in: the line goes to the request with the data of the ACK, or the snoop is answered
(R183, R184). -/
def State.answered (s : State) (e : DirEntry) (d : Option (BitVec 512)) (why : Why) : State :=
  let s1 := s.modEntry e.key (fun x => { x with st := 0, holders := [], trans := none })
  let e1 := { e with st := 0, holders := [] }
  match why, d with
  | .req r, some v =>
    if r.excl then s1.grant e1 r v true
    else
      let e2 := { e1 with trans := some (.store v (.req r)) }
      (s1.modEntry e.key (fun x => { x with trans := e2.trans })).startWrite e2 v
  | .req r, none => s1.startRead e1 r
  | .snoop k, some v =>
    let e2 := { e1 with trans := some (.store v (.snoop k)) }
    (s1.modEntry e.key (fun x => { x with trans := e2.trans })).startWrite e2 v
  | .snoop k, none => s1.answer e.win e.line k (snoopRsp k (e.st = 2))

/-- The directory serves a line that is in no transaction: snoops go ahead of requests, one at a time (R183, R184). -/
def State.serve (s : State) (key : Nat) : Nat → State
  | 0 => s
  | n + 1 =>
    match s.entry key with
    | none => s
    | some e =>
      if e.trans.isSome then s
      else
        match e.snoops, e.queue with
        | k :: ks, _ =>
          let s1 := s.modEntry key (fun x => { x with snoops := ks })
          if e.st = 2 || (e.st = 1 && 2 ≤ k) then s1.recallAll e e.holders (.snoop k)
          else (s1.answer e.win e.line k (if e.st = 1 then 1 else 0)).serve key n
        | [], r :: rs =>
          let s1 := s.modEntry key (fun x => { x with queue := rs })
          let os := if e.st = 2 then e.holders else if r.excl then e.holders.filter (· ≠ r.agent) else []
          if os.isEmpty then (s1.startRead e r).serve key n else s1.recallAll e os (.req r)
        | [], [] =>
          if e.holders.isEmpty then { s with pool.dir := s.pool.dir.filter (fun x => x.key ≠ key) } else s

/-- Serves a line with fuel for all that waits for it. -/
def State.serveLine (s : State) (key : Nat) : State :=
  match s.entry key with
  | some e => s.serve key (e.snoops.length + e.queue.length + 1)
  | none => s

/-- A full directory set evicts an entry by recalling its line (R178 section); the set's size is not stated, so whether it
is full and which entry goes are free (log 9). -/
def State.evictOne (s : State) : State :=
  let vs := s.pool.dir.filter (fun e => e.trans.isNone && !e.holders.isEmpty)
  let s1 : State := { s with freeCtr := s.freeCtr + 1 }
  if !Config.freeBit s.freeCtr then s1
  else
    match vs[Config.freeIndex s.freeCtr % vs.length]? with
    | some e =>
      (({ s1 with pool.dirRecall := sat 32 s1.pool.dirRecall 1 } : State).modEntry e.key (fun x =>
        { x with snoops := x.snoops ++ [4] })).serveLine e.key
    | none => s1

/-- A request joins its line's queue, or waits in the bulk plane while 256 lines are in transaction (R183). -/
def State.request (s : State) (win line : Nat) (r : DirReq) : State :=
  let key := s.poolKey win line
  match s.entry key with
  | some e =>
    if e.trans.isNone && 256 ≤ s.transCount then { s with pool.waitingReqs := s.pool.waitingReqs ++ [(win, line, r)] }
    else (s.modEntry key (fun x => { x with queue := x.queue ++ [r] })).serveLine key
  | none =>
    if 256 ≤ s.transCount then { s with pool.waitingReqs := s.pool.waitingReqs ++ [(win, line, r)] }
    else
      let s1 := s.evictOne
      ({ s1 with pool.dir := s1.pool.dir ++ [{ key := key, win := win, line := line, queue := [r] }] } : State).serveLine key

/-- Requests that waited in the bulk plane are taken in order while lines may enter a transaction. -/
def State.admitWaiting (s : State) : Nat → State
  | 0 => s
  | n + 1 =>
    match s.pool.waitingReqs with
    | [] => s
    | (win, line, r) :: rest =>
      if 256 ≤ s.transCount then s
      else (({ s with pool.waitingReqs := rest } : State).request win line r).admitWaiting n

/-- The line is served again after a transaction, and the bulk plane's waiting requests after it. -/
def State.release (s : State) (key : Nat) : State :=
  let s1 := s.serveLine key
  s1.admitWaiting s1.pool.waitingReqs.length

/-! ### Requests (R181 to R183) -/

/-- Why an access of an agent to a line is refused. -/
def State.poolCode (s : State) (a win line : Nat) (write : Bool) : Option Code :=
  let x := s.poolWin win
  if !s.domActive 3 then some .failedFenced
  else if !s.has (agentMaster a) (.poolWin win) (if write then .use else .read) || !winValid x || winSize x ≤ 64 * line
    || (write && !winWritable x) then some .failedAccess
  else none

/-- The agent has a request outstanding for a line. -/
def State.outstanding (s : State) (a key : Nat) : Bool :=
  s.pool.waitingReqs.any (fun q => q.2.2.agent = a && s.poolKey q.1 q.2.1 = key)
    || s.pool.toAgent.any (fun m => m.1 = a && s.poolKey m.2.1 m.2.2.1 = key)
    || s.pool.ops.any (fun o => o.agents.contains a && s.poolKey o.win o.line = key)
    || (match s.entry key with
      | some e => e.queue.any (fun r => r.agent = a) || (match e.trans with
        | some (.read r) => r.agent = a
        | some (.writeback b _) => b = a
        | some (.await _ _ (.req r)) => r.agent = a
        | some (.store _ (.req r)) => r.agent = a
        | _ => false)
      | none => false)

/-- An uncacheable read joins an identical read that is outstanding with no write behind it (R178). -/
def State.joinRead (s : State) (a key : Nat) : Option State :=
  match (s.pool.ops.filter (fun o => s.poolKey o.win o.line = key)).getLast? with
  | some o =>
    if o.new.isNone && !o.cached then
      some { s with pool.merge := sat 32 s.pool.merge 1,
                    pool.ops := s.pool.ops.map (fun k => if k = o then { k with agents := k.agents ++ [a] } else k) }
    else none
  | none => none

/-- A read of an uncacheable window goes straight to the pool. -/
def State.plainRead (s : State) (a win line : Nat) : State :=
  if !s.poolUp then s.agentFail a .failedLink
  else
    match s.joinRead a (s.poolKey win line) with
    | some s1 => s1
    | none =>
      match s.pool.planRead (s.poolWin win) win line false [a] with
      | some o => s.issue o
      | none => (s.agentFail a .failedUncorrectable).pushLoss (s.lineItem win line .failedUncorrectable)

/-- RD_S and RD_X: an agent that does not hold the line so asks for it. -/
def State.poolRead (s : State) (a win line : Nat) (excl : Bool) : State :=
  let key := s.poolKey win line
  let held := match s.cached a key with
    | some c => c.excl || !excl
    | none => decide (cacheCap a ≤ (s.cache a).length)
  match s.poolCode a win line excl with
  | some c => s.agentFail a c
  | none =>
    if held || s.outstanding a key || !s.agentLive a then s
    else
      let s0 := s.wakeDom 3 11 win
      let s1 : State := { s0 with pool.misses := tmod 0 a (fun n => (n + 1) % 2 ^ 32) s0.pool.misses }
      let s2 := s1.tracePool win line (if excl then 2 else 1) a ((s.entry key).any (fun e => e.trans.isSome)) (s.entrySt key)
      if winCacheable (s.poolWin win) then s2.request win line { agent := a, excl := excl } else s2.plainRead a win line

/-- RD_S. -/
def execRdS (agent win line : Nat) (s : State) : Host.Outcome State Fault Refusal := .next (s.poolRead agent win line false)

/-- RD_X. -/
def execRdX (agent win line : Nat) (s : State) : Host.Outcome State Fault Refusal := .next (s.poolRead agent win line true)

/-- A write to an uncacheable window goes straight to the pool. -/
def State.plainWrite (s : State) (a win line : Nat) (d : BitVec 512) : State :=
  match s.poolCode a win line true with
  | some c => s.agentFail a c
  | none =>
    match s.pool.planWrite (s.poolWin win) win line false [a] d with
    | some o => (s.wakeDom 3 11 win).issue o
    | none => (s.pushLoss (s.lineItem win line .failedUncorrectable)).tell a win line .wbDone

/-- WB: an agent evicts a dirty line that it owns; the writeback holds the entry until it is complete in the pool. -/
def execWb (agent win line : Nat) (data : BitVec 512) (s : State) : Host.Outcome State Fault Refusal :=
  let key := s.poolKey win line
  if !winCacheable (s.poolWin win) then .next (s.plainWrite agent win line data)
  else
    match s.cached agent key, s.entry key with
    | some c, some e =>
      if c.dirty && e.st = 2 && e.holders = [agent] && e.trans.isNone && s.transCount < 256 && s.domActive 3
          && !s.pool.toAgent.any (fun m => m.1 = agent && s.poolKey m.2.1 m.2.2.1 = key) then
        let t : Trans := .writeback agent data
        .next ((((s.modEntry key (fun x => { x with trans := some t })).tracePool win line 3 agent false 2).startWrite
          { e with trans := some t } data).release key)
      else .next s
    | _, _ => .next s

/-- EVC: an agent evicts a clean line. -/
def execEvc (agent win line : Nat) (s : State) : Host.Outcome State Fault Refusal :=
  let key := s.poolKey win line
  match s.cached agent key, s.entry key with
  | some c, some e =>
    if !c.dirty && e.holders.contains agent && e.trans.isNone && s.domActive 3 then
      .next ((((s.setCached agent key none).modEntry key (fun x =>
        { x with holders := x.holders.filter (· ≠ agent), st := if x.st = 2 || x.holders.length ≤ 1 then 0 else 1 })).tracePool
          win line 4 agent false (if e.holders.length ≤ 1 then 0 else e.st)).serveLine key)
    else .next s
  | _, _ => .next s

/-! ### Messages at an agent (R182, R183) -/

/-- The first message to agent a that p accepts, with none for its line ahead of it; and the rest. -/
def takeAgent (a : Nat) (p : DirMsg → Bool) (seen : List (Nat × Nat)) :
    List (Nat × Nat × Nat × DirMsg) → Option ((Nat × Nat × DirMsg) × List (Nat × Nat × Nat × DirMsg))
  | [] => none
  | m :: r =>
    if m.1 = a && p m.2.2.2 && !seen.contains (m.2.1, m.2.2.1) then some (m.2, r)
    else
      match takeAgent a p (if m.1 = a then (m.2.1, m.2.2.1) :: seen else seen) r with
      | some (x, r') => some (x, m :: r')
      | none => none

/-- Takes a message to agent a. -/
def State.takeDir (s : State) (a : Nat) (p : DirMsg → Bool) : Option ((Nat × Nat × DirMsg) × State) :=
  match takeAgent a p [] s.pool.toAgent with
  | some (x, r) => some (x, { s with pool.toAgent := r })
  | none => none

/-- The agent takes a line, unless its window is uncacheable. -/
def State.install (s : State) (a win line : Nat) (d : BitVec 512) (dirty excl : Bool) : State :=
  if winCacheable (s.poolWin win) then
    s.setCached a (s.poolKey win line) (some { win := win, line := line, data := d, dirty := dirty, excl := excl })
  else s

/-- GRANT_S: the agent takes a shared copy. -/
def execGrantS (agent : Nat) (s : State) : Host.Outcome State Fault Refusal :=
  match s.takeDir agent (fun m => match m with
    | .grantS _ => true
    | _ => false) with
  | some ((win, line, .grantS d), s1) => .next (s1.install agent win line d false false)
  | _ => .next s

/-- GRANT_X: the agent takes ownership and completes one access to the line (R183). -/
def execGrantX (agent : Nat) (store : Option (BitVec 512)) (s : State) : Host.Outcome State Fault Refusal :=
  match s.takeDir agent (fun m => match m with
    | .grantX _ _ => true
    | _ => false) with
  | some ((win, line, .grantX d dirty), s1) => .next (s1.install agent win line (store.getD d) (dirty || store.isSome) true)
  | _ => .next s

/-- WB_DONE: the evicted line is in the pool, and the agent's copy is invalid. -/
def execWbDone (agent : Nat) (s : State) : Host.Outcome State Fault Refusal :=
  match s.takeDir agent (· = .wbDone) with
  | some ((win, line, _), s1) =>
    .next (if winCacheable (s1.poolWin win) then s1.setCached agent (s1.poolKey win line) none else s1)
  | none => .next s

/-- An agent answers RECALL or INV with its data if dirty, and its copy is invalid. -/
def State.sendAck (s : State) (a win line : Nat) : State :=
  let key := s.poolKey win line
  let d := match s.cached a key with
    | some c => if c.dirty then some c.data else none
    | none => none
  let s1 := s.setCached a key none
  { s1 with pool.toDir := s1.pool.toDir ++ [(a, win, line, d)] }

/-- RECALL. -/
def execRecall (agent : Nat) (s : State) : Host.Outcome State Fault Refusal :=
  match s.takeDir agent (· = .recall) with
  | some ((win, line, _), s1) => .next (s1.sendAck agent win line)
  | none => .next s

/-- INV. -/
def execInv (agent : Nat) (s : State) : Host.Outcome State Fault Refusal :=
  match s.takeDir agent (· = .inv) with
  | some ((win, line, _), s1) => .next (s1.sendAck agent win line)
  | none => .next s

/-- An agent's answer counts for its entry. -/
def State.ackIn (s : State) (a key : Nat) (d : Option (BitVec 512)) : State :=
  match s.entry key with
  | some e =>
    match e.trans with
    | some (.await from_ old why) =>
      let left := from_.filter (· ≠ a)
      let v := match d with
        | some x => some x
        | none => old
      let s1 := s.modEntry key (fun x =>
        { x with holders := x.holders.filter (· ≠ a), trans := some (.await left v why) })
      if left.isEmpty then (s1.answered e v why).release key else s1
    | _ => s
  | none => s

/-- ACK: an agent's answer reaches the directory, which serves the next requester with its data. -/
def execAck (s : State) : Host.Outcome State Fault Refusal :=
  match s.pool.toDir with
  | [] => .next s
  | (a, win, line, d) :: r =>
    let key := s.poolKey win line
    .next ((({ s with pool.toDir := r } : State).tracePool win line 10 a false (s.entrySt key)).ackIn a key d)

/-! ### Snoops (R184) -/

/-- BISNP: a snoop of an expander joins its line's queue ahead of every request not yet granted, and one that crosses the
gateway's own request for the line takes a BIConflict handshake; a line without an entry is answered at once. -/
def execBisnp (win line kind : Nat) (conflict : Bool) (s : State) : Host.Outcome State Fault Refusal :=
  let key := s.poolKey win line
  let busy := (s.entry key).any (fun e => e.trans.isSome)
  let s0 := s.wakeDom 3 11 win
  let s1 : State := { s0 with
    pool.snoops := sat 16 s0.pool.snoops 1
    pool.conflicts := if conflict && busy then sat 16 s0.pool.conflicts 1 else s0.pool.conflicts }
  let s2 := s1.tracePool win line 11 17 busy (s.entrySt key)
  if (s.entry key).isNone then .next (s2.answer win line kind 0)
  else .next ((s2.modEntry key (fun x => { x with snoops := x.snoops ++ [kind] })).serveLine key)

/-- POOL_FLUSH's effect: every cached line of the window is written back and invalidated. -/
def State.flushWin (s : State) (win : Nat) : State :=
  ((s.pool.dir.filter (fun e => inWindow (s.poolWin win) e.key)).map (·.key)).foldl (fun s k =>
    (s.modEntry k (fun x => { x with snoops := x.snoops ++ [3] })).serveLine k) s

/-! ### Completions of expander operations (R183, R188) -/

/-- Operation i may go on: none before it is on its line, or owns its group's parity line. -/
def State.opReady (s : State) (o : PoolOp) : Bool :=
  (s.pool.ops.takeWhile (fun k => k ≠ o)).all (fun k =>
    s.poolKey k.win k.line ≠ s.poolKey o.win o.line && (o.grp.isNone || k.grp ≠ o.grp))

/-- The operation of a line that is next. -/
def State.nextOp (s : State) (win line : Nat) : Option PoolOp :=
  match s.pool.ops.find? (fun o => s.poolKey o.win o.line = s.poolKey win line) with
  | some o => if s.opReady o then some o else none
  | none => none

/-- Replaces the first operation equal to o. -/
def State.putOp (s : State) (o o1 : PoolOp) : State :=
  { s with pool.ops := s.pool.ops.map (fun k => if k = o then o1 else k) }

/-- An operation is complete: the directory goes on, or the agents it serves are answered. -/
def State.opDone (s : State) (o : PoolOp) : State :=
  let s1 : State := { s with pool.ops := s.pool.ops.erase o }
  let key := s.poolKey o.win o.line
  let v := if o.plan = 2 then xorAll o.got else o.got.getD 0 0
  if o.cached then
    match s1.entry key with
    | some e =>
      match e.trans, o.new with
      | some (.read r), none => (s1.grant e r v false).release key
      | _, some _ => (s1.written e).release key
      | _, none => s1
    | none => s1
  else
    o.agents.foldl (fun s a =>
      if s.agentLive a then s.tell a o.win o.line (if o.new.isNone then .grantS v else .wbDone) else s) s1

/-- POOL_READ_COMPLETE: an expander returns the line that the operation reads next. -/
def execPoolReadComplete (win line : Nat) (data : BitVec 512) (s : State) : Host.Outcome State Fault Refusal :=
  match s.nextOp win line with
  | some o =>
    if o.reads.isEmpty then .next s
    else
      let o1 := s.pool.readIn (s.poolWin o.win) o data
      let s1 := s.putOp o o1
      if o1.reads.isEmpty && o1.writes.isEmpty then .next (s1.opDone o1) else .next s1
  | none => .next s

/-- POOL_WRITE_COMPLETE: an expander has taken the line that the operation writes next; a striped write is complete with
both its writes. -/
def execPoolWriteComplete (win line : Nat) (s : State) : Host.Outcome State Fault Refusal :=
  match s.nextOp win line with
  | some o =>
    if !o.reads.isEmpty || o.writes.isEmpty then .next s
    else
      let o1 := { o with writes := o.writes.tail }
      let s1 := s.putOp o o1
      if o1.writes.isEmpty then .next (s1.opDone o1) else .next s1
  | none => .next s

/-! ### Loss of the link, of an agent and of the gateway (R290, R293, R295) -/

/-- The pool link is gone: outstanding reads complete with FAILED_LINK, and dirty lines are held. -/
def State.poolLinkDown (s : State) : State :=
  if s.poolUp then s
  else
    let rs := s.pool.ops.filter (fun o => o.new.isNone)
    rs.foldl (fun s o =>
      let s1 := o.agents.foldl (fun s a => s.agentFail a .failedLink)
        { s with pool.ops := s.pool.ops.erase o }
      if o.cached then (s1.modEntry (s.poolKey o.win o.line) (fun x => { x with trans := none })).release (s.poolKey o.win o.line)
      else s1) { s with pool.linkLost := true }

/-- DIRTY_LINE_HOLD_EXPIRY: 100 ms without a pool link: the lines still unwritten are recorded with FAILED_LINK and
invalidated. -/
def execDirtyLineHoldExpiry (s : State) : Host.Outcome State Fault Refusal :=
  if !s.pool.linkLost || s.poolUp then .next s
  else
    let dirty := (s.pool.caches.flatMap (fun e => (e.2.filter (·.dirty)).map (fun c => (e.1, c))))
    let s1 := dirty.foldl (fun s e =>
      let key := s.poolKey e.2.win e.2.line
      ((s.pushLoss (s.lineItem e.2.win e.2.line .failedLink)).setCached e.1 key none).modEntry key (fun x =>
        if x.trans.isNone then { x with holders := x.holders.filter (· ≠ e.1), st := 0 } else x)) s
    let held := s1.pool.ops.filter (fun o => o.new.isSome
      && !dirty.any (fun e => s1.poolKey e.2.win e.2.line = s1.poolKey o.win o.line))
    let s2 := held.foldl (fun s o => s.pushLoss (s.lineItem o.win o.line .failedLink)) s1
    let ops := s2.pool.ops
    .next ((ops.filter (fun o => o.new.isSome)).foldl (fun s o => s.opDone o) s2)

/-- A stack's fence notice reaches the directory: each dirty line of its cache is recorded with FAILED_PEER_RESET and keeps
its value in the pool; its recalls and requests are done with (R295). -/
def State.agentLost (s : State) (a : Nat) : State :=
  let s1 := ((s.cache a).filter (·.dirty)).foldl (fun s c => s.pushLoss (s.lineItem c.win c.line .failedPeerReset)) s
  let s2 : State := { s1 with
    pool.caches := tdel a s1.pool.caches
    pool.toAgent := s1.pool.toAgent.filter (fun m => m.1 ≠ a)
    pool.toDir := s1.pool.toDir.filter (fun m => m.1 ≠ a)
    pool.waitingReqs := s1.pool.waitingReqs.filter (fun q => q.2.2.agent ≠ a)
    pool.dir := s1.pool.dir.map (fun e => { e with
      queue := e.queue.filter (fun r => r.agent ≠ a)
      holders := match e.trans with
        | some (.await ..) => e.holders
        | some (.writeback ..) => e.holders
        | _ => e.holders.filter (· ≠ a)
      st := match e.trans with
        | none => if (e.holders.filter (· ≠ a)).isEmpty then 0 else e.st
        | _ => e.st }) }
  (s2.pool.dir.map (·.key)).foldl (fun s k => (s.ackIn a k none).release k) s2

/-- The gateway's drain ends: what it has accepted and not completed is recorded, and its requesters fail (R293, R295). -/
def State.poolDrain (s : State) : State :=
  let items := (s.pool.ops.filter (fun o => o.new.isSome)).map (fun o => (o.win, o.line))
    ++ s.pool.caches.flatMap (fun e => (e.2.filter (·.dirty)).map (fun c => (c.win, c.line)))
  let as := s.pool.ops.flatMap (·.agents) ++ s.pool.dir.flatMap (fun e => e.queue.map (·.agent))
    ++ s.pool.waitingReqs.map (fun q => q.2.2.agent)
  let s1 := items.eraseDups.foldl (fun s e => s.pushLoss (s.lineItem e.1 e.2 .failedFenced)) s
  let s2 := as.eraseDups.foldl (fun s a => s.agentFail a .failedPeerReset) s1
  { s2 with pool := { s2.pool with dir := [], toAgent := [], toDir := [], waitingReqs := [], ops := [], caches := [] } }

end Sys2Proof.Machine
end

