-- ==== Sys2Proof/Machine/Bulk.lean ====
section
/-! DEFINITION. Lines of package DRAM and the bulk plane: descriptors, multicast, failures line by line, completion
(R171 to R178). -/

namespace Sys2Proof.Machine

open Sys2Proof

/-! ### Lines (R4, R171) -/

/-- The 64-bit words of a 64-byte line, lowest address first (R4). -/
def lineWords (d : BitVec 512) : List DWord := (List.range 8).map (fun i => d.extractLsb' (64 * i) 64)

/-- The line at package address a. -/
def Memory.readLine (m : Memory) (a : Nat) : BitVec 512 := BitVec.ofNat 512 (m.readLE a 64)

/-- A line written whole, with fresh check bits (R71). -/
def Memory.writeLine (m : Memory) (a : Nat) (d : BitVec 512) : Memory := (m.writeLE a 64 d.toNat).heal a 64

/-- The column index and the column address of a package address (R171). -/
def colOf (a : Nat) : Nat := a / 2 ^ 28
def colOff (a : Nat) : Nat := a % 2 ^ 28

/-- The device reserve of a column (R172). -/
def reserveBase : Nat := 0xFF0_0000

/-! ### Descriptors (R176) -/

def blkOp (w0 : DWord) : Nat := wf w0 3 0
/-- 0 COLUMN, 1 POOL, 2 HOST, 3 NVM. -/
def blkSrcKind (w0 : DWord) : Nat := wf w0 7 4
def blkGroupId (w0 : DWord) : Nat := wf w0 15 8
def blkLines (w0 : DWord) : Nat := wf w0 39 16

/-- The descriptor is one the bulk plane takes: COPY or ZERO, a known source kind, at least one line, addresses in
multiples of 64. -/
def bulkOk (w0 w1 w2 : DWord) : Bool :=
  (blkOp w0 = 1 || blkOp w0 = 2) && blkSrcKind w0 ≤ 3 && 1 ≤ blkLines w0 && wf w2 5 0 = 0
    && (blkOp w0 = 2 || blkSrcKind w0 = 1 || wf w1 5 0 = 0) && (blkGroupId w0 < 64 || blkGroupId w0 = 0xFF)

/-- The destinations' column indices (R177). -/
def State.bulkDests (s : State) (w0 w2 : DWord) : List Nat :=
  if blkGroupId w0 = 0xFF then [wf w2 38 28] else tget [] (blkGroupId w0) s.pool.mgroups

/-- The reporter of an issuer's loss records: a stack's root for its tiles, else the steward's column (R301; log 45). -/
def State.bulkReporter (s : State) (who : Nat) : Coord := if 0x24 ≤ who then s.rootCoord (who - 0x24) else s.hubReporter

/-- The byte address of line i at the source, within its space. -/
def bulkSrcAddr (w0 w1 : DWord) (i : Nat) : Nat := (if blkSrcKind w0 = 1 then wf w1 63 6 * 64 else w1.toNat) + 64 * i

/-- What line i reads: its code, and its data when DONE (R174, R176, R181, R293). -/
def State.bulkRead (s : State) (who : Nat) (w0 w1 : DWord) (ext : List (Option (BitVec 512))) (i : Nat) :
    Code × BitVec 512 :=
  let a := bulkSrcAddr w0 w1 i
  let outside := match (ext.getD i none) with
    | some d => (Code.done, d)
    | none => (if s.poolUp || blkSrcKind w0 = 3 then Code.failedUncorrectable else Code.failedLink, 0)
  if blkOp w0 = 2 then (.done, 0)
  else if blkSrcKind w0 = 0 then
    let t := wf w1 38 28
    if !s.tilePresent t || 2 ^ 28 ≤ wf w1 27 0 + 64 * i then (.failedAccess, 0)
    else if !s.tileActive t then (.failedFenced, 0)
    else if s.mem.anyBad (s.memAddr a) 64 then (.failedUncorrectable, 0)
    else (.done, s.mem.readLine (s.memAddr a))
  else if blkSrcKind w0 = 1 then
    let x := s.poolWin (wf w1 5 0)
    if !s.has who (.poolWin (wf w1 5 0)) .read || !winValid x || winSize x ≤ a then (.failedAccess, 0)
    else if !s.domActive 3 then (.failedFenced, 0)
    else outside
  else outside

/-- Why line i cannot be written at tile t, none when it can. -/
def State.bulkWriteCode (s : State) (t : Nat) (w2 : DWord) (i : Nat) : Option Code :=
  if !s.tilePresent t || 2 ^ 28 ≤ wf w2 27 0 + 64 * i then some .failedAccess
  else if !s.tileActive t then some .failedPeerReset
  else none

/-- The LINE record of a bulk line (R302): space 0 package, 1 pool, 2 host, 3 NVM. -/
def State.bulkItem (s : State) (who space win a : Nat) (c : Code) : LossItem :=
  { code := c, kind := 0x6, w := none, reporter := s.bulkReporter who, a := win,
    b := BitVec.ofNat 64 (space + a / 64 * 64), ext := none, stamp := none, sampled := false }

/-- A line that is not written at a destination is recorded and counted. -/
def State.bulkFail (s : State) (item : LossItem) : State :=
  ({ s with pool.bulkFailed := sat 16 s.pool.bulkFailed 1 } : State).pushLoss item

/-- Line i goes to tile t. -/
def State.bulkWrite (s : State) (who : Nat) (w0 w1 w2 : DWord) (r : Code × BitVec 512) (i t : Nat) : State :=
  let dst := colAddr t (wf w2 27 0 + 64 * i)
  if r.1 ≠ .done then
    s.bulkFail (s.bulkItem who (blkSrcKind w0) (if blkSrcKind w0 = 1 then wf w1 5 0 else 0) (bulkSrcAddr w0 w1 i) r.1)
  else
    match s.bulkWriteCode t w2 i with
    | some c => s.bulkFail (s.bulkItem who 0 0 dst c)
    | none =>
      let s1 := (s.wakeTile t 11 t).wakeBank t
      { s1 with mem := s1.mem.writeLine (s1.memAddr dst) r.2 }

/-- Line i is read once and goes to every destination. -/
def State.bulkLine (s : State) (who : Nat) (w0 w1 w2 : DWord) (ext : List (Option (BitVec 512))) (i : Nat) : State :=
  let r := s.bulkRead who w0 w1 ext i
  (s.bulkDests w0 w2).foldl (fun s t => s.bulkWrite who w0 w1 w2 r i t) s

/-- Every line of a descriptor. -/
def State.bulkLines (s : State) (who : Nat) (w0 w1 w2 : DWord) (ext : List (Option (BitVec 512))) : State :=
  (List.range (blkLines w0)).foldl (fun s i => s.bulkLine who w0 w1 w2 ext i) s

/-- BULK_TRANSFER: a descriptor is issued and its lines move; one that the bulk plane refuses does nothing. -/
def execBulkTransfer (who : Nat) (w0 w1 w2 w3 : DWord) (ext : List (Option (BitVec 512))) (s : State) :
    Host.Outcome State Fault Refusal :=
  if bulkOk w0 w1 w2 then
    let s1 := s.bulkLines who w0 w1 w2 ext
    .next { s1 with pool.bulks := s1.pool.bulks ++ [{ who := who, w3 := w3 }] }
  else .next s

/-- BULK_COMPLETE: every line of the oldest transfer is written or has failed; its pip is added if pip_en is set. -/
def execBulkComplete (s : State) : Host.Outcome State Fault Refusal :=
  match s.pool.bulks with
  | [] => .next s
  | b :: r =>
    let s1 : State := { s with pool.bulks := r, pool.bulkDone := sat 16 s.pool.bulkDone 1 }
    .next (if wf b.w3 18 18 = 1 then s1.internalAdd b.who (wf b.w3 17 0) 1 else s1)

end Sys2Proof.Machine
end

