-- ==== Sys2Proof/Machine/Consol.lean ====
section
/-! DEFINITION. The bank chain and consolidation points: partial sums, accumulators sent home, rows sent back,
acknowledgements, and the point itself (R67, R68, R107 to R114). -/

namespace Sys2Proof.Machine

open Sys2Proof

/-! ### The bank chain (R67, R68) -/

/-- The sequence number of a chain message. -/
def chainSeqOf : MailBody → Nat
  | .psum _ q _ => q
  | .lacc _ q _ _ => q
  | .rrow _ q _ _ => q
  | .chainAck _ q => q
  | .ctl _ => 0

/-- Segments are named row × 2,048 + k in consolidation messages. -/
def segId (row k : Nat) : Nat := row * 2048 + k

/-- The unit of a named segment in tile t. -/
def Tile.segUnit (x : Tile) (seg : Nat) : Nat := rowSegAddr (tget (0 : DWord) (seg / 2048) x.rowdir) 0 (seg % 2048) / 128

/-- The loss items of a chain message that failed at tile t (R68, R295). -/
def State.chainItems (s : State) (t : Nat) : MailBody → List LossItem
  | .psum _ _ es => es.map (fun e =>
      { s.contribItem t (((s.tile t).groups.headD 0) * 32 + e.2.1) 0 e.1 0 e.2.2.1 e.2.2.2 .failedPeerReset with w := none })
  | .lacc _ _ seg _ => [{ s.segItem t ((s.tile t).segUnit seg) 2 none none with code := .failedPeerReset }]
  | .rrow _ _ seg _ => [{ s.segItem t ((s.tile t).segUnit seg) 0 none none with code := .failedPeerReset }]
  | _ => []

/-- Tile t sends a chain message to tile u; to a FENCED tile it fails at once (R68). -/
def State.sendChain (s : State) (t u : Nat) (mk : Nat → MailBody) : State :=
  let q := (s.tile t).chainSeq % 2 ^ 32
  let b := mk q
  if s.tileActive u then
    ((s.modTile t (fun x => { x with chainSeq := q + 1, chainOut := x.chainOut ++ [(q, u, b)] })).post u b)
  else
    let s1 := s.modTile t (fun x => { x with chainSeq := q + 1 })
    (s.chainItems t b).foldl State.pushLoss s1

/-- A received chain message is acknowledged to its sender (R67). -/
def State.ackChain (s : State) (t from_ seq : Nat) : State := s.post from_ (.chainAck t seq)

/-- One entry of a PSUM joins the wheel of its lane's group (R63, R67; log 34). -/
def State.psumEntry (s : State) (t from_ : Nat) (e : Nat × Nat × Nat × Int) : State :=
  let x := s.tile t
  match x.blocks.find? (fun b => blkHasNeuron b e.1 && blkHasLane b e.2.1) with
  | none => s.pushLoss { s.contribItem t e.2.1 0 e.1 0 e.2.2.1 e.2.2.2 .failedAccess with w := none }
  | some b =>
    let w := blkGroup b * 32 + e.2.1
    s.contribute t w 0 e.1 0 (fullTempo (x.world w).f e.2.2.1) e.2.2.2 (s.groupLockstep t (w / 32)) (s.coord from_)

def isPsum : MailBody → Bool
  | .psum .. => true
  | _ => false
def isLacc : MailBody → Bool
  | .lacc .. => true
  | _ => false
def isRrow : MailBody → Bool
  | .rrow .. => true
  | _ => false
def isChainAck : MailBody → Bool
  | .chainAck .. => true
  | _ => false

/-- PSUM: partial sums are added into the wheel (R67, R68). -/
def execPsum (t : Nat) (s : State) : Host.Outcome State Fault Refusal :=
  match s.takeMail (toTile t isPsum) with
  | some ({ body := .psum from_ q es, .. }, s1) =>
    if s.tileActive t then .next ((es.foldl (fun s e => s.psumEntry t from_ e) s1).ackChain t from_ q)
    else .next s1
  | _ => .next s

/-- CHAIN_ACK: sequence numbers up to the acknowledged one to that tile are complete (R67). -/
def execChainAck (t : Nat) (s : State) : Host.Outcome State Fault Refusal :=
  match s.takeMail (toTile t isChainAck) with
  | some ({ body := .chainAck from_ q, .. }, s1) =>
    .next (s1.modTile t (fun x =>
      { x with chainOut := x.chainOut.filter (fun e => !(e.2.1 = from_ && (q + 2 ^ 32 - e.1) % 2 ^ 32 < 2 ^ 31)) }))
  | _ => .next s

/-! ### Replica sets (R111) -/

/-- Tile t's home: itself where TILE_LRN_REPL names a set of one. -/
def Tile.homeOf (x : Tile) (t : Nat) : Nat := if fb x.cfg.repl.toNat 23 18 = 0 then t else fb x.cfg.repl.toNat 11 0

/-- The members of the set whose home is t, without the home. -/
def State.membersOf (s : State) (t : Nat) : List Nat :=
  (s.tiles.filter (fun e => e.1 ≠ t && fb e.2.cfg.repl.toNat 23 18 ≠ 0 && e.2.homeOf e.1 = t
    && fb e.2.cfg.repl.toNat 17 12 = s.hub.p)).map (·.1)

/-- The RUNNING worlds of learning groups that tile t holds. -/
def State.learningWorlds (s : State) (t : Nat) : List Nat :=
  (s.tmp.worlds.filter (fun e => e.2.st = .running && (s.tile t).resident e.1
    && (tget {} (e.1 / 32) s.tmp.groups).mode ≠ 0)).map (·.1)

/-- The next consolidation point of tile t has come: every RUNNING world of its learning groups stands at start(nK)
(R109). -/
def State.atPoint (s : State) (t : Nat) : Bool :=
  let x := s.tile t
  let n := (x.lrnPoint + 1) * s.tmp.learnPeriod
  s.tmp.learnPeriod ≠ 0 && !(s.learningWorlds t).isEmpty
    && (s.learningWorlds t).all (fun w => (x.world w).f = (s.world w).start n)

/-- The plastic segments of tile t that are pooled, and those of private rows. -/
def State.pooledUnits (s : State) (t : Nat) : List (Nat × Nat × Nat × Nat) :=
  (s.plasticUnits t).filter (fun e => !rowPriv (tget (0 : DWord) e.1 (s.tile t).rowdir))
def State.privateUnits (s : State) (t : Nat) : List (Nat × Nat × Nat × Nat) :=
  (s.plasticUnits t).filter (fun e => rowPriv (tget (0 : DWord) e.1 (s.tile t).rowdir))

/-- The accumulator words of a segment unit. -/
def State.accWords (s : State) (t u : Nat) : List Word :=
  (List.range 64).map (fun j => BitVec.ofNat 32 (s.colLE t (rowAccAddr (s.tile t).cfg u j) 4))

/-- Step 1 of R111: every plastic segment's column accumulators fold into its row accumulators. -/
def State.foldAll (s : State) (t : Nat) : State :=
  (s.plasticUnits t).foldl (fun s e => (List.range 64).foldl (fun s j => s.foldWord t e.1 e.2.1 e.2.2.2 j) s) s

/-- Consolidates a segment with what the members sent for it, by lane of the private copies. -/
def State.consolUnit (s : State) (t row l u : Nat) (from_ : List (List Word)) : State :=
  let g := ((s.tile t).cfg.grps.map (·.2)).headD (((s.tile t).groups).headD 0)
  if s.unitBad t u then s.unitLost t u 0 []
  else (List.range 64).foldl (fun s j =>
    let extra := from_.foldl (fun a ws =>
      let v := (ws.getD j 0).toNat
      ((a.1 + v % 2 ^ 20) % 2 ^ 20, (a.2 + v / 2 ^ 20) % 2 ^ 12)) (0, 0)
    s.consolWord t row l u j extra g) s

/-- A tile's completion of the point: one add to the TURN pip of each of its learning worlds (R109). -/
def State.pointAdds (s : State) (t : Nat) : State :=
  (((s.learningWorlds t).map (fun w => (s.world w).turnPip)).eraseDups).foldl (fun s p =>
    s.fromRoot (stackOf t) 33 (.pipAdd p 1 (0x24 + stackOf t))) s

/-- Tile t has completed its point (R109, TILE_LRN_POINT); work that waited for it goes on. -/
def State.pointDone (s : State) (t : Nat) : State :=
  ((s.pointAdds t).modTile t (fun x =>
    { x with lrnPoint := x.lrnPoint + 1, lrnBusy := none, lrnRows := [], laccIn := [] })).settle t

/-- The LEARN_CONSOLIDATED record (R114). -/
def State.pointRecord (s : State) (t n contributed worlds clamped changed : Nat) : State :=
  if (s.rack s.tmp.learnRack).enabled then
    s.postRecord s.tmp.learnRack (0x24 + stackOf t) 0x84 .done none
      [BitVec.ofNat 64 (tileY t + tileX t * 2 ^ 6 + contributed * 2 ^ 16 + n % 2 ^ 32 * 2 ^ 32),
       BitVec.ofNat 64 (worlds % 2 ^ 16 + clamped % 2 ^ 16 * 2 ^ 16 + changed % 2 ^ 16 * 2 ^ 32)]
  else s

/-- A member that is not ACTIVE when the home needs it: one SEGMENT record for each segment it would have sent, and its
worlds' turns INCOMPLETE (R111). -/
def State.memberMissing (s : State) (t m : Nat) : State :=
  let s1 := (s.pooledUnits t).foldl (fun s e =>
    s.pushLoss { s.segItem t e.2.2.2 2 none none with code := .failedPeerReset }) s
  ((s.tmp.worlds.filter (fun e => (s.tile m).resident e.1)).map (·.1)).foldl (fun s w =>
    s.modTurn w ((s.world w).opened - 1) (fun i => { i with incomplete := true })) s1

/-- Accumulators of member m for home t may still come: it has not begun the point, or they are on their way. -/
def State.laccComing (s : State) (t m : Nat) : Bool :=
  (s.tile m).lrnBusy.isNone || s.fab.mail.any (fun x => x.dst = t && (match x.body with
    | .lacc f _ _ _ => f = m
    | _ => false))

/-- The home has the accumulators of every ACTIVE member for every pooled segment, but for those that failed. -/
def State.homeReady (s : State) (t : Nat) : Bool :=
  (s.membersOf t).all (fun m => !s.tileActive m
    || (s.pooledUnits t).all (fun e => (s.tile t).laccIn.any (fun a => a.1 = segId e.1 e.2.2.1 && a.2.1 = m))
    || !s.laccComing t m)

/-- Steps 3 and 4 of R111 at the home: R110 over every pooled segment, and the new rows to the members. -/
def State.homeFinish (s : State) (t n : Nat) : State :=
  let ms := s.membersOf t
  let s1 := (ms.filter (fun m => !s.tileActive m)).foldl (fun s m => s.memberMissing t m) s
  let live := ms.filter s.tileActive
  let s2 := (s.pooledUnits t).foldl (fun s e =>
    let from_ := ((s.tile t).laccIn.filter (fun a => a.1 = segId e.1 e.2.2.1)).map (·.2.2)
    let s' := s.consolUnit t e.1 0 e.2.2.2 from_
    live.foldl (fun s m => s.sendChain t m (fun q => .rrow t q (segId e.1 e.2.2.1)
      ((List.range 64).map (fun j => BitVec.ofNat 16 (s.synapse t e.2.2.2 j))))) s') s1
  let c0 := s.tile t
  let c1 := s2.tile t
  let worlds := ((t :: live).flatMap s.learningWorlds).eraseDups.length
  let s3 := s2.pointRecord t n live.length worlds (c1.lrnClamp - c0.lrnClamp) (c1.lrnDchg - c0.lrnDchg)
  let gs := (((t :: live).flatMap s.learningWorlds).map (· / 32)).eraseDups
  let s4 := gs.foldl (fun s g => { s with tmp.groups := tmod {} g (fun x => { x with points := n % 2 ^ 16 }) s.tmp.groups }) s3
  s4.pointDone t

/-- The home goes on when it has what it needs. -/
def State.homeTry (s : State) (t : Nat) : State :=
  match (s.tile t).lrnBusy with
  | some n => if (s.tile t).homeOf t = t && s.homeReady t then s.homeFinish t n else s
  | none => s

/-- A member sends its folded accumulators home and clears them (R110, R111). -/
def State.memberSend (s : State) (t : Nat) : State :=
  let home := (s.tile t).homeOf t
  (s.pooledUnits t).foldl (fun s e =>
    let ws := s.accWords t e.2.2.2
    let s1 := s.sendChain t home (fun q => .lacc t q (segId e.1 e.2.2.1) ws)
    (List.range 64).foldl (fun s j => s.colWrite t (rowAccAddr (s.tile t).cfg e.2.2.2 j) 4 0) s1) s

/-- A member that has every row of the point is done (R111 step 5). -/
def State.memberTry (s : State) (t : Nat) : State :=
  let x := s.tile t
  if x.lrnBusy.isSome && x.homeOf t ≠ t
      && (s.pooledUnits t).all (fun e => x.lrnRows.contains (segId e.1 e.2.2.1)) then s.pointDone t
  else s

/-- Tile t begins its point (R109 to R113). -/
def State.beginPoint (s : State) (t : Nat) : State :=
  let n := (s.tile t).lrnPoint + 1
  let s1 := (s.foldAll t).modTile t (fun x => { x with lrnBusy := some n })
  let s2 := (s.privateUnits t).foldl (fun s e => s.consolUnit t e.1 e.2.1 e.2.2.2 []) s1
  if (s.tile t).homeOf t = t then s2.homeTry t else (s2.memberSend t).memberTry t

/-- A learning slot wakes the tile, its stack fabric and its DRAM; the detail is the tile's first group (R274, R284). -/
def State.learnWake (s : State) (t : Nat) : State :=
  let g := (s.tile t).groups.headD 0
  (s.wakeTile t 9 g).wakeDom (dramDom (stackOf t)) 9 g

/-- The point of tile t, begun when it is due, or going on when what it waited for has come. -/
def State.point (s : State) (t : Nat) : State :=
  if !s.tileRuns t then s
  else if (s.tile t).lrnBusy.isSome then (s.homeTry t).memberTry t
  else if s.atPoint t && (s.tile t).idle then (s.learnWake t).beginPoint t
  else s

/-- Tile t runs a Lockstep schedule. -/
def State.scheduled (s : State) (t : Nat) : Bool := !(s.curSchedule t).isEmpty

/-- CONSOLIDATION_POINT under Breeze; under Lockstep the learning slot does it (R109, R140). -/
def execConsolidationPoint (t : Nat) (s : State) : Host.Outcome State Fault Refusal :=
  if s.scheduled t && (s.tile t).lrnBusy.isNone then .next s else .next (s.point t)

/-- LACC: a member's accumulators reach the home (R111). -/
def execLacc (t : Nat) (s : State) : Host.Outcome State Fault Refusal :=
  match s.takeMail (toTile t isLacc) with
  | some ({ body := .lacc from_ q seg ws, .. }, s1) =>
    if s.tileActive t then
      .next (((s1.modTile t (fun x => { x with laccIn := x.laccIn ++ [(seg, from_, ws)] })).ackChain t from_ q).homeTry t)
    else .next s1
  | _ => .next s

/-- RROW: a new row segment reaches a member, which rewrites its row and its transposed copy (R111, R112). -/
def execRrow (t : Nat) (s : State) : Host.Outcome State Fault Refusal :=
  match s.takeMail (toTile t isRrow) with
  | some ({ body := .rrow from_ q seg ws, .. }, s1) =>
    if s.tileActive t then
      let u := (s1.tile t).segUnit seg
      let s2 := (List.range ws.length).foldl (fun s j => s.rewriteWord t (seg / 2048) 0 u j (ws.getD j 0).toNat) s1
      .next (((s2.modTile t (fun x => { x with lrnRows := seg :: x.lrnRows })).ackChain t from_ q).memberTry t)
    else .next s1
  | _ => .next s

end Sys2Proof.Machine
end

