-- ==== Sys2Proof/Machine/Slots.lean ====
section
/-! DEFINITION. The slots of a tile's Lockstep schedule: GATHER, RUN, POT, DEP, EMIT, QUIET, LEARN, and slot marks (R54, R61,
R103, R140 to R143, R297). -/

namespace Sys2Proof.Machine

open Sys2Proof

/-! ### The schedule's place (R140, R142) -/

/-- The groups of tile t's schedule. -/
def State.schedGroups (s : State) (t : Nat) : List Nat :=
  ((s.curSchedule t).map schGroup).eraseDups

/-- The turn that the schedule runs next from its first entry: the lowest turn of F among the RUNNING resident lanes of
its groups; the turn it stands at where none runs. -/
def State.nextTurn (s : State) (t : Nat) : Nat :=
  match (s.schedGroups t).flatMap (fun g => (s.runningLanes t g).map (fun l =>
    (s.world (g * 32 + l)).turnOf ((s.tile t).world (g * 32 + l)).f)) with
  | [] => (s.tile t).schedTurn
  | n :: r => r.foldl min n

/-- Tile t at its current slot: at entry 0 the turn is taken first. -/
def State.enterSlot (s : State) (t : Nat) : State :=
  if (s.tile t).slot = 0 then s.modTile t (fun x => { x with schedTurn := s.nextTurn t }) else s

/-- The schedule moves to its next entry, or to entry 0 of the next turn. -/
def State.nextSlot (s : State) (t : Nat) : State :=
  let n := (s.curSchedule t).length
  s.modTile t (fun x =>
    if x.slot + 1 < n then { x with slot := x.slot + 1 } else { x with slot := 0, schedTurn := x.schedTurn + 1 })

/-- The stamp of an entry in the schedule's turn for world w. -/
def State.slotStamp (s : State) (t w : Nat) (e : DWord) : Nat := (s.world w).start (s.tile t).schedTurn + schOffset e

/-- The slot may run (R142): every RUNNING lane of its group has opened the turn and, for RUN, POT and DEP, has T above its
stamp; a group without a RUNNING lane runs nothing. -/
def State.slotOpen (s : State) (t : Nat) (e : DWord) : Bool :=
  let g := schGroup e
  let ls := (s.runningLanes t g).map (g * 32 + ·)
  ls.all (fun w => (s.tile t).schedTurn < (s.world w).opened
    && (!(schOp e = 2 || schOp e = 3 || schOp e = 4) || s.slotStamp t w e < ((s.tile t).world w).t))

/-- Some RUNNING lane has a turn for the schedule to run. -/
def State.anyLane (s : State) (t : Nat) : Bool := (s.schedGroups t).any (fun g => !(s.runningLanes t g).isEmpty)

/-- Runs f at the current slot when its entry has operation op and may run; the schedule moves on, and the turn reports
that waited for it go out (R126). -/
def slotRun (op t : Nat) (q : State → DWord → Bool) (f : State → DWord → State) (s : State) :
    Host.Outcome State Fault Refusal :=
  if !s.scheduled t || !s.tileRuns t || !(s.tile t).idle || !s.anyLane t then .next s
  else
    let s1 := s.enterSlot t
    let e := s1.slotEntry t
    if schOp e = op && s1.slotOpen t e && q s1 e then .next (((f s1 e).nextSlot t).groupReports t (schGroup e)) else .next s

/-! ### GATHER (R61, R140, R297) -/

/-- A number that orders events: row, class, lane, stamp, source, value. -/
def evOrder (ev : Ev) : Nat :=
  ((((ev.row * 4 + ev.cls) * 8192 + ev.w) * 2 ^ 20 + ev.stamp) * 2 ^ 18 + coordNum ev.src) * 256 + ev.value

/-- Inserts an event in order. -/
def insertEv (ev : Ev) : List Ev → List Ev
  | [] => [ev]
  | x :: r => if evOrder ev ≤ evOrder x then ev :: x :: r else x :: insertEv ev r

def sortEvs (l : List Ev) : List Ev := l.foldr insertEv []

/-- The merge entries of events, each in the oldest entry that takes it (R61). -/
def mergeAll : List Ev → List MergeEntry → List MergeEntry
  | [], ms => ms
  | ev :: r, ms =>
    match joinEntry ev (ev.w / 32) ms with
    | some ms' => mergeAll r ms'
    | none => mergeAll r (ms ++
        [{ row := ev.row, group := ev.w / 32, cls := ev.cls, lockstep := true, evs := [(ev.w % 32, ev.id)] }])

/-- The Lockstep events of a group that a slot dispatches: eligible, with a stamp no later than its last. -/
def State.gatherEvs (s : State) (t : Nat) (e : DWord) : List Ev :=
  (s.tile t).intake.filter (fun ev => ev.lockstep && ev.w / 32 = schGroup e && s.eligible t ev
    && !(s.tile t).reflexRow ev.row
    && (s.tile t).fullStamp ev ≤ s.slotStamp t ev.w e + schSpan e - 1)

/-- Dispatches a slot's merged passes whatever their arrival order (R61). -/
def State.gatherDispatch (s : State) (t : Nat) (e : DWord) : State :=
  let evs := sortEvs (s.gatherEvs t e)
  let priv := fun (ev : Ev) => rowPriv (tget (0 : DWord) ev.row (s.tile t).rowdir)
  let s1 := (evs.filter priv).foldl (fun s ev => (s.rowPass t ev.row [ev]).macDone t [ev]) s
  (mergeAll (evs.filter (fun ev => !priv ev)) []).foldl (fun s m =>
    let es := m.evs.filterMap (fun k => (s.tile t).ev k.2)
    (s.rowPass t m.row es).macDone t es) s1

/-- A tag lies among the offsets of a slot in the schedule's turn. -/
def State.tagIn (s : State) (t : Nat) (e : DWord) (tag : Nat) : Bool :=
  tag / 4096 = (s.tile t).schedTurn % 4 && schOffset e ≤ tag % 4096 && tag % 4096 < schOffset e + schSpan e

/-- The sources whose marks for a slot have arrived. -/
def State.marked (s : State) (t : Nat) (e : DWord) : List Nat :=
  (((s.tile t).marks.filter (fun m => m.2.2.1 = schGroup e && s.tagIn t e m.1)).map (·.2.1)).eraseDups

/-- The tiles that have sent their fence notice and whose schedule feeds this slot: their marks are not waited for (R297). -/
def State.fencedSources (s : State) (t : Nat) (e : DWord) : List Nat :=
  (s.tiles.filter (fun u => !s.tileRuns u.1
    && (s.curSchedule u.1).any (fun d => schOp d = 5 && schGroup d = schGroup e && schOffset d = schOffset e)
    && (s.fanDests u.1 (s.schedBank u.1)).any (fun d => d.1 = s.coord t && s.lockstep d.2))).map (·.1)

/-- Volleys received and volleys announced for a slot. -/
def State.gotFor (s : State) (t : Nat) (e : DWord) : Nat :=
  ((s.tile t).got.filter (fun m => m.2.2.1 = schGroup e && s.tagIn t e m.1)).foldl (fun a m => a + m.2.2.2) 0
def State.toldFor (s : State) (t : Nat) (e : DWord) : Nat :=
  ((s.tile t).marks.filter (fun m => m.2.2.1 = schGroup e && s.tagIn t e m.1)).foldl (fun a m => a + m.2.2.2) 0

/-- Volleys received for a slot from sources that are fenced now and have sent no mark (R297). -/
def State.gotFenced (s : State) (t : Nat) (e : DWord) : Nat :=
  ((s.tile t).got.filter (fun m => m.2.2.1 = schGroup e && s.tagIn t e m.1 && (s.fencedSources t e).contains m.2.1
    && !(s.marked t e).contains m.2.1)).foldl (fun a m => a + m.2.2.2) 0

/-- All n marks are in, but for fenced sources, and no more volleys have come than they count; a volley they count that
has not come has been recorded missing by R143. -/
def State.gatherFull (s : State) (t : Nat) (e : DWord) : Bool :=
  let ms := s.marked t e
  s.gotFor t e ≤ s.toldFor t e + s.gotFenced t e && schN e ≤ ms.length + ((s.fencedSources t e).filter (fun u => !ms.contains u)).length

/-- The slot's marks and counts are done with. -/
def State.gatherClear (s : State) (t : Nat) (e : DWord) : State :=
  let keep := fun (m : Nat × Nat × Nat × Nat) => !(m.2.2.1 = schGroup e && s.tagIn t e m.1)
  s.modTile t (fun x => { x with marks := x.marks.filter keep, got := x.got.filter keep })

/-- GATHER: the slot closes and its merged passes go to the array (R140). -/
def execGather (t : Nat) (s : State) : Host.Outcome State Fault Refusal :=
  slotRun 1 t (fun s e => s.gatherFull t e) (fun s e => (s.gatherClear t e).gatherDispatch t e) s

/-! ### RUN, POT, DEP (R102, R103, R106, R140) -/

/-- The RUNNING lanes of the slot's group that stand at its stamp. -/
def State.slotLanes (s : State) (t : Nat) (e : DWord) : List Nat :=
  ((s.runningLanes t (schGroup e)).map (schGroup e * 32 + ·)).filter (fun w =>
    ((s.tile t).world w).f ≤ s.slotStamp t w e)

/-- RUN: updates the slot's stamp for every lane that stands at it (R58). -/
def execRunSlot (t : Nat) (s : State) : Host.Outcome State Fault Refusal :=
  slotRun 2 t (fun _ _ => true) (fun s e =>
    ((s.slotLanes t e).foldl (fun s w => s.beginUpdate t w (s.slotStamp t w e)) s).nextRun t) s

/-- POT: the potentiation passes of the slot's stamp (R106). -/
def execPot (t : Nat) (s : State) : Host.Outcome State Fault Refusal :=
  slotRun 3 t (fun _ _ => true) (fun s e =>
    ((s.runningLanes t (schGroup e)).map (schGroup e * 32 + ·)).foldl (fun s w =>
      s.potentiate t w (s.slotStamp t w e)) s) s

/-- DEP: the depression halves of the slot's stamp (R104). -/
def execDep (t : Nat) (s : State) : Host.Outcome State Fault Refusal :=
  slotRun 4 t (fun _ _ => true) (fun s e =>
    (sortEvs ((s.tile t).intake.filter (fun ev => ev.lockstep && ev.macDone && ev.w / 32 = schGroup e
      && (s.world ev.w).st = .running && (s.tile t).fullStamp ev = s.slotStamp t ev.w e))).foldl
        (fun s ev => s.depEvent t ev) s) s

/-! ### EMIT (R132, R140, R141) -/

/-- The Lockstep destinations of group g in tile t, with the class that reaches each. -/
def State.lockDests (s : State) (t g : Nat) : List (Coord × Nat) :=
  let ns := (((s.tile t).blocks.filter (fun b => blkGroup b = g)).flatMap (fun b =>
    (List.range (blkCount b)).map (blkFirst b + ·))).eraseDups
  let ds := ((ns.flatMap (s.fanout t (s.schedBank t))).map (fun d => (destCoord d, destClass d))).filter
    (fun d => s.lockstep d.2)
  ((ds.map (·.1)).eraseDups).map (fun c => (c, ((ds.find? (fun d => d.1 = c)).map (·.2)).getD 0))

/-- EMIT: sends the group's volleys for the slot's offsets, then one mark to each Lockstep destination with the number
of volleys sent to it. -/
def execEmitSlot (t : Nat) (s : State) : Host.Outcome State Fault Refusal :=
  slotRun 5 t (fun _ _ => true) (fun s e =>
    let g := schGroup e
    let s1 := s.flushOpen t (fun o => s.lockstep o.cls && o.group = g)
    let tag := slotTag (s1.tile t).schedTurn (schOffset e)
    let mine := fun (x : Coord × Nat × Nat) => decide (x.2.1 = g) && s1.tagIn t e x.2.2
    let sent := (s1.tile t).lockSent.filter mine
    let s2 := s1.modTile t (fun x => { x with lockSent := x.lockSent.filter (fun k => !mine k) })
    (s2.lockDests t g).foldl (fun s d =>
      s.send t (s.mkVolley t d.1 g (s.tileBank t (g * 32 + (s.runningLanes t g).headD 0)) d.2 2 tag 0
        (.slotMark (sent.filter (fun k => k.1 = d.1)).length))) s2) s

/-! ### QUIET and LEARN (R30, R70, R109, R140) -/

/-- Up to n scrub bursts on each bank. -/
def State.scrubAll (s : State) (t : Nat) : Nat → State
  | 0 => s
  | n + 1 => ((List.range 32).foldl (fun s b => s.scrub t b) s).scrubAll t n

/-- The age notices that wait for tile t's quiet square. -/
def State.sweepAll (s : State) (t : Nat) : Nat → State
  | 0 => s
  | k + 1 =>
    match s.takeMail (toTile t (s.ageReady t)) with
    | some ({ body := .ctl (.age w n), .. }, s1) => (s1.sweep t w n).sweepAll t k
    | _ => s

/-- QUIET: every due or postponed refresh is granted, up to n scrub bursts on each bank, and pending age sweeps. -/
def execQuiet (t : Nat) (s : State) : Host.Outcome State Fault Refusal :=
  slotRun 6 t (fun _ _ => true) (fun s e =>
    ((s.modTile t (fun x => { x with postponed := [], streaming := false })).scrubAll t (schN e)).sweepAll t
      s.fab.mail.length) s

/-- LEARN: at a point's boundary the slot consolidates, and it ends when the point is complete here (R109). -/
def execLearnSlot (t : Nat) (s : State) : Host.Outcome State Fault Refusal :=
  if !s.scheduled t || !s.tileRuns t || !(s.tile t).idle || !s.anyLane t then .next s
  else
    let s1 := s.enterSlot t
    let e := s1.slotEntry t
    if schOp e ≠ 7 || !s1.slotOpen t e then .next s
    else
      let s2 := s1.point t
      if (s2.tile t).lrnBusy.isSome then .next s2 else .next (s2.nextSlot t)

/-! ### Slot marks (R140, R143) -/

/-- The volleys that tile t holds under the slot of a mark from its source. -/
def State.gotUnder (s : State) (t : Nat) (v : Volley) : Nat :=
  match s.gatherOf t v.group v.slot with
  | none => 0
  | some (_, e) =>
    ((s.tile t).got.filter (fun m => m.2.1 = v.src.key && m.2.2.1 = v.group && m.1 / 4096 = v.slot / 4096
      && schOffset e ≤ m.1 % 4096 && m.1 % 4096 < schOffset e + schSpan e)).foldl (fun a m => a + m.2.2.2) 0

/-- SLOT_MARK: a mark arrives; a count above the volleys received writes one record for each missing volley, and every
RUNNING lane's turn falls under R17. -/
def execSlotMark (t : Nat) (s : State) : Host.Outcome State Fault Refusal :=
  let isMark := fun (v : Volley) => match v.body with
    | .slotMark _ => true
    | _ => false
  match s.takeInbox t isMark with
  | none => .next s
  | some (v, s1) =>
    match v.body with
    | .slotMark n =>
      if !s.tileActive t then .next s1
      else
        let miss := n - s1.gotUnder t v
        let s2 := s1.modTile t (fun x => { x with marks := x.marks ++ [(v.slot, v.src.key, v.group, n)] })
        let s3 : State := { s2 with flt.queue := s2.flt.queue ++ List.replicate miss (volleyItem v .failedSchedule (s2.coord t)) }
        if miss = 0 then .next s3
        else
          .next ((s3.runningLanes t v.group).foldl (fun s l =>
            s.nondetAt t (v.group * 32 + l) ((s.tile t).world (v.group * 32 + l)).f) s3)
    | _ => .next s1

end Sys2Proof.Machine
end

