-- ==== Sys2Proof/Machine/RegRead.lean ====
section
/-! DEFINITION. What each register of BAR0 and each result slot of BAR2 reads as: the register index of R353 with the fields of
the defining chapters, a 32-bit word at a time (R161 to R163, R352, R353). -/

namespace Sys2Proof.Machine

open Sys2Proof

/-- Offset of the low half of n or its high half. -/
def half (n : Nat) (hi : Bool) : Nat := if hi then n / 2 ^ 32 % 2 ^ 32 else n % 2 ^ 32

/-- Index i of an array register at base, stride d, of n elements: the element and the offset in it. -/
def arrayIx (o base d n : Nat) : Option (Nat × Nat) :=
  if base ≤ o && o < base + d * n then some ((o - base) / d, (o - base) % d) else none

/-! ### Domains counted -/

/-- Domains of the package by an id list (R269). -/
def domIds : List Nat :=
  [1, 2, 3, 4, 8, 9] ++ (List.range 8).map (0x010 + ·) ++ (List.range 16).map (0x020 + ·)
    ++ (List.range 16).map (0x040 + ·) ++ (List.range 16).map (0x050 + ·)

/-- Domains in power state p (R269); every domain that ever left ACTIVE is listed in the state. -/
def State.countDoms (s : State) (p : Nat) : Nat := (s.pwr.doms.filter (fun e => e.2.state = p)).length

/-- Domains not ACTIVE (HUB_FENCE_COUNT). -/
def State.countFences (s : State) : Nat := (s.flt.fences.filter (fun e => e.2.st ≠ .active)).length

/-! ### Hub global block (09, 06, 13) -/

/-- Commands at a rack head that wait for a completion entry (HUB_DISPATCH). -/
def State.dispatchWaiting (s : State) : Nat :=
  (s.hub.lds.filter (fun e => e.2.enabled && !(s.rack e.2.cmdRack).msgs.isEmpty && (s.rack e.2.cplRack).free = 0)).length

def State.linkWord (s : State) (k o : Nat) : Nat :=
  let l := s.link k
  if o = 0 then b2n l.lopt * 2 ^ 19 + l.rate * 2 ^ 20 + l.width * 2 ^ 24 + l.state * 2 ^ 29
  else if o = 4 then l.retrains + l.drops * 2 ^ 16
  else if o = 8 then l.replays + l.uncorrected * 2 ^ 16
  else 0

def State.ldWord (s : State) (n o : Nat) : Nat :=
  let l := s.ld n
  if o = 0 then
    l.cmdRack * 2 ^ 8 + l.cplRack * 2 ^ 16 + b2n l.up * 2 ^ 28 + b2n l.hdm * 2 ^ 29 + l.port * 2 ^ 30 + b2n l.enabled * 2 ^ 31
  else l.failedLink + l.drops * 2 ^ 16

/-- The MSI-X table and PBA of the reading LD (R198, R201, R349); the vector control word holds the mask bit. -/
def Ld.msixWord (l : Ld) (o : Nat) : Nat :=
  if 0x1800 ≤ o then (if o = 0x1800 then l.pba.toNat else 0)
  else
    let i := (o - 0x1000) / 4
    if 128 ≤ i then 0
    else if i % 4 = 3 then b2n (l.masked.getLsbD (i / 4)) else (tget (0 : Word) i l.msixTable).toNat

def State.epochWord (s : State) : Nat :=
  let e := s.hub.epoch
  e.drainPip + b2n e.loaded * 2 ^ 28 + b2n e.current * 2 ^ 29 + e.state * 2 ^ 30

def State.spanWord (s : State) (k o : Nat) : Nat :=
  let x := s.span k
  if o = 0 then x.replays + x.lanes * 2 ^ 26 + x.state * 2 ^ 30 else x.corrected + x.uncorrected * 2 ^ 16

def State.fenceStateWord (s : State) (d : Nat) : Nat :=
  (s.fence d).seq % 2 ^ 16 + b2n (s.fenceable d) * 2 ^ 28 + (s.fence d).st.toNat * 2 ^ 29

def State.faultWord (s : State) (m o : Nat) : Nat :=
  let f := s.flt
  if o = 0x3000 then f.head.toNat
  else if o = 0x3004 then f.tail.toNat
  else if o = 0x3008 then f.ovf
  else if o = 0x300C then f.ovfNoWorld
  else if o = 0x3010 then f.late
  else if o = 0x3020 then f.cfg.toNat
  else if o = 0x3030 then (s.master m).fenceSel
  else if o = 0x3034 then s.fenceStateWord (s.master m).fenceSel
  else if o = 0x3038 then s.countFences + f.fenceCount * 2 ^ 16
  else if o = 0x3050 then f.stwResets + b2n f.stwReset * 2 ^ 31
  else if o = 0x3060 then f.stackLost.toNat
  else
    match arrayIx o 0x3100 4 32 with
    | some (i, _) => tget 0 (0x10 + i) f.codeCnt
    | none => 0

def State.hubWord (s : State) (m o : Nat) : Nat :=
  let x := s.master m
  if o = 0x0000 then s.pkg.code * 2 ^ 24 + s.fuses.hubRev.toNat * 2 ^ 16 + s.fuses.baseRev.toNat * 2 ^ 8
  else if o = 0x0004 then s.hub.reduced.toNat * 2 ^ 16 + s.pkg.stacks.foldl (fun a k => a + 2 ^ k) 0
  else if o = 0x0008 then s.hub.p
  else if 0x0010 ≤ o && o < 0x0020 then s.fuses.uid.toNat / 2 ^ (8 * (o - 0x0010)) % 2 ^ 32
  else if o = 0x0020 then m
  else if 0x0040 ≤ o && o < 0x0060 then s.linkWord ((o - 0x0040) / 0x10) (o % 0x10)
  else if 0x0100 ≤ o && o < 0x0180 then s.ldWord ((o - 0x0100) / 8) (o % 8)
  else if o = 0x0200 then x.errCode.toNat + b2n x.errValid * 2 ^ 31
  else if o = 0x0204 then x.errOffset + b2n x.errBar2 * 2 ^ 30
  else if o = 0x0208 then x.errCount
  else if o = 0x0210 then s.hub.executing.length + s.dispatchWaiting * 2 ^ 16
  else if 0x1000 ≤ o && o < 0x2000 then (if isHost m then (s.ld (ldOf m)).msixWord o else 0)
  else if o = 0x2000 then s.hub.classLockstep.toNat
  else if o = 0x2004 then s.epochWord
  else if o = 0x2008 then s.hub.epoch.flips
  else if o = 0x200C then s.hub.fabLost
  else if 0x2100 ≤ o && o < 0x2200 then (tget (0 : Word) ((o - 0x2100) / 4) s.hub.spanRoute).toNat % 16
  else if 0x2200 ≤ o && o < 0x2240 then s.spanWord ((o - 0x2200) / 8) (o % 8)
  else s.faultWord m o

/-! ### Boot block (11) -/

def State.bootWord (s : State) (o : Nat) : Nat :=
  let b := s.boot
  if o = 0x00 then b.fail * 2 ^ 16 + b.phase * 2 ^ 24 + b2n b.degraded * 2 ^ 28 + b.slot * 2 ^ 29 + b.st * 2 ^ 30
  else if o = 0x04 then b.timeMs
  else if o = 0x08 || o = 0x0C then half b.imageId.toNat (o = 0x0C)
  else if o = 0x10 then b.secVersion
  else if o = 0x14 then s.fuses.floor
  else if o = 0x18 then b.chartersValid.toNat + b.chartersIgnored.toNat * 2 ^ 8 + b.chartersRead * 2 ^ 16
  else if o = 0x20 then b.amendSeq
  else if o = 0x24 then
    b.refCode + b.refSection * 2 ^ 8 + b2n (b.amending.any (·.committed)) * 2 ^ 30 + b2n b.amending.isSome * 2 ^ 31
  else if o = 0x28 || o = 0x2C then half b.hostBase.toNat (o = 0x2C)
  else if o = 0x1F0 then b.logHead
  else
    match arrayIx o 0x200 8 64, arrayIx o 0x400 8 16 with
    | some (i, k), _ => if k = 0 then (tget (0, 0) i b.log).1.toNat else (tget (0, 0) i b.log).2.toNat
    | _, some (i, k) => if k = 0 then (tget (0 : Word) i b.roll).toNat else (tget (0 : Word) i b.rollFirst).toNat
    | none, none => 0

/-! ### Racks, sets, pips (07) -/

def State.rackWord (s : State) (m rk o : Nat) : Nat :=
  let r := s.rack rk
  let x := tget {} rk (s.master m).rackRes
  if o = 0x0C4 then x.refused + x.push.toNat * 2 ^ 16 + x.ack.toNat * 2 ^ 24
  else if o = 0x0C8 then
    (r.size + 4095) % 4096 + r.hubReserve * 2 ^ 12 + r.set.getD 0 * 2 ^ 24 + b2n r.set.isSome * 2 ^ 30 + b2n r.enabled * 2 ^ 31
  else if o = 0x0CC then r.msgs.length + r.reserved * 2 ^ 13
  else if o = 0x0D0 then r.next.toNat
  else if o = 0x0D4 then r.refused + r.hubDropped * 2 ^ 16
  else if o = 0x0D8 then r.base
  else 0

def State.setWord (s : State) (n o : Nat) : Nat :=
  let x := s.rackSet n
  if o = 0x40 then x.members.length + b2n x.rotation * 2 ^ 8 + x.last * 2 ^ 12
  else if 0x44 ≤ o && o < 0x54 then
    (List.range 4).foldl (fun a i => a + x.members.getD (o - 0x44 + i) 0 * 2 ^ (8 * i)) 0
  else 0

/-- RACK_STORE.configured. -/
def State.rackStoreWord (s : State) (o : Nat) : Nat :=
  if o = 0 then (s.racks.racks.filter (fun e => e.2.enabled)).foldl (fun a e => a + e.2.size) 0 else 0

def State.pipWord (s : State) (m o : Nat) : Nat :=
  let x := s.master m
  let p := s.pip x.pipSel
  if o = 0x00 then x.pipSel
  else if o = 0x04 then p.count.toNat
  else if o = 0x08 then p.target.toNat
  else if o = 0x0C then p.mode + p.owner * 2 ^ 3 + b2n p.ovf * 2 ^ 9 + p.period * 2 ^ 16
  else if o = 0x10 then p.gen.toNat
  else if o = 0x28 then x.waitCond + x.waitRack * 2 ^ 3 + x.waitTag * 2 ^ 16
  else if o = 0x30 then x.pipResOp * 2 ^ 20 + x.pipResCode.toNat * 2 ^ 24
  else if o = 0x34 then maxWaiters - s.pips.waiters.length
  else if o = 0x38 then s.pips.refused
  else 0

/-! ### Stream ports (10) -/

def OState.toNat : OState → Nat
  | .safe => 0 | .armed => 1 | .hold => 2 | .ramp => 3

/-- The ARMED channels of a port. -/
def Port.armedMask (p : Port) : Nat :=
  ((List.range 64).filter (fun c => (p.out c).ostate = .armed)).foldl (fun a c => a + 2 ^ c) 0

def State.portWord (s : State) (n o : Nat) : Nat :=
  let p := s.port n
  if o = 0x00 then
    p.cfg.inCount + p.cfg.outCount * 2 ^ 14 + p.cfg.mode * 2 ^ 21 + b2n p.cfg.armAtReady * 2 ^ 24 + b2n p.cfg.presIgnore * 2 ^ 25
  else if o = 0x04 then p.cfg.statusRack + (p.cfg.lost.filter (fun e => wf e.2 22 22 = 1)).length * 2 ^ 8
  else if o = 0x08 then
    p.cause * 2 ^ 20 + b2n p.enumFail * 2 ^ 25 + b2n s.aon.haltN * 2 ^ 26 + b2n p.pres * 2 ^ 27 + b2n p.presRaw * 2 ^ 28
      + p.st.toNat * 2 ^ 29
  else if o = 0x0C then p.attaches + p.detaches * 2 ^ 16
  else if o = 0x10 || o = 0x14 then half p.armedMask (o = 0x14)
  else if o = 0x20 then p.sent
  else if o = 0x24 then p.dropped
  else if o = 0x28 then p.idle
  else if o = 0x2C then p.coal
  else if o = 0x30 then p.ignored + p.errors * 2 ^ 16
  else if o = 0x40 then p.encPos.toNat
  else if o = 0x44 then p.encErr
  else
    match arrayIx o 0x100 8 64 with
    | some (c, k) =>
      if k = 0 then (p.out c).value + (p.out c).holdLeft * 2 ^ 10 + (p.out c).ostate.toNat * 2 ^ 30 else (p.out c).drops
    | none => 0

/-- SP_HALT. -/
def State.haltWord (s : State) (o : Nat) : Nat := if o = 0 then s.aon.haltCount + b2n s.aon.haltN * 2 ^ 31 else 0

/-! ### Pool gateway (08) -/

def State.poolWord (s : State) (o : Nat) : Nat :=
  let p := s.pool
  let win := fun i => tget ((0, 0) : DWord × DWord) i p.windows
  if o = 0x00 then
    (p.windows.filter (fun e => winValid e.2)).length + p.members.length * 2 ^ 15 + b2n p.spare.isSome * 2 ^ 19
      + p.failed.getD 15 * 2 ^ 20 + p.stripe * 2 ^ 24 + p.role * 2 ^ 26
  else if o = 0x10 then p.floorPct
  else if o = 0x18 || o = 0x1C then half p.cursor (o = 0x1C)
  else if o = 0x20 then p.recon
  else if o = 0x24 then p.conflicts + p.snoops * 2 ^ 16
  else if o = 0x28 then p.dir.length + (p.dir.filter (fun e => e.trans.isSome)).length * 2 ^ 21
  else if o = 0x2C then p.dirRecall
  else if o = 0x30 then p.merge
  else if o = 0x34 then p.hdmErrCode.toNat + p.hdmErrCount * 2 ^ 16 + b2n p.hdmErrValid * 2 ^ 31
  else if o = 0x38 then p.hdmErrAddr
  else if o = 0x40 then p.bulkDone + p.bulkFailed * 2 ^ 16
  else if o = 0x44 then p.lease
  else
    match arrayIx o 0x100 16 64, arrayIx o 0x600 4 17 with
    | some (i, k), _ =>
      let x := win i
      if k = 0 then wf x.1 31 0
      else if k = 4 then
        wf x.1 47 32 + winExpander x * 2 ^ 16 + b2n (winStriped x) * 2 ^ 20 + b2n (winCacheable x) * 2 ^ 21
          + b2n (winWritable x) * 2 ^ 22 + b2n (winValid x) * 2 ^ 23
      else if k = 8 then wf x.2 31 0 else wf x.2 47 32
    | _, some (i, _) => tget 0 i p.misses
    | none, none => 0

/-! ### Trace (14) -/

/-- The two halfwords of the trace buffer at byte offset o of its window. -/
def Trace.bufWord (t : Trace) (o : Nat) : Nat :=
  (tget (0 : BitVec 16) (o / 2) t.buf).toNat + (tget (0 : BitVec 16) (o / 2 + 1) t.buf).toNat * 2 ^ 16

/-- The byte offset of the oldest valid SYNC, or of the oldest halfword held (TRC_BUF_TAIL). -/
def Trace.tail (t : Trace) : Nat := t.syncs.headD ((t.head + 2 ^ 18 - 2 * t.held) % 2 ^ 18)

/-- TRC_PORT: the selected port runs from START until the capture is OFF (log 42). -/
def Trace.portWord (t : Trace) : Nat :=
  if t.st = 0 then 0 else if fb t.out.toNat 1 0 = 1 then 16 else if fb t.out.toNat 1 0 = 2 then 15 else 0

def State.traceWord (s : State) (o : Nat) : Nat :=
  let t := s.trc
  if 0x40000 ≤ o then t.bufWord (o - 0x40000)
  else if o = 0x00 then
    t.post + t.fired.toNat * 2 ^ 16 + t.owner * 2 ^ 20 + b2n t.serOk * 2 ^ 26 + fb t.out.toNat 1 0 * 2 ^ 27 + t.st * 2 ^ 29
  else if o = 0x04 then fb t.out.toNat 2 0
  else if o = 0x10 then t.filtWorld.toNat
  else if o = 0x14 then t.filtA.toNat
  else if o = 0x18 then t.filtAMask.toNat
  else if o = 0x40 then t.records
  else if o = 0x44 then t.dropped
  else if o = 0x48 then t.gaps
  else if o = 0x50 then t.head
  else if o = 0x54 then t.tail
  else if o = 0x58 then t.portWord
  else
    match arrayIx o 0x20 8 4, arrayIx o 0x100 4 255 with
    | some (k, j), _ => if j = 0 then (tget (0, 0) k t.trigs).1.toNat else (tget (0, 0) k t.trigs).2.toNat
    | _, some (i, _) => (tget (0 : Word) i t.srcs).toNat
    | none, none => 0

/-! ### Power (12, 15) -/

/-- A pin entry names the domain (PWR_PIN_i). -/
def State.pinned (s : State) (d : Nat) : Bool :=
  s.pwr.cfg.pins.any (fun e => bit e.2.toNat 14 && fb e.2.toNat 11 0 = d)

def State.domStateWord (s : State) (d : Nat) : Nat :=
  let x := s.dom d
  x.state + b2n (s.pinned d) * 2 ^ 2 + b2n (s.domClass d).isSome * 2 ^ 3 + x.holdWakes * 2 ^ 16

/-- The package maximum of R11 in W. -/
def maxPower (p : Package) : Nat :=
  match p with
  | .rj2048 => 180
  | .rj512 => 52
  | .rj128 => 6

/-- The effective cap in W: the lowest of the package maximum and the caps that are set (R285). -/
def State.effCap (s : State) : Nat :=
  ([s.pwr.setCap, s.pwr.cfg.capW, s.pwr.fuseCap].filter (· ≠ 0)).foldl min (maxPower s.pkg)

/-- The row of R343's table for a VDD_TILE of 600 + 50 i mV, in units of 10 ps, at 0, 25, 60 and 95 °C. -/
def hcRow (i : Nat) : Nat × Nat × Nat × Nat :=
  match i with
  | 0 => (110, 116, 127, 140)
  | 1 => (92, 97, 106, 116)
  | 2 => (80, 85, 93, 102)
  | 3 => (69, 73, 80, 88)
  | _ => (60, 64, 70, 77)

/-- A row at temperature tj, times 35 × 25: linear between its points, held at the last (R343). -/
def hcTemp (r : Nat × Nat × Nat × Nat) (tj : Nat) : Nat :=
  if tj < 25 then 35 * (r.1 * (25 - tj) + r.2.1 * tj)
  else if tj < 60 then 25 * (r.2.1 * (60 - tj) + r.2.2.1 * (tj - 25))
  else 25 * (r.2.2.1 * (95 - min tj 95) + r.2.2.2 * (min tj 95 - 60))

/-- hc in units of 10 ps at VDD_TILE mv and temperature tj, by bilinear interpolation (R343), rounded to the nearest. -/
def hcOf (tj mv : Nat) : Nat :=
  let v := min (max mv 600) 800 - 600
  ((hcTemp (hcRow (v / 50)) tj * (50 - v % 50) + hcTemp (hcRow (v / 50 + 1)) tj * (v % 50)) + 21875) / 43750

def State.powerWord (s : State) (m o : Nat) : Nat :=
  let p := s.pwr
  let a := s.aon
  if o = 0x00 then
    min (s.countDoms 1) 0xFFF + satv 16 (s.countDoms 2) * 2 ^ 12 + p.level * 2 ^ 28 + b2n p.doldPending * 2 ^ 31
  else if o = 0x04 then p.cfg.turnDelayUs * 2 ^ 8 + s.effCap * 2 ^ 16
  else if o = 0x08 then p.level + satv 16 p.avg * 2 ^ 16
  else if o = 0x0C then p.capOver
  else if o = 0x10 then p.telemDrop
  else if o = 0x14 then p.cfg.depth.toNat
  else if 0x20 ≤ o && o < 0x48 then (tget (0 : Word) ((o - 0x20) / 4) p.cfg.idle).toNat
  else if o = 0x50 then (s.master m).domSel
  else if o = 0x54 then s.domStateWord (s.master m).domSel
  else if o = 0x100 then a.wakeEn.toNat
  else if o = 0x104 then a.wakeTimer
  else if o = 0x108 then a.wakeHead
  else if o = 0x110 || o = 0x114 then half a.wakeLast.toNat (o = 0x114)
  else if o = 0x120 then a.warmWakes + a.doldEntries * 2 ^ 16
  else if o = 0x124 then a.doldMessages + a.doldWorlds * 2 ^ 17
  else if o = 0x128 then a.doldLoss
  else if o = 0x12C then a.warm.cause + b2n p.cfg.rollOnWake * 2 ^ 30 + b2n a.warm.valid * 2 ^ 31
  else if o = 0x130 then a.pgTime + a.railFaults * 2 ^ 16
  else if o = 0x134 then a.sensor + hcOf a.tjMax (500 + 2 * a.vddTile) * 2 ^ 8 + a.vddTile * 2 ^ 16 + a.tjMax * 2 ^ 24 + b2n a.therm * 2 ^ 31
  else
    match arrayIx o 0x200 8 16, arrayIx o 0x400 4 64 with
    | some (i, k), _ => half (tget (0 : DWord) i a.wakeHist).toNat (k = 4)
    | _, some (i, _) => (tget (0 : Word) i p.cfg.pins).toNat
    | none, none => 0

/-! ### Tempo and worlds (02, 05) -/

def WState.toNat : WState → Nat
  | .free => 0 | .standby => 1 | .running => 2 | .parked => 3 | .retiring => 4

def State.countWorlds (s : State) (st : WState) : Nat := (s.tmp.worlds.filter (fun e => e.2.st = st)).length

def State.tempoWord (s : State) (o : Nat) : Nat :=
  let t := s.tmp
  if o = 0x00 then s.countWorlds .running + s.countWorlds .parked * 2 ^ 14
  else if o = 0x08 || o = 0x0C then half s.aon.wall (o = 0x0C)
  else if o = 0x14 then t.advErrCode.toNat + t.advErrWorld * 2 ^ 16 + b2n t.advErrValid * 2 ^ 31
  else if o = 0x18 then t.advErrCnt
  else if o = 0x20 then s.aon.pinCfg.toNat
  else if 0x24 ≤ o && o < 0x34 then (tget (0 : Word) ((o - 0x24) / 4) s.aon.pinCount).toNat
  else if o = 0x34 then (List.range 4).foldl (fun a k => a + tget 0 k s.aon.glitch * 2 ^ (8 * k)) 0
  else if o = 0x40 then t.learnPeriod + t.learnRack * 2 ^ 24
  else
    match arrayIx o 0x1000 4 256 with
    | some (g, _) =>
      let x := tget {} g t.groups
      x.mode + b2n x.frozen * 2 ^ 2 + x.points % 2 ^ 16 * 2 ^ 16
    | none => 0

/-- A turn of world w waits for an age sweep (R30). -/
def World.sweepWait (x : World) : Bool :=
  x.closed < x.opened && x.sweeps.any (fun e => x.turnOf (e.1 + 2 ^ 17) = x.closed)

def State.worldWord (s : State) (w o : Nat) : Nat :=
  let x := s.world w
  if o = 0x00 then
    x.st.toNat + x.parkCause * 2 ^ 8 + b2n (s.gated w) * 2 ^ 16 + b2n (0 < x.debt) * 2 ^ 17 + b2n x.overrun * 2 ^ 18
      + b2n x.sweepWait * 2 ^ 19
  else if o = 0x04 then
    x.srcKind + x.srcIndex * 2 ^ 3 + x.peerPackage * 2 ^ 16 + x.peerLink * 2 ^ 22 + x.owner * 2 ^ 25
  else if o = 0x08 then
    x.turnLenM1 + x.lagLimit * 2 ^ 12 + b2n x.parkOnOverrun * 2 ^ 20 + b2n x.gateEn * 2 ^ 21 + b2n x.privateLearn * 2 ^ 22
      + b2n x.autostart * 2 ^ 23 + x.statusRack * 2 ^ 24
  else if o = 0x0C then x.tetherMs + x.scaleDiv * 2 ^ 16
  else if o = 0x10 then x.turnPip + x.scaleMul * 2 ^ 18
  else if o = 0x14 || o = 0x18 then half x.anchor (o = 0x18)
  else if o = 0x1C then half x.t false
  else if o = 0x20 then half x.t true + x.debt * 2 ^ 8
  else if o = 0x24 then satv 32 (x.s - x.t)
  else if o = 0x28 then (x.closed + (2 ^ 32 - 1)) % 2 ^ 32
  else if o = 0x2C then x.padv
  else 0

/-! ### Tiles (03, 04, 05, 06, 13) -/

/-- TILE_ID, which the stack root answers. -/
def State.tileIdWord (s : State) (t : Nat) : Nat :=
  let st := stackOf t
  let row := physRow (s.colDefects st (tileX t % 8)) (tileY t % 16)
  tileY t + tileX t * 2 ^ 6 + tileX t % 8 * 2 ^ 13 + row * 2 ^ 16 + st * 2 ^ 21 + b2n (row ≠ tileY t % 16) * 2 ^ 25
    + (s.fence (tileDom t)).st.toNat * 2 ^ 26

/-- The current slot of tile t's schedule waits for marks or lanes (TILE_SLOT, R142). -/
def State.slotWaiting (s : State) (t : Nat) : Bool :=
  let e := s.slotEntry t
  s.scheduled t && (!s.slotOpen t e || (schOp e = 1 && !s.gatherFull t e))

/-- The mask of the model slots that q selects. -/
def Tile.modelMask (x : Tile) (q : List DWord → Bool) : Nat :=
  (x.models.filter (fun e => q e.2)).foldl (fun a e => a + 2 ^ e.1) 0

def State.tileLowWord (s : State) (t o : Nat) : Nat :=
  let x := s.tile t
  let w := x.world x.wsel
  if o = 0x00 then s.tileIdWord t
  else if o = 0x04 then x.cfg.cfg.toNat
  else if o = 0x08 then x.cfg.spill.toNat
  else if o = 0x0C then x.cfg.intakeCfg.toNat
  else if o = 0x10 then x.cfg.twin.toNat
  else if o = 0x14 then x.wsel
  else if o = 0x18 then
    w.f % 2 ^ 20 + b2n (x.resident x.wsel) * 2 ^ 20
      + (if (s.world x.wsel).st = .parked then (x.intake.filter (fun e => e.w = x.wsel)).length else 0) * 2 ^ 21
  else if o = 0x1C then
    let n := (s.world x.wsel).turnOf w.f
    tget 0 n w.intakeDrops + tget 0 n w.wheelDrops * 2 ^ 16
  else if o = 0x20 then x.intake.length + x.intakeHigh * 2 ^ 11
  else if o = 0x24 then x.wheel.length + x.wheelHigh * 2 ^ 16
  else if o = 0x30 then (x.postponed.map (·.2)).foldl max 0 + x.refPostponed * 2 ^ 4
  else if o = 0x34 then x.refForced
  else if o = 0x38 then x.scrubForced
  else if o = 0x40 then x.ceSram + x.ceDram * 2 ^ 16
  else if o = 0x44 then x.ueSram + x.ueDram * 2 ^ 8 + x.ueParity * 2 ^ 16
  else if o = 0x50 then x.rowpass.toNat
  else if o = 0x54 then x.lanes.toNat
  else if o = 0x70 then x.quarRecovered + x.quar.length * 2 ^ 16 + b2n x.quarFull * 2 ^ 31
  else if o = 0x74 then x.quarLastUnit + x.quarLastSource * 2 ^ 21
  else if o = 0x300 then x.sqOther
  else
    match arrayIx o 0x100 8 64 with
    | some (i, k) =>
      match x.sqSrcs[i]? with
      | some (c, n) => if k = 0 then coordNum c + 2 ^ 31 else n
      | none => 0
    | none => 0

def State.tileMidWord (s : State) (t o : Nat) : Nat :=
  let x := s.tile t
  let c := x.cfg
  if o = 0x400 then x.seed.toNat
  else if o = 0x404 then
    x.modelMask (fun _ => true) + x.modelMask mdStateless * 2 ^ 8 + x.modelMask mdLearn * 2 ^ 16 + x.modelMask mdReflex * 2 ^ 24
  else if o = 0x408 then x.gbRuns.toNat
  else if o = 0x40C then x.gbSteps.toNat
  else if o = 0x410 then x.gbFaultPc * 2 ^ 17 + x.gbFaultModel * 2 ^ 26 + x.gbFaultCause * 2 ^ 29 + b2n x.gbFaultValid * 2 ^ 31
  else if o = 0x414 then x.gbFaultNeuron + x.gbFaultWorld * 2 ^ 17
  else if o = 0x418 then x.gbFaultCnt
  else if o = 0x41C then x.gbEmit2
  else if o = 0x420 then x.gbMaxHc + x.gbMaxModel * 2 ^ 16
  else if o = 0x424 then x.gbSlotOver
  else if o = 0x500 then c.repl.toNat
  else if o = 0x504 then c.pret.toNat
  else if o = 0x508 then c.wbase.toNat
  else if o = 0x50C then c.abase.toNat
  else if o = 0x510 then c.tbase.toNat
  else if o = 0x514 then c.tabase.toNat
  else if o = 0x520 then x.lrnDep
  else if o = 0x524 then x.lrnPot
  else if o = 0x528 then x.lrnClamp
  else if o = 0x52C then x.lrnDchg
  else if o = 0x530 then x.lrnPoint
  else
    match arrayIx o 0x580 8 8, arrayIx o 0x600 4 64 with
    | some (i, k), _ => half ((tfind i c.rules).getD { pot := [], dep := [], params := 0 }).params.toNat (k = 4)
    | _, some (i, _) => (match tfind i c.grps with
      | some g => g + 2 ^ 8
      | none => 0)
    | none, none => 0

def State.tileWord (s : State) (t o : Nat) : Nat :=
  let x := s.tile t
  let c := x.cfg
  if o < 0x400 then s.tileLowWord t o
  else if o < 0x800 then s.tileMidWord t o
  else if o = 0x800 then c.rtCfg.toNat
  else if o = 0x804 then c.foA.toNat
  else if o = 0x808 then c.foB.toNat
  else if o = 0x80C then c.schedA.toNat
  else if o = 0x810 then c.schedB.toNat
  else if o = 0x814 then x.pace.r
  else if o = 0x818 then x.hwMarked + x.hwEchoes * 2 ^ 16
  else if o = 0x820 then x.oldSent
  else if o = 0x824 then x.oldRecv
  else if o = 0x828 then x.slot + b2n (s.slotWaiting t) * 2 ^ 31
  else
    match arrayIx o 0x840 4 16, arrayIx o 0x880 4 16 with
    | some (i, _), _ => (tget (0 : Word) i x.detourA).toNat
    | _, some (i, _) => (tget (0 : Word) i x.detourB).toNat
    | none, none => 0

/-! ### Result slots (R161 to R163, R352) -/

/-- The header's first word. -/
def slotHead (turn : Nat) (c : Code) (w : Nat) (flags : BitVec 7) : Nat :=
  turn % 2 ^ 32 + c.toNat * 2 ^ 32 + w * 2 ^ 40 + flags.toNat * 2 ^ 53

/-- A channel entry (R163). -/
def Chan.word (c : Chan) : Nat := c.value + c.stamp % 2 ^ 20 * 2 ^ 8 + b2n c.valid * 2 ^ 28 + satv 16 c.count * 2 ^ 32

/-- Word i of slot k of world w in the stage 1 form (R161). -/
def slotStage1 (w k i : Nat) : Nat :=
  if i = 0 then slotHead k .notReady w 0 else if i = 1 then 0xFFFF_FFFF else 0

/-- Word i of a slot: stage 1 for a world that has not started or is FREE, the header alone while its turn is not closed,
the snapshot from the close on. -/
def State.slotWord (s : State) (w k i : Nat) : Nat :=
  let x := s.world w
  match tfind (4 * w + k) s.tmp.slots with
  | none => slotStage1 w k i
  | some z =>
    if x.st = .free || x.st = .standby then slotStage1 w k i
    else if !z.ready then
      if i = 0 then slotHead z.turn .notReady w 0 else if i = 1 then (x.closed + (2 ^ 32 - 1)) % 2 ^ 32 else 0
    else if i = 0 then slotHead z.turn .done w z.flags
    else if i = 1 then z.last.toNat + satv 32 z.skipped * 2 ^ 32
    else if i = 2 then z.intake + z.wheel * 2 ^ 32
    else if i = 3 then z.lossOvf
    else if i = 4 then z.tempo % 2 ^ 40
    else if i = 5 then z.wall
    else if i < 8 then 0
    else (tget {} (i - 8) z.chans).word

/-- The 64-bit words of a read of `size` bytes at offset o, from a function of the word index; a 4-byte read answers its
word in the low half. -/
def readWords (f : Nat → Nat) (o size : Nat) : List DWord :=
  if size = 4 then [BitVec.ofNat 64 (half (f (o / 8)) (o % 8 = 4))]
  else (List.range (size / 8)).map (fun i => BitVec.ofNat 64 (f (o / 8 + i)))

end Sys2Proof.Machine
end

