-- ==== Sys2Proof/Machine/Regs.lean ====
section
/-! DEFINITION. Register accesses of BAR0 and result reads of BAR2: which are refused and with what code, LO and HI latches,
writes by field type, tile windows by way of the draft stations, MSI-X (R7, R9, R134, R162, R198 to R201, R207, R263, R295,
R349 to R353). -/

namespace Sys2Proof.Machine

open Sys2Proof

/-! ### The map (R349) -/

/-- The blocks of BAR0. -/
inductive BarBlock where
  | hub | msix | boot | rackWin (n : Nat) | setWin (n : Nat) | rackStore | pips | port (n : Nat) | halt | pool | trace
  | power | tempo | world (w : Nat) | tile (t : Nat) | reserved
deriving DecidableEq, Repr

/-- The block of a BAR0 offset. -/
def barBlock (off : Nat) : BarBlock :=
  if off < 0x100000 then (if 0x1000 ≤ off && off < 0x2000 then .msix else .hub)
  else if off < 0x200000 then .boot
  else if off < 0x280000 then .rackWin ((off - 0x200000) / 0x800)
  else if off < 0x284000 then .setWin ((off - 0x280000) / 0x100)
  else if 0x290000 ≤ off && off < 0x291000 then .rackStore
  else if 0x300000 ≤ off && off < 0x301000 then .pips
  else if 0x400000 ≤ off && off < 0x410000 then .port ((off - 0x400000) / 0x1000)
  else if 0x410000 ≤ off && off < 0x411000 then .halt
  else if 0x500000 ≤ off && off < 0x600000 then .pool
  else if 0x600000 ≤ off && off < 0x680000 then .trace
  else if 0x700000 ≤ off && off < 0x800000 then .power
  else if 0x800000 ≤ off && off < 0x810000 then .tempo
  else if 0x810000 ≤ off && off < 0x890000 then .world ((off - 0x810000) / 0x40)
  else if 0x1000000 ≤ off && off < 0x3000000 then .tile ((off - 0x1000000) / 0x4000)
  else .reserved

/-- The offset within its block. -/
def barRel (off : Nat) : Nat :=
  match barBlock off with
  | .hub => off
  | .msix => off
  | .boot => off - 0x100000
  | .rackWin _ => (off - 0x200000) % 0x800
  | .setWin _ => (off - 0x280000) % 0x100
  | .rackStore => off - 0x290000
  | .pips => off - 0x300000
  | .port _ => (off - 0x400000) % 0x1000
  | .halt => off - 0x410000
  | .pool => off - 0x500000
  | .trace => off - 0x600000
  | .power => off - 0x700000
  | .tempo => off - 0x800000
  | .world _ => (off - 0x810000) % 0x40
  | .tile _ => (off - 0x1000000) % 0x4000
  | .reserved => off

/-- Master m has the right that an access to a block needs (R349); PIP_SEL, the MSI-X table and the PBA need none, and a
reserved range has no table. -/
def State.barRight (s : State) (m off : Nat) (need : Right) : Bool :=
  match barBlock off with
  | .hub => s.has m .hubBlock need
  | .msix => true
  | .boot => s.has m .bootBlock need
  | .rackWin n => s.has m (.rack n) need
  | .setWin n => s.hasSet m n need
  | .rackStore => s.has m .rackStoreBlock need
  | .pips => off = 0x300000 || need.rank ≤ (s.pipRight m (s.master m).pipSel).rank
  | .port n => s.has m (.port n) need
  | .halt => s.has m .hubBlock need
  | .pool => s.has m .poolBlock need
  | .trace => s.has m .trace need
  | .power => s.has m .powerBlock need
  | .tempo => s.has m .tempoBlock need
  | .world w => s.has m (.world w) need
  | .tile t => s.has m (.tile t) need
  | .reserved => false

/-- The block exists on this package (R350). -/
def State.barExists (s : State) (off : Nat) : Bool :=
  match barBlock off with
  | .rackWin n => (s.rack n).enabled
  | .setWin n => !(s.rackSet n).members.isEmpty
  | .tile t => s.tilePresent t
  | .reserved => false
  | _ => true

/-- The tile window's domain refuses the access (R350); TILE_ID is answered while the stack is ACTIVE. -/
def State.barFenced (s : State) (off : Nat) (isRead : Bool) : Bool :=
  match barBlock off with
  | .tile t => !s.tileActive t && !(isRead && barRel off < 4 && s.domActive (stackDom (stackOf t)))
  | _ => false

/-- Size and alignment (R199). -/
def barSizeOk (off size : Nat) : Bool :=
  let wide := match barBlock off with
    | .rackWin _ => true
    | .setWin _ => true
    | _ => false
  (size = 4 || size = 8 || (wide && (size = 16 || size = 32))) && off % size = 0 && off + size ≤ 2 ^ 26

/-- Why an access of a READY package is refused: size, right, absence, fence, in this order (R9, R199, R350). -/
def State.barCheck (s : State) (m off size : Nat) (isRead : Bool) (need : Right) : Option Code :=
  if !barSizeOk off size || !s.barRight m off need || !s.barExists off then some .failedAccess
  else if s.barFenced off isRead then some .failedFenced
  else none

/-- Why a read is refused, none when it is allowed: before READY only the boot block is read, by any master (R263, log
36). -/
def State.readRefusal (s : State) (m off size : Nat) : Option Code :=
  if s.isReady then s.barCheck m off size true .read
  else if barBlock off = .boot then (if barSizeOk off size then none else some .failedAccess)
  else some .notReady

/-! ### LO and HI registers (R351) -/

/-- The register at the offset is a LO register. -/
def loReg (off : Nat) : Bool :=
  let o := barRel off
  match barBlock off with
  | .boot => o = 0x08 || o = 0x28 || (0x200 ≤ o && o < 0x400 && o % 8 = 0)
  | .port _ => o = 0x10
  | .pool => o = 0x18 || (0x100 ≤ o && o < 0x500 && o % 16 = 8)
  | .power => o = 0x110 || (0x200 ≤ o && o < 0x280 && o % 8 = 0)
  | .tempo => o = 0x08
  | .world _ => o = 0x14 || o = 0x1C
  | .tile _ => 0x580 ≤ o && o < 0x5C0 && o % 8 = 0
  | _ => false

def hiReg (off : Nat) : Bool := 4 ≤ off && loReg (off - 4)

/-- A read of `size` bytes at a LO register has returned data whose upper half is the HI register's value: a 4-byte read
latches it, an 8-byte read reads both and releases a latch (R351, log 37). -/
def State.loLatch (s : State) (m off size : Nat) (hi : Word) : State :=
  if !loReg off then s
  else if size = 4 then s.modMaster m (fun x => { x with loLatch := tset off hi x.loLatch })
  else s.modMaster m (fun x => { x with loLatch := tdel off x.loLatch })

/-! ### Reads -/

/-- The live value of the register at an offset outside the tile windows and the read regions (R353). -/
def State.regWord (s : State) (m off : Nat) : Nat :=
  let o := barRel off
  match barBlock off with
  | .hub => s.hubWord m o
  | .msix => s.hubWord m o
  | .boot => s.bootWord o
  | .rackWin n => s.rackWord m n o
  | .setWin n => s.setWord n o
  | .rackStore => s.rackStoreWord o
  | .pips => s.pipWord m o
  | .port n => s.portWord n o
  | .halt => s.haltWord o
  | .pool => s.poolWord o
  | .trace => s.traceWord o
  | .power => s.powerWord m o
  | .tempo => s.tempoWord o
  | .world w => s.worldWord w o
  | .tile t => s.tileWord t o
  | .reserved => 0

/-- A read of a POP, LATCH or PEEK region of a rack or set window (R158): the latch of the master, or the head message,
with the offset of the region. -/
def State.region (s : State) (m off : Nat) : Option (List DWord × Nat) :=
  let o := barRel off
  let latch := fun (k : Nat) => padMsg (tget [] k (s.master m).latches)
  match barBlock off with
  | .rackWin n =>
    if 0x40 ≤ o && o < 0x60 then some (latch n, 0x40)
    else if 0x60 ≤ o && o < 0x80 then some (latch n, 0x60)
    else if 0x80 ≤ o && o < 0xA0 then some (padMsg (peekMsg s n), 0x80)
    else none
  | .setWin n =>
    let x := s.rackSet n
    if o < 0x20 then some (latch (256 + n), 0)
    else if o < 0x40 then
      some (padMsg (match setServe s x with
        | some (_, rk) => peekMsg s rk
        | none => [setEmpty s x]), 0x20)
    else if 0x60 ≤ o && o < 0x80 then some (latch (256 + n), 0x60)
    else none
  | _ => none

/-- The region belongs to a command rack, which only the hub consumes (R155). -/
def State.cmdRegion (s : State) (m off : Nat) : Bool :=
  (s.region m off).isSome && (match barBlock off with
    | .rackWin n => s.isCmdRack n
    | .setWin n => (s.rackSet n).members.any s.isCmdRack
    | _ => false)

/-- The read has a row of its own: a POP or PEEK that includes byte 0, and the LATCH row's whole read. -/
def ownRead (off size : Nat) : Bool :=
  let o := barRel off
  match barBlock off with
  | .rackWin _ => o = 0x40 || o = 0x80 || (o = 0x60 && size = 32)
  | .setWin _ => o = 0x00 || o = 0x20
  | _ => false

/-- The words a read returns. -/
def State.readAt (s : State) (m off size : Nat) : List DWord :=
  match s.region m off with
  | some (ws, o) => readWords (fun i => (ws.getD i 0).toNat) (barRel off - o) size
  | none => readWords (fun i => s.regWord m (8 * i) + s.regWord m (8 * i + 4) * 2 ^ 32) off size

/-- A tile access leaves for the tile's draft station by its stack root, and is outstanding until its reply (R134,
R295). -/
def State.cfgSend (s : State) (m t off size : Nat) (c : Ctl) : State :=
  ({ s with flt.hostReqs := s.flt.hostReqs ++ [(m, t, off, size)] } : State).toRoot (epKey 32 0) (stackOf t) c

/-- A read of BAR0 that is allowed: from a tile window by CFG_READ, from any other block at once. -/
def State.barRead (s : State) (m off size : Nat) : State :=
  match barBlock off with
  | .tile t => s.cfgSend m t (barRel off) size (.cfgRead t (barRel off) size m)
  | _ => (s.loLatch m off size (BitVec.ofNat 32 (s.regWord m (off + 4)))).respond m (s.readAt m off size)

/-- A read of the result window (R161, R162, R199, R263): before READY the stage 1 form; without READ a FAILED_ACCESS
header, latched as a refusal. -/
def State.slotRead (s : State) (m off size : Nat) : State :=
  let w := off / 0x4000
  let k := off / 0x1000 % 4
  let o := off % 0x1000
  if !((size = 4 || size = 8 || size = 16 || size = 32 || size = 64) && off % size = 0 && off + size ≤ 2 ^ 27) then
    s.refuse m true off .failedAccess true
  else if !s.isReady then s.respond m (readWords (slotStage1 w k) o size)
  else if !s.has m (.world w) .read then
    (s.refuse m true off .failedAccess true).modMaster m (fun x =>
      { x with resp := { words := readWords (fun i => if i = 0 then slotHead 0 .failedAccess 0 0 else 0) o size,
                         code := .failedAccess, poison := false } })
  else s.respond m (readWords (s.slotWord w k) o size)

/-- LO_READ: a read of BAR2, or of BAR0 at an offset that is not a HI register's; a 4-byte read of a LO register latches
its HI register for the master (R351). Reads with a row of their own leave the state (log 2). -/
def execLoRead (m : Nat) (bar2 : Bool) (off size : Nat) (s : State) : Host.Outcome State Fault Refusal :=
  if bar2 then .next (s.slotRead m off size)
  else if (size = 4 && hiReg off) || ownRead off size then .next s
  else if s.isReady && s.cmdRegion m off then .next (s.refuse m false off .failedAccess true)
  else
    match s.readRefusal m off size with
    | some c => .next (s.refuse m false off c true)
    | none => .next (s.barRead m off size)

/-- HI_READ: a 4-byte read of a HI register returns and releases the master's latch, or returns the live value (R351). -/
def execHiRead (m off : Nat) (s : State) : Host.Outcome State Fault Refusal :=
  if !hiReg off then .next s
  else
    match s.readRefusal m off 4 with
    | some c => .next (s.refuse m false off c true)
    | none =>
      match tfind (off - 4) (s.master m).loLatch with
      | some v =>
        .next ((s.modMaster m (fun x => { x with loLatch := tdel (off - 4) x.loLatch })).respond m [v.zeroExtend 64])
      | none => .next (s.barRead m off 4)

/-! ### Writes (R7, R207, R263) -/

/-- The register at the offset has a row of its own, which performs its write. -/
def ownWrite (off : Nat) : Bool :=
  let o := barRel off
  match barBlock off with
  | .hub => o = 0x3004 || o = 0x3050
  | .boot => o = 0x30
  | .rackWin _ => o < 0x008 || o = 0x0C0
  | .pips => o = 0x08 || o = 0x0C || (0x14 ≤ o && o ≤ 0x24) || o = 0x2C
  | .pool => o = 0x10 || o = 0x14 || o = 0x48
  | .tempo => o = 0x10 || (0x1000 ≤ o && o < 0x1400)
  | .tile _ => o = 0x60
  | _ => false

/-- A field at the offset is marked "Needs ADMIN" (R207): BOOT_HOST_BASE after READY and PWR_WAKE_EN; every other one has a
row of its own. -/
def adminWrite (off : Nat) : Bool :=
  let o := barRel off
  match barBlock off with
  | .boot => o = 0x28 || o = 0x2C
  | .power => o = 0x100
  | _ => false

/-- Word o of the MSI-X table of an LD is written; a vector whose mask bit is cleared fires when its PBA bit is set
(R201). -/
def Ld.unmask (l : Ld) (v : Nat) : Ld :=
  let l1 := { l with masked := l.masked &&& ~~~(BitVec.ofNat 32 (2 ^ v)) }
  if l.pba.getLsbD v then
    { l1 with pba := l1.pba &&& ~~~(BitVec.ofNat 32 (2 ^ v)), fired := tmod 0 v (· + 1) l1.fired }
  else l1

def Ld.msixPut (l : Ld) (o : Nat) (v : Word) : Ld :=
  let i := (o - 0x1000) / 4
  if 128 ≤ i then l
  else if i % 4 = 3 then
    (if v.getLsbD 0 then { l with masked := l.masked ||| BitVec.ofNat 32 (2 ^ (i / 4)) } else l.unmask (i / 4))
  else { l with msixTable := tset i v l.msixTable }

/-- A half of a 64-bit word replaced. -/
def putHalf (d : DWord) (hi : Bool) (v : Word) : DWord :=
  if hi then v ++ d.extractLsb' 0 32 else d.extractLsb' 32 32 ++ v

/-- A write of v to the register at the offset, by field type (R7): RW fields are set, W1C bits cleared; RO and reserved
ones, and unnamed offsets, are ignored (R353). -/
def State.regPut (s : State) (m off : Nat) (v : Word) : State :=
  let o := barRel off
  match barBlock off with
  | .hub =>
    if o = 0x200 then s.modMaster m (fun x => { x with errValid := x.errValid && !v.getLsbD 31 })
    else if o = 0x3030 then s.modMaster m (fun x => { x with fenceSel := fb v.toNat 11 0 })
    else s
  | .msix => if isHost m then s.modLd (ldOf m) (fun l => l.msixPut o v) else s
  | .boot =>
    if o = 0x28 then { s with boot.hostBase := putHalf s.boot.hostBase false (v &&& 0xFFFF_FFC0) }
    else if o = 0x2C then { s with boot.hostBase := putHalf s.boot.hostBase true v }
    else s
  | .rackWin n =>
    if 0x008 ≤ o && o < 0x020 then
      s.modMaster m (fun x =>
        { x with staging := tmod [] n (fun st => tmod 0 (o / 8) (fun d => putHalf d (o % 8 = 4) v) st) x.staging })
    else s
  | .pips =>
    if o = 0x00 then s.modMaster m (fun x => { x with pipSel := fb v.toNat 17 0 })
    else if o = 0x28 then
      s.modMaster m (fun x =>
        { x with waitTag := fb v.toNat 31 16, waitRack := fb v.toNat 10 3, waitCond := fb v.toNat 2 0 })
    else s
  | .pool => if o = 0x34 then { s with pool.hdmErrValid := s.pool.hdmErrValid && !v.getLsbD 31 } else s
  | .power =>
    if o = 0x50 then s.modMaster m (fun x => { x with domSel := fb v.toNat 11 0 })
    else if o = 0x100 then { s with aon.wakeEn := v.truncate 23 }
    else s
  | .tempo =>
    if o = 0x14 then { s with tmp.advErrValid := s.tmp.advErrValid && !v.getLsbD 31 }
    else if o = 0x34 then
      { s with aon.glitch := (List.range 4).foldl (fun t k =>
          tmod 0 k (fun n => n &&& (0xFF ^^^ fb v.toNat (8 * k + 7) (8 * k))) t) s.aon.glitch }
    else s
  | .tile t => if o = 0x14 || o = 0x410 then s.cfgSend m t o 0 (.cfgWrite t o v m) else s
  | _ => s

/-- The offsets of the 32-bit words of an access. -/
def accessWords (off size : Nat) : List Nat := (List.range (size / 4)).map (fun i => off + 4 * i)

/-- Why a write is refused, none when it is allowed (R207, R263): before READY any host master may write BOOT_HOST_BASE and
nothing else here. -/
def State.writeRefusal (s : State) (m off size : Nat) : Option Code :=
  if s.isReady then
    s.barCheck m off size false (if (accessWords off size).any adminWrite then .admin else .use)
  else if isHost m && barBlock off = .boot && (accessWords off size).all (fun o => barRel o = 0x28 || barRel o = 0x2C) then
    (if barSizeOk off size then none else some .failedAccess)
  else some .notReady

/-- REGISTER_WRITE: a write of `size` bytes is checked for size and rights and applied word by word; a write to BAR2 is
refused (R199). Words with a row of their own are that row's (log 2). A write to a rack window that is not a message's
body changes nothing. -/
def execRegisterWrite (m : Nat) (bar2 : Bool) (off size : Nat) (v : BitVec 256) (s : State) :
    Host.Outcome State Fault Refusal :=
  if bar2 then .next (s.refuse m true off .failedAccess false)
  else if !(accessWords off size).isEmpty && (accessWords off size).all ownWrite then .next s
  else
    match s.writeRefusal m off size with
    | some c => .next (s.refuse m false off c false)
    | none =>
      let tile := match barBlock off with
        | .tile _ => true
        | _ => false
      let s1 := if tile then s else s.respond m []
      .next ((List.range (size / 4)).foldl (fun s i =>
        if ownWrite (off + 4 * i) then s else s.regPut m (off + 4 * i) (v.extractLsb' (32 * i) 32)) s1)

/-- A register with a row of its own is written with v by master m: refused by R200, or f applied. -/
def ownReg (m off : Nat) (need : Right) (f : State → Option State) (s : State) : Host.Outcome State Fault Refusal :=
  match if s.isReady then s.barCheck m off 4 false need else some .notReady with
  | some c => .next (s.refuse m false off c false)
  | none =>
    match f s with
    | some s1 => .next (s1.respond m [])
    | none => .next (s.refuse m false off .failedAccess false)

/-! ### Tile windows (R134, R295) -/

/-- The code of a tile access at its draft station: VC1 requests to a tile that is not ACTIVE fail (R296); the root answers
TILE_ID (R350). -/
def State.stationCode (s : State) (t : Nat) (idRead : Bool) : Code :=
  if s.tileActive t || idRead then .done else .failedFenced

/-- A tile register's write by field type: TILE_WSEL and TILE_GB_FAULT.valid. -/
def Tile.regPut (x : Tile) (o : Nat) (v : Word) : Tile :=
  if o = 0x14 then { x with wsel := fb v.toNat 12 0 }
  else if o = 0x410 then { x with gbFaultValid := x.gbFaultValid && !v.getLsbD 31 }
  else x

def isCfgWrite : MailBody → Bool
  | .ctl (.cfgWrite ..) => true
  | _ => false
def isCfgRead : MailBody → Bool
  | .ctl (.cfgRead ..) => true
  | _ => false

/-- CFG_WRITE: a configuration write reaches tile t's draft station, and is answered. -/
def execCfgWrite (t : Nat) (s : State) : Host.Outcome State Fault Refusal :=
  match s.takeMail (toTile t isCfgWrite) with
  | some ({ body := .ctl (.cfgWrite _ o v m), .. }, s1) =>
    let c := s1.stationCode t false
    let s2 := if c = .done then (s1.wakeTile t 1 m).modTile t (fun x => x.regPut o v) else s1
    .next (s2.fromRoot (stackOf t) 32 (.cfgReply t o 0 0 c m))
  | _ => .next s

/-- CFG_READ: a configuration read reaches tile t's draft station, which replies with the register's value, and with its
HI register's where it is a LO register. -/
def execCfgRead (t : Nat) (s : State) : Host.Outcome State Fault Refusal :=
  match s.takeMail (toTile t isCfgRead) with
  | some ({ body := .ctl (.cfgRead _ o size m), .. }, s1) =>
    let c := s1.stationCode t (decide (o < 4))
    let s2 := if c = .done then s1.wakeTile t 1 m else s1
    let d := if c = .done then s2.tileWord t o + s2.tileWord t (o + 4) * 2 ^ 32 else 0
    .next (s2.fromRoot (stackOf t) 32 (.cfgReply t o size (BitVec.ofNat 64 d) c m))
  | _ => .next s

def isCfgReply : Ctl → Bool
  | .cfgReply .. => true
  | _ => false

/-- Removes the first outstanding access of master m to tile t. -/
def dropReq (m t : Nat) : List (Nat × Nat × Nat × Nat) → List (Nat × Nat × Nat × Nat)
  | [] => []
  | e :: r => if e.1 = m && e.2.1 = t then r else e :: dropReq m t r

/-- BAR0 offset of the register at o of tile t. -/
def tileOff (t o : Nat) : Nat := 0x1000000 + 0x4000 * t + o

/-- CFG_REPLY: a reply completes its access, or is counted in HUB_LATE when the access has already failed (R295). -/
def execCfgReply (s : State) : Host.Outcome State Fault Refusal :=
  match s.takeInbox (epKey 32 0) (isCtl isCfgReply) with
  | some (v, s1) =>
    match v.body with
    | .control _ (.cfgReply t o size d c m) =>
      if !s1.flt.hostReqs.any (fun e => e.1 = m && e.2.1 = t) then .next { s1 with flt.late := sat 32 s1.flt.late 1 }
      else
        let s2 : State := { s1 with flt.hostReqs := dropReq m t s1.flt.hostReqs }
        if c ≠ .done then .next (s2.refuse m false (tileOff t o) c (size ≠ 0))
        else if size = 0 then .next (s2.respond m [])
        else
          .next ((s2.loLatch m (tileOff t o) size (d.extractLsb' 32 32)).respond m
            [if size = 4 then (d.extractLsb' 0 32).zeroExtend 64 else d])
    | _ => .next s1
  | none => .next s

/-! ### Registers with rows of their own -/

/-- A tile's counters and squall source table clear, and each high-water mark takes the occupancy (TILE_CLEAR). -/
def Tile.clear (x : Tile) : Tile :=
  { x with
    refPostponed := 0, refForced := 0, scrubForced := 0, ceDram := 0, ceSram := 0, ueParity := 0, ueDram := 0, ueSram := 0,
    rowpass := 0, lanes := 0, sqSrcs := [], sqOther := 0, intakeHigh := x.intake.length, wheelHigh := x.wheel.length,
    gbRuns := 0, gbSteps := 0, gbFaultCnt := 0, gbEmit2 := 0, gbSlotOver := 0, gbMaxModel := 0, gbMaxHc := 0, lrnDep := 0,
    lrnPot := 0, lrnClamp := 0, lrnDchg := 0, hwEchoes := 0, hwMarked := 0, oldSent := 0, oldRecv := 0 }

/-- TILE_CLEAR (R7; log 38 for the counters it names and its path). -/
def execTileClear (m t : Nat) (v : Word) (s : State) : Host.Outcome State Fault Refusal :=
  ownReg m (tileOff t 0x60) .admin (fun s => some (if v.getLsbD 0 then s.modTile t Tile.clear else s)) s

/-- TMP_LEARN_GRP: the frozen bit; each world of the group takes it up at its next turn boundary (R115). -/
def execTmpLearnGrp (m g : Nat) (v : Word) (s : State) : Host.Outcome State Fault Refusal :=
  ownReg m (0x801000 + 4 * g) .admin (fun s =>
    some { s with tmp.groups := tmod {} g (fun x => { x with frozen := v.getLsbD 2 }) s.tmp.groups }) s

/-- HUB_LOSS_TAIL: frees records, or is refused beyond the head (R303). -/
def execHubLossTail (m : Nat) (v : Word) (s : State) : Host.Outcome State Fault Refusal :=
  ownReg m 0x3004 .admin (fun s =>
    if (v - s.flt.tail).toNat ≤ (s.flt.head - s.flt.tail).toNat then some { s with flt.tail := v } else none) s

/-- MSIX_VECTOR_UNMASK: the vector fires when its PBA bit is set (R201). -/
def execMsixVectorUnmask (m vec : Nat) (s : State) : Host.Outcome State Fault Refusal :=
  if !s.isReady then .next (s.refuse m false (0x100C + 16 * vec) .notReady false)
  else if isHost m then .next ((s.modLd (ldOf m) (fun l => l.unmask vec)).respond m [])
  else .next (s.respond m [])

end Sys2Proof.Machine
end

