-- ==== Sys2Proof/Machine/Keeper.lean ====
section
/-! DEFINITION. The pool keeper: stripe states, rebuild, lease, and the gateway's command registers (R181, R185, R186, R189
to R191). -/

namespace Sys2Proof.Machine

open Sys2Proof

/-! ### Member failures (R189, R190) -/

/-- The stripe state after the spare fails, or is lost as a spare. -/
def Pool.spareFails (p : Pool) : Pool :=
  if p.stripe = 2 then { p with stripe := 1, spare := none, cursor := 0, lineInRow := 0, published := 0 }
  else { p with spare := none }

/-- The stripe state after member m fails. -/
def Pool.memberFails (p : Pool) (m : Nat) : Pool :=
  if p.failed = some m || p.failedMore.contains m then p
  else if p.stripe = 0 then
    (if p.spare.isSome then { p with stripe := 2, failed := some m, cursor := 0, lineInRow := 0, published := 0 }
     else { p with stripe := 1, failed := some m })
  else { p with stripe := 3, failedMore := p.failedMore ++ [m] }

/-- An access in progress is completed under the new stripe state, none where two chunks are now missing; `e` is the
expander that failed. -/
def State.replan (s : State) (o : PoolOp) (e : Nat) : Option PoolOp :=
  let x := s.poolWin o.win
  if !winStriped x then some o
  else
    match o.new with
    | none => s.pool.planRead x o.win o.line o.cached o.agents
    | some d =>
      if o.writes.isEmpty then s.pool.planWrite x o.win o.line o.cached o.agents d
      else
        some { o with writes := o.writes.filterMap (fun w =>
          if w.1 ≠ e then some w
          else if w.2.2 = d && s.pool.stripe = 2 then s.pool.spare.map (fun k => (k, w.2.1, d))
          else none) }

/-- One operation after a failure of expander e. -/
def State.redo (s : State) (o : PoolOp) (e : Nat) : State :=
  match s.replan o e with
  | some o1 =>
    let s1 := s.putOp o o1
    if o1.new.isSome && o1.reads.isEmpty && o1.writes.isEmpty then s1.opDone o1 else s1
  | none =>
    let s1 := s.pushLoss (s.lineItem o.win o.line .failedUncorrectable)
    if o.new.isSome then s1.opDone o
    else
      let s2 := o.agents.foldl (fun s a => s.agentFail a .failedUncorrectable) { s1 with pool.ops := s1.pool.ops.erase o }
      if o.cached then
        (s2.modEntry (s.poolKey o.win o.line) (fun k => { k with trans := none })).release (s.poolKey o.win o.line)
      else s2

/-- MEMBER_FAILED: the keeper declares a member (8: the spare) failed; its packages learn it from the keeper block, and the
gateway wakes (R185, R189; log 44). -/
def execMemberFailed (member : Nat) (s : State) : Host.Outcome State Fault Refusal :=
  if s.pool.members.isEmpty then .next s
  else
    let e := if member = 8 then s.pool.spare else s.pool.members[member]?
    match e with
    | none => .next s
    | some x =>
      let s1 : State := { s.wakeDom 3 11 0 with pool := if member = 8 then s.pool.spareFails else s.pool.memberFails member }
      .next (s1.pool.ops.foldl (fun s o => s.redo o x) s1)

/-! ### The rebuild (R189, R191) -/

/-- The lines that a window rebuilds: what the foreground leaves, and the floor at least; a line costs one transfer for
each member. -/
def Pool.windowLines (p : Pool) (granted capacity : Nat) : Nat :=
  max granted (p.floorPct * capacity / 100) / p.members.length

/-- The cursor moves over rebuilt lines, 64 to a row, and is published every 256 rows. -/
def Pool.advance (p : Pool) (lines : Nat) : Pool :=
  let t := p.cursor * 64 + p.lineInRow + lines
  { p with cursor := t / 64, lineInRow := t % 64, published := max p.published (t / 64 / 256 * 256) }

/-- The spare takes the failed member's place. -/
def Pool.healed (p : Pool) : Pool :=
  { p with
    stripe := 0, failed := none, spare := none, cursor := 0, lineInRow := 0, published := 0,
    members := match p.failed, p.spare with
      | some m, some e => p.members.set m e
      | _, _ => p.members }

/-- REBUILD_WINDOW: 100 µs of rebuild on the keeper. -/
def execRebuildWindow (granted capacity : Nat) (s : State) : Host.Outcome State Fault Refusal :=
  if s.pool.role = 1 && s.pool.stripe = 2 && s.poolUp && s.domActive 3 then
    let p := s.pool.advance (s.pool.windowLines granted capacity)
    .next { s with pool := if p.rowCount ≤ p.cursor then p.healed else p }
  else .next s

/-! ### The lease (R186) -/

/-- LEASE_TICK: the keeper increments the lease counter. -/
def execLeaseTick (s : State) : Host.Outcome State Fault Refusal :=
  if s.pool.role = 1 && s.poolUp then .next { s with pool.lease := (s.pool.lease + 1) % 2 ^ 32 } else .next s

/-- LEASE_CHECK: a standby that has seen no change for 1 s (ten reads) claims the role, and keeps standby when the id it
reads back is another's; a keeper that finds another id steps down. A new keeper resumes from the published cursor. -/
def execLeaseCheck (lease : Nat) (claimed : Bool) (s : State) : Host.Outcome State Fault Refusal :=
  let p := s.pool
  if !s.poolUp then .next s
  else if p.role = 2 then
    let stale := if lease = p.lease then p.leaseStale + 1 else 0
    if 10 ≤ stale && claimed then
      .next { s with pool := { p with role := 1, lease := lease, leaseStale := 0, cursor := p.published, lineInRow := 0 } }
    else .next { s with pool := { p with lease := lease, leaseStale := if 10 ≤ stale then 0 else stale } }
  else if p.role = 1 && !claimed then .next { s with pool := { p with role := 2, leaseStale := 0 } }
  else .next s

/-! ### Registers (POOL_KEEP_CFG, POOL_KEEP_CMD, POOL_FLUSH) -/

/-- POOL_KEEP_CFG: the rebuild floor, 5 to 50 percent. -/
def execPoolKeepCfg (m : Nat) (v : Word) (s : State) : Host.Outcome State Fault Refusal :=
  ownReg m 0x500010 .admin (fun s =>
    let f := fb v.toNat 5 0
    if 5 ≤ f && f ≤ 50 then some { s with pool.floorPct := f } else none) s

/-- A write of POOL_KEEP_CMD: it needs ADMIN, fails with FAILED_STEWARD_RESET while the steward is in reset, and works on
the keeper only. -/
def keepCmd (m : Nat) (f : State → State) (s : State) : Host.Outcome State Fault Refusal :=
  match if s.isReady then s.barCheck m 0x500014 4 false .admin else some .notReady with
  | some c => .next (s.refuse m false 0x500014 c false)
  | none =>
    if s.flt.stwReset then .next (s.refuse m false 0x500014 .failedStewardReset false)
    else .next ((if s.pool.role = 1 then f s else s).respond m [])

/-- ADD_SPARE: the spare is present; a DEGRADED stripe begins its rebuild. -/
def execAddSpare (m : Nat) (v : Word) (s : State) : Host.Outcome State Fault Refusal :=
  keepCmd m (fun s =>
    if !v.getLsbD 1 || s.pool.spare.isSome then s
    else
      let p := { s.pool with spare := some (fb v.toNat 11 8) }
      { s with pool := if p.stripe = 1 then { p with stripe := 2, cursor := 0, lineInRow := 0, published := 0 } else p }) s

/-- REINIT: a FAILED stripe is HEALTHY again; all striped data is lost. -/
def execReinit (m : Nat) (v : Word) (s : State) : Host.Outcome State Fault Refusal :=
  keepCmd m (fun s =>
    if v.getLsbD 0 && s.pool.stripe = 3 then
      { s with pool := { s.pool with stripe := 0, failed := none, failedMore := [], cursor := 0, lineInRow := 0, published := 0 } }
    else s) s

/-- POOL_FLUSH: with ADMIN on the window, every cached line of it is written back and invalidated. -/
def execPoolFlush (m : Nat) (v : Word) (s : State) : Host.Outcome State Fault Refusal :=
  ownReg m 0x500048 .use (fun s =>
    let w := fb v.toNat 5 0
    if !v.getLsbD 6 then some s
    else if s.has m (.poolWin w) .admin then some (s.flushWin w)
    else none) s

end Sys2Proof.Machine
end

