-- ==== Sys2Proof/Machine/Ports.lean ====
section
/-! DEFINITION. The commands of the stream ports: output events, transmit slots, holds and ramps, HALT_N, presence,
enumeration, protocol input, PORT_REARM (R220 to R242). -/

namespace Sys2Proof.Machine

open Sys2Proof

/-! ### Output -/

/-- Channel c, ARMED, takes value v (R236). -/
def Port.drive (p : Port) (c : Nat) (d : OutDesc) (v : Nat) : Port :=
  if outKind d = 0 then p.modOut c (fun o => { o with value := v, pin := if outThr d ≤ v then 1 else 0 })
  else if outKind d = 1 then
    p.modOut c (fun o =>
      if outSync d then { o with value := v, nextCompare := some (outHigh d v) }
      else { o with value := v, pin := 3, compare := outHigh d v, nextCompare := none })
  else (p.modOut c (fun o => { o with value := v })).canByte c v true

/-- The EVENT item of an event word that a port does not take. -/
def portItem (v : Volley) (e : Word) (c : Code) (rep : Coord) (smp : Bool) : LossItem :=
  { eventItem v e c rep with sampled := smp }

/-- One event word delivered to port n (R236, R237, R242). -/
def State.outputWord (s : State) (n : Nat) (v : Volley) (e : Word) : State :=
  let p := s.port n
  let rep := s.coord (portEp n)
  let w := v.group * 32 + evLane e
  if p.st = .fenced || !s.domActive (portDom n) then s.pushLoss (portItem v e .failedFenced rep false)
  else
    match p.desc (evRow e) with
    | none => s.pushLoss (portItem v e .failedAccess rep false)
    | some d =>
      if outWorld d ≠ w then s.pushLoss (portItem v e .failedAccess rep false)
      else if (p.out (evRow e)).ostate = .armed then s.modPort n (fun p => p.drive (evRow e) d (evValue e))
      else
        let key := match s.turnOfItem w (some ((v.tempoBase + evOffset e) % 2 ^ 20)) with
          | some t => t + 1
          | none => 0
        let k := tget 0 key (p.out (evRow e)).sampled
        let s1 := s.modPort n (fun p => p.modOut (evRow e) (fun o =>
          { o with drops := sat 32 o.drops 1, sampled := tset key (k + 1) o.sampled }))
        if k < 16 then s1.pushLoss (portItem v e .droppedDetached rep true) else s1

/-- The volley is one of events. -/
def isEvents (v : Volley) : Bool :=
  match v.body with
  | .events _ => true
  | _ => false

def eventsOf (v : Volley) : List Word :=
  match v.body with
  | .events ws => ws
  | _ => []

/-- OUTPUT_EVENT: port pt takes a volley of events from its endpoint (R236). -/
def execOutputEvent (pt : Nat) (s : State) : Host.Outcome State Fault Refusal :=
  match s.takeInbox (portEp pt) isEvents with
  | none => .next s
  | some (v, s1) => .next ((eventsOf v).foldl (fun s e => s.outputWord pt v e) s1)

/-- CAN_SLOT_SEND: min_gap, or the resend period, has passed since the slot's last send (R235, R236); HALT_N holds the
transmitter recessive (R239). -/
def execCanSlotSend (pt slot : Nat) (s : State) : Host.Outcome State Fault Refusal :=
  let p := s.port pt
  if p.cfg.mode = 6 && slot < 8 && !p.recessive && ((p.slot slot).due || (p.slot slot).resend)
  then .next (s.modPort pt (fun p => p.modSlot slot (fun x => { x with due := false, sent := x.sent + 1 })))
  else .next s

/-- HOLD_EXPIRY: the hold ends and the channel ramps (R238). -/
def execHoldExpiry (pt ch : Nat) (s : State) : Host.Outcome State Fault Refusal :=
  match (s.port pt).desc ch with
  | some d =>
    if ((s.port pt).out ch).ostate = .hold then .next (s.modPort pt (fun p => p.rampSafe ch d)) else .next s
  | none => .next s

/-- A value one ramp step nearer to its target. -/
def rampValue (v target step : Nat) : Nat :=
  if v < target then min (v + step) target else if target + step < v then v - step else target

/-- Channel c in RAMP moves by ramp_step, and enters SAFE at the target (R238). -/
def Port.ramp (p : Port) (c : Nat) (d : OutDesc) : Port :=
  let v := rampValue (p.out c).value (outTarget d) (outRamp d)
  if v = outTarget d then p.enterSafe c d true
  else
    let p1 := p.modOut c (fun o =>
      if outKind d = 1 then { o with value := v, pin := 3, compare := outHigh d v, nextCompare := none }
      else { o with value := v })
    if outKind d = 2 then p1.canByte c v true else p1

/-- RAMP_STEP: one ms of a ramp (R238). -/
def execRampStep (pt ch : Nat) (s : State) : Host.Outcome State Fault Refusal :=
  match (s.port pt).desc ch with
  | some d => if ((s.port pt).out ch).ostate = .ramp then .next (s.modPort pt (fun p => p.ramp ch d)) else .next s
  | none => .next s

/-- PWM_PERIOD_START: a compare written with pwm_sync set takes effect (R236). -/
def execPwmPeriodStart (pt ch : Nat) (s : State) : Host.Outcome State Fault Refusal :=
  match ((s.port pt).out ch).nextCompare with
  | some k =>
    .next (s.modPort pt (fun p => p.modOut ch (fun o => { o with compare := k, nextCompare := none, pin := 3 })))
  | none => .next s

/-! ### HALT_N (R239, R342) -/

/-- Every port not OFF posts a PORT_STATE record with the cause, once the package has its racks (R241). -/
def State.haltRecords (s : State) (cause : Nat) : State :=
  if s.isReady then
    (s.ports.filter (fun e => e.2.st ≠ .off)).foldl (fun s e => s.portRecord e.1 cause) s
  else s

/-- HALT_N is asserted: every channel SAFE at its static level, transmitters recessive (R239). -/
def State.haltAssert (s : State) : State :=
  ({ s with aon.haltN := true, aon.haltCount := sat 16 s.aon.haltCount 1,
            ports := s.ports.map (fun (e : Nat × Port) =>
              (e.1, { (e.2.eachOut (fun _ => true) (fun p c d => p.enterSafe c d false)) with
                        recessive := decide (e.2.cfg.mode = 6) })) } : State).haltRecords 7

/-- HALT_N_ASSERT: a low level of `ns` on HALT_N (R342): ignored below 50 ns, an assertion from 100 ns on, either
between the two. -/
def execHaltNAssert (ns : Nat) (s : State) : Host.Outcome State Fault Refusal :=
  if s.aon.phase = .aonReset || s.aon.haltN || ns < 50 then .next s
  else if 100 ≤ ns then .next s.haltAssert
  else
    let s1 := { s with freeCtr := s.freeCtr + 1 }
    if Config.freeBit s.freeCtr then .next s1.haltAssert else .next s1

/-- HALT_N_RELEASE: the channels stay SAFE until they are re-armed (R239). -/
def execHaltNRelease (s : State) : Host.Outcome State Fault Refusal :=
  if s.aon.haltN then
    .next (({ s with aon.haltN := false,
                     ports := s.ports.map (fun (e : Nat × Port) => (e.1, { e.2 with recessive := false })) } : State).haltRecords 8)
  else .next s

/-! ### Presence and enumeration (R221 to R224) -/

/-- PRESENCE_CHANGE: a new debounced level is accepted (R222); with pres_ignore it has no effect on the port. -/
def execPresenceChange (pt : Nat) (present : Bool) (s : State) : Host.Outcome State Fault Refusal :=
  if s.aon.phase = .aonReset || (s.port pt).pres = present then .next s
  else
    let s0 := (s.modPort pt (fun p => { p with pres := present, presRaw := present })).wakeSource (4 + pt) 5 pt
    let s1 := if s.isReady then s0.wakeDom (portDom pt) 5 pt else s0
    let p := s1.port pt
    if !s1.isReady || p.cfg.presIgnore then .next s1
    else if present then
      match p.st with
      | .detached => .next (s1.enumerate pt 1)
      | _ => .next s1
    else
      match p.st with
      | .attached => .next (s1.detach pt 0)
      | .enumerating => .next ((s1.modPort pt (fun x => { x with st := .detached })).portRecord pt 0)
      | _ => .next s1

/-- Every required target of port p has answered (R224). -/
def Port.targetsAnswer (p : Port) (pids : List (BitVec 48)) : Bool :=
  p.cfg.targets.all (fun e => !(wf e 49 49 = 1 && wf e 48 48 = 1) || pids.any (fun i => i.toNat = wf e 47 0))

/-- ENUMERATION_COMPLETE: enumeration ends; an I3C port attaches only when every required target is present (R224). -/
def execEnumerationComplete (pt : Nat) (pids : List (BitVec 48)) (s : State) : Host.Outcome State Fault Refusal :=
  let p := s.port pt
  if p.st ≠ .enumerating then .next s
  else if p.cfg.mode = 1 && !p.targetsAnswer pids then .next (s.enumFailed pt)
  else .next (s.attach pt)

/-- ENUMERATION_TIMEOUT: 100 ms have passed without success (R224). -/
def execEnumerationTimeout (pt : Nat) (s : State) : Host.Outcome State Fault Refusal :=
  if (s.port pt).st = .enumerating then .next (s.enumFailed pt) else .next s

/-- ENUMERATION_RETRY: the 1 s retry while presence stays asserted (R224). -/
def execEnumerationRetry (pt : Nat) (s : State) : Host.Outcome State Fault Refusal :=
  if s.isReady && (s.port pt).st = .detached && (s.port pt).present then .next (s.enumerate pt 1) else .next s

/-- Protocol loss of an attached port (R223). -/
def State.protocolLoss (s : State) (n : Nat) : State :=
  if (s.port n).st = .attached then s.detach n 2 else s

/-- PROTOCOL_LOSS: declared by the port's own rule; mode OUT has none (R223). -/
def execProtocolLoss (pt : Nat) (s : State) : Host.Outcome State Fault Refusal :=
  if (s.port pt).cfg.mode = 5 then .next s else .next (s.protocolLoss pt)

/-! ### Protocol input (R230 to R234) -/

/-- The distance of two byte values. -/
def byteDist (a b : Nat) : Nat := if a < b then b - a else a - b

/-- The bytes of one I3C read: byte i is a capture of channel first + i when it has moved by delta or more, or has
never been captured (R230). -/
def State.i3cRead (s : State) (n delta ch : Nat) : List Byte → State
  | [] => s
  | b :: r =>
    let hit := match tfind ch (s.port n).lastCap with
      | none => true
      | some l => delta ≤ byteDist b.toNat l
    let s1 := if hit
      then (s.modPort n (fun p => { p with lastCap := tset ch b.toNat p.lastCap })).capture n ch b.toNat else s
    s1.i3cRead n delta (ch + 1) r

/-- A private read for a poll entry. -/
def State.i3cEntry (s : State) (n : Nat) (e : DWord) (bytes : List Byte) : State :=
  s.i3cRead n (wf e 52 45) (wf e 27 16) (bytes.take (wf e 15 11 + 1))

/-- Port n takes input of mode md. -/
def State.inMode (s : State) (n md : Nat) : Bool := (s.port n).st = .attached && (s.port n).cfg.mode = md

/-- I3C_POLL: the period of a poll entry passes and its read returns `bytes` (R230). -/
def execI3cPoll (pt entry : Nat) (bytes : List Byte) (s : State) : Host.Outcome State Fault Refusal :=
  let e := (s.port pt).cfg.polls.getD entry 0
  if s.inMode pt 1 && wf e 53 53 = 1 && wf e 43 28 ≠ 0 then .next (s.i3cEntry pt e bytes) else .next s

/-- IBI: an in-band interrupt of a target triggers its poll entries that have on_ibi; `bytes` gives each entry's read
(R230). -/
def execIbi (pt target : Nat) (bytes : Tab (List Byte)) (s : State) : Host.Outcome State Fault Refusal :=
  if s.inMode pt 1 then
    let ps := (s.port pt).cfg.polls
    .next ((List.range ps.length).foldl (fun s i =>
      let e := ps.getD i 0
      if wf e 53 53 = 1 && wf e 44 44 = 1 && wf e 2 0 = target then s.i3cEntry pt e (tget [] i bytes) else s) s)
  else .next s

/-- HOT_JOIN: the request restarts enumeration of the port (R230); an attached port leaves ATTACHED by R225 first
(log 26). -/
def execHotJoin (pt : Nat) (s : State) : Host.Outcome State Fault Refusal :=
  if s.inMode pt 1 then .next ((s.detach pt 2).enumerate pt 1)
  else if (s.port pt).st = .enumerating && (s.port pt).cfg.mode = 1 then .next (s.portRecord pt 1)
  else .next s

/-- The channel and value of a Ghelor event word, none outside the pixel map (R231). -/
def csiEvent (proto : DWord) (e : Word) : Option (Nat × Nat) :=
  let x := fb e.toNat 10 0 / 2 ^ wf proto 3 0
  let y := fb e.toNat 21 11 / 2 ^ wf proto 7 4
  let cx := wf proto 19 8 + 1
  if cx ≤ x then none else some (x + y * cx, if bit e.toNat 22 then wf proto 27 20 else wf proto 35 28)

def State.csiWords (s : State) (n : Nat) : List Word → State
  | [] => s
  | e :: r =>
    let s1 := match csiEvent (s.port n).cfg.protocol e with
      | some (ch, v) => s.capture n ch v
      | none => s.modPort n (fun p => { p with ignored := sat 16 p.ignored 1 })
    s1.csiWords n r

/-- CSI2_PACKET: a packet of the port's virtual channel (R223, R231). Frame-start and frame-end short packets (types 0
and 1) carry nothing. -/
def execCsi2Packet (pt vcn dt : Nat) (crcOk : Bool) (words : List Word) (s : State) :
    Host.Outcome State Fault Refusal :=
  if !s.inMode pt 2 || vcn ≠ wf (s.port pt).cfg.protocol 38 37 || dt = 0 || dt = 1 then .next s
  else if !crcOk then
    let s1 := s.modPort pt (fun p => { p with errors := sat 16 p.errors 1, badRun := p.badRun + 1 })
    if 8 ≤ (s1.port pt).badRun then .next (s1.protocolLoss pt) else .next s1
  else
    let s1 := s.modPort pt (fun p => { p with badRun := 0 })
    if dt = 0x30 then .next (s1.csiWords pt words)
    else .next (s1.modPort pt (fun p => { p with ignored := sat 16 p.ignored 1 }))

/-- AER_ADDRESS: a four-phase handshake delivers an address (R232). -/
def execAerAddress (pt : Nat) (addr : Byte) (s : State) : Host.Outcome State Fault Refusal :=
  if s.inMode pt 3 then .next (s.capture pt addr.toNat (wf (s.port pt).cfg.protocol 7 0)) else .next s

/-- A receive filter matches a frame (R234). -/
def canMatch (ide : Bool) (fid : Nat) (f : DWord × DWord) : Bool :=
  wf f.1 30 30 = 1 && (wf f.1 29 29 = 1) = ide && fid &&& wf f.1 60 32 = wf f.1 28 0 &&& wf f.1 60 32

/-- CAN_FRAME: a received frame that matches the first valid filter becomes captures of consecutive channels; remote
frames are ignored (R234). -/
def execCanFrame (pt : Nat) (ide remote : Bool) (fid : Nat) (data : List Byte) (s : State) :
    Host.Outcome State Fault Refusal :=
  if !s.inMode pt 6 || remote then .next s
  else
    match (s.port pt).cfg.filters.find? (canMatch ide fid) with
    | none => .next s
    | some f => .next (s.captures pt (wf f.2 11 0) ((data.drop (wf f.2 17 12)).take (wf f.2 24 18)))

/-- INDEX_PULSE: with index_event set, a capture of channel 0 with value 255 (R233). -/
def execIndexPulse (pt : Nat) (s : State) : Host.Outcome State Fault Refusal :=
  if s.inMode pt 4 && wf (s.port pt).cfg.protocol 5 5 = 1 then .next (s.capture pt 0 255) else .next s

/-- ILLEGAL_TRANSITION: no count; counted in SP_ENC_ERR; 16 within 1 ms are a protocol loss (R223, R233). -/
def execIllegalTransition (pt : Nat) (s : State) : Host.Outcome State Fault Refusal :=
  if s.inMode pt 4 then
    let s1 := s.modPort pt (fun p =>
      { p with encErr := sat 32 p.encErr 1,
               illegalRun := s.aon.wall :: p.illegalRun.filter (fun x => s.aon.wall < x + 1000) })
    if 16 ≤ (s1.port pt).illegalRun.length then .next (s1.protocolLoss pt) else .next s1
  else .next s

/-! ### PORT_REARM (R240) -/

/-- The channels a PORT_REARM names, by word 1. -/
def rearmChans (p : Port) (w1 : DWord) : List Nat :=
  if wf w1 4 4 = 1 then List.range p.cfg.outCount else [wf w1 13 8]

/-- The code of the lowest named channel that is not armed afterwards, DONE when every one is (R240). -/
def rearmCode (s : State) (n : Nat) : List Nat → Code
  | [] => .done
  | c :: r =>
    match (s.port n).desc c with
    | none => .failedAccess
    | some d =>
      if ((s.port n).out c).ostate = .armed && (s.port n).st = .attached && !s.aon.haltN then rearmCode s n r
      else
        match s.armCode n c d with
        | some k => k
        | none => rearmCode s n r

/-- The channels that a re-arm arms. -/
def rearmMask (s : State) (n : Nat) (cs : List Nat) : Nat :=
  cs.foldl (fun a c =>
    match (s.port n).desc c with
    | some d => if (s.armCode n c d).isNone then a + 2 ^ c else a
    | none => a) 0

/-- PORT_REARM (R240); a port whose domain is not ACTIVE refuses it (R293). -/
def execPortRearm (rk seq : Nat) (s : State) : Host.Outcome State Fault Refusal :=
  runCmd 0x18 (fun _ => true) (fun s c =>
    let w1 := c.words.getD 1 0
    let n := wf w1 3 0
    if !s.has c.src (.port n) .admin then s.complete c .failedAccess []
    else if !s.domActive (portDom n) then s.complete c .failedFenced []
    else
      let cs := rearmChans (s.port n) w1
      let mask := rearmMask s n cs
      let code := rearmCode s n cs
      (s.modPort n (fun p => cs.foldl (fun p k => if bit mask k then p.arm k else p) p)).complete c code
        [BitVec.ofNat 64 mask]) rk seq s

end Sys2Proof.Machine
end

