-- ==== Sys2Proof/Machine/WorldCmds.lean ====
section
/-! DEFINITION. World commands and the events of the tempo unit: ADVANCE to RETIRE, INJECT, TMP_HOST_ADV, turns, tethers,
subscriptions, sweeps (R12, R20 to R43, R126, R212). -/

namespace Sys2Proof.Machine

open Sys2Proof

/-- ADVANCE (R40, R41). -/
def execAdvance (rk seq : Nat) (s : State) : Host.Outcome State Fault Refusal :=
  runCmd 0x01 (fun _ => true) (fun s c =>
    let w1 := c.words.getD 1 0
    let r := s.hostAdvance c.src (wf w1 12 0) (wf w1 39 16)
    r.1.complete c r.2 []) rk seq s

/-- One lane of a GROUP_ADVANCE: the state, the mask of lanes advanced and the code of the lowest lane that was not. -/
def laneAdvance (m delta : Nat) (a : State × Nat × Code) (w : Nat) : State × Nat × Code :=
  let r := a.1.hostAdvance m w delta
  if r.2 = .done then (r.1, a.2.1 + 2 ^ (w % 32), a.2.2)
  else (r.1, a.2.1, if a.2.2 = .done then r.2 else a.2.2)

/-- GROUP_ADVANCE applies lane by lane; its result carries the mask of the lanes advanced (R42). -/
def execGroupAdvance (rk seq : Nat) (s : State) : Host.Outcome State Fault Refusal :=
  runCmd 0x02 (fun _ => true) (fun s c =>
    let r := (c.targets.map (·.2)).foldl (laneAdvance c.src (wf (c.words.getD 1 0) 39 16)) (s, 0, .done)
    r.1.complete c r.2.2 [BitVec.ofNat 64 r.2.1]) rk seq s

/-- The code of a START by master m (R26, R42). -/
def State.startCode (s : State) (m w anchor : Nat) : Code :=
  let x := s.world w
  if s.worldLimit ≤ w || !s.has m (.world w) .admin || x.st = .free then .failedAccess
  else if x.st ≠ .standby then .busy
  else if !s.leaderOk w x.srcKind x.srcIndex || maxTempo < anchor then .failedAccess
  else .done

/-- START (R35, R41). -/
def execStart (rk seq : Nat) (s : State) : Host.Outcome State Fault Refusal :=
  runCmd 0x03 (fun _ => true) (fun s c =>
    let w1 := c.words.getD 1 0
    match s.startCode c.src (wf w1 12 0) (wf w1 63 24) with
    | .done => (s.startWorld (wf w1 12 0) (wf w1 63 24)).complete c .done []
    | k => s.complete c k []) rk seq s

/-- PARK (R37): DONE without effect on a parked world. -/
def execPark (rk seq : Nat) (s : State) : Host.Outcome State Fault Refusal :=
  runCmd 0x04 (fun _ => true) (fun s c =>
    let w := wf (c.words.getD 1 0) 12 0
    if s.worldLimit ≤ w || !s.has c.src (.world w) .admin || (s.world w).st = .free then s.complete c .failedAccess []
    else
      match (s.world w).st with
      | .running => (s.parkWorld w 6).complete c .done []
      | .parked => s.complete c .done []
      | _ => s.complete c .busy []) rk seq s

/-- UNPARK (R38). -/
def execUnpark (rk seq : Nat) (s : State) : Host.Outcome State Fault Refusal :=
  runCmd 0x05 (fun _ => true) (fun s c =>
    match s.unparkCode c.src (c.words.getD 1 0) (c.words.getD 2 0) with
    | .done => (s.unparkWorld (c.words.getD 1 0) (c.words.getD 2 0)).complete c .done []
    | k => s.complete c k []) rk seq s

/-- A tile's share of a retiring world (R356): its events in intake go, its wheel entries are freed, its due runs never
start; the number of events discarded. -/
def Tile.retire (t : Tile) (w : Nat) : Tile × Nat :=
  let gone := (t.intake.filter (fun e => e.w = w)).map (·.id)
  ({ t with intake := t.intake.filter (fun e => e.w ≠ w),
            merge := (t.merge.map (fun m => { m with evs := m.evs.filter (fun e => !gone.contains e.2) })).filter
              (fun m => !m.evs.isEmpty),
            wheel := t.wheel.filter (fun e => e.w ≠ w),
            due := t.due.filter (fun e => e.w ≠ w),
            posts := t.posts.filter (fun e => e.2.1 ≠ w) }, gone.length)

/-- Every tile discards what it holds of the world. -/
def State.retireTiles (s : State) (w : Nat) : State :=
  s.tiles.foldl (fun s e =>
    let r := (s.tile e.1).retire w
    (s.modTile e.1 (fun _ => r.1)).modWorld w (fun y => { y with discarded := y.discarded + r.2 })) s

/-- A world enters RETIRING (R26, R35, R356). -/
def State.retireWorld (s : State) (w : Nat) (cmd : Nat × Nat) : State :=
  let lost := (s.hub.lockIn.filter (fun x => x.w = w)).length
  let s0 : State := { s with hub.lockIn := s.hub.lockIn.filter (fun x => x.w ≠ w) }
  let s1 := (s0.modWorld w (fun y =>
    { y with st := .retiring, retireCmd := some cmd, discarded := lost, turns := [], sweeps := [] })).outsWorldSafe w
  ((s1.retireTiles w).runningChanged w).parkFollowers w

/-- RETIRE: begins here and completes when the world reaches FREE (R42). -/
def execRetire (rk seq : Nat) (s : State) : Host.Outcome State Fault Refusal :=
  runCmd 0x06 (fun _ => true) (fun s c =>
    let w := wf (c.words.getD 1 0) 12 0
    if s.worldLimit ≤ w || !s.has c.src (.world w) .admin || (s.world w).st = .free then s.complete c .failedAccess []
    else if (s.world w).st = .retiring then s.complete c .busy []
    else (s.retireWorld w (rk, seq)).begun c) rk seq s

/-- RETIRE_COMPLETE: every volley of a RETIRING world is settled, so its slot is FREE (R35, R42). -/
def execRetireComplete (w : Nat) (s : State) : Host.Outcome State Fault Refusal :=
  let x := s.world w
  if x.st = .retiring && !s.unsettled w (2 ^ 41)
      && !(s.tiles.any (fun e => e.2.run.any (fun r => r.w = w))) then
    let s1 := s.worldRecord w 0x83 [BitVec.ofNat 64 w, BitVec.ofNat 64 (min x.discarded 0xFFFF_FFFF)]
    let s2 := s1.modWorld w (fun _ => {})
    match x.retireCmd with
    | some (rk, seq) => .next (s2.completeAt rk seq .done []).amendCheck
    | none => .next s2.amendCheck
  else .next s

/-- TMP_HOST_ADV (R40, R42): a write that is not applied is recorded in TMP_ADV_ERR. -/
def execTmpHostAdv (m : Nat) (v : Word) (s : State) : Host.Outcome State Fault Refusal :=
  if !s.isReady then .next (s.refuse m false 0x800010 .notReady false)
  else
    let w := fb v.toNat 31 19
    let r := s.hostAdvance m w (fb v.toNat 18 0)
    let s1 := r.1.respond m []
    if r.2 = .done then .next s1
    else
      .next { s1 with tmp.advErrValid := true,
                      tmp.advErrWorld := if s1.tmp.advErrValid then s1.tmp.advErrWorld else w,
                      tmp.advErrCode := if s1.tmp.advErrValid then s1.tmp.advErrCode else r.2,
                      tmp.advErrCnt := sat 32 s1.tmp.advErrCnt 1 }

/-! ### INJECT (R212) -/

/-- Event k of an INJECT: channel, value, offset. -/
def injectEvent (c : ExecCmd) (k : Nat) : Nat × Nat × Nat :=
  let x := (c.words.getD (2 + k / 2) 0).toNat / 2 ^ (if k % 2 = 0 then 0 else 32)
  (fb x 11 0, fb x 19 12, fb x 25 20)

/-- The events of an INJECT with their injection entries, none where a channel has none. -/
def State.injectEvents (s : State) (c : ExecCmd) : List (Option DWord × Nat × Nat × Nat) :=
  (List.range (wf (c.words.getD 1 0) 14 13 + 1)).map (fun k =>
    (tfind (injectEvent c k).1 s.hub.injection, injectEvent c k))

/-- The code of an INJECT (R212, R42). -/
def State.injectCode (s : State) (c : ExecCmd) : Code :=
  let w := wf (c.words.getD 1 0) 12 0
  let x := s.world w
  let es := s.injectEvents c
  if s.worldLimit ≤ w || !s.has c.src (.world w) .use || c.words.length < 3 + wf (c.words.getD 1 0) 14 14 then .failedAccess
  else
    match x.st with
    | .free => .failedAccess
    | .standby => .notReady
    | .parked => .failedParked
    | .retiring => .busy
    | .running =>
      if es.any (fun e => e.1.isNone) then .failedAccess
      else if es.any (fun e => match e.1 with
        | some d => s.lockstep (destClass d) && decide (x.t + e.2.2.2 < x.hubEmit)
        | none => false) then .failedSchedule
      else .done

/-- One event of an INJECT leaves the rack gateway, or joins the volley of its Lockstep slot (log 29). -/
def State.injectOne (s : State) (w : Nat) (e : Option DWord × Nat × Nat × Nat) : State :=
  match e.1 with
  | none => s
  | some d =>
    let tau := (s.world w).t + e.2.2.2
    let k := epKey 32 0
    if s.lockstep (destClass d) then
      { s with hub.lockIn := s.hub.lockIn ++ [{ ep := k, ch := e.2.1, w := w, tempo := tau, dest := d, value := e.2.2.1 }] }
    else s.send k (s.eventVolley k d w tau e.2.2.1 0 0)

/-- INJECT (R212): refused whole, or every event is in a volley. -/
def execInject (rk seq : Nat) (s : State) : Host.Outcome State Fault Refusal :=
  runCmd 0x07 (fun _ => true) (fun s c =>
    match s.injectCode c with
    | .done => ((s.injectEvents c).foldl (fun s e => s.injectOne (wf (c.words.getD 1 0) 12 0) e) s).complete c .done []
    | k => s.complete c k []) rk seq s

/-! ### Turns -/

/-- TURN_REPORT: a tile's report reaches the tempo unit with the drop counts of a world's turn (R56, R126). -/
def execTurnReport (s : State) : Host.Outcome State Fault Refusal :=
  let isReport := fun (v : Volley) => match v.body with
    | .turnReport .. => true
    | _ => false
  match s.takeInbox tempoEp isReport with
  | none => .next s
  | some (v, s1) =>
    match v.body with
    | .turnReport lane nd inc ls turn intake wheel =>
      .next (s1.modTurn (v.group * 32 + lane) turn (fun i =>
        if i.reports.contains (epKey v.src.x v.src.y) then i
        else
          { i with reports := epKey v.src.x v.src.y :: i.reports, nondet := i.nondet || nd,
                   incomplete := i.incomplete || inc, loss := i.loss || ls,
                   intake := sat 32 i.intake intake, wheel := sat 32 i.wheel wheel }))
    | _ => .next s1

/-- The fields an amendment replaces in a live world's entry: source, owner, tether, lag and scale (R266). -/
def World.amend (x : World) (e : WorldEntry) : World :=
  let y := x.load e
  { x with owner := y.owner, peerLink := y.peerLink, peerPackage := y.peerPackage, srcIndex := y.srcIndex,
           srcKind := y.srcKind, tetherMs := y.tetherMs, lagLimit := y.lagLimit, scaleMul := y.scaleMul,
           scaleDiv := y.scaleDiv, staged := none }

/-- An amended entry takes effect at the world's turn boundary; a PEER source is subscribed to (R27, R266). -/
def State.applyStaged (s : State) (w : Nat) : State :=
  match (s.world w).staged with
  | some e => (s.modWorld w (fun y => y.amend e)).subscribePeer w
  | none => s

/-- The turn opens, and T moves on (R20). -/
def State.turnOpens (s : State) (w : Nat) : State :=
  let s1 := (((s.openTurn w).applyStaged w).boundaryUpdates w).amendCheck
  let s2 := (s1.moveT w).hubEmit (w / 32) 4096
  let s3 := if (s2.world w).srcKind = 1 then s2 else s2.judgeLag w
  State.afterPark s (s3.follow w ((s3.world w).t - (s.world w).t)) w

/-- The wall time by which the cap law delays the next turn opening of world w (R287); 0 under Breeze. -/
def State.capDelay (s : State) (w : Nat) : Nat :=
  if s.groupScheduled (w / 32) then s.pwr.level * s.pwr.cfg.turnDelayUs else 0

/-- TURN_OPEN (R20); under Lockstep the cap law first delays the opening (R14, R287). -/
def execTurnOpen (w : Nat) (s : State) : Host.Outcome State Fault Refusal :=
  let x := s.world w
  if !s.canOpen w x.t || s.aon.wall < x.notBefore then .next s
  else if x.notBefore = 0 && 0 < s.capDelay w then
    .next (s.modWorld w (fun y => { y with notBefore := s.aon.wall + s.capDelay w }))
  else .next (s.turnOpens w)

/-- TURN_CLOSE (R12). -/
def execTurnClose (w : Nat) (s : State) : Host.Outcome State Fault Refusal :=
  if s.canClose w then .next (s.closeTurn w) else .next s

/-! ### Tethers, peers, sweeps -/

/-- TETHER_EXPIRY: a check finds no advance within tether_ms (R36). -/
def execTetherExpiry (w : Nat) (s : State) : Host.Outcome State Fault Refusal :=
  let x := s.world w
  if x.st = .running && x.lastAdv + 1000 * x.tetherMs ≤ s.aon.wall then .next (s.parkWorld w 1) else .next s

/-- A subscription is held, or refused beyond 64 (R27). -/
def State.subscribed (s : State) (lk leader follower : Nat) : State :=
  if s.tmp.subs.length < 64 && !s.tmp.subs.contains (lk, leader, follower)
  then { s with tmp.subs := s.tmp.subs ++ [(lk, leader, follower)] } else s

/-- SUBSCRIBE: held, or refused beyond 64 (R27). -/
def execSubscribe (lk leader follower : Nat) (s : State) : Host.Outcome State Fault Refusal :=
  .next (s.subscribed lk leader follower)

/-- The followers on this package of a PEER leader over a span link. -/
def State.peerFollowers (s : State) (lk leader : Nat) : List Nat :=
  (s.tmp.worlds.filter (fun e => e.2.srcKind = 4 && e.2.srcIndex = leader && e.2.peerLink = lk)).map (·.1)

/-- An increment of a peer's leader advances its followers here (R27). -/
def State.tempoForward (s : State) (lk leader inc : Nat) : State :=
  (s.peerFollowers lk leader).foldl (fun s f => s.inputCore f inc) s

/-- TEMPO_FWD: an increment of a peer's leader advances its followers here (R27). -/
def execTempoFwd (lk leader inc : Nat) (s : State) : Host.Outcome State Fault Refusal :=
  .next (s.tempoForward lk leader inc)

/-- LEADER_PARKED: the peer's leader has parked or retired (R26). -/
def execLeaderParked (lk leader : Nat) (s : State) : Host.Outcome State Fault Refusal :=
  .next ((s.peerFollowers lk leader).foldl (fun s f => s.parkCore f 7) s)

/-- The sweeps still owed once tile t has acknowledged notice n. -/
def swept (t n : Nat) (l : List (Nat × List Nat)) : List (Nat × List Nat) :=
  (l.map (fun e => if e.1 = n then (e.1, e.2.filter (fun u => u ≠ t)) else e)).filter (fun e => !e.2.isEmpty)

/-- SWEEP_ACK: a tile has swept for a notice (R30). -/
def execSweepAck (s : State) : Host.Outcome State Fault Refusal :=
  let isAck := fun (v : Volley) => match v.body with
    | .control _ (.sweepAck _ _ _) => true
    | _ => false
  match s.takeInbox tempoEp isAck with
  | none => .next s
  | some (v, s1) =>
    match v.body with
    | .control _ (.sweepAck t w n) =>
      .next (s1.modWorld w (fun y => { y with sweeps := swept t n y.sweeps }))
    | _ => .next s1

end Sys2Proof.Machine
end

