-- ==== Sys2Proof/Machine/Span.lean ====
section
/-! DEFINITION. Span links: frames, acknowledgement and replay, volleys that cross packages, loss and retraining, Hold by
handshake (R26, R27, R127, R130, R135, R136, R276, R312). -/

namespace Sys2Proof.Machine

open Sys2Proof

/-! ### Volleys from the wire (R122 to R126, R134) -/

/-- The control message of a body that travels between packages; a reserved one has kind 15, which a router absorbs. -/
def wireCtl (ws : List Word) : VBody :=
  let h := (ws.getD 0 0).toNat
  let a := (ws.getD 1 0).toNat
  if fb h 7 0 = 0x0D then .control false (.subscribe (fb h 31 16) a)
  else if fb h 7 0 = 0x0E then .control false (.tempoFwd (fb h 31 16) a)
  else if fb h 7 0 = 0x08 && fb a 2 0 < 6 then .control false (.powerReq (fb h 27 16) (fb a 2 0) (fb a 8 4))
  else .other 15

/-- The body of a received volley. -/
def wireBody (v : WireVolley) : VBody :=
  let w := fun i => (v.body.getD i 0).toNat
  if v.kind = 0 then .events v.body
  else if v.kind = 1 then .frontier (fb (w 0) 19 0) (v.body.getD 1 0)
  else if v.kind = 2 then
    .turnReport (fb (w 0) 4 0) (bit (w 0) 8) (bit (w 0) 9) (bit (w 0) 10) (w 1) (fb (w 2) 15 0) (fb (w 2) 31 16)
  else if v.kind = 3 then .echo (fb (w 0) 15 0)
  else if v.kind = 4 then wireCtl v.body
  else if v.kind = 5 then .slotMark (fb (w 0) 15 0)
  else .other v.kind

/-- A volley as it enters this package: its VC by kind and class, the package's own epoch, and phys fields filled in
(R123, R127, R130). -/
def State.fromWire (s : State) (v : WireVolley) : Volley :=
  let ph := if v.dst.p = s.hub.p && v.dst.x < 32 then s.phys (epKey v.dst.x v.dst.y) else (31, 127)
  { dst := v.dst, src := v.src, physX := ph.1, physY := ph.2, group := v.group, epoch := s.hub.epoch.current, cls := v.cls,
    vc := if v.kind = 3 || v.kind = 4 then 1 else if v.kind = 5 || (v.kind ≠ 1 && s.lockstep v.cls) then 2 else 0,
    headwind := v.headwind, urgent := v.urgent, slot := v.slot, tempoBase := v.tempoBase % 2 ^ 24, phops := v.phops,
    okHeader := true, body := wireBody v }

/-- The hub endpoint of span link k (R116). -/
def State.spanCoord (s : State) (k : Nat) : Coord := s.coord (epKey (40 + k) 0)

/-! ### Link loss (R27, R136, R312) -/

/-- The PEER followers of a span link. -/
def State.linkFollowers (s : State) (k : Nat) : List Nat :=
  (s.tmp.worlds.filter (fun e => e.2.srcKind = 4 && e.2.peerLink = k)).map (·.1)

/-- Span link k goes DOWN: every volley it held or had not yet acknowledged is recorded, followers park, and a FAULT
record is posted. -/
def State.spanDown (s : State) (k : Nat) : State :=
  let x := s.span k
  let vs := x.replay.flatMap (·.2) ++ x.queue
  let s1 := s.modSpan k (fun y =>
    { y with state := 0, lanes := 0, replay := [], queue := [], txSeq := 0, rxSeq := 0, credits := [], hold := 0 })
  let s2 := vs.foldl (fun s v => s.loseEvents v .failedLink (s.spanCoord k)) s1
  ((s.linkFollowers k).foldl (fun s w => s.parkWorld w 3) s2).postFault 3 (spanDom k) k

/-- SPAN_ACK_TIMEOUT: a frame has stayed unacknowledged for 1 ms; the limit is suspended in Hold (R136, R276). -/
def execSpanAckTimeout (lk : Nat) (s : State) : Host.Outcome State Fault Refusal :=
  let x := s.span lk
  if x.state = 2 && !x.replay.isEmpty && x.hold ≠ 2 && x.hold ≠ 3 then .next (s.spanDown lk) else .next s

/-- Span link k may train (R251, R253): it exists, the overlay does not disable it, and links above 0 need the SPAN
charter. -/
def State.spanTrains (s : State) (k : Nat) : Bool :=
  k < s.pkg.spanLinks && !bit s.boot.spanDisable.toNat k && (k = 0 || s.charter 3)

/-- SPAN_LINK_RETRAIN: the 100 ms interval of a DOWN link whose domain is ACTIVE (R312). -/
def execSpanLinkRetrain (lk : Nat) (s : State) : Host.Outcome State Fault Refusal :=
  if s.spanTrains lk && (s.span lk).state = 0 && s.domActive (spanDom lk) then .next (s.modSpan lk (fun x => { x with state := 1 })) else .next s

/-- SPAN_LINK_UP: training completes with `lanes` lanes; a link that woke from Hold goes on where it stood (R276, R312). -/
def execSpanLinkUp (lk lanes : Nat) (s : State) : Host.Outcome State Fault Refusal :=
  let x := s.span lk
  if x.hold = 3 then
    .next ((s.modSpan lk (fun y =>
      let y1 := { y with hold := 0, lanes := min lanes 12 }
      y1.pump y1.queue.length)).modDom (spanDom lk) (fun d => { d with state := 0, waking := none }))
  else if x.state = 1 then
    .next ((s.modSpan lk (fun y => { y with state := 2, lanes := min lanes 12, txSeq := 0, rxSeq := 0, credits := [] })).postFault 4
      (spanDom lk) lk)
  else .next s

/-! ### Frames (R135, R136) -/

/-- Frames through the acknowledged sequence number leave the replay buffer. -/
def acked (ack : Nat) (l : List (Nat × List Volley)) : List (Nat × List Volley) :=
  l.filter (fun e => 2048 ≤ (ack + 4096 - e.1) % 4096)

/-- The trailer of a good frame: acknowledgement and credit returns. -/
def Span.trailer (x : Span) (f : SpanFrame) : Span :=
  let add := fun (vc n : Nat) (c : Tab Nat) => tset vc (min (tget 256 vc c + n) 256) c
  { x with replay := acked f.ack x.replay, credits := add 2 f.credit2 (add 1 f.credit1 (add 0 f.credit0 x.credits)) }

/-- SPAN_FRAME: a frame with an error is discarded and go-back-N replay follows; a good one in sequence is accepted; an
idle frame carries no flits and takes no sequence number (R135, R136). -/
def execSpanFrame (lk : Nat) (f : SpanFrame) (s : State) : Host.Outcome State Fault Refusal :=
  let x := s.span lk
  if x.state ≠ 2 then .next s
  else if !f.good then
    .next (s.modSpan lk (fun y => { y with uncorrected := sat 16 y.uncorrected 1, replays := sat 16 y.replays 1 }))
  else
    let s1 := s.modSpan lk (fun y => y.trailer f)
    let s2 :=
      if f.volleys.isEmpty || f.seq ≠ x.rxSeq then s1
      else s1.modSpan lk (fun y =>
        { y with rxSeq := (y.rxSeq + 1) % 4096, arrived := y.arrived ++ f.volleys.map s.fromWire })
    .next (s2.modSpan lk (fun y => y.pump y.queue.length))

/-! ### Volleys between packages (R27, R117, R130) -/

/-- A control message from another package reaches its unit. -/
def State.peerCtl (s : State) (lk : Nat) (c : Ctl) : State :=
  match c with
  | .subscribe l f => s.subscribed lk l f
  | .tempoFwd l n => s.tempoForward lk l n
  | _ => s

/-- SPAN_VOLLEY: a received volley is injected here or forwarded; past 7 hops, or without a live route, its events are
recorded with FAILED_LINK (R117, R130). -/
def execSpanVolley (lk : Nat) (s : State) : Host.Outcome State Fault Refusal :=
  match (s.span lk).arrived with
  | [] => .next s
  | v :: r =>
    let s1 := s.modSpan lk (fun x => { x with arrived := r })
    if v.dst.p = s.hub.p then
      match v.body with
      | .control _ c => .next (s1.peerCtl lk c)
      | _ =>
        match s1.unreach v.dst with
        | some c => .next (({ s1 with hub.fabLost := sat 32 s1.hub.fabLost 1 }).loseEvents v c (s1.spanCoord lk))
        | none => .next (s1.inject (epKey (40 + lk) 0) v)
    else
      let u := { v with phops := v.phops + 1 }
      if 7 < u.phops then .next (s1.loseEvents v .failedLink (s1.spanCoord lk))
      else
        match s1.spanRouteTo v.dst.p with
        | some k =>
          if s1.spanUsable k then .next (s1.spanSend k u)
          else .next (({ s1 with hub.fabLost := sat 32 s1.hub.fabLost 1 }).loseEvents v .failedLink (s1.spanCoord lk))
        | none => .next (({ s1 with hub.fabLost := sat 32 s1.hub.fabLost 1 }).loseEvents v .failedLink (s1.spanCoord lk))

/-! ### Hold (R276) -/

/-- No traffic in either direction at this end. -/
def Span.quiet (x : Span) : Bool := x.queue.isEmpty && x.replay.isEmpty && x.arrived.isEmpty

/-- The link is in Hold. -/
def State.spanHeld (s : State) (lk : Nat) : State :=
  (s.modSpan lk (fun x => { x with hold := 2 })).modDom (spanDom lk) (fun d => { d with state := 2 })

/-- LINK_HOLD: the peer proposes Hold; an idle end answers LINK_HOLD_ACK and the link is in Hold (log 35). -/
def execLinkHold (lk : Nat) (s : State) : Host.Outcome State Fault Refusal :=
  if (s.span lk).state = 2 && (s.span lk).hold < 2 && (s.span lk).quiet then .next (s.spanHeld lk) else .next s

/-- LINK_HOLD_ACK: the peer agrees to this end's proposal. -/
def execLinkHoldAck (lk : Nat) (s : State) : Host.Outcome State Fault Refusal :=
  if (s.span lk).hold = 1 then .next (s.spanHeld lk) else .next s

/-- SPAN_HOLD_WAKE: the peer leaves electrical idle; both ends retrain with their kept coefficients (R276, R284). -/
def execSpanHoldWake (lk : Nat) (s : State) : Host.Outcome State Fault Refusal :=
  if (s.span lk).hold = 2 then
    .next (((s.modSpan lk (fun x => { x with hold := 3 })).modDom (spanDom lk) (fun d =>
      { d with state := 0, holdWakes := sat 16 d.holdWakes 1 })).recordWake 2 2 (spanDom lk) (epKey (40 + lk) 0))
  else .next s

/-- SPAN_HOLD_RETRAIN_TIMEOUT: a link that has not retrained within 100 µs is handled as down (R276). -/
def execSpanHoldRetrainTimeout (lk : Nat) (s : State) : Host.Outcome State Fault Refusal :=
  if (s.span lk).hold = 3 then .next (s.spanDown lk) else .next s

end Sys2Proof.Machine
end

