-- ==== Sys2Proof/Machine/Trace.lean ====
section
/-! DEFINITION. The trace unit: the record stream with its delta form, SYNC, GAP and TRIGGER records, the buffer and the
ports, TRACE_CFG (R317 to R330). -/

namespace Sys2Proof.Machine

open Sys2Proof

abbrev Half := BitVec 16

/-! ### The buffer (R326 to R328) -/

/-- Output mode: 0 buffer, 1 parallel, 2 serial; and whether buffer mode wraps. -/
def Trace.mode (t : Trace) : Nat := fb t.out.toNat 1 0
def Trace.wraps (t : Trace) : Bool := t.mode = 0 && t.out.getLsbD 2

/-- The halfwords of the 256 KiB buffer. -/
def bufHalves : Nat := 131072

/-- Halfwords enter the buffer. -/
def Trace.putRaw (t : Trace) : List Half → Trace
  | [] => t
  | h :: r =>
    Trace.putRaw { t with buf := tset (t.head / 2) h t.buf, head := (t.head + 2) % 2 ^ 18, held := t.held + 1,
                          outHw := t.outHw + 1 } r

/-- Overwriting drops the oldest block: the oldest SYNC then is the next one (R327). -/
def Trace.dropBlock (t : Trace) : Trace :=
  match t.syncs with
  | a :: b :: r => { t with syncs := b :: r, held := t.held - (b + 2 ^ 18 - a) % 2 ^ 18 / 2 }
  | _ => { t with syncs := [], held := 0 }

/-- Blocks are dropped until n more halfwords have room. -/
def Trace.makeRoom (t : Trace) (n : Nat) : Nat → Trace
  | 0 => t
  | k + 1 => if t.wraps && bufHalves < t.held + n then t.dropBlock.makeRoom n k else t

/-- Halfwords of the serial stream between two ALIGN rounds: 16,384 blocks on each of 4 lanes (R328). -/
def alignHw : Nat := 262144

/-- PADs up to the next ALIGN round where n halfwords would cross it. -/
def Trace.pads (t : Trace) (n : Nat) : List Half :=
  if t.mode = 2 && alignHw < t.outHw % alignHw + n then List.replicate (alignHw - t.outHw % alignHw) 0 else []

/-- One record enters the buffer. -/
def Trace.put (t : Trace) (hs : List Half) : Trace :=
  let t1 := t.makeRoom hs.length 128
  { t1.putRaw hs with records := sat 32 t1.records 1, sinceStart := t1.sinceStart + 1 }

/-! ### Records (R319 to R322, R325, R326) -/

def hw (n : Nat) : Half := BitVec.ofNat 16 n

/-- Halfword 0 of a record of len halfwords. -/
def trcHeader (kind : Nat) (full : Bool) (len src : Nat) : Half := hw (kind + b2n full * 2 ^ 4 + (len - 1) * 2 ^ 5 + src * 2 ^ 8)

/-- A SYNC at the start of the stream or at the first boundary at or after each 4 KiB of output; every delta form begins
again (R322). -/
def Trace.sync (t : Trace) (wall : Nat) : Trace :=
  let n := t.sinceStart
  { ({ t with syncs := t.syncs ++ [t.head], syncAt := t.outHw, ctx := [] } : Trace).put
      [trcHeader 0xD false 5 0xFF, hw wall, hw (wall / 2 ^ 16), hw n, hw (n / 2 ^ 16)] with ctx := [] }

def Trace.syncDue (t : Trace) : Bool := t.syncAt / 2048 < t.outHw / 2048

def Trace.syncIfDue (t : Trace) (wall : Nat) : Trace := if t.syncDue then t.sync wall else t

/-- A GAP before the next record of a source that has lost some; its delta forms begin again (R326). -/
def Trace.gap (t : Trace) (src : Nat) : Trace :=
  let n := tget 0 src t.lost
  if n = 0 then t
  else
    { t.put [trcHeader 0xE false 3 src, hw (satv 32 n), hw (satv 32 n / 2 ^ 16)] with
      lost := tdel src t.lost, gaps := sat 32 t.gaps 1, ctx := t.ctx.filter (fun e => e.1 / 16 ≠ src) }

/-- What goes out ahead of a record of a source that takes n halfwords at most: PADs before an ALIGN round, a due SYNC,
the GAPs of the trace unit and of the source. -/
def Trace.ahead (t : Trace) (wall src n : Nat) : Trace :=
  (((t.putRaw (t.pads (n + 11))).syncIfDue wall).gap 0xFF).gap src

/-- The result of an output when it fits, else the record is dropped and counted (R326); buffer mode without wrap is then
DONE (R327). -/
def Trace.orDrop (t t1 : Trace) (src : Nat) : Trace :=
  if t1.held ≤ bufHalves then t1
  else { t.drop src with st := if t.mode = 0 then 4 else t.st }

/-- The delta of a record from the last of its source and kind, none where full form is needed (R321). -/
def delta (c : Option TraceCtx) (r : TraceRec) : Option (Nat × Int) :=
  match c with
  | none => none
  | some p =>
    let dT := (r.time + 2 ^ 20 - p.time) % 2 ^ 20
    let dA := Int.ofNat r.a - Int.ofNat p.a
    if p.w = r.w && p.wv = r.wv && dT ≤ 255 && decide (-128 ≤ dA) && decide (dA ≤ 127) then some (dT, dA) else none

/-- The halfwords of a record of a source (R319). -/
def Trace.encode (t : Trace) (r : TraceRec) : List Half :=
  let p := r.payload.map hw
  match delta (tfind (16 * r.src + r.kind) t.ctx) r with
  | some (dT, dA) => trcHeader r.kind false (2 + p.length) r.src :: hw (dT + mask 8 dA * 2 ^ 8) :: p
  | none =>
    let c := r.time + r.w * 2 ^ 20 + b2n r.wv * 2 ^ 33
    trcHeader r.kind true (6 + p.length) r.src ::
      hw c :: hw (c / 2 ^ 16) :: hw (c / 2 ^ 32) :: hw r.a :: hw (r.a / 2 ^ 16) :: p

/-- A record of a source goes out. -/
def Trace.emit (t : Trace) (wall : Nat) (r : TraceRec) : Trace :=
  let t1 := t.ahead wall r.src 8
  let t2 := { t1.put (t1.encode r) with
    ctx := tset (16 * r.src + r.kind) { time := r.time, w := r.w, wv := r.wv, a := r.a } t1.ctx }
  t.orDrop t2 r.src

/-- A TRIGGER record goes out. -/
def Trace.trigger (t : Trace) (wall k act : Nat) : Trace :=
  t.orDrop ((t.ahead wall 0xFF 2).put [trcHeader 0xC false 2 0xFF, hw (k + act * 4)]) 0xFF

/-! ### Triggers and capture (R324, R325) -/

def trgAction (e : Word × Word) : Nat := fb e.1.toNat 31 30
def trgMatchA (e : Word × Word) : Bool := e.1.getLsbD 29
def trgKind (e : Word × Word) : Nat := fb e.1.toNat 28 25
def trgSource (e : Word × Word) : Nat := fb e.1.toNat 24 17
def trgPost (e : Word × Word) : Nat := fb e.1.toNat 15 0

/-- Trigger e matches record r. -/
def trgHit (e : Word × Word) (r : TraceRec) : Bool :=
  trgAction e ≠ 3 && (trgSource e = 0xFF || trgSource e = r.src) && trgKind e = r.kind && (!trgMatchA e || e.2.toNat = r.a)

/-- Trigger k acts on a record that it matches. -/
def Trace.fire (t : Trace) (wall : Nat) (r : TraceRec) (k : Nat) : Trace :=
  let e := tget (0, 0) k t.trigs
  if (t.st = 0 || t.st = 4) || !trgHit e r then t
  else
    let t1 := { t.trigger wall k (trgAction e) with fired := t.fired ||| BitVec.ofNat 4 (2 ^ k) }
    if trgAction e = 1 && t1.st = 1 then { t1 with st := 2 }
    else if trgAction e = 2 && t1.st = 2 then { t1 with st := if trgPost e = 0 then 4 else 3, post := trgPost e }
    else t1

/-- A record in POST uses up the post count. -/
def Trace.countPost (t : Trace) : Trace :=
  if t.st = 3 then { t with post := t.post - 1, st := if t.post ≤ 1 then 4 else 3 } else t

/-- A record reaches the trace unit: it is output in RUNNING and POST, and tested against every trigger. In DONE it only
finds a full buffer, or nothing (R324 to R327). -/
def Trace.arrive (t : Trace) (wall : Nat) (r : TraceRec) : Trace :=
  if t.st = 0 then t
  else if t.st = 4 then
    (if t.mode = 0 && !t.wraps && bufHalves < (t.emit wall r).held + 8 then t.drop r.src else t)
  else
    let t1 := if t.st = 1 then t else (t.emit wall r).countPost
    (List.range 4).foldl (fun t k => t.fire wall r k) t1

/-- The tiles with a record on its way to the trace unit. -/
def State.traceTiles (s : State) : List Nat := (s.tiles.filter (fun e => !e.2.traceFifo.isEmpty)).map (·.1)

/-- The record that reaches the trace unit next: among the tiles and the hub's units in an order that the spec leaves to
arrival (R323; log 9). -/
def State.traceNext (s : State) : Option (TraceRec × State) :=
  let ts := s.traceTiles
  let n := ts.length + b2n (!s.trc.queue.isEmpty)
  let i := Config.freeIndex s.freeCtr % n
  let s1 : State := { s with freeCtr := s.freeCtr + 1 }
  if n = 0 then none
  else
    match ts[i]? with
    | some t =>
      match (s.tile t).traceFifo with
      | r :: q => some (r, s1.modTile t (fun x => { x with traceFifo := q }))
      | [] => none
    | none =>
      match s.trc.queue with
      | r :: q => some (r, { s1 with trc.queue := q })
      | [] => none

/-- TRACE_RECORD: a record reaches the trace unit. -/
def execTraceRecord (s : State) : Host.Outcome State Fault Refusal :=
  match s.traceNext with
  | some (r, s1) => .next { s1 with trc := s1.trc.arrive s1.aon.wall r }
  | none => .next s

/-- The records in hand are output. -/
def State.traceFlush (s : State) : Nat → State
  | 0 => s
  | n + 1 =>
    match s.traceNext with
    | some (r, s1) => ({ s1 with trc := s1.trc.arrive s1.aon.wall r } : State).traceFlush n
    | none => s

/-- How many records are in hand. -/
def State.traceInHand (s : State) : Nat :=
  s.trc.queue.length + s.tiles.foldl (fun a e => a + e.2.traceFifo.length) 0

/-! ### The ports (R328) -/

/-- One edge of the parallel port: TRC_SOR marks a record's header, and PAD fills an edge without a record. -/
def Trace.edge (t : Trace) : Trace :=
  if t.held = 0 then { t with parOut := t.parOut ++ [(false, 0)] }
  else
    let a := (t.head + 2 ^ 18 - 2 * t.held) % 2 ^ 18
    let h := tget (0 : Half) (a / 2) t.buf
    let start := t.recLeft = 0 && h ≠ 0
    { t with held := t.held - 1, syncs := t.syncs.filter (· ≠ a), parOut := t.parOut ++ [(start, h)],
             recLeft := if t.recLeft = 0 then (if h = 0 then 0 else fb h.toNat 7 5) else t.recLeft - 1 }

def Trace.edges (t : Trace) : Nat → Trace
  | 0 => t
  | n + 1 => t.edge.edges n

/-- The ALIGN blocks that go on every lane ahead of block n of the stream. -/
def alignBlocks (n : Nat) : List (Nat × Bool × DWord) :=
  if n % 65536 = 0 then
    (List.range 4).map (fun l => (l, false, BitVec.ofNat 64 (0x4B + l * 2 ^ 8 + n / 4 % 2 ^ 32 * 2 ^ 16)))
  else []

/-- One block of the serial port: four halfwords of the stream on lane i mod 4, or IDLE while fewer wait. -/
def Trace.block (t : Trace) : Trace :=
  if t.held < 4 then { t with serOut := t.serOut ++ [(t.serBlocks % 4, false, 0x1E)] }
  else
    let a := (t.head + 2 ^ 18 - 2 * t.held) % 2 ^ 18
    let h := fun i => (tget (0 : Half) ((a + 2 * i) % 2 ^ 18 / 2) t.buf).toNat
    { t with
      held := t.held - 4, syncs := t.syncs.filter (fun x => 8 ≤ (x + 2 ^ 18 - a) % 2 ^ 18),
      serBlocks := t.serBlocks + 1,
      serOut := t.serOut ++ alignBlocks t.serBlocks ++
        [(t.serBlocks % 4, true, BitVec.ofNat 64 (h 0 + h 1 * 2 ^ 16 + h 2 * 2 ^ 32 + h 3 * 2 ^ 48))] }

def Trace.blocks (t : Trace) : Nat → Trace
  | 0 => t
  | n + 1 => t.block.blocks n

/-- TRACE_PORT_DRAIN: the selected port takes `halfwords` from the buffer at its clock, which frees room. -/
def execTracePortDrain (halfwords : Nat) (s : State) : Host.Outcome State Fault Refusal :=
  if s.trc.st = 0 then .next s
  else if s.trc.mode = 1 then .next { s with trc := ({ s.trc with parOut := [] } : Trace).edges halfwords }
  else if s.trc.mode = 2 then .next { s with trc := ({ s.trc with serOut := [] } : Trace).blocks (halfwords / 4) }
  else .next s

/-! ### TRACE_CFG (R318, R329) -/

/-- Clears the buffer. -/
def Trace.empty (t : Trace) : Trace :=
  { t with buf := [], head := 0, held := 0, syncs := [], outHw := 0, sinceStart := 0, syncAt := 0, ctx := [], lost := [],
           recLeft := 0, serBlocks := 0, post := 0 }

/-- START by master m: clears, outputs SYNC, and enters ARMED when a START trigger exists. -/
def Trace.start (t : Trace) (m wall : Nat) : Trace :=
  { ({ t.empty with owner := m, fired := 0 } : Trace).sync wall with
    st := if t.trigs.any (fun e => trgAction e.2 = 1) then 1 else 2 }

/-- A source entry names one endpoint and kinds that it can produce (R318). -/
def State.sourceEntryOk (s : State) (v : Word) : Bool :=
  let x := fb v.toNat 11 6
  let y := fb v.toNat 5 0
  let k := fb v.toNat 20 12
  !v.getLsbD 31
    || (x < 32 && s.populated (epKey x y) && k < 64)
    || (x = 32 && y = 0 && (k = 0 || k = 64)) || (x = 33 && y = 0 && (k = 0 || k = 128)) || (x = 35 && y = 0 && (k = 0 || k = 256))

/-- Runs one operation of TRACE_CFG: the right and the fence state first, then the arguments, then the state where the
operation needs OFF or DONE. -/
def traceCmd (op need : Nat) (idle : Bool) (ok : State → Nat → DWord → Bool) (f : State → ExecCmd → Nat → Word → Trace)
    (rk seq : Nat) (s : State) : Host.Outcome State Fault Refusal :=
  runCmd 0x20 (fun c => wf (c.words.getD 1 0) 3 0 = op) (fun s c =>
    let w1 := c.words.getD 1 0
    if !s.has c.src .trace .admin then s.complete c .failedAccess []
    else if !s.domActive 4 then s.complete c .failedFenced []
    else if c.words.length < need || !ok s (wf w1 11 4) w1 then s.complete c .failedAccess []
    else if idle && s.trc.st ≠ 0 && s.trc.st ≠ 4 then s.complete c .busy []
    else
      let s1 := s.wakeDom 4 10 0x20
      ({ s1 with trc := f s1 c (wf w1 11 4) (w1.extractLsb' 32 32) } : State).complete c .done []) rk seq s

/-- The low half of word i of a command. -/
def lowWord (c : ExecCmd) (i : Nat) : Word := (c.words.getD i 0).extractLsb' 0 32

/-- TRACE_CFG STOP: DONE after the records in hand are output. -/
def execTraceStop (rk seq : Nat) (s : State) : Host.Outcome State Fault Refusal :=
  runCmd 0x20 (fun c => wf (c.words.getD 1 0) 3 0 = 0) (fun s c =>
    if !s.has c.src .trace .admin then s.complete c .failedAccess []
    else if !s.domActive 4 then s.complete c .failedFenced []
    else
      let s1 := (s.wakeDom 4 10 0x20).traceFlush s.traceInHand
      ({ s1 with trc.st := 4 } : State).complete c .done []) rk seq s

/-- TRACE_CFG START. -/
def execTraceStart (rk seq : Nat) (s : State) : Host.Outcome State Fault Refusal :=
  traceCmd 1 2 false (fun _ _ _ => true) (fun s c _ _ => s.trc.start c.src s.aon.wall) rk seq s

/-- TRACE_CFG SOURCE. -/
def execTraceSource (rk seq : Nat) (s : State) : Host.Outcome State Fault Refusal :=
  traceCmd 2 2 true (fun s i w1 => i < 255 && s.sourceEntryOk (w1.extractLsb' 32 32))
    (fun s _ i v => { s.trc with srcs := tset i (v &&& 0x801F_FFFF) s.trc.srcs }) rk seq s

/-- TRACE_CFG FILTER. -/
def execTraceFilter (rk seq : Nat) (s : State) : Host.Outcome State Fault Refusal :=
  traceCmd 3 4 true (fun _ _ _ => true)
    (fun s c _ v => { s.trc with filtWorld := v &&& 0xC3FF_FFFF, filtA := lowWord c 2, filtAMask := lowWord c 3 }) rk seq s

/-- TRACE_CFG TRIGGER. -/
def execTraceTrigger (rk seq : Nat) (s : State) : Host.Outcome State Fault Refusal :=
  traceCmd 4 3 true (fun _ i _ => i < 4)
    (fun s c i v => { s.trc with trigs := tset i (v &&& 0xFFFE_FFFF, lowWord c 2) s.trc.trigs }) rk seq s

/-- TRACE_CFG OUTPUT: mode 3 is refused, and mode 2 without TRACE_SER (R328). -/
def execTraceOutput (rk seq : Nat) (s : State) : Host.Outcome State Fault Refusal :=
  traceCmd 5 2 true (fun s _ w1 => wf w1 33 32 ≠ 3 && (wf w1 33 32 ≠ 2 || s.charter 4))
    (fun s _ _ v => { s.trc with out := v &&& 7 }) rk seq s

/-- TRACE_CFG CLEAR: OFF, with the buffer empty and the counters 0. -/
def execTraceClear (rk seq : Nat) (s : State) : Host.Outcome State Fault Refusal :=
  traceCmd 6 2 false (fun _ _ _ => true) (fun s _ _ _ => { s.trc.empty with st := 0, records := 0, dropped := 0, gaps := 0 })
    rk seq s

/-! ### Fence of the trace unit (R330) -/

/-- The drain of the trace unit outputs the records in hand. -/
def State.traceDrain (s : State) : State := s.traceFlush s.traceInHand

/-- RESET: the buffer and the tile FIFOs empty, and the state OFF. -/
def State.traceReset (s : State) : State :=
  { s with trc := { s.trc.empty with st := 0, queue := [] },
           tiles := s.tiles.map (fun (e : Nat × Tile) => (e.1, { e.2 with traceFifo := [] })) }

/-- A reset of a traced tile clears its FIFO; the records lost are counted. -/
def State.traceTileReset (s : State) (t : Nat) : State :=
  ({ s with trc := (s.tile t).traceFifo.foldl (fun c r => c.drop r.src) s.trc } : State).modTile t (fun x =>
    { x with traceFifo := [] })

end Sys2Proof.Machine
end

