-- ==== Sys2Proof/Machine/Power.lean ====
section
/-! DEFINITION. Power domains, the power cap, Doldrums and the sensors: idle conditions, Lull and Hold, wakes, the law of
the throttle level, entry into Doldrums and its wake sources (R269 to R289, R344). -/

namespace Sys2Proof.Machine

open Sys2Proof

/-! ### Idle conditions (R272) -/

/-- A bulk transfer is open that stack st issued or that the hub has open. -/
def State.bulkOpen (s : State) (st : Nat) : Bool := s.pool.bulks.any (fun b => b.who < 2 || b.who = 0x24 + st)

/-- No step is allowed for a resident world of tile t, and no work of it is queued. -/
def State.tileIdle (s : State) (t : Nat) : Bool :=
  let x := s.tile t
  x.idle && x.posts.isEmpty && x.openVols.isEmpty && x.pace.waiting.isEmpty && x.chainOut.isEmpty && x.lrnBusy.isNone
    && !(s.tmp.worlds.any (fun e => s.mayUpdate t e.1))
    && !(x.intake.any (fun ev => (s.world ev.w).st = .running && !ev.macDone))
    && (tget [] t s.fab.inbox).isEmpty && !(s.fab.mail.any (fun m => m.dst = t))
    && !(s.scheduled t && s.anyLane t && s.slotOpen t (s.slotEntry t))
    && !s.bulkOpen (stackOf t)

/-- The tiles of stack st. -/
def State.tilesOf (s : State) (st : Nat) : List Nat :=
  ((List.range 8).flatMap (fun i => (List.range 16).map (fun j => 64 * (8 * (st % 4) + i) + 16 * (st / 4) + j))).filter
    s.tilePresent

/-- The routers of stack st: 8 columns of 17 rows. -/
def stackRouters (st : Nat) : List Nat :=
  (List.range 8).flatMap (fun i => (List.range 17).map (fun j => rtKey (8 * (st % 4) + i) (17 * (st / 4) + j)))

/-- Every tile of stack st is at least as deep as `depth`; every flit has left its routers; no bulk transfer is open. -/
def State.stackIdle (s : State) (st depth : Nat) : Bool :=
  (s.tilesOf st).all (fun t => depth ≤ (s.dom (tileDom t)).state)
    && (stackRouters st).all (fun k => (s.router k).bufs.all (fun b => b.2.isEmpty)) && !s.bulkOpen st

/-- No command executes or waits, no volley stands at a spine stop, no advance is pending. -/
def State.hubIdle (s : State) : Bool :=
  s.hub.executing.isEmpty && s.hub.lds.all (fun e => !e.2.enabled || (s.rack e.2.cmdRack).msgs.isEmpty)
    && s.fab.routers.all (fun r => r.2.bufs.all (fun b => b.1 / 3 ≠ 5 || b.2.isEmpty))
    && s.fab.inbox.all (fun e => e.1 < 2048 || e.2.isEmpty) && s.fab.hubPace.all (fun p => p.2.waiting.isEmpty)
    && s.tmp.worlds.all (fun e => e.2.st ≠ .running || e.2.t = e.2.s)

/-- No command, amendment or cap step executes in the steward. -/
def State.stewardIdle (s : State) : Bool := s.hub.executing.all (fun c => opUnit c.op ≠ 2) && s.boot.amending.isNone

/-- No transaction is open and no line is cached in any agent. -/
def State.gatewayIdle (s : State) : Bool :=
  s.pool.ops.isEmpty && s.pool.waitingReqs.isEmpty && s.pool.toAgent.isEmpty && s.pool.toDir.isEmpty
    && s.pool.dir.all (fun e => e.trans.isNone) && s.pool.caches.all (fun c => c.2.isEmpty)

/-- The package is keeper with a rebuild in progress. -/
def State.rebuilding (s : State) : Bool := s.pool.role = 1 && s.pool.stripe = 2

/-- The domain is idle, and for `depth` 2 what Hold also needs (R272). A CXL port's condition is its host's (log 46). -/
def State.domIdle (s : State) (d depth : Nat) : Bool :=
  match s.domClass d with
  | some 0 => s.tileIdle (d - 0x800)
  | some 1 => s.stackIdle (d - 0x040) depth && (depth < 2 || (tget [] (d - 0x040) s.pool.caches).isEmpty)
  | some 2 => depth < 2 || (s.dom (stackDom (d - 0x050))).state = 2
  | some 3 => s.hubIdle
  | some 4 => s.stewardIdle
  | some 5 => s.gatewayIdle && (depth < 2 || !s.rebuilding)
  | some 6 => s.trc.st = 0
  | some 7 => 2 ≤ (s.link (d - 8)).state
  | some 8 => (s.span (d - 0x010)).state = 2 && (s.span (d - 0x010)).hold = 0 && (s.span (d - 0x010)).quiet
  | some 9 =>
    let p := s.port (d - 0x020)
    p.queue.isEmpty && (depth < 2 || p.st = .off || p.st = .detached)
  | _ => false

/-! ### Lull and Hold (R271 to R276) -/

/-- max_depth of class c. -/
def State.classDepth (s : State) (c : Nat) : Nat := fb s.pwr.cfg.depth.toNat (2 * c + 1) (2 * c)

/-- The deepest state domain d may take: the lowest of its class's max_depth and its pin entries' depths. -/
def State.depthLimit (s : State) (d : Nat) : Nat :=
  match s.domClass d with
  | none => 0
  | some c =>
    ((s.pwr.cfg.pins.filter (fun e => bit e.2.toNat 14 && fb e.2.toNat 11 0 = d)).map (fun e => fb e.2.toNat 13 12)).foldl min
      (s.classDepth c)

/-- Domain d may enter `depth`: it has been idle for the time of PWR_IDLE, which is not "never" (R272). -/
def State.mayEnter (s : State) (d depth : Nat) : Bool :=
  match s.domClass d with
  | none => false
  | some c =>
    let i := (tget (0 : Word) c s.pwr.cfg.idle).toNat
    s.isReady && s.aon.phase = .running && (s.dom d).state < depth && (s.dom d).waking.isNone
      && (if depth = 1 then fb i 15 0 else fb i 31 16) ≠ 0xFFFF && depth ≤ s.depthLimit d && s.domIdle d depth

/-- LULL_ENTRY: lull_us of continuous idle have passed; CXL ports and span links have no Lull (R271). -/
def execLullEntry (dom : Nat) (s : State) : Host.Outcome State Fault Refusal :=
  if s.mayEnter dom 1 && s.domClass dom ≠ some 7 && s.domClass dom ≠ some 8
  then .next (s.modDom dom (fun x => { x with state := 1 })) else .next s

/-- The earliest tether deadline among the RUNNING worlds (R275, R36). -/
def State.tetherDeadline (s : State) : Option Nat :=
  (s.tmp.worlds.filter (fun e => e.2.st = .running)).foldl (fun a e =>
    let d := e.2.lastAdv + 1000 * e.2.tetherMs
    match a with
    | none => some d
    | some b => some (min b d)) none

/-- HOLD_ENTRY: hold_us of continuous idle have passed. A span link proposes Hold to its peer, and the hub core arms the
wake timer for the earliest tether deadline (R272, R275, R276). -/
def execHoldEntry (dom : Nat) (s : State) : Host.Outcome State Fault Refusal :=
  if !s.mayEnter dom 2 then .next s
  else if s.domClass dom = some 8 then .next (s.modSpan (dom - 0x010) (fun x => { x with hold := 1 }))
  else
    let s1 := s.modDom dom (fun x => { x with state := 2 })
    .next (if dom = 1 then { s1 with aon.tetherAt := s.tetherDeadline } else s1)

/-- Domain d is awake. -/
def State.domAwake (s : State) (d : Nat) : State := s.modDom d (fun x => { x with state := 0, waking := none, idle := false })

/-- DOMAIN_READY: the exit stall of a waking domain ends; a span link's ends with its retraining (R273, R276). -/
def execDomainReady (dom : Nat) (s : State) : Host.Outcome State Fault Refusal :=
  if (s.dom dom).waking.isSome && s.domClass dom ≠ some 8 then .next (s.domAwake dom) else .next s

/-! ### POWER_REQ (R287, R289) -/

/-- POWER_REQ WAKE: a volley from the power controller wakes the domain (R289; log 47 for its wake record). -/
def execPowerReqWake (dom : Nat) (s : State) : Host.Outcome State Fault Refusal := .next (s.wakeDom dom 2 stewardEp)

/-- POWER_REQ IDLE: the domain reports that it is idle. -/
def execPowerReqIdle (dom : Nat) (s : State) : Host.Outcome State Fault Refusal :=
  if (s.domClass dom).isSome then .next (s.modDom dom (fun x => { x with idle := true })) else .next s

/-- POWER_REQ STATE: a stack root reports the new state of a tile, its fabric or its DRAM (log 47). -/
def execPowerReqState (dom state : Nat) (s : State) : Host.Outcome State Fault Refusal :=
  match s.domClass dom with
  | some c => if c ≤ 2 && state < 3 then .next (s.modDom dom (fun x => { x with state := state, waking := none })) else .next s
  | none => .next s

/-- The tiles a POWER_REQ names: a tile, or every tile of a stack. -/
def State.reqTiles (s : State) (d : Nat) : List Nat :=
  match s.domClass d with
  | some 0 => if s.tilePresent (d - 0x800) then [d - 0x800] else []
  | some 1 => s.tilesOf (d - 0x040)
  | _ => []

/-- POWER_REQ CAP: throttles the Breeze intake of the domain's tiles, or ends it; no throttle is switched on at level 0
(R287, R138). -/
def execPowerReqCap (dom : Nat) (on : Bool) (s : State) : Host.Outcome State Fault Refusal :=
  if on && s.pwr.level = 0 then .next s
  else .next ((s.reqTiles dom).foldl (fun s t => s.modTile t (fun x => { x with throttled := on })) s)

/-! ### The power cap (R285 to R287) -/

/-- The law of R286 over level, count of windows under the cap, and average p and cap c in one unit. -/
def capLaw (k under p c : Nat) : Nat × Nat :=
  if c < p then (min (k + 1) 7, 0)
  else if p ≤ c - c / 16 then (if under + 1 = 4 then (k - 1, 0) else (k, under + 1))
  else (k, 0)

/-- CAP_WINDOW: the average is taken and a window over the cap counted; the steward applies the law, unless it is in reset
or a sensor holds level 7 (R286, R287, R344; log 48). -/
def execCapWindow (p : Nat) (s : State) : Host.Outcome State Fault Refusal :=
  if !s.isReady || s.aon.phase ≠ .running then .next s
  else
    let c := 10 * s.effCap
    let s1 : State := { s with pwr.avg := p, pwr.capOver := if c < p then sat 32 s.pwr.capOver 1 else s.pwr.capOver }
    if s.flt.stwReset || s.aon.therm then .next s1
    else
      let r := capLaw s.pwr.level s.pwr.under p c
      .next { s1 with pwr.level := r.1, pwr.under := r.2 }

/-! ### POWER_SET (R288) -/

/-- Runs one operation of POWER_SET for a master with ADMIN on the power block. -/
def powerSet (op : Nat) (f : State → ExecCmd → DWord → State × Code) (rk seq : Nat) (s : State) :
    Host.Outcome State Fault Refusal :=
  runCmd 0x28 (fun c => wf (c.words.getD 1 0) 1 0 = op) (fun s c =>
    if !s.has c.src .powerBlock .admin then s.complete c .failedAccess []
    else
      let r := f s c (c.words.getD 1 0)
      r.1.complete c r.2 []) rk seq s

/-- POWER_SET CAP. -/
def execPowerSetCap (rk seq : Nat) (s : State) : Host.Outcome State Fault Refusal :=
  powerSet 0 (fun s _ w => ({ s with pwr.setCap := wf w 31 16 }, .done)) rk seq s

/-- Domains deeper than their limit wake (R288). -/
def State.wakeDeep (s : State) : State :=
  s.pwr.doms.foldl (fun s e => if s.depthLimit e.1 < e.2.state then s.wakeDom e.1 10 0x28 else s) s

/-- max_depth of class c set to k. -/
def setDepth (depth : BitVec 20) (c k : Nat) : BitVec 20 :=
  BitVec.ofNat 20 (depth.toNat - fb depth.toNat (2 * c + 1) (2 * c) * 2 ^ (2 * c) + k * 2 ^ (2 * c))

/-- POWER_SET DEPTH. -/
def execPowerSetDepth (rk seq : Nat) (s : State) : Host.Outcome State Fault Refusal :=
  powerSet 1 (fun s _ w =>
    let c := wf w 7 4
    if 9 < c || wf w 9 8 = 3 then (s, .failedAccess)
    else (State.wakeDeep { s with pwr.cfg := { s.pwr.cfg with depth := setDepth s.pwr.cfg.depth c (wf w 9 8) } }, .done)) rk seq s

/-- No world is RUNNING, no rebuild is in progress on a keeper. -/
def State.quietWorlds (s : State) : Bool := s.tmp.worlds.all (fun e => e.2.st ≠ .running) && !s.rebuilding

/-- Every command rack is empty. -/
def State.cmdRacksEmpty (s : State) : Bool := s.hub.lds.all (fun e => !e.2.enabled || (s.rack e.2.cmdRack).msgs.isEmpty)

/-- POWER_SET DOLDRUMS: DONE when R278 allows entry; the dispatcher then takes no further command (R279). -/
def execPowerSetDoldrums (rk seq : Nat) (s : State) : Host.Outcome State Fault Refusal :=
  powerSet 2 (fun s c w =>
    if s.quietWorlds && s.cmdRacksEmpty && s.hub.executing.all (fun d => d.rk = c.rk && d.seq = c.seq) then
      ({ s with aon.wakeTimer := wf w 63 32, pwr.doldPending := true, pwr.dispatchOff := true }, .done)
    else (s, .busy)) rk seq s

/-! ### Loss of the switched supplies (R270, R279, R337) -/

/-- What the always-on output stage and presence detector of a port keep (R238, R270). -/
def Port.kept (p : Port) : Port :=
  { cfg := { mode := p.cfg.mode, presIgnore := false, armAtReady := false, inCount := 0, outCount := p.cfg.outCount,
             statusRack := 0, protocol := 0, chans := [], lost := [], polls := [], targets := [], filters := [],
             outs := p.cfg.outs, slots := p.cfg.slots }
    pres := p.pres, presRaw := p.presRaw, outs := p.outs, slots := p.slots, recessive := p.recessive }

/-- Every domain but the always-on domain loses its state; hard fuses, the always-on registers of R270 and the commands
that wait outside stay. -/
def State.powerLoss (s : State) : State :=
  { pkg := s.pkg, fuses := s.fuses, aon := s.aon, ports := s.ports.map (fun e => (e.1, e.2.kept)), freeCtr := s.freeCtr,
    pending := s.pending }

/-! ### Doldrums (R278 to R280) -/

/-- The warm image as the last boot verified it (R282). -/
def State.warmImage (s : State) : Warm :=
  { valid := true, slot := s.boot.slot, imageId := s.boot.imageId, digest := Config.bootDigest s.boot.env.nvm s.boot.slot,
    overlayDigest := Config.overlayDigest s.boot.env.nvm.overlay, charters := s.boot.chartersValid,
    rollOnWake := s.pwr.cfg.rollOnWake, lastRoll := s.aon.warm.lastRoll, defects := s.boot.defects,
    absentStacks := s.boot.absentStacks, absent := s.boot.absent, shifted := s.boot.shifted, cause := s.aon.warm.cause }

/-- What the always-on domain records at entry: messages, worlds, loss-ring records, entries (R279). -/
def State.doldRecord (s : State) : State :=
  { s with
    aon.doldMessages := satv 17 (s.racks.racks.foldl (fun a e => a + e.2.msgs.length) 0)
    aon.doldWorlds := satv 13 (s.tmp.worlds.filter (fun e => e.2.st ≠ .free)).length
    aon.doldLoss := s.flt.head.toNat
    aon.doldEntries := sat 16 s.aon.doldEntries 1
    aon.warm :=
      if s.isReady then (if s.pwr.cfg.warmEnable then s.warmImage else s.aon.warm)
      else if s.aon.phase = .running then { s.aon.warm with valid := false, cause := 3 } else s.aon.warm }

/-- Steps 1 to 4 of R279; a source latched during entry then wakes the package, unless it has tripped (R280, R344). -/
def State.enterDoldrums (s : State) : State :=
  let s1 := ((s.eachOut (fun _ => true) Port.stepSafe).doldRecord).powerLoss
  let s2 : State := { s1 with aon.phase := .doldrums, aon.railEn := false, aon.pwrGood := false, aon.tetherAt := none }
  match s2.aon.latched with
  | some (k, d) => if s2.aon.tripped then s2 else s2.packageWake k d
  | none => s2

/-- DOLDRUMS_ENTRY: the DONE completion of POWER_SET DOLDRUMS has been removed, or grace_ms have passed (R279). -/
def execDoldrumsEntry (s : State) : Host.Outcome State Fault Refusal :=
  if s.pwr.doldPending then .next s.enterDoldrums else .next s

/-- DOLDRUMS_AUTO: auto_ms of R278's condition have passed. -/
def execDoldrumsAuto (s : State) : Host.Outcome State Fault Refusal :=
  if s.isReady && s.aon.phase = .running && s.pwr.cfg.autoMs ≠ 0 && s.quietWorlds && s.cmdRacksEmpty && s.trc.st = 0
      && s.hub.links.all (fun e => e.2.state < 2) && s.pool.stripe ≠ 2
  then .next s.enterDoldrums else .next s

/-- WAKE_TIMER_EXPIRY: the always-on timer ends Doldrums, or wakes the hub core from Hold for a tether check (R275,
R280). -/
def execWakeTimerExpiry (s : State) : Host.Outcome State Fault Refusal :=
  match s.aon.tetherAt with
  | some d =>
    if s.aon.phase = .running && (s.dom 1).state = 2 && d ≤ s.aon.wall then
      let s1 := ({ s with aon.tetherAt := none } : State).wakeDom 1 6 0
      .next (s1.tmp.worlds.foldl (fun s e =>
        let x := s.world e.1
        if x.st = .running && x.lastAdv + 1000 * x.tetherMs ≤ s.aon.wall then s.parkWorld e.1 1 else s) s1)
    else .next s
  | none => if s.aon.wakeTimer ≠ 0 then .next (s.wakeSource 20 6 0) else .next s

/-- PERST_RELEASE: a wake source of Doldrums (R280). -/
def execPerstRelease (port : Nat) (s : State) : Host.Outcome State Fault Refusal :=
  if port < s.pkg.cxlPorts then .next (s.wakeSource (21 + port) 7 port) else .next s

/-! ### Sensors (R344) -/

/-- The hottest sensor and its reading, as PWR_SENSE shows them. -/
def State.sense (s : State) (sensor tj : Nat) : State := { s with aon.sensor := sensor, aon.tjMax := satv 7 tj }

/-- A sensor at 100 °C or more: THERM_N, and level 7. -/
def State.hot (s : State) : State := { s with aon.therm := true, pwr.level := 7 }

/-- THERMAL_THROTTLE: a sensor reaches 100 °C. -/
def execThermalThrottle (sensor tj : Nat) (s : State) : Host.Outcome State Fault Refusal :=
  if s.aon.phase = .aonReset || tj < 100 then .next s
  else .next (s.sense sensor tj).hot

/-- THERMAL_CLEAR: every sensor reads 95 °C or less; the law of R286 then goes on from level 7. -/
def execThermalClear (tj : Nat) (s : State) : Host.Outcome State Fault Refusal :=
  if s.aon.therm && tj ≤ 95 then .next { s.sense s.aon.sensor tj with aon.therm := false } else .next s

/-- THERMAL_TRIP: a sensor reaches 110 °C; the package enters Doldrums at once. -/
def execThermalTrip (sensor tj : Nat) (s : State) : Host.Outcome State Fault Refusal :=
  if s.aon.phase = .aonReset || tj < 110 then .next s
  else
    let s1 := (s.sense sensor tj).hot
    if s.aon.phase = .doldrums then .next { s1 with aon.tripped := true }
    else .next (State.enterDoldrums { s1 with aon.tripped := true })

/-- TRIP_COOLDOWN: every sensor reads 85 °C or less; a latched source wakes the package. -/
def execTripCooldown (s : State) : Host.Outcome State Fault Refusal :=
  if s.aon.tripped then
    let s1 : State := { s with aon.tripped := false, aon.therm := false, aon.tjMax := min s.aon.tjMax 85 }
    match s.aon.phase, s.aon.latched with
    | .doldrums, some (k, d) => .next (s1.packageWake k d)
    | _, _ => .next s1
  else .next s

/-! ### TEMPO_IN and encoders (R24, R25, R341, R233) -/

/-- The TMP_PIN_CFG setting of pin k. -/
def State.pinMode (s : State) (k : Nat) : Nat := fb s.aon.pinCfg.toNat (2 * k + 1) (2 * k)

/-- The worlds that instance i of a source kind drives take an input of one unit each. -/
def State.inputAll (s : State) (kind i : Nat) : State := (s.sourced kind i).foldl (fun s w => s.input w 1) s

/-- TEMPO_IN_EDGE: an edge that has persisted for t_qual and matches the pin's setting. -/
def execTempoInEdge (pin : Nat) (rising : Bool) (s : State) : Host.Outcome State Fault Refusal :=
  if s.aon.phase = .aonReset || 4 ≤ pin || !bit (s.pinMode pin) (if rising then 0 else 1) then .next s
  else
    let s1 : State := { s with aon.pinCount := tmod 0 pin (· + 1) s.aon.pinCount }
    .next ((s1.inputAll 2 pin).wakeSource pin 4 pin)

/-- TEMPO_IN_GLITCH: an excursion of `ns`, shorter than t_qual; below 5 ns it may or may not be counted (R341). -/
def execTempoInGlitch (pin ns : Nat) (s : State) : Host.Outcome State Fault Refusal :=
  if s.aon.phase = .aonReset || 4 ≤ pin || s.pinMode pin = 0 || 40 ≤ ns then .next s
  else
    let counted : State := { s with aon.glitch := tmod 0 pin (fun n => sat 8 n 1) s.aon.glitch }
    if 5 ≤ ns then .next counted
    else if Config.freeBit s.freeCtr then .next { counted with freeCtr := s.freeCtr + 1 }
    else .next { s with freeCtr := s.freeCtr + 1 }

/-- A backward count of an ENCODER source: the debt rises, tempo is frozen, and every open turn carries REVERSE; past
2^24 − 1 the world parks with cause REVERSAL (R25). -/
def State.backCount (s : State) (w : Nat) : State :=
  let x := s.world w
  match x.st with
  | .running =>
    let s1 := (s.wakeDom 1 3 w).modWorld w (fun y => { y with lastAdv := s.aon.wall })
    if 2 ^ 24 ≤ x.debt + 1 then s1.parkWorld w 5
    else
      s1.modWorld w (fun y =>
        { y with debt := y.debt + 1,
                 turns := (List.range (y.opened - y.closed)).foldl (fun ts i =>
                   tmod {} (y.closed + i) (fun z => { z with reverse := true }) ts) y.turns })
  | .parked => s.modWorld w (fun y => { y with padv := sat 32 y.padv 1 })
  | _ => s

/-- A forward count: it pays the debt, or is scaled and applied (R25). -/
def State.foreCount (s : State) (w : Nat) : State :=
  let x := s.world w
  if x.st = .running && 0 < x.debt then
    (s.wakeDom 1 3 w).modWorld w (fun y => { y with lastAdv := s.aon.wall, debt := y.debt - 1 })
  else s.input w 1

/-- ENCODER_COUNT: a count of port pt in mode QUAD reaches the tempo unit. -/
def execEncoderCount (pt : Nat) (forward : Bool) (s : State) : Host.Outcome State Fault Refusal :=
  if s.inMode pt 4 then
    let s1 := s.modPort pt (fun p => { p with encPos := if forward then p.encPos + 1 else p.encPos - 1 })
    .next ((s1.sourced 3 pt).foldl (fun s w => if forward then s.foreCount w else s.backCount w) s1)
  else .next s

end Sys2Proof.Machine
end

