-- ==== Sys2Proof/Machine/Load.lean ====
section
/-! DEFINITION. What each section of an image or amendment does to the unit that holds its content, and the copies in the
device reserve (R53, R55, R86, R93, R101, R129, R131, R140, R149, R156, R157, R165, R177, R180, R196, R205, R220, R227,
R248, R260, R266, R306). -/

namespace Sys2Proof.Machine

open Sys2Proof

/-! ### The device reserve (R306; the places within the program copy: log 51) -/

def rowCopyAddr : Nat := 0xFF40000
def progCopyAddr : Nat := 0xFF50000

/-- Writes n-byte items at consecutive places from a on in tile t's column. -/
def State.colItems (s : State) (t n : Nat) : Nat → List Nat → State
  | _, [] => s
  | a, v :: r => State.colItems (s.colWrite t a n v) t n (a + n) r

/-- Zeroes a stretch of tile t's column, with fresh check bits. -/
def State.colZero (s : State) (t a n : Nat) : State :=
  { s with mem := ((s.mem.zero (colAddr t a) n).heal (colAddr t a) n) }

/-- The row directory copy and the program copy of tile t. -/
def State.writeReserve (s : State) (t : Nat) : State :=
  let x := s.tile t
  let s1 := (s.colZero t rowCopyAddr 0x10000).colZero t progCopyAddr 0x2000
  let s2 := x.rowdir.foldl (fun s e => s.colWrite t (rowCopyAddr + 8 * e.1) 8 e.2.toNat) s1
  let s3 := x.store.foldl (fun s e => s.colWrite t (progCopyAddr + 4 * e.1) 4 e.2.toNat) s2
  let s4 := x.models.foldl (fun s e => s.colItems t 8 (progCopyAddr + 0x800 + 96 * e.1) (e.2.map (·.toNat))) s3
  x.leaks.foldl (fun s e => s.colItems t 4 (progCopyAddr + 0xB00 + 320 * e.1) (e.2.map (·.toNat))) s4

/-! ### What a section does -/

/-- Replaces the table of one target (R205, R208). -/
def putTable (tg : Target) (b : BitVec 128) (l : List (Target × BitVec 128)) : List (Target × BitVec 128) :=
  (tg, b) :: l.filter (fun e => e.1 ≠ tg)

/-- The host table (R196): an LD is up when its port's link is. -/
def State.putHost (s : State) (e : HostEntry) : State :=
  let k := (s.link e.port).state
  s.modLd e.ld (fun l =>
    { l with enabled := e.enabled, port := e.port, cmdRack := e.cmdRack, cplRack := e.cplRack, irq := e.irq,
             pcieFallback := e.pcieFallback, up := e.enabled && (k = 2 || (k = 3 && e.ld = 0)) })

/-- A rack and a rack set as the image gives them (R149, R157). -/
def State.putRack (s : State) (r : RackCfg) : State :=
  s.modRack r.rack (fun x => { x with enabled := true, base := r.base, size := r.size, hubReserve := r.hubReserve })

def State.putSet (s : State) (c : SetCfg) : State :=
  let s1 : State := { s with racks.sets := tset c.set { members := c.members, rotation := c.rotation, last := 0 } s.racks.sets }
  c.members.foldl (fun s r => s.modRack r (fun x => { x with set := some c.set })) s1

/-- A pip descriptor (R165). -/
def pipOf (e : DWord × DWord) : Pip :=
  { count := BitVec.ofNat 32 (wf e.1 31 0), target := BitVec.ofNat 32 (wf e.1 63 32), mode := wf e.2 2 0, owner := wf e.2 8 3,
    ovf := wf e.2 9 9 = 1, period := wf e.2 31 16, gen := BitVec.ofNat 16 (wf e.2 47 32) }

/-- A world table entry; source NONE leaves the world FREE, any other makes it STANDBY (R34, R35). -/
def State.putWorld (s : State) (w : Nat) (e : WorldEntry) : State :=
  if fb e.w0.toNat 2 0 = 0 then s else s.modWorld w (fun x => { x.load e with st := .standby })

/-- A port's configuration (R220, R237): mode NONE for a port that the soft fuses disable (R251); every channel SAFE, with
its pin as declared. -/
def State.putPort (s : State) (n : Nat) (c : PortCfg) : State :=
  let c1 := if s.boot.portDisable.getLsbD n then { c with mode := 0 } else c
  s.modPort n (fun p =>
    let q : Port := { p with cfg := c1, st := if c1.mode = 0 then .off else if p.st = .off then .fenced else p.st,
                             outs := [], slots := [], recessive := s.aon.haltN && c1.mode = 6 }
    q.eachOut (fun _ => true) (fun p c d => p.enterSafe c d false))

/-- The pool's windows (R180), and the rest of a POOL section (R177, R185, R189). -/
def State.putWindows (s : State) (c : PoolCfg) : State := { s with pool.windows := c.windows }

def State.putPool (s : State) (c : PoolCfg) : State :=
  { s with pool.windows := c.windows, pool.mgroups := c.mgroups, pool.members := c.members, pool.spare := c.spare,
           pool.floorPct := c.floorPct }

/-- The trace unit's configuration; its owner is the boot engine's master M01 (R324). -/
def State.putTrace (s : State) (c : TraceCfg) : State :=
  { s with trc.out := c.out, trc.filtWorld := c.filtWorld, trc.filtA := c.filtA, trc.filtAMask := c.filtAMask,
           trc.trigs := c.trigs, trc.srcs := c.srcs, trc.owner := 1 }

/-- The bytes of a TILE_COLUMN section, at the address that param names. -/
def State.putColumn (s : State) (t : Nat) (param : Word) (bytes : List Byte) : State :=
  s.colBytes t (128 * fb param.toNat 20 0) bytes

/-- Takes a section's content into the unit that holds it. The directives of a SOURCES section are run by step 10 of the
boot (R261). -/
def State.putSection (s : State) (sec : Section) : State :=
  let t := sec.target
  let bank := sec.param.getLsbD 0
  match sec.data with
  | .hostTable es => es.foldl State.putHost s
  | .access ts => { s with access := ts.foldl (fun l e => putTable e.1 e.2 l) s.access }
  | .racks rs sets => sets.foldl State.putSet (rs.foldl State.putRack s)
  | .rackBindings bs => { s with racks.bindings := bs.foldl (fun l e => tset e.1 e.2 l) s.racks.bindings }
  | .pips ps => ps.foldl (fun s e => { s with pips.pips := tset e.1 (pipOf e.2) s.pips.pips }) s
  | .worldTable es pin =>
    let s1 := es.foldl (fun s e => s.putWorld e.1 e.2) s
    { s1 with aon.pinCfg := pin.getD s1.aon.pinCfg }
  | .learn ms rack period =>
    { s with tmp.learnRack := rack, tmp.learnPeriod := period,
             tmp.groups := ms.foldl (fun l e => tmod {} e.1 (fun g => { g with mode := e.2 }) l) s.tmp.groups }
  | .hubFabric ls routes pip => { s with hub.classLockstep := ls, hub.spanRoute := routes, hub.epoch.drainPip := pip }
  | .hubSchedule ws => if bank then { s with hub.schedB := ws } else { s with hub.schedA := ws }
  | .injection es => { s with hub.injection := es }
  | .ports c => s.putPort t c
  | .portDest es => { s with portDest := es }
  | .pool c => s.putPool c
  | .power c => { s with pwr.cfg := c, aon.wakeEn := c.wakeEn }
  | .trace c => s.putTrace c
  | .steward f => { s with flt.cfg := f }
  | .sources _ => s
  | .tileConfig c => s.modTile t (fun x => { x with configured := true, cfg := c })
  | .tileRowdir es => s.modTile t (fun x => { x with rowdir := es })
  | .tileStateBlocks bs => s.modTile t (fun x => { x with blocks := bs })
  | .tileModels seed ms leaks => s.modTile t (fun x => { x with seed := seed, models := ms, leaks := leaks })
  | .tileStore ws => s.modTile t (fun x => { x with store := ws, badStore := [] })
  | .tileUpstream us =>
    s.modTile t (fun x => { x with upstream := us.map (fun u =>
      { src := u.1, group := u.2, frontier := 0, mask := 0, seen := false, out := false }) })
  | .tileColumn bytes => if sec.offset = 0 then s else s.putColumn t sec.param bytes
  | .tileInitState rs => s.modTile t (fun x => { x with initState := rs })
  | .tileDetour es => s.modTile t (fun x => if bank then { x with detourB := es } else { x with detourA := es })
  | .reserved => s

/-! ### The order of loading (R248, R260) -/

/-- A section's type code (R248); 0 for a reserved type. -/
def secType : SectionData → Nat
  | .hostTable _ => 0x01 | .access _ => 0x02 | .racks _ _ => 0x03 | .rackBindings _ => 0x04 | .pips _ => 0x05
  | .worldTable _ _ => 0x06 | .learn _ _ _ => 0x07 | .hubFabric _ _ _ => 0x08 | .hubSchedule _ => 0x09
  | .injection _ => 0x0A | .ports _ => 0x0B | .portDest _ => 0x0C | .pool _ => 0x0D | .power _ => 0x0E | .trace _ => 0x0F
  | .steward _ => 0x10 | .sources _ => 0x11 | .tileConfig _ => 0x20 | .tileRowdir _ => 0x21 | .tileStateBlocks _ => 0x22
  | .tileModels _ _ _ => 0x23 | .tileStore _ => 0x24 | .tileUpstream _ => 0x25 | .tileColumn _ => 0x26
  | .tileInitState _ => 0x27 | .tileDetour _ => 0x28 | .reserved => 0

/-- The section belongs to a tile's column. -/
def secOfTile (x : Section) : Bool := 0x20 ≤ secType x.data

/-- Where the section stands in the load order: hub types first, then columns in index order, each in type order. -/
def secRank (x : Section) : Nat :=
  if secOfTile x then 0x100 + x.target * 0x100 + secType x.data else secType x.data

/-- The section with its table index, into its place in the load order. -/
def insertSec (x : Section × Nat) : List (Section × Nat) → List (Section × Nat)
  | [] => [x]
  | y :: r => if secRank y.1 ≤ secRank x.1 then y :: insertSec x r else x :: y :: r

/-- The sections with their table indices, in load order. -/
def loadOrder (l : List Section) : List (Section × Nat) := l.zipIdx.foldl (fun acc x => insertSec x acc) []

end Sys2Proof.Machine
end

