-- ==== Sys2Proof/Machine/LoadCheck.lean ====
section
/-! DEFINITION. The rules that refuse an image or an amendment when it loads: hub sections. A check answers the boot
failure code, none where the section passes (R3, R20, R21, R26, R33, R34, R99, R109, R117, R140, R141, R149, R157, R160,
R165, R177, R180, R185, R195, R196, R220, R227, R235, R318, R328, R333; log 52). -/

namespace Sys2Proof.Machine

open Sys2Proof

/-- SECTION_FORMAT where the rule is broken. -/
def fmt (b : Bool) : Option Nat := if b then none else some 7
/-- CHARTER_MISSING where the charter is. -/
def needs (b : Bool) : Option Nat := if b then none else some 8

/-- No two entries of a list are in relation r. -/
def apart {α : Type} (r : α → α → Bool) : List α → Bool
  | [] => true
  | x :: l => l.all (fun y => !r x y) && apart r l

/-- The stretches [a, a + n) and [b, b + m) share a place. -/
def meets (a n b m : Nat) : Bool := a < b + m && b < a + n

/-! ### Racks (R149, R157, R160) -/

/-- A rack that a record may be posted to: configured, and no command rack. -/
def State.recordRack (s : State) (r : Nat) : Bool := (s.rack r).enabled && !s.isCmdRack r

def rackOk (r : Rack) : Bool :=
  !r.enabled || (1 ≤ r.size && r.size ≤ 4096 && r.base + r.size ≤ 131072 && r.hubReserve < r.size)

/-- The racks that are configured lie apart in the store. -/
def State.racksApart (s : State) : Bool :=
  apart (fun a b => a.2.enabled && b.2.enabled && meets a.2.base a.2.size b.2.base b.2.size) s.racks.racks

/-- Every set has 1 to 16 configured members, and no rack is in two sets. -/
def State.setsOk (s : State) : Bool :=
  s.racks.sets.all (fun e => 1 ≤ e.2.members.length && e.2.members.length ≤ 16
    && e.2.members.all (fun r => (s.rack r).enabled))
    && (s.racks.sets.flatMap (fun e => e.2.members)).Nodup

/-- An enabled host table entry (R160, R196). -/
def State.hostOk (s : State) (e : HostEntry) : Bool :=
  !e.enabled || (e.ld < 16 && e.port < s.pkg.cxlPorts && e.cmdRack ≠ e.cplRack && (s.rack e.cmdRack).enabled
    && s.recordRack e.cplRack
    && s.hub.lds.all (fun d => d.1 = e.ld || !d.2.enabled || d.2.cmdRack ≠ e.cmdRack)
    && (List.range 256).all (fun r => !e.irq.getLsbD r || s.has (4 + e.ld) (.rack r) .read))

/-! ### Destinations (R116, R117, R131) -/

/-- A destination entry names no absent coordinate of this package, and no snapshot channel above 503 (R117, R156). -/
def State.destOk (s : State) (e : DWord) : Bool :=
  let c := destCoord e
  if c.p ≠ s.hub.p then true
  else if c.x < 32 then s.populated (epKey c.x c.y)
  else hubEndpointExists c.x c.y
    && !(c.x = 32 && bindToSnapshot (tget 0 c.y s.racks.bindings) && 503 < destRow e)

/-! ### Worlds (R20, R21, R26, R33, R34, R99, R109) -/

/-- The learning mode of a world's group. -/
def State.groupMode (s : State) (w : Nat) : Nat := (tget {} (w / 32) s.tmp.groups).mode

/-- A gated world's pip is in TURN mode; a learning world is gated. -/
def State.gateOk (s : State) (x : World) (w : Nat) : Bool :=
  (!x.gateEn || ((s.pip x.turnPip).mode = 3 && 1 ≤ (s.pip x.turnPip).period)) && (s.groupMode w = 0 || x.gateEn)

/-- World w agrees with the worlds of its group, its leader and its learning mode. -/
def State.worldOk (s : State) (w : Nat) : Bool :=
  let x := s.world w
  x.st = .free
    || (1 ≤ x.tetherMs && x.tetherMs ≤ 60000 && 1 ≤ x.lagLimit
      && s.sourceOk x.srcKind x.srcIndex x.peerLink x.scaleMul x.scaleDiv
      && s.leaderOk w x.srcKind x.srcIndex && s.recordRack x.statusRack && s.gateOk x w
      && x.privateLearn = decide (s.groupMode w = 2)
      && s.tmp.worlds.all (fun e => e.1 / 32 ≠ w / 32 || e.2.st = .free || e.2.turnLenM1 = x.turnLenM1))

def State.worldsCode (s : State) (ws : List Nat) : Option Nat :=
  fmt (ws.all (fun w => w < 8192)) <|> needs (ws.all (fun w => w < s.worldLimit)) <|> fmt (ws.all s.worldOk)

/-! ### Schedules of the hub (R140, R141) -/

/-- The worlds of a group that are not FREE have this turn length. -/
def State.turnLenOk (s : State) (g lenM1 : Nat) : Bool :=
  s.tmp.worlds.all (fun e => e.1 / 32 ≠ g || e.2.st = .free || e.2.turnLenM1 = lenM1)

/-- A schedule bank's header and entries: operations defined, offsets within the turn, turn lengths agreeing. -/
def State.schedOk (s : State) (h : DWord) (es : List DWord) : Bool :=
  1 ≤ wf h 13 0 && wf h 13 0 = es.length
    && es.all (fun e => 1 ≤ schOp e && schOp e ≤ 7 && schOffset e + schSpan e ≤ wf h 25 14 + 1
      && s.turnLenOk (schGroup e) (wf h 25 14))

/-! ### Stream ports (R220, R227, R235, R333) -/

/-- The mode is allowed on port n. -/
def modeOnPort (n md : Nat) : Bool := md ≤ 6 && (md ≠ 2 || n ≤ 7) && (md ≠ 6 || 14 ≤ n)

/-- The mode is allowed at the bank voltage mv (R333): 1.2, 1.8 or 3.3 V within 5 %. -/
def modeAtVolt (md mv : Nat) : Bool :=
  let low := 1140 ≤ mv && mv ≤ 1260
  let mid := 1710 ≤ mv && mv ≤ 1890
  let high := 3135 ≤ mv && mv ≤ 3465
  md = 0 || (md = 2 && low) || (md = 1 && (low || mid)) || (3 ≤ md && (low || mid || high))

/-- A valid input channel word (R227). -/
def State.inChanOk (s : State) (c : DWord) : Bool :=
  wf c 57 57 = 0
    || (wf c 19 0 + wf c 31 20 ≤ 65536
      && (s.chanDests c).all (fun e => destClass e = destClass ((s.chanDests c).headD 0))
      && wf c 56 45 ≤ (s.world (wf c 44 32)).turnLenM1)

/-- The output channel descriptors of a port in mode OUT or CANFD (R235). -/
def outsOk (c : PortCfg) : Bool :=
  let ds := c.outs.take c.outCount
  ds.length = c.outCount && ds.all (fun d => outHold d ≤ 500)
    && (if c.mode = 6 then ds.all (fun d => outKind d = 2)
        else ds.all (fun d => outKind d ≤ 1 && outSafe d ≤ 2 && (outKind d = 0 || 2 ≤ outPeriod d))
          && (ds.map (fun d => wf d.1 45 43)).Nodup)

def State.portOk (s : State) (n : Nat) (c : PortCfg) : Bool :=
  n < 16 && modeOnPort n c.mode && modeAtVolt c.mode (s.boot.env.bankMv.getD (n / 4) 0)
    && (c.mode = 0 || s.recordRack c.statusRack)
    && c.chans.all (fun e => s.inChanOk e.2)
    && ((c.mode ≠ 5 && c.mode ≠ 6) || outsOk c)
    && c.lost.all (fun e => wf e.2 22 22 = 0 || s.destOk e.1)

/-! ### The pool (R177, R180, R185, R187, R195) -/

def State.winOk (s : State) (x : PoolWin) : Bool :=
  !winValid x
    || (if winStriped x then 3 ≤ s.pool.members.length && s.pool.members.length ≤ 8
        else Config.expanderSize (winExpander x) ≠ 0)

/-- Which role the image names: 1 keeper, 2 standby. -/
def imageRole (im : Image) : Nat := if im.keeper then 1 else if im.standby then 2 else 0

def State.poolCodeOf (s : State) (im : Image) (c : PoolCfg) : Option Nat :=
  needs (imageRole im = 0 || (s.charter 2 && s.pkg ≠ .rj128))
    <|> fmt (c.windows.all (fun e => e.1 < 64 && s.winOk e.2)
      && (c.windows.all (fun e => !winValid e.2) || s.hub.links.all (fun e => e.2.state ≠ 3))
      && c.mgroups.all (fun e => e.1 < 64 && e.2.all s.populated))

/-! ### Sections -/

/-- A source directive (R257). -/
def State.directiveOk (s : State) (d : Directive) : Bool :=
  bulkOk d.w0 d.w1 d.w2 && blkOp d.w0 = 1 && 1 ≤ blkSrcKind d.w0
    && (if blkGroupId d.w0 = 0xFF then s.populated (wf d.w2 38 28) else (tfind (blkGroupId d.w0) s.pool.mgroups).isSome)

/-- A hub section is refused with this code. -/
def State.hubSectionCode (s : State) (im : Image) (x : Section) : Option Nat :=
  match x.data with
  | .hostTable es => fmt (es.all s.hostOk)
  | .access _ => none
  | .racks rs _ => fmt (rs.all (fun r => r.rack < 256 && rackOk (s.rack r.rack)) && s.racksApart && s.setsOk)
  | .rackBindings bs => fmt (bs.all (fun e => e.1 < 64 && (!bindToRack e.2 || s.recordRack (bindRack e.2))))
  | .pips ps => fmt (ps.all (fun e => e.1 < 262144 && wf e.2.2 2 0 ≤ 3 && (pipOf e.2).valid))
  | .worldTable es _ => s.worldsCode ((es.filter (fun e => fb e.2.w0.toNat 2 0 ≠ 0)).map (·.1))
  | .learn ms rack _ =>
    fmt (ms.all (fun e => e.1 < 256 && e.2 ≤ 2)) <|> needs (ms.all (fun e => e.2 = 0) || s.charter 1)
      <|> fmt (ms.all (fun e => e.2 = 0) || s.recordRack rack)
      <|> fmt ((s.tmp.worlds.map (·.1)).all s.worldOk)
  | .hubFabric _ routes pip =>
    fmt (pip < 262144 && routes.all (fun e => e.1 < 64 && (!e.2.getLsbD 3 || fb e.2.toNat 2 0 < s.pkg.spanLinks)))
  | .hubSchedule ws => fmt (s.schedOk (ws.headD 0) ws.tail)
  | .injection es => fmt (es.all (fun e => e.1 < 4096 && s.destOk e.2))
  | .ports c => fmt (s.portOk x.target c)
  | .portDest es => fmt (es.all (fun e => e.1 < 65536 && s.destOk e.2))
  | .pool c => s.poolCodeOf im c
  | .power _ => none
  | .trace c => needs (fb c.out.toNat 1 0 ≠ 2 || s.charter 4)
      <|> fmt (fb c.out.toNat 1 0 ≠ 3 && c.srcs.all (fun e => s.sourceEntryOk e.2))
  | .steward f => fmt (s.recordRack (fb f.toNat 7 0))
  | .sources ds => fmt (ds.all s.directiveOk)
  | _ => fmt false

end Sys2Proof.Machine
end

