-- ==== Sys2Proof/Machine/TileCheck.lean ====
section
/-! DEFINITION. The rules that refuse an image or an amendment when it loads: tile sections, column contents, detour banks,
and the whole image (R45, R47, R49, R53, R55, R86, R92 to R96, R99, R100, R103, R117, R129, R141, R172, R248, R258 to
R260). -/

namespace Sys2Proof.Machine

open Sys2Proof

/-! ### Programs (R86, R92 to R96) -/

/-- A leak table (R86). -/
def leakOk (l : List Word) : Bool :=
  leakMode l ≤ 1 && (List.range 77).all (fun i => (l.getD i 0).toNat % 2 ^ 17 ≤ 65536)

/-- The field [pos, pos + w) lies in the record; a store touches no bit that the engine owns (R77, R96). -/
def fieldOk (wide store : Bool) (pos w : Nat) : Bool :=
  pos + w ≤ (if wide then 128 else 64)
    && (!store || (!meets pos w 0 20 && (!wide || !meets pos w 64 21)))

/-- An instruction of a model's code region (R94 to R96). -/
def gambitOk (x : Tile) (d : List DWord) (i : Instr) : Bool :=
  match i with
  | .gLdf _ _ pos wm1 _ => !mdStateless d && fieldOk (mdWide d) false pos.toNat (wm1.toNat + 1)
  | .gStf _ _ pos wm1 _ => !mdStateless d && fieldOk (mdWide d) true pos.toNat (wm1.toNat + 1)
  | .gWake _ _ _ _ => !mdStateless d && !mdReflex d
  | .gLeak _ _ _ _ k => (tfind k.toNat x.leaks).isSome
  | .gEmit _ _ _ _ learn _ => !learn || mdLearn d
  | .gB _ _ target => mdEntry d ≤ target.toNat && target.toNat ≤ mdEnd d
  | _ => true

/-- An instruction that ends a region (R96). -/
def regionEnd (i : Instr) : Bool :=
  match i with
  | .gEnd _ => true
  | .gEmit _ _ _ _ _ fin => fin
  | .gB _ cond _ => cond = 0
  | _ => false

/-- A model descriptor and its code region. -/
def modelOk (x : Tile) (d : List DWord) : Bool :=
  let at_ := fun (a : Nat) => decodeGambit 0 (tget 0 a x.store)
  mdEntry d ≤ mdEnd d && 1 ≤ mdStepLimit d && (!mdLearn d || mdWide d) && (!mdStateless d || !mdLearn d)
    && (List.range (mdEnd d + 1 - mdEntry d)).all (fun k =>
      match at_ (mdEntry d + k) with
      | some i => gambitOk x d i
      | none => false)
    && (match at_ (mdEnd d) with
      | some i => regionEnd i
      | none => false)

def programOk (x : Tile) : Bool := x.leaks.all (fun e => leakOk e.2) && x.models.all (fun e => modelOk x e.2)

/-! ### State blocks (R45, R47, R93, R94, R96) -/

/-- The words a block takes. -/
def blkWords (b : Block) : Nat := blkCount b * blkLanes b * (if blkWide b then 2 else 1)

def blockOk (x : Tile) (b : Block) : Bool :=
  match tfind (blkSlot b) x.models with
  | none => false
  | some d =>
    mdWide d = blkWide b && blkFirst b + blkCount b ≤ 16384 && !(blkSpill b && mdReflex d)
      && (if mdStateless d then blkBase b = 0
          else blkBase b + blkWords b ≤ (if blkSpill b then fb x.cfg.spill.toNat 5 0 * 131072 else 131072))

/-- Two blocks overlap, or cover one neuron, group and lane. -/
def blocksClash (x : Tile) (a b : Block) : Bool :=
  (!mdStateless (x.model a) && !mdStateless (x.model b) && blkSpill a = blkSpill b
    && meets (blkBase a) (blkWords a) (blkBase b) (blkWords b))
    || (blkGroup a = blkGroup b && meets (blkFirst a) (blkCount a) (blkFirst b) (blkCount b)
      && meets (blkLaneLo a) (blkLanes a) (blkLaneLo b) (blkLanes b))

def blocksOk (x : Tile) : Bool := x.blocks.all (blockOk x) && apart (blocksClash x) x.blocks

/-! ### Rows (R49, R50, R53, R95, R99, R100) -/

/-- An entry names no reserved combination (R49). -/
def rowEntryOk (e : DWord) : Bool := !rowPair e || (!rowTwin e && !rowPriv e)

/-- The neurons that word j of segment k addresses. -/
def rowNeurons (e : DWord) (k j : Nat) : List Nat :=
  if rowPair e then [rowPostBase e + 128 * k + 2 * j, rowPostBase e + 128 * k + 2 * j + 1] else [rowPostBase e + 64 * k + j]

/-- The copies of a row: one, or one for each lane of a private row that the tile holds. -/
def Tile.rowLanes (x : Tile) (e : DWord) : List Nat :=
  if rowPriv e then (x.groups.flatMap x.residentLanes).eraseDups else [0]

/-- The words of a row that are not null: segment, place, word. -/
def State.rowWords (s : State) (t : Nat) (e : DWord) : List (Nat × Nat × Nat) :=
  ((s.tile t).rowLanes e).flatMap (fun l => (List.range (rowSegs e)).flatMap (fun k => (List.range 64).filterMap (fun j =>
    let w := s.colLE t (rowSegAddr e l k + 2 * j) 2
    if synFlags w = 3 then none else some (k, j, w))))

/-- Row r of tile t is fed from outside it: by another tile's fan-out, an injection channel or a stream port. -/
def State.fedOutside (s : State) (t r : Nat) : Bool :=
  let here := fun (e : DWord) => destCoord e = s.coord t && destRow e = r
  s.hub.injection.any (fun e => here e.2) || s.portDest.any (fun e => here e.2)
    || s.tiles.any (fun u => u.1 ≠ t && u.2.neurons.any (fun n =>
      (s.fanout u.1 false n).any here || (s.fanout u.1 true n).any here))

/-- The groups whose state the neurons of a row belong to. -/
def Tile.rowGroups (x : Tile) (ns : List Nat) : List Nat :=
  ((x.blocks.filter (fun b => ns.any (blkHasNeuron b))).map blkGroup).eraseDups

/-- The learning mode of a group. -/
def State.modeOf (s : State) (g : Nat) : Nat := (tget {} g s.tmp.groups).mode

/-- A row that holds a plastic word and serves a learning group (R99, R100). -/
def State.learnRowOk (s : State) (t : Nat) (e : DWord) (ws : List (Nat × Nat × Nat)) (ns gs : List Nat) : Bool :=
  let ms := gs.map s.modeOf
  ms.all (fun m => m = ms.headD 0)
    && (ms.all (fun m => m = 0)
      || (rowTwin e && rowPostBase e % 64 = 0 && !rowReflex e
        && ns.all (fun n => colSegs (s.colEntry t n) = 0 || colRow (s.colEntry t n) % 64 = 0)
        && ws.all (fun w => synFlags w.2.2 ≠ 2 || tcLookahead (s.tile t).cfg + 1 ≤ synDelay w.2.2)
        && (ms.headD 0 ≠ 2 || (rowPriv e && gs.length ≤ 1))))

def State.rowOk (s : State) (t r : Nat) (e : DWord) : Bool :=
  let x := s.tile t
  let ws := s.rowWords t e
  let ns := (ws.flatMap (fun w => rowNeurons e w.1 w.2.1)).eraseDups
  let low := if rowReflex e then 0 else if s.fedOutside t r then tcLookahead x.cfg else 1
  ws.all (fun w => low ≤ synDelay w.2.2) && (!rowPair e || ws.all (fun w => !plastic w.2.2))
    && (rowReflex e || ns.all (fun n => x.blocks.all (fun b => !(blkHasNeuron b n && mdReflex (x.model b)))))
    && (ws.all (fun w => !plastic w.2.2) || s.learnRowOk t e ws ns (x.rowGroups ns))

/-! ### Column regions (R172) -/

/-- The regions of tile t's column: kind, first byte, bytes. -/
def State.regions (s : State) (t : Nat) : List (Nat × Nat × Nat) :=
  let x := s.tile t
  let rows := x.rowdir.filter (fun e => 0 < rowSegs e.2)
  let span := fun (e : DWord) => rowSegs e * (if rowPriv e then 32 else 1)
  let fan := fun (kind base : Nat) =>
    if base = 0 then []
    else [(kind, base, x.neurons.foldl (fun m n =>
      let ix := s.colLE t (base + 4 * n) 4
      max m (8 * (fb ix 19 0 + fb ix 31 20))) 65536)]
  let sched := fun (kind base : Nat) => if base = 0 then [] else [(kind, base, 8 + 8 * fb (s.colLE t base 8) 13 0)]
  let cols := if x.cfg.twin = 0 then [] else (x.neurons.map (s.colEntry t)).filter (fun e => 0 < colSegs e)
  rows.map (fun e => (0, 128 * rowSegBase e.2, 128 * span e.2))
    ++ (if x.cfg.twin = 0 then [] else [(1, 128 * fb x.cfg.twin.toNat 20 0, 131072)])
    ++ cols.map (fun e => (2, 128 * wf e 20 0, 128 * colSegs e))
    ++ (if x.cfg.abase = 0 then []
        else (rows.filter (fun e => rowTwin e.2)).map (fun e => (3, rowAccAddr x.cfg (rowSegBase e.2) 0, 256 * span e.2)))
    ++ (if x.cfg.tabase = 0 then [] else cols.map (fun e => (4, 128 * colAccUnit x.cfg (wf e 20 0), 256 * colSegs e)))
    ++ (if x.cfg.pret = 0 then [] else [(5, 128 * fb x.cfg.pret.toNat 20 0, x.cfg.grps.length * 2 ^ 20)])
    ++ fan 6 (tcFoBase x.cfg false) ++ fan 7 (tcFoBase x.cfg true)
    ++ sched 8 (tcSchedBase x.cfg false) ++ sched 9 (tcSchedBase x.cfg true)
    ++ (if fb x.cfg.spill.toNat 5 0 = 0 then [] else [(10, tcSpillBase x.cfg, fb x.cfg.spill.toNat 5 0 * 2 ^ 20)])

def State.regionsOk (s : State) (t : Nat) : Bool :=
  let rs := s.regions t
  rs.all (fun r => r.2.1 + r.2.2 ≤ 0xFF00000) && apart (fun a b => a.1 ≠ b.1 && meets a.2.1 a.2.2 b.2.1 b.2.2) rs

/-! ### Schedules of a tile (R103, R140, R141) -/

/-- The order of R103 between two slots of one group: runs, potentiation, depression, then the next stamp. -/
def stepRank (e : DWord) : Nat := schOffset e * 8 + schOp e

def slotsOrdered : List DWord → Bool
  | [] => true
  | e :: l =>
    l.all (fun f => !(2 ≤ schOp e && schOp e ≤ 4 && 2 ≤ schOp f && schOp f ≤ 4 && schGroup e = schGroup f)
      || stepRank e < stepRank f) && slotsOrdered l

/-- A GATHER of the tile that an EMIT of group g over [o, o + n) feeds names the same offsets. -/
def gathersAgree (es : List DWord) (g o n : Nat) : Bool :=
  es.all (fun e => schOp e ≠ 1 || schGroup e ≠ g || !meets (schOffset e) (schSpan e) o n || (schOffset e = o && schSpan e = n))

/-- Every EMIT of tile t agrees with the GATHER slots of its Lockstep destinations. -/
def State.emitsAgree (s : State) (t : Nat) (bank : Bool) : Bool :=
  (s.schedule t bank).all (fun e => schOp e ≠ 5
    || (s.fanDests t bank).all (fun d => !s.lockstep d.2 || d.1.p ≠ s.hub.p || 32 ≤ d.1.x
      || gathersAgree (s.schedule (epKey d.1.x d.1.y) bank) (schGroup e) (schOffset e) (schSpan e)))

def State.tileSchedOk (s : State) (t : Nat) (bank : Bool) : Bool :=
  let base := tcSchedBase (s.tile t).cfg bank
  let h := BitVec.ofNat 64 (s.colLE t base 8)
  base = 0 || wf h 13 0 = 0
    || (s.schedOk h (s.schedule t bank) && slotsOrdered (s.schedule t bank)
      && (s.tile t).groups.all (fun g => s.turnLenOk g (wf h 25 14)) && s.emitsAgree t bank)

/-! ### Whole columns -/

/-- The tile holds work, so that it must carry a TILE_CONFIG section (R53). -/
def Tile.hasWork (x : Tile) : Bool := !x.blocks.isEmpty || !x.rowdir.isEmpty

/-- What the column of tile t holds breaks no load rule. -/
def State.columnOk (s : State) (t : Nat) : Bool :=
  let x := s.tile t
  (x.configured || !x.hasWork) && s.regionsOk t && x.rowdir.all (fun e => s.rowOk t e.1 e.2)
    && x.neurons.all (fun n => (s.fanout t false n).all s.destOk && (s.fanout t true n).all s.destOk)
    && s.tileSchedOk t false && s.tileSchedOk t true

/-! ### Detour banks (R129) -/

/-- A volley that stands for every volley of its destination and bank. -/
def State.probe (s : State) (bank : Bool) (d : Option Nat) : Volley :=
  let dst : Coord := match d with
    | some t => s.coord t
    | none => { p := s.hub.p, x := 32, y := 0 }
  s.mkVolley 0 dst 0 bank 0 0 0 0 (.echo 1)

/-- The routers that a volley crosses from (px, py) on, none where it does not arrive within the fuel. -/
def State.pathFrom (s : State) (v : Volley) (px py : Nat) : Nat → Option (List (Nat × Nat))
  | 0 => none
  | n + 1 =>
    match s.outOf px py v with
    | 4 => if !s.hubBound v && px = v.physX && py = v.physY then some [(px, py)] else none
    | 5 => if s.hubBound v && px = 0 then some [(px, py)] else none
    | o =>
      match s.beyond px py o with
      | some (x, y, _) => (s.pathFrom v x y n).map (fun l => (px, py) :: l)
      | none => none

/-- The package's routers. -/
def State.routerList (s : State) : List (Nat × Nat) :=
  (List.range s.pkg.xs).flatMap (fun x => ((List.range (Package.rows s.pkg)).filter (fun y =>
    s.stackPresent (physStack x y))).map (fun y => (x, y)))

/-- The tiles that are present, and the hub. -/
def State.destList (s : State) : List (Option Nat) :=
  none :: (((List.range s.pkg.xs).flatMap (fun x => (List.range s.pkg.ys).map (epKey x))).filter s.tilePresent).map some

/-- The channels of a path: router and output. -/
def State.channels (s : State) (v : Volley) (l : List (Nat × Nat)) : List (Nat × Nat × Nat) :=
  l.map (fun r => (r.1, r.2, s.outOf r.1 r.2 v))

/-- Consecutive pairs. -/
def pairs {α : Type} : List α → List (α × α)
  | a :: b :: r => (a, b) :: pairs (b :: r)
  | _ => []

/-- A finite relation has no cycle: dropping, again and again, the pairs whose second member begins no pair empties it. -/
def acyclic {α : Type} [DecidableEq α] (es : List (α × α)) : Nat → Bool
  | 0 => es.isEmpty
  | n + 1 =>
    let rest := es.filter (fun e => es.any (fun f => f.1 = e.2))
    if rest.length = es.length then es.isEmpty else acyclic rest n

/-- Every route of a bank arrives within 160 router hops, and its channels depend on each other without a cycle. The
route of a volley does not depend on its VC. -/
def State.bankOk (s : State) (bank : Bool) : Bool :=
  let ps := s.destList.flatMap (fun d => s.routerList.map (fun r => (s.probe bank d, s.pathFrom (s.probe bank d) r.1 r.2 161)))
  ps.all (fun p => p.2.isSome)
    && (let deps := (ps.flatMap (fun p => pairs (s.channels p.1 (p.2.getD [])))).eraseDups
        acyclic deps deps.length)

/-- A router that failed the opening roll. -/
def State.routerFailed (s : State) (r : Nat × Nat) : Bool := (s.router (rtKey r.1 r.2)).failed

/-- The routes of tile t to and from cross a failed router in a bank. -/
def State.crossed (s : State) (t : Nat) (bank : Bool) : Bool :=
  let ph := s.phys t
  (s.routerList.filter (fun r => !s.routerFailed r)).any (fun r =>
      ((s.pathFrom (s.probe bank (some t)) r.1 r.2 161).getD []).any s.routerFailed)
    || ((s.pathFrom (s.probe bank none) ph.1 ph.2 161).getD []).any s.routerFailed

/-- The tiles that no bank's routes reach around the failed routers. -/
def State.cutOff (s : State) : List Nat :=
  if s.fab.routers.any (fun e => e.2.failed) then
    (s.destList.filterMap id).filter (fun t => s.crossed t false && s.crossed t true)
  else []

/-! ### Sections -/

/-- The ranges of a TILE_CONFIG section (R53). -/
def tileCfgOk (c : TileCfg) : Bool :=
  1 ≤ tcLookahead c && 1 ≤ tcNoticeStep c && 1 ≤ tcScrubPeriod c && tcScrubPeriod c ≤ 40

/-- A tile section passes. -/
def State.tileSectionOk (s : State) (x : Section) : Bool :=
  let t := s.tile x.target
  match x.data with
  | .tileConfig c => tileCfgOk c
  | .tileRowdir es => es.all (fun e => e.1 < 8192 && rowEntryOk e.2)
  | .tileStateBlocks _ => blocksOk t
  | .tileModels _ _ _ => programOk t
  | .tileStore _ => programOk t
  | .tileUpstream us => us.length ≤ 4096
  | .tileColumn bs => 128 * fb x.param.toNat 20 0 + bs.length ≤ 0xFF00000
  | .tileInitState _ => true
  | .tileDetour es => es.length ≤ 16
  | _ => false

/-- A section is refused with this code. -/
def State.sectionCode (s : State) (im : Image) (x : Section) : Option Nat :=
  if secOfTile x then fmt (s.populated x.target && s.tileSectionOk x)
  else
    match x.data with
    | .ports _ => s.hubSectionCode im x
    | _ => fmt (x.target = 0xFFFF) <|> s.hubSectionCode im x

/-- The first of the sections, in load order, that is refused: its index and the code. -/
def State.firstRefusal (s : State) (im : Image) (l : List (Section × Nat)) : Option (Nat × Nat) :=
  l.findSome? (fun x => (s.sectionCode im x.1).map (fun c => (x.2, c)))

end Sys2Proof.Machine
end

