-- ==== Sys2Proof/Machine/Boot.lean ====
section
/-! DEFINITION. From the release of power-on reset to READY: the steps of R243, the fallback, the overlay, charters, the
opening roll and the remap, loading, source directives, READY, the warm path and a restart (R243 to R264, R283, R333,
R335; log 7, log 8, log 53, log 54). -/

namespace Sys2Proof.Machine

open Sys2Proof

/-! ### The boot log and failures (R248, R249, R264) -/

/-- Writes a boot log entry: code, the phase, detail; ms since power-on. The detail of an entry to which the spec gives none
is a free value (log 9). -/
def State.bootLog (s : State) (code : Nat) (detail : Option Nat) : State :=
  let d := detail.getD (Config.freeIndex s.freeCtr)
  { s with boot.log := tset s.boot.logHead
             (BitVec.ofNat 32 (code + s.boot.phase * 2 ^ 8 + d % 2 ^ 16 * 2 ^ 16), BitVec.ofNat 32 (s.aon.wall / 1000)) s.boot.log
           boot.logHead := (s.boot.logHead + 1) % 64
           freeCtr := s.freeCtr + b2n detail.isNone }

/-- Everything that a boot loads is cleared: what the always-on domain, the CXL links and the boot block keep stays
(R249, R264). -/
def State.clearLoaded (s : State) : State :=
  let z := s.powerLoss
  { z with hub.links := s.hub.links
           hub.masters := s.hub.masters
           boot.started := s.boot.started
           boot.releaseWall := s.boot.releaseWall
           boot.hostBase := s.boot.hostBase
           boot.log := s.boot.log
           boot.logHead := s.boot.logHead
           boot.env := s.boot.env
           pwr.level := if s.aon.therm then 7 else 0 }

/-- Milliseconds since power-on reset was released. -/
def State.bootMs (s : State) : Nat := (s.aon.wall - s.boot.releaseWall) / 1000

/-- Every port pin is high-impedance (R263, R264). -/
def State.pinsOff (s : State) : State :=
  { s with ports := s.ports.map (fun e => (e.1, { e.2 with outs := e.2.outs.map (fun o => (o.1, { o.2 with pin := 2 })) })) }

/-- The package is FAILED with a code; every port pin is high-impedance, and the warm image is no longer valid (R264,
R282). -/
def State.bootStops (s : State) (code : Nat) : State :=
  { s.pinsOff with boot.st := 2, boot.fail := code, boot.timeMs := s.bootMs,
                   aon.warm := { s.aon.warm with valid := false, cause := 3 } }

/-- The codes that make slot B the next to try (R249). -/
def fallsBack (code : Nat) : Bool := (2 ≤ code && code ≤ 8) || code = 0x0D

/-! ### Steps 1 to 4 (R244 to R246, R250 to R253, R282, R283) -/

def slotImage (n : Nvm) (slot : Nat) : Option Image := if slot = 0 then n.slotA else n.slotB

/-- The fuse hash of key slot k. -/
def Fuses.hash (f : Fuses) (k : Nat) : BitVec 384 := if k = 0 then f.keyHash0 else if k = 1 then f.keyHash1 else f.keyHash2

/-- A public key is that of key slot k, which is not revoked. -/
def keyGood (f : Fuses) (k : Nat) (key : BitVec 768) : Bool := Config.keyHash key = Fuses.hash f k && !f.revoke.getLsbD k

/-- The header and key rules that an image and an amendment share (R245, R246). -/
def headerCode (s : State) (im : Image) (magic : Word) : Nat :=
  if im.magic ≠ magic || im.version ≠ 1 || im.headerSize ≠ 512 || !im.packageMask.getLsbD (Package.code s.pkg - 1) then 2
  else 0

def keyCode (s : State) (im : Image) : Nat :=
  if 1 < im.keySlot || !keyGood s.fuses im.keySlot im.key then 3 else if !Config.imageVerifies im then 4 else 0

/-- The overlay passes its checks (R251). -/
def overlayOk (f : Fuses) (o : Overlay) : Bool :=
  o.magic = 0x4653424C && o.uid = f.uid && (keyGood f 0 o.key || keyGood f 1 o.key) && Config.overlayVerifies o

/-- A charter is valid (R252, R253). -/
def charterOk (s : State) (k : CharterKey) (c : Charter) : Bool :=
  c.magic = 0x4843424C && c.version = 1 && 1 ≤ c.kind && c.kind ≤ 6 && c.uid = s.fuses.uid
    && c.packageMask.getLsbD (Package.code s.pkg - 1) && Config.charterVerifies k c && !(c.kind = 2 && s.pkg = .rj128)

def charterKeyOk (f : Fuses) (k : CharterKey) : Bool := k.magic = 0x4B43424C && k.version = 1 && keyGood f 2 k.key

/-- Bit kind − 1. -/
def kindBit (k : Nat) : BitVec 6 := BitVec.ofNat 6 (2 ^ (k - 1) % 64)

/-- Step 4: charters are read; an ignored one leaves a log entry. -/
def State.readCharters (s : State) : State :=
  let n := s.boot.env.nvm
  let cs := n.charters.take 16
  let s1 : State := { s with boot.chartersRead := cs.length, boot.phase := 4 }
  if cs.isEmpty then s1
  else if charterKeyOk s.fuses n.charterKey then
    cs.foldl (fun s c =>
      if charterOk s n.charterKey c then { s with boot.chartersValid := s.boot.chartersValid ||| kindBit c.kind }
      else State.bootLog { s with boot.chartersIgnored := s.boot.chartersIgnored ||| kindBit c.kind } 0x40 (some c.kind)) s1
  else
    State.bootLog { s1 with boot.chartersIgnored := cs.foldl (fun b c => b ||| kindBit c.kind) s1.boot.chartersIgnored } 0x40 (some 0)

/-- The warm image serves this boot: it is valid, and its digests are those of the NVM (R283). -/
def State.warmMatches (s : State) : Bool :=
  s.aon.warm.valid && Config.bootDigest s.boot.env.nvm s.aon.warm.slot = s.aon.warm.digest
    && Config.overlayDigest s.boot.env.nvm.overlay = s.aon.warm.overlayDigest

/-- The phase and code with which steps 1 to 3 fail, none where they pass. -/
def State.earlyCode (s : State) : Option (Nat × Nat) :=
  let n := s.boot.env.nvm
  if n.magic ≠ 0x5244424C || n.version ≠ 1 || n.crc ≠ Config.directoryCrc n then some (1, 1)
  else
    match slotImage n s.boot.slot with
    | none => some (1, 2)
    | some im =>
      if headerCode s im 0x3149424C ≠ 0 then some (1, 2)
      else if !s.boot.warmPath && keyCode s im ≠ 0 then some (2, keyCode s im)
      else if !s.boot.warmPath && im.secVersion < s.fuses.floor then some (2, 5)
      else if !s.boot.warmPath && n.overlay.any (fun o => !overlayOk s.fuses o) then some (3, 0x0E)
      else none

/-- What steps 1 to 4 leave where they pass: the image's identity, the overlay's limits, the charters; step 5 has begun. -/
def State.earlyDone (s : State) (im : Image) : State :=
  let s1 : State := { s with
    hub.p := im.p
    boot.image := some im
    boot.imageId := im.imageId
    boot.secVersion := im.secVersion }
  let s2 : State := match s.boot.env.nvm.overlay with
    | some o => { s1 with boot.spanDisable := o.spanMask, boot.portDisable := o.portMask, boot.maxWidth := o.maxWidth,
                          pwr.fuseCap := o.capW }
    | none => s1
  let s3 := if s2.boot.warmPath then { s2 with boot.chartersValid := s2.aon.warm.charters, boot.phase := 4 } else s2.readCharters
  { s3 with boot.phase := 5 }

/-- Steps 1 to 5 from the slot that boot.slot names; a failure is logged and stops the boot. -/
def State.early (s : State) : State :=
  match s.earlyCode, slotImage s.boot.env.nvm s.boot.slot with
  | none, some im => s.earlyDone im
  | some (ph, c), _ => (State.bootLog { s with boot.phase := ph } c none).bootStops c
  | none, none => s

/-- The sequence starts again with slot B (R249); the pins that slot A's PORTS section drove are high-impedance again. -/
def State.fallBack (s : State) : State :=
  let s1 := s.bootLog 0x41 none
  State.early { s1.clearLoaded.pinsOff with boot.slot := 1, boot.phase := 1 }

/-- A step fails with a code: the code goes to the boot log with its detail; slot B is tried once, or the package is
FAILED. -/
def State.bootFails (s : State) (phase code : Nat) (detail : Option Nat) : State :=
  let s1 := State.bootLog { s with boot.phase := phase } code detail
  if fallsBack code && s1.boot.slot = 0 && s1.boot.env.nvm.slotB.isSome then s1.fallBack else s1.bootStops code

/-- Steps 1 to 5, with the fallback. -/
def State.bootStart (s : State) : State :=
  match s.earlyCode, slotImage s.boot.env.nvm s.boot.slot with
  | none, some im => s.earlyDone im
  | some (ph, c), _ => s.bootFails ph c none
  | none, none => s

/-! ### Steps 6 to 8 (R255, R256, R258) -/

/-- The device reserve of every tile of some stacks reads zero, with fresh check bits (R255). -/
def State.zeroReserves (s : State) (sts : List Nat) : State :=
  let keep := fun (a : Nat) => a % 2 ^ 28 < reserveBase || !sts.contains (stackOf (a / 2 ^ 28))
  { s with mem := { cells := s.mem.cells.filter (fun c => keep c.1), bad := s.mem.bad.filter (fun w => keep (8 * w)),
                    soft := s.mem.soft.filter (fun w => keep (8 * w)) } }

/-- Position of a physical tile of a stack. -/
def physPos (st i : Nat) : Nat × Nat := (8 * (st % 4) + i % 8, 17 * (st / 4) + i / 8)

/-- BOOT_ROLL_FIRST of a stack: its first failing tile and engines. -/
def rollFirst (l : List (Nat × Nat × BitVec 6)) : Word :=
  match l with
  | [] => 0
  | e :: r =>
    let f := r.foldl (fun (a : Nat × Nat × BitVec 6) b => if b.2.1 < a.2.1 then b else a) e
    BitVec.ofNat 32 (f.2.2.toNat + f.2.1 * 2 ^ 6 + 2 ^ 31)

/-- Step 7 over some stacks: the routers that fail, and the first failures. -/
def State.roll (s : State) (sts : List Nat) : State :=
  let fails := fun (st : Nat) => s.boot.env.rollFail.filter (fun e => e.1 = st)
  let s1 := (s.boot.env.routerFail.filter (fun e => sts.contains e.1)).foldl (fun s e =>
    let r := physPos e.1 e.2
    { s with fab.routers := tmod {} (rtKey r.1 r.2) (fun x => { x with failed := true }) s.fab.routers }) s
  { s1 with boot.phase := 7
            boot.rollFirst := sts.foldl (fun t st => tset st (rollFirst (fails st)) t) s1.boot.rollFirst
            aon.warm := { s1.aon.warm with lastRoll := s1.aon.wall } }

/-- The tiles of a stack that are mapped out: fused, by overlay, or failing the roll (R256). -/
def State.mappedOut (s : State) (st : Nat) : List Nat :=
  let soft := match s.boot.env.nvm.overlay with
    | some o => o.mapOut
    | none => []
  (((s.fuses.defects ++ soft).filter (fun e => e.1 = st)).map (·.2)
    ++ (s.boot.env.rollFail.filter (fun e => e.1 = st)).map (·.2.1)).eraseDups

/-- The defective rows of each column of a stack (R258). -/
def State.findDefects (s : State) (st : Nat) : State :=
  let m := s.mappedOut st
  { s with boot.defects := (List.range 8).foldl (fun t c =>
      tset (8 * st + c) ((m.filter (fun i => i % 8 = c)).map (· / 8)) t) s.boot.defects }

/-- The logical rows of a column that no physical row serves. -/
def lostRows (ds : List Nat) : List Nat := (List.range 16).filter (fun j => ds.contains (physRow ds j))
/-- The logical rows of a column that a shifted physical row serves. -/
def shiftedRows (ds : List Nat) : List Nat := (List.range 16).filter (fun j => physRow ds j ≠ j && !ds.contains (physRow ds j))

/-- The tile of a column of a stack and a row within it. -/
def tileAt (st c j : Nat) : Nat := epKey (8 * (st % 4) + c) (16 * (st / 4) + j)

/-- The coordinates of a stack. -/
def stackTileList (st : Nat) : List Nat := (List.range 8).flatMap (fun c => (List.range 16).map (tileAt st c))

/-- The columns of a stack that hold an absent coordinate. -/
def State.reducedCols (s : State) (st : Nat) : List Nat :=
  (List.range 8).filter (fun c => (List.range 16).any (fun j => s.boot.absent.contains (tileAt st c j)))

/-- Coordinates are declared absent: HUB_STACKS, BOOT_ROLL and one log entry for each column (R258). -/
def State.declareAbsent (s : State) (ts : List Nat) : State :=
  let sts := s.pkg.stacks
  let s1 : State := { s with boot.absent := (s.boot.absent ++ ts).eraseDups }
  sts.foldl (fun s2 st =>
    let new := (s1.reducedCols st).filter (fun c => !(s.reducedCols st).contains c)
    let mask := (s1.reducedCols st).foldl (fun a c => a + 2 ^ c) 0
    let s3 := new.foldl (fun s c => s.bootLog 0x43 (some (st * 256 + c))) s2
    if mask = 0 then s3
    else { s3 with hub.reduced := s3.hub.reduced ||| BitVec.ofNat 16 (2 ^ st)
                   boot.roll := tmod 0 st (fun w => BitVec.ofNat 32 (w.toNat - fb w.toNat 15 8 * 2 ^ 8 + mask * 2 ^ 8)) s3.boot.roll }) s1

/-- Step 8 over some stacks, from the defects of their columns: shifted and absent coordinates. -/
def State.remap (s : State) (sts : List Nat) : State :=
  let cols := sts.flatMap (fun st => (List.range 8).map (fun c => (st, c, s.colDefects st c)))
  let s1 := cols.foldl (fun s e =>
    let f := firstDefect e.2.2
    if f < 16 && !e.2.2.contains 16 then s.bootLog 0x42 (some (e.1 * 256 + f * 8 + e.2.1)) else s) { s with boot.phase := 8 }
  let s2 := sts.foldl (fun s st =>
    let shifted := (List.range 8).foldl (fun a c => a + (if (shiftedRows (s.colDefects st c)).isEmpty then 0 else 2 ^ c)) 0
    let eng := (s.boot.env.rollFail.filter (fun e => e.1 = st)).foldl (fun (a : BitVec 6) e => a ||| e.2.2) 0
    { s with boot.roll := tset st (BitVec.ofNat 32 (shifted + eng.toNat * 2 ^ 16 + satv 8 (s.mappedOut st).length * 2 ^ 24)) s.boot.roll }) s1
  ({ s2 with boot.shifted := (s2.boot.defects.flatMap (fun e => shiftedRows e.2)).length } : State).declareAbsent
    (cols.flatMap (fun e => (lostRows e.2.2).map (tileAt e.1 e.2.1)))

/-- The loss ring's tiles are there, and reduced capacity is allowed (R259). -/
def State.capacityOk (s : State) (im : Image) : Bool :=
  s.boot.absent.isEmpty || (im.allowDegraded && s.boot.absent.all (fun t => 16 ≤ t))

/-- A full roll is due on the warm path (R283). -/
def State.rollDue (s : State) : Bool :=
  !s.boot.warmPath || s.aon.warm.rollOnWake || s.aon.warm.lastRoll + 24 * 3600 * 1000000 ≤ s.aon.wall

/-- Steps 6 to 8 over the stacks that trained; the warm path may take the remap from the warm image. -/
def State.rollAndMap (s : State) : State :=
  let live := s.pkg.stacks.filter (fun st => !s.boot.absentStacks.contains st)
  let lost := s.boot.absentStacks.flatMap stackTileList
  let s1 := State.zeroReserves { s with boot.phase := 6 } live
  if s1.rollDue then
    ((live.foldl State.findDefects (s1.roll live)).remap live).declareAbsent lost
  else
    let w := s1.aon.warm
    ({ s1 with boot.phase := 8, boot.defects := w.defects, boot.shifted := w.shifted } : State).declareAbsent (w.absent ++ lost)

end Sys2Proof.Machine
end

