-- ==== Sys2Proof/Machine/Ready.lean ====
section
/-! DEFINITION. Steps 9 to 11: loading, source directives and READY, and the commands STACK_LINK_TIMEOUT, READY,
SOURCE_WAIT_EXPIRY, RESTART and POR_RELEASE (R243, R254, R259 to R262, R264, R282, R283, R335; log 7, log 53, log 54). -/

namespace Sys2Proof.Machine

open Sys2Proof

/-! ### Step 9 (R247, R248, R259, R260, R306) -/

/-- The section targets a tile that is absent for reduced capacity, so that it is skipped (R259). -/
def State.skips (s : State) (x : Section) : Bool := secOfTile x && s.populated x.target && !s.tilePresent x.target

/-- Takes every section in order; a skipped one leaves a log entry that names its column (log 54). -/
def State.putAll (s : State) (l : List (Section × Nat)) : State :=
  l.foldl (fun s x =>
    if s.skips x.1 then s.bootLog 0x43 (some (stackOf x.1.target * 256 + tileX x.1.target % 8)) else s.putSection x.1) s

/-- The reserve copies of the tiles that the sections name. -/
def State.putCopies (s : State) (l : List (Section × Nat)) : State :=
  (((l.filter (fun x => secOfTile x.1 && s.tilePresent x.1.target)).map (fun x => x.1.target)).eraseDups).foldl State.writeReserve s

/-- A section's data do not have its digest; a section with offset 0 has its directive's. -/
def badDigest (x : Section) : Bool := x.offset ≠ 0 && Config.sectionDigest x.data ≠ x.digest

/-- The first of the sections, in load order, with a wrong digest or broken rule: index and code. -/
def State.loadCode (s : State) (im : Image) (l : List (Section × Nat)) : Option (Nat × Nat) :=
  l.findSome? (fun x =>
    if badDigest x.1 then some (x.2, 6)
    else if s.skips x.1 then none
    else (s.sectionCode im x.1).map (fun c => (x.2, c)))

def isSteward : SectionData → Bool
  | .steward _ => true
  | _ => false

/-- The directives of the SOURCES sections, in order. -/
def directives (l : List (Section × Nat)) : List Directive :=
  l.flatMap (fun x =>
    match x.1.data with
    | .sources ds => ds
    | _ => [])

/-- The detour sections are in the bank that a bank names. -/
def hasDetour (bank : Bool) (l : List (Section × Nat)) : Option Nat :=
  (l.find? (fun x => (match x.1.data with
    | .tileDetour _ => true
    | _ => false) && x.1.param.getLsbD 0 = bank)).map (·.2)

/-- A detour bank that the sections load and that R129 refuses: its section's index. -/
def State.badBank (s : State) (l : List (Section × Nat)) : Option Nat :=
  match hasDetour false l, hasDetour true l with
  | some i, b => if s.bankOk false then (b.bind (fun j => if s.bankOk true then none else some j)) else some i
  | none, some j => if s.bankOk true then none else some j
  | none, none => none

/-- Step 9: the state after it, or the index and code with which it fails. -/
def State.load (s : State) (im : Image) : Sum State (Option Nat × Nat) :=
  let l := loadOrder im.sections
  let s1 := ({ s with boot.phase := 9, pool.role := imageRole im } : State).putAll l
  let s2 := s1.putCopies l
  match s2.loadCode im l, s2.badBank l with
  | some e, _ => .inr (some e.1, e.2)
  | none, some i => .inr (some i, 7)
  | none, none =>
    if !im.sections.any (fun x => isSteward x.data) || !s2.recordRack im.bootRack then .inr (none, 7)
    else
      let ds := directives l
      .inl { s2.declareAbsent s2.cutOff with
        boot.phase := 10
        boot.dirs := ds.zip ((List.range ds.length).map (fun i => (s2.boot.env.sources.getD i none))) }

/-! ### Step 10 (R257, R261) -/

/-- A striped window, whose keeper block a POOL directive waits for, and the link (R185, R261). -/
def State.sourceReady (s : State) (d : Directive) : Bool :=
  match blkSrcKind d.w0 with
  | 1 => s.poolUp
  | 2 => s.boot.hostBase ≠ 0 && s.hub.links.any (fun e => 2 ≤ e.2.state)
  | _ => true

/-- What a directive does: 0 where its data are written, else the failure code. -/
def State.runDirective (s : State) (d : Directive) (data : Option (List Byte)) : State × Nat :=
  match data with
  | none => (s, 0x0C)
  | some bs =>
    if bs.length ≠ 64 * blkLines d.w0 then (s, 0x0C)
    else if d.verify && Config.dataDigest bs ≠ d.digest then (s, 0x0D)
    else if (s.bulkDests d.w0 d.w2).any (fun t => !s.tilePresent t || reserveBase < wf d.w2 27 0 + bs.length) then (s, 0x0C)
    else
      ((s.bulkDests d.w0 d.w2).foldl (fun s t => s.colBytes t (wf d.w2 27 0) bs) s, 0)

/-- Runs directives in order, up to one that waits or fails: the state and the failure code, 0 for none. -/
def State.runDirectives (s : State) : List (Directive × Option (List Byte)) → State × Nat
  | [] => ({ s with boot.dirs := [] }, 0)
  | (d, b) :: r =>
    if !s.sourceReady d then ({ s with boot.dirs := (d, b) :: r }, 0)
    else
      let x := s.runDirective d b
      if x.2 = 0 then x.1.runDirectives r else x

/-- The first tile whose column breaks a load rule, once every byte is in place: the index of its section (log 55). -/
def State.badColumn (s : State) (im : Image) : Option (Option Nat) :=
  match s.tiles.find? (fun e => s.tilePresent e.1 && !s.columnOk e.1) with
  | none => none
  | some e => some (((loadOrder im.sections).find? (fun x => secOfTile x.1 && x.1.target = e.1)).map (·.2))

/-! ### Step 11 (R240, R262, R282) -/

/-- The worlds with autostart run, each from its anchor. -/
def State.autostart (s : State) : State :=
  (s.tmp.worlds.filter (fun e => e.2.autostart && e.2.st = .standby)).foldl (fun s e => s.startWorld e.1 e.2.anchor) s

/-- Every port with a mode follows its table from DETACHED; arming at its first attachment is enabled (R221, R240). -/
def State.portsReady (s : State) : State :=
  s.ports.foldl (fun s e =>
    if e.2.st = .detached then
      let s1 := s.modPort e.1 (fun p => { p with armPending := p.cfg.armAtReady })
      if (s1.port e.1).present then s1.enumerate e.1 1 else s1
    else s) s

def imageStartsTrace (im : Image) : Bool :=
  im.sections.any (fun x => match x.data with
    | .trace c => c.start
    | _ => false)

/-- BOOT_REPORT (R262). -/
def State.bootReport (s : State) (im : Image) : State :=
  s.postRecord im.bootRack 1 0x88 .done none
    [BitVec.ofNat 64 (s.boot.slot + b2n s.boot.degraded * 2 + s.boot.shifted % 2 ^ 16 * 2 ^ 16 + s.boot.timeMs % 2 ^ 32 * 2 ^ 32),
     im.imageId]

/-- Step 11. -/
def State.declareReady (s : State) (im : Image) : State :=
  let s1 : State := { s with
    fuses.floor := if im.commitFloor then max s.fuses.floor (min im.secVersion 64) else s.fuses.floor
    boot.phase := 11
    boot.st := 1
    boot.degraded := !s.boot.absent.isEmpty
    boot.timeMs := s.bootMs
    flt.stwReset := false
    aon.warm := if s.pwr.cfg.warmEnable then s.aon.warm else { s.aon.warm with valid := false, cause := 4 } }
  let s2 := s1.autostart.portsReady.bootReport im
  if imageStartsTrace im then { s2 with trc := s2.trc.start 1 s2.aon.wall } else s2

/-- Step 10 and, once no directive waits, step 11. -/
def State.bootFinish (s : State) (im : Image) : State :=
  let x := s.runDirectives s.boot.dirs
  if x.2 ≠ 0 then x.1.bootFails 10 x.2 none
  else if !x.1.boot.dirs.isEmpty then x.1
  else
    match x.1.badColumn im with
    | some i => x.1.bootFails 9 7 i
    | none => x.1.declareReady im

/-- Steps 6 to 9, then the rest. -/
def State.bootOn (s : State) (im : Image) : State :=
  if (s.boot.env.dramFail.filter (fun st => s.stackPresent st && !s.boot.absentStacks.contains st)).isEmpty then
    let s1 := s.rollAndMap
    if !s1.capacityOk im then s1.bootFails 8 0x0B none
    else
      match s1.load im with
      | .inr (i, c) => s1.bootFails 9 c i
      | .inl s2 => if s2.capacityOk im then s2.bootFinish im else s2.bootFails 9 0x0B none
  else s.bootFails 6 0x0A none

/-! ### Commands -/

/-- The boot engine runs and has reached phase n. -/
def State.bootAt (s : State) (n : Nat) : Bool := s.aon.phase = .running && s.boot.started && s.boot.st = 0 && s.boot.phase = n

/-- READY: steps 6 to 11 end; a directive that waits holds the boot in step 10. -/
def execReady (s : State) : Host.Outcome State Fault Refusal :=
  match s.boot.image with
  | none => .next s
  | some im =>
    if s.bootAt 5 then .next (s.bootOn im) else if s.bootAt 10 then .next (s.bootFinish im) else .next s

/-- STACK_LINK_TIMEOUT: a stack whose link has not trained is absent; without ST0 the boot fails (R254, R259). In the RESET of
a lost stack the step fails (R314). -/
def execStackLinkTimeout (st : Nat) (s : State) : Host.Outcome State Fault Refusal :=
  if s.stackIsLost st && s.domState (stackDom st) = .reset then .next (s.modFence (stackDom st) (fun f => { f with ok := false }))
  else if !s.bootAt 5 || !s.stackPresent st || s.boot.absentStacks.contains st then .next s
  else if st = 0 then .next (s.bootFails 5 9 none)
  else .next { s with boot.absentStacks := s.boot.absentStacks ++ [st] }

/-- SOURCE_WAIT_EXPIRY: the directive in hand has waited its host_wait_ms or pool_wait_ms (R261). -/
def execSourceWaitExpiry (s : State) : Host.Outcome State Fault Refusal :=
  if s.bootAt 10 && s.boot.dirs.any (fun d => !s.sourceReady d.1) then .next (s.bootFails 10 0x0C none) else .next s

/-- A boot from step 1 with what it meets: the warm path where a boot from Doldrums finds the warm image (R283). -/
def State.bootFresh (s : State) : State :=
  let warm := s.aon.fromDoldrums && s.warmMatches
  let miss := s.aon.fromDoldrums && s.aon.warm.valid && !warm
  State.bootStart { s with
    boot.warmPath := warm
    boot.slot := if warm then s.aon.warm.slot else 0
    boot.absentStacks := if warm then s.aon.warm.absentStacks else []
    aon.fromDoldrums := false
    aon.warmWakes := if warm then sat 16 s.aon.warmWakes 1 else s.aon.warmWakes
    aon.warm := if miss then { s.aon.warm with valid := false, cause := 5 } else s.aon.warm }

/-- POR_RELEASE: the boot engine starts with everything that a power-on reset clears at reset (R335). -/
def execPorRelease (env : BootEnv) (s : State) : Host.Outcome State Fault Refusal :=
  if s.aon.phase = .porAsserted && s.aon.railEn && !s.aon.resetLow then
    .next (State.bootFresh { s.powerLoss with
      aon.phase := .running
      aon.pwrGood := true
      aon.pgTime := satv 16 env.pgTime
      boot.started := true
      boot.releaseWall := s.aon.wall
      boot.env := env
      pwr.level := if s.aon.therm then 7 else 0 })
  else .next s

/-- The register address of BOOT_CTL. -/
def bootCtl : Nat := 0x100030

/-- Everything switched starts again from step 1, with the outputs stepped to SAFE; the warm image is cleared (R264,
R282; log 53). -/
def State.restart (s : State) : State :=
  let s1 := (s.eachOut (fun _ => true) Port.stepSafe).clearLoaded
  State.bootFresh { s1 with aon.warm := { s1.aon.warm with valid := false, cause := 2 }, aon.fromDoldrums := false }

/-- RESTART: a write of BOOT_CTL. Before READY and in FAILED any host master may make it; after READY it needs ADMIN on the
boot block (R264). -/
def execRestart (m : Nat) (v : Word) (s : State) : Host.Outcome State Fault Refusal :=
  if s.aon.phase ≠ .running then .next s
  else if s.isReady then
    ownReg m bootCtl .admin (fun s => some (if v.getLsbD 0 then s.restart else s)) s
  else if isHost m then .next (if v.getLsbD 0 then (s.respond m []).restart else s.respond m [])
  else .next (s.refuse m false bootCtl .notReady false)

end Sys2Proof.Machine
end

