-- ==== Sys2Proof/Machine/Recovery.lean ====
section
/-! DEFINITION. Recovery of quarantined units: the source of each region, the replacement, the automatic fence of a unit
without a source, and the commands RECOVERY_COMPLETE and RECOVERY_RETRY (R306 to R308). -/

namespace Sys2Proof.Machine

open Sys2Proof

/-! ### What a unit holds (R308) -/

/-- The row, lane copy and segment that unit u holds. -/
def Tile.rowAt (x : Tile) (u : Nat) : Option (Nat × Nat × Nat) :=
  x.rowdir.findSome? (fun e =>
    let n := rowSegs e.2
    let off := u - rowSegBase e.2
    if rowSegBase e.2 ≤ u && off < n * (if rowPriv e.2 then 32 else 1) then some (e.1, off / n, off % n) else none)

/-- The neuron, lane copy and segment whose transposed copy unit v holds (R52, R113). -/
def State.colAt (s : State) (t v : Nat) : Option (Nat × Nat × Nat) :=
  let x := s.tile t
  if x.cfg.twin = 0 then none
  else
    x.neurons.findSome? (fun n =>
      let e := s.colEntry t n
      let base := colUnit e false 0 0
      let lanes := if rowPriv (tget 0 (colRow e) x.rowdir) then 32 else 1
      if base ≤ v && v - base < colSegs e * lanes then some (n, (v - base) / colSegs e, (v - base) % colSegs e) else none)

/-- The kind of region of tile t that holds unit u, by the numbers of `State.regions`. -/
def State.regionOf (s : State) (t u : Nat) : Option Nat :=
  ((s.regions t).find? (fun r => r.2.1 < 128 * u + 128 && 128 * u < r.2.1 + r.2.2)).map (·.1)

/-- The unit lies in the row directory copy (R306). -/
def inRowCopy (u : Nat) : Bool := rowCopyAddr ≤ 128 * u && 128 * u < rowCopyAddr + 0x10000

/-! ### Homes -/

/-- The bytes of unit u in a stretch that starts at column address a; a byte the stretch does not hold reads 0. -/
def unitBytes (a : Nat) (bs : List Byte) (u : Nat) : Option (List Byte) :=
  if a < 128 * u + 128 && 128 * u < a + bs.length then
    some ((List.range 128).map (fun i => if a ≤ 128 * u + i then bs.getD (128 * u + i - a) 0 else 0))
  else none

/-- The bytes that a section wrote into unit u of tile t. -/
def sectionUnit (t u : Nat) (x : Section) : Option (List Byte) :=
  match x.data with
  | .tileColumn bs => if x.target = t && x.offset ≠ 0 then unitBytes (128 * fb x.param.toNat 20 0) bs u else none
  | _ => none

/-- The bytes that a directive wrote there, from a source that can be read now (R261, R308). -/
def State.directiveUnit (s : State) (t u : Nat) (d : Directive × Option (List Byte)) : Option (List Byte) :=
  if (s.bulkDests d.1.w0 d.1.w2).contains t && s.sourceReady d.1 then
    match d.2 with
    | some bs => unitBytes (wf d.1.w2 27 0) bs u
    | none => none
  else none

/-- The home of unit u: what the directive or section that last wrote it holds (R308). -/
def State.homeUnit (s : State) (t u : Nat) : Option (List Byte) :=
  match s.boot.image with
  | none => none
  | some im =>
    let ds := directives (loadOrder im.sections)
    let srcs := ds.zip ((List.range ds.length).map (fun i => s.boot.env.sources.getD i none))
    (s.boot.amended.reverse.findSome? (sectionUnit t u)
      <|> srcs.reverse.findSome? (s.directiveUnit t u)) <|> (loadOrder im.sections).reverse.findSome? (fun x => sectionUnit t u x.1)

/-! ### Sources (R308) -/

/-- The transposed words of segment k of a row can be read. -/
def State.twinReads (s : State) (t row l k : Nat) : Bool :=
  let e := tget (0 : DWord) row (s.tile t).rowdir
  (List.range 64).all (fun j => !s.unitBad t (s.twinAt t (rowPriv e) l row (rowPostBase e + 64 * k + j)).1)

/-- The row word of the synapse from a row into neuron n, for a lane copy: its unit and place. -/
def State.rowWordAt (s : State) (t row l n : Nat) : Option (Nat × Nat) :=
  let e := tget (0 : DWord) row (s.tile t).rowdir
  if rowTwin e && rowPostBase e ≤ n && n < rowPostBase e + 64 * rowSegs e then
    some (rowSegAddr e l ((n - rowPostBase e) / 64) / 128, (n - rowPostBase e) % 64)
  else none

/-- The row words of a transposed segment can be read. -/
def State.rowsRead (s : State) (t n l k : Nat) : Bool :=
  (List.range 64).all (fun j =>
    match s.rowWordAt t (colRow (s.colEntry t n) + 64 * k + j) l n with
    | some (u, _) => !s.unitBad t u
    | none => true)

/-- Where unit u is recovered from now: 1 twin, 2 home or the reserve's own sources, 3 reset value; 0 while it has to wait
or has no source. A twin waits for a consolidation in progress, a home for the steward. -/
def State.recoverySource (s : State) (t u : Nat) : Nat :=
  let x := s.tile t
  let home := if s.isReady && !s.flt.stwReset && (s.homeUnit t u).isSome then 2 else 0
  if inRowCopy u then 2
  else
    match s.regionOf t u with
    | some 0 =>
      match x.rowAt u with
      | some (row, l, k) =>
        if rowTwin (tget 0 row x.rowdir) then (if x.lrnBusy.isNone && s.twinReads t row l k then 1 else 0) else home
      | none => 0
    | some 2 =>
      match s.colAt t u with
      | some (n, l, k) => if x.lrnBusy.isNone && s.rowsRead t n l k then 1 else 0
      | none => 0
    | some 3 => 3
    | some 4 => 3
    | some 5 => 3
    | some 10 => 0
    | some _ => home
    | none => 0

/-! ### The replacement is written (R307, R308) -/

/-- The words of a row segment, from its transposed copies. -/
def State.fillRow (s : State) (t u row l k : Nat) : State :=
  let e := tget (0 : DWord) row (s.tile t).rowdir
  (List.range 64).foldl (fun s j =>
    let v := s.twinAt t (rowPriv e) l row (rowPostBase e + 64 * k + j)
    s.setSynapse t u j (s.planeWord t v.1 v.2 16)) s

/-- The words of a transposed segment, from the row segments. -/
def State.fillCol (s : State) (t v n l k : Nat) : State :=
  (List.range 64).foldl (fun s j =>
    match s.rowWordAt t (colRow (s.colEntry t n) + 64 * k + j) l n with
    | some (u, p) => s.setPlaneWord t v j (s.synapse t u p) 16
    | none => s) s

/-- Unit u of tile t is written at the replacement that its entry names, from its source. -/
def State.fillUnit (s : State) (t u src : Nat) : State :=
  let a := (s.tile t).unitAddr u
  if src = 1 then
    match s.regionOf t u, (s.tile t).rowAt u, s.colAt t u with
    | some 0, some (row, l, k), _ => s.fillRow t u row l k
    | _, _, some (n, l, k) => s.fillCol t u n l k
    | _, _, none => s
  else if inRowCopy u then
    (s.tile t).rowdir.foldl (fun s e =>
      let w := rowCopyAddr + 8 * e.1
      if w / 128 = u then s.colWrite t (a + w % 128) 8 e.2.toNat else s) s
  else if src = 2 then
    match s.homeUnit t u with
    | some bs => { s with mem := ((s.mem.writeBytes (colAddr t a) bs).heal (colAddr t a) 128) }
    | none => s
  else s

/-- The entry of unit u: recovered from a source (R307). -/
def State.markRecovered (s : State) (t u src : Nat) : State :=
  s.modTile t (fun x =>
    { x with quar := x.quar.map (fun q => if q.unit = u then { q with recovered := true, source := src } else q),
             quarRecovered := sat 16 x.quarRecovered 1, quarLastSource := src })

/-- Unit u recovers: the replacement is zeroed and written, and the entry says so. An accumulator's loss is recorded. -/
def State.recover (s : State) (t u src : Nat) : State :=
  let s1 := s.markRecovered t u src
  let s2 := ((s1.colZero t ((s1.tile t).unitAddr u) 128).fillUnit t u src).putQuar t u
  if src = 3 && s.regionOf t u ≠ some 5 then s2.pushLoss (s.segItem t u 2 none none) else s2

/-- The sections that hold the content of a unit without a source: its column sections (R307). -/
def State.reloadSections (s : State) (t u : Nat) : List Section := s.allSections.filter (fun x => (sectionUnit t u x).isSome)

/-- Unit u lies in a twin region whose other layout cannot be read either, so it has no source (R307). -/
def State.sourceless (s : State) (t u : Nat) : Bool :=
  let x := s.tile t
  x.lrnBusy.isNone && (match s.regionOf t u, x.rowAt u with
    | some 0, some (row, l, k) => rowTwin (tget 0 row x.rowdir) && !s.twinReads t row l k
    | some 2, _ => (match s.colAt t u with
      | some (n, l, k) => !s.rowsRead t n l k
      | none => false)
    | _, _ => false)

/-- The next unit of tile t that waits and q accepts recovers; where one has no source, the tile is fenced to reload it from
NVM (R307; log 57). -/
def State.recoverNext (s : State) (t : Nat) (q : Nat → Bool) : State :=
  let us := ((s.tile t).quar.filter (fun e => !e.recovered)).map (·.unit)
  match us.find? (fun u => q (s.recoverySource t u)) with
  | some u => s.recover t u (s.recoverySource t u)
  | none =>
    match us.find? (fun u => s.sourceless t u && !(s.reloadSections t u).isEmpty) with
    | some u =>
      if s.tileActive t then (s.stageUpdate (tileDom t) (s.reloadSections t u)).updateStart (tileDom t) else s
    | none => s

/-- RECOVERY_COMPLETE: the next quarantined unit of tile t that has a source recovers (R307, R308). -/
def execRecoveryComplete (t : Nat) (s : State) : Host.Outcome State Fault Refusal :=
  .next (s.recoverNext t (fun k => k ≠ 0))

/-- RECOVERY_RETRY: the steward's 1 s retry of a home recovery (R308). -/
def execRecoveryRetry (t : Nat) (s : State) : Host.Outcome State Fault Refusal :=
  match (((s.tile t).quar.filter (fun e => !e.recovered)).map (·.unit)).find? (fun u => s.recoverySource t u = 2) with
  | some u => .next (s.recover t u 2)
  | none => .next s

end Sys2Proof.Machine
end

