-- ==== Sys2Proof/Machine/Fences.lean ====
section
/-! DEFINITION. The fence controller: FENCE and RESUME, the drain of each kind of domain, fence notices and what each
requester does with one (R98, R242, R290 to R299, R312, R330). -/

namespace Sys2Proof.Machine

open Sys2Proof

/-! ### FENCE and RESUME (R291, R299) -/

/-- Master m may fence domain d (R291). -/
def State.mayFence (s : State) (m d : Nat) : Bool :=
  s.fenceable d && (match s.domClass d with
    | some 0 => s.has m (.tile (d - 0x800)) .admin
    | some 1 => s.has m .hubBlock .admin
    | some 8 => s.has m .hubBlock .admin
    | some 9 => s.has m (.port (d - 0x020)) .admin
    | some 5 => s.has m .poolBlock .admin
    | some 6 => s.has m .trace .admin
    | _ => false)

/-- FENCE (R299). -/
def execFence (rk seq : Nat) (s : State) : Host.Outcome State Fault Refusal :=
  runCmd 0x30 (fun _ => true) (fun s c =>
    let w1 := c.words.getD 1 0
    let d := wf w1 11 0
    if !s.mayFence c.src d then s.complete c .failedAccess []
    else
      match s.domState d with
      | .active => (s.fenceStart d (wf w1 31 16) (wf w1 12 12 = 1) (some (rk, seq)) 10 0x30).begun c
      | .fenced => s.complete c .repeated []
      | _ => s.complete c .busy []) rk seq s

/-- Domain d enters RESET; a span link retrains (R291, R292). -/
def State.enterReset (s : State) (d : Nat) : State :=
  let s1 := s.fenceMove d .reset
  if s.domClass d = some 8 && s.spanTrains (d - 0x010) then s1.modSpan (d - 0x010) (fun x => { x with state := 1 }) else s1

/-- RESUME (R299); `env` is what the boot engine meets when it brings back a lost stack (R314). -/
def execResume (rk seq : Nat) (env : BootEnv) (s : State) : Host.Outcome State Fault Refusal :=
  runCmd 0x31 (fun _ => true) (fun s c =>
    let d := wf (c.words.getD 1 0) 11 0
    if !s.mayFence c.src d then s.complete c .failedAccess []
    else
      match s.domState d with
      | .active => s.complete c .repeated []
      | .fenced =>
        let s1 := (s.wakeDom d 10 0x31).modFence d (fun f => { f with cmd := some (rk, seq), reset := true, ok := true })
        (State.enterReset { s1 with boot.env := if (s.fence d).lost then env else s1.boot.env } d).begun c
      | _ => s.complete c .busy []) rk seq s

/-! ### Fence notices (R294) -/

/-- The fence notice: to the hub's requesters, and to the root of every stack, which tells its tiles. -/
def State.notify (s : State) (d k : Nat) : State :=
  let q := (s.fence d).seq
  let s1 : State := { s with flt.notices := s.flt.notices ++ [epKey 32 0, epKey 35 0, epKey 38 0].map (fun w => (w, d, k)) }
  s1.liveStacks.foldl (fun s st => s.toRoot stewardEp st (.fence d k q)) s1

/-! ### What is left when a drain ends (R293) -/

/-- The RUN item of a run that has not begun. -/
def State.dueItem (s : State) (t : Nat) (d : DueRun) (c : Code) : LossItem :=
  let b := (s.tile t).blockOf d.w d.neuron
  let slot := (b.map blkSlot).getD 0
  { code := c, kind := 0x3, w := some d.w, reporter := s.coord t, a := d.now % 2 ^ 20,
    b := BitVec.ofNat 64 (d.neuron + slot * 2 ^ 14 + mdEntry (tget [] slot (s.tile t).models) * 2 ^ 17), ext := none,
    stamp := some (d.now % 2 ^ 20), sampled := false }

/-- The items that tile t has accepted and not completed: events in intake, wheel entries, runs. -/
def State.tileLeftovers (s : State) (t : Nat) : List LossItem :=
  let x := s.tile t
  x.intake.map (fun e => s.evItem t e .failedFenced)
    ++ x.wheel.map (fun e => s.contribItem t e.w 0 e.neuron 0 e.due e.sum .failedFenced)
    ++ x.run.toList.map (fun r => s.runItem t r .failedFenced) ++ x.due.map (fun d => s.dueItem t d .failedFenced)

/-- A tile holds no work: intake, merge table, wheel, engine and the requests for learning passes are empty. -/
def Tile.emptied (x : Tile) : Tile := { x with intake := [], merge := [], wheel := [], upd := [], due := [], run := none, posts := [] }

/-- The volleys that wait for tokens at tile t are recorded, event by event. -/
def State.loseWaiting (s : State) (t : Nat) : State :=
  ((s.tile t).pace.waiting.foldl (fun s v => s.loseEvents v .failedFenced (s.coord t)) s).modTile t (fun x =>
    { x with pace := { x.pace with waiting := [] } })

/-- The fan-out engine of tile t empties: stalled emissions and open volleys go to the port, and what waits there is
recorded. -/
def State.emptyFanout (s : State) (t : Nat) : State :=
  (List.range ((s.tile t).stalled.length + 1)).foldl (fun s _ =>
    let s1 := s.loseWaiting t
    ((s1.unstall t (s1.tile t).stalled.length).flushOpen t (fun _ => true)).loseWaiting t) s

/-- What tile t still holds is recorded with FAILED_FENCED, and the tile holds nothing. -/
def State.drainTile (s : State) (t : Nat) : State :=
  (((s.tileLeftovers t).foldl State.pushLoss s).modTile t Tile.emptied).emptyFanout t

/-- A fenced span link holds nothing and carries nothing: it is DOWN, and its PEER followers park (R27, R293). -/
def State.spanFence (s : State) (k : Nat) : State :=
  let x := s.span k
  let vs := x.replay.flatMap (·.2) ++ x.queue
  let s1 := s.modSpan k (fun y =>
    { y with state := 0, lanes := 0, replay := [], queue := [], txSeq := 0, rxSeq := 0, credits := [], hold := 0 })
  let s2 := vs.foldl (fun s v => s.loseEvents v .failedFenced (s.spanCoord k)) s1
  (s.linkFollowers k).foldl (fun s w => s.parkWorld w 3) s2

/-- The leftovers of domain d by its class. -/
def State.drainDom (s : State) (d : Nat) : State :=
  match s.domClass d with
  | some 0 => s.drainTile (d - 0x800)
  | some 1 => (s.stackTiles (d - 0x040)).foldl State.drainTile s
  | some 9 => s.portFence (d - 0x020)
  | some 8 => s.spanFence (d - 0x010)
  | some 5 => s.poolDrain
  | some 6 => s.traceDrain
  | _ => s

/-! ### FENCED and after (R292, R298, R299) -/

/-- The command of domain d's fence completes with DONE, once every record of the domain is written (R299). -/
def State.fenceDone (s0 : State) (d : Nat) (c : Code) : State :=
  let s := s0.lossDrain
  let f := s.fence d
  match f.cmd with
  | some (rk, seq) =>
    (s.modFence d (fun f => { f with cmd := none })).completeAt rk seq c
      (if c = .done then [BitVec.ofNat 64 (f.losses % 2 ^ 32 + f.seq % 2 ^ 32 * 2 ^ 32)] else [])
  | none => s

/-- Domain d is FENCED: its notice goes out, and the fence goes on by what it was begun for. -/
def State.enterFenced (s : State) (d : Nat) : State :=
  let s1 := (s.fenceMove d .fenced).notify d 2
  if !(s.fence d).staged.isEmpty then (if (s.fence d).reset then s1 else s1.fenceDone d .done).fenceMove d .update
  else if (s.fence d).reset then s1.enterReset d
  else s1.fenceDone d .done

/-- DRAIN_END: domain d has no accepted work left, or its drain limit has passed (R293). -/
def execDrainEnd (dom : Nat) (s : State) : Host.Outcome State Fault Refusal :=
  if s.domState dom = .draining then .next ((s.drainDom dom).enterFenced dom) else .next s

/-! ### Fence notices at the requesters (R295, R297) -/

/-- The tiles that a domain takes out of service. -/
def State.coveredTiles (s : State) (d : Nat) : List Nat :=
  match s.domClass d with
  | some 0 => [d - 0x800]
  | some 1 => s.stackTiles (d - 0x040)
  | _ => []

/-- Tile t hears that some tiles are fenced, or are back: their upstream entries leave its conditions or count again. -/
def State.heedUpstream (s : State) (t : Nat) (ts : List Nat) (out : Bool) : State :=
  s.modTile t (fun x => { x with upstream := x.upstream.map (fun u =>
    if ts.any (fun k => u.src = s.coord k) then { u with out := out } else u) })

/-- The chain messages of tile t that await an answer of some tiles fail, item by item (R68, R295). -/
def State.failChain (s : State) (t : Nat) (ts : List Nat) : State :=
  let gone := (s.tile t).chainOut.filter (fun e => ts.contains e.2.1)
  let s1 := s.modTile t (fun x => { x with chainOut := x.chainOut.filter (fun e => !ts.contains e.2.1) })
  gone.foldl (fun s e => (s.chainItems t e.2.2).foldl State.pushLoss s) s1

/-- What waited at tile t for a fenced tile goes on: passes and updates, turn reports, a consolidation point. -/
def State.goOnWithout (s : State) (t : Nat) : State :=
  if s.tileRuns t then ((s.tile t).groups.foldl (fun s g => s.groupReports t g) (s.settle t)).homeTry t else s

/-- The notice at a tile. -/
def State.noticeTile (s : State) (t d k : Nat) : State :=
  let ts := s.coveredTiles d
  if k = 2 then (((s.heedUpstream t ts true).failChain t ts).goOnWithout t)
  else if k = 0 then s.heedUpstream t ts false
  else s

/-- A command in hand names domain d and has not begun (R214, R295). -/
def ExecCmd.waitsOn (c : ExecCmd) (d : Nat) : Bool :=
  c.stage = 0 && ((c.op = 0x18 && portDom (wf (c.words.getD 1 0) 3 0) = d) || (c.op = 0x20 && d = 4))

/-- The notice at the hub's access unit and dispatcher: host accesses outstanding there are refused, and commands whose
target is the domain complete with FAILED_PEER_RESET. -/
def State.noticeHub (s : State) (d : Nat) : State :=
  let ts := s.coveredTiles d
  let gone := s.flt.hostReqs.filter (fun e => ts.contains e.2.1)
  let s1 : State := { s with flt.hostReqs := s.flt.hostReqs.filter (fun e => !ts.contains e.2.1) }
  let s2 := gone.foldl (fun s e => s.refuse e.1 false (tileOff e.2.1 e.2.2.1) .failedPeerReset (e.2.2.2 ≠ 0)) s1
  (s2.hub.executing.filter (fun c => c.waitsOn d)).foldl (fun s c => s.complete c .failedPeerReset []) s2

/-- The notice at the tempo unit: the sweeps that the tiles owe count as done. -/
def State.noticeTempo (s : State) (d : Nat) : State :=
  let ts := s.coveredTiles d
  { s with tmp.worlds := s.tmp.worlds.map (fun (e : Nat × World) =>
      (e.1, { e.2 with sweeps := (e.2.sweeps.map (fun x => (x.1, x.2.filter (fun t => !ts.contains t)))).filter (fun x => !x.2.isEmpty) })) }

/-- The notice at the pool directory: a fenced stack's cache is lost to it. -/
def State.noticePool (s : State) (d : Nat) : State :=
  if s.domClass d = some 1 then s.agentLost (d - 0x040) else s

/-- The first notice for a requester. -/
def takeNotice (who : Nat) : List (Nat × Nat × Nat) → Option ((Nat × Nat) × List (Nat × Nat × Nat))
  | [] => none
  | e :: r =>
    if e.1 = who then some (e.2, r)
    else
      match takeNotice who r with
      | some (x, l) => some (x, e :: l)
      | none => none

/-- FENCE_NOTICE: a notice reaches requester `who`: a tile, or the hub's access unit and dispatcher (32, 0), the pool
directory (35, 0), the tempo unit (38, 0). -/
def execFenceNotice (who : Nat) (s : State) : Host.Outcome State Fault Refusal :=
  match takeNotice who s.flt.notices with
  | none => .next s
  | some ((d, k), l) =>
    let s1 : State := { s with flt.notices := l }
    if who < 2048 then .next (s1.noticeTile who d k)
    else if k ≠ 2 then .next s1
    else if who = epKey 32 0 then .next (s1.noticeHub d)
    else if who = epKey 35 0 then .next (s1.noticePool d)
    else if who = tempoEp then .next (s1.noticeTempo d)
    else .next s1

end Sys2Proof.Machine
end

