-- ==== Sys2Proof/Machine/Returns.lean ====
section
/-! DEFINITION. What follows FENCED: updates, RESET and the return to ACTIVE of each kind of domain, the boot of a single
stack, and the loss of a stack (R98, R111, R242, R266, R291, R292, R297, R298, R307, R313, R314, R326, R330). -/

namespace Sys2Proof.Machine

open Sys2Proof

/-! ### UPDATE (R98, R266, R307) -/

/-- A staged section is written. Of a TILE_CONFIG section the rule sets are taken (R266). -/
def State.putUpdate (s : State) (x : Section) : State :=
  match x.data with
  | .tileConfig c => s.modTile x.target (fun y => { y with cfg := { y.cfg with rules := c.rules } })
  | _ => s.putSection x

/-- The entry of a unit whose own place reads well again takes what stands there (R307). -/
def State.reclaim (s : State) (t u : Nat) : State :=
  if s.mem.anyBad (colAddr t (128 * u)) 128 then s
  else
    let v := s.mem.readLE (colAddr t (128 * u)) 128
    let s1 := s.markRecovered t u 2
    let a := colAddr t ((s1.tile t).unitAddr u)
    ({ s1 with mem := (s1.mem.writeLE a 128 v).heal a 128 } : State).putQuar t u

/-- The units of tile t that a reload has healed are recovered. -/
def State.reclaimAll (s : State) (t : Nat) : State :=
  (((s.tile t).quar.filter (fun q => !q.recovered)).map (·.unit)).foldl (fun s u => s.reclaim t u) s

/-- UPDATE_WRITTEN: domain dom has written its staged update and enters RESET; a tile's reserve copies follow (R292, R306). -/
def execUpdateWritten (dom : Nat) (s : State) : Host.Outcome State Fault Refusal :=
  if s.domState dom = .update then
    let s1 := (s.fence dom).staged.foldl State.putUpdate s
    let s2 := if s.domClass dom = some 0 then (s1.writeReserve (dom - 0x800)).reclaimAll (dom - 0x800) else s1
    .next ((s2.modFence dom (fun f => { f with staged := [] })).enterReset dom)
  else .next s

/-! ### A tile's RESET and return (R111, R297, R298, R326) -/

/-- The worlds with a turn count that tile t holds. -/
def State.heldWorlds (s : State) (t : Nat) : List Nat :=
  (s.tmp.worlds.filter (fun e => (s.tile t).resident e.1 && (e.2.st = .running || e.2.st = .parked))).map (·.1)

/-- RESET of a tile: its logic is empty, pacing starts at r = 174, and every resident world is swept at its T (R298). -/
def State.tileReset (s : State) (t : Nat) : State :=
  let s1 := (s.traceTileReset t).modTile t (fun x =>
    { x.emptied with openVols := [], stalled := [], pace := {}, marks := [], got := [], lockSent := [], lastNotice := [],
                     spillCache := [], streaming := false })
  (s1.heldWorlds t).foldl (fun s w => (s.sweepRecords t w (s.world w).t).sweepTimes t w (s.world w).t) s1

/-- The tile's view of a resident world as it returns: F stands past the highest open turn (R298). -/
def World.back (x : World) : TileWorld := { f := x.start x.opened, t := x.t, reported := x.opened }

/-- Its schedule starts at entry 0 of the turn to come. -/
def State.nextOpen (s : State) (t : Nat) : Nat := ((s.heldWorlds t).map (fun w => (s.world w).opened)).foldl max 0

/-- The tile is ACTIVE: frontiers, schedule, and its own upstream tiles left out until their first notice (R298). -/
def State.tileBack (s : State) (t : Nat) : State :=
  let s1 := (s.heldWorlds t).foldl (fun s w => s.modTile t (fun x => x.modWorld w (fun _ => (s.world w).back))) s
  s1.modTile t (fun x =>
    { x with schedTurn := s.nextOpen t, slot := 0,
             upstream := x.upstream.map (fun u => if u.src.x < 32 then { u with out := true } else u) })

/-- Every open turn of its worlds counts its notice as the report, and is INCOMPLETE (R297). -/
def State.turnsWithout (s : State) (t : Nat) : State :=
  (s.heldWorlds t).foldl (fun s w =>
    s.modWorld w (fun x => { x with turns := (List.range (x.opened - x.closed)).foldl (fun l i =>
      tmod {} (x.closed + i) (fun n => { n with incomplete := true, reports := n.reports ++ [t] }) l) x.turns })) s

/-- A member whose home has gone on takes the home's rows and completes the points it missed (R111). -/
def State.takeHomeRows (s : State) (t : Nat) : State :=
  let h := (s.tile t).homeOf t
  let behind := (s.tile h).lrnPoint - (s.tile t).lrnPoint
  if h = t || !s.tileActive h || behind = 0 then s
  else
    let s1 := (s.pooledUnits t).foldl (fun s e =>
      let seg := segId e.1 e.2.2.1
      (List.range 64).foldl (fun s j => s.rewriteWord t e.1 0 e.2.2.2 j (s.synapse h ((s.tile h).segUnit seg) j)) s) s
    (List.range behind).foldl (fun s _ => s.pointDone t) s1

/-- The tile goes on: passes, updates, notices and reports. -/
def State.tileGoesOn (s : State) (t : Nat) : State :=
  (s.heldWorlds t).foldl (fun s w => s.afterF t w) ((s.takeHomeRows t).settle t)

/-! ### A stack's RESET (R291, R314) -/

/-- The stack's DRAM holds nothing (R255; log 11 for what an unwritten byte reads as), and its tiles nothing but their
places. -/
def State.stackEmpty (s : State) (st : Nat) : State :=
  let keep := fun (a : Nat) => stackOf (a / 2 ^ 28) ≠ st
  { s with
    mem := { cells := s.mem.cells.filter (fun c => keep c.1), bad := s.mem.bad.filter (fun w => keep (8 * w)),
             soft := s.mem.soft.filter (fun w => keep (8 * w)) }
    tiles := s.tiles.filter (fun e => stackOf e.1 ≠ st)
    boot.absent := s.boot.absent.filter (fun t => stackOf t ≠ st)
    hub.reduced := s.hub.reduced &&& ~~~(BitVec.ofNat 16 (2 ^ st)) }

/-- Steps 7 and 8 for the stack; the phase stays that of READY, and the time of the last full roll stands. -/
def State.stackRoll (s : State) (st : Nat) : State :=
  let s1 := (((s.roll [st]).findDefects st).remap [st])
  { s1 with boot.phase := s.boot.phase, aon := s.aon }

/-- The directives that target the stack's columns, each with its data, into those columns only: the state, or none where
one fails. -/
def State.stackDirectives (s : State) (st : Nat) : List (Directive × Option (List Byte)) → Option State
  | [] => some s
  | (d, b) :: r =>
    let ts := (s.bulkDests d.w0 d.w2).filter (fun t => stackOf t = st)
    if ts.isEmpty then s.stackDirectives st r
    else
      match b with
      | none => none
      | some bs =>
        if bs.length ≠ 64 * blkLines d.w0 || (d.verify && Config.dataDigest bs ≠ d.digest)
            || ts.any (fun t => !s.tilePresent t || reserveBase < wf d.w2 27 0 + bs.length) then none
        else (ts.foldl (fun s t => s.colBytes t (wf d.w2 27 0) bs) s).stackDirectives st r

/-- The directives of the image with what each reads. -/
def State.imageDirectives (s : State) : List (Directive × Option (List Byte)) :=
  match s.boot.image with
  | none => []
  | some im =>
    let ds := directives (loadOrder im.sections)
    ds.zip ((List.range ds.length).map (fun i => s.boot.env.sources.getD i none))

/-- Every record of the resident worlds of a tile is at rest (R80, R314). -/
def State.restRecords (s : State) (t : Nat) : State :=
  (s.heldWorlds t).foldl (fun s w =>
    ((s.tile t).recordsOf w).foldl (fun s e =>
      s.writeRec t e.1 e.2.2 (restRecord (mdRest ((s.tile t).model e.1)) (blkWide e.1) ((s.world w).t % 2 ^ 20))) s) s

/-- Steps 5 to 10 for the stack alone: the state, or none where a step fails (R314). -/
def State.stackBoot (s : State) (st : Nat) : Option State :=
  match s.boot.image with
  | none => none
  | some im =>
    if !(s.fence (stackDom st)).ok || s.boot.env.dramFail.contains st then none
    else
      let l := (loadOrder im.sections).filter (fun x => secOfTile x.1 && stackOf x.1.target = st)
      let more := s.boot.amended.filter (fun x => secOfTile x && stackOf x.target = st)
      let s1 := ((s.stackEmpty st).stackRoll st).putAll l
      let s2 := (more.foldl State.putUpdate s1).putCopies l
      if !s2.capacityOk im || (s2.loadCode im l).isSome then none
      else
        match s2.stackDirectives st s2.imageDirectives with
        | none => none
        | some s3 =>
          if (s3.stackTiles st).any (fun t => !s3.columnOk t) then none
          else some ((s3.stackTiles st).foldl State.restRecords s3)

/-- A directive of the stack waits for its source (R261, R314). -/
def State.stackWaits (s : State) (st : Nat) : Bool :=
  s.imageDirectives.any (fun d => (s.bulkDests d.1.w0 d.1.w2).any (fun t => stackOf t = st) && !s.sourceReady d.1)

/-! ### RESET_COMPLETE (R292, R294, R298) -/

/-- Domain d is ACTIVE: its second notice, and its command's completion; an update that came meanwhile starts, and an
amendment that waited for the domain may complete. -/
def State.enterActive (s : State) (d : Nat) : State :=
  let s1 := ((s.fenceMove d .active).notify d 0).fenceDone d .done
  (if (s1.fence d).staged.isEmpty then s1 else s1.updateStart d).amendCheck

/-- The tiles of a domain return. -/
def State.tilesReturn (s : State) (d : Nat) (ts : List Nat) : State :=
  let s1 := ts.foldl (fun s t => (s.turnsWithout t).tileBack t) s
  ts.foldl State.tileGoesOn (s1.enterActive d)

/-- A stack that cannot be brought back stays FENCED (R314). -/
def State.stackFails (s : State) (d : Nat) : State := (s.fenceMove d .fenced).fenceDone d .failedUncorrectable

/-- The tiles of a stack that were running before its fence. -/
def State.ownTiles (s : State) (st : Nat) : List Nat := (s.stackTiles st).filter (fun t => s.domActive (tileDom t))

/-- RESET_COMPLETE: domain dom returns to ACTIVE once it can. -/
def execResetComplete (dom : Nat) (s : State) : Host.Outcome State Fault Refusal :=
  if s.domState dom ≠ .reset then .next s
  else
    match s.domClass dom with
    | some 0 => .next ((s.tileReset (dom - 0x800)).tilesReturn dom [dom - 0x800])
    | some 1 =>
      let st := dom - 0x040
      if s.stackWaits st && (s.fence dom).ok then .next s
      else
        match s.stackBoot st with
        | none => .next (s.stackFails dom)
        | some s1 => .next ((s1.modFence dom (fun f => { f with lost := false })).tilesReturn dom (s1.ownTiles st))
    | some 9 => .next ((s.enterActive dom).portResume (dom - 0x020))
    | some 8 =>
      let k := dom - 0x010
      if (s.span k).state = 2 || !s.spanTrains k then .next (s.enterActive dom) else .next s
    | some 5 => .next (State.enterActive { s with pool.dir := [] } dom)
    | some 6 => .next (s.traceReset.enterActive dom)
    | _ => .next s

/-! ### Stack loss (R313) -/

/-- What the stack holds goes without a record of its own: tiles' work, router buffers, volleys and messages within it. -/
def State.stackForget (s : State) (st : Nat) : State :=
  let inside := fun (k : Nat) => (k < 2048 && stackOf k = st) || k = rootKey st
  { s with
    tiles := s.tiles.map (fun (e : Nat × Tile) =>
      if stackOf e.1 = st then
        (e.1, { e.2.emptied with openVols := [], stalled := [], chainOut := [], pace := { e.2.pace with waiting := [] } })
      else e)
    fab.routers := s.fab.routers.map (fun (e : Nat × Router) =>
      if physStack (e.1 % 32) (e.1 / 32) = st then (e.1, { e.2 with bufs := [] }) else e)
    fab.inbox := s.fab.inbox.filter (fun e => !inside e.1)
    fab.mail := s.fab.mail.filter (fun m => !inside m.dst)
    flt.notices := s.flt.notices.filter (fun e => !inside e.1) }

/-- One DOMAIN record for each world with state in the stack. -/
def State.stackRecords (s : State) (st : Nat) : State :=
  ((s.tmp.worlds.filter (fun e => (s.holders e.1).any (fun t => stackOf t = st))).map (·.1)).foldl (fun s w =>
    s.pushLoss { code := .failedFenced, kind := 0x8, w := some w, reporter := s.hubReporter, a := 0,
                 b := BitVec.ofNat 64 (stackDom st), ext := none, stamp := none, sampled := false }) s

/-- The stack's domain goes straight to FENCED, as a fence of its own where none was in progress. -/
def State.stackFenced (s : State) (st : Nat) : State :=
  let d := stackDom st
  let q := (s.flt.fenceSeq + 1) % 2 ^ 32
  let s1 : State :=
    if s.domActive d then
      State.modFence { s with flt.fenceSeq := q, flt.fenceCount := sat 16 s.flt.fenceCount 1 } d (fun f =>
        { f with seq := q, losses := 0, cmd := none, reset := false })
    else s
  ((s1.modFence d (fun f => { f with lost := true, ok := true })).postFault 2 d st).fenceMove d .fenced

/-- A flip in progress takes the stack's totals as given, and waits for no acknowledgement of it (R145, R146). -/
def State.flipWithout (s : State) (st : Nat) : State :=
  let s1 : State := { s with
    hub.epoch.lost := if s.hub.epoch.state = 0 then s.hub.epoch.lost else st :: s.hub.epoch.lost
    tmp.worlds := s.tmp.worlds.map (fun (e : Nat × World) => (e.1, { e.2 with flipAcks := e.2.flipAcks.filter (· ≠ st) })) }
  s1.drainCheck

/-- STACK_LOST (R313). A FENCE of the stack in its drain goes on from FENCED; a RESUME in its RESET has failed. -/
def execStackLost (st : Nat) (s : State) : Host.Outcome State Fault Refusal :=
  let d := stackDom st
  if !s.isReady || !s.stackPresent st || s.boot.absentStacks.contains st || s.stackIsLost st then .next s
  else
    let s1 := ((s.stackFenced st).stackRecords st).stackForget st
    let s2 := (({ s1 with flt.stackLost := s1.flt.stackLost ||| BitVec.ofNat 16 (2 ^ st) } : State).notify d 2).flipWithout st
    match s.domState d with
    | .reset => .next (s2.fenceDone d .failedUncorrectable)
    | .draining => .next (if (s.fence d).reset then s2.enterReset d else s2.fenceDone d .done)
    | _ => .next s2

end Sys2Proof.Machine
end

