-- ==== Sys2Proof/Machine/Steward.lean ====
section
/-! DEFINITION. Steward resets and the restart (R15, R217, R238, R265, R311; log 61). -/

namespace Sys2Proof.Machine

open Sys2Proof

/-- The command is the amendment in hand, past its commit: it completes without the steward (R268). -/
def State.isCommitted (s : State) (c : ExecCmd) : Bool :=
  s.boot.amending.any (fun a => a.committed && a.rk = c.rk && a.seq = c.seq)

/-- The commands in the steward's execution fail (R215, R311). -/
def State.stewardFails (s : State) : State :=
  (s.hub.executing.filter (fun c => opUnit c.op = 2 && !s.isCommitted c)).foldl (fun s c => s.complete c .failedStewardReset []) s

/-- The steward resets with a cause: it wakes the hub domain (R15, R284), an amendment before its commit has no effect,
the commands in its execution fail, and armed outputs enter HOLD (R238, R311). Fences, tempo, tiles, racks, pips and the
gateway run on. -/
def State.stewardDown (s : State) (cause : Nat) : State :=
  if !s.isReady || s.flt.stwReset then s
  else
    let s1 := (s.wakeDom 1 8 0).stewardFails
    let s2 : State := { s1 with flt.stwReset := true, flt.stwResets := sat 16 s1.flt.stwResets 1,
                                boot.amending := s1.boot.amending.filter (·.committed) }
    (s2.eachOut (fun _ => true) Port.holdSafe).postFault 5 2 cause

/-- The register address of HUB_STW. -/
def hubStw : Nat := 0x3050

/-- STEWARD_RESET: a write of HUB_STW.reset. -/
def execStewardReset (m : Nat) (v : Word) (s : State) : Host.Outcome State Fault Refusal :=
  ownReg m hubStw .admin (fun s => some (if v.getLsbD 16 then s.stewardDown 2 else s)) s

/-- STEWARD_WATCHDOG: 10 ms without a heartbeat. -/
def execStewardWatchdog (s : State) : Host.Outcome State Fault Refusal := .next (s.stewardDown 0)

/-- STEWARD_MEMORY_ERROR: an uncorrectable error in steward memory. -/
def execStewardMemoryError (s : State) : Host.Outcome State Fault Refusal := .next (s.stewardDown 1)

/-- The STEWARD section of an image. -/
def stewardSection (im : Option Image) : Option Section :=
  match im with
  | some i => i.sections.find? (fun x => isSteward x.data)
  | none => none

/-- The STEWARD section in the slot that booted has the digest held from step 1 (R265). -/
def State.stewardLoads (s : State) : Bool :=
  match stewardSection s.boot.image, stewardSection (slotImage s.boot.env.nvm s.boot.slot) with
  | some held, some read => decide (Config.sectionDigest read.data = held.digest)
  | _, _ => false

/-- STEWARD_RESTART: the boot engine reloads and checks the STEWARD section and restarts the steward, which applies the
drain sums that the hub core kept; on a digest failure it stays in reset, and a STEWARD entry says so (R265, R311). -/
def execStewardRestart (s : State) : Host.Outcome State Fault Refusal :=
  if !s.isReady || !s.flt.stwReset then .next s
  else if !s.stewardLoads then .next (s.bootLog 0x0F none)
  else
    let n := s.hub.epoch.heldSum
    let s1 : State := { s with flt.stwReset := false, hub.epoch.heldSum := 0 }
    .next ((((s1.postFault 6 2 0).bootLog 0x46 none).drainAdd n).drainCheck)

end Sys2Proof.Machine
end

