-- ==== Sys2Proof/Machine/Amend.lean ====
section
/-! DEFINITION. Amendments: what each section may change, the checks, the commit and the application (R22, R24, R35, R98,
R144, R165, R208, R209, R242, R266 to R268, R306; log 60). -/

namespace Sys2Proof.Machine

open Sys2Proof

/-! ### Where a section goes (R266) -/

/-- A fan-out or schedule bank that holds byte a of tile t's column: none, or its bank. -/
def State.columnBank (s : State) (t a : Nat) : Option Bool :=
  ((s.regions t).find? (fun r => 6 ≤ r.1 && r.1 ≤ 9 && r.2.1 ≤ a && a < r.2.1 + r.2.2)).map (fun r => r.1 = 7 || r.1 = 9)

/-- The bank that a banked section writes. -/
def State.bankOf (s : State) (x : Section) : Option Bool :=
  match x.data with
  | .hubSchedule _ => some (x.param.getLsbD 0)
  | .tileDetour _ => some (x.param.getLsbD 0)
  | .tileColumn _ => s.columnBank x.target (128 * fb x.param.toNat 20 0)
  | _ => none

/-- The section is an update of its tile. -/
def tileUpdate : SectionData → Bool
  | .tileModels .. => true
  | .tileStore _ => true
  | .tileConfig _ => true
  | .tileRowdir _ => true
  | .tileStateBlocks _ => true
  | .tileColumn _ => true
  | _ => false

/-- The ports whose input channels use the destination table. -/
def State.destPorts (s : State) : List Nat := (s.ports.filter (fun e => !e.2.cfg.chans.isEmpty)).map (·.1)

/-- The domains that take a section as an update; none for a section that takes effect at commit. -/
def State.updateDoms (s : State) (x : Section) : List Nat :=
  if secOfTile x then
    (if tileUpdate x.data && (s.bankOf x).isNone && s.tilePresent x.target then [tileDom x.target] else [])
  else
    match x.data with
    | .ports _ => [portDom x.target]
    | .portDest _ => s.destPorts.map portDom
    | _ => []

/-! ### What a section may change (R266) -/

/-- A live world keeps its turn length and gate, and has a source. -/
def keepsTurns (x : World) (e : WorldEntry) : Bool :=
  let y := x.load e
  x.st = .free
    || (y.turnLenM1 = x.turnLenM1 && y.gateEn = x.gateEn && y.turnPip = x.turnPip && fb e.w0.toNat 2 0 ≠ 0)

/-- The section is of the kinds that an amendment carries, and changes what it may. `sh`: the state with the amendment. -/
def State.amendable (s sh : State) (x : Section) : Bool :=
  match x.data with
  | .access _ => true
  | .worldTable es _ => es.all (fun e => keepsTurns (s.world e.1) e.2)
  | .pips _ => true
  | .racks rs sets => rs.all (fun r => !(s.rack r.rack).enabled) && sets.all (fun c => (s.rackSet c.set).members.isEmpty)
  | .rackBindings bs => bs.all (fun e => tget 0 e.1 s.racks.bindings = 0)
  | .hubSchedule _ => sh.bankOf x = some (!s.hub.epoch.current)
  | .tileDetour _ => sh.bankOf x = some (!s.hub.epoch.current)
  | .tileColumn _ => x.offset ≠ 0 && sh.bankOf x ≠ some s.hub.epoch.current
  | .tileConfig c => decide ({ c with rules := (s.tile x.target).cfg.rules } = (s.tile x.target).cfg)
  | .tileModels .. => true
  | .tileStore _ => true
  | .tileRowdir _ => true
  | .tileStateBlocks _ => true
  | .ports _ => true
  | .portDest _ => true
  | .learn .. => true
  | .trace _ => true
  | .power _ => true
  | .pool c => c.mgroups = s.pool.mgroups && c.members = s.pool.members && c.spare = s.pool.spare && c.floorPct = s.pool.floorPct
  | _ => false

/-! ### Taking effect (R24, R165, R208, R266) -/

/-- A world table entry: a FREE world takes it as STANDBY, a STANDBY world its source, owner, tether, lag and scale now,
any other at its next turn boundary. -/
def State.amendWorld (s : State) (w : Nat) (e : WorldEntry) : State :=
  match (s.world w).st with
  | .free => s.putWorld w e
  | .standby => s.modWorld w (fun x => x.amend e)
  | _ => s.modWorld w (fun x => { x with staged := some e })

/-- A section that takes effect at commit. A pip's waiters are evaluated again. -/
def State.amendPut (s : State) (x : Section) : State :=
  match x.data with
  | .worldTable es pin =>
    let s1 := es.foldl (fun s e => s.amendWorld e.1 e.2) s
    { s1 with aon.pinCfg := pin.getD s1.aon.pinCfg }
  | .pips ps => ps.foldl (fun s e => s.wakeWaiters e.1) (s.putSection x)
  | .pool c => s.putWindows c
  | _ => s.putSection x

/-- The state with a section in place at once: what the checks read. -/
def State.amendShadow (s : State) (x : Section) : State :=
  if s.skips x then s
  else
    match x.data with
    | .worldTable es pin =>
      let s1 := es.foldl (fun s e =>
        if (s.world e.1).st = .free then s.putWorld e.1 e.2 else s.modWorld e.1 (fun y => y.amend e.2)) s
      { s1 with aon.pinCfg := pin.getD s1.aon.pinCfg }
    | _ => s.putSection x

def State.shadow (s : State) (im : Image) : State := (loadOrder im.sections).foldl (fun s x => s.amendShadow x.1) s

/-! ### Checks (R96, R99, R117, R129, R245 to R248, R266) -/

/-- What the section changes leaves a column, a detour bank or a tile that feeds on it within the load rules. -/
def State.wholeOk (sh : State) (x : Section) : Bool :=
  match x.data with
  | .tileDetour _ => sh.bankOk (x.param.getLsbD 0)
  | .learn .. => sh.tiles.all (fun e => !sh.tilePresent e.1 || sh.columnOk e.1)
  | .portDest _ => sh.tiles.all (fun e => !sh.tilePresent e.1 || sh.columnOk e.1)
  | _ => !secOfTile x || sh.columnOk x.target

/-- A section is refused with this code; one that targets an absent column is skipped. -/
def State.amendCode (s sh : State) (im : Image) (x : Section) : Option Nat :=
  if badDigest x then some 6
  else if !s.amendable sh x then some 7
  else if s.skips x then none
  else sh.sectionCode im x <|> fmt (sh.wholeOk x)

/-- The amendment is refused: the section's index, none where no section is at fault, and the code. -/
def State.amendRefusal (s : State) (im : Image) : Option (Option Nat × Nat) :=
  if headerCode s im 0x3141424C ≠ 0 || im.baseImageId ≠ s.boot.imageId then some (none, 2)
  else if keyCode s im ≠ 0 then some (none, keyCode s im)
  else if im.secVersion < s.fuses.floor || im.amendSeq ≤ s.boot.amendSeq then some (none, 5)
  else
    let sh := s.shadow im
    (loadOrder im.sections).findSome? (fun x => (s.amendCode sh im x.1).map (fun c => (some x.2, c)))

/-- A banked section meets a flip in progress. -/
def State.bankedBusy (s : State) (im : Image) : Bool :=
  s.hub.epoch.state ≠ 0 && im.sections.any (fun x => ((s.shadow im).bankOf x).isSome)

/-! ### AMEND (R267) -/

/-- The arguments name a source that AMEND defines: POOL and HOST carry their address word. -/
def amendArgs (c : ExecCmd) : Bool :=
  let k := wf (c.words.getD 1 0) 3 0
  k = 3 || ((k = 1 || k = 2) && 3 ≤ c.words.length)

/-- The refusal: FAILED_ACCESS with code and section index, BOOT_AMEND_STATE and the log. Where no section is at fault, the
index is a free value (log 9). -/
def State.amendRefused (s : State) (c : ExecCmd) (ix : Option Nat) (code : Nat) : State :=
  let i := ix.getD (Config.freeIndex s.freeCtr) % 2 ^ 16
  ((State.bootLog { s with boot.refSection := i % 2 ^ 8, boot.refCode := code, freeCtr := s.freeCtr + b2n ix.isNone } 0x45
    (some i)).complete c .failedAccess [BitVec.ofNat 64 (code + i * 2 ^ 16)])

/-- AMEND: the fetched amendment `am`, none where the fetch fails, is checked, and waits for its commit (R267, R268). -/
def execAmend (rk seq : Nat) (am : Option Image) (s : State) : Host.Outcome State Fault Refusal :=
  runCmd 0x11 (fun _ => true) (fun s c =>
    if !s.has c.src .bootBlock .admin || !amendArgs c then s.complete c .failedAccess []
    else if 4 ≤ c.words.length && wf (c.words.getD 3 0) 31 0 = s.boot.amendSeq then s.complete c .repeated []
    else if s.boot.amending.isSome then s.complete c .busy []
    else
      match am with
      | none => s.amendRefused c none 0x0C
      | some im =>
        match s.amendRefusal im with
        | some (i, code) => s.amendRefused c i code
        | none =>
          if s.bankedBusy im then s.complete c .busy []
          else if wf (c.words.getD 1 0) 10 10 = 1 then
            s.complete c .done [BitVec.ofNat 64 (im.amendSeq % 2 ^ 32 + im.sections.length % 2 ^ 16 * 2 ^ 32)]
          else
            State.begun { s with boot.amending := some { rk := c.rk, seq := c.seq, im := im, committed := false, doms := [] } } c)
    rk seq s

/-! ### AMEND_COMMIT (R268) -/

/-- A section takes effect, or is staged with the domains that take it as an update. `sh`: the state with the amendment,
by which a column section is told to be banked. -/
def State.amendTake (s sh : State) (x : Section) : State :=
  if s.skips x then s.bootLog 0x43 (some (stackOf x.target * 256 + tileX x.target % 8))
  else
    match sh.updateDoms x with
    | [] =>
      let s1 := s.amendPut x
      if (sh.bankOf x).isSome then { s1 with hub.epoch.loaded := true } else s1
    | ds => ds.foldl (fun s d => s.stageUpdate d [x]) s

/-- A port's update starts at once, a tile's where no RUNNING world holds the tile; otherwise at the next turn boundary
(R98, R242, R266). -/
def State.amendStart (s : State) (d : Nat) : State :=
  if d < 0x800 || s.tileStill (d - 0x800) then s.updateStart d else s

/-- The commit of amendment a. -/
def State.amendCommitted (s : State) (a : Amending) : State :=
  let sh := s.shadow a.im
  let l := (loadOrder a.im.sections).map (·.1)
  let ds := (l.flatMap sh.updateDoms).eraseDups
  let s1 : State := { s with boot.amending := some { a with committed := true, doms := ds }, boot.amendSeq := a.im.amendSeq,
                             boot.amended := s.boot.amended ++ l }
  let s2 := l.foldl (fun s x => s.amendTake sh x) s1
  ((ds.foldl State.amendStart s2).bootLog 0x44 (some a.im.amendSeq)).amendCheck

/-- AMEND_COMMIT: the steward hands the commit list to the boot engine, which completes the amendment. -/
def execAmendCommit (s : State) : Host.Outcome State Fault Refusal :=
  match s.boot.amending with
  | none => .next s
  | some a => if a.committed || s.flt.stwReset then .next s else .next (s.amendCommitted a)

end Sys2Proof.Machine
end

