-- ==== Sys2Proof/Machine/Gambit.lean ====
section
/-! DEFINITION. The meanings of the gambit instructions, executed by a tile's engine on its run (R82 to R92, R97). Only
CMP and CMPI change N and Z. -/

namespace Sys2Proof.Machine

open Sys2Proof

/-- A draw of RAND into rd: the first of a run seeds the LFSR (R88). -/
def Run.draw (r : Run) (x : Tile) (rd : BitVec 3) (n : Nat) : GStep :=
  let l := lfsrRun 32 (r.lfsr.getD (lfsrSeed x.seed r.w r.neuron r.now))
  ({ r with lfsr := some l } : Run).put rd (randBits l n)

/-- WAKE keeps its last d above 0 (R91). -/
def Run.askWake (r : Run) (d : Nat) : Run := if d = 0 then r else { r with wake := some d }

/-- The emission request of an EMIT whose condition holds; a later one is ignored (R89, R90). -/
def Run.askEmit (r : Run) (v : Nat) (learn : Bool) : Run :=
  if r.emit.isSome then r else { r with emit := some (v, learn) }

/-- NOP (R83). -/
def execGNop (t : Nat) (s : State) : Host.Outcome State Fault Refusal :=
  gExec (.gNop t) t (fun _ _ => 1) (fun _ r =>
    r.step) s

/-- MOV: rd := ra (R83). -/
def execGMov (t : Nat) (rd : BitVec 3) (ra : BitVec 3) (s : State) : Host.Outcome State Fault Refusal :=
  gExec (.gMov t rd ra) t (fun _ _ => 1) (fun _ r =>
    r.put rd (r.reg ra)) s

/-- MOVI: rd := sext(imm17) (R83). -/
def execGMovi (t : Nat) (rd : BitVec 3) (imm : BitVec 17) (s : State) : Host.Outcome State Fault Refusal :=
  gExec (.gMovi t rd imm) t (fun _ _ => 1) (fun _ r =>
    r.put rd (sext17 imm)) s

/-- MOVHI: rd := (imm16 << 16) | (rd & 0xFFFF) (R83). -/
def execGMovhi (t : Nat) (rd : BitVec 3) (imm : BitVec 16) (s : State) : Host.Outcome State Fault Refusal :=
  gExec (.gMovhi t rd imm) t (fun _ _ => 1) (fun _ r =>
    r.put rd (imm ++ (r.reg rd).extractLsb' 0 16)) s

/-- LDP: rd := P[k] of the running model (R83). -/
def execGLdp (t : Nat) (rd : BitVec 3) (k : BitVec 4) (s : State) : Host.Outcome State Fault Refusal :=
  gExec (.gLdp t rd k) t (fun _ _ => 1) (fun x r =>
    r.put rd (mdParam (tget [] r.slot x.models) k.toNat)) s

/-- LDF: rd := field of the record buffer, sign-extended if s (R83). -/
def execGLdf (t : Nat) (rd : BitVec 3) (pos : BitVec 7) (wm1 : BitVec 5) (sx : Bool) (s : State) : Host.Outcome State Fault Refusal :=
  gExec (.gLdf t rd pos wm1 sx) t (fun _ _ => 1) (fun _ r =>
    r.put rd (ldField r.buf pos.toNat (wm1.toNat + 1) sx)) s

/-- STF: field := ra, clamped if sat (R81, R83). -/
def execGStf (t : Nat) (ra : BitVec 3) (pos : BitVec 7) (wm1 : BitVec 5) (sat : Bool) (s : State) : Host.Outcome State Fault Refusal :=
  gExec (.gStf t ra pos wm1 sat) t (fun _ _ => 1) (fun _ r =>
    ({ r with buf := stField r.buf pos.toNat (wm1.toNat + 1) (r.reg ra) sat } : Run).step) s

/-- ADD: 32-bit, wraps (R81, R83). -/
def execGAdd (t : Nat) (rd : BitVec 3) (ra : BitVec 3) (rb : BitVec 3) (s : State) : Host.Outcome State Fault Refusal :=
  gExec (.gAdd t rd ra rb) t (fun _ _ => 1) (fun _ r =>
    r.put rd (r.reg ra + r.reg rb)) s

/-- SUB: 32-bit, wraps (R81, R83). -/
def execGSub (t : Nat) (rd : BitVec 3) (ra : BitVec 3) (rb : BitVec 3) (s : State) : Host.Outcome State Fault Refusal :=
  gExec (.gSub t rd ra rb) t (fun _ _ => 1) (fun _ r =>
    r.put rd (r.reg ra - r.reg rb)) s

/-- ADDS: sat24(ra + rb) (R81, R83). -/
def execGAdds (t : Nat) (rd : BitVec 3) (ra : BitVec 3) (rb : BitVec 3) (s : State) : Host.Outcome State Fault Refusal :=
  gExec (.gAdds t rd ra rb) t (fun _ _ => 1) (fun _ r =>
    r.put rd (sat24w ((r.reg ra).toInt + (r.reg rb).toInt))) s

/-- SUBS: sat24(ra − rb) (R81, R83). -/
def execGSubs (t : Nat) (rd : BitVec 3) (ra : BitVec 3) (rb : BitVec 3) (s : State) : Host.Outcome State Fault Refusal :=
  gExec (.gSubs t rd ra rb) t (fun _ _ => 1) (fun _ r =>
    r.put rd (sat24w ((r.reg ra).toInt - (r.reg rb).toInt))) s

/-- ADDI: wraps (R81, R83). -/
def execGAddi (t : Nat) (rd : BitVec 3) (ra : BitVec 3) (imm : BitVec 17) (s : State) : Host.Outcome State Fault Refusal :=
  gExec (.gAddi t rd ra imm) t (fun _ _ => 1) (fun _ r =>
    r.put rd (r.reg ra + sext17 imm)) s

/-- ADDSI: sat24(ra + sext(imm17)) (R81, R83). -/
def execGAddsi (t : Nat) (rd : BitVec 3) (ra : BitVec 3) (imm : BitVec 17) (s : State) : Host.Outcome State Fault Refusal :=
  gExec (.gAddsi t rd ra imm) t (fun _ _ => 1) (fun _ r =>
    r.put rd (sat24w ((r.reg ra).toInt + (sext17 imm).toInt))) s

/-- MIN, signed (R83). -/
def execGMin (t : Nat) (rd : BitVec 3) (ra : BitVec 3) (rb : BitVec 3) (s : State) : Host.Outcome State Fault Refusal :=
  gExec (.gMin t rd ra rb) t (fun _ _ => 1) (fun _ r =>
    r.put rd (minReg (r.reg ra) (r.reg rb))) s

/-- MAX, signed (R83). -/
def execGMax (t : Nat) (rd : BitVec 3) (ra : BitVec 3) (rb : BitVec 3) (s : State) : Host.Outcome State Fault Refusal :=
  gExec (.gMax t rd ra rb) t (fun _ _ => 1) (fun _ r =>
    r.put rd (maxReg (r.reg ra) (r.reg rb))) s

/-- AND (R83). -/
def execGAnd (t : Nat) (rd : BitVec 3) (ra : BitVec 3) (rb : BitVec 3) (s : State) : Host.Outcome State Fault Refusal :=
  gExec (.gAnd t rd ra rb) t (fun _ _ => 1) (fun _ r =>
    r.put rd (r.reg ra &&& r.reg rb)) s

/-- OR (R83). -/
def execGOr (t : Nat) (rd : BitVec 3) (ra : BitVec 3) (rb : BitVec 3) (s : State) : Host.Outcome State Fault Refusal :=
  gExec (.gOr t rd ra rb) t (fun _ _ => 1) (fun _ r =>
    r.put rd (r.reg ra ||| r.reg rb)) s

/-- XOR (R83). -/
def execGXor (t : Nat) (rd : BitVec 3) (ra : BitVec 3) (rb : BitVec 3) (s : State) : Host.Outcome State Fault Refusal :=
  gExec (.gXor t rd ra rb) t (fun _ _ => 1) (fun _ r =>
    r.put rd (r.reg ra ^^^ r.reg rb)) s

/-- SHLI (R83). -/
def execGShli (t : Nat) (rd : BitVec 3) (ra : BitVec 3) (sh : BitVec 5) (s : State) : Host.Outcome State Fault Refusal :=
  gExec (.gShli t rd ra sh) t (fun _ _ => 1) (fun _ r =>
    r.put rd (r.reg ra <<< sh.toNat)) s

/-- SHRI, arithmetic (R83). -/
def execGShri (t : Nat) (rd : BitVec 3) (ra : BitVec 3) (sh : BitVec 5) (s : State) : Host.Outcome State Fault Refusal :=
  gExec (.gShri t rd ra sh) t (fun _ _ => 1) (fun _ r =>
    r.put rd ((r.reg ra).sshiftRight sh.toNat)) s

/-- SHRLI, logical (R83). -/
def execGShrli (t : Nat) (rd : BitVec 3) (ra : BitVec 3) (sh : BitVec 5) (s : State) : Host.Outcome State Fault Refusal :=
  gExec (.gShrli t rd ra sh) t (fun _ _ => 1) (fun _ r =>
    r.put rd (r.reg ra >>> sh.toNat)) s

/-- DECZ: max(ra − rb, 0), the difference wrapped (R81, R83). -/
def execGDecz (t : Nat) (rd : BitVec 3) (ra : BitVec 3) (rb : BitVec 3) (s : State) : Host.Outcome State Fault Refusal :=
  gExec (.gDecz t rd ra rb) t (fun _ _ => 1) (fun _ r =>
    r.put rd (decz (r.reg ra) (r.reg rb))) s

/-- MULQ: sat24(round(ra × rb, sh)) (R81, R83). -/
def execGMulq (t : Nat) (rd : BitVec 3) (ra : BitVec 3) (rb : BitVec 3) (sh : BitVec 5) (s : State) : Host.Outcome State Fault Refusal :=
  gExec (.gMulq t rd ra rb sh) t (fun _ _ => 2) (fun _ r =>
    r.put rd (mulq (r.reg ra).toInt (r.reg rb).toInt sh.toNat)) s

/-- MULQI: sat24(round(ra × sext(imm12), sh)) (R81, R83). -/
def execGMulqi (t : Nat) (rd : BitVec 3) (ra : BitVec 3) (imm : BitVec 12) (sh : BitVec 5) (s : State) : Host.Outcome State Fault Refusal :=
  gExec (.gMulqi t rd ra imm sh) t (fun _ _ => 2) (fun _ r =>
    r.put rd (mulq (r.reg ra).toInt imm.toInt sh.toNat)) s

/-- LEAK (R83, R87). -/
def execGLeak (t : Nat) (rd : BitVec 3) (ra : BitVec 3) (rb : BitVec 3) (table : BitVec 3) (s : State) : Host.Outcome State Fault Refusal :=
  gExec (.gLeak t rd ra rb table) t (fun x r => leakHc (tget [] table.toNat x.leaks) (r.reg rb).toInt) (fun x r =>
    r.put rd (toReg (leak (tget [] table.toNat x.leaks) (r.reg ra).toInt (r.reg rb).toInt))) s

/-- CMP: N and Z from the exact difference (R83). -/
def execGCmp (t : Nat) (ra : BitVec 3) (rb : BitVec 3) (s : State) : Host.Outcome State Fault Refusal :=
  gExec (.gCmp t ra rb) t (fun _ _ => 1) (fun _ r =>
    ({ r with n := cmpN (r.reg ra) (r.reg rb), z := cmpZ (r.reg ra) (r.reg rb) } : Run).step) s

/-- CMPI: as CMP with sext(imm17) (R83). -/
def execGCmpi (t : Nat) (ra : BitVec 3) (imm : BitVec 17) (s : State) : Host.Outcome State Fault Refusal :=
  gExec (.gCmpi t ra imm) t (fun _ _ => 1) (fun _ r =>
    ({ r with n := cmpN (r.reg ra) (sext17 imm), z := cmpZ (r.reg ra) (sext17 imm) } : Run).step) s

/-- B: to the absolute address target if cond holds (R83, R84). -/
def execGB (t : Nat) (cond : BitVec 3) (target : BitVec 9) (s : State) : Host.Outcome State Fault Refusal :=
  gExec (.gB t cond target) t (fun _ r => if condHolds cond r.n r.z r.i then 2 else 1) (fun _ r =>
    if condHolds cond r.n r.z r.i then .goOn { r with pc := target.toNat } else r.step) s

/-- RAND: the next draw of n bits (R83, R88). -/
def execGRand (t : Nat) (rd : BitVec 3) (n : BitVec 5) (s : State) : Host.Outcome State Fault Refusal :=
  gExec (.gRand t rd n) t (fun _ r => if r.lfsr.isSome then 1 else 3) (fun x r =>
    r.draw x rd n.toNat) s

/-- EMIT: requests an emission if cond holds, and ends the run if end is set (R83, R89, R90). -/
def execGEmit (t : Nat) (cond : BitVec 3) (ra : BitVec 3) (bin : Bool) (learn : Bool) (fin : Bool) (s : State) : Host.Outcome State Fault Refusal :=
  let again : Bool := match (s.tile t).run with
    | some r => condHolds cond r.n r.z r.i && r.emit.isSome && decodeGambit t (tget 0 r.pc (s.tile t).store) =
        some (.gEmit t cond ra bin learn fin) && r.steps < (s.tile t).stepLimit r && !(s.tile t).badStore.contains r.pc
    | none => false
  let s1 := if again then s.modTile t (fun x => { x with gbEmit2 := sat 32 x.gbEmit2 1 }) else s
  gExec (.gEmit t cond ra bin learn fin) t (fun _ _ => 1) (fun _ r =>
    let r1 := if condHolds cond r.n r.z r.i then r.askEmit (if bin then 1 else clampByte (r.reg ra)) learn else r
    if fin then .done r1 else r1.step) s1

/-- WAKE: requests an update at now + d; d = 0 does nothing (R91). -/
def execGWake (t : Nat) (ra : BitVec 3) (useImm : Bool) (imm : BitVec 6) (s : State) : Host.Outcome State Fault Refusal :=
  gExec (.gWake t ra useImm imm) t (fun _ _ => 1) (fun _ r =>
    (r.askWake (if useImm then imm.toNat else (r.reg ra).toNat % 64)).step) s

/-- END: the run completes (R83). -/
def execGEnd (t : Nat) (s : State) : Host.Outcome State Fault Refusal :=
  gExec (.gEnd t) t (fun _ _ => 1) (fun _ r =>
    .done r) s

/-- GAMBIT_STEP_OVERRUN: the run has executed step_limit instructions without completing, and is abandoned (R97). -/
def execGambitStepOverrun (t : Nat) (s : State) : Host.Outcome State Fault Refusal :=
  match (s.tile t).run with
  | none => .next s
  | some r => if (s.tile t).stepLimit r ≤ r.steps then .next (s.abandonRun t r 1) else .next s

end Sys2Proof.Machine
end

