-- ==== Sys2Proof/Machine/Link.lean ====
section
/-! DEFINITION. CXL links, logical devices and the HDM aperture: training, drops, resets, FM API, host lines (R39, R174,
R192 to R198, R216 to R219). -/

namespace Sys2Proof.Machine

open Sys2Proof

/-! ### The HDM aperture (R171, R174) -/

/-- Why a host access to package address a by master m fails, none when it takes place (R174). -/
def State.hdmCode (s : State) (m a : Nat) (write : Bool) : Option Code :=
  let t := colOf a
  if !s.has m (.tile t) (if write then .admin else .read) || !s.tilePresent t then some .failedAccess
  else if !s.domActive (stackDom (stackOf t)) then some .failedFenced
  else if write && reserveBase ≤ colOff a then some .failedAccess
  else if !write && s.mem.anyBad (s.memAddr a) 64 then some .failedUncorrectable
  else none

/-- POOL_HDM_ERR: the first failure since the valid bit was cleared, and the count (R174). -/
def Pool.hdmFail (p : Pool) (c : Code) (a : Nat) : Pool :=
  { p with
    hdmErrValid := true, hdmErrCount := sat 15 p.hdmErrCount 1,
    hdmErrCode := if p.hdmErrValid then p.hdmErrCode else c,
    hdmErrAddr := if p.hdmErrValid then p.hdmErrAddr else a / 2 ^ 7 % 2 ^ 32 }

/-- A failed read returns 64 bytes with poison; their value is free (log 9). -/
def State.hdmPoison (s : State) (m : Nat) (c : Code) : State :=
  ({ s with freeCtr := s.freeCtr + 1 } : State).modMaster m (fun x =>
    { x with resp := { words := lineWords (Config.freeLine s.freeCtr), code := c, poison := true } })

/-- A host access that takes place wakes the stack and its DRAM (R273). -/
def State.hdmWake (s : State) (m a : Nat) : State :=
  ((s.hostWake m).wakeDom (stackDom (stackOf (colOf a))) 1 m).wakeDom (dramDom (stackOf (colOf a))) 1 m

/-- HDM_READ: a line of package DRAM, or poison (R174). -/
def execHdmRead (m line : Nat) (s : State) : Host.Outcome State Fault Refusal :=
  let a := 64 * line
  match s.hdmCode m a false with
  | some c => .next (({ s.hostWake m with pool := s.pool.hdmFail c a } : State).hdmPoison m c)
  | none =>
    .next (((s.hdmWake m a).modTile (colOf a) (fun x =>
      { x with ceDram := sat 16 x.ceDram (s.mem.softCount (s.memAddr a) 64) })).respond m
      (lineWords (s.mem.readLine (s.memAddr a))))

/-- HDM_WRITE: a line of package DRAM is written, or the write is discarded (R174). -/
def execHdmWrite (m line : Nat) (data : BitVec 512) (s : State) : Host.Outcome State Fault Refusal :=
  let a := 64 * line
  match s.hdmCode m a true with
  | some c => .next { s.hostWake m with pool := s.pool.hdmFail c a }
  | none =>
    let s1 := s.hdmWake m a
    .next (({ s1 with mem := s1.mem.writeLine (s.memAddr a) data } : State).respond m [])

/-! ### Snoops and the fabric manager (R193, R197; log 41 for the form of the answers) -/

/-- H2D_SNOOP: the Rhoja holds no host line, and answers RspIHitI. -/
def execH2dSnoop (port addr : Nat) (s : State) : Host.Outcome State Fault Refusal :=
  let _ := addr
  if (s.link port).state = 2 then .next { s with hub.snoopHitI := true } else .next s

/-- The HDM range, 512 GiB (R171). -/
def hdmSize : Nat := 2 ^ 39

/-- SET_LD_ALLOCATIONS: the LD holds the whole range or none; anything else answers Invalid Input. -/
def execSetLdAllocations (ld : Nat) (whole : Option Bool) (s : State) : Host.Outcome State Fault Refusal :=
  match whole with
  | some b =>
    if (s.ld ld).enabled then .next { s.modLd ld (fun l => { l with hdm := b }) with hub.fmResp := [0] }
    else .next { s with hub.fmResp := [2] }
  | none => .next { s with hub.fmResp := [2] }

/-- The enabled LDs of a port. -/
def State.portLds (s : State) (k : Nat) : List Nat :=
  (s.hub.lds.filter (fun e => e.2.enabled && e.2.port = k)).map (·.1)

/-- GET_LD_INFO: the memory size and the number of LDs. -/
def execGetLdInfo (port : Nat) (s : State) : Host.Outcome State Fault Refusal :=
  if (s.link port).state = 2 then .next { s with hub.fmResp := [0, hdmSize, 16] } else .next s

/-- GET_LD_ALLOCATIONS: each LD of the port with the range it holds. -/
def execGetLdAllocations (port : Nat) (s : State) : Host.Outcome State Fault Refusal :=
  if (s.link port).state = 2 then
    .next { s with hub.fmResp := 0 :: (s.portLds port).flatMap (fun n => [n, if (s.ld n).hdm then hdmSize else 0]) }
  else .next s

/-! ### Link drops (R39, R217, R218) -/

/-- Completes with FAILED_LINK the commands at the head of rack rk that a drop has failed, while entries of the completion
rack can be reserved (R217). -/
def State.failHeads (s : State) (rk cpl : Nat) : Nat → State
  | 0 => s
  | n + 1 =>
    match (s.rack rk).msgs with
    | [] => s
    | msg :: _ =>
      let k := tget 0 rk s.hub.failedHeads
      if k = 0 || (s.rack cpl).free = 0 then s
      else
        let t := s.takeCmd rk cpl msg
        (({ t.1 with hub.failedHeads := tset rk (k - 1) t.1.hub.failedHeads } : State).complete t.2 .failedLink []).failHeads rk
          cpl n

/-- The worlds whose HOST source is LD n park with cause HOST_LINK. -/
def State.hostParks (s : State) (n : Nat) : State := (s.sourced 1 n).foldl (fun s w => s.parkWorld w 2) s

/-- A drop of LD n (R217): its worlds park, its commands fail, an amendment before its
commit among them, its staging clears; latches, waiters and racks are kept. -/
def State.dropLd (s : State) (n : Nat) (up : Bool) : State :=
  let l := s.ld n
  let s1 := s.hostParks n
  let s2 := (s1.hub.executing.filter (fun c => c.rk = l.cmdRack)).foldl (fun s c => s.complete c .failedLink []) s1
  let waiting := (s2.rack l.cmdRack).msgs.length
  let s3 : State := { s2 with hub.failedHeads := tset l.cmdRack waiting s2.hub.failedHeads }
  let s4 : State := if s3.boot.amending.any (fun a => a.rk = l.cmdRack && !a.committed) then { s3 with boot.amending := none } else s3
  ((s4.failHeads l.cmdRack l.cplRack waiting).modMaster (4 + n) (fun x => { x with staging := [] })).modLd n (fun x =>
    { x with up := x.up && up, drops := sat 16 x.drops 1 })

/-- DL_Down on port k; pool traffic fails when no other port carries it. -/
def State.dropPort (s : State) (k : Nat) : State :=
  State.poolLinkDown <| (s.portLds k).foldl (fun s n => s.dropLd n false)
    (s.modLink k (fun l => { l with state := 0, width := 0, rate := 0, lopt := false, drops := sat 16 l.drops 1 }))

/-- LINK_DROP: DL_Down on a port, or an FM unbind of one LD. -/
def execLinkDrop (what : LinkTarget) (s : State) : Host.Outcome State Fault Refusal :=
  match what with
  | .port k => if (s.link k).state = 0 then .next s else .next (s.dropPort k)
  | .ld n => if (s.ld n).enabled then .next (s.dropLd n false) else .next s

/-- HOT_RESET: a hot reset or a fundamental reset of a port's link takes the link down; an FLR of one LD leaves the LD
bound to its link. No other part of the package is reset. -/
def execHotReset (what : LinkTarget) (s : State) : Host.Outcome State Fault Refusal :=
  match what with
  | .port k => if (s.link k).state = 0 then .next s else .next (s.dropPort k)
  | .ld n => if (s.ld n).enabled then .next (s.dropLd n true) else .next s

/-- LINK_RECOVERY: Recovery and back to L0 without DL_Down loses nothing, and is counted (R216). -/
def execLinkRecovery (port : Nat) (s : State) : Host.Outcome State Fault Refusal :=
  if 2 ≤ (s.link port).state then .next (s.modLink port (fun l => { l with retrains := sat 16 l.retrains 1 })) else .next s

/-! ### Training (R3, R192, R195, R219, R251) -/

/-- The widest a port may train: the package's limit, x8 without HOST_X16, and the soft-fuse limit. -/
def State.maxWidth (s : State) : Nat :=
  let p := if s.pkg = .rj128 then 4 else if s.charter 6 then 16 else 8
  if s.boot.maxWidth = 0 then p else min p s.boot.maxWidth

def validWidth (n : Nat) : Bool := n = 16 || n = 8 || n = 4 || n = 2 || n = 1

/-- The port may train to this result: a partner without CXL needs the fallback of an RJ-128 whose host table sets it; PCIe
fallback has no latency-optimised flits. -/
def State.mayTrain (s : State) (k width : Nat) (lopt pcie : Bool) : Bool :=
  k < s.pkg.cxlPorts && (s.link k).state < 2 && validWidth width && width ≤ s.maxWidth
    && (!pcie || (s.pkg = .rj128 && (s.ld 0).pcieFallback && !lopt))

/-- CXL_LINK_UP: the port's LDs resume with their rights and per-master state (R219); in fallback only LD0 exists. -/
def execCxlLinkUp (port width : Nat) (fast lopt pcie : Bool) (s : State) : Host.Outcome State Fault Refusal :=
  if s.aon.phase = .running && s.mayTrain port width lopt pcie then
    let s1 := s.modLink port (fun l =>
      { l with state := if pcie then 3 else 2, width := width, rate := if fast then 2 else 1, lopt := lopt })
    let s2 := (s1.portLds port).foldl (fun s n => if pcie && n ≠ 0 then s else s.modLd n (fun l => { l with up := true })) s1
    .next { s2 with pool.linkLost := s2.pool.linkLost && !s2.poolUp }
  else .next s

end Sys2Proof.Machine
end

