-- ==== Sys2Proof/Machine/Supplies.lean ====
section
/-! DEFINITION. Power-up, supply faults and resets of the package: AON_RESET_RELEASE, PWR_GOOD_TIMEOUT, RAIL_RETRY,
SUPPLY_FAULT, RESET_N, ALWAYS_ON_SUPPLY_LOSS (R282, R335 to R339). -/

namespace Sys2Proof.Machine

open Sys2Proof

/-- AON_RESET_RELEASE: the wall counter starts from 0 and RAIL_EN rises (R335). -/
def execAonResetRelease (s : State) : Host.Outcome State Fault Refusal :=
  if s.aon.phase = .aonReset then .next { s with aon.phase := .porAsserted, aon.wall := 0, aon.railEn := true } else .next s

/-- PWR_GOOD_TIMEOUT: RAIL_EN is dropped and the fault counted (R336). -/
def execPwrGoodTimeout (s : State) : Host.Outcome State Fault Refusal :=
  if s.aon.phase = .porAsserted && s.aon.railEn && !s.aon.pwrGood then
    .next { s with aon.phase := .railsDown, aon.railEn := false, aon.railFaults := sat 16 s.aon.railFaults 1 }
  else .next s

/-- RAIL_RETRY: 1 s after such a timeout RAIL_EN is asserted again (R336). -/
def execRailRetry (s : State) : Host.Outcome State Fault Refusal :=
  if s.aon.phase = .railsDown then .next { s with aon.phase := .porAsserted, aon.railEn := true } else .next s

/-- Every output channel is SAFE with no safe frame, and every CANFD transmitter recessive, as HALT_N drives them
(R239, R337). -/
def State.outputsHalt (s : State) : State :=
  { s with ports := s.ports.map (fun e =>
      (e.1, { e.2.eachOut (fun _ => true) (fun p c d => p.enterSafe c d false) with recessive := decide (e.2.cfg.mode = 6) })) }

/-- Power-on reset is asserted while the rails are up: outputs safe, and every switched domain loses its state (R337). -/
def State.porAssert (s : State) : State := { s.outputsHalt.powerLoss with aon.phase := .porAsserted, aon.fromDoldrums := false }

/-- SUPPLY_FAULT: after the release of power-on reset PWR_GOOD falls or REFCLK is lost (R337). -/
def execSupplyFault (s : State) : Host.Outcome State Fault Refusal :=
  if s.aon.phase = .running then
    .next { s.porAssert with aon.pwrGood := false, aon.railFaults := sat 16 s.aon.railFaults 1 }
  else .next s

/-- RESET_N low for `us`, or high again (R339). -/
def execResetN (low : Bool) (us : Nat) (s : State) : Host.Outcome State Fault Refusal :=
  if !low then .next { s with aon.resetLow := false }
  else if us < 10 || s.aon.phase = .aonReset then .next s
  else if s.aon.phase = .running then .next { s.porAssert with aon.resetLow := true }
  else .next { s with aon.resetLow := true }

/-- ALWAYS_ON_SUPPLY_LOSS: the always-on domain loses its state, the warm image with it; hard fuses stay (R282). -/
def execAlwaysOnSupplyLoss (s : State) : Host.Outcome State Fault Refusal :=
  .next { ({} : State) with
    pkg := s.pkg
    fuses := s.fuses
    aon.warm := { ({} : Warm) with cause := 1 }
    freeCtr := s.freeCtr
    pending := s.pending }

end Sys2Proof.Machine
end

