-- ==== Sys2Proof/Machine/Dispatch.lean ====
section
/-! DEFINITION. The command dispatch of the model: one arm per command of the table, each one call of that
command's meaning. -/

namespace Sys2Proof.Machine

open Sys2Proof

def exec (i : Instr) (s : State) : Host.Outcome State Fault Refusal :=
  match i with
  | .advance rk seq => Sys2Proof.Machine.execAdvance rk seq s
  | .groupAdvance rk seq => Sys2Proof.Machine.execGroupAdvance rk seq s
  | .start rk seq => Sys2Proof.Machine.execStart rk seq s
  | .park rk seq => Sys2Proof.Machine.execPark rk seq s
  | .unpark rk seq => Sys2Proof.Machine.execUnpark rk seq s
  | .retire rk seq => Sys2Proof.Machine.execRetire rk seq s
  | .inject rk seq => Sys2Proof.Machine.execInject rk seq s
  | .epochFlip rk seq => Sys2Proof.Machine.execEpochFlip rk seq s
  | .amend rk seq am => Sys2Proof.Machine.execAmend rk seq am s
  | .portRearm rk seq => Sys2Proof.Machine.execPortRearm rk seq s
  | .traceStop rk seq => Sys2Proof.Machine.execTraceStop rk seq s
  | .traceStart rk seq => Sys2Proof.Machine.execTraceStart rk seq s
  | .traceSource rk seq => Sys2Proof.Machine.execTraceSource rk seq s
  | .traceFilter rk seq => Sys2Proof.Machine.execTraceFilter rk seq s
  | .traceTrigger rk seq => Sys2Proof.Machine.execTraceTrigger rk seq s
  | .traceOutput rk seq => Sys2Proof.Machine.execTraceOutput rk seq s
  | .traceClear rk seq => Sys2Proof.Machine.execTraceClear rk seq s
  | .powerSetCap rk seq => Sys2Proof.Machine.execPowerSetCap rk seq s
  | .powerSetDepth rk seq => Sys2Proof.Machine.execPowerSetDepth rk seq s
  | .powerSetDoldrums rk seq => Sys2Proof.Machine.execPowerSetDoldrums rk seq s
  | .fence rk seq => Sys2Proof.Machine.execFence rk seq s
  | .resume rk seq env => Sys2Proof.Machine.execResume rk seq env s
  | .sync rk seq => Sys2Proof.Machine.execSync rk seq s
  | .hostNop rk seq => Sys2Proof.Machine.execHostNop rk seq s
  | .commandDispatch rk => Sys2Proof.Machine.execCommandDispatch rk s
  | .tmpHostAdv m v => Sys2Proof.Machine.execTmpHostAdv m v s
  | .tileClear m t v => Sys2Proof.Machine.execTileClear m t v s
  | .tmpLearnGrp m g v => Sys2Proof.Machine.execTmpLearnGrp m g v s
  | .push m rk hdr => Sys2Proof.Machine.execPush m rk hdr s
  | .pop m rk => Sys2Proof.Machine.execPop m rk s
  | .peek m rk => Sys2Proof.Machine.execPeek m rk s
  | .latch m rk => Sys2Proof.Machine.execLatch m rk s
  | .setPop m set => Sys2Proof.Machine.execSetPop m set s
  | .setPeek m set => Sys2Proof.Machine.execSetPeek m set s
  | .rackAck m rk v => Sys2Proof.Machine.execRackAck m rk v s
  | .pipAdd m v => Sys2Proof.Machine.execPipAdd m v s
  | .pipSet m v => Sys2Proof.Machine.execPipSet m v s
  | .pipTrysub m v => Sys2Proof.Machine.execPipTrysub m v s
  | .pipArrive m v => Sys2Proof.Machine.execPipArrive m v s
  | .pipWait m v => Sys2Proof.Machine.execPipWait m v s
  | .pipCancel m v => Sys2Proof.Machine.execPipCancel m v s
  | .pipTarget m v => Sys2Proof.Machine.execPipTarget m v s
  | .pipMode m v => Sys2Proof.Machine.execPipMode m v s
  | .pipOvfClear m v => Sys2Proof.Machine.execPipOvfClear m v s
  | .poolKeepCfg m v => Sys2Proof.Machine.execPoolKeepCfg m v s
  | .addSpare m v => Sys2Proof.Machine.execAddSpare m v s
  | .reinit m v => Sys2Proof.Machine.execReinit m v s
  | .poolFlush m v => Sys2Proof.Machine.execPoolFlush m v s
  | .hubLossTail m v => Sys2Proof.Machine.execHubLossTail m v s
  | .stewardReset m v => Sys2Proof.Machine.execStewardReset m v s
  | .restart m v => Sys2Proof.Machine.execRestart m v s
  | .loRead m bar2 off size => Sys2Proof.Machine.execLoRead m bar2 off size s
  | .hiRead m off => Sys2Proof.Machine.execHiRead m off s
  | .registerWrite m bar2 off size v => Sys2Proof.Machine.execRegisterWrite m bar2 off size v s
  | .hdmRead m line => Sys2Proof.Machine.execHdmRead m line s
  | .hdmWrite m line data => Sys2Proof.Machine.execHdmWrite m line data s
  | .h2dSnoop port addr => Sys2Proof.Machine.execH2dSnoop port addr s
  | .setLdAllocations ld whole => Sys2Proof.Machine.execSetLdAllocations ld whole s
  | .getLdInfo port => Sys2Proof.Machine.execGetLdInfo port s
  | .getLdAllocations port => Sys2Proof.Machine.execGetLdAllocations port s
  | .linkDrop what => Sys2Proof.Machine.execLinkDrop what s
  | .linkRecovery port => Sys2Proof.Machine.execLinkRecovery port s
  | .hotReset what => Sys2Proof.Machine.execHotReset what s
  | .cxlLinkUp port width fast lopt pcie => Sys2Proof.Machine.execCxlLinkUp port width fast lopt pcie s
  | .gNop t => Sys2Proof.Machine.execGNop t s
  | .gMov t rd ra => Sys2Proof.Machine.execGMov t rd ra s
  | .gMovi t rd imm => Sys2Proof.Machine.execGMovi t rd imm s
  | .gMovhi t rd imm => Sys2Proof.Machine.execGMovhi t rd imm s
  | .gLdp t rd k => Sys2Proof.Machine.execGLdp t rd k s
  | .gLdf t rd pos wm1 sx => Sys2Proof.Machine.execGLdf t rd pos wm1 sx s
  | .gStf t ra pos wm1 sat => Sys2Proof.Machine.execGStf t ra pos wm1 sat s
  | .gAdd t rd ra rb => Sys2Proof.Machine.execGAdd t rd ra rb s
  | .gSub t rd ra rb => Sys2Proof.Machine.execGSub t rd ra rb s
  | .gAdds t rd ra rb => Sys2Proof.Machine.execGAdds t rd ra rb s
  | .gSubs t rd ra rb => Sys2Proof.Machine.execGSubs t rd ra rb s
  | .gAddi t rd ra imm => Sys2Proof.Machine.execGAddi t rd ra imm s
  | .gAddsi t rd ra imm => Sys2Proof.Machine.execGAddsi t rd ra imm s
  | .gMin t rd ra rb => Sys2Proof.Machine.execGMin t rd ra rb s
  | .gMax t rd ra rb => Sys2Proof.Machine.execGMax t rd ra rb s
  | .gAnd t rd ra rb => Sys2Proof.Machine.execGAnd t rd ra rb s
  | .gOr t rd ra rb => Sys2Proof.Machine.execGOr t rd ra rb s
  | .gXor t rd ra rb => Sys2Proof.Machine.execGXor t rd ra rb s
  | .gShli t rd ra sh => Sys2Proof.Machine.execGShli t rd ra sh s
  | .gShri t rd ra sh => Sys2Proof.Machine.execGShri t rd ra sh s
  | .gShrli t rd ra sh => Sys2Proof.Machine.execGShrli t rd ra sh s
  | .gDecz t rd ra rb => Sys2Proof.Machine.execGDecz t rd ra rb s
  | .gMulq t rd ra rb sh => Sys2Proof.Machine.execGMulq t rd ra rb sh s
  | .gMulqi t rd ra imm sh => Sys2Proof.Machine.execGMulqi t rd ra imm sh s
  | .gLeak t rd ra rb table => Sys2Proof.Machine.execGLeak t rd ra rb table s
  | .gCmp t ra rb => Sys2Proof.Machine.execGCmp t ra rb s
  | .gCmpi t ra imm => Sys2Proof.Machine.execGCmpi t ra imm s
  | .gB t cond target => Sys2Proof.Machine.execGB t cond target s
  | .gRand t rd n => Sys2Proof.Machine.execGRand t rd n s
  | .gEmit t cond ra bin learn fin => Sys2Proof.Machine.execGEmit t cond ra bin learn fin s
  | .gWake t ra useImm imm => Sys2Proof.Machine.execGWake t ra useImm imm s
  | .gEnd t => Sys2Proof.Machine.execGEnd t s
  | .gambitStepOverrun t => Sys2Proof.Machine.execGambitStepOverrun t s
  | .events t => Sys2Proof.Machine.execEvents t s
  | .mergeDispatch t => Sys2Proof.Machine.execMergeDispatch t s
  | .stampUpdate t w => Sys2Proof.Machine.execStampUpdate t w s
  | .frontier t => Sys2Proof.Machine.execFrontier t s
  | .turnReport => Sys2Proof.Machine.execTurnReport s
  | .turnOpen w => Sys2Proof.Machine.execTurnOpen w s
  | .turnClose w => Sys2Proof.Machine.execTurnClose w s
  | .tempoInEdge pin rising => Sys2Proof.Machine.execTempoInEdge pin rising s
  | .tempoInGlitch pin ns => Sys2Proof.Machine.execTempoInGlitch pin ns s
  | .encoderCount pt forward => Sys2Proof.Machine.execEncoderCount pt forward s
  | .indexPulse pt => Sys2Proof.Machine.execIndexPulse pt s
  | .tetherExpiry w => Sys2Proof.Machine.execTetherExpiry w s
  | .retireComplete w => Sys2Proof.Machine.execRetireComplete w s
  | .subscribe lk leader follower => Sys2Proof.Machine.execSubscribe lk leader follower s
  | .tempoFwd lk leader inc => Sys2Proof.Machine.execTempoFwd lk leader inc s
  | .age t => Sys2Proof.Machine.execAge t s
  | .sweepAck => Sys2Proof.Machine.execSweepAck s
  | .tempoGrant t => Sys2Proof.Machine.execTempoGrant t s
  | .psum t => Sys2Proof.Machine.execPsum t s
  | .lacc t => Sys2Proof.Machine.execLacc t s
  | .rrow t => Sys2Proof.Machine.execRrow t s
  | .chainAck t => Sys2Proof.Machine.execChainAck t s
  | .consolidationPoint t => Sys2Proof.Machine.execConsolidationPoint t s
  | .refreshDue t bank => Sys2Proof.Machine.execRefreshDue t bank s
  | .scrubDeadline t bank => Sys2Proof.Machine.execScrubDeadline t bank s
  | .scrubBurst t bank => Sys2Proof.Machine.execScrubBurst t bank s
  | .lingerExpiry t => Sys2Proof.Machine.execLingerExpiry t s
  | .echo ep => Sys2Proof.Machine.execEcho ep s
  | .echoSend t src => Sys2Proof.Machine.execEchoSend t src s
  | .rateRecovery ep => Sys2Proof.Machine.execRateRecovery ep s
  | .routeVolley px py inp vc => Sys2Proof.Machine.execRouteVolley px py inp vc s
  | .domainReady dom => Sys2Proof.Machine.execDomainReady dom s
  | .spanVolley lk => Sys2Proof.Machine.execSpanVolley lk s
  | .spanFrame lk f => Sys2Proof.Machine.execSpanFrame lk f s
  | .spanAckTimeout lk => Sys2Proof.Machine.execSpanAckTimeout lk s
  | .spanLinkRetrain lk => Sys2Proof.Machine.execSpanLinkRetrain lk s
  | .spanLinkUp lk lanes => Sys2Proof.Machine.execSpanLinkUp lk lanes s
  | .gather t => Sys2Proof.Machine.execGather t s
  | .runSlot t => Sys2Proof.Machine.execRunSlot t s
  | .pot t => Sys2Proof.Machine.execPot t s
  | .dep t => Sys2Proof.Machine.execDep t s
  | .emitSlot t => Sys2Proof.Machine.execEmitSlot t s
  | .quiet t => Sys2Proof.Machine.execQuiet t s
  | .learnSlot t => Sys2Proof.Machine.execLearnSlot t s
  | .slotMark t => Sys2Proof.Machine.execSlotMark t s
  | .epochNotice st => Sys2Proof.Machine.execEpochNotice st s
  | .epochAck => Sys2Proof.Machine.execEpochAck s
  | .epochEnd => Sys2Proof.Machine.execEpochEnd s
  | .drainDelta => Sys2Proof.Machine.execDrainDelta s
  | .fenceNotice who => Sys2Proof.Machine.execFenceNotice who s
  | .pipAddMessage => Sys2Proof.Machine.execPipAddMessage s
  | .cfgWrite t => Sys2Proof.Machine.execCfgWrite t s
  | .cfgRead t => Sys2Proof.Machine.execCfgRead t s
  | .cfgReply => Sys2Proof.Machine.execCfgReply s
  | .powerReqWake dom => Sys2Proof.Machine.execPowerReqWake dom s
  | .powerReqIdle dom => Sys2Proof.Machine.execPowerReqIdle dom s
  | .powerReqState dom state => Sys2Proof.Machine.execPowerReqState dom state s
  | .linkHold lk => Sys2Proof.Machine.execLinkHold lk s
  | .linkHoldAck lk => Sys2Proof.Machine.execLinkHoldAck lk s
  | .powerReqCap dom on => Sys2Proof.Machine.execPowerReqCap dom on s
  | .rackBindingEvent y => Sys2Proof.Machine.execRackBindingEvent y s
  | .outputEvent pt => Sys2Proof.Machine.execOutputEvent pt s
  | .canSlotSend pt slot => Sys2Proof.Machine.execCanSlotSend pt slot s
  | .holdExpiry pt ch => Sys2Proof.Machine.execHoldExpiry pt ch s
  | .rampStep pt ch => Sys2Proof.Machine.execRampStep pt ch s
  | .haltNAssert ns => Sys2Proof.Machine.execHaltNAssert ns s
  | .haltNRelease => Sys2Proof.Machine.execHaltNRelease s
  | .presenceChange pt present => Sys2Proof.Machine.execPresenceChange pt present s
  | .enumerationComplete pt pids => Sys2Proof.Machine.execEnumerationComplete pt pids s
  | .enumerationTimeout pt => Sys2Proof.Machine.execEnumerationTimeout pt s
  | .enumerationRetry pt => Sys2Proof.Machine.execEnumerationRetry pt s
  | .protocolLoss pt => Sys2Proof.Machine.execProtocolLoss pt s
  | .i3cPoll pt entry bytes => Sys2Proof.Machine.execI3cPoll pt entry bytes s
  | .ibi pt target bytes => Sys2Proof.Machine.execIbi pt target bytes s
  | .hotJoin pt => Sys2Proof.Machine.execHotJoin pt s
  | .csi2Packet pt vcn dt crcOk words => Sys2Proof.Machine.execCsi2Packet pt vcn dt crcOk words s
  | .aerAddress pt addr => Sys2Proof.Machine.execAerAddress pt addr s
  | .canFrame pt ide remote fid data => Sys2Proof.Machine.execCanFrame pt ide remote fid data s
  | .bulkTransfer who w0 w1 w2 w3 ext => Sys2Proof.Machine.execBulkTransfer who w0 w1 w2 w3 ext s
  | .bulkComplete => Sys2Proof.Machine.execBulkComplete s
  | .rdS agent win line => Sys2Proof.Machine.execRdS agent win line s
  | .rdX agent win line => Sys2Proof.Machine.execRdX agent win line s
  | .wb agent win line data => Sys2Proof.Machine.execWb agent win line data s
  | .evc agent win line => Sys2Proof.Machine.execEvc agent win line s
  | .grantS agent => Sys2Proof.Machine.execGrantS agent s
  | .grantX agent store => Sys2Proof.Machine.execGrantX agent store s
  | .wbDone agent => Sys2Proof.Machine.execWbDone agent s
  | .recall agent => Sys2Proof.Machine.execRecall agent s
  | .inv agent => Sys2Proof.Machine.execInv agent s
  | .ack => Sys2Proof.Machine.execAck s
  | .bisnp win line kind conflict => Sys2Proof.Machine.execBisnp win line kind conflict s
  | .poolWriteComplete win line => Sys2Proof.Machine.execPoolWriteComplete win line s
  | .leaseTick => Sys2Proof.Machine.execLeaseTick s
  | .leaseCheck lease claimed => Sys2Proof.Machine.execLeaseCheck lease claimed s
  | .memberFailed member => Sys2Proof.Machine.execMemberFailed member s
  | .rebuildWindow granted capacity => Sys2Proof.Machine.execRebuildWindow granted capacity s
  | .lossItem => Sys2Proof.Machine.execLossItem s
  | .drainEnd dom => Sys2Proof.Machine.execDrainEnd dom s
  | .updateWritten dom => Sys2Proof.Machine.execUpdateWritten dom s
  | .resetComplete dom => Sys2Proof.Machine.execResetComplete dom s
  | .stackLost st => Sys2Proof.Machine.execStackLost st s
  | .recoveryComplete t => Sys2Proof.Machine.execRecoveryComplete t s
  | .recoveryRetry t => Sys2Proof.Machine.execRecoveryRetry t s
  | .stewardWatchdog => Sys2Proof.Machine.execStewardWatchdog s
  | .stewardMemoryError => Sys2Proof.Machine.execStewardMemoryError s
  | .stewardRestart => Sys2Proof.Machine.execStewardRestart s
  | .amendCommit => Sys2Proof.Machine.execAmendCommit s
  | .traceRecord => Sys2Proof.Machine.execTraceRecord s
  | .lullEntry dom => Sys2Proof.Machine.execLullEntry dom s
  | .holdEntry dom => Sys2Proof.Machine.execHoldEntry dom s
  | .capWindow p => Sys2Proof.Machine.execCapWindow p s
  | .thermalThrottle sensor tj => Sys2Proof.Machine.execThermalThrottle sensor tj s
  | .thermalClear tj => Sys2Proof.Machine.execThermalClear tj s
  | .thermalTrip sensor tj => Sys2Proof.Machine.execThermalTrip sensor tj s
  | .doldrumsEntry => Sys2Proof.Machine.execDoldrumsEntry s
  | .doldrumsAuto => Sys2Proof.Machine.execDoldrumsAuto s
  | .wakeTimerExpiry => Sys2Proof.Machine.execWakeTimerExpiry s
  | .perstRelease port => Sys2Proof.Machine.execPerstRelease port s
  | .aonResetRelease => Sys2Proof.Machine.execAonResetRelease s
  | .porRelease env => Sys2Proof.Machine.execPorRelease env s
  | .stackLinkTimeout st => Sys2Proof.Machine.execStackLinkTimeout st s
  | .sourceWaitExpiry => Sys2Proof.Machine.execSourceWaitExpiry s
  | .ready => Sys2Proof.Machine.execReady s
  | .pwrGoodTimeout => Sys2Proof.Machine.execPwrGoodTimeout s
  | .railRetry => Sys2Proof.Machine.execRailRetry s
  | .supplyFault => Sys2Proof.Machine.execSupplyFault s
  | .resetN low us => Sys2Proof.Machine.execResetN low us s
  | .tokenBucketRefill ep hc => Sys2Proof.Machine.execTokenBucketRefill ep hc s
  | .pwmPeriodStart pt ch => Sys2Proof.Machine.execPwmPeriodStart pt ch s
  | .illegalTransition pt => Sys2Proof.Machine.execIllegalTransition pt s
  | .msixVectorUnmask m vec => Sys2Proof.Machine.execMsixVectorUnmask m vec s
  | .spanHoldWake lk => Sys2Proof.Machine.execSpanHoldWake lk s
  | .spanHoldRetrainTimeout lk => Sys2Proof.Machine.execSpanHoldRetrainTimeout lk s
  | .poolReadComplete win line data => Sys2Proof.Machine.execPoolReadComplete win line data s
  | .tracePortDrain halfwords => Sys2Proof.Machine.execTracePortDrain halfwords s
  | .tripCooldown => Sys2Proof.Machine.execTripCooldown s
  | .alwaysOnSupplyLoss => Sys2Proof.Machine.execAlwaysOnSupplyLoss s
  | .leaderParked lk leader => Sys2Proof.Machine.execLeaderParked lk leader s
  | .dirtyLineHoldExpiry => Sys2Proof.Machine.execDirtyLineHoldExpiry s

end Sys2Proof.Machine
end

