-- ==== Sys2Proof/Machine/Tick.lean ====
section
/-! DEFINITION. What a step does when no command waits: the wall counter runs (R270, R335; log 5). -/

namespace Sys2Proof.Machine

open Sys2Proof

/-- The wall counter of the always-on domain advances by 1 µs once that domain has left its reset (R270, R335). -/
def tickWall (s : State) : State :=
  if s.aon.phase = .aonReset then s else { s with aon.wall := (s.aon.wall + 1) % 2 ^ 64 }

end Sys2Proof.Machine
end

