-- ==== Sys2Proof/Machine/Step.lean ====
section
/-! DEFINITION. One step of the package: the command at the front of the queue runs, and on an empty queue the wall
clock ticks (R4 of the scope's units; log 5). -/

namespace Sys2Proof.Machine

open Sys2Proof

/-- The command at the front of the queue is taken and executed with the rest of the queue; on an empty queue the
always-on domain's wall counter advances by 1 µs. -/
def step (s : State) : Host.Outcome State Fault Refusal :=
  match s.pending with
  | [] => .next (tickWall s)
  | c :: rest => exec c { s with pending := rest }

/-- The state with the command that a table word spells put at the front of the queue; the state itself where the
word spells none. -/
def State.withFetchWord (s : State) (nbits w : Nat) : State :=
  match decodeTableWord nbits w with
  | some c => { s with pending := c :: s.pending }
  | none => s

end Sys2Proof.Machine
end

