-- ==== Sys2Proof/Safety.lean ====
section
/-! DEFINITION. What counts as a safe run: the package goes on, its memory keeps its canonical form, and nothing changes
what is fused into it but a raise of the rollback floor (R2, R246, R250, R262). -/

namespace Sys2Proof.Machine

open Sys2Proof

/-- The fuses g may follow the fuses f: every field is the same, but the thermometer-coded floor may have more blown bits. -/
structure FusesFrom (f g : Fuses) : Prop where
  uid : g.uid = f.uid
  hubRev : g.hubRev = f.hubRev
  baseRev : g.baseRev = f.baseRev
  keyHash0 : g.keyHash0 = f.keyHash0
  keyHash1 : g.keyHash1 = f.keyHash1
  keyHash2 : g.keyHash2 = f.keyHash2
  revoke : g.revoke = f.revoke
  defects : g.defects = f.defects
  floor : f.floor ≤ g.floor

/-- State t may follow state s: the same package, fuses that may follow, and a canonical memory where s has one. The queue
is that of s: no command changes it. -/
structure Keeps (s t : State) : Prop where
  pkg : t.pkg = s.pkg
  fuses : FusesFrom s.fuses t.fuses
  mem : s.mem.wf = true → t.mem.wf = true
  pending : t.pending = s.pending

/-- A step from s answers a next state: it neither faults nor refuses. -/
def GoesOn (s : State) : Prop := ∃ t, step s = .next t

/-- In state t the command (rk, seq) of opcode op has completed: it is not in execution, and the last message of its
completion rack is its completion record with this code and these result words (R213). -/
def Completed (t : State) (rk seq op : Nat) (code : Code) (results : List DWord) : Prop :=
  t.findExec rk seq = none ∧ ∀ n, t.ldOfRack rk = some n →
    ∃ k, (t.rack (t.ld n).cplRack).msgs.getLast? =
      some (stampHeader (recHeader 0x80 code (BitVec.ofNat 64 (seq % 2 ^ 32 + op * 2 ^ 32 + rk * 2 ^ 40) :: results)) 1
          (t.ld n).cplRack k
        :: BitVec.ofNat 64 (seq % 2 ^ 32 + op * 2 ^ 32 + rk * 2 ^ 40) :: results)

/-- The command c stands in execution at (rk, seq) as one of opcode op that has not begun, its rack's order lets it begin
(R214), and, where the steward executes it, the steward is not in reset (R42, R311). -/
def Begins (s : State) (rk seq op : Nat) (c : ExecCmd) : Prop :=
  s.findExec rk seq = some c ∧ c.op = op ∧ c.stage = 0 ∧ s.mayBegin c = true ∧ (opUnit op = 2 → s.flt.stwReset = false)

/-! ### Frames -/

/-- The parts of the state that a frame tells apart. -/
inductive Part where
  /-- The package type. -/
  | pkg
  /-- Hard fuses. -/
  | fuses
  /-- Package memory. -/
  | mem
  /-- The tiles. -/
  | tiles
  /-- Access tables. -/
  | access
  /-- Stream ports and their output stage. -/
  | ports
  /-- Port destination table. -/
  | portDest
  /-- The queue. -/
  | pending
  /-- The model's counter of free values. -/
  | freeCtr
  /-- The wall counter. -/
  | wall
  /-- Wake records. -/
  | wakeLog
  /-- TEMPO_IN pins. -/
  | pins
  /-- HALT_N. -/
  | halt
  /-- Supplies, resets and the phase. -/
  | rails
  /-- Wake sources and timer. -/
  | wakeCfg
  /-- Doldrums records and the warm image. -/
  | doldrums
  /-- The thermal unit. -/
  | thermal
  /-- Power domains. -/
  | doms
  /-- The power controller. -/
  | power
  /-- The boot log. -/
  | bootLog
  /-- Amendments. -/
  | amend
  /-- The boot engine. -/
  | boot
  /-- Per-master state. -/
  | masters
  /-- CXL ports. -/
  | links
  /-- Logical devices and their vectors. -/
  | lds
  /-- Commands in execution. -/
  | executing
  /-- Commands failed by a link drop. -/
  | failedHeads
  /-- HUB_EPOCH and the drain. -/
  | epoch
  /-- Lockstep inputs waiting. -/
  | lockIn
  /-- HUB_FAB_LOST. -/
  | fabLost
  /-- Hub configuration. -/
  | hubCfg
  /-- Snoop and fabric-manager answers. -/
  | answers
  /-- Racks. -/
  | racks
  /-- Rack sets and bindings. -/
  | rackCfg
  /-- The pip store. -/
  | pips
  /-- World entries. -/
  | worlds
  /-- The result window. -/
  | slots
  /-- Learning groups. -/
  | learnGrps
  /-- TMP_ADV_ERR. -/
  | advErr
  /-- Subscriptions. -/
  | subs
  /-- Routers. -/
  | routers
  /-- Volleys at ports. -/
  | inbox
  /-- Hub endpoints' pacing. -/
  | hubPace
  /-- Marks for ECHO. -/
  | marked
  /-- Span links. -/
  | spans
  /-- Messages of the other planes. -/
  | mail
  /-- The pool. -/
  | pool
  /-- Loss items at the writer. -/
  | lossQueue
  /-- The loss ring. -/
  | lossRing
  /-- HUB_FAULT_CFG. -/
  | faultCfg
  /-- Fence domains. -/
  | fences
  /-- Fence counts. -/
  | fenceCount
  /-- Fence notices. -/
  | notices
  /-- The steward. -/
  | steward
  /-- Lost stacks. -/
  | stackLost
  /-- Outstanding tile accesses. -/
  | hostReqs
  /-- Hub trace records. -/
  | trcQueue
  /-- The trace unit. -/
  | trace
  /-- Dropped trace records. -/
  | trcDrops
deriving DecidableEq, Repr

/-- Part p is the same in both states. -/
def Part.same (s t : State) : Part → Prop
  | .pkg => t.pkg = s.pkg
  | .fuses => t.fuses = s.fuses
  | .mem => t.mem = s.mem
  | .tiles => t.tiles = s.tiles
  | .access => t.access = s.access
  | .ports => t.ports = s.ports
  | .portDest => t.portDest = s.portDest
  | .pending => t.pending = s.pending
  | .freeCtr => t.freeCtr = s.freeCtr
  | .wall => t.aon.wall = s.aon.wall
  | .wakeLog => (t.aon.wakeHead, t.aon.wakeLast, t.aon.wakeHist) = (s.aon.wakeHead, s.aon.wakeLast, s.aon.wakeHist)
  | .pins => (t.aon.pinCfg, t.aon.pinCount, t.aon.glitch) = (s.aon.pinCfg, s.aon.pinCount, s.aon.glitch)
  | .halt => (t.aon.haltN, t.aon.haltCount) = (s.aon.haltN, s.aon.haltCount)
  | .rails =>
      (t.aon.phase, t.aon.resetLow, t.aon.railEn, t.aon.pwrGood, t.aon.railFaults, t.aon.pgTime) =
      (s.aon.phase, s.aon.resetLow, s.aon.railEn, s.aon.pwrGood, s.aon.railFaults, s.aon.pgTime)
  | .wakeCfg =>
      (t.aon.wakeEn, t.aon.wakeTimer, t.aon.tetherAt, t.aon.latched) = (s.aon.wakeEn, s.aon.wakeTimer,
      s.aon.tetherAt, s.aon.latched)
  | .doldrums =>
      (t.aon.doldEntries, t.aon.warmWakes, t.aon.doldWorlds, t.aon.doldMessages, t.aon.doldLoss,
      t.aon.warm, t.aon.fromDoldrums) = (s.aon.doldEntries, s.aon.warmWakes, s.aon.doldWorlds,
      s.aon.doldMessages, s.aon.doldLoss, s.aon.warm, s.aon.fromDoldrums)
  | .thermal =>
      (t.aon.tripped, t.aon.therm, t.aon.tjMax, t.aon.vddTile, t.aon.sensor) = (s.aon.tripped,
      s.aon.therm, s.aon.tjMax, s.aon.vddTile, s.aon.sensor)
  | .doms => t.pwr.doms = s.pwr.doms
  | .power =>
      (t.pwr.cfg, t.pwr.setCap, t.pwr.fuseCap, t.pwr.level, t.pwr.under, t.pwr.avg, t.pwr.capOver,
      t.pwr.telemDrop, t.pwr.doldPending, t.pwr.dispatchOff) = (s.pwr.cfg, s.pwr.setCap, s.pwr.fuseCap,
      s.pwr.level, s.pwr.under, s.pwr.avg, s.pwr.capOver, s.pwr.telemDrop, s.pwr.doldPending,
      s.pwr.dispatchOff)
  | .bootLog => (t.boot.log, t.boot.logHead) = (s.boot.log, s.boot.logHead)
  | .amend =>
      (t.boot.amending, t.boot.amendSeq, t.boot.amended, t.boot.refSection, t.boot.refCode) =
      (s.boot.amending, s.boot.amendSeq, s.boot.amended, s.boot.refSection, s.boot.refCode)
  | .boot =>
      (t.boot.st, t.boot.started, t.boot.slot, t.boot.degraded, t.boot.phase, t.boot.fail, t.boot.timeMs,
      t.boot.releaseWall, t.boot.imageId, t.boot.secVersion, t.boot.chartersRead, t.boot.chartersIgnored,
      t.boot.chartersValid, t.boot.hostBase, t.boot.roll, t.boot.rollFirst, t.boot.env, t.boot.image,
      t.boot.defects, t.boot.absentStacks, t.boot.absent, t.boot.shifted, t.boot.dirs, t.boot.spanDisable,
      t.boot.portDisable, t.boot.maxWidth, t.boot.warmPath) = (s.boot.st, s.boot.started, s.boot.slot,
      s.boot.degraded, s.boot.phase, s.boot.fail, s.boot.timeMs, s.boot.releaseWall, s.boot.imageId,
      s.boot.secVersion, s.boot.chartersRead, s.boot.chartersIgnored, s.boot.chartersValid,
      s.boot.hostBase, s.boot.roll, s.boot.rollFirst, s.boot.env, s.boot.image, s.boot.defects,
      s.boot.absentStacks, s.boot.absent, s.boot.shifted, s.boot.dirs, s.boot.spanDisable,
      s.boot.portDisable, s.boot.maxWidth, s.boot.warmPath)
  | .masters => t.hub.masters = s.hub.masters
  | .links => t.hub.links = s.hub.links
  | .lds => t.hub.lds = s.hub.lds
  | .executing => t.hub.executing = s.hub.executing
  | .failedHeads => t.hub.failedHeads = s.hub.failedHeads
  | .epoch => t.hub.epoch = s.hub.epoch
  | .lockIn => t.hub.lockIn = s.hub.lockIn
  | .fabLost => t.hub.fabLost = s.hub.fabLost
  | .hubCfg =>
      (t.hub.p, t.hub.reduced, t.hub.classLockstep, t.hub.spanRoute, t.hub.injection, t.hub.schedA,
      t.hub.schedB) = (s.hub.p, s.hub.reduced, s.hub.classLockstep, s.hub.spanRoute, s.hub.injection,
      s.hub.schedA, s.hub.schedB)
  | .answers => (t.hub.snoopHitI, t.hub.fmResp) = (s.hub.snoopHitI, s.hub.fmResp)
  | .racks => t.racks.racks = s.racks.racks
  | .rackCfg => (t.racks.sets, t.racks.bindings) = (s.racks.sets, s.racks.bindings)
  | .pips => t.pips = s.pips
  | .worlds => t.tmp.worlds = s.tmp.worlds
  | .slots => t.tmp.slots = s.tmp.slots
  | .learnGrps =>
      (t.tmp.learnRack, t.tmp.learnPeriod, t.tmp.groups) = (s.tmp.learnRack, s.tmp.learnPeriod,
      s.tmp.groups)
  | .advErr =>
      (t.tmp.advErrValid, t.tmp.advErrWorld, t.tmp.advErrCode, t.tmp.advErrCnt) = (s.tmp.advErrValid,
      s.tmp.advErrWorld, s.tmp.advErrCode, s.tmp.advErrCnt)
  | .subs => t.tmp.subs = s.tmp.subs
  | .routers => t.fab.routers = s.fab.routers
  | .inbox => t.fab.inbox = s.fab.inbox
  | .hubPace => t.fab.hubPace = s.fab.hubPace
  | .marked => t.fab.marked = s.fab.marked
  | .spans => t.fab.spans = s.fab.spans
  | .mail => t.fab.mail = s.fab.mail
  | .pool => t.pool = s.pool
  | .lossQueue => t.flt.queue = s.flt.queue
  | .lossRing =>
      (t.flt.head, t.flt.tail, t.flt.ovf, t.flt.ovfNoWorld, t.flt.late, t.flt.codeCnt) = (s.flt.head,
      s.flt.tail, s.flt.ovf, s.flt.ovfNoWorld, s.flt.late, s.flt.codeCnt)
  | .faultCfg => t.flt.cfg = s.flt.cfg
  | .fences => t.flt.fences = s.flt.fences
  | .fenceCount => (t.flt.fenceSeq, t.flt.fenceCount) = (s.flt.fenceSeq, s.flt.fenceCount)
  | .notices => t.flt.notices = s.flt.notices
  | .steward => (t.flt.stwReset, t.flt.stwResets) = (s.flt.stwReset, s.flt.stwResets)
  | .stackLost => t.flt.stackLost = s.flt.stackLost
  | .hostReqs => t.flt.hostReqs = s.flt.hostReqs
  | .trcQueue => t.trc.queue = s.trc.queue
  | .trace =>
      (t.trc.st, t.trc.out, t.trc.serOk, t.trc.owner, t.trc.fired, t.trc.post, t.trc.filtWorld,
      t.trc.filtA, t.trc.filtAMask, t.trc.trigs, t.trc.srcs, t.trc.records, t.trc.gaps, t.trc.buf,
      t.trc.head, t.trc.held, t.trc.syncs, t.trc.outHw, t.trc.sinceStart, t.trc.syncAt, t.trc.ctx,
      t.trc.parOut, t.trc.recLeft, t.trc.serOut, t.trc.serBlocks) = (s.trc.st, s.trc.out, s.trc.serOk,
      s.trc.owner, s.trc.fired, s.trc.post, s.trc.filtWorld, s.trc.filtA, s.trc.filtAMask, s.trc.trigs,
      s.trc.srcs, s.trc.records, s.trc.gaps, s.trc.buf, s.trc.head, s.trc.held, s.trc.syncs, s.trc.outHw,
      s.trc.sinceStart, s.trc.syncAt, s.trc.ctx, s.trc.parOut, s.trc.recLeft, s.trc.serOut,
      s.trc.serBlocks)
  | .trcDrops => (t.trc.dropped, t.trc.lost) = (s.trc.dropped, s.trc.lost)

/-- From s to t nothing changes but parts of the list. -/
def Only (l : List Part) (s t : State) : Prop := ∀ p, p ∉ l → p.same s t

end Sys2Proof.Machine
end

