-- ==== Sys2Proof/Claims.lean ====
section
/-! DEFINITION. The terms that the statements share: a gambit instruction that its tile's engine is about to execute, and what
its execution leaves alone. -/

namespace Sys2Proof.Machine

open Sys2Proof

/-- The engine of tile t is about to execute instruction i: run r stands at its word in the store, whose parity holds, and has
steps left (R74, R82, R97). -/
def Fetched (s : State) (t : Nat) (i : Instr) (r : Run) : Prop :=
  (s.tile t).run = some r ∧ (s.tile t).badStore.contains r.pc = false
    ∧ decodeGambit t (tget 0 r.pc (s.tile t).store) = some i ∧ r.steps < (s.tile t).stepLimit r

/-- From s to u tile t's run has become r2 and its step counter has gone up by 1; of the tile only its trace FIFO may differ
beside that, every other tile is the same, and so is everything but the tiles and the counts of dropped trace records: all of
memory among them. -/
def RunGoesOn (s u : State) (t : Nat) (r2 : Run) : Prop :=
  u.tile t = { s.tile t with
      run := some r2
      gbSteps := (s.tile t).gbSteps + 1
      traceFifo := (u.tile t).traceFifo }
    ∧ (∀ j, j ≠ t → u.tile j = s.tile j) ∧ Only [.tiles, .trcDrops] s u

/-- The run at the next instruction, `hc` half cycles later. -/
def Run.next (r : Run) (hc : Nat) : Run := { r with pc := r.pc + 1, steps := r.steps + 1, hc := r.hc + hc }

/-- The run at the next instruction with v in register rd. -/
def Run.wrote (r : Run) (rd : BitVec 3) (v : Word) (hc : Nat) : Run := { r.next hc with g := r.g.set rd.toNat v }

/-- From s to u tile t's run r has completed with its next instruction, 1 hc, and nothing follows it: its counters have counted
it, and a stateful run's narrow or wide record in the tile's own memory holds what the run leaves (R74, R77, R93). -/
def RunEnded (s u : State) (t : Nat) (r : Run) : Prop :=
  (u.tile t).run = none ∧ (u.tile t).gbRuns = (s.tile t).gbRuns + 1 ∧ (u.tile t).gbSteps = (s.tile t).gbSteps + 1
    ∧ (u.tile t).gbMaxHc = max (s.tile t).gbMaxHc (min (r.hc + 1) 0xFFFF)
    ∧ (∀ b, (s.tile t).blockOf r.w r.neuron = some b → mdStateless (tget [] r.slot (s.tile t).models) = false →
      blkSpill b = false →
      tget 0 (blkAddr b r.neuron (r.w % 32)) (u.tile t).sram = (r.finalRecord (blkWide b)).extractLsb' 0 64)

/-- In state u master m's last access has returned these words with code DONE. -/
def Answered (u : State) (m : Nat) (ws : List DWord) : Prop :=
  (u.master m).resp = { words := ws, code := .done, poison := false }

/-- From s to u an access by master m at the offset has been refused with code c: its answer, poison for a read, HUB_ACC_CNT,
and HUB_ACC_ERR, which keeps the first refusal while it is valid (R200). -/
def Refused (s u : State) (m off : Nat) (c : Code) (isRead : Bool) : Prop :=
  (u.master m).resp = { words := if isRead then [0] else [], code := c, poison := isRead }
    ∧ (u.master m).errValid = true ∧ (u.master m).errCount = sat 32 (s.master m).errCount 1
    ∧ (u.master m).errCode = (if (s.master m).errValid then (s.master m).errCode else c)
    ∧ (u.master m).errOffset = (if (s.master m).errValid then (s.master m).errOffset else off)

end Sys2Proof.Machine
end

