-- ==== Sys2Proof/Frames.lean ====
section
/-! DEFINITION. Which parts of the state each command may change: what a statement of frames names. A part that a command's
list does not name reads the same after it. -/

namespace Sys2Proof.Machine

open Sys2Proof

/-- Every part. -/
def allParts : List Part :=
[.pkg, .fuses, .mem, .tiles, .access, .ports, .portDest, .pending, .freeCtr, .wall, .wakeLog, .pins, .halt, .rails, .wakeCfg,
   .doldrums, .thermal, .doms, .power, .bootLog, .amend, .boot, .masters, .links, .lds, .executing, .failedHeads, .epoch,
   .lockIn, .fabLost, .hubCfg, .answers, .racks, .rackCfg, .pips, .worlds, .slots, .learnGrps, .advErr, .subs, .routers,
   .inbox, .hubPace, .marked, .spans, .mail, .pool, .lossQueue, .lossRing, .faultCfg, .fences, .fenceCount, .notices,
   .steward, .stackLost, .hostReqs, .trcQueue, .trace, .trcDrops]

/-- Every part but those of l. -/
def allBut (l : List Part) : List Part := allParts.filter (fun p => !l.contains p)

/-- The parts that a command may change: what its rules name, and what they bring with them (the wake of a sleeping domain, the
volleys and events that it sends, their trace records, and the losses of those that are dropped). No command changes the queue
or the package, and READY alone changes the fuses. -/
def mayChange : Instr → List Part
| .advance _ _ | .groupAdvance _ _ | .park _ _ | .unpark _ _ | .retire _ _ =>
[.tiles, .ports, .freeCtr, .wakeLog, .doms, .lds, .executing, .epoch, .lockIn, .fabLost, .racks, .worlds, .routers, .inbox,
     .hubPace, .marked, .spans, .lossQueue, .fences, .fenceCount, .trcQueue]
| .start _ _ =>
[.mem, .tiles, .ports, .freeCtr, .wakeLog, .doms, .lds, .executing, .epoch, .lockIn, .fabLost, .racks, .worlds, .slots,
     .routers, .inbox, .hubPace, .marked, .spans, .lossQueue, .fences, .fenceCount, .trcQueue]
| .inject _ _ =>
[.tiles, .wakeLog, .doms, .lds, .executing, .epoch, .lockIn, .fabLost, .racks, .routers, .inbox, .hubPace, .marked, .spans,
     .lossQueue, .trcQueue]
| .epochFlip _ _ =>
[.tiles, .wakeLog, .doms, .lds, .executing, .epoch, .racks, .worlds, .routers, .inbox, .marked, .spans, .lossQueue, .trcQueue]
| .amend _ _ _ =>
[.freeCtr, .wakeLog, .doms, .bootLog, .amend, .lds, .executing, .racks, .trcQueue]
| .portRearm _ _ =>
[.ports, .wakeLog, .doms, .lds, .executing, .racks, .trcQueue]
| .traceStop _ _ =>
[.tiles, .freeCtr, .wakeLog, .doms, .lds, .executing, .racks, .trcQueue, .trace, .trcDrops]
| .traceStart _ _ | .traceSource _ _ | .traceFilter _ _ | .traceTrigger _ _ | .traceOutput _ _ | .traceClear _ _ =>
[.wakeLog, .doms, .lds, .executing, .racks, .trcQueue, .trace, .trcDrops]
| .powerSetCap _ _ | .powerSetDepth _ _ =>
[.wakeLog, .doms, .power, .lds, .executing, .racks, .trcQueue]
| .powerSetDoldrums _ _ =>
[.wakeLog, .wakeCfg, .doms, .power, .lds, .executing, .racks, .trcQueue]
| .fence _ _ =>
[.freeCtr, .wakeLog, .doms, .lds, .executing, .racks, .lossQueue, .fences, .fenceCount, .trcQueue]
| .resume _ _ _ =>
[.freeCtr, .wakeLog, .doms, .boot, .lds, .executing, .racks, .spans, .lossQueue, .fences, .trcQueue]
| .sync _ _ | .hostNop _ _ =>
[.wakeLog, .doms, .lds, .executing, .racks, .trcQueue]
| .commandDispatch _ =>
[.lds, .executing, .failedHeads, .racks, .lossQueue, .trcQueue]
| .tmpHostAdv _ _ =>
[.tiles, .ports, .freeCtr, .wakeLog, .doms, .masters, .lds, .epoch, .lockIn, .fabLost, .racks, .worlds, .advErr, .routers,
     .inbox, .hubPace, .marked, .spans, .lossQueue, .fences, .fenceCount, .trcQueue]
| .tileClear _ _ _ =>
[.tiles, .wakeLog, .doms, .masters]
| .tmpLearnGrp _ _ _ =>
[.wakeLog, .doms, .masters, .learnGrps]
| .push _ _ _ =>
[.wakeLog, .doms, .masters, .lds, .racks, .trcQueue]
| .pop _ _ | .peek _ _ | .setPeek _ _ =>
[.wakeLog, .doms, .masters, .racks, .lossQueue, .trcQueue]
| .latch _ _ =>
[.wakeLog, .doms, .masters]
| .setPop _ _ =>
[.wakeLog, .doms, .masters, .racks, .rackCfg, .lossQueue, .trcQueue]
| .rackAck _ _ _ =>
[.wakeLog, .doms, .masters, .racks, .trcQueue]
| .pipAdd _ _ | .pipSet _ _ | .pipTrysub _ _ | .pipArrive _ _ | .pipWait _ _ | .pipTarget _ _ | .pipMode _ _ | .pipOvfClear _
  _ =>
[.wakeLog, .doms, .masters, .lds, .racks, .pips, .trcQueue]
| .pipCancel _ _ =>
[.wakeLog, .doms, .masters, .racks, .pips, .trcQueue]
| .poolKeepCfg _ _ | .addSpare _ _ | .reinit _ _ =>
[.wakeLog, .doms, .masters, .pool]
| .poolFlush _ _ =>
[.wakeLog, .doms, .masters, .pool, .lossQueue, .trcQueue]
| .hubLossTail _ _ =>
[.wakeLog, .doms, .masters, .lossRing]
| .stewardReset _ _ =>
[.ports, .freeCtr, .wakeLog, .doms, .amend, .masters, .lds, .executing, .racks, .lossQueue, .steward, .trcQueue]
| .restart _ _ | .porRelease _ | .stackLinkTimeout _ | .sourceWaitExpiry =>
allBut [.pkg, .fuses, .pending]
| .loRead _ _ _ _ | .hiRead _ _ =>
[.tiles, .wakeLog, .doms, .masters, .epoch, .routers, .inbox, .marked, .spans, .lossQueue, .hostReqs]
| .registerWrite _ _ _ _ _ =>
[.tiles, .wakeLog, .pins, .wakeCfg, .doms, .boot, .masters, .lds, .epoch, .advErr, .routers, .inbox, .marked, .spans, .pool,
     .lossQueue, .hostReqs]
| .hdmRead _ _ =>
[.tiles, .freeCtr, .wakeLog, .doms, .masters, .pool]
| .hdmWrite _ _ _ =>
[.mem, .wakeLog, .doms, .masters, .pool]
| .h2dSnoop _ _ | .getLdInfo _ | .getLdAllocations _ =>
[.answers]
| .setLdAllocations _ _ =>
[.lds, .answers]
| .linkDrop _ | .hotReset _ =>
[.tiles, .ports, .freeCtr, .wakeLog, .doms, .amend, .masters, .links, .lds, .executing, .failedHeads, .epoch, .lockIn,
     .fabLost, .racks, .worlds, .routers, .inbox, .hubPace, .marked, .spans, .pool, .lossQueue, .fences, .fenceCount,
     .trcQueue]
| .linkRecovery _ =>
[.links]
| .cxlLinkUp _ _ _ _ _ =>
[.links, .lds, .pool]
| .gNop _ | .gMov _ _ _ | .gMovi _ _ _ | .gMovhi _ _ _ | .gLdp _ _ _ | .gLdf _ _ _ _ _ | .gStf _ _ _ _ _ | .gAdd _ _ _ _ |
  .gSub _ _ _ _ | .gAdds _ _ _ _ | .gSubs _ _ _ _ | .gAddi _ _ _ _ | .gAddsi _ _ _ _ | .gMin _ _ _ _ | .gMax _ _ _ _ | .gAnd _
  _ _ _ | .gOr _ _ _ _ | .gXor _ _ _ _ | .gShli _ _ _ _ | .gShri _ _ _ _ | .gShrli _ _ _ _ | .gDecz _ _ _ _ | .gMulq _ _ _ _ _
  | .gMulqi _ _ _ _ _ | .gLeak _ _ _ _ _ | .gCmp _ _ _ | .gCmpi _ _ _ | .gB _ _ _ | .gRand _ _ _ | .gEmit _ _ _ _ _ _ | .gWake
  _ _ _ _ | .gEnd _ | .gambitStepOverrun _ | .events _ | .stampUpdate _ _ | .runSlot _ | .tokenBucketRefill _ _ =>
[.mem, .tiles, .ports, .freeCtr, .wakeLog, .doms, .lds, .epoch, .lockIn, .fabLost, .racks, .worlds, .routers, .inbox,
     .hubPace, .marked, .spans, .lossQueue, .fences, .fenceCount, .trcQueue, .trcDrops]
| .mergeDispatch _ =>
[.mem, .tiles, .freeCtr, .wakeLog, .doms, .lds, .racks, .worlds, .lossQueue, .fences, .fenceCount, .trcQueue, .trcDrops]
| .frontier _ | .turnReport | .emitSlot _ =>
[.tiles, .wakeLog, .doms, .epoch, .fabLost, .worlds, .routers, .inbox, .hubPace, .marked, .spans, .lossQueue]
| .turnOpen _ =>
[.tiles, .ports, .freeCtr, .wakeLog, .doms, .amend, .lds, .executing, .epoch, .lockIn, .fabLost, .racks, .worlds, .slots,
     .routers, .inbox, .hubPace, .marked, .spans, .lossQueue, .fences, .fenceCount, .trcQueue]
| .turnClose _ =>
[.worlds, .slots]
| .tempoInEdge _ _ =>
[.tiles, .ports, .freeCtr, .wakeLog, .pins, .rails, .wakeCfg, .doldrums, .doms, .lds, .epoch, .lockIn, .fabLost, .racks,
     .worlds, .routers, .inbox, .hubPace, .marked, .spans, .lossQueue, .fences, .fenceCount, .trcQueue]
| .tempoInGlitch _ _ =>
[.freeCtr, .pins]
| .encoderCount _ _ | .tetherExpiry _ | .tempoFwd _ _ _ | .spanAckTimeout _ | .spanHoldRetrainTimeout _ | .leaderParked _ _ =>
[.tiles, .ports, .freeCtr, .wakeLog, .doms, .lds, .epoch, .lockIn, .fabLost, .racks, .worlds, .routers, .inbox, .hubPace,
     .marked, .spans, .lossQueue, .fences, .fenceCount, .trcQueue]
| .indexPulse _ | .i3cPoll _ _ _ | .ibi _ _ _ | .aerAddress _ _ | .canFrame _ _ _ _ _ =>
[.tiles, .ports, .wakeLog, .doms, .epoch, .lockIn, .fabLost, .worlds, .routers, .inbox, .hubPace, .marked, .spans, .lossQueue]
| .retireComplete _ =>
[.amend, .lds, .executing, .racks, .worlds, .lossQueue, .trcQueue]
| .subscribe _ _ _ =>
[.subs]
| .age _ =>
[.mem, .tiles, .wakeLog, .doms, .epoch, .routers, .mail, .lossQueue]
| .sweepAck | .epochAck =>
[.worlds, .inbox]
| .tempoGrant _ | .rrow _ =>
[.mem, .tiles, .ports, .freeCtr, .wakeLog, .doms, .lds, .epoch, .lockIn, .fabLost, .racks, .worlds, .routers, .inbox,
     .hubPace, .marked, .spans, .mail, .lossQueue, .fences, .fenceCount, .trcQueue, .trcDrops]
| .psum _ =>
[.tiles, .worlds, .mail, .lossQueue, .trcDrops]
| .lacc _ | .consolidationPoint _ | .learnSlot _ =>
[.mem, .tiles, .ports, .freeCtr, .wakeLog, .doms, .lds, .epoch, .lockIn, .fabLost, .racks, .worlds, .learnGrps, .routers,
     .inbox, .hubPace, .marked, .spans, .mail, .lossQueue, .fences, .fenceCount, .trcQueue, .trcDrops]
| .chainAck _ =>
[.tiles, .mail]
| .refreshDue _ _ | .powerReqCap _ _ =>
[.tiles]
| .scrubDeadline _ _ | .scrubBurst _ _ | .recoveryComplete _ =>
[.mem, .tiles, .freeCtr, .wakeLog, .doms, .lds, .racks, .lossQueue, .fences, .fenceCount, .trcQueue]
| .lingerExpiry _ | .echoSend _ _ =>
[.tiles, .wakeLog, .doms, .epoch, .fabLost, .routers, .inbox, .hubPace, .marked, .spans, .lossQueue]
| .echo _ =>
[.tiles, .inbox, .hubPace]
| .rateRecovery _ =>
[.tiles, .hubPace]
| .routeVolley _ _ _ _ =>
[.tiles, .wakeLog, .doms, .epoch, .routers, .inbox, .marked, .spans, .mail, .lossQueue, .notices, .trcDrops]
| .domainReady _ | .powerReqIdle _ | .powerReqState _ _ | .lullEntry _ =>
[.doms]
| .spanVolley _ =>
[.tiles, .ports, .freeCtr, .wakeLog, .doms, .lds, .epoch, .lockIn, .fabLost, .racks, .worlds, .subs, .routers, .inbox,
     .hubPace, .marked, .spans, .lossQueue, .fences, .fenceCount, .trcQueue]
| .spanFrame _ _ | .spanLinkRetrain _ =>
[.spans]
| .spanLinkUp _ _ =>
[.freeCtr, .doms, .lds, .racks, .spans, .lossQueue, .trcQueue]
| .gather _ =>
[.mem, .tiles, .freeCtr, .wakeLog, .doms, .lds, .epoch, .fabLost, .racks, .worlds, .routers, .inbox, .hubPace, .marked,
     .spans, .lossQueue, .fences, .fenceCount, .trcQueue, .trcDrops]
| .pot _ | .dep _ =>
[.mem, .tiles, .freeCtr, .wakeLog, .doms, .lds, .epoch, .fabLost, .racks, .worlds, .routers, .inbox, .hubPace, .marked,
     .spans, .lossQueue, .fences, .fenceCount, .trcQueue]
| .quiet _ =>
[.mem, .tiles, .freeCtr, .wakeLog, .doms, .lds, .epoch, .fabLost, .racks, .worlds, .routers, .inbox, .hubPace, .marked,
     .spans, .mail, .lossQueue, .fences, .fenceCount, .trcQueue]
| .slotMark _ =>
[.tiles, .inbox, .lossQueue]
| .epochNotice _ =>
[.epoch, .routers, .mail]
| .epochEnd | .drainDelta =>
[.tiles, .wakeLog, .doms, .lds, .executing, .epoch, .racks, .pips, .worlds, .routers, .inbox, .marked, .lossQueue, .trcQueue]
| .fenceNotice _ =>
[.mem, .tiles, .ports, .freeCtr, .wakeLog, .doms, .masters, .lds, .executing, .epoch, .lockIn, .fabLost, .racks, .worlds,
     .learnGrps, .routers, .inbox, .hubPace, .marked, .spans, .mail, .pool, .lossQueue, .fences, .fenceCount, .notices,
     .hostReqs, .trcQueue, .trcDrops]
| .pipAddMessage =>
[.lds, .racks, .pips, .inbox, .lossQueue, .trcQueue]
| .cfgWrite _ =>
[.tiles, .wakeLog, .pins, .wakeCfg, .doms, .boot, .masters, .lds, .epoch, .advErr, .routers, .inbox, .marked, .spans, .mail,
     .pool, .lossQueue, .hostReqs]
| .cfgRead _ =>
[.wakeLog, .doms, .epoch, .routers, .mail]
| .cfgReply =>
[.wakeLog, .doms, .masters, .inbox, .lossRing, .hostReqs]
| .powerReqWake _ =>
[.wakeLog, .doms]
| .linkHold _ | .linkHoldAck _ =>
[.doms, .spans]
| .rackBindingEvent _ =>
[.lds, .racks, .worlds, .inbox, .lossQueue, .trcQueue]
| .outputEvent _ =>
[.ports, .inbox, .lossQueue]
| .canSlotSend _ _ | .holdExpiry _ _ | .rampStep _ _ | .pwmPeriodStart _ _ =>
[.ports]
| .haltNAssert _ =>
[.ports, .freeCtr, .halt, .lds, .racks, .lossQueue, .trcQueue]
| .haltNRelease =>
[.ports, .halt, .lds, .racks, .lossQueue, .trcQueue]
| .presenceChange _ _ =>
[.tiles, .ports, .wakeLog, .rails, .wakeCfg, .doldrums, .doms, .lds, .epoch, .lockIn, .fabLost, .racks, .worlds, .routers,
     .inbox, .hubPace, .marked, .spans, .lossQueue, .trcQueue]
| .enumerationComplete _ _ | .enumerationRetry _ | .protocolLoss _ | .hotJoin _ | .csi2Packet _ _ _ _ _ | .illegalTransition _
  =>
[.tiles, .ports, .wakeLog, .doms, .lds, .epoch, .lockIn, .fabLost, .racks, .worlds, .routers, .inbox, .hubPace, .marked,
     .spans, .lossQueue, .trcQueue]
| .enumerationTimeout _ =>
[.ports, .lds, .racks, .lossQueue, .trcQueue]
| .bulkTransfer _ _ _ _ _ _ =>
[.mem, .wakeLog, .doms, .pool, .lossQueue]
| .bulkComplete =>
[.lds, .racks, .pips, .pool, .lossQueue, .trcQueue]
| .rdS _ _ _ | .rdX _ _ _ | .wb _ _ _ _ | .memberFailed _ =>
[.freeCtr, .wakeLog, .doms, .pool, .lossQueue, .trcQueue]
| .evc _ _ _ =>
[.pool, .lossQueue, .trcQueue]
| .grantS _ | .grantX _ _ | .wbDone _ | .recall _ | .inv _ | .leaseTick | .leaseCheck _ _ | .rebuildWindow _ _ =>
[.pool]
| .ack | .poolWriteComplete _ _ | .poolReadComplete _ _ _ | .dirtyLineHoldExpiry =>
[.freeCtr, .pool, .lossQueue, .trcQueue]
| .bisnp _ _ _ _ =>
[.wakeLog, .doms, .pool, .lossQueue, .trcQueue]
| .lossItem =>
[.mem, .freeCtr, .wakeLog, .doms, .lds, .racks, .worlds, .lossQueue, .lossRing, .fences, .trcQueue]
| .drainEnd _ =>
[.mem, .tiles, .ports, .freeCtr, .wakeLog, .doms, .lds, .executing, .epoch, .lockIn, .fabLost, .racks, .worlds, .routers,
     .inbox, .hubPace, .marked, .spans, .pool, .lossQueue, .lossRing, .fences, .fenceCount, .notices, .trcQueue, .trace,
     .trcDrops]
| .updateWritten _ =>
[.mem, .tiles, .access, .ports, .portDest, .freeCtr, .pins, .wakeCfg, .doldrums, .power, .bootLog, .boot, .lds, .epoch,
     .hubCfg, .racks, .rackCfg, .pips, .worlds, .learnGrps, .routers, .spans, .pool, .lossQueue, .faultCfg, .fences,
     .trcQueue, .trace]
| .resetComplete _ =>
allBut [.pkg, .fuses, .pending, .masters, .links, .failedHeads, .answers, .slots, .advErr, .subs, .mail, .steward, .stackLost,
     .hostReqs]
| .stackLost _ =>
[.mem, .tiles, .freeCtr, .wakeLog, .doms, .lds, .executing, .epoch, .racks, .pips, .worlds, .routers, .inbox, .marked, .spans,
     .mail, .lossQueue, .lossRing, .fences, .fenceCount, .notices, .stackLost, .trcQueue]
| .recoveryRetry _ =>
[.mem, .tiles, .lossQueue]
| .stewardWatchdog | .stewardMemoryError =>
[.ports, .freeCtr, .wakeLog, .doms, .amend, .lds, .executing, .racks, .lossQueue, .steward, .trcQueue]
| .stewardRestart =>
[.freeCtr, .bootLog, .lds, .executing, .epoch, .racks, .pips, .worlds, .lossQueue, .steward, .trcQueue]
| .amendCommit =>
allBut [.pkg, .fuses, .pending, .wall, .halt, .rails, .thermal, .masters, .links, .failedHeads, .lockIn, .fabLost, .answers,
     .slots, .advErr, .subs, .inbox, .hubPace, .marked, .spans, .mail, .lossRing, .notices, .steward, .stackLost, .hostReqs,
     .trcDrops]
| .traceRecord =>
[.tiles, .freeCtr, .trcQueue, .trace, .trcDrops]
| .holdEntry _ =>
[.wakeCfg, .doms, .spans]
| .capWindow _ =>
[.power]
| .thermalThrottle _ _ =>
[.thermal, .power]
| .thermalClear _ =>
[.thermal]
| .thermalTrip _ _ | .doldrumsEntry | .doldrumsAuto | .supplyFault | .resetN _ _ | .alwaysOnSupplyLoss =>
allBut [.pkg, .fuses, .pending, .freeCtr]
| .wakeTimerExpiry =>
[.tiles, .ports, .freeCtr, .wakeLog, .rails, .wakeCfg, .doldrums, .doms, .lds, .epoch, .lockIn, .fabLost, .racks, .worlds,
     .routers, .inbox, .hubPace, .marked, .spans, .lossQueue, .fences, .fenceCount, .trcQueue]
| .perstRelease _ =>
[.wakeLog, .rails, .wakeCfg, .doldrums]
| .aonResetRelease =>
[.wall, .rails]
| .ready =>
allBut [.pkg, .pending]
| .pwrGoodTimeout | .railRetry =>
[.rails]
| .msixVectorUnmask _ _ =>
[.wakeLog, .doms, .masters, .lds]
| .spanHoldWake _ =>
[.wakeLog, .doms, .spans]
| .tracePortDrain _ =>
[.trcQueue, .trace, .trcDrops]
| .tripCooldown =>
[.wakeLog, .rails, .wakeCfg, .doldrums, .thermal]

end Sys2Proof.Machine
end

