-- ==== Sys2Proof/Certificates/Slice0/Obligations.lean ====
section
/-! DEFINITION. The statements for the provers: what the spec's rules say of the package's commands, one definition per
statement, over the meanings of Sys2Proof.Machine. -/

open Sys2Proof Sys2Proof.Machine

/-- R153, R154: a PUSH with a free entry above the hub's reserve appends the staged message, stamped, and reports DONE; one
without leaves the rack's messages alone and reports BUSY. A write to a rack window without USE changes nothing but HUB_ACC_ERR
(R200). Model's choices: log 76. -/
def Obligations.PushAppendsStampedMessage : Prop :=
  ∀ (s : State) (m rk : Nat) (hdr : DWord), s.isReady = true → s.has m (.rack rk) .use = true →
    (s.rack rk).enabled = true → s.isCmdRack rk = false →
    ((s.rack rk).hubReserve < (s.rack rk).free →
      ∃ t, exec (.push m rk hdr) s = .next t
        ∧ (t.rack rk).msgs = (s.rack rk).msgs ++
            [stampHeader hdr m rk (s.rack rk).next.toNat :: (stagedMsg s m rk hdr).tail]
        ∧ (t.rack rk).next = (s.rack rk).next + 1
        ∧ (tget {} rk (t.master m).rackRes).push = .done ∧ (t.master m).resp.code = .done
        ∧ tget [] rk (t.master m).staging = []
        ∧ ∀ j, j ≠ rk → t.rack j = s.rack j)
    ∧ (¬ (s.rack rk).hubReserve < (s.rack rk).free →
      ∃ t, exec (.push m rk hdr) s = .next t
        ∧ t.rack rk = { s.rack rk with refused := sat 16 (s.rack rk).refused 1 }
        ∧ (tget {} rk (t.master m).rackRes).push = .busy
        ∧ ∀ j, j ≠ rk → t.rack j = s.rack j)

/-- R158, R159: POP removes the head into the reader's latch, an empty rack answers the EMPTY word, PEEK and LATCH remove
nothing. RACK_ACK of v against head number h, with t - h messages in the rack: DONE removes h to v, REPEAT and FAILED_ACCESS
change nothing in the rack, and the code is latched in RACK_RES. -/
def Obligations.RackReadsTakeTheHead : Prop :=
  ∀ (s : State) (m rk : Nat), s.isReady = true → (s.rack rk).enabled = true → s.isCmdRack rk = false →
    (s.rack rk).bad = [] →
    (s.has m (.rack rk) .use = true →
      (∀ h r, (s.rack rk).msgs = h :: r → ∃ t, exec (.pop m rk) s = .next t
        ∧ (t.rack rk).msgs = r ∧ tget [] rk (t.master m).latches = padMsg h ∧ (t.master m).resp.words = padMsg h)
      ∧ ((s.rack rk).msgs = [] → ∃ t, exec (.pop m rk) s = .next t
        ∧ t.rack rk = s.rack rk ∧ (t.master m).resp.words = padMsg [emptyWord rk (s.rack rk).next])
      ∧ ∀ v h : Word, h = (s.rack rk).next - BitVec.ofNat 32 (s.rack rk).msgs.length → ∃ t, exec (.rackAck m rk v) s = .next t
          ∧ (∀ j, j ≠ rk → t.rack j = s.rack j)
          ∧ ((v - h).toNat < (s.rack rk).msgs.length →
            t.rack rk = { s.rack rk with msgs := (s.rack rk).msgs.drop ((v - h).toNat + 1) }
            ∧ (tget {} rk (t.master m).rackRes).ack = .done)
          ∧ ((s.rack rk).msgs.length ≤ (v - h).toNat → t.rack rk = s.rack rk
            ∧ (tget {} rk (t.master m).rackRes).ack = (if (h - 1 - v).toNat < 2 ^ 31 then .repeated else .failedAccess)))
    ∧ (s.has m (.rack rk) .read = true →
      (∃ t, exec (.peek m rk) s = .next t
        ∧ (t.master m).resp.words = padMsg (peekMsg s rk) ∧ (t.master m).resp.code = .done ∧ t.rack rk = s.rack rk)
      ∧ ∃ t, exec (.latch m rk) s = .next t
        ∧ (t.master m).resp.words = padMsg (tget [] rk (s.master m).latches) ∧ t.rack rk = s.rack rk)

/-- R157: a set POP serves the first member with a message in the order of the set's policy and remembers it as the last served;
a set PEEK shows that message and removes nothing. Model's choices: log 76. -/
def Obligations.SetServesThePolicyMember : Prop :=
  ∀ (s : State) (m n i rk : Nat) (h : List DWord) (r : List (List DWord)), s.isReady = true →
    (s.rackSet n).members.any s.isCmdRack = false → (∀ j, (s.rack j).bad = []) →
    setServe s (s.rackSet n) = some (i, rk) → (s.rack rk).msgs = h :: r →
    (s.hasSet m n .use = true → ∃ t, exec (.setPop m n) s = .next t
      ∧ (t.rack rk).msgs = r ∧ (t.rackSet n).last = i ∧ (t.master m).resp.words = padMsg h)
    ∧ (s.hasSet m n .read = true → ∃ t, exec (.setPeek m n) s = .next t
      ∧ (t.rack rk).msgs = h :: r ∧ (t.rackSet n).last = (s.rackSet n).last ∧ (t.master m).resp.words = padMsg h)

/-- R166: ADD, SET and TRYSUB on the selected pip by a master with USE. A COUNT pip adds modulo 2^32 and latches ovf when the
exact sum leaves the signed range; a FLAG or TURN pip adds modulo 2^32; a GATE pip runs its loop on the exact sum, and refuses
an ADD below 1. SET stores the value, in GATE mode through the loop. TRYSUB of a COUNT pip subtracts when 0 ≤ n ≤ count, else it
answers BUSY; of another mode it fails with FAILED_ACCESS. The code is latched in PIP_RES. -/
def Obligations.PipWritesByMode : Prop :=
  ∀ (s : State) (m : Nat) (v : Word), s.isReady = true → 2 ≤ (s.pipRight m (s.master m).pipSel).rank →
    let n := (s.master m).pipSel
    let p := s.pip n
    (p.mode = 0 → ∃ t, exec (.pipAdd m v) s = .next t
      ∧ t.pip n = { p with
          count := p.count + v
          ovf := p.ovf || p.count.toInt + v.toInt < -2147483648 || 2147483647 < p.count.toInt + v.toInt }
      ∧ (t.master m).pipResCode = .done ∧ (t.master m).pipResOp = 1 ∧ ∀ j, j ≠ n → t.pip j = s.pip j)
    ∧ (p.mode = 1 → 1 ≤ v.toInt → ∃ t, exec (.pipAdd m v) s = .next t
      ∧ (t.pip n).count = BitVec.ofNat 32 ((p.count.toNat + v.toNat) % p.target.toNat)
      ∧ (t.pip n).gen = p.gen + BitVec.ofNat 16 ((p.count.toNat + v.toNat) / p.target.toNat))
    ∧ (p.mode = 1 → v.toInt < 1 → ∃ t, exec (.pipAdd m v) s = .next t
      ∧ t.pips = s.pips ∧ (t.master m).pipResCode = .failedAccess)
    ∧ (2 ≤ p.mode → ∃ t, exec (.pipAdd m v) s = .next t
      ∧ t.pip n = { p with count := p.count + v } ∧ (t.master m).pipResCode = .done ∧ ∀ j, j ≠ n → t.pip j = s.pip j)
    ∧ (p.mode = 1 → ∃ t, exec (.pipSet m v) s = .next t
      ∧ (t.pip n).count = BitVec.ofNat 32 (v.toNat % p.target.toNat)
      ∧ (t.pip n).gen = p.gen + BitVec.ofNat 16 (v.toNat / p.target.toNat) ∧ (t.master m).pipResCode = .done)
    ∧ (p.mode ≠ 1 → ∃ t, exec (.pipSet m v) s = .next t
      ∧ t.pip n = { p with count := v } ∧ (t.master m).pipResCode = .done ∧ (t.master m).pipResOp = 2
      ∧ ∀ j, j ≠ n → t.pip j = s.pip j)
    ∧ (p.mode = 0 → 0 ≤ v.toInt → v.toInt ≤ p.count.toInt → ∃ t, exec (.pipTrysub m v) s = .next t
      ∧ t.pip n = { p with count := p.count - v } ∧ (t.master m).pipResCode = .done
      ∧ ∀ j, j ≠ n → t.pip j = s.pip j)
    ∧ (p.mode = 0 → v.toInt < 0 ∨ p.count.toInt < v.toInt → ∃ t, exec (.pipTrysub m v) s = .next t
      ∧ t.pips = s.pips ∧ (t.master m).pipResCode = .busy)
    ∧ (p.mode ≠ 0 → ∃ t, exec (.pipTrysub m v) s = .next t
      ∧ t.pips = s.pips ∧ (t.master m).pipResCode = .failedAccess)

/-- R165, R166: a configuration write by a master with ADMIN that leaves a valid pip takes effect at once, in GATE mode with the
GATE loop run; one that would leave a GATE pip with target 0, a TURN pip with period 0 or a mode above 3 changes no pip and
latches FAILED_ACCESS. Model's choices: log 19. -/
def Obligations.PipConfigurationIsChecked : Prop :=
  ∀ (s : State) (m : Nat) (v : Word), s.isReady = true → (s.pipRight m (s.master m).pipSel).rank = 3 →
    let n := (s.master m).pipSel
    let p := s.pip n
    let q := fun (x : Pip) => if x.mode = 1 then x.gateLoop x.count.toNat else x
    (({ p with target := v } : Pip).valid = true → ∃ t, exec (.pipTarget m v) s = .next t
      ∧ t.pip n = q { p with target := v } ∧ (t.master m).pipResCode = .done ∧ ∀ j, j ≠ n → t.pip j = s.pip j)
    ∧ (p.mode = 1 → v = 0 → ∃ t, exec (.pipTarget m v) s = .next t
      ∧ t.pips = s.pips ∧ (t.master m).pipResCode = .failedAccess)
    ∧ ((pipModeFields v p).valid = true → ∃ t, exec (.pipMode m v) s = .next t
      ∧ t.pip n = q (pipModeFields v p) ∧ (t.master m).pipResCode = .done ∧ ∀ j, j ≠ n → t.pip j = s.pip j)
    ∧ (3 < fb v.toNat 2 0 → ∃ t, exec (.pipMode m v) s = .next t
      ∧ t.pips = s.pips ∧ (t.master m).pipResCode = .failedAccess)
    ∧ ((pipModeFields (v ||| 0x200) p).valid = true → ∃ t, exec (.pipOvfClear m v) s = .next t
      ∧ (t.pip n).ovf = false ∧ (t.master m).pipResCode = .done ∧ ∀ j, j ≠ n → t.pip j = s.pip j)

/-- R166 to R169: WAIT registers a waiter and reserves its wake-rack entry, or posts the wake at once when its condition holds
already; ARRIVE on a GATE pip adds and registers a GEN waiter with the gen before the add; CANCEL frees the master's waiter and
its entry, and answers REPEAT where it has none. -/
def Obligations.PipWaitersHoldARackEntry : Prop :=
  ∀ (s : State) (m : Nat) (v : Word), s.isReady = true → 2 ≤ (s.pipRight m (s.master m).pipSel).rank →
    let n := (s.master m).pipSel
    let x := s.master m
    let y : Waiter := { pip := n, master := m, cond := x.waitCond, value := v, rack := x.waitRack, tag := x.waitTag }
    (waitCode s m n x.waitCond = .done → y.holds (s.pip n) = false →
      (∀ z ∈ s.pips.waiters, (z.pip = n && z.holds (s.pip n)) = false) →
      ∃ t, exec (.pipWait m v) s = .next t ∧ t.pips.waiters = s.pips.waiters ++ [y]
        ∧ (t.rack x.waitRack).reserved = (s.rack x.waitRack).reserved + 1
        ∧ (t.rack x.waitRack).msgs = (s.rack x.waitRack).msgs ∧ (t.master m).pipResCode = .done)
    ∧ (waitCode s m n x.waitCond = .done → y.holds (s.pip n) = true →
      (∀ z ∈ s.pips.waiters, (z.pip = n && z.holds (s.pip n)) = false) →
      ∃ t, exec (.pipWait m v) s = .next t ∧ t.pips.waiters = s.pips.waiters
        ∧ (t.rack x.waitRack).msgs.length = (s.rack x.waitRack).msgs.length + 1
        ∧ (t.rack x.waitRack).reserved = (s.rack x.waitRack).reserved ∧ (t.master m).pipResCode = .done)
    ∧ (waitCode s m n x.waitCond ≠ .done → ∃ t, exec (.pipWait m v) s = .next t
        ∧ t.pips = s.pips ∧ (t.master m).pipResCode = waitCode s m n x.waitCond)
    ∧ ((s.pip n).mode = 1 → 1 ≤ v.toInt → (s.pip n).count.toNat + v.toNat < (s.pip n).target.toNat → s.pips.waiters = [] →
      waitCode s m n 4 = .done → ∃ t, exec (.pipArrive m v) s = .next t
        ∧ t.pip n = { s.pip n with count := BitVec.ofNat 32 ((s.pip n).count.toNat + v.toNat) }
        ∧ t.pips.waiters = [{ y with cond := 4, value := (s.pip n).gen.zeroExtend 32 }]
        ∧ (t.master m).pipResCode = .done)
    ∧ (∀ w, s.pips.waiters = [w] → w.pip = n → w.master = m → w.tag = fb v.toNat 15 0 →
      ∃ t, exec (.pipCancel m v) s = .next t ∧ t.pips.waiters = []
        ∧ (t.rack w.rack).reserved = (s.rack w.rack).reserved - 1 ∧ (t.master m).pipResCode = .done)
    ∧ (s.pips.waiters.any (fun w => w.pip = n && w.master = m && w.tag = fb v.toNat 15 0) = false →
      ∃ t, exec (.pipCancel m v) s = .next t ∧ t.pips = s.pips ∧ (t.master m).pipResCode = .repeated)

/-- R155: COMMAND_DISPATCH takes the head command of a command rack once an entry of the completion rack is free: the message
leaves the rack, an entry is reserved, and the command stands in execution with its opcode, source and words. Model's choices:
log 1. -/
def Obligations.DispatchTakesTheHeadCommand : Prop :=
  ∀ (s : State) (rk n : Nat) (msg : List DWord) (r : List (List DWord)), s.isReady = true → s.pwr.dispatchOff = false →
    s.ldOfRack rk = some n → (s.rack rk).bad = [] → (s.rack rk).msgs = msg :: r →
    (s.ld n).cplRack ≠ rk → 0 < (s.rack (s.ld n).cplRack).free → tget 0 rk s.hub.failedHeads = 0 →
    (badCmd msg = false → ∃ t, exec (.commandDispatch rk) s = .next t
      ∧ (t.rack rk).msgs = r
      ∧ (t.rack (s.ld n).cplRack).reserved = (s.rack (s.ld n).cplRack).reserved + 1
      ∧ t.hub.executing = s.hub.executing ++
          [{ rk := rk, seq := wf (msg.headD 0) 63 32, src := wf (msg.headD 0) 7 2, op := wf (msg.headD 0) 15 8, words := msg,
             stage := 0 }])
    ∧ (badCmd msg = true → s.flt.stwReset = false → ∃ t, exec (.commandDispatch rk) s = .next t
      ∧ (t.rack rk).msgs = r
      ∧ Completed t rk (wf (msg.headD 0) 63 32) (wf (msg.headD 0) 15 8) .failedAccess [])

/-- R211, R214: SYNC, when every earlier command of its rack has completed, and NOP complete with DONE for a master with USE on
their command rack, and with FAILED_ACCESS for one without. Model's choices: log 1. -/
def Obligations.SyncAndNopComplete : Prop :=
  ∀ (s : State) (rk seq : Nat) (c : ExecCmd),
    (Begins s rk seq 0x3E c → ∃ t, exec (.sync rk seq) s = .next t
      ∧ Completed t rk seq 0x3E (if s.has c.src (.rack rk) .use then .done else .failedAccess) [])
    ∧ (Begins s rk seq 0x3F c → ∃ t, exec (.hostNop rk seq) s = .next t
      ∧ Completed t rk seq 0x3F (if s.has c.src (.rack rk) .use then .done else .failedAccess) [])

/-- R35, R41: START of a STANDBY world that its code allows runs it from its anchor: S and T stand there, no turn has opened or
closed, and the command completes with DONE. -/
def Obligations.StartRunsTheWorldFromItsAnchor : Prop :=
  ∀ (s : State) (rk seq : Nat) (c : ExecCmd), Begins s rk seq 0x03 c →
    let w := wf (c.words.getD 1 0) 12 0
    let a := wf (c.words.getD 1 0) 63 24
    (s.startCode c.src w a = .done → ∃ t, exec (.start rk seq) s = .next t
      ∧ (t.world w).st = .running ∧ (t.world w).anchor = a ∧ (t.world w).s = a ∧ (t.world w).t = a
      ∧ (t.world w).opened = 0 ∧ (t.world w).closed = 0 ∧ Completed t rk seq 0x03 .done [])
    ∧ (s.startCode c.src w a ≠ .done → ∃ t, exec (.start rk seq) s = .next t
      ∧ t.tmp = s.tmp ∧ Completed t rk seq 0x03 (s.startCode c.src w a) [])

/-- R37, R38, R42: PARK of a RUNNING world leaves it PARKED with cause HOST and its tempo where it stood; on a PARKED world it
completes without effect; UNPARK with JUMP runs the world from the start of turn j, and without it from where it stood, with the
refused advances cleared. -/
def Obligations.ParkHoldsTempoAndUnparkResumes : Prop :=
  ∀ (s : State) (rk seq : Nat) (c : ExecCmd),
    let w1 := c.words.getD 1 0
    let w := wf w1 12 0
    (Begins s rk seq 0x04 c → w < s.worldLimit → s.has c.src (.world w) .admin = true →
      ((s.world w).st = .running → ∃ t, exec (.park rk seq) s = .next t
        ∧ (t.world w).st = .parked ∧ (t.world w).parkCause = 6 ∧ (t.world w).t = (s.world w).t
        ∧ (t.world w).s = (s.world w).s ∧ Completed t rk seq 0x04 .done [])
      ∧ ((s.world w).st = .parked → ∃ t, exec (.park rk seq) s = .next t
        ∧ t.tmp = s.tmp ∧ Completed t rk seq 0x04 .done []))
    ∧ (Begins s rk seq 0x05 c → s.unparkCode c.src w1 (c.words.getD 2 0) = .done →
      (wf w1 13 13 = 1 → wf w1 15 15 = 0 → ∃ t, exec (.unpark rk seq) s = .next t
        ∧ (t.world w).st = .running ∧ (t.world w).t = (s.world w).start (wf w1 47 16)
        ∧ (t.world w).s = (s.world w).start (wf w1 47 16) ∧ (t.world w).padv = 0
        ∧ (t.world w).jumpTo = wf w1 47 16 ∧ Completed t rk seq 0x05 .done [])
      ∧ (wf w1 13 13 = 0 → wf w1 15 15 = 0 → (s.world w).srcKind = 1 → ∃ t, exec (.unpark rk seq) s = .next t
        ∧ (t.world w).st = .running ∧ (t.world w).s = (s.world w).s ∧ (t.world w).padv = 0
        ∧ (t.world w).rem = 0 ∧ Completed t rk seq 0x05 .done []))

/-- R35, R42, R356: RETIRE of a world that is not FREE leaves it RETIRING with the command begun and waiting; RETIRE_COMPLETE,
once nothing of the world is in flight, frees its slot and completes the command with DONE. Model's choices: log 13. -/
def Obligations.RetireEndsInAFreeSlot : Prop :=
  ∀ (s : State) (rk seq : Nat) (c : ExecCmd),
    (let w := wf (c.words.getD 1 0) 12 0
     Begins s rk seq 0x06 c → w < s.worldLimit → s.has c.src (.world w) .admin = true → (s.world w).st ≠ .free →
      (s.world w).st ≠ .retiring → ∃ t, exec (.retire rk seq) s = .next t
        ∧ (t.world w).st = .retiring ∧ (t.world w).retireCmd = some (rk, seq)
        ∧ t.findExec rk seq = some { c with stage := 1 })
    ∧ (∀ w, (s.world w).st = .retiring → s.unsettled w (2 ^ 41) = false →
        s.tiles.any (fun e => e.2.run.any (fun r => r.w = w)) = false → (s.world w).retireCmd = some (rk, seq) →
        s.findExec rk seq = some c → s.boot.amending = none →
        ∃ t, exec (.retireComplete w) s = .next t ∧ t.world w = {} ∧ Completed t rk seq c.op .done [])

/-- R40, R42: an ADVANCE of a RUNNING HOST-sourced world that the lag limit allows moves S by delta, and T toward S but not past
the start of a turn that has not opened; one that would exceed the limit moves nothing and completes with BUSY. GROUP_ADVANCE
does so lane by lane and answers the mask of the lanes advanced; TMP_HOST_ADV does so without a command. -/
def Obligations.AdvanceMovesSourceTempo : Prop :=
  ∀ (s : State) (rk seq : Nat) (c : ExecCmd) (m w delta : Nat), w < s.worldLimit →
    s.has m (.world w) .use = true → (s.world w).srcKind = 1 → isHost m = true → (s.world w).srcIndex = ldOf m →
    (s.world w).st = .running → (s.world w).s + delta ≤ maxTempo →
    let x := s.world w
    let moved := fun (t : State) => (t.world w).s = x.s + delta
      ∧ (t.world w).t = max x.t (min (x.s + delta) (x.start x.opened)) ∧ (t.world w).st = .running
    (w ∉ s.followers w → (x.s + delta) - s.reach w (x.s + delta) ≤ x.limit →
      (Begins s rk seq 0x01 c → c.src = m → wf (c.words.getD 1 0) 12 0 = w → wf (c.words.getD 1 0) 39 16 = delta →
        ∃ t, exec (.advance rk seq) s = .next t ∧ moved t ∧ Completed t rk seq 0x01 .done [])
      ∧ (Begins s rk seq 0x02 c → c.src = m → c.targets = [(1, w)] → wf (c.words.getD 1 0) 39 16 = delta →
        ∃ t, exec (.groupAdvance rk seq) s = .next t ∧ moved t
          ∧ Completed t rk seq 0x02 .done [BitVec.ofNat 64 (2 ^ (w % 32))])
      ∧ (∀ v : Word, s.isReady = true → fb v.toNat 31 19 = w → fb v.toNat 18 0 = delta →
        ∃ t, exec (.tmpHostAdv m v) s = .next t ∧ moved t ∧ t.tmp.advErrCnt = s.tmp.advErrCnt))
    ∧ (x.limit < (x.s + delta) - s.reach w (x.s + delta) →
      (Begins s rk seq 0x01 c → c.src = m → wf (c.words.getD 1 0) 12 0 = w → wf (c.words.getD 1 0) 39 16 = delta →
        ∃ t, exec (.advance rk seq) s = .next t ∧ (t.world w).s = x.s ∧ (t.world w).t = x.t
          ∧ Completed t rk seq 0x01 .busy [])
      ∧ (∀ v : Word, s.isReady = true → fb v.toNat 31 19 = w → fb v.toNat 18 0 = delta → s.tmp.advErrValid = false →
        ∃ t, exec (.tmpHostAdv m v) s = .next t ∧ (t.world w).s = x.s ∧ (t.world w).t = x.t
          ∧ t.tmp.advErrValid = true ∧ t.tmp.advErrWorld = w ∧ t.tmp.advErrCode = .busy
          ∧ t.tmp.advErrCnt = sat 32 s.tmp.advErrCnt 1))

/-- R20, R161: TURN_OPEN opens the next turn of a world that may open it: the turn count rises by 1, and the turn's result slot
shows NOT_READY with its channels cleared; a turn that may not open changes nothing. -/
def Obligations.TurnOpenClearsItsSlot : Prop :=
  ∀ (s : State) (w : Nat),
    (s.canOpen w (s.world w).t = true → (s.world w).notBefore ≤ s.aon.wall →
      (s.world w).notBefore = 0 → s.capDelay w = 0 → ∃ t, exec (.turnOpen w) s = .next t
        ∧ (t.world w).opened = (s.world w).opened + 1 ∧ (t.world w).closed = (s.world w).closed
        ∧ tget {} (slotKey w (s.world w).opened) t.tmp.slots = { turn := (s.world w).opened }
        ∧ ∀ k, k ≠ slotKey w (s.world w).opened → tget {} k t.tmp.slots = tget {} k s.tmp.slots)
    ∧ (s.canOpen w (s.world w).t = false → exec (.turnOpen w) s = .next s)

/-- R12, R38, R161, R163: TURN_CLOSE closes the lowest open turn once it may close and writes its snapshot READY into the turn's
slot; a turn skipped by a JUMP writes none and is counted. -/
def Obligations.TurnCloseWritesTheSnapshot : Prop :=
  ∀ (s : State) (w : Nat), s.canClose w = true →
    let n := (s.world w).closed
    ((s.world w).skips n = false → ∃ t, exec (.turnClose w) s = .next t
      ∧ (t.world w).closed = n + 1 ∧ (t.world w).skipped = 0
      ∧ tget {} (slotKey w n) t.tmp.slots = s.snapshot w n ∧ (s.snapshot w n).ready = true
      ∧ (∀ k, k ≠ slotKey w n → tget {} k t.tmp.slots = tget {} k s.tmp.slots)
      ∧ ∀ j, j ≠ w → t.world j = s.world j)
    ∧ ((s.world w).skips n = true → ∃ t, exec (.turnClose w) s = .next t
      ∧ (t.world w).closed = n + 1 ∧ (t.world w).skipped = (s.world w).skipped + 1 ∧ t.tmp.slots = s.tmp.slots)

/-- R126: a tile's TURN_REPORT for an open turn adds its flags and its drop counts to the turn, once for each tile. -/
def Obligations.TurnReportAddsTheTilesCounts : Prop :=
  ∀ (s : State) (v : Volley) (r : List Volley) (lane turn intake wheel : Nat) (nd inc ls : Bool),
    tget [] tempoEp s.fab.inbox = v :: r → v.body = .turnReport lane nd inc ls turn intake wheel →
    let w := v.group * 32 + lane
    let i := tget {} turn (s.world w).turns
    (s.world w).closed ≤ turn → turn < (s.world w).opened → (s.world w).st = .running →
    i.reports.contains (epKey v.src.x v.src.y) = false → ∃ t, exec .turnReport s = .next t
      ∧ tget {} turn (t.world w).turns = { i with
          reports := epKey v.src.x v.src.y :: i.reports
          nondet := i.nondet || nd
          incomplete := i.incomplete || inc
          loss := i.loss || ls
          intake := sat 32 i.intake intake
          wheel := sat 32 i.wheel wheel }
      ∧ ∀ j, j ≠ w → t.world j = s.world j

/-- R26, R27, R30, R36: a tether check without an advance in time parks the world with cause TETHER; a peer's SUBSCRIBE is held
while fewer than 64 are; a peer's increment advances its follower here through the follower's scale; a leader that parks takes
its follower with it, cause LEADER; a sweep acknowledgement takes its tile off the notice. Model's choices: log 13, log 20, log
28, log 71. -/
def Obligations.TethersPeersAndSweeps : Prop :=
  ∀ (s : State) (lk w f inc : Nat) (v : Volley) (r : List Volley) (x t n : Nat) (b : Bool),
    ((s.world w).st = .running → (s.world w).lastAdv + 1000 * (s.world w).tetherMs ≤ s.aon.wall →
      ∃ u, exec (.tetherExpiry w) s = .next u ∧ (u.world w).st = .parked ∧ (u.world w).parkCause = 1
        ∧ (u.world w).t = (s.world w).t)
    ∧ (s.tmp.subs.length < 64 → s.tmp.subs.contains (lk, w, f) = false →
      ∃ u, exec (.subscribe lk w f) s = .next u ∧ u.tmp.subs = s.tmp.subs ++ [(lk, w, f)] ∧ u.tmp.worlds = s.tmp.worlds)
    ∧ (s.tmp.subs.length = 64 → exec (.subscribe lk w f) s = .next s)
    ∧ (s.peerFollowers lk w = [f] → (s.world f).st = .parked →
      ∃ u, exec (.tempoFwd lk w inc) s = .next u ∧ u.world f = { s.world f with padv := sat 32 (s.world f).padv 1 })
    ∧ (s.peerFollowers lk w = [f] → (s.world f).st = .running →
      (s.world f).s + ((s.world f).rem + inc * (s.world f).scaleMul) / (s.world f).scaleDiv ≤ maxTempo →
      ∃ u, exec (.tempoFwd lk w inc) s = .next u
        ∧ (u.world f).s = (s.world f).s + ((s.world f).rem + inc * (s.world f).scaleMul) / (s.world f).scaleDiv
        ∧ (u.world f).rem = ((s.world f).rem + inc * (s.world f).scaleMul) % (s.world f).scaleDiv)
    ∧ (s.peerFollowers lk w = [f] → (s.world f).st = .running →
      ∃ u, exec (.leaderParked lk w) s = .next u ∧ (u.world f).st = .parked ∧ (u.world f).parkCause = 7)
    ∧ (tget [] tempoEp s.fab.inbox = v :: r → v.body = .control b (.sweepAck t x n) →
      ∃ u, exec .sweepAck s = .next u ∧ (u.world x).sweeps = swept t n (s.world x).sweeps
        ∧ ∀ j, j ≠ x → u.world j = s.world j)

/-- R212: an INJECT of one event of a RUNNING world with a Lockstep destination joins the volley of its slot and completes with
DONE; an INJECT into a STANDBY or PARKED world, or of a channel without an injection entry, is refused whole. Model's choices:
log 29. -/
def Obligations.InjectIsTakenWholeOrRefused : Prop :=
  ∀ (s : State) (rk seq : Nat) (c : ExecCmd) (d : DWord), Begins s rk seq 0x07 c → 3 ≤ c.words.length →
    let w := wf (c.words.getD 1 0) 12 0
    let e := injectEvent c 0
    wf (c.words.getD 1 0) 14 13 = 0 → w < s.worldLimit → s.has c.src (.world w) .use = true →
    ((s.world w).st = .running → tfind e.1 s.hub.injection = some d → s.lockstep (destClass d) = true →
      (s.world w).hubEmit ≤ (s.world w).t + e.2.2 → ∃ t, exec (.inject rk seq) s = .next t
        ∧ t.hub.lockIn = s.hub.lockIn ++
            [{ ep := epKey 32 0, ch := e.1, w := w, tempo := (s.world w).t + e.2.2, dest := d, value := e.2.1 }]
        ∧ Completed t rk seq 0x07 .done [])
    ∧ ((s.world w).st = .standby → ∃ t, exec (.inject rk seq) s = .next t
        ∧ t.hub.lockIn = s.hub.lockIn ∧ t.fab = s.fab ∧ Completed t rk seq 0x07 .notReady [])
    ∧ ((s.world w).st = .parked → ∃ t, exec (.inject rk seq) s = .next t
        ∧ t.hub.lockIn = s.hub.lockIn ∧ t.fab = s.fab ∧ Completed t rk seq 0x07 .failedParked [])
    ∧ ((s.world w).st = .running → tfind e.1 s.hub.injection = none → ∃ t, exec (.inject rk seq) s = .next t
        ∧ t.hub.lockIn = s.hub.lockIn ∧ t.fab = s.fab ∧ Completed t rk seq 0x07 .failedAccess [])

/-- R76, R82, R83: NOP, the moves and the loads write only rd, leave N, Z and I alone, take 1 hc and go on at the next address.
-/
def Obligations.GambitMovesWriteOneRegister : Prop :=
  ∀ (s : State) (t : Nat) (r : Run) (rd ra : BitVec 3) (i17 : BitVec 17) (i16 : BitVec 16) (k : BitVec 4) (pos : BitVec 7)
    (wm1 : BitVec 5) (sx : Bool),
    (Fetched s t (.gNop t) r → ∃ u, exec (.gNop t) s = .next u ∧ RunGoesOn s u t (r.next 1))
    ∧ (Fetched s t (.gMov t rd ra) r →
      ∃ u, exec (.gMov t rd ra) s = .next u ∧ RunGoesOn s u t (r.wrote rd (r.reg ra) 1))
    ∧ (Fetched s t (.gMovi t rd i17) r →
      ∃ u, exec (.gMovi t rd i17) s = .next u ∧ RunGoesOn s u t (r.wrote rd (i17.signExtend 32) 1))
    ∧ (Fetched s t (.gMovhi t rd i16) r → ∃ u, exec (.gMovhi t rd i16) s = .next u
      ∧ RunGoesOn s u t (r.wrote rd (i16 ++ (r.reg rd).extractLsb' 0 16) 1))
    ∧ (Fetched s t (.gLdp t rd k) r → ∃ u, exec (.gLdp t rd k) s = .next u
      ∧ RunGoesOn s u t (r.wrote rd (mdParam (tget [] r.slot (s.tile t).models) k.toNat) 1))
    ∧ (Fetched s t (.gLdf t rd pos wm1 sx) r → ∃ u, exec (.gLdf t rd pos wm1 sx) s = .next u
      ∧ RunGoesOn s u t (r.wrote rd (ldField r.buf pos.toNat (wm1.toNat + 1) sx) 1))

/-- R81, R83: the sums and differences: ADD, SUB and ADDI wrap; ADDS, SUBS and ADDSI saturate the exact result to 24 bits. Each
writes only rd and leaves the flags alone. -/
def Obligations.GambitSumsWrapOrSaturate : Prop :=
  ∀ (s : State) (t : Nat) (r : Run) (rd ra rb : BitVec 3) (im : BitVec 17),
    (Fetched s t (.gAdd t rd ra rb) r → ∃ u, exec (.gAdd t rd ra rb) s = .next u
      ∧ RunGoesOn s u t (r.wrote rd (r.reg ra + r.reg rb) 1))
    ∧ (Fetched s t (.gSub t rd ra rb) r → ∃ u, exec (.gSub t rd ra rb) s = .next u
      ∧ RunGoesOn s u t (r.wrote rd (r.reg ra - r.reg rb) 1))
    ∧ (Fetched s t (.gAddi t rd ra im) r → ∃ u, exec (.gAddi t rd ra im) s = .next u
      ∧ RunGoesOn s u t (r.wrote rd (r.reg ra + im.signExtend 32) 1))
    ∧ (Fetched s t (.gAdds t rd ra rb) r → ∃ u, exec (.gAdds t rd ra rb) s = .next u
      ∧ RunGoesOn s u t
        (r.wrote rd (BitVec.ofInt 32 (min (max ((r.reg ra).toInt + (r.reg rb).toInt) (-8388608)) 8388607)) 1))
    ∧ (Fetched s t (.gSubs t rd ra rb) r → ∃ u, exec (.gSubs t rd ra rb) s = .next u
      ∧ RunGoesOn s u t
        (r.wrote rd (BitVec.ofInt 32 (min (max ((r.reg ra).toInt - (r.reg rb).toInt) (-8388608)) 8388607)) 1))
    ∧ (Fetched s t (.gAddsi t rd ra im) r → ∃ u, exec (.gAddsi t rd ra im) s = .next u
      ∧ RunGoesOn s u t
        (r.wrote rd (BitVec.ofInt 32 (min (max ((r.reg ra).toInt + im.toInt) (-8388608)) 8388607)) 1))

/-- R83: MIN and MAX compare as signed numbers, AND, OR and XOR are bitwise, and the shifts shift in zeros or, for SHRI, the
sign. Each writes only rd and leaves the flags alone. -/
def Obligations.GambitLogicAndShifts : Prop :=
  ∀ (s : State) (t : Nat) (r : Run) (rd ra rb : BitVec 3) (sh : BitVec 5),
    (Fetched s t (.gMin t rd ra rb) r → ∃ u, exec (.gMin t rd ra rb) s = .next u
      ∧ RunGoesOn s u t (r.wrote rd (BitVec.ofInt 32 (min (r.reg ra).toInt (r.reg rb).toInt)) 1))
    ∧ (Fetched s t (.gMax t rd ra rb) r → ∃ u, exec (.gMax t rd ra rb) s = .next u
      ∧ RunGoesOn s u t (r.wrote rd (BitVec.ofInt 32 (max (r.reg ra).toInt (r.reg rb).toInt)) 1))
    ∧ (Fetched s t (.gAnd t rd ra rb) r → ∃ u, exec (.gAnd t rd ra rb) s = .next u
      ∧ RunGoesOn s u t (r.wrote rd (r.reg ra &&& r.reg rb) 1))
    ∧ (Fetched s t (.gOr t rd ra rb) r → ∃ u, exec (.gOr t rd ra rb) s = .next u
      ∧ RunGoesOn s u t (r.wrote rd (r.reg ra ||| r.reg rb) 1))
    ∧ (Fetched s t (.gXor t rd ra rb) r → ∃ u, exec (.gXor t rd ra rb) s = .next u
      ∧ RunGoesOn s u t (r.wrote rd (r.reg ra ^^^ r.reg rb) 1))
    ∧ (Fetched s t (.gShli t rd ra sh) r → ∃ u, exec (.gShli t rd ra sh) s = .next u
      ∧ RunGoesOn s u t (r.wrote rd (r.reg ra <<< sh.toNat) 1))
    ∧ (Fetched s t (.gShri t rd ra sh) r → ∃ u, exec (.gShri t rd ra sh) s = .next u
      ∧ RunGoesOn s u t (r.wrote rd ((r.reg ra).sshiftRight sh.toNat) 1))
    ∧ (Fetched s t (.gShrli t rd ra sh) r → ∃ u, exec (.gShrli t rd ra sh) s = .next u
      ∧ RunGoesOn s u t (r.wrote rd (r.reg ra >>> sh.toNat) 1))

/-- R81, R83, R85, R87, R88: DECZ floors the wrapped difference at 0; MULQ and MULQI round the exact product half upward over
the shift and saturate; LEAK decays by the table; RAND draws from the run's LFSR, seeded by its first draw. -/
def Obligations.GambitProductsLeakAndDraws : Prop :=
  ∀ (s : State) (t : Nat) (r : Run) (rd ra rb : BitVec 3) (sh n : BitVec 5) (im : BitVec 12) (tb : BitVec 3),
    (Fetched s t (.gDecz t rd ra rb) r → ∃ u, exec (.gDecz t rd ra rb) s = .next u
      ∧ RunGoesOn s u t
        (r.wrote rd (if (r.reg ra - r.reg rb).toInt < 0 then 0 else r.reg ra - r.reg rb) 1))
    ∧ (Fetched s t (.gMulq t rd ra rb sh) r → ∃ u, exec (.gMulq t rd ra rb sh) s = .next u
      ∧ RunGoesOn s u t (r.wrote rd (mulq (r.reg ra).toInt (r.reg rb).toInt sh.toNat) 2))
    ∧ (Fetched s t (.gMulqi t rd ra im sh) r → ∃ u, exec (.gMulqi t rd ra im sh) s = .next u
      ∧ RunGoesOn s u t (r.wrote rd (mulq (r.reg ra).toInt im.toInt sh.toNat) 2))
    ∧ (Fetched s t (.gLeak t rd ra rb tb) r → ∃ u, exec (.gLeak t rd ra rb tb) s = .next u
      ∧ RunGoesOn s u t
        (r.wrote rd (BitVec.ofInt 32 (leak (tget [] tb.toNat (s.tile t).leaks) (r.reg ra).toInt (r.reg rb).toInt))
          (leakHc (tget [] tb.toNat (s.tile t).leaks) (r.reg rb).toInt)))
    ∧ (∀ x, r.lfsr = some x → Fetched s t (.gRand t rd n) r → ∃ u, exec (.gRand t rd n) s = .next u
      ∧ RunGoesOn s u t { (r.wrote rd (randBits (lfsrRun 32 x) n.toNat) 1) with lfsr := some (lfsrRun 32 x) })
    ∧ (r.lfsr = none → Fetched s t (.gRand t rd n) r → ∃ u, exec (.gRand t rd n) s = .next u
      ∧ RunGoesOn s u t
        { (r.wrote rd (randBits (lfsrRun 32 (lfsrSeed (s.tile t).seed r.w r.neuron r.now)) n.toNat) 3) with
          lfsr := some (lfsrRun 32 (lfsrSeed (s.tile t).seed r.w r.neuron r.now)) })

/-- R83, R84: CMP and CMPI set N and Z from the exact difference and write no register; B goes to its target in 2 hc when its
condition (of the eight of R84) holds and on in 1 hc when it does not; STF stores a field of the record buffer. -/
def Obligations.GambitComparesBranchesAndStores : Prop :=
  ∀ (s : State) (t : Nat) (r : Run) (ra rb cond : BitVec 3) (im : BitVec 17) (target : BitVec 9) (pos : BitVec 7)
    (wm1 : BitVec 5) (sat n z i : Bool),
    condHolds 0 n z i = true ∧ condHolds 1 n z i = z ∧ condHolds 2 n z i = !z ∧ condHolds 3 n z i = n ∧ condHolds 4 n z i = !n
    ∧ condHolds 5 n z i = (!n && !z) ∧ condHolds 6 n z i = (n || z) ∧ condHolds 7 n z i = i
    ∧ (Fetched s t (.gCmp t ra rb) r → ∃ u, exec (.gCmp t ra rb) s = .next u
      ∧ RunGoesOn s u t { r.next 1 with
          n := decide ((r.reg ra).toInt - (r.reg rb).toInt < 0)
          z := decide ((r.reg ra).toInt - (r.reg rb).toInt = 0) })
    ∧ (Fetched s t (.gCmpi t ra im) r → ∃ u, exec (.gCmpi t ra im) s = .next u
      ∧ RunGoesOn s u t { r.next 1 with
          n := decide ((r.reg ra).toInt - im.toInt < 0)
          z := decide ((r.reg ra).toInt - im.toInt = 0) })
    ∧ (Fetched s t (.gB t cond target) r → condHolds cond r.n r.z r.i = true → ∃ u, exec (.gB t cond target) s = .next u
      ∧ RunGoesOn s u t { r.next 2 with pc := target.toNat })
    ∧ (Fetched s t (.gB t cond target) r → condHolds cond r.n r.z r.i = false →
      ∃ u, exec (.gB t cond target) s = .next u ∧ RunGoesOn s u t (r.next 1))
    ∧ (Fetched s t (.gStf t ra pos wm1 sat) r → ∃ u, exec (.gStf t ra pos wm1 sat) s = .next u
      ∧ RunGoesOn s u t { r.next 1 with buf := stField r.buf pos.toNat (wm1.toNat + 1) (r.reg ra) sat })

/-- R83, R89 to R91, R97: WAKE keeps the last d above 0; an EMIT whose condition holds requests the emission of the run's first
EMIT, and a later one only counts; END, and an EMIT with its end bit, complete the run, which writes its record back; a run that
has used its steps is abandoned with a RUN loss item of FAILED_GAMBIT. -/
def Obligations.GambitRunsRequestAndEnd : Prop :=
  ∀ (s : State) (t : Nat) (r : Run) (cond ra : BitVec 3) (useImm bin learn : Bool) (im : BitVec 6),
    (Fetched s t (.gWake t ra useImm im) r → ∃ u, exec (.gWake t ra useImm im) s = .next u
      ∧ RunGoesOn s u t
        { r.next 1 with
          wake := if (if useImm then im.toNat else (r.reg ra).toNat % 64) = 0 then r.wake
            else some (if useImm then im.toNat else (r.reg ra).toNat % 64) })
    ∧ (Fetched s t (.gEmit t cond ra bin learn false) r → r.emit = none → condHolds cond r.n r.z r.i = true →
      ∃ u, exec (.gEmit t cond ra bin learn false) s = .next u
        ∧ RunGoesOn s u t { r.next 1 with emit := some (if bin then 1 else clampByte (r.reg ra), learn) })
    ∧ (Fetched s t (.gEmit t cond ra bin learn false) r → r.emit ≠ none → condHolds cond r.n r.z r.i = true →
      ∃ u, exec (.gEmit t cond ra bin learn false) s = .next u ∧ (u.tile t).run = some (r.next 1)
        ∧ (u.tile t).gbEmit2 = sat 32 (s.tile t).gbEmit2 1)
    ∧ (Fetched s t (.gEmit t cond ra bin learn false) r → condHolds cond r.n r.z r.i = false →
      ∃ u, exec (.gEmit t cond ra bin learn false) s = .next u ∧ RunGoesOn s u t (r.next 1))
    ∧ ((s.tile t).due = [] → (s.tile t).upd = [] → r.emit = none → r.wake = none →
      (Fetched s t (.gEnd t) r → ∃ u, exec (.gEnd t) s = .next u ∧ RunEnded s u t r)
      ∧ (Fetched s t (.gEmit t cond ra bin learn true) r → condHolds cond r.n r.z r.i = false →
        ∃ u, exec (.gEmit t cond ra bin learn true) s = .next u ∧ RunEnded s u t r))
    ∧ ((s.tile t).due = [] → (s.tile t).upd = [] → (s.tile t).run = some r → (s.tile t).stepLimit r ≤ r.steps →
      ∃ u, exec (.gambitStepOverrun t) s = .next u ∧ (u.tile t).run = none
        ∧ (u.tile t).gbFaultCnt = sat 32 (s.tile t).gbFaultCnt 1
        ∧ (u.tile t).gbFaultCause = (if (s.tile t).gbFaultValid then (s.tile t).gbFaultCause else 1)
        ∧ u.flt.queue = s.flt.queue ++ [s.runItem t r .failedGambit])

/-- R204: the fixed rules override every table, and an owner holds ADMIN on its own world or pip. Reads (R162, R199, R200,
R351): a read of BAR0 or BAR2 that is allowed returns the registers' words at once, a 4-byte read of a LO register latches its
HI register for the master, a HI read returns and releases that latch, and a refused read is poison, counted and latched (which
refusal comes first, and 8-byte reads: the model's choice, log 36, log 37, log 76). -/
def Obligations.RegisterReadsReturnLatchOrRefuse : Prop :=
  (∀ (s : State) (m : Nat) (tg : Target), s.right 1 tg = .admin ∧ s.right 0 tg = (if s.isReady then .none else .admin)
      ∧ (s.right 2 tg).rank ≤ 1 ∧ (0x3C ≤ m → s.right m tg = .none)
      ∧ (3 ≤ m → m < 0x3C → (∀ w, tg = .world w → w < s.worldLimit → (s.world w).st ≠ .free → (s.world w).owner = m →
          s.right m tg = .admin)
        ∧ ∀ n, (tfind n s.pips.pips).isSome = true → (s.pip n).owner = m → s.pipRight m n = .admin))
  ∧ ∀ (s : State) (m off size : Nat),
    (s.isReady = true → s.cmdRegion m off = false) → (size = 4 → hiReg off = false) → ownRead off size = false →
    ((∀ t, barBlock off ≠ .tile t) → s.readRefusal m off size = none → ∃ u, exec (.loRead m false off size) s = .next u
      ∧ Answered u m (s.readAt m off size)
      ∧ (loReg off = true → size = 4 →
        tfind off (u.master m).loLatch = some (BitVec.ofNat 32 (s.regWord m (off + 4)))))
    ∧ (∀ c, s.readRefusal m off size = some c → ∃ u, exec (.loRead m false off size) s = .next u ∧ Refused s u m off c true)
    ∧ (s.isReady = true → (size = 4 ∨ size = 8 ∨ size = 16 ∨ size = 32 ∨ size = 64) → off % size = 0 → off + size ≤ 2 ^ 27 →
      ∃ u, exec (.loRead m true off size) s = .next u
        ∧ (s.has m (.world (off / 0x4000)) .read = true →
          Answered u m (readWords (s.slotWord (off / 0x4000) (off / 0x1000 % 4)) (off % 0x1000) size))
        ∧ (s.has m (.world (off / 0x4000)) .read = false → (u.master m).resp.code = .failedAccess
          ∧ (u.master m).resp.poison = false
          ∧ (u.master m).resp.words = readWords (fun i => if i = 0 then slotHead 0 .failedAccess 0 0 else 0) (off % 0x1000) size))
    ∧ (∀ h v, hiReg h = true → s.readRefusal m h 4 = none → tfind (h - 4) (s.master m).loLatch = some v →
      ∃ u, exec (.hiRead m h) s = .next u ∧ Answered u m [v.zeroExtend 64]
        ∧ tfind (h - 4) (u.master m).loLatch = none)
    ∧ (∀ h c, hiReg h = true → s.readRefusal m h 4 = some c →
      ∃ u, exec (.hiRead m h) s = .next u ∧ Refused s u m h c true)

/-- R7, R200, R207, R349: a write sets the fields of the register at its offset by their types, and a refused one changes only
what reports it; HUB_LOSS_TAIL frees records, TILE_CLEAR clears its counters, and unmasking a pending vector fires it. Model's
choices: log 38, log 76. -/
def Obligations.RegisterWritesByFieldType : Prop :=
  ∀ (s : State) (m : Nat) (v : BitVec 256) (x : Word),
    (∀ off, s.isReady = true → ownWrite off = false → s.barCheck m off 4 false (if adminWrite off then .admin else .use) = none →
      ∃ u, exec (.registerWrite m false off 4 v) s = .next u
        ∧ (off = 0x300000 → (u.master m).pipSel = fb (v.extractLsb' 0 32).toNat 17 0)
        ∧ (off = 0x3030 → (u.master m).fenceSel = fb (v.extractLsb' 0 32).toNat 11 0)
        ∧ (off = 0x200 → (u.master m).errValid = ((s.master m).errValid && !(v.getLsbD 31)))
        ∧ (off = 0x700100 → u.aon.wakeEn = (v.extractLsb' 0 32).truncate 23)
        ∧ (off = 0x000 → u = s.respond m []))
    ∧ (∀ off c, ownWrite off = false → s.writeRefusal m off 4 = some c →
      ∃ u, exec (.registerWrite m false off 4 v) s = .next u ∧ Refused s u m off c false)
    ∧ (s.isReady = true → s.has m .hubBlock .admin = true → (x - s.flt.tail).toNat ≤ (s.flt.head - s.flt.tail).toNat →
      ∃ u, exec (.hubLossTail m x) s = .next u ∧ u.flt.tail = x ∧ Answered u m [])
    ∧ (s.isReady = true → s.has m .hubBlock .admin = true → (s.flt.head - s.flt.tail).toNat < (x - s.flt.tail).toNat →
      ∃ u, exec (.hubLossTail m x) s = .next u ∧ u.flt = s.flt ∧ Refused s u m 0x3004 .failedAccess false)
    ∧ (∀ g, g < 256 → s.isReady = true → s.has m .tempoBlock .admin = true → ∃ u, exec (.tmpLearnGrp m g x) s = .next u
      ∧ (tget {} g u.tmp.groups).frozen = x.getLsbD 2 ∧ Answered u m [])
    ∧ (∀ t, t < 2048 → s.isReady = true → s.has m (.tile t) .admin = true → s.tilePresent t = true → s.tileActive t = true →
      x.getLsbD 0 = true → ∃ u, exec (.tileClear m t x) s = .next u ∧ Answered u m []
        ∧ (u.tile t).gbRuns = 0 ∧ (u.tile t).gbFaultCnt = 0 ∧ (u.tile t).sqSrcs = [] ∧ (u.tile t).ueSram = 0
        ∧ (u.tile t).intakeHigh = (s.tile t).intake.length ∧ (u.tile t).wheelHigh = (s.tile t).wheel.length)
    ∧ (∀ i, i < 32 → s.isReady = true → isHost m = true → (s.ld (ldOf m)).pba.getLsbD i = true →
      ∃ u, exec (.msixVectorUnmask m i) s = .next u ∧ (u.ld (ldOf m)).masked.getLsbD i = false
        ∧ (u.ld (ldOf m)).pba.getLsbD i = false
        ∧ tget 0 i (u.ld (ldOf m)).fired = tget 0 i (s.ld (ldOf m)).fired + 1)

/-- R134, R295, R296: an access to a tile's window leaves for its draft station as a configuration message, the tile answers it,
and the reply completes the host's access or, when that has already failed, is counted in HUB_LATE. Model's choices: log 62. -/
def Obligations.TileRegistersGoByMessage : Prop :=
  ∀ (s : State) (m t o size : Nat) (v : Word) (d : DWord) (c : Code) (rest : List Mail) (x : Volley) (more : List Volley),
    (t < 2048 → o < 0x4000 → (size = 4 → hiReg (tileOff t o) = false) → s.readRefusal m (tileOff t o) size = none →
      ∃ u, exec (.loRead m false (tileOff t o) size) s = .next u ∧ u.flt.hostReqs = s.flt.hostReqs ++ [(m, t, o, size)])
    ∧ (s.fab.mail = { dst := t, body := .ctl (.cfgWrite t 0x14 v m) } :: rest → s.tileActive t = true →
      ∃ u, exec (.cfgWrite t) s = .next u ∧ (u.tile t).wsel = fb v.toNat 12 0)
    ∧ (s.fab.mail = { dst := t, body := .ctl (.cfgRead t o size m) } :: rest → s.tileActive t = true →
      ∃ u, exec (.cfgRead t) s = .next u
        ∧ u = (({ s with fab.mail := rest } : State).wakeTile t 1 m).fromRoot (stackOf t) 32
          (.cfgReply t o size (BitVec.ofNat 64 ((({ s with fab.mail := rest } : State).wakeTile t 1 m).tileWord t o
            + (({ s with fab.mail := rest } : State).wakeTile t 1 m).tileWord t (o + 4) * 2 ^ 32)) .done m))
    ∧ (tget [] (epKey 32 0) s.fab.inbox = x :: more → (∃ a, x.body = .control a (.cfgReply t o size d c m)) →
      (s.flt.hostReqs.any (fun e => e.1 = m && e.2.1 = t) = false →
        ∃ u, exec .cfgReply s = .next u ∧ u.flt.late = sat 32 s.flt.late 1)
      ∧ (s.flt.hostReqs.any (fun e => e.1 = m && e.2.1 = t) = true →
        (c = .done → size = 8 → ∃ u, exec .cfgReply s = .next u ∧ Answered u m [d]
          ∧ u.flt.hostReqs = dropReq m t s.flt.hostReqs)
        ∧ (c = .done → size = 0 → ∃ u, exec .cfgReply s = .next u ∧ Answered u m [])
        ∧ (c ≠ .done → ∃ u, exec .cfgReply s = .next u ∧ Refused s u m (tileOff t o) c (decide (size ≠ 0)))))

/-- R171, R174: a host line read returns the 64 bytes of its package address, and one that fails returns poison; a host line
write stores its 64 bytes there and changes no other byte, and one that fails is discarded; each failure is counted in
POOL_HDM_ERR, which keeps the first one's code. Model's choices: log 9, log 11. -/
def Obligations.HostLinesReadAndWriteMemory : Prop :=
  ∀ (s : State) (m line : Nat) (data : BitVec 512) (c : Code),
    (s.hdmCode m (64 * line) false = none → ∃ u, exec (.hdmRead m line) s = .next u ∧ u.mem = s.mem
      ∧ Answered u m (lineWords (s.mem.readLine (s.memAddr (64 * line)))))
    ∧ (s.hdmCode m (64 * line) false = some c → ∃ u, exec (.hdmRead m line) s = .next u ∧ u.mem = s.mem
      ∧ (u.master m).resp.code = c ∧ (u.master m).resp.poison = true ∧ u.pool = s.pool.hdmFail c (64 * line))
    ∧ (s.hdmCode m (64 * line) true = none → s.mem.wf = true → ∃ u, exec (.hdmWrite m line data) s = .next u
      ∧ Answered u m []
      ∧ (∀ k, k < 64 → u.mem.read (s.memAddr (64 * line) + k) = data.extractLsb' (8 * k) 8)
      ∧ (∀ a, a < s.memAddr (64 * line) ∨ s.memAddr (64 * line) + 64 ≤ a → u.mem.read a = s.mem.read a))
    ∧ (s.hdmCode m (64 * line) true = some c → ∃ u, exec (.hdmWrite m line data) s = .next u ∧ u.mem = s.mem
      ∧ u.pool.hdmErrValid = true ∧ u.pool.hdmErrCount = sat 15 s.pool.hdmErrCount 1
      ∧ u.pool.hdmErrCode = (if s.pool.hdmErrValid then s.pool.hdmErrCode else c))

/-- R193, R197, R216: H2D snoops answer RspIHitI; Set LD Allocations grants the whole HDM range or none and rejects anything
else as Invalid Input; Get LD Info and Get LD Allocations answer what stands; a retrain is counted and loses nothing. Model's
choices: log 6, log 41. -/
def Obligations.CxlRequestsAreAnswered : Prop :=
  ∀ (s : State) (k n a : Nat) (b : Bool),
    ((s.link k).state = 2 → ∃ u, exec (.h2dSnoop k a) s = .next u ∧ u.hub.snoopHitI = true ∧ u.mem = s.mem)
    ∧ ((s.ld n).enabled = true → ∃ u, exec (.setLdAllocations n (some b)) s = .next u ∧ u.hub.fmResp = [0]
      ∧ u.ld n = { s.ld n with hdm := b } ∧ ∀ j, j ≠ n → u.ld j = s.ld j)
    ∧ (∃ u, exec (.setLdAllocations n none) s = .next u ∧ u.hub.fmResp = [2] ∧ u.hub.lds = s.hub.lds)
    ∧ ((s.link k).state = 2 → ∃ u, exec (.getLdInfo k) s = .next u ∧ u.hub.fmResp = [0, 2 ^ 39, 16])
    ∧ ((s.link k).state = 2 → ∃ u, exec (.getLdAllocations k) s = .next u
      ∧ u.hub.fmResp = 0 :: (s.portLds k).flatMap (fun n => [n, if (s.ld n).hdm then 2 ^ 39 else 0]))
    ∧ (2 ≤ (s.link k).state → ∃ u, exec (.linkRecovery k) s = .next u
      ∧ u.link k = { s.link k with retrains := sat 16 (s.link k).retrains 1 } ∧ (∀ j, j ≠ k → u.link j = s.link j) ∧ Only [.links] s u)

/-- R192, R217 to R219: a link comes up at its trained width and rate with its LDs; a port's drop or hot reset takes its link
down; a drop of one LD unbinds it, a function reset leaves it bound, and both clear its staging areas. Model's choices: log 13.
-/
def Obligations.LinksComeUpAndDrop : Prop :=
  ∀ (s : State) (k n width : Nat) (fast lopt : Bool),
    (s.aon.phase = .running → s.mayTrain k width lopt false = true → ∃ u, exec (.cxlLinkUp k width fast lopt false) s = .next u
      ∧ u.link k = { s.link k with state := 2, width := width, rate := if fast then 2 else 1, lopt := lopt }
      ∧ (∀ j, j ≠ k → u.link j = s.link j) ∧ u.hub.masters = s.hub.masters ∧ u.access = s.access ∧ u.racks = s.racks)
    ∧ ((s.link k).state ≠ 0 → (∃ u, exec (.linkDrop (.port k)) s = .next u ∧ (u.link k).state = 0
        ∧ (u.link k).drops = sat 16 (s.link k).drops 1)
      ∧ (∃ u, exec (.hotReset (.port k)) s = .next u ∧ (u.link k).state = 0))
    ∧ ((s.ld n).enabled = true → (∃ u, exec (.linkDrop (.ld n)) s = .next u ∧ (u.ld n).up = false
        ∧ (u.master (4 + n)).staging = [])
      ∧ (∃ u, exec (.hotReset (.ld n)) s = .next u ∧ (u.master (4 + n)).staging = []))
    ∧ ((s.ld n).enabled = true → s.sourced 1 n = [] → s.hub.executing = [] → (s.rack (s.ld n).cmdRack).msgs = [] →
      (∃ u, exec (.linkDrop (.ld n)) s = .next u
        ∧ u.ld n = { s.ld n with up := false, drops := sat 16 (s.ld n).drops 1 })
      ∧ (∃ u, exec (.hotReset (.ld n)) s = .next u ∧ u.ld n = { s.ld n with drops := sat 16 (s.ld n).drops 1 }))

/-- R271 to R273, R275, R284, R287, R289: a domain that may enter Lull or Hold enters it; a request wakes it, and a wake from
Hold is recorded; DOMAIN_READY ends the exit stall; POWER_REQ wakes, reports and throttles. Model's choices: log 13, log 17, log
47. -/
def Obligations.DomainsSleepAndWake : Prop :=
  ∀ (s : State) (d : Nat),
    (s.mayEnter d 1 = true → s.domClass d ≠ some 7 → s.domClass d ≠ some 8 → ∃ u, exec (.lullEntry d) s = .next u
      ∧ u.dom d = { s.dom d with state := 1 } ∧ ∀ j, j ≠ d → u.dom j = s.dom j)
    ∧ (s.mayEnter d 2 = true → s.domClass d ≠ some 8 → ∃ u, exec (.holdEntry d) s = .next u
      ∧ u.dom d = { s.dom d with state := 2 } ∧ (∀ j, j ≠ d → u.dom j = s.dom j)
      ∧ u.aon.tetherAt = (if d = 1 then s.tetherDeadline else s.aon.tetherAt))
    ∧ (s.mayEnter d 2 = true → s.domClass d = some 8 → ∃ u, exec (.holdEntry d) s = .next u
      ∧ (u.span (d - 0x010)).hold = 1 ∧ u.pwr = s.pwr)
    ∧ ((s.dom d).waking.isSome = true → s.domClass d ≠ some 8 → ∃ u, exec (.domainReady d) s = .next u
      ∧ u.dom d = { s.dom d with state := 0, waking := none, idle := false } ∧ ∀ j, j ≠ d → u.dom j = s.dom j)
    ∧ ((s.dom d).state ≠ 0 → (s.dom d).waking = none → ∃ u, exec (.powerReqWake d) s = .next u
      ∧ (u.dom d).waking = some (2, stewardEp) ∧ (u.dom d).idle = false ∧ (u.dom d).state = (s.dom d).state
      ∧ ((s.dom d).state = 2 → u.aon.wakeLast = wakeRecord 2 2 d stewardEp s.aon.wall
        ∧ u.aon.wakeHead = (s.aon.wakeHead + 1) % 16 ∧ tget 0 s.aon.wakeHead u.aon.wakeHist = u.aon.wakeLast)
      ∧ ((s.dom d).state ≠ 2 → u.aon = s.aon))
    ∧ ((s.domClass d).isSome = true → ∃ u, exec (.powerReqIdle d) s = .next u ∧ u.dom d = { s.dom d with idle := true })
    ∧ (∀ c x, s.domClass d = some c → c ≤ 2 → x < 3 → ∃ u, exec (.powerReqState d x) s = .next u
      ∧ u.dom d = { s.dom d with state := x, waking := none })
    ∧ (s.pwr.level ≠ 0 → ∃ u, exec (.powerReqCap d true) s = .next u ∧ ∀ t, (u.tile t).throttled =
        (if t ∈ s.reqTiles d then true else (s.tile t).throttled))
    ∧ (∃ u, exec (.powerReqCap d false) s = .next u ∧ ∀ t, (u.tile t).throttled =
        (if t ∈ s.reqTiles d then false else (s.tile t).throttled))

/-- R278, R286, R288, R344: POWER_SET sets the cap, a class's depth or asks for Doldrums, for a master with ADMIN on the power
block; each window's end applies the law of the throttle level; the sensors hold level 7, clear it, and trip the package.
Model's choices: log 48, log 49. -/
def Obligations.PowerIsCappedAndSensed : Prop :=
  ∀ (s : State) (rk seq : Nat) (c : ExecCmd) (p sensor tj : Nat),
    (Begins s rk seq 0x28 c → s.has c.src .powerBlock .admin = true →
      (wf (c.words.getD 1 0) 1 0 = 0 → ∃ u, exec (.powerSetCap rk seq) s = .next u ∧ Completed u rk seq 0x28 .done []
        ∧ u.pwr.setCap = wf (c.words.getD 1 0) 31 16)
      ∧ (wf (c.words.getD 1 0) 1 0 = 1 →
        ((9 < wf (c.words.getD 1 0) 7 4 ∨ wf (c.words.getD 1 0) 9 8 = 3) → ∃ u, exec (.powerSetDepth rk seq) s = .next u
          ∧ Completed u rk seq 0x28 .failedAccess [] ∧ u.pwr.cfg = s.pwr.cfg)
        ∧ (wf (c.words.getD 1 0) 7 4 ≤ 9 → wf (c.words.getD 1 0) 9 8 ≠ 3 → ∃ u, exec (.powerSetDepth rk seq) s = .next u
          ∧ Completed u rk seq 0x28 .done []
          ∧ u.pwr.cfg.depth = setDepth s.pwr.cfg.depth (wf (c.words.getD 1 0) 7 4) (wf (c.words.getD 1 0) 9 8)))
      ∧ (wf (c.words.getD 1 0) 1 0 = 2 → s.quietWorlds = true → s.cmdRacksEmpty = true → s.hub.executing = [c] →
        ∃ u, exec (.powerSetDoldrums rk seq) s = .next u ∧ Completed u rk seq 0x28 .done []
          ∧ u.aon.wakeTimer = wf (c.words.getD 1 0) 63 32 ∧ u.pwr.doldPending = true ∧ u.pwr.dispatchOff = true)
      ∧ (wf (c.words.getD 1 0) 1 0 = 2 → s.quietWorlds = false → ∃ u, exec (.powerSetDoldrums rk seq) s = .next u
          ∧ Completed u rk seq 0x28 .busy [] ∧ u.pwr.doldPending = s.pwr.doldPending))
    ∧ (s.isReady = true → s.aon.phase = .running → ∃ u, exec (.capWindow p) s = .next u ∧ u.pwr.avg = p
      ∧ u.pwr.capOver = (if 10 * s.effCap < p then sat 32 s.pwr.capOver 1 else s.pwr.capOver)
      ∧ (s.flt.stwReset = true ∨ s.aon.therm = true → u.pwr.level = s.pwr.level)
      ∧ (s.flt.stwReset = false → s.aon.therm = false → (u.pwr.level, u.pwr.under) =
        (if 10 * s.effCap < p then (min (s.pwr.level + 1) 7, 0)
        else if p ≤ 10 * s.effCap - 10 * s.effCap / 16 then
          (if s.pwr.under + 1 = 4 then (max (s.pwr.level - 1) 0, 0) else (s.pwr.level, s.pwr.under + 1))
        else (s.pwr.level, 0))))
    ∧ (s.aon.phase ≠ .aonReset → 100 ≤ tj → ∃ u, exec (.thermalThrottle sensor tj) s = .next u ∧ u.aon.therm = true
      ∧ u.pwr.level = 7 ∧ u.aon.sensor = sensor ∧ u.aon.tjMax = satv 7 tj)
    ∧ (s.aon.therm = true → tj ≤ 95 → ∃ u, exec (.thermalClear tj) s = .next u ∧ u.aon.therm = false
      ∧ u.pwr = s.pwr ∧ u.aon.tjMax = satv 7 tj)
    ∧ (s.aon.phase ≠ .aonReset → 110 ≤ tj → ∃ u, exec (.thermalTrip sensor tj) s = .next u ∧ u.aon.tripped = true
      ∧ u.aon.therm = true ∧ u.aon.phase = .doldrums)
    ∧ (s.aon.tripped = true → ∃ u, exec .tripCooldown s = .next u ∧ u.aon.tripped = false ∧ u.aon.therm = false
      ∧ (s.aon.phase = .doldrums → ∀ k d, s.aon.latched = some (k, d) → u.aon.railEn = true ∧ u.aon.phase = .porAsserted
        ∧ u.aon.wakeLast = wakeRecord k 3 0 d s.aon.wall))

/-- R278 to R280, R282, R335 to R339: the package enters Doldrums and wakes from it, powers up, and loses the state of its
switched domains at a supply fault or a reset pin, and all but its hard fuses with the always-on supply. Model's choices: log
13, log 50. -/
def Obligations.SuppliesComeAndGo : Prop :=
  ∀ (s : State) (k us : Nat),
    (s.pwr.doldPending = true → s.aon.latched = none → ∃ u, exec .doldrumsEntry s = .next u ∧ u.aon.phase = .doldrums
      ∧ u.aon.railEn = false ∧ u.aon.doldEntries = sat 16 s.aon.doldEntries 1 ∧ u.tiles = [] ∧ u.fuses = s.fuses)
    ∧ (s.isReady = true → s.aon.phase = .running → s.pwr.cfg.autoMs ≠ 0 → s.quietWorlds = true → s.cmdRacksEmpty = true →
      s.trc.st = 0 → s.hub.links.all (fun e => decide (e.2.state < 2)) = true → s.pool.stripe ≠ 2 → s.aon.latched = none →
      ∃ u, exec .doldrumsAuto s = .next u ∧ u.aon.phase = .doldrums ∧ u.aon.railEn = false)
    ∧ (s.aon.phase = .doldrums → s.aon.tripped = false → s.aon.tetherAt = none → s.aon.wakeTimer ≠ 0 →
      s.aon.wakeEn.getLsbD 20 = true → ∃ u, exec .wakeTimerExpiry s = .next u ∧ u.aon.phase = .porAsserted
        ∧ u.aon.railEn = true ∧ u.aon.wakeLast = wakeRecord 6 3 0 0 s.aon.wall)
    ∧ (s.aon.phase = .doldrums → s.aon.tripped = false → k < s.pkg.cxlPorts → s.aon.wakeEn.getLsbD (21 + k) = true →
      ∃ u, exec (.perstRelease k) s = .next u ∧ u.aon.phase = .porAsserted ∧ u.aon.railEn = true
        ∧ u.aon.wakeLast = wakeRecord 7 3 0 k s.aon.wall)
    ∧ (s.aon.phase = .aonReset → ∃ u, exec .aonResetRelease s = .next u ∧ u.aon.wall = 0 ∧ u.aon.railEn = true
      ∧ u.aon.phase = .porAsserted)
    ∧ (s.aon.phase = .porAsserted → s.aon.railEn = true → s.aon.pwrGood = false → ∃ u, exec .pwrGoodTimeout s = .next u
      ∧ u.aon.railEn = false ∧ u.aon.phase = .railsDown ∧ u.aon.railFaults = sat 16 s.aon.railFaults 1)
    ∧ (s.aon.phase = .railsDown → ∃ u, exec .railRetry s = .next u ∧ u.aon.railEn = true ∧ u.aon.phase = .porAsserted)
    ∧ (s.aon.phase = .running → ∃ u, exec .supplyFault s = .next u ∧ u.aon.phase = .porAsserted
      ∧ u.aon.railFaults = sat 16 s.aon.railFaults 1 ∧ u.aon.railEn = s.aon.railEn ∧ u.aon.pwrGood = false
      ∧ u.tiles = [] ∧ u.racks = {} ∧ u.tmp = {} ∧ u.mem = {} ∧ u.fuses = s.fuses)
    ∧ (10 ≤ us → s.aon.phase = .running → ∃ u, exec (.resetN true us) s = .next u ∧ u.aon.phase = .porAsserted
      ∧ u.aon.resetLow = true ∧ u.aon.railFaults = s.aon.railFaults ∧ u.tiles = [] ∧ u.racks = {} ∧ u.tmp = {})
    ∧ (∃ u, exec (.resetN false us) s = .next u ∧ u = { s with aon.resetLow := false })
    ∧ (∃ u, exec .alwaysOnSupplyLoss s = .next u ∧ u.aon.phase = .aonReset ∧ u.aon.warm.valid = false ∧ u.tiles = []
      ∧ u.aon.wall = 0 ∧ u.fuses = s.fuses ∧ u.pkg = s.pkg)

/-- R235 to R242, R342: an event sets an ARMED output by its kind and is dropped and counted at any other; holds end, ramps move
and reach SAFE, a deferred compare takes effect, a transmit slot is sent; HALT_N drives every channel SAFE; PORT_REARM arms.
Model's choices: log 9, log 13, log 69. -/
def Obligations.OutputsTakeEventsAndReachSafe : Prop :=
  ∀ (s : State) (n ch ns rk seq : Nat) (v : Volley) (e : Word) (more : List Volley) (d : OutDesc) (c : ExecCmd),
    (tget [] (portEp n) s.fab.inbox = v :: more → v.body = .events [e] → (s.port n).st ≠ .fenced →
      s.domActive (portDom n) = true →
      ((s.port n).desc (evRow e) = none → ∃ u, exec (.outputEvent n) s = .next u
        ∧ u.flt.queue = s.flt.queue ++ [portItem v e .failedAccess (s.coord (portEp n)) false] ∧ u.ports = s.ports)
      ∧ ((s.port n).desc (evRow e) = some d → outWorld d = v.group * 32 + evLane e →
        (((s.port n).out (evRow e)).ostate = .armed → ∃ u, exec (.outputEvent n) s = .next u
          ∧ ((u.port n).out (evRow e)).value = evValue e ∧ ((u.port n).out (evRow e)).ostate = .armed
          ∧ (outKind d = 0 → ((u.port n).out (evRow e)).pin = if outThr d ≤ evValue e then 1 else 0)
          ∧ (outKind d = 1 → outSync d = false → ((u.port n).out (evRow e)).compare = (evValue e * outPeriod d + 127) / 255)
          ∧ (outKind d = 1 → outSync d = true →
            ((u.port n).out (evRow e)).nextCompare = some ((evValue e * outPeriod d + 127) / 255)))
        ∧ (((s.port n).out (evRow e)).ostate ≠ .armed → ∃ u, exec (.outputEvent n) s = .next u
          ∧ ((u.port n).out (evRow e)).drops = sat 32 ((s.port n).out (evRow e)).drops 1
          ∧ ((u.port n).out (evRow e)).value = ((s.port n).out (evRow e)).value)))
    ∧ ((s.port n).cfg.mode = 6 → ch < 8 → (s.port n).recessive = false →
      (((s.port n).slot ch).due = true ∨ ((s.port n).slot ch).resend = true) → ∃ u, exec (.canSlotSend n ch) s = .next u
        ∧ (u.port n).slot ch = { (s.port n).slot ch with due := false, sent := ((s.port n).slot ch).sent + 1 })
    ∧ ((s.port n).desc ch = some d → ((s.port n).out ch).ostate = .hold → ∃ u, exec (.holdExpiry n ch) s = .next u
      ∧ ((u.port n).out ch).ostate = (if outKind d = 0 ∨ outRamp d = 0 ∨ ((s.port n).out ch).value = outTarget d
        then .safe else .ramp))
    ∧ ((s.port n).desc ch = some d → ((s.port n).out ch).ostate = .ramp → ∃ u, exec (.rampStep n ch) s = .next u
      ∧ ((u.port n).out ch).value = rampValue ((s.port n).out ch).value (outTarget d) (outRamp d)
      ∧ ((u.port n).out ch).ostate =
        (if rampValue ((s.port n).out ch).value (outTarget d) (outRamp d) = outTarget d then .safe else .ramp))
    ∧ (∀ k, ((s.port n).out ch).nextCompare = some k → ∃ u, exec (.pwmPeriodStart n ch) s = .next u
      ∧ ((u.port n).out ch).compare = k ∧ ((u.port n).out ch).nextCompare = none)
    ∧ (100 ≤ ns → s.aon.phase ≠ .aonReset → s.aon.haltN = false → ∃ u, exec (.haltNAssert ns) s = .next u
      ∧ u.aon.haltN = true ∧ u.aon.haltCount = sat 16 s.aon.haltCount 1
      ∧ ∀ j k f, (s.port j).desc k = some f → ((u.port j).out k).ostate = .safe)
    ∧ (ns < 50 → ∃ u, exec (.haltNAssert ns) s = .next u ∧ u = s)
    ∧ (s.aon.haltN = true → ∃ u, exec .haltNRelease s = .next u ∧ u.aon.haltN = false
      ∧ ∀ j, (u.port j).recessive = false ∧ (u.port j).outs = (s.port j).outs)
    ∧ (Begins s rk seq 0x18 c → s.has c.src (.port (wf (c.words.getD 1 0) 3 0)) .admin = true →
      s.domActive (portDom (wf (c.words.getD 1 0) 3 0)) = true → wf (c.words.getD 1 0) 4 4 = 0 →
      (s.port (wf (c.words.getD 1 0) 3 0)).desc (wf (c.words.getD 1 0) 13 8) = some d →
      ((s.port (wf (c.words.getD 1 0) 3 0)).out (wf (c.words.getD 1 0) 13 8)).ostate = .safe →
      (s.armCode (wf (c.words.getD 1 0) 3 0) (wf (c.words.getD 1 0) 13 8) d = none → ∃ u, exec (.portRearm rk seq) s = .next u
        ∧ Completed u rk seq 0x18 .done [BitVec.ofNat 64 (2 ^ wf (c.words.getD 1 0) 13 8)]
        ∧ ((u.port (wf (c.words.getD 1 0) 3 0)).out (wf (c.words.getD 1 0) 13 8)).ostate = .armed)
      ∧ (∀ k, s.armCode (wf (c.words.getD 1 0) 3 0) (wf (c.words.getD 1 0) 13 8) d = some k → k ≠ .failedLink →
        ∃ u, exec (.portRearm rk seq) s = .next u ∧ Completed u rk seq 0x18 k [0]
        ∧ ((u.port (wf (c.words.getD 1 0) 3 0)).out (wf (c.words.getD 1 0) 13 8)).ostate = .safe))

/-- R221 to R226, R230, R233, R241: a debounced presence change, the end, failure or retry of enumeration, a protocol loss, a
Hot-Join and a run of illegal transitions move a port between DETACHED, ENUMERATING and ATTACHED, with their causes. Model's
choices: log 13, log 26. -/
def Obligations.PortsAttachAndDetach : Prop :=
  ∀ (s : State) (n : Nat) (pids : List (BitVec 48)),
    let instant := (s.port n).cfg.mode = 3 ∨ (s.port n).cfg.mode = 4 ∨ (s.port n).cfg.mode = 5
    (s.aon.phase ≠ .aonReset → s.isReady = true → (s.port n).cfg.presIgnore = false →
      ((s.port n).pres = false → (s.port n).st = .detached → ∃ u, exec (.presenceChange n true) s = .next u
        ∧ (u.port n).st = (if instant then .attached else .enumerating))
      ∧ ((s.port n).pres = true → (s.port n).st = .attached → ∃ u, exec (.presenceChange n false) s = .next u
        ∧ (u.port n).st = .detached ∧ (u.port n).cause = 0 ∧ (u.port n).detaches = sat 16 (s.port n).detaches 1)
      ∧ ((s.port n).pres = true → (s.port n).st = .enumerating → ∃ u, exec (.presenceChange n false) s = .next u
        ∧ (u.port n).st = .detached ∧ (u.port n).cause = 0 ∧ (u.port n).detaches = (s.port n).detaches))
    ∧ (s.aon.phase ≠ .aonReset → s.isReady = false → (s.port n).pres = false → ∃ u, exec (.presenceChange n true) s = .next u
      ∧ (u.port n).pres = true ∧ (u.port n).st = (s.port n).st)
    ∧ ((s.port n).st = .enumerating →
      (((s.port n).cfg.mode = 1 → (s.port n).targetsAnswer pids = true) → ∃ u, exec (.enumerationComplete n pids) s = .next u
        ∧ (u.port n).st = .attached ∧ (u.port n).cause = 3 ∧ (u.port n).attaches = sat 16 (s.port n).attaches 1)
      ∧ ((s.port n).cfg.mode = 1 → (s.port n).targetsAnswer pids = false → ∃ u, exec (.enumerationComplete n pids) s = .next u
        ∧ (u.port n).st = .detached ∧ (u.port n).enumFail = true ∧ (u.port n).cause = 4)
      ∧ (∃ u, exec (.enumerationTimeout n) s = .next u ∧ (u.port n).st = .detached ∧ (u.port n).enumFail = true
        ∧ (u.port n).cause = 4))
    ∧ (s.isReady = true → (s.port n).st = .detached → (s.port n).present = true → ∃ u, exec (.enumerationRetry n) s = .next u
      ∧ (u.port n).st = (if instant then .attached else .enumerating))
    ∧ ((s.port n).st = .attached →
      ((s.port n).cfg.mode ≠ 5 → ∃ u, exec (.protocolLoss n) s = .next u ∧ (u.port n).st = .detached ∧ (u.port n).cause = 2
        ∧ (u.port n).detaches = sat 16 (s.port n).detaches 1)
      ∧ ((s.port n).cfg.mode = 1 → ∃ u, exec (.hotJoin n) s = .next u ∧ (u.port n).st = .enumerating ∧ (u.port n).cause = 1)
      ∧ ((s.port n).cfg.mode = 4 →
        ((s.port n).illegalRun.filter (fun x => decide (s.aon.wall < x + 1000))).length < 15 →
        ∃ u, exec (.illegalTransition n) s = .next u ∧ (u.port n).st = .attached
          ∧ (u.port n).encErr = sat 32 (s.port n).encErr 1 ∧ (u.port n).encPos = (s.port n).encPos)
      ∧ ((s.port n).cfg.mode = 4 →
        15 ≤ ((s.port n).illegalRun.filter (fun x => decide (s.aon.wall < x + 1000))).length →
        ∃ u, exec (.illegalTransition n) s = .next u ∧ (u.port n).st = .detached ∧ (u.port n).cause = 2))

/-- R227, R228, R230 to R234: protocol input of an ATTACHED port in its mode is captured on the channels the map gives it; a
captured input of an invalid channel is ignored, of a world not RUNNING is counted, and under Lockstep waits for its turn.
Model's choices: log 24. -/
def Obligations.PortInputsAreCaptured : Prop :=
  ∀ (s : State) (n : Nat) (b : Byte) (bytes : List Byte) (ws : List Word) (e : DWord) (cw : DWord),
    (s.port n).st = .attached →
    ((s.port n).cfg.mode = 3 → tget 0 b.toNat (s.port n).cfg.chans = cw →
      (((s.port n).cfg.inCount ≤ b.toNat ∨ wf cw 57 57 = 0) → ∃ u, exec (.aerAddress n b) s = .next u
        ∧ (u.port n).ignored = sat 16 (s.port n).ignored 1 ∧ u.tmp = s.tmp)
      ∧ (b.toNat < (s.port n).cfg.inCount → wf cw 57 57 = 1 → (s.world (wf cw 44 32)).st ≠ .running →
        ∃ u, exec (.aerAddress n b) s = .next u ∧ (u.port n).idle = sat 32 (s.port n).idle 1 ∧ u.tmp = s.tmp)
      ∧ (b.toNat < (s.port n).cfg.inCount → wf cw 57 57 = 1 → (s.world (wf cw 44 32)).st = .running →
        s.chanDests cw = [e] → s.lockstep (destClass e) = true → (∀ x ∈ s.hub.lockIn, ¬(x.ep = portEp n ∧ x.ch = b.toNat)) →
        ∃ u, exec (.aerAddress n b) s = .next u ∧ u.hub.lockIn = s.hub.lockIn ++
          [{ ep := portEp n, ch := b.toNat, w := wf cw 44 32,
             tempo := (s.world (wf cw 44 32)).start (s.world (wf cw 44 32)).opened + wf cw 56 45, dest := e,
             value := wf (s.port n).cfg.protocol 7 0 }]))
    ∧ ((s.port n).cfg.mode = 4 → wf (s.port n).cfg.protocol 5 5 = 1 →
      ∃ u, exec (.indexPulse n) s = .next u ∧ u = s.capture n 0 255)
    ∧ ((s.port n).cfg.mode = 6 → ∀ fid f, (s.port n).cfg.filters.find? (canMatch false fid) = some f →
      ∃ u, exec (.canFrame n false false fid bytes) s = .next u
        ∧ u = s.captures n (wf f.2 11 0) ((bytes.drop (wf f.2 17 12)).take (wf f.2 24 18)))
    ∧ ((s.port n).cfg.mode = 1 → ∀ i, wf ((s.port n).cfg.polls.getD i 0) 53 53 = 1 → wf ((s.port n).cfg.polls.getD i 0) 43 28 ≠ 0 →
      ∃ u, exec (.i3cPoll n i bytes) s = .next u ∧ u = s.i3cRead n (wf ((s.port n).cfg.polls.getD i 0) 52 45)
        (wf ((s.port n).cfg.polls.getD i 0) 27 16) (bytes.take (wf ((s.port n).cfg.polls.getD i 0) 15 11 + 1)))
    ∧ ((s.port n).cfg.mode = 1 → (s.port n).cfg.polls = [e] → wf e 53 53 = 1 → wf e 44 44 = 1 →
      ∃ u, exec (.ibi n (wf e 2 0) [(0, bytes)]) s = .next u
        ∧ u = s.i3cRead n (wf e 52 45) (wf e 27 16) (bytes.take (wf e 15 11 + 1)))
    ∧ ((s.port n).cfg.mode = 2 → ∀ dt, 1 < dt →
      (∃ u, exec (.csi2Packet n (wf (s.port n).cfg.protocol 38 37) dt true ws) s = .next u
        ∧ (dt = 0x30 → u = (s.modPort n (fun p => { p with badRun := 0 })).csiWords n ws)
        ∧ (dt ≠ 0x30 → (u.port n).ignored = sat 16 (s.port n).ignored 1))
      ∧ ((s.port n).badRun + 1 < 8 → ∃ u, exec (.csi2Packet n (wf (s.port n).cfg.protocol 38 37) dt false ws) s = .next u
        ∧ (u.port n).errors = sat 16 (s.port n).errors 1 ∧ (u.port n).st = .attached)
      ∧ (8 ≤ (s.port n).badRun + 1 → ∃ u, exec (.csi2Packet n (wf (s.port n).cfg.protocol 38 37) dt false ws) s = .next u
        ∧ (u.port n).st = .detached ∧ (u.port n).cause = 2))

/-- R23 to R25, R37, R341: a qualified edge is counted in every power state and advances a RUNNING world that its pin drives by
the scaled quotient; a PARKED world discards it; a glitch is counted once; encoder counts move the position, pay the reversal
debt first, raise it when backward, and otherwise advance the world. Model's choices: log 9. -/
def Obligations.PinsAndEncodersDriveTempo : Prop :=
  ∀ (s : State) (k n w ns : Nat) (rising : Bool),
    (s.aon.phase ≠ .aonReset → k < 4 → bit (s.pinMode k) (if rising then 0 else 1) = true →
      (∃ u, exec (.tempoInEdge k rising) s = .next u ∧ tget 0 k u.aon.pinCount = tget 0 k s.aon.pinCount + 1
        ∧ ∀ j, j ≠ k → tget 0 j u.aon.pinCount = tget 0 j s.aon.pinCount)
      ∧ (s.sourced 2 k = [w] → w ∉ s.followers w → (s.world w).st = .running →
        (s.world w).s + ((s.world w).rem + (s.world w).scaleMul) / (s.world w).scaleDiv ≤ maxTempo →
        ∃ u, exec (.tempoInEdge k rising) s = .next u
          ∧ (u.world w).s = (s.world w).s + ((s.world w).rem + (s.world w).scaleMul) / (s.world w).scaleDiv
          ∧ (u.world w).rem = ((s.world w).rem + (s.world w).scaleMul) % (s.world w).scaleDiv
          ∧ (u.world w).t = max (s.world w).t (min (u.world w).s ((s.world w).start (s.world w).opened)))
      ∧ (s.sourced 2 k = [w] → (s.world w).st = .parked → ∃ u, exec (.tempoInEdge k rising) s = .next u
        ∧ (u.world w).padv = sat 32 (s.world w).padv 1 ∧ (u.world w).s = (s.world w).s))
    ∧ (s.aon.phase ≠ .aonReset → k < 4 → s.pinMode k ≠ 0 → 5 ≤ ns → ns < 40 → ∃ u, exec (.tempoInGlitch k ns) s = .next u
      ∧ tget 0 k u.aon.glitch = sat 8 (tget 0 k s.aon.glitch) 1 ∧ u.aon.pinCount = s.aon.pinCount ∧ u.tmp = s.tmp)
    ∧ ((s.port n).st = .attached → (s.port n).cfg.mode = 4 →
      (s.sourced 3 n = [] → ∃ u, exec (.encoderCount n true) s = .next u ∧ (u.port n).encPos = (s.port n).encPos + 1)
      ∧ (s.sourced 3 n = [] → ∃ u, exec (.encoderCount n false) s = .next u ∧ (u.port n).encPos = (s.port n).encPos - 1)
      ∧ (s.sourced 3 n = [w] → (s.world w).st = .running →
        (0 < (s.world w).debt → ∃ u, exec (.encoderCount n true) s = .next u ∧ (u.world w).debt = (s.world w).debt - 1
          ∧ (u.world w).s = (s.world w).s ∧ (u.world w).t = (s.world w).t)
        ∧ ((s.world w).debt = 0 → w ∉ s.followers w →
          (s.world w).s + ((s.world w).rem + (s.world w).scaleMul) / (s.world w).scaleDiv ≤ maxTempo →
          ∃ u, exec (.encoderCount n true) s = .next u
            ∧ (u.world w).s = (s.world w).s + ((s.world w).rem + (s.world w).scaleMul) / (s.world w).scaleDiv)
        ∧ ((s.world w).debt + 1 < 2 ^ 24 → ∃ u, exec (.encoderCount n false) s = .next u
          ∧ (u.world w).debt = (s.world w).debt + 1 ∧ (u.world w).s = (s.world w).s ∧ (u.world w).t = (s.world w).t)
        ∧ (2 ^ 24 ≤ (s.world w).debt + 1 → ∃ u, exec (.encoderCount n false) s = .next u
          ∧ (u.world w).st = .parked ∧ (u.world w).parkCause = 5)))

/-- R322, R324 to R329: TRACE_CFG of a master with ADMIN on an ACTIVE trace unit sets sources, filters, triggers and output in
OFF and DONE only, starts a capture with a SYNC for its owner, stops and clears it; a record that arrives is output in RUNNING;
a port takes halfwords from the buffer, PADs when it is empty. Model's choices: log 9, log 42. -/
def Obligations.TraceIsConfiguredAndCaptured : Prop :=
  ∀ (s : State) (rk seq : Nat) (c : ExecCmd) (r : TraceRec) (q : List TraceRec),
    (Begins s rk seq 0x20 c → s.has c.src .trace .admin = true → s.domActive 4 = true →
      (wf (c.words.getD 1 0) 3 0 = 0 → ∃ u, exec (.traceStop rk seq) s = .next u ∧ Completed u rk seq 0x20 .done []
        ∧ u.trc.st = 4)
      ∧ (wf (c.words.getD 1 0) 3 0 = 1 → 2 ≤ c.words.length → ∃ u, exec (.traceStart rk seq) s = .next u
        ∧ Completed u rk seq 0x20 .done [] ∧ u.trc.owner = c.src
        ∧ u.trc.st = (if s.trc.trigs.any (fun e => decide (trgAction e.2 = 1)) then 1 else 2)
        ∧ u.trc.fired = 0 ∧ tget 0 0 u.trc.buf = trcHeader 0xD false 5 0xFF ∧ u.trc.head = 10)
      ∧ (wf (c.words.getD 1 0) 3 0 = 6 → 2 ≤ c.words.length → ∃ u, exec (.traceClear rk seq) s = .next u
        ∧ Completed u rk seq 0x20 .done [] ∧ u.trc.st = 0 ∧ u.trc.held = 0 ∧ u.trc.records = 0 ∧ u.trc.gaps = 0)
      ∧ ((s.trc.st = 0 ∨ s.trc.st = 4) →
        (wf (c.words.getD 1 0) 3 0 = 2 → 2 ≤ c.words.length → wf (c.words.getD 1 0) 11 4 < 255 →
          s.sourceEntryOk ((c.words.getD 1 0).extractLsb' 32 32) = true → ∃ u, exec (.traceSource rk seq) s = .next u
            ∧ Completed u rk seq 0x20 .done []
            ∧ tget 0 (wf (c.words.getD 1 0) 11 4) u.trc.srcs = (c.words.getD 1 0).extractLsb' 32 32 &&& 0x801F_FFFF)
        ∧ (wf (c.words.getD 1 0) 3 0 = 3 → 4 ≤ c.words.length → ∃ u, exec (.traceFilter rk seq) s = .next u
            ∧ Completed u rk seq 0x20 .done []
            ∧ u.trc.filtWorld = (c.words.getD 1 0).extractLsb' 32 32 &&& 0xC3FF_FFFF ∧ u.trc.filtA = lowWord c 2
            ∧ u.trc.filtAMask = lowWord c 3)
        ∧ (wf (c.words.getD 1 0) 3 0 = 4 → 3 ≤ c.words.length → wf (c.words.getD 1 0) 11 4 < 4 →
          ∃ u, exec (.traceTrigger rk seq) s = .next u ∧ Completed u rk seq 0x20 .done []
            ∧ tget (0, 0) (wf (c.words.getD 1 0) 11 4) u.trc.trigs
              = ((c.words.getD 1 0).extractLsb' 32 32 &&& 0xFFFE_FFFF, lowWord c 2))
        ∧ (wf (c.words.getD 1 0) 3 0 = 5 → 2 ≤ c.words.length → wf (c.words.getD 1 0) 33 32 ≠ 3 →
          (wf (c.words.getD 1 0) 33 32 = 2 → s.charter 4 = true) → ∃ u, exec (.traceOutput rk seq) s = .next u
            ∧ Completed u rk seq 0x20 .done [] ∧ u.trc.out = (c.words.getD 1 0).extractLsb' 32 32 &&& 7))
      ∧ (wf (c.words.getD 1 0) 3 0 = 3 → 4 ≤ c.words.length → s.trc.st ≠ 0 → s.trc.st ≠ 4 →
        ∃ u, exec (.traceFilter rk seq) s = .next u ∧ Completed u rk seq 0x20 .busy []
          ∧ u.trc.filtWorld = s.trc.filtWorld))
    ∧ (s.traceTiles = [] → s.trc.queue = r :: q → r.kind ≠ 0 →
      (s.trc.st = 0 → ∃ u, exec .traceRecord s = .next u ∧ u.trc = { s.trc with queue := q })
      ∧ (s.trc.st = 1 → s.trc.trigs = [] → ∃ u, exec .traceRecord s = .next u ∧ u.trc = { s.trc with queue := q })
      ∧ (s.trc.st = 2 → s.trc.trigs = [] → ∃ u, exec .traceRecord s = .next u
        ∧ u.trc = (({ s.trc with queue := q } : Trace).emit s.aon.wall r).countPost))
    ∧ (s.trc.st ≠ 0 → s.trc.mode = 1 →
      (s.trc.held = 0 → ∃ u, exec (.tracePortDrain 2) s = .next u ∧ u.trc.parOut = [(false, 0), (false, 0)] ∧ u.trc.held = 0)
      ∧ (s.trc.held ≠ 0 → ∃ u, exec (.tracePortDrain 1) s = .next u ∧ u.trc.held = s.trc.held - 1
        ∧ u.trc.parOut.map (·.2) = [tget 0 ((s.trc.head + 2 ^ 18 - 2 * s.trc.held) % 2 ^ 18 / 2) s.trc.buf]))
    ∧ (s.trc.st ≠ 0 → s.trc.mode = 2 → s.trc.held < 4 → ∃ u, exec (.tracePortDrain 4) s = .next u
      ∧ u.trc.serOut = [(s.trc.serBlocks % 4, false, 0x1E)])

/-- R27, R117, R130, R135, R136, R276, R312: a span link retrains, comes up and goes on after Hold; a good frame in sequence is
accepted and acknowledges, one with an error is discarded; what arrives is taken here or forwarded with one more hop; a link
without acknowledgement or that does not retrain goes down and its volleys are recorded. Model's choices: log 35, log 64, log
67. -/
def Obligations.SpanLinksCarryVolleys : Prop :=
  ∀ (s : State) (lk lanes : Nat) (f : SpanFrame) (v : Volley) (r : List Volley) (i j k : Nat),
    ((s.span lk).state = 2 → (s.span lk).replay ≠ [] → (s.span lk).hold < 2 → s.linkFollowers lk = [] →
      ∃ u, exec (.spanAckTimeout lk) s = .next u ∧ (u.span lk).state = 0 ∧ (u.span lk).replay = [] ∧ (u.span lk).queue = []
        ∧ (∀ q, q ≠ lk → u.span q = s.span q)
        ∧ ((s.rack (fb s.flt.cfg.toNat 7 0)).enabled = false → u.flt.queue =
          (((s.span lk).replay.flatMap (·.2) ++ (s.span lk).queue).foldl (fun s v => s.loseEvents v .failedLink (s.spanCoord lk))
            s).flt.queue))
    ∧ (s.spanTrains lk = true → (s.span lk).state = 0 → s.domActive (spanDom lk) = true →
      ∃ u, exec (.spanLinkRetrain lk) s = .next u ∧ u.span lk = { s.span lk with state := 1 })
    ∧ ((s.span lk).hold ≠ 3 → (s.span lk).state = 1 → ∃ u, exec (.spanLinkUp lk lanes) s = .next u
      ∧ u.span lk = { s.span lk with state := 2, lanes := min lanes 12, txSeq := 0, rxSeq := 0, credits := [] })
    ∧ ((s.span lk).hold = 3 → (s.span lk).queue = [] → ∃ u, exec (.spanLinkUp lk lanes) s = .next u
      ∧ u.span lk = { s.span lk with hold := 0, lanes := min lanes 12 } ∧ (u.dom (spanDom lk)).state = 0
      ∧ (u.dom (spanDom lk)).waking = none)
    ∧ ((s.span lk).state = 2 →
      (f.good = false → ∃ u, exec (.spanFrame lk f) s = .next u ∧ u.span lk = { s.span lk with
        uncorrected := sat 16 (s.span lk).uncorrected 1, replays := sat 16 (s.span lk).replays 1 })
      ∧ (f.good = true → (s.span lk).queue = [] →
        (f.volleys ≠ [] → f.seq = (s.span lk).rxSeq → ∃ u, exec (.spanFrame lk f) s = .next u
          ∧ (u.span lk).rxSeq = ((s.span lk).rxSeq + 1) % 4096
          ∧ (u.span lk).arrived = (s.span lk).arrived ++ f.volleys.map s.fromWire
          ∧ (u.span lk).replay = (s.span lk).replay.filter (fun e => 2048 ≤ (f.ack + 4096 - e.1) % 4096))
        ∧ (f.seq ≠ (s.span lk).rxSeq → ∃ u, exec (.spanFrame lk f) s = .next u
          ∧ (u.span lk).rxSeq = (s.span lk).rxSeq ∧ (u.span lk).arrived = (s.span lk).arrived
          ∧ (u.span lk).replay = (s.span lk).replay.filter (fun e => 2048 ≤ (f.ack + 4096 - e.1) % 4096))))
    ∧ ((s.span lk).arrived = v :: r →
      (v.dst.p = s.hub.p →
        (v.body = .control false (.subscribe i j) → s.tmp.subs.length < 64 → s.tmp.subs.contains (lk, i, j) = false →
          ∃ u, exec (.spanVolley lk) s = .next u ∧ u.tmp.subs = s.tmp.subs ++ [(lk, i, j)]
            ∧ u.span lk = { s.span lk with arrived := r })
        ∧ ((∀ b c, v.body ≠ .control b c) → s.unreach v.dst = none → exec (.spanVolley lk) s =
            .next ((s.modSpan lk (fun x => { x with arrived := r })).inject (epKey (40 + lk) 0) v)))
      ∧ (v.dst.p ≠ s.hub.p →
        (7 ≤ v.phops → ∃ u, exec (.spanVolley lk) s = .next u ∧ (u.span lk).arrived = r
          ∧ u.flt.queue = (s.loseEvents v .failedLink (s.spanCoord lk)).flt.queue)
        ∧ (v.phops < 7 → s.spanRouteTo v.dst.p = some k → k ≠ lk → s.domActive (spanDom k) = true → (s.span k).state = 2 →
          (s.span k).hold < 2 → (s.span k).queue = [] → (s.span k).replay.length < 1024 →
          v.flits ≤ tget 256 v.vc (s.span k).credits → ∃ u, exec (.spanVolley lk) s = .next u ∧ (u.span lk).arrived = r
            ∧ (u.span k).replay = (s.span k).replay ++ [((s.span k).txSeq, [{ v with phops := v.phops + 1 }])]
            ∧ (u.span k).queue = []
            ∧ tget 256 v.vc (u.span k).credits = tget 256 v.vc (s.span k).credits - v.flits)))
    ∧ ((s.span lk).state = 2 → (s.span lk).hold < 2 → (s.span lk).quiet = true → ∃ u, exec (.linkHold lk) s = .next u
      ∧ u.span lk = { s.span lk with hold := 2 } ∧ (u.dom (spanDom lk)).state = 2)
    ∧ ((s.span lk).hold = 1 → ∃ u, exec (.linkHoldAck lk) s = .next u ∧ u.span lk = { s.span lk with hold := 2 }
      ∧ (u.dom (spanDom lk)).state = 2)
    ∧ ((s.span lk).hold = 2 → ∃ u, exec (.spanHoldWake lk) s = .next u ∧ u.span lk = { s.span lk with hold := 3 }
      ∧ (u.dom (spanDom lk)).state = 0
      ∧ u.aon.wakeLast = wakeRecord 2 2 (spanDom lk) (epKey (40 + lk) 0) s.aon.wall)
    ∧ ((s.span lk).hold = 3 → s.linkFollowers lk = [] → ∃ u, exec (.spanHoldRetrainTimeout lk) s = .next u
      ∧ (u.span lk).state = 0 ∧ (u.span lk).hold = 0 ∧ (u.span lk).replay = [])

/-- R61, R70, R103, R106, R109, R126, R140, R143: a tile whose schedule stands at a slot of the command's operation, all of
whose lanes may run it, runs it, and its schedule moves to the next entry, or to entry 0 of the next turn; a group without a
RUNNING lane runs nothing; EMIT leaves no open volley of its group; a slot mark is held, and volleys it counts that have not
come are recorded. Model's choices: log 22, log 68. -/
def Obligations.ScheduleSlotsRun : Prop :=
  ∀ (s : State) (t : Nat) (e : DWord) (s1 : State),
    (s.scheduled t = true → s.tileRuns t = true → (s.tile t).idle = true → s.anyLane t = true → s.enterSlot t = s1 →
      s1.slotEntry t = e → s1.slotOpen t e = true →
      let moved := fun (u : State) =>
        ((u.tile t).slot, (u.tile t).schedTurn) =
          (if (s1.tile t).slot + 1 < (s1.curSchedule t).length then ((s1.tile t).slot + 1, (s1.tile t).schedTurn)
          else (0, (s1.tile t).schedTurn + 1))
      (schOp e = 1 → s1.gatherFull t e = true → s1.gatherEvs t e = [] → (s1.gatherClear t e).gatherEvs t e = [] →
        ∃ u, exec (.gather t) s = .next u ∧ moved u
          ∧ ∀ m, m ∈ (u.tile t).marks → (m.2.2.1 = schGroup e && s1.tagIn t e m.1) = false)
      ∧ (schOp e = 1 → s1.gatherFull t e = true → exec (.gather t) s =
          .next ((((s1.gatherClear t e).gatherDispatch t e).nextSlot t).groupReports t (schGroup e)))
      ∧ (schOp e = 2 → exec (.runSlot t) s =
          .next (((((s1.slotLanes t e).foldl (fun s w => s.beginUpdate t w (s.slotStamp t w e)) s1).nextRun t).nextSlot t).groupReports
            t (schGroup e)))
      ∧ (schOp e = 3 → exec (.pot t) s =
          .next (((((s1.runningLanes t (schGroup e)).map (schGroup e * 32 + ·)).foldl
            (fun s w => s.potentiate t w (s.slotStamp t w e)) s1).nextSlot t).groupReports t (schGroup e)))
      ∧ (schOp e = 4 → (s1.tile t).intake = [] → ∃ u, exec (.dep t) s = .next u ∧ moved u ∧ (u.tile t).intake = [])
      ∧ (s1.runningLanes t (schGroup e) = [] →
        (schOp e = 2 → ∃ u, exec (.runSlot t) s = .next u ∧ moved u ∧ (u.tile t).run = none)
        ∧ (schOp e = 3 → ∃ u, exec (.pot t) s = .next u ∧ moved u))
      ∧ (schOp e = 5 → ∃ u, exec (.emitSlot t) s = .next u ∧ moved u
        ∧ ∀ o, o ∈ (u.tile t).openVols → (s1.lockstep o.cls && o.group = schGroup e) = false)
      ∧ (schOp e = 6 → schN e = 0 → s.fab.mail = [] → ∃ u, exec (.quiet t) s = .next u ∧ moved u
        ∧ (u.tile t).postponed = [] ∧ (u.tile t).streaming = false)
      ∧ (schOp e = 7 → (s1.tile t).lrnBusy = none → s1.atPoint t = false → ∃ u, exec (.learnSlot t) s = .next u ∧ moved u))
    ∧ (∀ (v : Volley) (r : List Volley) (n : Nat), tget [] t s.fab.inbox = v :: r → v.body = .slotMark n → s.tileActive t = true →
      ∃ u, exec (.slotMark t) s = .next u ∧ (u.tile t).marks = (s.tile t).marks ++ [(v.slot, v.src.key, v.group, n)]
        ∧ u.flt.queue = s.flt.queue ++ List.replicate (n - s.gotUnder t v) (volleyItem v .failedSchedule (s.coord t)))

/-- R30, R54, R55, R60, R61, R66, R134, R147, R296: a tile takes a volley's events into intake, or loses them when it is not
ACTIVE; it dispatches an open merge entry, updates a stamp whose inputs are all there, hears a frontier notice, sweeps for an
age notice and takes a world's new T. Model's choices: log 20, log 27, log 32, log 70. -/
def Obligations.TilesTakeEventsAndMessages : Prop :=
  ∀ (s : State) (t w n tau : Nat) (v : Volley) (r : List Volley) (q : List Mail) (e f : Word) (ws : List Word) (m : MergeEntry),
    (tget [] t s.fab.inbox = v :: r → v.body = .events ws →
      (s.tileActive t = false → ∃ u, exec (.events t) s = .next u ∧ u.tiles = s.tiles
        ∧ u.flt.queue = s.flt.queue ++ ws.map (fun e => eventItem v e
          (if s.hub.epoch.state ≠ 0 && v.epoch ≠ s.hub.epoch.current then .failedEpoch else .failedFenced) (s.coord t)))
      ∧ (s.tileActive t = true → v.vc ≠ 2 → ws = [e] → (s.tile t).idle = true → (s.tile t).intake = [] →
        ((s.world (v.group * 32 + evLane e)).st = .parked → (s.tile t).slotFree false = true →
          ∃ u, exec (.events t) s = .next u ∧ (u.tile t).intake = [{ id := (s.tile t).nextId, w := v.group * 32 + evLane e, row := evRow e, value := evValue e, stamp := (v.tempoBase + evOffset e) % 2 ^ 20, lockstep := false, cls := v.cls, src := v.src, tag := v.slot, macDone := false, depDone := false }])
        ∧ ((s.world (v.group * 32 + evLane e)).st = .standby → ∃ u, exec (.events t) s = .next u ∧ (u.tile t).intake = []
          ∧ u.flt.queue = s.flt.queue ++ [eventItem v e .failedParked (s.coord t)])
        ∧ ((s.world (v.group * 32 + evLane e)).st = .free → ∃ u, exec (.events t) s = .next u ∧ (u.tile t).intake = []
          ∧ u.flt.queue = s.flt.queue ++ [eventItem v e .failedAccess (s.coord t)])))
    ∧ ((s.tile t).merge.find? (fun m => !m.lockstep) = some m → s.tileRuns t = true →
      exec (.mergeDispatch t) s = .next (s.dispatch t m)
      ∧ ((s.tile t).merge = [m] → rowSegs (tget (0 : DWord) m.row (s.tile t).rowdir) = 0 →
        (∀ ev, ev ∈ (s.tile t).intake → ev.id ∈ m.evs.map (·.2) → ev.row = m.row) →
        ∃ u, exec (.mergeDispatch t) s = .next u ∧ (u.tile t).merge = []
          ∧ ∀ k, k ∈ m.evs.map (·.2) → (u.tile t).ev k = none))
    ∧ (s.mayUpdate t w = true →
      exec (.stampUpdate t w) s = .next ((s.beginUpdate t w ((s.tile t).world w).f).nextRun t)
      ∧ ((s.tile t).wheel = [] → (s.tile t).intake = [] → (s.tile t).posts = [] → ∃ u, exec (.stampUpdate t w) s = .next u
        ∧ ((u.tile t).world w).f = ((s.tile t).world w).f + 1 ∧ (u.tile t).run = none))
    ∧ (tget [] t s.fab.inbox = v :: r → v.body = .frontier tau f →
      (s.tileActive t = true → ∃ u, exec (.frontier t) s = .next u ∧ (u.tile t).upstream = (s.tile t).upstream.map (fun x =>
        if x.src = v.src && x.group = v.group then { x with
          frontier := fullTempo (((s.tile t).residentLanes v.group).foldl (fun a l => max a (s.world (v.group * 32 + l)).t) 0) tau
          mask := f
          seen := true
          out := false } else x))
      ∧ (s.tileActive t = false → ∃ u, exec (.frontier t) s = .next u ∧ u.tiles = s.tiles))
    ∧ (s.fab.mail = { dst := t, body := .ctl (.age w n) } :: q → s.tileRuns t = true →
      (s.groupLockstep t (w / 32) = false ∨ schOp (s.slotEntry t) = 6) → (s.tile t).recordsOf w = [] →
      (s.tile t).grpIndex (w / 32) = none → ∃ u, exec (.age t) s = .next u ∧ u.fab.mail = q ∧ u.tiles = s.tiles
        ∧ u.fab.routers = (s.fromRoot (stackOf t) 38 (.sweepAck t w n)).fab.routers)
    ∧ (s.fab.mail = { dst := t, body := .ctl (.tempoGrant w tau) } :: q → s.tileRuns t = true →
      (s.tile t).idle = true → (s.tile t).intake = [] → ∃ u, exec (.tempoGrant t) s = .next u
        ∧ (u.tile t).world w = { (s.tile t).world w with t := tau } ∧ u.fab.mail = q)

/-- R69, R70, R132, R138, R139: a due refresh is granted, postponed while a pass streams, or granted at last and counted as
forced outside a quiet square; a scrub burst moves its bank to the next page; linger closes the oldest open volley; an ECHO cuts
the rate and time restores it; marked volleys are echoed; tokens arrive and waiting volleys go. Model's choices: log 12, log 13,
log 33. -/
def Obligations.BanksAreServedAndSendersPaced : Prop :=
  ∀ (s : State) (t bank n hc : Nat) (v : Volley) (r : List Volley) (o : OpenVolley),
    ((s.tile t).streaming = false → s.outsideQuiet t = false → ∃ u, exec (.refreshDue t bank) s = .next u
      ∧ tget 0 bank (u.tile t).postponed = 0 ∧ (u.tile t).refPostponed = (s.tile t).refPostponed)
    ∧ (((s.tile t).streaming = true ∨ s.outsideQuiet t = true) →
      (tget 0 bank (s.tile t).postponed < 7 → ∃ u, exec (.refreshDue t bank) s = .next u
        ∧ tget 0 bank (u.tile t).postponed = tget 0 bank (s.tile t).postponed + 1
        ∧ (u.tile t).refPostponed = sat 28 (s.tile t).refPostponed 1 ∧ (u.tile t).refForced = (s.tile t).refForced)
      ∧ (7 ≤ tget 0 bank (s.tile t).postponed → ∃ u, exec (.refreshDue t bank) s = .next u
        ∧ tget 0 bank (u.tile t).postponed = 7 ∧ (u.tile t).refPostponed = sat 28 (s.tile t).refPostponed 1
        ∧ (u.tile t).refForced = (if s.outsideQuiet t then sat 32 (s.tile t).refForced 1 else (s.tile t).refForced)))
    ∧ (∃ u, exec (.scrubDeadline t bank) s = .next u
      ∧ tget 0 bank (u.tile t).scrubPage = (tget 0 bank (s.tile t).scrubPage + 1) % 4096
      ∧ (u.tile t).scrubForced = (if s.outsideQuiet t then sat 32 ((s.scrub t bank).tile t).scrubForced 1
        else ((s.scrub t bank).tile t).scrubForced))
    ∧ ((s.tile t).streaming = false → s.outsideQuiet t = false → ∃ u, exec (.scrubBurst t bank) s = .next u
      ∧ tget 0 bank (u.tile t).scrubPage = (tget 0 bank (s.tile t).scrubPage + 1) % 4096)
    ∧ ((s.tile t).openVols.find? (fun o => !s.lockstep o.cls) = some o → ∃ u, exec (.lingerExpiry t) s = .next u
      ∧ (o ∉ (u.tile t).openVols) ∧ ∀ p, p ∈ (u.tile t).openVols → p ∈ (s.tile t).openVols)
    ∧ (tget [] t s.fab.inbox = v :: r → v.body = .echo n → ∃ u, exec (.echo t) s = .next u
      ∧ (u.pace t).lastEcho = some (s.pace t).clock ∧ (u.pace t).bucket = (s.pace t).bucket
      ∧ ((n = 0 ∨ (s.pace t).recent = true) → (u.pace t).r = (s.pace t).r)
      ∧ (n ≠ 0 → (s.pace t).recent = false → (u.pace t).r = max (7 * (s.pace t).r / 8) 3
        ∧ (u.pace t).lastDec = some (s.pace t).clock)
      ∧ (t < 2048 → (u.tile t).hwEchoes = sat 16 (s.tile t).hwEchoes 1))
    ∧ (tget 0 (t * 2 ^ 18 + n) s.fab.marked ≠ 0 → ∃ u, exec (.echoSend t n) s = .next u
      ∧ tget 0 (t * 2 ^ 18 + n) u.fab.marked = 0
      ∧ (t < 2048 → s.unreach (coordOf n) = none → u.fab.routers = (s.enqueue (s.phys t).1 (s.phys t).2 4
        (s.mkVolley t (coordOf n) 0 s.hub.epoch.current 0 1 0 0 (.echo (tget 0 (t * 2 ^ 18 + n) s.fab.marked)))).fab.routers))
    ∧ (∃ u, exec (.rateRecovery t) s = .next u
      ∧ u.pace t = { s.pace t with r := min ((s.pace t).r + 2) 174, lastUp := (s.pace t).clock })
    ∧ ((s.pace t).waiting = [] →
      (t < 2048 → (s.tile t).idle = true → ∃ u, exec (.tokenBucketRefill t hc) s = .next u
        ∧ (u.tile t).pace = { (s.tile t).pace with
          clock := (s.tile t).pace.clock + hc, bucket := min ((s.tile t).pace.bucket + (s.tile t).pace.r * hc) 65536 })
      ∧ (2048 ≤ t → epX t ≠ 34 → ∃ u, exec (.tokenBucketRefill t hc) s = .next u
        ∧ u.pace t = { s.pace t with
          clock := (s.pace t).clock + hc, bucket := min ((s.pace t).bucket + (s.pace t).r * hc) 65536 }))
    ∧ (2048 ≤ t → epX t ≠ 34 → (s.pace t).waiting = [v] → v.flits * 4096 ≤ min ((s.pace t).bucket + (s.pace t).r * hc) 65536 →
      ∃ u, exec (.tokenBucketRefill t hc) s = .next u ∧ (u.pace t).waiting = []
        ∧ (u.pace t).bucket = min ((s.pace t).bucket + (s.pace t).r * hc) 65536 - v.flits * 4096)

/-- R67, R68, R109, R111: a tile adds partial sums into its wheel and acknowledges them, an acknowledgement completes what it
covers, a consolidation point is taken only where it has come and counts, and accumulators and row segments of a replica set
arrive. Model's choices: log 34, log 72. -/
def Obligations.ChainsAndPointsRun : Prop :=
  ∀ (s : State) (t from_ q seg : Nat) (e : Nat × Nat × Nat × Int) (es : List (Nat × Nat × Nat × Int)) (b : Block)
    (r : List Mail) (ws : List Word) (rows : List (BitVec 16)),
    (s.fab.mail = { dst := t, body := .psum from_ q es } :: r →
      (s.tileActive t = false → ∃ u, exec (.psum t) s = .next u ∧ u.fab.mail = r ∧ u.tiles = s.tiles)
      ∧ (s.tileActive t = true → es = [e] →
        ((s.tile t).blocks.find? (fun b => blkHasNeuron b e.1 && blkHasLane b e.2.1) = none → ∃ u, exec (.psum t) s = .next u
          ∧ u.tiles = s.tiles ∧ u.fab.mail = r ++ [{ dst := from_, body := .chainAck t q }]
          ∧ u.flt.queue = s.flt.queue ++
            [{ s.contribItem t e.2.1 0 e.1 0 e.2.2.1 e.2.2.2 .failedAccess with w := none }])
        ∧ ((s.tile t).blocks.find? (fun b => blkHasNeuron b e.1 && blkHasLane b e.2.1) = some b →
          ((s.tile t).blockOf (blkGroup b * 32 + e.2.1) e.1).isSome = true → (s.tile t).wheel = [] →
          ((s.tile t).world (blkGroup b * 32 + e.2.1)).f
            ≤ fullTempo ((s.tile t).world (blkGroup b * 32 + e.2.1)).f e.2.2.1 →
          ∃ u, exec (.psum t) s = .next u ∧ u.fab.mail = r ++ [{ dst := from_, body := .chainAck t q }]
            ∧ (u.tile t).wheel = [{ w := blkGroup b * 32 + e.2.1, neuron := e.1, due := fullTempo ((s.tile t).world (blkGroup b * 32 + e.2.1)).f e.2.2.1, sum := sat24 e.2.2.2, woken := false }])))
    ∧ (s.fab.mail = { dst := t, body := .chainAck from_ q } :: r → ∃ u, exec (.chainAck t) s = .next u ∧ u.fab.mail = r
      ∧ (u.tile t).chainOut = (s.tile t).chainOut.filter (fun e => !(e.2.1 = from_ && (q + 2 ^ 32 - e.1) % 2 ^ 32 < 2 ^ 31)))
    ∧ (s.scheduled t = false → (s.tile t).lrnBusy = none → s.tileRuns t = true →
      (s.atPoint t = false → exec (.consolidationPoint t) s = .next s)
      ∧ (s.atPoint t = true → (s.tile t).idle = true → (s.tile t).rowdir = [] → (s.tile t).homeOf t = t →
        s.membersOf t = [] → (s.tile t).intake = [] → ∃ u, exec (.consolidationPoint t) s = .next u
          ∧ (u.tile t).lrnPoint = (s.tile t).lrnPoint + 1 ∧ (u.tile t).lrnBusy = none))
    ∧ (s.fab.mail = { dst := t, body := .lacc from_ q seg ws } :: r → s.tileActive t = true → (s.tile t).lrnBusy = none →
      ∃ u, exec (.lacc t) s = .next u ∧ (u.tile t).laccIn = (s.tile t).laccIn ++ [(seg, from_, ws)]
        ∧ u.fab.mail = r ++ [{ dst := from_, body := .chainAck t q }])
    ∧ (s.fab.mail = { dst := t, body := .rrow from_ q seg rows } :: r → s.tileActive t = true → (s.tile t).lrnBusy = none →
      ∃ u, exec (.rrow t) s = .next u ∧ (u.tile t).lrnRows = seg :: (s.tile t).lrnRows
        ∧ u.fab.mail = r ++ [{ dst := from_, body := .chainAck t q }]
        ∧ u.mem = ((List.range rows.length).foldl (fun (s : State) j =>
          s.rewriteWord t (seg / 2048) 0 ((s.tile t).segUnit seg) j (rows.getD j 0).toNat) { s with fab.mail := r }).mem)

/-- R117, R119, R122, R125, R128, R137: at a router, a volley whose header fails its check is absorbed and recorded; one that
its output grants moves to the next router's buffer, marked where its buffer is full enough, or is delivered; one that cannot
leave waits. Model's choices: log 13, log 65. -/
def Obligations.RoutersMoveVolleys : Prop :=
  ∀ (s : State) (px py inp x y i t : Nat) (v : Volley) (q : List Volley) (ws : List Word),
    s.buf px py inp v.vc = v :: q →
    (v.valid = false → ∃ u, exec (.routeVolley px py inp v.vc) s = .next u ∧ u.buf px py inp v.vc = q
      ∧ u.flt.queue = s.flt.queue ++ [volleyItem v .failedUncorrectable
        (match s.logAt px py with
        | some t => s.coord t
        | none => s.hubReporter)])
    ∧ (v.valid = true → s.meetsLost px py v = false →
      ((s.canLeave px py v && s.granted px py v) = false → exec (.routeVolley px py inp v.vc) s = .next s)
      ∧ ((s.canLeave px py v && s.granted px py v) = true →
        (s.outOf px py v < 4 → s.beyond px py (s.outOf px py v) = some (x, y, i) →
          ∃ u, exec (.routeVolley px py inp v.vc) s = .next u ∧ u.buf px py inp v.vc = q
            ∧ u.buf x y i v.vc = s.buf x y i v.vc ++ [{ v with headwind := v.headwind || s.marksHere px py inp v }])
        ∧ (s.outOf px py v = 4 → v.body = .events ws → s.logAt px py = some t → s.tileActive t = true → t < 2048 →
          ∃ u, exec (.routeVolley px py inp v.vc) s = .next u ∧ u.buf px py inp v.vc = q
            ∧ tget [] t u.fab.inbox = tget [] t s.fab.inbox
              ++ [{ v with headwind := v.headwind || s.marksHere px py inp v }])))

/-- R144 to R147, R311: EPOCH_FLIP of a loaded bank by a master with ADMIN on the hub block makes it current and begins the
drain, else it is refused or BUSY; stacks acknowledge the notices; the totals reach the drain pip, or the hub core's sum while
the steward is in reset; with every total in and the pip at 0 the flip completes. Model's choices: log 77. -/
def Obligations.EpochsFlipAndDrain : Prop :=
  ∀ (s : State) (rk seq st w k n : Nat) (b bank : Bool) (c : ExecCmd) (v : Volley) (r : List Volley) (q : List Mail),
    (Begins s rk seq 0x10 c → (s.boot.amending = none ∨ s.flt.stwReset = true) →
      (s.has c.src .hubBlock .admin = false → ∃ u, exec (.epochFlip rk seq) s = .next u
        ∧ Completed u rk seq 0x10 .failedAccess [] ∧ u.hub.epoch = s.hub.epoch)
      ∧ (s.has c.src .hubBlock .admin = true → (s.hub.epoch.state ≠ 0 ∨ s.hub.epoch.loaded = false) →
        ∃ u, exec (.epochFlip rk seq) s = .next u ∧ Completed u rk seq 0x10 .busy [] ∧ u.hub.epoch = s.hub.epoch)
      ∧ (s.has c.src .hubBlock .admin = true → s.hub.epoch.state = 0 → s.hub.epoch.loaded = true →
        ∃ u, exec (.epochFlip rk seq) s = .next u ∧ u.hub.epoch.state = 1 ∧ u.hub.epoch.current = !s.hub.epoch.current
          ∧ u.hub.epoch.loaded = false ∧ u.hub.epoch.cmd = some (rk, seq)
          ∧ u.findExec rk seq = some { c with stage := 1 }))
    ∧ (s.fab.mail = { dst := rootKey st, body := .ctl (.epochNotice w n bank) } :: q → ∃ u, exec (.epochNotice st) s = .next u
      ∧ u.fab.mail = q ∧ u.fab.routers = (s.fromRoot st 36 (.epochAck st w)).fab.routers)
    ∧ (tget [] stewardEp s.fab.inbox = v :: r → v.body = .control b (.epochAck st w) → ∃ u, exec .epochAck s = .next u
      ∧ (u.world w).flipAcks = (s.world w).flipAcks.filter (· ≠ st) ∧ ∀ j, j ≠ w → u.world j = s.world j)
    ∧ (tget [] stewardEp s.fab.inbox = v :: r → v.body = .control b (.epochEnd k n) →
      (∀ j, j ∈ s.drainers → s.hub.epoch.endsSent.contains j = true ∨ s.senderNew j = false) →
      (s.flt.stwReset = true → ∃ u, exec .epochEnd s = .next u ∧ u.hub.epoch.ends = k :: s.hub.epoch.ends
        ∧ u.hub.epoch.heldSum = s.hub.epoch.heldSum + n)
      ∧ (s.flt.stwReset = false → s.hub.epoch.state ≠ 0 → n = 0 →
        ((s.drainers.all (fun j => decide (j = k) || s.hub.epoch.ends.contains j || s.hub.epoch.lost.contains j)) = false →
          ∃ u, exec .epochEnd s = .next u ∧ u.hub.epoch = { s.hub.epoch with ends := k :: s.hub.epoch.ends })
        ∧ ((s.drainers.all (fun j => decide (j = k) || s.hub.epoch.ends.contains j || s.hub.epoch.lost.contains j)) = true →
          s.hub.epoch.lost = [] → (s.pip s.hub.epoch.drainPip).count = 0 → s.hub.epoch.cmd = some (rk, seq) →
          s.findExec rk seq = some c → ∃ u, exec .epochEnd s = .next u ∧ u.hub.epoch.state = 0
            ∧ u.hub.epoch.flips = sat 32 s.hub.epoch.flips 1 ∧ u.hub.epoch.current = s.hub.epoch.current
            ∧ Completed u rk seq c.op .done [])))
    ∧ (tget [] stewardEp s.fab.inbox = v :: r → v.body = .control b (.drainDelta k n) →
      (∀ j, j ∈ s.hub.epoch.endsSent → tget 0 j s.hub.epoch.recv ≤ tget 0 j s.hub.epoch.told) →
      (s.flt.stwReset = true → ∃ u, exec .drainDelta s = .next u
        ∧ u.hub.epoch = { s.hub.epoch with heldSum := s.hub.epoch.heldSum - n })
      ∧ (s.flt.stwReset = false → n ≠ 0 → s.allEnds = false → exec .drainDelta s =
        .next (({ s with fab.inbox := if r.isEmpty then tdel stewardEp s.fab.inbox else tset stewardEp r s.fab.inbox }
          : State).internalAdd 1 s.hub.epoch.drainPip (BitVec.ofInt 32 (-Int.ofNat n)))))

/-- R291 to R295, R298, R299, R313: FENCE drains an ACTIVE domain under the next sequence number, is REPEAT of a FENCED one,
BUSY of any other and FAILED_ACCESS without the right; RESUME resets a FENCED one; the drain ends in FENCED and completes the
command; a notice reaches requesters; a written update leads to RESET, and RESET to ACTIVE; a stack that is lost is FENCED at
once. Model's choices: log 56. -/
def Obligations.FencesMoveDomains : Prop :=
  ∀ (s : State) (rk seq d who m : Nat) (env : BootEnv) (c : ExecCmd) (l : List (Nat × Nat × Nat)),
    (Begins s rk seq 0x30 c → wf (c.words.getD 1 0) 11 0 = d →
      (s.mayFence c.src d = false → ∃ u, exec (.fence rk seq) s = .next u ∧ Completed u rk seq 0x30 .failedAccess []
        ∧ u.flt.fences = s.flt.fences)
      ∧ (s.mayFence c.src d = true → s.domState d = .fenced → ∃ u, exec (.fence rk seq) s = .next u
        ∧ Completed u rk seq 0x30 .repeated [] ∧ u.flt.fences = s.flt.fences)
      ∧ (s.mayFence c.src d = true → s.domState d ≠ .fenced → s.domState d ≠ .active → ∃ u, exec (.fence rk seq) s = .next u
        ∧ Completed u rk seq 0x30 .busy [] ∧ u.flt.fences = s.flt.fences)
      ∧ (s.mayFence c.src d = true → s.domState d = .active → ∃ u, exec (.fence rk seq) s = .next u
        ∧ u.fence d = { s.fence d with
            st := .draining, seq := (s.flt.fenceSeq + 1) % 2 ^ 32, losses := 0, cmd := some (rk, seq), ok := true,
            reset := decide (wf (c.words.getD 1 0) 12 12 = 1),
            drainUs := if wf (c.words.getD 1 0) 31 16 = 0 then fb s.flt.cfg.toNat 23 8 else wf (c.words.getD 1 0) 31 16 }
        ∧ u.findExec rk seq = some { c with stage := 1 } ∧ ∀ j, j ≠ d → u.fence j = s.fence j))
    ∧ (Begins s rk seq 0x31 c → wf (c.words.getD 1 0) 11 0 = d →
      (s.mayFence c.src d = false → ∃ u, exec (.resume rk seq env) s = .next u ∧ Completed u rk seq 0x31 .failedAccess [])
      ∧ (s.mayFence c.src d = true → s.domState d = .active → ∃ u, exec (.resume rk seq env) s = .next u
        ∧ Completed u rk seq 0x31 .repeated [])
      ∧ (s.mayFence c.src d = true → s.domState d ≠ .fenced → s.domState d ≠ .active → ∃ u, exec (.resume rk seq env) s = .next u
        ∧ Completed u rk seq 0x31 .busy [])
      ∧ (s.mayFence c.src d = true → s.domState d = .fenced → ∃ u, exec (.resume rk seq env) s = .next u
        ∧ u.fence d = { s.fence d with st := .reset, cmd := some (rk, seq), reset := true, ok := true }
        ∧ u.findExec rk seq = some { c with stage := 1 }))
    ∧ (s.domState d = .draining → s.domClass d ≠ some 8 → (s.fence d).staged = [] →
      ((s.fence d).reset = false → (s.fence d).cmd = some (rk, seq) → s.findExec rk seq = some c →
        ∃ u, exec (.drainEnd d) s = .next u ∧ (u.fence d).st = .fenced ∧ (u.fence d).seq = (s.fence d).seq
          ∧ Completed u rk seq c.op .done [BitVec.ofNat 64 ((u.fence d).losses % 2 ^ 32 + (s.fence d).seq % 2 ^ 32 * 2 ^ 32)]
          ∧ (epKey 32 0, d, 2) ∈ u.flt.notices ∧ (epKey 35 0, d, 2) ∈ u.flt.notices ∧ (epKey 38 0, d, 2) ∈ u.flt.notices)
      ∧ ((s.fence d).reset = true → ∃ u, exec (.drainEnd d) s = .next u ∧ (u.fence d).st = .reset
          ∧ (u.fence d).cmd = (s.fence d).cmd ∧ (epKey 32 0, d, 2) ∈ u.flt.notices))
    ∧ (s.flt.notices = (who, d, m) :: l →
      (who < 2048 → m = 2 → (s.tile who).idle = true → (s.tile who).intake = [] → (s.tile who).lrnBusy = none →
        ∃ u, exec (.fenceNotice who) s = .next u ∧ u.flt.notices = l
          ∧ (u.tile who).upstream = (s.tile who).upstream.map (fun x =>
              if (s.coveredTiles d).any (fun k => x.src = s.coord k) then { x with out := true } else x)
          ∧ (u.tile who).chainOut = (s.tile who).chainOut.filter (fun e => !(s.coveredTiles d).contains e.2.1))
      ∧ (who < 2048 → m = 0 → ∃ u, exec (.fenceNotice who) s = .next u ∧ u.flt.notices = l
          ∧ (u.tile who).upstream = (s.tile who).upstream.map (fun x =>
              if (s.coveredTiles d).any (fun k => x.src = s.coord k) then { x with out := false } else x))
      ∧ (who = epKey 32 0 → m = 2 → ∃ u, exec (.fenceNotice who) s = .next u ∧ u.flt.notices = l
          ∧ u.flt.hostReqs = s.flt.hostReqs.filter (fun e => !(s.coveredTiles d).contains e.2.1))
      ∧ (who = epKey 38 0 → m = 2 → ∃ u, exec (.fenceNotice who) s = .next u ∧ u.flt.notices = l
          ∧ u.tmp.worlds = s.tmp.worlds.map (fun (e : Nat × World) => (e.1, { e.2 with
              sweeps := (e.2.sweeps.map (fun x => (x.1, x.2.filter (fun t => !(s.coveredTiles d).contains t)))).filter
                (fun x => !x.2.isEmpty) }))))
    ∧ (s.domState d = .update → ∃ u, exec (.updateWritten d) s = .next u
        ∧ u.fence d = { s.fence d with st := .reset, staged := [] } ∧ ∀ j, j ≠ d → u.fence j = s.fence j)
    ∧ (s.domState d = .update → s.domClass d ≠ some 0 → s.domClass d ≠ some 8 → ∃ u, exec (.updateWritten d) s = .next u
        ∧ u.tiles = ((s.fence d).staged.foldl State.putUpdate s).tiles ∧ u.ports = ((s.fence d).staged.foldl State.putUpdate s).ports)
    ∧ (s.domState d = .reset → (s.fence d).staged = [] → s.boot.amending = none →
      (s.fence d).cmd = some (rk, seq) → s.findExec rk seq = some c →
      (s.domClass d = some 6 ∨ s.domClass d = some 5 ∨ s.domClass d = some 8 ∧ ((s.span (d - 0x010)).state = 2
        ∨ s.spanTrains (d - 0x010) = false) →
        ∃ u, exec (.resetComplete d) s = .next u ∧ (u.fence d).st = .active ∧ (u.fence d).cmd = none
          ∧ Completed u rk seq c.op .done [BitVec.ofNat 64 ((u.fence d).losses % 2 ^ 32 + (s.fence d).seq % 2 ^ 32 * 2 ^ 32)]
          ∧ (s.domClass d = some 5 → u.pool.dir = []))
      ∧ (s.domClass d = some 9 → ∃ u, exec (.resetComplete d) s = .next u ∧ (u.fence d).st = .active ∧ (u.fence d).cmd = none)
      ∧ (s.domClass d = some 0 → (∀ w, (s.tile (d - 0x800)).resident w = false) → (s.tile (d - 0x800)).homeOf (d - 0x800) = d - 0x800 →
        ∃ u, exec (.resetComplete d) s = .next u ∧ (u.fence d).st = .active
          ∧ (u.tile (d - 0x800)).intake = [] ∧ (u.tile (d - 0x800)).wheel = [] ∧ (u.tile (d - 0x800)).merge = []))
    ∧ (s.isReady = true → s.stackPresent d = true → s.boot.absentStacks.contains d = false → s.stackIsLost d = false →
      s.domState (stackDom d) = .active → ∃ u, exec (.stackLost d) s = .next u
        ∧ u.fence (stackDom d) = { s.fence (stackDom d) with
            st := .fenced, seq := (s.flt.fenceSeq + 1) % 2 ^ 32, losses := 0, cmd := none, reset := false, lost := true, ok := true }
        ∧ u.flt.stackLost = s.flt.stackLost ||| BitVec.ofNat 16 (2 ^ d)
        ∧ (epKey 32 0, stackDom d, 2) ∈ u.flt.notices)

/-- R173, R300 to R308: the loss writer takes items in arrival order and writes each at its place of the ring, or counts it
where the ring is full or stack 0 is lost; a quarantined unit with a source recovers, at RECOVERY_RETRY from its home alone; one
without a source fences its tile with a staged update. Model's choices: log 57, log 59. -/
def Obligations.LossesAreWrittenAndUnitsRecover : Prop :=
  ∀ (s : State) (i : LossItem) (r : List LossItem) (t u : Nat),
    (s.flt.queue = [] → exec .lossItem s = .next s)
    ∧ (s.flt.queue = i :: r → s.stackIsLost 0 = false → s.flt.held + i.size ≤ 65536 → s.mem.wf = true →
      (s.tile (s.flt.head.toNat % 65536 / 4096)).quar = [] → i.size = 1 → ∃ v, exec .lossItem s = .next v
        ∧ v.flt.head = s.flt.head + 1
        ∧ (∀ k, k < 8 → v.mem.read (colAddr (s.flt.head.toNat % 65536 / 4096) (0xFF00000 + 16 * (s.flt.head.toNat % 4096)) + k)
            = BitVec.ofNat 8 (i.word0 / 256 ^ k))
        ∧ (∀ k, k < 8 → v.mem.read (colAddr (s.flt.head.toNat % 65536 / 4096) (0xFF00000 + 16 * (s.flt.head.toNat % 4096)) + 8 + k)
            = BitVec.ofNat 8 (i.b.toNat / 256 ^ k))
        ∧ ∀ a, (a < colAddr (s.flt.head.toNat % 65536 / 4096) (0xFF00000 + 16 * (s.flt.head.toNat % 4096))
            ∨ colAddr (s.flt.head.toNat % 65536 / 4096) (0xFF00000 + 16 * (s.flt.head.toNat % 4096)) + 16 ≤ a) →
            v.mem.read a = s.mem.read a)
    ∧ (s.flt.queue = i :: r → (s.stackIsLost 0 = true ∨ 65536 < s.flt.held + i.size) →
      (i.sampled = true → exec .lossItem s = .next { s with flt.queue := r })
      ∧ (i.sampled = false → ∃ v, exec .lossItem s = .next v ∧ v.flt.queue = r ∧ v.flt.ovf = sat 32 s.flt.ovf 1
        ∧ tget 0 i.code.toNat v.flt.codeCnt = sat 32 (tget 0 i.code.toNat s.flt.codeCnt) 1
        ∧ v.flt.head = s.flt.head ∧ v.mem = s.mem
        ∧ (i.w = none → v.flt.ovfNoWorld = sat 32 s.flt.ovfNoWorld 1 ∧ v.tmp.worlds = s.tmp.worlds)))
    ∧ ((((s.tile t).quar.filter (fun e => !e.recovered)).map (·.unit)).find? (fun k => decide (s.recoverySource t k ≠ 0)) = some u →
      ∃ v, exec (.recoveryComplete t) s = .next v
        ∧ (v.tile t).quar = (s.tile t).quar.map (fun q =>
            if q.unit = u then { q with recovered := true, source := s.recoverySource t u } else q)
        ∧ (v.tile t).quarRecovered = sat 16 (s.tile t).quarRecovered 1
        ∧ (v.flt.queue = s.flt.queue
          ∨ v.flt.queue = s.flt.queue ++ [s.segItem t u 2 none none] ∧ s.recoverySource t u = 3 ∧ s.regionOf t u ≠ some 5))
    ∧ ((((s.tile t).quar.filter (fun e => !e.recovered)).map (·.unit)).find? (fun k => decide (s.recoverySource t k = 2)) = some u →
      ∃ v, exec (.recoveryRetry t) s = .next v
        ∧ (v.tile t).quar = (s.tile t).quar.map (fun q => if q.unit = u then { q with recovered := true, source := 2 } else q)
        ∧ v.flt.queue = s.flt.queue)
    ∧ ((((s.tile t).quar.filter (fun e => !e.recovered)).map (·.unit)).find? (fun k => decide (s.recoverySource t k ≠ 0)) = none →
      (((s.tile t).quar.filter (fun e => !e.recovered)).map (·.unit)).find? (fun k => s.sourceless t k && !(s.reloadSections t k).isEmpty)
        = some u → s.tileActive t = true → ∃ v, exec (.recoveryComplete t) s = .next v
        ∧ (v.fence (tileDom t)).st = .draining ∧ (v.fence (tileDom t)).reset = true
        ∧ (v.fence (tileDom t)).staged = (s.fence (tileDom t)).staged ++ s.reloadSections t u)

/-- R238, R265, R311: the steward resets on a write of HUB_STW.reset, a missed heartbeat or a memory error: it counts the reset,
drops an amendment before its commit, fails the commands in its execution and puts armed outputs into HOLD; it restarts once the
STEWARD section of the booted slot has the digest held, and applies the drain sum that the hub kept. Model's choices: log 61. -/
def Obligations.StewardResetsAndRestarts : Prop :=
  ∀ (s : State) (m : Nat) (v : Word) (i : Instr), (s.isReady = true → s.flt.stwReset = false →
      (i = .stewardReset m v ∧ s.has m .hubBlock .admin = true ∧ v.getLsbD 16 = true ∨ i = .stewardWatchdog ∨ i = .stewardMemoryError) →
      ∃ u, exec i s = .next u ∧ u.flt.stwReset = true ∧ u.flt.stwResets = sat 16 s.flt.stwResets 1
        ∧ u.boot.amending = s.boot.amending.filter (·.committed)
        ∧ u.ports = s.ports.map (fun e => (e.1, e.2.eachOut (fun _ => true) Port.holdSafe))
        ∧ (∀ c, c ∈ u.hub.executing → c ∈ s.hub.executing ∧ (opUnit c.op = 2 → s.isCommitted c = true))
        ∧ u.tmp = s.tmp ∧ u.tiles = s.tiles ∧ u.pool = s.pool ∧ u.flt.fences = s.flt.fences)
    ∧ (s.isReady = true → s.flt.stwReset = true → i = .stewardWatchdog ∨ i = .stewardMemoryError → exec i s = .next s)
    ∧ (s.isReady = true → s.has m .hubBlock .admin = true → v.getLsbD 16 = false → exec (.stewardReset m v) s = .next (s.respond m []))
    ∧ (s.isReady = true → s.has m .hubBlock .admin = false → ∃ u, exec (.stewardReset m v) s = .next u
        ∧ u.flt.stwReset = s.flt.stwReset ∧ (u.master m).errValid = true)
    ∧ (s.isReady = true → s.flt.stwReset = true →
      (s.stewardLoads = false → ∃ u, exec .stewardRestart s = .next u ∧ u.flt.stwReset = true ∧ u.hub.epoch = s.hub.epoch
        ∧ ∃ w, tget (0, 0) s.boot.logHead u.boot.log = w ∧ w.1.toNat % 2 ^ 8 = 0x0F)
      ∧ (s.stewardLoads = true → ∃ u, exec .stewardRestart s = .next u ∧ u.flt.stwReset = false ∧ u.hub.epoch.heldSum = 0)
      ∧ (s.stewardLoads = true → s.hub.epoch.state = 0 → s.hub.epoch.heldSum ≠ 0 → ∀ p,
        (s.pip s.hub.epoch.drainPip).add (BitVec.ofInt 32 s.hub.epoch.heldSum) = some p → ∃ u, exec .stewardRestart s = .next u
          ∧ (u.pip s.hub.epoch.drainPip).count = p.count ∧ u.hub.epoch.heldSum = 0))

/-- R22, R98, R208, R266 to R268: AMEND is refused without ADMIN on the boot block, and where the header, the key or the order
of amendments is wrong, with the boot failure code; REPEAT, BUSY and check_only change nothing; one that passes waits for its
commit, which AMEND_COMMIT makes: the sequence number and the list advance, a section takes effect or is staged in its domain,
and the command completes once every section has taken effect. Model's choices: log 60. -/
def Obligations.AmendmentsApplyWhole : Prop :=
  ∀ (s : State) (rk seq d ix code : Nat) (c : ExecCmd) (am : Option Image) (im : Image) (a : Amending) (x : Section)
      (ts : List (Target × BitVec 128)),
    (Begins s rk seq 0x11 c →
      (s.has c.src .bootBlock .admin = false ∨ amendArgs c = false → ∃ u, exec (.amend rk seq am) s = .next u
        ∧ Completed u rk seq 0x11 .failedAccess [] ∧ u.boot = s.boot)
      ∧ (s.has c.src .bootBlock .admin = true → amendArgs c = true →
        (4 ≤ c.words.length → wf (c.words.getD 3 0) 31 0 = s.boot.amendSeq → ∃ u, exec (.amend rk seq am) s = .next u
          ∧ Completed u rk seq 0x11 .repeated [] ∧ u.boot = s.boot)
        ∧ (c.words.length < 4 →
          (s.boot.amending.isSome = true → ∃ u, exec (.amend rk seq am) s = .next u
            ∧ Completed u rk seq 0x11 .busy [] ∧ u.boot = s.boot)
          ∧ (s.boot.amending = none → am = some im →
            (headerCode s im 0x3141424C ≠ 0 ∨ im.baseImageId ≠ s.boot.imageId → ∃ u i, exec (.amend rk seq am) s = .next u
              ∧ Completed u rk seq 0x11 .failedAccess [BitVec.ofNat 64 (2 + i * 2 ^ 16)] ∧ u.boot.refCode = 2
              ∧ u.boot.amending = none ∧ u.boot.amendSeq = s.boot.amendSeq)
            ∧ (headerCode s im 0x3141424C = 0 → im.baseImageId = s.boot.imageId → keyCode s im ≠ 0 → ∃ u i,
              exec (.amend rk seq am) s = .next u ∧ Completed u rk seq 0x11 .failedAccess [BitVec.ofNat 64 (keyCode s im + i * 2 ^ 16)]
              ∧ u.boot.refCode = keyCode s im ∧ u.boot.amending = none ∧ u.boot.amendSeq = s.boot.amendSeq)
            ∧ (headerCode s im 0x3141424C = 0 → im.baseImageId = s.boot.imageId → keyCode s im = 0 →
              im.secVersion < s.fuses.floor ∨ im.amendSeq ≤ s.boot.amendSeq → ∃ u i, exec (.amend rk seq am) s = .next u
              ∧ Completed u rk seq 0x11 .failedAccess [BitVec.ofNat 64 (5 + i * 2 ^ 16)] ∧ u.boot.refCode = 5
              ∧ u.boot.amending = none ∧ u.boot.amendSeq = s.boot.amendSeq)
            ∧ ((s.cmdWake 0x11).amendRefusal im = some (some ix, code) → ∃ u, exec (.amend rk seq am) s = .next u
              ∧ Completed u rk seq 0x11 .failedAccess [BitVec.ofNat 64 (code + ix % 2 ^ 16 * 2 ^ 16)] ∧ u.boot.refCode = code
              ∧ u.boot.amending = none ∧ u.boot.amendSeq = s.boot.amendSeq)
            ∧ ((s.cmdWake 0x11).amendRefusal im = none → s.hub.epoch.state = 0 → wf (c.words.getD 1 0) 10 10 = 1 → ∃ u,
              exec (.amend rk seq am) s = .next u ∧ u.boot = s.boot
              ∧ Completed u rk seq 0x11 .done [BitVec.ofNat 64 (im.amendSeq % 2 ^ 32 + im.sections.length % 2 ^ 16 * 2 ^ 32)])
            ∧ ((s.cmdWake 0x11).amendRefusal im = none → s.hub.epoch.state = 0 → wf (c.words.getD 1 0) 10 10 ≠ 1 → ∃ u,
              exec (.amend rk seq am) s = .next u ∧ u.findExec rk seq = some { c with stage := 1 }
              ∧ u.boot = { s.boot with amending := some { rk := rk, seq := seq, im := im, committed := false, doms := [] } })))))
    ∧ (s.boot.amending = none → exec .amendCommit s = .next s)
    ∧ (s.boot.amending = some a → a.committed = true ∨ s.flt.stwReset = true → exec .amendCommit s = .next s)
    ∧ (s.boot.amending = some a → a.committed = false → s.flt.stwReset = false →
      (∃ u, exec .amendCommit s = .next u ∧ u.boot.amendSeq = a.im.amendSeq
        ∧ u.boot.amended = s.boot.amended ++ (loadOrder a.im.sections).map (·.1))
      ∧ (a.im.sections = [x] → s.skips x = false → (s.shadow a.im).updateDoms x = [d] → ∃ u, exec .amendCommit s = .next u
        ∧ (u.fence d).staged = (s.fence d).staged ++ [x] ∧ u.boot.amending = some { a with committed := true, doms := [d] }
        ∧ (0x800 ≤ d → s.tileStill (d - 0x800) = true → s.domState d = .active → (u.fence d).st = .draining))
      ∧ (a.im.sections = [x] → x.data = .access ts → (∀ e, e ∈ s.tmp.worlds → e.2.staged = none) → s.findExec a.rk a.seq = some c →
        ∃ u, exec .amendCommit s = .next u ∧ u.access = ts.foldl (fun l e => putTable e.1 e.2 l) s.access ∧ u.boot.amending = none
        ∧ Completed u a.rk a.seq c.op .done [BitVec.ofNat 64 (a.im.amendSeq % 2 ^ 32 + 1 * 2 ^ 32)]))

/-- R167, R171, R174, R176, R177: a descriptor that the bulk plane refuses does nothing; a transfer writes nothing but its
destination lines and waits for its completion; a line of ZERO writes zeros, one of COPY from a column the source line; a line
that cannot be written is recorded and counted; completion counts the transfer and adds 1 to its pip; an add message is applied,
or refused and counted, on behalf of its sender. Model's choices: log 45. -/
def Obligations.BulkTransfersMoveLines : Prop :=
  ∀ (s : State) (who t p : Nat) (w0 w1 w2 w3 : DWord) (ext : List (Option (BitVec 512))) (d : BitVec 512) (e : Code)
      (b : Bulk) (r : List Bulk) (v : Volley) (q : List Volley) (n : Word) (x : Pip) (y : Bool),
    (bulkOk w0 w1 w2 = false → exec (.bulkTransfer who w0 w1 w2 w3 ext) s = .next s)
    ∧ (bulkOk w0 w1 w2 = true → ∃ u, exec (.bulkTransfer who w0 w1 w2 w3 ext) s = .next u
        ∧ u.pool.bulks = s.pool.bulks ++ [{ who := who, w3 := w3 }] ∧ u.pool.bulkDone = s.pool.bulkDone
        ∧ ∀ a, (∀ i k, i < blkLines w0 → k ∈ s.bulkDests w0 w2 →
            a < s.memAddr (colAddr k (wf w2 27 0 + 64 * i)) ∨ s.memAddr (colAddr k (wf w2 27 0 + 64 * i)) + 64 ≤ a) →
          u.mem.read a = s.mem.read a)
    ∧ (bulkOk w0 w1 w2 = true → blkLines w0 = 1 → s.bulkDests w0 w2 = [t] → s.bulkRead who w0 w1 ext 0 = (.done, d) →
      (s.bulkWriteCode t w2 0 = none → s.mem.wf = true → ∃ u, exec (.bulkTransfer who w0 w1 w2 w3 ext) s = .next u
        ∧ u.flt.queue = s.flt.queue
        ∧ ∀ k, k < 64 → u.mem.read (s.memAddr (colAddr t (wf w2 27 0)) + k) = d.extractLsb' (8 * k) 8)
      ∧ (s.bulkWriteCode t w2 0 = some e → ∃ u, exec (.bulkTransfer who w0 w1 w2 w3 ext) s = .next u ∧ u.mem = s.mem
        ∧ u.pool.bulkFailed = sat 16 s.pool.bulkFailed 1
        ∧ u.flt.queue = s.flt.queue ++ [s.bulkItem who 0 0 (colAddr t (wf w2 27 0)) e]))
    ∧ (blkOp w0 = 2 → s.bulkRead who w0 w1 ext 0 = (.done, 0))
    ∧ (blkOp w0 = 1 → blkSrcKind w0 = 0 → s.tilePresent (wf w1 38 28) = true → s.tileActive (wf w1 38 28) = true →
        s.mem.anyBad (s.memAddr w1.toNat) 64 = false →
        s.bulkRead who w0 w1 ext 0 = (.done, s.mem.readLine (s.memAddr w1.toNat)))
    ∧ (s.pool.bulks = [] → exec .bulkComplete s = .next s)
    ∧ (s.pool.bulks = b :: r →
      (∃ u, exec .bulkComplete s = .next u ∧ u.pool.bulks = r ∧ u.pool.bulkDone = sat 16 s.pool.bulkDone 1
        ∧ (wf b.w3 18 18 ≠ 1 → u.pips = s.pips))
      ∧ (wf b.w3 18 18 = 1 → 2 ≤ (s.pipRight b.who (wf b.w3 17 0)).rank → (s.pip (wf b.w3 17 0)).add 1 = some x →
        ∃ u, exec .bulkComplete s = .next u ∧ u.pip (wf b.w3 17 0) = x ∧ u.pips.refused = s.pips.refused))
    ∧ (tget [] (epKey 33 0) s.fab.inbox = v :: q → v.body = .control y (.pipAdd p n who) →
      (2 ≤ (s.pipRight who p).rank → (s.pip p).add n = some x → ∃ u, exec .pipAddMessage s = .next u
        ∧ u.pip p = x ∧ (∀ j, j ≠ p → u.pip j = s.pip j) ∧ u.pips.refused = s.pips.refused)
      ∧ ((s.pipRight who p).rank < 2 ∨ (s.pip p).add n = none → ∃ u, exec .pipAddMessage s = .next u
        ∧ (∀ j, u.pip j = s.pip j) ∧ u.pips.refused = sat 32 s.pips.refused 1
        ∧ ∃ i : LossItem, u.flt.queue = s.flt.queue ++ [i] ∧ i.kind = 7 ∧ i.code = .failedAccess))

/-- R151, R156, R163: a rack binding takes the events of a volley: with to_rack it posts a WORLD_OUTPUT message stamped with the
sender's master where more than the reserve is free, else drops it and records it; with to_snapshot the turn of the event takes
the value. Model's choices: log 40. -/
def Obligations.RackBindingsTakeEvents : Prop :=
  ∀ (s : State) (y w : Nat) (v : Volley) (q : List Volley) (e b : Word),
    tget [] (epKey 32 y) s.fab.inbox = v :: q → v.body = .events [e] → tget (0 : Word) y s.racks.bindings = b → w = v.group * 32 + evLane e →
      (∃ u, exec (.rackBindingEvent y) s = .next u
        ∧ u.fab.inbox = (if q.isEmpty then tdel (epKey 32 y) s.fab.inbox else tset (epKey 32 y) q s.fab.inbox)
        ∧ (bindToRack b = false → u.racks = s.racks) ∧ (bindToSnapshot b = false → bindToRack b = false → u.tmp = s.tmp))
      ∧ (bindToRack b = true → (s.rack (bindRack b)).hubReserve < (s.rack (bindRack b)).free → ∃ u m k, exec (.rackBindingEvent y) s = .next u
        ∧ (u.rack (bindRack b)).msgs = (s.rack (bindRack b)).msgs ++ [m]
        ∧ m = [stampHeader (recHeader 0x86 .done [0]) (s.senderMaster v.src) (bindRack b) (s.rack (bindRack b)).next.toNat,
            BitVec.ofNat 64 (w + evRow e * 2 ^ 13 + evValue e * 2 ^ 26 + k % 2 ^ 20 * 2 ^ 34)]
        ∧ k = fullTempo (s.world w).t ((v.tempoBase + evOffset e) % 2 ^ 20))
      ∧ (bindToRack b = true → (s.rack (bindRack b)).free ≤ (s.rack (bindRack b)).hubReserve → ∃ u, exec (.rackBindingEvent y) s = .next u
        ∧ (u.rack (bindRack b)).msgs = (s.rack (bindRack b)).msgs
        ∧ (u.rack (bindRack b)).hubDropped = sat 16 (s.rack (bindRack b)).hubDropped 1
        ∧ ∃ i : LossItem, u.flt.queue = s.flt.queue ++ [i] ∧ i.code = .droppedRackFull ∧ i.kind = 0xA ∧ i.w = some w)
      ∧ (bindToRack b = false → bindToSnapshot b = true → (s.world w).st = .running → ∀ n tau,
        tau = fullTempo (s.world w).t ((v.tempoBase + evOffset e) % 2 ^ 20) → n = (s.world w).turnOf tau →
        (s.world w).closed ≤ n → n < (s.world w).opened → ∃ u, exec (.rackBindingEvent y) s = .next u
        ∧ tget {} (evRow e) (tget {} n (u.world w).turns).chans
            = (tget {} (evRow e) (tget {} n (s.world w).turns).chans).take (evValue e) tau
        ∧ ∀ j, j ≠ w → u.world j = s.world j)

/-- R178, R181 to R184: an agent's request is refused without its right, read from the pool, queued behind a transaction, or
served by recalling the owner; a writeback holds its entry; a clean line leaves; a grant installs the line; WB_DONE, RECALL and
INV invalidate it, the last two with an ACK that carries dirty data; the ACK gives the line to the next requester; a snoop is
answered, queued or recalls. Model's choices: log 43. -/
def Obligations.PoolLinesMoveByTheDirectory : Prop :=
  ∀ (s : State) (a win line k : Nat) (x : Bool) (i : Instr) (cd : Code) (o : PoolOp) (e : DirEntry) (d : BitVec 512) (c : CacheLine)
      (st : Option (BitVec 512)) (ms : List (Nat × Nat × Nat × DirMsg)) (q : List (Nat × Nat × Nat × Option (BitVec 512))) (r : DirReq),
    let key := s.poolKey win line
    ((i = .rdS a win line ∧ x = false ∨ i = .rdX a win line ∧ x = true) →
      (s.poolCode a win line x = some cd → exec i s = .next (s.agentFail a cd))
      ∧ (s.poolCode a win line x = none → s.cached a key = none → (s.cache a).length < cacheCap a → s.outstanding a key = false →
        s.agentLive a = true →
        (winCacheable (s.poolWin win) = false → s.poolUp = false → ∃ u, exec i s = .next u ∧ tget .done a u.pool.agentRes = .failedLink
          ∧ u.pool.ops = s.pool.ops)
        ∧ (winCacheable (s.poolWin win) = false → s.poolUp = true → (∀ p, p ∈ s.pool.ops → s.poolKey p.win p.line ≠ key) →
          s.pool.planRead (s.poolWin win) win line false [a] = some o → ∃ u, exec i s = .next u ∧ u.pool.ops = s.pool.ops ++ [o])
        ∧ (winCacheable (s.poolWin win) = true → s.poolUp = true → s.pool.dir = [] →
          s.pool.planRead (s.poolWin win) win line true [a] = some o → ∃ u, exec i s = .next u ∧ u.pool.ops = s.pool.ops ++ [o]
          ∧ u.entry key = some { key := key, win := win, line := line, trans := some (.read { agent := a, excl := x }) })
        ∧ (winCacheable (s.poolWin win) = true → s.entry key = some e → e.trans.isSome = true → ∃ u, exec i s = .next u
          ∧ u.pool.ops = s.pool.ops ∧ u.entry key = some { e with queue := e.queue ++ [{ agent := a, excl := x }] })
        ∧ (winCacheable (s.poolWin win) = true → s.entry key = some e → e.trans = none → s.transCount < 256 → e.queue = [] →
          e.snoops = [] → e.st = 2 → e.holders = [k] → ∃ u, exec i s = .next u
          ∧ u.pool.toAgent = s.pool.toAgent ++ [(k, e.win, e.line, .recall)]
          ∧ u.entry key = some { e with trans := some (.await [k] none (.req { agent := a, excl := x })) })))
    ∧ (winCacheable (s.poolWin win) = false → s.poolCode a win line true = none → s.pool.planWrite (s.poolWin win) win line false [a] d = some o →
        ∃ u, exec (.wb a win line d) s = .next u ∧ u.pool.ops = s.pool.ops ++ [o])
    ∧ (winCacheable (s.poolWin win) = true → s.cached a key = some c → c.dirty = true → s.entry key = some e → e.st = 2 → e.holders = [a] →
        e.trans = none → s.transCount < 256 → s.domActive 3 = true → s.pool.toAgent = [] → s.pool.waitingReqs = [] →
        s.pool.planWrite (s.poolWin e.win) e.win e.line true [] d = some o → ∃ u, exec (.wb a win line d) s = .next u
          ∧ u.pool.ops = s.pool.ops ++ [o] ∧ u.entry key = some { e with trans := some (.writeback a d) })
    ∧ (s.cached a key = some c → c.dirty = false → s.entry key = some e → e.holders = [a] → e.trans = none → e.queue = [] → e.snoops = [] →
        s.domActive 3 = true → ∃ u, exec (.evc a win line) s = .next u ∧ u.cached a key = none ∧ u.entry key = none)
    ∧ (s.pool.toAgent = (a, win, line, .grantS d) :: ms → winCacheable (s.poolWin win) = true → ∃ u, exec (.grantS a) s = .next u
        ∧ u.pool.toAgent = ms ∧ u.cached a key = some { win := win, line := line, data := d, dirty := false, excl := false })
    ∧ (s.pool.toAgent = (a, win, line, .grantX d x) :: ms → winCacheable (s.poolWin win) = true → ∃ u, exec (.grantX a st) s = .next u
        ∧ u.pool.toAgent = ms
        ∧ u.cached a key = some { win := win, line := line, data := st.getD d, dirty := x || st.isSome, excl := true })
    ∧ (s.pool.toAgent = (a, win, line, .wbDone) :: ms → winCacheable (s.poolWin win) = true → ∃ u, exec (.wbDone a) s = .next u
        ∧ u.pool.toAgent = ms ∧ u.cached a key = none)
    ∧ ((s.pool.toAgent = (a, win, line, .recall) :: ms ∧ i = .recall a ∨ s.pool.toAgent = (a, win, line, .inv) :: ms ∧ i = .inv a) →
        s.cached a key = some c → ∃ u, exec i s = .next u ∧ u.pool.toAgent = ms ∧ u.cached a key = none
          ∧ u.pool.toDir = s.pool.toDir ++ [(a, win, line, if c.dirty then some c.data else none)])
    ∧ (s.pool.toDir = (a, win, line, some d) :: q → s.pool.waitingReqs = [] → s.entry key = some e →
        e.trans = some (.await [a] none (.req r)) → r.excl = true → s.agentLive r.agent = true → e.queue = [] → e.snoops = [] →
        ∃ u, exec .ack s = .next u ∧ u.pool.toDir = q ∧ u.pool.toAgent = s.pool.toAgent ++ [(r.agent, e.win, e.line, .grantX d true)]
          ∧ u.entry key = some { e with st := 2, holders := [r.agent], trans := none } ∧ u.pool.ops = s.pool.ops)
    ∧ (k < 3 → s.entry key = none → ∃ u, exec (.bisnp win line k x) s = .next u ∧ u.pool.birsp = some (win, line, 0)
        ∧ u.pool.snoops = sat 16 s.pool.snoops 1)
    ∧ (s.entry key = some e → e.trans.isSome = true → ∃ u, exec (.bisnp win line k x) s = .next u
        ∧ u.entry key = some { e with snoops := e.snoops ++ [k] } ∧ u.pool.snoops = sat 16 s.pool.snoops 1
        ∧ u.pool.conflicts = if x then sat 16 s.pool.conflicts 1 else s.pool.conflicts)
    ∧ (s.entry key = some e → e.trans = none → e.snoops = [] → e.st = 2 → e.holders = [a] → ∃ u, exec (.bisnp win line k x) s = .next u
        ∧ u.entry key = some { e with trans := some (.await [a] none (.snoop k)) }
        ∧ u.pool.toAgent = s.pool.toAgent ++ [(a, e.win, e.line, .recall)])

/-- R183, R188, R290: an operation of the gateway reads and writes line by line; complete, it answers its agents or lets the
directory go on: a writeback's WB_DONE, and the first queued request's grant from the buffer; dirty lines held 100 ms without a
link are recorded. Model's choices: log 43. -/
def Obligations.PoolOperationsComplete : Prop :=
  ∀ (s : State) (a win line : Nat) (o : PoolOp) (e : DirEntry) (d v : BitVec 512) (r : DirReq) (rs : List DirReq) (c : CacheLine)
      (w : Nat × Nat × BitVec 512) (y : Nat × Nat) (ys : List (Nat × Nat)),
    let key := s.poolKey win line
    (s.nextOp win line = none → exec (.poolReadComplete win line d) s = .next s ∧ exec (.poolWriteComplete win line) s = .next s)
    ∧ (s.nextOp win line = some o → o.reads = y :: ys → ys ≠ [] → ∃ u, exec (.poolReadComplete win line d) s = .next u
        ∧ u.pool.ops = s.pool.ops.map (fun p => if p = o then { o with reads := ys, got := o.got ++ [d] } else p))
    ∧ (s.pool.ops = [o] → s.poolKey o.win o.line = key → o.reads = [y] → o.new = none → o.writes = [] → o.plan = 0 → o.got = [] →
      (o.cached = false → o.agents = [a] → s.agentLive a = true → ∃ u, exec (.poolReadComplete win line d) s = .next u
        ∧ u.pool.ops = [] ∧ u.pool.toAgent = s.pool.toAgent ++ [(a, o.win, o.line, .grantS d)])
      ∧ (o.cached = true → s.entry key = some e → e.trans = some (.read r) → e.queue = [] → e.snoops = [] → s.pool.waitingReqs = [] →
        s.agentLive r.agent = true → ∃ u, exec (.poolReadComplete win line d) s = .next u ∧ u.pool.ops = []
        ∧ u.pool.toAgent = s.pool.toAgent ++ [(r.agent, e.win, e.line, if r.excl then .grantX d false else .grantS d)]
        ∧ u.entry key = some { e with trans := none, st := (if r.excl then 2 else 1), holders := (if r.excl then [r.agent] else r.agent :: e.holders.filter (· ≠ r.agent)) }))
    ∧ (s.pool.ops = [o] → s.poolKey o.win o.line = key → o.reads = [] → o.writes = [w] → o.new = some v →
      (o.cached = false → o.agents = [a] → s.agentLive a = true → ∃ u, exec (.poolWriteComplete win line) s = .next u
        ∧ u.pool.ops = [] ∧ u.pool.toAgent = s.pool.toAgent ++ [(a, o.win, o.line, .wbDone)])
      ∧ (o.cached = true → s.entry key = some e → e.trans = some (.writeback a d) → e.queue = r :: rs → rs = [] → e.snoops = [] →
        s.pool.waitingReqs = [] → s.agentLive r.agent = true → r.excl = true → ∃ u, exec (.poolWriteComplete win line) s = .next u
        ∧ u.pool.ops = [] ∧ u.entry key = some { e with trans := none, st := 2, holders := [r.agent], queue := [] }
        ∧ u.pool.toAgent = s.pool.toAgent ++ [(a, e.win, e.line, .wbDone), (r.agent, e.win, e.line, .grantX d false)]))
    ∧ (s.pool.linkLost = false ∨ s.poolUp = true → exec .dirtyLineHoldExpiry s = .next s)
    ∧ (s.pool.linkLost = true → s.poolUp = false → s.pool.caches = [(a, [c])] → c.dirty = true → s.pool.ops = [] →
        ∃ u, exec .dirtyLineHoldExpiry s = .next u ∧ u.flt.queue = s.flt.queue ++ [s.lineItem c.win c.line .failedLink]
        ∧ u.cached a (s.poolKey c.win c.line) = none)

/-- R181, R186, R189, R191: the keeper moves the stripe state and the rebuild cursor by its table, the lease goes up, a standby
claims a lease that stood still for ten reads, and the gateway's registers set the floor, add a spare, reinitialise and flush.
Model's choices: log 44. -/
def Obligations.KeeperMovesTheStripe : Prop :=
  ∀ (s : State) (m k x e t granted capacity lease : Nat) (v : Word) (claimed : Bool) (d : DirEntry) (a : Nat),
    (s.pool.ops = [] → s.pool.members[k]? = some x → k < 8 → s.pool.failed ≠ some k → k ∉ s.pool.failedMore →
      ∃ u, exec (.memberFailed k) s = .next u ∧ u.pool.members = s.pool.members
        ∧ (s.pool.stripe = 0 → s.pool.spare = some e → u.pool.stripe = 2 ∧ u.pool.failed = some k ∧ u.pool.cursor = 0 ∧ u.pool.spare = some e)
        ∧ (s.pool.stripe = 0 → s.pool.spare = none → u.pool.stripe = 1 ∧ u.pool.failed = some k)
        ∧ (s.pool.stripe = 1 ∨ s.pool.stripe = 2 → u.pool.stripe = 3 ∧ u.pool.failed = s.pool.failed
          ∧ u.pool.failedMore = s.pool.failedMore ++ [k]))
    ∧ (s.pool.ops = [] → s.pool.members ≠ [] → s.pool.spare = some e → s.pool.stripe = 2 → ∃ u, exec (.memberFailed 8) s = .next u
        ∧ u.pool.stripe = 1 ∧ u.pool.spare = none ∧ u.pool.cursor = 0 ∧ u.pool.failed = s.pool.failed)
    ∧ (s.pool.role = 1 → s.pool.stripe = 2 → s.poolUp = true → s.domActive 3 = true →
      t = s.pool.cursor * 64 + s.pool.lineInRow + max granted (s.pool.floorPct * capacity / 100) / s.pool.members.length →
      ∃ u, exec (.rebuildWindow granted capacity) s = .next u
        ∧ (t / 64 < s.pool.rowCount → u.pool = { s.pool with cursor := t / 64, lineInRow := t % 64, published := max s.pool.published (t / 64 / 256 * 256) })
        ∧ (s.pool.rowCount ≤ t / 64 → u.pool.stripe = 0 ∧ u.pool.failed = none ∧ u.pool.spare = none
          ∧ (s.pool.failed = some k → s.pool.spare = some e → u.pool.members = s.pool.members.set k e)))
    ∧ (s.poolUp = true → s.pool.role = 1 → exec .leaseTick s = .next { s with pool.lease := (s.pool.lease + 1) % 2 ^ 32 })
    ∧ (s.poolUp = true → s.pool.role = 2 → ∃ u, exec (.leaseCheck lease claimed) s = .next u ∧ u.pool.lease = lease
        ∧ (lease = s.pool.lease → s.pool.leaseStale = 9 → claimed = true → u.pool.role = 1 ∧ u.pool.cursor = s.pool.published)
        ∧ (lease ≠ s.pool.lease → u.pool.role = 2 ∧ u.pool.leaseStale = 0)
        ∧ (lease = s.pool.lease → s.pool.leaseStale < 9 → u.pool.role = 2 ∧ u.pool.leaseStale = s.pool.leaseStale + 1)
        ∧ (claimed = false → u.pool.role = 2))
    ∧ (s.poolUp = true → s.pool.role = 1 → claimed = false → ∃ u, exec (.leaseCheck lease claimed) s = .next u ∧ u.pool.role = 2)
    ∧ (s.isReady = true → s.has m .poolBlock .admin = true →
      (5 ≤ fb v.toNat 5 0 → fb v.toNat 5 0 ≤ 50 → ∃ u, exec (.poolKeepCfg m v) s = .next u ∧ u.pool = { s.pool with floorPct := fb v.toNat 5 0 })
      ∧ (fb v.toNat 5 0 < 5 ∨ 50 < fb v.toNat 5 0 → ∃ u, exec (.poolKeepCfg m v) s = .next u ∧ u.pool = s.pool ∧ (u.master m).resp.code = .failedAccess)
      ∧ (s.flt.stwReset = true → v.getLsbD 1 = true → ∃ u, exec (.addSpare m v) s = .next u ∧ u.pool = s.pool
        ∧ (u.master m).resp.code = .failedStewardReset)
      ∧ (s.flt.stwReset = false → s.pool.role = 1 → v.getLsbD 1 = true → s.pool.spare = none → ∃ u, exec (.addSpare m v) s = .next u
        ∧ u.pool.spare = some (fb v.toNat 11 8) ∧ u.pool.stripe = (if s.pool.stripe = 1 then 2 else s.pool.stripe)
        ∧ (s.pool.stripe = 1 → u.pool.cursor = 0))
      ∧ (s.flt.stwReset = false → s.pool.role = 1 → v.getLsbD 0 = true → s.pool.stripe = 3 → ∃ u, exec (.reinit m v) s = .next u
        ∧ u.pool.stripe = 0 ∧ u.pool.failed = none ∧ u.pool.failedMore = [] ∧ u.pool.members = s.pool.members))
    ∧ (s.isReady = true → s.has m .poolBlock .use = true → v.getLsbD 6 = true →
      (s.has m (.poolWin (fb v.toNat 5 0)) .admin = true → s.pool.dir = [d] → inWindow (s.poolWin (fb v.toNat 5 0)) d.key = true → d.trans = none →
        d.snoops = [] → d.st = 2 → d.holders = [a] → ∃ u, exec (.poolFlush m v) s = .next u
        ∧ u.pool.toAgent = s.pool.toAgent ++ [(a, d.win, d.line, .recall)]
        ∧ u.entry d.key = some { d with trans := some (.await [a] none (.snoop 3)) })
      ∧ (s.has m (.poolWin (fb v.toNat 5 0)) .admin = false → ∃ u, exec (.poolFlush m v) s = .next u ∧ u.pool = s.pool
        ∧ (u.master m).resp.code = .failedAccess))

/-- R243 to R246, R249, R254, R259, R261, R262, R264, R335: the boot engine starts at the release of power-on reset; steps 1 to
5 pass or fail with their codes, from slot B once; a stack that does not train is absent; READY ends the boot; a restart begins
it again. Model's choices: log 7, log 52, log 53, log 54, log 55, log 75. -/
def Obligations.BootRunsFromReleaseToReady : Prop :=
  ∀ (s : State) (env : BootEnv) (im : Image) (m st : Nat) (v : Word) (d : Directive) (b : Option (List Byte)) (c : Instr) (f : Option Nat) (k : Nat),
    let good := fun (n : Nvm) => n.magic = 0x5244424C ∧ n.version = 1 ∧ n.crc = Config.directoryCrc n ∧ n.overlay = none ∧ n.charters = []
    let headed := im.magic = 0x3149424C ∧ im.version = 1 ∧ im.headerSize = 512 ∧ im.packageMask.getLsbD (Package.code s.pkg - 1) = true
    let keyed := im.keySlot ≤ 1 ∧ Config.keyHash im.key = Fuses.hash s.fuses im.keySlot ∧ s.fuses.revoke.getLsbD im.keySlot = false
    let at' := fun (p : Nat) => s.aon.phase = .running ∧ s.boot.started = true ∧ s.boot.st = 0 ∧ s.boot.phase = p
    ((c = .porRelease env ∧ s.aon.phase = .porAsserted ∧ s.aon.railEn = true ∧ s.aon.resetLow = false ∧ s.aon.fromDoldrums = false
        ∨ c = .restart m v ∧ s.aon.phase = .running ∧ s.boot.started = true ∧ s.isReady = false ∧ isHost m = true ∧ v.getLsbD 0 = true ∧ s.boot.env = env) →
      ∃ u, exec c s = .next u ∧ u.aon.phase = .running ∧ u.boot.started = true ∧ u.boot.env = env
        ∧ (good env.nvm → env.nvm.slotA = some im → headed → keyed → Config.imageVerifies im = true → s.fuses.floor ≤ im.secVersion →
          u.boot.st = 0 ∧ u.boot.phase = 5 ∧ u.boot.slot = 0 ∧ u.boot.imageId = im.imageId ∧ u.boot.secVersion = im.secVersion
          ∧ u.boot.image = some im ∧ u.hub.p = im.p)
        ∧ (env.nvm.magic ≠ 0x5244424C → u.boot.st = 2 ∧ u.boot.fail = 1 ∧ ∀ e ∈ u.ports, ∀ o ∈ e.2.outs, o.2.pin = 2)
        ∧ (good env.nvm → env.nvm.slotA = some im → env.nvm.slotB = none → headed →
          (Config.keyHash im.key ≠ Fuses.hash s.fuses im.keySlot → u.boot.st = 2 ∧ u.boot.fail = 3)
          ∧ (keyed → Config.imageVerifies im = false → u.boot.st = 2 ∧ u.boot.fail = 4)
          ∧ (keyed → Config.imageVerifies im = true → im.secVersion < s.fuses.floor → u.boot.st = 2 ∧ u.boot.fail = 5))
        ∧ (good env.nvm → env.nvm.slotA = none → env.nvm.slotB = some im → headed → keyed → Config.imageVerifies im = true →
          s.fuses.floor ≤ im.secVersion → u.boot.st = 0 ∧ u.boot.phase = 5 ∧ u.boot.slot = 1 ∧ u.boot.imageId = im.imageId))
    ∧ (s.aon.phase = .running → s.isReady = false → isHost m = true → v.getLsbD 0 = false → ∃ u, exec (.restart m v) s = .next u ∧ u.boot = s.boot
        ∧ (u.master m).resp.code = .done)
    ∧ (s.aon.phase = .running → s.isReady = false → isHost m = false → ∃ u, exec (.restart m v) s = .next u ∧ u.boot = s.boot
        ∧ (u.master m).resp.code = .notReady)
    ∧ (s.aon.phase = .running → s.isReady = true → s.has m .bootBlock .admin = false → ∃ u, exec (.restart m v) s = .next u ∧ u.boot = s.boot
        ∧ (u.master m).resp.code = .failedAccess)
    ∧ (at' 5 → s.stackIsLost st = false → s.stackPresent st = true → st ∉ s.boot.absentStacks →
      (st ≠ 0 → exec (.stackLinkTimeout st) s = .next { s with boot.absentStacks := s.boot.absentStacks ++ [st] })
      ∧ (st = 0 → ∃ u, exec (.stackLinkTimeout st) s = .next u ∧ u.boot.st = 2 ∧ u.boot.fail = 9))
    ∧ (at' 10 → s.boot.dirs = [(d, b)] → s.sourceReady d = false →
      (∃ u, exec .sourceWaitExpiry s = .next u ∧ u.boot.st = 2 ∧ u.boot.fail = 0x0C)
      ∧ (s.boot.image = some im → ∃ u, exec .ready s = .next u ∧ u.boot.st = 0 ∧ u.boot.phase = 10 ∧ u.boot.dirs = [(d, b)]))
    ∧ (at' 5 → s.boot.image = some im → st ∈ s.boot.env.dramFail → s.stackPresent st = true → st ∉ s.boot.absentStacks →
        ∃ u, exec .ready s = .next u ∧ u.boot.st = 2 ∧ u.boot.fail = 0x0A)
    ∧ (at' 5 → s.boot.image = some im → s.boot.env.dramFail = [] → s.rollAndMap.capacityOk im = true → s.rollAndMap.load im = .inr (f, k) → s.boot.slot = 1 →
        s.rollAndMap.boot.slot = 1 → ∃ u, exec .ready s = .next u ∧ u.boot.st = 2 ∧ u.boot.fail = k)
    ∧ (at' 10 → s.boot.image = some im → s.boot.dirs = [] → (∀ e ∈ s.tiles, s.tilePresent e.1 = true → s.columnOk e.1 = true) →
      ∃ u, exec .ready s = .next u ∧ u.boot.st = 1 ∧ u.boot.phase = 11 ∧ u.boot.degraded = !s.boot.absent.isEmpty ∧ u.boot.timeMs = s.bootMs
        ∧ u.fuses = { s.fuses with floor := if im.commitFloor then max s.fuses.floor (min im.secVersion 64) else s.fuses.floor }
        ∧ u.flt.stwReset = false
        ∧ (s.ports = [] → (∀ e ∈ s.tmp.worlds, e.2.autostart = false) → (∀ x ∈ im.sections, ∀ y, x.data ≠ .trace y) → 0 < (s.rack im.bootRack).free →
          ∃ h, (u.rack im.bootRack).msgs = (s.rack im.bootRack).msgs ++ [[h, BitVec.ofNat 64 (s.boot.slot + b2n (!s.boot.absent.isEmpty) * 2
            + s.boot.shifted % 2 ^ 16 * 2 ^ 16 + s.bootMs % 2 ^ 32 * 2 ^ 32), im.imageId]] ∧ fb h.toNat 15 8 = 0x88))

/-- The block's step: the command at the front of the queue is executed with the rest of the queue, and on an empty queue the
wall counter alone advances, by 1 µs, where the always-on domain is out of its reset (log 5). -/
def Obligations.StepRunsTheFrontCommand : Prop :=
  ∀ (c : Instr) (rest : List Instr) (s : State),
    step { s with pending := c :: rest } = exec c { s with pending := rest }
    ∧ (s.pending = [] → ∃ u, step s = .next u ∧ Only [.wall] s u
        ∧ u.aon.wall = (if s.aon.phase = .aonReset then s.aon.wall else (s.aon.wall + 1) % 2 ^ 64))

/-- R8: reset leaves each register at its Reset column's value, where that is not 0 as well (TMP_W_TURN.closed, TILE_RATE.r,
PIP_WAITERS.free, POOL_STATUS.failed, SP_STATE.state, BOOT_STATUS.phase, TRC_STATUS.owner); memory lists nothing and is
canonical, and no command waits. Model's choices: log 3, log 4, log 11. -/
def Obligations.ResetHoldsTheStatedValues : Prop :=
  ∀ (m w t n k : Nat), w < 8192 → t < 2048 → n < 16 → k < 4 →
    State.reset.regWord m (0x810000 + 0x40 * w + 0x28) = 0xFFFFFFFF
    ∧ fb (State.reset.regWord m (0x1000000 + 0x4000 * t + 0x814)) 7 0 = 174
    ∧ fb (State.reset.regWord m 0x300034) 14 0 = 16384
    ∧ fb (State.reset.regWord m 0x500000) 23 20 = 0xF
    ∧ fb (State.reset.regWord m (0x400000 + 0x1000 * n + 8)) 31 29 = 1
    ∧ fb (State.reset.regWord m 0x100000) 27 24 = 1
    ∧ fb (State.reset.regWord m 0x600000) 25 20 = 1
    ∧ State.reset.regWord m 0x800008 = 0 ∧ State.reset.regWord m 0x800014 = 0 ∧ State.reset.regWord m 0x800018 = 0
    ∧ State.reset.regWord m (0x800024 + 4 * k) = 0 ∧ State.reset.regWord m 0x800034 = 0
    ∧ State.reset.isReady = false ∧ State.reset.mem.wf = true ∧ State.reset.mem.cells = [] ∧ State.reset.pending = []

/-- From every state a step answers a next state, whatever command stands at the front of the queue and whatever its operands:
nothing that is sent to the package faults or is refused by the model; where a rule turns a command away, that is an effect on
the state. Model's choices: log 2. -/
def Obligations.EveryStepGoesOn : Prop := ∀ s : State, GoesOn s

/-- R2, R250, R262: from every state, whatever command stands in front, a step keeps the package type and every hard fuse, but
that the floor may have more blown bits, and memory keeps its canonical form; commands leave the queue's rest as it is. Model's
choices: log 11. -/
def Obligations.StepsKeepFusesAndMemoryForm : Prop :=
  ∀ s t : State, step s = .next t → t.pkg = s.pkg ∧ FusesFrom s.fuses t.fuses ∧ (s.mem.wf = true → t.mem.wf = true) ∧ t.pending = s.pending.tail

/-- R82, R83, R96: the word of every gambit instruction decodes to it with every operand, in any tile; an opcode outside the
table decodes to nothing, and every word of an opcode inside it to an instruction of that tile. -/
def Obligations.GambitWordsRoundTrip : Prop :=
  (∀ (i : Instr) (t : Nat), gambitTile i = some t → ∃ w, encodeGambit i = some w ∧ decodeGambit t w = some i)
    ∧ ∀ (w : Word) (t : Nat), (decodeGambit t w = none ↔ (w.extractLsb' 26 6).toNat ∉
        [0x00, 0x01, 0x02, 0x03, 0x04, 0x05, 0x06, 0x08, 0x09, 0x0A, 0x0B, 0x0C, 0x0D, 0x0E, 0x0F, 0x10, 0x11, 0x12, 0x13, 0x14,
         0x15, 0x16, 0x18, 0x19, 0x1A, 0x1C, 0x1D, 0x20, 0x24, 0x28, 0x29, 0x2C])
      ∧ ∀ i, decodeGambit t w = some i → gambitTile i = some t

/-- The frame of all 236 commands: of the state's 59 parts, a command changes none that its list in `mayChange` leaves out. A
command whose list has no `mem` leaves every byte of package memory as it was. -/
def Obligations.CommandsChangeOnlyTheirParts : Prop :=
  ∀ (c : Instr) (s t : State), exec c s = .next t → Only (mayChange c) s t
end

