-- ==== Sys2Proof/Laws/State.lean ====
section
/-! SUPPORT. The small lemmas of the state's tables and updates: what a sparse table reads after a change, and, for each
update of a named part, the fields that it leaves. -/

namespace Sys2Proof.Machine

open Sys2Proof

/-! ### Sparse tables -/

@[simp] theorem tget_tset_same {α : Type} (d v : α) (k : Nat) (t : Tab α) : tget d k (tset k v t) = v := by
  induction t with
  | nil => simp [tset, tget]
  | cons e r ih =>
    obtain ⟨k', v'⟩ := e
    simp only [tset]
    split
    · simp [tget]
    · split
      · simp [tget]
      · rename_i h1 h2
        simp [tget, h2, ih]

theorem tget_tset_other {α : Type} (d v : α) {k j : Nat} (h : j ≠ k) (t : Tab α) : tget d j (tset k v t) = tget d j t := by
  induction t with
  | nil => simp [tset, tget, Ne.symm h]
  | cons e r ih =>
    obtain ⟨k', v'⟩ := e
    simp only [tset]
    split
    · simp [tget, Ne.symm h]
    · split
      · rename_i h1 h2
        subst h2
        simp [tget, Ne.symm h]
      · simp [tget, ih]

/-- A table after a change at k, read at j. -/
theorem tget_tset {α : Type} (d v : α) (k j : Nat) (t : Tab α) :
    tget d j (tset k v t) = if j = k then v else tget d j t := by
  split
  · subst_vars; exact tget_tset_same ..
  · exact tget_tset_other d v ‹_› t

@[simp] theorem tget_tmod_same {α : Type} (d : α) (k : Nat) (f : α → α) (t : Tab α) :
    tget d k (tmod d k f t) = f (tget d k t) := by simp [tmod]

theorem tget_tmod_other {α : Type} (d : α) {k j : Nat} (h : j ≠ k) (f : α → α) (t : Tab α) :
    tget d j (tmod d k f t) = tget d j t := by simp [tmod, tget_tset_other d _ h]

/-! ### modMaster -/

@[simp] theorem modMaster_master (s : State) (m : Nat) (f : Master → Master) : (s.modMaster m f).master m = f (s.master m) := by
  simp [State.modMaster, State.master]

theorem modMaster_master_other (s : State) {m j : Nat} (h : j ≠ m) (f : Master → Master) : (s.modMaster m f).master j = s.master j := by
  simp [State.modMaster, State.master, tget_tmod_other _ h]

@[simp] theorem modMaster_pkg (s : State) (m : Nat) (f : Master → Master) : (s.modMaster m f).pkg = s.pkg := rfl
@[simp] theorem modMaster_fuses (s : State) (m : Nat) (f : Master → Master) : (s.modMaster m f).fuses = s.fuses := rfl
@[simp] theorem modMaster_aon (s : State) (m : Nat) (f : Master → Master) : (s.modMaster m f).aon = s.aon := rfl
@[simp] theorem modMaster_pwr (s : State) (m : Nat) (f : Master → Master) : (s.modMaster m f).pwr = s.pwr := rfl
@[simp] theorem modMaster_boot (s : State) (m : Nat) (f : Master → Master) : (s.modMaster m f).boot = s.boot := rfl
@[simp] theorem modMaster_access (s : State) (m : Nat) (f : Master → Master) : (s.modMaster m f).access = s.access := rfl
@[simp] theorem modMaster_racks (s : State) (m : Nat) (f : Master → Master) : (s.modMaster m f).racks = s.racks := rfl
@[simp] theorem modMaster_pips (s : State) (m : Nat) (f : Master → Master) : (s.modMaster m f).pips = s.pips := rfl
@[simp] theorem modMaster_tmp (s : State) (m : Nat) (f : Master → Master) : (s.modMaster m f).tmp = s.tmp := rfl
@[simp] theorem modMaster_fab (s : State) (m : Nat) (f : Master → Master) : (s.modMaster m f).fab = s.fab := rfl
@[simp] theorem modMaster_tiles (s : State) (m : Nat) (f : Master → Master) : (s.modMaster m f).tiles = s.tiles := rfl
@[simp] theorem modMaster_mem (s : State) (m : Nat) (f : Master → Master) : (s.modMaster m f).mem = s.mem := rfl
@[simp] theorem modMaster_pool (s : State) (m : Nat) (f : Master → Master) : (s.modMaster m f).pool = s.pool := rfl
@[simp] theorem modMaster_ports (s : State) (m : Nat) (f : Master → Master) : (s.modMaster m f).ports = s.ports := rfl
@[simp] theorem modMaster_portDest (s : State) (m : Nat) (f : Master → Master) : (s.modMaster m f).portDest = s.portDest := rfl
@[simp] theorem modMaster_flt (s : State) (m : Nat) (f : Master → Master) : (s.modMaster m f).flt = s.flt := rfl
@[simp] theorem modMaster_trc (s : State) (m : Nat) (f : Master → Master) : (s.modMaster m f).trc = s.trc := rfl
@[simp] theorem modMaster_freeCtr (s : State) (m : Nat) (f : Master → Master) : (s.modMaster m f).freeCtr = s.freeCtr := rfl
@[simp] theorem modMaster_pending (s : State) (m : Nat) (f : Master → Master) : (s.modMaster m f).pending = s.pending := rfl

/-! ### modLink -/

@[simp] theorem modLink_link (s : State) (k : Nat) (f : Link → Link) : (s.modLink k f).link k = f (s.link k) := by
  simp [State.modLink, State.link]

theorem modLink_link_other (s : State) {k j : Nat} (h : j ≠ k) (f : Link → Link) : (s.modLink k f).link j = s.link j := by
  simp [State.modLink, State.link, tget_tmod_other _ h]

@[simp] theorem modLink_pkg (s : State) (k : Nat) (f : Link → Link) : (s.modLink k f).pkg = s.pkg := rfl
@[simp] theorem modLink_fuses (s : State) (k : Nat) (f : Link → Link) : (s.modLink k f).fuses = s.fuses := rfl
@[simp] theorem modLink_aon (s : State) (k : Nat) (f : Link → Link) : (s.modLink k f).aon = s.aon := rfl
@[simp] theorem modLink_pwr (s : State) (k : Nat) (f : Link → Link) : (s.modLink k f).pwr = s.pwr := rfl
@[simp] theorem modLink_boot (s : State) (k : Nat) (f : Link → Link) : (s.modLink k f).boot = s.boot := rfl
@[simp] theorem modLink_access (s : State) (k : Nat) (f : Link → Link) : (s.modLink k f).access = s.access := rfl
@[simp] theorem modLink_racks (s : State) (k : Nat) (f : Link → Link) : (s.modLink k f).racks = s.racks := rfl
@[simp] theorem modLink_pips (s : State) (k : Nat) (f : Link → Link) : (s.modLink k f).pips = s.pips := rfl
@[simp] theorem modLink_tmp (s : State) (k : Nat) (f : Link → Link) : (s.modLink k f).tmp = s.tmp := rfl
@[simp] theorem modLink_fab (s : State) (k : Nat) (f : Link → Link) : (s.modLink k f).fab = s.fab := rfl
@[simp] theorem modLink_tiles (s : State) (k : Nat) (f : Link → Link) : (s.modLink k f).tiles = s.tiles := rfl
@[simp] theorem modLink_mem (s : State) (k : Nat) (f : Link → Link) : (s.modLink k f).mem = s.mem := rfl
@[simp] theorem modLink_pool (s : State) (k : Nat) (f : Link → Link) : (s.modLink k f).pool = s.pool := rfl
@[simp] theorem modLink_ports (s : State) (k : Nat) (f : Link → Link) : (s.modLink k f).ports = s.ports := rfl
@[simp] theorem modLink_portDest (s : State) (k : Nat) (f : Link → Link) : (s.modLink k f).portDest = s.portDest := rfl
@[simp] theorem modLink_flt (s : State) (k : Nat) (f : Link → Link) : (s.modLink k f).flt = s.flt := rfl
@[simp] theorem modLink_trc (s : State) (k : Nat) (f : Link → Link) : (s.modLink k f).trc = s.trc := rfl
@[simp] theorem modLink_freeCtr (s : State) (k : Nat) (f : Link → Link) : (s.modLink k f).freeCtr = s.freeCtr := rfl
@[simp] theorem modLink_pending (s : State) (k : Nat) (f : Link → Link) : (s.modLink k f).pending = s.pending := rfl

/-! ### modLd -/

@[simp] theorem modLd_ld (s : State) (n : Nat) (f : Ld → Ld) : (s.modLd n f).ld n = f (s.ld n) := by
  simp [State.modLd, State.ld]

theorem modLd_ld_other (s : State) {n j : Nat} (h : j ≠ n) (f : Ld → Ld) : (s.modLd n f).ld j = s.ld j := by
  simp [State.modLd, State.ld, tget_tmod_other _ h]

@[simp] theorem modLd_pkg (s : State) (n : Nat) (f : Ld → Ld) : (s.modLd n f).pkg = s.pkg := rfl
@[simp] theorem modLd_fuses (s : State) (n : Nat) (f : Ld → Ld) : (s.modLd n f).fuses = s.fuses := rfl
@[simp] theorem modLd_aon (s : State) (n : Nat) (f : Ld → Ld) : (s.modLd n f).aon = s.aon := rfl
@[simp] theorem modLd_pwr (s : State) (n : Nat) (f : Ld → Ld) : (s.modLd n f).pwr = s.pwr := rfl
@[simp] theorem modLd_boot (s : State) (n : Nat) (f : Ld → Ld) : (s.modLd n f).boot = s.boot := rfl
@[simp] theorem modLd_access (s : State) (n : Nat) (f : Ld → Ld) : (s.modLd n f).access = s.access := rfl
@[simp] theorem modLd_racks (s : State) (n : Nat) (f : Ld → Ld) : (s.modLd n f).racks = s.racks := rfl
@[simp] theorem modLd_pips (s : State) (n : Nat) (f : Ld → Ld) : (s.modLd n f).pips = s.pips := rfl
@[simp] theorem modLd_tmp (s : State) (n : Nat) (f : Ld → Ld) : (s.modLd n f).tmp = s.tmp := rfl
@[simp] theorem modLd_fab (s : State) (n : Nat) (f : Ld → Ld) : (s.modLd n f).fab = s.fab := rfl
@[simp] theorem modLd_tiles (s : State) (n : Nat) (f : Ld → Ld) : (s.modLd n f).tiles = s.tiles := rfl
@[simp] theorem modLd_mem (s : State) (n : Nat) (f : Ld → Ld) : (s.modLd n f).mem = s.mem := rfl
@[simp] theorem modLd_pool (s : State) (n : Nat) (f : Ld → Ld) : (s.modLd n f).pool = s.pool := rfl
@[simp] theorem modLd_ports (s : State) (n : Nat) (f : Ld → Ld) : (s.modLd n f).ports = s.ports := rfl
@[simp] theorem modLd_portDest (s : State) (n : Nat) (f : Ld → Ld) : (s.modLd n f).portDest = s.portDest := rfl
@[simp] theorem modLd_flt (s : State) (n : Nat) (f : Ld → Ld) : (s.modLd n f).flt = s.flt := rfl
@[simp] theorem modLd_trc (s : State) (n : Nat) (f : Ld → Ld) : (s.modLd n f).trc = s.trc := rfl
@[simp] theorem modLd_freeCtr (s : State) (n : Nat) (f : Ld → Ld) : (s.modLd n f).freeCtr = s.freeCtr := rfl
@[simp] theorem modLd_pending (s : State) (n : Nat) (f : Ld → Ld) : (s.modLd n f).pending = s.pending := rfl

/-! ### modRack -/

@[simp] theorem modRack_rack (s : State) (r : Nat) (f : Rack → Rack) : (s.modRack r f).rack r = f (s.rack r) := by
  simp [State.modRack, State.rack]

theorem modRack_rack_other (s : State) {r j : Nat} (h : j ≠ r) (f : Rack → Rack) : (s.modRack r f).rack j = s.rack j := by
  simp [State.modRack, State.rack, tget_tmod_other _ h]

@[simp] theorem modRack_pkg (s : State) (r : Nat) (f : Rack → Rack) : (s.modRack r f).pkg = s.pkg := rfl
@[simp] theorem modRack_fuses (s : State) (r : Nat) (f : Rack → Rack) : (s.modRack r f).fuses = s.fuses := rfl
@[simp] theorem modRack_aon (s : State) (r : Nat) (f : Rack → Rack) : (s.modRack r f).aon = s.aon := rfl
@[simp] theorem modRack_pwr (s : State) (r : Nat) (f : Rack → Rack) : (s.modRack r f).pwr = s.pwr := rfl
@[simp] theorem modRack_boot (s : State) (r : Nat) (f : Rack → Rack) : (s.modRack r f).boot = s.boot := rfl
@[simp] theorem modRack_hub (s : State) (r : Nat) (f : Rack → Rack) : (s.modRack r f).hub = s.hub := rfl
@[simp] theorem modRack_access (s : State) (r : Nat) (f : Rack → Rack) : (s.modRack r f).access = s.access := rfl
@[simp] theorem modRack_pips (s : State) (r : Nat) (f : Rack → Rack) : (s.modRack r f).pips = s.pips := rfl
@[simp] theorem modRack_tmp (s : State) (r : Nat) (f : Rack → Rack) : (s.modRack r f).tmp = s.tmp := rfl
@[simp] theorem modRack_fab (s : State) (r : Nat) (f : Rack → Rack) : (s.modRack r f).fab = s.fab := rfl
@[simp] theorem modRack_tiles (s : State) (r : Nat) (f : Rack → Rack) : (s.modRack r f).tiles = s.tiles := rfl
@[simp] theorem modRack_mem (s : State) (r : Nat) (f : Rack → Rack) : (s.modRack r f).mem = s.mem := rfl
@[simp] theorem modRack_pool (s : State) (r : Nat) (f : Rack → Rack) : (s.modRack r f).pool = s.pool := rfl
@[simp] theorem modRack_ports (s : State) (r : Nat) (f : Rack → Rack) : (s.modRack r f).ports = s.ports := rfl
@[simp] theorem modRack_portDest (s : State) (r : Nat) (f : Rack → Rack) : (s.modRack r f).portDest = s.portDest := rfl
@[simp] theorem modRack_flt (s : State) (r : Nat) (f : Rack → Rack) : (s.modRack r f).flt = s.flt := rfl
@[simp] theorem modRack_trc (s : State) (r : Nat) (f : Rack → Rack) : (s.modRack r f).trc = s.trc := rfl
@[simp] theorem modRack_freeCtr (s : State) (r : Nat) (f : Rack → Rack) : (s.modRack r f).freeCtr = s.freeCtr := rfl
@[simp] theorem modRack_pending (s : State) (r : Nat) (f : Rack → Rack) : (s.modRack r f).pending = s.pending := rfl

/-! ### modPip -/

@[simp] theorem modPip_pip (s : State) (n : Nat) (f : Pip → Pip) : (s.modPip n f).pip n = f (s.pip n) := by
  simp [State.modPip, State.pip]

theorem modPip_pip_other (s : State) {n j : Nat} (h : j ≠ n) (f : Pip → Pip) : (s.modPip n f).pip j = s.pip j := by
  simp [State.modPip, State.pip, tget_tmod_other _ h]

@[simp] theorem modPip_pkg (s : State) (n : Nat) (f : Pip → Pip) : (s.modPip n f).pkg = s.pkg := rfl
@[simp] theorem modPip_fuses (s : State) (n : Nat) (f : Pip → Pip) : (s.modPip n f).fuses = s.fuses := rfl
@[simp] theorem modPip_aon (s : State) (n : Nat) (f : Pip → Pip) : (s.modPip n f).aon = s.aon := rfl
@[simp] theorem modPip_pwr (s : State) (n : Nat) (f : Pip → Pip) : (s.modPip n f).pwr = s.pwr := rfl
@[simp] theorem modPip_boot (s : State) (n : Nat) (f : Pip → Pip) : (s.modPip n f).boot = s.boot := rfl
@[simp] theorem modPip_hub (s : State) (n : Nat) (f : Pip → Pip) : (s.modPip n f).hub = s.hub := rfl
@[simp] theorem modPip_access (s : State) (n : Nat) (f : Pip → Pip) : (s.modPip n f).access = s.access := rfl
@[simp] theorem modPip_racks (s : State) (n : Nat) (f : Pip → Pip) : (s.modPip n f).racks = s.racks := rfl
@[simp] theorem modPip_tmp (s : State) (n : Nat) (f : Pip → Pip) : (s.modPip n f).tmp = s.tmp := rfl
@[simp] theorem modPip_fab (s : State) (n : Nat) (f : Pip → Pip) : (s.modPip n f).fab = s.fab := rfl
@[simp] theorem modPip_tiles (s : State) (n : Nat) (f : Pip → Pip) : (s.modPip n f).tiles = s.tiles := rfl
@[simp] theorem modPip_mem (s : State) (n : Nat) (f : Pip → Pip) : (s.modPip n f).mem = s.mem := rfl
@[simp] theorem modPip_pool (s : State) (n : Nat) (f : Pip → Pip) : (s.modPip n f).pool = s.pool := rfl
@[simp] theorem modPip_ports (s : State) (n : Nat) (f : Pip → Pip) : (s.modPip n f).ports = s.ports := rfl
@[simp] theorem modPip_portDest (s : State) (n : Nat) (f : Pip → Pip) : (s.modPip n f).portDest = s.portDest := rfl
@[simp] theorem modPip_flt (s : State) (n : Nat) (f : Pip → Pip) : (s.modPip n f).flt = s.flt := rfl
@[simp] theorem modPip_trc (s : State) (n : Nat) (f : Pip → Pip) : (s.modPip n f).trc = s.trc := rfl
@[simp] theorem modPip_freeCtr (s : State) (n : Nat) (f : Pip → Pip) : (s.modPip n f).freeCtr = s.freeCtr := rfl
@[simp] theorem modPip_pending (s : State) (n : Nat) (f : Pip → Pip) : (s.modPip n f).pending = s.pending := rfl

/-! ### modWorld -/

@[simp] theorem modWorld_world (s : State) (w : Nat) (f : World → World) : (s.modWorld w f).world w = f (s.world w) := by
  simp [State.modWorld, State.world]

theorem modWorld_world_other (s : State) {w j : Nat} (h : j ≠ w) (f : World → World) : (s.modWorld w f).world j = s.world j := by
  simp [State.modWorld, State.world, tget_tmod_other _ h]

@[simp] theorem modWorld_pkg (s : State) (w : Nat) (f : World → World) : (s.modWorld w f).pkg = s.pkg := rfl
@[simp] theorem modWorld_fuses (s : State) (w : Nat) (f : World → World) : (s.modWorld w f).fuses = s.fuses := rfl
@[simp] theorem modWorld_aon (s : State) (w : Nat) (f : World → World) : (s.modWorld w f).aon = s.aon := rfl
@[simp] theorem modWorld_pwr (s : State) (w : Nat) (f : World → World) : (s.modWorld w f).pwr = s.pwr := rfl
@[simp] theorem modWorld_boot (s : State) (w : Nat) (f : World → World) : (s.modWorld w f).boot = s.boot := rfl
@[simp] theorem modWorld_hub (s : State) (w : Nat) (f : World → World) : (s.modWorld w f).hub = s.hub := rfl
@[simp] theorem modWorld_access (s : State) (w : Nat) (f : World → World) : (s.modWorld w f).access = s.access := rfl
@[simp] theorem modWorld_racks (s : State) (w : Nat) (f : World → World) : (s.modWorld w f).racks = s.racks := rfl
@[simp] theorem modWorld_pips (s : State) (w : Nat) (f : World → World) : (s.modWorld w f).pips = s.pips := rfl
@[simp] theorem modWorld_fab (s : State) (w : Nat) (f : World → World) : (s.modWorld w f).fab = s.fab := rfl
@[simp] theorem modWorld_tiles (s : State) (w : Nat) (f : World → World) : (s.modWorld w f).tiles = s.tiles := rfl
@[simp] theorem modWorld_mem (s : State) (w : Nat) (f : World → World) : (s.modWorld w f).mem = s.mem := rfl
@[simp] theorem modWorld_pool (s : State) (w : Nat) (f : World → World) : (s.modWorld w f).pool = s.pool := rfl
@[simp] theorem modWorld_ports (s : State) (w : Nat) (f : World → World) : (s.modWorld w f).ports = s.ports := rfl
@[simp] theorem modWorld_portDest (s : State) (w : Nat) (f : World → World) : (s.modWorld w f).portDest = s.portDest := rfl
@[simp] theorem modWorld_flt (s : State) (w : Nat) (f : World → World) : (s.modWorld w f).flt = s.flt := rfl
@[simp] theorem modWorld_trc (s : State) (w : Nat) (f : World → World) : (s.modWorld w f).trc = s.trc := rfl
@[simp] theorem modWorld_freeCtr (s : State) (w : Nat) (f : World → World) : (s.modWorld w f).freeCtr = s.freeCtr := rfl
@[simp] theorem modWorld_pending (s : State) (w : Nat) (f : World → World) : (s.modWorld w f).pending = s.pending := rfl

/-! ### modTile -/

@[simp] theorem modTile_tile (s : State) (t : Nat) (f : Tile → Tile) : (s.modTile t f).tile t = f (s.tile t) := by
  simp [State.modTile, State.tile]

theorem modTile_tile_other (s : State) {t j : Nat} (h : j ≠ t) (f : Tile → Tile) : (s.modTile t f).tile j = s.tile j := by
  simp [State.modTile, State.tile, tget_tmod_other _ h]

@[simp] theorem modTile_pkg (s : State) (t : Nat) (f : Tile → Tile) : (s.modTile t f).pkg = s.pkg := rfl
@[simp] theorem modTile_fuses (s : State) (t : Nat) (f : Tile → Tile) : (s.modTile t f).fuses = s.fuses := rfl
@[simp] theorem modTile_aon (s : State) (t : Nat) (f : Tile → Tile) : (s.modTile t f).aon = s.aon := rfl
@[simp] theorem modTile_pwr (s : State) (t : Nat) (f : Tile → Tile) : (s.modTile t f).pwr = s.pwr := rfl
@[simp] theorem modTile_boot (s : State) (t : Nat) (f : Tile → Tile) : (s.modTile t f).boot = s.boot := rfl
@[simp] theorem modTile_hub (s : State) (t : Nat) (f : Tile → Tile) : (s.modTile t f).hub = s.hub := rfl
@[simp] theorem modTile_access (s : State) (t : Nat) (f : Tile → Tile) : (s.modTile t f).access = s.access := rfl
@[simp] theorem modTile_racks (s : State) (t : Nat) (f : Tile → Tile) : (s.modTile t f).racks = s.racks := rfl
@[simp] theorem modTile_pips (s : State) (t : Nat) (f : Tile → Tile) : (s.modTile t f).pips = s.pips := rfl
@[simp] theorem modTile_tmp (s : State) (t : Nat) (f : Tile → Tile) : (s.modTile t f).tmp = s.tmp := rfl
@[simp] theorem modTile_fab (s : State) (t : Nat) (f : Tile → Tile) : (s.modTile t f).fab = s.fab := rfl
@[simp] theorem modTile_mem (s : State) (t : Nat) (f : Tile → Tile) : (s.modTile t f).mem = s.mem := rfl
@[simp] theorem modTile_pool (s : State) (t : Nat) (f : Tile → Tile) : (s.modTile t f).pool = s.pool := rfl
@[simp] theorem modTile_ports (s : State) (t : Nat) (f : Tile → Tile) : (s.modTile t f).ports = s.ports := rfl
@[simp] theorem modTile_portDest (s : State) (t : Nat) (f : Tile → Tile) : (s.modTile t f).portDest = s.portDest := rfl
@[simp] theorem modTile_flt (s : State) (t : Nat) (f : Tile → Tile) : (s.modTile t f).flt = s.flt := rfl
@[simp] theorem modTile_trc (s : State) (t : Nat) (f : Tile → Tile) : (s.modTile t f).trc = s.trc := rfl
@[simp] theorem modTile_freeCtr (s : State) (t : Nat) (f : Tile → Tile) : (s.modTile t f).freeCtr = s.freeCtr := rfl
@[simp] theorem modTile_pending (s : State) (t : Nat) (f : Tile → Tile) : (s.modTile t f).pending = s.pending := rfl

/-! ### modPort -/

@[simp] theorem modPort_port (s : State) (n : Nat) (f : Port → Port) : (s.modPort n f).port n = f (s.port n) := by
  simp [State.modPort, State.port]

theorem modPort_port_other (s : State) {n j : Nat} (h : j ≠ n) (f : Port → Port) : (s.modPort n f).port j = s.port j := by
  simp [State.modPort, State.port, tget_tmod_other _ h]

@[simp] theorem modPort_pkg (s : State) (n : Nat) (f : Port → Port) : (s.modPort n f).pkg = s.pkg := rfl
@[simp] theorem modPort_fuses (s : State) (n : Nat) (f : Port → Port) : (s.modPort n f).fuses = s.fuses := rfl
@[simp] theorem modPort_aon (s : State) (n : Nat) (f : Port → Port) : (s.modPort n f).aon = s.aon := rfl
@[simp] theorem modPort_pwr (s : State) (n : Nat) (f : Port → Port) : (s.modPort n f).pwr = s.pwr := rfl
@[simp] theorem modPort_boot (s : State) (n : Nat) (f : Port → Port) : (s.modPort n f).boot = s.boot := rfl
@[simp] theorem modPort_hub (s : State) (n : Nat) (f : Port → Port) : (s.modPort n f).hub = s.hub := rfl
@[simp] theorem modPort_access (s : State) (n : Nat) (f : Port → Port) : (s.modPort n f).access = s.access := rfl
@[simp] theorem modPort_racks (s : State) (n : Nat) (f : Port → Port) : (s.modPort n f).racks = s.racks := rfl
@[simp] theorem modPort_pips (s : State) (n : Nat) (f : Port → Port) : (s.modPort n f).pips = s.pips := rfl
@[simp] theorem modPort_tmp (s : State) (n : Nat) (f : Port → Port) : (s.modPort n f).tmp = s.tmp := rfl
@[simp] theorem modPort_fab (s : State) (n : Nat) (f : Port → Port) : (s.modPort n f).fab = s.fab := rfl
@[simp] theorem modPort_tiles (s : State) (n : Nat) (f : Port → Port) : (s.modPort n f).tiles = s.tiles := rfl
@[simp] theorem modPort_mem (s : State) (n : Nat) (f : Port → Port) : (s.modPort n f).mem = s.mem := rfl
@[simp] theorem modPort_pool (s : State) (n : Nat) (f : Port → Port) : (s.modPort n f).pool = s.pool := rfl
@[simp] theorem modPort_portDest (s : State) (n : Nat) (f : Port → Port) : (s.modPort n f).portDest = s.portDest := rfl
@[simp] theorem modPort_flt (s : State) (n : Nat) (f : Port → Port) : (s.modPort n f).flt = s.flt := rfl
@[simp] theorem modPort_trc (s : State) (n : Nat) (f : Port → Port) : (s.modPort n f).trc = s.trc := rfl
@[simp] theorem modPort_freeCtr (s : State) (n : Nat) (f : Port → Port) : (s.modPort n f).freeCtr = s.freeCtr := rfl
@[simp] theorem modPort_pending (s : State) (n : Nat) (f : Port → Port) : (s.modPort n f).pending = s.pending := rfl

/-! ### modSpan -/

@[simp] theorem modSpan_span (s : State) (k : Nat) (f : Span → Span) : (s.modSpan k f).span k = f (s.span k) := by
  simp [State.modSpan, State.span]

theorem modSpan_span_other (s : State) {k j : Nat} (h : j ≠ k) (f : Span → Span) : (s.modSpan k f).span j = s.span j := by
  simp [State.modSpan, State.span, tget_tmod_other _ h]

@[simp] theorem modSpan_pkg (s : State) (k : Nat) (f : Span → Span) : (s.modSpan k f).pkg = s.pkg := rfl
@[simp] theorem modSpan_fuses (s : State) (k : Nat) (f : Span → Span) : (s.modSpan k f).fuses = s.fuses := rfl
@[simp] theorem modSpan_aon (s : State) (k : Nat) (f : Span → Span) : (s.modSpan k f).aon = s.aon := rfl
@[simp] theorem modSpan_pwr (s : State) (k : Nat) (f : Span → Span) : (s.modSpan k f).pwr = s.pwr := rfl
@[simp] theorem modSpan_boot (s : State) (k : Nat) (f : Span → Span) : (s.modSpan k f).boot = s.boot := rfl
@[simp] theorem modSpan_hub (s : State) (k : Nat) (f : Span → Span) : (s.modSpan k f).hub = s.hub := rfl
@[simp] theorem modSpan_access (s : State) (k : Nat) (f : Span → Span) : (s.modSpan k f).access = s.access := rfl
@[simp] theorem modSpan_racks (s : State) (k : Nat) (f : Span → Span) : (s.modSpan k f).racks = s.racks := rfl
@[simp] theorem modSpan_pips (s : State) (k : Nat) (f : Span → Span) : (s.modSpan k f).pips = s.pips := rfl
@[simp] theorem modSpan_tmp (s : State) (k : Nat) (f : Span → Span) : (s.modSpan k f).tmp = s.tmp := rfl
@[simp] theorem modSpan_tiles (s : State) (k : Nat) (f : Span → Span) : (s.modSpan k f).tiles = s.tiles := rfl
@[simp] theorem modSpan_mem (s : State) (k : Nat) (f : Span → Span) : (s.modSpan k f).mem = s.mem := rfl
@[simp] theorem modSpan_pool (s : State) (k : Nat) (f : Span → Span) : (s.modSpan k f).pool = s.pool := rfl
@[simp] theorem modSpan_ports (s : State) (k : Nat) (f : Span → Span) : (s.modSpan k f).ports = s.ports := rfl
@[simp] theorem modSpan_portDest (s : State) (k : Nat) (f : Span → Span) : (s.modSpan k f).portDest = s.portDest := rfl
@[simp] theorem modSpan_flt (s : State) (k : Nat) (f : Span → Span) : (s.modSpan k f).flt = s.flt := rfl
@[simp] theorem modSpan_trc (s : State) (k : Nat) (f : Span → Span) : (s.modSpan k f).trc = s.trc := rfl
@[simp] theorem modSpan_freeCtr (s : State) (k : Nat) (f : Span → Span) : (s.modSpan k f).freeCtr = s.freeCtr := rfl
@[simp] theorem modSpan_pending (s : State) (k : Nat) (f : Span → Span) : (s.modSpan k f).pending = s.pending := rfl

/-! ### modFence -/

@[simp] theorem modFence_fence (s : State) (d : Nat) (f : Fence → Fence) : (s.modFence d f).fence d = f (s.fence d) := by
  simp [State.modFence, State.fence]

theorem modFence_fence_other (s : State) {d j : Nat} (h : j ≠ d) (f : Fence → Fence) : (s.modFence d f).fence j = s.fence j := by
  simp [State.modFence, State.fence, tget_tmod_other _ h]

@[simp] theorem modFence_pkg (s : State) (d : Nat) (f : Fence → Fence) : (s.modFence d f).pkg = s.pkg := rfl
@[simp] theorem modFence_fuses (s : State) (d : Nat) (f : Fence → Fence) : (s.modFence d f).fuses = s.fuses := rfl
@[simp] theorem modFence_aon (s : State) (d : Nat) (f : Fence → Fence) : (s.modFence d f).aon = s.aon := rfl
@[simp] theorem modFence_pwr (s : State) (d : Nat) (f : Fence → Fence) : (s.modFence d f).pwr = s.pwr := rfl
@[simp] theorem modFence_boot (s : State) (d : Nat) (f : Fence → Fence) : (s.modFence d f).boot = s.boot := rfl
@[simp] theorem modFence_hub (s : State) (d : Nat) (f : Fence → Fence) : (s.modFence d f).hub = s.hub := rfl
@[simp] theorem modFence_access (s : State) (d : Nat) (f : Fence → Fence) : (s.modFence d f).access = s.access := rfl
@[simp] theorem modFence_racks (s : State) (d : Nat) (f : Fence → Fence) : (s.modFence d f).racks = s.racks := rfl
@[simp] theorem modFence_pips (s : State) (d : Nat) (f : Fence → Fence) : (s.modFence d f).pips = s.pips := rfl
@[simp] theorem modFence_tmp (s : State) (d : Nat) (f : Fence → Fence) : (s.modFence d f).tmp = s.tmp := rfl
@[simp] theorem modFence_fab (s : State) (d : Nat) (f : Fence → Fence) : (s.modFence d f).fab = s.fab := rfl
@[simp] theorem modFence_tiles (s : State) (d : Nat) (f : Fence → Fence) : (s.modFence d f).tiles = s.tiles := rfl
@[simp] theorem modFence_mem (s : State) (d : Nat) (f : Fence → Fence) : (s.modFence d f).mem = s.mem := rfl
@[simp] theorem modFence_pool (s : State) (d : Nat) (f : Fence → Fence) : (s.modFence d f).pool = s.pool := rfl
@[simp] theorem modFence_ports (s : State) (d : Nat) (f : Fence → Fence) : (s.modFence d f).ports = s.ports := rfl
@[simp] theorem modFence_portDest (s : State) (d : Nat) (f : Fence → Fence) : (s.modFence d f).portDest = s.portDest := rfl
@[simp] theorem modFence_trc (s : State) (d : Nat) (f : Fence → Fence) : (s.modFence d f).trc = s.trc := rfl
@[simp] theorem modFence_freeCtr (s : State) (d : Nat) (f : Fence → Fence) : (s.modFence d f).freeCtr = s.freeCtr := rfl
@[simp] theorem modFence_pending (s : State) (d : Nat) (f : Fence → Fence) : (s.modFence d f).pending = s.pending := rfl

/-! ### modDom -/

@[simp] theorem modDom_dom (s : State) (d : Nat) (f : Dom → Dom) : (s.modDom d f).dom d = f (s.dom d) := by
  simp [State.modDom, State.dom]

theorem modDom_dom_other (s : State) {d j : Nat} (h : j ≠ d) (f : Dom → Dom) : (s.modDom d f).dom j = s.dom j := by
  simp [State.modDom, State.dom, tget_tmod_other _ h]

@[simp] theorem modDom_pkg (s : State) (d : Nat) (f : Dom → Dom) : (s.modDom d f).pkg = s.pkg := rfl
@[simp] theorem modDom_fuses (s : State) (d : Nat) (f : Dom → Dom) : (s.modDom d f).fuses = s.fuses := rfl
@[simp] theorem modDom_aon (s : State) (d : Nat) (f : Dom → Dom) : (s.modDom d f).aon = s.aon := rfl
@[simp] theorem modDom_boot (s : State) (d : Nat) (f : Dom → Dom) : (s.modDom d f).boot = s.boot := rfl
@[simp] theorem modDom_hub (s : State) (d : Nat) (f : Dom → Dom) : (s.modDom d f).hub = s.hub := rfl
@[simp] theorem modDom_access (s : State) (d : Nat) (f : Dom → Dom) : (s.modDom d f).access = s.access := rfl
@[simp] theorem modDom_racks (s : State) (d : Nat) (f : Dom → Dom) : (s.modDom d f).racks = s.racks := rfl
@[simp] theorem modDom_pips (s : State) (d : Nat) (f : Dom → Dom) : (s.modDom d f).pips = s.pips := rfl
@[simp] theorem modDom_tmp (s : State) (d : Nat) (f : Dom → Dom) : (s.modDom d f).tmp = s.tmp := rfl
@[simp] theorem modDom_fab (s : State) (d : Nat) (f : Dom → Dom) : (s.modDom d f).fab = s.fab := rfl
@[simp] theorem modDom_tiles (s : State) (d : Nat) (f : Dom → Dom) : (s.modDom d f).tiles = s.tiles := rfl
@[simp] theorem modDom_mem (s : State) (d : Nat) (f : Dom → Dom) : (s.modDom d f).mem = s.mem := rfl
@[simp] theorem modDom_pool (s : State) (d : Nat) (f : Dom → Dom) : (s.modDom d f).pool = s.pool := rfl
@[simp] theorem modDom_ports (s : State) (d : Nat) (f : Dom → Dom) : (s.modDom d f).ports = s.ports := rfl
@[simp] theorem modDom_portDest (s : State) (d : Nat) (f : Dom → Dom) : (s.modDom d f).portDest = s.portDest := rfl
@[simp] theorem modDom_flt (s : State) (d : Nat) (f : Dom → Dom) : (s.modDom d f).flt = s.flt := rfl
@[simp] theorem modDom_trc (s : State) (d : Nat) (f : Dom → Dom) : (s.modDom d f).trc = s.trc := rfl
@[simp] theorem modDom_freeCtr (s : State) (d : Nat) (f : Dom → Dom) : (s.modDom d f).freeCtr = s.freeCtr := rfl
@[simp] theorem modDom_pending (s : State) (d : Nat) (f : Dom → Dom) : (s.modDom d f).pending = s.pending := rfl

end Sys2Proof.Machine
end

