-- ==== Sys2Proof/Laws/Frame.lean ====
section
/-! SUPPORT. Frames as sets of parts, each a number whose bits name the parts that may change: the lemmas by which every
operation's own frame is proved. -/

namespace Sys2Proof.Machine

open Sys2Proof

/-- The bit of a part. -/
def Part.idx : Part → Nat
  | .pkg => 0
  | .fuses => 1
  | .mem => 2
  | .tiles => 3
  | .access => 4
  | .ports => 5
  | .portDest => 6
  | .pending => 7
  | .freeCtr => 8
  | .wall => 9
  | .wakeLog => 10
  | .pins => 11
  | .halt => 12
  | .rails => 13
  | .wakeCfg => 14
  | .doldrums => 15
  | .thermal => 16
  | .doms => 17
  | .power => 18
  | .bootLog => 19
  | .amend => 20
  | .boot => 21
  | .masters => 22
  | .links => 23
  | .lds => 24
  | .executing => 25
  | .failedHeads => 26
  | .epoch => 27
  | .lockIn => 28
  | .fabLost => 29
  | .hubCfg => 30
  | .answers => 31
  | .racks => 32
  | .rackCfg => 33
  | .pips => 34
  | .worlds => 35
  | .slots => 36
  | .learnGrps => 37
  | .advErr => 38
  | .subs => 39
  | .routers => 40
  | .inbox => 41
  | .hubPace => 42
  | .marked => 43
  | .spans => 44
  | .mail => 45
  | .pool => 46
  | .lossQueue => 47
  | .lossRing => 48
  | .faultCfg => 49
  | .fences => 50
  | .fenceCount => 51
  | .notices => 52
  | .steward => 53
  | .stackLost => 54
  | .hostReqs => 55
  | .trcQueue => 56
  | .trace => 57
  | .trcDrops => 58

/-- From s to t nothing changes but the parts whose bits m has. -/
def OnlyM (m : Nat) (s t : State) : Prop := ∀ p : Part, m.testBit p.idx = false → p.same s t

theorem Part.same_refl (s : State) (p : Part) : p.same s s := by cases p <;> rfl

theorem Part.same_trans {s t u : State} {p : Part} (a : p.same s t) (b : p.same t u) : p.same s u := by
  cases p <;> exact Eq.trans b a

theorem OnlyM.refl (m : Nat) (s : State) : OnlyM m s s := fun p _ => Part.same_refl s p

theorem OnlyM.trans {m : Nat} {s t u : State} (a : OnlyM m s t) (b : OnlyM m t u) : OnlyM m s u :=
  fun p h => Part.same_trans (a p h) (b p h)

/-- A set within a set that lacks a part lacks it. -/
theorem lacks {l m i : Nat} (h : Nat.land l m = l) (hm : m.testBit i = false) : l.testBit i = false := by
  have e : (l &&& m).testBit i = l.testBit i := congrArg (fun x => Nat.testBit x i) h
  rw [← e, Nat.testBit_and, hm, Bool.and_false]

theorem within_trans {a b c : Nat} (h : Nat.land a b = a) (k : Nat.land b c = b) : Nat.land a c = a := by
  have h' : a &&& b = a := h
  have k' : b &&& c = b := k
  show a &&& c = a
  rw [← h', Nat.and_assoc, k']

theorem OnlyM.mono {l m : Nat} {s t : State} (h : OnlyM l s t) (hw : Nat.land l m = l) : OnlyM m s t :=
  fun p hm => h p (lacks hw hm)

/-- An update of a state: each part is in the set or keeps its fields. -/
theorem onlyM_upd {m : Nat} {z s : State} {fuses aon pwr boot hub access racks pips tmp fab tiles mem pool ports portDest flt trc freeCtr}
    (h : OnlyM m z s)
    (hu : ∀ p : Part, m.testBit p.idx = false → p.same s ⟨s.pkg, fuses, aon, pwr, boot, hub, access, racks, pips, tmp, fab, tiles, mem,
      pool, ports, portDest, flt, trc, freeCtr, s.pending⟩) :
    OnlyM m z ⟨s.pkg, fuses, aon, pwr, boot, hub, access, racks, pips, tmp, fab, tiles, mem, pool, ports, portDest, flt, trc, freeCtr,
      s.pending⟩ :=
  h.trans hu

theorem onlyM_foldl {α : Type} {m : Nat} {z s : State} {f : State → α → State} {l : List α}
    (hf : ∀ t x, OnlyM m t (f t x)) (h : OnlyM m z s) : OnlyM m z (l.foldl f s) := by
  induction l generalizing s with
  | nil => exact h
  | cons x r ih => exact ih (h.trans (hf s x))

def OnlyO (m : Nat) (z : State) (o : Host.Outcome State Fault Refusal) : Prop := ∀ t, o = .next t → OnlyM m z t

theorem onlyO_next {m : Nat} {z t : State} (h : OnlyM m z t) : OnlyO m z (.next t) := by
  intro u e
  cases e
  exact h

def OnlyP (m : Nat) (z : State) (o : Option State) : Prop := ∀ t, o = some t → OnlyM m z t

theorem onlyP_some {m : Nat} {z t : State} (h : OnlyM m z t) : OnlyP m z (some t) := by
  intro u e
  cases e
  exact h

theorem onlyP_none {m : Nat} {z : State} : OnlyP m z none := by
  intro u e
  cases e

/-- The set that a list of parts names. -/
def partSet (l : List Part) : Nat := l.foldl (fun a p => a ||| 2 ^ p.idx) 0

end Sys2Proof.Machine
end

