-- ==== Sys2Proof/Laws/FrameOps.lean ====
section
/-! SUPPORT. The frame of every operation of Machine/Ops.lean: the parts that it may change. -/

set_option linter.unusedTactic false
set_option linter.unreachableTactic false
set_option linter.unusedVariables false

namespace Sys2Proof.Machine

open Sys2Proof

theorem only_modMaster {P : Nat} {z : State} {s : State} {m : Nat} {f : Master → Master} (h_s : OnlyM P z s) (hP : Nat.land 0x400000 P = 0x400000) : OnlyM P z (State.modMaster s m f) := by
  unfold State.modMaster
  with_reducible
  repeat' first
    | assumption | exact OnlyM.refl _ _ | split | apply onlyM_foldl | apply onlyO_next
    | (refine onlyM_upd ?_ (fun p hp => by have hl := lacks (within_trans (by decide : Nat.land 0x400000 0x400000 = 0x400000) hP) hp; revert hl; clear hp; cases p <;> first | exact fun h => absurd h (by decide) | with_unfolding_all exact fun _ => rfl))
    | intro _ | (dsimp only)

theorem only_modLink {P : Nat} {z : State} {s : State} {k : Nat} {f : Link → Link} (h_s : OnlyM P z s) (hP : Nat.land 0x800000 P = 0x800000) : OnlyM P z (State.modLink s k f) := by
  unfold State.modLink
  with_reducible
  repeat' first
    | assumption | exact OnlyM.refl _ _ | split | apply onlyM_foldl | apply onlyO_next
    | (refine onlyM_upd ?_ (fun p hp => by have hl := lacks (within_trans (by decide : Nat.land 0x800000 0x800000 = 0x800000) hP) hp; revert hl; clear hp; cases p <;> first | exact fun h => absurd h (by decide) | with_unfolding_all exact fun _ => rfl))
    | intro _ | (dsimp only)

theorem only_modLd {P : Nat} {z : State} {s : State} {n : Nat} {f : Ld → Ld} (h_s : OnlyM P z s) (hP : Nat.land 0x1000000 P = 0x1000000) : OnlyM P z (State.modLd s n f) := by
  unfold State.modLd
  with_reducible
  repeat' first
    | assumption | exact OnlyM.refl _ _ | split | apply onlyM_foldl | apply onlyO_next
    | (refine onlyM_upd ?_ (fun p hp => by have hl := lacks (within_trans (by decide : Nat.land 0x1000000 0x1000000 = 0x1000000) hP) hp; revert hl; clear hp; cases p <;> first | exact fun h => absurd h (by decide) | with_unfolding_all exact fun _ => rfl))
    | intro _ | (dsimp only)

theorem only_modRack {P : Nat} {z : State} {s : State} {r : Nat} {f : Rack → Rack} (h_s : OnlyM P z s) (hP : Nat.land 0x100000000 P = 0x100000000) : OnlyM P z (State.modRack s r f) := by
  unfold State.modRack
  with_reducible
  repeat' first
    | assumption | exact OnlyM.refl _ _ | split | apply onlyM_foldl | apply onlyO_next
    | (refine onlyM_upd ?_ (fun p hp => by have hl := lacks (within_trans (by decide : Nat.land 0x100000000 0x100000000 = 0x100000000) hP) hp; revert hl; clear hp; cases p <;> first | exact fun h => absurd h (by decide) | with_unfolding_all exact fun _ => rfl))
    | intro _ | (dsimp only)

theorem only_modPip {P : Nat} {z : State} {s : State} {n : Nat} {f : Pip → Pip} (h_s : OnlyM P z s) (hP : Nat.land 0x400000000 P = 0x400000000) : OnlyM P z (State.modPip s n f) := by
  unfold State.modPip
  with_reducible
  repeat' first
    | assumption | exact OnlyM.refl _ _ | split | apply onlyM_foldl | apply onlyO_next
    | (refine onlyM_upd ?_ (fun p hp => by have hl := lacks (within_trans (by decide : Nat.land 0x400000000 0x400000000 = 0x400000000) hP) hp; revert hl; clear hp; cases p <;> first | exact fun h => absurd h (by decide) | with_unfolding_all exact fun _ => rfl))
    | intro _ | (dsimp only)

theorem only_modWorld {P : Nat} {z : State} {s : State} {w : Nat} {f : World → World} (h_s : OnlyM P z s) (hP : Nat.land 0x800000000 P = 0x800000000) : OnlyM P z (State.modWorld s w f) := by
  unfold State.modWorld
  with_reducible
  repeat' first
    | assumption | exact OnlyM.refl _ _ | split | apply onlyM_foldl | apply onlyO_next
    | (refine onlyM_upd ?_ (fun p hp => by have hl := lacks (within_trans (by decide : Nat.land 0x800000000 0x800000000 = 0x800000000) hP) hp; revert hl; clear hp; cases p <;> first | exact fun h => absurd h (by decide) | with_unfolding_all exact fun _ => rfl))
    | intro _ | (dsimp only)

theorem only_modTile {P : Nat} {z : State} {s : State} {t : Nat} {f : Tile → Tile} (h_s : OnlyM P z s) (hP : Nat.land 0x8 P = 0x8) : OnlyM P z (State.modTile s t f) := by
  unfold State.modTile
  with_reducible
  repeat' first
    | assumption | exact OnlyM.refl _ _ | split | apply onlyM_foldl | apply onlyO_next
    | (refine onlyM_upd ?_ (fun p hp => by have hl := lacks (within_trans (by decide : Nat.land 0x8 0x8 = 0x8) hP) hp; revert hl; clear hp; cases p <;> first | exact fun h => absurd h (by decide) | with_unfolding_all exact fun _ => rfl))
    | intro _ | (dsimp only)

theorem only_modPort {P : Nat} {z : State} {s : State} {n : Nat} {f : Port → Port} (h_s : OnlyM P z s) (hP : Nat.land 0x20 P = 0x20) : OnlyM P z (State.modPort s n f) := by
  unfold State.modPort
  with_reducible
  repeat' first
    | assumption | exact OnlyM.refl _ _ | split | apply onlyM_foldl | apply onlyO_next
    | (refine onlyM_upd ?_ (fun p hp => by have hl := lacks (within_trans (by decide : Nat.land 0x20 0x20 = 0x20) hP) hp; revert hl; clear hp; cases p <;> first | exact fun h => absurd h (by decide) | with_unfolding_all exact fun _ => rfl))
    | intro _ | (dsimp only)

theorem only_modSpan {P : Nat} {z : State} {s : State} {k : Nat} {f : Span → Span} (h_s : OnlyM P z s) (hP : Nat.land 0x100000000000 P = 0x100000000000) : OnlyM P z (State.modSpan s k f) := by
  unfold State.modSpan
  with_reducible
  repeat' first
    | assumption | exact OnlyM.refl _ _ | split | apply onlyM_foldl | apply onlyO_next
    | (refine onlyM_upd ?_ (fun p hp => by have hl := lacks (within_trans (by decide : Nat.land 0x100000000000 0x100000000000 = 0x100000000000) hP) hp; revert hl; clear hp; cases p <;> first | exact fun h => absurd h (by decide) | with_unfolding_all exact fun _ => rfl))
    | intro _ | (dsimp only)

theorem only_modFence {P : Nat} {z : State} {s : State} {d : Nat} {f : Fence → Fence} (h_s : OnlyM P z s) (hP : Nat.land 0x4000000000000 P = 0x4000000000000) : OnlyM P z (State.modFence s d f) := by
  unfold State.modFence
  with_reducible
  repeat' first
    | assumption | exact OnlyM.refl _ _ | split | apply onlyM_foldl | apply onlyO_next
    | (refine onlyM_upd ?_ (fun p hp => by have hl := lacks (within_trans (by decide : Nat.land 0x4000000000000 0x4000000000000 = 0x4000000000000) hP) hp; revert hl; clear hp; cases p <;> first | exact fun h => absurd h (by decide) | with_unfolding_all exact fun _ => rfl))
    | intro _ | (dsimp only)

theorem only_modDom {P : Nat} {z : State} {s : State} {d : Nat} {f : Dom → Dom} (h_s : OnlyM P z s) (hP : Nat.land 0x20000 P = 0x20000) : OnlyM P z (State.modDom s d f) := by
  unfold State.modDom
  with_reducible
  repeat' first
    | assumption | exact OnlyM.refl _ _ | split | apply onlyM_foldl | apply onlyO_next
    | (refine onlyM_upd ?_ (fun p hp => by have hl := lacks (within_trans (by decide : Nat.land 0x20000 0x20000 = 0x20000) hP) hp; revert hl; clear hp; cases p <;> first | exact fun h => absurd h (by decide) | with_unfolding_all exact fun _ => rfl))
    | intro _ | (dsimp only)

theorem only_recordWake {P : Nat} {z : State} {s : State} {kind from_ dom detail : Nat} (h_s : OnlyM P z s) (hP : Nat.land 0x400 P = 0x400) : OnlyM P z (State.recordWake s kind from_ dom detail) := by
  unfold State.recordWake
  with_reducible
  repeat' first
    | assumption | exact OnlyM.refl _ _ | split | apply onlyM_foldl | apply onlyO_next
    | (refine onlyM_upd ?_ (fun p hp => by have hl := lacks (within_trans (by decide : Nat.land 0x400 0x400 = 0x400) hP) hp; revert hl; clear hp; cases p <;> first | exact fun h => absurd h (by decide) | with_unfolding_all exact fun _ => rfl))
    | intro _ | (dsimp only)

theorem only_wakeDom {P : Nat} {z : State} {s : State} {d kind detail : Nat} (h_s : OnlyM P z s) (hP : Nat.land 0x20400 P = 0x20400) : OnlyM P z (State.wakeDom s d kind detail) := by
  unfold State.wakeDom
  with_reducible
  repeat' first
    | assumption | exact OnlyM.refl _ _ | split | (refine only_modDom ?_ (within_trans (by decide) hP))
    | (refine only_recordWake ?_ (within_trans (by decide) hP)) | apply onlyM_foldl | apply onlyO_next | intro _
    | (dsimp only)

theorem only_packageWake {P : Nat} {z : State} {s : State} {kind detail : Nat} (h_s : OnlyM P z s) (hP : Nat.land 0xe400 P = 0xe400) : OnlyM P z (State.packageWake s kind detail) := by
  unfold State.packageWake
  with_reducible
  repeat' first
    | assumption | exact OnlyM.refl _ _ | split | (refine only_recordWake ?_ (within_trans (by decide) hP))
    | apply onlyM_foldl | apply onlyO_next
    | (refine onlyM_upd ?_ (fun p hp => by have hl := lacks (within_trans (by decide : Nat.land 0xe000 0xe400 = 0xe000) hP) hp; revert hl; clear hp; cases p <;> first | exact fun h => absurd h (by decide) | with_unfolding_all exact fun _ => rfl))
    | intro _ | (dsimp only)

theorem only_wakeSource {P : Nat} {z : State} {s : State} {i kind detail : Nat} (h_s : OnlyM P z s) (hP : Nat.land 0xe400 P = 0xe400) : OnlyM P z (State.wakeSource s i kind detail) := by
  unfold State.wakeSource
  with_reducible
  repeat' first
    | assumption | exact OnlyM.refl _ _ | split | (refine only_packageWake ?_ (within_trans (by decide) hP))
    | apply onlyM_foldl | apply onlyO_next
    | (refine onlyM_upd ?_ (fun p hp => by have hl := lacks (within_trans (by decide : Nat.land 0x4000 0xe400 = 0x4000) hP) hp; revert hl; clear hp; cases p <;> first | exact fun h => absurd h (by decide) | with_unfolding_all exact fun _ => rfl))
    | intro _ | (dsimp only)

theorem only_wakeTile {P : Nat} {z : State} {s : State} {t kind detail : Nat} (h_s : OnlyM P z s) (hP : Nat.land 0x20400 P = 0x20400) : OnlyM P z (State.wakeTile s t kind detail) := by
  unfold State.wakeTile
  with_reducible
  repeat' first
    | assumption | exact OnlyM.refl _ _ | split | (refine only_wakeDom ?_ (within_trans (by decide) hP))
    | apply onlyM_foldl | apply onlyO_next | intro _ | (dsimp only)

theorem only_wakeBank {P : Nat} {z : State} {s : State} {t : Nat} (h_s : OnlyM P z s) (hP : Nat.land 0x20400 P = 0x20400) : OnlyM P z (State.wakeBank s t) := by
  unfold State.wakeBank
  with_reducible
  repeat' first
    | assumption | exact OnlyM.refl _ _ | split | (refine only_wakeDom ?_ (within_trans (by decide) hP))
    | apply onlyM_foldl | apply onlyO_next | intro _ | (dsimp only)

theorem only_hostWake {P : Nat} {z : State} {s : State} {m : Nat} (h_s : OnlyM P z s) (hP : Nat.land 0x20400 P = 0x20400) : OnlyM P z (State.hostWake s m) := by
  unfold State.hostWake
  with_reducible
  repeat' first
    | assumption | exact OnlyM.refl _ _ | split | (refine only_wakeDom ?_ (within_trans (by decide) hP))
    | apply onlyM_foldl | apply onlyO_next | intro _ | (dsimp only)

theorem only_respond {P : Nat} {z : State} {s : State} {m : Nat} {ws : List DWord} (h_s : OnlyM P z s) (hP : Nat.land 0x420400 P = 0x420400) : OnlyM P z (State.respond s m ws) := by
  unfold State.respond
  with_reducible
  repeat' first
    | assumption | exact OnlyM.refl _ _ | split | (refine only_hostWake ?_ (within_trans (by decide) hP))
    | (refine only_modMaster ?_ (within_trans (by decide) hP)) | apply onlyM_foldl | apply onlyO_next | intro _
    | (dsimp only)

theorem only_refuse {P : Nat} {z : State} {s : State} {m : Nat} {bar2 : Bool} {off : Nat} {c : Code} {isRead : Bool} (h_s : OnlyM P z s) (hP : Nat.land 0x420400 P = 0x420400) : OnlyM P z (State.refuse s m bar2 off c isRead) := by
  unfold State.refuse
  with_reducible
  repeat' first
    | assumption | exact OnlyM.refl _ _ | split | (refine only_hostWake ?_ (within_trans (by decide) hP))
    | (refine only_modMaster ?_ (within_trans (by decide) hP)) | apply onlyM_foldl | apply onlyO_next | intro _
    | (dsimp only)

theorem only_traceTile {P : Nat} {z : State} {s : State} {t kind stamp w : Nat} {wv : Bool} {a : Nat} {payload : List Nat} (h_s : OnlyM P z s) (hP : Nat.land 0x400000000000008 P = 0x400000000000008) : OnlyM P z (State.traceTile s t kind stamp w wv a payload) := by
  unfold State.traceTile
  with_reducible
  repeat' first
    | assumption | exact OnlyM.refl _ _ | split | (refine only_modTile ?_ (within_trans (by decide) hP))
    | apply onlyM_foldl | apply onlyO_next
    | (refine onlyM_upd ?_ (fun p hp => by have hl := lacks (within_trans (by decide : Nat.land 0x400000000000000 0x400000000000008 = 0x400000000000000) hP) hp; revert hl; clear hp; cases p <;> first | exact fun h => absurd h (by decide) | with_unfolding_all exact fun _ => rfl))
    | intro _ | (dsimp only)

theorem only_traceHub {P : Nat} {z : State} {s : State} {x kind a : Nat} {payload : List Nat} {tg : Target} (h_s : OnlyM P z s) (hP : Nat.land 0x100000000000000 P = 0x100000000000000) : OnlyM P z (State.traceHub s x kind a payload tg) := by
  unfold State.traceHub
  with_reducible
  repeat' first
    | assumption | exact OnlyM.refl _ _ | split | apply onlyM_foldl | apply onlyO_next
    | (refine onlyM_upd ?_ (fun p hp => by have hl := lacks (within_trans (by decide : Nat.land 0x100000000000000 0x100000000000000 = 0x100000000000000) hP) hp; revert hl; clear hp; cases p <;> first | exact fun h => absurd h (by decide) | with_unfolding_all exact fun _ => rfl))
    | intro _ | (dsimp only)

theorem only_traceRack {P : Nat} {z : State} {s : State} {r op m : Nat} {c : Code} {kind seq : Nat} (h_s : OnlyM P z s) (hP : Nat.land 0x100000000000000 P = 0x100000000000000) : OnlyM P z (State.traceRack s r op m c kind seq) := by
  unfold State.traceRack
  with_reducible
  repeat' first
    | assumption | exact OnlyM.refl _ _ | split | (refine only_traceHub ?_ (within_trans (by decide) hP))
    | apply onlyM_foldl | apply onlyO_next | intro _ | (dsimp only)

theorem only_colWrite {P : Nat} {z : State} {s : State} {t a n v : Nat} (h_s : OnlyM P z s) (hP : Nat.land 0x4 P = 0x4) : OnlyM P z (State.colWrite s t a n v) := by
  unfold State.colWrite
  with_reducible
  repeat' first
    | assumption | exact OnlyM.refl _ _ | split | apply onlyM_foldl | apply onlyO_next
    | (refine onlyM_upd ?_ (fun p hp => by have hl := lacks (within_trans (by decide : Nat.land 0x4 0x4 = 0x4) hP) hp; revert hl; clear hp; cases p <;> first | exact fun h => absurd h (by decide) | with_unfolding_all exact fun _ => rfl))
    | intro _ | (dsimp only)

theorem only_colBytes {P : Nat} {z : State} {s : State} {t a : Nat} {bs : List Byte} (h_s : OnlyM P z s) (hP : Nat.land 0x4 P = 0x4) : OnlyM P z (State.colBytes s t a bs) := by
  unfold State.colBytes
  with_reducible
  repeat' first
    | assumption | exact OnlyM.refl _ _ | split | apply onlyM_foldl | apply onlyO_next
    | (refine onlyM_upd ?_ (fun p hp => by have hl := lacks (within_trans (by decide : Nat.land 0x4 0x4 = 0x4) hP) hp; revert hl; clear hp; cases p <;> first | exact fun h => absurd h (by decide) | with_unfolding_all exact fun _ => rfl))
    | intro _ | (dsimp only)

theorem only_pushLoss {P : Nat} {z : State} {s : State} {i : LossItem} (h_s : OnlyM P z s) (hP : Nat.land 0x800000000000 P = 0x800000000000) : OnlyM P z (State.pushLoss s i) := by
  unfold State.pushLoss
  with_reducible
  repeat' first
    | assumption | exact OnlyM.refl _ _ | split | apply onlyM_foldl | apply onlyO_next
    | (refine onlyM_upd ?_ (fun p hp => by have hl := lacks (within_trans (by decide : Nat.land 0x800000000000 0x800000000000 = 0x800000000000) hP) hp; revert hl; clear hp; cases p <;> first | exact fun h => absurd h (by decide) | with_unfolding_all exact fun _ => rfl))
    | intro _ | (dsimp only)

theorem only_modTurn {P : Nat} {z : State} {s : State} {w n : Nat} {f : TurnInfo → TurnInfo} (h_s : OnlyM P z s) (hP : Nat.land 0x800000000 P = 0x800000000) : OnlyM P z (State.modTurn s w n f) := by
  unfold State.modTurn
  with_reducible
  repeat' first
    | assumption | exact OnlyM.refl _ _ | split | (refine only_modWorld ?_ (within_trans (by decide) hP))
    | apply onlyM_foldl | apply onlyO_next | intro _ | (dsimp only)

theorem only_raiseRack {P : Nat} {z : State} {s : State} {r : Nat} (h_s : OnlyM P z s) (hP : Nat.land 0x1000000 P = 0x1000000) : OnlyM P z (State.raiseRack s r) := by
  unfold State.raiseRack
  with_reducible
  repeat' first
    | assumption | exact OnlyM.refl _ _ | split | apply onlyM_foldl | apply onlyO_next
    | (refine onlyM_upd ?_ (fun p hp => by have hl := lacks (within_trans (by decide : Nat.land 0x1000000 0x1000000 = 0x1000000) hP) hp; revert hl; clear hp; cases p <;> first | exact fun h => absurd h (by decide) | with_unfolding_all exact fun _ => rfl))
    | intro _ | (dsimp only)

theorem only_rackPut {P : Nat} {z : State} {s : State} {r src : Nat} {msg : List DWord} (h_s : OnlyM P z s) (hP : Nat.land 0x101000000 P = 0x101000000) : OnlyM P z (State.rackPut s r src msg) := by
  unfold State.rackPut
  with_reducible
  repeat' first
    | assumption | exact OnlyM.refl _ _ | split | (refine only_modRack ?_ (within_trans (by decide) hP))
    | (refine only_raiseRack ?_ (within_trans (by decide) hP)) | apply onlyM_foldl | apply onlyO_next | intro _
    | (dsimp only)

theorem only_dropMsg {P : Nat} {z : State} {s : State} {r src : Nat} {w : Option Nat} {msg : List DWord} (h_s : OnlyM P z s) (hP : Nat.land 0x100800100000000 P = 0x100800100000000) : OnlyM P z (State.dropMsg s r src w msg) := by
  unfold State.dropMsg
  with_reducible
  repeat' first
    | assumption | exact OnlyM.refl _ _ | split | (refine only_traceRack ?_ (within_trans (by decide) hP))
    | (refine only_modRack ?_ (within_trans (by decide) hP)) | (refine only_pushLoss ?_ (within_trans (by decide) hP))
    | apply onlyM_foldl | apply onlyO_next | intro _ | (dsimp only)

theorem only_postRecord {P : Nat} {z : State} {s : State} {r src kind : Nat} {c : Code} {w : Option Nat} {body : List DWord} (h_s : OnlyM P z s) (hP : Nat.land 0x100800101000000 P = 0x100800101000000) : OnlyM P z (State.postRecord s r src kind c w body) := by
  unfold State.postRecord
  with_reducible
  repeat' first
    | assumption | exact OnlyM.refl _ _ | split | (refine only_traceRack ?_ (within_trans (by decide) hP))
    | (refine only_rackPut ?_ (within_trans (by decide) hP)) | (refine only_dropMsg ?_ (within_trans (by decide) hP))
    | apply onlyM_foldl | apply onlyO_next | intro _ | (dsimp only)

theorem only_postReserved {P : Nat} {z : State} {s : State} {r kind : Nat} {c : Code} {body : List DWord} (h_s : OnlyM P z s) (hP : Nat.land 0x100000101000000 P = 0x100000101000000) : OnlyM P z (State.postReserved s r kind c body) := by
  unfold State.postReserved
  with_reducible
  repeat' first
    | assumption | exact OnlyM.refl _ _ | split | (refine only_traceRack ?_ (within_trans (by decide) hP))
    | (refine only_modRack ?_ (within_trans (by decide) hP)) | (refine only_rackPut ?_ (within_trans (by decide) hP))
    | apply onlyM_foldl | apply onlyO_next | intro _ | (dsimp only)

theorem only_postFault {P : Nat} {z : State} {s : State} {event dom detail : Nat} (h_s : OnlyM P z s) (hP : Nat.land 0x100800101000100 P = 0x100800101000100) : OnlyM P z (State.postFault s event dom detail) := by
  unfold State.postFault
  with_reducible
  repeat' first
    | assumption | exact OnlyM.refl _ _ | split | (refine only_postRecord ?_ (within_trans (by decide) hP))
    | apply onlyM_foldl | apply onlyO_next
    | (refine onlyM_upd ?_ (fun p hp => by have hl := lacks (within_trans (by decide : Nat.land 0x100 0x100800101000100 = 0x100) hP) hp; revert hl; clear hp; cases p <;> first | exact fun h => absurd h (by decide) | with_unfolding_all exact fun _ => rfl))
    | intro _ | (dsimp only)

theorem only_complete {P : Nat} {z : State} {s : State} {c : ExecCmd} {code : Code} {results : List DWord} (h_s : OnlyM P z s) (hP : Nat.land 0x100000103000000 P = 0x100000103000000) : OnlyM P z (State.complete s c code results) := by
  unfold State.complete
  with_reducible
  repeat' first
    | assumption | exact OnlyM.refl _ _ | split | (refine only_postReserved ?_ (within_trans (by decide) hP))
    | (refine only_modLd ?_ (within_trans (by decide) hP)) | apply onlyM_foldl | apply onlyO_next
    | (refine onlyM_upd ?_ (fun p hp => by have hl := lacks (within_trans (by decide : Nat.land 0x2000000 0x100000103000000 = 0x2000000) hP) hp; revert hl; clear hp; cases p <;> first | exact fun h => absurd h (by decide) | with_unfolding_all exact fun _ => rfl))
    | intro _ | (dsimp only)

theorem only_completeAt {P : Nat} {z : State} {s : State} {rk seq : Nat} {code : Code} {results : List DWord} (h_s : OnlyM P z s) (hP : Nat.land 0x100000103000000 P = 0x100000103000000) : OnlyM P z (State.completeAt s rk seq code results) := by
  unfold State.completeAt
  with_reducible
  repeat' first
    | assumption | exact OnlyM.refl _ _ | split | (refine only_complete ?_ (within_trans (by decide) hP))
    | apply onlyM_foldl | apply onlyO_next | intro _ | (dsimp only)

theorem only_begun {P : Nat} {z : State} {s : State} {c : ExecCmd} (h_s : OnlyM P z s) (hP : Nat.land 0x2000000 P = 0x2000000) : OnlyM P z (State.begun s c) := by
  unfold State.begun
  with_reducible
  repeat' first
    | assumption | exact OnlyM.refl _ _ | split | apply onlyM_foldl | apply onlyO_next
    | (refine onlyM_upd ?_ (fun p hp => by have hl := lacks (within_trans (by decide : Nat.land 0x2000000 0x2000000 = 0x2000000) hP) hp; revert hl; clear hp; cases p <;> first | exact fun h => absurd h (by decide) | with_unfolding_all exact fun _ => rfl))
    | intro _ | (dsimp only)

theorem only_fenceMove {P : Nat} {z : State} {s : State} {d : Nat} {st : FenceState} (h_s : OnlyM P z s) (hP : Nat.land 0x104800101000100 P = 0x104800101000100) : OnlyM P z (State.fenceMove s d st) := by
  unfold State.fenceMove
  with_reducible
  repeat' first
    | assumption | exact OnlyM.refl _ _ | split | (refine only_modFence ?_ (within_trans (by decide) hP))
    | (refine only_postFault ?_ (within_trans (by decide) hP)) | apply onlyM_foldl | apply onlyO_next | intro _
    | (dsimp only)

theorem only_fenceStart {P : Nat} {z : State} {s : State} {d us : Nat} {reset : Bool} {cmd : Option (Nat × Nat)} {wake detail : Nat} (h_s : OnlyM P z s) (hP : Nat.land 0x10c800101020500 P = 0x10c800101020500) : OnlyM P z (State.fenceStart s d us reset cmd wake detail) := by
  unfold State.fenceStart
  with_reducible
  repeat' first
    | assumption | exact OnlyM.refl _ _ | split | (refine only_wakeDom ?_ (within_trans (by decide) hP))
    | (refine only_modFence ?_ (within_trans (by decide) hP))
    | (refine only_fenceMove ?_ (within_trans (by decide) hP)) | apply onlyM_foldl | apply onlyO_next
    | (refine onlyM_upd ?_ (fun p hp => by have hl := lacks (within_trans (by decide : Nat.land 0x8000000000000 0x10c800101020500 = 0x8000000000000) hP) hp; revert hl; clear hp; cases p <;> first | exact fun h => absurd h (by decide) | with_unfolding_all exact fun _ => rfl))
    | intro _ | (dsimp only)

theorem only_updateStart {P : Nat} {z : State} {s : State} {d : Nat} (h_s : OnlyM P z s) (hP : Nat.land 0x10c800101020500 P = 0x10c800101020500) : OnlyM P z (State.updateStart s d) := by
  unfold State.updateStart
  with_reducible
  repeat' first
    | assumption | exact OnlyM.refl _ _ | split | (refine only_fenceStart ?_ (within_trans (by decide) hP))
    | (refine only_fenceMove ?_ (within_trans (by decide) hP)) | apply onlyM_foldl | apply onlyO_next | intro _
    | (dsimp only)

theorem only_stageUpdate {P : Nat} {z : State} {s : State} {d : Nat} {l : List Section} (h_s : OnlyM P z s) (hP : Nat.land 0x4000000000000 P = 0x4000000000000) : OnlyM P z (State.stageUpdate s d l) := by
  unfold State.stageUpdate
  with_reducible
  repeat' first
    | assumption | exact OnlyM.refl _ _ | split | (refine only_modFence ?_ (within_trans (by decide) hP))
    | apply onlyM_foldl | apply onlyO_next | intro _ | (dsimp only)

theorem only_amendCheck {P : Nat} {z : State} {s : State} (h_s : OnlyM P z s) (hP : Nat.land 0x100000103100000 P = 0x100000103100000) : OnlyM P z (State.amendCheck s) := by
  unfold State.amendCheck
  with_reducible
  repeat' first
    | assumption | exact OnlyM.refl _ _ | split | (refine only_completeAt ?_ (within_trans (by decide) hP))
    | apply onlyM_foldl | apply onlyO_next
    | (refine onlyM_upd ?_ (fun p hp => by have hl := lacks (within_trans (by decide : Nat.land 0x100000 0x100000103100000 = 0x100000) hP) hp; revert hl; clear hp; cases p <;> first | exact fun h => absurd h (by decide) | with_unfolding_all exact fun _ => rfl))
    | intro _ | (dsimp only)

end Sys2Proof.Machine
end

