-- ==== Sys2Proof/Laws/Parts.lean ====
section
/-! SUPPORT. What a frame says of each named part of the state: a part outside the set reads the same after. -/

namespace Sys2Proof.Machine

open Sys2Proof

set_option linter.unusedSimpArgs false

variable {m : Nat} {s t : State}

theorem OnlyM.pkg_eq (h : OnlyM m s t) (h0 : m.testBit (Part.idx .pkg) = false) : t.pkg = s.pkg := h .pkg h0

theorem OnlyM.fuses_eq (h : OnlyM m s t) (h0 : m.testBit (Part.idx .fuses) = false) : t.fuses = s.fuses := h .fuses h0

theorem OnlyM.mem_eq (h : OnlyM m s t) (h0 : m.testBit (Part.idx .mem) = false) : t.mem = s.mem := h .mem h0

theorem OnlyM.tiles_eq (h : OnlyM m s t) (h0 : m.testBit (Part.idx .tiles) = false) : t.tiles = s.tiles := h .tiles h0

theorem OnlyM.access_eq (h : OnlyM m s t) (h0 : m.testBit (Part.idx .access) = false) : t.access = s.access := h .access h0

theorem OnlyM.ports_eq (h : OnlyM m s t) (h0 : m.testBit (Part.idx .ports) = false) : t.ports = s.ports := h .ports h0

theorem OnlyM.portDest_eq (h : OnlyM m s t) (h0 : m.testBit (Part.idx .portDest) = false) : t.portDest = s.portDest := h .portDest h0

theorem OnlyM.freeCtr_eq (h : OnlyM m s t) (h0 : m.testBit (Part.idx .freeCtr) = false) : t.freeCtr = s.freeCtr := h .freeCtr h0

theorem OnlyM.pending_eq (h : OnlyM m s t) (h0 : m.testBit (Part.idx .pending) = false) : t.pending = s.pending := h .pending h0

theorem OnlyM.pips_eq (h : OnlyM m s t) (h0 : m.testBit (Part.idx .pips) = false) : t.pips = s.pips := h .pips h0

theorem OnlyM.pool_eq (h : OnlyM m s t) (h0 : m.testBit (Part.idx .pool) = false) : t.pool = s.pool := h .pool h0

theorem OnlyM.wall_eq (h : OnlyM m s t) (h0 : m.testBit (Part.idx .wall) = false) : t.aon.wall = s.aon.wall := h .wall h0

theorem OnlyM.doms_eq (h : OnlyM m s t) (h0 : m.testBit (Part.idx .doms) = false) : t.pwr.doms = s.pwr.doms := h .doms h0

theorem OnlyM.masters_eq (h : OnlyM m s t) (h0 : m.testBit (Part.idx .masters) = false) : t.hub.masters = s.hub.masters := h .masters h0

theorem OnlyM.links_eq (h : OnlyM m s t) (h0 : m.testBit (Part.idx .links) = false) : t.hub.links = s.hub.links := h .links h0

theorem OnlyM.lds_eq (h : OnlyM m s t) (h0 : m.testBit (Part.idx .lds) = false) : t.hub.lds = s.hub.lds := h .lds h0

theorem OnlyM.executing_eq (h : OnlyM m s t) (h0 : m.testBit (Part.idx .executing) = false) : t.hub.executing = s.hub.executing := h .executing h0

theorem OnlyM.failedHeads_eq (h : OnlyM m s t) (h0 : m.testBit (Part.idx .failedHeads) = false) : t.hub.failedHeads = s.hub.failedHeads := h .failedHeads h0

theorem OnlyM.epoch_eq (h : OnlyM m s t) (h0 : m.testBit (Part.idx .epoch) = false) : t.hub.epoch = s.hub.epoch := h .epoch h0

theorem OnlyM.lockIn_eq (h : OnlyM m s t) (h0 : m.testBit (Part.idx .lockIn) = false) : t.hub.lockIn = s.hub.lockIn := h .lockIn h0

theorem OnlyM.racks_eq (h : OnlyM m s t) (h0 : m.testBit (Part.idx .racks) = false) : t.racks.racks = s.racks.racks := h .racks h0

theorem OnlyM.worlds_eq (h : OnlyM m s t) (h0 : m.testBit (Part.idx .worlds) = false) : t.tmp.worlds = s.tmp.worlds := h .worlds h0

theorem OnlyM.slots_eq (h : OnlyM m s t) (h0 : m.testBit (Part.idx .slots) = false) : t.tmp.slots = s.tmp.slots := h .slots h0

theorem OnlyM.subs_eq (h : OnlyM m s t) (h0 : m.testBit (Part.idx .subs) = false) : t.tmp.subs = s.tmp.subs := h .subs h0

theorem OnlyM.routers_eq (h : OnlyM m s t) (h0 : m.testBit (Part.idx .routers) = false) : t.fab.routers = s.fab.routers := h .routers h0

theorem OnlyM.inbox_eq (h : OnlyM m s t) (h0 : m.testBit (Part.idx .inbox) = false) : t.fab.inbox = s.fab.inbox := h .inbox h0

theorem OnlyM.hubPace_eq (h : OnlyM m s t) (h0 : m.testBit (Part.idx .hubPace) = false) : t.fab.hubPace = s.fab.hubPace := h .hubPace h0

theorem OnlyM.marked_eq (h : OnlyM m s t) (h0 : m.testBit (Part.idx .marked) = false) : t.fab.marked = s.fab.marked := h .marked h0

theorem OnlyM.spans_eq (h : OnlyM m s t) (h0 : m.testBit (Part.idx .spans) = false) : t.fab.spans = s.fab.spans := h .spans h0

theorem OnlyM.mail_eq (h : OnlyM m s t) (h0 : m.testBit (Part.idx .mail) = false) : t.fab.mail = s.fab.mail := h .mail h0

theorem OnlyM.lossQueue_eq (h : OnlyM m s t) (h0 : m.testBit (Part.idx .lossQueue) = false) : t.flt.queue = s.flt.queue := h .lossQueue h0

theorem OnlyM.faultCfg_eq (h : OnlyM m s t) (h0 : m.testBit (Part.idx .faultCfg) = false) : t.flt.cfg = s.flt.cfg := h .faultCfg h0

theorem OnlyM.fences_eq (h : OnlyM m s t) (h0 : m.testBit (Part.idx .fences) = false) : t.flt.fences = s.flt.fences := h .fences h0

theorem OnlyM.notices_eq (h : OnlyM m s t) (h0 : m.testBit (Part.idx .notices) = false) : t.flt.notices = s.flt.notices := h .notices h0

theorem OnlyM.stackLost_eq (h : OnlyM m s t) (h0 : m.testBit (Part.idx .stackLost) = false) : t.flt.stackLost = s.flt.stackLost := h .stackLost h0

theorem OnlyM.hostReqs_eq (h : OnlyM m s t) (h0 : m.testBit (Part.idx .hostReqs) = false) : t.flt.hostReqs = s.flt.hostReqs := h .hostReqs h0

theorem OnlyM.trcQueue_eq (h : OnlyM m s t) (h0 : m.testBit (Part.idx .trcQueue) = false) : t.trc.queue = s.trc.queue := h .trcQueue h0

theorem OnlyM.phase_eq (h : OnlyM m s t) (h0 : m.testBit (Part.idx .rails) = false) : t.aon.phase = s.aon.phase := by
  have e := h .rails h0
  simp only [Part.same, Prod.mk.injEq] at e
  simp only [e]

theorem OnlyM.railEn_eq (h : OnlyM m s t) (h0 : m.testBit (Part.idx .rails) = false) : t.aon.railEn = s.aon.railEn := by
  have e := h .rails h0
  simp only [Part.same, Prod.mk.injEq] at e
  simp only [e]

theorem OnlyM.haltN_eq (h : OnlyM m s t) (h0 : m.testBit (Part.idx .halt) = false) : t.aon.haltN = s.aon.haltN := by
  have e := h .halt h0
  simp only [Part.same, Prod.mk.injEq] at e
  simp only [e]

theorem OnlyM.wakeEn_eq (h : OnlyM m s t) (h0 : m.testBit (Part.idx .wakeCfg) = false) : t.aon.wakeEn = s.aon.wakeEn := by
  have e := h .wakeCfg h0
  simp only [Part.same, Prod.mk.injEq] at e
  simp only [e]

theorem OnlyM.tripped_eq (h : OnlyM m s t) (h0 : m.testBit (Part.idx .thermal) = false) : t.aon.tripped = s.aon.tripped := by
  have e := h .thermal h0
  simp only [Part.same, Prod.mk.injEq] at e
  simp only [e]

theorem OnlyM.pwrCfg_eq (h : OnlyM m s t) (h0 : m.testBit (Part.idx .power) = false) : t.pwr.cfg = s.pwr.cfg := by
  have e := h .power h0
  simp only [Part.same, Prod.mk.injEq] at e
  simp only [e]

theorem OnlyM.dispatchOff_eq (h : OnlyM m s t) (h0 : m.testBit (Part.idx .power) = false) : t.pwr.dispatchOff = s.pwr.dispatchOff := by
  have e := h .power h0
  simp only [Part.same, Prod.mk.injEq] at e
  simp only [e]

theorem OnlyM.doldPending_eq (h : OnlyM m s t) (h0 : m.testBit (Part.idx .power) = false) : t.pwr.doldPending = s.pwr.doldPending := by
  have e := h .power h0
  simp only [Part.same, Prod.mk.injEq] at e
  simp only [e]

theorem OnlyM.hubP_eq (h : OnlyM m s t) (h0 : m.testBit (Part.idx .hubCfg) = false) : t.hub.p = s.hub.p := by
  have e := h .hubCfg h0
  simp only [Part.same, Prod.mk.injEq] at e
  simp only [e]

theorem OnlyM.reduced_eq (h : OnlyM m s t) (h0 : m.testBit (Part.idx .hubCfg) = false) : t.hub.reduced = s.hub.reduced := by
  have e := h .hubCfg h0
  simp only [Part.same, Prod.mk.injEq] at e
  simp only [e]

theorem OnlyM.classLockstep_eq (h : OnlyM m s t) (h0 : m.testBit (Part.idx .hubCfg) = false) : t.hub.classLockstep = s.hub.classLockstep := by
  have e := h .hubCfg h0
  simp only [Part.same, Prod.mk.injEq] at e
  simp only [e]

theorem OnlyM.spanRoute_eq (h : OnlyM m s t) (h0 : m.testBit (Part.idx .hubCfg) = false) : t.hub.spanRoute = s.hub.spanRoute := by
  have e := h .hubCfg h0
  simp only [Part.same, Prod.mk.injEq] at e
  simp only [e]

theorem OnlyM.sets_eq (h : OnlyM m s t) (h0 : m.testBit (Part.idx .rackCfg) = false) : t.racks.sets = s.racks.sets := by
  have e := h .rackCfg h0
  simp only [Part.same, Prod.mk.injEq] at e
  simp only [e]

theorem OnlyM.bindings_eq (h : OnlyM m s t) (h0 : m.testBit (Part.idx .rackCfg) = false) : t.racks.bindings = s.racks.bindings := by
  have e := h .rackCfg h0
  simp only [Part.same, Prod.mk.injEq] at e
  simp only [e]

theorem OnlyM.bootSt_eq (h : OnlyM m s t) (h0 : m.testBit (Part.idx .boot) = false) : t.boot.st = s.boot.st := by
  have e := h .boot h0
  simp only [Part.same, Prod.mk.injEq] at e
  simp only [e]

theorem OnlyM.bootPhase_eq (h : OnlyM m s t) (h0 : m.testBit (Part.idx .boot) = false) : t.boot.phase = s.boot.phase := by
  have e := h .boot h0
  simp only [Part.same, Prod.mk.injEq] at e
  simp only [e]

theorem OnlyM.bootImage_eq (h : OnlyM m s t) (h0 : m.testBit (Part.idx .boot) = false) : t.boot.image = s.boot.image := by
  have e := h .boot h0
  simp only [Part.same, Prod.mk.injEq] at e
  simp only [e]

theorem OnlyM.chartersValid_eq (h : OnlyM m s t) (h0 : m.testBit (Part.idx .boot) = false) : t.boot.chartersValid = s.boot.chartersValid := by
  have e := h .boot h0
  simp only [Part.same, Prod.mk.injEq] at e
  simp only [e]

theorem OnlyM.absent_eq (h : OnlyM m s t) (h0 : m.testBit (Part.idx .boot) = false) : t.boot.absent = s.boot.absent := by
  have e := h .boot h0
  simp only [Part.same, Prod.mk.injEq] at e
  simp only [e]

theorem OnlyM.absentStacks_eq (h : OnlyM m s t) (h0 : m.testBit (Part.idx .boot) = false) : t.boot.absentStacks = s.boot.absentStacks := by
  have e := h .boot h0
  simp only [Part.same, Prod.mk.injEq] at e
  simp only [e]

theorem OnlyM.amending_eq (h : OnlyM m s t) (h0 : m.testBit (Part.idx .amend) = false) : t.boot.amending = s.boot.amending := by
  have e := h .amend h0
  simp only [Part.same, Prod.mk.injEq] at e
  simp only [e]

theorem OnlyM.lossHead_eq (h : OnlyM m s t) (h0 : m.testBit (Part.idx .lossRing) = false) : t.flt.head = s.flt.head := by
  have e := h .lossRing h0
  simp only [Part.same, Prod.mk.injEq] at e
  simp only [e]

theorem OnlyM.lossTail_eq (h : OnlyM m s t) (h0 : m.testBit (Part.idx .lossRing) = false) : t.flt.tail = s.flt.tail := by
  have e := h .lossRing h0
  simp only [Part.same, Prod.mk.injEq] at e
  simp only [e]

theorem OnlyM.fenceSeq_eq (h : OnlyM m s t) (h0 : m.testBit (Part.idx .fenceCount) = false) : t.flt.fenceSeq = s.flt.fenceSeq := by
  have e := h .fenceCount h0
  simp only [Part.same, Prod.mk.injEq] at e
  simp only [e]

theorem OnlyM.stwReset_eq (h : OnlyM m s t) (h0 : m.testBit (Part.idx .steward) = false) : t.flt.stwReset = s.flt.stwReset := by
  have e := h .steward h0
  simp only [Part.same, Prod.mk.injEq] at e
  simp only [e]

theorem OnlyM.trcSt_eq (h : OnlyM m s t) (h0 : m.testBit (Part.idx .trace) = false) : t.trc.st = s.trc.st := by
  have e := h .trace h0
  simp only [Part.same, Prod.mk.injEq] at e
  simp only [e]

theorem OnlyM.trcOwner_eq (h : OnlyM m s t) (h0 : m.testBit (Part.idx .trace) = false) : t.trc.owner = s.trc.owner := by
  have e := h .trace h0
  simp only [Part.same, Prod.mk.injEq] at e
  simp only [e]

theorem OnlyM.trcSrcs_eq (h : OnlyM m s t) (h0 : m.testBit (Part.idx .trace) = false) : t.trc.srcs = s.trc.srcs := by
  have e := h .trace h0
  simp only [Part.same, Prod.mk.injEq] at e
  simp only [e]

theorem OnlyM.tile_eq (h : OnlyM m s t) (h0 : m.testBit (Part.idx .tiles) = false) (i : Nat) : t.tile i = s.tile i := by
  unfold State.tile
  rw [h.tiles_eq h0]

theorem OnlyM.port_eq (h : OnlyM m s t) (h0 : m.testBit (Part.idx .ports) = false) (i : Nat) : t.port i = s.port i := by
  unfold State.port
  rw [h.ports_eq h0]

theorem OnlyM.world_eq (h : OnlyM m s t) (h0 : m.testBit (Part.idx .worlds) = false) (i : Nat) : t.world i = s.world i := by
  unfold State.world
  rw [h.worlds_eq h0]

theorem OnlyM.rack_eq (h : OnlyM m s t) (h0 : m.testBit (Part.idx .racks) = false) (i : Nat) : t.rack i = s.rack i := by
  unfold State.rack
  rw [h.racks_eq h0]

theorem OnlyM.ld_eq (h : OnlyM m s t) (h0 : m.testBit (Part.idx .lds) = false) (i : Nat) : t.ld i = s.ld i := by
  unfold State.ld
  rw [h.lds_eq h0]

theorem OnlyM.link_eq (h : OnlyM m s t) (h0 : m.testBit (Part.idx .links) = false) (i : Nat) : t.link i = s.link i := by
  unfold State.link
  rw [h.links_eq h0]

theorem OnlyM.master_eq (h : OnlyM m s t) (h0 : m.testBit (Part.idx .masters) = false) (i : Nat) : t.master i = s.master i := by
  unfold State.master
  rw [h.masters_eq h0]

theorem OnlyM.span_eq (h : OnlyM m s t) (h0 : m.testBit (Part.idx .spans) = false) (i : Nat) : t.span i = s.span i := by
  unfold State.span
  rw [h.spans_eq h0]

theorem OnlyM.fence_eq (h : OnlyM m s t) (h0 : m.testBit (Part.idx .fences) = false) (i : Nat) : t.fence i = s.fence i := by
  unfold State.fence
  rw [h.fences_eq h0]

theorem OnlyM.dom_eq (h : OnlyM m s t) (h0 : m.testBit (Part.idx .doms) = false) (i : Nat) : t.dom i = s.dom i := by
  unfold State.dom
  rw [h.doms_eq h0]

theorem OnlyM.pip_eq (h : OnlyM m s t) (h0 : m.testBit (Part.idx .pips) = false) (i : Nat) : t.pip i = s.pip i := by
  unfold State.pip
  rw [h.pips_eq h0]

theorem OnlyM.rackSet_eq (h : OnlyM m s t) (h0 : m.testBit (Part.idx .rackCfg) = false) (i : Nat) : t.rackSet i = s.rackSet i := by
  unfold State.rackSet
  rw [h.sets_eq h0]

theorem OnlyM.isReady_eq (h : OnlyM m s t) (h0 : m.testBit (Part.idx .boot) = false) : t.isReady = s.isReady := by
  unfold State.isReady
  simp only [h.bootSt_eq h0]

theorem OnlyM.worldLimit_eq (h : OnlyM m s t) (h0 : m.testBit (Part.idx .boot) = false) : t.worldLimit = s.worldLimit := by
  unfold State.worldLimit State.charter
  simp only [h.chartersValid_eq h0]

theorem OnlyM.charter_eq (h : OnlyM m s t) (h0 : m.testBit (Part.idx .boot) = false) (k : Nat) : t.charter k = s.charter k := by
  unfold State.charter
  simp only [h.chartersValid_eq h0]

theorem OnlyM.populated_eq (h : OnlyM m s t) (h0 : m.testBit (Part.idx .pkg) = false) (k : Nat) : t.populated k = s.populated k := by
  unfold State.populated
  simp only [h.pkg_eq h0]

theorem OnlyM.domClass_eq (h : OnlyM m s t) (h0 : m.testBit (Part.idx .pkg) = false) (d : Nat) : t.domClass d = s.domClass d := by
  unfold State.domClass State.stackPresent
  simp only [h.pkg_eq h0, h.populated_eq h0]

theorem OnlyM.fenceable_eq (h : OnlyM m s t) (h0 : m.testBit (Part.idx .pkg) = false) (h1 : m.testBit (Part.idx .boot) = false) (d : Nat) : t.fenceable d = s.fenceable d := by
  unfold State.fenceable
  simp only [h.domClass_eq h0, h.absent_eq h1, h.absentStacks_eq h1]

theorem OnlyM.tilePresent_eq (h : OnlyM m s t) (h0 : m.testBit (Part.idx .pkg) = false) (h1 : m.testBit (Part.idx .boot) = false) (k : Nat) : t.tilePresent k = s.tilePresent k := by
  unfold State.tilePresent
  simp only [h.populated_eq h0, h.absent_eq h1]

theorem OnlyM.domState_eq (h : OnlyM m s t) (h0 : m.testBit (Part.idx .fences) = false) (d : Nat) : t.domState d = s.domState d := by
  unfold State.domState
  simp only [h.fence_eq h0]

theorem OnlyM.domActive_eq (h : OnlyM m s t) (h0 : m.testBit (Part.idx .fences) = false) (d : Nat) : t.domActive d = s.domActive d := by
  unfold State.domActive
  simp only [h.fence_eq h0]

theorem OnlyM.tileActive_eq (h : OnlyM m s t) (h0 : m.testBit (Part.idx .fences) = false) (d : Nat) : t.tileActive d = s.tileActive d := by
  unfold State.tileActive
  simp only [h.domActive_eq h0]

theorem OnlyM.domRuns_eq (h : OnlyM m s t) (h0 : m.testBit (Part.idx .fences) = false) (d : Nat) : t.domRuns d = s.domRuns d := by
  unfold State.domRuns
  simp only [h.domState_eq h0]

theorem OnlyM.tileRuns_eq (h : OnlyM m s t) (h0 : m.testBit (Part.idx .fences) = false) (d : Nat) : t.tileRuns d = s.tileRuns d := by
  unfold State.tileRuns
  simp only [h.domRuns_eq h0]

theorem OnlyM.stackIsLost_eq (h : OnlyM m s t) (h0 : m.testBit (Part.idx .fences) = false) (d : Nat) : t.stackIsLost d = s.stackIsLost d := by
  unfold State.stackIsLost
  simp only [h.fence_eq h0]

theorem OnlyM.right_eq (h : OnlyM m s t) (h0 : m.testBit (Part.idx .access) = false) (h1 : m.testBit (Part.idx .worlds) = false) (h2 : m.testBit (Part.idx .boot) = false) (m : Nat) (tg : Target) : t.right m tg = s.right m tg := by
  unfold State.right State.fixedRight
  simp only [h.access_eq h0, h.worldLimit_eq h2, h.world_eq h1, h.isReady_eq h2]

theorem OnlyM.has_eq (h : OnlyM m s t) (h0 : m.testBit (Part.idx .access) = false) (h1 : m.testBit (Part.idx .worlds) = false) (h2 : m.testBit (Part.idx .boot) = false) (m : Nat) (tg : Target) (r : Right) : t.has m tg r = s.has m tg r := by
  unfold State.has
  simp only [h.right_eq h0 h1 h2]

theorem OnlyM.pipRight_eq (h : OnlyM m s t) (h0 : m.testBit (Part.idx .access) = false) (h1 : m.testBit (Part.idx .worlds) = false) (h2 : m.testBit (Part.idx .boot) = false) (h3 : m.testBit (Part.idx .pips) = false) (m n : Nat) : t.pipRight m n = s.pipRight m n := by
  unfold State.pipRight State.fixedRight
  simp only [h.pip_eq h3, h.pips_eq h3, h.right_eq h0 h1 h2, h.isReady_eq h2]

theorem OnlyM.ldOfRack_eq (h : OnlyM m s t) (h0 : m.testBit (Part.idx .lds) = false) (r : Nat) : t.ldOfRack r = s.ldOfRack r := by
  unfold State.ldOfRack
  simp only [h.lds_eq h0]

theorem OnlyM.findExec_eq (h : OnlyM m s t) (h0 : m.testBit (Part.idx .executing) = false) (rk seq : Nat) : t.findExec rk seq = s.findExec rk seq := by
  unfold State.findExec
  simp only [h.executing_eq h0]

theorem OnlyM.traceOn_eq (h : OnlyM m s t) (h0 : m.testBit (Part.idx .trace) = false) (h1 : m.testBit (Part.idx .fences) = false) : t.traceOn = s.traceOn := by
  unfold State.traceOn
  simp only [h.trcSt_eq h0, h.domActive_eq h1]

theorem OnlyM.memAddr_eq (h : OnlyM m s t) (h0 : m.testBit (Part.idx .tiles) = false) (a : Nat) : t.memAddr a = s.memAddr a := by
  unfold State.memAddr
  simp only [h.tile_eq h0]

theorem OnlyM.lockstep_eq (h : OnlyM m s t) (h0 : m.testBit (Part.idx .hubCfg) = false) (c : Nat) : t.lockstep c = s.lockstep c := by
  unfold State.lockstep
  simp only [h.classLockstep_eq h0]

/-- Every part of `tmp`. -/
theorem OnlyM.tmp_eq (h : OnlyM m s t) (hb : ∀ p ∈ ([.worlds, .slots, .learnGrps, .advErr, .subs] : List Part), m.testBit p.idx = false) : t.tmp = s.tmp := by
  have e0 := h .worlds (hb _ (by decide))
  have e1 := h .slots (hb _ (by decide))
  have e2 := h .learnGrps (hb _ (by decide))
  have e3 := h .advErr (hb _ (by decide))
  have e4 := h .subs (hb _ (by decide))
  simp only [Part.same, Prod.mk.injEq] at e0 e1 e2 e3 e4
  generalize t.tmp = x at *
  generalize s.tmp = y at *
  cases x
  cases y
  simp_all

/-- Every part of `fab`. -/
theorem OnlyM.fab_eq (h : OnlyM m s t) (hb : ∀ p ∈ ([.routers, .inbox, .hubPace, .marked, .spans, .mail] : List Part), m.testBit p.idx = false) : t.fab = s.fab := by
  have e0 := h .routers (hb _ (by decide))
  have e1 := h .inbox (hb _ (by decide))
  have e2 := h .hubPace (hb _ (by decide))
  have e3 := h .marked (hb _ (by decide))
  have e4 := h .spans (hb _ (by decide))
  have e5 := h .mail (hb _ (by decide))
  simp only [Part.same, Prod.mk.injEq] at e0 e1 e2 e3 e4 e5
  generalize t.fab = x at *
  generalize s.fab = y at *
  cases x
  cases y
  simp_all

/-- Every part of `boot`. -/
theorem OnlyM.boot_eq (h : OnlyM m s t) (hb : ∀ p ∈ ([.bootLog, .amend, .boot] : List Part), m.testBit p.idx = false) : t.boot = s.boot := by
  have e0 := h .bootLog (hb _ (by decide))
  have e1 := h .amend (hb _ (by decide))
  have e2 := h .boot (hb _ (by decide))
  simp only [Part.same, Prod.mk.injEq] at e0 e1 e2
  generalize t.boot = x at *
  generalize s.boot = y at *
  cases x
  cases y
  simp_all

/-- Every part of `flt`. -/
theorem OnlyM.flt_eq (h : OnlyM m s t) (hb : ∀ p ∈ ([.lossQueue, .lossRing, .faultCfg, .fences, .fenceCount, .notices, .steward, .stackLost, .hostReqs] : List Part), m.testBit p.idx = false) : t.flt = s.flt := by
  have e0 := h .lossQueue (hb _ (by decide))
  have e1 := h .lossRing (hb _ (by decide))
  have e2 := h .faultCfg (hb _ (by decide))
  have e3 := h .fences (hb _ (by decide))
  have e4 := h .fenceCount (hb _ (by decide))
  have e5 := h .notices (hb _ (by decide))
  have e6 := h .steward (hb _ (by decide))
  have e7 := h .stackLost (hb _ (by decide))
  have e8 := h .hostReqs (hb _ (by decide))
  simp only [Part.same, Prod.mk.injEq] at e0 e1 e2 e3 e4 e5 e6 e7 e8
  generalize t.flt = x at *
  generalize s.flt = y at *
  cases x
  cases y
  simp_all

/-- Every part of `racks`. -/
theorem OnlyM.rackStore_eq (h : OnlyM m s t) (hb : ∀ p ∈ ([.racks, .rackCfg] : List Part), m.testBit p.idx = false) : t.racks = s.racks := by
  have e0 := h .racks (hb _ (by decide))
  have e1 := h .rackCfg (hb _ (by decide))
  simp only [Part.same, Prod.mk.injEq] at e0 e1
  generalize t.racks = x at *
  generalize s.racks = y at *
  cases x
  cases y
  simp_all

/-- Every part of `pwr`. -/
theorem OnlyM.pwr_eq (h : OnlyM m s t) (hb : ∀ p ∈ ([.doms, .power] : List Part), m.testBit p.idx = false) : t.pwr = s.pwr := by
  have e0 := h .doms (hb _ (by decide))
  have e1 := h .power (hb _ (by decide))
  simp only [Part.same, Prod.mk.injEq] at e0 e1
  generalize t.pwr = x at *
  generalize s.pwr = y at *
  cases x
  cases y
  simp_all

/-- Every part of `trc`. -/
theorem OnlyM.trc_eq (h : OnlyM m s t) (hb : ∀ p ∈ ([.trcQueue, .trace, .trcDrops] : List Part), m.testBit p.idx = false) : t.trc = s.trc := by
  have e0 := h .trcQueue (hb _ (by decide))
  have e1 := h .trace (hb _ (by decide))
  have e2 := h .trcDrops (hb _ (by decide))
  simp only [Part.same, Prod.mk.injEq] at e0 e1 e2
  generalize t.trc = x at *
  generalize s.trc = y at *
  cases x
  cases y
  simp_all

/-- Every part of `hub`. -/
theorem OnlyM.hub_eq (h : OnlyM m s t) (hb : ∀ p ∈ ([.masters, .links, .lds, .executing, .failedHeads, .epoch, .lockIn, .fabLost, .hubCfg, .answers] : List Part), m.testBit p.idx = false) : t.hub = s.hub := by
  have e0 := h .masters (hb _ (by decide))
  have e1 := h .links (hb _ (by decide))
  have e2 := h .lds (hb _ (by decide))
  have e3 := h .executing (hb _ (by decide))
  have e4 := h .failedHeads (hb _ (by decide))
  have e5 := h .epoch (hb _ (by decide))
  have e6 := h .lockIn (hb _ (by decide))
  have e7 := h .fabLost (hb _ (by decide))
  have e8 := h .hubCfg (hb _ (by decide))
  have e9 := h .answers (hb _ (by decide))
  simp only [Part.same, Prod.mk.injEq] at e0 e1 e2 e3 e4 e5 e6 e7 e8 e9
  generalize t.hub = x at *
  generalize s.hub = y at *
  cases x
  cases y
  simp_all

end Sys2Proof.Machine
end

