-- ==== Sys2Proof/Laws/Fields.lean ====
section
/-! SUPPORT. What each shared operation of Machine/Ops.lean leaves alone, one lemma per named part of the state. -/

namespace Sys2Proof.Machine

open Sys2Proof

/-! ### wakeDom -/

theorem wakeDom_only (s : State) (d kind detail : Nat) : OnlyM 0x20400 s (s.wakeDom d kind detail) := only_wakeDom (OnlyM.refl _ s) rfl

@[simp] theorem wakeDom_pkg (s : State) (d kind detail : Nat) : (s.wakeDom d kind detail).pkg = s.pkg := (wakeDom_only s d kind detail).pkg_eq rfl
@[simp] theorem wakeDom_fuses (s : State) (d kind detail : Nat) : (s.wakeDom d kind detail).fuses = s.fuses := (wakeDom_only s d kind detail).fuses_eq rfl
@[simp] theorem wakeDom_mem (s : State) (d kind detail : Nat) : (s.wakeDom d kind detail).mem = s.mem := (wakeDom_only s d kind detail).mem_eq rfl
@[simp] theorem wakeDom_freeCtr (s : State) (d kind detail : Nat) : (s.wakeDom d kind detail).freeCtr = s.freeCtr := (wakeDom_only s d kind detail).freeCtr_eq rfl
@[simp] theorem wakeDom_pending (s : State) (d kind detail : Nat) : (s.wakeDom d kind detail).pending = s.pending := (wakeDom_only s d kind detail).pending_eq rfl
@[simp] theorem wakeDom_pips (s : State) (d kind detail : Nat) : (s.wakeDom d kind detail).pips = s.pips := (wakeDom_only s d kind detail).pips_eq rfl
@[simp] theorem wakeDom_pool (s : State) (d kind detail : Nat) : (s.wakeDom d kind detail).pool = s.pool := (wakeDom_only s d kind detail).pool_eq rfl
@[simp] theorem wakeDom_wall (s : State) (d kind detail : Nat) : (s.wakeDom d kind detail).aon.wall = s.aon.wall := (wakeDom_only s d kind detail).wall_eq rfl
@[simp] theorem wakeDom_lds (s : State) (d kind detail : Nat) : (s.wakeDom d kind detail).hub.lds = s.hub.lds := (wakeDom_only s d kind detail).lds_eq rfl
@[simp] theorem wakeDom_executing (s : State) (d kind detail : Nat) : (s.wakeDom d kind detail).hub.executing = s.hub.executing := (wakeDom_only s d kind detail).executing_eq rfl
@[simp] theorem wakeDom_failedHeads (s : State) (d kind detail : Nat) : (s.wakeDom d kind detail).hub.failedHeads = s.hub.failedHeads := (wakeDom_only s d kind detail).failedHeads_eq rfl
@[simp] theorem wakeDom_epoch (s : State) (d kind detail : Nat) : (s.wakeDom d kind detail).hub.epoch = s.hub.epoch := (wakeDom_only s d kind detail).epoch_eq rfl
@[simp] theorem wakeDom_lockIn (s : State) (d kind detail : Nat) : (s.wakeDom d kind detail).hub.lockIn = s.hub.lockIn := (wakeDom_only s d kind detail).lockIn_eq rfl
@[simp] theorem wakeDom_worlds (s : State) (d kind detail : Nat) : (s.wakeDom d kind detail).tmp.worlds = s.tmp.worlds := (wakeDom_only s d kind detail).worlds_eq rfl
@[simp] theorem wakeDom_slots (s : State) (d kind detail : Nat) : (s.wakeDom d kind detail).tmp.slots = s.tmp.slots := (wakeDom_only s d kind detail).slots_eq rfl
@[simp] theorem wakeDom_subs (s : State) (d kind detail : Nat) : (s.wakeDom d kind detail).tmp.subs = s.tmp.subs := (wakeDom_only s d kind detail).subs_eq rfl
@[simp] theorem wakeDom_inbox (s : State) (d kind detail : Nat) : (s.wakeDom d kind detail).fab.inbox = s.fab.inbox := (wakeDom_only s d kind detail).inbox_eq rfl
@[simp] theorem wakeDom_spans (s : State) (d kind detail : Nat) : (s.wakeDom d kind detail).fab.spans = s.fab.spans := (wakeDom_only s d kind detail).spans_eq rfl
@[simp] theorem wakeDom_mail (s : State) (d kind detail : Nat) : (s.wakeDom d kind detail).fab.mail = s.fab.mail := (wakeDom_only s d kind detail).mail_eq rfl
@[simp] theorem wakeDom_phase (s : State) (d kind detail : Nat) : (s.wakeDom d kind detail).aon.phase = s.aon.phase := (wakeDom_only s d kind detail).phase_eq rfl
@[simp] theorem wakeDom_dispatchOff (s : State) (d kind detail : Nat) : (s.wakeDom d kind detail).pwr.dispatchOff = s.pwr.dispatchOff := (wakeDom_only s d kind detail).dispatchOff_eq rfl
@[simp] theorem wakeDom_hubP (s : State) (d kind detail : Nat) : (s.wakeDom d kind detail).hub.p = s.hub.p := (wakeDom_only s d kind detail).hubP_eq rfl
@[simp] theorem wakeDom_sets (s : State) (d kind detail : Nat) : (s.wakeDom d kind detail).racks.sets = s.racks.sets := (wakeDom_only s d kind detail).sets_eq rfl
@[simp] theorem wakeDom_bootSt (s : State) (d kind detail : Nat) : (s.wakeDom d kind detail).boot.st = s.boot.st := (wakeDom_only s d kind detail).bootSt_eq rfl
@[simp] theorem wakeDom_bootPhase (s : State) (d kind detail : Nat) : (s.wakeDom d kind detail).boot.phase = s.boot.phase := (wakeDom_only s d kind detail).bootPhase_eq rfl
@[simp] theorem wakeDom_chartersValid (s : State) (d kind detail : Nat) : (s.wakeDom d kind detail).boot.chartersValid = s.boot.chartersValid := (wakeDom_only s d kind detail).chartersValid_eq rfl
@[simp] theorem wakeDom_amending (s : State) (d kind detail : Nat) : (s.wakeDom d kind detail).boot.amending = s.boot.amending := (wakeDom_only s d kind detail).amending_eq rfl
@[simp] theorem wakeDom_stwReset (s : State) (d kind detail : Nat) : (s.wakeDom d kind detail).flt.stwReset = s.flt.stwReset := (wakeDom_only s d kind detail).stwReset_eq rfl
@[simp] theorem wakeDom_trcSt (s : State) (d kind detail : Nat) : (s.wakeDom d kind detail).trc.st = s.trc.st := (wakeDom_only s d kind detail).trcSt_eq rfl
@[simp] theorem wakeDom_trcOwner (s : State) (d kind detail : Nat) : (s.wakeDom d kind detail).trc.owner = s.trc.owner := (wakeDom_only s d kind detail).trcOwner_eq rfl
@[simp] theorem wakeDom_tile (s : State) (d kind detail : Nat) (i' : Nat) : (s.wakeDom d kind detail).tile i' = s.tile i' := (wakeDom_only s d kind detail).tile_eq rfl i'
@[simp] theorem wakeDom_port (s : State) (d kind detail : Nat) (i' : Nat) : (s.wakeDom d kind detail).port i' = s.port i' := (wakeDom_only s d kind detail).port_eq rfl i'
@[simp] theorem wakeDom_world (s : State) (d kind detail : Nat) (i' : Nat) : (s.wakeDom d kind detail).world i' = s.world i' := (wakeDom_only s d kind detail).world_eq rfl i'
@[simp] theorem wakeDom_rack (s : State) (d kind detail : Nat) (i' : Nat) : (s.wakeDom d kind detail).rack i' = s.rack i' := (wakeDom_only s d kind detail).rack_eq rfl i'
@[simp] theorem wakeDom_ld (s : State) (d kind detail : Nat) (i' : Nat) : (s.wakeDom d kind detail).ld i' = s.ld i' := (wakeDom_only s d kind detail).ld_eq rfl i'
@[simp] theorem wakeDom_link (s : State) (d kind detail : Nat) (i' : Nat) : (s.wakeDom d kind detail).link i' = s.link i' := (wakeDom_only s d kind detail).link_eq rfl i'
@[simp] theorem wakeDom_master (s : State) (d kind detail : Nat) (i' : Nat) : (s.wakeDom d kind detail).master i' = s.master i' := (wakeDom_only s d kind detail).master_eq rfl i'
@[simp] theorem wakeDom_span (s : State) (d kind detail : Nat) (i' : Nat) : (s.wakeDom d kind detail).span i' = s.span i' := (wakeDom_only s d kind detail).span_eq rfl i'
@[simp] theorem wakeDom_fence (s : State) (d kind detail : Nat) (i' : Nat) : (s.wakeDom d kind detail).fence i' = s.fence i' := (wakeDom_only s d kind detail).fence_eq rfl i'
@[simp] theorem wakeDom_pip (s : State) (d kind detail : Nat) (i' : Nat) : (s.wakeDom d kind detail).pip i' = s.pip i' := (wakeDom_only s d kind detail).pip_eq rfl i'
@[simp] theorem wakeDom_rackSet (s : State) (d kind detail : Nat) (i' : Nat) : (s.wakeDom d kind detail).rackSet i' = s.rackSet i' := (wakeDom_only s d kind detail).rackSet_eq rfl i'
@[simp] theorem wakeDom_isReady (s : State) (d kind detail : Nat) : (s.wakeDom d kind detail).isReady = s.isReady := (wakeDom_only s d kind detail).isReady_eq rfl
@[simp] theorem wakeDom_domClass (s : State) (d kind detail : Nat) (d' : Nat) : (s.wakeDom d kind detail).domClass d' = s.domClass d' := (wakeDom_only s d kind detail).domClass_eq rfl d'
@[simp] theorem wakeDom_fenceable (s : State) (d kind detail : Nat) (d' : Nat) : (s.wakeDom d kind detail).fenceable d' = s.fenceable d' := (wakeDom_only s d kind detail).fenceable_eq rfl rfl d'
@[simp] theorem wakeDom_tilePresent (s : State) (d kind detail : Nat) (k' : Nat) : (s.wakeDom d kind detail).tilePresent k' = s.tilePresent k' := (wakeDom_only s d kind detail).tilePresent_eq rfl rfl k'
@[simp] theorem wakeDom_domActive (s : State) (d kind detail : Nat) (d' : Nat) : (s.wakeDom d kind detail).domActive d' = s.domActive d' := (wakeDom_only s d kind detail).domActive_eq rfl d'
@[simp] theorem wakeDom_tileActive (s : State) (d kind detail : Nat) (d' : Nat) : (s.wakeDom d kind detail).tileActive d' = s.tileActive d' := (wakeDom_only s d kind detail).tileActive_eq rfl d'
@[simp] theorem wakeDom_tileRuns (s : State) (d kind detail : Nat) (d' : Nat) : (s.wakeDom d kind detail).tileRuns d' = s.tileRuns d' := (wakeDom_only s d kind detail).tileRuns_eq rfl d'
@[simp] theorem wakeDom_right (s : State) (d kind detail : Nat) (m' : Nat) (tg' : Target) : (s.wakeDom d kind detail).right m' tg' = s.right m' tg' := (wakeDom_only s d kind detail).right_eq rfl rfl rfl m' tg'
@[simp] theorem wakeDom_has (s : State) (d kind detail : Nat) (m' : Nat) (tg' : Target) (r' : Right) : (s.wakeDom d kind detail).has m' tg' r' = s.has m' tg' r' := (wakeDom_only s d kind detail).has_eq rfl rfl rfl m' tg' r'
@[simp] theorem wakeDom_pipRight (s : State) (d kind detail : Nat) (m' n' : Nat) : (s.wakeDom d kind detail).pipRight m' n' = s.pipRight m' n' := (wakeDom_only s d kind detail).pipRight_eq rfl rfl rfl rfl m' n'
@[simp] theorem wakeDom_ldOfRack (s : State) (d kind detail : Nat) (r' : Nat) : (s.wakeDom d kind detail).ldOfRack r' = s.ldOfRack r' := (wakeDom_only s d kind detail).ldOfRack_eq rfl r'
@[simp] theorem wakeDom_traceOn (s : State) (d kind detail : Nat) : (s.wakeDom d kind detail).traceOn = s.traceOn := (wakeDom_only s d kind detail).traceOn_eq rfl rfl
@[simp] theorem wakeDom_memAddr (s : State) (d kind detail : Nat) (a' : Nat) : (s.wakeDom d kind detail).memAddr a' = s.memAddr a' := (wakeDom_only s d kind detail).memAddr_eq rfl a'
@[simp] theorem wakeDom_lockstep (s : State) (d kind detail : Nat) (c' : Nat) : (s.wakeDom d kind detail).lockstep c' = s.lockstep c' := (wakeDom_only s d kind detail).lockstep_eq rfl c'

/-! ### wakeTile -/

theorem wakeTile_only (s : State) (t kind detail : Nat) : OnlyM 0x20400 s (s.wakeTile t kind detail) := only_wakeTile (OnlyM.refl _ s) rfl

@[simp] theorem wakeTile_pkg (s : State) (t kind detail : Nat) : (s.wakeTile t kind detail).pkg = s.pkg := (wakeTile_only s t kind detail).pkg_eq rfl
@[simp] theorem wakeTile_fuses (s : State) (t kind detail : Nat) : (s.wakeTile t kind detail).fuses = s.fuses := (wakeTile_only s t kind detail).fuses_eq rfl
@[simp] theorem wakeTile_mem (s : State) (t kind detail : Nat) : (s.wakeTile t kind detail).mem = s.mem := (wakeTile_only s t kind detail).mem_eq rfl
@[simp] theorem wakeTile_freeCtr (s : State) (t kind detail : Nat) : (s.wakeTile t kind detail).freeCtr = s.freeCtr := (wakeTile_only s t kind detail).freeCtr_eq rfl
@[simp] theorem wakeTile_pending (s : State) (t kind detail : Nat) : (s.wakeTile t kind detail).pending = s.pending := (wakeTile_only s t kind detail).pending_eq rfl
@[simp] theorem wakeTile_pips (s : State) (t kind detail : Nat) : (s.wakeTile t kind detail).pips = s.pips := (wakeTile_only s t kind detail).pips_eq rfl
@[simp] theorem wakeTile_pool (s : State) (t kind detail : Nat) : (s.wakeTile t kind detail).pool = s.pool := (wakeTile_only s t kind detail).pool_eq rfl
@[simp] theorem wakeTile_wall (s : State) (t kind detail : Nat) : (s.wakeTile t kind detail).aon.wall = s.aon.wall := (wakeTile_only s t kind detail).wall_eq rfl
@[simp] theorem wakeTile_lds (s : State) (t kind detail : Nat) : (s.wakeTile t kind detail).hub.lds = s.hub.lds := (wakeTile_only s t kind detail).lds_eq rfl
@[simp] theorem wakeTile_executing (s : State) (t kind detail : Nat) : (s.wakeTile t kind detail).hub.executing = s.hub.executing := (wakeTile_only s t kind detail).executing_eq rfl
@[simp] theorem wakeTile_failedHeads (s : State) (t kind detail : Nat) : (s.wakeTile t kind detail).hub.failedHeads = s.hub.failedHeads := (wakeTile_only s t kind detail).failedHeads_eq rfl
@[simp] theorem wakeTile_epoch (s : State) (t kind detail : Nat) : (s.wakeTile t kind detail).hub.epoch = s.hub.epoch := (wakeTile_only s t kind detail).epoch_eq rfl
@[simp] theorem wakeTile_lockIn (s : State) (t kind detail : Nat) : (s.wakeTile t kind detail).hub.lockIn = s.hub.lockIn := (wakeTile_only s t kind detail).lockIn_eq rfl
@[simp] theorem wakeTile_worlds (s : State) (t kind detail : Nat) : (s.wakeTile t kind detail).tmp.worlds = s.tmp.worlds := (wakeTile_only s t kind detail).worlds_eq rfl
@[simp] theorem wakeTile_slots (s : State) (t kind detail : Nat) : (s.wakeTile t kind detail).tmp.slots = s.tmp.slots := (wakeTile_only s t kind detail).slots_eq rfl
@[simp] theorem wakeTile_subs (s : State) (t kind detail : Nat) : (s.wakeTile t kind detail).tmp.subs = s.tmp.subs := (wakeTile_only s t kind detail).subs_eq rfl
@[simp] theorem wakeTile_inbox (s : State) (t kind detail : Nat) : (s.wakeTile t kind detail).fab.inbox = s.fab.inbox := (wakeTile_only s t kind detail).inbox_eq rfl
@[simp] theorem wakeTile_spans (s : State) (t kind detail : Nat) : (s.wakeTile t kind detail).fab.spans = s.fab.spans := (wakeTile_only s t kind detail).spans_eq rfl
@[simp] theorem wakeTile_mail (s : State) (t kind detail : Nat) : (s.wakeTile t kind detail).fab.mail = s.fab.mail := (wakeTile_only s t kind detail).mail_eq rfl
@[simp] theorem wakeTile_phase (s : State) (t kind detail : Nat) : (s.wakeTile t kind detail).aon.phase = s.aon.phase := (wakeTile_only s t kind detail).phase_eq rfl
@[simp] theorem wakeTile_dispatchOff (s : State) (t kind detail : Nat) : (s.wakeTile t kind detail).pwr.dispatchOff = s.pwr.dispatchOff := (wakeTile_only s t kind detail).dispatchOff_eq rfl
@[simp] theorem wakeTile_hubP (s : State) (t kind detail : Nat) : (s.wakeTile t kind detail).hub.p = s.hub.p := (wakeTile_only s t kind detail).hubP_eq rfl
@[simp] theorem wakeTile_sets (s : State) (t kind detail : Nat) : (s.wakeTile t kind detail).racks.sets = s.racks.sets := (wakeTile_only s t kind detail).sets_eq rfl
@[simp] theorem wakeTile_bootSt (s : State) (t kind detail : Nat) : (s.wakeTile t kind detail).boot.st = s.boot.st := (wakeTile_only s t kind detail).bootSt_eq rfl
@[simp] theorem wakeTile_bootPhase (s : State) (t kind detail : Nat) : (s.wakeTile t kind detail).boot.phase = s.boot.phase := (wakeTile_only s t kind detail).bootPhase_eq rfl
@[simp] theorem wakeTile_chartersValid (s : State) (t kind detail : Nat) : (s.wakeTile t kind detail).boot.chartersValid = s.boot.chartersValid := (wakeTile_only s t kind detail).chartersValid_eq rfl
@[simp] theorem wakeTile_amending (s : State) (t kind detail : Nat) : (s.wakeTile t kind detail).boot.amending = s.boot.amending := (wakeTile_only s t kind detail).amending_eq rfl
@[simp] theorem wakeTile_stwReset (s : State) (t kind detail : Nat) : (s.wakeTile t kind detail).flt.stwReset = s.flt.stwReset := (wakeTile_only s t kind detail).stwReset_eq rfl
@[simp] theorem wakeTile_trcSt (s : State) (t kind detail : Nat) : (s.wakeTile t kind detail).trc.st = s.trc.st := (wakeTile_only s t kind detail).trcSt_eq rfl
@[simp] theorem wakeTile_trcOwner (s : State) (t kind detail : Nat) : (s.wakeTile t kind detail).trc.owner = s.trc.owner := (wakeTile_only s t kind detail).trcOwner_eq rfl
@[simp] theorem wakeTile_tile (s : State) (t kind detail : Nat) (i' : Nat) : (s.wakeTile t kind detail).tile i' = s.tile i' := (wakeTile_only s t kind detail).tile_eq rfl i'
@[simp] theorem wakeTile_port (s : State) (t kind detail : Nat) (i' : Nat) : (s.wakeTile t kind detail).port i' = s.port i' := (wakeTile_only s t kind detail).port_eq rfl i'
@[simp] theorem wakeTile_world (s : State) (t kind detail : Nat) (i' : Nat) : (s.wakeTile t kind detail).world i' = s.world i' := (wakeTile_only s t kind detail).world_eq rfl i'
@[simp] theorem wakeTile_rack (s : State) (t kind detail : Nat) (i' : Nat) : (s.wakeTile t kind detail).rack i' = s.rack i' := (wakeTile_only s t kind detail).rack_eq rfl i'
@[simp] theorem wakeTile_ld (s : State) (t kind detail : Nat) (i' : Nat) : (s.wakeTile t kind detail).ld i' = s.ld i' := (wakeTile_only s t kind detail).ld_eq rfl i'
@[simp] theorem wakeTile_link (s : State) (t kind detail : Nat) (i' : Nat) : (s.wakeTile t kind detail).link i' = s.link i' := (wakeTile_only s t kind detail).link_eq rfl i'
@[simp] theorem wakeTile_master (s : State) (t kind detail : Nat) (i' : Nat) : (s.wakeTile t kind detail).master i' = s.master i' := (wakeTile_only s t kind detail).master_eq rfl i'
@[simp] theorem wakeTile_span (s : State) (t kind detail : Nat) (i' : Nat) : (s.wakeTile t kind detail).span i' = s.span i' := (wakeTile_only s t kind detail).span_eq rfl i'
@[simp] theorem wakeTile_fence (s : State) (t kind detail : Nat) (i' : Nat) : (s.wakeTile t kind detail).fence i' = s.fence i' := (wakeTile_only s t kind detail).fence_eq rfl i'
@[simp] theorem wakeTile_pip (s : State) (t kind detail : Nat) (i' : Nat) : (s.wakeTile t kind detail).pip i' = s.pip i' := (wakeTile_only s t kind detail).pip_eq rfl i'
@[simp] theorem wakeTile_rackSet (s : State) (t kind detail : Nat) (i' : Nat) : (s.wakeTile t kind detail).rackSet i' = s.rackSet i' := (wakeTile_only s t kind detail).rackSet_eq rfl i'
@[simp] theorem wakeTile_isReady (s : State) (t kind detail : Nat) : (s.wakeTile t kind detail).isReady = s.isReady := (wakeTile_only s t kind detail).isReady_eq rfl
@[simp] theorem wakeTile_domClass (s : State) (t kind detail : Nat) (d' : Nat) : (s.wakeTile t kind detail).domClass d' = s.domClass d' := (wakeTile_only s t kind detail).domClass_eq rfl d'
@[simp] theorem wakeTile_fenceable (s : State) (t kind detail : Nat) (d' : Nat) : (s.wakeTile t kind detail).fenceable d' = s.fenceable d' := (wakeTile_only s t kind detail).fenceable_eq rfl rfl d'
@[simp] theorem wakeTile_tilePresent (s : State) (t kind detail : Nat) (k' : Nat) : (s.wakeTile t kind detail).tilePresent k' = s.tilePresent k' := (wakeTile_only s t kind detail).tilePresent_eq rfl rfl k'
@[simp] theorem wakeTile_domActive (s : State) (t kind detail : Nat) (d' : Nat) : (s.wakeTile t kind detail).domActive d' = s.domActive d' := (wakeTile_only s t kind detail).domActive_eq rfl d'
@[simp] theorem wakeTile_tileActive (s : State) (t kind detail : Nat) (d' : Nat) : (s.wakeTile t kind detail).tileActive d' = s.tileActive d' := (wakeTile_only s t kind detail).tileActive_eq rfl d'
@[simp] theorem wakeTile_tileRuns (s : State) (t kind detail : Nat) (d' : Nat) : (s.wakeTile t kind detail).tileRuns d' = s.tileRuns d' := (wakeTile_only s t kind detail).tileRuns_eq rfl d'
@[simp] theorem wakeTile_right (s : State) (t kind detail : Nat) (m' : Nat) (tg' : Target) : (s.wakeTile t kind detail).right m' tg' = s.right m' tg' := (wakeTile_only s t kind detail).right_eq rfl rfl rfl m' tg'
@[simp] theorem wakeTile_has (s : State) (t kind detail : Nat) (m' : Nat) (tg' : Target) (r' : Right) : (s.wakeTile t kind detail).has m' tg' r' = s.has m' tg' r' := (wakeTile_only s t kind detail).has_eq rfl rfl rfl m' tg' r'
@[simp] theorem wakeTile_pipRight (s : State) (t kind detail : Nat) (m' n' : Nat) : (s.wakeTile t kind detail).pipRight m' n' = s.pipRight m' n' := (wakeTile_only s t kind detail).pipRight_eq rfl rfl rfl rfl m' n'
@[simp] theorem wakeTile_ldOfRack (s : State) (t kind detail : Nat) (r' : Nat) : (s.wakeTile t kind detail).ldOfRack r' = s.ldOfRack r' := (wakeTile_only s t kind detail).ldOfRack_eq rfl r'
@[simp] theorem wakeTile_traceOn (s : State) (t kind detail : Nat) : (s.wakeTile t kind detail).traceOn = s.traceOn := (wakeTile_only s t kind detail).traceOn_eq rfl rfl
@[simp] theorem wakeTile_memAddr (s : State) (t kind detail : Nat) (a' : Nat) : (s.wakeTile t kind detail).memAddr a' = s.memAddr a' := (wakeTile_only s t kind detail).memAddr_eq rfl a'
@[simp] theorem wakeTile_lockstep (s : State) (t kind detail : Nat) (c' : Nat) : (s.wakeTile t kind detail).lockstep c' = s.lockstep c' := (wakeTile_only s t kind detail).lockstep_eq rfl c'

/-! ### wakeBank -/

theorem wakeBank_only (s : State) (t : Nat) : OnlyM 0x20400 s (s.wakeBank t) := only_wakeBank (OnlyM.refl _ s) rfl

@[simp] theorem wakeBank_pkg (s : State) (t : Nat) : (s.wakeBank t).pkg = s.pkg := (wakeBank_only s t).pkg_eq rfl
@[simp] theorem wakeBank_fuses (s : State) (t : Nat) : (s.wakeBank t).fuses = s.fuses := (wakeBank_only s t).fuses_eq rfl
@[simp] theorem wakeBank_mem (s : State) (t : Nat) : (s.wakeBank t).mem = s.mem := (wakeBank_only s t).mem_eq rfl
@[simp] theorem wakeBank_freeCtr (s : State) (t : Nat) : (s.wakeBank t).freeCtr = s.freeCtr := (wakeBank_only s t).freeCtr_eq rfl
@[simp] theorem wakeBank_pending (s : State) (t : Nat) : (s.wakeBank t).pending = s.pending := (wakeBank_only s t).pending_eq rfl
@[simp] theorem wakeBank_pips (s : State) (t : Nat) : (s.wakeBank t).pips = s.pips := (wakeBank_only s t).pips_eq rfl
@[simp] theorem wakeBank_pool (s : State) (t : Nat) : (s.wakeBank t).pool = s.pool := (wakeBank_only s t).pool_eq rfl
@[simp] theorem wakeBank_wall (s : State) (t : Nat) : (s.wakeBank t).aon.wall = s.aon.wall := (wakeBank_only s t).wall_eq rfl
@[simp] theorem wakeBank_lds (s : State) (t : Nat) : (s.wakeBank t).hub.lds = s.hub.lds := (wakeBank_only s t).lds_eq rfl
@[simp] theorem wakeBank_executing (s : State) (t : Nat) : (s.wakeBank t).hub.executing = s.hub.executing := (wakeBank_only s t).executing_eq rfl
@[simp] theorem wakeBank_failedHeads (s : State) (t : Nat) : (s.wakeBank t).hub.failedHeads = s.hub.failedHeads := (wakeBank_only s t).failedHeads_eq rfl
@[simp] theorem wakeBank_epoch (s : State) (t : Nat) : (s.wakeBank t).hub.epoch = s.hub.epoch := (wakeBank_only s t).epoch_eq rfl
@[simp] theorem wakeBank_lockIn (s : State) (t : Nat) : (s.wakeBank t).hub.lockIn = s.hub.lockIn := (wakeBank_only s t).lockIn_eq rfl
@[simp] theorem wakeBank_worlds (s : State) (t : Nat) : (s.wakeBank t).tmp.worlds = s.tmp.worlds := (wakeBank_only s t).worlds_eq rfl
@[simp] theorem wakeBank_slots (s : State) (t : Nat) : (s.wakeBank t).tmp.slots = s.tmp.slots := (wakeBank_only s t).slots_eq rfl
@[simp] theorem wakeBank_subs (s : State) (t : Nat) : (s.wakeBank t).tmp.subs = s.tmp.subs := (wakeBank_only s t).subs_eq rfl
@[simp] theorem wakeBank_inbox (s : State) (t : Nat) : (s.wakeBank t).fab.inbox = s.fab.inbox := (wakeBank_only s t).inbox_eq rfl
@[simp] theorem wakeBank_spans (s : State) (t : Nat) : (s.wakeBank t).fab.spans = s.fab.spans := (wakeBank_only s t).spans_eq rfl
@[simp] theorem wakeBank_mail (s : State) (t : Nat) : (s.wakeBank t).fab.mail = s.fab.mail := (wakeBank_only s t).mail_eq rfl
@[simp] theorem wakeBank_phase (s : State) (t : Nat) : (s.wakeBank t).aon.phase = s.aon.phase := (wakeBank_only s t).phase_eq rfl
@[simp] theorem wakeBank_dispatchOff (s : State) (t : Nat) : (s.wakeBank t).pwr.dispatchOff = s.pwr.dispatchOff := (wakeBank_only s t).dispatchOff_eq rfl
@[simp] theorem wakeBank_hubP (s : State) (t : Nat) : (s.wakeBank t).hub.p = s.hub.p := (wakeBank_only s t).hubP_eq rfl
@[simp] theorem wakeBank_sets (s : State) (t : Nat) : (s.wakeBank t).racks.sets = s.racks.sets := (wakeBank_only s t).sets_eq rfl
@[simp] theorem wakeBank_bootSt (s : State) (t : Nat) : (s.wakeBank t).boot.st = s.boot.st := (wakeBank_only s t).bootSt_eq rfl
@[simp] theorem wakeBank_bootPhase (s : State) (t : Nat) : (s.wakeBank t).boot.phase = s.boot.phase := (wakeBank_only s t).bootPhase_eq rfl
@[simp] theorem wakeBank_chartersValid (s : State) (t : Nat) : (s.wakeBank t).boot.chartersValid = s.boot.chartersValid := (wakeBank_only s t).chartersValid_eq rfl
@[simp] theorem wakeBank_amending (s : State) (t : Nat) : (s.wakeBank t).boot.amending = s.boot.amending := (wakeBank_only s t).amending_eq rfl
@[simp] theorem wakeBank_stwReset (s : State) (t : Nat) : (s.wakeBank t).flt.stwReset = s.flt.stwReset := (wakeBank_only s t).stwReset_eq rfl
@[simp] theorem wakeBank_trcSt (s : State) (t : Nat) : (s.wakeBank t).trc.st = s.trc.st := (wakeBank_only s t).trcSt_eq rfl
@[simp] theorem wakeBank_trcOwner (s : State) (t : Nat) : (s.wakeBank t).trc.owner = s.trc.owner := (wakeBank_only s t).trcOwner_eq rfl
@[simp] theorem wakeBank_tile (s : State) (t : Nat) (i' : Nat) : (s.wakeBank t).tile i' = s.tile i' := (wakeBank_only s t).tile_eq rfl i'
@[simp] theorem wakeBank_port (s : State) (t : Nat) (i' : Nat) : (s.wakeBank t).port i' = s.port i' := (wakeBank_only s t).port_eq rfl i'
@[simp] theorem wakeBank_world (s : State) (t : Nat) (i' : Nat) : (s.wakeBank t).world i' = s.world i' := (wakeBank_only s t).world_eq rfl i'
@[simp] theorem wakeBank_rack (s : State) (t : Nat) (i' : Nat) : (s.wakeBank t).rack i' = s.rack i' := (wakeBank_only s t).rack_eq rfl i'
@[simp] theorem wakeBank_ld (s : State) (t : Nat) (i' : Nat) : (s.wakeBank t).ld i' = s.ld i' := (wakeBank_only s t).ld_eq rfl i'
@[simp] theorem wakeBank_link (s : State) (t : Nat) (i' : Nat) : (s.wakeBank t).link i' = s.link i' := (wakeBank_only s t).link_eq rfl i'
@[simp] theorem wakeBank_master (s : State) (t : Nat) (i' : Nat) : (s.wakeBank t).master i' = s.master i' := (wakeBank_only s t).master_eq rfl i'
@[simp] theorem wakeBank_span (s : State) (t : Nat) (i' : Nat) : (s.wakeBank t).span i' = s.span i' := (wakeBank_only s t).span_eq rfl i'
@[simp] theorem wakeBank_fence (s : State) (t : Nat) (i' : Nat) : (s.wakeBank t).fence i' = s.fence i' := (wakeBank_only s t).fence_eq rfl i'
@[simp] theorem wakeBank_pip (s : State) (t : Nat) (i' : Nat) : (s.wakeBank t).pip i' = s.pip i' := (wakeBank_only s t).pip_eq rfl i'
@[simp] theorem wakeBank_rackSet (s : State) (t : Nat) (i' : Nat) : (s.wakeBank t).rackSet i' = s.rackSet i' := (wakeBank_only s t).rackSet_eq rfl i'
@[simp] theorem wakeBank_isReady (s : State) (t : Nat) : (s.wakeBank t).isReady = s.isReady := (wakeBank_only s t).isReady_eq rfl
@[simp] theorem wakeBank_domClass (s : State) (t : Nat) (d' : Nat) : (s.wakeBank t).domClass d' = s.domClass d' := (wakeBank_only s t).domClass_eq rfl d'
@[simp] theorem wakeBank_fenceable (s : State) (t : Nat) (d' : Nat) : (s.wakeBank t).fenceable d' = s.fenceable d' := (wakeBank_only s t).fenceable_eq rfl rfl d'
@[simp] theorem wakeBank_tilePresent (s : State) (t : Nat) (k' : Nat) : (s.wakeBank t).tilePresent k' = s.tilePresent k' := (wakeBank_only s t).tilePresent_eq rfl rfl k'
@[simp] theorem wakeBank_domActive (s : State) (t : Nat) (d' : Nat) : (s.wakeBank t).domActive d' = s.domActive d' := (wakeBank_only s t).domActive_eq rfl d'
@[simp] theorem wakeBank_tileActive (s : State) (t : Nat) (d' : Nat) : (s.wakeBank t).tileActive d' = s.tileActive d' := (wakeBank_only s t).tileActive_eq rfl d'
@[simp] theorem wakeBank_tileRuns (s : State) (t : Nat) (d' : Nat) : (s.wakeBank t).tileRuns d' = s.tileRuns d' := (wakeBank_only s t).tileRuns_eq rfl d'
@[simp] theorem wakeBank_right (s : State) (t : Nat) (m' : Nat) (tg' : Target) : (s.wakeBank t).right m' tg' = s.right m' tg' := (wakeBank_only s t).right_eq rfl rfl rfl m' tg'
@[simp] theorem wakeBank_has (s : State) (t : Nat) (m' : Nat) (tg' : Target) (r' : Right) : (s.wakeBank t).has m' tg' r' = s.has m' tg' r' := (wakeBank_only s t).has_eq rfl rfl rfl m' tg' r'
@[simp] theorem wakeBank_pipRight (s : State) (t : Nat) (m' n' : Nat) : (s.wakeBank t).pipRight m' n' = s.pipRight m' n' := (wakeBank_only s t).pipRight_eq rfl rfl rfl rfl m' n'
@[simp] theorem wakeBank_ldOfRack (s : State) (t : Nat) (r' : Nat) : (s.wakeBank t).ldOfRack r' = s.ldOfRack r' := (wakeBank_only s t).ldOfRack_eq rfl r'
@[simp] theorem wakeBank_traceOn (s : State) (t : Nat) : (s.wakeBank t).traceOn = s.traceOn := (wakeBank_only s t).traceOn_eq rfl rfl
@[simp] theorem wakeBank_memAddr (s : State) (t : Nat) (a' : Nat) : (s.wakeBank t).memAddr a' = s.memAddr a' := (wakeBank_only s t).memAddr_eq rfl a'
@[simp] theorem wakeBank_lockstep (s : State) (t : Nat) (c' : Nat) : (s.wakeBank t).lockstep c' = s.lockstep c' := (wakeBank_only s t).lockstep_eq rfl c'

/-! ### hostWake -/

theorem hostWake_only (s : State) (m : Nat) : OnlyM 0x20400 s (s.hostWake m) := only_hostWake (OnlyM.refl _ s) rfl

@[simp] theorem hostWake_pkg (s : State) (m : Nat) : (s.hostWake m).pkg = s.pkg := (hostWake_only s m).pkg_eq rfl
@[simp] theorem hostWake_fuses (s : State) (m : Nat) : (s.hostWake m).fuses = s.fuses := (hostWake_only s m).fuses_eq rfl
@[simp] theorem hostWake_mem (s : State) (m : Nat) : (s.hostWake m).mem = s.mem := (hostWake_only s m).mem_eq rfl
@[simp] theorem hostWake_freeCtr (s : State) (m : Nat) : (s.hostWake m).freeCtr = s.freeCtr := (hostWake_only s m).freeCtr_eq rfl
@[simp] theorem hostWake_pending (s : State) (m : Nat) : (s.hostWake m).pending = s.pending := (hostWake_only s m).pending_eq rfl
@[simp] theorem hostWake_pips (s : State) (m : Nat) : (s.hostWake m).pips = s.pips := (hostWake_only s m).pips_eq rfl
@[simp] theorem hostWake_pool (s : State) (m : Nat) : (s.hostWake m).pool = s.pool := (hostWake_only s m).pool_eq rfl
@[simp] theorem hostWake_wall (s : State) (m : Nat) : (s.hostWake m).aon.wall = s.aon.wall := (hostWake_only s m).wall_eq rfl
@[simp] theorem hostWake_lds (s : State) (m : Nat) : (s.hostWake m).hub.lds = s.hub.lds := (hostWake_only s m).lds_eq rfl
@[simp] theorem hostWake_executing (s : State) (m : Nat) : (s.hostWake m).hub.executing = s.hub.executing := (hostWake_only s m).executing_eq rfl
@[simp] theorem hostWake_failedHeads (s : State) (m : Nat) : (s.hostWake m).hub.failedHeads = s.hub.failedHeads := (hostWake_only s m).failedHeads_eq rfl
@[simp] theorem hostWake_epoch (s : State) (m : Nat) : (s.hostWake m).hub.epoch = s.hub.epoch := (hostWake_only s m).epoch_eq rfl
@[simp] theorem hostWake_lockIn (s : State) (m : Nat) : (s.hostWake m).hub.lockIn = s.hub.lockIn := (hostWake_only s m).lockIn_eq rfl
@[simp] theorem hostWake_worlds (s : State) (m : Nat) : (s.hostWake m).tmp.worlds = s.tmp.worlds := (hostWake_only s m).worlds_eq rfl
@[simp] theorem hostWake_slots (s : State) (m : Nat) : (s.hostWake m).tmp.slots = s.tmp.slots := (hostWake_only s m).slots_eq rfl
@[simp] theorem hostWake_subs (s : State) (m : Nat) : (s.hostWake m).tmp.subs = s.tmp.subs := (hostWake_only s m).subs_eq rfl
@[simp] theorem hostWake_inbox (s : State) (m : Nat) : (s.hostWake m).fab.inbox = s.fab.inbox := (hostWake_only s m).inbox_eq rfl
@[simp] theorem hostWake_spans (s : State) (m : Nat) : (s.hostWake m).fab.spans = s.fab.spans := (hostWake_only s m).spans_eq rfl
@[simp] theorem hostWake_mail (s : State) (m : Nat) : (s.hostWake m).fab.mail = s.fab.mail := (hostWake_only s m).mail_eq rfl
@[simp] theorem hostWake_phase (s : State) (m : Nat) : (s.hostWake m).aon.phase = s.aon.phase := (hostWake_only s m).phase_eq rfl
@[simp] theorem hostWake_dispatchOff (s : State) (m : Nat) : (s.hostWake m).pwr.dispatchOff = s.pwr.dispatchOff := (hostWake_only s m).dispatchOff_eq rfl
@[simp] theorem hostWake_hubP (s : State) (m : Nat) : (s.hostWake m).hub.p = s.hub.p := (hostWake_only s m).hubP_eq rfl
@[simp] theorem hostWake_sets (s : State) (m : Nat) : (s.hostWake m).racks.sets = s.racks.sets := (hostWake_only s m).sets_eq rfl
@[simp] theorem hostWake_bootSt (s : State) (m : Nat) : (s.hostWake m).boot.st = s.boot.st := (hostWake_only s m).bootSt_eq rfl
@[simp] theorem hostWake_bootPhase (s : State) (m : Nat) : (s.hostWake m).boot.phase = s.boot.phase := (hostWake_only s m).bootPhase_eq rfl
@[simp] theorem hostWake_chartersValid (s : State) (m : Nat) : (s.hostWake m).boot.chartersValid = s.boot.chartersValid := (hostWake_only s m).chartersValid_eq rfl
@[simp] theorem hostWake_amending (s : State) (m : Nat) : (s.hostWake m).boot.amending = s.boot.amending := (hostWake_only s m).amending_eq rfl
@[simp] theorem hostWake_stwReset (s : State) (m : Nat) : (s.hostWake m).flt.stwReset = s.flt.stwReset := (hostWake_only s m).stwReset_eq rfl
@[simp] theorem hostWake_trcSt (s : State) (m : Nat) : (s.hostWake m).trc.st = s.trc.st := (hostWake_only s m).trcSt_eq rfl
@[simp] theorem hostWake_trcOwner (s : State) (m : Nat) : (s.hostWake m).trc.owner = s.trc.owner := (hostWake_only s m).trcOwner_eq rfl
@[simp] theorem hostWake_tile (s : State) (m : Nat) (i' : Nat) : (s.hostWake m).tile i' = s.tile i' := (hostWake_only s m).tile_eq rfl i'
@[simp] theorem hostWake_port (s : State) (m : Nat) (i' : Nat) : (s.hostWake m).port i' = s.port i' := (hostWake_only s m).port_eq rfl i'
@[simp] theorem hostWake_world (s : State) (m : Nat) (i' : Nat) : (s.hostWake m).world i' = s.world i' := (hostWake_only s m).world_eq rfl i'
@[simp] theorem hostWake_rack (s : State) (m : Nat) (i' : Nat) : (s.hostWake m).rack i' = s.rack i' := (hostWake_only s m).rack_eq rfl i'
@[simp] theorem hostWake_ld (s : State) (m : Nat) (i' : Nat) : (s.hostWake m).ld i' = s.ld i' := (hostWake_only s m).ld_eq rfl i'
@[simp] theorem hostWake_link (s : State) (m : Nat) (i' : Nat) : (s.hostWake m).link i' = s.link i' := (hostWake_only s m).link_eq rfl i'
@[simp] theorem hostWake_master (s : State) (m : Nat) (i' : Nat) : (s.hostWake m).master i' = s.master i' := (hostWake_only s m).master_eq rfl i'
@[simp] theorem hostWake_span (s : State) (m : Nat) (i' : Nat) : (s.hostWake m).span i' = s.span i' := (hostWake_only s m).span_eq rfl i'
@[simp] theorem hostWake_fence (s : State) (m : Nat) (i' : Nat) : (s.hostWake m).fence i' = s.fence i' := (hostWake_only s m).fence_eq rfl i'
@[simp] theorem hostWake_pip (s : State) (m : Nat) (i' : Nat) : (s.hostWake m).pip i' = s.pip i' := (hostWake_only s m).pip_eq rfl i'
@[simp] theorem hostWake_rackSet (s : State) (m : Nat) (i' : Nat) : (s.hostWake m).rackSet i' = s.rackSet i' := (hostWake_only s m).rackSet_eq rfl i'
@[simp] theorem hostWake_isReady (s : State) (m : Nat) : (s.hostWake m).isReady = s.isReady := (hostWake_only s m).isReady_eq rfl
@[simp] theorem hostWake_domClass (s : State) (m : Nat) (d' : Nat) : (s.hostWake m).domClass d' = s.domClass d' := (hostWake_only s m).domClass_eq rfl d'
@[simp] theorem hostWake_fenceable (s : State) (m : Nat) (d' : Nat) : (s.hostWake m).fenceable d' = s.fenceable d' := (hostWake_only s m).fenceable_eq rfl rfl d'
@[simp] theorem hostWake_tilePresent (s : State) (m : Nat) (k' : Nat) : (s.hostWake m).tilePresent k' = s.tilePresent k' := (hostWake_only s m).tilePresent_eq rfl rfl k'
@[simp] theorem hostWake_domActive (s : State) (m : Nat) (d' : Nat) : (s.hostWake m).domActive d' = s.domActive d' := (hostWake_only s m).domActive_eq rfl d'
@[simp] theorem hostWake_tileActive (s : State) (m : Nat) (d' : Nat) : (s.hostWake m).tileActive d' = s.tileActive d' := (hostWake_only s m).tileActive_eq rfl d'
@[simp] theorem hostWake_tileRuns (s : State) (m : Nat) (d' : Nat) : (s.hostWake m).tileRuns d' = s.tileRuns d' := (hostWake_only s m).tileRuns_eq rfl d'
@[simp] theorem hostWake_right (s : State) (m : Nat) (m' : Nat) (tg' : Target) : (s.hostWake m).right m' tg' = s.right m' tg' := (hostWake_only s m).right_eq rfl rfl rfl m' tg'
@[simp] theorem hostWake_has (s : State) (m : Nat) (m' : Nat) (tg' : Target) (r' : Right) : (s.hostWake m).has m' tg' r' = s.has m' tg' r' := (hostWake_only s m).has_eq rfl rfl rfl m' tg' r'
@[simp] theorem hostWake_pipRight (s : State) (m : Nat) (m' n' : Nat) : (s.hostWake m).pipRight m' n' = s.pipRight m' n' := (hostWake_only s m).pipRight_eq rfl rfl rfl rfl m' n'
@[simp] theorem hostWake_ldOfRack (s : State) (m : Nat) (r' : Nat) : (s.hostWake m).ldOfRack r' = s.ldOfRack r' := (hostWake_only s m).ldOfRack_eq rfl r'
@[simp] theorem hostWake_traceOn (s : State) (m : Nat) : (s.hostWake m).traceOn = s.traceOn := (hostWake_only s m).traceOn_eq rfl rfl
@[simp] theorem hostWake_memAddr (s : State) (m : Nat) (a' : Nat) : (s.hostWake m).memAddr a' = s.memAddr a' := (hostWake_only s m).memAddr_eq rfl a'
@[simp] theorem hostWake_lockstep (s : State) (m : Nat) (c' : Nat) : (s.hostWake m).lockstep c' = s.lockstep c' := (hostWake_only s m).lockstep_eq rfl c'

/-! ### respond -/

theorem respond_only (s : State) (m : Nat) (ws : List DWord) : OnlyM 0x420400 s (s.respond m ws) := only_respond (OnlyM.refl _ s) rfl

@[simp] theorem respond_pkg (s : State) (m : Nat) (ws : List DWord) : (s.respond m ws).pkg = s.pkg := (respond_only s m ws).pkg_eq rfl
@[simp] theorem respond_fuses (s : State) (m : Nat) (ws : List DWord) : (s.respond m ws).fuses = s.fuses := (respond_only s m ws).fuses_eq rfl
@[simp] theorem respond_mem (s : State) (m : Nat) (ws : List DWord) : (s.respond m ws).mem = s.mem := (respond_only s m ws).mem_eq rfl
@[simp] theorem respond_freeCtr (s : State) (m : Nat) (ws : List DWord) : (s.respond m ws).freeCtr = s.freeCtr := (respond_only s m ws).freeCtr_eq rfl
@[simp] theorem respond_pending (s : State) (m : Nat) (ws : List DWord) : (s.respond m ws).pending = s.pending := (respond_only s m ws).pending_eq rfl
@[simp] theorem respond_pips (s : State) (m : Nat) (ws : List DWord) : (s.respond m ws).pips = s.pips := (respond_only s m ws).pips_eq rfl
@[simp] theorem respond_pool (s : State) (m : Nat) (ws : List DWord) : (s.respond m ws).pool = s.pool := (respond_only s m ws).pool_eq rfl
@[simp] theorem respond_wall (s : State) (m : Nat) (ws : List DWord) : (s.respond m ws).aon.wall = s.aon.wall := (respond_only s m ws).wall_eq rfl
@[simp] theorem respond_lds (s : State) (m : Nat) (ws : List DWord) : (s.respond m ws).hub.lds = s.hub.lds := (respond_only s m ws).lds_eq rfl
@[simp] theorem respond_executing (s : State) (m : Nat) (ws : List DWord) : (s.respond m ws).hub.executing = s.hub.executing := (respond_only s m ws).executing_eq rfl
@[simp] theorem respond_failedHeads (s : State) (m : Nat) (ws : List DWord) : (s.respond m ws).hub.failedHeads = s.hub.failedHeads := (respond_only s m ws).failedHeads_eq rfl
@[simp] theorem respond_epoch (s : State) (m : Nat) (ws : List DWord) : (s.respond m ws).hub.epoch = s.hub.epoch := (respond_only s m ws).epoch_eq rfl
@[simp] theorem respond_lockIn (s : State) (m : Nat) (ws : List DWord) : (s.respond m ws).hub.lockIn = s.hub.lockIn := (respond_only s m ws).lockIn_eq rfl
@[simp] theorem respond_worlds (s : State) (m : Nat) (ws : List DWord) : (s.respond m ws).tmp.worlds = s.tmp.worlds := (respond_only s m ws).worlds_eq rfl
@[simp] theorem respond_slots (s : State) (m : Nat) (ws : List DWord) : (s.respond m ws).tmp.slots = s.tmp.slots := (respond_only s m ws).slots_eq rfl
@[simp] theorem respond_subs (s : State) (m : Nat) (ws : List DWord) : (s.respond m ws).tmp.subs = s.tmp.subs := (respond_only s m ws).subs_eq rfl
@[simp] theorem respond_inbox (s : State) (m : Nat) (ws : List DWord) : (s.respond m ws).fab.inbox = s.fab.inbox := (respond_only s m ws).inbox_eq rfl
@[simp] theorem respond_spans (s : State) (m : Nat) (ws : List DWord) : (s.respond m ws).fab.spans = s.fab.spans := (respond_only s m ws).spans_eq rfl
@[simp] theorem respond_mail (s : State) (m : Nat) (ws : List DWord) : (s.respond m ws).fab.mail = s.fab.mail := (respond_only s m ws).mail_eq rfl
@[simp] theorem respond_phase (s : State) (m : Nat) (ws : List DWord) : (s.respond m ws).aon.phase = s.aon.phase := (respond_only s m ws).phase_eq rfl
@[simp] theorem respond_dispatchOff (s : State) (m : Nat) (ws : List DWord) : (s.respond m ws).pwr.dispatchOff = s.pwr.dispatchOff := (respond_only s m ws).dispatchOff_eq rfl
@[simp] theorem respond_hubP (s : State) (m : Nat) (ws : List DWord) : (s.respond m ws).hub.p = s.hub.p := (respond_only s m ws).hubP_eq rfl
@[simp] theorem respond_sets (s : State) (m : Nat) (ws : List DWord) : (s.respond m ws).racks.sets = s.racks.sets := (respond_only s m ws).sets_eq rfl
@[simp] theorem respond_bootSt (s : State) (m : Nat) (ws : List DWord) : (s.respond m ws).boot.st = s.boot.st := (respond_only s m ws).bootSt_eq rfl
@[simp] theorem respond_bootPhase (s : State) (m : Nat) (ws : List DWord) : (s.respond m ws).boot.phase = s.boot.phase := (respond_only s m ws).bootPhase_eq rfl
@[simp] theorem respond_chartersValid (s : State) (m : Nat) (ws : List DWord) : (s.respond m ws).boot.chartersValid = s.boot.chartersValid := (respond_only s m ws).chartersValid_eq rfl
@[simp] theorem respond_amending (s : State) (m : Nat) (ws : List DWord) : (s.respond m ws).boot.amending = s.boot.amending := (respond_only s m ws).amending_eq rfl
@[simp] theorem respond_stwReset (s : State) (m : Nat) (ws : List DWord) : (s.respond m ws).flt.stwReset = s.flt.stwReset := (respond_only s m ws).stwReset_eq rfl
@[simp] theorem respond_trcSt (s : State) (m : Nat) (ws : List DWord) : (s.respond m ws).trc.st = s.trc.st := (respond_only s m ws).trcSt_eq rfl
@[simp] theorem respond_trcOwner (s : State) (m : Nat) (ws : List DWord) : (s.respond m ws).trc.owner = s.trc.owner := (respond_only s m ws).trcOwner_eq rfl
@[simp] theorem respond_tile (s : State) (m : Nat) (ws : List DWord) (i' : Nat) : (s.respond m ws).tile i' = s.tile i' := (respond_only s m ws).tile_eq rfl i'
@[simp] theorem respond_port (s : State) (m : Nat) (ws : List DWord) (i' : Nat) : (s.respond m ws).port i' = s.port i' := (respond_only s m ws).port_eq rfl i'
@[simp] theorem respond_world (s : State) (m : Nat) (ws : List DWord) (i' : Nat) : (s.respond m ws).world i' = s.world i' := (respond_only s m ws).world_eq rfl i'
@[simp] theorem respond_rack (s : State) (m : Nat) (ws : List DWord) (i' : Nat) : (s.respond m ws).rack i' = s.rack i' := (respond_only s m ws).rack_eq rfl i'
@[simp] theorem respond_ld (s : State) (m : Nat) (ws : List DWord) (i' : Nat) : (s.respond m ws).ld i' = s.ld i' := (respond_only s m ws).ld_eq rfl i'
@[simp] theorem respond_link (s : State) (m : Nat) (ws : List DWord) (i' : Nat) : (s.respond m ws).link i' = s.link i' := (respond_only s m ws).link_eq rfl i'
@[simp] theorem respond_span (s : State) (m : Nat) (ws : List DWord) (i' : Nat) : (s.respond m ws).span i' = s.span i' := (respond_only s m ws).span_eq rfl i'
@[simp] theorem respond_fence (s : State) (m : Nat) (ws : List DWord) (i' : Nat) : (s.respond m ws).fence i' = s.fence i' := (respond_only s m ws).fence_eq rfl i'
@[simp] theorem respond_pip (s : State) (m : Nat) (ws : List DWord) (i' : Nat) : (s.respond m ws).pip i' = s.pip i' := (respond_only s m ws).pip_eq rfl i'
@[simp] theorem respond_rackSet (s : State) (m : Nat) (ws : List DWord) (i' : Nat) : (s.respond m ws).rackSet i' = s.rackSet i' := (respond_only s m ws).rackSet_eq rfl i'
@[simp] theorem respond_isReady (s : State) (m : Nat) (ws : List DWord) : (s.respond m ws).isReady = s.isReady := (respond_only s m ws).isReady_eq rfl
@[simp] theorem respond_domClass (s : State) (m : Nat) (ws : List DWord) (d' : Nat) : (s.respond m ws).domClass d' = s.domClass d' := (respond_only s m ws).domClass_eq rfl d'
@[simp] theorem respond_fenceable (s : State) (m : Nat) (ws : List DWord) (d' : Nat) : (s.respond m ws).fenceable d' = s.fenceable d' := (respond_only s m ws).fenceable_eq rfl rfl d'
@[simp] theorem respond_tilePresent (s : State) (m : Nat) (ws : List DWord) (k' : Nat) : (s.respond m ws).tilePresent k' = s.tilePresent k' := (respond_only s m ws).tilePresent_eq rfl rfl k'
@[simp] theorem respond_domActive (s : State) (m : Nat) (ws : List DWord) (d' : Nat) : (s.respond m ws).domActive d' = s.domActive d' := (respond_only s m ws).domActive_eq rfl d'
@[simp] theorem respond_tileActive (s : State) (m : Nat) (ws : List DWord) (d' : Nat) : (s.respond m ws).tileActive d' = s.tileActive d' := (respond_only s m ws).tileActive_eq rfl d'
@[simp] theorem respond_tileRuns (s : State) (m : Nat) (ws : List DWord) (d' : Nat) : (s.respond m ws).tileRuns d' = s.tileRuns d' := (respond_only s m ws).tileRuns_eq rfl d'
@[simp] theorem respond_right (s : State) (m : Nat) (ws : List DWord) (m' : Nat) (tg' : Target) : (s.respond m ws).right m' tg' = s.right m' tg' := (respond_only s m ws).right_eq rfl rfl rfl m' tg'
@[simp] theorem respond_has (s : State) (m : Nat) (ws : List DWord) (m' : Nat) (tg' : Target) (r' : Right) : (s.respond m ws).has m' tg' r' = s.has m' tg' r' := (respond_only s m ws).has_eq rfl rfl rfl m' tg' r'
@[simp] theorem respond_pipRight (s : State) (m : Nat) (ws : List DWord) (m' n' : Nat) : (s.respond m ws).pipRight m' n' = s.pipRight m' n' := (respond_only s m ws).pipRight_eq rfl rfl rfl rfl m' n'
@[simp] theorem respond_ldOfRack (s : State) (m : Nat) (ws : List DWord) (r' : Nat) : (s.respond m ws).ldOfRack r' = s.ldOfRack r' := (respond_only s m ws).ldOfRack_eq rfl r'
@[simp] theorem respond_traceOn (s : State) (m : Nat) (ws : List DWord) : (s.respond m ws).traceOn = s.traceOn := (respond_only s m ws).traceOn_eq rfl rfl
@[simp] theorem respond_memAddr (s : State) (m : Nat) (ws : List DWord) (a' : Nat) : (s.respond m ws).memAddr a' = s.memAddr a' := (respond_only s m ws).memAddr_eq rfl a'
@[simp] theorem respond_lockstep (s : State) (m : Nat) (ws : List DWord) (c' : Nat) : (s.respond m ws).lockstep c' = s.lockstep c' := (respond_only s m ws).lockstep_eq rfl c'

/-! ### refuse -/

theorem refuse_only (s : State) (m : Nat) (bar2 : Bool) (off : Nat) (c : Code) (isRead : Bool) : OnlyM 0x420400 s (s.refuse m bar2 off c isRead) := only_refuse (OnlyM.refl _ s) rfl

@[simp] theorem refuse_pkg (s : State) (m : Nat) (bar2 : Bool) (off : Nat) (c : Code) (isRead : Bool) : (s.refuse m bar2 off c isRead).pkg = s.pkg := (refuse_only s m bar2 off c isRead).pkg_eq rfl
@[simp] theorem refuse_fuses (s : State) (m : Nat) (bar2 : Bool) (off : Nat) (c : Code) (isRead : Bool) : (s.refuse m bar2 off c isRead).fuses = s.fuses := (refuse_only s m bar2 off c isRead).fuses_eq rfl
@[simp] theorem refuse_mem (s : State) (m : Nat) (bar2 : Bool) (off : Nat) (c : Code) (isRead : Bool) : (s.refuse m bar2 off c isRead).mem = s.mem := (refuse_only s m bar2 off c isRead).mem_eq rfl
@[simp] theorem refuse_freeCtr (s : State) (m : Nat) (bar2 : Bool) (off : Nat) (c : Code) (isRead : Bool) : (s.refuse m bar2 off c isRead).freeCtr = s.freeCtr := (refuse_only s m bar2 off c isRead).freeCtr_eq rfl
@[simp] theorem refuse_pending (s : State) (m : Nat) (bar2 : Bool) (off : Nat) (c : Code) (isRead : Bool) : (s.refuse m bar2 off c isRead).pending = s.pending := (refuse_only s m bar2 off c isRead).pending_eq rfl
@[simp] theorem refuse_pips (s : State) (m : Nat) (bar2 : Bool) (off : Nat) (c : Code) (isRead : Bool) : (s.refuse m bar2 off c isRead).pips = s.pips := (refuse_only s m bar2 off c isRead).pips_eq rfl
@[simp] theorem refuse_pool (s : State) (m : Nat) (bar2 : Bool) (off : Nat) (c : Code) (isRead : Bool) : (s.refuse m bar2 off c isRead).pool = s.pool := (refuse_only s m bar2 off c isRead).pool_eq rfl
@[simp] theorem refuse_wall (s : State) (m : Nat) (bar2 : Bool) (off : Nat) (c : Code) (isRead : Bool) : (s.refuse m bar2 off c isRead).aon.wall = s.aon.wall := (refuse_only s m bar2 off c isRead).wall_eq rfl
@[simp] theorem refuse_lds (s : State) (m : Nat) (bar2 : Bool) (off : Nat) (c : Code) (isRead : Bool) : (s.refuse m bar2 off c isRead).hub.lds = s.hub.lds := (refuse_only s m bar2 off c isRead).lds_eq rfl
@[simp] theorem refuse_executing (s : State) (m : Nat) (bar2 : Bool) (off : Nat) (c : Code) (isRead : Bool) : (s.refuse m bar2 off c isRead).hub.executing = s.hub.executing := (refuse_only s m bar2 off c isRead).executing_eq rfl
@[simp] theorem refuse_failedHeads (s : State) (m : Nat) (bar2 : Bool) (off : Nat) (c : Code) (isRead : Bool) : (s.refuse m bar2 off c isRead).hub.failedHeads = s.hub.failedHeads := (refuse_only s m bar2 off c isRead).failedHeads_eq rfl
@[simp] theorem refuse_epoch (s : State) (m : Nat) (bar2 : Bool) (off : Nat) (c : Code) (isRead : Bool) : (s.refuse m bar2 off c isRead).hub.epoch = s.hub.epoch := (refuse_only s m bar2 off c isRead).epoch_eq rfl
@[simp] theorem refuse_lockIn (s : State) (m : Nat) (bar2 : Bool) (off : Nat) (c : Code) (isRead : Bool) : (s.refuse m bar2 off c isRead).hub.lockIn = s.hub.lockIn := (refuse_only s m bar2 off c isRead).lockIn_eq rfl
@[simp] theorem refuse_worlds (s : State) (m : Nat) (bar2 : Bool) (off : Nat) (c : Code) (isRead : Bool) : (s.refuse m bar2 off c isRead).tmp.worlds = s.tmp.worlds := (refuse_only s m bar2 off c isRead).worlds_eq rfl
@[simp] theorem refuse_slots (s : State) (m : Nat) (bar2 : Bool) (off : Nat) (c : Code) (isRead : Bool) : (s.refuse m bar2 off c isRead).tmp.slots = s.tmp.slots := (refuse_only s m bar2 off c isRead).slots_eq rfl
@[simp] theorem refuse_subs (s : State) (m : Nat) (bar2 : Bool) (off : Nat) (c : Code) (isRead : Bool) : (s.refuse m bar2 off c isRead).tmp.subs = s.tmp.subs := (refuse_only s m bar2 off c isRead).subs_eq rfl
@[simp] theorem refuse_inbox (s : State) (m : Nat) (bar2 : Bool) (off : Nat) (c : Code) (isRead : Bool) : (s.refuse m bar2 off c isRead).fab.inbox = s.fab.inbox := (refuse_only s m bar2 off c isRead).inbox_eq rfl
@[simp] theorem refuse_spans (s : State) (m : Nat) (bar2 : Bool) (off : Nat) (c : Code) (isRead : Bool) : (s.refuse m bar2 off c isRead).fab.spans = s.fab.spans := (refuse_only s m bar2 off c isRead).spans_eq rfl
@[simp] theorem refuse_mail (s : State) (m : Nat) (bar2 : Bool) (off : Nat) (c : Code) (isRead : Bool) : (s.refuse m bar2 off c isRead).fab.mail = s.fab.mail := (refuse_only s m bar2 off c isRead).mail_eq rfl
@[simp] theorem refuse_phase (s : State) (m : Nat) (bar2 : Bool) (off : Nat) (c : Code) (isRead : Bool) : (s.refuse m bar2 off c isRead).aon.phase = s.aon.phase := (refuse_only s m bar2 off c isRead).phase_eq rfl
@[simp] theorem refuse_dispatchOff (s : State) (m : Nat) (bar2 : Bool) (off : Nat) (c : Code) (isRead : Bool) : (s.refuse m bar2 off c isRead).pwr.dispatchOff = s.pwr.dispatchOff := (refuse_only s m bar2 off c isRead).dispatchOff_eq rfl
@[simp] theorem refuse_hubP (s : State) (m : Nat) (bar2 : Bool) (off : Nat) (c : Code) (isRead : Bool) : (s.refuse m bar2 off c isRead).hub.p = s.hub.p := (refuse_only s m bar2 off c isRead).hubP_eq rfl
@[simp] theorem refuse_sets (s : State) (m : Nat) (bar2 : Bool) (off : Nat) (c : Code) (isRead : Bool) : (s.refuse m bar2 off c isRead).racks.sets = s.racks.sets := (refuse_only s m bar2 off c isRead).sets_eq rfl
@[simp] theorem refuse_bootSt (s : State) (m : Nat) (bar2 : Bool) (off : Nat) (c : Code) (isRead : Bool) : (s.refuse m bar2 off c isRead).boot.st = s.boot.st := (refuse_only s m bar2 off c isRead).bootSt_eq rfl
@[simp] theorem refuse_bootPhase (s : State) (m : Nat) (bar2 : Bool) (off : Nat) (c : Code) (isRead : Bool) : (s.refuse m bar2 off c isRead).boot.phase = s.boot.phase := (refuse_only s m bar2 off c isRead).bootPhase_eq rfl
@[simp] theorem refuse_chartersValid (s : State) (m : Nat) (bar2 : Bool) (off : Nat) (c : Code) (isRead : Bool) : (s.refuse m bar2 off c isRead).boot.chartersValid = s.boot.chartersValid := (refuse_only s m bar2 off c isRead).chartersValid_eq rfl
@[simp] theorem refuse_amending (s : State) (m : Nat) (bar2 : Bool) (off : Nat) (c : Code) (isRead : Bool) : (s.refuse m bar2 off c isRead).boot.amending = s.boot.amending := (refuse_only s m bar2 off c isRead).amending_eq rfl
@[simp] theorem refuse_stwReset (s : State) (m : Nat) (bar2 : Bool) (off : Nat) (c : Code) (isRead : Bool) : (s.refuse m bar2 off c isRead).flt.stwReset = s.flt.stwReset := (refuse_only s m bar2 off c isRead).stwReset_eq rfl
@[simp] theorem refuse_trcSt (s : State) (m : Nat) (bar2 : Bool) (off : Nat) (c : Code) (isRead : Bool) : (s.refuse m bar2 off c isRead).trc.st = s.trc.st := (refuse_only s m bar2 off c isRead).trcSt_eq rfl
@[simp] theorem refuse_trcOwner (s : State) (m : Nat) (bar2 : Bool) (off : Nat) (c : Code) (isRead : Bool) : (s.refuse m bar2 off c isRead).trc.owner = s.trc.owner := (refuse_only s m bar2 off c isRead).trcOwner_eq rfl
@[simp] theorem refuse_tile (s : State) (m : Nat) (bar2 : Bool) (off : Nat) (c : Code) (isRead : Bool) (i' : Nat) : (s.refuse m bar2 off c isRead).tile i' = s.tile i' := (refuse_only s m bar2 off c isRead).tile_eq rfl i'
@[simp] theorem refuse_port (s : State) (m : Nat) (bar2 : Bool) (off : Nat) (c : Code) (isRead : Bool) (i' : Nat) : (s.refuse m bar2 off c isRead).port i' = s.port i' := (refuse_only s m bar2 off c isRead).port_eq rfl i'
@[simp] theorem refuse_world (s : State) (m : Nat) (bar2 : Bool) (off : Nat) (c : Code) (isRead : Bool) (i' : Nat) : (s.refuse m bar2 off c isRead).world i' = s.world i' := (refuse_only s m bar2 off c isRead).world_eq rfl i'
@[simp] theorem refuse_rack (s : State) (m : Nat) (bar2 : Bool) (off : Nat) (c : Code) (isRead : Bool) (i' : Nat) : (s.refuse m bar2 off c isRead).rack i' = s.rack i' := (refuse_only s m bar2 off c isRead).rack_eq rfl i'
@[simp] theorem refuse_ld (s : State) (m : Nat) (bar2 : Bool) (off : Nat) (c : Code) (isRead : Bool) (i' : Nat) : (s.refuse m bar2 off c isRead).ld i' = s.ld i' := (refuse_only s m bar2 off c isRead).ld_eq rfl i'
@[simp] theorem refuse_link (s : State) (m : Nat) (bar2 : Bool) (off : Nat) (c : Code) (isRead : Bool) (i' : Nat) : (s.refuse m bar2 off c isRead).link i' = s.link i' := (refuse_only s m bar2 off c isRead).link_eq rfl i'
@[simp] theorem refuse_span (s : State) (m : Nat) (bar2 : Bool) (off : Nat) (c : Code) (isRead : Bool) (i' : Nat) : (s.refuse m bar2 off c isRead).span i' = s.span i' := (refuse_only s m bar2 off c isRead).span_eq rfl i'
@[simp] theorem refuse_fence (s : State) (m : Nat) (bar2 : Bool) (off : Nat) (c : Code) (isRead : Bool) (i' : Nat) : (s.refuse m bar2 off c isRead).fence i' = s.fence i' := (refuse_only s m bar2 off c isRead).fence_eq rfl i'
@[simp] theorem refuse_pip (s : State) (m : Nat) (bar2 : Bool) (off : Nat) (c : Code) (isRead : Bool) (i' : Nat) : (s.refuse m bar2 off c isRead).pip i' = s.pip i' := (refuse_only s m bar2 off c isRead).pip_eq rfl i'
@[simp] theorem refuse_rackSet (s : State) (m : Nat) (bar2 : Bool) (off : Nat) (c : Code) (isRead : Bool) (i' : Nat) : (s.refuse m bar2 off c isRead).rackSet i' = s.rackSet i' := (refuse_only s m bar2 off c isRead).rackSet_eq rfl i'
@[simp] theorem refuse_isReady (s : State) (m : Nat) (bar2 : Bool) (off : Nat) (c : Code) (isRead : Bool) : (s.refuse m bar2 off c isRead).isReady = s.isReady := (refuse_only s m bar2 off c isRead).isReady_eq rfl
@[simp] theorem refuse_domClass (s : State) (m : Nat) (bar2 : Bool) (off : Nat) (c : Code) (isRead : Bool) (d' : Nat) : (s.refuse m bar2 off c isRead).domClass d' = s.domClass d' := (refuse_only s m bar2 off c isRead).domClass_eq rfl d'
@[simp] theorem refuse_fenceable (s : State) (m : Nat) (bar2 : Bool) (off : Nat) (c : Code) (isRead : Bool) (d' : Nat) : (s.refuse m bar2 off c isRead).fenceable d' = s.fenceable d' := (refuse_only s m bar2 off c isRead).fenceable_eq rfl rfl d'
@[simp] theorem refuse_tilePresent (s : State) (m : Nat) (bar2 : Bool) (off : Nat) (c : Code) (isRead : Bool) (k' : Nat) : (s.refuse m bar2 off c isRead).tilePresent k' = s.tilePresent k' := (refuse_only s m bar2 off c isRead).tilePresent_eq rfl rfl k'
@[simp] theorem refuse_domActive (s : State) (m : Nat) (bar2 : Bool) (off : Nat) (c : Code) (isRead : Bool) (d' : Nat) : (s.refuse m bar2 off c isRead).domActive d' = s.domActive d' := (refuse_only s m bar2 off c isRead).domActive_eq rfl d'
@[simp] theorem refuse_tileActive (s : State) (m : Nat) (bar2 : Bool) (off : Nat) (c : Code) (isRead : Bool) (d' : Nat) : (s.refuse m bar2 off c isRead).tileActive d' = s.tileActive d' := (refuse_only s m bar2 off c isRead).tileActive_eq rfl d'
@[simp] theorem refuse_tileRuns (s : State) (m : Nat) (bar2 : Bool) (off : Nat) (c : Code) (isRead : Bool) (d' : Nat) : (s.refuse m bar2 off c isRead).tileRuns d' = s.tileRuns d' := (refuse_only s m bar2 off c isRead).tileRuns_eq rfl d'
@[simp] theorem refuse_right (s : State) (m : Nat) (bar2 : Bool) (off : Nat) (c : Code) (isRead : Bool) (m' : Nat) (tg' : Target) : (s.refuse m bar2 off c isRead).right m' tg' = s.right m' tg' := (refuse_only s m bar2 off c isRead).right_eq rfl rfl rfl m' tg'
@[simp] theorem refuse_has (s : State) (m : Nat) (bar2 : Bool) (off : Nat) (c : Code) (isRead : Bool) (m' : Nat) (tg' : Target) (r' : Right) : (s.refuse m bar2 off c isRead).has m' tg' r' = s.has m' tg' r' := (refuse_only s m bar2 off c isRead).has_eq rfl rfl rfl m' tg' r'
@[simp] theorem refuse_pipRight (s : State) (m : Nat) (bar2 : Bool) (off : Nat) (c : Code) (isRead : Bool) (m' n' : Nat) : (s.refuse m bar2 off c isRead).pipRight m' n' = s.pipRight m' n' := (refuse_only s m bar2 off c isRead).pipRight_eq rfl rfl rfl rfl m' n'
@[simp] theorem refuse_ldOfRack (s : State) (m : Nat) (bar2 : Bool) (off : Nat) (c : Code) (isRead : Bool) (r' : Nat) : (s.refuse m bar2 off c isRead).ldOfRack r' = s.ldOfRack r' := (refuse_only s m bar2 off c isRead).ldOfRack_eq rfl r'
@[simp] theorem refuse_traceOn (s : State) (m : Nat) (bar2 : Bool) (off : Nat) (c : Code) (isRead : Bool) : (s.refuse m bar2 off c isRead).traceOn = s.traceOn := (refuse_only s m bar2 off c isRead).traceOn_eq rfl rfl
@[simp] theorem refuse_memAddr (s : State) (m : Nat) (bar2 : Bool) (off : Nat) (c : Code) (isRead : Bool) (a' : Nat) : (s.refuse m bar2 off c isRead).memAddr a' = s.memAddr a' := (refuse_only s m bar2 off c isRead).memAddr_eq rfl a'
@[simp] theorem refuse_lockstep (s : State) (m : Nat) (bar2 : Bool) (off : Nat) (c : Code) (isRead : Bool) (c' : Nat) : (s.refuse m bar2 off c isRead).lockstep c' = s.lockstep c' := (refuse_only s m bar2 off c isRead).lockstep_eq rfl c'

/-! ### traceTile -/

theorem traceTile_only (s : State) (t kind stamp w : Nat) (wv : Bool) (a : Nat) (payload : List Nat) : OnlyM 0x400000000000008 s (s.traceTile t kind stamp w wv a payload) := only_traceTile (OnlyM.refl _ s) rfl

@[simp] theorem traceTile_pkg (s : State) (t kind stamp w : Nat) (wv : Bool) (a : Nat) (payload : List Nat) : (s.traceTile t kind stamp w wv a payload).pkg = s.pkg := (traceTile_only s t kind stamp w wv a payload).pkg_eq rfl
@[simp] theorem traceTile_fuses (s : State) (t kind stamp w : Nat) (wv : Bool) (a : Nat) (payload : List Nat) : (s.traceTile t kind stamp w wv a payload).fuses = s.fuses := (traceTile_only s t kind stamp w wv a payload).fuses_eq rfl
@[simp] theorem traceTile_mem (s : State) (t kind stamp w : Nat) (wv : Bool) (a : Nat) (payload : List Nat) : (s.traceTile t kind stamp w wv a payload).mem = s.mem := (traceTile_only s t kind stamp w wv a payload).mem_eq rfl
@[simp] theorem traceTile_freeCtr (s : State) (t kind stamp w : Nat) (wv : Bool) (a : Nat) (payload : List Nat) : (s.traceTile t kind stamp w wv a payload).freeCtr = s.freeCtr := (traceTile_only s t kind stamp w wv a payload).freeCtr_eq rfl
@[simp] theorem traceTile_pending (s : State) (t kind stamp w : Nat) (wv : Bool) (a : Nat) (payload : List Nat) : (s.traceTile t kind stamp w wv a payload).pending = s.pending := (traceTile_only s t kind stamp w wv a payload).pending_eq rfl
@[simp] theorem traceTile_pips (s : State) (t kind stamp w : Nat) (wv : Bool) (a : Nat) (payload : List Nat) : (s.traceTile t kind stamp w wv a payload).pips = s.pips := (traceTile_only s t kind stamp w wv a payload).pips_eq rfl
@[simp] theorem traceTile_pool (s : State) (t kind stamp w : Nat) (wv : Bool) (a : Nat) (payload : List Nat) : (s.traceTile t kind stamp w wv a payload).pool = s.pool := (traceTile_only s t kind stamp w wv a payload).pool_eq rfl
@[simp] theorem traceTile_wall (s : State) (t kind stamp w : Nat) (wv : Bool) (a : Nat) (payload : List Nat) : (s.traceTile t kind stamp w wv a payload).aon.wall = s.aon.wall := (traceTile_only s t kind stamp w wv a payload).wall_eq rfl
@[simp] theorem traceTile_doms (s : State) (t kind stamp w : Nat) (wv : Bool) (a : Nat) (payload : List Nat) : (s.traceTile t kind stamp w wv a payload).pwr.doms = s.pwr.doms := (traceTile_only s t kind stamp w wv a payload).doms_eq rfl
@[simp] theorem traceTile_lds (s : State) (t kind stamp w : Nat) (wv : Bool) (a : Nat) (payload : List Nat) : (s.traceTile t kind stamp w wv a payload).hub.lds = s.hub.lds := (traceTile_only s t kind stamp w wv a payload).lds_eq rfl
@[simp] theorem traceTile_executing (s : State) (t kind stamp w : Nat) (wv : Bool) (a : Nat) (payload : List Nat) : (s.traceTile t kind stamp w wv a payload).hub.executing = s.hub.executing := (traceTile_only s t kind stamp w wv a payload).executing_eq rfl
@[simp] theorem traceTile_failedHeads (s : State) (t kind stamp w : Nat) (wv : Bool) (a : Nat) (payload : List Nat) : (s.traceTile t kind stamp w wv a payload).hub.failedHeads = s.hub.failedHeads := (traceTile_only s t kind stamp w wv a payload).failedHeads_eq rfl
@[simp] theorem traceTile_epoch (s : State) (t kind stamp w : Nat) (wv : Bool) (a : Nat) (payload : List Nat) : (s.traceTile t kind stamp w wv a payload).hub.epoch = s.hub.epoch := (traceTile_only s t kind stamp w wv a payload).epoch_eq rfl
@[simp] theorem traceTile_lockIn (s : State) (t kind stamp w : Nat) (wv : Bool) (a : Nat) (payload : List Nat) : (s.traceTile t kind stamp w wv a payload).hub.lockIn = s.hub.lockIn := (traceTile_only s t kind stamp w wv a payload).lockIn_eq rfl
@[simp] theorem traceTile_worlds (s : State) (t kind stamp w : Nat) (wv : Bool) (a : Nat) (payload : List Nat) : (s.traceTile t kind stamp w wv a payload).tmp.worlds = s.tmp.worlds := (traceTile_only s t kind stamp w wv a payload).worlds_eq rfl
@[simp] theorem traceTile_slots (s : State) (t kind stamp w : Nat) (wv : Bool) (a : Nat) (payload : List Nat) : (s.traceTile t kind stamp w wv a payload).tmp.slots = s.tmp.slots := (traceTile_only s t kind stamp w wv a payload).slots_eq rfl
@[simp] theorem traceTile_subs (s : State) (t kind stamp w : Nat) (wv : Bool) (a : Nat) (payload : List Nat) : (s.traceTile t kind stamp w wv a payload).tmp.subs = s.tmp.subs := (traceTile_only s t kind stamp w wv a payload).subs_eq rfl
@[simp] theorem traceTile_inbox (s : State) (t kind stamp w : Nat) (wv : Bool) (a : Nat) (payload : List Nat) : (s.traceTile t kind stamp w wv a payload).fab.inbox = s.fab.inbox := (traceTile_only s t kind stamp w wv a payload).inbox_eq rfl
@[simp] theorem traceTile_spans (s : State) (t kind stamp w : Nat) (wv : Bool) (a : Nat) (payload : List Nat) : (s.traceTile t kind stamp w wv a payload).fab.spans = s.fab.spans := (traceTile_only s t kind stamp w wv a payload).spans_eq rfl
@[simp] theorem traceTile_mail (s : State) (t kind stamp w : Nat) (wv : Bool) (a : Nat) (payload : List Nat) : (s.traceTile t kind stamp w wv a payload).fab.mail = s.fab.mail := (traceTile_only s t kind stamp w wv a payload).mail_eq rfl
@[simp] theorem traceTile_phase (s : State) (t kind stamp w : Nat) (wv : Bool) (a : Nat) (payload : List Nat) : (s.traceTile t kind stamp w wv a payload).aon.phase = s.aon.phase := (traceTile_only s t kind stamp w wv a payload).phase_eq rfl
@[simp] theorem traceTile_dispatchOff (s : State) (t kind stamp w : Nat) (wv : Bool) (a : Nat) (payload : List Nat) : (s.traceTile t kind stamp w wv a payload).pwr.dispatchOff = s.pwr.dispatchOff := (traceTile_only s t kind stamp w wv a payload).dispatchOff_eq rfl
@[simp] theorem traceTile_hubP (s : State) (t kind stamp w : Nat) (wv : Bool) (a : Nat) (payload : List Nat) : (s.traceTile t kind stamp w wv a payload).hub.p = s.hub.p := (traceTile_only s t kind stamp w wv a payload).hubP_eq rfl
@[simp] theorem traceTile_sets (s : State) (t kind stamp w : Nat) (wv : Bool) (a : Nat) (payload : List Nat) : (s.traceTile t kind stamp w wv a payload).racks.sets = s.racks.sets := (traceTile_only s t kind stamp w wv a payload).sets_eq rfl
@[simp] theorem traceTile_bootSt (s : State) (t kind stamp w : Nat) (wv : Bool) (a : Nat) (payload : List Nat) : (s.traceTile t kind stamp w wv a payload).boot.st = s.boot.st := (traceTile_only s t kind stamp w wv a payload).bootSt_eq rfl
@[simp] theorem traceTile_bootPhase (s : State) (t kind stamp w : Nat) (wv : Bool) (a : Nat) (payload : List Nat) : (s.traceTile t kind stamp w wv a payload).boot.phase = s.boot.phase := (traceTile_only s t kind stamp w wv a payload).bootPhase_eq rfl
@[simp] theorem traceTile_chartersValid (s : State) (t kind stamp w : Nat) (wv : Bool) (a : Nat) (payload : List Nat) : (s.traceTile t kind stamp w wv a payload).boot.chartersValid = s.boot.chartersValid := (traceTile_only s t kind stamp w wv a payload).chartersValid_eq rfl
@[simp] theorem traceTile_amending (s : State) (t kind stamp w : Nat) (wv : Bool) (a : Nat) (payload : List Nat) : (s.traceTile t kind stamp w wv a payload).boot.amending = s.boot.amending := (traceTile_only s t kind stamp w wv a payload).amending_eq rfl
@[simp] theorem traceTile_stwReset (s : State) (t kind stamp w : Nat) (wv : Bool) (a : Nat) (payload : List Nat) : (s.traceTile t kind stamp w wv a payload).flt.stwReset = s.flt.stwReset := (traceTile_only s t kind stamp w wv a payload).stwReset_eq rfl
@[simp] theorem traceTile_trcSt (s : State) (t kind stamp w : Nat) (wv : Bool) (a : Nat) (payload : List Nat) : (s.traceTile t kind stamp w wv a payload).trc.st = s.trc.st := (traceTile_only s t kind stamp w wv a payload).trcSt_eq rfl
@[simp] theorem traceTile_trcOwner (s : State) (t kind stamp w : Nat) (wv : Bool) (a : Nat) (payload : List Nat) : (s.traceTile t kind stamp w wv a payload).trc.owner = s.trc.owner := (traceTile_only s t kind stamp w wv a payload).trcOwner_eq rfl
@[simp] theorem traceTile_port (s : State) (t kind stamp w : Nat) (wv : Bool) (a : Nat) (payload : List Nat) (i' : Nat) : (s.traceTile t kind stamp w wv a payload).port i' = s.port i' := (traceTile_only s t kind stamp w wv a payload).port_eq rfl i'
@[simp] theorem traceTile_world (s : State) (t kind stamp w : Nat) (wv : Bool) (a : Nat) (payload : List Nat) (i' : Nat) : (s.traceTile t kind stamp w wv a payload).world i' = s.world i' := (traceTile_only s t kind stamp w wv a payload).world_eq rfl i'
@[simp] theorem traceTile_rack (s : State) (t kind stamp w : Nat) (wv : Bool) (a : Nat) (payload : List Nat) (i' : Nat) : (s.traceTile t kind stamp w wv a payload).rack i' = s.rack i' := (traceTile_only s t kind stamp w wv a payload).rack_eq rfl i'
@[simp] theorem traceTile_ld (s : State) (t kind stamp w : Nat) (wv : Bool) (a : Nat) (payload : List Nat) (i' : Nat) : (s.traceTile t kind stamp w wv a payload).ld i' = s.ld i' := (traceTile_only s t kind stamp w wv a payload).ld_eq rfl i'
@[simp] theorem traceTile_link (s : State) (t kind stamp w : Nat) (wv : Bool) (a : Nat) (payload : List Nat) (i' : Nat) : (s.traceTile t kind stamp w wv a payload).link i' = s.link i' := (traceTile_only s t kind stamp w wv a payload).link_eq rfl i'
@[simp] theorem traceTile_master (s : State) (t kind stamp w : Nat) (wv : Bool) (a : Nat) (payload : List Nat) (i' : Nat) : (s.traceTile t kind stamp w wv a payload).master i' = s.master i' := (traceTile_only s t kind stamp w wv a payload).master_eq rfl i'
@[simp] theorem traceTile_span (s : State) (t kind stamp w : Nat) (wv : Bool) (a : Nat) (payload : List Nat) (i' : Nat) : (s.traceTile t kind stamp w wv a payload).span i' = s.span i' := (traceTile_only s t kind stamp w wv a payload).span_eq rfl i'
@[simp] theorem traceTile_fence (s : State) (t kind stamp w : Nat) (wv : Bool) (a : Nat) (payload : List Nat) (i' : Nat) : (s.traceTile t kind stamp w wv a payload).fence i' = s.fence i' := (traceTile_only s t kind stamp w wv a payload).fence_eq rfl i'
@[simp] theorem traceTile_dom (s : State) (t kind stamp w : Nat) (wv : Bool) (a : Nat) (payload : List Nat) (i' : Nat) : (s.traceTile t kind stamp w wv a payload).dom i' = s.dom i' := (traceTile_only s t kind stamp w wv a payload).dom_eq rfl i'
@[simp] theorem traceTile_pip (s : State) (t kind stamp w : Nat) (wv : Bool) (a : Nat) (payload : List Nat) (i' : Nat) : (s.traceTile t kind stamp w wv a payload).pip i' = s.pip i' := (traceTile_only s t kind stamp w wv a payload).pip_eq rfl i'
@[simp] theorem traceTile_rackSet (s : State) (t kind stamp w : Nat) (wv : Bool) (a : Nat) (payload : List Nat) (i' : Nat) : (s.traceTile t kind stamp w wv a payload).rackSet i' = s.rackSet i' := (traceTile_only s t kind stamp w wv a payload).rackSet_eq rfl i'
@[simp] theorem traceTile_isReady (s : State) (t kind stamp w : Nat) (wv : Bool) (a : Nat) (payload : List Nat) : (s.traceTile t kind stamp w wv a payload).isReady = s.isReady := (traceTile_only s t kind stamp w wv a payload).isReady_eq rfl
@[simp] theorem traceTile_domClass (s : State) (t kind stamp w : Nat) (wv : Bool) (a : Nat) (payload : List Nat) (d' : Nat) : (s.traceTile t kind stamp w wv a payload).domClass d' = s.domClass d' := (traceTile_only s t kind stamp w wv a payload).domClass_eq rfl d'
@[simp] theorem traceTile_fenceable (s : State) (t kind stamp w : Nat) (wv : Bool) (a : Nat) (payload : List Nat) (d' : Nat) : (s.traceTile t kind stamp w wv a payload).fenceable d' = s.fenceable d' := (traceTile_only s t kind stamp w wv a payload).fenceable_eq rfl rfl d'
@[simp] theorem traceTile_tilePresent (s : State) (t kind stamp w : Nat) (wv : Bool) (a : Nat) (payload : List Nat) (k' : Nat) : (s.traceTile t kind stamp w wv a payload).tilePresent k' = s.tilePresent k' := (traceTile_only s t kind stamp w wv a payload).tilePresent_eq rfl rfl k'
@[simp] theorem traceTile_domActive (s : State) (t kind stamp w : Nat) (wv : Bool) (a : Nat) (payload : List Nat) (d' : Nat) : (s.traceTile t kind stamp w wv a payload).domActive d' = s.domActive d' := (traceTile_only s t kind stamp w wv a payload).domActive_eq rfl d'
@[simp] theorem traceTile_tileActive (s : State) (t kind stamp w : Nat) (wv : Bool) (a : Nat) (payload : List Nat) (d' : Nat) : (s.traceTile t kind stamp w wv a payload).tileActive d' = s.tileActive d' := (traceTile_only s t kind stamp w wv a payload).tileActive_eq rfl d'
@[simp] theorem traceTile_tileRuns (s : State) (t kind stamp w : Nat) (wv : Bool) (a : Nat) (payload : List Nat) (d' : Nat) : (s.traceTile t kind stamp w wv a payload).tileRuns d' = s.tileRuns d' := (traceTile_only s t kind stamp w wv a payload).tileRuns_eq rfl d'
@[simp] theorem traceTile_right (s : State) (t kind stamp w : Nat) (wv : Bool) (a : Nat) (payload : List Nat) (m' : Nat) (tg' : Target) : (s.traceTile t kind stamp w wv a payload).right m' tg' = s.right m' tg' := (traceTile_only s t kind stamp w wv a payload).right_eq rfl rfl rfl m' tg'
@[simp] theorem traceTile_has (s : State) (t kind stamp w : Nat) (wv : Bool) (a : Nat) (payload : List Nat) (m' : Nat) (tg' : Target) (r' : Right) : (s.traceTile t kind stamp w wv a payload).has m' tg' r' = s.has m' tg' r' := (traceTile_only s t kind stamp w wv a payload).has_eq rfl rfl rfl m' tg' r'
@[simp] theorem traceTile_pipRight (s : State) (t kind stamp w : Nat) (wv : Bool) (a : Nat) (payload : List Nat) (m' n' : Nat) : (s.traceTile t kind stamp w wv a payload).pipRight m' n' = s.pipRight m' n' := (traceTile_only s t kind stamp w wv a payload).pipRight_eq rfl rfl rfl rfl m' n'
@[simp] theorem traceTile_ldOfRack (s : State) (t kind stamp w : Nat) (wv : Bool) (a : Nat) (payload : List Nat) (r' : Nat) : (s.traceTile t kind stamp w wv a payload).ldOfRack r' = s.ldOfRack r' := (traceTile_only s t kind stamp w wv a payload).ldOfRack_eq rfl r'
@[simp] theorem traceTile_traceOn (s : State) (t kind stamp w : Nat) (wv : Bool) (a : Nat) (payload : List Nat) : (s.traceTile t kind stamp w wv a payload).traceOn = s.traceOn := (traceTile_only s t kind stamp w wv a payload).traceOn_eq rfl rfl
@[simp] theorem traceTile_lockstep (s : State) (t kind stamp w : Nat) (wv : Bool) (a : Nat) (payload : List Nat) (c' : Nat) : (s.traceTile t kind stamp w wv a payload).lockstep c' = s.lockstep c' := (traceTile_only s t kind stamp w wv a payload).lockstep_eq rfl c'

/-! ### traceHub -/

theorem traceHub_only (s : State) (x kind a : Nat) (payload : List Nat) (tg : Target) : OnlyM 0x100000000000000 s (s.traceHub x kind a payload tg) := only_traceHub (OnlyM.refl _ s) rfl

@[simp] theorem traceHub_pkg (s : State) (x kind a : Nat) (payload : List Nat) (tg : Target) : (s.traceHub x kind a payload tg).pkg = s.pkg := (traceHub_only s x kind a payload tg).pkg_eq rfl
@[simp] theorem traceHub_fuses (s : State) (x kind a : Nat) (payload : List Nat) (tg : Target) : (s.traceHub x kind a payload tg).fuses = s.fuses := (traceHub_only s x kind a payload tg).fuses_eq rfl
@[simp] theorem traceHub_mem (s : State) (x kind a : Nat) (payload : List Nat) (tg : Target) : (s.traceHub x kind a payload tg).mem = s.mem := (traceHub_only s x kind a payload tg).mem_eq rfl
@[simp] theorem traceHub_freeCtr (s : State) (x kind a : Nat) (payload : List Nat) (tg : Target) : (s.traceHub x kind a payload tg).freeCtr = s.freeCtr := (traceHub_only s x kind a payload tg).freeCtr_eq rfl
@[simp] theorem traceHub_pending (s : State) (x kind a : Nat) (payload : List Nat) (tg : Target) : (s.traceHub x kind a payload tg).pending = s.pending := (traceHub_only s x kind a payload tg).pending_eq rfl
@[simp] theorem traceHub_pips (s : State) (x kind a : Nat) (payload : List Nat) (tg : Target) : (s.traceHub x kind a payload tg).pips = s.pips := (traceHub_only s x kind a payload tg).pips_eq rfl
@[simp] theorem traceHub_pool (s : State) (x kind a : Nat) (payload : List Nat) (tg : Target) : (s.traceHub x kind a payload tg).pool = s.pool := (traceHub_only s x kind a payload tg).pool_eq rfl
@[simp] theorem traceHub_wall (s : State) (x kind a : Nat) (payload : List Nat) (tg : Target) : (s.traceHub x kind a payload tg).aon.wall = s.aon.wall := (traceHub_only s x kind a payload tg).wall_eq rfl
@[simp] theorem traceHub_doms (s : State) (x kind a : Nat) (payload : List Nat) (tg : Target) : (s.traceHub x kind a payload tg).pwr.doms = s.pwr.doms := (traceHub_only s x kind a payload tg).doms_eq rfl
@[simp] theorem traceHub_lds (s : State) (x kind a : Nat) (payload : List Nat) (tg : Target) : (s.traceHub x kind a payload tg).hub.lds = s.hub.lds := (traceHub_only s x kind a payload tg).lds_eq rfl
@[simp] theorem traceHub_executing (s : State) (x kind a : Nat) (payload : List Nat) (tg : Target) : (s.traceHub x kind a payload tg).hub.executing = s.hub.executing := (traceHub_only s x kind a payload tg).executing_eq rfl
@[simp] theorem traceHub_failedHeads (s : State) (x kind a : Nat) (payload : List Nat) (tg : Target) : (s.traceHub x kind a payload tg).hub.failedHeads = s.hub.failedHeads := (traceHub_only s x kind a payload tg).failedHeads_eq rfl
@[simp] theorem traceHub_epoch (s : State) (x kind a : Nat) (payload : List Nat) (tg : Target) : (s.traceHub x kind a payload tg).hub.epoch = s.hub.epoch := (traceHub_only s x kind a payload tg).epoch_eq rfl
@[simp] theorem traceHub_lockIn (s : State) (x kind a : Nat) (payload : List Nat) (tg : Target) : (s.traceHub x kind a payload tg).hub.lockIn = s.hub.lockIn := (traceHub_only s x kind a payload tg).lockIn_eq rfl
@[simp] theorem traceHub_worlds (s : State) (x kind a : Nat) (payload : List Nat) (tg : Target) : (s.traceHub x kind a payload tg).tmp.worlds = s.tmp.worlds := (traceHub_only s x kind a payload tg).worlds_eq rfl
@[simp] theorem traceHub_slots (s : State) (x kind a : Nat) (payload : List Nat) (tg : Target) : (s.traceHub x kind a payload tg).tmp.slots = s.tmp.slots := (traceHub_only s x kind a payload tg).slots_eq rfl
@[simp] theorem traceHub_subs (s : State) (x kind a : Nat) (payload : List Nat) (tg : Target) : (s.traceHub x kind a payload tg).tmp.subs = s.tmp.subs := (traceHub_only s x kind a payload tg).subs_eq rfl
@[simp] theorem traceHub_inbox (s : State) (x kind a : Nat) (payload : List Nat) (tg : Target) : (s.traceHub x kind a payload tg).fab.inbox = s.fab.inbox := (traceHub_only s x kind a payload tg).inbox_eq rfl
@[simp] theorem traceHub_spans (s : State) (x kind a : Nat) (payload : List Nat) (tg : Target) : (s.traceHub x kind a payload tg).fab.spans = s.fab.spans := (traceHub_only s x kind a payload tg).spans_eq rfl
@[simp] theorem traceHub_mail (s : State) (x kind a : Nat) (payload : List Nat) (tg : Target) : (s.traceHub x kind a payload tg).fab.mail = s.fab.mail := (traceHub_only s x kind a payload tg).mail_eq rfl
@[simp] theorem traceHub_phase (s : State) (x kind a : Nat) (payload : List Nat) (tg : Target) : (s.traceHub x kind a payload tg).aon.phase = s.aon.phase := (traceHub_only s x kind a payload tg).phase_eq rfl
@[simp] theorem traceHub_dispatchOff (s : State) (x kind a : Nat) (payload : List Nat) (tg : Target) : (s.traceHub x kind a payload tg).pwr.dispatchOff = s.pwr.dispatchOff := (traceHub_only s x kind a payload tg).dispatchOff_eq rfl
@[simp] theorem traceHub_hubP (s : State) (x kind a : Nat) (payload : List Nat) (tg : Target) : (s.traceHub x kind a payload tg).hub.p = s.hub.p := (traceHub_only s x kind a payload tg).hubP_eq rfl
@[simp] theorem traceHub_sets (s : State) (x kind a : Nat) (payload : List Nat) (tg : Target) : (s.traceHub x kind a payload tg).racks.sets = s.racks.sets := (traceHub_only s x kind a payload tg).sets_eq rfl
@[simp] theorem traceHub_bootSt (s : State) (x kind a : Nat) (payload : List Nat) (tg : Target) : (s.traceHub x kind a payload tg).boot.st = s.boot.st := (traceHub_only s x kind a payload tg).bootSt_eq rfl
@[simp] theorem traceHub_bootPhase (s : State) (x kind a : Nat) (payload : List Nat) (tg : Target) : (s.traceHub x kind a payload tg).boot.phase = s.boot.phase := (traceHub_only s x kind a payload tg).bootPhase_eq rfl
@[simp] theorem traceHub_chartersValid (s : State) (x kind a : Nat) (payload : List Nat) (tg : Target) : (s.traceHub x kind a payload tg).boot.chartersValid = s.boot.chartersValid := (traceHub_only s x kind a payload tg).chartersValid_eq rfl
@[simp] theorem traceHub_amending (s : State) (x kind a : Nat) (payload : List Nat) (tg : Target) : (s.traceHub x kind a payload tg).boot.amending = s.boot.amending := (traceHub_only s x kind a payload tg).amending_eq rfl
@[simp] theorem traceHub_stwReset (s : State) (x kind a : Nat) (payload : List Nat) (tg : Target) : (s.traceHub x kind a payload tg).flt.stwReset = s.flt.stwReset := (traceHub_only s x kind a payload tg).stwReset_eq rfl
@[simp] theorem traceHub_trcSt (s : State) (x kind a : Nat) (payload : List Nat) (tg : Target) : (s.traceHub x kind a payload tg).trc.st = s.trc.st := (traceHub_only s x kind a payload tg).trcSt_eq rfl
@[simp] theorem traceHub_trcOwner (s : State) (x kind a : Nat) (payload : List Nat) (tg : Target) : (s.traceHub x kind a payload tg).trc.owner = s.trc.owner := (traceHub_only s x kind a payload tg).trcOwner_eq rfl
@[simp] theorem traceHub_tile (s : State) (x kind a : Nat) (payload : List Nat) (tg : Target) (i' : Nat) : (s.traceHub x kind a payload tg).tile i' = s.tile i' := (traceHub_only s x kind a payload tg).tile_eq rfl i'
@[simp] theorem traceHub_port (s : State) (x kind a : Nat) (payload : List Nat) (tg : Target) (i' : Nat) : (s.traceHub x kind a payload tg).port i' = s.port i' := (traceHub_only s x kind a payload tg).port_eq rfl i'
@[simp] theorem traceHub_world (s : State) (x kind a : Nat) (payload : List Nat) (tg : Target) (i' : Nat) : (s.traceHub x kind a payload tg).world i' = s.world i' := (traceHub_only s x kind a payload tg).world_eq rfl i'
@[simp] theorem traceHub_rack (s : State) (x kind a : Nat) (payload : List Nat) (tg : Target) (i' : Nat) : (s.traceHub x kind a payload tg).rack i' = s.rack i' := (traceHub_only s x kind a payload tg).rack_eq rfl i'
@[simp] theorem traceHub_ld (s : State) (x kind a : Nat) (payload : List Nat) (tg : Target) (i' : Nat) : (s.traceHub x kind a payload tg).ld i' = s.ld i' := (traceHub_only s x kind a payload tg).ld_eq rfl i'
@[simp] theorem traceHub_link (s : State) (x kind a : Nat) (payload : List Nat) (tg : Target) (i' : Nat) : (s.traceHub x kind a payload tg).link i' = s.link i' := (traceHub_only s x kind a payload tg).link_eq rfl i'
@[simp] theorem traceHub_master (s : State) (x kind a : Nat) (payload : List Nat) (tg : Target) (i' : Nat) : (s.traceHub x kind a payload tg).master i' = s.master i' := (traceHub_only s x kind a payload tg).master_eq rfl i'
@[simp] theorem traceHub_span (s : State) (x kind a : Nat) (payload : List Nat) (tg : Target) (i' : Nat) : (s.traceHub x kind a payload tg).span i' = s.span i' := (traceHub_only s x kind a payload tg).span_eq rfl i'
@[simp] theorem traceHub_fence (s : State) (x kind a : Nat) (payload : List Nat) (tg : Target) (i' : Nat) : (s.traceHub x kind a payload tg).fence i' = s.fence i' := (traceHub_only s x kind a payload tg).fence_eq rfl i'
@[simp] theorem traceHub_dom (s : State) (x kind a : Nat) (payload : List Nat) (tg : Target) (i' : Nat) : (s.traceHub x kind a payload tg).dom i' = s.dom i' := (traceHub_only s x kind a payload tg).dom_eq rfl i'
@[simp] theorem traceHub_pip (s : State) (x kind a : Nat) (payload : List Nat) (tg : Target) (i' : Nat) : (s.traceHub x kind a payload tg).pip i' = s.pip i' := (traceHub_only s x kind a payload tg).pip_eq rfl i'
@[simp] theorem traceHub_rackSet (s : State) (x kind a : Nat) (payload : List Nat) (tg : Target) (i' : Nat) : (s.traceHub x kind a payload tg).rackSet i' = s.rackSet i' := (traceHub_only s x kind a payload tg).rackSet_eq rfl i'
@[simp] theorem traceHub_isReady (s : State) (x kind a : Nat) (payload : List Nat) (tg : Target) : (s.traceHub x kind a payload tg).isReady = s.isReady := (traceHub_only s x kind a payload tg).isReady_eq rfl
@[simp] theorem traceHub_domClass (s : State) (x kind a : Nat) (payload : List Nat) (tg : Target) (d' : Nat) : (s.traceHub x kind a payload tg).domClass d' = s.domClass d' := (traceHub_only s x kind a payload tg).domClass_eq rfl d'
@[simp] theorem traceHub_fenceable (s : State) (x kind a : Nat) (payload : List Nat) (tg : Target) (d' : Nat) : (s.traceHub x kind a payload tg).fenceable d' = s.fenceable d' := (traceHub_only s x kind a payload tg).fenceable_eq rfl rfl d'
@[simp] theorem traceHub_tilePresent (s : State) (x kind a : Nat) (payload : List Nat) (tg : Target) (k' : Nat) : (s.traceHub x kind a payload tg).tilePresent k' = s.tilePresent k' := (traceHub_only s x kind a payload tg).tilePresent_eq rfl rfl k'
@[simp] theorem traceHub_domActive (s : State) (x kind a : Nat) (payload : List Nat) (tg : Target) (d' : Nat) : (s.traceHub x kind a payload tg).domActive d' = s.domActive d' := (traceHub_only s x kind a payload tg).domActive_eq rfl d'
@[simp] theorem traceHub_tileActive (s : State) (x kind a : Nat) (payload : List Nat) (tg : Target) (d' : Nat) : (s.traceHub x kind a payload tg).tileActive d' = s.tileActive d' := (traceHub_only s x kind a payload tg).tileActive_eq rfl d'
@[simp] theorem traceHub_tileRuns (s : State) (x kind a : Nat) (payload : List Nat) (tg : Target) (d' : Nat) : (s.traceHub x kind a payload tg).tileRuns d' = s.tileRuns d' := (traceHub_only s x kind a payload tg).tileRuns_eq rfl d'
@[simp] theorem traceHub_right (s : State) (x kind a : Nat) (payload : List Nat) (tg : Target) (m' : Nat) (tg' : Target) : (s.traceHub x kind a payload tg).right m' tg' = s.right m' tg' := (traceHub_only s x kind a payload tg).right_eq rfl rfl rfl m' tg'
@[simp] theorem traceHub_has (s : State) (x kind a : Nat) (payload : List Nat) (tg : Target) (m' : Nat) (tg' : Target) (r' : Right) : (s.traceHub x kind a payload tg).has m' tg' r' = s.has m' tg' r' := (traceHub_only s x kind a payload tg).has_eq rfl rfl rfl m' tg' r'
@[simp] theorem traceHub_pipRight (s : State) (x kind a : Nat) (payload : List Nat) (tg : Target) (m' n' : Nat) : (s.traceHub x kind a payload tg).pipRight m' n' = s.pipRight m' n' := (traceHub_only s x kind a payload tg).pipRight_eq rfl rfl rfl rfl m' n'
@[simp] theorem traceHub_ldOfRack (s : State) (x kind a : Nat) (payload : List Nat) (tg : Target) (r' : Nat) : (s.traceHub x kind a payload tg).ldOfRack r' = s.ldOfRack r' := (traceHub_only s x kind a payload tg).ldOfRack_eq rfl r'
@[simp] theorem traceHub_traceOn (s : State) (x kind a : Nat) (payload : List Nat) (tg : Target) : (s.traceHub x kind a payload tg).traceOn = s.traceOn := (traceHub_only s x kind a payload tg).traceOn_eq rfl rfl
@[simp] theorem traceHub_memAddr (s : State) (x kind a : Nat) (payload : List Nat) (tg : Target) (a' : Nat) : (s.traceHub x kind a payload tg).memAddr a' = s.memAddr a' := (traceHub_only s x kind a payload tg).memAddr_eq rfl a'
@[simp] theorem traceHub_lockstep (s : State) (x kind a : Nat) (payload : List Nat) (tg : Target) (c' : Nat) : (s.traceHub x kind a payload tg).lockstep c' = s.lockstep c' := (traceHub_only s x kind a payload tg).lockstep_eq rfl c'

/-! ### traceRack -/

theorem traceRack_only (s : State) (r op m : Nat) (c : Code) (kind seq : Nat) : OnlyM 0x100000000000000 s (s.traceRack r op m c kind seq) := only_traceRack (OnlyM.refl _ s) rfl

@[simp] theorem traceRack_pkg (s : State) (r op m : Nat) (c : Code) (kind seq : Nat) : (s.traceRack r op m c kind seq).pkg = s.pkg := (traceRack_only s r op m c kind seq).pkg_eq rfl
@[simp] theorem traceRack_fuses (s : State) (r op m : Nat) (c : Code) (kind seq : Nat) : (s.traceRack r op m c kind seq).fuses = s.fuses := (traceRack_only s r op m c kind seq).fuses_eq rfl
@[simp] theorem traceRack_mem (s : State) (r op m : Nat) (c : Code) (kind seq : Nat) : (s.traceRack r op m c kind seq).mem = s.mem := (traceRack_only s r op m c kind seq).mem_eq rfl
@[simp] theorem traceRack_freeCtr (s : State) (r op m : Nat) (c : Code) (kind seq : Nat) : (s.traceRack r op m c kind seq).freeCtr = s.freeCtr := (traceRack_only s r op m c kind seq).freeCtr_eq rfl
@[simp] theorem traceRack_pending (s : State) (r op m : Nat) (c : Code) (kind seq : Nat) : (s.traceRack r op m c kind seq).pending = s.pending := (traceRack_only s r op m c kind seq).pending_eq rfl
@[simp] theorem traceRack_pips (s : State) (r op m : Nat) (c : Code) (kind seq : Nat) : (s.traceRack r op m c kind seq).pips = s.pips := (traceRack_only s r op m c kind seq).pips_eq rfl
@[simp] theorem traceRack_pool (s : State) (r op m : Nat) (c : Code) (kind seq : Nat) : (s.traceRack r op m c kind seq).pool = s.pool := (traceRack_only s r op m c kind seq).pool_eq rfl
@[simp] theorem traceRack_wall (s : State) (r op m : Nat) (c : Code) (kind seq : Nat) : (s.traceRack r op m c kind seq).aon.wall = s.aon.wall := (traceRack_only s r op m c kind seq).wall_eq rfl
@[simp] theorem traceRack_doms (s : State) (r op m : Nat) (c : Code) (kind seq : Nat) : (s.traceRack r op m c kind seq).pwr.doms = s.pwr.doms := (traceRack_only s r op m c kind seq).doms_eq rfl
@[simp] theorem traceRack_lds (s : State) (r op m : Nat) (c : Code) (kind seq : Nat) : (s.traceRack r op m c kind seq).hub.lds = s.hub.lds := (traceRack_only s r op m c kind seq).lds_eq rfl
@[simp] theorem traceRack_executing (s : State) (r op m : Nat) (c : Code) (kind seq : Nat) : (s.traceRack r op m c kind seq).hub.executing = s.hub.executing := (traceRack_only s r op m c kind seq).executing_eq rfl
@[simp] theorem traceRack_failedHeads (s : State) (r op m : Nat) (c : Code) (kind seq : Nat) : (s.traceRack r op m c kind seq).hub.failedHeads = s.hub.failedHeads := (traceRack_only s r op m c kind seq).failedHeads_eq rfl
@[simp] theorem traceRack_epoch (s : State) (r op m : Nat) (c : Code) (kind seq : Nat) : (s.traceRack r op m c kind seq).hub.epoch = s.hub.epoch := (traceRack_only s r op m c kind seq).epoch_eq rfl
@[simp] theorem traceRack_lockIn (s : State) (r op m : Nat) (c : Code) (kind seq : Nat) : (s.traceRack r op m c kind seq).hub.lockIn = s.hub.lockIn := (traceRack_only s r op m c kind seq).lockIn_eq rfl
@[simp] theorem traceRack_worlds (s : State) (r op m : Nat) (c : Code) (kind seq : Nat) : (s.traceRack r op m c kind seq).tmp.worlds = s.tmp.worlds := (traceRack_only s r op m c kind seq).worlds_eq rfl
@[simp] theorem traceRack_slots (s : State) (r op m : Nat) (c : Code) (kind seq : Nat) : (s.traceRack r op m c kind seq).tmp.slots = s.tmp.slots := (traceRack_only s r op m c kind seq).slots_eq rfl
@[simp] theorem traceRack_subs (s : State) (r op m : Nat) (c : Code) (kind seq : Nat) : (s.traceRack r op m c kind seq).tmp.subs = s.tmp.subs := (traceRack_only s r op m c kind seq).subs_eq rfl
@[simp] theorem traceRack_inbox (s : State) (r op m : Nat) (c : Code) (kind seq : Nat) : (s.traceRack r op m c kind seq).fab.inbox = s.fab.inbox := (traceRack_only s r op m c kind seq).inbox_eq rfl
@[simp] theorem traceRack_spans (s : State) (r op m : Nat) (c : Code) (kind seq : Nat) : (s.traceRack r op m c kind seq).fab.spans = s.fab.spans := (traceRack_only s r op m c kind seq).spans_eq rfl
@[simp] theorem traceRack_mail (s : State) (r op m : Nat) (c : Code) (kind seq : Nat) : (s.traceRack r op m c kind seq).fab.mail = s.fab.mail := (traceRack_only s r op m c kind seq).mail_eq rfl
@[simp] theorem traceRack_phase (s : State) (r op m : Nat) (c : Code) (kind seq : Nat) : (s.traceRack r op m c kind seq).aon.phase = s.aon.phase := (traceRack_only s r op m c kind seq).phase_eq rfl
@[simp] theorem traceRack_dispatchOff (s : State) (r op m : Nat) (c : Code) (kind seq : Nat) : (s.traceRack r op m c kind seq).pwr.dispatchOff = s.pwr.dispatchOff := (traceRack_only s r op m c kind seq).dispatchOff_eq rfl
@[simp] theorem traceRack_hubP (s : State) (r op m : Nat) (c : Code) (kind seq : Nat) : (s.traceRack r op m c kind seq).hub.p = s.hub.p := (traceRack_only s r op m c kind seq).hubP_eq rfl
@[simp] theorem traceRack_sets (s : State) (r op m : Nat) (c : Code) (kind seq : Nat) : (s.traceRack r op m c kind seq).racks.sets = s.racks.sets := (traceRack_only s r op m c kind seq).sets_eq rfl
@[simp] theorem traceRack_bootSt (s : State) (r op m : Nat) (c : Code) (kind seq : Nat) : (s.traceRack r op m c kind seq).boot.st = s.boot.st := (traceRack_only s r op m c kind seq).bootSt_eq rfl
@[simp] theorem traceRack_bootPhase (s : State) (r op m : Nat) (c : Code) (kind seq : Nat) : (s.traceRack r op m c kind seq).boot.phase = s.boot.phase := (traceRack_only s r op m c kind seq).bootPhase_eq rfl
@[simp] theorem traceRack_chartersValid (s : State) (r op m : Nat) (c : Code) (kind seq : Nat) : (s.traceRack r op m c kind seq).boot.chartersValid = s.boot.chartersValid := (traceRack_only s r op m c kind seq).chartersValid_eq rfl
@[simp] theorem traceRack_amending (s : State) (r op m : Nat) (c : Code) (kind seq : Nat) : (s.traceRack r op m c kind seq).boot.amending = s.boot.amending := (traceRack_only s r op m c kind seq).amending_eq rfl
@[simp] theorem traceRack_stwReset (s : State) (r op m : Nat) (c : Code) (kind seq : Nat) : (s.traceRack r op m c kind seq).flt.stwReset = s.flt.stwReset := (traceRack_only s r op m c kind seq).stwReset_eq rfl
@[simp] theorem traceRack_trcSt (s : State) (r op m : Nat) (c : Code) (kind seq : Nat) : (s.traceRack r op m c kind seq).trc.st = s.trc.st := (traceRack_only s r op m c kind seq).trcSt_eq rfl
@[simp] theorem traceRack_trcOwner (s : State) (r op m : Nat) (c : Code) (kind seq : Nat) : (s.traceRack r op m c kind seq).trc.owner = s.trc.owner := (traceRack_only s r op m c kind seq).trcOwner_eq rfl
@[simp] theorem traceRack_tile (s : State) (r op m : Nat) (c : Code) (kind seq : Nat) (i' : Nat) : (s.traceRack r op m c kind seq).tile i' = s.tile i' := (traceRack_only s r op m c kind seq).tile_eq rfl i'
@[simp] theorem traceRack_port (s : State) (r op m : Nat) (c : Code) (kind seq : Nat) (i' : Nat) : (s.traceRack r op m c kind seq).port i' = s.port i' := (traceRack_only s r op m c kind seq).port_eq rfl i'
@[simp] theorem traceRack_world (s : State) (r op m : Nat) (c : Code) (kind seq : Nat) (i' : Nat) : (s.traceRack r op m c kind seq).world i' = s.world i' := (traceRack_only s r op m c kind seq).world_eq rfl i'
@[simp] theorem traceRack_rack (s : State) (r op m : Nat) (c : Code) (kind seq : Nat) (i' : Nat) : (s.traceRack r op m c kind seq).rack i' = s.rack i' := (traceRack_only s r op m c kind seq).rack_eq rfl i'
@[simp] theorem traceRack_ld (s : State) (r op m : Nat) (c : Code) (kind seq : Nat) (i' : Nat) : (s.traceRack r op m c kind seq).ld i' = s.ld i' := (traceRack_only s r op m c kind seq).ld_eq rfl i'
@[simp] theorem traceRack_link (s : State) (r op m : Nat) (c : Code) (kind seq : Nat) (i' : Nat) : (s.traceRack r op m c kind seq).link i' = s.link i' := (traceRack_only s r op m c kind seq).link_eq rfl i'
@[simp] theorem traceRack_master (s : State) (r op m : Nat) (c : Code) (kind seq : Nat) (i' : Nat) : (s.traceRack r op m c kind seq).master i' = s.master i' := (traceRack_only s r op m c kind seq).master_eq rfl i'
@[simp] theorem traceRack_span (s : State) (r op m : Nat) (c : Code) (kind seq : Nat) (i' : Nat) : (s.traceRack r op m c kind seq).span i' = s.span i' := (traceRack_only s r op m c kind seq).span_eq rfl i'
@[simp] theorem traceRack_fence (s : State) (r op m : Nat) (c : Code) (kind seq : Nat) (i' : Nat) : (s.traceRack r op m c kind seq).fence i' = s.fence i' := (traceRack_only s r op m c kind seq).fence_eq rfl i'
@[simp] theorem traceRack_dom (s : State) (r op m : Nat) (c : Code) (kind seq : Nat) (i' : Nat) : (s.traceRack r op m c kind seq).dom i' = s.dom i' := (traceRack_only s r op m c kind seq).dom_eq rfl i'
@[simp] theorem traceRack_pip (s : State) (r op m : Nat) (c : Code) (kind seq : Nat) (i' : Nat) : (s.traceRack r op m c kind seq).pip i' = s.pip i' := (traceRack_only s r op m c kind seq).pip_eq rfl i'
@[simp] theorem traceRack_rackSet (s : State) (r op m : Nat) (c : Code) (kind seq : Nat) (i' : Nat) : (s.traceRack r op m c kind seq).rackSet i' = s.rackSet i' := (traceRack_only s r op m c kind seq).rackSet_eq rfl i'
@[simp] theorem traceRack_isReady (s : State) (r op m : Nat) (c : Code) (kind seq : Nat) : (s.traceRack r op m c kind seq).isReady = s.isReady := (traceRack_only s r op m c kind seq).isReady_eq rfl
@[simp] theorem traceRack_domClass (s : State) (r op m : Nat) (c : Code) (kind seq : Nat) (d' : Nat) : (s.traceRack r op m c kind seq).domClass d' = s.domClass d' := (traceRack_only s r op m c kind seq).domClass_eq rfl d'
@[simp] theorem traceRack_fenceable (s : State) (r op m : Nat) (c : Code) (kind seq : Nat) (d' : Nat) : (s.traceRack r op m c kind seq).fenceable d' = s.fenceable d' := (traceRack_only s r op m c kind seq).fenceable_eq rfl rfl d'
@[simp] theorem traceRack_tilePresent (s : State) (r op m : Nat) (c : Code) (kind seq : Nat) (k' : Nat) : (s.traceRack r op m c kind seq).tilePresent k' = s.tilePresent k' := (traceRack_only s r op m c kind seq).tilePresent_eq rfl rfl k'
@[simp] theorem traceRack_domActive (s : State) (r op m : Nat) (c : Code) (kind seq : Nat) (d' : Nat) : (s.traceRack r op m c kind seq).domActive d' = s.domActive d' := (traceRack_only s r op m c kind seq).domActive_eq rfl d'
@[simp] theorem traceRack_tileActive (s : State) (r op m : Nat) (c : Code) (kind seq : Nat) (d' : Nat) : (s.traceRack r op m c kind seq).tileActive d' = s.tileActive d' := (traceRack_only s r op m c kind seq).tileActive_eq rfl d'
@[simp] theorem traceRack_tileRuns (s : State) (r op m : Nat) (c : Code) (kind seq : Nat) (d' : Nat) : (s.traceRack r op m c kind seq).tileRuns d' = s.tileRuns d' := (traceRack_only s r op m c kind seq).tileRuns_eq rfl d'
@[simp] theorem traceRack_right (s : State) (r op m : Nat) (c : Code) (kind seq : Nat) (m' : Nat) (tg' : Target) : (s.traceRack r op m c kind seq).right m' tg' = s.right m' tg' := (traceRack_only s r op m c kind seq).right_eq rfl rfl rfl m' tg'
@[simp] theorem traceRack_has (s : State) (r op m : Nat) (c : Code) (kind seq : Nat) (m' : Nat) (tg' : Target) (r' : Right) : (s.traceRack r op m c kind seq).has m' tg' r' = s.has m' tg' r' := (traceRack_only s r op m c kind seq).has_eq rfl rfl rfl m' tg' r'
@[simp] theorem traceRack_pipRight (s : State) (r op m : Nat) (c : Code) (kind seq : Nat) (m' n' : Nat) : (s.traceRack r op m c kind seq).pipRight m' n' = s.pipRight m' n' := (traceRack_only s r op m c kind seq).pipRight_eq rfl rfl rfl rfl m' n'
@[simp] theorem traceRack_ldOfRack (s : State) (r op m : Nat) (c : Code) (kind seq : Nat) (r' : Nat) : (s.traceRack r op m c kind seq).ldOfRack r' = s.ldOfRack r' := (traceRack_only s r op m c kind seq).ldOfRack_eq rfl r'
@[simp] theorem traceRack_traceOn (s : State) (r op m : Nat) (c : Code) (kind seq : Nat) : (s.traceRack r op m c kind seq).traceOn = s.traceOn := (traceRack_only s r op m c kind seq).traceOn_eq rfl rfl
@[simp] theorem traceRack_memAddr (s : State) (r op m : Nat) (c : Code) (kind seq : Nat) (a' : Nat) : (s.traceRack r op m c kind seq).memAddr a' = s.memAddr a' := (traceRack_only s r op m c kind seq).memAddr_eq rfl a'
@[simp] theorem traceRack_lockstep (s : State) (r op m : Nat) (c : Code) (kind seq : Nat) (c' : Nat) : (s.traceRack r op m c kind seq).lockstep c' = s.lockstep c' := (traceRack_only s r op m c kind seq).lockstep_eq rfl c'

/-! ### pushLoss -/

theorem pushLoss_only (s : State) (i : LossItem) : OnlyM 0x800000000000 s (s.pushLoss i) := only_pushLoss (OnlyM.refl _ s) rfl

@[simp] theorem pushLoss_pkg (s : State) (i : LossItem) : (s.pushLoss i).pkg = s.pkg := (pushLoss_only s i).pkg_eq rfl
@[simp] theorem pushLoss_fuses (s : State) (i : LossItem) : (s.pushLoss i).fuses = s.fuses := (pushLoss_only s i).fuses_eq rfl
@[simp] theorem pushLoss_mem (s : State) (i : LossItem) : (s.pushLoss i).mem = s.mem := (pushLoss_only s i).mem_eq rfl
@[simp] theorem pushLoss_freeCtr (s : State) (i : LossItem) : (s.pushLoss i).freeCtr = s.freeCtr := (pushLoss_only s i).freeCtr_eq rfl
@[simp] theorem pushLoss_pending (s : State) (i : LossItem) : (s.pushLoss i).pending = s.pending := (pushLoss_only s i).pending_eq rfl
@[simp] theorem pushLoss_pips (s : State) (i : LossItem) : (s.pushLoss i).pips = s.pips := (pushLoss_only s i).pips_eq rfl
@[simp] theorem pushLoss_pool (s : State) (i : LossItem) : (s.pushLoss i).pool = s.pool := (pushLoss_only s i).pool_eq rfl
@[simp] theorem pushLoss_wall (s : State) (i : LossItem) : (s.pushLoss i).aon.wall = s.aon.wall := (pushLoss_only s i).wall_eq rfl
@[simp] theorem pushLoss_doms (s : State) (i : LossItem) : (s.pushLoss i).pwr.doms = s.pwr.doms := (pushLoss_only s i).doms_eq rfl
@[simp] theorem pushLoss_lds (s : State) (i : LossItem) : (s.pushLoss i).hub.lds = s.hub.lds := (pushLoss_only s i).lds_eq rfl
@[simp] theorem pushLoss_executing (s : State) (i : LossItem) : (s.pushLoss i).hub.executing = s.hub.executing := (pushLoss_only s i).executing_eq rfl
@[simp] theorem pushLoss_failedHeads (s : State) (i : LossItem) : (s.pushLoss i).hub.failedHeads = s.hub.failedHeads := (pushLoss_only s i).failedHeads_eq rfl
@[simp] theorem pushLoss_epoch (s : State) (i : LossItem) : (s.pushLoss i).hub.epoch = s.hub.epoch := (pushLoss_only s i).epoch_eq rfl
@[simp] theorem pushLoss_lockIn (s : State) (i : LossItem) : (s.pushLoss i).hub.lockIn = s.hub.lockIn := (pushLoss_only s i).lockIn_eq rfl
@[simp] theorem pushLoss_worlds (s : State) (i : LossItem) : (s.pushLoss i).tmp.worlds = s.tmp.worlds := (pushLoss_only s i).worlds_eq rfl
@[simp] theorem pushLoss_slots (s : State) (i : LossItem) : (s.pushLoss i).tmp.slots = s.tmp.slots := (pushLoss_only s i).slots_eq rfl
@[simp] theorem pushLoss_subs (s : State) (i : LossItem) : (s.pushLoss i).tmp.subs = s.tmp.subs := (pushLoss_only s i).subs_eq rfl
@[simp] theorem pushLoss_inbox (s : State) (i : LossItem) : (s.pushLoss i).fab.inbox = s.fab.inbox := (pushLoss_only s i).inbox_eq rfl
@[simp] theorem pushLoss_spans (s : State) (i : LossItem) : (s.pushLoss i).fab.spans = s.fab.spans := (pushLoss_only s i).spans_eq rfl
@[simp] theorem pushLoss_mail (s : State) (i : LossItem) : (s.pushLoss i).fab.mail = s.fab.mail := (pushLoss_only s i).mail_eq rfl
@[simp] theorem pushLoss_phase (s : State) (i : LossItem) : (s.pushLoss i).aon.phase = s.aon.phase := (pushLoss_only s i).phase_eq rfl
@[simp] theorem pushLoss_dispatchOff (s : State) (i : LossItem) : (s.pushLoss i).pwr.dispatchOff = s.pwr.dispatchOff := (pushLoss_only s i).dispatchOff_eq rfl
@[simp] theorem pushLoss_hubP (s : State) (i : LossItem) : (s.pushLoss i).hub.p = s.hub.p := (pushLoss_only s i).hubP_eq rfl
@[simp] theorem pushLoss_sets (s : State) (i : LossItem) : (s.pushLoss i).racks.sets = s.racks.sets := (pushLoss_only s i).sets_eq rfl
@[simp] theorem pushLoss_bootSt (s : State) (i : LossItem) : (s.pushLoss i).boot.st = s.boot.st := (pushLoss_only s i).bootSt_eq rfl
@[simp] theorem pushLoss_bootPhase (s : State) (i : LossItem) : (s.pushLoss i).boot.phase = s.boot.phase := (pushLoss_only s i).bootPhase_eq rfl
@[simp] theorem pushLoss_chartersValid (s : State) (i : LossItem) : (s.pushLoss i).boot.chartersValid = s.boot.chartersValid := (pushLoss_only s i).chartersValid_eq rfl
@[simp] theorem pushLoss_amending (s : State) (i : LossItem) : (s.pushLoss i).boot.amending = s.boot.amending := (pushLoss_only s i).amending_eq rfl
@[simp] theorem pushLoss_stwReset (s : State) (i : LossItem) : (s.pushLoss i).flt.stwReset = s.flt.stwReset := (pushLoss_only s i).stwReset_eq rfl
@[simp] theorem pushLoss_trcSt (s : State) (i : LossItem) : (s.pushLoss i).trc.st = s.trc.st := (pushLoss_only s i).trcSt_eq rfl
@[simp] theorem pushLoss_trcOwner (s : State) (i : LossItem) : (s.pushLoss i).trc.owner = s.trc.owner := (pushLoss_only s i).trcOwner_eq rfl
@[simp] theorem pushLoss_tile (s : State) (i : LossItem) (i' : Nat) : (s.pushLoss i).tile i' = s.tile i' := (pushLoss_only s i).tile_eq rfl i'
@[simp] theorem pushLoss_port (s : State) (i : LossItem) (i' : Nat) : (s.pushLoss i).port i' = s.port i' := (pushLoss_only s i).port_eq rfl i'
@[simp] theorem pushLoss_world (s : State) (i : LossItem) (i' : Nat) : (s.pushLoss i).world i' = s.world i' := (pushLoss_only s i).world_eq rfl i'
@[simp] theorem pushLoss_rack (s : State) (i : LossItem) (i' : Nat) : (s.pushLoss i).rack i' = s.rack i' := (pushLoss_only s i).rack_eq rfl i'
@[simp] theorem pushLoss_ld (s : State) (i : LossItem) (i' : Nat) : (s.pushLoss i).ld i' = s.ld i' := (pushLoss_only s i).ld_eq rfl i'
@[simp] theorem pushLoss_link (s : State) (i : LossItem) (i' : Nat) : (s.pushLoss i).link i' = s.link i' := (pushLoss_only s i).link_eq rfl i'
@[simp] theorem pushLoss_master (s : State) (i : LossItem) (i' : Nat) : (s.pushLoss i).master i' = s.master i' := (pushLoss_only s i).master_eq rfl i'
@[simp] theorem pushLoss_span (s : State) (i : LossItem) (i' : Nat) : (s.pushLoss i).span i' = s.span i' := (pushLoss_only s i).span_eq rfl i'
@[simp] theorem pushLoss_fence (s : State) (i : LossItem) (i' : Nat) : (s.pushLoss i).fence i' = s.fence i' := (pushLoss_only s i).fence_eq rfl i'
@[simp] theorem pushLoss_dom (s : State) (i : LossItem) (i' : Nat) : (s.pushLoss i).dom i' = s.dom i' := (pushLoss_only s i).dom_eq rfl i'
@[simp] theorem pushLoss_pip (s : State) (i : LossItem) (i' : Nat) : (s.pushLoss i).pip i' = s.pip i' := (pushLoss_only s i).pip_eq rfl i'
@[simp] theorem pushLoss_rackSet (s : State) (i : LossItem) (i' : Nat) : (s.pushLoss i).rackSet i' = s.rackSet i' := (pushLoss_only s i).rackSet_eq rfl i'
@[simp] theorem pushLoss_isReady (s : State) (i : LossItem) : (s.pushLoss i).isReady = s.isReady := (pushLoss_only s i).isReady_eq rfl
@[simp] theorem pushLoss_domClass (s : State) (i : LossItem) (d' : Nat) : (s.pushLoss i).domClass d' = s.domClass d' := (pushLoss_only s i).domClass_eq rfl d'
@[simp] theorem pushLoss_fenceable (s : State) (i : LossItem) (d' : Nat) : (s.pushLoss i).fenceable d' = s.fenceable d' := (pushLoss_only s i).fenceable_eq rfl rfl d'
@[simp] theorem pushLoss_tilePresent (s : State) (i : LossItem) (k' : Nat) : (s.pushLoss i).tilePresent k' = s.tilePresent k' := (pushLoss_only s i).tilePresent_eq rfl rfl k'
@[simp] theorem pushLoss_domActive (s : State) (i : LossItem) (d' : Nat) : (s.pushLoss i).domActive d' = s.domActive d' := (pushLoss_only s i).domActive_eq rfl d'
@[simp] theorem pushLoss_tileActive (s : State) (i : LossItem) (d' : Nat) : (s.pushLoss i).tileActive d' = s.tileActive d' := (pushLoss_only s i).tileActive_eq rfl d'
@[simp] theorem pushLoss_tileRuns (s : State) (i : LossItem) (d' : Nat) : (s.pushLoss i).tileRuns d' = s.tileRuns d' := (pushLoss_only s i).tileRuns_eq rfl d'
@[simp] theorem pushLoss_right (s : State) (i : LossItem) (m' : Nat) (tg' : Target) : (s.pushLoss i).right m' tg' = s.right m' tg' := (pushLoss_only s i).right_eq rfl rfl rfl m' tg'
@[simp] theorem pushLoss_has (s : State) (i : LossItem) (m' : Nat) (tg' : Target) (r' : Right) : (s.pushLoss i).has m' tg' r' = s.has m' tg' r' := (pushLoss_only s i).has_eq rfl rfl rfl m' tg' r'
@[simp] theorem pushLoss_pipRight (s : State) (i : LossItem) (m' n' : Nat) : (s.pushLoss i).pipRight m' n' = s.pipRight m' n' := (pushLoss_only s i).pipRight_eq rfl rfl rfl rfl m' n'
@[simp] theorem pushLoss_ldOfRack (s : State) (i : LossItem) (r' : Nat) : (s.pushLoss i).ldOfRack r' = s.ldOfRack r' := (pushLoss_only s i).ldOfRack_eq rfl r'
@[simp] theorem pushLoss_traceOn (s : State) (i : LossItem) : (s.pushLoss i).traceOn = s.traceOn := (pushLoss_only s i).traceOn_eq rfl rfl
@[simp] theorem pushLoss_memAddr (s : State) (i : LossItem) (a' : Nat) : (s.pushLoss i).memAddr a' = s.memAddr a' := (pushLoss_only s i).memAddr_eq rfl a'
@[simp] theorem pushLoss_lockstep (s : State) (i : LossItem) (c' : Nat) : (s.pushLoss i).lockstep c' = s.lockstep c' := (pushLoss_only s i).lockstep_eq rfl c'

/-! ### raiseRack -/

theorem raiseRack_only (s : State) (r : Nat) : OnlyM 0x1000000 s (s.raiseRack r) := only_raiseRack (OnlyM.refl _ s) rfl

@[simp] theorem raiseRack_pkg (s : State) (r : Nat) : (s.raiseRack r).pkg = s.pkg := (raiseRack_only s r).pkg_eq rfl
@[simp] theorem raiseRack_fuses (s : State) (r : Nat) : (s.raiseRack r).fuses = s.fuses := (raiseRack_only s r).fuses_eq rfl
@[simp] theorem raiseRack_mem (s : State) (r : Nat) : (s.raiseRack r).mem = s.mem := (raiseRack_only s r).mem_eq rfl
@[simp] theorem raiseRack_freeCtr (s : State) (r : Nat) : (s.raiseRack r).freeCtr = s.freeCtr := (raiseRack_only s r).freeCtr_eq rfl
@[simp] theorem raiseRack_pending (s : State) (r : Nat) : (s.raiseRack r).pending = s.pending := (raiseRack_only s r).pending_eq rfl
@[simp] theorem raiseRack_pips (s : State) (r : Nat) : (s.raiseRack r).pips = s.pips := (raiseRack_only s r).pips_eq rfl
@[simp] theorem raiseRack_pool (s : State) (r : Nat) : (s.raiseRack r).pool = s.pool := (raiseRack_only s r).pool_eq rfl
@[simp] theorem raiseRack_wall (s : State) (r : Nat) : (s.raiseRack r).aon.wall = s.aon.wall := (raiseRack_only s r).wall_eq rfl
@[simp] theorem raiseRack_doms (s : State) (r : Nat) : (s.raiseRack r).pwr.doms = s.pwr.doms := (raiseRack_only s r).doms_eq rfl
@[simp] theorem raiseRack_executing (s : State) (r : Nat) : (s.raiseRack r).hub.executing = s.hub.executing := (raiseRack_only s r).executing_eq rfl
@[simp] theorem raiseRack_failedHeads (s : State) (r : Nat) : (s.raiseRack r).hub.failedHeads = s.hub.failedHeads := (raiseRack_only s r).failedHeads_eq rfl
@[simp] theorem raiseRack_epoch (s : State) (r : Nat) : (s.raiseRack r).hub.epoch = s.hub.epoch := (raiseRack_only s r).epoch_eq rfl
@[simp] theorem raiseRack_lockIn (s : State) (r : Nat) : (s.raiseRack r).hub.lockIn = s.hub.lockIn := (raiseRack_only s r).lockIn_eq rfl
@[simp] theorem raiseRack_worlds (s : State) (r : Nat) : (s.raiseRack r).tmp.worlds = s.tmp.worlds := (raiseRack_only s r).worlds_eq rfl
@[simp] theorem raiseRack_slots (s : State) (r : Nat) : (s.raiseRack r).tmp.slots = s.tmp.slots := (raiseRack_only s r).slots_eq rfl
@[simp] theorem raiseRack_subs (s : State) (r : Nat) : (s.raiseRack r).tmp.subs = s.tmp.subs := (raiseRack_only s r).subs_eq rfl
@[simp] theorem raiseRack_inbox (s : State) (r : Nat) : (s.raiseRack r).fab.inbox = s.fab.inbox := (raiseRack_only s r).inbox_eq rfl
@[simp] theorem raiseRack_spans (s : State) (r : Nat) : (s.raiseRack r).fab.spans = s.fab.spans := (raiseRack_only s r).spans_eq rfl
@[simp] theorem raiseRack_mail (s : State) (r : Nat) : (s.raiseRack r).fab.mail = s.fab.mail := (raiseRack_only s r).mail_eq rfl
@[simp] theorem raiseRack_phase (s : State) (r : Nat) : (s.raiseRack r).aon.phase = s.aon.phase := (raiseRack_only s r).phase_eq rfl
@[simp] theorem raiseRack_dispatchOff (s : State) (r : Nat) : (s.raiseRack r).pwr.dispatchOff = s.pwr.dispatchOff := (raiseRack_only s r).dispatchOff_eq rfl
@[simp] theorem raiseRack_hubP (s : State) (r : Nat) : (s.raiseRack r).hub.p = s.hub.p := (raiseRack_only s r).hubP_eq rfl
@[simp] theorem raiseRack_sets (s : State) (r : Nat) : (s.raiseRack r).racks.sets = s.racks.sets := (raiseRack_only s r).sets_eq rfl
@[simp] theorem raiseRack_bootSt (s : State) (r : Nat) : (s.raiseRack r).boot.st = s.boot.st := (raiseRack_only s r).bootSt_eq rfl
@[simp] theorem raiseRack_bootPhase (s : State) (r : Nat) : (s.raiseRack r).boot.phase = s.boot.phase := (raiseRack_only s r).bootPhase_eq rfl
@[simp] theorem raiseRack_chartersValid (s : State) (r : Nat) : (s.raiseRack r).boot.chartersValid = s.boot.chartersValid := (raiseRack_only s r).chartersValid_eq rfl
@[simp] theorem raiseRack_amending (s : State) (r : Nat) : (s.raiseRack r).boot.amending = s.boot.amending := (raiseRack_only s r).amending_eq rfl
@[simp] theorem raiseRack_stwReset (s : State) (r : Nat) : (s.raiseRack r).flt.stwReset = s.flt.stwReset := (raiseRack_only s r).stwReset_eq rfl
@[simp] theorem raiseRack_trcSt (s : State) (r : Nat) : (s.raiseRack r).trc.st = s.trc.st := (raiseRack_only s r).trcSt_eq rfl
@[simp] theorem raiseRack_trcOwner (s : State) (r : Nat) : (s.raiseRack r).trc.owner = s.trc.owner := (raiseRack_only s r).trcOwner_eq rfl
@[simp] theorem raiseRack_tile (s : State) (r : Nat) (i' : Nat) : (s.raiseRack r).tile i' = s.tile i' := (raiseRack_only s r).tile_eq rfl i'
@[simp] theorem raiseRack_port (s : State) (r : Nat) (i' : Nat) : (s.raiseRack r).port i' = s.port i' := (raiseRack_only s r).port_eq rfl i'
@[simp] theorem raiseRack_world (s : State) (r : Nat) (i' : Nat) : (s.raiseRack r).world i' = s.world i' := (raiseRack_only s r).world_eq rfl i'
@[simp] theorem raiseRack_rack (s : State) (r : Nat) (i' : Nat) : (s.raiseRack r).rack i' = s.rack i' := (raiseRack_only s r).rack_eq rfl i'
@[simp] theorem raiseRack_link (s : State) (r : Nat) (i' : Nat) : (s.raiseRack r).link i' = s.link i' := (raiseRack_only s r).link_eq rfl i'
@[simp] theorem raiseRack_master (s : State) (r : Nat) (i' : Nat) : (s.raiseRack r).master i' = s.master i' := (raiseRack_only s r).master_eq rfl i'
@[simp] theorem raiseRack_span (s : State) (r : Nat) (i' : Nat) : (s.raiseRack r).span i' = s.span i' := (raiseRack_only s r).span_eq rfl i'
@[simp] theorem raiseRack_fence (s : State) (r : Nat) (i' : Nat) : (s.raiseRack r).fence i' = s.fence i' := (raiseRack_only s r).fence_eq rfl i'
@[simp] theorem raiseRack_dom (s : State) (r : Nat) (i' : Nat) : (s.raiseRack r).dom i' = s.dom i' := (raiseRack_only s r).dom_eq rfl i'
@[simp] theorem raiseRack_pip (s : State) (r : Nat) (i' : Nat) : (s.raiseRack r).pip i' = s.pip i' := (raiseRack_only s r).pip_eq rfl i'
@[simp] theorem raiseRack_rackSet (s : State) (r : Nat) (i' : Nat) : (s.raiseRack r).rackSet i' = s.rackSet i' := (raiseRack_only s r).rackSet_eq rfl i'
@[simp] theorem raiseRack_isReady (s : State) (r : Nat) : (s.raiseRack r).isReady = s.isReady := (raiseRack_only s r).isReady_eq rfl
@[simp] theorem raiseRack_domClass (s : State) (r : Nat) (d' : Nat) : (s.raiseRack r).domClass d' = s.domClass d' := (raiseRack_only s r).domClass_eq rfl d'
@[simp] theorem raiseRack_fenceable (s : State) (r : Nat) (d' : Nat) : (s.raiseRack r).fenceable d' = s.fenceable d' := (raiseRack_only s r).fenceable_eq rfl rfl d'
@[simp] theorem raiseRack_tilePresent (s : State) (r : Nat) (k' : Nat) : (s.raiseRack r).tilePresent k' = s.tilePresent k' := (raiseRack_only s r).tilePresent_eq rfl rfl k'
@[simp] theorem raiseRack_domActive (s : State) (r : Nat) (d' : Nat) : (s.raiseRack r).domActive d' = s.domActive d' := (raiseRack_only s r).domActive_eq rfl d'
@[simp] theorem raiseRack_tileActive (s : State) (r : Nat) (d' : Nat) : (s.raiseRack r).tileActive d' = s.tileActive d' := (raiseRack_only s r).tileActive_eq rfl d'
@[simp] theorem raiseRack_tileRuns (s : State) (r : Nat) (d' : Nat) : (s.raiseRack r).tileRuns d' = s.tileRuns d' := (raiseRack_only s r).tileRuns_eq rfl d'
@[simp] theorem raiseRack_right (s : State) (r : Nat) (m' : Nat) (tg' : Target) : (s.raiseRack r).right m' tg' = s.right m' tg' := (raiseRack_only s r).right_eq rfl rfl rfl m' tg'
@[simp] theorem raiseRack_has (s : State) (r : Nat) (m' : Nat) (tg' : Target) (r' : Right) : (s.raiseRack r).has m' tg' r' = s.has m' tg' r' := (raiseRack_only s r).has_eq rfl rfl rfl m' tg' r'
@[simp] theorem raiseRack_pipRight (s : State) (r : Nat) (m' n' : Nat) : (s.raiseRack r).pipRight m' n' = s.pipRight m' n' := (raiseRack_only s r).pipRight_eq rfl rfl rfl rfl m' n'
@[simp] theorem raiseRack_traceOn (s : State) (r : Nat) : (s.raiseRack r).traceOn = s.traceOn := (raiseRack_only s r).traceOn_eq rfl rfl
@[simp] theorem raiseRack_memAddr (s : State) (r : Nat) (a' : Nat) : (s.raiseRack r).memAddr a' = s.memAddr a' := (raiseRack_only s r).memAddr_eq rfl a'
@[simp] theorem raiseRack_lockstep (s : State) (r : Nat) (c' : Nat) : (s.raiseRack r).lockstep c' = s.lockstep c' := (raiseRack_only s r).lockstep_eq rfl c'

/-! ### rackPut -/

theorem rackPut_only (s : State) (r src : Nat) (msg : List DWord) : OnlyM 0x101000000 s (s.rackPut r src msg) := only_rackPut (OnlyM.refl _ s) rfl

@[simp] theorem rackPut_pkg (s : State) (r src : Nat) (msg : List DWord) : (s.rackPut r src msg).pkg = s.pkg := (rackPut_only s r src msg).pkg_eq rfl
@[simp] theorem rackPut_fuses (s : State) (r src : Nat) (msg : List DWord) : (s.rackPut r src msg).fuses = s.fuses := (rackPut_only s r src msg).fuses_eq rfl
@[simp] theorem rackPut_mem (s : State) (r src : Nat) (msg : List DWord) : (s.rackPut r src msg).mem = s.mem := (rackPut_only s r src msg).mem_eq rfl
@[simp] theorem rackPut_freeCtr (s : State) (r src : Nat) (msg : List DWord) : (s.rackPut r src msg).freeCtr = s.freeCtr := (rackPut_only s r src msg).freeCtr_eq rfl
@[simp] theorem rackPut_pending (s : State) (r src : Nat) (msg : List DWord) : (s.rackPut r src msg).pending = s.pending := (rackPut_only s r src msg).pending_eq rfl
@[simp] theorem rackPut_pips (s : State) (r src : Nat) (msg : List DWord) : (s.rackPut r src msg).pips = s.pips := (rackPut_only s r src msg).pips_eq rfl
@[simp] theorem rackPut_pool (s : State) (r src : Nat) (msg : List DWord) : (s.rackPut r src msg).pool = s.pool := (rackPut_only s r src msg).pool_eq rfl
@[simp] theorem rackPut_wall (s : State) (r src : Nat) (msg : List DWord) : (s.rackPut r src msg).aon.wall = s.aon.wall := (rackPut_only s r src msg).wall_eq rfl
@[simp] theorem rackPut_doms (s : State) (r src : Nat) (msg : List DWord) : (s.rackPut r src msg).pwr.doms = s.pwr.doms := (rackPut_only s r src msg).doms_eq rfl
@[simp] theorem rackPut_executing (s : State) (r src : Nat) (msg : List DWord) : (s.rackPut r src msg).hub.executing = s.hub.executing := (rackPut_only s r src msg).executing_eq rfl
@[simp] theorem rackPut_failedHeads (s : State) (r src : Nat) (msg : List DWord) : (s.rackPut r src msg).hub.failedHeads = s.hub.failedHeads := (rackPut_only s r src msg).failedHeads_eq rfl
@[simp] theorem rackPut_epoch (s : State) (r src : Nat) (msg : List DWord) : (s.rackPut r src msg).hub.epoch = s.hub.epoch := (rackPut_only s r src msg).epoch_eq rfl
@[simp] theorem rackPut_lockIn (s : State) (r src : Nat) (msg : List DWord) : (s.rackPut r src msg).hub.lockIn = s.hub.lockIn := (rackPut_only s r src msg).lockIn_eq rfl
@[simp] theorem rackPut_worlds (s : State) (r src : Nat) (msg : List DWord) : (s.rackPut r src msg).tmp.worlds = s.tmp.worlds := (rackPut_only s r src msg).worlds_eq rfl
@[simp] theorem rackPut_slots (s : State) (r src : Nat) (msg : List DWord) : (s.rackPut r src msg).tmp.slots = s.tmp.slots := (rackPut_only s r src msg).slots_eq rfl
@[simp] theorem rackPut_subs (s : State) (r src : Nat) (msg : List DWord) : (s.rackPut r src msg).tmp.subs = s.tmp.subs := (rackPut_only s r src msg).subs_eq rfl
@[simp] theorem rackPut_inbox (s : State) (r src : Nat) (msg : List DWord) : (s.rackPut r src msg).fab.inbox = s.fab.inbox := (rackPut_only s r src msg).inbox_eq rfl
@[simp] theorem rackPut_spans (s : State) (r src : Nat) (msg : List DWord) : (s.rackPut r src msg).fab.spans = s.fab.spans := (rackPut_only s r src msg).spans_eq rfl
@[simp] theorem rackPut_mail (s : State) (r src : Nat) (msg : List DWord) : (s.rackPut r src msg).fab.mail = s.fab.mail := (rackPut_only s r src msg).mail_eq rfl
@[simp] theorem rackPut_phase (s : State) (r src : Nat) (msg : List DWord) : (s.rackPut r src msg).aon.phase = s.aon.phase := (rackPut_only s r src msg).phase_eq rfl
@[simp] theorem rackPut_dispatchOff (s : State) (r src : Nat) (msg : List DWord) : (s.rackPut r src msg).pwr.dispatchOff = s.pwr.dispatchOff := (rackPut_only s r src msg).dispatchOff_eq rfl
@[simp] theorem rackPut_hubP (s : State) (r src : Nat) (msg : List DWord) : (s.rackPut r src msg).hub.p = s.hub.p := (rackPut_only s r src msg).hubP_eq rfl
@[simp] theorem rackPut_sets (s : State) (r src : Nat) (msg : List DWord) : (s.rackPut r src msg).racks.sets = s.racks.sets := (rackPut_only s r src msg).sets_eq rfl
@[simp] theorem rackPut_bootSt (s : State) (r src : Nat) (msg : List DWord) : (s.rackPut r src msg).boot.st = s.boot.st := (rackPut_only s r src msg).bootSt_eq rfl
@[simp] theorem rackPut_bootPhase (s : State) (r src : Nat) (msg : List DWord) : (s.rackPut r src msg).boot.phase = s.boot.phase := (rackPut_only s r src msg).bootPhase_eq rfl
@[simp] theorem rackPut_chartersValid (s : State) (r src : Nat) (msg : List DWord) : (s.rackPut r src msg).boot.chartersValid = s.boot.chartersValid := (rackPut_only s r src msg).chartersValid_eq rfl
@[simp] theorem rackPut_amending (s : State) (r src : Nat) (msg : List DWord) : (s.rackPut r src msg).boot.amending = s.boot.amending := (rackPut_only s r src msg).amending_eq rfl
@[simp] theorem rackPut_stwReset (s : State) (r src : Nat) (msg : List DWord) : (s.rackPut r src msg).flt.stwReset = s.flt.stwReset := (rackPut_only s r src msg).stwReset_eq rfl
@[simp] theorem rackPut_trcSt (s : State) (r src : Nat) (msg : List DWord) : (s.rackPut r src msg).trc.st = s.trc.st := (rackPut_only s r src msg).trcSt_eq rfl
@[simp] theorem rackPut_trcOwner (s : State) (r src : Nat) (msg : List DWord) : (s.rackPut r src msg).trc.owner = s.trc.owner := (rackPut_only s r src msg).trcOwner_eq rfl
@[simp] theorem rackPut_tile (s : State) (r src : Nat) (msg : List DWord) (i' : Nat) : (s.rackPut r src msg).tile i' = s.tile i' := (rackPut_only s r src msg).tile_eq rfl i'
@[simp] theorem rackPut_port (s : State) (r src : Nat) (msg : List DWord) (i' : Nat) : (s.rackPut r src msg).port i' = s.port i' := (rackPut_only s r src msg).port_eq rfl i'
@[simp] theorem rackPut_world (s : State) (r src : Nat) (msg : List DWord) (i' : Nat) : (s.rackPut r src msg).world i' = s.world i' := (rackPut_only s r src msg).world_eq rfl i'
@[simp] theorem rackPut_link (s : State) (r src : Nat) (msg : List DWord) (i' : Nat) : (s.rackPut r src msg).link i' = s.link i' := (rackPut_only s r src msg).link_eq rfl i'
@[simp] theorem rackPut_master (s : State) (r src : Nat) (msg : List DWord) (i' : Nat) : (s.rackPut r src msg).master i' = s.master i' := (rackPut_only s r src msg).master_eq rfl i'
@[simp] theorem rackPut_span (s : State) (r src : Nat) (msg : List DWord) (i' : Nat) : (s.rackPut r src msg).span i' = s.span i' := (rackPut_only s r src msg).span_eq rfl i'
@[simp] theorem rackPut_fence (s : State) (r src : Nat) (msg : List DWord) (i' : Nat) : (s.rackPut r src msg).fence i' = s.fence i' := (rackPut_only s r src msg).fence_eq rfl i'
@[simp] theorem rackPut_dom (s : State) (r src : Nat) (msg : List DWord) (i' : Nat) : (s.rackPut r src msg).dom i' = s.dom i' := (rackPut_only s r src msg).dom_eq rfl i'
@[simp] theorem rackPut_pip (s : State) (r src : Nat) (msg : List DWord) (i' : Nat) : (s.rackPut r src msg).pip i' = s.pip i' := (rackPut_only s r src msg).pip_eq rfl i'
@[simp] theorem rackPut_rackSet (s : State) (r src : Nat) (msg : List DWord) (i' : Nat) : (s.rackPut r src msg).rackSet i' = s.rackSet i' := (rackPut_only s r src msg).rackSet_eq rfl i'
@[simp] theorem rackPut_isReady (s : State) (r src : Nat) (msg : List DWord) : (s.rackPut r src msg).isReady = s.isReady := (rackPut_only s r src msg).isReady_eq rfl
@[simp] theorem rackPut_domClass (s : State) (r src : Nat) (msg : List DWord) (d' : Nat) : (s.rackPut r src msg).domClass d' = s.domClass d' := (rackPut_only s r src msg).domClass_eq rfl d'
@[simp] theorem rackPut_fenceable (s : State) (r src : Nat) (msg : List DWord) (d' : Nat) : (s.rackPut r src msg).fenceable d' = s.fenceable d' := (rackPut_only s r src msg).fenceable_eq rfl rfl d'
@[simp] theorem rackPut_tilePresent (s : State) (r src : Nat) (msg : List DWord) (k' : Nat) : (s.rackPut r src msg).tilePresent k' = s.tilePresent k' := (rackPut_only s r src msg).tilePresent_eq rfl rfl k'
@[simp] theorem rackPut_domActive (s : State) (r src : Nat) (msg : List DWord) (d' : Nat) : (s.rackPut r src msg).domActive d' = s.domActive d' := (rackPut_only s r src msg).domActive_eq rfl d'
@[simp] theorem rackPut_tileActive (s : State) (r src : Nat) (msg : List DWord) (d' : Nat) : (s.rackPut r src msg).tileActive d' = s.tileActive d' := (rackPut_only s r src msg).tileActive_eq rfl d'
@[simp] theorem rackPut_tileRuns (s : State) (r src : Nat) (msg : List DWord) (d' : Nat) : (s.rackPut r src msg).tileRuns d' = s.tileRuns d' := (rackPut_only s r src msg).tileRuns_eq rfl d'
@[simp] theorem rackPut_right (s : State) (r src : Nat) (msg : List DWord) (m' : Nat) (tg' : Target) : (s.rackPut r src msg).right m' tg' = s.right m' tg' := (rackPut_only s r src msg).right_eq rfl rfl rfl m' tg'
@[simp] theorem rackPut_has (s : State) (r src : Nat) (msg : List DWord) (m' : Nat) (tg' : Target) (r' : Right) : (s.rackPut r src msg).has m' tg' r' = s.has m' tg' r' := (rackPut_only s r src msg).has_eq rfl rfl rfl m' tg' r'
@[simp] theorem rackPut_pipRight (s : State) (r src : Nat) (msg : List DWord) (m' n' : Nat) : (s.rackPut r src msg).pipRight m' n' = s.pipRight m' n' := (rackPut_only s r src msg).pipRight_eq rfl rfl rfl rfl m' n'
@[simp] theorem rackPut_traceOn (s : State) (r src : Nat) (msg : List DWord) : (s.rackPut r src msg).traceOn = s.traceOn := (rackPut_only s r src msg).traceOn_eq rfl rfl
@[simp] theorem rackPut_memAddr (s : State) (r src : Nat) (msg : List DWord) (a' : Nat) : (s.rackPut r src msg).memAddr a' = s.memAddr a' := (rackPut_only s r src msg).memAddr_eq rfl a'
@[simp] theorem rackPut_lockstep (s : State) (r src : Nat) (msg : List DWord) (c' : Nat) : (s.rackPut r src msg).lockstep c' = s.lockstep c' := (rackPut_only s r src msg).lockstep_eq rfl c'

/-! ### dropMsg -/

theorem dropMsg_only (s : State) (r src : Nat) (w : Option Nat) (msg : List DWord) : OnlyM 0x100800100000000 s (s.dropMsg r src w msg) := only_dropMsg (OnlyM.refl _ s) rfl

@[simp] theorem dropMsg_pkg (s : State) (r src : Nat) (w : Option Nat) (msg : List DWord) : (s.dropMsg r src w msg).pkg = s.pkg := (dropMsg_only s r src w msg).pkg_eq rfl
@[simp] theorem dropMsg_fuses (s : State) (r src : Nat) (w : Option Nat) (msg : List DWord) : (s.dropMsg r src w msg).fuses = s.fuses := (dropMsg_only s r src w msg).fuses_eq rfl
@[simp] theorem dropMsg_mem (s : State) (r src : Nat) (w : Option Nat) (msg : List DWord) : (s.dropMsg r src w msg).mem = s.mem := (dropMsg_only s r src w msg).mem_eq rfl
@[simp] theorem dropMsg_freeCtr (s : State) (r src : Nat) (w : Option Nat) (msg : List DWord) : (s.dropMsg r src w msg).freeCtr = s.freeCtr := (dropMsg_only s r src w msg).freeCtr_eq rfl
@[simp] theorem dropMsg_pending (s : State) (r src : Nat) (w : Option Nat) (msg : List DWord) : (s.dropMsg r src w msg).pending = s.pending := (dropMsg_only s r src w msg).pending_eq rfl
@[simp] theorem dropMsg_pips (s : State) (r src : Nat) (w : Option Nat) (msg : List DWord) : (s.dropMsg r src w msg).pips = s.pips := (dropMsg_only s r src w msg).pips_eq rfl
@[simp] theorem dropMsg_pool (s : State) (r src : Nat) (w : Option Nat) (msg : List DWord) : (s.dropMsg r src w msg).pool = s.pool := (dropMsg_only s r src w msg).pool_eq rfl
@[simp] theorem dropMsg_wall (s : State) (r src : Nat) (w : Option Nat) (msg : List DWord) : (s.dropMsg r src w msg).aon.wall = s.aon.wall := (dropMsg_only s r src w msg).wall_eq rfl
@[simp] theorem dropMsg_doms (s : State) (r src : Nat) (w : Option Nat) (msg : List DWord) : (s.dropMsg r src w msg).pwr.doms = s.pwr.doms := (dropMsg_only s r src w msg).doms_eq rfl
@[simp] theorem dropMsg_lds (s : State) (r src : Nat) (w : Option Nat) (msg : List DWord) : (s.dropMsg r src w msg).hub.lds = s.hub.lds := (dropMsg_only s r src w msg).lds_eq rfl
@[simp] theorem dropMsg_executing (s : State) (r src : Nat) (w : Option Nat) (msg : List DWord) : (s.dropMsg r src w msg).hub.executing = s.hub.executing := (dropMsg_only s r src w msg).executing_eq rfl
@[simp] theorem dropMsg_failedHeads (s : State) (r src : Nat) (w : Option Nat) (msg : List DWord) : (s.dropMsg r src w msg).hub.failedHeads = s.hub.failedHeads := (dropMsg_only s r src w msg).failedHeads_eq rfl
@[simp] theorem dropMsg_epoch (s : State) (r src : Nat) (w : Option Nat) (msg : List DWord) : (s.dropMsg r src w msg).hub.epoch = s.hub.epoch := (dropMsg_only s r src w msg).epoch_eq rfl
@[simp] theorem dropMsg_lockIn (s : State) (r src : Nat) (w : Option Nat) (msg : List DWord) : (s.dropMsg r src w msg).hub.lockIn = s.hub.lockIn := (dropMsg_only s r src w msg).lockIn_eq rfl
@[simp] theorem dropMsg_worlds (s : State) (r src : Nat) (w : Option Nat) (msg : List DWord) : (s.dropMsg r src w msg).tmp.worlds = s.tmp.worlds := (dropMsg_only s r src w msg).worlds_eq rfl
@[simp] theorem dropMsg_slots (s : State) (r src : Nat) (w : Option Nat) (msg : List DWord) : (s.dropMsg r src w msg).tmp.slots = s.tmp.slots := (dropMsg_only s r src w msg).slots_eq rfl
@[simp] theorem dropMsg_subs (s : State) (r src : Nat) (w : Option Nat) (msg : List DWord) : (s.dropMsg r src w msg).tmp.subs = s.tmp.subs := (dropMsg_only s r src w msg).subs_eq rfl
@[simp] theorem dropMsg_inbox (s : State) (r src : Nat) (w : Option Nat) (msg : List DWord) : (s.dropMsg r src w msg).fab.inbox = s.fab.inbox := (dropMsg_only s r src w msg).inbox_eq rfl
@[simp] theorem dropMsg_spans (s : State) (r src : Nat) (w : Option Nat) (msg : List DWord) : (s.dropMsg r src w msg).fab.spans = s.fab.spans := (dropMsg_only s r src w msg).spans_eq rfl
@[simp] theorem dropMsg_mail (s : State) (r src : Nat) (w : Option Nat) (msg : List DWord) : (s.dropMsg r src w msg).fab.mail = s.fab.mail := (dropMsg_only s r src w msg).mail_eq rfl
@[simp] theorem dropMsg_phase (s : State) (r src : Nat) (w : Option Nat) (msg : List DWord) : (s.dropMsg r src w msg).aon.phase = s.aon.phase := (dropMsg_only s r src w msg).phase_eq rfl
@[simp] theorem dropMsg_dispatchOff (s : State) (r src : Nat) (w : Option Nat) (msg : List DWord) : (s.dropMsg r src w msg).pwr.dispatchOff = s.pwr.dispatchOff := (dropMsg_only s r src w msg).dispatchOff_eq rfl
@[simp] theorem dropMsg_hubP (s : State) (r src : Nat) (w : Option Nat) (msg : List DWord) : (s.dropMsg r src w msg).hub.p = s.hub.p := (dropMsg_only s r src w msg).hubP_eq rfl
@[simp] theorem dropMsg_sets (s : State) (r src : Nat) (w : Option Nat) (msg : List DWord) : (s.dropMsg r src w msg).racks.sets = s.racks.sets := (dropMsg_only s r src w msg).sets_eq rfl
@[simp] theorem dropMsg_bootSt (s : State) (r src : Nat) (w : Option Nat) (msg : List DWord) : (s.dropMsg r src w msg).boot.st = s.boot.st := (dropMsg_only s r src w msg).bootSt_eq rfl
@[simp] theorem dropMsg_bootPhase (s : State) (r src : Nat) (w : Option Nat) (msg : List DWord) : (s.dropMsg r src w msg).boot.phase = s.boot.phase := (dropMsg_only s r src w msg).bootPhase_eq rfl
@[simp] theorem dropMsg_chartersValid (s : State) (r src : Nat) (w : Option Nat) (msg : List DWord) : (s.dropMsg r src w msg).boot.chartersValid = s.boot.chartersValid := (dropMsg_only s r src w msg).chartersValid_eq rfl
@[simp] theorem dropMsg_amending (s : State) (r src : Nat) (w : Option Nat) (msg : List DWord) : (s.dropMsg r src w msg).boot.amending = s.boot.amending := (dropMsg_only s r src w msg).amending_eq rfl
@[simp] theorem dropMsg_stwReset (s : State) (r src : Nat) (w : Option Nat) (msg : List DWord) : (s.dropMsg r src w msg).flt.stwReset = s.flt.stwReset := (dropMsg_only s r src w msg).stwReset_eq rfl
@[simp] theorem dropMsg_trcSt (s : State) (r src : Nat) (w : Option Nat) (msg : List DWord) : (s.dropMsg r src w msg).trc.st = s.trc.st := (dropMsg_only s r src w msg).trcSt_eq rfl
@[simp] theorem dropMsg_trcOwner (s : State) (r src : Nat) (w : Option Nat) (msg : List DWord) : (s.dropMsg r src w msg).trc.owner = s.trc.owner := (dropMsg_only s r src w msg).trcOwner_eq rfl
@[simp] theorem dropMsg_tile (s : State) (r src : Nat) (w : Option Nat) (msg : List DWord) (i' : Nat) : (s.dropMsg r src w msg).tile i' = s.tile i' := (dropMsg_only s r src w msg).tile_eq rfl i'
@[simp] theorem dropMsg_port (s : State) (r src : Nat) (w : Option Nat) (msg : List DWord) (i' : Nat) : (s.dropMsg r src w msg).port i' = s.port i' := (dropMsg_only s r src w msg).port_eq rfl i'
@[simp] theorem dropMsg_world (s : State) (r src : Nat) (w : Option Nat) (msg : List DWord) (i' : Nat) : (s.dropMsg r src w msg).world i' = s.world i' := (dropMsg_only s r src w msg).world_eq rfl i'
@[simp] theorem dropMsg_ld (s : State) (r src : Nat) (w : Option Nat) (msg : List DWord) (i' : Nat) : (s.dropMsg r src w msg).ld i' = s.ld i' := (dropMsg_only s r src w msg).ld_eq rfl i'
@[simp] theorem dropMsg_link (s : State) (r src : Nat) (w : Option Nat) (msg : List DWord) (i' : Nat) : (s.dropMsg r src w msg).link i' = s.link i' := (dropMsg_only s r src w msg).link_eq rfl i'
@[simp] theorem dropMsg_master (s : State) (r src : Nat) (w : Option Nat) (msg : List DWord) (i' : Nat) : (s.dropMsg r src w msg).master i' = s.master i' := (dropMsg_only s r src w msg).master_eq rfl i'
@[simp] theorem dropMsg_span (s : State) (r src : Nat) (w : Option Nat) (msg : List DWord) (i' : Nat) : (s.dropMsg r src w msg).span i' = s.span i' := (dropMsg_only s r src w msg).span_eq rfl i'
@[simp] theorem dropMsg_fence (s : State) (r src : Nat) (w : Option Nat) (msg : List DWord) (i' : Nat) : (s.dropMsg r src w msg).fence i' = s.fence i' := (dropMsg_only s r src w msg).fence_eq rfl i'
@[simp] theorem dropMsg_dom (s : State) (r src : Nat) (w : Option Nat) (msg : List DWord) (i' : Nat) : (s.dropMsg r src w msg).dom i' = s.dom i' := (dropMsg_only s r src w msg).dom_eq rfl i'
@[simp] theorem dropMsg_pip (s : State) (r src : Nat) (w : Option Nat) (msg : List DWord) (i' : Nat) : (s.dropMsg r src w msg).pip i' = s.pip i' := (dropMsg_only s r src w msg).pip_eq rfl i'
@[simp] theorem dropMsg_rackSet (s : State) (r src : Nat) (w : Option Nat) (msg : List DWord) (i' : Nat) : (s.dropMsg r src w msg).rackSet i' = s.rackSet i' := (dropMsg_only s r src w msg).rackSet_eq rfl i'
@[simp] theorem dropMsg_isReady (s : State) (r src : Nat) (w : Option Nat) (msg : List DWord) : (s.dropMsg r src w msg).isReady = s.isReady := (dropMsg_only s r src w msg).isReady_eq rfl
@[simp] theorem dropMsg_domClass (s : State) (r src : Nat) (w : Option Nat) (msg : List DWord) (d' : Nat) : (s.dropMsg r src w msg).domClass d' = s.domClass d' := (dropMsg_only s r src w msg).domClass_eq rfl d'
@[simp] theorem dropMsg_fenceable (s : State) (r src : Nat) (w : Option Nat) (msg : List DWord) (d' : Nat) : (s.dropMsg r src w msg).fenceable d' = s.fenceable d' := (dropMsg_only s r src w msg).fenceable_eq rfl rfl d'
@[simp] theorem dropMsg_tilePresent (s : State) (r src : Nat) (w : Option Nat) (msg : List DWord) (k' : Nat) : (s.dropMsg r src w msg).tilePresent k' = s.tilePresent k' := (dropMsg_only s r src w msg).tilePresent_eq rfl rfl k'
@[simp] theorem dropMsg_domActive (s : State) (r src : Nat) (w : Option Nat) (msg : List DWord) (d' : Nat) : (s.dropMsg r src w msg).domActive d' = s.domActive d' := (dropMsg_only s r src w msg).domActive_eq rfl d'
@[simp] theorem dropMsg_tileActive (s : State) (r src : Nat) (w : Option Nat) (msg : List DWord) (d' : Nat) : (s.dropMsg r src w msg).tileActive d' = s.tileActive d' := (dropMsg_only s r src w msg).tileActive_eq rfl d'
@[simp] theorem dropMsg_tileRuns (s : State) (r src : Nat) (w : Option Nat) (msg : List DWord) (d' : Nat) : (s.dropMsg r src w msg).tileRuns d' = s.tileRuns d' := (dropMsg_only s r src w msg).tileRuns_eq rfl d'
@[simp] theorem dropMsg_right (s : State) (r src : Nat) (w : Option Nat) (msg : List DWord) (m' : Nat) (tg' : Target) : (s.dropMsg r src w msg).right m' tg' = s.right m' tg' := (dropMsg_only s r src w msg).right_eq rfl rfl rfl m' tg'
@[simp] theorem dropMsg_has (s : State) (r src : Nat) (w : Option Nat) (msg : List DWord) (m' : Nat) (tg' : Target) (r' : Right) : (s.dropMsg r src w msg).has m' tg' r' = s.has m' tg' r' := (dropMsg_only s r src w msg).has_eq rfl rfl rfl m' tg' r'
@[simp] theorem dropMsg_pipRight (s : State) (r src : Nat) (w : Option Nat) (msg : List DWord) (m' n' : Nat) : (s.dropMsg r src w msg).pipRight m' n' = s.pipRight m' n' := (dropMsg_only s r src w msg).pipRight_eq rfl rfl rfl rfl m' n'
@[simp] theorem dropMsg_ldOfRack (s : State) (r src : Nat) (w : Option Nat) (msg : List DWord) (r' : Nat) : (s.dropMsg r src w msg).ldOfRack r' = s.ldOfRack r' := (dropMsg_only s r src w msg).ldOfRack_eq rfl r'
@[simp] theorem dropMsg_traceOn (s : State) (r src : Nat) (w : Option Nat) (msg : List DWord) : (s.dropMsg r src w msg).traceOn = s.traceOn := (dropMsg_only s r src w msg).traceOn_eq rfl rfl
@[simp] theorem dropMsg_memAddr (s : State) (r src : Nat) (w : Option Nat) (msg : List DWord) (a' : Nat) : (s.dropMsg r src w msg).memAddr a' = s.memAddr a' := (dropMsg_only s r src w msg).memAddr_eq rfl a'
@[simp] theorem dropMsg_lockstep (s : State) (r src : Nat) (w : Option Nat) (msg : List DWord) (c' : Nat) : (s.dropMsg r src w msg).lockstep c' = s.lockstep c' := (dropMsg_only s r src w msg).lockstep_eq rfl c'

/-! ### postRecord -/

theorem postRecord_only (s : State) (r src kind : Nat) (c : Code) (w : Option Nat) (body : List DWord) : OnlyM 0x100800101000000 s (s.postRecord r src kind c w body) := only_postRecord (OnlyM.refl _ s) rfl

@[simp] theorem postRecord_pkg (s : State) (r src kind : Nat) (c : Code) (w : Option Nat) (body : List DWord) : (s.postRecord r src kind c w body).pkg = s.pkg := (postRecord_only s r src kind c w body).pkg_eq rfl
@[simp] theorem postRecord_fuses (s : State) (r src kind : Nat) (c : Code) (w : Option Nat) (body : List DWord) : (s.postRecord r src kind c w body).fuses = s.fuses := (postRecord_only s r src kind c w body).fuses_eq rfl
@[simp] theorem postRecord_mem (s : State) (r src kind : Nat) (c : Code) (w : Option Nat) (body : List DWord) : (s.postRecord r src kind c w body).mem = s.mem := (postRecord_only s r src kind c w body).mem_eq rfl
@[simp] theorem postRecord_freeCtr (s : State) (r src kind : Nat) (c : Code) (w : Option Nat) (body : List DWord) : (s.postRecord r src kind c w body).freeCtr = s.freeCtr := (postRecord_only s r src kind c w body).freeCtr_eq rfl
@[simp] theorem postRecord_pending (s : State) (r src kind : Nat) (c : Code) (w : Option Nat) (body : List DWord) : (s.postRecord r src kind c w body).pending = s.pending := (postRecord_only s r src kind c w body).pending_eq rfl
@[simp] theorem postRecord_pips (s : State) (r src kind : Nat) (c : Code) (w : Option Nat) (body : List DWord) : (s.postRecord r src kind c w body).pips = s.pips := (postRecord_only s r src kind c w body).pips_eq rfl
@[simp] theorem postRecord_pool (s : State) (r src kind : Nat) (c : Code) (w : Option Nat) (body : List DWord) : (s.postRecord r src kind c w body).pool = s.pool := (postRecord_only s r src kind c w body).pool_eq rfl
@[simp] theorem postRecord_wall (s : State) (r src kind : Nat) (c : Code) (w : Option Nat) (body : List DWord) : (s.postRecord r src kind c w body).aon.wall = s.aon.wall := (postRecord_only s r src kind c w body).wall_eq rfl
@[simp] theorem postRecord_doms (s : State) (r src kind : Nat) (c : Code) (w : Option Nat) (body : List DWord) : (s.postRecord r src kind c w body).pwr.doms = s.pwr.doms := (postRecord_only s r src kind c w body).doms_eq rfl
@[simp] theorem postRecord_executing (s : State) (r src kind : Nat) (c : Code) (w : Option Nat) (body : List DWord) : (s.postRecord r src kind c w body).hub.executing = s.hub.executing := (postRecord_only s r src kind c w body).executing_eq rfl
@[simp] theorem postRecord_failedHeads (s : State) (r src kind : Nat) (c : Code) (w : Option Nat) (body : List DWord) : (s.postRecord r src kind c w body).hub.failedHeads = s.hub.failedHeads := (postRecord_only s r src kind c w body).failedHeads_eq rfl
@[simp] theorem postRecord_epoch (s : State) (r src kind : Nat) (c : Code) (w : Option Nat) (body : List DWord) : (s.postRecord r src kind c w body).hub.epoch = s.hub.epoch := (postRecord_only s r src kind c w body).epoch_eq rfl
@[simp] theorem postRecord_lockIn (s : State) (r src kind : Nat) (c : Code) (w : Option Nat) (body : List DWord) : (s.postRecord r src kind c w body).hub.lockIn = s.hub.lockIn := (postRecord_only s r src kind c w body).lockIn_eq rfl
@[simp] theorem postRecord_worlds (s : State) (r src kind : Nat) (c : Code) (w : Option Nat) (body : List DWord) : (s.postRecord r src kind c w body).tmp.worlds = s.tmp.worlds := (postRecord_only s r src kind c w body).worlds_eq rfl
@[simp] theorem postRecord_slots (s : State) (r src kind : Nat) (c : Code) (w : Option Nat) (body : List DWord) : (s.postRecord r src kind c w body).tmp.slots = s.tmp.slots := (postRecord_only s r src kind c w body).slots_eq rfl
@[simp] theorem postRecord_subs (s : State) (r src kind : Nat) (c : Code) (w : Option Nat) (body : List DWord) : (s.postRecord r src kind c w body).tmp.subs = s.tmp.subs := (postRecord_only s r src kind c w body).subs_eq rfl
@[simp] theorem postRecord_inbox (s : State) (r src kind : Nat) (c : Code) (w : Option Nat) (body : List DWord) : (s.postRecord r src kind c w body).fab.inbox = s.fab.inbox := (postRecord_only s r src kind c w body).inbox_eq rfl
@[simp] theorem postRecord_spans (s : State) (r src kind : Nat) (c : Code) (w : Option Nat) (body : List DWord) : (s.postRecord r src kind c w body).fab.spans = s.fab.spans := (postRecord_only s r src kind c w body).spans_eq rfl
@[simp] theorem postRecord_mail (s : State) (r src kind : Nat) (c : Code) (w : Option Nat) (body : List DWord) : (s.postRecord r src kind c w body).fab.mail = s.fab.mail := (postRecord_only s r src kind c w body).mail_eq rfl
@[simp] theorem postRecord_phase (s : State) (r src kind : Nat) (c : Code) (w : Option Nat) (body : List DWord) : (s.postRecord r src kind c w body).aon.phase = s.aon.phase := (postRecord_only s r src kind c w body).phase_eq rfl
@[simp] theorem postRecord_dispatchOff (s : State) (r src kind : Nat) (c : Code) (w : Option Nat) (body : List DWord) : (s.postRecord r src kind c w body).pwr.dispatchOff = s.pwr.dispatchOff := (postRecord_only s r src kind c w body).dispatchOff_eq rfl
@[simp] theorem postRecord_hubP (s : State) (r src kind : Nat) (c : Code) (w : Option Nat) (body : List DWord) : (s.postRecord r src kind c w body).hub.p = s.hub.p := (postRecord_only s r src kind c w body).hubP_eq rfl
@[simp] theorem postRecord_sets (s : State) (r src kind : Nat) (c : Code) (w : Option Nat) (body : List DWord) : (s.postRecord r src kind c w body).racks.sets = s.racks.sets := (postRecord_only s r src kind c w body).sets_eq rfl
@[simp] theorem postRecord_bootSt (s : State) (r src kind : Nat) (c : Code) (w : Option Nat) (body : List DWord) : (s.postRecord r src kind c w body).boot.st = s.boot.st := (postRecord_only s r src kind c w body).bootSt_eq rfl
@[simp] theorem postRecord_bootPhase (s : State) (r src kind : Nat) (c : Code) (w : Option Nat) (body : List DWord) : (s.postRecord r src kind c w body).boot.phase = s.boot.phase := (postRecord_only s r src kind c w body).bootPhase_eq rfl
@[simp] theorem postRecord_chartersValid (s : State) (r src kind : Nat) (c : Code) (w : Option Nat) (body : List DWord) : (s.postRecord r src kind c w body).boot.chartersValid = s.boot.chartersValid := (postRecord_only s r src kind c w body).chartersValid_eq rfl
@[simp] theorem postRecord_amending (s : State) (r src kind : Nat) (c : Code) (w : Option Nat) (body : List DWord) : (s.postRecord r src kind c w body).boot.amending = s.boot.amending := (postRecord_only s r src kind c w body).amending_eq rfl
@[simp] theorem postRecord_stwReset (s : State) (r src kind : Nat) (c : Code) (w : Option Nat) (body : List DWord) : (s.postRecord r src kind c w body).flt.stwReset = s.flt.stwReset := (postRecord_only s r src kind c w body).stwReset_eq rfl
@[simp] theorem postRecord_trcSt (s : State) (r src kind : Nat) (c : Code) (w : Option Nat) (body : List DWord) : (s.postRecord r src kind c w body).trc.st = s.trc.st := (postRecord_only s r src kind c w body).trcSt_eq rfl
@[simp] theorem postRecord_trcOwner (s : State) (r src kind : Nat) (c : Code) (w : Option Nat) (body : List DWord) : (s.postRecord r src kind c w body).trc.owner = s.trc.owner := (postRecord_only s r src kind c w body).trcOwner_eq rfl
@[simp] theorem postRecord_tile (s : State) (r src kind : Nat) (c : Code) (w : Option Nat) (body : List DWord) (i' : Nat) : (s.postRecord r src kind c w body).tile i' = s.tile i' := (postRecord_only s r src kind c w body).tile_eq rfl i'
@[simp] theorem postRecord_port (s : State) (r src kind : Nat) (c : Code) (w : Option Nat) (body : List DWord) (i' : Nat) : (s.postRecord r src kind c w body).port i' = s.port i' := (postRecord_only s r src kind c w body).port_eq rfl i'
@[simp] theorem postRecord_world (s : State) (r src kind : Nat) (c : Code) (w : Option Nat) (body : List DWord) (i' : Nat) : (s.postRecord r src kind c w body).world i' = s.world i' := (postRecord_only s r src kind c w body).world_eq rfl i'
@[simp] theorem postRecord_link (s : State) (r src kind : Nat) (c : Code) (w : Option Nat) (body : List DWord) (i' : Nat) : (s.postRecord r src kind c w body).link i' = s.link i' := (postRecord_only s r src kind c w body).link_eq rfl i'
@[simp] theorem postRecord_master (s : State) (r src kind : Nat) (c : Code) (w : Option Nat) (body : List DWord) (i' : Nat) : (s.postRecord r src kind c w body).master i' = s.master i' := (postRecord_only s r src kind c w body).master_eq rfl i'
@[simp] theorem postRecord_span (s : State) (r src kind : Nat) (c : Code) (w : Option Nat) (body : List DWord) (i' : Nat) : (s.postRecord r src kind c w body).span i' = s.span i' := (postRecord_only s r src kind c w body).span_eq rfl i'
@[simp] theorem postRecord_fence (s : State) (r src kind : Nat) (c : Code) (w : Option Nat) (body : List DWord) (i' : Nat) : (s.postRecord r src kind c w body).fence i' = s.fence i' := (postRecord_only s r src kind c w body).fence_eq rfl i'
@[simp] theorem postRecord_dom (s : State) (r src kind : Nat) (c : Code) (w : Option Nat) (body : List DWord) (i' : Nat) : (s.postRecord r src kind c w body).dom i' = s.dom i' := (postRecord_only s r src kind c w body).dom_eq rfl i'
@[simp] theorem postRecord_pip (s : State) (r src kind : Nat) (c : Code) (w : Option Nat) (body : List DWord) (i' : Nat) : (s.postRecord r src kind c w body).pip i' = s.pip i' := (postRecord_only s r src kind c w body).pip_eq rfl i'
@[simp] theorem postRecord_rackSet (s : State) (r src kind : Nat) (c : Code) (w : Option Nat) (body : List DWord) (i' : Nat) : (s.postRecord r src kind c w body).rackSet i' = s.rackSet i' := (postRecord_only s r src kind c w body).rackSet_eq rfl i'
@[simp] theorem postRecord_isReady (s : State) (r src kind : Nat) (c : Code) (w : Option Nat) (body : List DWord) : (s.postRecord r src kind c w body).isReady = s.isReady := (postRecord_only s r src kind c w body).isReady_eq rfl
@[simp] theorem postRecord_domClass (s : State) (r src kind : Nat) (c : Code) (w : Option Nat) (body : List DWord) (d' : Nat) : (s.postRecord r src kind c w body).domClass d' = s.domClass d' := (postRecord_only s r src kind c w body).domClass_eq rfl d'
@[simp] theorem postRecord_fenceable (s : State) (r src kind : Nat) (c : Code) (w : Option Nat) (body : List DWord) (d' : Nat) : (s.postRecord r src kind c w body).fenceable d' = s.fenceable d' := (postRecord_only s r src kind c w body).fenceable_eq rfl rfl d'
@[simp] theorem postRecord_tilePresent (s : State) (r src kind : Nat) (c : Code) (w : Option Nat) (body : List DWord) (k' : Nat) : (s.postRecord r src kind c w body).tilePresent k' = s.tilePresent k' := (postRecord_only s r src kind c w body).tilePresent_eq rfl rfl k'
@[simp] theorem postRecord_domActive (s : State) (r src kind : Nat) (c : Code) (w : Option Nat) (body : List DWord) (d' : Nat) : (s.postRecord r src kind c w body).domActive d' = s.domActive d' := (postRecord_only s r src kind c w body).domActive_eq rfl d'
@[simp] theorem postRecord_tileActive (s : State) (r src kind : Nat) (c : Code) (w : Option Nat) (body : List DWord) (d' : Nat) : (s.postRecord r src kind c w body).tileActive d' = s.tileActive d' := (postRecord_only s r src kind c w body).tileActive_eq rfl d'
@[simp] theorem postRecord_tileRuns (s : State) (r src kind : Nat) (c : Code) (w : Option Nat) (body : List DWord) (d' : Nat) : (s.postRecord r src kind c w body).tileRuns d' = s.tileRuns d' := (postRecord_only s r src kind c w body).tileRuns_eq rfl d'
@[simp] theorem postRecord_right (s : State) (r src kind : Nat) (c : Code) (w : Option Nat) (body : List DWord) (m' : Nat) (tg' : Target) : (s.postRecord r src kind c w body).right m' tg' = s.right m' tg' := (postRecord_only s r src kind c w body).right_eq rfl rfl rfl m' tg'
@[simp] theorem postRecord_has (s : State) (r src kind : Nat) (c : Code) (w : Option Nat) (body : List DWord) (m' : Nat) (tg' : Target) (r' : Right) : (s.postRecord r src kind c w body).has m' tg' r' = s.has m' tg' r' := (postRecord_only s r src kind c w body).has_eq rfl rfl rfl m' tg' r'
@[simp] theorem postRecord_pipRight (s : State) (r src kind : Nat) (c : Code) (w : Option Nat) (body : List DWord) (m' n' : Nat) : (s.postRecord r src kind c w body).pipRight m' n' = s.pipRight m' n' := (postRecord_only s r src kind c w body).pipRight_eq rfl rfl rfl rfl m' n'
@[simp] theorem postRecord_traceOn (s : State) (r src kind : Nat) (c : Code) (w : Option Nat) (body : List DWord) : (s.postRecord r src kind c w body).traceOn = s.traceOn := (postRecord_only s r src kind c w body).traceOn_eq rfl rfl
@[simp] theorem postRecord_memAddr (s : State) (r src kind : Nat) (c : Code) (w : Option Nat) (body : List DWord) (a' : Nat) : (s.postRecord r src kind c w body).memAddr a' = s.memAddr a' := (postRecord_only s r src kind c w body).memAddr_eq rfl a'
@[simp] theorem postRecord_lockstep (s : State) (r src kind : Nat) (c : Code) (w : Option Nat) (body : List DWord) (c' : Nat) : (s.postRecord r src kind c w body).lockstep c' = s.lockstep c' := (postRecord_only s r src kind c w body).lockstep_eq rfl c'

/-! ### postReserved -/

theorem postReserved_only (s : State) (r kind : Nat) (c : Code) (body : List DWord) : OnlyM 0x100000101000000 s (s.postReserved r kind c body) := only_postReserved (OnlyM.refl _ s) rfl

@[simp] theorem postReserved_pkg (s : State) (r kind : Nat) (c : Code) (body : List DWord) : (s.postReserved r kind c body).pkg = s.pkg := (postReserved_only s r kind c body).pkg_eq rfl
@[simp] theorem postReserved_fuses (s : State) (r kind : Nat) (c : Code) (body : List DWord) : (s.postReserved r kind c body).fuses = s.fuses := (postReserved_only s r kind c body).fuses_eq rfl
@[simp] theorem postReserved_mem (s : State) (r kind : Nat) (c : Code) (body : List DWord) : (s.postReserved r kind c body).mem = s.mem := (postReserved_only s r kind c body).mem_eq rfl
@[simp] theorem postReserved_freeCtr (s : State) (r kind : Nat) (c : Code) (body : List DWord) : (s.postReserved r kind c body).freeCtr = s.freeCtr := (postReserved_only s r kind c body).freeCtr_eq rfl
@[simp] theorem postReserved_pending (s : State) (r kind : Nat) (c : Code) (body : List DWord) : (s.postReserved r kind c body).pending = s.pending := (postReserved_only s r kind c body).pending_eq rfl
@[simp] theorem postReserved_pips (s : State) (r kind : Nat) (c : Code) (body : List DWord) : (s.postReserved r kind c body).pips = s.pips := (postReserved_only s r kind c body).pips_eq rfl
@[simp] theorem postReserved_pool (s : State) (r kind : Nat) (c : Code) (body : List DWord) : (s.postReserved r kind c body).pool = s.pool := (postReserved_only s r kind c body).pool_eq rfl
@[simp] theorem postReserved_wall (s : State) (r kind : Nat) (c : Code) (body : List DWord) : (s.postReserved r kind c body).aon.wall = s.aon.wall := (postReserved_only s r kind c body).wall_eq rfl
@[simp] theorem postReserved_doms (s : State) (r kind : Nat) (c : Code) (body : List DWord) : (s.postReserved r kind c body).pwr.doms = s.pwr.doms := (postReserved_only s r kind c body).doms_eq rfl
@[simp] theorem postReserved_executing (s : State) (r kind : Nat) (c : Code) (body : List DWord) : (s.postReserved r kind c body).hub.executing = s.hub.executing := (postReserved_only s r kind c body).executing_eq rfl
@[simp] theorem postReserved_failedHeads (s : State) (r kind : Nat) (c : Code) (body : List DWord) : (s.postReserved r kind c body).hub.failedHeads = s.hub.failedHeads := (postReserved_only s r kind c body).failedHeads_eq rfl
@[simp] theorem postReserved_epoch (s : State) (r kind : Nat) (c : Code) (body : List DWord) : (s.postReserved r kind c body).hub.epoch = s.hub.epoch := (postReserved_only s r kind c body).epoch_eq rfl
@[simp] theorem postReserved_lockIn (s : State) (r kind : Nat) (c : Code) (body : List DWord) : (s.postReserved r kind c body).hub.lockIn = s.hub.lockIn := (postReserved_only s r kind c body).lockIn_eq rfl
@[simp] theorem postReserved_worlds (s : State) (r kind : Nat) (c : Code) (body : List DWord) : (s.postReserved r kind c body).tmp.worlds = s.tmp.worlds := (postReserved_only s r kind c body).worlds_eq rfl
@[simp] theorem postReserved_slots (s : State) (r kind : Nat) (c : Code) (body : List DWord) : (s.postReserved r kind c body).tmp.slots = s.tmp.slots := (postReserved_only s r kind c body).slots_eq rfl
@[simp] theorem postReserved_subs (s : State) (r kind : Nat) (c : Code) (body : List DWord) : (s.postReserved r kind c body).tmp.subs = s.tmp.subs := (postReserved_only s r kind c body).subs_eq rfl
@[simp] theorem postReserved_inbox (s : State) (r kind : Nat) (c : Code) (body : List DWord) : (s.postReserved r kind c body).fab.inbox = s.fab.inbox := (postReserved_only s r kind c body).inbox_eq rfl
@[simp] theorem postReserved_spans (s : State) (r kind : Nat) (c : Code) (body : List DWord) : (s.postReserved r kind c body).fab.spans = s.fab.spans := (postReserved_only s r kind c body).spans_eq rfl
@[simp] theorem postReserved_mail (s : State) (r kind : Nat) (c : Code) (body : List DWord) : (s.postReserved r kind c body).fab.mail = s.fab.mail := (postReserved_only s r kind c body).mail_eq rfl
@[simp] theorem postReserved_phase (s : State) (r kind : Nat) (c : Code) (body : List DWord) : (s.postReserved r kind c body).aon.phase = s.aon.phase := (postReserved_only s r kind c body).phase_eq rfl
@[simp] theorem postReserved_dispatchOff (s : State) (r kind : Nat) (c : Code) (body : List DWord) : (s.postReserved r kind c body).pwr.dispatchOff = s.pwr.dispatchOff := (postReserved_only s r kind c body).dispatchOff_eq rfl
@[simp] theorem postReserved_hubP (s : State) (r kind : Nat) (c : Code) (body : List DWord) : (s.postReserved r kind c body).hub.p = s.hub.p := (postReserved_only s r kind c body).hubP_eq rfl
@[simp] theorem postReserved_sets (s : State) (r kind : Nat) (c : Code) (body : List DWord) : (s.postReserved r kind c body).racks.sets = s.racks.sets := (postReserved_only s r kind c body).sets_eq rfl
@[simp] theorem postReserved_bootSt (s : State) (r kind : Nat) (c : Code) (body : List DWord) : (s.postReserved r kind c body).boot.st = s.boot.st := (postReserved_only s r kind c body).bootSt_eq rfl
@[simp] theorem postReserved_bootPhase (s : State) (r kind : Nat) (c : Code) (body : List DWord) : (s.postReserved r kind c body).boot.phase = s.boot.phase := (postReserved_only s r kind c body).bootPhase_eq rfl
@[simp] theorem postReserved_chartersValid (s : State) (r kind : Nat) (c : Code) (body : List DWord) : (s.postReserved r kind c body).boot.chartersValid = s.boot.chartersValid := (postReserved_only s r kind c body).chartersValid_eq rfl
@[simp] theorem postReserved_amending (s : State) (r kind : Nat) (c : Code) (body : List DWord) : (s.postReserved r kind c body).boot.amending = s.boot.amending := (postReserved_only s r kind c body).amending_eq rfl
@[simp] theorem postReserved_stwReset (s : State) (r kind : Nat) (c : Code) (body : List DWord) : (s.postReserved r kind c body).flt.stwReset = s.flt.stwReset := (postReserved_only s r kind c body).stwReset_eq rfl
@[simp] theorem postReserved_trcSt (s : State) (r kind : Nat) (c : Code) (body : List DWord) : (s.postReserved r kind c body).trc.st = s.trc.st := (postReserved_only s r kind c body).trcSt_eq rfl
@[simp] theorem postReserved_trcOwner (s : State) (r kind : Nat) (c : Code) (body : List DWord) : (s.postReserved r kind c body).trc.owner = s.trc.owner := (postReserved_only s r kind c body).trcOwner_eq rfl
@[simp] theorem postReserved_tile (s : State) (r kind : Nat) (c : Code) (body : List DWord) (i' : Nat) : (s.postReserved r kind c body).tile i' = s.tile i' := (postReserved_only s r kind c body).tile_eq rfl i'
@[simp] theorem postReserved_port (s : State) (r kind : Nat) (c : Code) (body : List DWord) (i' : Nat) : (s.postReserved r kind c body).port i' = s.port i' := (postReserved_only s r kind c body).port_eq rfl i'
@[simp] theorem postReserved_world (s : State) (r kind : Nat) (c : Code) (body : List DWord) (i' : Nat) : (s.postReserved r kind c body).world i' = s.world i' := (postReserved_only s r kind c body).world_eq rfl i'
@[simp] theorem postReserved_link (s : State) (r kind : Nat) (c : Code) (body : List DWord) (i' : Nat) : (s.postReserved r kind c body).link i' = s.link i' := (postReserved_only s r kind c body).link_eq rfl i'
@[simp] theorem postReserved_master (s : State) (r kind : Nat) (c : Code) (body : List DWord) (i' : Nat) : (s.postReserved r kind c body).master i' = s.master i' := (postReserved_only s r kind c body).master_eq rfl i'
@[simp] theorem postReserved_span (s : State) (r kind : Nat) (c : Code) (body : List DWord) (i' : Nat) : (s.postReserved r kind c body).span i' = s.span i' := (postReserved_only s r kind c body).span_eq rfl i'
@[simp] theorem postReserved_fence (s : State) (r kind : Nat) (c : Code) (body : List DWord) (i' : Nat) : (s.postReserved r kind c body).fence i' = s.fence i' := (postReserved_only s r kind c body).fence_eq rfl i'
@[simp] theorem postReserved_dom (s : State) (r kind : Nat) (c : Code) (body : List DWord) (i' : Nat) : (s.postReserved r kind c body).dom i' = s.dom i' := (postReserved_only s r kind c body).dom_eq rfl i'
@[simp] theorem postReserved_pip (s : State) (r kind : Nat) (c : Code) (body : List DWord) (i' : Nat) : (s.postReserved r kind c body).pip i' = s.pip i' := (postReserved_only s r kind c body).pip_eq rfl i'
@[simp] theorem postReserved_rackSet (s : State) (r kind : Nat) (c : Code) (body : List DWord) (i' : Nat) : (s.postReserved r kind c body).rackSet i' = s.rackSet i' := (postReserved_only s r kind c body).rackSet_eq rfl i'
@[simp] theorem postReserved_isReady (s : State) (r kind : Nat) (c : Code) (body : List DWord) : (s.postReserved r kind c body).isReady = s.isReady := (postReserved_only s r kind c body).isReady_eq rfl
@[simp] theorem postReserved_domClass (s : State) (r kind : Nat) (c : Code) (body : List DWord) (d' : Nat) : (s.postReserved r kind c body).domClass d' = s.domClass d' := (postReserved_only s r kind c body).domClass_eq rfl d'
@[simp] theorem postReserved_fenceable (s : State) (r kind : Nat) (c : Code) (body : List DWord) (d' : Nat) : (s.postReserved r kind c body).fenceable d' = s.fenceable d' := (postReserved_only s r kind c body).fenceable_eq rfl rfl d'
@[simp] theorem postReserved_tilePresent (s : State) (r kind : Nat) (c : Code) (body : List DWord) (k' : Nat) : (s.postReserved r kind c body).tilePresent k' = s.tilePresent k' := (postReserved_only s r kind c body).tilePresent_eq rfl rfl k'
@[simp] theorem postReserved_domActive (s : State) (r kind : Nat) (c : Code) (body : List DWord) (d' : Nat) : (s.postReserved r kind c body).domActive d' = s.domActive d' := (postReserved_only s r kind c body).domActive_eq rfl d'
@[simp] theorem postReserved_tileActive (s : State) (r kind : Nat) (c : Code) (body : List DWord) (d' : Nat) : (s.postReserved r kind c body).tileActive d' = s.tileActive d' := (postReserved_only s r kind c body).tileActive_eq rfl d'
@[simp] theorem postReserved_tileRuns (s : State) (r kind : Nat) (c : Code) (body : List DWord) (d' : Nat) : (s.postReserved r kind c body).tileRuns d' = s.tileRuns d' := (postReserved_only s r kind c body).tileRuns_eq rfl d'
@[simp] theorem postReserved_right (s : State) (r kind : Nat) (c : Code) (body : List DWord) (m' : Nat) (tg' : Target) : (s.postReserved r kind c body).right m' tg' = s.right m' tg' := (postReserved_only s r kind c body).right_eq rfl rfl rfl m' tg'
@[simp] theorem postReserved_has (s : State) (r kind : Nat) (c : Code) (body : List DWord) (m' : Nat) (tg' : Target) (r' : Right) : (s.postReserved r kind c body).has m' tg' r' = s.has m' tg' r' := (postReserved_only s r kind c body).has_eq rfl rfl rfl m' tg' r'
@[simp] theorem postReserved_pipRight (s : State) (r kind : Nat) (c : Code) (body : List DWord) (m' n' : Nat) : (s.postReserved r kind c body).pipRight m' n' = s.pipRight m' n' := (postReserved_only s r kind c body).pipRight_eq rfl rfl rfl rfl m' n'
@[simp] theorem postReserved_traceOn (s : State) (r kind : Nat) (c : Code) (body : List DWord) : (s.postReserved r kind c body).traceOn = s.traceOn := (postReserved_only s r kind c body).traceOn_eq rfl rfl
@[simp] theorem postReserved_memAddr (s : State) (r kind : Nat) (c : Code) (body : List DWord) (a' : Nat) : (s.postReserved r kind c body).memAddr a' = s.memAddr a' := (postReserved_only s r kind c body).memAddr_eq rfl a'
@[simp] theorem postReserved_lockstep (s : State) (r kind : Nat) (c : Code) (body : List DWord) (c' : Nat) : (s.postReserved r kind c body).lockstep c' = s.lockstep c' := (postReserved_only s r kind c body).lockstep_eq rfl c'

/-! ### postFault -/

theorem postFault_only (s : State) (event dom detail : Nat) : OnlyM 0x100800101000100 s (s.postFault event dom detail) := only_postFault (OnlyM.refl _ s) rfl

@[simp] theorem postFault_pkg (s : State) (event dom detail : Nat) : (s.postFault event dom detail).pkg = s.pkg := (postFault_only s event dom detail).pkg_eq rfl
@[simp] theorem postFault_fuses (s : State) (event dom detail : Nat) : (s.postFault event dom detail).fuses = s.fuses := (postFault_only s event dom detail).fuses_eq rfl
@[simp] theorem postFault_mem (s : State) (event dom detail : Nat) : (s.postFault event dom detail).mem = s.mem := (postFault_only s event dom detail).mem_eq rfl
@[simp] theorem postFault_pending (s : State) (event dom detail : Nat) : (s.postFault event dom detail).pending = s.pending := (postFault_only s event dom detail).pending_eq rfl
@[simp] theorem postFault_pips (s : State) (event dom detail : Nat) : (s.postFault event dom detail).pips = s.pips := (postFault_only s event dom detail).pips_eq rfl
@[simp] theorem postFault_pool (s : State) (event dom detail : Nat) : (s.postFault event dom detail).pool = s.pool := (postFault_only s event dom detail).pool_eq rfl
@[simp] theorem postFault_wall (s : State) (event dom detail : Nat) : (s.postFault event dom detail).aon.wall = s.aon.wall := (postFault_only s event dom detail).wall_eq rfl
@[simp] theorem postFault_doms (s : State) (event dom detail : Nat) : (s.postFault event dom detail).pwr.doms = s.pwr.doms := (postFault_only s event dom detail).doms_eq rfl
@[simp] theorem postFault_executing (s : State) (event dom detail : Nat) : (s.postFault event dom detail).hub.executing = s.hub.executing := (postFault_only s event dom detail).executing_eq rfl
@[simp] theorem postFault_failedHeads (s : State) (event dom detail : Nat) : (s.postFault event dom detail).hub.failedHeads = s.hub.failedHeads := (postFault_only s event dom detail).failedHeads_eq rfl
@[simp] theorem postFault_epoch (s : State) (event dom detail : Nat) : (s.postFault event dom detail).hub.epoch = s.hub.epoch := (postFault_only s event dom detail).epoch_eq rfl
@[simp] theorem postFault_lockIn (s : State) (event dom detail : Nat) : (s.postFault event dom detail).hub.lockIn = s.hub.lockIn := (postFault_only s event dom detail).lockIn_eq rfl
@[simp] theorem postFault_worlds (s : State) (event dom detail : Nat) : (s.postFault event dom detail).tmp.worlds = s.tmp.worlds := (postFault_only s event dom detail).worlds_eq rfl
@[simp] theorem postFault_slots (s : State) (event dom detail : Nat) : (s.postFault event dom detail).tmp.slots = s.tmp.slots := (postFault_only s event dom detail).slots_eq rfl
@[simp] theorem postFault_subs (s : State) (event dom detail : Nat) : (s.postFault event dom detail).tmp.subs = s.tmp.subs := (postFault_only s event dom detail).subs_eq rfl
@[simp] theorem postFault_inbox (s : State) (event dom detail : Nat) : (s.postFault event dom detail).fab.inbox = s.fab.inbox := (postFault_only s event dom detail).inbox_eq rfl
@[simp] theorem postFault_spans (s : State) (event dom detail : Nat) : (s.postFault event dom detail).fab.spans = s.fab.spans := (postFault_only s event dom detail).spans_eq rfl
@[simp] theorem postFault_mail (s : State) (event dom detail : Nat) : (s.postFault event dom detail).fab.mail = s.fab.mail := (postFault_only s event dom detail).mail_eq rfl
@[simp] theorem postFault_phase (s : State) (event dom detail : Nat) : (s.postFault event dom detail).aon.phase = s.aon.phase := (postFault_only s event dom detail).phase_eq rfl
@[simp] theorem postFault_dispatchOff (s : State) (event dom detail : Nat) : (s.postFault event dom detail).pwr.dispatchOff = s.pwr.dispatchOff := (postFault_only s event dom detail).dispatchOff_eq rfl
@[simp] theorem postFault_hubP (s : State) (event dom detail : Nat) : (s.postFault event dom detail).hub.p = s.hub.p := (postFault_only s event dom detail).hubP_eq rfl
@[simp] theorem postFault_sets (s : State) (event dom detail : Nat) : (s.postFault event dom detail).racks.sets = s.racks.sets := (postFault_only s event dom detail).sets_eq rfl
@[simp] theorem postFault_bootSt (s : State) (event dom detail : Nat) : (s.postFault event dom detail).boot.st = s.boot.st := (postFault_only s event dom detail).bootSt_eq rfl
@[simp] theorem postFault_bootPhase (s : State) (event dom detail : Nat) : (s.postFault event dom detail).boot.phase = s.boot.phase := (postFault_only s event dom detail).bootPhase_eq rfl
@[simp] theorem postFault_chartersValid (s : State) (event dom detail : Nat) : (s.postFault event dom detail).boot.chartersValid = s.boot.chartersValid := (postFault_only s event dom detail).chartersValid_eq rfl
@[simp] theorem postFault_amending (s : State) (event dom detail : Nat) : (s.postFault event dom detail).boot.amending = s.boot.amending := (postFault_only s event dom detail).amending_eq rfl
@[simp] theorem postFault_stwReset (s : State) (event dom detail : Nat) : (s.postFault event dom detail).flt.stwReset = s.flt.stwReset := (postFault_only s event dom detail).stwReset_eq rfl
@[simp] theorem postFault_trcSt (s : State) (event dom detail : Nat) : (s.postFault event dom detail).trc.st = s.trc.st := (postFault_only s event dom detail).trcSt_eq rfl
@[simp] theorem postFault_trcOwner (s : State) (event dom detail : Nat) : (s.postFault event dom detail).trc.owner = s.trc.owner := (postFault_only s event dom detail).trcOwner_eq rfl
@[simp] theorem postFault_tile (s : State) (event dom detail : Nat) (i' : Nat) : (s.postFault event dom detail).tile i' = s.tile i' := (postFault_only s event dom detail).tile_eq rfl i'
@[simp] theorem postFault_port (s : State) (event dom detail : Nat) (i' : Nat) : (s.postFault event dom detail).port i' = s.port i' := (postFault_only s event dom detail).port_eq rfl i'
@[simp] theorem postFault_world (s : State) (event dom detail : Nat) (i' : Nat) : (s.postFault event dom detail).world i' = s.world i' := (postFault_only s event dom detail).world_eq rfl i'
@[simp] theorem postFault_link (s : State) (event dom detail : Nat) (i' : Nat) : (s.postFault event dom detail).link i' = s.link i' := (postFault_only s event dom detail).link_eq rfl i'
@[simp] theorem postFault_master (s : State) (event dom detail : Nat) (i' : Nat) : (s.postFault event dom detail).master i' = s.master i' := (postFault_only s event dom detail).master_eq rfl i'
@[simp] theorem postFault_span (s : State) (event dom detail : Nat) (i' : Nat) : (s.postFault event dom detail).span i' = s.span i' := (postFault_only s event dom detail).span_eq rfl i'
@[simp] theorem postFault_fence (s : State) (event dom detail : Nat) (i' : Nat) : (s.postFault event dom detail).fence i' = s.fence i' := (postFault_only s event dom detail).fence_eq rfl i'
@[simp] theorem postFault_dom (s : State) (event dom detail : Nat) (i' : Nat) : (s.postFault event dom detail).dom i' = s.dom i' := (postFault_only s event dom detail).dom_eq rfl i'
@[simp] theorem postFault_pip (s : State) (event dom detail : Nat) (i' : Nat) : (s.postFault event dom detail).pip i' = s.pip i' := (postFault_only s event dom detail).pip_eq rfl i'
@[simp] theorem postFault_rackSet (s : State) (event dom detail : Nat) (i' : Nat) : (s.postFault event dom detail).rackSet i' = s.rackSet i' := (postFault_only s event dom detail).rackSet_eq rfl i'
@[simp] theorem postFault_isReady (s : State) (event dom detail : Nat) : (s.postFault event dom detail).isReady = s.isReady := (postFault_only s event dom detail).isReady_eq rfl
@[simp] theorem postFault_domClass (s : State) (event dom detail : Nat) (d' : Nat) : (s.postFault event dom detail).domClass d' = s.domClass d' := (postFault_only s event dom detail).domClass_eq rfl d'
@[simp] theorem postFault_fenceable (s : State) (event dom detail : Nat) (d' : Nat) : (s.postFault event dom detail).fenceable d' = s.fenceable d' := (postFault_only s event dom detail).fenceable_eq rfl rfl d'
@[simp] theorem postFault_tilePresent (s : State) (event dom detail : Nat) (k' : Nat) : (s.postFault event dom detail).tilePresent k' = s.tilePresent k' := (postFault_only s event dom detail).tilePresent_eq rfl rfl k'
@[simp] theorem postFault_domActive (s : State) (event dom detail : Nat) (d' : Nat) : (s.postFault event dom detail).domActive d' = s.domActive d' := (postFault_only s event dom detail).domActive_eq rfl d'
@[simp] theorem postFault_tileActive (s : State) (event dom detail : Nat) (d' : Nat) : (s.postFault event dom detail).tileActive d' = s.tileActive d' := (postFault_only s event dom detail).tileActive_eq rfl d'
@[simp] theorem postFault_tileRuns (s : State) (event dom detail : Nat) (d' : Nat) : (s.postFault event dom detail).tileRuns d' = s.tileRuns d' := (postFault_only s event dom detail).tileRuns_eq rfl d'
@[simp] theorem postFault_right (s : State) (event dom detail : Nat) (m' : Nat) (tg' : Target) : (s.postFault event dom detail).right m' tg' = s.right m' tg' := (postFault_only s event dom detail).right_eq rfl rfl rfl m' tg'
@[simp] theorem postFault_has (s : State) (event dom detail : Nat) (m' : Nat) (tg' : Target) (r' : Right) : (s.postFault event dom detail).has m' tg' r' = s.has m' tg' r' := (postFault_only s event dom detail).has_eq rfl rfl rfl m' tg' r'
@[simp] theorem postFault_pipRight (s : State) (event dom detail : Nat) (m' n' : Nat) : (s.postFault event dom detail).pipRight m' n' = s.pipRight m' n' := (postFault_only s event dom detail).pipRight_eq rfl rfl rfl rfl m' n'
@[simp] theorem postFault_traceOn (s : State) (event dom detail : Nat) : (s.postFault event dom detail).traceOn = s.traceOn := (postFault_only s event dom detail).traceOn_eq rfl rfl
@[simp] theorem postFault_memAddr (s : State) (event dom detail : Nat) (a' : Nat) : (s.postFault event dom detail).memAddr a' = s.memAddr a' := (postFault_only s event dom detail).memAddr_eq rfl a'
@[simp] theorem postFault_lockstep (s : State) (event dom detail : Nat) (c' : Nat) : (s.postFault event dom detail).lockstep c' = s.lockstep c' := (postFault_only s event dom detail).lockstep_eq rfl c'

/-! ### complete -/

theorem complete_only (s : State) (c : ExecCmd) (code : Code) (results : List DWord) : OnlyM 0x100000103000000 s (s.complete c code results) := only_complete (OnlyM.refl _ s) rfl

@[simp] theorem complete_pkg (s : State) (c : ExecCmd) (code : Code) (results : List DWord) : (s.complete c code results).pkg = s.pkg := (complete_only s c code results).pkg_eq rfl
@[simp] theorem complete_fuses (s : State) (c : ExecCmd) (code : Code) (results : List DWord) : (s.complete c code results).fuses = s.fuses := (complete_only s c code results).fuses_eq rfl
@[simp] theorem complete_mem (s : State) (c : ExecCmd) (code : Code) (results : List DWord) : (s.complete c code results).mem = s.mem := (complete_only s c code results).mem_eq rfl
@[simp] theorem complete_freeCtr (s : State) (c : ExecCmd) (code : Code) (results : List DWord) : (s.complete c code results).freeCtr = s.freeCtr := (complete_only s c code results).freeCtr_eq rfl
@[simp] theorem complete_pending (s : State) (c : ExecCmd) (code : Code) (results : List DWord) : (s.complete c code results).pending = s.pending := (complete_only s c code results).pending_eq rfl
@[simp] theorem complete_pips (s : State) (c : ExecCmd) (code : Code) (results : List DWord) : (s.complete c code results).pips = s.pips := (complete_only s c code results).pips_eq rfl
@[simp] theorem complete_pool (s : State) (c : ExecCmd) (code : Code) (results : List DWord) : (s.complete c code results).pool = s.pool := (complete_only s c code results).pool_eq rfl
@[simp] theorem complete_wall (s : State) (c : ExecCmd) (code : Code) (results : List DWord) : (s.complete c code results).aon.wall = s.aon.wall := (complete_only s c code results).wall_eq rfl
@[simp] theorem complete_doms (s : State) (c : ExecCmd) (code : Code) (results : List DWord) : (s.complete c code results).pwr.doms = s.pwr.doms := (complete_only s c code results).doms_eq rfl
@[simp] theorem complete_failedHeads (s : State) (c : ExecCmd) (code : Code) (results : List DWord) : (s.complete c code results).hub.failedHeads = s.hub.failedHeads := (complete_only s c code results).failedHeads_eq rfl
@[simp] theorem complete_epoch (s : State) (c : ExecCmd) (code : Code) (results : List DWord) : (s.complete c code results).hub.epoch = s.hub.epoch := (complete_only s c code results).epoch_eq rfl
@[simp] theorem complete_lockIn (s : State) (c : ExecCmd) (code : Code) (results : List DWord) : (s.complete c code results).hub.lockIn = s.hub.lockIn := (complete_only s c code results).lockIn_eq rfl
@[simp] theorem complete_worlds (s : State) (c : ExecCmd) (code : Code) (results : List DWord) : (s.complete c code results).tmp.worlds = s.tmp.worlds := (complete_only s c code results).worlds_eq rfl
@[simp] theorem complete_slots (s : State) (c : ExecCmd) (code : Code) (results : List DWord) : (s.complete c code results).tmp.slots = s.tmp.slots := (complete_only s c code results).slots_eq rfl
@[simp] theorem complete_subs (s : State) (c : ExecCmd) (code : Code) (results : List DWord) : (s.complete c code results).tmp.subs = s.tmp.subs := (complete_only s c code results).subs_eq rfl
@[simp] theorem complete_inbox (s : State) (c : ExecCmd) (code : Code) (results : List DWord) : (s.complete c code results).fab.inbox = s.fab.inbox := (complete_only s c code results).inbox_eq rfl
@[simp] theorem complete_spans (s : State) (c : ExecCmd) (code : Code) (results : List DWord) : (s.complete c code results).fab.spans = s.fab.spans := (complete_only s c code results).spans_eq rfl
@[simp] theorem complete_mail (s : State) (c : ExecCmd) (code : Code) (results : List DWord) : (s.complete c code results).fab.mail = s.fab.mail := (complete_only s c code results).mail_eq rfl
@[simp] theorem complete_phase (s : State) (c : ExecCmd) (code : Code) (results : List DWord) : (s.complete c code results).aon.phase = s.aon.phase := (complete_only s c code results).phase_eq rfl
@[simp] theorem complete_dispatchOff (s : State) (c : ExecCmd) (code : Code) (results : List DWord) : (s.complete c code results).pwr.dispatchOff = s.pwr.dispatchOff := (complete_only s c code results).dispatchOff_eq rfl
@[simp] theorem complete_hubP (s : State) (c : ExecCmd) (code : Code) (results : List DWord) : (s.complete c code results).hub.p = s.hub.p := (complete_only s c code results).hubP_eq rfl
@[simp] theorem complete_sets (s : State) (c : ExecCmd) (code : Code) (results : List DWord) : (s.complete c code results).racks.sets = s.racks.sets := (complete_only s c code results).sets_eq rfl
@[simp] theorem complete_bootSt (s : State) (c : ExecCmd) (code : Code) (results : List DWord) : (s.complete c code results).boot.st = s.boot.st := (complete_only s c code results).bootSt_eq rfl
@[simp] theorem complete_bootPhase (s : State) (c : ExecCmd) (code : Code) (results : List DWord) : (s.complete c code results).boot.phase = s.boot.phase := (complete_only s c code results).bootPhase_eq rfl
@[simp] theorem complete_chartersValid (s : State) (c : ExecCmd) (code : Code) (results : List DWord) : (s.complete c code results).boot.chartersValid = s.boot.chartersValid := (complete_only s c code results).chartersValid_eq rfl
@[simp] theorem complete_amending (s : State) (c : ExecCmd) (code : Code) (results : List DWord) : (s.complete c code results).boot.amending = s.boot.amending := (complete_only s c code results).amending_eq rfl
@[simp] theorem complete_stwReset (s : State) (c : ExecCmd) (code : Code) (results : List DWord) : (s.complete c code results).flt.stwReset = s.flt.stwReset := (complete_only s c code results).stwReset_eq rfl
@[simp] theorem complete_trcSt (s : State) (c : ExecCmd) (code : Code) (results : List DWord) : (s.complete c code results).trc.st = s.trc.st := (complete_only s c code results).trcSt_eq rfl
@[simp] theorem complete_trcOwner (s : State) (c : ExecCmd) (code : Code) (results : List DWord) : (s.complete c code results).trc.owner = s.trc.owner := (complete_only s c code results).trcOwner_eq rfl
@[simp] theorem complete_tile (s : State) (c : ExecCmd) (code : Code) (results : List DWord) (i' : Nat) : (s.complete c code results).tile i' = s.tile i' := (complete_only s c code results).tile_eq rfl i'
@[simp] theorem complete_port (s : State) (c : ExecCmd) (code : Code) (results : List DWord) (i' : Nat) : (s.complete c code results).port i' = s.port i' := (complete_only s c code results).port_eq rfl i'
@[simp] theorem complete_world (s : State) (c : ExecCmd) (code : Code) (results : List DWord) (i' : Nat) : (s.complete c code results).world i' = s.world i' := (complete_only s c code results).world_eq rfl i'
@[simp] theorem complete_link (s : State) (c : ExecCmd) (code : Code) (results : List DWord) (i' : Nat) : (s.complete c code results).link i' = s.link i' := (complete_only s c code results).link_eq rfl i'
@[simp] theorem complete_master (s : State) (c : ExecCmd) (code : Code) (results : List DWord) (i' : Nat) : (s.complete c code results).master i' = s.master i' := (complete_only s c code results).master_eq rfl i'
@[simp] theorem complete_span (s : State) (c : ExecCmd) (code : Code) (results : List DWord) (i' : Nat) : (s.complete c code results).span i' = s.span i' := (complete_only s c code results).span_eq rfl i'
@[simp] theorem complete_fence (s : State) (c : ExecCmd) (code : Code) (results : List DWord) (i' : Nat) : (s.complete c code results).fence i' = s.fence i' := (complete_only s c code results).fence_eq rfl i'
@[simp] theorem complete_dom (s : State) (c : ExecCmd) (code : Code) (results : List DWord) (i' : Nat) : (s.complete c code results).dom i' = s.dom i' := (complete_only s c code results).dom_eq rfl i'
@[simp] theorem complete_pip (s : State) (c : ExecCmd) (code : Code) (results : List DWord) (i' : Nat) : (s.complete c code results).pip i' = s.pip i' := (complete_only s c code results).pip_eq rfl i'
@[simp] theorem complete_rackSet (s : State) (c : ExecCmd) (code : Code) (results : List DWord) (i' : Nat) : (s.complete c code results).rackSet i' = s.rackSet i' := (complete_only s c code results).rackSet_eq rfl i'
@[simp] theorem complete_isReady (s : State) (c : ExecCmd) (code : Code) (results : List DWord) : (s.complete c code results).isReady = s.isReady := (complete_only s c code results).isReady_eq rfl
@[simp] theorem complete_domClass (s : State) (c : ExecCmd) (code : Code) (results : List DWord) (d' : Nat) : (s.complete c code results).domClass d' = s.domClass d' := (complete_only s c code results).domClass_eq rfl d'
@[simp] theorem complete_fenceable (s : State) (c : ExecCmd) (code : Code) (results : List DWord) (d' : Nat) : (s.complete c code results).fenceable d' = s.fenceable d' := (complete_only s c code results).fenceable_eq rfl rfl d'
@[simp] theorem complete_tilePresent (s : State) (c : ExecCmd) (code : Code) (results : List DWord) (k' : Nat) : (s.complete c code results).tilePresent k' = s.tilePresent k' := (complete_only s c code results).tilePresent_eq rfl rfl k'
@[simp] theorem complete_domActive (s : State) (c : ExecCmd) (code : Code) (results : List DWord) (d' : Nat) : (s.complete c code results).domActive d' = s.domActive d' := (complete_only s c code results).domActive_eq rfl d'
@[simp] theorem complete_tileActive (s : State) (c : ExecCmd) (code : Code) (results : List DWord) (d' : Nat) : (s.complete c code results).tileActive d' = s.tileActive d' := (complete_only s c code results).tileActive_eq rfl d'
@[simp] theorem complete_tileRuns (s : State) (c : ExecCmd) (code : Code) (results : List DWord) (d' : Nat) : (s.complete c code results).tileRuns d' = s.tileRuns d' := (complete_only s c code results).tileRuns_eq rfl d'
@[simp] theorem complete_right (s : State) (c : ExecCmd) (code : Code) (results : List DWord) (m' : Nat) (tg' : Target) : (s.complete c code results).right m' tg' = s.right m' tg' := (complete_only s c code results).right_eq rfl rfl rfl m' tg'
@[simp] theorem complete_has (s : State) (c : ExecCmd) (code : Code) (results : List DWord) (m' : Nat) (tg' : Target) (r' : Right) : (s.complete c code results).has m' tg' r' = s.has m' tg' r' := (complete_only s c code results).has_eq rfl rfl rfl m' tg' r'
@[simp] theorem complete_pipRight (s : State) (c : ExecCmd) (code : Code) (results : List DWord) (m' n' : Nat) : (s.complete c code results).pipRight m' n' = s.pipRight m' n' := (complete_only s c code results).pipRight_eq rfl rfl rfl rfl m' n'
@[simp] theorem complete_traceOn (s : State) (c : ExecCmd) (code : Code) (results : List DWord) : (s.complete c code results).traceOn = s.traceOn := (complete_only s c code results).traceOn_eq rfl rfl
@[simp] theorem complete_memAddr (s : State) (c : ExecCmd) (code : Code) (results : List DWord) (a' : Nat) : (s.complete c code results).memAddr a' = s.memAddr a' := (complete_only s c code results).memAddr_eq rfl a'
@[simp] theorem complete_lockstep (s : State) (c : ExecCmd) (code : Code) (results : List DWord) (c' : Nat) : (s.complete c code results).lockstep c' = s.lockstep c' := (complete_only s c code results).lockstep_eq rfl c'

/-! ### completeAt -/

theorem completeAt_only (s : State) (rk seq : Nat) (code : Code) (results : List DWord) : OnlyM 0x100000103000000 s (s.completeAt rk seq code results) := only_completeAt (OnlyM.refl _ s) rfl

@[simp] theorem completeAt_pkg (s : State) (rk seq : Nat) (code : Code) (results : List DWord) : (s.completeAt rk seq code results).pkg = s.pkg := (completeAt_only s rk seq code results).pkg_eq rfl
@[simp] theorem completeAt_fuses (s : State) (rk seq : Nat) (code : Code) (results : List DWord) : (s.completeAt rk seq code results).fuses = s.fuses := (completeAt_only s rk seq code results).fuses_eq rfl
@[simp] theorem completeAt_mem (s : State) (rk seq : Nat) (code : Code) (results : List DWord) : (s.completeAt rk seq code results).mem = s.mem := (completeAt_only s rk seq code results).mem_eq rfl
@[simp] theorem completeAt_freeCtr (s : State) (rk seq : Nat) (code : Code) (results : List DWord) : (s.completeAt rk seq code results).freeCtr = s.freeCtr := (completeAt_only s rk seq code results).freeCtr_eq rfl
@[simp] theorem completeAt_pending (s : State) (rk seq : Nat) (code : Code) (results : List DWord) : (s.completeAt rk seq code results).pending = s.pending := (completeAt_only s rk seq code results).pending_eq rfl
@[simp] theorem completeAt_pips (s : State) (rk seq : Nat) (code : Code) (results : List DWord) : (s.completeAt rk seq code results).pips = s.pips := (completeAt_only s rk seq code results).pips_eq rfl
@[simp] theorem completeAt_pool (s : State) (rk seq : Nat) (code : Code) (results : List DWord) : (s.completeAt rk seq code results).pool = s.pool := (completeAt_only s rk seq code results).pool_eq rfl
@[simp] theorem completeAt_wall (s : State) (rk seq : Nat) (code : Code) (results : List DWord) : (s.completeAt rk seq code results).aon.wall = s.aon.wall := (completeAt_only s rk seq code results).wall_eq rfl
@[simp] theorem completeAt_doms (s : State) (rk seq : Nat) (code : Code) (results : List DWord) : (s.completeAt rk seq code results).pwr.doms = s.pwr.doms := (completeAt_only s rk seq code results).doms_eq rfl
@[simp] theorem completeAt_failedHeads (s : State) (rk seq : Nat) (code : Code) (results : List DWord) : (s.completeAt rk seq code results).hub.failedHeads = s.hub.failedHeads := (completeAt_only s rk seq code results).failedHeads_eq rfl
@[simp] theorem completeAt_epoch (s : State) (rk seq : Nat) (code : Code) (results : List DWord) : (s.completeAt rk seq code results).hub.epoch = s.hub.epoch := (completeAt_only s rk seq code results).epoch_eq rfl
@[simp] theorem completeAt_lockIn (s : State) (rk seq : Nat) (code : Code) (results : List DWord) : (s.completeAt rk seq code results).hub.lockIn = s.hub.lockIn := (completeAt_only s rk seq code results).lockIn_eq rfl
@[simp] theorem completeAt_worlds (s : State) (rk seq : Nat) (code : Code) (results : List DWord) : (s.completeAt rk seq code results).tmp.worlds = s.tmp.worlds := (completeAt_only s rk seq code results).worlds_eq rfl
@[simp] theorem completeAt_slots (s : State) (rk seq : Nat) (code : Code) (results : List DWord) : (s.completeAt rk seq code results).tmp.slots = s.tmp.slots := (completeAt_only s rk seq code results).slots_eq rfl
@[simp] theorem completeAt_subs (s : State) (rk seq : Nat) (code : Code) (results : List DWord) : (s.completeAt rk seq code results).tmp.subs = s.tmp.subs := (completeAt_only s rk seq code results).subs_eq rfl
@[simp] theorem completeAt_inbox (s : State) (rk seq : Nat) (code : Code) (results : List DWord) : (s.completeAt rk seq code results).fab.inbox = s.fab.inbox := (completeAt_only s rk seq code results).inbox_eq rfl
@[simp] theorem completeAt_spans (s : State) (rk seq : Nat) (code : Code) (results : List DWord) : (s.completeAt rk seq code results).fab.spans = s.fab.spans := (completeAt_only s rk seq code results).spans_eq rfl
@[simp] theorem completeAt_mail (s : State) (rk seq : Nat) (code : Code) (results : List DWord) : (s.completeAt rk seq code results).fab.mail = s.fab.mail := (completeAt_only s rk seq code results).mail_eq rfl
@[simp] theorem completeAt_phase (s : State) (rk seq : Nat) (code : Code) (results : List DWord) : (s.completeAt rk seq code results).aon.phase = s.aon.phase := (completeAt_only s rk seq code results).phase_eq rfl
@[simp] theorem completeAt_dispatchOff (s : State) (rk seq : Nat) (code : Code) (results : List DWord) : (s.completeAt rk seq code results).pwr.dispatchOff = s.pwr.dispatchOff := (completeAt_only s rk seq code results).dispatchOff_eq rfl
@[simp] theorem completeAt_hubP (s : State) (rk seq : Nat) (code : Code) (results : List DWord) : (s.completeAt rk seq code results).hub.p = s.hub.p := (completeAt_only s rk seq code results).hubP_eq rfl
@[simp] theorem completeAt_sets (s : State) (rk seq : Nat) (code : Code) (results : List DWord) : (s.completeAt rk seq code results).racks.sets = s.racks.sets := (completeAt_only s rk seq code results).sets_eq rfl
@[simp] theorem completeAt_bootSt (s : State) (rk seq : Nat) (code : Code) (results : List DWord) : (s.completeAt rk seq code results).boot.st = s.boot.st := (completeAt_only s rk seq code results).bootSt_eq rfl
@[simp] theorem completeAt_bootPhase (s : State) (rk seq : Nat) (code : Code) (results : List DWord) : (s.completeAt rk seq code results).boot.phase = s.boot.phase := (completeAt_only s rk seq code results).bootPhase_eq rfl
@[simp] theorem completeAt_chartersValid (s : State) (rk seq : Nat) (code : Code) (results : List DWord) : (s.completeAt rk seq code results).boot.chartersValid = s.boot.chartersValid := (completeAt_only s rk seq code results).chartersValid_eq rfl
@[simp] theorem completeAt_amending (s : State) (rk seq : Nat) (code : Code) (results : List DWord) : (s.completeAt rk seq code results).boot.amending = s.boot.amending := (completeAt_only s rk seq code results).amending_eq rfl
@[simp] theorem completeAt_stwReset (s : State) (rk seq : Nat) (code : Code) (results : List DWord) : (s.completeAt rk seq code results).flt.stwReset = s.flt.stwReset := (completeAt_only s rk seq code results).stwReset_eq rfl
@[simp] theorem completeAt_trcSt (s : State) (rk seq : Nat) (code : Code) (results : List DWord) : (s.completeAt rk seq code results).trc.st = s.trc.st := (completeAt_only s rk seq code results).trcSt_eq rfl
@[simp] theorem completeAt_trcOwner (s : State) (rk seq : Nat) (code : Code) (results : List DWord) : (s.completeAt rk seq code results).trc.owner = s.trc.owner := (completeAt_only s rk seq code results).trcOwner_eq rfl
@[simp] theorem completeAt_tile (s : State) (rk seq : Nat) (code : Code) (results : List DWord) (i' : Nat) : (s.completeAt rk seq code results).tile i' = s.tile i' := (completeAt_only s rk seq code results).tile_eq rfl i'
@[simp] theorem completeAt_port (s : State) (rk seq : Nat) (code : Code) (results : List DWord) (i' : Nat) : (s.completeAt rk seq code results).port i' = s.port i' := (completeAt_only s rk seq code results).port_eq rfl i'
@[simp] theorem completeAt_world (s : State) (rk seq : Nat) (code : Code) (results : List DWord) (i' : Nat) : (s.completeAt rk seq code results).world i' = s.world i' := (completeAt_only s rk seq code results).world_eq rfl i'
@[simp] theorem completeAt_link (s : State) (rk seq : Nat) (code : Code) (results : List DWord) (i' : Nat) : (s.completeAt rk seq code results).link i' = s.link i' := (completeAt_only s rk seq code results).link_eq rfl i'
@[simp] theorem completeAt_master (s : State) (rk seq : Nat) (code : Code) (results : List DWord) (i' : Nat) : (s.completeAt rk seq code results).master i' = s.master i' := (completeAt_only s rk seq code results).master_eq rfl i'
@[simp] theorem completeAt_span (s : State) (rk seq : Nat) (code : Code) (results : List DWord) (i' : Nat) : (s.completeAt rk seq code results).span i' = s.span i' := (completeAt_only s rk seq code results).span_eq rfl i'
@[simp] theorem completeAt_fence (s : State) (rk seq : Nat) (code : Code) (results : List DWord) (i' : Nat) : (s.completeAt rk seq code results).fence i' = s.fence i' := (completeAt_only s rk seq code results).fence_eq rfl i'
@[simp] theorem completeAt_dom (s : State) (rk seq : Nat) (code : Code) (results : List DWord) (i' : Nat) : (s.completeAt rk seq code results).dom i' = s.dom i' := (completeAt_only s rk seq code results).dom_eq rfl i'
@[simp] theorem completeAt_pip (s : State) (rk seq : Nat) (code : Code) (results : List DWord) (i' : Nat) : (s.completeAt rk seq code results).pip i' = s.pip i' := (completeAt_only s rk seq code results).pip_eq rfl i'
@[simp] theorem completeAt_rackSet (s : State) (rk seq : Nat) (code : Code) (results : List DWord) (i' : Nat) : (s.completeAt rk seq code results).rackSet i' = s.rackSet i' := (completeAt_only s rk seq code results).rackSet_eq rfl i'
@[simp] theorem completeAt_isReady (s : State) (rk seq : Nat) (code : Code) (results : List DWord) : (s.completeAt rk seq code results).isReady = s.isReady := (completeAt_only s rk seq code results).isReady_eq rfl
@[simp] theorem completeAt_domClass (s : State) (rk seq : Nat) (code : Code) (results : List DWord) (d' : Nat) : (s.completeAt rk seq code results).domClass d' = s.domClass d' := (completeAt_only s rk seq code results).domClass_eq rfl d'
@[simp] theorem completeAt_fenceable (s : State) (rk seq : Nat) (code : Code) (results : List DWord) (d' : Nat) : (s.completeAt rk seq code results).fenceable d' = s.fenceable d' := (completeAt_only s rk seq code results).fenceable_eq rfl rfl d'
@[simp] theorem completeAt_tilePresent (s : State) (rk seq : Nat) (code : Code) (results : List DWord) (k' : Nat) : (s.completeAt rk seq code results).tilePresent k' = s.tilePresent k' := (completeAt_only s rk seq code results).tilePresent_eq rfl rfl k'
@[simp] theorem completeAt_domActive (s : State) (rk seq : Nat) (code : Code) (results : List DWord) (d' : Nat) : (s.completeAt rk seq code results).domActive d' = s.domActive d' := (completeAt_only s rk seq code results).domActive_eq rfl d'
@[simp] theorem completeAt_tileActive (s : State) (rk seq : Nat) (code : Code) (results : List DWord) (d' : Nat) : (s.completeAt rk seq code results).tileActive d' = s.tileActive d' := (completeAt_only s rk seq code results).tileActive_eq rfl d'
@[simp] theorem completeAt_tileRuns (s : State) (rk seq : Nat) (code : Code) (results : List DWord) (d' : Nat) : (s.completeAt rk seq code results).tileRuns d' = s.tileRuns d' := (completeAt_only s rk seq code results).tileRuns_eq rfl d'
@[simp] theorem completeAt_right (s : State) (rk seq : Nat) (code : Code) (results : List DWord) (m' : Nat) (tg' : Target) : (s.completeAt rk seq code results).right m' tg' = s.right m' tg' := (completeAt_only s rk seq code results).right_eq rfl rfl rfl m' tg'
@[simp] theorem completeAt_has (s : State) (rk seq : Nat) (code : Code) (results : List DWord) (m' : Nat) (tg' : Target) (r' : Right) : (s.completeAt rk seq code results).has m' tg' r' = s.has m' tg' r' := (completeAt_only s rk seq code results).has_eq rfl rfl rfl m' tg' r'
@[simp] theorem completeAt_pipRight (s : State) (rk seq : Nat) (code : Code) (results : List DWord) (m' n' : Nat) : (s.completeAt rk seq code results).pipRight m' n' = s.pipRight m' n' := (completeAt_only s rk seq code results).pipRight_eq rfl rfl rfl rfl m' n'
@[simp] theorem completeAt_traceOn (s : State) (rk seq : Nat) (code : Code) (results : List DWord) : (s.completeAt rk seq code results).traceOn = s.traceOn := (completeAt_only s rk seq code results).traceOn_eq rfl rfl
@[simp] theorem completeAt_memAddr (s : State) (rk seq : Nat) (code : Code) (results : List DWord) (a' : Nat) : (s.completeAt rk seq code results).memAddr a' = s.memAddr a' := (completeAt_only s rk seq code results).memAddr_eq rfl a'
@[simp] theorem completeAt_lockstep (s : State) (rk seq : Nat) (code : Code) (results : List DWord) (c' : Nat) : (s.completeAt rk seq code results).lockstep c' = s.lockstep c' := (completeAt_only s rk seq code results).lockstep_eq rfl c'

/-! ### modMaster -/

@[simp] theorem modMaster_tile (s : State) (m : Nat) (f : Master → Master) (i' : Nat) : (s.modMaster m f).tile i' = s.tile i' := rfl
@[simp] theorem modMaster_port (s : State) (m : Nat) (f : Master → Master) (i' : Nat) : (s.modMaster m f).port i' = s.port i' := rfl
@[simp] theorem modMaster_world (s : State) (m : Nat) (f : Master → Master) (i' : Nat) : (s.modMaster m f).world i' = s.world i' := rfl
@[simp] theorem modMaster_rack (s : State) (m : Nat) (f : Master → Master) (i' : Nat) : (s.modMaster m f).rack i' = s.rack i' := rfl
@[simp] theorem modMaster_ld (s : State) (m : Nat) (f : Master → Master) (i' : Nat) : (s.modMaster m f).ld i' = s.ld i' := rfl
@[simp] theorem modMaster_link (s : State) (m : Nat) (f : Master → Master) (i' : Nat) : (s.modMaster m f).link i' = s.link i' := rfl
@[simp] theorem modMaster_span (s : State) (m : Nat) (f : Master → Master) (i' : Nat) : (s.modMaster m f).span i' = s.span i' := rfl
@[simp] theorem modMaster_fence (s : State) (m : Nat) (f : Master → Master) (i' : Nat) : (s.modMaster m f).fence i' = s.fence i' := rfl
@[simp] theorem modMaster_dom (s : State) (m : Nat) (f : Master → Master) (i' : Nat) : (s.modMaster m f).dom i' = s.dom i' := rfl
@[simp] theorem modMaster_pip (s : State) (m : Nat) (f : Master → Master) (i' : Nat) : (s.modMaster m f).pip i' = s.pip i' := rfl
@[simp] theorem modMaster_rackSet (s : State) (m : Nat) (f : Master → Master) (i' : Nat) : (s.modMaster m f).rackSet i' = s.rackSet i' := rfl
@[simp] theorem modMaster_isReady (s : State) (m : Nat) (f : Master → Master) : (s.modMaster m f).isReady = s.isReady := rfl
@[simp] theorem modMaster_populated (s : State) (m : Nat) (f : Master → Master) (k' : Nat) : (s.modMaster m f).populated k' = s.populated k' := rfl
@[simp] theorem modMaster_domClass (s : State) (m : Nat) (f : Master → Master) (d' : Nat) : (s.modMaster m f).domClass d' = s.domClass d' := rfl
@[simp] theorem modMaster_fenceable (s : State) (m : Nat) (f : Master → Master) (d' : Nat) : (s.modMaster m f).fenceable d' = s.fenceable d' := rfl
@[simp] theorem modMaster_tilePresent (s : State) (m : Nat) (f : Master → Master) (k' : Nat) : (s.modMaster m f).tilePresent k' = s.tilePresent k' := rfl
@[simp] theorem modMaster_domState (s : State) (m : Nat) (f : Master → Master) (d' : Nat) : (s.modMaster m f).domState d' = s.domState d' := rfl
@[simp] theorem modMaster_domActive (s : State) (m : Nat) (f : Master → Master) (d' : Nat) : (s.modMaster m f).domActive d' = s.domActive d' := rfl
@[simp] theorem modMaster_tileActive (s : State) (m : Nat) (f : Master → Master) (d' : Nat) : (s.modMaster m f).tileActive d' = s.tileActive d' := rfl
@[simp] theorem modMaster_domRuns (s : State) (m : Nat) (f : Master → Master) (d' : Nat) : (s.modMaster m f).domRuns d' = s.domRuns d' := rfl
@[simp] theorem modMaster_tileRuns (s : State) (m : Nat) (f : Master → Master) (d' : Nat) : (s.modMaster m f).tileRuns d' = s.tileRuns d' := rfl
@[simp] theorem modMaster_right (s : State) (m : Nat) (f : Master → Master) (m' : Nat) (tg' : Target) : (s.modMaster m f).right m' tg' = s.right m' tg' := rfl
@[simp] theorem modMaster_has (s : State) (m : Nat) (f : Master → Master) (m' : Nat) (tg' : Target) (r' : Right) : (s.modMaster m f).has m' tg' r' = s.has m' tg' r' := rfl
@[simp] theorem modMaster_pipRight (s : State) (m : Nat) (f : Master → Master) (m' n' : Nat) : (s.modMaster m f).pipRight m' n' = s.pipRight m' n' := rfl
@[simp] theorem modMaster_ldOfRack (s : State) (m : Nat) (f : Master → Master) (r' : Nat) : (s.modMaster m f).ldOfRack r' = s.ldOfRack r' := rfl
@[simp] theorem modMaster_findExec (s : State) (m : Nat) (f : Master → Master) (rk' seq' : Nat) : (s.modMaster m f).findExec rk' seq' = s.findExec rk' seq' := rfl
@[simp] theorem modMaster_memAddr (s : State) (m : Nat) (f : Master → Master) (a' : Nat) : (s.modMaster m f).memAddr a' = s.memAddr a' := rfl

/-! ### modLink -/

@[simp] theorem modLink_tile (s : State) (k : Nat) (f : Link → Link) (i' : Nat) : (s.modLink k f).tile i' = s.tile i' := rfl
@[simp] theorem modLink_port (s : State) (k : Nat) (f : Link → Link) (i' : Nat) : (s.modLink k f).port i' = s.port i' := rfl
@[simp] theorem modLink_world (s : State) (k : Nat) (f : Link → Link) (i' : Nat) : (s.modLink k f).world i' = s.world i' := rfl
@[simp] theorem modLink_rack (s : State) (k : Nat) (f : Link → Link) (i' : Nat) : (s.modLink k f).rack i' = s.rack i' := rfl
@[simp] theorem modLink_ld (s : State) (k : Nat) (f : Link → Link) (i' : Nat) : (s.modLink k f).ld i' = s.ld i' := rfl
@[simp] theorem modLink_master (s : State) (k : Nat) (f : Link → Link) (i' : Nat) : (s.modLink k f).master i' = s.master i' := rfl
@[simp] theorem modLink_span (s : State) (k : Nat) (f : Link → Link) (i' : Nat) : (s.modLink k f).span i' = s.span i' := rfl
@[simp] theorem modLink_fence (s : State) (k : Nat) (f : Link → Link) (i' : Nat) : (s.modLink k f).fence i' = s.fence i' := rfl
@[simp] theorem modLink_dom (s : State) (k : Nat) (f : Link → Link) (i' : Nat) : (s.modLink k f).dom i' = s.dom i' := rfl
@[simp] theorem modLink_pip (s : State) (k : Nat) (f : Link → Link) (i' : Nat) : (s.modLink k f).pip i' = s.pip i' := rfl
@[simp] theorem modLink_rackSet (s : State) (k : Nat) (f : Link → Link) (i' : Nat) : (s.modLink k f).rackSet i' = s.rackSet i' := rfl
@[simp] theorem modLink_isReady (s : State) (k : Nat) (f : Link → Link) : (s.modLink k f).isReady = s.isReady := rfl
@[simp] theorem modLink_populated (s : State) (k : Nat) (f : Link → Link) (k' : Nat) : (s.modLink k f).populated k' = s.populated k' := rfl
@[simp] theorem modLink_domClass (s : State) (k : Nat) (f : Link → Link) (d' : Nat) : (s.modLink k f).domClass d' = s.domClass d' := rfl
@[simp] theorem modLink_fenceable (s : State) (k : Nat) (f : Link → Link) (d' : Nat) : (s.modLink k f).fenceable d' = s.fenceable d' := rfl
@[simp] theorem modLink_tilePresent (s : State) (k : Nat) (f : Link → Link) (k' : Nat) : (s.modLink k f).tilePresent k' = s.tilePresent k' := rfl
@[simp] theorem modLink_domState (s : State) (k : Nat) (f : Link → Link) (d' : Nat) : (s.modLink k f).domState d' = s.domState d' := rfl
@[simp] theorem modLink_domActive (s : State) (k : Nat) (f : Link → Link) (d' : Nat) : (s.modLink k f).domActive d' = s.domActive d' := rfl
@[simp] theorem modLink_tileActive (s : State) (k : Nat) (f : Link → Link) (d' : Nat) : (s.modLink k f).tileActive d' = s.tileActive d' := rfl
@[simp] theorem modLink_domRuns (s : State) (k : Nat) (f : Link → Link) (d' : Nat) : (s.modLink k f).domRuns d' = s.domRuns d' := rfl
@[simp] theorem modLink_tileRuns (s : State) (k : Nat) (f : Link → Link) (d' : Nat) : (s.modLink k f).tileRuns d' = s.tileRuns d' := rfl
@[simp] theorem modLink_right (s : State) (k : Nat) (f : Link → Link) (m' : Nat) (tg' : Target) : (s.modLink k f).right m' tg' = s.right m' tg' := rfl
@[simp] theorem modLink_has (s : State) (k : Nat) (f : Link → Link) (m' : Nat) (tg' : Target) (r' : Right) : (s.modLink k f).has m' tg' r' = s.has m' tg' r' := rfl
@[simp] theorem modLink_pipRight (s : State) (k : Nat) (f : Link → Link) (m' n' : Nat) : (s.modLink k f).pipRight m' n' = s.pipRight m' n' := rfl
@[simp] theorem modLink_ldOfRack (s : State) (k : Nat) (f : Link → Link) (r' : Nat) : (s.modLink k f).ldOfRack r' = s.ldOfRack r' := rfl
@[simp] theorem modLink_findExec (s : State) (k : Nat) (f : Link → Link) (rk' seq' : Nat) : (s.modLink k f).findExec rk' seq' = s.findExec rk' seq' := rfl
@[simp] theorem modLink_memAddr (s : State) (k : Nat) (f : Link → Link) (a' : Nat) : (s.modLink k f).memAddr a' = s.memAddr a' := rfl

/-! ### modLd -/

@[simp] theorem modLd_tile (s : State) (n : Nat) (f : Ld → Ld) (i' : Nat) : (s.modLd n f).tile i' = s.tile i' := rfl
@[simp] theorem modLd_port (s : State) (n : Nat) (f : Ld → Ld) (i' : Nat) : (s.modLd n f).port i' = s.port i' := rfl
@[simp] theorem modLd_world (s : State) (n : Nat) (f : Ld → Ld) (i' : Nat) : (s.modLd n f).world i' = s.world i' := rfl
@[simp] theorem modLd_rack (s : State) (n : Nat) (f : Ld → Ld) (i' : Nat) : (s.modLd n f).rack i' = s.rack i' := rfl
@[simp] theorem modLd_link (s : State) (n : Nat) (f : Ld → Ld) (i' : Nat) : (s.modLd n f).link i' = s.link i' := rfl
@[simp] theorem modLd_master (s : State) (n : Nat) (f : Ld → Ld) (i' : Nat) : (s.modLd n f).master i' = s.master i' := rfl
@[simp] theorem modLd_span (s : State) (n : Nat) (f : Ld → Ld) (i' : Nat) : (s.modLd n f).span i' = s.span i' := rfl
@[simp] theorem modLd_fence (s : State) (n : Nat) (f : Ld → Ld) (i' : Nat) : (s.modLd n f).fence i' = s.fence i' := rfl
@[simp] theorem modLd_dom (s : State) (n : Nat) (f : Ld → Ld) (i' : Nat) : (s.modLd n f).dom i' = s.dom i' := rfl
@[simp] theorem modLd_pip (s : State) (n : Nat) (f : Ld → Ld) (i' : Nat) : (s.modLd n f).pip i' = s.pip i' := rfl
@[simp] theorem modLd_rackSet (s : State) (n : Nat) (f : Ld → Ld) (i' : Nat) : (s.modLd n f).rackSet i' = s.rackSet i' := rfl
@[simp] theorem modLd_isReady (s : State) (n : Nat) (f : Ld → Ld) : (s.modLd n f).isReady = s.isReady := rfl
@[simp] theorem modLd_populated (s : State) (n : Nat) (f : Ld → Ld) (k' : Nat) : (s.modLd n f).populated k' = s.populated k' := rfl
@[simp] theorem modLd_domClass (s : State) (n : Nat) (f : Ld → Ld) (d' : Nat) : (s.modLd n f).domClass d' = s.domClass d' := rfl
@[simp] theorem modLd_fenceable (s : State) (n : Nat) (f : Ld → Ld) (d' : Nat) : (s.modLd n f).fenceable d' = s.fenceable d' := rfl
@[simp] theorem modLd_tilePresent (s : State) (n : Nat) (f : Ld → Ld) (k' : Nat) : (s.modLd n f).tilePresent k' = s.tilePresent k' := rfl
@[simp] theorem modLd_domState (s : State) (n : Nat) (f : Ld → Ld) (d' : Nat) : (s.modLd n f).domState d' = s.domState d' := rfl
@[simp] theorem modLd_domActive (s : State) (n : Nat) (f : Ld → Ld) (d' : Nat) : (s.modLd n f).domActive d' = s.domActive d' := rfl
@[simp] theorem modLd_tileActive (s : State) (n : Nat) (f : Ld → Ld) (d' : Nat) : (s.modLd n f).tileActive d' = s.tileActive d' := rfl
@[simp] theorem modLd_domRuns (s : State) (n : Nat) (f : Ld → Ld) (d' : Nat) : (s.modLd n f).domRuns d' = s.domRuns d' := rfl
@[simp] theorem modLd_tileRuns (s : State) (n : Nat) (f : Ld → Ld) (d' : Nat) : (s.modLd n f).tileRuns d' = s.tileRuns d' := rfl
@[simp] theorem modLd_right (s : State) (n : Nat) (f : Ld → Ld) (m' : Nat) (tg' : Target) : (s.modLd n f).right m' tg' = s.right m' tg' := rfl
@[simp] theorem modLd_has (s : State) (n : Nat) (f : Ld → Ld) (m' : Nat) (tg' : Target) (r' : Right) : (s.modLd n f).has m' tg' r' = s.has m' tg' r' := rfl
@[simp] theorem modLd_pipRight (s : State) (n : Nat) (f : Ld → Ld) (m' n' : Nat) : (s.modLd n f).pipRight m' n' = s.pipRight m' n' := rfl
@[simp] theorem modLd_findExec (s : State) (n : Nat) (f : Ld → Ld) (rk' seq' : Nat) : (s.modLd n f).findExec rk' seq' = s.findExec rk' seq' := rfl
@[simp] theorem modLd_memAddr (s : State) (n : Nat) (f : Ld → Ld) (a' : Nat) : (s.modLd n f).memAddr a' = s.memAddr a' := rfl

/-! ### modRack -/

@[simp] theorem modRack_tile (s : State) (r : Nat) (f : Rack → Rack) (i' : Nat) : (s.modRack r f).tile i' = s.tile i' := rfl
@[simp] theorem modRack_port (s : State) (r : Nat) (f : Rack → Rack) (i' : Nat) : (s.modRack r f).port i' = s.port i' := rfl
@[simp] theorem modRack_world (s : State) (r : Nat) (f : Rack → Rack) (i' : Nat) : (s.modRack r f).world i' = s.world i' := rfl
@[simp] theorem modRack_ld (s : State) (r : Nat) (f : Rack → Rack) (i' : Nat) : (s.modRack r f).ld i' = s.ld i' := rfl
@[simp] theorem modRack_link (s : State) (r : Nat) (f : Rack → Rack) (i' : Nat) : (s.modRack r f).link i' = s.link i' := rfl
@[simp] theorem modRack_master (s : State) (r : Nat) (f : Rack → Rack) (i' : Nat) : (s.modRack r f).master i' = s.master i' := rfl
@[simp] theorem modRack_span (s : State) (r : Nat) (f : Rack → Rack) (i' : Nat) : (s.modRack r f).span i' = s.span i' := rfl
@[simp] theorem modRack_fence (s : State) (r : Nat) (f : Rack → Rack) (i' : Nat) : (s.modRack r f).fence i' = s.fence i' := rfl
@[simp] theorem modRack_dom (s : State) (r : Nat) (f : Rack → Rack) (i' : Nat) : (s.modRack r f).dom i' = s.dom i' := rfl
@[simp] theorem modRack_pip (s : State) (r : Nat) (f : Rack → Rack) (i' : Nat) : (s.modRack r f).pip i' = s.pip i' := rfl
@[simp] theorem modRack_rackSet (s : State) (r : Nat) (f : Rack → Rack) (i' : Nat) : (s.modRack r f).rackSet i' = s.rackSet i' := rfl
@[simp] theorem modRack_isReady (s : State) (r : Nat) (f : Rack → Rack) : (s.modRack r f).isReady = s.isReady := rfl
@[simp] theorem modRack_populated (s : State) (r : Nat) (f : Rack → Rack) (k' : Nat) : (s.modRack r f).populated k' = s.populated k' := rfl
@[simp] theorem modRack_domClass (s : State) (r : Nat) (f : Rack → Rack) (d' : Nat) : (s.modRack r f).domClass d' = s.domClass d' := rfl
@[simp] theorem modRack_fenceable (s : State) (r : Nat) (f : Rack → Rack) (d' : Nat) : (s.modRack r f).fenceable d' = s.fenceable d' := rfl
@[simp] theorem modRack_tilePresent (s : State) (r : Nat) (f : Rack → Rack) (k' : Nat) : (s.modRack r f).tilePresent k' = s.tilePresent k' := rfl
@[simp] theorem modRack_domState (s : State) (r : Nat) (f : Rack → Rack) (d' : Nat) : (s.modRack r f).domState d' = s.domState d' := rfl
@[simp] theorem modRack_domActive (s : State) (r : Nat) (f : Rack → Rack) (d' : Nat) : (s.modRack r f).domActive d' = s.domActive d' := rfl
@[simp] theorem modRack_tileActive (s : State) (r : Nat) (f : Rack → Rack) (d' : Nat) : (s.modRack r f).tileActive d' = s.tileActive d' := rfl
@[simp] theorem modRack_domRuns (s : State) (r : Nat) (f : Rack → Rack) (d' : Nat) : (s.modRack r f).domRuns d' = s.domRuns d' := rfl
@[simp] theorem modRack_tileRuns (s : State) (r : Nat) (f : Rack → Rack) (d' : Nat) : (s.modRack r f).tileRuns d' = s.tileRuns d' := rfl
@[simp] theorem modRack_right (s : State) (r : Nat) (f : Rack → Rack) (m' : Nat) (tg' : Target) : (s.modRack r f).right m' tg' = s.right m' tg' := rfl
@[simp] theorem modRack_has (s : State) (r : Nat) (f : Rack → Rack) (m' : Nat) (tg' : Target) (r' : Right) : (s.modRack r f).has m' tg' r' = s.has m' tg' r' := rfl
@[simp] theorem modRack_pipRight (s : State) (r : Nat) (f : Rack → Rack) (m' n' : Nat) : (s.modRack r f).pipRight m' n' = s.pipRight m' n' := rfl
@[simp] theorem modRack_ldOfRack (s : State) (r : Nat) (f : Rack → Rack) (r' : Nat) : (s.modRack r f).ldOfRack r' = s.ldOfRack r' := rfl
@[simp] theorem modRack_findExec (s : State) (r : Nat) (f : Rack → Rack) (rk' seq' : Nat) : (s.modRack r f).findExec rk' seq' = s.findExec rk' seq' := rfl
@[simp] theorem modRack_memAddr (s : State) (r : Nat) (f : Rack → Rack) (a' : Nat) : (s.modRack r f).memAddr a' = s.memAddr a' := rfl

/-! ### modPip -/

@[simp] theorem modPip_tile (s : State) (n : Nat) (f : Pip → Pip) (i' : Nat) : (s.modPip n f).tile i' = s.tile i' := rfl
@[simp] theorem modPip_port (s : State) (n : Nat) (f : Pip → Pip) (i' : Nat) : (s.modPip n f).port i' = s.port i' := rfl
@[simp] theorem modPip_world (s : State) (n : Nat) (f : Pip → Pip) (i' : Nat) : (s.modPip n f).world i' = s.world i' := rfl
@[simp] theorem modPip_rack (s : State) (n : Nat) (f : Pip → Pip) (i' : Nat) : (s.modPip n f).rack i' = s.rack i' := rfl
@[simp] theorem modPip_ld (s : State) (n : Nat) (f : Pip → Pip) (i' : Nat) : (s.modPip n f).ld i' = s.ld i' := rfl
@[simp] theorem modPip_link (s : State) (n : Nat) (f : Pip → Pip) (i' : Nat) : (s.modPip n f).link i' = s.link i' := rfl
@[simp] theorem modPip_master (s : State) (n : Nat) (f : Pip → Pip) (i' : Nat) : (s.modPip n f).master i' = s.master i' := rfl
@[simp] theorem modPip_span (s : State) (n : Nat) (f : Pip → Pip) (i' : Nat) : (s.modPip n f).span i' = s.span i' := rfl
@[simp] theorem modPip_fence (s : State) (n : Nat) (f : Pip → Pip) (i' : Nat) : (s.modPip n f).fence i' = s.fence i' := rfl
@[simp] theorem modPip_dom (s : State) (n : Nat) (f : Pip → Pip) (i' : Nat) : (s.modPip n f).dom i' = s.dom i' := rfl
@[simp] theorem modPip_rackSet (s : State) (n : Nat) (f : Pip → Pip) (i' : Nat) : (s.modPip n f).rackSet i' = s.rackSet i' := rfl
@[simp] theorem modPip_isReady (s : State) (n : Nat) (f : Pip → Pip) : (s.modPip n f).isReady = s.isReady := rfl
@[simp] theorem modPip_populated (s : State) (n : Nat) (f : Pip → Pip) (k' : Nat) : (s.modPip n f).populated k' = s.populated k' := rfl
@[simp] theorem modPip_domClass (s : State) (n : Nat) (f : Pip → Pip) (d' : Nat) : (s.modPip n f).domClass d' = s.domClass d' := rfl
@[simp] theorem modPip_fenceable (s : State) (n : Nat) (f : Pip → Pip) (d' : Nat) : (s.modPip n f).fenceable d' = s.fenceable d' := rfl
@[simp] theorem modPip_tilePresent (s : State) (n : Nat) (f : Pip → Pip) (k' : Nat) : (s.modPip n f).tilePresent k' = s.tilePresent k' := rfl
@[simp] theorem modPip_domState (s : State) (n : Nat) (f : Pip → Pip) (d' : Nat) : (s.modPip n f).domState d' = s.domState d' := rfl
@[simp] theorem modPip_domActive (s : State) (n : Nat) (f : Pip → Pip) (d' : Nat) : (s.modPip n f).domActive d' = s.domActive d' := rfl
@[simp] theorem modPip_tileActive (s : State) (n : Nat) (f : Pip → Pip) (d' : Nat) : (s.modPip n f).tileActive d' = s.tileActive d' := rfl
@[simp] theorem modPip_domRuns (s : State) (n : Nat) (f : Pip → Pip) (d' : Nat) : (s.modPip n f).domRuns d' = s.domRuns d' := rfl
@[simp] theorem modPip_tileRuns (s : State) (n : Nat) (f : Pip → Pip) (d' : Nat) : (s.modPip n f).tileRuns d' = s.tileRuns d' := rfl
@[simp] theorem modPip_right (s : State) (n : Nat) (f : Pip → Pip) (m' : Nat) (tg' : Target) : (s.modPip n f).right m' tg' = s.right m' tg' := rfl
@[simp] theorem modPip_has (s : State) (n : Nat) (f : Pip → Pip) (m' : Nat) (tg' : Target) (r' : Right) : (s.modPip n f).has m' tg' r' = s.has m' tg' r' := rfl
@[simp] theorem modPip_ldOfRack (s : State) (n : Nat) (f : Pip → Pip) (r' : Nat) : (s.modPip n f).ldOfRack r' = s.ldOfRack r' := rfl
@[simp] theorem modPip_findExec (s : State) (n : Nat) (f : Pip → Pip) (rk' seq' : Nat) : (s.modPip n f).findExec rk' seq' = s.findExec rk' seq' := rfl
@[simp] theorem modPip_memAddr (s : State) (n : Nat) (f : Pip → Pip) (a' : Nat) : (s.modPip n f).memAddr a' = s.memAddr a' := rfl

/-! ### modWorld -/

@[simp] theorem modWorld_tile (s : State) (w : Nat) (f : World → World) (i' : Nat) : (s.modWorld w f).tile i' = s.tile i' := rfl
@[simp] theorem modWorld_port (s : State) (w : Nat) (f : World → World) (i' : Nat) : (s.modWorld w f).port i' = s.port i' := rfl
@[simp] theorem modWorld_rack (s : State) (w : Nat) (f : World → World) (i' : Nat) : (s.modWorld w f).rack i' = s.rack i' := rfl
@[simp] theorem modWorld_ld (s : State) (w : Nat) (f : World → World) (i' : Nat) : (s.modWorld w f).ld i' = s.ld i' := rfl
@[simp] theorem modWorld_link (s : State) (w : Nat) (f : World → World) (i' : Nat) : (s.modWorld w f).link i' = s.link i' := rfl
@[simp] theorem modWorld_master (s : State) (w : Nat) (f : World → World) (i' : Nat) : (s.modWorld w f).master i' = s.master i' := rfl
@[simp] theorem modWorld_span (s : State) (w : Nat) (f : World → World) (i' : Nat) : (s.modWorld w f).span i' = s.span i' := rfl
@[simp] theorem modWorld_fence (s : State) (w : Nat) (f : World → World) (i' : Nat) : (s.modWorld w f).fence i' = s.fence i' := rfl
@[simp] theorem modWorld_dom (s : State) (w : Nat) (f : World → World) (i' : Nat) : (s.modWorld w f).dom i' = s.dom i' := rfl
@[simp] theorem modWorld_pip (s : State) (w : Nat) (f : World → World) (i' : Nat) : (s.modWorld w f).pip i' = s.pip i' := rfl
@[simp] theorem modWorld_rackSet (s : State) (w : Nat) (f : World → World) (i' : Nat) : (s.modWorld w f).rackSet i' = s.rackSet i' := rfl
@[simp] theorem modWorld_isReady (s : State) (w : Nat) (f : World → World) : (s.modWorld w f).isReady = s.isReady := rfl
@[simp] theorem modWorld_populated (s : State) (w : Nat) (f : World → World) (k' : Nat) : (s.modWorld w f).populated k' = s.populated k' := rfl
@[simp] theorem modWorld_domClass (s : State) (w : Nat) (f : World → World) (d' : Nat) : (s.modWorld w f).domClass d' = s.domClass d' := rfl
@[simp] theorem modWorld_fenceable (s : State) (w : Nat) (f : World → World) (d' : Nat) : (s.modWorld w f).fenceable d' = s.fenceable d' := rfl
@[simp] theorem modWorld_tilePresent (s : State) (w : Nat) (f : World → World) (k' : Nat) : (s.modWorld w f).tilePresent k' = s.tilePresent k' := rfl
@[simp] theorem modWorld_domState (s : State) (w : Nat) (f : World → World) (d' : Nat) : (s.modWorld w f).domState d' = s.domState d' := rfl
@[simp] theorem modWorld_domActive (s : State) (w : Nat) (f : World → World) (d' : Nat) : (s.modWorld w f).domActive d' = s.domActive d' := rfl
@[simp] theorem modWorld_tileActive (s : State) (w : Nat) (f : World → World) (d' : Nat) : (s.modWorld w f).tileActive d' = s.tileActive d' := rfl
@[simp] theorem modWorld_domRuns (s : State) (w : Nat) (f : World → World) (d' : Nat) : (s.modWorld w f).domRuns d' = s.domRuns d' := rfl
@[simp] theorem modWorld_tileRuns (s : State) (w : Nat) (f : World → World) (d' : Nat) : (s.modWorld w f).tileRuns d' = s.tileRuns d' := rfl
@[simp] theorem modWorld_ldOfRack (s : State) (w : Nat) (f : World → World) (r' : Nat) : (s.modWorld w f).ldOfRack r' = s.ldOfRack r' := rfl
@[simp] theorem modWorld_findExec (s : State) (w : Nat) (f : World → World) (rk' seq' : Nat) : (s.modWorld w f).findExec rk' seq' = s.findExec rk' seq' := rfl
@[simp] theorem modWorld_memAddr (s : State) (w : Nat) (f : World → World) (a' : Nat) : (s.modWorld w f).memAddr a' = s.memAddr a' := rfl

/-! ### modTile -/

@[simp] theorem modTile_port (s : State) (t : Nat) (f : Tile → Tile) (i' : Nat) : (s.modTile t f).port i' = s.port i' := rfl
@[simp] theorem modTile_world (s : State) (t : Nat) (f : Tile → Tile) (i' : Nat) : (s.modTile t f).world i' = s.world i' := rfl
@[simp] theorem modTile_rack (s : State) (t : Nat) (f : Tile → Tile) (i' : Nat) : (s.modTile t f).rack i' = s.rack i' := rfl
@[simp] theorem modTile_ld (s : State) (t : Nat) (f : Tile → Tile) (i' : Nat) : (s.modTile t f).ld i' = s.ld i' := rfl
@[simp] theorem modTile_link (s : State) (t : Nat) (f : Tile → Tile) (i' : Nat) : (s.modTile t f).link i' = s.link i' := rfl
@[simp] theorem modTile_master (s : State) (t : Nat) (f : Tile → Tile) (i' : Nat) : (s.modTile t f).master i' = s.master i' := rfl
@[simp] theorem modTile_span (s : State) (t : Nat) (f : Tile → Tile) (i' : Nat) : (s.modTile t f).span i' = s.span i' := rfl
@[simp] theorem modTile_fence (s : State) (t : Nat) (f : Tile → Tile) (i' : Nat) : (s.modTile t f).fence i' = s.fence i' := rfl
@[simp] theorem modTile_dom (s : State) (t : Nat) (f : Tile → Tile) (i' : Nat) : (s.modTile t f).dom i' = s.dom i' := rfl
@[simp] theorem modTile_pip (s : State) (t : Nat) (f : Tile → Tile) (i' : Nat) : (s.modTile t f).pip i' = s.pip i' := rfl
@[simp] theorem modTile_rackSet (s : State) (t : Nat) (f : Tile → Tile) (i' : Nat) : (s.modTile t f).rackSet i' = s.rackSet i' := rfl
@[simp] theorem modTile_isReady (s : State) (t : Nat) (f : Tile → Tile) : (s.modTile t f).isReady = s.isReady := rfl
@[simp] theorem modTile_populated (s : State) (t : Nat) (f : Tile → Tile) (k' : Nat) : (s.modTile t f).populated k' = s.populated k' := rfl
@[simp] theorem modTile_domClass (s : State) (t : Nat) (f : Tile → Tile) (d' : Nat) : (s.modTile t f).domClass d' = s.domClass d' := rfl
@[simp] theorem modTile_fenceable (s : State) (t : Nat) (f : Tile → Tile) (d' : Nat) : (s.modTile t f).fenceable d' = s.fenceable d' := rfl
@[simp] theorem modTile_tilePresent (s : State) (t : Nat) (f : Tile → Tile) (k' : Nat) : (s.modTile t f).tilePresent k' = s.tilePresent k' := rfl
@[simp] theorem modTile_domState (s : State) (t : Nat) (f : Tile → Tile) (d' : Nat) : (s.modTile t f).domState d' = s.domState d' := rfl
@[simp] theorem modTile_domActive (s : State) (t : Nat) (f : Tile → Tile) (d' : Nat) : (s.modTile t f).domActive d' = s.domActive d' := rfl
@[simp] theorem modTile_tileActive (s : State) (t : Nat) (f : Tile → Tile) (d' : Nat) : (s.modTile t f).tileActive d' = s.tileActive d' := rfl
@[simp] theorem modTile_domRuns (s : State) (t : Nat) (f : Tile → Tile) (d' : Nat) : (s.modTile t f).domRuns d' = s.domRuns d' := rfl
@[simp] theorem modTile_tileRuns (s : State) (t : Nat) (f : Tile → Tile) (d' : Nat) : (s.modTile t f).tileRuns d' = s.tileRuns d' := rfl
@[simp] theorem modTile_right (s : State) (t : Nat) (f : Tile → Tile) (m' : Nat) (tg' : Target) : (s.modTile t f).right m' tg' = s.right m' tg' := rfl
@[simp] theorem modTile_has (s : State) (t : Nat) (f : Tile → Tile) (m' : Nat) (tg' : Target) (r' : Right) : (s.modTile t f).has m' tg' r' = s.has m' tg' r' := rfl
@[simp] theorem modTile_pipRight (s : State) (t : Nat) (f : Tile → Tile) (m' n' : Nat) : (s.modTile t f).pipRight m' n' = s.pipRight m' n' := rfl
@[simp] theorem modTile_ldOfRack (s : State) (t : Nat) (f : Tile → Tile) (r' : Nat) : (s.modTile t f).ldOfRack r' = s.ldOfRack r' := rfl
@[simp] theorem modTile_findExec (s : State) (t : Nat) (f : Tile → Tile) (rk' seq' : Nat) : (s.modTile t f).findExec rk' seq' = s.findExec rk' seq' := rfl

/-! ### modPort -/

@[simp] theorem modPort_tile (s : State) (n : Nat) (f : Port → Port) (i' : Nat) : (s.modPort n f).tile i' = s.tile i' := rfl
@[simp] theorem modPort_world (s : State) (n : Nat) (f : Port → Port) (i' : Nat) : (s.modPort n f).world i' = s.world i' := rfl
@[simp] theorem modPort_rack (s : State) (n : Nat) (f : Port → Port) (i' : Nat) : (s.modPort n f).rack i' = s.rack i' := rfl
@[simp] theorem modPort_ld (s : State) (n : Nat) (f : Port → Port) (i' : Nat) : (s.modPort n f).ld i' = s.ld i' := rfl
@[simp] theorem modPort_link (s : State) (n : Nat) (f : Port → Port) (i' : Nat) : (s.modPort n f).link i' = s.link i' := rfl
@[simp] theorem modPort_master (s : State) (n : Nat) (f : Port → Port) (i' : Nat) : (s.modPort n f).master i' = s.master i' := rfl
@[simp] theorem modPort_span (s : State) (n : Nat) (f : Port → Port) (i' : Nat) : (s.modPort n f).span i' = s.span i' := rfl
@[simp] theorem modPort_fence (s : State) (n : Nat) (f : Port → Port) (i' : Nat) : (s.modPort n f).fence i' = s.fence i' := rfl
@[simp] theorem modPort_dom (s : State) (n : Nat) (f : Port → Port) (i' : Nat) : (s.modPort n f).dom i' = s.dom i' := rfl
@[simp] theorem modPort_pip (s : State) (n : Nat) (f : Port → Port) (i' : Nat) : (s.modPort n f).pip i' = s.pip i' := rfl
@[simp] theorem modPort_rackSet (s : State) (n : Nat) (f : Port → Port) (i' : Nat) : (s.modPort n f).rackSet i' = s.rackSet i' := rfl
@[simp] theorem modPort_isReady (s : State) (n : Nat) (f : Port → Port) : (s.modPort n f).isReady = s.isReady := rfl
@[simp] theorem modPort_populated (s : State) (n : Nat) (f : Port → Port) (k' : Nat) : (s.modPort n f).populated k' = s.populated k' := rfl
@[simp] theorem modPort_domClass (s : State) (n : Nat) (f : Port → Port) (d' : Nat) : (s.modPort n f).domClass d' = s.domClass d' := rfl
@[simp] theorem modPort_fenceable (s : State) (n : Nat) (f : Port → Port) (d' : Nat) : (s.modPort n f).fenceable d' = s.fenceable d' := rfl
@[simp] theorem modPort_tilePresent (s : State) (n : Nat) (f : Port → Port) (k' : Nat) : (s.modPort n f).tilePresent k' = s.tilePresent k' := rfl
@[simp] theorem modPort_domState (s : State) (n : Nat) (f : Port → Port) (d' : Nat) : (s.modPort n f).domState d' = s.domState d' := rfl
@[simp] theorem modPort_domActive (s : State) (n : Nat) (f : Port → Port) (d' : Nat) : (s.modPort n f).domActive d' = s.domActive d' := rfl
@[simp] theorem modPort_tileActive (s : State) (n : Nat) (f : Port → Port) (d' : Nat) : (s.modPort n f).tileActive d' = s.tileActive d' := rfl
@[simp] theorem modPort_domRuns (s : State) (n : Nat) (f : Port → Port) (d' : Nat) : (s.modPort n f).domRuns d' = s.domRuns d' := rfl
@[simp] theorem modPort_tileRuns (s : State) (n : Nat) (f : Port → Port) (d' : Nat) : (s.modPort n f).tileRuns d' = s.tileRuns d' := rfl
@[simp] theorem modPort_right (s : State) (n : Nat) (f : Port → Port) (m' : Nat) (tg' : Target) : (s.modPort n f).right m' tg' = s.right m' tg' := rfl
@[simp] theorem modPort_has (s : State) (n : Nat) (f : Port → Port) (m' : Nat) (tg' : Target) (r' : Right) : (s.modPort n f).has m' tg' r' = s.has m' tg' r' := rfl
@[simp] theorem modPort_pipRight (s : State) (n : Nat) (f : Port → Port) (m' n' : Nat) : (s.modPort n f).pipRight m' n' = s.pipRight m' n' := rfl
@[simp] theorem modPort_ldOfRack (s : State) (n : Nat) (f : Port → Port) (r' : Nat) : (s.modPort n f).ldOfRack r' = s.ldOfRack r' := rfl
@[simp] theorem modPort_findExec (s : State) (n : Nat) (f : Port → Port) (rk' seq' : Nat) : (s.modPort n f).findExec rk' seq' = s.findExec rk' seq' := rfl
@[simp] theorem modPort_memAddr (s : State) (n : Nat) (f : Port → Port) (a' : Nat) : (s.modPort n f).memAddr a' = s.memAddr a' := rfl

/-! ### modSpan -/

@[simp] theorem modSpan_tile (s : State) (k : Nat) (f : Span → Span) (i' : Nat) : (s.modSpan k f).tile i' = s.tile i' := rfl
@[simp] theorem modSpan_port (s : State) (k : Nat) (f : Span → Span) (i' : Nat) : (s.modSpan k f).port i' = s.port i' := rfl
@[simp] theorem modSpan_world (s : State) (k : Nat) (f : Span → Span) (i' : Nat) : (s.modSpan k f).world i' = s.world i' := rfl
@[simp] theorem modSpan_rack (s : State) (k : Nat) (f : Span → Span) (i' : Nat) : (s.modSpan k f).rack i' = s.rack i' := rfl
@[simp] theorem modSpan_ld (s : State) (k : Nat) (f : Span → Span) (i' : Nat) : (s.modSpan k f).ld i' = s.ld i' := rfl
@[simp] theorem modSpan_link (s : State) (k : Nat) (f : Span → Span) (i' : Nat) : (s.modSpan k f).link i' = s.link i' := rfl
@[simp] theorem modSpan_master (s : State) (k : Nat) (f : Span → Span) (i' : Nat) : (s.modSpan k f).master i' = s.master i' := rfl
@[simp] theorem modSpan_fence (s : State) (k : Nat) (f : Span → Span) (i' : Nat) : (s.modSpan k f).fence i' = s.fence i' := rfl
@[simp] theorem modSpan_dom (s : State) (k : Nat) (f : Span → Span) (i' : Nat) : (s.modSpan k f).dom i' = s.dom i' := rfl
@[simp] theorem modSpan_pip (s : State) (k : Nat) (f : Span → Span) (i' : Nat) : (s.modSpan k f).pip i' = s.pip i' := rfl
@[simp] theorem modSpan_rackSet (s : State) (k : Nat) (f : Span → Span) (i' : Nat) : (s.modSpan k f).rackSet i' = s.rackSet i' := rfl
@[simp] theorem modSpan_isReady (s : State) (k : Nat) (f : Span → Span) : (s.modSpan k f).isReady = s.isReady := rfl
@[simp] theorem modSpan_populated (s : State) (k : Nat) (f : Span → Span) (k' : Nat) : (s.modSpan k f).populated k' = s.populated k' := rfl
@[simp] theorem modSpan_domClass (s : State) (k : Nat) (f : Span → Span) (d' : Nat) : (s.modSpan k f).domClass d' = s.domClass d' := rfl
@[simp] theorem modSpan_fenceable (s : State) (k : Nat) (f : Span → Span) (d' : Nat) : (s.modSpan k f).fenceable d' = s.fenceable d' := rfl
@[simp] theorem modSpan_tilePresent (s : State) (k : Nat) (f : Span → Span) (k' : Nat) : (s.modSpan k f).tilePresent k' = s.tilePresent k' := rfl
@[simp] theorem modSpan_domState (s : State) (k : Nat) (f : Span → Span) (d' : Nat) : (s.modSpan k f).domState d' = s.domState d' := rfl
@[simp] theorem modSpan_domActive (s : State) (k : Nat) (f : Span → Span) (d' : Nat) : (s.modSpan k f).domActive d' = s.domActive d' := rfl
@[simp] theorem modSpan_tileActive (s : State) (k : Nat) (f : Span → Span) (d' : Nat) : (s.modSpan k f).tileActive d' = s.tileActive d' := rfl
@[simp] theorem modSpan_domRuns (s : State) (k : Nat) (f : Span → Span) (d' : Nat) : (s.modSpan k f).domRuns d' = s.domRuns d' := rfl
@[simp] theorem modSpan_tileRuns (s : State) (k : Nat) (f : Span → Span) (d' : Nat) : (s.modSpan k f).tileRuns d' = s.tileRuns d' := rfl
@[simp] theorem modSpan_right (s : State) (k : Nat) (f : Span → Span) (m' : Nat) (tg' : Target) : (s.modSpan k f).right m' tg' = s.right m' tg' := rfl
@[simp] theorem modSpan_has (s : State) (k : Nat) (f : Span → Span) (m' : Nat) (tg' : Target) (r' : Right) : (s.modSpan k f).has m' tg' r' = s.has m' tg' r' := rfl
@[simp] theorem modSpan_pipRight (s : State) (k : Nat) (f : Span → Span) (m' n' : Nat) : (s.modSpan k f).pipRight m' n' = s.pipRight m' n' := rfl
@[simp] theorem modSpan_ldOfRack (s : State) (k : Nat) (f : Span → Span) (r' : Nat) : (s.modSpan k f).ldOfRack r' = s.ldOfRack r' := rfl
@[simp] theorem modSpan_findExec (s : State) (k : Nat) (f : Span → Span) (rk' seq' : Nat) : (s.modSpan k f).findExec rk' seq' = s.findExec rk' seq' := rfl
@[simp] theorem modSpan_memAddr (s : State) (k : Nat) (f : Span → Span) (a' : Nat) : (s.modSpan k f).memAddr a' = s.memAddr a' := rfl

/-! ### modFence -/

@[simp] theorem modFence_tile (s : State) (d : Nat) (f : Fence → Fence) (i' : Nat) : (s.modFence d f).tile i' = s.tile i' := rfl
@[simp] theorem modFence_port (s : State) (d : Nat) (f : Fence → Fence) (i' : Nat) : (s.modFence d f).port i' = s.port i' := rfl
@[simp] theorem modFence_world (s : State) (d : Nat) (f : Fence → Fence) (i' : Nat) : (s.modFence d f).world i' = s.world i' := rfl
@[simp] theorem modFence_rack (s : State) (d : Nat) (f : Fence → Fence) (i' : Nat) : (s.modFence d f).rack i' = s.rack i' := rfl
@[simp] theorem modFence_ld (s : State) (d : Nat) (f : Fence → Fence) (i' : Nat) : (s.modFence d f).ld i' = s.ld i' := rfl
@[simp] theorem modFence_link (s : State) (d : Nat) (f : Fence → Fence) (i' : Nat) : (s.modFence d f).link i' = s.link i' := rfl
@[simp] theorem modFence_master (s : State) (d : Nat) (f : Fence → Fence) (i' : Nat) : (s.modFence d f).master i' = s.master i' := rfl
@[simp] theorem modFence_span (s : State) (d : Nat) (f : Fence → Fence) (i' : Nat) : (s.modFence d f).span i' = s.span i' := rfl
@[simp] theorem modFence_dom (s : State) (d : Nat) (f : Fence → Fence) (i' : Nat) : (s.modFence d f).dom i' = s.dom i' := rfl
@[simp] theorem modFence_pip (s : State) (d : Nat) (f : Fence → Fence) (i' : Nat) : (s.modFence d f).pip i' = s.pip i' := rfl
@[simp] theorem modFence_rackSet (s : State) (d : Nat) (f : Fence → Fence) (i' : Nat) : (s.modFence d f).rackSet i' = s.rackSet i' := rfl
@[simp] theorem modFence_isReady (s : State) (d : Nat) (f : Fence → Fence) : (s.modFence d f).isReady = s.isReady := rfl
@[simp] theorem modFence_populated (s : State) (d : Nat) (f : Fence → Fence) (k' : Nat) : (s.modFence d f).populated k' = s.populated k' := rfl
@[simp] theorem modFence_domClass (s : State) (d : Nat) (f : Fence → Fence) (d' : Nat) : (s.modFence d f).domClass d' = s.domClass d' := rfl
@[simp] theorem modFence_fenceable (s : State) (d : Nat) (f : Fence → Fence) (d' : Nat) : (s.modFence d f).fenceable d' = s.fenceable d' := rfl
@[simp] theorem modFence_tilePresent (s : State) (d : Nat) (f : Fence → Fence) (k' : Nat) : (s.modFence d f).tilePresent k' = s.tilePresent k' := rfl
@[simp] theorem modFence_right (s : State) (d : Nat) (f : Fence → Fence) (m' : Nat) (tg' : Target) : (s.modFence d f).right m' tg' = s.right m' tg' := rfl
@[simp] theorem modFence_has (s : State) (d : Nat) (f : Fence → Fence) (m' : Nat) (tg' : Target) (r' : Right) : (s.modFence d f).has m' tg' r' = s.has m' tg' r' := rfl
@[simp] theorem modFence_pipRight (s : State) (d : Nat) (f : Fence → Fence) (m' n' : Nat) : (s.modFence d f).pipRight m' n' = s.pipRight m' n' := rfl
@[simp] theorem modFence_ldOfRack (s : State) (d : Nat) (f : Fence → Fence) (r' : Nat) : (s.modFence d f).ldOfRack r' = s.ldOfRack r' := rfl
@[simp] theorem modFence_findExec (s : State) (d : Nat) (f : Fence → Fence) (rk' seq' : Nat) : (s.modFence d f).findExec rk' seq' = s.findExec rk' seq' := rfl
@[simp] theorem modFence_memAddr (s : State) (d : Nat) (f : Fence → Fence) (a' : Nat) : (s.modFence d f).memAddr a' = s.memAddr a' := rfl

/-! ### modDom -/

@[simp] theorem modDom_tile (s : State) (d : Nat) (f : Dom → Dom) (i' : Nat) : (s.modDom d f).tile i' = s.tile i' := rfl
@[simp] theorem modDom_port (s : State) (d : Nat) (f : Dom → Dom) (i' : Nat) : (s.modDom d f).port i' = s.port i' := rfl
@[simp] theorem modDom_world (s : State) (d : Nat) (f : Dom → Dom) (i' : Nat) : (s.modDom d f).world i' = s.world i' := rfl
@[simp] theorem modDom_rack (s : State) (d : Nat) (f : Dom → Dom) (i' : Nat) : (s.modDom d f).rack i' = s.rack i' := rfl
@[simp] theorem modDom_ld (s : State) (d : Nat) (f : Dom → Dom) (i' : Nat) : (s.modDom d f).ld i' = s.ld i' := rfl
@[simp] theorem modDom_link (s : State) (d : Nat) (f : Dom → Dom) (i' : Nat) : (s.modDom d f).link i' = s.link i' := rfl
@[simp] theorem modDom_master (s : State) (d : Nat) (f : Dom → Dom) (i' : Nat) : (s.modDom d f).master i' = s.master i' := rfl
@[simp] theorem modDom_span (s : State) (d : Nat) (f : Dom → Dom) (i' : Nat) : (s.modDom d f).span i' = s.span i' := rfl
@[simp] theorem modDom_fence (s : State) (d : Nat) (f : Dom → Dom) (i' : Nat) : (s.modDom d f).fence i' = s.fence i' := rfl
@[simp] theorem modDom_pip (s : State) (d : Nat) (f : Dom → Dom) (i' : Nat) : (s.modDom d f).pip i' = s.pip i' := rfl
@[simp] theorem modDom_rackSet (s : State) (d : Nat) (f : Dom → Dom) (i' : Nat) : (s.modDom d f).rackSet i' = s.rackSet i' := rfl
@[simp] theorem modDom_isReady (s : State) (d : Nat) (f : Dom → Dom) : (s.modDom d f).isReady = s.isReady := rfl
@[simp] theorem modDom_populated (s : State) (d : Nat) (f : Dom → Dom) (k' : Nat) : (s.modDom d f).populated k' = s.populated k' := rfl
@[simp] theorem modDom_domClass (s : State) (d : Nat) (f : Dom → Dom) (d' : Nat) : (s.modDom d f).domClass d' = s.domClass d' := rfl
@[simp] theorem modDom_fenceable (s : State) (d : Nat) (f : Dom → Dom) (d' : Nat) : (s.modDom d f).fenceable d' = s.fenceable d' := rfl
@[simp] theorem modDom_tilePresent (s : State) (d : Nat) (f : Dom → Dom) (k' : Nat) : (s.modDom d f).tilePresent k' = s.tilePresent k' := rfl
@[simp] theorem modDom_domState (s : State) (d : Nat) (f : Dom → Dom) (d' : Nat) : (s.modDom d f).domState d' = s.domState d' := rfl
@[simp] theorem modDom_domActive (s : State) (d : Nat) (f : Dom → Dom) (d' : Nat) : (s.modDom d f).domActive d' = s.domActive d' := rfl
@[simp] theorem modDom_tileActive (s : State) (d : Nat) (f : Dom → Dom) (d' : Nat) : (s.modDom d f).tileActive d' = s.tileActive d' := rfl
@[simp] theorem modDom_domRuns (s : State) (d : Nat) (f : Dom → Dom) (d' : Nat) : (s.modDom d f).domRuns d' = s.domRuns d' := rfl
@[simp] theorem modDom_tileRuns (s : State) (d : Nat) (f : Dom → Dom) (d' : Nat) : (s.modDom d f).tileRuns d' = s.tileRuns d' := rfl
@[simp] theorem modDom_right (s : State) (d : Nat) (f : Dom → Dom) (m' : Nat) (tg' : Target) : (s.modDom d f).right m' tg' = s.right m' tg' := rfl
@[simp] theorem modDom_has (s : State) (d : Nat) (f : Dom → Dom) (m' : Nat) (tg' : Target) (r' : Right) : (s.modDom d f).has m' tg' r' = s.has m' tg' r' := rfl
@[simp] theorem modDom_pipRight (s : State) (d : Nat) (f : Dom → Dom) (m' n' : Nat) : (s.modDom d f).pipRight m' n' = s.pipRight m' n' := rfl
@[simp] theorem modDom_ldOfRack (s : State) (d : Nat) (f : Dom → Dom) (r' : Nat) : (s.modDom d f).ldOfRack r' = s.ldOfRack r' := rfl
@[simp] theorem modDom_findExec (s : State) (d : Nat) (f : Dom → Dom) (rk' seq' : Nat) : (s.modDom d f).findExec rk' seq' = s.findExec rk' seq' := rfl
@[simp] theorem modDom_memAddr (s : State) (d : Nat) (f : Dom → Dom) (a' : Nat) : (s.modDom d f).memAddr a' = s.memAddr a' := rfl

end Sys2Proof.Machine
end

