-- ==== Sys2Proof/Laws/FrameLosses.lean ====
section
/-! SUPPORT. The frame of every operation of Machine/Losses.lean: the parts that it may change. -/

set_option linter.unusedTactic false
set_option linter.unreachableTactic false
set_option linter.unusedVariables false

namespace Sys2Proof.Machine

open Sys2Proof

theorem only_countCode {P : Nat} {z : State} {s : State} {c : Code} (h_s : OnlyM P z s) (hP : Nat.land 0x1000000000000 P = 0x1000000000000) : OnlyM P z (State.countCode s c) := by
  unfold State.countCode
  with_reducible
  repeat' first
    | assumption | exact OnlyM.refl _ _ | split | apply onlyM_foldl | apply onlyO_next
    | (refine onlyM_upd ?_ (fun p hp => by have hl := lacks (within_trans (by decide : Nat.land 0x1000000000000 0x1000000000000 = 0x1000000000000) hP) hp; revert hl; clear hp; cases p <;> first | exact fun h => absurd h (by decide) | with_unfolding_all exact fun _ => rfl))
    | intro _ | (dsimp only)

theorem only_overflow {P : Nat} {z : State} {s : State} {i : LossItem} (h_s : OnlyM P z s) (hP : Nat.land 0x1000800000000 P = 0x1000800000000) : OnlyM P z (State.overflow s i) := by
  unfold State.overflow
  with_reducible
  repeat' first
    | assumption | exact OnlyM.refl _ _ | split | (refine only_countCode ?_ (within_trans (by decide) hP))
    | (refine only_modTurn ?_ (within_trans (by decide) hP)) | apply onlyM_foldl | apply onlyO_next
    | (refine onlyM_upd ?_ (fun p hp => by have hl := lacks (within_trans (by decide : Nat.land 0x1000000000000 0x1000800000000 = 0x1000000000000) hP) hp; revert hl; clear hp; cases p <;> first | exact fun h => absurd h (by decide) | with_unfolding_all exact fun _ => rfl))
    | intro _ | (dsimp only)

theorem only_lossTurn {P : Nat} {z : State} {s : State} {i : LossItem} (h_s : OnlyM P z s) (hP : Nat.land 0x800000000 P = 0x800000000) : OnlyM P z (State.lossTurn s i) := by
  unfold State.lossTurn
  with_reducible
  repeat' first
    | assumption | exact OnlyM.refl _ _ | split | (refine only_modTurn ?_ (within_trans (by decide) hP))
    | apply onlyM_foldl | apply onlyO_next | intro _ | (dsimp only)

theorem only_lossStore {P : Nat} {z : State} {s : State} {k w0 w1 : Nat} (h_s : OnlyM P z s) (hP : Nat.land 0x20404 P = 0x20404) : OnlyM P z (State.lossStore s k w0 w1) := by
  unfold State.lossStore
  with_reducible
  repeat' first
    | assumption | exact OnlyM.refl _ _ | split | (refine only_wakeBank ?_ (within_trans (by decide) hP))
    | (refine only_colWrite ?_ (within_trans (by decide) hP)) | apply onlyM_foldl | apply onlyO_next | intro _
    | (dsimp only)

theorem only_lossMarks {P : Nat} {z : State} {s : State} {before : Nat} (h_s : OnlyM P z s) (hP : Nat.land 0x100800101000100 P = 0x100800101000100) : OnlyM P z (State.lossMarks s before) := by
  unfold State.lossMarks
  with_reducible
  repeat' first
    | assumption | exact OnlyM.refl _ _ | split | (refine only_postFault ?_ (within_trans (by decide) hP))
    | apply onlyM_foldl | apply onlyO_next | intro _ | (dsimp only)

theorem only_lossHead {P : Nat} {z s : State} {h : Word} (h_s : OnlyM P z s)
    (hP : Nat.land (2 ^ Part.lossRing.idx) P = 2 ^ Part.lossRing.idx) : OnlyM P z { s with flt.head := h } := by
  refine onlyM_upd h_s (fun p hp => ?_)
  have hl := lacks hP hp
  revert hl
  clear hp
  cases p <;> first | exact fun h => absurd h (by decide) | exact fun _ => rfl

theorem only_lossWrite {P : Nat} {z s : State} {i : LossItem} (h_s : OnlyM P z s) (hP : Nat.land 0x105800901020504 P = 0x105800901020504) :
    OnlyM P z (State.lossWrite s i) := by
  unfold State.lossWrite
  dsimp only
  refine only_lossMarks (only_lossTurn (onlyM_foldl (fun _ _ => only_modFence (.refl _ _) (within_trans (by decide) hP))
    (only_countCode (only_lossHead ?_ (within_trans (by decide) hP)) (within_trans (by decide) hP))) (within_trans (by decide) hP))
    (within_trans (by decide) hP)
  have h1 := only_lossStore (k := s.flt.head.toNat) (w0 := i.word0) (w1 := i.b.toNat) h_s (within_trans (by decide) hP)
  split
  · split
    · exact only_lossStore h1 (within_trans (by decide) hP)
    · exact h1
  · split
    · exact only_lossStore h1 (within_trans (by decide) hP)
    · exact h1

theorem only_lossNext {P : Nat} {z : State} {s : State} (h_s : OnlyM P z s) (hP : Nat.land 0x105800901020504 P = 0x105800901020504) : OnlyM P z (State.lossNext s) := by
  unfold State.lossNext
  with_reducible
  repeat' first
    | assumption | exact OnlyM.refl _ _ | split | (refine only_overflow ?_ (within_trans (by decide) hP))
    | (refine only_lossWrite ?_ (within_trans (by decide) hP)) | apply onlyM_foldl | apply onlyO_next
    | (refine onlyM_upd ?_ (fun p hp => by have hl := lacks (within_trans (by decide : Nat.land 0x800000000000 0x105800901020504 = 0x800000000000) hP) hp; revert hl; clear hp; cases p <;> first | exact fun h => absurd h (by decide) | with_unfolding_all exact fun _ => rfl))
    | intro _ | (dsimp only)

theorem only_lossDrain {P : Nat} {z : State} {s : State} (h_s : OnlyM P z s) (hP : Nat.land 0x105800901020504 P = 0x105800901020504) : OnlyM P z (State.lossDrain s) := by
  unfold State.lossDrain
  with_reducible
  repeat' first
    | assumption | exact OnlyM.refl _ _ | split | (refine only_lossNext ?_ (within_trans (by decide) hP))
    | apply onlyM_foldl | apply onlyO_next | intro _ | (dsimp only)

theorem only_execLossItem {P : Nat} {z : State} {s : State} (h_s : OnlyM P z s) (hP : Nat.land 0x105800901020504 P = 0x105800901020504) : OnlyO P z (execLossItem s) := by
  unfold execLossItem
  with_reducible
  repeat' first
    | assumption | exact OnlyM.refl _ _ | split | (refine only_lossNext ?_ (within_trans (by decide) hP))
    | apply onlyM_foldl | apply onlyO_next | intro _ | (dsimp only)

end Sys2Proof.Machine
end

