-- ==== Sys2Proof/Laws/FrameRacks.lean ====
section
/-! SUPPORT. The frame of every operation of Machine/Racks.lean: the parts that it may change. -/

set_option linter.unusedTactic false
set_option linter.unreachableTactic false
set_option linter.unusedVariables false

namespace Sys2Proof.Machine

open Sys2Proof

theorem only_rackDrop {P : Nat} {z : State} {s : State} {rk : Nat} (h_s : OnlyM P z s) (hP : Nat.land 0x100000000 P = 0x100000000) : OnlyM P z (State.rackDrop s rk) := by
  unfold State.rackDrop
  with_reducible
  repeat' first
    | assumption | exact OnlyM.refl _ _ | split | (refine only_modRack ?_ (within_trans (by decide) hP))
    | apply onlyM_foldl | apply onlyO_next | intro _ | (dsimp only)

theorem only_rackScrub {P : Nat} {z : State} {s : State} {rk : Nat} {ind : Nat} (h_s : OnlyM P z s) (hP : Nat.land 0x800100000000 P = 0x800100000000) : OnlyM P z (State.rackScrub s rk ind) := by
  induction ind generalizing s rk with
  | zero => unfold State.rackScrub; exact h_s
  | succ ind ih =>
    unfold State.rackScrub
    with_reducible
    repeat' first
      | assumption | apply ih | exact OnlyM.refl _ _ | split | (refine only_rackDrop ?_ (within_trans (by decide) hP))
      | (refine only_pushLoss ?_ (within_trans (by decide) hP)) | apply onlyM_foldl | apply onlyO_next | intro _
      | (dsimp only)

theorem only_rackReady {P : Nat} {z : State} {s : State} {rk : Nat} (h_s : OnlyM P z s) (hP : Nat.land 0x800100000000 P = 0x800100000000) : OnlyM P z (State.rackReady s rk) := by
  unfold State.rackReady
  with_reducible
  repeat' first
    | assumption | exact OnlyM.refl _ _ | split | (refine only_rackScrub ?_ (within_trans (by decide) hP))
    | apply onlyM_foldl | apply onlyO_next | intro _ | (dsimp only)

theorem only_pushResult {P : Nat} {z : State} {s : State} {m rk : Nat} {c : Code} (h_s : OnlyM P z s) (hP : Nat.land 0x100400000 P = 0x100400000) : OnlyM P z (State.pushResult s m rk c) := by
  unfold State.pushResult
  with_reducible
  repeat' first
    | assumption | exact OnlyM.refl _ _ | split | (refine only_modMaster ?_ (within_trans (by decide) hP))
    | (refine only_modRack ?_ (within_trans (by decide) hP)) | apply onlyM_foldl | apply onlyO_next | intro _
    | (dsimp only)

theorem only_execPush {P : Nat} {z : State} {m rk : Nat} {hdr : DWord} {s : State} (h_s : OnlyM P z s) (hP : Nat.land 0x100000101420400 P = 0x100000101420400) : OnlyO P z (execPush m rk hdr s) := by
  unfold execPush
  with_reducible
  repeat' first
    | assumption | exact OnlyM.refl _ _ | split | (refine only_refuse ?_ (within_trans (by decide) hP))
    | (refine only_traceRack ?_ (within_trans (by decide) hP))
    | (refine only_rackPut ?_ (within_trans (by decide) hP))
    | (refine only_pushResult ?_ (within_trans (by decide) hP))
    | (refine only_respond ?_ (within_trans (by decide) hP)) | apply onlyM_foldl | apply onlyO_next | intro _
    | (dsimp only)

theorem only_traceRead {P : Nat} {z : State} {s : State} {rk op m : Nat} {msg : List DWord} (h_s : OnlyM P z s) (hP : Nat.land 0x100000000000000 P = 0x100000000000000) : OnlyM P z (State.traceRead s rk op m msg) := by
  unfold State.traceRead
  with_reducible
  repeat' first
    | assumption | exact OnlyM.refl _ _ | split | (refine only_traceRack ?_ (within_trans (by decide) hP))
    | apply onlyM_foldl | apply onlyO_next | intro _ | (dsimp only)

theorem only_latchMsg {P : Nat} {z : State} {s : State} {m win : Nat} {msg : List DWord} (h_s : OnlyM P z s) (hP : Nat.land 0x420400 P = 0x420400) : OnlyM P z (State.latchMsg s m win msg) := by
  unfold State.latchMsg
  with_reducible
  repeat' first
    | assumption | exact OnlyM.refl _ _ | split | (refine only_modMaster ?_ (within_trans (by decide) hP))
    | (refine only_respond ?_ (within_trans (by decide) hP)) | apply onlyM_foldl | apply onlyO_next | intro _
    | (dsimp only)

theorem only_execPop {P : Nat} {z : State} {m rk : Nat} {s : State} (h_s : OnlyM P z s) (hP : Nat.land 0x100800100420400 P = 0x100800100420400) : OnlyO P z (execPop m rk s) := by
  unfold execPop
  with_reducible
  repeat' first
    | assumption | exact OnlyM.refl _ _ | split | (refine only_refuse ?_ (within_trans (by decide) hP))
    | (refine only_rackReady ?_ (within_trans (by decide) hP))
    | (refine only_traceRead ?_ (within_trans (by decide) hP))
    | (refine only_latchMsg ?_ (within_trans (by decide) hP))
    | (refine only_rackDrop ?_ (within_trans (by decide) hP)) | apply onlyM_foldl | apply onlyO_next | intro _
    | (dsimp only)

theorem only_execPeek {P : Nat} {z : State} {m rk : Nat} {s : State} (h_s : OnlyM P z s) (hP : Nat.land 0x100800100420400 P = 0x100800100420400) : OnlyO P z (execPeek m rk s) := by
  unfold execPeek
  with_reducible
  repeat' first
    | assumption | exact OnlyM.refl _ _ | split | (refine only_refuse ?_ (within_trans (by decide) hP))
    | (refine only_rackReady ?_ (within_trans (by decide) hP))
    | (refine only_traceRead ?_ (within_trans (by decide) hP))
    | (refine only_respond ?_ (within_trans (by decide) hP)) | apply onlyM_foldl | apply onlyO_next | intro _
    | (dsimp only)

theorem only_execLatch {P : Nat} {z : State} {m rk : Nat} {s : State} (h_s : OnlyM P z s) (hP : Nat.land 0x420400 P = 0x420400) : OnlyO P z (execLatch m rk s) := by
  unfold execLatch
  with_reducible
  repeat' first
    | assumption | exact OnlyM.refl _ _ | split | (refine only_refuse ?_ (within_trans (by decide) hP))
    | (refine only_respond ?_ (within_trans (by decide) hP)) | apply onlyM_foldl | apply onlyO_next | intro _
    | (dsimp only)

theorem only_setReady {P : Nat} {z : State} {s : State} {x : RackSet} (h_s : OnlyM P z s) (hP : Nat.land 0x800100000000 P = 0x800100000000) : OnlyM P z (State.setReady s x) := by
  unfold State.setReady
  with_reducible
  repeat' first
    | assumption | exact OnlyM.refl _ _ | split | (refine only_rackReady ?_ (within_trans (by decide) hP))
    | apply onlyM_foldl | apply onlyO_next | intro _ | (dsimp only)

theorem only_execSetPop {P : Nat} {z : State} {m set : Nat} {s : State} (h_s : OnlyM P z s) (hP : Nat.land 0x100800300420400 P = 0x100800300420400) : OnlyO P z (execSetPop m set s) := by
  unfold execSetPop
  with_reducible
  repeat' first
    | assumption | exact OnlyM.refl _ _ | split | (refine only_refuse ?_ (within_trans (by decide) hP))
    | (refine only_setReady ?_ (within_trans (by decide) hP))
    | (refine only_latchMsg ?_ (within_trans (by decide) hP))
    | (refine only_traceRead ?_ (within_trans (by decide) hP))
    | (refine only_rackDrop ?_ (within_trans (by decide) hP)) | apply onlyM_foldl | apply onlyO_next
    | (refine onlyM_upd ?_ (fun p hp => by have hl := lacks (within_trans (by decide : Nat.land 0x200000000 0x100800300420400 = 0x200000000) hP) hp; revert hl; clear hp; cases p <;> first | exact fun h => absurd h (by decide) | with_unfolding_all exact fun _ => rfl))
    | intro _ | (dsimp only)

theorem only_execSetPeek {P : Nat} {z : State} {m set : Nat} {s : State} (h_s : OnlyM P z s) (hP : Nat.land 0x100800100420400 P = 0x100800100420400) : OnlyO P z (execSetPeek m set s) := by
  unfold execSetPeek
  with_reducible
  repeat' first
    | assumption | exact OnlyM.refl _ _ | split | (refine only_refuse ?_ (within_trans (by decide) hP))
    | (refine only_setReady ?_ (within_trans (by decide) hP)) | (refine only_respond ?_ (within_trans (by decide) hP))
    | (refine only_traceRead ?_ (within_trans (by decide) hP)) | apply onlyM_foldl | apply onlyO_next | intro _
    | (dsimp only)

theorem only_execRackAck {P : Nat} {z : State} {m rk : Nat} {v : Word} {s : State} (h_s : OnlyM P z s) (hP : Nat.land 0x100000100420400 P = 0x100000100420400) : OnlyO P z (execRackAck m rk v s) := by
  unfold execRackAck
  with_reducible
  repeat' first
    | assumption | exact OnlyM.refl _ _ | split | (refine only_refuse ?_ (within_trans (by decide) hP))
    | (refine only_traceRack ?_ (within_trans (by decide) hP))
    | (refine only_modRack ?_ (within_trans (by decide) hP))
    | (refine only_modMaster ?_ (within_trans (by decide) hP))
    | (refine only_respond ?_ (within_trans (by decide) hP)) | apply onlyM_foldl | apply onlyO_next | intro _
    | (dsimp only)

end Sys2Proof.Machine
end

