-- ==== Sys2Proof/Laws/FrameCommands.lean ====
section
/-! SUPPORT. The frame of every operation of Machine/Commands.lean: the parts that it may change. -/

set_option linter.unusedTactic false
set_option linter.unreachableTactic false
set_option linter.unusedVariables false

namespace Sys2Proof.Machine

open Sys2Proof

theorem only_cmdWake {P : Nat} {z : State} {s : State} {op : Nat} (h_s : OnlyM P z s) (hP : Nat.land 0x20400 P = 0x20400) : OnlyM P z (State.cmdWake s op) := by
  unfold State.cmdWake
  with_reducible
  repeat' first
    | assumption | exact OnlyM.refl _ _ | split | (refine only_wakeDom ?_ (within_trans (by decide) hP))
    | apply onlyM_foldl | apply onlyO_next | intro _ | (dsimp only)

theorem only_runCmd {P : Nat} {z : State} {op : Nat} {q : ExecCmd → Bool} {f : State → ExecCmd → State} {rk seq : Nat} {s : State} (h_f : ∀ t0 t1, OnlyM P t0 (f t0 t1)) (h_s : OnlyM P z s) (hP : Nat.land 0x100000103020400 P = 0x100000103020400) : OnlyO P z (runCmd op q f rk seq s) := by
  unfold runCmd
  with_reducible
  repeat' first
    | assumption | (refine OnlyM.trans ?_ (h_f ..)) | exact OnlyM.refl _ _ | split
    | (refine only_complete ?_ (within_trans (by decide) hP)) | (refine only_cmdWake ?_ (within_trans (by decide) hP))
    | apply onlyM_foldl | apply onlyO_next | intro _ | (dsimp only)

theorem only_takeCmd {P : Nat} {z : State} {s : State} {rk cpl : Nat} {msg : List DWord} (h_s : OnlyM P z s) (hP : Nat.land 0x102000000 P = 0x102000000) : OnlyM P z (State.takeCmd s rk cpl msg).1 := by
  unfold State.takeCmd
  with_reducible
  repeat' first
    | assumption | exact OnlyM.refl _ _ | split | (refine only_rackDrop ?_ (within_trans (by decide) hP))
    | (refine only_modRack ?_ (within_trans (by decide) hP)) | apply onlyM_foldl | apply onlyO_next
    | (refine onlyM_upd ?_ (fun p hp => by have hl := lacks (within_trans (by decide : Nat.land 0x2000000 0x102000000 = 0x2000000) hP) hp; revert hl; clear hp; cases p <;> first | exact fun h => absurd h (by decide) | with_unfolding_all exact fun _ => rfl))
    | intro _ | (dsimp only)

theorem only_execCommandDispatch {P : Nat} {z : State} {rk : Nat} {s : State} (h_s : OnlyM P z s) (hP : Nat.land 0x100800107000000 P = 0x100800107000000) : OnlyO P z (execCommandDispatch rk s) := by
  unfold execCommandDispatch
  with_reducible
  repeat' first
    | assumption | exact OnlyM.refl _ _ | split | (refine only_rackReady ?_ (within_trans (by decide) hP))
    | (refine only_takeCmd ?_ (within_trans (by decide) hP)) | (refine only_complete ?_ (within_trans (by decide) hP))
    | apply onlyM_foldl | apply onlyO_next
    | (refine onlyM_upd ?_ (fun p hp => by have hl := lacks (within_trans (by decide : Nat.land 0x4000000 0x100800107000000 = 0x4000000) hP) hp; revert hl; clear hp; cases p <;> first | exact fun h => absurd h (by decide) | with_unfolding_all exact fun _ => rfl))
    | intro _ | (dsimp only)

theorem only_execSync {P : Nat} {z : State} {rk seq : Nat} {s : State} (h_s : OnlyM P z s) (hP : Nat.land 0x100000103020400 P = 0x100000103020400) : OnlyO P z (execSync rk seq s) := by
  unfold execSync
  with_reducible
  repeat' first
    | assumption | exact OnlyM.refl _ _ | split | (refine only_runCmd ?_ ?_ (within_trans (by decide) hP))
    | (refine only_complete ?_ (within_trans (by decide) hP)) | apply onlyM_foldl | apply onlyO_next | intro _
    | (dsimp only)

theorem only_execHostNop {P : Nat} {z : State} {rk seq : Nat} {s : State} (h_s : OnlyM P z s) (hP : Nat.land 0x100000103020400 P = 0x100000103020400) : OnlyO P z (execHostNop rk seq s) := by
  unfold execHostNop
  with_reducible
  repeat' first
    | assumption | exact OnlyM.refl _ _ | split | (refine only_runCmd ?_ ?_ (within_trans (by decide) hP))
    | (refine only_complete ?_ (within_trans (by decide) hP)) | apply onlyM_foldl | apply onlyO_next | intro _
    | (dsimp only)

end Sys2Proof.Machine
end

