-- ==== Sys2Proof/Laws/FrameSend.lean ====
section
/-! SUPPORT. The frame of every operation of Machine/Send.lean: the parts that it may change. -/

set_option linter.unusedTactic false
set_option linter.unreachableTactic false
set_option linter.unusedVariables false

namespace Sys2Proof.Machine

open Sys2Proof

theorem only_loseEvents {P : Nat} {z : State} {s : State} {v : Volley} {c : Code} {rep : Coord} (h_s : OnlyM P z s) (hP : Nat.land 0x800000000000 P = 0x800000000000) : OnlyM P z (State.loseEvents s v c rep) := by
  unfold State.loseEvents
  with_reducible
  repeat' first
    | assumption | exact OnlyM.refl _ _ | split | apply onlyM_foldl | apply onlyO_next
    | (refine onlyM_upd ?_ (fun p hp => by have hl := lacks (within_trans (by decide : Nat.land 0x800000000000 0x800000000000 = 0x800000000000) hP) hp; revert hl; clear hp; cases p <;> first | exact fun h => absurd h (by decide) | with_unfolding_all exact fun _ => rfl))
    | intro _ | (dsimp only)

theorem only_countSent {P : Nat} {z : State} {s : State} {st : Nat} {v : Volley} (h_s : OnlyM P z s) (hP : Nat.land 0x8000000 P = 0x8000000) : OnlyM P z (State.countSent s st v) := by
  unfold State.countSent
  with_reducible
  repeat' first
    | assumption | exact OnlyM.refl _ _ | split | apply onlyM_foldl | apply onlyO_next
    | (refine onlyM_upd ?_ (fun p hp => by have hl := lacks (within_trans (by decide : Nat.land 0x8000000 0x8000000 = 0x8000000) hP) hp; revert hl; clear hp; cases p <;> first | exact fun h => absurd h (by decide) | with_unfolding_all exact fun _ => rfl))
    | intro _ | (dsimp only)

theorem only_countRecv {P : Nat} {z : State} {s : State} {st : Nat} {v : Volley} (h_s : OnlyM P z s) (hP : Nat.land 0x8000000 P = 0x8000000) : OnlyM P z (State.countRecv s st v) := by
  unfold State.countRecv
  with_reducible
  repeat' first
    | assumption | exact OnlyM.refl _ _ | split | apply onlyM_foldl | apply onlyO_next
    | (refine onlyM_upd ?_ (fun p hp => by have hl := lacks (within_trans (by decide : Nat.land 0x8000000 0x8000000 = 0x8000000) hP) hp; revert hl; clear hp; cases p <;> first | exact fun h => absurd h (by decide) | with_unfolding_all exact fun _ => rfl))
    | intro _ | (dsimp only)

theorem only_enqueue {P : Nat} {z : State} {s : State} {px py inp : Nat} {v : Volley} (h_s : OnlyM P z s) (hP : Nat.land 0x10000000000 P = 0x10000000000) : OnlyM P z (State.enqueue s px py inp v) := by
  unfold State.enqueue
  with_reducible
  repeat' first
    | assumption | exact OnlyM.refl _ _ | split | apply onlyM_foldl | apply onlyO_next
    | (refine onlyM_upd ?_ (fun p hp => by have hl := lacks (within_trans (by decide : Nat.land 0x10000000000 0x10000000000 = 0x10000000000) hP) hp; revert hl; clear hp; cases p <;> first | exact fun h => absurd h (by decide) | with_unfolding_all exact fun _ => rfl))
    | intro _ | (dsimp only)

theorem only_countMark {P : Nat} {z : State} {s : State} {k : Nat} {v : Volley} (h_s : OnlyM P z s) (hP : Nat.land 0x80000000008 P = 0x80000000008) : OnlyM P z (State.countMark s k v) := by
  unfold State.countMark
  with_reducible
  repeat' first
    | assumption | exact OnlyM.refl _ _ | split | (refine only_modTile ?_ (within_trans (by decide) hP))
    | apply onlyM_foldl | apply onlyO_next
    | (refine onlyM_upd ?_ (fun p hp => by have hl := lacks (within_trans (by decide : Nat.land 0x80000000000 0x80000000008 = 0x80000000000) hP) hp; revert hl; clear hp; cases p <;> first | exact fun h => absurd h (by decide) | with_unfolding_all exact fun _ => rfl))
    | intro _ | (dsimp only)

theorem only_deliver {P : Nat} {z : State} {s : State} {k : Nat} {v : Volley} (h_s : OnlyM P z s) (hP : Nat.land 0xa0000020408 P = 0xa0000020408) : OnlyM P z (State.deliver s k v) := by
  unfold State.deliver
  with_reducible
  repeat' first
    | assumption | exact OnlyM.refl _ _ | split | (refine only_wakeDom ?_ (within_trans (by decide) hP))
    | (refine only_countMark ?_ (within_trans (by decide) hP)) | apply onlyM_foldl | apply onlyO_next
    | (refine onlyM_upd ?_ (fun p hp => by have hl := lacks (within_trans (by decide : Nat.land 0x20000000000 0xa0000020408 = 0x20000000000) hP) hp; revert hl; clear hp; cases p <;> first | exact fun h => absurd h (by decide) | with_unfolding_all exact fun _ => rfl))
    | intro _ | (dsimp only)

theorem only_spanSend {P : Nat} {z : State} {s : State} {k : Nat} {v : Volley} (h_s : OnlyM P z s) (hP : Nat.land 0x900000020400 P = 0x900000020400) : OnlyM P z (State.spanSend s k v) := by
  unfold State.spanSend
  with_reducible
  repeat' first
    | assumption | exact OnlyM.refl _ _ | split | (refine only_loseEvents ?_ (within_trans (by decide) hP))
    | (refine only_modSpan ?_ (within_trans (by decide) hP)) | (refine only_modDom ?_ (within_trans (by decide) hP))
    | (refine only_recordWake ?_ (within_trans (by decide) hP)) | apply onlyM_foldl | apply onlyO_next | intro _
    | (dsimp only)

theorem only_toHub {P : Nat} {z : State} {s : State} {v : Volley} (h_s : OnlyM P z s) (hP : Nat.land 0x9a0008020408 P = 0x9a0008020408) : OnlyM P z (State.toHub s v) := by
  unfold State.toHub
  with_reducible
  repeat' first
    | assumption | exact OnlyM.refl _ _ | split | (refine only_countRecv ?_ (within_trans (by decide) hP))
    | (refine only_deliver ?_ (within_trans (by decide) hP)) | (refine only_spanSend ?_ (within_trans (by decide) hP))
    | (refine only_loseEvents ?_ (within_trans (by decide) hP)) | apply onlyM_foldl | apply onlyO_next | intro _
    | (dsimp only)

theorem only_inject {P : Nat} {z : State} {s : State} {k : Nat} {v : Volley} (h_s : OnlyM P z s) (hP : Nat.land 0x9b0008020408 P = 0x9b0008020408) : OnlyM P z (State.inject s k v) := by
  unfold State.inject
  with_reducible
  repeat' first
    | assumption | exact OnlyM.refl _ _ | split | (refine only_countSent ?_ (within_trans (by decide) hP))
    | (refine only_enqueue ?_ (within_trans (by decide) hP)) | (refine only_modTile ?_ (within_trans (by decide) hP))
    | (refine only_wakeDom ?_ (within_trans (by decide) hP)) | (refine only_toHub ?_ (within_trans (by decide) hP))
    | apply onlyM_foldl | apply onlyO_next | intro _ | (dsimp only)

theorem only_modPace {P : Nat} {z : State} {s : State} {k : Nat} {f : Pace → Pace} (h_s : OnlyM P z s) (hP : Nat.land 0x40000000008 P = 0x40000000008) : OnlyM P z (State.modPace s k f) := by
  unfold State.modPace
  with_reducible
  repeat' first
    | assumption | exact OnlyM.refl _ _ | split | (refine only_modTile ?_ (within_trans (by decide) hP))
    | apply onlyM_foldl | apply onlyO_next
    | (refine onlyM_upd ?_ (fun p hp => by have hl := lacks (within_trans (by decide : Nat.land 0x40000000000 0x40000000008 = 0x40000000000) hP) hp; revert hl; clear hp; cases p <;> first | exact fun h => absurd h (by decide) | with_unfolding_all exact fun _ => rfl))
    | intro _ | (dsimp only)

theorem only_paced {P : Nat} {z : State} {s : State} {k : Nat} {v : Volley} (h_s : OnlyM P z s) (hP : Nat.land 0x9f0008020408 P = 0x9f0008020408) : OnlyM P z (State.paced s k v) := by
  unfold State.paced
  with_reducible
  repeat' first
    | assumption | exact OnlyM.refl _ _ | split | (refine only_inject ?_ (within_trans (by decide) hP))
    | (refine only_modPace ?_ (within_trans (by decide) hP)) | apply onlyM_foldl | apply onlyO_next | intro _
    | (dsimp only)

theorem only_send {P : Nat} {z : State} {s : State} {k : Nat} {v : Volley} (h_s : OnlyM P z s) (hP : Nat.land 0x9f0028020408 P = 0x9f0028020408) : OnlyM P z (State.send s k v) := by
  unfold State.send
  with_reducible
  repeat' first
    | assumption | exact OnlyM.refl _ _ | split | (refine only_loseEvents ?_ (within_trans (by decide) hP))
    | (refine only_paced ?_ (within_trans (by decide) hP)) | apply onlyM_foldl | apply onlyO_next
    | (refine onlyM_upd ?_ (fun p hp => by have hl := lacks (within_trans (by decide : Nat.land 0x20000000 0x9f0028020408 = 0x20000000) hP) hp; revert hl; clear hp; cases p <;> first | exact fun h => absurd h (by decide) | with_unfolding_all exact fun _ => rfl))
    | intro _ | (dsimp only)

theorem only_drainPace {P : Nat} {z : State} {s : State} {k : Nat} {ind : Nat} (h_s : OnlyM P z s) (hP : Nat.land 0x9f0008020408 P = 0x9f0008020408) : OnlyM P z (State.drainPace s k ind) := by
  induction ind generalizing s k with
  | zero => unfold State.drainPace; exact h_s
  | succ ind ih =>
    unfold State.drainPace
    with_reducible
    repeat' first
      | assumption | apply ih | exact OnlyM.refl _ _ | split | (refine only_modPace ?_ (within_trans (by decide) hP))
      | (refine only_inject ?_ (within_trans (by decide) hP)) | apply onlyM_foldl | apply onlyO_next | intro _
      | (dsimp only)

theorem only_toRoot {P : Nat} {z : State} {s : State} {src st : Nat} {c : Ctl} (h_s : OnlyM P z s) (hP : Nat.land 0x9b0008020408 P = 0x9b0008020408) : OnlyM P z (State.toRoot s src st c) := by
  unfold State.toRoot
  with_reducible
  repeat' first
    | assumption | exact OnlyM.refl _ _ | split | (refine only_inject ?_ (within_trans (by decide) hP))
    | apply onlyM_foldl | apply onlyO_next | intro _ | (dsimp only)

theorem only_fromRoot {P : Nat} {z : State} {s : State} {st dstX : Nat} {c : Ctl} (h_s : OnlyM P z s) (hP : Nat.land 0x10008000000 P = 0x10008000000) : OnlyM P z (State.fromRoot s st dstX c) := by
  unfold State.fromRoot
  with_reducible
  repeat' first
    | assumption | exact OnlyM.refl _ _ | split | (refine only_countSent ?_ (within_trans (by decide) hP))
    | (refine only_enqueue ?_ (within_trans (by decide) hP)) | apply onlyM_foldl | apply onlyO_next | intro _
    | (dsimp only)

theorem only_sendOpen {P : Nat} {z : State} {s : State} {t : Nat} {o : OpenVolley} (h_s : OnlyM P z s) (hP : Nat.land 0x9f0028020408 P = 0x9f0028020408) : OnlyM P z (State.sendOpen s t o) := by
  unfold State.sendOpen
  with_reducible
  repeat' first
    | assumption | exact OnlyM.refl _ _ | split | (refine only_modTile ?_ (within_trans (by decide) hP))
    | (refine only_send ?_ (within_trans (by decide) hP)) | apply onlyM_foldl | apply onlyO_next | intro _
    | (dsimp only)

theorem only_flushOpen {P : Nat} {z : State} {s : State} {t : Nat} {p : OpenVolley → Bool} (h_s : OnlyM P z s) (hP : Nat.land 0x9f0028020408 P = 0x9f0028020408) : OnlyM P z (State.flushOpen s t p) := by
  unfold State.flushOpen
  with_reducible
  repeat' first
    | assumption | exact OnlyM.refl _ _ | split | (refine only_modTile ?_ (within_trans (by decide) hP))
    | (refine only_sendOpen ?_ (within_trans (by decide) hP)) | apply onlyM_foldl | apply onlyO_next | intro _
    | (dsimp only)

theorem only_addWord {P : Nat} {z : State} {s : State} {t : Nat} {e : DWord} {w tau value : Nat} {ep : Bool} (h_s : OnlyM P z s) (hP : Nat.land 0x9f0028020408 P = 0x9f0028020408) : OnlyM P z (State.addWord s t e w tau value ep) := by
  unfold State.addWord
  with_reducible
  repeat' first
    | assumption | exact OnlyM.refl _ _ | split | (refine only_flushOpen ?_ (within_trans (by decide) hP))
    | (refine only_modTile ?_ (within_trans (by decide) hP)) | (refine only_sendOpen ?_ (within_trans (by decide) hP))
    | apply onlyM_foldl | apply onlyO_next | intro _ | (dsimp only)

theorem only_fanEmit {P : Nat} {z : State} {s : State} {t w n tau value : Nat} (h_s : OnlyM P z s) (hP : Nat.land 0x9f0028020408 P = 0x9f0028020408) : OnlyM P z (State.fanEmit s t w n tau value) := by
  unfold State.fanEmit
  with_reducible
  repeat' first
    | assumption | exact OnlyM.refl _ _ | split | (refine only_addWord ?_ (within_trans (by decide) hP))
    | (refine only_wakeBank ?_ (within_trans (by decide) hP)) | apply onlyM_foldl | apply onlyO_next | intro _
    | (dsimp only)

theorem only_emission {P : Nat} {z : State} {s : State} {t w n tau value : Nat} (h_s : OnlyM P z s) (hP : Nat.land 0x9f0028020408 P = 0x9f0028020408) : OnlyM P z (State.emission s t w n tau value) := by
  unfold State.emission
  with_reducible
  repeat' first
    | assumption | exact OnlyM.refl _ _ | split | (refine only_modTile ?_ (within_trans (by decide) hP))
    | (refine only_fanEmit ?_ (within_trans (by decide) hP)) | apply onlyM_foldl | apply onlyO_next | intro _
    | (dsimp only)

theorem only_unstall {P : Nat} {z : State} {s : State} {t : Nat} {ind : Nat} (h_s : OnlyM P z s) (hP : Nat.land 0x9f0028020408 P = 0x9f0028020408) : OnlyM P z (State.unstall s t ind) := by
  induction ind generalizing s t with
  | zero => unfold State.unstall; exact h_s
  | succ ind ih =>
    unfold State.unstall
    with_reducible
    repeat' first
      | assumption | apply ih | exact OnlyM.refl _ _ | split | (refine only_modTile ?_ (within_trans (by decide) hP))
      | (refine only_fanEmit ?_ (within_trans (by decide) hP)) | apply onlyM_foldl | apply onlyO_next | intro _
      | (dsimp only)

theorem only_sendNotice {P : Nat} {z : State} {s : State} {t g : Nat} (h_s : OnlyM P z s) (hP : Nat.land 0x9f0028020408 P = 0x9f0028020408) : OnlyM P z (State.sendNotice s t g) := by
  unfold State.sendNotice
  with_reducible
  repeat' first
    | assumption | exact OnlyM.refl _ _ | split | (refine only_flushOpen ?_ (within_trans (by decide) hP))
    | (refine only_send ?_ (within_trans (by decide) hP)) | (refine only_modTile ?_ (within_trans (by decide) hP))
    | apply onlyM_foldl | apply onlyO_next | intro _ | (dsimp only)

theorem only_noticeGroup {P : Nat} {z : State} {s : State} {g : Nat} (h_s : OnlyM P z s) (hP : Nat.land 0x9f0028020408 P = 0x9f0028020408) : OnlyM P z (State.noticeGroup s g) := by
  unfold State.noticeGroup
  with_reducible
  repeat' first
    | assumption | exact OnlyM.refl _ _ | split | (refine only_sendNotice ?_ (within_trans (by decide) hP))
    | apply onlyM_foldl | apply onlyO_next | intro _ | (dsimp only)

theorem only_hubNotice {P : Nat} {z : State} {s : State} {k g : Nat} (h_s : OnlyM P z s) (hP : Nat.land 0x9f0028020408 P = 0x9f0028020408) : OnlyM P z (State.hubNotice s k g) := by
  unfold State.hubNotice
  with_reducible
  repeat' first
    | assumption | exact OnlyM.refl _ _ | split | (refine only_send ?_ (within_trans (by decide) hP))
    | apply onlyM_foldl | apply onlyO_next | intro _ | (dsimp only)

theorem only_hubNotices {P : Nat} {z : State} {s : State} {g : Nat} (h_s : OnlyM P z s) (hP : Nat.land 0x9f0028020428 P = 0x9f0028020428) : OnlyM P z (State.hubNotices s g) := by
  unfold State.hubNotices
  with_reducible
  repeat' first
    | assumption | exact OnlyM.refl _ _ | split | (refine only_hubNotice ?_ (within_trans (by decide) hP))
    | apply onlyM_foldl | apply onlyO_next
    | (refine onlyM_upd ?_ (fun p hp => by have hl := lacks (within_trans (by decide : Nat.land 0x20 0x9f0028020428 = 0x20) hP) hp; revert hl; clear hp; cases p <;> first | exact fun h => absurd h (by decide) | with_unfolding_all exact fun _ => rfl))
    | intro _ | (dsimp only)

theorem only_takeInbox {P : Nat} {z s t : State} {k : Nat} {q : Volley → Bool} {v : Volley} (h_s : OnlyM P z s)
    (hP : Nat.land 0x20000000000 P = 0x20000000000) (e : State.takeInbox s k q = some (v, t)) : OnlyM P z t := by
  unfold State.takeInbox at e
  split at e
  · cases e
    refine onlyM_upd h_s (fun p hp => ?_)
    have hl := lacks hP hp
    revert hl
    clear hp
    cases p <;> first | exact fun h => absurd h (by decide) | exact fun _ => rfl
  · cases e

theorem only_takeMail {P : Nat} {z s t : State} {q : Mail → Bool} {v : Mail} (h_s : OnlyM P z s)
    (hP : Nat.land 0x200000000000 P = 0x200000000000) (e : State.takeMail s q = some (v, t)) : OnlyM P z t := by
  unfold State.takeMail at e
  split at e
  · cases e
    refine onlyM_upd h_s (fun p hp => ?_)
    have hl := lacks hP hp
    revert hl
    clear hp
    cases p <;> first | exact fun h => absurd h (by decide) | exact fun _ => rfl
  · cases e

theorem only_post {P : Nat} {z : State} {s : State} {dst : Nat} {b : MailBody} (h_s : OnlyM P z s) (hP : Nat.land 0x200000000000 P = 0x200000000000) : OnlyM P z (State.post s dst b) := by
  unfold State.post
  with_reducible
  repeat' first
    | assumption | exact OnlyM.refl _ _ | split | apply onlyM_foldl | apply onlyO_next
    | (refine onlyM_upd ?_ (fun p hp => by have hl := lacks (within_trans (by decide : Nat.land 0x200000000000 0x200000000000 = 0x200000000000) hP) hp; revert hl; clear hp; cases p <;> first | exact fun h => absurd h (by decide) | with_unfolding_all exact fun _ => rfl))
    | intro _ | (dsimp only)

end Sys2Proof.Machine
end

