-- ==== Sys2Proof/Laws/FrameOutputs.lean ====
section
/-! SUPPORT. The frame of every operation of Machine/Outputs.lean: the parts that it may change. -/

set_option linter.unusedTactic false
set_option linter.unreachableTactic false
set_option linter.unusedVariables false

namespace Sys2Proof.Machine

open Sys2Proof

theorem only_eachOut {P : Nat} {z : State} {s : State} {q : OutDesc → Bool} {f : Port → Nat → OutDesc → Port} (h_s : OnlyM P z s) (hP : Nat.land 0x20 P = 0x20) : OnlyM P z (State.eachOut s q f) := by
  unfold State.eachOut
  with_reducible
  repeat' first
    | assumption | exact OnlyM.refl _ _ | split | apply onlyM_foldl | apply onlyO_next
    | (refine onlyM_upd ?_ (fun p hp => by have hl := lacks (within_trans (by decide : Nat.land 0x20 0x20 = 0x20) hP) hp; revert hl; clear hp; cases p <;> first | exact fun h => absurd h (by decide) | with_unfolding_all exact fun _ => rfl))
    | intro _ | (dsimp only)

theorem only_outsWorldSafe {P : Nat} {z : State} {s : State} {w : Nat} (h_s : OnlyM P z s) (hP : Nat.land 0x20 P = 0x20) : OnlyM P z (State.outsWorldSafe s w) := by
  unfold State.outsWorldSafe
  with_reducible
  repeat' first
    | assumption | exact OnlyM.refl _ _ | split | (refine only_eachOut ?_ (within_trans (by decide) hP))
    | apply onlyM_foldl | apply onlyO_next | intro _ | (dsimp only)

theorem only_armPort {P : Nat} {z : State} {s : State} {n : Nat} {q : OutDesc → Bool} (h_s : OnlyM P z s) (hP : Nat.land 0x20 P = 0x20) : OnlyM P z (State.armPort s n q) := by
  unfold State.armPort
  with_reducible
  repeat' first
    | assumption | exact OnlyM.refl _ _ | split | (refine only_modPort ?_ (within_trans (by decide) hP))
    | apply onlyM_foldl | apply onlyO_next | intro _ | (dsimp only)

theorem only_armWorld {P : Nat} {z : State} {s : State} {w : Nat} (h_s : OnlyM P z s) (hP : Nat.land 0x20 P = 0x20) : OnlyM P z (State.armWorld s w) := by
  unfold State.armWorld
  with_reducible
  repeat' first
    | assumption | exact OnlyM.refl _ _ | split | (refine only_armPort ?_ (within_trans (by decide) hP))
    | apply onlyM_foldl | apply onlyO_next | intro _ | (dsimp only)

theorem only_addIntake {P : Nat} {z : State} {s : State} {w tau k : Nat} (h_s : OnlyM P z s) (hP : Nat.land 0x800000000 P = 0x800000000) : OnlyM P z (State.addIntake s w tau k) := by
  unfold State.addIntake
  with_reducible
  repeat' first
    | assumption | exact OnlyM.refl _ _ | split | (refine only_modWorld ?_ (within_trans (by decide) hP))
    | apply onlyM_foldl | apply onlyO_next | intro _ | (dsimp only)

theorem only_portDrain {P : Nat} {z : State} {s : State} {n : Nat} {ind : Nat} (h_s : OnlyM P z s) (hP : Nat.land 0x9f0028020428 P = 0x9f0028020428) : OnlyM P z (State.portDrain s n ind) := by
  induction ind generalizing s n with
  | zero => unfold State.portDrain; exact h_s
  | succ ind ih =>
    unfold State.portDrain
    with_reducible
    repeat' first
      | assumption | apply ih | exact OnlyM.refl _ _ | split | (refine only_modPort ?_ (within_trans (by decide) hP))
      | (refine only_send ?_ (within_trans (by decide) hP)) | apply onlyM_foldl | apply onlyO_next | intro _
      | (dsimp only)

theorem only_portFlush {P : Nat} {z : State} {s : State} {n : Nat} (h_s : OnlyM P z s) (hP : Nat.land 0x9f0028020428 P = 0x9f0028020428) : OnlyM P z (State.portFlush s n) := by
  unfold State.portFlush
  with_reducible
  repeat' first
    | assumption | exact OnlyM.refl _ _ | split | (refine only_send ?_ (within_trans (by decide) hP))
    | (refine only_modPort ?_ (within_trans (by decide) hP)) | apply onlyM_foldl | apply onlyO_next | intro _
    | (dsimp only)

theorem only_portQueue {P : Nat} {z : State} {s : State} {n : Nat} {e : DWord} {w value : Nat} (h_s : OnlyM P z s) (hP : Nat.land 0x9f0828020428 P = 0x9f0828020428) : OnlyM P z (State.portQueue s n e w value) := by
  unfold State.portQueue
  with_reducible
  repeat' first
    | assumption | exact OnlyM.refl _ _ | split | (refine only_modPort ?_ (within_trans (by decide) hP))
    | (refine only_portDrain ?_ (within_trans (by decide) hP))
    | (refine only_addIntake ?_ (within_trans (by decide) hP))
    | (refine only_pushLoss ?_ (within_trans (by decide) hP)) | apply onlyM_foldl | apply onlyO_next | intro _
    | (dsimp only)

theorem only_lockQueue {P : Nat} {z : State} {s : State} {ep ch : Nat} {e : DWord} {w tau value : Nat} (h_s : OnlyM P z s) (hP : Nat.land 0x10000000 P = 0x10000000) : OnlyM P z (State.lockQueue s ep ch e w tau value) := by
  unfold State.lockQueue
  with_reducible
  repeat' first
    | assumption | exact OnlyM.refl _ _ | split | apply onlyM_foldl | apply onlyO_next
    | (refine onlyM_upd ?_ (fun p hp => by have hl := lacks (within_trans (by decide : Nat.land 0x10000000 0x10000000 = 0x10000000) hP) hp; revert hl; clear hp; cases p <;> first | exact fun h => absurd h (by decide) | with_unfolding_all exact fun _ => rfl))
    | intro _ | (dsimp only)

theorem only_portEvent {P : Nat} {z : State} {s : State} {n ch : Nat} {e : DWord} {w off value : Nat} (h_s : OnlyM P z s) (hP : Nat.land 0x9f0838020428 P = 0x9f0838020428) : OnlyM P z (State.portEvent s n ch e w off value) := by
  unfold State.portEvent
  with_reducible
  repeat' first
    | assumption | exact OnlyM.refl _ _ | split | (refine only_lockQueue ?_ (within_trans (by decide) hP))
    | (refine only_portQueue ?_ (within_trans (by decide) hP)) | apply onlyM_foldl | apply onlyO_next | intro _
    | (dsimp only)

theorem only_capture {P : Nat} {z : State} {s : State} {n ch value : Nat} (h_s : OnlyM P z s) (hP : Nat.land 0x9f0838020428 P = 0x9f0838020428) : OnlyM P z (State.capture s n ch value) := by
  unfold State.capture
  with_reducible
  repeat' first
    | assumption | exact OnlyM.refl _ _ | split | (refine only_wakeDom ?_ (within_trans (by decide) hP))
    | (refine only_modPort ?_ (within_trans (by decide) hP))
    | (refine only_portEvent ?_ (within_trans (by decide) hP)) | apply onlyM_foldl | apply onlyO_next | intro _
    | (dsimp only)

theorem only_captures {P : Nat} {z : State} {s : State} {n first : Nat} {ind : List Byte} (h_s : OnlyM P z s) (hP : Nat.land 0x9f0838020428 P = 0x9f0838020428) : OnlyM P z (State.captures s n first ind) := by
  induction ind generalizing s n first with
  | nil => unfold State.captures; exact h_s
  | cons b1 ind ih =>
    unfold State.captures
    with_reducible
    repeat' first
      | assumption | apply ih | exact OnlyM.refl _ _ | split | (refine only_capture ?_ (within_trans (by decide) hP))
      | apply onlyM_foldl | apply onlyO_next | intro _ | (dsimp only)

theorem only_lostEvents {P : Nat} {z : State} {s : State} {n : Nat} {found : Bool} (h_s : OnlyM P z s) (hP : Nat.land 0x9f0838020428 P = 0x9f0838020428) : OnlyM P z (State.lostEvents s n found) := by
  unfold State.lostEvents
  with_reducible
  repeat' first
    | assumption | exact OnlyM.refl _ _ | split | (refine only_portEvent ?_ (within_trans (by decide) hP))
    | apply onlyM_foldl | apply onlyO_next | intro _ | (dsimp only)

theorem only_portRecord {P : Nat} {z : State} {s : State} {n cause : Nat} (h_s : OnlyM P z s) (hP : Nat.land 0x100800101000020 P = 0x100800101000020) : OnlyM P z (State.portRecord s n cause) := by
  unfold State.portRecord
  with_reducible
  repeat' first
    | assumption | exact OnlyM.refl _ _ | split | (refine only_modPort ?_ (within_trans (by decide) hP))
    | (refine only_postRecord ?_ (within_trans (by decide) hP)) | apply onlyM_foldl | apply onlyO_next | intro _
    | (dsimp only)

theorem only_detach {P : Nat} {z : State} {s : State} {n : Nat} {cause : Nat} (h_s : OnlyM P z s) (hP : Nat.land 0x1009f0939020428 P = 0x1009f0939020428) : OnlyM P z (State.detach s n cause) := by
  unfold State.detach
  with_reducible
  repeat' first
    | assumption | exact OnlyM.refl _ _ | split | (refine only_modPort ?_ (within_trans (by decide) hP))
    | (refine only_portFlush ?_ (within_trans (by decide) hP))
    | (refine only_lostEvents ?_ (within_trans (by decide) hP))
    | (refine only_eachOut ?_ (within_trans (by decide) hP))
    | (refine only_portRecord ?_ (within_trans (by decide) hP)) | apply onlyM_foldl | apply onlyO_next | intro _
    | (dsimp only)

theorem only_attach {P : Nat} {z : State} {s : State} {n : Nat} (h_s : OnlyM P z s) (hP : Nat.land 0x1009f0939020428 P = 0x1009f0939020428) : OnlyM P z (State.attach s n) := by
  unfold State.attach
  with_reducible
  repeat' first
    | assumption | exact OnlyM.refl _ _ | split | (refine only_modPort ?_ (within_trans (by decide) hP))
    | (refine only_lostEvents ?_ (within_trans (by decide) hP))
    | (refine only_armPort ?_ (within_trans (by decide) hP))
    | (refine only_portRecord ?_ (within_trans (by decide) hP)) | apply onlyM_foldl | apply onlyO_next | intro _
    | (dsimp only)

theorem only_enumerate {P : Nat} {z : State} {s : State} {n cause : Nat} (h_s : OnlyM P z s) (hP : Nat.land 0x1009f0939020428 P = 0x1009f0939020428) : OnlyM P z (State.enumerate s n cause) := by
  unfold State.enumerate
  with_reducible
  repeat' first
    | assumption | exact OnlyM.refl _ _ | split | (refine only_modPort ?_ (within_trans (by decide) hP))
    | (refine only_portRecord ?_ (within_trans (by decide) hP))
    | (refine only_attach ?_ (within_trans (by decide) hP)) | apply onlyM_foldl | apply onlyO_next | intro _
    | (dsimp only)

theorem only_enumFailed {P : Nat} {z : State} {s : State} {n : Nat} (h_s : OnlyM P z s) (hP : Nat.land 0x100800101000020 P = 0x100800101000020) : OnlyM P z (State.enumFailed s n) := by
  unfold State.enumFailed
  with_reducible
  repeat' first
    | assumption | exact OnlyM.refl _ _ | split | (refine only_modPort ?_ (within_trans (by decide) hP))
    | (refine only_portRecord ?_ (within_trans (by decide) hP)) | apply onlyM_foldl | apply onlyO_next | intro _
    | (dsimp only)

theorem only_portResume {P : Nat} {z : State} {s : State} {n : Nat} (h_s : OnlyM P z s) (hP : Nat.land 0x1009f0939020428 P = 0x1009f0939020428) : OnlyM P z (State.portResume s n) := by
  unfold State.portResume
  with_reducible
  repeat' first
    | assumption | exact OnlyM.refl _ _ | split | (refine only_modPort ?_ (within_trans (by decide) hP))
    | (refine only_portRecord ?_ (within_trans (by decide) hP))
    | (refine only_enumerate ?_ (within_trans (by decide) hP)) | apply onlyM_foldl | apply onlyO_next | intro _
    | (dsimp only)

theorem only_portLeftovers {P : Nat} {z : State} {s : State} {n : Nat} (h_s : OnlyM P z s) (hP : Nat.land 0x840010000028 P = 0x840010000028) : OnlyM P z (State.portLeftovers s n) := by
  unfold State.portLeftovers
  with_reducible
  repeat' first
    | assumption | exact OnlyM.refl _ _ | split | (refine only_pushLoss ?_ (within_trans (by decide) hP))
    | (refine only_loseEvents ?_ (within_trans (by decide) hP))
    | (refine only_modPort ?_ (within_trans (by decide) hP)) | (refine only_modPace ?_ (within_trans (by decide) hP))
    | apply onlyM_foldl | apply onlyO_next
    | (refine onlyM_upd ?_ (fun p hp => by have hl := lacks (within_trans (by decide : Nat.land 0x10000000 0x840010000028 = 0x10000000) hP) hp; revert hl; clear hp; cases p <;> first | exact fun h => absurd h (by decide) | with_unfolding_all exact fun _ => rfl))
    | intro _ | (dsimp only)

theorem only_portFence {P : Nat} {z : State} {s : State} {n : Nat} (h_s : OnlyM P z s) (hP : Nat.land 0x100840111000028 P = 0x100840111000028) : OnlyM P z (State.portFence s n) := by
  unfold State.portFence
  with_reducible
  repeat' first
    | assumption | exact OnlyM.refl _ _ | split | (refine only_portLeftovers ?_ (within_trans (by decide) hP))
    | (refine only_modPort ?_ (within_trans (by decide) hP)) | (refine only_eachOut ?_ (within_trans (by decide) hP))
    | (refine only_portRecord ?_ (within_trans (by decide) hP)) | apply onlyM_foldl | apply onlyO_next | intro _
    | (dsimp only)

end Sys2Proof.Machine
end

