-- ==== Sys2Proof/Laws/FramePips.lean ====
section
/-! SUPPORT. The frame of every operation of Machine/Pips.lean: the parts that it may change. -/

set_option linter.unusedTactic false
set_option linter.unreachableTactic false
set_option linter.unusedVariables false

namespace Sys2Proof.Machine

open Sys2Proof

theorem only_tracePip {P : Nat} {z : State} {s : State} {n op m : Nat} {c : Code} (h_s : OnlyM P z s) (hP : Nat.land 0x100000000000000 P = 0x100000000000000) : OnlyM P z (State.tracePip s n op m c) := by
  unfold State.tracePip
  with_reducible
  repeat' first
    | assumption | exact OnlyM.refl _ _ | split | (refine only_traceHub ?_ (within_trans (by decide) hP))
    | apply onlyM_foldl | apply onlyO_next | intro _ | (dsimp only)

theorem only_wakeWaiters {P : Nat} {z : State} {s : State} {n : Nat} (h_s : OnlyM P z s) (hP : Nat.land 0x100000501000000 P = 0x100000501000000) : OnlyM P z (State.wakeWaiters s n) := by
  unfold State.wakeWaiters
  with_reducible
  repeat' first
    | assumption | exact OnlyM.refl _ _ | split | (refine only_tracePip ?_ (within_trans (by decide) hP))
    | (refine only_postReserved ?_ (within_trans (by decide) hP)) | apply onlyM_foldl | apply onlyO_next
    | (refine onlyM_upd ?_ (fun p hp => by have hl := lacks (within_trans (by decide : Nat.land 0x400000000 0x100000501000000 = 0x400000000) hP) hp; revert hl; clear hp; cases p <;> first | exact fun h => absurd h (by decide) | with_unfolding_all exact fun _ => rfl))
    | intro _ | (dsimp only)

theorem only_putPip {P : Nat} {z : State} {s : State} {n : Nat} {p : Pip} (h_s : OnlyM P z s) (hP : Nat.land 0x100000501000000 P = 0x100000501000000) : OnlyM P z (State.putPip s n p) := by
  unfold State.putPip
  with_reducible
  repeat' first
    | assumption | exact OnlyM.refl _ _ | split | (refine only_wakeWaiters ?_ (within_trans (by decide) hP))
    | apply onlyM_foldl | apply onlyO_next
    | (refine onlyM_upd ?_ (fun p hp => by have hl := lacks (within_trans (by decide : Nat.land 0x400000000 0x100000501000000 = 0x400000000) hP) hp; revert hl; clear hp; cases p <;> first | exact fun h => absurd h (by decide) | with_unfolding_all exact fun _ => rfl))
    | intro _ | (dsimp only)

theorem only_internalAdd {P : Nat} {z : State} {s : State} {by_ n : Nat} {inc : Word} (h_s : OnlyM P z s) (hP : Nat.land 0x100800501000000 P = 0x100800501000000) : OnlyM P z (State.internalAdd s by_ n inc) := by
  unfold State.internalAdd
  with_reducible
  repeat' first
    | assumption | exact OnlyM.refl _ _ | split | (refine only_tracePip ?_ (within_trans (by decide) hP))
    | (refine only_putPip ?_ (within_trans (by decide) hP)) | (refine only_pushLoss ?_ (within_trans (by decide) hP))
    | apply onlyM_foldl | apply onlyO_next
    | (refine onlyM_upd ?_ (fun p hp => by have hl := lacks (within_trans (by decide : Nat.land 0x400000000 0x100800501000000 = 0x400000000) hP) hp; revert hl; clear hp; cases p <;> first | exact fun h => absurd h (by decide) | with_unfolding_all exact fun _ => rfl))
    | intro _ | (dsimp only)

theorem only_pipRes {P : Nat} {z : State} {s : State} {m : Nat} {c : Code} {op : Nat} (h_s : OnlyM P z s) (hP : Nat.land 0x100000000420400 P = 0x100000000420400) : OnlyM P z (State.pipRes s m c op) := by
  unfold State.pipRes
  with_reducible
  repeat' first
    | assumption | exact OnlyM.refl _ _ | split | (refine only_tracePip ?_ (within_trans (by decide) hP))
    | (refine only_modMaster ?_ (within_trans (by decide) hP))
    | (refine only_respond ?_ (within_trans (by decide) hP)) | apply onlyM_foldl | apply onlyO_next | intro _
    | (dsimp only)

theorem only_pipOp {P : Nat} {z : State} {m off op : Nat} {need : Right} {f : State → Nat → State × Code} {s : State} (h_f : ∀ t0 t1, OnlyM P t0 (f t0 t1).1) (h_s : OnlyM P z s) (hP : Nat.land 0x100000000420400 P = 0x100000000420400) : OnlyO P z (pipOp m off op need f s) := by
  unfold pipOp
  with_reducible
  repeat' first
    | assumption | (refine OnlyM.trans ?_ (h_f ..)) | exact OnlyM.refl _ _ | split
    | (refine only_refuse ?_ (within_trans (by decide) hP)) | (refine only_pipRes ?_ (within_trans (by decide) hP))
    | apply onlyM_foldl | apply onlyO_next | intro _ | (dsimp only)

theorem only_execPipAdd {P : Nat} {z : State} {m : Nat} {v : Word} {s : State} (h_s : OnlyM P z s) (hP : Nat.land 0x100000501420400 P = 0x100000501420400) : OnlyO P z (execPipAdd m v s) := by
  unfold execPipAdd
  with_reducible
  repeat' first
    | assumption | exact OnlyM.refl _ _ | split | (refine only_pipOp ?_ ?_ (within_trans (by decide) hP))
    | (refine only_putPip ?_ (within_trans (by decide) hP)) | apply onlyM_foldl | apply onlyO_next | intro _
    | (dsimp only)

theorem only_execPipSet {P : Nat} {z : State} {m : Nat} {v : Word} {s : State} (h_s : OnlyM P z s) (hP : Nat.land 0x100000501420400 P = 0x100000501420400) : OnlyO P z (execPipSet m v s) := by
  unfold execPipSet
  with_reducible
  repeat' first
    | assumption | exact OnlyM.refl _ _ | split | (refine only_pipOp ?_ ?_ (within_trans (by decide) hP))
    | (refine only_putPip ?_ (within_trans (by decide) hP)) | apply onlyM_foldl | apply onlyO_next | intro _
    | (dsimp only)

theorem only_execPipTrysub {P : Nat} {z : State} {m : Nat} {v : Word} {s : State} (h_s : OnlyM P z s) (hP : Nat.land 0x100000501420400 P = 0x100000501420400) : OnlyO P z (execPipTrysub m v s) := by
  unfold execPipTrysub
  with_reducible
  repeat' first
    | assumption | exact OnlyM.refl _ _ | split | (refine only_pipOp ?_ ?_ (within_trans (by decide) hP))
    | (refine only_putPip ?_ (within_trans (by decide) hP)) | apply onlyM_foldl | apply onlyO_next | intro _
    | (dsimp only)

theorem only_register {P : Nat} {z : State} {s : State} {m n cond : Nat} {value : Word} (h_s : OnlyM P z s) (hP : Nat.land 0x500000000 P = 0x500000000) : OnlyM P z (State.register s m n cond value) := by
  unfold State.register
  with_reducible
  repeat' first
    | assumption | exact OnlyM.refl _ _ | split | (refine only_modRack ?_ (within_trans (by decide) hP))
    | apply onlyM_foldl | apply onlyO_next
    | (refine onlyM_upd ?_ (fun p hp => by have hl := lacks (within_trans (by decide : Nat.land 0x400000000 0x500000000 = 0x400000000) hP) hp; revert hl; clear hp; cases p <;> first | exact fun h => absurd h (by decide) | with_unfolding_all exact fun _ => rfl))
    | intro _ | (dsimp only)

theorem only_execPipArrive {P : Nat} {z : State} {m : Nat} {v : Word} {s : State} (h_s : OnlyM P z s) (hP : Nat.land 0x100000501420400 P = 0x100000501420400) : OnlyO P z (execPipArrive m v s) := by
  unfold execPipArrive
  with_reducible
  repeat' first
    | assumption | exact OnlyM.refl _ _ | split | (refine only_pipOp ?_ ?_ (within_trans (by decide) hP))
    | (refine only_register ?_ (within_trans (by decide) hP)) | (refine only_putPip ?_ (within_trans (by decide) hP))
    | apply onlyM_foldl | apply onlyO_next | intro _ | (dsimp only)

theorem only_execPipWait {P : Nat} {z : State} {m : Nat} {v : Word} {s : State} (h_s : OnlyM P z s) (hP : Nat.land 0x100000501420400 P = 0x100000501420400) : OnlyO P z (execPipWait m v s) := by
  unfold execPipWait
  with_reducible
  repeat' first
    | assumption | exact OnlyM.refl _ _ | split | (refine only_pipOp ?_ ?_ (within_trans (by decide) hP))
    | (refine only_register ?_ (within_trans (by decide) hP))
    | (refine only_wakeWaiters ?_ (within_trans (by decide) hP)) | apply onlyM_foldl | apply onlyO_next | intro _
    | (dsimp only)

theorem only_waiters {P : Nat} {z s : State} {l : List Waiter} (h_s : OnlyM P z s)
    (hP : Nat.land (2 ^ Part.pips.idx) P = 2 ^ Part.pips.idx) : OnlyM P z { s with pips.waiters := l } := by
  refine onlyM_upd h_s (fun p hp => ?_)
  have hl := lacks hP hp
  revert hl
  clear hp
  cases p <;> first | exact fun h => absurd h (by decide) | exact fun _ => rfl

theorem only_execPipCancel {P : Nat} {z s : State} {m : Nat} {v : Word} (h_s : OnlyM P z s) (hP : Nat.land 0x100000500420400 P = 0x100000500420400) :
    OnlyO P z (execPipCancel m v s) := by
  unfold execPipCancel
  refine only_pipOp ?_ h_s (within_trans (by decide) hP)
  intro t n
  dsimp only
  split
  · exact .refl _ _
  · exact only_modRack (only_waiters (.refl _ _) (within_trans (by decide) hP)) (within_trans (by decide) hP)

theorem only_pipConfig {P : Nat} {z : State} {f : Pip → Pip} {s : State} {n : Nat} (h_s : OnlyM P z s) (hP : Nat.land 0x100000501000000 P = 0x100000501000000) : OnlyM P z (pipConfig f s n).1 := by
  unfold pipConfig
  with_reducible
  repeat' first
    | assumption | exact OnlyM.refl _ _ | split | (refine only_putPip ?_ (within_trans (by decide) hP))
    | apply onlyM_foldl | apply onlyO_next | intro _ | (dsimp only)

theorem only_execPipTarget {P : Nat} {z : State} {m : Nat} {v : Word} {s : State} (h_s : OnlyM P z s) (hP : Nat.land 0x100000501420400 P = 0x100000501420400) : OnlyO P z (execPipTarget m v s) := by
  unfold execPipTarget
  with_reducible
  repeat' first
    | assumption | exact OnlyM.refl _ _ | split | (refine only_pipOp ?_ ?_ (within_trans (by decide) hP))
    | (refine only_pipConfig ?_ (within_trans (by decide) hP)) | apply onlyM_foldl | apply onlyO_next | intro _
    | (dsimp only)

theorem only_execPipMode {P : Nat} {z : State} {m : Nat} {v : Word} {s : State} (h_s : OnlyM P z s) (hP : Nat.land 0x100000501420400 P = 0x100000501420400) : OnlyO P z (execPipMode m v s) := by
  unfold execPipMode
  with_reducible
  repeat' first
    | assumption | exact OnlyM.refl _ _ | split | (refine only_pipOp ?_ ?_ (within_trans (by decide) hP))
    | (refine only_pipConfig ?_ (within_trans (by decide) hP)) | apply onlyM_foldl | apply onlyO_next | intro _
    | (dsimp only)

theorem only_execPipOvfClear {P : Nat} {z : State} {m : Nat} {v : Word} {s : State} (h_s : OnlyM P z s) (hP : Nat.land 0x100000501420400 P = 0x100000501420400) : OnlyO P z (execPipOvfClear m v s) := by
  unfold execPipOvfClear
  with_reducible
  repeat' first
    | assumption | exact OnlyM.refl _ _ | split | (refine only_pipOp ?_ ?_ (within_trans (by decide) hP))
    | (refine only_pipConfig ?_ (within_trans (by decide) hP)) | apply onlyM_foldl | apply onlyO_next | intro _
    | (dsimp only)

end Sys2Proof.Machine
end

