-- ==== Sys2Proof/Laws/FrameRecords.lean ====
section
/-! SUPPORT. The frame of every operation of Machine/Records.lean: the parts that it may change. -/

set_option linter.unusedTactic false
set_option linter.unreachableTactic false
set_option linter.unusedVariables false

namespace Sys2Proof.Machine

open Sys2Proof

theorem only_writeRec {P : Nat} {z : State} {s : State} {t : Nat} {b : Block} {a : Nat} {r : BitVec 128} (h_s : OnlyM P z s) (hP : Nat.land 0xc P = 0xc) : OnlyM P z (State.writeRec s t b a r) := by
  unfold State.writeRec
  with_reducible
  repeat' first
    | assumption | exact OnlyM.refl _ _ | split | (refine only_colWrite ?_ (within_trans (by decide) hP))
    | (refine only_modTile ?_ (within_trans (by decide) hP)) | apply onlyM_foldl | apply onlyO_next | intro _
    | (dsimp only)

theorem only_startRecords {P : Nat} {z : State} {s : State} {t w anchor : Nat} (h_s : OnlyM P z s) (hP : Nat.land 0xc P = 0xc) : OnlyM P z (State.startRecords s t w anchor) := by
  unfold State.startRecords
  with_reducible
  repeat' first
    | assumption | exact OnlyM.refl _ _ | split | (refine only_writeRec ?_ (within_trans (by decide) hP))
    | apply onlyM_foldl | apply onlyO_next | intro _ | (dsimp only)

theorem only_sweepRecords {P : Nat} {z : State} {s : State} {t w notice : Nat} (h_s : OnlyM P z s) (hP : Nat.land 0x80000000000c P = 0x80000000000c) : OnlyM P z (State.sweepRecords s t w notice) := by
  unfold State.sweepRecords
  with_reducible
  repeat' first
    | assumption | exact OnlyM.refl _ _ | split | (refine only_writeRec ?_ (within_trans (by decide) hP))
    | (refine only_pushLoss ?_ (within_trans (by decide) hP)) | apply onlyM_foldl | apply onlyO_next | intro _
    | (dsimp only)

end Sys2Proof.Machine
end

