-- ==== Sys2Proof/Laws/FrameWorlds.lean ====
section
/-! SUPPORT. The frame of every operation of Machine/Worlds.lean: the parts that it may change. -/

set_option linter.unusedTactic false
set_option linter.unreachableTactic false
set_option linter.unusedVariables false

namespace Sys2Proof.Machine

open Sys2Proof

theorem only_ageNotice {P : Nat} {z : State} {s : State} {w notice : Nat} (h_s : OnlyM P z s) (hP : Nat.land 0x9b0808020408 P = 0x9b0808020408) : OnlyM P z (State.ageNotice s w notice) := by
  unfold State.ageNotice
  with_reducible
  repeat' first
    | assumption | exact OnlyM.refl _ _ | split | (refine only_toRoot ?_ (within_trans (by decide) hP))
    | (refine only_modWorld ?_ (within_trans (by decide) hP)) | apply onlyM_foldl | apply onlyO_next | intro _
    | (dsimp only)

theorem only_grantRoot {P : Nat} {z : State} {s : State} {w st : Nat} (h_s : OnlyM P z s) (hP : Nat.land 0x9b0008020408 P = 0x9b0008020408) : OnlyM P z (State.grantRoot s w st) := by
  unfold State.grantRoot
  with_reducible
  repeat' first
    | assumption | exact OnlyM.refl _ _ | split | (refine only_toRoot ?_ (within_trans (by decide) hP))
    | apply onlyM_foldl | apply onlyO_next
    | (refine onlyM_upd ?_ (fun p hp => by have hl := lacks (within_trans (by decide : Nat.land 0x10000000000 0x9b0008020408 = 0x10000000000) hP) hp; revert hl; clear hp; cases p <;> first | exact fun h => absurd h (by decide) | with_unfolding_all exact fun _ => rfl))
    | intro _ | (dsimp only)

theorem only_hubEmitAt {P : Nat} {z : State} {s : State} {g n a b k : Nat} (h_s : OnlyM P z s) (hP : Nat.land 0x9f0038020428 P = 0x9f0038020428) : OnlyM P z (State.hubEmitAt s g n a b k) := by
  unfold State.hubEmitAt
  with_reducible
  repeat' first
    | assumption | exact OnlyM.refl _ _ | split | (refine only_modPort ?_ (within_trans (by decide) hP))
    | (refine only_send ?_ (within_trans (by decide) hP)) | apply onlyM_foldl | apply onlyO_next
    | (refine onlyM_upd ?_ (fun p hp => by have hl := lacks (within_trans (by decide : Nat.land 0x10000000 0x9f0038020428 = 0x10000000) hP) hp; revert hl; clear hp; cases p <;> first | exact fun h => absurd h (by decide) | with_unfolding_all exact fun _ => rfl))
    | intro _ | (dsimp only)

theorem only_hubEmit {P : Nat} {z : State} {s : State} {g : Nat} {ind : Nat} (h_s : OnlyM P z s) (hP : Nat.land 0x9f0838020428 P = 0x9f0838020428) : OnlyM P z (State.hubEmit s g ind) := by
  induction ind generalizing s g with
  | zero => unfold State.hubEmit; exact h_s
  | succ ind ih =>
    unfold State.hubEmit
    with_reducible
    repeat' first
      | assumption | apply ih | exact OnlyM.refl _ _ | split | (refine only_hubEmitAt ?_ (within_trans (by decide) hP))
      | (refine only_modWorld ?_ (within_trans (by decide) hP)) | apply onlyM_foldl | apply onlyO_next | intro _
      | (dsimp only)

theorem only_afterT {P : Nat} {z : State} {s : State} {w old : Nat} (h_s : OnlyM P z s) (hP : Nat.land 0x9f0838020428 P = 0x9f0838020428) : OnlyM P z (State.afterT s w old) := by
  unfold State.afterT
  with_reducible
  repeat' first
    | assumption | exact OnlyM.refl _ _ | split | (refine only_grantRoot ?_ (within_trans (by decide) hP))
    | (refine only_ageNotice ?_ (within_trans (by decide) hP))
    | (refine only_hubNotices ?_ (within_trans (by decide) hP))
    | (refine only_hubEmit ?_ (within_trans (by decide) hP)) | apply onlyM_foldl | apply onlyO_next | intro _
    | (dsimp only)

theorem only_moveT {P : Nat} {z : State} {s : State} {w : Nat} (h_s : OnlyM P z s) (hP : Nat.land 0x9f0838020428 P = 0x9f0838020428) : OnlyM P z (State.moveT s w) := by
  unfold State.moveT
  with_reducible
  repeat' first
    | assumption | exact OnlyM.refl _ _ | split | (refine only_modWorld ?_ (within_trans (by decide) hP))
    | (refine only_afterT ?_ (within_trans (by decide) hP)) | apply onlyM_foldl | apply onlyO_next | intro _
    | (dsimp only)

theorem only_worldRecord {P : Nat} {z : State} {s : State} {w kind : Nat} {body : List DWord} (h_s : OnlyM P z s) (hP : Nat.land 0x100800101000000 P = 0x100800101000000) : OnlyM P z (State.worldRecord s w kind body) := by
  unfold State.worldRecord
  with_reducible
  repeat' first
    | assumption | exact OnlyM.refl _ _ | split | (refine only_postRecord ?_ (within_trans (by decide) hP))
    | apply onlyM_foldl | apply onlyO_next | intro _ | (dsimp only)

theorem only_stillUpdates {P : Nat} {z : State} {s : State} {ts : List Nat} (h_s : OnlyM P z s) (hP : Nat.land 0x10c800101020500 P = 0x10c800101020500) : OnlyM P z (State.stillUpdates s ts) := by
  unfold State.stillUpdates
  with_reducible
  repeat' first
    | assumption | exact OnlyM.refl _ _ | split | (refine only_updateStart ?_ (within_trans (by decide) hP))
    | apply onlyM_foldl | apply onlyO_next | intro _ | (dsimp only)

theorem only_runningChanged {P : Nat} {z : State} {s : State} {w : Nat} (h_s : OnlyM P z s) (hP : Nat.land 0x10c9f0939020528 P = 0x10c9f0939020528) : OnlyM P z (State.runningChanged s w) := by
  unfold State.runningChanged
  with_reducible
  repeat' first
    | assumption | exact OnlyM.refl _ _ | split | (refine only_noticeGroup ?_ (within_trans (by decide) hP))
    | (refine only_hubNotices ?_ (within_trans (by decide) hP))
    | (refine only_hubEmit ?_ (within_trans (by decide) hP))
    | (refine only_stillUpdates ?_ (within_trans (by decide) hP)) | apply onlyM_foldl | apply onlyO_next | intro _
    | (dsimp only)

theorem only_parkCore {P : Nat} {z : State} {s : State} {w cause : Nat} (h_s : OnlyM P z s) (hP : Nat.land 0x10c9f0939020528 P = 0x10c9f0939020528) : OnlyM P z (State.parkCore s w cause) := by
  unfold State.parkCore
  with_reducible
  repeat' first
    | assumption | exact OnlyM.refl _ _ | split | (refine only_modWorld ?_ (within_trans (by decide) hP))
    | (refine only_outsWorldSafe ?_ (within_trans (by decide) hP))
    | (refine only_worldRecord ?_ (within_trans (by decide) hP))
    | (refine only_runningChanged ?_ (within_trans (by decide) hP)) | apply onlyM_foldl | apply onlyO_next | intro _
    | (dsimp only)

theorem only_parkFollowers {P : Nat} {z : State} {s : State} {w : Nat} (h_s : OnlyM P z s) (hP : Nat.land 0x10c9f0939020528 P = 0x10c9f0939020528) : OnlyM P z (State.parkFollowers s w) := by
  unfold State.parkFollowers
  with_reducible
  repeat' first
    | assumption | exact OnlyM.refl _ _ | split | (refine only_parkCore ?_ (within_trans (by decide) hP))
    | apply onlyM_foldl | apply onlyO_next | intro _ | (dsimp only)

theorem only_parkWorld {P : Nat} {z : State} {s : State} {w cause : Nat} (h_s : OnlyM P z s) (hP : Nat.land 0x10c9f0939020528 P = 0x10c9f0939020528) : OnlyM P z (State.parkWorld s w cause) := by
  unfold State.parkWorld
  with_reducible
  repeat' first
    | assumption | exact OnlyM.refl _ _ | split | (refine only_parkCore ?_ (within_trans (by decide) hP))
    | (refine only_parkFollowers ?_ (within_trans (by decide) hP)) | apply onlyM_foldl | apply onlyO_next | intro _
    | (dsimp only)

theorem only_judgeLag {P : Nat} {z : State} {s : State} {w : Nat} (h_s : OnlyM P z s) (hP : Nat.land 0x10c9f0939020528 P = 0x10c9f0939020528) : OnlyM P z (State.judgeLag s w) := by
  unfold State.judgeLag
  with_reducible
  repeat' first
    | assumption | exact OnlyM.refl _ _ | split | (refine only_modWorld ?_ (within_trans (by decide) hP))
    | (refine only_worldRecord ?_ (within_trans (by decide) hP))
    | (refine only_parkCore ?_ (within_trans (by decide) hP)) | apply onlyM_foldl | apply onlyO_next | intro _
    | (dsimp only)

theorem only_applyAdvance {P : Nat} {z : State} {s : State} {w adv : Nat} (h_s : OnlyM P z s) (hP : Nat.land 0x10c9f0939020528 P = 0x10c9f0939020528) : OnlyM P z (State.applyAdvance s w adv) := by
  unfold State.applyAdvance
  with_reducible
  repeat' first
    | assumption | exact OnlyM.refl _ _ | split | (refine only_parkCore ?_ (within_trans (by decide) hP))
    | (refine only_modWorld ?_ (within_trans (by decide) hP)) | (refine only_moveT ?_ (within_trans (by decide) hP))
    | (refine only_judgeLag ?_ (within_trans (by decide) hP)) | apply onlyM_foldl | apply onlyO_next | intro _
    | (dsimp only)

theorem only_inputCore {P : Nat} {z : State} {s : State} {w u : Nat} (h_s : OnlyM P z s) (hP : Nat.land 0x10c9f0939020528 P = 0x10c9f0939020528) : OnlyM P z (State.inputCore s w u) := by
  unfold State.inputCore
  with_reducible
  repeat' first
    | assumption | exact OnlyM.refl _ _ | split | (refine only_wakeDom ?_ (within_trans (by decide) hP))
    | (refine only_modWorld ?_ (within_trans (by decide) hP))
    | (refine only_applyAdvance ?_ (within_trans (by decide) hP)) | apply onlyM_foldl | apply onlyO_next | intro _
    | (dsimp only)

theorem only_toPeer {P : Nat} {z : State} {s : State} {lk : Nat} {c : Ctl} (h_s : OnlyM P z s) (hP : Nat.land 0x900000020400 P = 0x900000020400) : OnlyM P z (State.toPeer s lk c) := by
  unfold State.toPeer
  with_reducible
  repeat' first
    | assumption | exact OnlyM.refl _ _ | split | (refine only_spanSend ?_ (within_trans (by decide) hP))
    | apply onlyM_foldl | apply onlyO_next | intro _ | (dsimp only)

theorem only_follow {P : Nat} {z : State} {s : State} {w inc : Nat} (h_s : OnlyM P z s) (hP : Nat.land 0x10c9f0939020528 P = 0x10c9f0939020528) : OnlyM P z (State.follow s w inc) := by
  unfold State.follow
  with_reducible
  repeat' first
    | assumption | exact OnlyM.refl _ _ | split | (refine only_toPeer ?_ (within_trans (by decide) hP))
    | (refine only_inputCore ?_ (within_trans (by decide) hP)) | apply onlyM_foldl | apply onlyO_next | intro _
    | (dsimp only)

theorem only_afterPark {P : Nat} {z : State} {s0 s : State} {w : Nat} (h_s0 : OnlyM P z s0) (h_s : OnlyM P z s) (hP : Nat.land 0x10c9f0939020528 P = 0x10c9f0939020528) : OnlyM P z (State.afterPark s0 s w) := by
  unfold State.afterPark
  with_reducible
  repeat' first
    | assumption | exact OnlyM.refl _ _ | split | (refine only_parkFollowers ?_ (within_trans (by decide) hP))
    | apply onlyM_foldl | apply onlyO_next | intro _ | (dsimp only)

theorem only_input {P : Nat} {z : State} {s : State} {w u : Nat} (h_s : OnlyM P z s) (hP : Nat.land 0x10c9f0939020528 P = 0x10c9f0939020528) : OnlyM P z (State.input s w u) := by
  unfold State.input
  with_reducible
  repeat' first
    | assumption | exact OnlyM.refl _ _ | split | (refine only_inputCore ?_ (within_trans (by decide) hP))
    | (refine only_afterPark ?_ ?_ (within_trans (by decide) hP))
    | (refine only_follow ?_ (within_trans (by decide) hP)) | apply onlyM_foldl | apply onlyO_next | intro _
    | (dsimp only)

theorem only_hostAdvance {P : Nat} {z : State} {s : State} {m w delta : Nat} (h_s : OnlyM P z s) (hP : Nat.land 0x10c9f0939020528 P = 0x10c9f0939020528) : OnlyM P z (State.hostAdvance s m w delta).1 := by
  unfold State.hostAdvance
  with_reducible
  repeat' first
    | assumption | exact OnlyM.refl _ _ | split | (refine only_modWorld ?_ (within_trans (by decide) hP))
    | (refine only_wakeDom ?_ (within_trans (by decide) hP))
    | (refine only_parkWorld ?_ (within_trans (by decide) hP)) | (refine only_moveT ?_ (within_trans (by decide) hP))
    | (refine only_follow ?_ (within_trans (by decide) hP)) | apply onlyM_foldl | apply onlyO_next | intro _
    | (dsimp only)

theorem only_closeTurn {P : Nat} {z : State} {s : State} {w : Nat} (h_s : OnlyM P z s) (hP : Nat.land 0x1800000000 P = 0x1800000000) : OnlyM P z (State.closeTurn s w) := by
  unfold State.closeTurn
  with_reducible
  repeat' first
    | assumption | exact OnlyM.refl _ _ | split | (refine only_modWorld ?_ (within_trans (by decide) hP))
    | apply onlyM_foldl | apply onlyO_next
    | (refine onlyM_upd ?_ (fun p hp => by have hl := lacks (within_trans (by decide : Nat.land 0x1000000000 0x1800000000 = 0x1000000000) hP) hp; revert hl; clear hp; cases p <;> first | exact fun h => absurd h (by decide) | with_unfolding_all exact fun _ => rfl))
    | intro _ | (dsimp only)

theorem only_openTurn {P : Nat} {z : State} {s : State} {w : Nat} (h_s : OnlyM P z s) (hP : Nat.land 0x9f1828020408 P = 0x9f1828020408) : OnlyM P z (State.openTurn s w) := by
  unfold State.openTurn
  with_reducible
  repeat' first
    | assumption | exact OnlyM.refl _ _ | split | (refine only_modWorld ?_ (within_trans (by decide) hP))
    | (refine only_reports ?_ (within_trans (by decide) hP)) | apply onlyM_foldl | apply onlyO_next
    | (refine onlyM_upd ?_ (fun p hp => by have hl := lacks (within_trans (by decide : Nat.land 0x1000000000 0x9f1828020408 = 0x1000000000) hP) hp; revert hl; clear hp; cases p <;> first | exact fun h => absurd h (by decide) | with_unfolding_all exact fun _ => rfl))
    | intro _ | (dsimp only)

theorem only_boundaryUpdates {P : Nat} {z : State} {s : State} {w : Nat} (h_s : OnlyM P z s) (hP : Nat.land 0x10c800101020500 P = 0x10c800101020500) : OnlyM P z (State.boundaryUpdates s w) := by
  unfold State.boundaryUpdates
  with_reducible
  repeat' first
    | assumption | exact OnlyM.refl _ _ | split | (refine only_updateStart ?_ (within_trans (by decide) hP))
    | apply onlyM_foldl | apply onlyO_next | intro _ | (dsimp only)

theorem only_subscribePeer {P : Nat} {z : State} {s : State} {w : Nat} (h_s : OnlyM P z s) (hP : Nat.land 0x900000020400 P = 0x900000020400) : OnlyM P z (State.subscribePeer s w) := by
  unfold State.subscribePeer
  with_reducible
  repeat' first
    | assumption | exact OnlyM.refl _ _ | split | (refine only_toPeer ?_ (within_trans (by decide) hP))
    | apply onlyM_foldl | apply onlyO_next | intro _ | (dsimp only)

theorem only_startTiles {P : Nat} {z : State} {s : State} {w : Nat} (h_s : OnlyM P z s) (hP : Nat.land 0x80000000c P = 0x80000000c) : OnlyM P z (State.startTiles s w) := by
  unfold State.startTiles
  with_reducible
  repeat' first
    | assumption | exact OnlyM.refl _ _ | split | (refine only_startRecords ?_ (within_trans (by decide) hP))
    | (refine only_modTile ?_ (within_trans (by decide) hP)) | (refine only_modWorld ?_ (within_trans (by decide) hP))
    | apply onlyM_foldl | apply onlyO_next | intro _ | (dsimp only)

theorem only_startWorld {P : Nat} {z : State} {s : State} {w anchor : Nat} (h_s : OnlyM P z s) (hP : Nat.land 0x10c9f193902052c P = 0x10c9f193902052c) : OnlyM P z (State.startWorld s w anchor) := by
  unfold State.startWorld
  with_reducible
  repeat' first
    | assumption | exact OnlyM.refl _ _ | split | (refine only_modWorld ?_ (within_trans (by decide) hP))
    | (refine only_hubEmit ?_ (within_trans (by decide) hP))
    | (refine only_startTiles ?_ (within_trans (by decide) hP))
    | (refine only_subscribePeer ?_ (within_trans (by decide) hP))
    | (refine only_runningChanged ?_ (within_trans (by decide) hP)) | apply onlyM_foldl | apply onlyO_next
    | (refine onlyM_upd ?_ (fun p hp => by have hl := lacks (within_trans (by decide : Nat.land 0x1000000000 0x10c9f193902052c = 0x1000000000) hP) hp; revert hl; clear hp; cases p <;> first | exact fun h => absurd h (by decide) | with_unfolding_all exact fun _ => rfl))
    | intro _ | (dsimp only)

theorem only_unparkWorld {P : Nat} {z : State} {s : State} {w1 w2 : DWord} (h_s : OnlyM P z s) (hP : Nat.land 0x10c9f0939020528 P = 0x10c9f0939020528) : OnlyM P z (State.unparkWorld s w1 w2) := by
  unfold State.unparkWorld
  with_reducible
  repeat' first
    | assumption | exact OnlyM.refl _ _ | split | (refine only_modWorld ?_ (within_trans (by decide) hP))
    | (refine only_subscribePeer ?_ (within_trans (by decide) hP))
    | (refine only_armWorld ?_ (within_trans (by decide) hP))
    | (refine only_runningChanged ?_ (within_trans (by decide) hP))
    | (refine only_afterT ?_ (within_trans (by decide) hP)) | (refine only_moveT ?_ (within_trans (by decide) hP))
    | (refine only_judgeLag ?_ (within_trans (by decide) hP)) | apply onlyM_foldl | apply onlyO_next | intro _
    | (dsimp only)

end Sys2Proof.Machine
end

