-- ==== Sys2Proof/Laws/FrameLearn.lean ====
section
/-! SUPPORT. The frame of every operation of Machine/Learn.lean: the parts that it may change. -/

set_option linter.unusedTactic false
set_option linter.unreachableTactic false
set_option linter.unusedVariables false

namespace Sys2Proof.Machine

open Sys2Proof

theorem only_putQuar {P : Nat} {z : State} {s : State} {t u : Nat} (h_s : OnlyM P z s) (hP : Nat.land 0x4 P = 0x4) : OnlyM P z (State.putQuar s t u) := by
  unfold State.putQuar
  with_reducible
  repeat' first
    | assumption | exact OnlyM.refl _ _ | split | (refine only_colWrite ?_ (within_trans (by decide) hP))
    | apply onlyM_foldl | apply onlyO_next | intro _ | (dsimp only)

theorem only_autoFence {P : Nat} {z : State} {s : State} {t u : Nat} (h_s : OnlyM P z s) (hP : Nat.land 0x10c800101020500 P = 0x10c800101020500) : OnlyM P z (State.autoFence s t u) := by
  unfold State.autoFence
  with_reducible
  repeat' first
    | assumption | exact OnlyM.refl _ _ | split | (refine only_stageUpdate ?_ (within_trans (by decide) hP))
    | (refine only_updateStart ?_ (within_trans (by decide) hP)) | apply onlyM_foldl | apply onlyO_next | intro _
    | (dsimp only)

theorem only_quarantine {P : Nat} {z : State} {s : State} {t u0 : Nat} (h_s : OnlyM P z s) (hP : Nat.land 0x10c80010102050c P = 0x10c80010102050c) : OnlyM P z (State.quarantine s t u0) := by
  unfold State.quarantine
  with_reducible
  repeat' first
    | assumption | exact OnlyM.refl _ _ | split | (refine only_modTile ?_ (within_trans (by decide) hP))
    | (refine only_putQuar ?_ (within_trans (by decide) hP))
    | (refine only_autoFence ?_ (within_trans (by decide) hP))
    | (refine only_postFault ?_ (within_trans (by decide) hP)) | apply onlyM_foldl | apply onlyO_next | intro _
    | (dsimp only)

theorem only_unitLost {P : Nat} {z : State} {s : State} {t u kind : Nat} {ws : List (Nat × Nat)} (h_s : OnlyM P z s) (hP : Nat.land 0x10c80010102050c P = 0x10c80010102050c) : OnlyM P z (State.unitLost s t u kind ws) := by
  unfold State.unitLost
  with_reducible
  repeat' first
    | assumption | exact OnlyM.refl _ _ | split | (refine only_modTile ?_ (within_trans (by decide) hP))
    | (refine only_quarantine ?_ (within_trans (by decide) hP))
    | (refine only_pushLoss ?_ (within_trans (by decide) hP)) | apply onlyM_foldl | apply onlyO_next | intro _
    | (dsimp only)

theorem only_unitRead {P : Nat} {z : State} {s : State} {t u : Nat} (h_s : OnlyM P z s) (hP : Nat.land 0x8 P = 0x8) : OnlyM P z (State.unitRead s t u) := by
  unfold State.unitRead
  with_reducible
  repeat' first
    | assumption | exact OnlyM.refl _ _ | split | (refine only_modTile ?_ (within_trans (by decide) hP))
    | apply onlyM_foldl | apply onlyO_next | intro _ | (dsimp only)

theorem only_setSynapse {P : Nat} {z : State} {s : State} {t u j v : Nat} (h_s : OnlyM P z s) (hP : Nat.land 0x4 P = 0x4) : OnlyM P z (State.setSynapse s t u j v) := by
  unfold State.setSynapse
  with_reducible
  repeat' first
    | assumption | exact OnlyM.refl _ _ | split | (refine only_colWrite ?_ (within_trans (by decide) hP))
    | apply onlyM_foldl | apply onlyO_next | intro _ | (dsimp only)

theorem only_setPlaneWord {P : Nat} {z : State} {s : State} {t u j v : Nat} {ind : Nat} (h_s : OnlyM P z s) (hP : Nat.land 0x4 P = 0x4) : OnlyM P z (State.setPlaneWord s t u j v ind) := by
  induction ind generalizing s t u j v with
  | zero => unfold State.setPlaneWord; exact h_s
  | succ ind ih =>
    unfold State.setPlaneWord
    with_reducible
    repeat' first
      | assumption | apply ih | exact OnlyM.refl _ _ | split | (refine only_colWrite ?_ (within_trans (by decide) hP))
      | apply onlyM_foldl | apply onlyO_next | intro _ | (dsimp only)

theorem only_depWord {P : Nat} {z : State} {s : State} {t w stamp u n j : Nat} (h_s : OnlyM P z s) (hP : Nat.land 0x4 P = 0x4) : OnlyM P z (State.depWord s t w stamp u n j) := by
  unfold State.depWord
  with_reducible
  repeat' first
    | assumption | exact OnlyM.refl _ _ | split | (refine only_colWrite ?_ (within_trans (by decide) hP))
    | apply onlyM_foldl | apply onlyO_next | intro _ | (dsimp only)

theorem only_depression {P : Nat} {z : State} {s : State} {t w row stamp : Nat} (h_s : OnlyM P z s) (hP : Nat.land 0x10c80010102050c P = 0x10c80010102050c) : OnlyM P z (State.depression s t w row stamp) := by
  unfold State.depression
  with_reducible
  repeat' first
    | assumption | exact OnlyM.refl _ _ | split | (refine only_unitLost ?_ (within_trans (by decide) hP))
    | (refine only_depWord ?_ (within_trans (by decide) hP)) | (refine only_wakeBank ?_ (within_trans (by decide) hP))
    | (refine only_colWrite ?_ (within_trans (by decide) hP)) | (refine only_modTile ?_ (within_trans (by decide) hP))
    | apply onlyM_foldl | apply onlyO_next | intro _ | (dsimp only)

theorem only_potWord {P : Nat} {z : State} {s : State} {t w stamp v j row : Nat} {r : RuleSet} (h_s : OnlyM P z s) (hP : Nat.land 0x4 P = 0x4) : OnlyM P z (State.potWord s t w stamp v j row r) := by
  unfold State.potWord
  with_reducible
  repeat' first
    | assumption | exact OnlyM.refl _ _ | split | (refine only_setPlaneWord ?_ (within_trans (by decide) hP))
    | apply onlyM_foldl | apply onlyO_next | intro _ | (dsimp only)

theorem only_potentiation {P : Nat} {z : State} {s : State} {t w n stamp : Nat} (h_s : OnlyM P z s) (hP : Nat.land 0x10c80010102050c P = 0x10c80010102050c) : OnlyM P z (State.potentiation s t w n stamp) := by
  unfold State.potentiation
  with_reducible
  repeat' first
    | assumption | exact OnlyM.refl _ _ | split | (refine only_unitLost ?_ (within_trans (by decide) hP))
    | (refine only_potWord ?_ (within_trans (by decide) hP)) | (refine only_wakeBank ?_ (within_trans (by decide) hP))
    | (refine only_modTile ?_ (within_trans (by decide) hP)) | apply onlyM_foldl | apply onlyO_next | intro _
    | (dsimp only)

theorem only_sweepTimes {P : Nat} {z : State} {s : State} {t w notice : Nat} (h_s : OnlyM P z s) (hP : Nat.land 0x4 P = 0x4) : OnlyM P z (State.sweepTimes s t w notice) := by
  unfold State.sweepTimes
  with_reducible
  repeat' first
    | assumption | exact OnlyM.refl _ _ | split | (refine only_colWrite ?_ (within_trans (by decide) hP))
    | apply onlyM_foldl | apply onlyO_next | intro _ | (dsimp only)

theorem only_foldWord {P : Nat} {z : State} {s : State} {t row l u j : Nat} (h_s : OnlyM P z s) (hP : Nat.land 0x4 P = 0x4) : OnlyM P z (State.foldWord s t row l u j) := by
  unfold State.foldWord
  with_reducible
  repeat' first
    | assumption | exact OnlyM.refl _ _ | split | (refine only_setPlaneWord ?_ (within_trans (by decide) hP))
    | (refine only_colWrite ?_ (within_trans (by decide) hP)) | apply onlyM_foldl | apply onlyO_next | intro _
    | (dsimp only)

theorem only_rewriteWord {P : Nat} {z : State} {s : State} {t row l u j v : Nat} (h_s : OnlyM P z s) (hP : Nat.land 0x4 P = 0x4) : OnlyM P z (State.rewriteWord s t row l u j v) := by
  unfold State.rewriteWord
  with_reducible
  repeat' first
    | assumption | exact OnlyM.refl _ _ | split | (refine only_setSynapse ?_ (within_trans (by decide) hP))
    | (refine only_setPlaneWord ?_ (within_trans (by decide) hP)) | apply onlyM_foldl | apply onlyO_next | intro _
    | (dsimp only)

theorem only_consolWord {P : Nat} {z : State} {s : State} {t row l u j : Nat} {extra : Nat × Nat} {g : Nat} (h_s : OnlyM P z s) (hP : Nat.land 0xc P = 0xc) : OnlyM P z (State.consolWord s t row l u j extra g) := by
  unfold State.consolWord
  with_reducible
  repeat' first
    | assumption | exact OnlyM.refl _ _ | split | (refine only_rewriteWord ?_ (within_trans (by decide) hP))
    | (refine only_colWrite ?_ (within_trans (by decide) hP)) | (refine only_modTile ?_ (within_trans (by decide) hP))
    | apply onlyM_foldl | apply onlyO_next | intro _ | (dsimp only)

end Sys2Proof.Machine
end

