-- ==== Sys2Proof/Laws/FrameTileOps.lean ====
section
/-! SUPPORT. The frame of every operation of Machine/TileOps.lean: the parts that it may change. -/

set_option linter.unusedTactic false
set_option linter.unreachableTactic false
set_option linter.unusedVariables false

namespace Sys2Proof.Machine

open Sys2Proof

theorem only_nondetAt {P : Nat} {z : State} {s : State} {t w tau : Nat} (h_s : OnlyM P z s) (hP : Nat.land 0x8 P = 0x8) : OnlyM P z (State.nondetAt s t w tau) := by
  unfold State.nondetAt
  with_reducible
  repeat' first
    | assumption | exact OnlyM.refl _ _ | split | (refine only_modTile ?_ (within_trans (by decide) hP))
    | apply onlyM_foldl | apply onlyO_next | intro _ | (dsimp only)

theorem only_tileDrop {P : Nat} {z : State} {s : State} {t w tau : Nat} {wheel lock : Bool} {src : Coord} {row : Nat} {item : LossItem} (h_s : OnlyM P z s) (hP : Nat.land 0x400800800000008 P = 0x400800800000008) : OnlyM P z (State.tileDrop s t w tau wheel lock src row item) := by
  unfold State.tileDrop
  with_reducible
  repeat' first
    | assumption | exact OnlyM.refl _ _ | split | (refine only_pushLoss ?_ (within_trans (by decide) hP))
    | (refine only_nondetAt ?_ (within_trans (by decide) hP)) | (refine only_modTile ?_ (within_trans (by decide) hP))
    | (refine only_modWorld ?_ (within_trans (by decide) hP))
    | (refine only_traceTile ?_ (within_trans (by decide) hP)) | apply onlyM_foldl | apply onlyO_next | intro _
    | (dsimp only)

theorem only_contribute {P : Nat} {z : State} {s : State} {t w row n seg due : Nat} {sum : Int} {lock : Bool} {src : Coord} (h_s : OnlyM P z s) (hP : Nat.land 0x400800800000008 P = 0x400800800000008) : OnlyM P z (State.contribute s t w row n seg due sum lock src) := by
  unfold State.contribute
  with_reducible
  repeat' first
    | assumption | exact OnlyM.refl _ _ | split | (refine only_pushLoss ?_ (within_trans (by decide) hP))
    | (refine only_modTile ?_ (within_trans (by decide) hP)) | (refine only_tileDrop ?_ (within_trans (by decide) hP))
    | apply onlyM_foldl | apply onlyO_next | intro _ | (dsimp only)

theorem only_passWord {P : Nat} {z : State} {s : State} {t row k u j : Nat} {e : DWord} {ev : Ev} (h_s : OnlyM P z s) (hP : Nat.land 0x400800800000008 P = 0x400800800000008) : OnlyM P z (State.passWord s t row k u j e ev) := by
  unfold State.passWord
  with_reducible
  repeat' first
    | assumption | exact OnlyM.refl _ _ | split | (refine only_contribute ?_ (within_trans (by decide) hP))
    | apply onlyM_foldl | apply onlyO_next | intro _ | (dsimp only)

theorem only_passSeg {P : Nat} {z : State} {s : State} {t row k : Nat} {e : DWord} {evs : List Ev} (h_s : OnlyM P z s) (hP : Nat.land 0x50c80090102050c P = 0x50c80090102050c) : OnlyM P z (State.passSeg s t row k e evs) := by
  unfold State.passSeg
  with_reducible
  repeat' first
    | assumption | exact OnlyM.refl _ _ | split | (refine only_unitLost ?_ (within_trans (by decide) hP))
    | (refine only_passWord ?_ (within_trans (by decide) hP))
    | (refine only_unitRead ?_ (within_trans (by decide) hP)) | apply onlyM_foldl | apply onlyO_next | intro _
    | (dsimp only)

theorem only_rowPass {P : Nat} {z : State} {s : State} {t row : Nat} {evs : List Ev} (h_s : OnlyM P z s) (hP : Nat.land 0x50c80090102050c P = 0x50c80090102050c) : OnlyM P z (State.rowPass s t row evs) := by
  unfold State.rowPass
  with_reducible
  repeat' first
    | assumption | exact OnlyM.refl _ _ | split | (refine only_wakeBank ?_ (within_trans (by decide) hP))
    | (refine only_modTile ?_ (within_trans (by decide) hP)) | (refine only_passSeg ?_ (within_trans (by decide) hP))
    | apply onlyM_foldl | apply onlyO_next | intro _ | (dsimp only)

theorem only_depEvent {P : Nat} {z : State} {s : State} {t : Nat} {ev : Ev} (h_s : OnlyM P z s) (hP : Nat.land 0x10c80010102050c P = 0x10c80010102050c) : OnlyM P z (State.depEvent s t ev) := by
  unfold State.depEvent
  with_reducible
  repeat' first
    | assumption | exact OnlyM.refl _ _ | split | (refine only_depression ?_ (within_trans (by decide) hP))
    | (refine only_modTile ?_ (within_trans (by decide) hP)) | apply onlyM_foldl | apply onlyO_next | intro _
    | (dsimp only)

theorem only_macDone {P : Nat} {z s : State} {t : Nat} {evs : List Ev} (h_s : OnlyM P z s) (hP : Nat.land 0x10c80010102050c P = 0x10c80010102050c) :
    OnlyM P z (State.macDone s t evs) := by
  unfold State.macDone
  refine onlyM_foldl ?_ h_s
  intro u ev
  dsimp only
  split
  · split
    · exact only_modTile (.refl _ _) (within_trans (by decide) hP)
    · exact only_depEvent (only_modTile (.refl _ _) (within_trans (by decide) hP)) (within_trans (by decide) hP)
  · exact only_modTile (.refl _ _) (within_trans (by decide) hP)

theorem only_dispatchOne {P : Nat} {z : State} {s : State} {t : Nat} {m : MergeEntry} (h_s : OnlyM P z s) (hP : Nat.land 0x50c80090102050c P = 0x50c80090102050c) : OnlyM P z (State.dispatchOne s t m) := by
  unfold State.dispatchOne
  with_reducible
  repeat' first
    | assumption | exact OnlyM.refl _ _ | split | (refine only_modTile ?_ (within_trans (by decide) hP))
    | (refine only_rowPass ?_ (within_trans (by decide) hP)) | (refine only_macDone ?_ (within_trans (by decide) hP))
    | apply onlyM_foldl | apply onlyO_next | intro _ | (dsimp only)

theorem only_dispatch {P : Nat} {z : State} {s : State} {t : Nat} {m : MergeEntry} (h_s : OnlyM P z s) (hP : Nat.land 0x50c80090102050c P = 0x50c80090102050c) : OnlyM P z (State.dispatch s t m) := by
  unfold State.dispatch
  with_reducible
  repeat' first
    | assumption | exact OnlyM.refl _ _ | split | (refine only_dispatchOne ?_ (within_trans (by decide) hP))
    | apply onlyM_foldl | apply onlyO_next | intro _ | (dsimp only)

theorem only_dispatchFull {P : Nat} {z : State} {s : State} {t : Nat} (h_s : OnlyM P z s) (hP : Nat.land 0x50c80090102050c P = 0x50c80090102050c) : OnlyM P z (State.dispatchFull s t) := by
  unfold State.dispatchFull
  with_reducible
  repeat' first
    | assumption | exact OnlyM.refl _ _ | split | (refine only_dispatch ?_ (within_trans (by decide) hP))
    | apply onlyM_foldl | apply onlyO_next | intro _ | (dsimp only)

theorem only_joinMerge {P : Nat} {z : State} {s : State} {t : Nat} {ev : Ev} (h_s : OnlyM P z s) (hP : Nat.land 0x50c80090102050c P = 0x50c80090102050c) : OnlyM P z (State.joinMerge s t ev) := by
  unfold State.joinMerge
  with_reducible
  repeat' first
    | assumption | exact OnlyM.refl _ _ | split | (refine only_rowPass ?_ (within_trans (by decide) hP))
    | (refine only_macDone ?_ (within_trans (by decide) hP)) | (refine only_modTile ?_ (within_trans (by decide) hP))
    | (refine only_dispatchFull ?_ (within_trans (by decide) hP))
    | (refine only_dispatch ?_ (within_trans (by decide) hP)) | apply onlyM_foldl | apply onlyO_next | intro _
    | (dsimp only)

theorem only_reflexEvent {P : Nat} {z : State} {s : State} {t : Nat} {ev : Ev} (h_s : OnlyM P z s) (hP : Nat.land 0x10c9f0939020528 P = 0x10c9f0939020528) : OnlyM P z (State.reflexEvent s t ev) := by
  unfold State.reflexEvent
  with_reducible
  repeat' first
    | assumption | exact OnlyM.refl _ _ | split | (refine only_modTile ?_ (within_trans (by decide) hP))
    | (refine only_pushLoss ?_ (within_trans (by decide) hP)) | (refine only_input ?_ (within_trans (by decide) hP))
    | apply onlyM_foldl | apply onlyO_next | intro _ | (dsimp only)

theorem only_feed {P : Nat} {z : State} {s : State} {t : Nat} (h_s : OnlyM P z s) (hP : Nat.land 0x50c9f093902052c P = 0x50c9f093902052c) : OnlyM P z (State.feed s t) := by
  unfold State.feed
  with_reducible
  repeat' first
    | assumption | exact OnlyM.refl _ _ | split | (refine only_reflexEvent ?_ (within_trans (by decide) hP))
    | (refine only_joinMerge ?_ (within_trans (by decide) hP)) | apply onlyM_foldl | apply onlyO_next | intro _
    | (dsimp only)

theorem only_intakeEvent {P : Nat} {z : State} {s : State} {t : Nat} {v : Volley} {e : Word} (h_s : OnlyM P z s) (hP : Nat.land 0x50c80090102050c P = 0x50c80090102050c) : OnlyM P z (State.intakeEvent s t v e) := by
  unfold State.intakeEvent
  with_reducible
  repeat' first
    | assumption | exact OnlyM.refl _ _ | split | (refine only_macDone ?_ (within_trans (by decide) hP))
    | (refine only_pushLoss ?_ (within_trans (by decide) hP))
    | (refine only_modWorld ?_ (within_trans (by decide) hP)) | (refine only_modTile ?_ (within_trans (by decide) hP))
    | (refine only_traceTile ?_ (within_trans (by decide) hP))
    | (refine only_tileDrop ?_ (within_trans (by decide) hP)) | apply onlyM_foldl | apply onlyO_next | intro _
    | (dsimp only)

theorem only_reports {P : Nat} {z : State} {s : State} {t w : Nat} {ind : Nat} (h_s : OnlyM P z s) (hP : Nat.land 0x9f0828020408 P = 0x9f0828020408) : OnlyM P z (State.reports s t w ind) := by
  induction ind generalizing s t w with
  | zero => unfold State.reports; exact h_s
  | succ ind ih =>
    unfold State.reports
    with_reducible
    repeat' first
      | assumption | apply ih | exact OnlyM.refl _ _ | split | (refine only_flushOpen ?_ (within_trans (by decide) hP))
      | (refine only_send ?_ (within_trans (by decide) hP)) | (refine only_modTile ?_ (within_trans (by decide) hP))
      | (refine only_modWorld ?_ (within_trans (by decide) hP)) | apply onlyM_foldl | apply onlyO_next | intro _
      | (dsimp only)

theorem only_groupReports {P : Nat} {z : State} {s : State} {t g : Nat} (h_s : OnlyM P z s) (hP : Nat.land 0x9f0828020408 P = 0x9f0828020408) : OnlyM P z (State.groupReports s t g) := by
  unfold State.groupReports
  with_reducible
  repeat' first
    | assumption | exact OnlyM.refl _ _ | split | (refine only_reports ?_ (within_trans (by decide) hP))
    | apply onlyM_foldl | apply onlyO_next | intro _ | (dsimp only)

theorem only_afterF {P : Nat} {z : State} {s : State} {t w : Nat} (h_s : OnlyM P z s) (hP : Nat.land 0x50c9f093902052c P = 0x50c9f093902052c) : OnlyM P z (State.afterF s t w) := by
  unfold State.afterF
  with_reducible
  repeat' first
    | assumption | exact OnlyM.refl _ _ | split | (refine only_macDone ?_ (within_trans (by decide) hP))
    | (refine only_depEvent ?_ (within_trans (by decide) hP)) | (refine only_feed ?_ (within_trans (by decide) hP))
    | (refine only_sendNotice ?_ (within_trans (by decide) hP))
    | (refine only_reports ?_ (within_trans (by decide) hP)) | apply onlyM_foldl | apply onlyO_next | intro _
    | (dsimp only)

theorem only_potentiate {P : Nat} {z : State} {s : State} {t w c : Nat} (h_s : OnlyM P z s) (hP : Nat.land 0x10c80010102050c P = 0x10c80010102050c) : OnlyM P z (State.potentiate s t w c) := by
  unfold State.potentiate
  with_reducible
  repeat' first
    | assumption | exact OnlyM.refl _ _ | split | (refine only_modTile ?_ (within_trans (by decide) hP))
    | (refine only_potentiation ?_ (within_trans (by decide) hP)) | apply onlyM_foldl | apply onlyO_next | intro _
    | (dsimp only)

theorem only_finishUpdate {P : Nat} {z : State} {s : State} {t w c : Nat} {lock : Bool} (h_s : OnlyM P z s) (hP : Nat.land 0x50c9f093902052c P = 0x50c9f093902052c) : OnlyM P z (State.finishUpdate s t w c lock) := by
  unfold State.finishUpdate
  with_reducible
  repeat' first
    | assumption | exact OnlyM.refl _ _ | split | (refine only_potentiate ?_ (within_trans (by decide) hP))
    | (refine only_modTile ?_ (within_trans (by decide) hP)) | (refine only_modWorld ?_ (within_trans (by decide) hP))
    | (refine only_afterF ?_ (within_trans (by decide) hP)) | apply onlyM_foldl | apply onlyO_next | intro _
    | (dsimp only)

end Sys2Proof.Machine
end

