-- ==== Sys2Proof/Laws/FrameRuns.lean ====
section
/-! SUPPORT. The frame of every operation of Machine/Runs.lean: the parts that it may change. -/

set_option linter.unusedTactic false
set_option linter.unreachableTactic false
set_option linter.unusedVariables false

namespace Sys2Proof.Machine

open Sys2Proof

theorem only_startRun {P : Nat} {z : State} {s : State} {t : Nat} {d : DueRun} (h_s : OnlyM P z s) (hP : Nat.land 0x800000000008 P = 0x800000000008) : OnlyM P z (State.startRun s t d) := by
  unfold State.startRun
  with_reducible
  repeat' first
    | assumption | exact OnlyM.refl _ _ | split | (refine only_modTile ?_ (within_trans (by decide) hP))
    | (refine only_pushLoss ?_ (within_trans (by decide) hP)) | apply onlyM_foldl | apply onlyO_next | intro _
    | (dsimp only)

theorem only_nextRun {P : Nat} {z : State} {s : State} {t : Nat} (h_s : OnlyM P z s) (hP : Nat.land 0x50c9f093902052c P = 0x50c9f093902052c) : OnlyM P z (State.nextRun s t) := by
  unfold State.nextRun
  with_reducible
  repeat' first
    | assumption | exact OnlyM.refl _ _ | split | (refine only_modTile ?_ (within_trans (by decide) hP))
    | (refine only_startRun ?_ (within_trans (by decide) hP))
    | (refine only_finishUpdate ?_ (within_trans (by decide) hP)) | apply onlyM_foldl | apply onlyO_next | intro _
    | (dsimp only)

theorem only_tracePc {P : Nat} {z : State} {s : State} {t : Nat} {r : Run} (h_s : OnlyM P z s) (hP : Nat.land 0x400000000000008 P = 0x400000000000008) : OnlyM P z (State.tracePc s t r) := by
  unfold State.tracePc
  with_reducible
  repeat' first
    | assumption | exact OnlyM.refl _ _ | split | (refine only_modTile ?_ (within_trans (by decide) hP))
    | apply onlyM_foldl | apply onlyO_next
    | (refine onlyM_upd ?_ (fun p hp => by have hl := lacks (within_trans (by decide : Nat.land 0x400000000000000 0x400000000000008 = 0x400000000000000) hP) hp; revert hl; clear hp; cases p <;> first | exact fun h => absurd h (by decide) | with_unfolding_all exact fun _ => rfl))
    | intro _ | (dsimp only)

theorem only_traceRun {P : Nat} {z : State} {s : State} {t : Nat} {r : Run} {abandoned : Bool} (h_s : OnlyM P z s) (hP : Nat.land 0x400000000000008 P = 0x400000000000008) : OnlyM P z (State.traceRun s t r abandoned) := by
  unfold State.traceRun
  with_reducible
  repeat' first
    | assumption | exact OnlyM.refl _ _ | split | (refine only_traceTile ?_ (within_trans (by decide) hP))
    | apply onlyM_foldl | apply onlyO_next | intro _ | (dsimp only)

theorem only_runWake {P : Nat} {z : State} {s : State} {t : Nat} {r : Run} (h_s : OnlyM P z s) (hP : Nat.land 0x400800800000008 P = 0x400800800000008) : OnlyM P z (State.runWake s t r) := by
  unfold State.runWake
  with_reducible
  repeat' first
    | assumption | exact OnlyM.refl _ _ | split | (refine only_modTile ?_ (within_trans (by decide) hP))
    | (refine only_tileDrop ?_ (within_trans (by decide) hP)) | apply onlyM_foldl | apply onlyO_next | intro _
    | (dsimp only)

theorem only_runEmit {P : Nat} {z : State} {s : State} {t : Nat} {r : Run} {md : List DWord} (h_s : OnlyM P z s) (hP : Nat.land 0x4009f0028020408 P = 0x4009f0028020408) : OnlyM P z (State.runEmit s t r md) := by
  unfold State.runEmit
  with_reducible
  repeat' first
    | assumption | exact OnlyM.refl _ _ | split | (refine only_traceTile ?_ (within_trans (by decide) hP))
    | (refine only_emission ?_ (within_trans (by decide) hP)) | (refine only_modTile ?_ (within_trans (by decide) hP))
    | apply onlyM_foldl | apply onlyO_next | intro _ | (dsimp only)

theorem only_completeRun {P : Nat} {z : State} {s : State} {t : Nat} {r : Run} (h_s : OnlyM P z s) (hP : Nat.land 0x50c9f093902052c P = 0x50c9f093902052c) : OnlyM P z (State.completeRun s t r) := by
  unfold State.completeRun
  with_reducible
  repeat' first
    | assumption | exact OnlyM.refl _ _ | split | (refine only_modTile ?_ (within_trans (by decide) hP))
    | (refine only_writeRec ?_ (within_trans (by decide) hP))
    | (refine only_traceRun ?_ (within_trans (by decide) hP)) | (refine only_runEmit ?_ (within_trans (by decide) hP))
    | (refine only_runWake ?_ (within_trans (by decide) hP)) | (refine only_nextRun ?_ (within_trans (by decide) hP))
    | apply onlyM_foldl | apply onlyO_next | intro _ | (dsimp only)

theorem only_abandonRun {P : Nat} {z : State} {s : State} {t : Nat} {r : Run} {cause : Nat} (h_s : OnlyM P z s) (hP : Nat.land 0x50c9f093902052c P = 0x50c9f093902052c) : OnlyM P z (State.abandonRun s t r cause) := by
  unfold State.abandonRun
  with_reducible
  repeat' first
    | assumption | exact OnlyM.refl _ _ | split | (refine only_modTile ?_ (within_trans (by decide) hP))
    | (refine only_nondetAt ?_ (within_trans (by decide) hP))
    | (refine only_traceRun ?_ (within_trans (by decide) hP))
    | (refine only_pushLoss ?_ (within_trans (by decide) hP)) | (refine only_nextRun ?_ (within_trans (by decide) hP))
    | apply onlyM_foldl | apply onlyO_next | intro _ | (dsimp only)

theorem only_gExec {P : Nat} {z : State} {i : Instr} {t : Nat} {hc : Tile → Run → Nat} {f : Tile → Run → GStep} {s : State} (h_s : OnlyM P z s) (hP : Nat.land 0x50c9f093902052c P = 0x50c9f093902052c) : OnlyO P z (gExec i t hc f s) := by
  unfold gExec
  with_reducible
  repeat' first
    | assumption | exact OnlyM.refl _ _ | split | (refine only_tracePc ?_ (within_trans (by decide) hP))
    | (refine only_abandonRun ?_ (within_trans (by decide) hP))
    | (refine only_modTile ?_ (within_trans (by decide) hP))
    | (refine only_completeRun ?_ (within_trans (by decide) hP)) | apply onlyM_foldl | apply onlyO_next | intro _
    | (dsimp only)

end Sys2Proof.Machine
end

