-- ==== Sys2Proof/Laws/FrameTileCmds.lean ====
section
/-! SUPPORT. The frame of every operation of Machine/TileCmds.lean: the parts that it may change. -/

set_option linter.unusedTactic false
set_option linter.unreachableTactic false
set_option linter.unusedVariables false

namespace Sys2Proof.Machine

open Sys2Proof

theorem only_lateVolley {P : Nat} {z : State} {s : State} {t : Nat} {v : Volley} {e : Word} (h_s : OnlyM P z s) (hP : Nat.land 0x800000000008 P = 0x800000000008) : OnlyM P z (State.lateVolley s t v e) := by
  unfold State.lateVolley
  with_reducible
  repeat' first
    | assumption | exact OnlyM.refl _ _ | split | (refine only_pushLoss ?_ (within_trans (by decide) hP))
    | (refine only_nondetAt ?_ (within_trans (by decide) hP)) | apply onlyM_foldl | apply onlyO_next | intro _
    | (dsimp only)

theorem only_settle {P : Nat} {z : State} {s : State} {t : Nat} (h_s : OnlyM P z s) (hP : Nat.land 0x50c9f093902052c P = 0x50c9f093902052c) : OnlyM P z (State.settle s t) := by
  unfold State.settle
  with_reducible
  repeat' first
    | assumption | exact OnlyM.refl _ _ | split | (refine only_feed ?_ (within_trans (by decide) hP))
    | (refine only_nextRun ?_ (within_trans (by decide) hP)) | apply onlyM_foldl | apply onlyO_next | intro _
    | (dsimp only)

theorem only_takeEvents {P : Nat} {z : State} {s : State} {t : Nat} {v : Volley} (h_s : OnlyM P z s) (hP : Nat.land 0x50c9f093902052c P = 0x50c9f093902052c) : OnlyM P z (State.takeEvents s t v) := by
  unfold State.takeEvents
  with_reducible
  repeat' first
    | assumption | exact OnlyM.refl _ _ | split | (refine only_lateVolley ?_ (within_trans (by decide) hP))
    | (refine only_modTile ?_ (within_trans (by decide) hP))
    | (refine only_intakeEvent ?_ (within_trans (by decide) hP))
    | (refine only_settle ?_ (within_trans (by decide) hP)) | apply onlyM_foldl | apply onlyO_next | intro _
    | (dsimp only)

theorem only_execEvents {P : Nat} {z : State} {t : Nat} {s : State} (h_s : OnlyM P z s) (hP : Nat.land 0x50c9f093902052c P = 0x50c9f093902052c) : OnlyO P z (execEvents t s) := by
  unfold execEvents
  with_reducible
  repeat' first
    | assumption | exact OnlyM.refl _ _ | split
    | (refine only_takeInbox ?_ (within_trans (by decide) hP) (by assumption))
    | (refine only_wakeTile ?_ (within_trans (by decide) hP))
    | (refine only_takeEvents ?_ (within_trans (by decide) hP))
    | (refine only_loseEvents ?_ (within_trans (by decide) hP)) | apply onlyM_foldl | apply onlyO_next | intro _
    | (dsimp only)

theorem only_execMergeDispatch {P : Nat} {z : State} {t : Nat} {s : State} (h_s : OnlyM P z s) (hP : Nat.land 0x50c80090102050c P = 0x50c80090102050c) : OnlyO P z (execMergeDispatch t s) := by
  unfold execMergeDispatch
  with_reducible
  repeat' first
    | assumption | exact OnlyM.refl _ _ | split | (refine only_dispatch ?_ (within_trans (by decide) hP))
    | apply onlyM_foldl | apply onlyO_next | intro _ | (dsimp only)

theorem only_beginUpdate {P : Nat} {z : State} {s : State} {t w c : Nat} (h_s : OnlyM P z s) (hP : Nat.land 0x800000008 P = 0x800000008) : OnlyM P z (State.beginUpdate s t w c) := by
  unfold State.beginUpdate
  with_reducible
  repeat' first
    | assumption | exact OnlyM.refl _ _ | split | (refine only_modTile ?_ (within_trans (by decide) hP))
    | (refine only_modTurn ?_ (within_trans (by decide) hP)) | apply onlyM_foldl | apply onlyO_next | intro _
    | (dsimp only)

theorem only_execStampUpdate {P : Nat} {z : State} {t w : Nat} {s : State} (h_s : OnlyM P z s) (hP : Nat.land 0x50c9f093902052c P = 0x50c9f093902052c) : OnlyO P z (execStampUpdate t w s) := by
  unfold execStampUpdate
  with_reducible
  repeat' first
    | assumption | exact OnlyM.refl _ _ | split | (refine only_beginUpdate ?_ (within_trans (by decide) hP))
    | (refine only_nextRun ?_ (within_trans (by decide) hP)) | apply onlyM_foldl | apply onlyO_next | intro _
    | (dsimp only)

theorem only_execFrontier {P : Nat} {z : State} {t : Nat} {s : State} (h_s : OnlyM P z s) (hP : Nat.land 0x9f0828020408 P = 0x9f0828020408) : OnlyO P z (execFrontier t s) := by
  unfold execFrontier
  with_reducible
  repeat' first
    | assumption | exact OnlyM.refl _ _ | split
    | (refine only_takeInbox ?_ (within_trans (by decide) hP) (by assumption))
    | (refine only_modTile ?_ (within_trans (by decide) hP))
    | (refine only_groupReports ?_ (within_trans (by decide) hP)) | apply onlyM_foldl | apply onlyO_next | intro _
    | (dsimp only)

theorem only_sweep {P : Nat} {z : State} {s : State} {t w notice : Nat} (h_s : OnlyM P z s) (hP : Nat.land 0x81000800000c P = 0x81000800000c) : OnlyM P z (State.sweep s t w notice) := by
  unfold State.sweep
  with_reducible
  repeat' first
    | assumption | exact OnlyM.refl _ _ | split | (refine only_sweepRecords ?_ (within_trans (by decide) hP))
    | (refine only_sweepTimes ?_ (within_trans (by decide) hP))
    | (refine only_fromRoot ?_ (within_trans (by decide) hP)) | apply onlyM_foldl | apply onlyO_next | intro _
    | (dsimp only)

theorem only_execAge {P : Nat} {z : State} {t : Nat} {s : State} (h_s : OnlyM P z s) (hP : Nat.land 0xa1000802040c P = 0xa1000802040c) : OnlyO P z (execAge t s) := by
  unfold execAge
  with_reducible
  repeat' first
    | assumption | exact OnlyM.refl _ _ | split
    | (refine only_takeMail ?_ (within_trans (by decide) hP) (by assumption))
    | (refine only_wakeTile ?_ (within_trans (by decide) hP)) | (refine only_sweep ?_ (within_trans (by decide) hP))
    | apply onlyM_foldl | apply onlyO_next | intro _ | (dsimp only)

theorem only_execTempoGrant {P : Nat} {z : State} {t : Nat} {s : State} (h_s : OnlyM P z s) (hP : Nat.land 0x50cbf093902052c P = 0x50cbf093902052c) : OnlyO P z (execTempoGrant t s) := by
  unfold execTempoGrant
  with_reducible
  repeat' first
    | assumption | exact OnlyM.refl _ _ | split
    | (refine only_takeMail ?_ (within_trans (by decide) hP) (by assumption))
    | (refine only_wakeTile ?_ (within_trans (by decide) hP)) | (refine only_modTile ?_ (within_trans (by decide) hP))
    | (refine only_modWorld ?_ (within_trans (by decide) hP)) | (refine only_settle ?_ (within_trans (by decide) hP))
    | apply onlyM_foldl | apply onlyO_next | intro _ | (dsimp only)

theorem only_nondetAll {P : Nat} {z : State} {s : State} {t : Nat} (h_s : OnlyM P z s) (hP : Nat.land 0x8 P = 0x8) : OnlyM P z (State.nondetAll s t) := by
  unfold State.nondetAll
  with_reducible
  repeat' first
    | assumption | exact OnlyM.refl _ _ | split | (refine only_nondetAt ?_ (within_trans (by decide) hP))
    | apply onlyM_foldl | apply onlyO_next | intro _ | (dsimp only)

theorem only_execRefreshDue {P : Nat} {z : State} {t bank : Nat} {s : State} (h_s : OnlyM P z s) (hP : Nat.land 0x8 P = 0x8) : OnlyO P z (execRefreshDue t bank s) := by
  unfold execRefreshDue
  with_reducible
  repeat' first
    | assumption | exact OnlyM.refl _ _ | split | (refine only_modTile ?_ (within_trans (by decide) hP))
    | (refine only_nondetAll ?_ (within_trans (by decide) hP)) | apply onlyM_foldl | apply onlyO_next | intro _
    | (dsimp only)

theorem only_scrubUnit {P : Nat} {z : State} {s : State} {t u : Nat} (h_s : OnlyM P z s) (hP : Nat.land 0x10c80010102050c P = 0x10c80010102050c) : OnlyM P z (State.scrubUnit s t u) := by
  unfold State.scrubUnit
  with_reducible
  repeat' first
    | assumption | exact OnlyM.refl _ _ | split | (refine only_unitRead ?_ (within_trans (by decide) hP))
    | (refine only_unitLost ?_ (within_trans (by decide) hP)) | apply onlyM_foldl | apply onlyO_next
    | (refine onlyM_upd ?_ (fun p hp => by have hl := lacks (within_trans (by decide : Nat.land 0x4 0x10c80010102050c = 0x4) hP) hp; revert hl; clear hp; cases p <;> first | exact fun h => absurd h (by decide) | with_unfolding_all exact fun _ => rfl))
    | intro _ | (dsimp only)

theorem only_scrub {P : Nat} {z : State} {s : State} {t bank : Nat} (h_s : OnlyM P z s) (hP : Nat.land 0x10c80010102050c P = 0x10c80010102050c) : OnlyM P z (State.scrub s t bank) := by
  unfold State.scrub
  with_reducible
  repeat' first
    | assumption | exact OnlyM.refl _ _ | split | (refine only_scrubUnit ?_ (within_trans (by decide) hP))
    | (refine only_modTile ?_ (within_trans (by decide) hP)) | apply onlyM_foldl | apply onlyO_next | intro _
    | (dsimp only)

theorem only_execScrubDeadline {P : Nat} {z : State} {t bank : Nat} {s : State} (h_s : OnlyM P z s) (hP : Nat.land 0x10c80010102050c P = 0x10c80010102050c) : OnlyO P z (execScrubDeadline t bank s) := by
  unfold execScrubDeadline
  with_reducible
  repeat' first
    | assumption | exact OnlyM.refl _ _ | split | (refine only_scrub ?_ (within_trans (by decide) hP))
    | (refine only_modTile ?_ (within_trans (by decide) hP))
    | (refine only_nondetAll ?_ (within_trans (by decide) hP)) | apply onlyM_foldl | apply onlyO_next | intro _
    | (dsimp only)

theorem only_execScrubBurst {P : Nat} {z : State} {t bank : Nat} {s : State} (h_s : OnlyM P z s) (hP : Nat.land 0x10c80010102050c P = 0x10c80010102050c) : OnlyO P z (execScrubBurst t bank s) := by
  unfold execScrubBurst
  with_reducible
  repeat' first
    | assumption | exact OnlyM.refl _ _ | split | (refine only_scrub ?_ (within_trans (by decide) hP))
    | apply onlyM_foldl | apply onlyO_next | intro _ | (dsimp only)

theorem only_execLingerExpiry {P : Nat} {z : State} {t : Nat} {s : State} (h_s : OnlyM P z s) (hP : Nat.land 0x9f0028020408 P = 0x9f0028020408) : OnlyO P z (execLingerExpiry t s) := by
  unfold execLingerExpiry
  with_reducible
  repeat' first
    | assumption | exact OnlyM.refl _ _ | split | (refine only_modTile ?_ (within_trans (by decide) hP))
    | (refine only_sendOpen ?_ (within_trans (by decide) hP)) | apply onlyM_foldl | apply onlyO_next | intro _
    | (dsimp only)

theorem only_execEcho {P : Nat} {z : State} {ep : Nat} {s : State} (h_s : OnlyM P z s) (hP : Nat.land 0x60000000008 P = 0x60000000008) : OnlyO P z (execEcho ep s) := by
  unfold execEcho
  with_reducible
  repeat' first
    | assumption | exact OnlyM.refl _ _ | split
    | (refine only_takeInbox ?_ (within_trans (by decide) hP) (by assumption))
    | (refine only_modPace ?_ (within_trans (by decide) hP)) | (refine only_modTile ?_ (within_trans (by decide) hP))
    | apply onlyM_foldl | apply onlyO_next | intro _ | (dsimp only)

theorem only_execEchoSend {P : Nat} {z : State} {t src : Nat} {s : State} (h_s : OnlyM P z s) (hP : Nat.land 0x9f0028020408 P = 0x9f0028020408) : OnlyO P z (execEchoSend t src s) := by
  unfold execEchoSend
  with_reducible
  repeat' first
    | assumption | exact OnlyM.refl _ _ | split | (refine only_send ?_ (within_trans (by decide) hP))
    | apply onlyM_foldl | apply onlyO_next
    | (refine onlyM_upd ?_ (fun p hp => by have hl := lacks (within_trans (by decide : Nat.land 0x80000000000 0x9f0028020408 = 0x80000000000) hP) hp; revert hl; clear hp; cases p <;> first | exact fun h => absurd h (by decide) | with_unfolding_all exact fun _ => rfl))
    | intro _ | (dsimp only)

theorem only_execRateRecovery {P : Nat} {z : State} {ep : Nat} {s : State} (h_s : OnlyM P z s) (hP : Nat.land 0x40000000008 P = 0x40000000008) : OnlyO P z (execRateRecovery ep s) := by
  unfold execRateRecovery
  with_reducible
  repeat' first
    | assumption | exact OnlyM.refl _ _ | split | (refine only_modPace ?_ (within_trans (by decide) hP))
    | apply onlyM_foldl | apply onlyO_next | intro _ | (dsimp only)

theorem only_execTokenBucketRefill {P : Nat} {z : State} {ep hc : Nat} {s : State} (h_s : OnlyM P z s) (hP : Nat.land 0x50c9f093902052c P = 0x50c9f093902052c) : OnlyO P z (execTokenBucketRefill ep hc s) := by
  unfold execTokenBucketRefill
  with_reducible
  repeat' first
    | assumption | exact OnlyM.refl _ _ | split | (refine only_modPace ?_ (within_trans (by decide) hP))
    | (refine only_drainPace ?_ (within_trans (by decide) hP))
    | (refine only_unstall ?_ (within_trans (by decide) hP)) | (refine only_nextRun ?_ (within_trans (by decide) hP))
    | (refine only_portDrain ?_ (within_trans (by decide) hP)) | apply onlyM_foldl | apply onlyO_next | intro _
    | (dsimp only)

end Sys2Proof.Machine
end

