-- ==== Sys2Proof/Laws/FrameFabric.lean ====
section
/-! SUPPORT. The frame of every operation of Machine/Fabric.lean: the parts that it may change. -/

set_option linter.unusedTactic false
set_option linter.unreachableTactic false
set_option linter.unusedVariables false

namespace Sys2Proof.Machine

open Sys2Proof

theorem only_turnAlt {P : Nat} {z : State} {s : State} {px py out : Nat} {v : Volley} (h_s : OnlyM P z s) (hP : Nat.land 0x10000000000 P = 0x10000000000) : OnlyM P z (State.turnAlt s px py out v) := by
  unfold State.turnAlt
  with_reducible
  repeat' first
    | assumption | exact OnlyM.refl _ _ | split | apply onlyM_foldl | apply onlyO_next
    | (refine onlyM_upd ?_ (fun p hp => by have hl := lacks (within_trans (by decide : Nat.land 0x10000000000 0x10000000000 = 0x10000000000) hP) hp; revert hl; clear hp; cases p <;> first | exact fun h => absurd h (by decide) | with_unfolding_all exact fun _ => rfl))
    | intro _ | (dsimp only)

theorem only_popBuf {P : Nat} {z : State} {s : State} {px py inp vc : Nat} (h_s : OnlyM P z s) (hP : Nat.land 0x10000000000 P = 0x10000000000) : OnlyM P z (State.popBuf s px py inp vc) := by
  unfold State.popBuf
  with_reducible
  repeat' first
    | assumption | exact OnlyM.refl _ _ | split | apply onlyM_foldl | apply onlyO_next
    | (refine onlyM_upd ?_ (fun p hp => by have hl := lacks (within_trans (by decide : Nat.land 0x10000000000 0x10000000000 = 0x10000000000) hP) hp; revert hl; clear hp; cases p <;> first | exact fun h => absurd h (by decide) | with_unfolding_all exact fun _ => rfl))
    | intro _ | (dsimp only)

theorem only_oldRecvAt {P : Nat} {z : State} {s : State} {px py : Nat} {v : Volley} (h_s : OnlyM P z s) (hP : Nat.land 0x8 P = 0x8) : OnlyM P z (State.oldRecvAt s px py v) := by
  unfold State.oldRecvAt
  with_reducible
  repeat' first
    | assumption | exact OnlyM.refl _ _ | split | (refine only_modTile ?_ (within_trans (by decide) hP))
    | apply onlyM_foldl | apply onlyO_next | intro _ | (dsimp only)

theorem only_absorb {P : Nat} {z : State} {s : State} {px py : Nat} {v : Volley} {c : Code} (h_s : OnlyM P z s) (hP : Nat.land 0x800008000008 P = 0x800008000008) : OnlyM P z (State.absorb s px py v c) := by
  unfold State.absorb
  with_reducible
  repeat' first
    | assumption | exact OnlyM.refl _ _ | split | (refine only_countRecv ?_ (within_trans (by decide) hP))
    | (refine only_oldRecvAt ?_ (within_trans (by decide) hP))
    | (refine only_loseEvents ?_ (within_trans (by decide) hP)) | apply onlyM_foldl | apply onlyO_next | intro _
    | (dsimp only)

theorem only_rootTake {P : Nat} {z : State} {s : State} {st : Nat} {c : Ctl} (h_s : OnlyM P z s) (hP : Nat.land 0x10200000020400 P = 0x10200000020400) : OnlyM P z (State.rootTake s st c) := by
  unfold State.rootTake
  with_reducible
  repeat' first
    | assumption | exact OnlyM.refl _ _ | split | (refine only_post ?_ (within_trans (by decide) hP))
    | (refine only_wakeDom ?_ (within_trans (by decide) hP)) | apply onlyM_foldl | apply onlyO_next
    | (refine onlyM_upd ?_ (fun p hp => by have hl := lacks (within_trans (by decide : Nat.land 0x10000000000000 0x10200000020400 = 0x10000000000000) hP) hp; revert hl; clear hp; cases p <;> first | exact fun h => absurd h (by decide) | with_unfolding_all exact fun _ => rfl))
    | intro _ | (dsimp only)

theorem only_localPort {P : Nat} {z : State} {s : State} {px py : Nat} {v : Volley} (h_s : OnlyM P z s) (hP : Nat.land 0x10aa0008020408 P = 0x10aa0008020408) : OnlyM P z (State.localPort s px py v) := by
  unfold State.localPort
  with_reducible
  repeat' first
    | assumption | exact OnlyM.refl _ _ | split | (refine only_countRecv ?_ (within_trans (by decide) hP))
    | (refine only_rootTake ?_ (within_trans (by decide) hP))
    | (refine only_oldRecvAt ?_ (within_trans (by decide) hP))
    | (refine only_wakeTile ?_ (within_trans (by decide) hP)) | (refine only_deliver ?_ (within_trans (by decide) hP))
    | (refine only_absorb ?_ (within_trans (by decide) hP)) | apply onlyM_foldl | apply onlyO_next | intro _
    | (dsimp only)

theorem only_traceRoute {P : Nat} {z : State} {s : State} {px py out : Nat} {v : Volley} {det mark : Bool} (h_s : OnlyM P z s) (hP : Nat.land 0x400000000000008 P = 0x400000000000008) : OnlyM P z (State.traceRoute s px py out v det mark) := by
  unfold State.traceRoute
  with_reducible
  repeat' first
    | assumption | exact OnlyM.refl _ _ | split | (refine only_traceTile ?_ (within_trans (by decide) hP))
    | apply onlyM_foldl | apply onlyO_next | intro _ | (dsimp only)

theorem only_moveVolley {P : Nat} {z : State} {s : State} {px py inp out : Nat} {v : Volley} (h_s : OnlyM P z s) (hP : Nat.land 0x410bb0008020408 P = 0x410bb0008020408) : OnlyM P z (State.moveVolley s px py inp out v) := by
  unfold State.moveVolley
  with_reducible
  repeat' first
    | assumption | exact OnlyM.refl _ _ | split | (refine only_popBuf ?_ (within_trans (by decide) hP))
    | (refine only_turnAlt ?_ (within_trans (by decide) hP))
    | (refine only_traceRoute ?_ (within_trans (by decide) hP))
    | (refine only_localPort ?_ (within_trans (by decide) hP)) | (refine only_toHub ?_ (within_trans (by decide) hP))
    | (refine only_wakeDom ?_ (within_trans (by decide) hP)) | (refine only_enqueue ?_ (within_trans (by decide) hP))
    | apply onlyM_foldl | apply onlyO_next | intro _ | (dsimp only)

theorem only_execRouteVolley {P : Nat} {z : State} {px py inp vc : Nat} {s : State} (h_s : OnlyM P z s) (hP : Nat.land 0x410bb0008020408 P = 0x410bb0008020408) : OnlyO P z (execRouteVolley px py inp vc s) := by
  unfold execRouteVolley
  with_reducible
  repeat' first
    | assumption | exact OnlyM.refl _ _ | split | (refine only_popBuf ?_ (within_trans (by decide) hP))
    | (refine only_countRecv ?_ (within_trans (by decide) hP))
    | (refine only_pushLoss ?_ (within_trans (by decide) hP)) | (refine only_absorb ?_ (within_trans (by decide) hP))
    | (refine only_moveVolley ?_ (within_trans (by decide) hP)) | apply onlyM_foldl | apply onlyO_next | intro _
    | (dsimp only)

end Sys2Proof.Machine
end

