-- ==== Sys2Proof/Laws/FrameEpochs.lean ====
section
/-! SUPPORT. The frame of every operation of Machine/Epochs.lean: the parts that it may change. -/

set_option linter.unusedTactic false
set_option linter.unreachableTactic false
set_option linter.unusedVariables false

namespace Sys2Proof.Machine

open Sys2Proof

theorem only_flipWorld {P : Nat} {z : State} {s : State} {w f : Nat} (h_s : OnlyM P z s) (hP : Nat.land 0x9b0808020408 P = 0x9b0808020408) : OnlyM P z (State.flipWorld s w f) := by
  unfold State.flipWorld
  with_reducible
  repeat' first
    | assumption | exact OnlyM.refl _ _ | split | (refine only_toRoot ?_ (within_trans (by decide) hP))
    | (refine only_modWorld ?_ (within_trans (by decide) hP)) | apply onlyM_foldl | apply onlyO_next | intro _
    | (dsimp only)

theorem only_startFlip {P : Nat} {z : State} {s : State} {cmd : Nat × Nat} (h_s : OnlyM P z s) (hP : Nat.land 0x9b0808020408 P = 0x9b0808020408) : OnlyM P z (State.startFlip s cmd) := by
  unfold State.startFlip
  with_reducible
  repeat' first
    | assumption | exact OnlyM.refl _ _ | split | (refine only_flipWorld ?_ (within_trans (by decide) hP))
    | apply onlyM_foldl | apply onlyO_next
    | (refine onlyM_upd ?_ (fun p hp => by have hl := lacks (within_trans (by decide : Nat.land 0x8000008 0x9b0808020408 = 0x8000008) hP) hp; revert hl; clear hp; cases p <;> first | exact fun h => absurd h (by decide) | with_unfolding_all exact fun _ => rfl))
    | intro _ | (dsimp only)

theorem only_execEpochFlip {P : Nat} {z : State} {rk seq : Nat} {s : State} (h_s : OnlyM P z s) (hP : Nat.land 0x1009b090b020408 P = 0x1009b090b020408) : OnlyO P z (execEpochFlip rk seq s) := by
  unfold execEpochFlip
  with_reducible
  repeat' first
    | assumption | exact OnlyM.refl _ _ | split | (refine only_runCmd ?_ ?_ (within_trans (by decide) hP))
    | (refine only_complete ?_ (within_trans (by decide) hP))
    | (refine only_startFlip ?_ (within_trans (by decide) hP)) | (refine only_begun ?_ (within_trans (by decide) hP))
    | apply onlyM_foldl | apply onlyO_next | intro _ | (dsimp only)

theorem only_execEpochNotice {P : Nat} {z : State} {st : Nat} {s : State} (h_s : OnlyM P z s) (hP : Nat.land 0x210008000000 P = 0x210008000000) : OnlyO P z (execEpochNotice st s) := by
  unfold execEpochNotice
  with_reducible
  repeat' first
    | assumption | exact OnlyM.refl _ _ | split
    | (refine only_takeMail ?_ (within_trans (by decide) hP) (by assumption))
    | (refine only_fromRoot ?_ (within_trans (by decide) hP)) | apply onlyM_foldl | apply onlyO_next | intro _
    | (dsimp only)

theorem only_execEpochAck {P : Nat} {z : State} {s : State} (h_s : OnlyM P z s) (hP : Nat.land 0x20800000000 P = 0x20800000000) : OnlyO P z (execEpochAck s) := by
  unfold execEpochAck
  with_reducible
  repeat' first
    | assumption | exact OnlyM.refl _ _ | split
    | (refine only_takeInbox ?_ (within_trans (by decide) hP) (by assumption))
    | (refine only_modWorld ?_ (within_trans (by decide) hP)) | apply onlyM_foldl | apply onlyO_next | intro _
    | (dsimp only)

theorem only_toSteward {P : Nat} {z : State} {s : State} {k : Nat} {c : Ctl} (h_s : OnlyM P z s) (hP : Nat.land 0xb0008020408 P = 0xb0008020408) : OnlyM P z (State.toSteward s k c) := by
  unfold State.toSteward
  with_reducible
  repeat' first
    | assumption | exact OnlyM.refl _ _ | split | (refine only_deliver ?_ (within_trans (by decide) hP))
    | (refine only_fromRoot ?_ (within_trans (by decide) hP)) | apply onlyM_foldl | apply onlyO_next | intro _
    | (dsimp only)

theorem only_sendEnds {P : Nat} {z : State} {s : State} (h_s : OnlyM P z s) (hP : Nat.land 0xb0008020408 P = 0xb0008020408) : OnlyM P z (State.sendEnds s) := by
  unfold State.sendEnds
  with_reducible
  repeat' first
    | assumption | exact OnlyM.refl _ _ | split | (refine only_toSteward ?_ (within_trans (by decide) hP))
    | apply onlyM_foldl | apply onlyO_next
    | (refine onlyM_upd ?_ (fun p hp => by have hl := lacks (within_trans (by decide : Nat.land 0x8000000 0xb0008020408 = 0x8000000) hP) hp; revert hl; clear hp; cases p <;> first | exact fun h => absurd h (by decide) | with_unfolding_all exact fun _ => rfl))
    | intro _ | (dsimp only)

theorem only_sendDeltas {P : Nat} {z : State} {s : State} (h_s : OnlyM P z s) (hP : Nat.land 0xb0008020408 P = 0xb0008020408) : OnlyM P z (State.sendDeltas s) := by
  unfold State.sendDeltas
  with_reducible
  repeat' first
    | assumption | exact OnlyM.refl _ _ | split | (refine only_toSteward ?_ (within_trans (by decide) hP))
    | apply onlyM_foldl | apply onlyO_next
    | (refine onlyM_upd ?_ (fun p hp => by have hl := lacks (within_trans (by decide : Nat.land 0x8000000 0xb0008020408 = 0x8000000) hP) hp; revert hl; clear hp; cases p <;> first | exact fun h => absurd h (by decide) | with_unfolding_all exact fun _ => rfl))
    | intro _ | (dsimp only)

theorem only_drainAdd {P : Nat} {z : State} {s : State} {n : Int} (h_s : OnlyM P z s) (hP : Nat.land 0x100800509000000 P = 0x100800509000000) : OnlyM P z (State.drainAdd s n) := by
  unfold State.drainAdd
  with_reducible
  repeat' first
    | assumption | exact OnlyM.refl _ _ | split | (refine only_internalAdd ?_ (within_trans (by decide) hP))
    | apply onlyM_foldl | apply onlyO_next
    | (refine onlyM_upd ?_ (fun p hp => by have hl := lacks (within_trans (by decide : Nat.land 0x8000000 0x100800509000000 = 0x8000000) hP) hp; revert hl; clear hp; cases p <;> first | exact fun h => absurd h (by decide) | with_unfolding_all exact fun _ => rfl))
    | intro _ | (dsimp only)

theorem only_drainLost {P : Nat} {z : State} {s : State} (h_s : OnlyM P z s) (hP : Nat.land 0x100800509000000 P = 0x100800509000000) : OnlyM P z (State.drainLost s) := by
  unfold State.drainLost
  with_reducible
  repeat' first
    | assumption | exact OnlyM.refl _ _ | split | (refine only_pushLoss ?_ (within_trans (by decide) hP))
    | (refine only_internalAdd ?_ (within_trans (by decide) hP)) | apply onlyM_foldl | apply onlyO_next
    | (refine onlyM_upd ?_ (fun p hp => by have hl := lacks (within_trans (by decide : Nat.land 0x8000000 0x100800509000000 = 0x8000000) hP) hp; revert hl; clear hp; cases p <;> first | exact fun h => absurd h (by decide) | with_unfolding_all exact fun _ => rfl))
    | intro _ | (dsimp only)

theorem only_drainCheck {P : Nat} {z : State} {s0 : State} (h_s0 : OnlyM P z s0) (hP : Nat.land 0x100800d0b000000 P = 0x100800d0b000000) : OnlyM P z (State.drainCheck s0) := by
  unfold State.drainCheck
  with_reducible
  repeat' first
    | assumption | exact OnlyM.refl _ _ | split | (refine only_drainLost ?_ (within_trans (by decide) hP))
    | (refine only_completeAt ?_ (within_trans (by decide) hP)) | apply onlyM_foldl | apply onlyO_next
    | (refine onlyM_upd ?_ (fun p hp => by have hl := lacks (within_trans (by decide : Nat.land 0x808000000 0x100800d0b000000 = 0x808000000) hP) hp; revert hl; clear hp; cases p <;> first | exact fun h => absurd h (by decide) | with_unfolding_all exact fun _ => rfl))
    | intro _ | (dsimp only)

theorem only_execEpochEnd {P : Nat} {z : State} {s : State} (h_s : OnlyM P z s) (hP : Nat.land 0x1008b0d0b020408 P = 0x1008b0d0b020408) : OnlyO P z (execEpochEnd s) := by
  unfold execEpochEnd
  with_reducible
  repeat' first
    | assumption | exact OnlyM.refl _ _ | split | (refine only_sendEnds ?_ (within_trans (by decide) hP))
    | (refine only_takeInbox ?_ (within_trans (by decide) hP) (by assumption))
    | (refine only_drainAdd ?_ (within_trans (by decide) hP))
    | (refine only_drainCheck ?_ (within_trans (by decide) hP)) | apply onlyM_foldl | apply onlyO_next
    | (refine onlyM_upd ?_ (fun p hp => by have hl := lacks (within_trans (by decide : Nat.land 0x8000000 0x1008b0d0b020408 = 0x8000000) hP) hp; revert hl; clear hp; cases p <;> first | exact fun h => absurd h (by decide) | with_unfolding_all exact fun _ => rfl))
    | intro _ | (dsimp only)

theorem only_execDrainDelta {P : Nat} {z : State} {s : State} (h_s : OnlyM P z s) (hP : Nat.land 0x1008b0d0b020408 P = 0x1008b0d0b020408) : OnlyO P z (execDrainDelta s) := by
  unfold execDrainDelta
  with_reducible
  repeat' first
    | assumption | exact OnlyM.refl _ _ | split | (refine only_sendDeltas ?_ (within_trans (by decide) hP))
    | (refine only_takeInbox ?_ (within_trans (by decide) hP) (by assumption))
    | (refine only_drainAdd ?_ (within_trans (by decide) hP))
    | (refine only_drainCheck ?_ (within_trans (by decide) hP)) | apply onlyM_foldl | apply onlyO_next | intro _
    | (dsimp only)

end Sys2Proof.Machine
end

