-- ==== Sys2Proof/Laws/FrameBindings.lean ====
section
/-! SUPPORT. The frame of every operation of Machine/Bindings.lean: the parts that it may change. -/

set_option linter.unusedTactic false
set_option linter.unreachableTactic false
set_option linter.unusedVariables false

namespace Sys2Proof.Machine

open Sys2Proof

theorem only_worldOutput {P : Nat} {z : State} {s : State} {r src w ch value full : Nat} (h_s : OnlyM P z s) (hP : Nat.land 0x100800901000000 P = 0x100800901000000) : OnlyM P z (State.worldOutput s r src w ch value full) := by
  unfold State.worldOutput
  with_reducible
  repeat' first
    | assumption | exact OnlyM.refl _ _ | split | (refine only_traceRack ?_ (within_trans (by decide) hP))
    | (refine only_rackPut ?_ (within_trans (by decide) hP)) | (refine only_dropMsg ?_ (within_trans (by decide) hP))
    | (refine only_modTurn ?_ (within_trans (by decide) hP)) | apply onlyM_foldl | apply onlyO_next | intro _
    | (dsimp only)

theorem only_bindWord {P : Nat} {z : State} {s : State} {y : Nat} {v : Volley} {e : Word} (h_s : OnlyM P z s) (hP : Nat.land 0x100800901000000 P = 0x100800901000000) : OnlyM P z (State.bindWord s y v e) := by
  unfold State.bindWord
  with_reducible
  repeat' first
    | assumption | exact OnlyM.refl _ _ | split | (refine only_worldOutput ?_ (within_trans (by decide) hP))
    | (refine only_modTurn ?_ (within_trans (by decide) hP)) | apply onlyM_foldl | apply onlyO_next | intro _
    | (dsimp only)

theorem only_execRackBindingEvent {P : Nat} {z : State} {y : Nat} {s : State} (h_s : OnlyM P z s) (hP : Nat.land 0x100820901000000 P = 0x100820901000000) : OnlyO P z (execRackBindingEvent y s) := by
  unfold execRackBindingEvent
  with_reducible
  repeat' first
    | assumption | exact OnlyM.refl _ _ | split
    | (refine only_takeInbox ?_ (within_trans (by decide) hP) (by assumption))
    | (refine only_bindWord ?_ (within_trans (by decide) hP)) | apply onlyM_foldl | apply onlyO_next | intro _
    | (dsimp only)

theorem only_execPipAddMessage {P : Nat} {z : State} {s : State} (h_s : OnlyM P z s) (hP : Nat.land 0x100820501000000 P = 0x100820501000000) : OnlyO P z (execPipAddMessage s) := by
  unfold execPipAddMessage
  with_reducible
  repeat' first
    | assumption | exact OnlyM.refl _ _ | split
    | (refine only_takeInbox ?_ (within_trans (by decide) hP) (by assumption))
    | (refine only_internalAdd ?_ (within_trans (by decide) hP)) | apply onlyM_foldl | apply onlyO_next | intro _
    | (dsimp only)

end Sys2Proof.Machine
end

