-- ==== Sys2Proof/Laws/FramePool.lean ====
section
/-! SUPPORT. The frame of every operation of Machine/Pool.lean: the parts that it may change. -/

set_option linter.unusedTactic false
set_option linter.unreachableTactic false
set_option linter.unusedVariables false

namespace Sys2Proof.Machine

open Sys2Proof

theorem only_setCached {P : Nat} {z : State} {s : State} {a key : Nat} {c : Option CacheLine} (h_s : OnlyM P z s) (hP : Nat.land 0x400000000000 P = 0x400000000000) : OnlyM P z (State.setCached s a key c) := by
  unfold State.setCached
  with_reducible
  repeat' first
    | assumption | exact OnlyM.refl _ _ | split | apply onlyM_foldl | apply onlyO_next
    | (refine onlyM_upd ?_ (fun p hp => by have hl := lacks (within_trans (by decide : Nat.land 0x400000000000 0x400000000000 = 0x400000000000) hP) hp; revert hl; clear hp; cases p <;> first | exact fun h => absurd h (by decide) | with_unfolding_all exact fun _ => rfl))
    | intro _ | (dsimp only)

theorem only_agentFail {P : Nat} {z : State} {s : State} {a : Nat} {c : Code} (h_s : OnlyM P z s) (hP : Nat.land 0x400000000000 P = 0x400000000000) : OnlyM P z (State.agentFail s a c) := by
  unfold State.agentFail
  with_reducible
  repeat' first
    | assumption | exact OnlyM.refl _ _ | split | apply onlyM_foldl | apply onlyO_next
    | (refine onlyM_upd ?_ (fun p hp => by have hl := lacks (within_trans (by decide : Nat.land 0x400000000000 0x400000000000 = 0x400000000000) hP) hp; revert hl; clear hp; cases p <;> first | exact fun h => absurd h (by decide) | with_unfolding_all exact fun _ => rfl))
    | intro _ | (dsimp only)

theorem only_tracePool {P : Nat} {z : State} {s : State} {win line msg agent : Nat} {queued : Bool} {st : Nat} (h_s : OnlyM P z s) (hP : Nat.land 0x100000000000000 P = 0x100000000000000) : OnlyM P z (State.tracePool s win line msg agent queued st) := by
  unfold State.tracePool
  with_reducible
  repeat' first
    | assumption | exact OnlyM.refl _ _ | split | (refine only_traceHub ?_ (within_trans (by decide) hP))
    | apply onlyM_foldl | apply onlyO_next | intro _ | (dsimp only)

theorem only_modEntry {P : Nat} {z : State} {s : State} {key : Nat} {f : DirEntry → DirEntry} (h_s : OnlyM P z s) (hP : Nat.land 0x400000000000 P = 0x400000000000) : OnlyM P z (State.modEntry s key f) := by
  unfold State.modEntry
  with_reducible
  repeat' first
    | assumption | exact OnlyM.refl _ _ | split | apply onlyM_foldl | apply onlyO_next
    | (refine onlyM_upd ?_ (fun p hp => by have hl := lacks (within_trans (by decide : Nat.land 0x400000000000 0x400000000000 = 0x400000000000) hP) hp; revert hl; clear hp; cases p <;> first | exact fun h => absurd h (by decide) | with_unfolding_all exact fun _ => rfl))
    | intro _ | (dsimp only)

theorem only_tell {P : Nat} {z : State} {s : State} {a win line : Nat} {msg : DirMsg} (h_s : OnlyM P z s) (hP : Nat.land 0x100400000000000 P = 0x100400000000000) : OnlyM P z (State.tell s a win line msg) := by
  unfold State.tell
  with_reducible
  repeat' first
    | assumption | exact OnlyM.refl _ _ | split | (refine only_tracePool ?_ (within_trans (by decide) hP))
    | apply onlyM_foldl | apply onlyO_next
    | (refine onlyM_upd ?_ (fun p hp => by have hl := lacks (within_trans (by decide : Nat.land 0x400000000000 0x100400000000000 = 0x400000000000) hP) hp; revert hl; clear hp; cases p <;> first | exact fun h => absurd h (by decide) | with_unfolding_all exact fun _ => rfl))
    | intro _ | (dsimp only)

theorem only_answer {P : Nat} {z : State} {s : State} {win line kind rsp : Nat} (h_s : OnlyM P z s) (hP : Nat.land 0x100400000000000 P = 0x100400000000000) : OnlyM P z (State.answer s win line kind rsp) := by
  unfold State.answer
  with_reducible
  repeat' first
    | assumption | exact OnlyM.refl _ _ | split | (refine only_tracePool ?_ (within_trans (by decide) hP))
    | apply onlyM_foldl | apply onlyO_next
    | (refine onlyM_upd ?_ (fun p hp => by have hl := lacks (within_trans (by decide : Nat.land 0x400000000000 0x100400000000000 = 0x400000000000) hP) hp; revert hl; clear hp; cases p <;> first | exact fun h => absurd h (by decide) | with_unfolding_all exact fun _ => rfl))
    | intro _ | (dsimp only)

theorem only_issue {P : Nat} {z : State} {s : State} {o : PoolOp} (h_s : OnlyM P z s) (hP : Nat.land 0x400000000000 P = 0x400000000000) : OnlyM P z (State.issue s o) := by
  unfold State.issue
  with_reducible
  repeat' first
    | assumption | exact OnlyM.refl _ _ | split | apply onlyM_foldl | apply onlyO_next
    | (refine onlyM_upd ?_ (fun p hp => by have hl := lacks (within_trans (by decide : Nat.land 0x400000000000 0x400000000000 = 0x400000000000) hP) hp; revert hl; clear hp; cases p <;> first | exact fun h => absurd h (by decide) | with_unfolding_all exact fun _ => rfl))
    | intro _ | (dsimp only)

theorem only_grant {P : Nat} {z : State} {s : State} {e : DirEntry} {r : DirReq} {d : BitVec 512} {dirty : Bool} (h_s : OnlyM P z s) (hP : Nat.land 0x100400000000000 P = 0x100400000000000) : OnlyM P z (State.grant s e r d dirty) := by
  unfold State.grant
  with_reducible
  repeat' first
    | assumption | exact OnlyM.refl _ _ | split | (refine only_modEntry ?_ (within_trans (by decide) hP))
    | (refine only_tell ?_ (within_trans (by decide) hP)) | apply onlyM_foldl | apply onlyO_next | intro _
    | (dsimp only)

theorem only_startRead {P : Nat} {z : State} {s : State} {e : DirEntry} {r : DirReq} (h_s : OnlyM P z s) (hP : Nat.land 0xc00000000000 P = 0xc00000000000) : OnlyM P z (State.startRead s e r) := by
  unfold State.startRead
  with_reducible
  repeat' first
    | assumption | exact OnlyM.refl _ _ | split | (refine only_modEntry ?_ (within_trans (by decide) hP))
    | (refine only_agentFail ?_ (within_trans (by decide) hP)) | (refine only_issue ?_ (within_trans (by decide) hP))
    | (refine only_pushLoss ?_ (within_trans (by decide) hP)) | apply onlyM_foldl | apply onlyO_next | intro _
    | (dsimp only)

theorem only_written {P : Nat} {z : State} {s : State} {e : DirEntry} (h_s : OnlyM P z s) (hP : Nat.land 0x100400000000000 P = 0x100400000000000) : OnlyM P z (State.written s e) := by
  unfold State.written
  with_reducible
  repeat' first
    | assumption | exact OnlyM.refl _ _ | split | (refine only_modEntry ?_ (within_trans (by decide) hP))
    | (refine only_tell ?_ (within_trans (by decide) hP)) | (refine only_grant ?_ (within_trans (by decide) hP))
    | (refine only_answer ?_ (within_trans (by decide) hP)) | apply onlyM_foldl | apply onlyO_next | intro _
    | (dsimp only)

theorem only_startWrite {P : Nat} {z : State} {s : State} {e : DirEntry} {d : BitVec 512} (h_s : OnlyM P z s) (hP : Nat.land 0x100c00000000000 P = 0x100c00000000000) : OnlyM P z (State.startWrite s e d) := by
  unfold State.startWrite
  with_reducible
  repeat' first
    | assumption | exact OnlyM.refl _ _ | split | (refine only_issue ?_ (within_trans (by decide) hP))
    | (refine only_pushLoss ?_ (within_trans (by decide) hP)) | (refine only_written ?_ (within_trans (by decide) hP))
    | apply onlyM_foldl | apply onlyO_next | intro _ | (dsimp only)

theorem only_recallAll {P : Nat} {z : State} {s : State} {e : DirEntry} {hs : List Nat} {why : Why} (h_s : OnlyM P z s) (hP : Nat.land 0x100400000000000 P = 0x100400000000000) : OnlyM P z (State.recallAll s e hs why) := by
  unfold State.recallAll
  with_reducible
  repeat' first
    | assumption | exact OnlyM.refl _ _ | split | (refine only_tell ?_ (within_trans (by decide) hP))
    | (refine only_modEntry ?_ (within_trans (by decide) hP)) | apply onlyM_foldl | apply onlyO_next | intro _
    | (dsimp only)

theorem only_answered {P : Nat} {z : State} {s : State} {e : DirEntry} {d : Option (BitVec 512)} {why : Why} (h_s : OnlyM P z s) (hP : Nat.land 0x100c00000000000 P = 0x100c00000000000) : OnlyM P z (State.answered s e d why) := by
  unfold State.answered
  with_reducible
  repeat' first
    | assumption | exact OnlyM.refl _ _ | split | (refine only_modEntry ?_ (within_trans (by decide) hP))
    | (refine only_grant ?_ (within_trans (by decide) hP)) | (refine only_startWrite ?_ (within_trans (by decide) hP))
    | (refine only_startRead ?_ (within_trans (by decide) hP)) | (refine only_answer ?_ (within_trans (by decide) hP))
    | apply onlyM_foldl | apply onlyO_next | intro _ | (dsimp only)

theorem only_serve {P : Nat} {z : State} {s : State} {key : Nat} {ind : Nat} (h_s : OnlyM P z s) (hP : Nat.land 0x100c00000000000 P = 0x100c00000000000) : OnlyM P z (State.serve s key ind) := by
  induction ind generalizing s key with
  | zero => unfold State.serve; exact h_s
  | succ ind ih =>
    unfold State.serve
    with_reducible
    repeat' first
      | assumption | apply ih | exact OnlyM.refl _ _ | split | (refine only_modEntry ?_ (within_trans (by decide) hP))
      | (refine only_recallAll ?_ (within_trans (by decide) hP)) | (refine only_answer ?_ (within_trans (by decide) hP))
      | (refine only_startRead ?_ (within_trans (by decide) hP)) | apply onlyM_foldl | apply onlyO_next
      | (refine onlyM_upd ?_ (fun p hp => by have hl := lacks (within_trans (by decide : Nat.land 0x400000000000 0x100c00000000000 = 0x400000000000) hP) hp; revert hl; clear hp; cases p <;> first | exact fun h => absurd h (by decide) | with_unfolding_all exact fun _ => rfl))
      | intro _ | (dsimp only)

theorem only_serveLine {P : Nat} {z : State} {s : State} {key : Nat} (h_s : OnlyM P z s) (hP : Nat.land 0x100c00000000000 P = 0x100c00000000000) : OnlyM P z (State.serveLine s key) := by
  unfold State.serveLine
  with_reducible
  repeat' first
    | assumption | exact OnlyM.refl _ _ | split | (refine only_serve ?_ (within_trans (by decide) hP))
    | apply onlyM_foldl | apply onlyO_next | intro _ | (dsimp only)

theorem only_evictOne {P : Nat} {z : State} {s : State} (h_s : OnlyM P z s) (hP : Nat.land 0x100c00000000100 P = 0x100c00000000100) : OnlyM P z (State.evictOne s) := by
  unfold State.evictOne
  with_reducible
  repeat' first
    | assumption | exact OnlyM.refl _ _ | split | (refine only_modEntry ?_ (within_trans (by decide) hP))
    | (refine only_serveLine ?_ (within_trans (by decide) hP)) | apply onlyM_foldl | apply onlyO_next
    | (refine onlyM_upd ?_ (fun p hp => by have hl := lacks (within_trans (by decide : Nat.land 0x400000000100 0x100c00000000100 = 0x400000000100) hP) hp; revert hl; clear hp; cases p <;> first | exact fun h => absurd h (by decide) | with_unfolding_all exact fun _ => rfl))
    | intro _ | (dsimp only)

theorem only_request {P : Nat} {z : State} {s : State} {win line : Nat} {r : DirReq} (h_s : OnlyM P z s) (hP : Nat.land 0x100c00000000100 P = 0x100c00000000100) : OnlyM P z (State.request s win line r) := by
  unfold State.request
  with_reducible
  repeat' first
    | assumption | exact OnlyM.refl _ _ | split | (refine only_modEntry ?_ (within_trans (by decide) hP))
    | (refine only_serveLine ?_ (within_trans (by decide) hP))
    | (refine only_evictOne ?_ (within_trans (by decide) hP)) | apply onlyM_foldl | apply onlyO_next
    | (refine onlyM_upd ?_ (fun p hp => by have hl := lacks (within_trans (by decide : Nat.land 0x400000000000 0x100c00000000100 = 0x400000000000) hP) hp; revert hl; clear hp; cases p <;> first | exact fun h => absurd h (by decide) | with_unfolding_all exact fun _ => rfl))
    | intro _ | (dsimp only)

theorem only_admit {P : Nat} {z : State} {s : State} {ind : Nat} (h_s : OnlyM P z s) (hP : Nat.land 0x100c00000000100 P = 0x100c00000000100) : OnlyM P z (State.admitWaiting s ind) := by
  induction ind generalizing s with
  | zero => unfold State.admitWaiting; exact h_s
  | succ ind ih =>
    unfold State.admitWaiting
    with_reducible
    repeat' first
      | assumption | apply ih | exact OnlyM.refl _ _ | split | (refine only_request ?_ (within_trans (by decide) hP))
      | apply onlyM_foldl | apply onlyO_next
      | (refine onlyM_upd ?_ (fun p hp => by have hl := lacks (within_trans (by decide : Nat.land 0x400000000000 0x100c00000000100 = 0x400000000000) hP) hp; revert hl; clear hp; cases p <;> first | exact fun h => absurd h (by decide) | with_unfolding_all exact fun _ => rfl))
      | intro _ | (dsimp only)

theorem only_release {P : Nat} {z : State} {s : State} {key : Nat} (h_s : OnlyM P z s) (hP : Nat.land 0x100c00000000100 P = 0x100c00000000100) : OnlyM P z (State.release s key) := by
  unfold State.release
  with_reducible
  repeat' first
    | assumption | exact OnlyM.refl _ _ | split | (refine only_serveLine ?_ (within_trans (by decide) hP))
    | (refine only_admit ?_ (within_trans (by decide) hP)) | apply onlyM_foldl | apply onlyO_next | intro _
    | (dsimp only)

theorem only_joinRead {P : Nat} {z s t : State} {a key : Nat} (h_s : OnlyM P z s)
    (hP : Nat.land 0x400000000000 P = 0x400000000000) (e : State.joinRead s a key = some t) : OnlyM P z t := by
  unfold State.joinRead at e
  split at e
  · split at e
    · cases e
      refine onlyM_upd h_s (fun p hp => ?_)
      have hl := lacks hP hp
      revert hl
      clear hp
      cases p <;> first | exact fun h => absurd h (by decide) | exact fun _ => rfl
    · cases e
  · cases e

theorem only_plainRead {P : Nat} {z : State} {s : State} {a win line : Nat} (h_s : OnlyM P z s) (hP : Nat.land 0xc00000000000 P = 0xc00000000000) : OnlyM P z (State.plainRead s a win line) := by
  unfold State.plainRead
  with_reducible
  repeat' first
    | assumption | exact OnlyM.refl _ _ | split | (refine only_agentFail ?_ (within_trans (by decide) hP))
    | (refine only_joinRead ?_ (within_trans (by decide) hP) (by assumption))
    | (refine only_issue ?_ (within_trans (by decide) hP)) | (refine only_pushLoss ?_ (within_trans (by decide) hP))
    | apply onlyM_foldl | apply onlyO_next | intro _ | (dsimp only)

theorem only_poolRead {P : Nat} {z : State} {s : State} {a win line : Nat} {excl : Bool} (h_s : OnlyM P z s) (hP : Nat.land 0x100c00000020500 P = 0x100c00000020500) : OnlyM P z (State.poolRead s a win line excl) := by
  unfold State.poolRead
  with_reducible
  repeat' first
    | assumption | exact OnlyM.refl _ _ | split | (refine only_agentFail ?_ (within_trans (by decide) hP))
    | (refine only_wakeDom ?_ (within_trans (by decide) hP))
    | (refine only_tracePool ?_ (within_trans (by decide) hP))
    | (refine only_request ?_ (within_trans (by decide) hP))
    | (refine only_plainRead ?_ (within_trans (by decide) hP)) | apply onlyM_foldl | apply onlyO_next
    | (refine onlyM_upd ?_ (fun p hp => by have hl := lacks (within_trans (by decide : Nat.land 0x400000000000 0x100c00000020500 = 0x400000000000) hP) hp; revert hl; clear hp; cases p <;> first | exact fun h => absurd h (by decide) | with_unfolding_all exact fun _ => rfl))
    | intro _ | (dsimp only)

theorem only_execRdS {P : Nat} {z : State} {agent win line : Nat} {s : State} (h_s : OnlyM P z s) (hP : Nat.land 0x100c00000020500 P = 0x100c00000020500) : OnlyO P z (execRdS agent win line s) := by
  unfold execRdS
  with_reducible
  repeat' first
    | assumption | exact OnlyM.refl _ _ | split | (refine only_poolRead ?_ (within_trans (by decide) hP))
    | apply onlyM_foldl | apply onlyO_next | intro _ | (dsimp only)

theorem only_execRdX {P : Nat} {z : State} {agent win line : Nat} {s : State} (h_s : OnlyM P z s) (hP : Nat.land 0x100c00000020500 P = 0x100c00000020500) : OnlyO P z (execRdX agent win line s) := by
  unfold execRdX
  with_reducible
  repeat' first
    | assumption | exact OnlyM.refl _ _ | split | (refine only_poolRead ?_ (within_trans (by decide) hP))
    | apply onlyM_foldl | apply onlyO_next | intro _ | (dsimp only)

theorem only_plainWrite {P : Nat} {z : State} {s : State} {a win line : Nat} {d : BitVec 512} (h_s : OnlyM P z s) (hP : Nat.land 0x100c00000020400 P = 0x100c00000020400) : OnlyM P z (State.plainWrite s a win line d) := by
  unfold State.plainWrite
  with_reducible
  repeat' first
    | assumption | exact OnlyM.refl _ _ | split | (refine only_agentFail ?_ (within_trans (by decide) hP))
    | (refine only_wakeDom ?_ (within_trans (by decide) hP)) | (refine only_issue ?_ (within_trans (by decide) hP))
    | (refine only_pushLoss ?_ (within_trans (by decide) hP)) | (refine only_tell ?_ (within_trans (by decide) hP))
    | apply onlyM_foldl | apply onlyO_next | intro _ | (dsimp only)

theorem only_execWb {P : Nat} {z : State} {agent win line : Nat} {data : BitVec 512} {s : State} (h_s : OnlyM P z s) (hP : Nat.land 0x100c00000020500 P = 0x100c00000020500) : OnlyO P z (execWb agent win line data s) := by
  unfold execWb
  with_reducible
  repeat' first
    | assumption | exact OnlyM.refl _ _ | split | (refine only_plainWrite ?_ (within_trans (by decide) hP))
    | (refine only_modEntry ?_ (within_trans (by decide) hP))
    | (refine only_tracePool ?_ (within_trans (by decide) hP))
    | (refine only_startWrite ?_ (within_trans (by decide) hP))
    | (refine only_release ?_ (within_trans (by decide) hP)) | apply onlyM_foldl | apply onlyO_next | intro _
    | (dsimp only)

theorem only_execEvc {P : Nat} {z : State} {agent win line : Nat} {s : State} (h_s : OnlyM P z s) (hP : Nat.land 0x100c00000000000 P = 0x100c00000000000) : OnlyO P z (execEvc agent win line s) := by
  unfold execEvc
  with_reducible
  repeat' first
    | assumption | exact OnlyM.refl _ _ | split | (refine only_setCached ?_ (within_trans (by decide) hP))
    | (refine only_modEntry ?_ (within_trans (by decide) hP))
    | (refine only_tracePool ?_ (within_trans (by decide) hP))
    | (refine only_serveLine ?_ (within_trans (by decide) hP)) | apply onlyM_foldl | apply onlyO_next | intro _
    | (dsimp only)

theorem only_takeDir {P : Nat} {z s t : State} {a : Nat} {q : DirMsg → Bool} {v : Nat × Nat × DirMsg} (h_s : OnlyM P z s)
    (hP : Nat.land 0x400000000000 P = 0x400000000000) (e : State.takeDir s a q = some (v, t)) : OnlyM P z t := by
  unfold State.takeDir at e
  split at e
  · cases e
    refine onlyM_upd h_s (fun p hp => ?_)
    have hl := lacks hP hp
    revert hl
    clear hp
    cases p <;> first | exact fun h => absurd h (by decide) | exact fun _ => rfl
  · cases e

theorem only_install {P : Nat} {z : State} {s : State} {a win line : Nat} {d : BitVec 512} {dirty excl : Bool} (h_s : OnlyM P z s) (hP : Nat.land 0x400000000000 P = 0x400000000000) : OnlyM P z (State.install s a win line d dirty excl) := by
  unfold State.install
  with_reducible
  repeat' first
    | assumption | exact OnlyM.refl _ _ | split | (refine only_setCached ?_ (within_trans (by decide) hP))
    | apply onlyM_foldl | apply onlyO_next | intro _ | (dsimp only)

theorem only_execGrantS {P : Nat} {z : State} {agent : Nat} {s : State} (h_s : OnlyM P z s) (hP : Nat.land 0x400000000000 P = 0x400000000000) : OnlyO P z (execGrantS agent s) := by
  unfold execGrantS
  with_reducible
  repeat' first
    | assumption | exact OnlyM.refl _ _ | split
    | (refine only_takeDir ?_ (within_trans (by decide) hP) (by assumption))
    | (refine only_install ?_ (within_trans (by decide) hP)) | apply onlyM_foldl | apply onlyO_next | intro _
    | (dsimp only)

theorem only_execGrantX {P : Nat} {z : State} {agent : Nat} {store : Option (BitVec 512)} {s : State} (h_s : OnlyM P z s) (hP : Nat.land 0x400000000000 P = 0x400000000000) : OnlyO P z (execGrantX agent store s) := by
  unfold execGrantX
  with_reducible
  repeat' first
    | assumption | exact OnlyM.refl _ _ | split
    | (refine only_takeDir ?_ (within_trans (by decide) hP) (by assumption))
    | (refine only_install ?_ (within_trans (by decide) hP)) | apply onlyM_foldl | apply onlyO_next | intro _
    | (dsimp only)

theorem only_execWbDone {P : Nat} {z : State} {agent : Nat} {s : State} (h_s : OnlyM P z s) (hP : Nat.land 0x400000000000 P = 0x400000000000) : OnlyO P z (execWbDone agent s) := by
  unfold execWbDone
  with_reducible
  repeat' first
    | assumption | exact OnlyM.refl _ _ | split
    | (refine only_takeDir ?_ (within_trans (by decide) hP) (by assumption))
    | (refine only_setCached ?_ (within_trans (by decide) hP)) | apply onlyM_foldl | apply onlyO_next | intro _
    | (dsimp only)

theorem only_sendAck {P : Nat} {z : State} {s : State} {a win line : Nat} (h_s : OnlyM P z s) (hP : Nat.land 0x400000000000 P = 0x400000000000) : OnlyM P z (State.sendAck s a win line) := by
  unfold State.sendAck
  with_reducible
  repeat' first
    | assumption | exact OnlyM.refl _ _ | split | (refine only_setCached ?_ (within_trans (by decide) hP))
    | apply onlyM_foldl | apply onlyO_next
    | (refine onlyM_upd ?_ (fun p hp => by have hl := lacks (within_trans (by decide : Nat.land 0x400000000000 0x400000000000 = 0x400000000000) hP) hp; revert hl; clear hp; cases p <;> first | exact fun h => absurd h (by decide) | with_unfolding_all exact fun _ => rfl))
    | intro _ | (dsimp only)

theorem only_execRecall {P : Nat} {z : State} {agent : Nat} {s : State} (h_s : OnlyM P z s) (hP : Nat.land 0x400000000000 P = 0x400000000000) : OnlyO P z (execRecall agent s) := by
  unfold execRecall
  with_reducible
  repeat' first
    | assumption | exact OnlyM.refl _ _ | split
    | (refine only_takeDir ?_ (within_trans (by decide) hP) (by assumption))
    | (refine only_sendAck ?_ (within_trans (by decide) hP)) | apply onlyM_foldl | apply onlyO_next | intro _
    | (dsimp only)

theorem only_execInv {P : Nat} {z : State} {agent : Nat} {s : State} (h_s : OnlyM P z s) (hP : Nat.land 0x400000000000 P = 0x400000000000) : OnlyO P z (execInv agent s) := by
  unfold execInv
  with_reducible
  repeat' first
    | assumption | exact OnlyM.refl _ _ | split
    | (refine only_takeDir ?_ (within_trans (by decide) hP) (by assumption))
    | (refine only_sendAck ?_ (within_trans (by decide) hP)) | apply onlyM_foldl | apply onlyO_next | intro _
    | (dsimp only)

theorem only_ackIn {P : Nat} {z : State} {s : State} {a key : Nat} {d : Option (BitVec 512)} (h_s : OnlyM P z s) (hP : Nat.land 0x100c00000000100 P = 0x100c00000000100) : OnlyM P z (State.ackIn s a key d) := by
  unfold State.ackIn
  with_reducible
  repeat' first
    | assumption | exact OnlyM.refl _ _ | split | (refine only_modEntry ?_ (within_trans (by decide) hP))
    | (refine only_answered ?_ (within_trans (by decide) hP)) | (refine only_release ?_ (within_trans (by decide) hP))
    | apply onlyM_foldl | apply onlyO_next | intro _ | (dsimp only)

theorem only_execAck {P : Nat} {z : State} {s : State} (h_s : OnlyM P z s) (hP : Nat.land 0x100c00000000100 P = 0x100c00000000100) : OnlyO P z (execAck s) := by
  unfold execAck
  with_reducible
  repeat' first
    | assumption | exact OnlyM.refl _ _ | split | (refine only_tracePool ?_ (within_trans (by decide) hP))
    | (refine only_ackIn ?_ (within_trans (by decide) hP)) | apply onlyM_foldl | apply onlyO_next
    | (refine onlyM_upd ?_ (fun p hp => by have hl := lacks (within_trans (by decide : Nat.land 0x400000000000 0x100c00000000100 = 0x400000000000) hP) hp; revert hl; clear hp; cases p <;> first | exact fun h => absurd h (by decide) | with_unfolding_all exact fun _ => rfl))
    | intro _ | (dsimp only)

theorem only_execBisnp {P : Nat} {z : State} {win line kind : Nat} {conflict : Bool} {s : State} (h_s : OnlyM P z s) (hP : Nat.land 0x100c00000020400 P = 0x100c00000020400) : OnlyO P z (execBisnp win line kind conflict s) := by
  unfold execBisnp
  with_reducible
  repeat' first
    | assumption | exact OnlyM.refl _ _ | split | (refine only_wakeDom ?_ (within_trans (by decide) hP))
    | (refine only_tracePool ?_ (within_trans (by decide) hP)) | (refine only_answer ?_ (within_trans (by decide) hP))
    | (refine only_modEntry ?_ (within_trans (by decide) hP))
    | (refine only_serveLine ?_ (within_trans (by decide) hP)) | apply onlyM_foldl | apply onlyO_next
    | (refine onlyM_upd ?_ (fun p hp => by have hl := lacks (within_trans (by decide : Nat.land 0x400000000000 0x100c00000020400 = 0x400000000000) hP) hp; revert hl; clear hp; cases p <;> first | exact fun h => absurd h (by decide) | with_unfolding_all exact fun _ => rfl))
    | intro _ | (dsimp only)

theorem only_flushWin {P : Nat} {z : State} {s : State} {win : Nat} (h_s : OnlyM P z s) (hP : Nat.land 0x100c00000000000 P = 0x100c00000000000) : OnlyM P z (State.flushWin s win) := by
  unfold State.flushWin
  with_reducible
  repeat' first
    | assumption | exact OnlyM.refl _ _ | split | (refine only_modEntry ?_ (within_trans (by decide) hP))
    | (refine only_serveLine ?_ (within_trans (by decide) hP)) | apply onlyM_foldl | apply onlyO_next | intro _
    | (dsimp only)

theorem only_putOp {P : Nat} {z : State} {s : State} {o o1 : PoolOp} (h_s : OnlyM P z s) (hP : Nat.land 0x400000000000 P = 0x400000000000) : OnlyM P z (State.putOp s o o1) := by
  unfold State.putOp
  with_reducible
  repeat' first
    | assumption | exact OnlyM.refl _ _ | split | apply onlyM_foldl | apply onlyO_next
    | (refine onlyM_upd ?_ (fun p hp => by have hl := lacks (within_trans (by decide : Nat.land 0x400000000000 0x400000000000 = 0x400000000000) hP) hp; revert hl; clear hp; cases p <;> first | exact fun h => absurd h (by decide) | with_unfolding_all exact fun _ => rfl))
    | intro _ | (dsimp only)

theorem only_opDone {P : Nat} {z : State} {s : State} {o : PoolOp} (h_s : OnlyM P z s) (hP : Nat.land 0x100c00000000100 P = 0x100c00000000100) : OnlyM P z (State.opDone s o) := by
  unfold State.opDone
  with_reducible
  repeat' first
    | assumption | exact OnlyM.refl _ _ | split | (refine only_grant ?_ (within_trans (by decide) hP))
    | (refine only_release ?_ (within_trans (by decide) hP)) | (refine only_written ?_ (within_trans (by decide) hP))
    | (refine only_tell ?_ (within_trans (by decide) hP)) | apply onlyM_foldl | apply onlyO_next
    | (refine onlyM_upd ?_ (fun p hp => by have hl := lacks (within_trans (by decide : Nat.land 0x400000000000 0x100c00000000100 = 0x400000000000) hP) hp; revert hl; clear hp; cases p <;> first | exact fun h => absurd h (by decide) | with_unfolding_all exact fun _ => rfl))
    | intro _ | (dsimp only)

theorem only_execPoolReadComplete {P : Nat} {z : State} {win line : Nat} {data : BitVec 512} {s : State} (h_s : OnlyM P z s) (hP : Nat.land 0x100c00000000100 P = 0x100c00000000100) : OnlyO P z (execPoolReadComplete win line data s) := by
  unfold execPoolReadComplete
  with_reducible
  repeat' first
    | assumption | exact OnlyM.refl _ _ | split | (refine only_putOp ?_ (within_trans (by decide) hP))
    | (refine only_opDone ?_ (within_trans (by decide) hP)) | apply onlyM_foldl | apply onlyO_next | intro _
    | (dsimp only)

theorem only_execPoolWriteComplete {P : Nat} {z : State} {win line : Nat} {s : State} (h_s : OnlyM P z s) (hP : Nat.land 0x100c00000000100 P = 0x100c00000000100) : OnlyO P z (execPoolWriteComplete win line s) := by
  unfold execPoolWriteComplete
  with_reducible
  repeat' first
    | assumption | exact OnlyM.refl _ _ | split | (refine only_putOp ?_ (within_trans (by decide) hP))
    | (refine only_opDone ?_ (within_trans (by decide) hP)) | apply onlyM_foldl | apply onlyO_next | intro _
    | (dsimp only)

theorem only_poolLinkDown {P : Nat} {z : State} {s : State} (h_s : OnlyM P z s) (hP : Nat.land 0x100c00000000100 P = 0x100c00000000100) : OnlyM P z (State.poolLinkDown s) := by
  unfold State.poolLinkDown
  with_reducible
  repeat' first
    | assumption | exact OnlyM.refl _ _ | split | (refine only_agentFail ?_ (within_trans (by decide) hP))
    | (refine only_modEntry ?_ (within_trans (by decide) hP)) | (refine only_release ?_ (within_trans (by decide) hP))
    | apply onlyM_foldl | apply onlyO_next
    | (refine onlyM_upd ?_ (fun p hp => by have hl := lacks (within_trans (by decide : Nat.land 0x400000000000 0x100c00000000100 = 0x400000000000) hP) hp; revert hl; clear hp; cases p <;> first | exact fun h => absurd h (by decide) | with_unfolding_all exact fun _ => rfl))
    | intro _ | (dsimp only)

theorem only_execDirtyLineHoldExpiry {P : Nat} {z : State} {s : State} (h_s : OnlyM P z s) (hP : Nat.land 0x100c00000000100 P = 0x100c00000000100) : OnlyO P z (execDirtyLineHoldExpiry s) := by
  unfold execDirtyLineHoldExpiry
  with_reducible
  repeat' first
    | assumption | exact OnlyM.refl _ _ | split | (refine only_pushLoss ?_ (within_trans (by decide) hP))
    | (refine only_setCached ?_ (within_trans (by decide) hP))
    | (refine only_modEntry ?_ (within_trans (by decide) hP)) | (refine only_opDone ?_ (within_trans (by decide) hP))
    | apply onlyM_foldl | apply onlyO_next | intro _ | (dsimp only)

theorem only_agentLost {P : Nat} {z : State} {s : State} {a : Nat} (h_s : OnlyM P z s) (hP : Nat.land 0x100c00000000100 P = 0x100c00000000100) : OnlyM P z (State.agentLost s a) := by
  unfold State.agentLost
  with_reducible
  repeat' first
    | assumption | exact OnlyM.refl _ _ | split | (refine only_pushLoss ?_ (within_trans (by decide) hP))
    | (refine only_ackIn ?_ (within_trans (by decide) hP)) | (refine only_release ?_ (within_trans (by decide) hP))
    | apply onlyM_foldl | apply onlyO_next
    | (refine onlyM_upd ?_ (fun p hp => by have hl := lacks (within_trans (by decide : Nat.land 0x400000000000 0x100c00000000100 = 0x400000000000) hP) hp; revert hl; clear hp; cases p <;> first | exact fun h => absurd h (by decide) | with_unfolding_all exact fun _ => rfl))
    | intro _ | (dsimp only)

theorem only_poolDrain {P : Nat} {z : State} {s : State} (h_s : OnlyM P z s) (hP : Nat.land 0xc00000000000 P = 0xc00000000000) : OnlyM P z (State.poolDrain s) := by
  unfold State.poolDrain
  with_reducible
  repeat' first
    | assumption | exact OnlyM.refl _ _ | split | (refine only_pushLoss ?_ (within_trans (by decide) hP))
    | (refine only_agentFail ?_ (within_trans (by decide) hP)) | apply onlyM_foldl | apply onlyO_next
    | (refine onlyM_upd ?_ (fun p hp => by have hl := lacks (within_trans (by decide : Nat.land 0x400000000000 0xc00000000000 = 0x400000000000) hP) hp; revert hl; clear hp; cases p <;> first | exact fun h => absurd h (by decide) | with_unfolding_all exact fun _ => rfl))
    | intro _ | (dsimp only)

end Sys2Proof.Machine
end

