-- ==== Sys2Proof/Laws/FrameBulk.lean ====
section
/-! SUPPORT. The frame of every operation of Machine/Bulk.lean: the parts that it may change. -/

set_option linter.unusedTactic false
set_option linter.unreachableTactic false
set_option linter.unusedVariables false

namespace Sys2Proof.Machine

open Sys2Proof

theorem only_bulkFail {P : Nat} {z : State} {s : State} {item : LossItem} (h_s : OnlyM P z s) (hP : Nat.land 0xc00000000000 P = 0xc00000000000) : OnlyM P z (State.bulkFail s item) := by
  unfold State.bulkFail
  with_reducible
  repeat' first
    | assumption | exact OnlyM.refl _ _ | split | (refine only_pushLoss ?_ (within_trans (by decide) hP))
    | apply onlyM_foldl | apply onlyO_next
    | (refine onlyM_upd ?_ (fun p hp => by have hl := lacks (within_trans (by decide : Nat.land 0x400000000000 0xc00000000000 = 0x400000000000) hP) hp; revert hl; clear hp; cases p <;> first | exact fun h => absurd h (by decide) | with_unfolding_all exact fun _ => rfl))
    | intro _ | (dsimp only)

theorem only_setMem {P : Nat} {z s : State} {m : Memory} (h_s : OnlyM P z s)
    (hP : Nat.land (2 ^ Part.mem.idx) P = 2 ^ Part.mem.idx) : OnlyM P z { s with mem := m } := by
  refine onlyM_upd h_s (fun p hp => ?_)
  have hl := lacks hP hp
  revert hl
  clear hp
  cases p <;> first | exact fun h => absurd h (by decide) | exact fun _ => rfl

theorem only_bulkWrite {P : Nat} {z s : State} {who : Nat} {w0 w1 w2 : DWord} {r : Code × BitVec 512} {i t : Nat}
    (h_s : OnlyM P z s) (hP : Nat.land 0xc00000020404 P = 0xc00000020404) : OnlyM P z (State.bulkWrite s who w0 w1 w2 r i t) := by
  unfold State.bulkWrite
  dsimp only
  split
  · exact only_bulkFail h_s (within_trans (by decide) hP)
  · split
    · exact only_bulkFail h_s (within_trans (by decide) hP)
    · exact only_setMem (only_wakeBank (only_wakeTile h_s (within_trans (by decide) hP)) (within_trans (by decide) hP))
        (within_trans (by decide) hP)

theorem only_bulkLine {P : Nat} {z : State} {s : State} {who : Nat} {w0 w1 w2 : DWord} {ext : List (Option (BitVec 512))} {i : Nat} (h_s : OnlyM P z s) (hP : Nat.land 0xc00000020404 P = 0xc00000020404) : OnlyM P z (State.bulkLine s who w0 w1 w2 ext i) := by
  unfold State.bulkLine
  with_reducible
  repeat' first
    | assumption | exact OnlyM.refl _ _ | split | (refine only_bulkWrite ?_ (within_trans (by decide) hP))
    | apply onlyM_foldl | apply onlyO_next | intro _ | (dsimp only)

theorem only_bulkLines {P : Nat} {z : State} {s : State} {who : Nat} {w0 w1 w2 : DWord} {ext : List (Option (BitVec 512))} (h_s : OnlyM P z s) (hP : Nat.land 0xc00000020404 P = 0xc00000020404) : OnlyM P z (State.bulkLines s who w0 w1 w2 ext) := by
  unfold State.bulkLines
  with_reducible
  repeat' first
    | assumption | exact OnlyM.refl _ _ | split | (refine only_bulkLine ?_ (within_trans (by decide) hP))
    | apply onlyM_foldl | apply onlyO_next | intro _ | (dsimp only)

theorem only_execBulkTransfer {P : Nat} {z : State} {who : Nat} {w0 w1 w2 w3 : DWord} {ext : List (Option (BitVec 512))} {s : State} (h_s : OnlyM P z s) (hP : Nat.land 0xc00000020404 P = 0xc00000020404) : OnlyO P z (execBulkTransfer who w0 w1 w2 w3 ext s) := by
  unfold execBulkTransfer
  with_reducible
  repeat' first
    | assumption | exact OnlyM.refl _ _ | split | (refine only_bulkLines ?_ (within_trans (by decide) hP))
    | apply onlyM_foldl | apply onlyO_next
    | (refine onlyM_upd ?_ (fun p hp => by have hl := lacks (within_trans (by decide : Nat.land 0x400000000000 0xc00000020404 = 0x400000000000) hP) hp; revert hl; clear hp; cases p <;> first | exact fun h => absurd h (by decide) | with_unfolding_all exact fun _ => rfl))
    | intro _ | (dsimp only)

theorem only_execBulkComplete {P : Nat} {z : State} {s : State} (h_s : OnlyM P z s) (hP : Nat.land 0x100c00501000000 P = 0x100c00501000000) : OnlyO P z (execBulkComplete s) := by
  unfold execBulkComplete
  with_reducible
  repeat' first
    | assumption | exact OnlyM.refl _ _ | split | (refine only_internalAdd ?_ (within_trans (by decide) hP))
    | apply onlyM_foldl | apply onlyO_next
    | (refine onlyM_upd ?_ (fun p hp => by have hl := lacks (within_trans (by decide : Nat.land 0x400000000000 0x100c00501000000 = 0x400000000000) hP) hp; revert hl; clear hp; cases p <;> first | exact fun h => absurd h (by decide) | with_unfolding_all exact fun _ => rfl))
    | intro _ | (dsimp only)

end Sys2Proof.Machine
end

