-- ==== Sys2Proof/Laws/FrameConsol.lean ====
section
/-! SUPPORT. The frame of every operation of Machine/Consol.lean: the parts that it may change. -/

set_option linter.unusedTactic false
set_option linter.unreachableTactic false
set_option linter.unusedVariables false

namespace Sys2Proof.Machine

open Sys2Proof

theorem only_sendChain {P : Nat} {z : State} {s : State} {t u : Nat} {mk : Nat → MailBody} (h_s : OnlyM P z s) (hP : Nat.land 0xa00000000008 P = 0xa00000000008) : OnlyM P z (State.sendChain s t u mk) := by
  unfold State.sendChain
  with_reducible
  repeat' first
    | assumption | exact OnlyM.refl _ _ | split | (refine only_modTile ?_ (within_trans (by decide) hP))
    | (refine only_post ?_ (within_trans (by decide) hP)) | (refine only_pushLoss ?_ (within_trans (by decide) hP))
    | apply onlyM_foldl | apply onlyO_next | intro _ | (dsimp only)

theorem only_ackChain {P : Nat} {z : State} {s : State} {t from_ seq : Nat} (h_s : OnlyM P z s) (hP : Nat.land 0x200000000000 P = 0x200000000000) : OnlyM P z (State.ackChain s t from_ seq) := by
  unfold State.ackChain
  with_reducible
  repeat' first
    | assumption | exact OnlyM.refl _ _ | split | (refine only_post ?_ (within_trans (by decide) hP))
    | apply onlyM_foldl | apply onlyO_next | intro _ | (dsimp only)

theorem only_psumEntry {P : Nat} {z : State} {s : State} {t from_ : Nat} {e : Nat × Nat × Nat × Int} (h_s : OnlyM P z s) (hP : Nat.land 0x400800800000008 P = 0x400800800000008) : OnlyM P z (State.psumEntry s t from_ e) := by
  unfold State.psumEntry
  with_reducible
  repeat' first
    | assumption | exact OnlyM.refl _ _ | split | (refine only_pushLoss ?_ (within_trans (by decide) hP))
    | (refine only_contribute ?_ (within_trans (by decide) hP)) | apply onlyM_foldl | apply onlyO_next | intro _
    | (dsimp only)

theorem only_execPsum {P : Nat} {z : State} {t : Nat} {s : State} (h_s : OnlyM P z s) (hP : Nat.land 0x400a00800000008 P = 0x400a00800000008) : OnlyO P z (execPsum t s) := by
  unfold execPsum
  with_reducible
  repeat' first
    | assumption | exact OnlyM.refl _ _ | split
    | (refine only_takeMail ?_ (within_trans (by decide) hP) (by assumption))
    | (refine only_psumEntry ?_ (within_trans (by decide) hP))
    | (refine only_ackChain ?_ (within_trans (by decide) hP)) | apply onlyM_foldl | apply onlyO_next | intro _
    | (dsimp only)

theorem only_execChainAck {P : Nat} {z : State} {t : Nat} {s : State} (h_s : OnlyM P z s) (hP : Nat.land 0x200000000008 P = 0x200000000008) : OnlyO P z (execChainAck t s) := by
  unfold execChainAck
  with_reducible
  repeat' first
    | assumption | exact OnlyM.refl _ _ | split
    | (refine only_takeMail ?_ (within_trans (by decide) hP) (by assumption))
    | (refine only_modTile ?_ (within_trans (by decide) hP)) | apply onlyM_foldl | apply onlyO_next | intro _
    | (dsimp only)

theorem only_foldAll {P : Nat} {z : State} {s : State} {t : Nat} (h_s : OnlyM P z s) (hP : Nat.land 0x4 P = 0x4) : OnlyM P z (State.foldAll s t) := by
  unfold State.foldAll
  with_reducible
  repeat' first
    | assumption | exact OnlyM.refl _ _ | split | (refine only_foldWord ?_ (within_trans (by decide) hP))
    | apply onlyM_foldl | apply onlyO_next | intro _ | (dsimp only)

theorem only_consolUnit {P : Nat} {z : State} {s : State} {t row l u : Nat} {from_ : List (List Word)} (h_s : OnlyM P z s) (hP : Nat.land 0x10c80010102050c P = 0x10c80010102050c) : OnlyM P z (State.consolUnit s t row l u from_) := by
  unfold State.consolUnit
  with_reducible
  repeat' first
    | assumption | exact OnlyM.refl _ _ | split | (refine only_unitLost ?_ (within_trans (by decide) hP))
    | (refine only_consolWord ?_ (within_trans (by decide) hP)) | apply onlyM_foldl | apply onlyO_next | intro _
    | (dsimp only)

theorem only_pointAdds {P : Nat} {z : State} {s : State} {t : Nat} (h_s : OnlyM P z s) (hP : Nat.land 0x10008000000 P = 0x10008000000) : OnlyM P z (State.pointAdds s t) := by
  unfold State.pointAdds
  with_reducible
  repeat' first
    | assumption | exact OnlyM.refl _ _ | split | (refine only_fromRoot ?_ (within_trans (by decide) hP))
    | apply onlyM_foldl | apply onlyO_next | intro _ | (dsimp only)

theorem only_pointDone {P : Nat} {z : State} {s : State} {t : Nat} (h_s : OnlyM P z s) (hP : Nat.land 0x50c9f093902052c P = 0x50c9f093902052c) : OnlyM P z (State.pointDone s t) := by
  unfold State.pointDone
  with_reducible
  repeat' first
    | assumption | exact OnlyM.refl _ _ | split | (refine only_pointAdds ?_ (within_trans (by decide) hP))
    | (refine only_modTile ?_ (within_trans (by decide) hP)) | (refine only_settle ?_ (within_trans (by decide) hP))
    | apply onlyM_foldl | apply onlyO_next | intro _ | (dsimp only)

theorem only_pointRecord {P : Nat} {z : State} {s : State} {t n contributed worlds clamped changed : Nat} (h_s : OnlyM P z s) (hP : Nat.land 0x100800101000000 P = 0x100800101000000) : OnlyM P z (State.pointRecord s t n contributed worlds clamped changed) := by
  unfold State.pointRecord
  with_reducible
  repeat' first
    | assumption | exact OnlyM.refl _ _ | split | (refine only_postRecord ?_ (within_trans (by decide) hP))
    | apply onlyM_foldl | apply onlyO_next | intro _ | (dsimp only)

theorem only_memberMissing {P : Nat} {z : State} {s : State} {t m : Nat} (h_s : OnlyM P z s) (hP : Nat.land 0x800800000000 P = 0x800800000000) : OnlyM P z (State.memberMissing s t m) := by
  unfold State.memberMissing
  with_reducible
  repeat' first
    | assumption | exact OnlyM.refl _ _ | split | (refine only_pushLoss ?_ (within_trans (by decide) hP))
    | (refine only_modTurn ?_ (within_trans (by decide) hP)) | apply onlyM_foldl | apply onlyO_next | intro _
    | (dsimp only)

theorem only_homeFinish {P : Nat} {z : State} {s : State} {t n : Nat} (h_s : OnlyM P z s) (hP : Nat.land 0x50cbf293902052c P = 0x50cbf293902052c) : OnlyM P z (State.homeFinish s t n) := by
  unfold State.homeFinish
  with_reducible
  repeat' first
    | assumption | exact OnlyM.refl _ _ | split | (refine only_memberMissing ?_ (within_trans (by decide) hP))
    | (refine only_consolUnit ?_ (within_trans (by decide) hP))
    | (refine only_sendChain ?_ (within_trans (by decide) hP))
    | (refine only_pointRecord ?_ (within_trans (by decide) hP))
    | (refine only_pointDone ?_ (within_trans (by decide) hP)) | apply onlyM_foldl | apply onlyO_next
    | (refine onlyM_upd ?_ (fun p hp => by have hl := lacks (within_trans (by decide : Nat.land 0x2000000000 0x50cbf293902052c = 0x2000000000) hP) hp; revert hl; clear hp; cases p <;> first | exact fun h => absurd h (by decide) | with_unfolding_all exact fun _ => rfl))
    | intro _ | (dsimp only)

theorem only_homeTry {P : Nat} {z : State} {s : State} {t : Nat} (h_s : OnlyM P z s) (hP : Nat.land 0x50cbf293902052c P = 0x50cbf293902052c) : OnlyM P z (State.homeTry s t) := by
  unfold State.homeTry
  with_reducible
  repeat' first
    | assumption | exact OnlyM.refl _ _ | split | (refine only_homeFinish ?_ (within_trans (by decide) hP))
    | apply onlyM_foldl | apply onlyO_next | intro _ | (dsimp only)

theorem only_memberSend {P : Nat} {z : State} {s : State} {t : Nat} (h_s : OnlyM P z s) (hP : Nat.land 0xa0000000000c P = 0xa0000000000c) : OnlyM P z (State.memberSend s t) := by
  unfold State.memberSend
  with_reducible
  repeat' first
    | assumption | exact OnlyM.refl _ _ | split | (refine only_sendChain ?_ (within_trans (by decide) hP))
    | (refine only_colWrite ?_ (within_trans (by decide) hP)) | apply onlyM_foldl | apply onlyO_next | intro _
    | (dsimp only)

theorem only_memberTry {P : Nat} {z : State} {s : State} {t : Nat} (h_s : OnlyM P z s) (hP : Nat.land 0x50c9f093902052c P = 0x50c9f093902052c) : OnlyM P z (State.memberTry s t) := by
  unfold State.memberTry
  with_reducible
  repeat' first
    | assumption | exact OnlyM.refl _ _ | split | (refine only_pointDone ?_ (within_trans (by decide) hP))
    | apply onlyM_foldl | apply onlyO_next | intro _ | (dsimp only)

theorem only_beginPoint {P : Nat} {z : State} {s : State} {t : Nat} (h_s : OnlyM P z s) (hP : Nat.land 0x50cbf293902052c P = 0x50cbf293902052c) : OnlyM P z (State.beginPoint s t) := by
  unfold State.beginPoint
  with_reducible
  repeat' first
    | assumption | exact OnlyM.refl _ _ | split | (refine only_foldAll ?_ (within_trans (by decide) hP))
    | (refine only_modTile ?_ (within_trans (by decide) hP))
    | (refine only_consolUnit ?_ (within_trans (by decide) hP))
    | (refine only_homeTry ?_ (within_trans (by decide) hP))
    | (refine only_memberSend ?_ (within_trans (by decide) hP))
    | (refine only_memberTry ?_ (within_trans (by decide) hP)) | apply onlyM_foldl | apply onlyO_next | intro _
    | (dsimp only)

theorem only_learnWake {P : Nat} {z : State} {s : State} {t : Nat} (h_s : OnlyM P z s) (hP : Nat.land 0x20400 P = 0x20400) : OnlyM P z (State.learnWake s t) := by
  unfold State.learnWake
  with_reducible
  repeat' first
    | assumption | exact OnlyM.refl _ _ | split | (refine only_wakeTile ?_ (within_trans (by decide) hP))
    | (refine only_wakeDom ?_ (within_trans (by decide) hP)) | apply onlyM_foldl | apply onlyO_next | intro _
    | (dsimp only)

theorem only_point {P : Nat} {z : State} {s : State} {t : Nat} (h_s : OnlyM P z s) (hP : Nat.land 0x50cbf293902052c P = 0x50cbf293902052c) : OnlyM P z (State.point s t) := by
  unfold State.point
  with_reducible
  repeat' first
    | assumption | exact OnlyM.refl _ _ | split | (refine only_homeTry ?_ (within_trans (by decide) hP))
    | (refine only_memberTry ?_ (within_trans (by decide) hP))
    | (refine only_learnWake ?_ (within_trans (by decide) hP))
    | (refine only_beginPoint ?_ (within_trans (by decide) hP)) | apply onlyM_foldl | apply onlyO_next | intro _
    | (dsimp only)

theorem only_execConsolidationPoint {P : Nat} {z : State} {t : Nat} {s : State} (h_s : OnlyM P z s) (hP : Nat.land 0x50cbf293902052c P = 0x50cbf293902052c) : OnlyO P z (execConsolidationPoint t s) := by
  unfold execConsolidationPoint
  with_reducible
  repeat' first
    | assumption | exact OnlyM.refl _ _ | split | (refine only_point ?_ (within_trans (by decide) hP))
    | apply onlyM_foldl | apply onlyO_next | intro _ | (dsimp only)

theorem only_execLacc {P : Nat} {z : State} {t : Nat} {s : State} (h_s : OnlyM P z s) (hP : Nat.land 0x50cbf293902052c P = 0x50cbf293902052c) : OnlyO P z (execLacc t s) := by
  unfold execLacc
  with_reducible
  repeat' first
    | assumption | exact OnlyM.refl _ _ | split
    | (refine only_takeMail ?_ (within_trans (by decide) hP) (by assumption))
    | (refine only_modTile ?_ (within_trans (by decide) hP)) | (refine only_ackChain ?_ (within_trans (by decide) hP))
    | (refine only_homeTry ?_ (within_trans (by decide) hP)) | apply onlyM_foldl | apply onlyO_next | intro _
    | (dsimp only)

theorem only_execRrow {P : Nat} {z : State} {t : Nat} {s : State} (h_s : OnlyM P z s) (hP : Nat.land 0x50cbf093902052c P = 0x50cbf093902052c) : OnlyO P z (execRrow t s) := by
  unfold execRrow
  with_reducible
  repeat' first
    | assumption | exact OnlyM.refl _ _ | split
    | (refine only_takeMail ?_ (within_trans (by decide) hP) (by assumption))
    | (refine only_rewriteWord ?_ (within_trans (by decide) hP))
    | (refine only_modTile ?_ (within_trans (by decide) hP)) | (refine only_ackChain ?_ (within_trans (by decide) hP))
    | (refine only_memberTry ?_ (within_trans (by decide) hP)) | apply onlyM_foldl | apply onlyO_next | intro _
    | (dsimp only)

end Sys2Proof.Machine
end

