-- ==== Sys2Proof/Laws/FrameSlots.lean ====
section
/-! SUPPORT. The frame of every operation of Machine/Slots.lean: the parts that it may change. -/

set_option linter.unusedTactic false
set_option linter.unreachableTactic false
set_option linter.unusedVariables false

namespace Sys2Proof.Machine

open Sys2Proof

theorem only_enterSlot {P : Nat} {z : State} {s : State} {t : Nat} (h_s : OnlyM P z s) (hP : Nat.land 0x8 P = 0x8) : OnlyM P z (State.enterSlot s t) := by
  unfold State.enterSlot
  with_reducible
  repeat' first
    | assumption | exact OnlyM.refl _ _ | split | (refine only_modTile ?_ (within_trans (by decide) hP))
    | apply onlyM_foldl | apply onlyO_next | intro _ | (dsimp only)

theorem only_nextSlot {P : Nat} {z : State} {s : State} {t : Nat} (h_s : OnlyM P z s) (hP : Nat.land 0x8 P = 0x8) : OnlyM P z (State.nextSlot s t) := by
  unfold State.nextSlot
  with_reducible
  repeat' first
    | assumption | exact OnlyM.refl _ _ | split | (refine only_modTile ?_ (within_trans (by decide) hP))
    | apply onlyM_foldl | apply onlyO_next | intro _ | (dsimp only)

theorem only_slotRun {P : Nat} {z : State} {op t : Nat} {q : State → DWord → Bool} {f : State → DWord → State} {s : State} (h_f : ∀ t0 t1, OnlyM P t0 (f t0 t1)) (h_s : OnlyM P z s) (hP : Nat.land 0x9f0828020408 P = 0x9f0828020408) : OnlyO P z (slotRun op t q f s) := by
  unfold slotRun
  with_reducible
  repeat' first
    | assumption | (refine OnlyM.trans ?_ (h_f ..)) | exact OnlyM.refl _ _ | split
    | (refine only_enterSlot ?_ (within_trans (by decide) hP))
    | (refine only_nextSlot ?_ (within_trans (by decide) hP))
    | (refine only_groupReports ?_ (within_trans (by decide) hP)) | apply onlyM_foldl | apply onlyO_next | intro _
    | (dsimp only)

theorem only_gatherDispatch {P : Nat} {z : State} {s : State} {t : Nat} {e : DWord} (h_s : OnlyM P z s) (hP : Nat.land 0x50c80090102050c P = 0x50c80090102050c) : OnlyM P z (State.gatherDispatch s t e) := by
  unfold State.gatherDispatch
  with_reducible
  repeat' first
    | assumption | exact OnlyM.refl _ _ | split | (refine only_rowPass ?_ (within_trans (by decide) hP))
    | (refine only_macDone ?_ (within_trans (by decide) hP)) | apply onlyM_foldl | apply onlyO_next | intro _
    | (dsimp only)

theorem only_gatherClear {P : Nat} {z : State} {s : State} {t : Nat} {e : DWord} (h_s : OnlyM P z s) (hP : Nat.land 0x8 P = 0x8) : OnlyM P z (State.gatherClear s t e) := by
  unfold State.gatherClear
  with_reducible
  repeat' first
    | assumption | exact OnlyM.refl _ _ | split | (refine only_modTile ?_ (within_trans (by decide) hP))
    | apply onlyM_foldl | apply onlyO_next | intro _ | (dsimp only)

theorem only_execGather {P : Nat} {z : State} {t : Nat} {s : State} (h_s : OnlyM P z s) (hP : Nat.land 0x50c9f092902050c P = 0x50c9f092902050c) : OnlyO P z (execGather t s) := by
  unfold execGather
  with_reducible
  repeat' first
    | assumption | exact OnlyM.refl _ _ | split | (refine only_slotRun ?_ ?_ (within_trans (by decide) hP))
    | (refine only_gatherClear ?_ (within_trans (by decide) hP))
    | (refine only_gatherDispatch ?_ (within_trans (by decide) hP)) | apply onlyM_foldl | apply onlyO_next | intro _
    | (dsimp only)

theorem only_execRunSlot {P : Nat} {z : State} {t : Nat} {s : State} (h_s : OnlyM P z s) (hP : Nat.land 0x50c9f093902052c P = 0x50c9f093902052c) : OnlyO P z (execRunSlot t s) := by
  unfold execRunSlot
  with_reducible
  repeat' first
    | assumption | exact OnlyM.refl _ _ | split | (refine only_slotRun ?_ ?_ (within_trans (by decide) hP))
    | (refine only_beginUpdate ?_ (within_trans (by decide) hP))
    | (refine only_nextRun ?_ (within_trans (by decide) hP)) | apply onlyM_foldl | apply onlyO_next | intro _
    | (dsimp only)

theorem only_execPot {P : Nat} {z : State} {t : Nat} {s : State} (h_s : OnlyM P z s) (hP : Nat.land 0x10c9f092902050c P = 0x10c9f092902050c) : OnlyO P z (execPot t s) := by
  unfold execPot
  with_reducible
  repeat' first
    | assumption | exact OnlyM.refl _ _ | split | (refine only_slotRun ?_ ?_ (within_trans (by decide) hP))
    | (refine only_potentiate ?_ (within_trans (by decide) hP)) | apply onlyM_foldl | apply onlyO_next | intro _
    | (dsimp only)

theorem only_execDep {P : Nat} {z : State} {t : Nat} {s : State} (h_s : OnlyM P z s) (hP : Nat.land 0x10c9f092902050c P = 0x10c9f092902050c) : OnlyO P z (execDep t s) := by
  unfold execDep
  with_reducible
  repeat' first
    | assumption | exact OnlyM.refl _ _ | split | (refine only_slotRun ?_ ?_ (within_trans (by decide) hP))
    | (refine only_macDone ?_ (within_trans (by decide) hP)) | (refine only_depEvent ?_ (within_trans (by decide) hP))
    | apply onlyM_foldl | apply onlyO_next | intro _ | (dsimp only)

theorem only_execEmitSlot {P : Nat} {z : State} {t : Nat} {s : State} (h_s : OnlyM P z s) (hP : Nat.land 0x9f0828020408 P = 0x9f0828020408) : OnlyO P z (execEmitSlot t s) := by
  unfold execEmitSlot
  with_reducible
  repeat' first
    | assumption | exact OnlyM.refl _ _ | split | (refine only_slotRun ?_ ?_ (within_trans (by decide) hP))
    | (refine only_flushOpen ?_ (within_trans (by decide) hP))
    | (refine only_modTile ?_ (within_trans (by decide) hP)) | (refine only_send ?_ (within_trans (by decide) hP))
    | apply onlyM_foldl | apply onlyO_next | intro _ | (dsimp only)

theorem only_scrubAll {P : Nat} {z : State} {s : State} {t : Nat} {ind : Nat} (h_s : OnlyM P z s) (hP : Nat.land 0x10c80010102050c P = 0x10c80010102050c) : OnlyM P z (State.scrubAll s t ind) := by
  induction ind generalizing s t with
  | zero => unfold State.scrubAll; exact h_s
  | succ ind ih =>
    unfold State.scrubAll
    with_reducible
    repeat' first
      | assumption | apply ih | exact OnlyM.refl _ _ | split | (refine only_scrub ?_ (within_trans (by decide) hP))
      | apply onlyM_foldl | apply onlyO_next | intro _ | (dsimp only)

theorem only_sweepAll {P : Nat} {z : State} {s : State} {t : Nat} {ind : Nat} (h_s : OnlyM P z s) (hP : Nat.land 0xa1000800000c P = 0xa1000800000c) : OnlyM P z (State.sweepAll s t ind) := by
  induction ind generalizing s t with
  | zero => unfold State.sweepAll; exact h_s
  | succ ind ih =>
    unfold State.sweepAll
    with_reducible
    repeat' first
      | assumption | apply ih | exact OnlyM.refl _ _ | split
      | (refine only_takeMail ?_ (within_trans (by decide) hP) (by assumption))
      | (refine only_sweep ?_ (within_trans (by decide) hP)) | apply onlyM_foldl | apply onlyO_next | intro _
      | (dsimp only)

theorem only_execQuiet {P : Nat} {z : State} {t : Nat} {s : State} (h_s : OnlyM P z s) (hP : Nat.land 0x10cbf092902050c P = 0x10cbf092902050c) : OnlyO P z (execQuiet t s) := by
  unfold execQuiet
  with_reducible
  repeat' first
    | assumption | exact OnlyM.refl _ _ | split | (refine only_slotRun ?_ ?_ (within_trans (by decide) hP))
    | (refine only_modTile ?_ (within_trans (by decide) hP)) | (refine only_scrubAll ?_ (within_trans (by decide) hP))
    | (refine only_sweepAll ?_ (within_trans (by decide) hP)) | apply onlyM_foldl | apply onlyO_next | intro _
    | (dsimp only)

theorem only_execLearnSlot {P : Nat} {z : State} {t : Nat} {s : State} (h_s : OnlyM P z s) (hP : Nat.land 0x50cbf293902052c P = 0x50cbf293902052c) : OnlyO P z (execLearnSlot t s) := by
  unfold execLearnSlot
  with_reducible
  repeat' first
    | assumption | exact OnlyM.refl _ _ | split | (refine only_enterSlot ?_ (within_trans (by decide) hP))
    | (refine only_point ?_ (within_trans (by decide) hP)) | (refine only_nextSlot ?_ (within_trans (by decide) hP))
    | apply onlyM_foldl | apply onlyO_next | intro _ | (dsimp only)

theorem only_execSlotMark {P : Nat} {z : State} {t : Nat} {s : State} (h_s : OnlyM P z s) (hP : Nat.land 0x820000000008 P = 0x820000000008) : OnlyO P z (execSlotMark t s) := by
  unfold execSlotMark
  with_reducible
  repeat' first
    | assumption | exact OnlyM.refl _ _ | split
    | (refine only_takeInbox ?_ (within_trans (by decide) hP) (by assumption))
    | (refine only_modTile ?_ (within_trans (by decide) hP)) | (refine only_nondetAt ?_ (within_trans (by decide) hP))
    | apply onlyM_foldl | apply onlyO_next
    | (refine onlyM_upd ?_ (fun p hp => by have hl := lacks (within_trans (by decide : Nat.land 0x800000000000 0x820000000008 = 0x800000000000) hP) hp; revert hl; clear hp; cases p <;> first | exact fun h => absurd h (by decide) | with_unfolding_all exact fun _ => rfl))
    | intro _ | (dsimp only)

end Sys2Proof.Machine
end

