-- ==== Sys2Proof/Laws/FrameRegs.lean ====
section
/-! SUPPORT. The frame of every operation of Machine/Regs.lean: the parts that it may change. -/

set_option linter.unusedTactic false
set_option linter.unreachableTactic false
set_option linter.unusedVariables false

namespace Sys2Proof.Machine

open Sys2Proof

theorem only_loLatch {P : Nat} {z : State} {s : State} {m off size : Nat} {hi : Word} (h_s : OnlyM P z s) (hP : Nat.land 0x400000 P = 0x400000) : OnlyM P z (State.loLatch s m off size hi) := by
  unfold State.loLatch
  with_reducible
  repeat' first
    | assumption | exact OnlyM.refl _ _ | split | (refine only_modMaster ?_ (within_trans (by decide) hP))
    | apply onlyM_foldl | apply onlyO_next | intro _ | (dsimp only)

theorem only_cfgSend {P : Nat} {z : State} {s : State} {m t off size : Nat} {c : Ctl} (h_s : OnlyM P z s) (hP : Nat.land 0x809b0008020408 P = 0x809b0008020408) : OnlyM P z (State.cfgSend s m t off size c) := by
  unfold State.cfgSend
  with_reducible
  repeat' first
    | assumption | exact OnlyM.refl _ _ | split | (refine only_toRoot ?_ (within_trans (by decide) hP))
    | apply onlyM_foldl | apply onlyO_next
    | (refine onlyM_upd ?_ (fun p hp => by have hl := lacks (within_trans (by decide : Nat.land 0x80000000000000 0x809b0008020408 = 0x80000000000000) hP) hp; revert hl; clear hp; cases p <;> first | exact fun h => absurd h (by decide) | with_unfolding_all exact fun _ => rfl))
    | intro _ | (dsimp only)

theorem only_barRead {P : Nat} {z : State} {s : State} {m off size : Nat} (h_s : OnlyM P z s) (hP : Nat.land 0x809b0008420408 P = 0x809b0008420408) : OnlyM P z (State.barRead s m off size) := by
  unfold State.barRead
  with_reducible
  repeat' first
    | assumption | exact OnlyM.refl _ _ | split | (refine only_cfgSend ?_ (within_trans (by decide) hP))
    | (refine only_loLatch ?_ (within_trans (by decide) hP)) | (refine only_respond ?_ (within_trans (by decide) hP))
    | apply onlyM_foldl | apply onlyO_next | intro _ | (dsimp only)

theorem only_slotRead {P : Nat} {z : State} {s : State} {m off size : Nat} (h_s : OnlyM P z s) (hP : Nat.land 0x420400 P = 0x420400) : OnlyM P z (State.slotRead s m off size) := by
  unfold State.slotRead
  with_reducible
  repeat' first
    | assumption | exact OnlyM.refl _ _ | split | (refine only_refuse ?_ (within_trans (by decide) hP))
    | (refine only_respond ?_ (within_trans (by decide) hP))
    | (refine only_modMaster ?_ (within_trans (by decide) hP)) | apply onlyM_foldl | apply onlyO_next | intro _
    | (dsimp only)

theorem only_execLoRead {P : Nat} {z : State} {m : Nat} {bar2 : Bool} {off size : Nat} {s : State} (h_s : OnlyM P z s) (hP : Nat.land 0x809b0008420408 P = 0x809b0008420408) : OnlyO P z (execLoRead m bar2 off size s) := by
  unfold execLoRead
  with_reducible
  repeat' first
    | assumption | exact OnlyM.refl _ _ | split | (refine only_slotRead ?_ (within_trans (by decide) hP))
    | (refine only_refuse ?_ (within_trans (by decide) hP)) | (refine only_barRead ?_ (within_trans (by decide) hP))
    | apply onlyM_foldl | apply onlyO_next | intro _ | (dsimp only)

theorem only_execHiRead {P : Nat} {z : State} {m off : Nat} {s : State} (h_s : OnlyM P z s) (hP : Nat.land 0x809b0008420408 P = 0x809b0008420408) : OnlyO P z (execHiRead m off s) := by
  unfold execHiRead
  with_reducible
  repeat' first
    | assumption | exact OnlyM.refl _ _ | split | (refine only_refuse ?_ (within_trans (by decide) hP))
    | (refine only_loLatch ?_ (within_trans (by decide) hP))
    | (refine only_modMaster ?_ (within_trans (by decide) hP))
    | (refine only_respond ?_ (within_trans (by decide) hP)) | (refine only_barRead ?_ (within_trans (by decide) hP))
    | apply onlyM_foldl | apply onlyO_next | intro _ | (dsimp only)

theorem only_regPut {P : Nat} {z : State} {s : State} {m off : Nat} {v : Word} (h_s : OnlyM P z s) (hP : Nat.land 0x80db4009624c08 P = 0x80db4009624c08) : OnlyM P z (State.regPut s m off v) := by
  unfold State.regPut
  with_reducible
  repeat' first
    | assumption | exact OnlyM.refl _ _ | split | (refine only_modMaster ?_ (within_trans (by decide) hP))
    | (refine only_modLd ?_ (within_trans (by decide) hP)) | (refine only_cfgSend ?_ (within_trans (by decide) hP))
    | apply onlyM_foldl | apply onlyO_next
    | (refine onlyM_upd ?_ (fun p hp => by have hl := lacks (within_trans (by decide : Nat.land 0x404000204800 0x80db4009624c08 = 0x404000204800) hP) hp; revert hl; clear hp; cases p <;> first | exact fun h => absurd h (by decide) | with_unfolding_all exact fun _ => rfl))
    | intro _ | (dsimp only)

theorem only_execRegisterWrite {P : Nat} {z : State} {m : Nat} {bar2 : Bool} {off size : Nat} {v : BitVec 256} {s : State} (h_s : OnlyM P z s) (hP : Nat.land 0x80db4009624c08 P = 0x80db4009624c08) : OnlyO P z (execRegisterWrite m bar2 off size v s) := by
  unfold execRegisterWrite
  with_reducible
  repeat' first
    | assumption | exact OnlyM.refl _ _ | split | (refine only_refuse ?_ (within_trans (by decide) hP))
    | (refine only_respond ?_ (within_trans (by decide) hP)) | (refine only_regPut ?_ (within_trans (by decide) hP))
    | apply onlyM_foldl | apply onlyO_next | intro _ | (dsimp only)

theorem only_ownReg {P : Nat} {z s : State} {m off : Nat} {need : Right} {f : State → Option State} (h_f : ∀ t, OnlyP P t (f t))
    (h_s : OnlyM P z s) (hP : Nat.land 0x420400 P = 0x420400) : OnlyO P z (ownReg m off need f s) := by
  unfold ownReg
  split
  · exact onlyO_next (only_refuse h_s (within_trans (by decide) hP))
  · split
    · exact onlyO_next (only_respond (h_s.trans (h_f _ _ ‹_›)) (within_trans (by decide) hP))
    · exact onlyO_next (only_refuse h_s (within_trans (by decide) hP))

theorem only_execCfgWrite {P : Nat} {z : State} {t : Nat} {s : State} (h_s : OnlyM P z s) (hP : Nat.land 0x80fb4009624c08 P = 0x80fb4009624c08) : OnlyO P z (execCfgWrite t s) := by
  unfold execCfgWrite
  with_reducible
  repeat' first
    | assumption | exact OnlyM.refl _ _ | split
    | (refine only_takeMail ?_ (within_trans (by decide) hP) (by assumption))
    | (refine only_wakeTile ?_ (within_trans (by decide) hP)) | (refine only_modTile ?_ (within_trans (by decide) hP))
    | (refine only_regPut ?_ (within_trans (by decide) hP)) | (refine only_fromRoot ?_ (within_trans (by decide) hP))
    | apply onlyM_foldl | apply onlyO_next | intro _ | (dsimp only)

theorem only_execCfgRead {P : Nat} {z : State} {t : Nat} {s : State} (h_s : OnlyM P z s) (hP : Nat.land 0x210008020400 P = 0x210008020400) : OnlyO P z (execCfgRead t s) := by
  unfold execCfgRead
  with_reducible
  repeat' first
    | assumption | exact OnlyM.refl _ _ | split
    | (refine only_takeMail ?_ (within_trans (by decide) hP) (by assumption))
    | (refine only_wakeTile ?_ (within_trans (by decide) hP))
    | (refine only_fromRoot ?_ (within_trans (by decide) hP)) | apply onlyM_foldl | apply onlyO_next | intro _
    | (dsimp only)

theorem only_execCfgReply {P : Nat} {z : State} {s : State} (h_s : OnlyM P z s) (hP : Nat.land 0x81020000420400 P = 0x81020000420400) : OnlyO P z (execCfgReply s) := by
  unfold execCfgReply
  with_reducible
  repeat' first
    | assumption | exact OnlyM.refl _ _ | split
    | (refine only_takeInbox ?_ (within_trans (by decide) hP) (by assumption))
    | (refine only_refuse ?_ (within_trans (by decide) hP)) | (refine only_respond ?_ (within_trans (by decide) hP))
    | (refine only_loLatch ?_ (within_trans (by decide) hP)) | apply onlyM_foldl | apply onlyO_next
    | (refine onlyM_upd ?_ (fun p hp => by have hl := lacks (within_trans (by decide : Nat.land 0x81000000000000 0x81020000420400 = 0x81000000000000) hP) hp; revert hl; clear hp; cases p <;> first | exact fun h => absurd h (by decide) | with_unfolding_all exact fun _ => rfl))
    | intro _ | (dsimp only)

theorem only_execTileClear {P : Nat} {z : State} {m t : Nat} {v : Word} {s : State} (h_s : OnlyM P z s) (hP : Nat.land 0x420408 P = 0x420408) : OnlyO P z (execTileClear m t v s) := by
  unfold execTileClear
  with_reducible
  repeat' first
    | assumption | exact OnlyM.refl _ _ | split | (refine only_ownReg ?_ ?_ (within_trans (by decide) hP))
    | (refine only_modTile ?_ (within_trans (by decide) hP)) | apply onlyM_foldl | apply onlyO_next | apply onlyP_some
    | exact onlyP_none | intro _ | (dsimp only)

theorem only_execTmpLearnGrp {P : Nat} {z : State} {m g : Nat} {v : Word} {s : State} (h_s : OnlyM P z s) (hP : Nat.land 0x2000420400 P = 0x2000420400) : OnlyO P z (execTmpLearnGrp m g v s) := by
  unfold execTmpLearnGrp
  with_reducible
  repeat' first
    | assumption | exact OnlyM.refl _ _ | split | (refine only_ownReg ?_ ?_ (within_trans (by decide) hP))
    | apply onlyM_foldl | apply onlyO_next | apply onlyP_some | exact onlyP_none
    | (refine onlyM_upd ?_ (fun p hp => by have hl := lacks (within_trans (by decide : Nat.land 0x2000000000 0x2000420400 = 0x2000000000) hP) hp; revert hl; clear hp; cases p <;> first | exact fun h => absurd h (by decide) | with_unfolding_all exact fun _ => rfl))
    | intro _ | (dsimp only)

theorem only_execHubLossTail {P : Nat} {z : State} {m : Nat} {v : Word} {s : State} (h_s : OnlyM P z s) (hP : Nat.land 0x1000000420400 P = 0x1000000420400) : OnlyO P z (execHubLossTail m v s) := by
  unfold execHubLossTail
  with_reducible
  repeat' first
    | assumption | exact OnlyM.refl _ _ | split | (refine only_ownReg ?_ ?_ (within_trans (by decide) hP))
    | apply onlyM_foldl | apply onlyO_next | apply onlyP_some | exact onlyP_none
    | (refine onlyM_upd ?_ (fun p hp => by have hl := lacks (within_trans (by decide : Nat.land 0x1000000000000 0x1000000420400 = 0x1000000000000) hP) hp; revert hl; clear hp; cases p <;> first | exact fun h => absurd h (by decide) | with_unfolding_all exact fun _ => rfl))
    | intro _ | (dsimp only)

theorem only_execMsixVectorUnmask {P : Nat} {z : State} {m vec : Nat} {s : State} (h_s : OnlyM P z s) (hP : Nat.land 0x1420400 P = 0x1420400) : OnlyO P z (execMsixVectorUnmask m vec s) := by
  unfold execMsixVectorUnmask
  with_reducible
  repeat' first
    | assumption | exact OnlyM.refl _ _ | split | (refine only_refuse ?_ (within_trans (by decide) hP))
    | (refine only_modLd ?_ (within_trans (by decide) hP)) | (refine only_respond ?_ (within_trans (by decide) hP))
    | apply onlyM_foldl | apply onlyO_next | intro _ | (dsimp only)

end Sys2Proof.Machine
end

