-- ==== Sys2Proof/Laws/FrameKeeper.lean ====
section
/-! SUPPORT. The frame of every operation of Machine/Keeper.lean: the parts that it may change. -/

set_option linter.unusedTactic false
set_option linter.unreachableTactic false
set_option linter.unusedVariables false

namespace Sys2Proof.Machine

open Sys2Proof

theorem only_redo {P : Nat} {z : State} {s : State} {o : PoolOp} {e : Nat} (h_s : OnlyM P z s) (hP : Nat.land 0x100c00000000100 P = 0x100c00000000100) : OnlyM P z (State.redo s o e) := by
  unfold State.redo
  with_reducible
  repeat' first
    | assumption | exact OnlyM.refl _ _ | split | (refine only_putOp ?_ (within_trans (by decide) hP))
    | (refine only_opDone ?_ (within_trans (by decide) hP)) | (refine only_pushLoss ?_ (within_trans (by decide) hP))
    | (refine only_agentFail ?_ (within_trans (by decide) hP))
    | (refine only_modEntry ?_ (within_trans (by decide) hP)) | (refine only_release ?_ (within_trans (by decide) hP))
    | apply onlyM_foldl | apply onlyO_next
    | (refine onlyM_upd ?_ (fun p hp => by have hl := lacks (within_trans (by decide : Nat.land 0x400000000000 0x100c00000000100 = 0x400000000000) hP) hp; revert hl; clear hp; cases p <;> first | exact fun h => absurd h (by decide) | with_unfolding_all exact fun _ => rfl))
    | intro _ | (dsimp only)

theorem only_execMemberFailed {P : Nat} {z : State} {member : Nat} {s : State} (h_s : OnlyM P z s) (hP : Nat.land 0x100c00000020500 P = 0x100c00000020500) : OnlyO P z (execMemberFailed member s) := by
  unfold execMemberFailed
  with_reducible
  repeat' first
    | assumption | exact OnlyM.refl _ _ | split | (refine only_wakeDom ?_ (within_trans (by decide) hP))
    | (refine only_redo ?_ (within_trans (by decide) hP)) | apply onlyM_foldl | apply onlyO_next
    | (refine onlyM_upd ?_ (fun p hp => by have hl := lacks (within_trans (by decide : Nat.land 0x400000000000 0x100c00000020500 = 0x400000000000) hP) hp; revert hl; clear hp; cases p <;> first | exact fun h => absurd h (by decide) | with_unfolding_all exact fun _ => rfl))
    | intro _ | (dsimp only)

theorem only_execRebuildWindow {P : Nat} {z : State} {granted capacity : Nat} {s : State} (h_s : OnlyM P z s) (hP : Nat.land 0x400000000000 P = 0x400000000000) : OnlyO P z (execRebuildWindow granted capacity s) := by
  unfold execRebuildWindow
  with_reducible
  repeat' first
    | assumption | exact OnlyM.refl _ _ | split | apply onlyM_foldl | apply onlyO_next
    | (refine onlyM_upd ?_ (fun p hp => by have hl := lacks (within_trans (by decide : Nat.land 0x400000000000 0x400000000000 = 0x400000000000) hP) hp; revert hl; clear hp; cases p <;> first | exact fun h => absurd h (by decide) | with_unfolding_all exact fun _ => rfl))
    | intro _ | (dsimp only)

theorem only_execLeaseTick {P : Nat} {z : State} {s : State} (h_s : OnlyM P z s) (hP : Nat.land 0x400000000000 P = 0x400000000000) : OnlyO P z (execLeaseTick s) := by
  unfold execLeaseTick
  with_reducible
  repeat' first
    | assumption | exact OnlyM.refl _ _ | split | apply onlyM_foldl | apply onlyO_next
    | (refine onlyM_upd ?_ (fun p hp => by have hl := lacks (within_trans (by decide : Nat.land 0x400000000000 0x400000000000 = 0x400000000000) hP) hp; revert hl; clear hp; cases p <;> first | exact fun h => absurd h (by decide) | with_unfolding_all exact fun _ => rfl))
    | intro _ | (dsimp only)

theorem only_execLeaseCheck {P : Nat} {z : State} {lease : Nat} {claimed : Bool} {s : State} (h_s : OnlyM P z s) (hP : Nat.land 0x400000000000 P = 0x400000000000) : OnlyO P z (execLeaseCheck lease claimed s) := by
  unfold execLeaseCheck
  with_reducible
  repeat' first
    | assumption | exact OnlyM.refl _ _ | split | apply onlyM_foldl | apply onlyO_next
    | (refine onlyM_upd ?_ (fun p hp => by have hl := lacks (within_trans (by decide : Nat.land 0x400000000000 0x400000000000 = 0x400000000000) hP) hp; revert hl; clear hp; cases p <;> first | exact fun h => absurd h (by decide) | with_unfolding_all exact fun _ => rfl))
    | intro _ | (dsimp only)

theorem only_execPoolKeepCfg {P : Nat} {z : State} {m : Nat} {v : Word} {s : State} (h_s : OnlyM P z s) (hP : Nat.land 0x400000420400 P = 0x400000420400) : OnlyO P z (execPoolKeepCfg m v s) := by
  unfold execPoolKeepCfg
  with_reducible
  repeat' first
    | assumption | exact OnlyM.refl _ _ | split | (refine only_ownReg ?_ ?_ (within_trans (by decide) hP))
    | apply onlyM_foldl | apply onlyO_next | apply onlyP_some | exact onlyP_none
    | (refine onlyM_upd ?_ (fun p hp => by have hl := lacks (within_trans (by decide : Nat.land 0x400000000000 0x400000420400 = 0x400000000000) hP) hp; revert hl; clear hp; cases p <;> first | exact fun h => absurd h (by decide) | with_unfolding_all exact fun _ => rfl))
    | intro _ | (dsimp only)

theorem only_keepCmd {P : Nat} {z : State} {m : Nat} {f : State → State} {s : State} (h_f : ∀ t0, OnlyM P t0 (f t0)) (h_s : OnlyM P z s) (hP : Nat.land 0x420400 P = 0x420400) : OnlyO P z (keepCmd m f s) := by
  unfold keepCmd
  with_reducible
  repeat' first
    | assumption | (refine OnlyM.trans ?_ (h_f ..)) | exact OnlyM.refl _ _ | split
    | (refine only_refuse ?_ (within_trans (by decide) hP)) | (refine only_respond ?_ (within_trans (by decide) hP))
    | apply onlyM_foldl | apply onlyO_next | intro _ | (dsimp only)

theorem only_execAddSpare {P : Nat} {z : State} {m : Nat} {v : Word} {s : State} (h_s : OnlyM P z s) (hP : Nat.land 0x400000420400 P = 0x400000420400) : OnlyO P z (execAddSpare m v s) := by
  unfold execAddSpare
  with_reducible
  repeat' first
    | assumption | exact OnlyM.refl _ _ | split | (refine only_keepCmd ?_ ?_ (within_trans (by decide) hP))
    | apply onlyM_foldl | apply onlyO_next
    | (refine onlyM_upd ?_ (fun p hp => by have hl := lacks (within_trans (by decide : Nat.land 0x400000000000 0x400000420400 = 0x400000000000) hP) hp; revert hl; clear hp; cases p <;> first | exact fun h => absurd h (by decide) | with_unfolding_all exact fun _ => rfl))
    | intro _ | (dsimp only)

theorem only_execReinit {P : Nat} {z : State} {m : Nat} {v : Word} {s : State} (h_s : OnlyM P z s) (hP : Nat.land 0x400000420400 P = 0x400000420400) : OnlyO P z (execReinit m v s) := by
  unfold execReinit
  with_reducible
  repeat' first
    | assumption | exact OnlyM.refl _ _ | split | (refine only_keepCmd ?_ ?_ (within_trans (by decide) hP))
    | apply onlyM_foldl | apply onlyO_next
    | (refine onlyM_upd ?_ (fun p hp => by have hl := lacks (within_trans (by decide : Nat.land 0x400000000000 0x400000420400 = 0x400000000000) hP) hp; revert hl; clear hp; cases p <;> first | exact fun h => absurd h (by decide) | with_unfolding_all exact fun _ => rfl))
    | intro _ | (dsimp only)

theorem only_execPoolFlush {P : Nat} {z : State} {m : Nat} {v : Word} {s : State} (h_s : OnlyM P z s) (hP : Nat.land 0x100c00000420400 P = 0x100c00000420400) : OnlyO P z (execPoolFlush m v s) := by
  unfold execPoolFlush
  with_reducible
  repeat' first
    | assumption | exact OnlyM.refl _ _ | split | (refine only_ownReg ?_ ?_ (within_trans (by decide) hP))
    | (refine only_flushWin ?_ (within_trans (by decide) hP)) | apply onlyM_foldl | apply onlyO_next
    | apply onlyP_some | exact onlyP_none | intro _ | (dsimp only)

end Sys2Proof.Machine
end

