-- ==== Sys2Proof/Laws/FramePorts.lean ====
section
/-! SUPPORT. The frame of every operation of Machine/Ports.lean: the parts that it may change. -/

set_option linter.unusedTactic false
set_option linter.unreachableTactic false
set_option linter.unusedVariables false

namespace Sys2Proof.Machine

open Sys2Proof

theorem only_outputWord {P : Nat} {z : State} {s : State} {n : Nat} {v : Volley} {e : Word} (h_s : OnlyM P z s) (hP : Nat.land 0x800000000020 P = 0x800000000020) : OnlyM P z (State.outputWord s n v e) := by
  unfold State.outputWord
  with_reducible
  repeat' first
    | assumption | exact OnlyM.refl _ _ | split | (refine only_pushLoss ?_ (within_trans (by decide) hP))
    | (refine only_modPort ?_ (within_trans (by decide) hP)) | apply onlyM_foldl | apply onlyO_next | intro _
    | (dsimp only)

theorem only_execOutputEvent {P : Nat} {z : State} {pt : Nat} {s : State} (h_s : OnlyM P z s) (hP : Nat.land 0x820000000020 P = 0x820000000020) : OnlyO P z (execOutputEvent pt s) := by
  unfold execOutputEvent
  with_reducible
  repeat' first
    | assumption | exact OnlyM.refl _ _ | split
    | (refine only_takeInbox ?_ (within_trans (by decide) hP) (by assumption))
    | (refine only_outputWord ?_ (within_trans (by decide) hP)) | apply onlyM_foldl | apply onlyO_next | intro _
    | (dsimp only)

theorem only_execCanSlotSend {P : Nat} {z : State} {pt slot : Nat} {s : State} (h_s : OnlyM P z s) (hP : Nat.land 0x20 P = 0x20) : OnlyO P z (execCanSlotSend pt slot s) := by
  unfold execCanSlotSend
  with_reducible
  repeat' first
    | assumption | exact OnlyM.refl _ _ | split | (refine only_modPort ?_ (within_trans (by decide) hP))
    | apply onlyM_foldl | apply onlyO_next | intro _ | (dsimp only)

theorem only_execHoldExpiry {P : Nat} {z : State} {pt ch : Nat} {s : State} (h_s : OnlyM P z s) (hP : Nat.land 0x20 P = 0x20) : OnlyO P z (execHoldExpiry pt ch s) := by
  unfold execHoldExpiry
  with_reducible
  repeat' first
    | assumption | exact OnlyM.refl _ _ | split | (refine only_modPort ?_ (within_trans (by decide) hP))
    | apply onlyM_foldl | apply onlyO_next | intro _ | (dsimp only)

theorem only_execRampStep {P : Nat} {z : State} {pt ch : Nat} {s : State} (h_s : OnlyM P z s) (hP : Nat.land 0x20 P = 0x20) : OnlyO P z (execRampStep pt ch s) := by
  unfold execRampStep
  with_reducible
  repeat' first
    | assumption | exact OnlyM.refl _ _ | split | (refine only_modPort ?_ (within_trans (by decide) hP))
    | apply onlyM_foldl | apply onlyO_next | intro _ | (dsimp only)

theorem only_execPwmPeriodStart {P : Nat} {z : State} {pt ch : Nat} {s : State} (h_s : OnlyM P z s) (hP : Nat.land 0x20 P = 0x20) : OnlyO P z (execPwmPeriodStart pt ch s) := by
  unfold execPwmPeriodStart
  with_reducible
  repeat' first
    | assumption | exact OnlyM.refl _ _ | split | (refine only_modPort ?_ (within_trans (by decide) hP))
    | apply onlyM_foldl | apply onlyO_next | intro _ | (dsimp only)

theorem only_haltRecords {P : Nat} {z : State} {s : State} {cause : Nat} (h_s : OnlyM P z s) (hP : Nat.land 0x100800101000020 P = 0x100800101000020) : OnlyM P z (State.haltRecords s cause) := by
  unfold State.haltRecords
  with_reducible
  repeat' first
    | assumption | exact OnlyM.refl _ _ | split | (refine only_portRecord ?_ (within_trans (by decide) hP))
    | apply onlyM_foldl | apply onlyO_next | intro _ | (dsimp only)

theorem only_haltAssert {P : Nat} {z : State} {s : State} (h_s : OnlyM P z s) (hP : Nat.land 0x100800101001020 P = 0x100800101001020) : OnlyM P z (State.haltAssert s) := by
  unfold State.haltAssert
  with_reducible
  repeat' first
    | assumption | exact OnlyM.refl _ _ | split | (refine only_eachOut ?_ (within_trans (by decide) hP))
    | (refine only_haltRecords ?_ (within_trans (by decide) hP)) | apply onlyM_foldl | apply onlyO_next
    | (refine onlyM_upd ?_ (fun p hp => by have hl := lacks (within_trans (by decide : Nat.land 0x1020 0x100800101001020 = 0x1020) hP) hp; revert hl; clear hp; cases p <;> first | exact fun h => absurd h (by decide) | with_unfolding_all exact fun _ => rfl))
    | intro _ | (dsimp only)

theorem only_execHaltNAssert {P : Nat} {z : State} {ns : Nat} {s : State} (h_s : OnlyM P z s) (hP : Nat.land 0x100800101001120 P = 0x100800101001120) : OnlyO P z (execHaltNAssert ns s) := by
  unfold execHaltNAssert
  with_reducible
  repeat' first
    | assumption | exact OnlyM.refl _ _ | split | (refine only_haltAssert ?_ (within_trans (by decide) hP))
    | apply onlyM_foldl | apply onlyO_next
    | (refine onlyM_upd ?_ (fun p hp => by have hl := lacks (within_trans (by decide : Nat.land 0x100 0x100800101001120 = 0x100) hP) hp; revert hl; clear hp; cases p <;> first | exact fun h => absurd h (by decide) | with_unfolding_all exact fun _ => rfl))
    | intro _ | (dsimp only)

theorem only_execHaltNRelease {P : Nat} {z : State} {s : State} (h_s : OnlyM P z s) (hP : Nat.land 0x100800101001020 P = 0x100800101001020) : OnlyO P z (execHaltNRelease s) := by
  unfold execHaltNRelease
  with_reducible
  repeat' first
    | assumption | exact OnlyM.refl _ _ | split | (refine only_haltRecords ?_ (within_trans (by decide) hP))
    | apply onlyM_foldl | apply onlyO_next
    | (refine onlyM_upd ?_ (fun p hp => by have hl := lacks (within_trans (by decide : Nat.land 0x1020 0x100800101001020 = 0x1020) hP) hp; revert hl; clear hp; cases p <;> first | exact fun h => absurd h (by decide) | with_unfolding_all exact fun _ => rfl))
    | intro _ | (dsimp only)

theorem only_execPresenceChange {P : Nat} {z : State} {pt : Nat} {present : Bool} {s : State} (h_s : OnlyM P z s) (hP : Nat.land 0x1009f093902e428 P = 0x1009f093902e428) : OnlyO P z (execPresenceChange pt present s) := by
  unfold execPresenceChange
  with_reducible
  repeat' first
    | assumption | exact OnlyM.refl _ _ | split | (refine only_modPort ?_ (within_trans (by decide) hP))
    | (refine only_wakeSource ?_ (within_trans (by decide) hP))
    | (refine only_wakeDom ?_ (within_trans (by decide) hP))
    | (refine only_enumerate ?_ (within_trans (by decide) hP)) | (refine only_detach ?_ (within_trans (by decide) hP))
    | (refine only_portRecord ?_ (within_trans (by decide) hP)) | apply onlyM_foldl | apply onlyO_next | intro _
    | (dsimp only)

theorem only_execEnumerationComplete {P : Nat} {z : State} {pt : Nat} {pids : List (BitVec 48)} {s : State} (h_s : OnlyM P z s) (hP : Nat.land 0x1009f0939020428 P = 0x1009f0939020428) : OnlyO P z (execEnumerationComplete pt pids s) := by
  unfold execEnumerationComplete
  with_reducible
  repeat' first
    | assumption | exact OnlyM.refl _ _ | split | (refine only_enumFailed ?_ (within_trans (by decide) hP))
    | (refine only_attach ?_ (within_trans (by decide) hP)) | apply onlyM_foldl | apply onlyO_next | intro _
    | (dsimp only)

theorem only_execEnumerationTimeout {P : Nat} {z : State} {pt : Nat} {s : State} (h_s : OnlyM P z s) (hP : Nat.land 0x100800101000020 P = 0x100800101000020) : OnlyO P z (execEnumerationTimeout pt s) := by
  unfold execEnumerationTimeout
  with_reducible
  repeat' first
    | assumption | exact OnlyM.refl _ _ | split | (refine only_enumFailed ?_ (within_trans (by decide) hP))
    | apply onlyM_foldl | apply onlyO_next | intro _ | (dsimp only)

theorem only_execEnumerationRetry {P : Nat} {z : State} {pt : Nat} {s : State} (h_s : OnlyM P z s) (hP : Nat.land 0x1009f0939020428 P = 0x1009f0939020428) : OnlyO P z (execEnumerationRetry pt s) := by
  unfold execEnumerationRetry
  with_reducible
  repeat' first
    | assumption | exact OnlyM.refl _ _ | split | (refine only_enumerate ?_ (within_trans (by decide) hP))
    | apply onlyM_foldl | apply onlyO_next | intro _ | (dsimp only)

theorem only_protocolLoss {P : Nat} {z : State} {s : State} {n : Nat} (h_s : OnlyM P z s) (hP : Nat.land 0x1009f0939020428 P = 0x1009f0939020428) : OnlyM P z (State.protocolLoss s n) := by
  unfold State.protocolLoss
  with_reducible
  repeat' first
    | assumption | exact OnlyM.refl _ _ | split | (refine only_detach ?_ (within_trans (by decide) hP))
    | apply onlyM_foldl | apply onlyO_next | intro _ | (dsimp only)

theorem only_execProtocolLoss {P : Nat} {z : State} {pt : Nat} {s : State} (h_s : OnlyM P z s) (hP : Nat.land 0x1009f0939020428 P = 0x1009f0939020428) : OnlyO P z (execProtocolLoss pt s) := by
  unfold execProtocolLoss
  with_reducible
  repeat' first
    | assumption | exact OnlyM.refl _ _ | split | (refine only_protocolLoss ?_ (within_trans (by decide) hP))
    | apply onlyM_foldl | apply onlyO_next | intro _ | (dsimp only)

theorem only_i3cRead {P : Nat} {z : State} {s : State} {n delta ch : Nat} {ind : List Byte} (h_s : OnlyM P z s) (hP : Nat.land 0x9f0838020428 P = 0x9f0838020428) : OnlyM P z (State.i3cRead s n delta ch ind) := by
  induction ind generalizing s n delta ch with
  | nil => unfold State.i3cRead; exact h_s
  | cons b1 ind ih =>
    unfold State.i3cRead
    with_reducible
    repeat' first
      | assumption | apply ih | exact OnlyM.refl _ _ | split | (refine only_modPort ?_ (within_trans (by decide) hP))
      | (refine only_capture ?_ (within_trans (by decide) hP)) | apply onlyM_foldl | apply onlyO_next | intro _
      | (dsimp only)

theorem only_i3cEntry {P : Nat} {z : State} {s : State} {n : Nat} {e : DWord} {bytes : List Byte} (h_s : OnlyM P z s) (hP : Nat.land 0x9f0838020428 P = 0x9f0838020428) : OnlyM P z (State.i3cEntry s n e bytes) := by
  unfold State.i3cEntry
  with_reducible
  repeat' first
    | assumption | exact OnlyM.refl _ _ | split | (refine only_i3cRead ?_ (within_trans (by decide) hP))
    | apply onlyM_foldl | apply onlyO_next | intro _ | (dsimp only)

theorem only_execI3cPoll {P : Nat} {z : State} {pt entry : Nat} {bytes : List Byte} {s : State} (h_s : OnlyM P z s) (hP : Nat.land 0x9f0838020428 P = 0x9f0838020428) : OnlyO P z (execI3cPoll pt entry bytes s) := by
  unfold execI3cPoll
  with_reducible
  repeat' first
    | assumption | exact OnlyM.refl _ _ | split | (refine only_i3cEntry ?_ (within_trans (by decide) hP))
    | apply onlyM_foldl | apply onlyO_next | intro _ | (dsimp only)

theorem only_execIbi {P : Nat} {z : State} {pt target : Nat} {bytes : Tab (List Byte)} {s : State} (h_s : OnlyM P z s) (hP : Nat.land 0x9f0838020428 P = 0x9f0838020428) : OnlyO P z (execIbi pt target bytes s) := by
  unfold execIbi
  with_reducible
  repeat' first
    | assumption | exact OnlyM.refl _ _ | split | (refine only_i3cEntry ?_ (within_trans (by decide) hP))
    | apply onlyM_foldl | apply onlyO_next | intro _ | (dsimp only)

theorem only_execHotJoin {P : Nat} {z : State} {pt : Nat} {s : State} (h_s : OnlyM P z s) (hP : Nat.land 0x1009f0939020428 P = 0x1009f0939020428) : OnlyO P z (execHotJoin pt s) := by
  unfold execHotJoin
  with_reducible
  repeat' first
    | assumption | exact OnlyM.refl _ _ | split | (refine only_detach ?_ (within_trans (by decide) hP))
    | (refine only_enumerate ?_ (within_trans (by decide) hP))
    | (refine only_portRecord ?_ (within_trans (by decide) hP)) | apply onlyM_foldl | apply onlyO_next | intro _
    | (dsimp only)

theorem only_csiWords {P : Nat} {z : State} {s : State} {n : Nat} {ind : List Word} (h_s : OnlyM P z s) (hP : Nat.land 0x9f0838020428 P = 0x9f0838020428) : OnlyM P z (State.csiWords s n ind) := by
  induction ind generalizing s n with
  | nil => unfold State.csiWords; exact h_s
  | cons b1 ind ih =>
    unfold State.csiWords
    with_reducible
    repeat' first
      | assumption | apply ih | exact OnlyM.refl _ _ | split | (refine only_capture ?_ (within_trans (by decide) hP))
      | (refine only_modPort ?_ (within_trans (by decide) hP)) | apply onlyM_foldl | apply onlyO_next | intro _
      | (dsimp only)

theorem only_execCsi2Packet {P : Nat} {z : State} {pt vcn dt : Nat} {crcOk : Bool} {words : List Word} {s : State} (h_s : OnlyM P z s) (hP : Nat.land 0x1009f0939020428 P = 0x1009f0939020428) : OnlyO P z (execCsi2Packet pt vcn dt crcOk words s) := by
  unfold execCsi2Packet
  with_reducible
  repeat' first
    | assumption | exact OnlyM.refl _ _ | split | (refine only_modPort ?_ (within_trans (by decide) hP))
    | (refine only_protocolLoss ?_ (within_trans (by decide) hP))
    | (refine only_csiWords ?_ (within_trans (by decide) hP)) | apply onlyM_foldl | apply onlyO_next | intro _
    | (dsimp only)

theorem only_execAerAddress {P : Nat} {z : State} {pt : Nat} {addr : Byte} {s : State} (h_s : OnlyM P z s) (hP : Nat.land 0x9f0838020428 P = 0x9f0838020428) : OnlyO P z (execAerAddress pt addr s) := by
  unfold execAerAddress
  with_reducible
  repeat' first
    | assumption | exact OnlyM.refl _ _ | split | (refine only_capture ?_ (within_trans (by decide) hP))
    | apply onlyM_foldl | apply onlyO_next | intro _ | (dsimp only)

theorem only_execCanFrame {P : Nat} {z : State} {pt : Nat} {ide remote : Bool} {fid : Nat} {data : List Byte} {s : State} (h_s : OnlyM P z s) (hP : Nat.land 0x9f0838020428 P = 0x9f0838020428) : OnlyO P z (execCanFrame pt ide remote fid data s) := by
  unfold execCanFrame
  with_reducible
  repeat' first
    | assumption | exact OnlyM.refl _ _ | split | (refine only_captures ?_ (within_trans (by decide) hP))
    | apply onlyM_foldl | apply onlyO_next | intro _ | (dsimp only)

theorem only_execIndexPulse {P : Nat} {z : State} {pt : Nat} {s : State} (h_s : OnlyM P z s) (hP : Nat.land 0x9f0838020428 P = 0x9f0838020428) : OnlyO P z (execIndexPulse pt s) := by
  unfold execIndexPulse
  with_reducible
  repeat' first
    | assumption | exact OnlyM.refl _ _ | split | (refine only_capture ?_ (within_trans (by decide) hP))
    | apply onlyM_foldl | apply onlyO_next | intro _ | (dsimp only)

theorem only_execIllegalTransition {P : Nat} {z : State} {pt : Nat} {s : State} (h_s : OnlyM P z s) (hP : Nat.land 0x1009f0939020428 P = 0x1009f0939020428) : OnlyO P z (execIllegalTransition pt s) := by
  unfold execIllegalTransition
  with_reducible
  repeat' first
    | assumption | exact OnlyM.refl _ _ | split | (refine only_modPort ?_ (within_trans (by decide) hP))
    | (refine only_protocolLoss ?_ (within_trans (by decide) hP)) | apply onlyM_foldl | apply onlyO_next | intro _
    | (dsimp only)

theorem only_execPortRearm {P : Nat} {z : State} {rk seq : Nat} {s : State} (h_s : OnlyM P z s) (hP : Nat.land 0x100000103020420 P = 0x100000103020420) : OnlyO P z (execPortRearm rk seq s) := by
  unfold execPortRearm
  with_reducible
  repeat' first
    | assumption | exact OnlyM.refl _ _ | split | (refine only_runCmd ?_ ?_ (within_trans (by decide) hP))
    | (refine only_complete ?_ (within_trans (by decide) hP)) | (refine only_modPort ?_ (within_trans (by decide) hP))
    | apply onlyM_foldl | apply onlyO_next | intro _ | (dsimp only)

end Sys2Proof.Machine
end

