-- ==== Sys2Proof/Laws/FrameWorldCmds.lean ====
section
/-! SUPPORT. The frame of every operation of Machine/WorldCmds.lean: the parts that it may change. -/

set_option linter.unusedTactic false
set_option linter.unreachableTactic false
set_option linter.unusedVariables false

namespace Sys2Proof.Machine

open Sys2Proof

theorem only_execAdvance {P : Nat} {z : State} {rk seq : Nat} {s : State} (h_s : OnlyM P z s) (hP : Nat.land 0x10c9f093b020528 P = 0x10c9f093b020528) : OnlyO P z (execAdvance rk seq s) := by
  unfold execAdvance
  with_reducible
  repeat' first
    | assumption | exact OnlyM.refl _ _ | split | (refine only_runCmd ?_ ?_ (within_trans (by decide) hP))
    | (refine only_hostAdvance ?_ (within_trans (by decide) hP))
    | (refine only_complete ?_ (within_trans (by decide) hP)) | apply onlyM_foldl | apply onlyO_next | intro _
    | (dsimp only)

theorem only_laneAdvance {P : Nat} {z : State} {m delta : Nat} {a : State × Nat × Code} {w : Nat} (h_a : OnlyM P z a.1)
    (hP : Nat.land 0x10c9f0939020528 P = 0x10c9f0939020528) : OnlyM P z (laneAdvance m delta a w).1 := by
  unfold laneAdvance
  dsimp only
  split
  · exact only_hostAdvance h_a (within_trans (by decide) hP)
  · exact only_hostAdvance h_a (within_trans (by decide) hP)

theorem only_lanes {P : Nat} {z : State} {m delta : Nat} (hP : Nat.land 0x10c9f0939020528 P = 0x10c9f0939020528) (l : List Nat) {a : State × Nat × Code}
    (h_a : OnlyM P z a.1) : OnlyM P z (l.foldl (laneAdvance m delta) a).1 := by
  induction l generalizing a with
  | nil => exact h_a
  | cons w r ih => exact ih (only_laneAdvance h_a hP)

theorem only_execGroupAdvance {P : Nat} {z s : State} {rk seq : Nat} (h_s : OnlyM P z s) (hP : Nat.land 0x10c9f093b020528 P = 0x10c9f093b020528) :
    OnlyO P z (execGroupAdvance rk seq s) := by
  unfold execGroupAdvance
  exact only_runCmd (fun t _ => only_complete (only_lanes (within_trans (by decide) hP) _ (.refl _ t)) (within_trans (by decide) hP)) h_s
    (within_trans (by decide) hP)

theorem only_execStart {P : Nat} {z : State} {rk seq : Nat} {s : State} (h_s : OnlyM P z s) (hP : Nat.land 0x10c9f193b02052c P = 0x10c9f193b02052c) : OnlyO P z (execStart rk seq s) := by
  unfold execStart
  with_reducible
  repeat' first
    | assumption | exact OnlyM.refl _ _ | split | (refine only_runCmd ?_ ?_ (within_trans (by decide) hP))
    | (refine only_startWorld ?_ (within_trans (by decide) hP))
    | (refine only_complete ?_ (within_trans (by decide) hP)) | apply onlyM_foldl | apply onlyO_next | intro _
    | (dsimp only)

theorem only_execPark {P : Nat} {z : State} {rk seq : Nat} {s : State} (h_s : OnlyM P z s) (hP : Nat.land 0x10c9f093b020528 P = 0x10c9f093b020528) : OnlyO P z (execPark rk seq s) := by
  unfold execPark
  with_reducible
  repeat' first
    | assumption | exact OnlyM.refl _ _ | split | (refine only_runCmd ?_ ?_ (within_trans (by decide) hP))
    | (refine only_complete ?_ (within_trans (by decide) hP))
    | (refine only_parkWorld ?_ (within_trans (by decide) hP)) | apply onlyM_foldl | apply onlyO_next | intro _
    | (dsimp only)

theorem only_execUnpark {P : Nat} {z : State} {rk seq : Nat} {s : State} (h_s : OnlyM P z s) (hP : Nat.land 0x10c9f093b020528 P = 0x10c9f093b020528) : OnlyO P z (execUnpark rk seq s) := by
  unfold execUnpark
  with_reducible
  repeat' first
    | assumption | exact OnlyM.refl _ _ | split | (refine only_runCmd ?_ ?_ (within_trans (by decide) hP))
    | (refine only_unparkWorld ?_ (within_trans (by decide) hP))
    | (refine only_complete ?_ (within_trans (by decide) hP)) | apply onlyM_foldl | apply onlyO_next | intro _
    | (dsimp only)

theorem only_retireTiles {P : Nat} {z : State} {s : State} {w : Nat} (h_s : OnlyM P z s) (hP : Nat.land 0x800000008 P = 0x800000008) : OnlyM P z (State.retireTiles s w) := by
  unfold State.retireTiles
  with_reducible
  repeat' first
    | assumption | exact OnlyM.refl _ _ | split | (refine only_modTile ?_ (within_trans (by decide) hP))
    | (refine only_modWorld ?_ (within_trans (by decide) hP)) | apply onlyM_foldl | apply onlyO_next | intro _
    | (dsimp only)

theorem only_retireWorld {P : Nat} {z : State} {s : State} {w : Nat} {cmd : Nat × Nat} (h_s : OnlyM P z s) (hP : Nat.land 0x10c9f0939020528 P = 0x10c9f0939020528) : OnlyM P z (State.retireWorld s w cmd) := by
  unfold State.retireWorld
  with_reducible
  repeat' first
    | assumption | exact OnlyM.refl _ _ | split | (refine only_modWorld ?_ (within_trans (by decide) hP))
    | (refine only_outsWorldSafe ?_ (within_trans (by decide) hP))
    | (refine only_retireTiles ?_ (within_trans (by decide) hP))
    | (refine only_runningChanged ?_ (within_trans (by decide) hP))
    | (refine only_parkFollowers ?_ (within_trans (by decide) hP)) | apply onlyM_foldl | apply onlyO_next
    | (refine onlyM_upd ?_ (fun p hp => by have hl := lacks (within_trans (by decide : Nat.land 0x10000000 0x10c9f0939020528 = 0x10000000) hP) hp; revert hl; clear hp; cases p <;> first | exact fun h => absurd h (by decide) | with_unfolding_all exact fun _ => rfl))
    | intro _ | (dsimp only)

theorem only_execRetire {P : Nat} {z : State} {rk seq : Nat} {s : State} (h_s : OnlyM P z s) (hP : Nat.land 0x10c9f093b020528 P = 0x10c9f093b020528) : OnlyO P z (execRetire rk seq s) := by
  unfold execRetire
  with_reducible
  repeat' first
    | assumption | exact OnlyM.refl _ _ | split | (refine only_runCmd ?_ ?_ (within_trans (by decide) hP))
    | (refine only_complete ?_ (within_trans (by decide) hP))
    | (refine only_retireWorld ?_ (within_trans (by decide) hP))
    | (refine only_begun ?_ (within_trans (by decide) hP)) | apply onlyM_foldl | apply onlyO_next | intro _
    | (dsimp only)

theorem only_execRetireComplete {P : Nat} {z : State} {w : Nat} {s : State} (h_s : OnlyM P z s) (hP : Nat.land 0x100800903100000 P = 0x100800903100000) : OnlyO P z (execRetireComplete w s) := by
  unfold execRetireComplete
  with_reducible
  repeat' first
    | assumption | exact OnlyM.refl _ _ | split | (refine only_worldRecord ?_ (within_trans (by decide) hP))
    | (refine only_modWorld ?_ (within_trans (by decide) hP))
    | (refine only_completeAt ?_ (within_trans (by decide) hP))
    | (refine only_amendCheck ?_ (within_trans (by decide) hP)) | apply onlyM_foldl | apply onlyO_next | intro _
    | (dsimp only)

theorem only_execTmpHostAdv {P : Nat} {z : State} {m : Nat} {v : Word} {s : State} (h_s : OnlyM P z s) (hP : Nat.land 0x10c9f4939420528 P = 0x10c9f4939420528) : OnlyO P z (execTmpHostAdv m v s) := by
  unfold execTmpHostAdv
  with_reducible
  repeat' first
    | assumption | exact OnlyM.refl _ _ | split | (refine only_refuse ?_ (within_trans (by decide) hP))
    | (refine only_hostAdvance ?_ (within_trans (by decide) hP))
    | (refine only_respond ?_ (within_trans (by decide) hP)) | apply onlyM_foldl | apply onlyO_next
    | (refine onlyM_upd ?_ (fun p hp => by have hl := lacks (within_trans (by decide : Nat.land 0x4000000000 0x10c9f4939420528 = 0x4000000000) hP) hp; revert hl; clear hp; cases p <;> first | exact fun h => absurd h (by decide) | with_unfolding_all exact fun _ => rfl))
    | intro _ | (dsimp only)

theorem only_injectOne {P : Nat} {z : State} {s : State} {w : Nat} {e : Option DWord × Nat × Nat × Nat} (h_s : OnlyM P z s) (hP : Nat.land 0x9f0038020408 P = 0x9f0038020408) : OnlyM P z (State.injectOne s w e) := by
  unfold State.injectOne
  with_reducible
  repeat' first
    | assumption | exact OnlyM.refl _ _ | split | (refine only_send ?_ (within_trans (by decide) hP))
    | apply onlyM_foldl | apply onlyO_next
    | (refine onlyM_upd ?_ (fun p hp => by have hl := lacks (within_trans (by decide : Nat.land 0x10000000 0x9f0038020408 = 0x10000000) hP) hp; revert hl; clear hp; cases p <;> first | exact fun h => absurd h (by decide) | with_unfolding_all exact fun _ => rfl))
    | intro _ | (dsimp only)

theorem only_execInject {P : Nat} {z : State} {rk seq : Nat} {s : State} (h_s : OnlyM P z s) (hP : Nat.land 0x1009f013b020408 P = 0x1009f013b020408) : OnlyO P z (execInject rk seq s) := by
  unfold execInject
  with_reducible
  repeat' first
    | assumption | exact OnlyM.refl _ _ | split | (refine only_runCmd ?_ ?_ (within_trans (by decide) hP))
    | (refine only_injectOne ?_ (within_trans (by decide) hP))
    | (refine only_complete ?_ (within_trans (by decide) hP)) | apply onlyM_foldl | apply onlyO_next | intro _
    | (dsimp only)

theorem only_execTurnReport {P : Nat} {z : State} {s : State} (h_s : OnlyM P z s) (hP : Nat.land 0x9f0828020408 P = 0x9f0828020408) : OnlyO P z (execTurnReport s) := by
  unfold execTurnReport
  with_reducible
  repeat' first
    | assumption | exact OnlyM.refl _ _ | split
    | (refine only_takeInbox ?_ (within_trans (by decide) hP) (by assumption))
    | (refine only_modTurn ?_ (within_trans (by decide) hP)) | (refine only_reports ?_ (within_trans (by decide) hP))
    | apply onlyM_foldl | apply onlyO_next | intro _ | (dsimp only)

theorem only_applyStaged {P : Nat} {z : State} {s : State} {w : Nat} (h_s : OnlyM P z s) (hP : Nat.land 0x900800020400 P = 0x900800020400) : OnlyM P z (State.applyStaged s w) := by
  unfold State.applyStaged
  with_reducible
  repeat' first
    | assumption | exact OnlyM.refl _ _ | split | (refine only_modWorld ?_ (within_trans (by decide) hP))
    | (refine only_subscribePeer ?_ (within_trans (by decide) hP)) | apply onlyM_foldl | apply onlyO_next | intro _
    | (dsimp only)

theorem only_turnOpens {P : Nat} {z : State} {s : State} {w : Nat} (h_s : OnlyM P z s) (hP : Nat.land 0x10c9f193b120528 P = 0x10c9f193b120528) : OnlyM P z (State.turnOpens s w) := by
  unfold State.turnOpens
  with_reducible
  repeat' first
    | assumption | exact OnlyM.refl _ _ | split | (refine only_openTurn ?_ (within_trans (by decide) hP))
    | (refine only_applyStaged ?_ (within_trans (by decide) hP))
    | (refine only_boundaryUpdates ?_ (within_trans (by decide) hP))
    | (refine only_amendCheck ?_ (within_trans (by decide) hP)) | (refine only_moveT ?_ (within_trans (by decide) hP))
    | (refine only_hubEmit ?_ (within_trans (by decide) hP)) | (refine only_judgeLag ?_ (within_trans (by decide) hP))
    | (refine only_afterPark ?_ ?_ (within_trans (by decide) hP))
    | (refine only_follow ?_ (within_trans (by decide) hP)) | apply onlyM_foldl | apply onlyO_next | intro _
    | (dsimp only)

theorem only_execTurnOpen {P : Nat} {z : State} {w : Nat} {s : State} (h_s : OnlyM P z s) (hP : Nat.land 0x10c9f193b120528 P = 0x10c9f193b120528) : OnlyO P z (execTurnOpen w s) := by
  unfold execTurnOpen
  with_reducible
  repeat' first
    | assumption | exact OnlyM.refl _ _ | split | (refine only_modWorld ?_ (within_trans (by decide) hP))
    | (refine only_turnOpens ?_ (within_trans (by decide) hP)) | apply onlyM_foldl | apply onlyO_next | intro _
    | (dsimp only)

theorem only_execTurnClose {P : Nat} {z : State} {w : Nat} {s : State} (h_s : OnlyM P z s) (hP : Nat.land 0x1800000000 P = 0x1800000000) : OnlyO P z (execTurnClose w s) := by
  unfold execTurnClose
  with_reducible
  repeat' first
    | assumption | exact OnlyM.refl _ _ | split | (refine only_closeTurn ?_ (within_trans (by decide) hP))
    | apply onlyM_foldl | apply onlyO_next | intro _ | (dsimp only)

theorem only_execTetherExpiry {P : Nat} {z : State} {w : Nat} {s : State} (h_s : OnlyM P z s) (hP : Nat.land 0x10c9f0939020528 P = 0x10c9f0939020528) : OnlyO P z (execTetherExpiry w s) := by
  unfold execTetherExpiry
  with_reducible
  repeat' first
    | assumption | exact OnlyM.refl _ _ | split | (refine only_parkWorld ?_ (within_trans (by decide) hP))
    | apply onlyM_foldl | apply onlyO_next | intro _ | (dsimp only)

theorem only_subscribed {P : Nat} {z : State} {s : State} {lk leader follower : Nat} (h_s : OnlyM P z s) (hP : Nat.land 0x8000000000 P = 0x8000000000) : OnlyM P z (State.subscribed s lk leader follower) := by
  unfold State.subscribed
  with_reducible
  repeat' first
    | assumption | exact OnlyM.refl _ _ | split | apply onlyM_foldl | apply onlyO_next
    | (refine onlyM_upd ?_ (fun p hp => by have hl := lacks (within_trans (by decide : Nat.land 0x8000000000 0x8000000000 = 0x8000000000) hP) hp; revert hl; clear hp; cases p <;> first | exact fun h => absurd h (by decide) | with_unfolding_all exact fun _ => rfl))
    | intro _ | (dsimp only)

theorem only_execSubscribe {P : Nat} {z : State} {lk leader follower : Nat} {s : State} (h_s : OnlyM P z s) (hP : Nat.land 0x8000000000 P = 0x8000000000) : OnlyO P z (execSubscribe lk leader follower s) := by
  unfold execSubscribe
  with_reducible
  repeat' first
    | assumption | exact OnlyM.refl _ _ | split | (refine only_subscribed ?_ (within_trans (by decide) hP))
    | apply onlyM_foldl | apply onlyO_next | intro _ | (dsimp only)

theorem only_tempoForward {P : Nat} {z : State} {s : State} {lk leader inc : Nat} (h_s : OnlyM P z s) (hP : Nat.land 0x10c9f0939020528 P = 0x10c9f0939020528) : OnlyM P z (State.tempoForward s lk leader inc) := by
  unfold State.tempoForward
  with_reducible
  repeat' first
    | assumption | exact OnlyM.refl _ _ | split | (refine only_inputCore ?_ (within_trans (by decide) hP))
    | apply onlyM_foldl | apply onlyO_next | intro _ | (dsimp only)

theorem only_execTempoFwd {P : Nat} {z : State} {lk leader inc : Nat} {s : State} (h_s : OnlyM P z s) (hP : Nat.land 0x10c9f0939020528 P = 0x10c9f0939020528) : OnlyO P z (execTempoFwd lk leader inc s) := by
  unfold execTempoFwd
  with_reducible
  repeat' first
    | assumption | exact OnlyM.refl _ _ | split | (refine only_tempoForward ?_ (within_trans (by decide) hP))
    | apply onlyM_foldl | apply onlyO_next | intro _ | (dsimp only)

theorem only_execLeaderParked {P : Nat} {z : State} {lk leader : Nat} {s : State} (h_s : OnlyM P z s) (hP : Nat.land 0x10c9f0939020528 P = 0x10c9f0939020528) : OnlyO P z (execLeaderParked lk leader s) := by
  unfold execLeaderParked
  with_reducible
  repeat' first
    | assumption | exact OnlyM.refl _ _ | split | (refine only_parkCore ?_ (within_trans (by decide) hP))
    | apply onlyM_foldl | apply onlyO_next | intro _ | (dsimp only)

theorem only_execSweepAck {P : Nat} {z : State} {s : State} (h_s : OnlyM P z s) (hP : Nat.land 0x20800000000 P = 0x20800000000) : OnlyO P z (execSweepAck s) := by
  unfold execSweepAck
  with_reducible
  repeat' first
    | assumption | exact OnlyM.refl _ _ | split
    | (refine only_takeInbox ?_ (within_trans (by decide) hP) (by assumption))
    | (refine only_modWorld ?_ (within_trans (by decide) hP)) | apply onlyM_foldl | apply onlyO_next | intro _
    | (dsimp only)

end Sys2Proof.Machine
end

