-- ==== Sys2Proof/Laws/FrameSpan.lean ====
section
/-! SUPPORT. The frame of every operation of Machine/Span.lean: the parts that it may change. -/

set_option linter.unusedTactic false
set_option linter.unreachableTactic false
set_option linter.unusedVariables false

namespace Sys2Proof.Machine

open Sys2Proof

theorem only_spanDown {P : Nat} {z : State} {s : State} {k : Nat} (h_s : OnlyM P z s) (hP : Nat.land 0x10c9f0939020528 P = 0x10c9f0939020528) : OnlyM P z (State.spanDown s k) := by
  unfold State.spanDown
  with_reducible
  repeat' first
    | assumption | exact OnlyM.refl _ _ | split | (refine only_modSpan ?_ (within_trans (by decide) hP))
    | (refine only_loseEvents ?_ (within_trans (by decide) hP))
    | (refine only_parkWorld ?_ (within_trans (by decide) hP))
    | (refine only_postFault ?_ (within_trans (by decide) hP)) | apply onlyM_foldl | apply onlyO_next | intro _
    | (dsimp only)

theorem only_execSpanAckTimeout {P : Nat} {z : State} {lk : Nat} {s : State} (h_s : OnlyM P z s) (hP : Nat.land 0x10c9f0939020528 P = 0x10c9f0939020528) : OnlyO P z (execSpanAckTimeout lk s) := by
  unfold execSpanAckTimeout
  with_reducible
  repeat' first
    | assumption | exact OnlyM.refl _ _ | split | (refine only_spanDown ?_ (within_trans (by decide) hP))
    | apply onlyM_foldl | apply onlyO_next | intro _ | (dsimp only)

theorem only_execSpanLinkRetrain {P : Nat} {z : State} {lk : Nat} {s : State} (h_s : OnlyM P z s) (hP : Nat.land 0x100000000000 P = 0x100000000000) : OnlyO P z (execSpanLinkRetrain lk s) := by
  unfold execSpanLinkRetrain
  with_reducible
  repeat' first
    | assumption | exact OnlyM.refl _ _ | split | (refine only_modSpan ?_ (within_trans (by decide) hP))
    | apply onlyM_foldl | apply onlyO_next | intro _ | (dsimp only)

theorem only_execSpanLinkUp {P : Nat} {z : State} {lk lanes : Nat} {s : State} (h_s : OnlyM P z s) (hP : Nat.land 0x100900101020100 P = 0x100900101020100) : OnlyO P z (execSpanLinkUp lk lanes s) := by
  unfold execSpanLinkUp
  with_reducible
  repeat' first
    | assumption | exact OnlyM.refl _ _ | split | (refine only_modSpan ?_ (within_trans (by decide) hP))
    | (refine only_modDom ?_ (within_trans (by decide) hP)) | (refine only_postFault ?_ (within_trans (by decide) hP))
    | apply onlyM_foldl | apply onlyO_next | intro _ | (dsimp only)

theorem only_execSpanFrame {P : Nat} {z : State} {lk : Nat} {f : SpanFrame} {s : State} (h_s : OnlyM P z s) (hP : Nat.land 0x100000000000 P = 0x100000000000) : OnlyO P z (execSpanFrame lk f s) := by
  unfold execSpanFrame
  with_reducible
  repeat' first
    | assumption | exact OnlyM.refl _ _ | split | (refine only_modSpan ?_ (within_trans (by decide) hP))
    | apply onlyM_foldl | apply onlyO_next | intro _ | (dsimp only)

theorem only_peerCtl {P : Nat} {z : State} {s : State} {lk : Nat} {c : Ctl} (h_s : OnlyM P z s) (hP : Nat.land 0x10c9f8939020528 P = 0x10c9f8939020528) : OnlyM P z (State.peerCtl s lk c) := by
  unfold State.peerCtl
  with_reducible
  repeat' first
    | assumption | exact OnlyM.refl _ _ | split | (refine only_subscribed ?_ (within_trans (by decide) hP))
    | (refine only_tempoForward ?_ (within_trans (by decide) hP)) | apply onlyM_foldl | apply onlyO_next | intro _
    | (dsimp only)

theorem only_execSpanVolley {P : Nat} {z : State} {lk : Nat} {s : State} (h_s : OnlyM P z s) (hP : Nat.land 0x10c9f8939020528 P = 0x10c9f8939020528) : OnlyO P z (execSpanVolley lk s) := by
  unfold execSpanVolley
  with_reducible
  repeat' first
    | assumption | exact OnlyM.refl _ _ | split | (refine only_modSpan ?_ (within_trans (by decide) hP))
    | (refine only_peerCtl ?_ (within_trans (by decide) hP))
    | (refine only_loseEvents ?_ (within_trans (by decide) hP))
    | (refine only_inject ?_ (within_trans (by decide) hP)) | (refine only_spanSend ?_ (within_trans (by decide) hP))
    | apply onlyM_foldl | apply onlyO_next
    | (refine onlyM_upd ?_ (fun p hp => by have hl := lacks (within_trans (by decide : Nat.land 0x20000000 0x10c9f8939020528 = 0x20000000) hP) hp; revert hl; clear hp; cases p <;> first | exact fun h => absurd h (by decide) | with_unfolding_all exact fun _ => rfl))
    | intro _ | (dsimp only)

theorem only_spanHeld {P : Nat} {z : State} {s : State} {lk : Nat} (h_s : OnlyM P z s) (hP : Nat.land 0x100000020000 P = 0x100000020000) : OnlyM P z (State.spanHeld s lk) := by
  unfold State.spanHeld
  with_reducible
  repeat' first
    | assumption | exact OnlyM.refl _ _ | split | (refine only_modSpan ?_ (within_trans (by decide) hP))
    | (refine only_modDom ?_ (within_trans (by decide) hP)) | apply onlyM_foldl | apply onlyO_next | intro _
    | (dsimp only)

theorem only_execLinkHold {P : Nat} {z : State} {lk : Nat} {s : State} (h_s : OnlyM P z s) (hP : Nat.land 0x100000020000 P = 0x100000020000) : OnlyO P z (execLinkHold lk s) := by
  unfold execLinkHold
  with_reducible
  repeat' first
    | assumption | exact OnlyM.refl _ _ | split | (refine only_spanHeld ?_ (within_trans (by decide) hP))
    | apply onlyM_foldl | apply onlyO_next | intro _ | (dsimp only)

theorem only_execLinkHoldAck {P : Nat} {z : State} {lk : Nat} {s : State} (h_s : OnlyM P z s) (hP : Nat.land 0x100000020000 P = 0x100000020000) : OnlyO P z (execLinkHoldAck lk s) := by
  unfold execLinkHoldAck
  with_reducible
  repeat' first
    | assumption | exact OnlyM.refl _ _ | split | (refine only_spanHeld ?_ (within_trans (by decide) hP))
    | apply onlyM_foldl | apply onlyO_next | intro _ | (dsimp only)

theorem only_execSpanHoldWake {P : Nat} {z : State} {lk : Nat} {s : State} (h_s : OnlyM P z s) (hP : Nat.land 0x100000020400 P = 0x100000020400) : OnlyO P z (execSpanHoldWake lk s) := by
  unfold execSpanHoldWake
  with_reducible
  repeat' first
    | assumption | exact OnlyM.refl _ _ | split | (refine only_modSpan ?_ (within_trans (by decide) hP))
    | (refine only_modDom ?_ (within_trans (by decide) hP))
    | (refine only_recordWake ?_ (within_trans (by decide) hP)) | apply onlyM_foldl | apply onlyO_next | intro _
    | (dsimp only)

theorem only_execSpanHoldRetrainTimeout {P : Nat} {z : State} {lk : Nat} {s : State} (h_s : OnlyM P z s) (hP : Nat.land 0x10c9f0939020528 P = 0x10c9f0939020528) : OnlyO P z (execSpanHoldRetrainTimeout lk s) := by
  unfold execSpanHoldRetrainTimeout
  with_reducible
  repeat' first
    | assumption | exact OnlyM.refl _ _ | split | (refine only_spanDown ?_ (within_trans (by decide) hP))
    | apply onlyM_foldl | apply onlyO_next | intro _ | (dsimp only)

end Sys2Proof.Machine
end

