-- ==== Sys2Proof/Laws/FrameTrace.lean ====
section
/-! SUPPORT. The frame of every operation of Machine/Trace.lean: the parts that it may change. -/

set_option linter.unusedTactic false
set_option linter.unreachableTactic false
set_option linter.unusedVariables false

namespace Sys2Proof.Machine

open Sys2Proof

theorem only_freeCtr {P : Nat} {z s : State} (h_s : OnlyM P z s) (hP : Nat.land (2 ^ Part.freeCtr.idx) P = 2 ^ Part.freeCtr.idx) :
    OnlyM P z { s with freeCtr := s.freeCtr + 1 } := by
  refine onlyM_upd h_s (fun p hp => ?_)
  have hl := lacks hP hp
  revert hl
  clear hp
  cases p <;> first | exact fun h => absurd h (by decide) | exact fun _ => rfl

theorem only_trcQueue {P : Nat} {z s : State} {q : List TraceRec} (h_s : OnlyM P z s)
    (hP : Nat.land (2 ^ Part.trcQueue.idx) P = 2 ^ Part.trcQueue.idx) : OnlyM P z { s with trc.queue := q } := by
  refine onlyM_upd h_s (fun p hp => ?_)
  have hl := lacks hP hp
  revert hl
  clear hp
  cases p <;> first | exact fun h => absurd h (by decide) | exact fun _ => rfl

theorem only_traceNext {P : Nat} {z s t : State} {v : TraceRec} (h_s : OnlyM P z s)
    (hP : Nat.land 0x100000000000108 P = 0x100000000000108) (e : State.traceNext s = some (v, t)) : OnlyM P z t := by
  unfold State.traceNext at e
  dsimp only at e
  split at e
  · cases e
  · split at e
    · split at e
      · cases e
        exact only_modTile (only_freeCtr h_s (within_trans (by decide) hP)) (within_trans (by decide) hP)
      · cases e
    · split at e
      · cases e
        exact only_trcQueue (only_freeCtr h_s (within_trans (by decide) hP)) (within_trans (by decide) hP)
      · cases e

theorem only_execTraceRecord {P : Nat} {z : State} {s : State} (h_s : OnlyM P z s) (hP : Nat.land 0x700000000000108 P = 0x700000000000108) : OnlyO P z (execTraceRecord s) := by
  unfold execTraceRecord
  with_reducible
  repeat' first
    | assumption | exact OnlyM.refl _ _ | split
    | (refine only_traceNext ?_ (within_trans (by decide) hP) (by assumption)) | apply onlyM_foldl | apply onlyO_next
    | (refine onlyM_upd ?_ (fun p hp => by have hl := lacks (within_trans (by decide : Nat.land 0x700000000000000 0x700000000000108 = 0x700000000000000) hP) hp; revert hl; clear hp; cases p <;> first | exact fun h => absurd h (by decide) | with_unfolding_all exact fun _ => rfl))
    | intro _ | (dsimp only)

theorem only_traceFlush {P : Nat} {z : State} {s : State} {ind : Nat} (h_s : OnlyM P z s) (hP : Nat.land 0x700000000000108 P = 0x700000000000108) : OnlyM P z (State.traceFlush s ind) := by
  induction ind generalizing s with
  | zero => unfold State.traceFlush; exact h_s
  | succ ind ih =>
    unfold State.traceFlush
    with_reducible
    repeat' first
      | assumption | apply ih | exact OnlyM.refl _ _ | split
      | (refine only_traceNext ?_ (within_trans (by decide) hP) (by assumption)) | apply onlyM_foldl | apply onlyO_next
      | (refine onlyM_upd ?_ (fun p hp => by have hl := lacks (within_trans (by decide : Nat.land 0x700000000000000 0x700000000000108 = 0x700000000000000) hP) hp; revert hl; clear hp; cases p <;> first | exact fun h => absurd h (by decide) | with_unfolding_all exact fun _ => rfl))
      | intro _ | (dsimp only)

theorem only_execTracePortDrain {P : Nat} {z : State} {halfwords : Nat} {s : State} (h_s : OnlyM P z s) (hP : Nat.land 0x700000000000000 P = 0x700000000000000) : OnlyO P z (execTracePortDrain halfwords s) := by
  unfold execTracePortDrain
  with_reducible
  repeat' first
    | assumption | exact OnlyM.refl _ _ | split | apply onlyM_foldl | apply onlyO_next
    | (refine onlyM_upd ?_ (fun p hp => by have hl := lacks (within_trans (by decide : Nat.land 0x700000000000000 0x700000000000000 = 0x700000000000000) hP) hp; revert hl; clear hp; cases p <;> first | exact fun h => absurd h (by decide) | with_unfolding_all exact fun _ => rfl))
    | intro _ | (dsimp only)

theorem only_traceCmd {P : Nat} {z : State} {op need : Nat} {idle : Bool} {ok : State → Nat → DWord → Bool} {f : State → ExecCmd → Nat → Word → Trace} {rk seq : Nat} {s : State} (h_s : OnlyM P z s) (hP : Nat.land 0x700000103020400 P = 0x700000103020400) : OnlyO P z (traceCmd op need idle ok f rk seq s) := by
  unfold traceCmd
  with_reducible
  repeat' first
    | assumption | exact OnlyM.refl _ _ | split | (refine only_runCmd ?_ ?_ (within_trans (by decide) hP))
    | (refine only_complete ?_ (within_trans (by decide) hP)) | (refine only_wakeDom ?_ (within_trans (by decide) hP))
    | apply onlyM_foldl | apply onlyO_next
    | (refine onlyM_upd ?_ (fun p hp => by have hl := lacks (within_trans (by decide : Nat.land 0x700000000000000 0x700000103020400 = 0x700000000000000) hP) hp; revert hl; clear hp; cases p <;> first | exact fun h => absurd h (by decide) | with_unfolding_all exact fun _ => rfl))
    | intro _ | (dsimp only)

theorem only_execTraceStop {P : Nat} {z : State} {rk seq : Nat} {s : State} (h_s : OnlyM P z s) (hP : Nat.land 0x700000103020508 P = 0x700000103020508) : OnlyO P z (execTraceStop rk seq s) := by
  unfold execTraceStop
  with_reducible
  repeat' first
    | assumption | exact OnlyM.refl _ _ | split | (refine only_runCmd ?_ ?_ (within_trans (by decide) hP))
    | (refine only_complete ?_ (within_trans (by decide) hP)) | (refine only_wakeDom ?_ (within_trans (by decide) hP))
    | (refine only_traceFlush ?_ (within_trans (by decide) hP)) | apply onlyM_foldl | apply onlyO_next
    | (refine onlyM_upd ?_ (fun p hp => by have hl := lacks (within_trans (by decide : Nat.land 0x200000000000000 0x700000103020508 = 0x200000000000000) hP) hp; revert hl; clear hp; cases p <;> first | exact fun h => absurd h (by decide) | with_unfolding_all exact fun _ => rfl))
    | intro _ | (dsimp only)

theorem only_execTraceStart {P : Nat} {z : State} {rk seq : Nat} {s : State} (h_s : OnlyM P z s) (hP : Nat.land 0x700000103020400 P = 0x700000103020400) : OnlyO P z (execTraceStart rk seq s) := by
  unfold execTraceStart
  with_reducible
  repeat' first
    | assumption | exact OnlyM.refl _ _ | split | (refine only_traceCmd ?_ (within_trans (by decide) hP))
    | apply onlyM_foldl | apply onlyO_next | intro _ | (dsimp only)

theorem only_execTraceSource {P : Nat} {z : State} {rk seq : Nat} {s : State} (h_s : OnlyM P z s) (hP : Nat.land 0x700000103020400 P = 0x700000103020400) : OnlyO P z (execTraceSource rk seq s) := by
  unfold execTraceSource
  with_reducible
  repeat' first
    | assumption | exact OnlyM.refl _ _ | split | (refine only_traceCmd ?_ (within_trans (by decide) hP))
    | apply onlyM_foldl | apply onlyO_next | intro _ | (dsimp only)

theorem only_execTraceFilter {P : Nat} {z : State} {rk seq : Nat} {s : State} (h_s : OnlyM P z s) (hP : Nat.land 0x700000103020400 P = 0x700000103020400) : OnlyO P z (execTraceFilter rk seq s) := by
  unfold execTraceFilter
  with_reducible
  repeat' first
    | assumption | exact OnlyM.refl _ _ | split | (refine only_traceCmd ?_ (within_trans (by decide) hP))
    | apply onlyM_foldl | apply onlyO_next | intro _ | (dsimp only)

theorem only_execTraceTrigger {P : Nat} {z : State} {rk seq : Nat} {s : State} (h_s : OnlyM P z s) (hP : Nat.land 0x700000103020400 P = 0x700000103020400) : OnlyO P z (execTraceTrigger rk seq s) := by
  unfold execTraceTrigger
  with_reducible
  repeat' first
    | assumption | exact OnlyM.refl _ _ | split | (refine only_traceCmd ?_ (within_trans (by decide) hP))
    | apply onlyM_foldl | apply onlyO_next | intro _ | (dsimp only)

theorem only_execTraceOutput {P : Nat} {z : State} {rk seq : Nat} {s : State} (h_s : OnlyM P z s) (hP : Nat.land 0x700000103020400 P = 0x700000103020400) : OnlyO P z (execTraceOutput rk seq s) := by
  unfold execTraceOutput
  with_reducible
  repeat' first
    | assumption | exact OnlyM.refl _ _ | split | (refine only_traceCmd ?_ (within_trans (by decide) hP))
    | apply onlyM_foldl | apply onlyO_next | intro _ | (dsimp only)

theorem only_execTraceClear {P : Nat} {z : State} {rk seq : Nat} {s : State} (h_s : OnlyM P z s) (hP : Nat.land 0x700000103020400 P = 0x700000103020400) : OnlyO P z (execTraceClear rk seq s) := by
  unfold execTraceClear
  with_reducible
  repeat' first
    | assumption | exact OnlyM.refl _ _ | split | (refine only_traceCmd ?_ (within_trans (by decide) hP))
    | apply onlyM_foldl | apply onlyO_next | intro _ | (dsimp only)

theorem only_traceDrain {P : Nat} {z : State} {s : State} (h_s : OnlyM P z s) (hP : Nat.land 0x700000000000108 P = 0x700000000000108) : OnlyM P z (State.traceDrain s) := by
  unfold State.traceDrain
  with_reducible
  repeat' first
    | assumption | exact OnlyM.refl _ _ | split | (refine only_traceFlush ?_ (within_trans (by decide) hP))
    | apply onlyM_foldl | apply onlyO_next | intro _ | (dsimp only)

theorem only_traceReset {P : Nat} {z : State} {s : State} (h_s : OnlyM P z s) (hP : Nat.land 0x700000000000008 P = 0x700000000000008) : OnlyM P z (State.traceReset s) := by
  unfold State.traceReset
  with_reducible
  repeat' first
    | assumption | exact OnlyM.refl _ _ | split | apply onlyM_foldl | apply onlyO_next
    | (refine onlyM_upd ?_ (fun p hp => by have hl := lacks (within_trans (by decide : Nat.land 0x700000000000008 0x700000000000008 = 0x700000000000008) hP) hp; revert hl; clear hp; cases p <;> first | exact fun h => absurd h (by decide) | with_unfolding_all exact fun _ => rfl))
    | intro _ | (dsimp only)

theorem only_traceTileReset {P : Nat} {z : State} {s : State} {t : Nat} (h_s : OnlyM P z s) (hP : Nat.land 0x700000000000008 P = 0x700000000000008) : OnlyM P z (State.traceTileReset s t) := by
  unfold State.traceTileReset
  with_reducible
  repeat' first
    | assumption | exact OnlyM.refl _ _ | split | (refine only_modTile ?_ (within_trans (by decide) hP))
    | apply onlyM_foldl | apply onlyO_next
    | (refine onlyM_upd ?_ (fun p hp => by have hl := lacks (within_trans (by decide : Nat.land 0x700000000000000 0x700000000000008 = 0x700000000000000) hP) hp; revert hl; clear hp; cases p <;> first | exact fun h => absurd h (by decide) | with_unfolding_all exact fun _ => rfl))
    | intro _ | (dsimp only)

end Sys2Proof.Machine
end

