-- ==== Sys2Proof/Laws/FramePower.lean ====
section
/-! SUPPORT. The frame of every operation of Machine/Power.lean: the parts that it may change. -/

set_option linter.unusedTactic false
set_option linter.unreachableTactic false
set_option linter.unusedVariables false

namespace Sys2Proof.Machine

open Sys2Proof

theorem only_execLullEntry {P : Nat} {z : State} {dom : Nat} {s : State} (h_s : OnlyM P z s) (hP : Nat.land 0x20000 P = 0x20000) : OnlyO P z (execLullEntry dom s) := by
  unfold execLullEntry
  with_reducible
  repeat' first
    | assumption | exact OnlyM.refl _ _ | split | (refine only_modDom ?_ (within_trans (by decide) hP))
    | apply onlyM_foldl | apply onlyO_next | intro _ | (dsimp only)

theorem only_execHoldEntry {P : Nat} {z : State} {dom : Nat} {s : State} (h_s : OnlyM P z s) (hP : Nat.land 0x100000024000 P = 0x100000024000) : OnlyO P z (execHoldEntry dom s) := by
  unfold execHoldEntry
  with_reducible
  repeat' first
    | assumption | exact OnlyM.refl _ _ | split | (refine only_modSpan ?_ (within_trans (by decide) hP))
    | (refine only_modDom ?_ (within_trans (by decide) hP)) | apply onlyM_foldl | apply onlyO_next
    | (refine onlyM_upd ?_ (fun p hp => by have hl := lacks (within_trans (by decide : Nat.land 0x4000 0x100000024000 = 0x4000) hP) hp; revert hl; clear hp; cases p <;> first | exact fun h => absurd h (by decide) | with_unfolding_all exact fun _ => rfl))
    | intro _ | (dsimp only)

theorem only_domAwake {P : Nat} {z : State} {s : State} {d : Nat} (h_s : OnlyM P z s) (hP : Nat.land 0x20000 P = 0x20000) : OnlyM P z (State.domAwake s d) := by
  unfold State.domAwake
  with_reducible
  repeat' first
    | assumption | exact OnlyM.refl _ _ | split | (refine only_modDom ?_ (within_trans (by decide) hP))
    | apply onlyM_foldl | apply onlyO_next | intro _ | (dsimp only)

theorem only_execDomainReady {P : Nat} {z : State} {dom : Nat} {s : State} (h_s : OnlyM P z s) (hP : Nat.land 0x20000 P = 0x20000) : OnlyO P z (execDomainReady dom s) := by
  unfold execDomainReady
  with_reducible
  repeat' first
    | assumption | exact OnlyM.refl _ _ | split | (refine only_domAwake ?_ (within_trans (by decide) hP))
    | apply onlyM_foldl | apply onlyO_next | intro _ | (dsimp only)

theorem only_execPowerReqWake {P : Nat} {z : State} {dom : Nat} {s : State} (h_s : OnlyM P z s) (hP : Nat.land 0x20400 P = 0x20400) : OnlyO P z (execPowerReqWake dom s) := by
  unfold execPowerReqWake
  with_reducible
  repeat' first
    | assumption | exact OnlyM.refl _ _ | split | (refine only_wakeDom ?_ (within_trans (by decide) hP))
    | apply onlyM_foldl | apply onlyO_next | intro _ | (dsimp only)

theorem only_execPowerReqIdle {P : Nat} {z : State} {dom : Nat} {s : State} (h_s : OnlyM P z s) (hP : Nat.land 0x20000 P = 0x20000) : OnlyO P z (execPowerReqIdle dom s) := by
  unfold execPowerReqIdle
  with_reducible
  repeat' first
    | assumption | exact OnlyM.refl _ _ | split | (refine only_modDom ?_ (within_trans (by decide) hP))
    | apply onlyM_foldl | apply onlyO_next | intro _ | (dsimp only)

theorem only_execPowerReqState {P : Nat} {z : State} {dom state : Nat} {s : State} (h_s : OnlyM P z s) (hP : Nat.land 0x20000 P = 0x20000) : OnlyO P z (execPowerReqState dom state s) := by
  unfold execPowerReqState
  with_reducible
  repeat' first
    | assumption | exact OnlyM.refl _ _ | split | (refine only_modDom ?_ (within_trans (by decide) hP))
    | apply onlyM_foldl | apply onlyO_next | intro _ | (dsimp only)

theorem only_execPowerReqCap {P : Nat} {z : State} {dom : Nat} {on : Bool} {s : State} (h_s : OnlyM P z s) (hP : Nat.land 0x8 P = 0x8) : OnlyO P z (execPowerReqCap dom on s) := by
  unfold execPowerReqCap
  with_reducible
  repeat' first
    | assumption | exact OnlyM.refl _ _ | split | (refine only_modTile ?_ (within_trans (by decide) hP))
    | apply onlyM_foldl | apply onlyO_next | intro _ | (dsimp only)

theorem only_execCapWindow {P : Nat} {z : State} {p : Nat} {s : State} (h_s : OnlyM P z s) (hP : Nat.land 0x40000 P = 0x40000) : OnlyO P z (execCapWindow p s) := by
  unfold execCapWindow
  with_reducible
  repeat' first
    | assumption | exact OnlyM.refl _ _ | split | apply onlyM_foldl | apply onlyO_next
    | (refine onlyM_upd ?_ (fun p hp => by have hl := lacks (within_trans (by decide : Nat.land 0x40000 0x40000 = 0x40000) hP) hp; revert hl; clear hp; cases p <;> first | exact fun h => absurd h (by decide) | with_unfolding_all exact fun _ => rfl))
    | intro _ | (dsimp only)

theorem only_powerSet {P : Nat} {z : State} {op : Nat} {f : State → ExecCmd → DWord → State × Code} {rk seq : Nat} {s : State} (h_f : ∀ t0 t1 t2, OnlyM P t0 (f t0 t1 t2).1) (h_s : OnlyM P z s) (hP : Nat.land 0x100000103020400 P = 0x100000103020400) : OnlyO P z (powerSet op f rk seq s) := by
  unfold powerSet
  with_reducible
  repeat' first
    | assumption | (refine OnlyM.trans ?_ (h_f ..)) | exact OnlyM.refl _ _ | split
    | (refine only_runCmd ?_ ?_ (within_trans (by decide) hP))
    | (refine only_complete ?_ (within_trans (by decide) hP)) | apply onlyM_foldl | apply onlyO_next | intro _
    | (dsimp only)

theorem only_execPowerSetCap {P : Nat} {z : State} {rk seq : Nat} {s : State} (h_s : OnlyM P z s) (hP : Nat.land 0x100000103060400 P = 0x100000103060400) : OnlyO P z (execPowerSetCap rk seq s) := by
  unfold execPowerSetCap
  with_reducible
  repeat' first
    | assumption | exact OnlyM.refl _ _ | split | (refine only_powerSet ?_ ?_ (within_trans (by decide) hP))
    | apply onlyM_foldl | apply onlyO_next
    | (refine onlyM_upd ?_ (fun p hp => by have hl := lacks (within_trans (by decide : Nat.land 0x40000 0x100000103060400 = 0x40000) hP) hp; revert hl; clear hp; cases p <;> first | exact fun h => absurd h (by decide) | with_unfolding_all exact fun _ => rfl))
    | intro _ | (dsimp only)

theorem only_wakeDeep {P : Nat} {z : State} {s : State} (h_s : OnlyM P z s) (hP : Nat.land 0x20400 P = 0x20400) : OnlyM P z (State.wakeDeep s) := by
  unfold State.wakeDeep
  with_reducible
  repeat' first
    | assumption | exact OnlyM.refl _ _ | split | (refine only_wakeDom ?_ (within_trans (by decide) hP))
    | apply onlyM_foldl | apply onlyO_next | intro _ | (dsimp only)

theorem only_setPower {P : Nat} {z s : State} {c : PowerCfg} (h_s : OnlyM P z s)
    (hP : Nat.land (2 ^ Part.power.idx) P = 2 ^ Part.power.idx) : OnlyM P z { s with pwr.cfg := c } := by
  refine onlyM_upd h_s (fun p hp => ?_)
  have hl := lacks hP hp
  revert hl
  clear hp
  cases p <;> first | exact fun h => absurd h (by decide) | exact fun _ => rfl

theorem only_execPowerSetDepth {P : Nat} {z s : State} {rk seq : Nat} (h_s : OnlyM P z s) (hP : Nat.land 0x100000103060400 P = 0x100000103060400) :
    OnlyO P z (execPowerSetDepth rk seq s) := by
  unfold execPowerSetDepth
  refine only_powerSet ?_ h_s (within_trans (by decide) hP)
  intro t c w
  dsimp only
  repeat' split
  all_goals first
    | exact .refl _ _
    | exact only_wakeDeep (only_setPower (.refl _ _) (within_trans (by decide) hP)) (within_trans (by decide) hP)

theorem only_execPowerSetDoldrums {P : Nat} {z : State} {rk seq : Nat} {s : State} (h_s : OnlyM P z s) (hP : Nat.land 0x100000103064400 P = 0x100000103064400) : OnlyO P z (execPowerSetDoldrums rk seq s) := by
  unfold execPowerSetDoldrums
  with_reducible
  repeat' first
    | assumption | exact OnlyM.refl _ _ | split | (refine only_powerSet ?_ ?_ (within_trans (by decide) hP))
    | apply onlyM_foldl | apply onlyO_next
    | (refine onlyM_upd ?_ (fun p hp => by have hl := lacks (within_trans (by decide : Nat.land 0x44000 0x100000103064400 = 0x44000) hP) hp; revert hl; clear hp; cases p <;> first | exact fun h => absurd h (by decide) | with_unfolding_all exact fun _ => rfl))
    | intro _ | (dsimp only)

theorem only_powerLoss {P : Nat} {z : State} {s : State} (h_s : OnlyM P z s) (hP : Nat.land 0x7fffffffffffe7c P = 0x7fffffffffffe7c) : OnlyM P z (State.powerLoss s) := by
  unfold State.powerLoss
  with_reducible
  repeat' first
    | assumption | exact OnlyM.refl _ _ | split | apply onlyM_foldl | apply onlyO_next
    | (refine onlyM_upd ?_ (fun p hp => by have hl := lacks (within_trans (by decide : Nat.land 0x7fffffffffffe7c 0x7fffffffffffe7c = 0x7fffffffffffe7c) hP) hp; revert hl; clear hp; cases p <;> first | exact fun h => absurd h (by decide) | with_unfolding_all exact fun _ => rfl))
    | intro _ | (dsimp only)

theorem only_doldRecord {P : Nat} {z : State} {s : State} (h_s : OnlyM P z s) (hP : Nat.land 0x8000 P = 0x8000) : OnlyM P z (State.doldRecord s) := by
  unfold State.doldRecord
  with_reducible
  repeat' first
    | assumption | exact OnlyM.refl _ _ | split | apply onlyM_foldl | apply onlyO_next
    | (refine onlyM_upd ?_ (fun p hp => by have hl := lacks (within_trans (by decide : Nat.land 0x8000 0x8000 = 0x8000) hP) hp; revert hl; clear hp; cases p <;> first | exact fun h => absurd h (by decide) | with_unfolding_all exact fun _ => rfl))
    | intro _ | (dsimp only)

theorem only_enterDoldrums {P : Nat} {z : State} {s : State} (h_s : OnlyM P z s) (hP : Nat.land 0x7fffffffffffe7c P = 0x7fffffffffffe7c) : OnlyM P z (State.enterDoldrums s) := by
  unfold State.enterDoldrums
  with_reducible
  repeat' first
    | assumption | exact OnlyM.refl _ _ | split | (refine only_eachOut ?_ (within_trans (by decide) hP))
    | (refine only_doldRecord ?_ (within_trans (by decide) hP))
    | (refine only_powerLoss ?_ (within_trans (by decide) hP))
    | (refine only_packageWake ?_ (within_trans (by decide) hP)) | apply onlyM_foldl | apply onlyO_next
    | (refine onlyM_upd ?_ (fun p hp => by have hl := lacks (within_trans (by decide : Nat.land 0x6000 0x7fffffffffffe7c = 0x6000) hP) hp; revert hl; clear hp; cases p <;> first | exact fun h => absurd h (by decide) | with_unfolding_all exact fun _ => rfl))
    | intro _ | (dsimp only)

theorem only_execDoldrumsEntry {P : Nat} {z : State} {s : State} (h_s : OnlyM P z s) (hP : Nat.land 0x7fffffffffffe7c P = 0x7fffffffffffe7c) : OnlyO P z (execDoldrumsEntry s) := by
  unfold execDoldrumsEntry
  with_reducible
  repeat' first
    | assumption | exact OnlyM.refl _ _ | split | (refine only_enterDoldrums ?_ (within_trans (by decide) hP))
    | apply onlyM_foldl | apply onlyO_next | intro _ | (dsimp only)

theorem only_execDoldrumsAuto {P : Nat} {z : State} {s : State} (h_s : OnlyM P z s) (hP : Nat.land 0x7fffffffffffe7c P = 0x7fffffffffffe7c) : OnlyO P z (execDoldrumsAuto s) := by
  unfold execDoldrumsAuto
  with_reducible
  repeat' first
    | assumption | exact OnlyM.refl _ _ | split | (refine only_enterDoldrums ?_ (within_trans (by decide) hP))
    | apply onlyM_foldl | apply onlyO_next | intro _ | (dsimp only)

theorem only_execWakeTimerExpiry {P : Nat} {z : State} {s : State} (h_s : OnlyM P z s) (hP : Nat.land 0x10c9f093902e528 P = 0x10c9f093902e528) : OnlyO P z (execWakeTimerExpiry s) := by
  unfold execWakeTimerExpiry
  with_reducible
  repeat' first
    | assumption | exact OnlyM.refl _ _ | split | (refine only_wakeDom ?_ (within_trans (by decide) hP))
    | (refine only_parkWorld ?_ (within_trans (by decide) hP))
    | (refine only_wakeSource ?_ (within_trans (by decide) hP)) | apply onlyM_foldl | apply onlyO_next
    | (refine onlyM_upd ?_ (fun p hp => by have hl := lacks (within_trans (by decide : Nat.land 0x4000 0x10c9f093902e528 = 0x4000) hP) hp; revert hl; clear hp; cases p <;> first | exact fun h => absurd h (by decide) | with_unfolding_all exact fun _ => rfl))
    | intro _ | (dsimp only)

theorem only_execPerstRelease {P : Nat} {z : State} {port : Nat} {s : State} (h_s : OnlyM P z s) (hP : Nat.land 0xe400 P = 0xe400) : OnlyO P z (execPerstRelease port s) := by
  unfold execPerstRelease
  with_reducible
  repeat' first
    | assumption | exact OnlyM.refl _ _ | split | (refine only_wakeSource ?_ (within_trans (by decide) hP))
    | apply onlyM_foldl | apply onlyO_next | intro _ | (dsimp only)

theorem only_sense {P : Nat} {z : State} {s : State} {sensor tj : Nat} (h_s : OnlyM P z s) (hP : Nat.land 0x10000 P = 0x10000) : OnlyM P z (State.sense s sensor tj) := by
  unfold State.sense
  with_reducible
  repeat' first
    | assumption | exact OnlyM.refl _ _ | split | apply onlyM_foldl | apply onlyO_next
    | (refine onlyM_upd ?_ (fun p hp => by have hl := lacks (within_trans (by decide : Nat.land 0x10000 0x10000 = 0x10000) hP) hp; revert hl; clear hp; cases p <;> first | exact fun h => absurd h (by decide) | with_unfolding_all exact fun _ => rfl))
    | intro _ | (dsimp only)

theorem only_hot {P : Nat} {z : State} {s : State} (h_s : OnlyM P z s) (hP : Nat.land 0x50000 P = 0x50000) : OnlyM P z (State.hot s) := by
  unfold State.hot
  with_reducible
  repeat' first
    | assumption | exact OnlyM.refl _ _ | split | apply onlyM_foldl | apply onlyO_next
    | (refine onlyM_upd ?_ (fun p hp => by have hl := lacks (within_trans (by decide : Nat.land 0x50000 0x50000 = 0x50000) hP) hp; revert hl; clear hp; cases p <;> first | exact fun h => absurd h (by decide) | with_unfolding_all exact fun _ => rfl))
    | intro _ | (dsimp only)

theorem only_execThermalThrottle {P : Nat} {z : State} {sensor tj : Nat} {s : State} (h_s : OnlyM P z s) (hP : Nat.land 0x50000 P = 0x50000) : OnlyO P z (execThermalThrottle sensor tj s) := by
  unfold execThermalThrottle
  with_reducible
  repeat' first
    | assumption | exact OnlyM.refl _ _ | split | (refine only_sense ?_ (within_trans (by decide) hP))
    | (refine only_hot ?_ (within_trans (by decide) hP)) | apply onlyM_foldl | apply onlyO_next | intro _
    | (dsimp only)

theorem only_execThermalClear {P : Nat} {z : State} {tj : Nat} {s : State} (h_s : OnlyM P z s) (hP : Nat.land 0x10000 P = 0x10000) : OnlyO P z (execThermalClear tj s) := by
  unfold execThermalClear
  with_reducible
  repeat' first
    | assumption | exact OnlyM.refl _ _ | split | (refine only_sense ?_ (within_trans (by decide) hP))
    | apply onlyM_foldl | apply onlyO_next
    | (refine onlyM_upd ?_ (fun p hp => by have hl := lacks (within_trans (by decide : Nat.land 0x10000 0x10000 = 0x10000) hP) hp; revert hl; clear hp; cases p <;> first | exact fun h => absurd h (by decide) | with_unfolding_all exact fun _ => rfl))
    | intro _ | (dsimp only)

theorem only_execThermalTrip {P : Nat} {z : State} {sensor tj : Nat} {s : State} (h_s : OnlyM P z s) (hP : Nat.land 0x7fffffffffffe7c P = 0x7fffffffffffe7c) : OnlyO P z (execThermalTrip sensor tj s) := by
  unfold execThermalTrip
  with_reducible
  repeat' first
    | assumption | exact OnlyM.refl _ _ | split | (refine only_sense ?_ (within_trans (by decide) hP))
    | (refine only_hot ?_ (within_trans (by decide) hP))
    | (refine only_enterDoldrums ?_ (within_trans (by decide) hP)) | apply onlyM_foldl | apply onlyO_next
    | (refine onlyM_upd ?_ (fun p hp => by have hl := lacks (within_trans (by decide : Nat.land 0x10000 0x7fffffffffffe7c = 0x10000) hP) hp; revert hl; clear hp; cases p <;> first | exact fun h => absurd h (by decide) | with_unfolding_all exact fun _ => rfl))
    | intro _ | (dsimp only)

theorem only_execTripCooldown {P : Nat} {z : State} {s : State} (h_s : OnlyM P z s) (hP : Nat.land 0x1e400 P = 0x1e400) : OnlyO P z (execTripCooldown s) := by
  unfold execTripCooldown
  with_reducible
  repeat' first
    | assumption | exact OnlyM.refl _ _ | split | (refine only_packageWake ?_ (within_trans (by decide) hP))
    | apply onlyM_foldl | apply onlyO_next
    | (refine onlyM_upd ?_ (fun p hp => by have hl := lacks (within_trans (by decide : Nat.land 0x10000 0x1e400 = 0x10000) hP) hp; revert hl; clear hp; cases p <;> first | exact fun h => absurd h (by decide) | with_unfolding_all exact fun _ => rfl))
    | intro _ | (dsimp only)

theorem only_inputAll {P : Nat} {z : State} {s : State} {kind i : Nat} (h_s : OnlyM P z s) (hP : Nat.land 0x10c9f0939020528 P = 0x10c9f0939020528) : OnlyM P z (State.inputAll s kind i) := by
  unfold State.inputAll
  with_reducible
  repeat' first
    | assumption | exact OnlyM.refl _ _ | split | (refine only_input ?_ (within_trans (by decide) hP))
    | apply onlyM_foldl | apply onlyO_next | intro _ | (dsimp only)

theorem only_execTempoInEdge {P : Nat} {z : State} {pin : Nat} {rising : Bool} {s : State} (h_s : OnlyM P z s) (hP : Nat.land 0x10c9f093902ed28 P = 0x10c9f093902ed28) : OnlyO P z (execTempoInEdge pin rising s) := by
  unfold execTempoInEdge
  with_reducible
  repeat' first
    | assumption | exact OnlyM.refl _ _ | split | (refine only_inputAll ?_ (within_trans (by decide) hP))
    | (refine only_wakeSource ?_ (within_trans (by decide) hP)) | apply onlyM_foldl | apply onlyO_next
    | (refine onlyM_upd ?_ (fun p hp => by have hl := lacks (within_trans (by decide : Nat.land 0x800 0x10c9f093902ed28 = 0x800) hP) hp; revert hl; clear hp; cases p <;> first | exact fun h => absurd h (by decide) | with_unfolding_all exact fun _ => rfl))
    | intro _ | (dsimp only)

theorem only_execTempoInGlitch {P : Nat} {z : State} {pin ns : Nat} {s : State} (h_s : OnlyM P z s) (hP : Nat.land 0x900 P = 0x900) : OnlyO P z (execTempoInGlitch pin ns s) := by
  unfold execTempoInGlitch
  with_reducible
  repeat' first
    | assumption | exact OnlyM.refl _ _ | split | apply onlyM_foldl | apply onlyO_next
    | (refine onlyM_upd ?_ (fun p hp => by have hl := lacks (within_trans (by decide : Nat.land 0x900 0x900 = 0x900) hP) hp; revert hl; clear hp; cases p <;> first | exact fun h => absurd h (by decide) | with_unfolding_all exact fun _ => rfl))
    | intro _ | (dsimp only)

theorem only_backCount {P : Nat} {z : State} {s : State} {w : Nat} (h_s : OnlyM P z s) (hP : Nat.land 0x10c9f0939020528 P = 0x10c9f0939020528) : OnlyM P z (State.backCount s w) := by
  unfold State.backCount
  with_reducible
  repeat' first
    | assumption | exact OnlyM.refl _ _ | split | (refine only_wakeDom ?_ (within_trans (by decide) hP))
    | (refine only_modWorld ?_ (within_trans (by decide) hP))
    | (refine only_parkWorld ?_ (within_trans (by decide) hP)) | apply onlyM_foldl | apply onlyO_next | intro _
    | (dsimp only)

theorem only_foreCount {P : Nat} {z : State} {s : State} {w : Nat} (h_s : OnlyM P z s) (hP : Nat.land 0x10c9f0939020528 P = 0x10c9f0939020528) : OnlyM P z (State.foreCount s w) := by
  unfold State.foreCount
  with_reducible
  repeat' first
    | assumption | exact OnlyM.refl _ _ | split | (refine only_wakeDom ?_ (within_trans (by decide) hP))
    | (refine only_modWorld ?_ (within_trans (by decide) hP)) | (refine only_input ?_ (within_trans (by decide) hP))
    | apply onlyM_foldl | apply onlyO_next | intro _ | (dsimp only)

theorem only_execEncoderCount {P : Nat} {z : State} {pt : Nat} {forward : Bool} {s : State} (h_s : OnlyM P z s) (hP : Nat.land 0x10c9f0939020528 P = 0x10c9f0939020528) : OnlyO P z (execEncoderCount pt forward s) := by
  unfold execEncoderCount
  with_reducible
  repeat' first
    | assumption | exact OnlyM.refl _ _ | split | (refine only_modPort ?_ (within_trans (by decide) hP))
    | (refine only_foreCount ?_ (within_trans (by decide) hP))
    | (refine only_backCount ?_ (within_trans (by decide) hP)) | apply onlyM_foldl | apply onlyO_next | intro _
    | (dsimp only)

end Sys2Proof.Machine
end

