-- ==== Sys2Proof/Laws/FrameLoad.lean ====
section
/-! SUPPORT. The frame of every operation of Machine/Load.lean: the parts that it may change. -/

set_option linter.unusedTactic false
set_option linter.unreachableTactic false
set_option linter.unusedVariables false

namespace Sys2Proof.Machine

open Sys2Proof

theorem only_colItems {P : Nat} {z s : State} {t n a : Nat} {l : List Nat} (h_s : OnlyM P z s) (hP : Nat.land 0x4 P = 0x4) :
    OnlyM P z (State.colItems s t n a l) := by
  induction l generalizing s a with
  | nil => unfold State.colItems; exact h_s
  | cons x r ih => unfold State.colItems; exact ih (only_colWrite h_s (within_trans (by decide) hP))

theorem only_colZero {P : Nat} {z : State} {s : State} {t a n : Nat} (h_s : OnlyM P z s) (hP : Nat.land 0x4 P = 0x4) : OnlyM P z (State.colZero s t a n) := by
  unfold State.colZero
  with_reducible
  repeat' first
    | assumption | exact OnlyM.refl _ _ | split | apply onlyM_foldl | apply onlyO_next
    | (refine onlyM_upd ?_ (fun p hp => by have hl := lacks (within_trans (by decide : Nat.land 0x4 0x4 = 0x4) hP) hp; revert hl; clear hp; cases p <;> first | exact fun h => absurd h (by decide) | with_unfolding_all exact fun _ => rfl))
    | intro _ | (dsimp only)

theorem only_writeReserve {P : Nat} {z : State} {s : State} {t : Nat} (h_s : OnlyM P z s) (hP : Nat.land 0x4 P = 0x4) : OnlyM P z (State.writeReserve s t) := by
  unfold State.writeReserve
  with_reducible
  repeat' first
    | assumption | exact OnlyM.refl _ _ | split | (refine only_colZero ?_ (within_trans (by decide) hP))
    | (refine only_colWrite ?_ (within_trans (by decide) hP))
    | (refine only_colItems ?_ (within_trans (by decide) hP)) | apply onlyM_foldl | apply onlyO_next | intro _
    | (dsimp only)

theorem only_putHost {P : Nat} {z : State} {s : State} {e : HostEntry} (h_s : OnlyM P z s) (hP : Nat.land 0x1000000 P = 0x1000000) : OnlyM P z (State.putHost s e) := by
  unfold State.putHost
  with_reducible
  repeat' first
    | assumption | exact OnlyM.refl _ _ | split | (refine only_modLd ?_ (within_trans (by decide) hP))
    | apply onlyM_foldl | apply onlyO_next | intro _ | (dsimp only)

theorem only_putRack {P : Nat} {z : State} {s : State} {r : RackCfg} (h_s : OnlyM P z s) (hP : Nat.land 0x100000000 P = 0x100000000) : OnlyM P z (State.putRack s r) := by
  unfold State.putRack
  with_reducible
  repeat' first
    | assumption | exact OnlyM.refl _ _ | split | (refine only_modRack ?_ (within_trans (by decide) hP))
    | apply onlyM_foldl | apply onlyO_next | intro _ | (dsimp only)

theorem only_putSet {P : Nat} {z : State} {s : State} {c : SetCfg} (h_s : OnlyM P z s) (hP : Nat.land 0x300000000 P = 0x300000000) : OnlyM P z (State.putSet s c) := by
  unfold State.putSet
  with_reducible
  repeat' first
    | assumption | exact OnlyM.refl _ _ | split | (refine only_modRack ?_ (within_trans (by decide) hP))
    | apply onlyM_foldl | apply onlyO_next
    | (refine onlyM_upd ?_ (fun p hp => by have hl := lacks (within_trans (by decide : Nat.land 0x200000000 0x300000000 = 0x200000000) hP) hp; revert hl; clear hp; cases p <;> first | exact fun h => absurd h (by decide) | with_unfolding_all exact fun _ => rfl))
    | intro _ | (dsimp only)

theorem only_putWorld {P : Nat} {z : State} {s : State} {w : Nat} {e : WorldEntry} (h_s : OnlyM P z s) (hP : Nat.land 0x202412f492cc97c P = 0x202412f492cc97c) : OnlyM P z (State.putWorld s w e) := by
  unfold State.putWorld
  with_reducible
  repeat' first
    | assumption | exact OnlyM.refl _ _ | split | (refine only_modWorld ?_ (within_trans (by decide) hP))
    | (refine only_load ?_ (within_trans (by decide) hP)) | apply onlyM_foldl | apply onlyO_next | intro _
    | (dsimp only)

theorem only_putPort {P : Nat} {z : State} {s : State} {n : Nat} {c : PortCfg} (h_s : OnlyM P z s) (hP : Nat.land 0x20 P = 0x20) : OnlyM P z (State.putPort s n c) := by
  unfold State.putPort
  with_reducible
  repeat' first
    | assumption | exact OnlyM.refl _ _ | split | (refine only_modPort ?_ (within_trans (by decide) hP))
    | (refine only_eachOut ?_ (within_trans (by decide) hP)) | apply onlyM_foldl | apply onlyO_next | intro _
    | (dsimp only)

theorem only_putWindows {P : Nat} {z : State} {s : State} {c : PoolCfg} (h_s : OnlyM P z s) (hP : Nat.land 0x400000000000 P = 0x400000000000) : OnlyM P z (State.putWindows s c) := by
  unfold State.putWindows
  with_reducible
  repeat' first
    | assumption | exact OnlyM.refl _ _ | split | apply onlyM_foldl | apply onlyO_next
    | (refine onlyM_upd ?_ (fun p hp => by have hl := lacks (within_trans (by decide : Nat.land 0x400000000000 0x400000000000 = 0x400000000000) hP) hp; revert hl; clear hp; cases p <;> first | exact fun h => absurd h (by decide) | with_unfolding_all exact fun _ => rfl))
    | intro _ | (dsimp only)

theorem only_putPool {P : Nat} {z : State} {s : State} {c : PoolCfg} (h_s : OnlyM P z s) (hP : Nat.land 0x400000000000 P = 0x400000000000) : OnlyM P z (State.putPool s c) := by
  unfold State.putPool
  with_reducible
  repeat' first
    | assumption | exact OnlyM.refl _ _ | split | apply onlyM_foldl | apply onlyO_next
    | (refine onlyM_upd ?_ (fun p hp => by have hl := lacks (within_trans (by decide : Nat.land 0x400000000000 0x400000000000 = 0x400000000000) hP) hp; revert hl; clear hp; cases p <;> first | exact fun h => absurd h (by decide) | with_unfolding_all exact fun _ => rfl))
    | intro _ | (dsimp only)

theorem only_putTrace {P : Nat} {z : State} {s : State} {c : TraceCfg} (h_s : OnlyM P z s) (hP : Nat.land 0x200000000000000 P = 0x200000000000000) : OnlyM P z (State.putTrace s c) := by
  unfold State.putTrace
  with_reducible
  repeat' first
    | assumption | exact OnlyM.refl _ _ | split | apply onlyM_foldl | apply onlyO_next
    | (refine onlyM_upd ?_ (fun p hp => by have hl := lacks (within_trans (by decide : Nat.land 0x200000000000000 0x200000000000000 = 0x200000000000000) hP) hp; revert hl; clear hp; cases p <;> first | exact fun h => absurd h (by decide) | with_unfolding_all exact fun _ => rfl))
    | intro _ | (dsimp only)

theorem only_putColumn {P : Nat} {z : State} {s : State} {t : Nat} {param : Word} {bytes : List Byte} (h_s : OnlyM P z s) (hP : Nat.land 0x4 P = 0x4) : OnlyM P z (State.putColumn s t param bytes) := by
  unfold State.putColumn
  with_reducible
  repeat' first
    | assumption | exact OnlyM.refl _ _ | split | (refine only_colBytes ?_ (within_trans (by decide) hP))
    | apply onlyM_foldl | apply onlyO_next | intro _ | (dsimp only)

theorem only_putSection {P : Nat} {z : State} {s : State} {sec : Section} (h_s : OnlyM P z s) (hP : Nat.land 0x202412f492cc97c P = 0x202412f492cc97c) : OnlyM P z (State.putSection s sec) := by
  unfold State.putSection
  with_reducible
  repeat' first
    | assumption | exact OnlyM.refl _ _ | split | (refine only_putHost ?_ (within_trans (by decide) hP))
    | (refine only_putSet ?_ (within_trans (by decide) hP)) | (refine only_putRack ?_ (within_trans (by decide) hP))
    | (refine only_putWorld ?_ (within_trans (by decide) hP)) | (refine only_putPort ?_ (within_trans (by decide) hP))
    | (refine only_putPool ?_ (within_trans (by decide) hP)) | (refine only_putTrace ?_ (within_trans (by decide) hP))
    | (refine only_modTile ?_ (within_trans (by decide) hP))
    | (refine only_putColumn ?_ (within_trans (by decide) hP)) | apply onlyM_foldl | apply onlyO_next
    | (refine onlyM_upd ?_ (fun p hp => by have hl := lacks (within_trans (by decide : Nat.land 0x2002648044850 0x202412f492cc97c = 0x2002648044850) hP) hp; revert hl; clear hp; cases p <;> first | exact fun h => absurd h (by decide) | with_unfolding_all exact fun _ => rfl))
    | intro _ | (dsimp only)

end Sys2Proof.Machine
end

