-- ==== Sys2Proof/Laws/FrameBoot.lean ====
section
/-! SUPPORT. The frame of every operation of Machine/Boot.lean: the parts that it may change. -/

set_option linter.unusedTactic false
set_option linter.unreachableTactic false
set_option linter.unusedVariables false

namespace Sys2Proof.Machine

open Sys2Proof

theorem only_bootLog {P : Nat} {z : State} {s : State} {code : Nat} {detail : Option Nat} (h_s : OnlyM P z s) (hP : Nat.land 0x80100 P = 0x80100) : OnlyM P z (State.bootLog s code detail) := by
  unfold State.bootLog
  with_reducible
  repeat' first
    | assumption | exact OnlyM.refl _ _ | split | apply onlyM_foldl | apply onlyO_next
    | (refine onlyM_upd ?_ (fun p hp => by have hl := lacks (within_trans (by decide : Nat.land 0x80100 0x80100 = 0x80100) hP) hp; revert hl; clear hp; cases p <;> first | exact fun h => absurd h (by decide) | with_unfolding_all exact fun _ => rfl))
    | intro _ | (dsimp only)

theorem only_clearLoaded {P : Nat} {z : State} {s : State} (h_s : OnlyM P z s) (hP : Nat.land 0x7fffffffffffe7c P = 0x7fffffffffffe7c) : OnlyM P z (State.clearLoaded s) := by
  unfold State.clearLoaded
  with_reducible
  repeat' first
    | assumption | exact OnlyM.refl _ _ | split | (refine only_powerLoss ?_ (within_trans (by decide) hP))
    | apply onlyM_foldl | apply onlyO_next
    | (refine onlyM_upd ?_ (fun p hp => by have hl := lacks (within_trans (by decide : Nat.land 0xec0000 0x7fffffffffffe7c = 0xec0000) hP) hp; revert hl; clear hp; cases p <;> first | exact fun h => absurd h (by decide) | with_unfolding_all exact fun _ => rfl))
    | intro _ | (dsimp only)

theorem only_pinsOff {P : Nat} {z : State} {s : State} (h_s : OnlyM P z s) (hP : Nat.land 0x20 P = 0x20) : OnlyM P z (State.pinsOff s) := by
  unfold State.pinsOff
  with_reducible
  repeat' first
    | assumption | exact OnlyM.refl _ _ | split | apply onlyM_foldl | apply onlyO_next
    | (refine onlyM_upd ?_ (fun p hp => by have hl := lacks (within_trans (by decide : Nat.land 0x20 0x20 = 0x20) hP) hp; revert hl; clear hp; cases p <;> first | exact fun h => absurd h (by decide) | with_unfolding_all exact fun _ => rfl))
    | intro _ | (dsimp only)

theorem only_bootStops {P : Nat} {z : State} {s : State} {code : Nat} (h_s : OnlyM P z s) (hP : Nat.land 0x208020 P = 0x208020) : OnlyM P z (State.bootStops s code) := by
  unfold State.bootStops
  with_reducible
  repeat' first
    | assumption | exact OnlyM.refl _ _ | split | (refine only_pinsOff ?_ (within_trans (by decide) hP))
    | apply onlyM_foldl | apply onlyO_next
    | (refine onlyM_upd ?_ (fun p hp => by have hl := lacks (within_trans (by decide : Nat.land 0x208000 0x208020 = 0x208000) hP) hp; revert hl; clear hp; cases p <;> first | exact fun h => absurd h (by decide) | with_unfolding_all exact fun _ => rfl))
    | intro _ | (dsimp only)

theorem only_readCharters {P : Nat} {z : State} {s : State} (h_s : OnlyM P z s) (hP : Nat.land 0x280100 P = 0x280100) : OnlyM P z (State.readCharters s) := by
  unfold State.readCharters
  with_reducible
  repeat' first
    | assumption | exact OnlyM.refl _ _ | split | (refine only_bootLog ?_ (within_trans (by decide) hP))
    | apply onlyM_foldl | apply onlyO_next
    | (refine onlyM_upd ?_ (fun p hp => by have hl := lacks (within_trans (by decide : Nat.land 0x200000 0x280100 = 0x200000) hP) hp; revert hl; clear hp; cases p <;> first | exact fun h => absurd h (by decide) | with_unfolding_all exact fun _ => rfl))
    | intro _ | (dsimp only)

theorem only_earlyDone {P : Nat} {z : State} {s : State} {im : Image} (h_s : OnlyM P z s) (hP : Nat.land 0x402c0100 P = 0x402c0100) : OnlyM P z (State.earlyDone s im) := by
  unfold State.earlyDone
  with_reducible
  repeat' first
    | assumption | exact OnlyM.refl _ _ | split | (refine only_readCharters ?_ (within_trans (by decide) hP))
    | apply onlyM_foldl | apply onlyO_next
    | (refine onlyM_upd ?_ (fun p hp => by have hl := lacks (within_trans (by decide : Nat.land 0x40240000 0x402c0100 = 0x40240000) hP) hp; revert hl; clear hp; cases p <;> first | exact fun h => absurd h (by decide) | with_unfolding_all exact fun _ => rfl))
    | intro _ | (dsimp only)

theorem only_early {P : Nat} {z : State} {s : State} (h_s : OnlyM P z s) (hP : Nat.land 0x402c8120 P = 0x402c8120) : OnlyM P z (State.early s) := by
  unfold State.early
  with_reducible
  repeat' first
    | assumption | exact OnlyM.refl _ _ | split | (refine only_earlyDone ?_ (within_trans (by decide) hP))
    | (refine only_bootLog ?_ (within_trans (by decide) hP))
    | (refine only_bootStops ?_ (within_trans (by decide) hP)) | apply onlyM_foldl | apply onlyO_next
    | (refine onlyM_upd ?_ (fun p hp => by have hl := lacks (within_trans (by decide : Nat.land 0x200000 0x402c8120 = 0x200000) hP) hp; revert hl; clear hp; cases p <;> first | exact fun h => absurd h (by decide) | with_unfolding_all exact fun _ => rfl))
    | intro _ | (dsimp only)

theorem only_fallBack {P : Nat} {z : State} {s : State} (h_s : OnlyM P z s) (hP : Nat.land 0x7ffffffffffff7c P = 0x7ffffffffffff7c) : OnlyM P z (State.fallBack s) := by
  unfold State.fallBack
  with_reducible
  repeat' first
    | assumption | exact OnlyM.refl _ _ | split | (refine only_bootLog ?_ (within_trans (by decide) hP))
    | (refine only_early ?_ (within_trans (by decide) hP))
    | (refine only_clearLoaded ?_ (within_trans (by decide) hP))
    | (refine only_pinsOff ?_ (within_trans (by decide) hP)) | apply onlyM_foldl | apply onlyO_next
    | (refine onlyM_upd ?_ (fun p hp => by have hl := lacks (within_trans (by decide : Nat.land 0x200000 0x7ffffffffffff7c = 0x200000) hP) hp; revert hl; clear hp; cases p <;> first | exact fun h => absurd h (by decide) | with_unfolding_all exact fun _ => rfl))
    | intro _ | (dsimp only)

theorem only_bootFails {P : Nat} {z : State} {s : State} {phase code : Nat} {detail : Option Nat} (h_s : OnlyM P z s) (hP : Nat.land 0x7ffffffffffff7c P = 0x7ffffffffffff7c) : OnlyM P z (State.bootFails s phase code detail) := by
  unfold State.bootFails
  with_reducible
  repeat' first
    | assumption | exact OnlyM.refl _ _ | split | (refine only_bootLog ?_ (within_trans (by decide) hP))
    | (refine only_fallBack ?_ (within_trans (by decide) hP))
    | (refine only_bootStops ?_ (within_trans (by decide) hP)) | apply onlyM_foldl | apply onlyO_next
    | (refine onlyM_upd ?_ (fun p hp => by have hl := lacks (within_trans (by decide : Nat.land 0x200000 0x7ffffffffffff7c = 0x200000) hP) hp; revert hl; clear hp; cases p <;> first | exact fun h => absurd h (by decide) | with_unfolding_all exact fun _ => rfl))
    | intro _ | (dsimp only)

theorem only_bootStart {P : Nat} {z : State} {s : State} (h_s : OnlyM P z s) (hP : Nat.land 0x7ffffffffffff7c P = 0x7ffffffffffff7c) : OnlyM P z (State.bootStart s) := by
  unfold State.bootStart
  with_reducible
  repeat' first
    | assumption | exact OnlyM.refl _ _ | split | (refine only_earlyDone ?_ (within_trans (by decide) hP))
    | (refine only_bootFails ?_ (within_trans (by decide) hP)) | apply onlyM_foldl | apply onlyO_next | intro _
    | (dsimp only)

theorem only_zeroReserves {P : Nat} {z : State} {s : State} {sts : List Nat} (h_s : OnlyM P z s) (hP : Nat.land 0x4 P = 0x4) : OnlyM P z (State.zeroReserves s sts) := by
  unfold State.zeroReserves
  with_reducible
  repeat' first
    | assumption | exact OnlyM.refl _ _ | split | apply onlyM_foldl | apply onlyO_next
    | (refine onlyM_upd ?_ (fun p hp => by have hl := lacks (within_trans (by decide : Nat.land 0x4 0x4 = 0x4) hP) hp; revert hl; clear hp; cases p <;> first | exact fun h => absurd h (by decide) | with_unfolding_all exact fun _ => rfl))
    | intro _ | (dsimp only)

theorem only_roll {P : Nat} {z : State} {s : State} {sts : List Nat} (h_s : OnlyM P z s) (hP : Nat.land 0x10000208000 P = 0x10000208000) : OnlyM P z (State.roll s sts) := by
  unfold State.roll
  with_reducible
  repeat' first
    | assumption | exact OnlyM.refl _ _ | split | apply onlyM_foldl | apply onlyO_next
    | (refine onlyM_upd ?_ (fun p hp => by have hl := lacks (within_trans (by decide : Nat.land 0x10000208000 0x10000208000 = 0x10000208000) hP) hp; revert hl; clear hp; cases p <;> first | exact fun h => absurd h (by decide) | with_unfolding_all exact fun _ => rfl))
    | intro _ | (dsimp only)

theorem only_findDefects {P : Nat} {z : State} {s : State} {st : Nat} (h_s : OnlyM P z s) (hP : Nat.land 0x200000 P = 0x200000) : OnlyM P z (State.findDefects s st) := by
  unfold State.findDefects
  with_reducible
  repeat' first
    | assumption | exact OnlyM.refl _ _ | split | apply onlyM_foldl | apply onlyO_next
    | (refine onlyM_upd ?_ (fun p hp => by have hl := lacks (within_trans (by decide : Nat.land 0x200000 0x200000 = 0x200000) hP) hp; revert hl; clear hp; cases p <;> first | exact fun h => absurd h (by decide) | with_unfolding_all exact fun _ => rfl))
    | intro _ | (dsimp only)

theorem only_declareAbsent {P : Nat} {z : State} {s : State} {ts : List Nat} (h_s : OnlyM P z s) (hP : Nat.land 0x10040288100 P = 0x10040288100) : OnlyM P z (State.declareAbsent s ts) := by
  unfold State.declareAbsent
  with_reducible
  repeat' first
    | assumption | exact OnlyM.refl _ _ | split | (refine only_bootLog ?_ (within_trans (by decide) hP))
    | (refine only_roll ?_ (within_trans (by decide) hP)) | apply onlyM_foldl | apply onlyO_next
    | (refine onlyM_upd ?_ (fun p hp => by have hl := lacks (within_trans (by decide : Nat.land 0x40200000 0x10040288100 = 0x40200000) hP) hp; revert hl; clear hp; cases p <;> first | exact fun h => absurd h (by decide) | with_unfolding_all exact fun _ => rfl))
    | intro _ | (dsimp only)

theorem only_remap {P : Nat} {z : State} {s : State} {sts : List Nat} (h_s : OnlyM P z s) (hP : Nat.land 0x10040288100 P = 0x10040288100) : OnlyM P z (State.remap s sts) := by
  unfold State.remap
  with_reducible
  repeat' first
    | assumption | exact OnlyM.refl _ _ | split | (refine only_bootLog ?_ (within_trans (by decide) hP))
    | (refine only_roll ?_ (within_trans (by decide) hP))
    | (refine only_declareAbsent ?_ (within_trans (by decide) hP)) | apply onlyM_foldl | apply onlyO_next
    | (refine onlyM_upd ?_ (fun p hp => by have hl := lacks (within_trans (by decide : Nat.land 0x200000 0x10040288100 = 0x200000) hP) hp; revert hl; clear hp; cases p <;> first | exact fun h => absurd h (by decide) | with_unfolding_all exact fun _ => rfl))
    | intro _ | (dsimp only)

theorem only_rollAndMap {P : Nat} {z : State} {s : State} (h_s : OnlyM P z s) (hP : Nat.land 0x10040288104 P = 0x10040288104) : OnlyM P z (State.rollAndMap s) := by
  unfold State.rollAndMap
  with_reducible
  repeat' first
    | assumption | exact OnlyM.refl _ _ | split | (refine only_zeroReserves ?_ (within_trans (by decide) hP))
    | (refine only_findDefects ?_ (within_trans (by decide) hP)) | (refine only_roll ?_ (within_trans (by decide) hP))
    | (refine only_remap ?_ (within_trans (by decide) hP))
    | (refine only_declareAbsent ?_ (within_trans (by decide) hP)) | apply onlyM_foldl | apply onlyO_next
    | (refine onlyM_upd ?_ (fun p hp => by have hl := lacks (within_trans (by decide : Nat.land 0x200000 0x10040288104 = 0x200000) hP) hp; revert hl; clear hp; cases p <;> first | exact fun h => absurd h (by decide) | with_unfolding_all exact fun _ => rfl))
    | intro _ | (dsimp only)

end Sys2Proof.Machine
end

