-- ==== Sys2Proof/Laws/FrameReady.lean ====
section
/-! SUPPORT. The frame of every operation of Machine/Ready.lean: the parts that it may change. -/

set_option linter.unusedTactic false
set_option linter.unreachableTactic false
set_option linter.unusedVariables false

namespace Sys2Proof.Machine

open Sys2Proof

theorem only_putAll {P : Nat} {z : State} {s : State} {l : List (Section × Nat)} (h_s : OnlyM P z s) (hP : Nat.land 0x202412f492cc97c P = 0x202412f492cc97c) : OnlyM P z (State.putAll s l) := by
  unfold State.putAll
  with_reducible
  repeat' first
    | assumption | exact OnlyM.refl _ _ | split | (refine only_bootLog ?_ (within_trans (by decide) hP))
    | (refine only_putSection ?_ (within_trans (by decide) hP)) | apply onlyM_foldl | apply onlyO_next | intro _
    | (dsimp only)

theorem only_putCopies {P : Nat} {z : State} {s : State} {l : List (Section × Nat)} (h_s : OnlyM P z s) (hP : Nat.land 0x4 P = 0x4) : OnlyM P z (State.putCopies s l) := by
  unfold State.putCopies
  with_reducible
  repeat' first
    | assumption | exact OnlyM.refl _ _ | split | (refine only_writeReserve ?_ (within_trans (by decide) hP))
    | apply onlyM_foldl | apply onlyO_next | intro _ | (dsimp only)

theorem only_State_load {P : Nat} {z s t : State} {im : Image} (h_s : OnlyM P z s) (hP : Nat.land 0x202412f492cc97c P = 0x202412f492cc97c)
    (e : State.load s im = .inl t) : OnlyM P z t := by
  unfold State.load at e
  dsimp only at e
  split at e
  · cases e
  · cases e
  · split at e
    · cases e
    · cases e
      refine onlyM_upd (only_declareAbsent (only_putCopies (only_putAll (onlyM_upd h_s (fun p hp => ?_)) (within_trans (by decide) hP))
        (within_trans (by decide) hP)) (within_trans (by decide) hP)) (fun p hp => ?_)
      all_goals
        have hl := lacks hP hp
        revert hl
        clear hp
        cases p <;> first | exact fun h => absurd h (by decide) | exact fun _ => rfl

theorem only_runDirective {P : Nat} {z : State} {s : State} {d : Directive} {data : Option (List Byte)} (h_s : OnlyM P z s) (hP : Nat.land 0x4 P = 0x4) : OnlyM P z (State.runDirective s d data).1 := by
  unfold State.runDirective
  with_reducible
  repeat' first
    | assumption | exact OnlyM.refl _ _ | split | (refine only_colBytes ?_ (within_trans (by decide) hP))
    | apply onlyM_foldl | apply onlyO_next | intro _ | (dsimp only)

theorem only_bootDirs {P : Nat} {z s : State} {l : List (Directive × Option (List Byte))} (h_s : OnlyM P z s)
    (hP : Nat.land (2 ^ Part.boot.idx) P = 2 ^ Part.boot.idx) : OnlyM P z { s with boot.dirs := l } := by
  refine onlyM_upd h_s (fun p hp => ?_)
  have hl := lacks hP hp
  revert hl
  clear hp
  cases p <;> first | exact fun h => absurd h (by decide) | exact fun _ => rfl

theorem only_runDirectives {P : Nat} {z s : State} {l : List (Directive × Option (List Byte))} (h_s : OnlyM P z s)
    (hP : Nat.land 0x200004 P = 0x200004) : OnlyM P z (State.runDirectives s l).1 := by
  induction l generalizing s with
  | nil => unfold State.runDirectives; exact only_bootDirs h_s (within_trans (by decide) hP)
  | cons x r ih =>
    unfold State.runDirectives
    dsimp only
    split
    · exact only_bootDirs h_s (within_trans (by decide) hP)
    · split
      · exact ih (only_runDirective h_s (within_trans (by decide) hP))
      · exact only_runDirective h_s (within_trans (by decide) hP)

theorem only_autostart {P : Nat} {z : State} {s : State} (h_s : OnlyM P z s) (hP : Nat.land 0x10c9f193902052c P = 0x10c9f193902052c) : OnlyM P z (State.autostart s) := by
  unfold State.autostart
  with_reducible
  repeat' first
    | assumption | exact OnlyM.refl _ _ | split | (refine only_startWorld ?_ (within_trans (by decide) hP))
    | apply onlyM_foldl | apply onlyO_next | intro _ | (dsimp only)

theorem only_portsReady {P : Nat} {z : State} {s : State} (h_s : OnlyM P z s) (hP : Nat.land 0x1009f0939020428 P = 0x1009f0939020428) : OnlyM P z (State.portsReady s) := by
  unfold State.portsReady
  with_reducible
  repeat' first
    | assumption | exact OnlyM.refl _ _ | split | (refine only_modPort ?_ (within_trans (by decide) hP))
    | (refine only_enumerate ?_ (within_trans (by decide) hP)) | apply onlyM_foldl | apply onlyO_next | intro _
    | (dsimp only)

theorem only_bootReport {P : Nat} {z : State} {s : State} {im : Image} (h_s : OnlyM P z s) (hP : Nat.land 0x100800101000000 P = 0x100800101000000) : OnlyM P z (State.bootReport s im) := by
  unfold State.bootReport
  with_reducible
  repeat' first
    | assumption | exact OnlyM.refl _ _ | split | (refine only_postRecord ?_ (within_trans (by decide) hP))
    | apply onlyM_foldl | apply onlyO_next | intro _ | (dsimp only)

theorem only_readyBits {P : Nat} {z s : State} {fl ph st tm : Nat} {dg rs : Bool} {w : Warm} (h_s : OnlyM P z s)
    (hP : Nat.land (partSet [.fuses, .boot, .steward, .doldrums]) P = partSet [.fuses, .boot, .steward, .doldrums]) :
    OnlyM P z { s with fuses.floor := fl, boot.phase := ph, boot.st := st, boot.degraded := dg, boot.timeMs := tm,
                       flt.stwReset := rs, aon.warm := w } := by
  refine onlyM_upd h_s (fun p hp => ?_)
  have hl := lacks hP hp
  revert hl
  clear hp
  cases p <;> first | exact fun h => absurd h (by decide) | exact fun _ => rfl

theorem only_setTrace {P : Nat} {z s : State} {x : Trace} (h_s : OnlyM P z s)
    (hP : Nat.land (partSet [.trcQueue, .trcDrops, .trace]) P = partSet [.trcQueue, .trcDrops, .trace]) :
    OnlyM P z { s with trc := x } := by
  refine onlyM_upd h_s (fun p hp => ?_)
  have hl := lacks hP hp
  revert hl
  clear hp
  cases p <;> first | exact fun h => absurd h (by decide) | exact fun _ => rfl

theorem only_declareReady {P : Nat} {z s : State} {im : Image} (h_s : OnlyM P z s) (hP : Nat.land 0x72c9f193922852e P = 0x72c9f193922852e) :
    OnlyM P z (State.declareReady s im) := by
  unfold State.declareReady
  dsimp only
  have h2 := only_bootReport (im := im) (only_portsReady (only_autostart (only_readyBits (fl := if im.commitFloor then
    max s.fuses.floor (min im.secVersion 64) else s.fuses.floor) (ph := 11) (st := 1) (tm := s.bootMs) (dg := !s.boot.absent.isEmpty)
    (rs := false) (w := if s.pwr.cfg.warmEnable then s.aon.warm else { s.aon.warm with valid := false, cause := 4 }) h_s
    (within_trans (by decide) hP)) (within_trans (by decide) hP)) (within_trans (by decide) hP)) (within_trans (by decide) hP)
  split
  · exact only_setTrace h2 (within_trans (by decide) hP)
  · exact h2

theorem only_bootFinish {P : Nat} {z : State} {s : State} {im : Image} (h_s : OnlyM P z s) (hP : Nat.land 0x7ffffffffffff7e P = 0x7ffffffffffff7e) : OnlyM P z (State.bootFinish s im) := by
  unfold State.bootFinish
  with_reducible
  repeat' first
    | assumption | exact OnlyM.refl _ _ | split | (refine only_runDirectives ?_ (within_trans (by decide) hP))
    | (refine only_bootFails ?_ (within_trans (by decide) hP))
    | (refine only_declareReady ?_ (within_trans (by decide) hP)) | apply onlyM_foldl | apply onlyO_next | intro _
    | (dsimp only)

theorem only_bootOn {P : Nat} {z s : State} {im : Image} (h_s : OnlyM P z s) (hP : Nat.land 0x7ffffffffffff7e P = 0x7ffffffffffff7e) :
    OnlyM P z (State.bootOn s im) := by
  unfold State.bootOn
  dsimp only
  have h1 := only_rollAndMap h_s (within_trans (by decide) hP)
  split
  · split
    · exact only_bootFails h1 (within_trans (by decide) hP)
    · split
      · exact only_bootFails h1 (within_trans (by decide) hP)
      · rename_i e
        have h := only_State_load h1 (within_trans (by decide) hP) e
        split
        · exact only_bootFinish h (within_trans (by decide) hP)
        · exact only_bootFails h (within_trans (by decide) hP)
  · exact only_bootFails h_s (within_trans (by decide) hP)

theorem only_execReady {P : Nat} {z : State} {s : State} (h_s : OnlyM P z s) (hP : Nat.land 0x7ffffffffffff7e P = 0x7ffffffffffff7e) : OnlyO P z (execReady s) := by
  unfold execReady
  with_reducible
  repeat' first
    | assumption | exact OnlyM.refl _ _ | split | (refine only_bootOn ?_ (within_trans (by decide) hP))
    | (refine only_bootFinish ?_ (within_trans (by decide) hP)) | apply onlyM_foldl | apply onlyO_next | intro _
    | (dsimp only)

theorem only_execStackLinkTimeout {P : Nat} {z : State} {st : Nat} {s : State} (h_s : OnlyM P z s) (hP : Nat.land 0x7ffffffffffff7c P = 0x7ffffffffffff7c) : OnlyO P z (execStackLinkTimeout st s) := by
  unfold execStackLinkTimeout
  with_reducible
  repeat' first
    | assumption | exact OnlyM.refl _ _ | split | (refine only_modFence ?_ (within_trans (by decide) hP))
    | (refine only_bootFails ?_ (within_trans (by decide) hP)) | apply onlyM_foldl | apply onlyO_next
    | (refine onlyM_upd ?_ (fun p hp => by have hl := lacks (within_trans (by decide : Nat.land 0x200000 0x7ffffffffffff7c = 0x200000) hP) hp; revert hl; clear hp; cases p <;> first | exact fun h => absurd h (by decide) | with_unfolding_all exact fun _ => rfl))
    | intro _ | (dsimp only)

theorem only_execSourceWaitExpiry {P : Nat} {z : State} {s : State} (h_s : OnlyM P z s) (hP : Nat.land 0x7ffffffffffff7c P = 0x7ffffffffffff7c) : OnlyO P z (execSourceWaitExpiry s) := by
  unfold execSourceWaitExpiry
  with_reducible
  repeat' first
    | assumption | exact OnlyM.refl _ _ | split | (refine only_bootFails ?_ (within_trans (by decide) hP))
    | apply onlyM_foldl | apply onlyO_next | intro _ | (dsimp only)

theorem only_bootFresh {P : Nat} {z : State} {s : State} (h_s : OnlyM P z s) (hP : Nat.land 0x7ffffffffffff7c P = 0x7ffffffffffff7c) : OnlyM P z (State.bootFresh s) := by
  unfold State.bootFresh
  with_reducible
  repeat' first
    | assumption | exact OnlyM.refl _ _ | split | (refine only_bootStart ?_ (within_trans (by decide) hP))
    | apply onlyM_foldl | apply onlyO_next
    | (refine onlyM_upd ?_ (fun p hp => by have hl := lacks (within_trans (by decide : Nat.land 0x208000 0x7ffffffffffff7c = 0x208000) hP) hp; revert hl; clear hp; cases p <;> first | exact fun h => absurd h (by decide) | with_unfolding_all exact fun _ => rfl))
    | intro _ | (dsimp only)

theorem only_execPorRelease {P : Nat} {z : State} {env : BootEnv} {s : State} (h_s : OnlyM P z s) (hP : Nat.land 0x7ffffffffffff7c P = 0x7ffffffffffff7c) : OnlyO P z (execPorRelease env s) := by
  unfold execPorRelease
  with_reducible
  repeat' first
    | assumption | exact OnlyM.refl _ _ | split | (refine only_bootFresh ?_ (within_trans (by decide) hP))
    | (refine only_powerLoss ?_ (within_trans (by decide) hP)) | apply onlyM_foldl | apply onlyO_next
    | (refine onlyM_upd ?_ (fun p hp => by have hl := lacks (within_trans (by decide : Nat.land 0x242000 0x7ffffffffffff7c = 0x242000) hP) hp; revert hl; clear hp; cases p <;> first | exact fun h => absurd h (by decide) | with_unfolding_all exact fun _ => rfl))
    | intro _ | (dsimp only)

theorem only_restart {P : Nat} {z : State} {s : State} (h_s : OnlyM P z s) (hP : Nat.land 0x7ffffffffffff7c P = 0x7ffffffffffff7c) : OnlyM P z (State.restart s) := by
  unfold State.restart
  with_reducible
  repeat' first
    | assumption | exact OnlyM.refl _ _ | split | (refine only_eachOut ?_ (within_trans (by decide) hP))
    | (refine only_clearLoaded ?_ (within_trans (by decide) hP))
    | (refine only_bootFresh ?_ (within_trans (by decide) hP)) | apply onlyM_foldl | apply onlyO_next
    | (refine onlyM_upd ?_ (fun p hp => by have hl := lacks (within_trans (by decide : Nat.land 0x8000 0x7ffffffffffff7c = 0x8000) hP) hp; revert hl; clear hp; cases p <;> first | exact fun h => absurd h (by decide) | with_unfolding_all exact fun _ => rfl))
    | intro _ | (dsimp only)

theorem only_execRestart {P : Nat} {z : State} {m : Nat} {v : Word} {s : State} (h_s : OnlyM P z s) (hP : Nat.land 0x7ffffffffffff7c P = 0x7ffffffffffff7c) : OnlyO P z (execRestart m v s) := by
  unfold execRestart
  with_reducible
  repeat' first
    | assumption | exact OnlyM.refl _ _ | split | (refine only_ownReg ?_ ?_ (within_trans (by decide) hP))
    | (refine only_restart ?_ (within_trans (by decide) hP)) | (refine only_respond ?_ (within_trans (by decide) hP))
    | (refine only_refuse ?_ (within_trans (by decide) hP)) | apply onlyM_foldl | apply onlyO_next | apply onlyP_some
    | exact onlyP_none | intro _ | (dsimp only)

end Sys2Proof.Machine
end

