-- ==== Sys2Proof/Laws/FrameRecovery.lean ====
section
/-! SUPPORT. The frame of every operation of Machine/Recovery.lean: the parts that it may change. -/

set_option linter.unusedTactic false
set_option linter.unreachableTactic false
set_option linter.unusedVariables false

namespace Sys2Proof.Machine

open Sys2Proof

theorem only_fillRow {P : Nat} {z : State} {s : State} {t u row l k : Nat} (h_s : OnlyM P z s) (hP : Nat.land 0x4 P = 0x4) : OnlyM P z (State.fillRow s t u row l k) := by
  unfold State.fillRow
  with_reducible
  repeat' first
    | assumption | exact OnlyM.refl _ _ | split | (refine only_setSynapse ?_ (within_trans (by decide) hP))
    | apply onlyM_foldl | apply onlyO_next | intro _ | (dsimp only)

theorem only_fillCol {P : Nat} {z : State} {s : State} {t v n l k : Nat} (h_s : OnlyM P z s) (hP : Nat.land 0x4 P = 0x4) : OnlyM P z (State.fillCol s t v n l k) := by
  unfold State.fillCol
  with_reducible
  repeat' first
    | assumption | exact OnlyM.refl _ _ | split | (refine only_setPlaneWord ?_ (within_trans (by decide) hP))
    | apply onlyM_foldl | apply onlyO_next | intro _ | (dsimp only)

theorem only_fillUnit {P : Nat} {z s : State} {t u src : Nat} (h_s : OnlyM P z s) (hP : Nat.land 0x4 P = 0x4) :
    OnlyM P z (State.fillUnit s t u src) := by
  unfold State.fillUnit
  dsimp only
  split
  · split
    · exact only_fillRow h_s (within_trans (by decide) hP)
    · exact only_fillCol h_s (within_trans (by decide) hP)
    · exact h_s
  · split
    · refine onlyM_foldl ?_ h_s
      intro v x
      split
      · exact only_colWrite (.refl _ _) (within_trans (by decide) hP)
      · exact .refl _ _
    · split
      · split
        · exact only_setMem h_s (within_trans (by decide) hP)
        · exact h_s
      · exact h_s

theorem only_markRecovered {P : Nat} {z : State} {s : State} {t u src : Nat} (h_s : OnlyM P z s) (hP : Nat.land 0x8 P = 0x8) : OnlyM P z (State.markRecovered s t u src) := by
  unfold State.markRecovered
  with_reducible
  repeat' first
    | assumption | exact OnlyM.refl _ _ | split | (refine only_modTile ?_ (within_trans (by decide) hP))
    | apply onlyM_foldl | apply onlyO_next | intro _ | (dsimp only)

theorem only_recover {P : Nat} {z : State} {s : State} {t u src : Nat} (h_s : OnlyM P z s) (hP : Nat.land 0x80000000000c P = 0x80000000000c) : OnlyM P z (State.recover s t u src) := by
  unfold State.recover
  with_reducible
  repeat' first
    | assumption | exact OnlyM.refl _ _ | split | (refine only_markRecovered ?_ (within_trans (by decide) hP))
    | (refine only_colZero ?_ (within_trans (by decide) hP)) | (refine only_fillUnit ?_ (within_trans (by decide) hP))
    | (refine only_putQuar ?_ (within_trans (by decide) hP)) | (refine only_pushLoss ?_ (within_trans (by decide) hP))
    | apply onlyM_foldl | apply onlyO_next | intro _ | (dsimp only)

theorem only_recoverNext {P : Nat} {z : State} {s : State} {t : Nat} {q : Nat → Bool} (h_s : OnlyM P z s) (hP : Nat.land 0x10c80010102050c P = 0x10c80010102050c) : OnlyM P z (State.recoverNext s t q) := by
  unfold State.recoverNext
  with_reducible
  repeat' first
    | assumption | exact OnlyM.refl _ _ | split | (refine only_recover ?_ (within_trans (by decide) hP))
    | (refine only_stageUpdate ?_ (within_trans (by decide) hP))
    | (refine only_updateStart ?_ (within_trans (by decide) hP)) | apply onlyM_foldl | apply onlyO_next | intro _
    | (dsimp only)

theorem only_execRecoveryComplete {P : Nat} {z : State} {t : Nat} {s : State} (h_s : OnlyM P z s) (hP : Nat.land 0x10c80010102050c P = 0x10c80010102050c) : OnlyO P z (execRecoveryComplete t s) := by
  unfold execRecoveryComplete
  with_reducible
  repeat' first
    | assumption | exact OnlyM.refl _ _ | split | (refine only_recoverNext ?_ (within_trans (by decide) hP))
    | apply onlyM_foldl | apply onlyO_next | intro _ | (dsimp only)

theorem only_execRecoveryRetry {P : Nat} {z : State} {t : Nat} {s : State} (h_s : OnlyM P z s) (hP : Nat.land 0x80000000000c P = 0x80000000000c) : OnlyO P z (execRecoveryRetry t s) := by
  unfold execRecoveryRetry
  with_reducible
  repeat' first
    | assumption | exact OnlyM.refl _ _ | split | (refine only_recover ?_ (within_trans (by decide) hP))
    | apply onlyM_foldl | apply onlyO_next | intro _ | (dsimp only)

end Sys2Proof.Machine
end

