-- ==== Sys2Proof/Laws/FrameFences.lean ====
section
/-! SUPPORT. The frame of every operation of Machine/Fences.lean: the parts that it may change. -/

set_option linter.unusedTactic false
set_option linter.unreachableTactic false
set_option linter.unusedVariables false

namespace Sys2Proof.Machine

open Sys2Proof

theorem only_execFence {P : Nat} {z : State} {rk seq : Nat} {s : State} (h_s : OnlyM P z s) (hP : Nat.land 0x10c800103020500 P = 0x10c800103020500) : OnlyO P z (execFence rk seq s) := by
  unfold execFence
  with_reducible
  repeat' first
    | assumption | exact OnlyM.refl _ _ | split | (refine only_runCmd ?_ ?_ (within_trans (by decide) hP))
    | (refine only_complete ?_ (within_trans (by decide) hP))
    | (refine only_fenceStart ?_ (within_trans (by decide) hP)) | (refine only_begun ?_ (within_trans (by decide) hP))
    | apply onlyM_foldl | apply onlyO_next | intro _ | (dsimp only)

theorem only_enterReset {P : Nat} {z : State} {s : State} {d : Nat} (h_s : OnlyM P z s) (hP : Nat.land 0x104900101000100 P = 0x104900101000100) : OnlyM P z (State.enterReset s d) := by
  unfold State.enterReset
  with_reducible
  repeat' first
    | assumption | exact OnlyM.refl _ _ | split | (refine only_fenceMove ?_ (within_trans (by decide) hP))
    | (refine only_modSpan ?_ (within_trans (by decide) hP)) | apply onlyM_foldl | apply onlyO_next | intro _
    | (dsimp only)

theorem only_execResume {P : Nat} {z : State} {rk seq : Nat} {env : BootEnv} {s : State} (h_s : OnlyM P z s) (hP : Nat.land 0x104900103220500 P = 0x104900103220500) : OnlyO P z (execResume rk seq env s) := by
  unfold execResume
  with_reducible
  repeat' first
    | assumption | exact OnlyM.refl _ _ | split | (refine only_runCmd ?_ ?_ (within_trans (by decide) hP))
    | (refine only_complete ?_ (within_trans (by decide) hP)) | (refine only_wakeDom ?_ (within_trans (by decide) hP))
    | (refine only_modFence ?_ (within_trans (by decide) hP))
    | (refine only_enterReset ?_ (within_trans (by decide) hP)) | (refine only_begun ?_ (within_trans (by decide) hP))
    | apply onlyM_foldl | apply onlyO_next
    | (refine onlyM_upd ?_ (fun p hp => by have hl := lacks (within_trans (by decide : Nat.land 0x200000 0x104900103220500 = 0x200000) hP) hp; revert hl; clear hp; cases p <;> first | exact fun h => absurd h (by decide) | with_unfolding_all exact fun _ => rfl))
    | intro _ | (dsimp only)

theorem only_notify {P : Nat} {z : State} {s : State} {d k : Nat} (h_s : OnlyM P z s) (hP : Nat.land 0x109b0008020408 P = 0x109b0008020408) : OnlyM P z (State.notify s d k) := by
  unfold State.notify
  with_reducible
  repeat' first
    | assumption | exact OnlyM.refl _ _ | split | (refine only_toRoot ?_ (within_trans (by decide) hP))
    | apply onlyM_foldl | apply onlyO_next
    | (refine onlyM_upd ?_ (fun p hp => by have hl := lacks (within_trans (by decide : Nat.land 0x10000000000000 0x109b0008020408 = 0x10000000000000) hP) hp; revert hl; clear hp; cases p <;> first | exact fun h => absurd h (by decide) | with_unfolding_all exact fun _ => rfl))
    | intro _ | (dsimp only)

theorem only_loseWaiting {P : Nat} {z : State} {s : State} {t : Nat} (h_s : OnlyM P z s) (hP : Nat.land 0x800000000008 P = 0x800000000008) : OnlyM P z (State.loseWaiting s t) := by
  unfold State.loseWaiting
  with_reducible
  repeat' first
    | assumption | exact OnlyM.refl _ _ | split | (refine only_loseEvents ?_ (within_trans (by decide) hP))
    | (refine only_modTile ?_ (within_trans (by decide) hP)) | apply onlyM_foldl | apply onlyO_next | intro _
    | (dsimp only)

theorem only_emptyFanout {P : Nat} {z : State} {s : State} {t : Nat} (h_s : OnlyM P z s) (hP : Nat.land 0x9f0028020408 P = 0x9f0028020408) : OnlyM P z (State.emptyFanout s t) := by
  unfold State.emptyFanout
  with_reducible
  repeat' first
    | assumption | exact OnlyM.refl _ _ | split | (refine only_loseWaiting ?_ (within_trans (by decide) hP))
    | (refine only_unstall ?_ (within_trans (by decide) hP))
    | (refine only_flushOpen ?_ (within_trans (by decide) hP)) | apply onlyM_foldl | apply onlyO_next | intro _
    | (dsimp only)

theorem only_drainTile {P : Nat} {z : State} {s : State} {t : Nat} (h_s : OnlyM P z s) (hP : Nat.land 0x9f0028020408 P = 0x9f0028020408) : OnlyM P z (State.drainTile s t) := by
  unfold State.drainTile
  with_reducible
  repeat' first
    | assumption | exact OnlyM.refl _ _ | split | (refine only_pushLoss ?_ (within_trans (by decide) hP))
    | (refine only_modTile ?_ (within_trans (by decide) hP))
    | (refine only_emptyFanout ?_ (within_trans (by decide) hP)) | apply onlyM_foldl | apply onlyO_next | intro _
    | (dsimp only)

theorem only_spanFence {P : Nat} {z : State} {s : State} {k : Nat} (h_s : OnlyM P z s) (hP : Nat.land 0x10c9f0939020528 P = 0x10c9f0939020528) : OnlyM P z (State.spanFence s k) := by
  unfold State.spanFence
  with_reducible
  repeat' first
    | assumption | exact OnlyM.refl _ _ | split | (refine only_modSpan ?_ (within_trans (by decide) hP))
    | (refine only_loseEvents ?_ (within_trans (by decide) hP))
    | (refine only_parkWorld ?_ (within_trans (by decide) hP)) | apply onlyM_foldl | apply onlyO_next | intro _
    | (dsimp only)

theorem only_drainDom {P : Nat} {z : State} {s : State} {d : Nat} (h_s : OnlyM P z s) (hP : Nat.land 0x70cdf0939020528 P = 0x70cdf0939020528) : OnlyM P z (State.drainDom s d) := by
  unfold State.drainDom
  with_reducible
  repeat' first
    | assumption | exact OnlyM.refl _ _ | split | (refine only_drainTile ?_ (within_trans (by decide) hP))
    | (refine only_portFence ?_ (within_trans (by decide) hP))
    | (refine only_spanFence ?_ (within_trans (by decide) hP))
    | (refine only_poolDrain ?_ (within_trans (by decide) hP))
    | (refine only_traceDrain ?_ (within_trans (by decide) hP)) | apply onlyM_foldl | apply onlyO_next | intro _
    | (dsimp only)

theorem only_fenceDone {P : Nat} {z : State} {s0 : State} {d : Nat} {c : Code} (h_s0 : OnlyM P z s0) (hP : Nat.land 0x105800903020504 P = 0x105800903020504) : OnlyM P z (State.fenceDone s0 d c) := by
  unfold State.fenceDone
  with_reducible
  repeat' first
    | assumption | exact OnlyM.refl _ _ | split | (refine only_lossDrain ?_ (within_trans (by decide) hP))
    | (refine only_modFence ?_ (within_trans (by decide) hP))
    | (refine only_completeAt ?_ (within_trans (by decide) hP)) | apply onlyM_foldl | apply onlyO_next | intro _
    | (dsimp only)

theorem only_enterFenced {P : Nat} {z : State} {s : State} {d : Nat} (h_s : OnlyM P z s) (hP : Nat.land 0x1159b090b02050c P = 0x1159b090b02050c) : OnlyM P z (State.enterFenced s d) := by
  unfold State.enterFenced
  with_reducible
  repeat' first
    | assumption | exact OnlyM.refl _ _ | split | (refine only_fenceMove ?_ (within_trans (by decide) hP))
    | (refine only_notify ?_ (within_trans (by decide) hP)) | (refine only_fenceDone ?_ (within_trans (by decide) hP))
    | (refine only_enterReset ?_ (within_trans (by decide) hP)) | apply onlyM_foldl | apply onlyO_next | intro _
    | (dsimp only)

theorem only_execDrainEnd {P : Nat} {z : State} {dom : Nat} {s : State} (h_s : OnlyM P z s) (hP : Nat.land 0x71ddf093b02052c P = 0x71ddf093b02052c) : OnlyO P z (execDrainEnd dom s) := by
  unfold execDrainEnd
  with_reducible
  repeat' first
    | assumption | exact OnlyM.refl _ _ | split | (refine only_drainDom ?_ (within_trans (by decide) hP))
    | (refine only_enterFenced ?_ (within_trans (by decide) hP)) | apply onlyM_foldl | apply onlyO_next | intro _
    | (dsimp only)

theorem only_heedUpstream {P : Nat} {z : State} {s : State} {t : Nat} {ts : List Nat} {out : Bool} (h_s : OnlyM P z s) (hP : Nat.land 0x8 P = 0x8) : OnlyM P z (State.heedUpstream s t ts out) := by
  unfold State.heedUpstream
  with_reducible
  repeat' first
    | assumption | exact OnlyM.refl _ _ | split | (refine only_modTile ?_ (within_trans (by decide) hP))
    | apply onlyM_foldl | apply onlyO_next | intro _ | (dsimp only)

theorem only_failChain {P : Nat} {z : State} {s : State} {t : Nat} {ts : List Nat} (h_s : OnlyM P z s) (hP : Nat.land 0x800000000008 P = 0x800000000008) : OnlyM P z (State.failChain s t ts) := by
  unfold State.failChain
  with_reducible
  repeat' first
    | assumption | exact OnlyM.refl _ _ | split | (refine only_modTile ?_ (within_trans (by decide) hP))
    | (refine only_pushLoss ?_ (within_trans (by decide) hP)) | apply onlyM_foldl | apply onlyO_next | intro _
    | (dsimp only)

theorem only_goOnWithout {P : Nat} {z : State} {s : State} {t : Nat} (h_s : OnlyM P z s) (hP : Nat.land 0x50cbf293902052c P = 0x50cbf293902052c) : OnlyM P z (State.goOnWithout s t) := by
  unfold State.goOnWithout
  with_reducible
  repeat' first
    | assumption | exact OnlyM.refl _ _ | split | (refine only_groupReports ?_ (within_trans (by decide) hP))
    | (refine only_settle ?_ (within_trans (by decide) hP)) | (refine only_homeTry ?_ (within_trans (by decide) hP))
    | apply onlyM_foldl | apply onlyO_next | intro _ | (dsimp only)

theorem only_noticeTile {P : Nat} {z : State} {s : State} {t d k : Nat} (h_s : OnlyM P z s) (hP : Nat.land 0x50cbf293902052c P = 0x50cbf293902052c) : OnlyM P z (State.noticeTile s t d k) := by
  unfold State.noticeTile
  with_reducible
  repeat' first
    | assumption | exact OnlyM.refl _ _ | split | (refine only_heedUpstream ?_ (within_trans (by decide) hP))
    | (refine only_failChain ?_ (within_trans (by decide) hP))
    | (refine only_goOnWithout ?_ (within_trans (by decide) hP)) | apply onlyM_foldl | apply onlyO_next | intro _
    | (dsimp only)

theorem only_noticeHub {P : Nat} {z : State} {s : State} {d : Nat} (h_s : OnlyM P z s) (hP : Nat.land 0x180000103420400 P = 0x180000103420400) : OnlyM P z (State.noticeHub s d) := by
  unfold State.noticeHub
  with_reducible
  repeat' first
    | assumption | exact OnlyM.refl _ _ | split | (refine only_refuse ?_ (within_trans (by decide) hP))
    | (refine only_complete ?_ (within_trans (by decide) hP)) | apply onlyM_foldl | apply onlyO_next
    | (refine onlyM_upd ?_ (fun p hp => by have hl := lacks (within_trans (by decide : Nat.land 0x80000000000000 0x180000103420400 = 0x80000000000000) hP) hp; revert hl; clear hp; cases p <;> first | exact fun h => absurd h (by decide) | with_unfolding_all exact fun _ => rfl))
    | intro _ | (dsimp only)

theorem only_noticeTempo {P : Nat} {z : State} {s : State} {d : Nat} (h_s : OnlyM P z s) (hP : Nat.land 0x800000000 P = 0x800000000) : OnlyM P z (State.noticeTempo s d) := by
  unfold State.noticeTempo
  with_reducible
  repeat' first
    | assumption | exact OnlyM.refl _ _ | split | apply onlyM_foldl | apply onlyO_next
    | (refine onlyM_upd ?_ (fun p hp => by have hl := lacks (within_trans (by decide : Nat.land 0x800000000 0x800000000 = 0x800000000) hP) hp; revert hl; clear hp; cases p <;> first | exact fun h => absurd h (by decide) | with_unfolding_all exact fun _ => rfl))
    | intro _ | (dsimp only)

theorem only_noticePool {P : Nat} {z : State} {s : State} {d : Nat} (h_s : OnlyM P z s) (hP : Nat.land 0x100c00000000100 P = 0x100c00000000100) : OnlyM P z (State.noticePool s d) := by
  unfold State.noticePool
  with_reducible
  repeat' first
    | assumption | exact OnlyM.refl _ _ | split | (refine only_agentLost ?_ (within_trans (by decide) hP))
    | apply onlyM_foldl | apply onlyO_next | intro _ | (dsimp only)

theorem only_execFenceNotice {P : Nat} {z : State} {who : Nat} {s : State} (h_s : OnlyM P z s) (hP : Nat.land 0x59cff293b42052c P = 0x59cff293b42052c) : OnlyO P z (execFenceNotice who s) := by
  unfold execFenceNotice
  with_reducible
  repeat' first
    | assumption | exact OnlyM.refl _ _ | split | (refine only_noticeTile ?_ (within_trans (by decide) hP))
    | (refine only_noticeHub ?_ (within_trans (by decide) hP))
    | (refine only_noticePool ?_ (within_trans (by decide) hP))
    | (refine only_noticeTempo ?_ (within_trans (by decide) hP)) | apply onlyM_foldl | apply onlyO_next
    | (refine onlyM_upd ?_ (fun p hp => by have hl := lacks (within_trans (by decide : Nat.land 0x10000000000000 0x59cff293b42052c = 0x10000000000000) hP) hp; revert hl; clear hp; cases p <;> first | exact fun h => absurd h (by decide) | with_unfolding_all exact fun _ => rfl))
    | intro _ | (dsimp only)

end Sys2Proof.Machine
end

