-- ==== Sys2Proof/Laws/FrameReturns.lean ====
section
/-! SUPPORT. The frame of every operation of Machine/Returns.lean: the parts that it may change. -/

set_option linter.unusedTactic false
set_option linter.unreachableTactic false
set_option linter.unusedVariables false

namespace Sys2Proof.Machine

open Sys2Proof

theorem only_putUpdate {P : Nat} {z : State} {s : State} {x : Section} (h_s : OnlyM P z s) (hP : Nat.land 0x202412f492cc97c P = 0x202412f492cc97c) : OnlyM P z (State.putUpdate s x) := by
  unfold State.putUpdate
  with_reducible
  repeat' first
    | assumption | exact OnlyM.refl _ _ | split | (refine only_modTile ?_ (within_trans (by decide) hP))
    | (refine only_putSection ?_ (within_trans (by decide) hP)) | apply onlyM_foldl | apply onlyO_next | intro _
    | (dsimp only)

theorem only_reclaim {P : Nat} {z s : State} {t u : Nat} (h_s : OnlyM P z s) (hP : Nat.land 0xc P = 0xc) :
    OnlyM P z (State.reclaim s t u) := by
  unfold State.reclaim
  dsimp only
  split
  · exact h_s
  · exact only_putQuar (only_setMem (only_markRecovered h_s (within_trans (by decide) hP)) (within_trans (by decide) hP))
      (within_trans (by decide) hP)

theorem only_reclaimAll {P : Nat} {z : State} {s : State} {t : Nat} (h_s : OnlyM P z s) (hP : Nat.land 0xc P = 0xc) : OnlyM P z (State.reclaimAll s t) := by
  unfold State.reclaimAll
  with_reducible
  repeat' first
    | assumption | exact OnlyM.refl _ _ | split | (refine only_reclaim ?_ (within_trans (by decide) hP))
    | apply onlyM_foldl | apply onlyO_next | intro _ | (dsimp only)

theorem only_execUpdateWritten {P : Nat} {z : State} {dom : Nat} {s : State} (h_s : OnlyM P z s) (hP : Nat.land 0x306d12f492cc97c P = 0x306d12f492cc97c) : OnlyO P z (execUpdateWritten dom s) := by
  unfold execUpdateWritten
  with_reducible
  repeat' first
    | assumption | exact OnlyM.refl _ _ | split | (refine only_putUpdate ?_ (within_trans (by decide) hP))
    | (refine only_writeReserve ?_ (within_trans (by decide) hP))
    | (refine only_reclaimAll ?_ (within_trans (by decide) hP))
    | (refine only_modFence ?_ (within_trans (by decide) hP))
    | (refine only_enterReset ?_ (within_trans (by decide) hP)) | apply onlyM_foldl | apply onlyO_next | intro _
    | (dsimp only)

theorem only_tileReset {P : Nat} {z : State} {s : State} {t : Nat} (h_s : OnlyM P z s) (hP : Nat.land 0x70080000000000c P = 0x70080000000000c) : OnlyM P z (State.tileReset s t) := by
  unfold State.tileReset
  with_reducible
  repeat' first
    | assumption | exact OnlyM.refl _ _ | split | (refine only_traceTileReset ?_ (within_trans (by decide) hP))
    | (refine only_modTile ?_ (within_trans (by decide) hP))
    | (refine only_sweepRecords ?_ (within_trans (by decide) hP))
    | (refine only_sweepTimes ?_ (within_trans (by decide) hP)) | apply onlyM_foldl | apply onlyO_next | intro _
    | (dsimp only)

theorem only_tileBack {P : Nat} {z : State} {s : State} {t : Nat} (h_s : OnlyM P z s) (hP : Nat.land 0x800000008 P = 0x800000008) : OnlyM P z (State.tileBack s t) := by
  unfold State.tileBack
  with_reducible
  repeat' first
    | assumption | exact OnlyM.refl _ _ | split | (refine only_modTile ?_ (within_trans (by decide) hP))
    | (refine only_modWorld ?_ (within_trans (by decide) hP)) | apply onlyM_foldl | apply onlyO_next | intro _
    | (dsimp only)

theorem only_turnsWithout {P : Nat} {z : State} {s : State} {t : Nat} (h_s : OnlyM P z s) (hP : Nat.land 0x9f0828020408 P = 0x9f0828020408) : OnlyM P z (State.turnsWithout s t) := by
  unfold State.turnsWithout
  with_reducible
  repeat' first
    | assumption | exact OnlyM.refl _ _ | split | (refine only_modWorld ?_ (within_trans (by decide) hP))
    | (refine only_reports ?_ (within_trans (by decide) hP)) | apply onlyM_foldl | apply onlyO_next | intro _
    | (dsimp only)

theorem only_takeHomeRows {P : Nat} {z : State} {s : State} {t : Nat} (h_s : OnlyM P z s) (hP : Nat.land 0x50c9f093902052c P = 0x50c9f093902052c) : OnlyM P z (State.takeHomeRows s t) := by
  unfold State.takeHomeRows
  with_reducible
  repeat' first
    | assumption | exact OnlyM.refl _ _ | split | (refine only_rewriteWord ?_ (within_trans (by decide) hP))
    | (refine only_pointDone ?_ (within_trans (by decide) hP)) | apply onlyM_foldl | apply onlyO_next | intro _
    | (dsimp only)

theorem only_tileGoesOn {P : Nat} {z : State} {s : State} {t : Nat} (h_s : OnlyM P z s) (hP : Nat.land 0x50c9f093902052c P = 0x50c9f093902052c) : OnlyM P z (State.tileGoesOn s t) := by
  unfold State.tileGoesOn
  with_reducible
  repeat' first
    | assumption | exact OnlyM.refl _ _ | split | (refine only_afterF ?_ (within_trans (by decide) hP))
    | (refine only_takeHomeRows ?_ (within_trans (by decide) hP))
    | (refine only_settle ?_ (within_trans (by decide) hP)) | apply onlyM_foldl | apply onlyO_next | intro _
    | (dsimp only)

theorem only_stackEmpty {P : Nat} {z : State} {s : State} {st : Nat} (h_s : OnlyM P z s) (hP : Nat.land 0x4020000c P = 0x4020000c) : OnlyM P z (State.stackEmpty s st) := by
  unfold State.stackEmpty
  with_reducible
  repeat' first
    | assumption | exact OnlyM.refl _ _ | split | apply onlyM_foldl | apply onlyO_next
    | (refine onlyM_upd ?_ (fun p hp => by have hl := lacks (within_trans (by decide : Nat.land 0x4020000c 0x4020000c = 0x4020000c) hP) hp; revert hl; clear hp; cases p <;> first | exact fun h => absurd h (by decide) | with_unfolding_all exact fun _ => rfl))
    | intro _ | (dsimp only)

theorem only_phaseAon {P : Nat} {z s : State} {n : Nat} {a : Aon} (h_s : OnlyM P z s)
    (hP : Nat.land (partSet [.boot, .wall, .wakeLog, .pins, .halt, .rails, .wakeCfg, .doldrums, .thermal]) P =
      partSet [.boot, .wall, .wakeLog, .pins, .halt, .rails, .wakeCfg, .doldrums, .thermal]) :
    OnlyM P z { s with boot.phase := n, aon := a } := by
  refine onlyM_upd h_s (fun p hp => ?_)
  have hl := lacks hP hp
  revert hl
  clear hp
  cases p <;> first | exact fun h => absurd h (by decide) | exact fun _ => rfl

theorem only_stackRoll {P : Nat} {z s : State} {st : Nat} (h_s : OnlyM P z s) (hP : Nat.land 0x1004029ff00 P = 0x1004029ff00) :
    OnlyM P z (State.stackRoll s st) := by
  unfold State.stackRoll
  exact only_phaseAon (only_remap (only_findDefects (only_roll h_s (within_trans (by decide) hP)) (within_trans (by decide) hP))
    (within_trans (by decide) hP)) (within_trans (by decide) hP)

theorem only_stackDirectives {P : Nat} {z s t : State} {st : Nat} {l : List (Directive × Option (List Byte))} (h_s : OnlyM P z s)
    (hP : Nat.land 0x4 P = 0x4) (e : State.stackDirectives s st l = some t) : OnlyM P z t := by
  induction l generalizing s with
  | nil => unfold State.stackDirectives at e; cases e; exact h_s
  | cons x r ih =>
    unfold State.stackDirectives at e
    dsimp only at e
    split at e
    · exact ih h_s e
    · split at e
      · cases e
      · split at e
        · cases e
        · exact ih (onlyM_foldl (fun _ _ => only_colBytes (.refl _ _) (within_trans (by decide) hP)) h_s) e

theorem only_restRecords {P : Nat} {z : State} {s : State} {t : Nat} (h_s : OnlyM P z s) (hP : Nat.land 0xc P = 0xc) : OnlyM P z (State.restRecords s t) := by
  unfold State.restRecords
  with_reducible
  repeat' first
    | assumption | exact OnlyM.refl _ _ | split | (refine only_writeRec ?_ (within_trans (by decide) hP))
    | apply onlyM_foldl | apply onlyO_next | intro _ | (dsimp only)

theorem only_stackBoot {P : Nat} {z s t : State} {st : Nat} (h_s : OnlyM P z s) (hP : Nat.land 0x202412f492dff7c P = 0x202412f492dff7c)
    (e : State.stackBoot s st = some t) : OnlyM P z t := by
  unfold State.stackBoot at e
  dsimp only at e
  split at e
  · cases e
  · split at e
    · cases e
    · split at e
      · cases e
      · split at e
        · cases e
        · rename_i h
          have h1 := only_stackDirectives (only_putCopies (onlyM_foldl (fun _ _ => only_putUpdate (.refl _ _) (within_trans (by decide) hP))
            (only_putAll (only_stackRoll (only_stackEmpty h_s (within_trans (by decide) hP)) (within_trans (by decide) hP))
              (within_trans (by decide) hP))) (within_trans (by decide) hP)) (within_trans (by decide) hP) h
          split at e
          · cases e
          · cases e
            exact onlyM_foldl (fun _ _ => only_restRecords (.refl _ _) (within_trans (by decide) hP)) h1

theorem only_enterActive {P : Nat} {z : State} {s : State} {d : Nat} (h_s : OnlyM P z s) (hP : Nat.land 0x11d9b090b12050c P = 0x11d9b090b12050c) : OnlyM P z (State.enterActive s d) := by
  unfold State.enterActive
  with_reducible
  repeat' first
    | assumption | exact OnlyM.refl _ _ | split | (refine only_fenceMove ?_ (within_trans (by decide) hP))
    | (refine only_notify ?_ (within_trans (by decide) hP)) | (refine only_fenceDone ?_ (within_trans (by decide) hP))
    | (refine only_updateStart ?_ (within_trans (by decide) hP))
    | (refine only_amendCheck ?_ (within_trans (by decide) hP)) | apply onlyM_foldl | apply onlyO_next | intro _
    | (dsimp only)

theorem only_tilesReturn {P : Nat} {z : State} {s : State} {d : Nat} {ts : List Nat} (h_s : OnlyM P z s) (hP : Nat.land 0x51d9f093b12052c P = 0x51d9f093b12052c) : OnlyM P z (State.tilesReturn s d ts) := by
  unfold State.tilesReturn
  with_reducible
  repeat' first
    | assumption | exact OnlyM.refl _ _ | split | (refine only_turnsWithout ?_ (within_trans (by decide) hP))
    | (refine only_tileBack ?_ (within_trans (by decide) hP))
    | (refine only_tileGoesOn ?_ (within_trans (by decide) hP))
    | (refine only_enterActive ?_ (within_trans (by decide) hP)) | apply onlyM_foldl | apply onlyO_next | intro _
    | (dsimp only)

theorem only_stackFails {P : Nat} {z : State} {s : State} {d : Nat} (h_s : OnlyM P z s) (hP : Nat.land 0x105800903020504 P = 0x105800903020504) : OnlyM P z (State.stackFails s d) := by
  unfold State.stackFails
  with_reducible
  repeat' first
    | assumption | exact OnlyM.refl _ _ | split | (refine only_fenceMove ?_ (within_trans (by decide) hP))
    | (refine only_fenceDone ?_ (within_trans (by decide) hP)) | apply onlyM_foldl | apply onlyO_next | intro _
    | (dsimp only)

theorem only_execResetComplete {P : Nat} {z : State} {dom : Nat} {s : State} (h_s : OnlyM P z s) (hP : Nat.land 0x71fdf2f7b3fff7c P = 0x71fdf2f7b3fff7c) : OnlyO P z (execResetComplete dom s) := by
  unfold execResetComplete
  with_reducible
  repeat' first
    | assumption | exact OnlyM.refl _ _ | split | (refine only_tileReset ?_ (within_trans (by decide) hP))
    | (refine only_tilesReturn ?_ (within_trans (by decide) hP))
    | (refine only_stackBoot ?_ (within_trans (by decide) hP) (by assumption))
    | (refine only_stackFails ?_ (within_trans (by decide) hP))
    | (refine only_modFence ?_ (within_trans (by decide) hP))
    | (refine only_enterActive ?_ (within_trans (by decide) hP))
    | (refine only_portResume ?_ (within_trans (by decide) hP))
    | (refine only_traceReset ?_ (within_trans (by decide) hP)) | apply onlyM_foldl | apply onlyO_next
    | (refine onlyM_upd ?_ (fun p hp => by have hl := lacks (within_trans (by decide : Nat.land 0x400000000000 0x71fdf2f7b3fff7c = 0x400000000000) hP) hp; revert hl; clear hp; cases p <;> first | exact fun h => absurd h (by decide) | with_unfolding_all exact fun _ => rfl))
    | intro _ | (dsimp only)

theorem only_stackForget {P : Nat} {z : State} {s : State} {st : Nat} (h_s : OnlyM P z s) (hP : Nat.land 0x10230000000008 P = 0x10230000000008) : OnlyM P z (State.stackForget s st) := by
  unfold State.stackForget
  with_reducible
  repeat' first
    | assumption | exact OnlyM.refl _ _ | split | apply onlyM_foldl | apply onlyO_next
    | (refine onlyM_upd ?_ (fun p hp => by have hl := lacks (within_trans (by decide : Nat.land 0x10230000000008 0x10230000000008 = 0x10230000000008) hP) hp; revert hl; clear hp; cases p <;> first | exact fun h => absurd h (by decide) | with_unfolding_all exact fun _ => rfl))
    | intro _ | (dsimp only)

theorem only_stackRecords {P : Nat} {z : State} {s : State} {st : Nat} (h_s : OnlyM P z s) (hP : Nat.land 0x800000000000 P = 0x800000000000) : OnlyM P z (State.stackRecords s st) := by
  unfold State.stackRecords
  with_reducible
  repeat' first
    | assumption | exact OnlyM.refl _ _ | split | (refine only_pushLoss ?_ (within_trans (by decide) hP))
    | apply onlyM_foldl | apply onlyO_next | intro _ | (dsimp only)

theorem only_stackFenced {P : Nat} {z : State} {s : State} {st : Nat} (h_s : OnlyM P z s) (hP : Nat.land 0x10c800101000100 P = 0x10c800101000100) : OnlyM P z (State.stackFenced s st) := by
  unfold State.stackFenced
  with_reducible
  repeat' first
    | assumption | exact OnlyM.refl _ _ | split | (refine only_modFence ?_ (within_trans (by decide) hP))
    | (refine only_postFault ?_ (within_trans (by decide) hP))
    | (refine only_fenceMove ?_ (within_trans (by decide) hP)) | apply onlyM_foldl | apply onlyO_next
    | (refine onlyM_upd ?_ (fun p hp => by have hl := lacks (within_trans (by decide : Nat.land 0x8000000000000 0x10c800101000100 = 0x8000000000000) hP) hp; revert hl; clear hp; cases p <;> first | exact fun h => absurd h (by decide) | with_unfolding_all exact fun _ => rfl))
    | intro _ | (dsimp only)

theorem only_flipWithout {P : Nat} {z : State} {s : State} {st : Nat} (h_s : OnlyM P z s) (hP : Nat.land 0x100800d0b000000 P = 0x100800d0b000000) : OnlyM P z (State.flipWithout s st) := by
  unfold State.flipWithout
  with_reducible
  repeat' first
    | assumption | exact OnlyM.refl _ _ | split | (refine only_drainCheck ?_ (within_trans (by decide) hP))
    | apply onlyM_foldl | apply onlyO_next
    | (refine onlyM_upd ?_ (fun p hp => by have hl := lacks (within_trans (by decide : Nat.land 0x808000000 0x100800d0b000000 = 0x808000000) hP) hp; revert hl; clear hp; cases p <;> first | exact fun h => absurd h (by decide) | with_unfolding_all exact fun _ => rfl))
    | intro _ | (dsimp only)

theorem only_setLost {P : Nat} {z s : State} {b : BitVec 16} (h_s : OnlyM P z s)
    (hP : Nat.land (2 ^ Part.stackLost.idx) P = 2 ^ Part.stackLost.idx) : OnlyM P z { s with flt.stackLost := b } := by
  refine onlyM_upd h_s (fun p hp => ?_)
  have hl := lacks hP hp
  revert hl
  clear hp
  cases p <;> first | exact fun h => absurd h (by decide) | exact fun _ => rfl

theorem only_execStackLost {P : Nat} {z s : State} {st : Nat} (h_s : OnlyM P z s) (hP : Nat.land 0x15dbb0d0b02050c P = 0x15dbb0d0b02050c) :
    OnlyO P z (execStackLost st s) := by
  unfold execStackLost
  dsimp only
  split
  · exact onlyO_next h_s
  · have h2 := only_flipWithout (st := st) (only_notify (d := stackDom st) (k := 2) (only_setLost (b := (((s.stackFenced st).stackRecords st).stackForget st).flt.stackLost ||| BitVec.ofNat 16 (2 ^ st))
      (only_stackForget (st := st) (only_stackRecords (st := st) (only_stackFenced (st := st) h_s (within_trans (by decide) hP)) (within_trans (by decide) hP))
        (within_trans (by decide) hP)) (within_trans (by decide) hP)) (within_trans (by decide) hP)) (within_trans (by decide) hP)
    split
    · exact onlyO_next (only_fenceDone h2 (within_trans (by decide) hP))
    · split
      · exact onlyO_next (only_enterReset h2 (within_trans (by decide) hP))
      · exact onlyO_next (only_fenceDone h2 (within_trans (by decide) hP))
    · exact onlyO_next h2

end Sys2Proof.Machine
end

