-- ==== Sys2Proof/Laws/FrameSteward.lean ====
section
/-! SUPPORT. The frame of every operation of Machine/Steward.lean: the parts that it may change. -/

set_option linter.unusedTactic false
set_option linter.unreachableTactic false
set_option linter.unusedVariables false

namespace Sys2Proof.Machine

open Sys2Proof

theorem only_stewardFails {P : Nat} {z : State} {s : State} (h_s : OnlyM P z s) (hP : Nat.land 0x100000103000000 P = 0x100000103000000) : OnlyM P z (State.stewardFails s) := by
  unfold State.stewardFails
  with_reducible
  repeat' first
    | assumption | exact OnlyM.refl _ _ | split | (refine only_complete ?_ (within_trans (by decide) hP))
    | apply onlyM_foldl | apply onlyO_next | intro _ | (dsimp only)

theorem only_stewardDown {P : Nat} {z : State} {s : State} {cause : Nat} (h_s : OnlyM P z s) (hP : Nat.land 0x120800103120520 P = 0x120800103120520) : OnlyM P z (State.stewardDown s cause) := by
  unfold State.stewardDown
  with_reducible
  repeat' first
    | assumption | exact OnlyM.refl _ _ | split | (refine only_wakeDom ?_ (within_trans (by decide) hP))
    | (refine only_stewardFails ?_ (within_trans (by decide) hP))
    | (refine only_eachOut ?_ (within_trans (by decide) hP))
    | (refine only_postFault ?_ (within_trans (by decide) hP)) | apply onlyM_foldl | apply onlyO_next
    | (refine onlyM_upd ?_ (fun p hp => by have hl := lacks (within_trans (by decide : Nat.land 0x20000000100000 0x120800103120520 = 0x20000000100000) hP) hp; revert hl; clear hp; cases p <;> first | exact fun h => absurd h (by decide) | with_unfolding_all exact fun _ => rfl))
    | intro _ | (dsimp only)

theorem only_execStewardReset {P : Nat} {z : State} {m : Nat} {v : Word} {s : State} (h_s : OnlyM P z s) (hP : Nat.land 0x120800103520520 P = 0x120800103520520) : OnlyO P z (execStewardReset m v s) := by
  unfold execStewardReset
  with_reducible
  repeat' first
    | assumption | exact OnlyM.refl _ _ | split | (refine only_ownReg ?_ ?_ (within_trans (by decide) hP))
    | (refine only_stewardDown ?_ (within_trans (by decide) hP)) | apply onlyM_foldl | apply onlyO_next
    | apply onlyP_some | exact onlyP_none | intro _ | (dsimp only)

theorem only_execStewardWatchdog {P : Nat} {z : State} {s : State} (h_s : OnlyM P z s) (hP : Nat.land 0x120800103120520 P = 0x120800103120520) : OnlyO P z (execStewardWatchdog s) := by
  unfold execStewardWatchdog
  with_reducible
  repeat' first
    | assumption | exact OnlyM.refl _ _ | split | (refine only_stewardDown ?_ (within_trans (by decide) hP))
    | apply onlyM_foldl | apply onlyO_next | intro _ | (dsimp only)

theorem only_execStewardMemoryError {P : Nat} {z : State} {s : State} (h_s : OnlyM P z s) (hP : Nat.land 0x120800103120520 P = 0x120800103120520) : OnlyO P z (execStewardMemoryError s) := by
  unfold execStewardMemoryError
  with_reducible
  repeat' first
    | assumption | exact OnlyM.refl _ _ | split | (refine only_stewardDown ?_ (within_trans (by decide) hP))
    | apply onlyM_foldl | apply onlyO_next | intro _ | (dsimp only)

theorem only_execStewardRestart {P : Nat} {z : State} {s : State} (h_s : OnlyM P z s) (hP : Nat.land 0x120800d0b080100 P = 0x120800d0b080100) : OnlyO P z (execStewardRestart s) := by
  unfold execStewardRestart
  with_reducible
  repeat' first
    | assumption | exact OnlyM.refl _ _ | split | (refine only_bootLog ?_ (within_trans (by decide) hP))
    | (refine only_postFault ?_ (within_trans (by decide) hP))
    | (refine only_drainAdd ?_ (within_trans (by decide) hP))
    | (refine only_drainCheck ?_ (within_trans (by decide) hP)) | apply onlyM_foldl | apply onlyO_next
    | (refine onlyM_upd ?_ (fun p hp => by have hl := lacks (within_trans (by decide : Nat.land 0x20000008000000 0x120800d0b080100 = 0x20000008000000) hP) hp; revert hl; clear hp; cases p <;> first | exact fun h => absurd h (by decide) | with_unfolding_all exact fun _ => rfl))
    | intro _ | (dsimp only)

end Sys2Proof.Machine
end

