-- ==== Sys2Proof/Laws/FrameAmend.lean ====
section
/-! SUPPORT. The frame of every operation of Machine/Amend.lean: the parts that it may change. -/

set_option linter.unusedTactic false
set_option linter.unreachableTactic false
set_option linter.unusedVariables false

namespace Sys2Proof.Machine

open Sys2Proof

theorem only_amendWorld {P : Nat} {z : State} {s : State} {w : Nat} {e : WorldEntry} (h_s : OnlyM P z s) (hP : Nat.land 0x202412f492cc97c P = 0x202412f492cc97c) : OnlyM P z (State.amendWorld s w e) := by
  unfold State.amendWorld
  with_reducible
  repeat' first
    | assumption | exact OnlyM.refl _ _ | split | (refine only_putWorld ?_ (within_trans (by decide) hP))
    | (refine only_modWorld ?_ (within_trans (by decide) hP)) | apply onlyM_foldl | apply onlyO_next | intro _
    | (dsimp only)

theorem only_amendPut {P : Nat} {z : State} {s : State} {x : Section} (h_s : OnlyM P z s) (hP : Nat.land 0x302412f492cc97c P = 0x302412f492cc97c) : OnlyM P z (State.amendPut s x) := by
  unfold State.amendPut
  with_reducible
  repeat' first
    | assumption | exact OnlyM.refl _ _ | split | (refine only_amendWorld ?_ (within_trans (by decide) hP))
    | (refine only_wakeWaiters ?_ (within_trans (by decide) hP))
    | (refine only_putSection ?_ (within_trans (by decide) hP))
    | (refine only_putWindows ?_ (within_trans (by decide) hP)) | apply onlyM_foldl | apply onlyO_next
    | (refine onlyM_upd ?_ (fun p hp => by have hl := lacks (within_trans (by decide : Nat.land 0x800 0x302412f492cc97c = 0x800) hP) hp; revert hl; clear hp; cases p <;> first | exact fun h => absurd h (by decide) | with_unfolding_all exact fun _ => rfl))
    | intro _ | (dsimp only)

theorem only_amendShadow {P : Nat} {z : State} {s : State} {x : Section} (h_s : OnlyM P z s) (hP : Nat.land 0x202412f492cc97c P = 0x202412f492cc97c) : OnlyM P z (State.amendShadow s x) := by
  unfold State.amendShadow
  with_reducible
  repeat' first
    | assumption | exact OnlyM.refl _ _ | split | (refine only_putWorld ?_ (within_trans (by decide) hP))
    | (refine only_modWorld ?_ (within_trans (by decide) hP))
    | (refine only_putSection ?_ (within_trans (by decide) hP)) | apply onlyM_foldl | apply onlyO_next
    | (refine onlyM_upd ?_ (fun p hp => by have hl := lacks (within_trans (by decide : Nat.land 0x800 0x202412f492cc97c = 0x800) hP) hp; revert hl; clear hp; cases p <;> first | exact fun h => absurd h (by decide) | with_unfolding_all exact fun _ => rfl))
    | intro _ | (dsimp only)

theorem only_shadow {P : Nat} {z : State} {s : State} {im : Image} (h_s : OnlyM P z s) (hP : Nat.land 0x202412f492cc97c P = 0x202412f492cc97c) : OnlyM P z (State.shadow s im) := by
  unfold State.shadow
  with_reducible
  repeat' first
    | assumption | exact OnlyM.refl _ _ | split | (refine only_amendShadow ?_ (within_trans (by decide) hP))
    | apply onlyM_foldl | apply onlyO_next | intro _ | (dsimp only)

theorem only_amendRefused {P : Nat} {z : State} {s : State} {c : ExecCmd} {ix : Option Nat} {code : Nat} (h_s : OnlyM P z s) (hP : Nat.land 0x100000103180100 P = 0x100000103180100) : OnlyM P z (State.amendRefused s c ix code) := by
  unfold State.amendRefused
  with_reducible
  repeat' first
    | assumption | exact OnlyM.refl _ _ | split | (refine only_bootLog ?_ (within_trans (by decide) hP))
    | (refine only_complete ?_ (within_trans (by decide) hP)) | apply onlyM_foldl | apply onlyO_next
    | (refine onlyM_upd ?_ (fun p hp => by have hl := lacks (within_trans (by decide : Nat.land 0x100100 0x100000103180100 = 0x100100) hP) hp; revert hl; clear hp; cases p <;> first | exact fun h => absurd h (by decide) | with_unfolding_all exact fun _ => rfl))
    | intro _ | (dsimp only)

theorem only_execAmend {P : Nat} {z : State} {rk seq : Nat} {am : Option Image} {s : State} (h_s : OnlyM P z s) (hP : Nat.land 0x1000001031a0500 P = 0x1000001031a0500) : OnlyO P z (execAmend rk seq am s) := by
  unfold execAmend
  with_reducible
  repeat' first
    | assumption | exact OnlyM.refl _ _ | split | (refine only_runCmd ?_ ?_ (within_trans (by decide) hP))
    | (refine only_complete ?_ (within_trans (by decide) hP))
    | (refine only_amendRefused ?_ (within_trans (by decide) hP))
    | (refine only_begun ?_ (within_trans (by decide) hP)) | apply onlyM_foldl | apply onlyO_next
    | (refine onlyM_upd ?_ (fun p hp => by have hl := lacks (within_trans (by decide : Nat.land 0x100000 0x1000001031a0500 = 0x100000) hP) hp; revert hl; clear hp; cases p <;> first | exact fun h => absurd h (by decide) | with_unfolding_all exact fun _ => rfl))
    | intro _ | (dsimp only)

theorem only_epochLoaded {P : Nat} {z s : State} (h_s : OnlyM P z s)
    (hP : Nat.land (2 ^ Part.epoch.idx) P = 2 ^ Part.epoch.idx) : OnlyM P z { s with hub.epoch.loaded := true } := by
  refine onlyM_upd h_s (fun p hp => ?_)
  have hl := lacks hP hp
  revert hl
  clear hp
  cases p <;> first | exact fun h => absurd h (by decide) | exact fun _ => rfl

theorem only_amendTake {P : Nat} {z s sh : State} {x : Section} (h_s : OnlyM P z s) (hP : Nat.land 0x306412f492cc97c P = 0x306412f492cc97c) :
    OnlyM P z (State.amendTake s sh x) := by
  unfold State.amendTake
  dsimp only
  split
  · exact only_bootLog h_s (within_trans (by decide) hP)
  · split
    · split
      · exact only_epochLoaded (only_amendPut h_s (within_trans (by decide) hP)) (within_trans (by decide) hP)
      · exact only_amendPut h_s (within_trans (by decide) hP)
    · exact onlyM_foldl (fun _ _ => only_stageUpdate (.refl _ _) (within_trans (by decide) hP)) h_s

theorem only_amendStart {P : Nat} {z : State} {s : State} {d : Nat} (h_s : OnlyM P z s) (hP : Nat.land 0x10c800101020500 P = 0x10c800101020500) : OnlyM P z (State.amendStart s d) := by
  unfold State.amendStart
  with_reducible
  repeat' first
    | assumption | exact OnlyM.refl _ _ | split | (refine only_updateStart ?_ (within_trans (by decide) hP))
    | apply onlyM_foldl | apply onlyO_next | intro _ | (dsimp only)

theorem only_amendBegin {P : Nat} {z s : State} {a : Option Amending} {n : Nat} {l : List Section} (h_s : OnlyM P z s)
    (hP : Nat.land (2 ^ Part.amend.idx) P = 2 ^ Part.amend.idx) :
    OnlyM P z { s with boot.amending := a, boot.amendSeq := n, boot.amended := l } := by
  refine onlyM_upd h_s (fun p hp => ?_)
  have hl := lacks hP hp
  revert hl
  clear hp
  cases p <;> first | exact fun h => absurd h (by decide) | exact fun _ => rfl

theorem only_amendCommitted {P : Nat} {z s : State} {a : Amending} (h_s : OnlyM P z s) (hP : Nat.land 0x30ec12f4b3ecd7c P = 0x30ec12f4b3ecd7c) :
    OnlyM P z (State.amendCommitted s a) := by
  unfold State.amendCommitted
  dsimp only
  refine only_amendCheck ?_ (within_trans (by decide) hP)
  refine only_bootLog ?_ (within_trans (by decide) hP)
  refine onlyM_foldl (fun t d => only_amendStart (.refl _ _) (within_trans (by decide) hP)) ?_
  refine onlyM_foldl (fun t d => ?_) ?_
  · with_reducible exact only_amendTake (.refl _ _) (within_trans (by decide) hP)
  · exact only_amendBegin h_s (within_trans (by decide) hP)

theorem only_execAmendCommit {P : Nat} {z : State} {s : State} (h_s : OnlyM P z s) (hP : Nat.land 0x30ec12f4b3ecd7c P = 0x30ec12f4b3ecd7c) : OnlyO P z (execAmendCommit s) := by
  unfold execAmendCommit
  with_reducible
  repeat' first
    | assumption | exact OnlyM.refl _ _ | split | (refine only_amendCommitted ?_ (within_trans (by decide) hP))
    | apply onlyM_foldl | apply onlyO_next | intro _ | (dsimp only)

end Sys2Proof.Machine
end

