-- ==== Sys2Proof/Laws/FrameGambit.lean ====
section
/-! SUPPORT. The frame of every operation of Machine/Gambit.lean: the parts that it may change. -/

set_option linter.unusedTactic false
set_option linter.unreachableTactic false
set_option linter.unusedVariables false

namespace Sys2Proof.Machine

open Sys2Proof

theorem only_execGNop {P : Nat} {z : State} {t : Nat} {s : State} (h_s : OnlyM P z s) (hP : Nat.land 0x50c9f093902052c P = 0x50c9f093902052c) : OnlyO P z (execGNop t s) := by
  unfold execGNop
  with_reducible
  repeat' first
    | assumption | exact OnlyM.refl _ _ | split | (refine only_gExec ?_ (within_trans (by decide) hP))
    | apply onlyM_foldl | apply onlyO_next | intro _ | (dsimp only)

theorem only_execGMov {P : Nat} {z : State} {t : Nat} {rd : BitVec 3} {ra : BitVec 3} {s : State} (h_s : OnlyM P z s) (hP : Nat.land 0x50c9f093902052c P = 0x50c9f093902052c) : OnlyO P z (execGMov t rd ra s) := by
  unfold execGMov
  with_reducible
  repeat' first
    | assumption | exact OnlyM.refl _ _ | split | (refine only_gExec ?_ (within_trans (by decide) hP))
    | apply onlyM_foldl | apply onlyO_next | intro _ | (dsimp only)

theorem only_execGMovi {P : Nat} {z : State} {t : Nat} {rd : BitVec 3} {imm : BitVec 17} {s : State} (h_s : OnlyM P z s) (hP : Nat.land 0x50c9f093902052c P = 0x50c9f093902052c) : OnlyO P z (execGMovi t rd imm s) := by
  unfold execGMovi
  with_reducible
  repeat' first
    | assumption | exact OnlyM.refl _ _ | split | (refine only_gExec ?_ (within_trans (by decide) hP))
    | apply onlyM_foldl | apply onlyO_next | intro _ | (dsimp only)

theorem only_execGMovhi {P : Nat} {z : State} {t : Nat} {rd : BitVec 3} {imm : BitVec 16} {s : State} (h_s : OnlyM P z s) (hP : Nat.land 0x50c9f093902052c P = 0x50c9f093902052c) : OnlyO P z (execGMovhi t rd imm s) := by
  unfold execGMovhi
  with_reducible
  repeat' first
    | assumption | exact OnlyM.refl _ _ | split | (refine only_gExec ?_ (within_trans (by decide) hP))
    | apply onlyM_foldl | apply onlyO_next | intro _ | (dsimp only)

theorem only_execGLdp {P : Nat} {z : State} {t : Nat} {rd : BitVec 3} {k : BitVec 4} {s : State} (h_s : OnlyM P z s) (hP : Nat.land 0x50c9f093902052c P = 0x50c9f093902052c) : OnlyO P z (execGLdp t rd k s) := by
  unfold execGLdp
  with_reducible
  repeat' first
    | assumption | exact OnlyM.refl _ _ | split | (refine only_gExec ?_ (within_trans (by decide) hP))
    | apply onlyM_foldl | apply onlyO_next | intro _ | (dsimp only)

theorem only_execGLdf {P : Nat} {z : State} {t : Nat} {rd : BitVec 3} {pos : BitVec 7} {wm1 : BitVec 5} {sx : Bool} {s : State} (h_s : OnlyM P z s) (hP : Nat.land 0x50c9f093902052c P = 0x50c9f093902052c) : OnlyO P z (execGLdf t rd pos wm1 sx s) := by
  unfold execGLdf
  with_reducible
  repeat' first
    | assumption | exact OnlyM.refl _ _ | split | (refine only_gExec ?_ (within_trans (by decide) hP))
    | apply onlyM_foldl | apply onlyO_next | intro _ | (dsimp only)

theorem only_execGStf {P : Nat} {z : State} {t : Nat} {ra : BitVec 3} {pos : BitVec 7} {wm1 : BitVec 5} {sat : Bool} {s : State} (h_s : OnlyM P z s) (hP : Nat.land 0x50c9f093902052c P = 0x50c9f093902052c) : OnlyO P z (execGStf t ra pos wm1 sat s) := by
  unfold execGStf
  with_reducible
  repeat' first
    | assumption | exact OnlyM.refl _ _ | split | (refine only_gExec ?_ (within_trans (by decide) hP))
    | apply onlyM_foldl | apply onlyO_next | intro _ | (dsimp only)

theorem only_execGAdd {P : Nat} {z : State} {t : Nat} {rd : BitVec 3} {ra : BitVec 3} {rb : BitVec 3} {s : State} (h_s : OnlyM P z s) (hP : Nat.land 0x50c9f093902052c P = 0x50c9f093902052c) : OnlyO P z (execGAdd t rd ra rb s) := by
  unfold execGAdd
  with_reducible
  repeat' first
    | assumption | exact OnlyM.refl _ _ | split | (refine only_gExec ?_ (within_trans (by decide) hP))
    | apply onlyM_foldl | apply onlyO_next | intro _ | (dsimp only)

theorem only_execGSub {P : Nat} {z : State} {t : Nat} {rd : BitVec 3} {ra : BitVec 3} {rb : BitVec 3} {s : State} (h_s : OnlyM P z s) (hP : Nat.land 0x50c9f093902052c P = 0x50c9f093902052c) : OnlyO P z (execGSub t rd ra rb s) := by
  unfold execGSub
  with_reducible
  repeat' first
    | assumption | exact OnlyM.refl _ _ | split | (refine only_gExec ?_ (within_trans (by decide) hP))
    | apply onlyM_foldl | apply onlyO_next | intro _ | (dsimp only)

theorem only_execGAdds {P : Nat} {z : State} {t : Nat} {rd : BitVec 3} {ra : BitVec 3} {rb : BitVec 3} {s : State} (h_s : OnlyM P z s) (hP : Nat.land 0x50c9f093902052c P = 0x50c9f093902052c) : OnlyO P z (execGAdds t rd ra rb s) := by
  unfold execGAdds
  with_reducible
  repeat' first
    | assumption | exact OnlyM.refl _ _ | split | (refine only_gExec ?_ (within_trans (by decide) hP))
    | apply onlyM_foldl | apply onlyO_next | intro _ | (dsimp only)

theorem only_execGSubs {P : Nat} {z : State} {t : Nat} {rd : BitVec 3} {ra : BitVec 3} {rb : BitVec 3} {s : State} (h_s : OnlyM P z s) (hP : Nat.land 0x50c9f093902052c P = 0x50c9f093902052c) : OnlyO P z (execGSubs t rd ra rb s) := by
  unfold execGSubs
  with_reducible
  repeat' first
    | assumption | exact OnlyM.refl _ _ | split | (refine only_gExec ?_ (within_trans (by decide) hP))
    | apply onlyM_foldl | apply onlyO_next | intro _ | (dsimp only)

theorem only_execGAddi {P : Nat} {z : State} {t : Nat} {rd : BitVec 3} {ra : BitVec 3} {imm : BitVec 17} {s : State} (h_s : OnlyM P z s) (hP : Nat.land 0x50c9f093902052c P = 0x50c9f093902052c) : OnlyO P z (execGAddi t rd ra imm s) := by
  unfold execGAddi
  with_reducible
  repeat' first
    | assumption | exact OnlyM.refl _ _ | split | (refine only_gExec ?_ (within_trans (by decide) hP))
    | apply onlyM_foldl | apply onlyO_next | intro _ | (dsimp only)

theorem only_execGAddsi {P : Nat} {z : State} {t : Nat} {rd : BitVec 3} {ra : BitVec 3} {imm : BitVec 17} {s : State} (h_s : OnlyM P z s) (hP : Nat.land 0x50c9f093902052c P = 0x50c9f093902052c) : OnlyO P z (execGAddsi t rd ra imm s) := by
  unfold execGAddsi
  with_reducible
  repeat' first
    | assumption | exact OnlyM.refl _ _ | split | (refine only_gExec ?_ (within_trans (by decide) hP))
    | apply onlyM_foldl | apply onlyO_next | intro _ | (dsimp only)

theorem only_execGMin {P : Nat} {z : State} {t : Nat} {rd : BitVec 3} {ra : BitVec 3} {rb : BitVec 3} {s : State} (h_s : OnlyM P z s) (hP : Nat.land 0x50c9f093902052c P = 0x50c9f093902052c) : OnlyO P z (execGMin t rd ra rb s) := by
  unfold execGMin
  with_reducible
  repeat' first
    | assumption | exact OnlyM.refl _ _ | split | (refine only_gExec ?_ (within_trans (by decide) hP))
    | apply onlyM_foldl | apply onlyO_next | intro _ | (dsimp only)

theorem only_execGMax {P : Nat} {z : State} {t : Nat} {rd : BitVec 3} {ra : BitVec 3} {rb : BitVec 3} {s : State} (h_s : OnlyM P z s) (hP : Nat.land 0x50c9f093902052c P = 0x50c9f093902052c) : OnlyO P z (execGMax t rd ra rb s) := by
  unfold execGMax
  with_reducible
  repeat' first
    | assumption | exact OnlyM.refl _ _ | split | (refine only_gExec ?_ (within_trans (by decide) hP))
    | apply onlyM_foldl | apply onlyO_next | intro _ | (dsimp only)

theorem only_execGAnd {P : Nat} {z : State} {t : Nat} {rd : BitVec 3} {ra : BitVec 3} {rb : BitVec 3} {s : State} (h_s : OnlyM P z s) (hP : Nat.land 0x50c9f093902052c P = 0x50c9f093902052c) : OnlyO P z (execGAnd t rd ra rb s) := by
  unfold execGAnd
  with_reducible
  repeat' first
    | assumption | exact OnlyM.refl _ _ | split | (refine only_gExec ?_ (within_trans (by decide) hP))
    | apply onlyM_foldl | apply onlyO_next | intro _ | (dsimp only)

theorem only_execGOr {P : Nat} {z : State} {t : Nat} {rd : BitVec 3} {ra : BitVec 3} {rb : BitVec 3} {s : State} (h_s : OnlyM P z s) (hP : Nat.land 0x50c9f093902052c P = 0x50c9f093902052c) : OnlyO P z (execGOr t rd ra rb s) := by
  unfold execGOr
  with_reducible
  repeat' first
    | assumption | exact OnlyM.refl _ _ | split | (refine only_gExec ?_ (within_trans (by decide) hP))
    | apply onlyM_foldl | apply onlyO_next | intro _ | (dsimp only)

theorem only_execGXor {P : Nat} {z : State} {t : Nat} {rd : BitVec 3} {ra : BitVec 3} {rb : BitVec 3} {s : State} (h_s : OnlyM P z s) (hP : Nat.land 0x50c9f093902052c P = 0x50c9f093902052c) : OnlyO P z (execGXor t rd ra rb s) := by
  unfold execGXor
  with_reducible
  repeat' first
    | assumption | exact OnlyM.refl _ _ | split | (refine only_gExec ?_ (within_trans (by decide) hP))
    | apply onlyM_foldl | apply onlyO_next | intro _ | (dsimp only)

theorem only_execGShli {P : Nat} {z : State} {t : Nat} {rd : BitVec 3} {ra : BitVec 3} {sh : BitVec 5} {s : State} (h_s : OnlyM P z s) (hP : Nat.land 0x50c9f093902052c P = 0x50c9f093902052c) : OnlyO P z (execGShli t rd ra sh s) := by
  unfold execGShli
  with_reducible
  repeat' first
    | assumption | exact OnlyM.refl _ _ | split | (refine only_gExec ?_ (within_trans (by decide) hP))
    | apply onlyM_foldl | apply onlyO_next | intro _ | (dsimp only)

theorem only_execGShri {P : Nat} {z : State} {t : Nat} {rd : BitVec 3} {ra : BitVec 3} {sh : BitVec 5} {s : State} (h_s : OnlyM P z s) (hP : Nat.land 0x50c9f093902052c P = 0x50c9f093902052c) : OnlyO P z (execGShri t rd ra sh s) := by
  unfold execGShri
  with_reducible
  repeat' first
    | assumption | exact OnlyM.refl _ _ | split | (refine only_gExec ?_ (within_trans (by decide) hP))
    | apply onlyM_foldl | apply onlyO_next | intro _ | (dsimp only)

theorem only_execGShrli {P : Nat} {z : State} {t : Nat} {rd : BitVec 3} {ra : BitVec 3} {sh : BitVec 5} {s : State} (h_s : OnlyM P z s) (hP : Nat.land 0x50c9f093902052c P = 0x50c9f093902052c) : OnlyO P z (execGShrli t rd ra sh s) := by
  unfold execGShrli
  with_reducible
  repeat' first
    | assumption | exact OnlyM.refl _ _ | split | (refine only_gExec ?_ (within_trans (by decide) hP))
    | apply onlyM_foldl | apply onlyO_next | intro _ | (dsimp only)

theorem only_execGDecz {P : Nat} {z : State} {t : Nat} {rd : BitVec 3} {ra : BitVec 3} {rb : BitVec 3} {s : State} (h_s : OnlyM P z s) (hP : Nat.land 0x50c9f093902052c P = 0x50c9f093902052c) : OnlyO P z (execGDecz t rd ra rb s) := by
  unfold execGDecz
  with_reducible
  repeat' first
    | assumption | exact OnlyM.refl _ _ | split | (refine only_gExec ?_ (within_trans (by decide) hP))
    | apply onlyM_foldl | apply onlyO_next | intro _ | (dsimp only)

theorem only_execGMulq {P : Nat} {z : State} {t : Nat} {rd : BitVec 3} {ra : BitVec 3} {rb : BitVec 3} {sh : BitVec 5} {s : State} (h_s : OnlyM P z s) (hP : Nat.land 0x50c9f093902052c P = 0x50c9f093902052c) : OnlyO P z (execGMulq t rd ra rb sh s) := by
  unfold execGMulq
  with_reducible
  repeat' first
    | assumption | exact OnlyM.refl _ _ | split | (refine only_gExec ?_ (within_trans (by decide) hP))
    | apply onlyM_foldl | apply onlyO_next | intro _ | (dsimp only)

theorem only_execGMulqi {P : Nat} {z : State} {t : Nat} {rd : BitVec 3} {ra : BitVec 3} {imm : BitVec 12} {sh : BitVec 5} {s : State} (h_s : OnlyM P z s) (hP : Nat.land 0x50c9f093902052c P = 0x50c9f093902052c) : OnlyO P z (execGMulqi t rd ra imm sh s) := by
  unfold execGMulqi
  with_reducible
  repeat' first
    | assumption | exact OnlyM.refl _ _ | split | (refine only_gExec ?_ (within_trans (by decide) hP))
    | apply onlyM_foldl | apply onlyO_next | intro _ | (dsimp only)

theorem only_execGLeak {P : Nat} {z : State} {t : Nat} {rd : BitVec 3} {ra : BitVec 3} {rb : BitVec 3} {table : BitVec 3} {s : State} (h_s : OnlyM P z s) (hP : Nat.land 0x50c9f093902052c P = 0x50c9f093902052c) : OnlyO P z (execGLeak t rd ra rb table s) := by
  unfold execGLeak
  with_reducible
  repeat' first
    | assumption | exact OnlyM.refl _ _ | split | (refine only_gExec ?_ (within_trans (by decide) hP))
    | apply onlyM_foldl | apply onlyO_next | intro _ | (dsimp only)

theorem only_execGCmp {P : Nat} {z : State} {t : Nat} {ra : BitVec 3} {rb : BitVec 3} {s : State} (h_s : OnlyM P z s) (hP : Nat.land 0x50c9f093902052c P = 0x50c9f093902052c) : OnlyO P z (execGCmp t ra rb s) := by
  unfold execGCmp
  with_reducible
  repeat' first
    | assumption | exact OnlyM.refl _ _ | split | (refine only_gExec ?_ (within_trans (by decide) hP))
    | apply onlyM_foldl | apply onlyO_next | intro _ | (dsimp only)

theorem only_execGCmpi {P : Nat} {z : State} {t : Nat} {ra : BitVec 3} {imm : BitVec 17} {s : State} (h_s : OnlyM P z s) (hP : Nat.land 0x50c9f093902052c P = 0x50c9f093902052c) : OnlyO P z (execGCmpi t ra imm s) := by
  unfold execGCmpi
  with_reducible
  repeat' first
    | assumption | exact OnlyM.refl _ _ | split | (refine only_gExec ?_ (within_trans (by decide) hP))
    | apply onlyM_foldl | apply onlyO_next | intro _ | (dsimp only)

theorem only_execGB {P : Nat} {z : State} {t : Nat} {cond : BitVec 3} {target : BitVec 9} {s : State} (h_s : OnlyM P z s) (hP : Nat.land 0x50c9f093902052c P = 0x50c9f093902052c) : OnlyO P z (execGB t cond target s) := by
  unfold execGB
  with_reducible
  repeat' first
    | assumption | exact OnlyM.refl _ _ | split | (refine only_gExec ?_ (within_trans (by decide) hP))
    | apply onlyM_foldl | apply onlyO_next | intro _ | (dsimp only)

theorem only_execGRand {P : Nat} {z : State} {t : Nat} {rd : BitVec 3} {n : BitVec 5} {s : State} (h_s : OnlyM P z s) (hP : Nat.land 0x50c9f093902052c P = 0x50c9f093902052c) : OnlyO P z (execGRand t rd n s) := by
  unfold execGRand
  with_reducible
  repeat' first
    | assumption | exact OnlyM.refl _ _ | split | (refine only_gExec ?_ (within_trans (by decide) hP))
    | apply onlyM_foldl | apply onlyO_next | intro _ | (dsimp only)

theorem only_execGEmit {P : Nat} {z : State} {t : Nat} {cond : BitVec 3} {ra : BitVec 3} {bin : Bool} {learn : Bool} {fin : Bool} {s : State} (h_s : OnlyM P z s) (hP : Nat.land 0x50c9f093902052c P = 0x50c9f093902052c) : OnlyO P z (execGEmit t cond ra bin learn fin s) := by
  unfold execGEmit
  with_reducible
  repeat' first
    | assumption | exact OnlyM.refl _ _ | split | (refine only_modTile ?_ (within_trans (by decide) hP))
    | (refine only_gExec ?_ (within_trans (by decide) hP)) | apply onlyM_foldl | apply onlyO_next | intro _
    | (dsimp only)

theorem only_execGWake {P : Nat} {z : State} {t : Nat} {ra : BitVec 3} {useImm : Bool} {imm : BitVec 6} {s : State} (h_s : OnlyM P z s) (hP : Nat.land 0x50c9f093902052c P = 0x50c9f093902052c) : OnlyO P z (execGWake t ra useImm imm s) := by
  unfold execGWake
  with_reducible
  repeat' first
    | assumption | exact OnlyM.refl _ _ | split | (refine only_gExec ?_ (within_trans (by decide) hP))
    | apply onlyM_foldl | apply onlyO_next | intro _ | (dsimp only)

theorem only_execGEnd {P : Nat} {z : State} {t : Nat} {s : State} (h_s : OnlyM P z s) (hP : Nat.land 0x50c9f093902052c P = 0x50c9f093902052c) : OnlyO P z (execGEnd t s) := by
  unfold execGEnd
  with_reducible
  repeat' first
    | assumption | exact OnlyM.refl _ _ | split | (refine only_gExec ?_ (within_trans (by decide) hP))
    | apply onlyM_foldl | apply onlyO_next | intro _ | (dsimp only)

theorem only_execGambitStepOverrun {P : Nat} {z : State} {t : Nat} {s : State} (h_s : OnlyM P z s) (hP : Nat.land 0x50c9f093902052c P = 0x50c9f093902052c) : OnlyO P z (execGambitStepOverrun t s) := by
  unfold execGambitStepOverrun
  with_reducible
  repeat' first
    | assumption | exact OnlyM.refl _ _ | split | (refine only_abandonRun ?_ (within_trans (by decide) hP))
    | apply onlyM_foldl | apply onlyO_next | intro _ | (dsimp only)

end Sys2Proof.Machine
end

