-- ==== Sys2Proof/Laws/FrameLink.lean ====
section
/-! SUPPORT. The frame of every operation of Machine/Link.lean: the parts that it may change. -/

set_option linter.unusedTactic false
set_option linter.unreachableTactic false
set_option linter.unusedVariables false

namespace Sys2Proof.Machine

open Sys2Proof

theorem only_hdmPoison {P : Nat} {z : State} {s : State} {m : Nat} {c : Code} (h_s : OnlyM P z s) (hP : Nat.land 0x400100 P = 0x400100) : OnlyM P z (State.hdmPoison s m c) := by
  unfold State.hdmPoison
  with_reducible
  repeat' first
    | assumption | exact OnlyM.refl _ _ | split | (refine only_modMaster ?_ (within_trans (by decide) hP))
    | apply onlyM_foldl | apply onlyO_next
    | (refine onlyM_upd ?_ (fun p hp => by have hl := lacks (within_trans (by decide : Nat.land 0x100 0x400100 = 0x100) hP) hp; revert hl; clear hp; cases p <;> first | exact fun h => absurd h (by decide) | with_unfolding_all exact fun _ => rfl))
    | intro _ | (dsimp only)

theorem only_hdmWake {P : Nat} {z : State} {s : State} {m a : Nat} (h_s : OnlyM P z s) (hP : Nat.land 0x20400 P = 0x20400) : OnlyM P z (State.hdmWake s m a) := by
  unfold State.hdmWake
  with_reducible
  repeat' first
    | assumption | exact OnlyM.refl _ _ | split | (refine only_hostWake ?_ (within_trans (by decide) hP))
    | (refine only_wakeDom ?_ (within_trans (by decide) hP)) | apply onlyM_foldl | apply onlyO_next | intro _
    | (dsimp only)

theorem only_execHdmRead {P : Nat} {z : State} {m line : Nat} {s : State} (h_s : OnlyM P z s) (hP : Nat.land 0x400000420508 P = 0x400000420508) : OnlyO P z (execHdmRead m line s) := by
  unfold execHdmRead
  with_reducible
  repeat' first
    | assumption | exact OnlyM.refl _ _ | split | (refine only_hostWake ?_ (within_trans (by decide) hP))
    | (refine only_hdmPoison ?_ (within_trans (by decide) hP))
    | (refine only_hdmWake ?_ (within_trans (by decide) hP)) | (refine only_modTile ?_ (within_trans (by decide) hP))
    | (refine only_respond ?_ (within_trans (by decide) hP)) | apply onlyM_foldl | apply onlyO_next
    | (refine onlyM_upd ?_ (fun p hp => by have hl := lacks (within_trans (by decide : Nat.land 0x400000000000 0x400000420508 = 0x400000000000) hP) hp; revert hl; clear hp; cases p <;> first | exact fun h => absurd h (by decide) | with_unfolding_all exact fun _ => rfl))
    | intro _ | (dsimp only)

theorem only_hdmErr {P : Nat} {z s : State} {p : Pool} (h_s : OnlyM P z s)
    (hP : Nat.land (2 ^ Part.pool.idx) P = 2 ^ Part.pool.idx) : OnlyM P z { s with pool := p } := by
  refine onlyM_upd h_s (fun p hp => ?_)
  have hl := lacks hP hp
  revert hl
  clear hp
  cases p <;> first | exact fun h => absurd h (by decide) | exact fun _ => rfl

theorem only_execHdmWrite {P : Nat} {z s : State} {m line : Nat} {data : BitVec 512} (h_s : OnlyM P z s) (hP : Nat.land 0x400000420404 P = 0x400000420404) :
    OnlyO P z (execHdmWrite m line data s) := by
  unfold execHdmWrite
  dsimp only
  split
  · exact onlyO_next (only_hdmErr (only_hostWake h_s (within_trans (by decide) hP)) (within_trans (by decide) hP))
  · exact onlyO_next (only_respond (only_setMem (only_hdmWake h_s (within_trans (by decide) hP)) (within_trans (by decide) hP))
      (within_trans (by decide) hP))

theorem only_execH2dSnoop {P : Nat} {z : State} {port addr : Nat} {s : State} (h_s : OnlyM P z s) (hP : Nat.land 0x80000000 P = 0x80000000) : OnlyO P z (execH2dSnoop port addr s) := by
  unfold execH2dSnoop
  with_reducible
  repeat' first
    | assumption | exact OnlyM.refl _ _ | split | apply onlyM_foldl | apply onlyO_next
    | (refine onlyM_upd ?_ (fun p hp => by have hl := lacks (within_trans (by decide : Nat.land 0x80000000 0x80000000 = 0x80000000) hP) hp; revert hl; clear hp; cases p <;> first | exact fun h => absurd h (by decide) | with_unfolding_all exact fun _ => rfl))
    | intro _ | (dsimp only)

theorem only_execSetLdAllocations {P : Nat} {z : State} {ld : Nat} {whole : Option Bool} {s : State} (h_s : OnlyM P z s) (hP : Nat.land 0x81000000 P = 0x81000000) : OnlyO P z (execSetLdAllocations ld whole s) := by
  unfold execSetLdAllocations
  with_reducible
  repeat' first
    | assumption | exact OnlyM.refl _ _ | split | (refine only_modLd ?_ (within_trans (by decide) hP))
    | apply onlyM_foldl | apply onlyO_next
    | (refine onlyM_upd ?_ (fun p hp => by have hl := lacks (within_trans (by decide : Nat.land 0x80000000 0x81000000 = 0x80000000) hP) hp; revert hl; clear hp; cases p <;> first | exact fun h => absurd h (by decide) | with_unfolding_all exact fun _ => rfl))
    | intro _ | (dsimp only)

theorem only_execGetLdInfo {P : Nat} {z : State} {port : Nat} {s : State} (h_s : OnlyM P z s) (hP : Nat.land 0x80000000 P = 0x80000000) : OnlyO P z (execGetLdInfo port s) := by
  unfold execGetLdInfo
  with_reducible
  repeat' first
    | assumption | exact OnlyM.refl _ _ | split | apply onlyM_foldl | apply onlyO_next
    | (refine onlyM_upd ?_ (fun p hp => by have hl := lacks (within_trans (by decide : Nat.land 0x80000000 0x80000000 = 0x80000000) hP) hp; revert hl; clear hp; cases p <;> first | exact fun h => absurd h (by decide) | with_unfolding_all exact fun _ => rfl))
    | intro _ | (dsimp only)

theorem only_execGetLdAllocations {P : Nat} {z : State} {port : Nat} {s : State} (h_s : OnlyM P z s) (hP : Nat.land 0x80000000 P = 0x80000000) : OnlyO P z (execGetLdAllocations port s) := by
  unfold execGetLdAllocations
  with_reducible
  repeat' first
    | assumption | exact OnlyM.refl _ _ | split | apply onlyM_foldl | apply onlyO_next
    | (refine onlyM_upd ?_ (fun p hp => by have hl := lacks (within_trans (by decide : Nat.land 0x80000000 0x80000000 = 0x80000000) hP) hp; revert hl; clear hp; cases p <;> first | exact fun h => absurd h (by decide) | with_unfolding_all exact fun _ => rfl))
    | intro _ | (dsimp only)

theorem only_failHeads {P : Nat} {z : State} {s : State} {rk cpl : Nat} {ind : Nat} (h_s : OnlyM P z s) (hP : Nat.land 0x100000107000000 P = 0x100000107000000) : OnlyM P z (State.failHeads s rk cpl ind) := by
  induction ind generalizing s rk cpl with
  | zero => unfold State.failHeads; exact h_s
  | succ ind ih =>
    unfold State.failHeads
    with_reducible
    repeat' first
      | assumption | apply ih | exact OnlyM.refl _ _ | split | (refine only_takeCmd ?_ (within_trans (by decide) hP))
      | (refine only_complete ?_ (within_trans (by decide) hP)) | apply onlyM_foldl | apply onlyO_next
      | (refine onlyM_upd ?_ (fun p hp => by have hl := lacks (within_trans (by decide : Nat.land 0x4000000 0x100000107000000 = 0x4000000) hP) hp; revert hl; clear hp; cases p <;> first | exact fun h => absurd h (by decide) | with_unfolding_all exact fun _ => rfl))
      | intro _ | (dsimp only)

theorem only_hostParks {P : Nat} {z : State} {s : State} {n : Nat} (h_s : OnlyM P z s) (hP : Nat.land 0x10c9f0939020528 P = 0x10c9f0939020528) : OnlyM P z (State.hostParks s n) := by
  unfold State.hostParks
  with_reducible
  repeat' first
    | assumption | exact OnlyM.refl _ _ | split | (refine only_parkWorld ?_ (within_trans (by decide) hP))
    | apply onlyM_foldl | apply onlyO_next | intro _ | (dsimp only)

theorem only_dropLd {P : Nat} {z : State} {s : State} {n : Nat} {up : Bool} (h_s : OnlyM P z s) (hP : Nat.land 0x10c9f093f520528 P = 0x10c9f093f520528) : OnlyM P z (State.dropLd s n up) := by
  unfold State.dropLd
  with_reducible
  repeat' first
    | assumption | exact OnlyM.refl _ _ | split | (refine only_hostParks ?_ (within_trans (by decide) hP))
    | (refine only_complete ?_ (within_trans (by decide) hP))
    | (refine only_failHeads ?_ (within_trans (by decide) hP))
    | (refine only_modMaster ?_ (within_trans (by decide) hP)) | (refine only_modLd ?_ (within_trans (by decide) hP))
    | apply onlyM_foldl | apply onlyO_next
    | (refine onlyM_upd ?_ (fun p hp => by have hl := lacks (within_trans (by decide : Nat.land 0x4100000 0x10c9f093f520528 = 0x4100000) hP) hp; revert hl; clear hp; cases p <;> first | exact fun h => absurd h (by decide) | with_unfolding_all exact fun _ => rfl))
    | intro _ | (dsimp only)

theorem only_dropPort {P : Nat} {z : State} {s : State} {k : Nat} (h_s : OnlyM P z s) (hP : Nat.land 0x10cdf093fd20528 P = 0x10cdf093fd20528) : OnlyM P z (State.dropPort s k) := by
  unfold State.dropPort
  with_reducible
  repeat' first
    | assumption | exact OnlyM.refl _ _ | split | (refine only_poolLinkDown ?_ (within_trans (by decide) hP))
    | (refine only_dropLd ?_ (within_trans (by decide) hP)) | (refine only_modLink ?_ (within_trans (by decide) hP))
    | apply onlyM_foldl | apply onlyO_next | intro _ | (dsimp only)

theorem only_execLinkDrop {P : Nat} {z : State} {what : LinkTarget} {s : State} (h_s : OnlyM P z s) (hP : Nat.land 0x10cdf093fd20528 P = 0x10cdf093fd20528) : OnlyO P z (execLinkDrop what s) := by
  unfold execLinkDrop
  with_reducible
  repeat' first
    | assumption | exact OnlyM.refl _ _ | split | (refine only_dropPort ?_ (within_trans (by decide) hP))
    | (refine only_dropLd ?_ (within_trans (by decide) hP)) | apply onlyM_foldl | apply onlyO_next | intro _
    | (dsimp only)

theorem only_execHotReset {P : Nat} {z : State} {what : LinkTarget} {s : State} (h_s : OnlyM P z s) (hP : Nat.land 0x10cdf093fd20528 P = 0x10cdf093fd20528) : OnlyO P z (execHotReset what s) := by
  unfold execHotReset
  with_reducible
  repeat' first
    | assumption | exact OnlyM.refl _ _ | split | (refine only_dropPort ?_ (within_trans (by decide) hP))
    | (refine only_dropLd ?_ (within_trans (by decide) hP)) | apply onlyM_foldl | apply onlyO_next | intro _
    | (dsimp only)

theorem only_execLinkRecovery {P : Nat} {z : State} {port : Nat} {s : State} (h_s : OnlyM P z s) (hP : Nat.land 0x800000 P = 0x800000) : OnlyO P z (execLinkRecovery port s) := by
  unfold execLinkRecovery
  with_reducible
  repeat' first
    | assumption | exact OnlyM.refl _ _ | split | (refine only_modLink ?_ (within_trans (by decide) hP))
    | apply onlyM_foldl | apply onlyO_next | intro _ | (dsimp only)

theorem only_execCxlLinkUp {P : Nat} {z : State} {port width : Nat} {fast lopt pcie : Bool} {s : State} (h_s : OnlyM P z s) (hP : Nat.land 0x400001800000 P = 0x400001800000) : OnlyO P z (execCxlLinkUp port width fast lopt pcie s) := by
  unfold execCxlLinkUp
  with_reducible
  repeat' first
    | assumption | exact OnlyM.refl _ _ | split | (refine only_modLink ?_ (within_trans (by decide) hP))
    | (refine only_modLd ?_ (within_trans (by decide) hP)) | apply onlyM_foldl | apply onlyO_next
    | (refine onlyM_upd ?_ (fun p hp => by have hl := lacks (within_trans (by decide : Nat.land 0x400000000000 0x400001800000 = 0x400000000000) hP) hp; revert hl; clear hp; cases p <;> first | exact fun h => absurd h (by decide) | with_unfolding_all exact fun _ => rfl))
    | intro _ | (dsimp only)

end Sys2Proof.Machine
end

