-- ==== Sys2Proof/Laws/FrameSupplies.lean ====
section
/-! SUPPORT. The frame of every operation of Machine/Supplies.lean: the parts that it may change. -/

set_option linter.unusedTactic false
set_option linter.unreachableTactic false
set_option linter.unusedVariables false

namespace Sys2Proof.Machine

open Sys2Proof

theorem only_execAonResetRelease {P : Nat} {z : State} {s : State} (h_s : OnlyM P z s) (hP : Nat.land 0x2200 P = 0x2200) : OnlyO P z (execAonResetRelease s) := by
  unfold execAonResetRelease
  with_reducible
  repeat' first
    | assumption | exact OnlyM.refl _ _ | split | apply onlyM_foldl | apply onlyO_next
    | (refine onlyM_upd ?_ (fun p hp => by have hl := lacks (within_trans (by decide : Nat.land 0x2200 0x2200 = 0x2200) hP) hp; revert hl; clear hp; cases p <;> first | exact fun h => absurd h (by decide) | with_unfolding_all exact fun _ => rfl))
    | intro _ | (dsimp only)

theorem only_execPwrGoodTimeout {P : Nat} {z : State} {s : State} (h_s : OnlyM P z s) (hP : Nat.land 0x2000 P = 0x2000) : OnlyO P z (execPwrGoodTimeout s) := by
  unfold execPwrGoodTimeout
  with_reducible
  repeat' first
    | assumption | exact OnlyM.refl _ _ | split | apply onlyM_foldl | apply onlyO_next
    | (refine onlyM_upd ?_ (fun p hp => by have hl := lacks (within_trans (by decide : Nat.land 0x2000 0x2000 = 0x2000) hP) hp; revert hl; clear hp; cases p <;> first | exact fun h => absurd h (by decide) | with_unfolding_all exact fun _ => rfl))
    | intro _ | (dsimp only)

theorem only_execRailRetry {P : Nat} {z : State} {s : State} (h_s : OnlyM P z s) (hP : Nat.land 0x2000 P = 0x2000) : OnlyO P z (execRailRetry s) := by
  unfold execRailRetry
  with_reducible
  repeat' first
    | assumption | exact OnlyM.refl _ _ | split | apply onlyM_foldl | apply onlyO_next
    | (refine onlyM_upd ?_ (fun p hp => by have hl := lacks (within_trans (by decide : Nat.land 0x2000 0x2000 = 0x2000) hP) hp; revert hl; clear hp; cases p <;> first | exact fun h => absurd h (by decide) | with_unfolding_all exact fun _ => rfl))
    | intro _ | (dsimp only)

theorem only_outputsHalt {P : Nat} {z : State} {s : State} (h_s : OnlyM P z s) (hP : Nat.land 0x20 P = 0x20) : OnlyM P z (State.outputsHalt s) := by
  unfold State.outputsHalt
  with_reducible
  repeat' first
    | assumption | exact OnlyM.refl _ _ | split | (refine only_eachOut ?_ (within_trans (by decide) hP))
    | apply onlyM_foldl | apply onlyO_next
    | (refine onlyM_upd ?_ (fun p hp => by have hl := lacks (within_trans (by decide : Nat.land 0x20 0x20 = 0x20) hP) hp; revert hl; clear hp; cases p <;> first | exact fun h => absurd h (by decide) | with_unfolding_all exact fun _ => rfl))
    | intro _ | (dsimp only)

theorem only_porAssert {P : Nat} {z : State} {s : State} (h_s : OnlyM P z s) (hP : Nat.land 0x7fffffffffffe7c P = 0x7fffffffffffe7c) : OnlyM P z (State.porAssert s) := by
  unfold State.porAssert
  with_reducible
  repeat' first
    | assumption | exact OnlyM.refl _ _ | split | (refine only_outputsHalt ?_ (within_trans (by decide) hP))
    | (refine only_powerLoss ?_ (within_trans (by decide) hP)) | apply onlyM_foldl | apply onlyO_next
    | (refine onlyM_upd ?_ (fun p hp => by have hl := lacks (within_trans (by decide : Nat.land 0xa000 0x7fffffffffffe7c = 0xa000) hP) hp; revert hl; clear hp; cases p <;> first | exact fun h => absurd h (by decide) | with_unfolding_all exact fun _ => rfl))
    | intro _ | (dsimp only)

theorem only_execSupplyFault {P : Nat} {z : State} {s : State} (h_s : OnlyM P z s) (hP : Nat.land 0x7fffffffffffe7c P = 0x7fffffffffffe7c) : OnlyO P z (execSupplyFault s) := by
  unfold execSupplyFault
  with_reducible
  repeat' first
    | assumption | exact OnlyM.refl _ _ | split | (refine only_porAssert ?_ (within_trans (by decide) hP))
    | apply onlyM_foldl | apply onlyO_next
    | (refine onlyM_upd ?_ (fun p hp => by have hl := lacks (within_trans (by decide : Nat.land 0x2000 0x7fffffffffffe7c = 0x2000) hP) hp; revert hl; clear hp; cases p <;> first | exact fun h => absurd h (by decide) | with_unfolding_all exact fun _ => rfl))
    | intro _ | (dsimp only)

theorem only_execResetN {P : Nat} {z : State} {low : Bool} {us : Nat} {s : State} (h_s : OnlyM P z s) (hP : Nat.land 0x7fffffffffffe7c P = 0x7fffffffffffe7c) : OnlyO P z (execResetN low us s) := by
  unfold execResetN
  with_reducible
  repeat' first
    | assumption | exact OnlyM.refl _ _ | split | (refine only_porAssert ?_ (within_trans (by decide) hP))
    | apply onlyM_foldl | apply onlyO_next
    | (refine onlyM_upd ?_ (fun p hp => by have hl := lacks (within_trans (by decide : Nat.land 0x2000 0x7fffffffffffe7c = 0x2000) hP) hp; revert hl; clear hp; cases p <;> first | exact fun h => absurd h (by decide) | with_unfolding_all exact fun _ => rfl))
    | intro _ | (dsimp only)

theorem only_execAlwaysOnSupplyLoss {P : Nat} {z : State} {s : State} (h_s : OnlyM P z s) (hP : Nat.land 0x7fffffffffffe7c P = 0x7fffffffffffe7c) : OnlyO P z (execAlwaysOnSupplyLoss s) := by
  unfold execAlwaysOnSupplyLoss
  with_reducible
  repeat' first
    | assumption | exact OnlyM.refl _ _ | split | apply onlyM_foldl | apply onlyO_next
    | (refine onlyM_upd ?_ (fun p hp => by have hl := lacks (within_trans (by decide : Nat.land 0x7fffffffffffe7c 0x7fffffffffffe7c = 0x7fffffffffffe7c) hP) hp; revert hl; clear hp; cases p <;> first | exact fun h => absurd h (by decide) | with_unfolding_all exact fun _ => rfl))
    | intro _ | (dsimp only)

end Sys2Proof.Machine
end

