-- ==== Sys2Proof/Laws/FrameTick.lean ====
section
/-! SUPPORT. The frame of every operation of Machine/Tick.lean: the parts that it may change. -/

set_option linter.unusedTactic false
set_option linter.unreachableTactic false
set_option linter.unusedVariables false

namespace Sys2Proof.Machine

open Sys2Proof

theorem only_tickWall {P : Nat} {z : State} {s : State} (h_s : OnlyM P z s) (hP : Nat.land 0x200 P = 0x200) : OnlyM P z (tickWall s) := by
  unfold tickWall
  with_reducible
  repeat' first
    | assumption | exact OnlyM.refl _ _ | split | apply onlyM_foldl | apply onlyO_next
    | (refine onlyM_upd ?_ (fun p hp => by have hl := lacks (within_trans (by decide : Nat.land 0x200 0x200 = 0x200) hP) hp; revert hl; clear hp; cases p <;> first | exact fun h => absurd h (by decide) | with_unfolding_all exact fun _ => rfl))
    | intro _ | (dsimp only)

end Sys2Proof.Machine
end

