-- ==== Sys2Proof/Laws/Only.lean ====
section
/-! SUPPORT. The frame of every operation, from its own argument: the set of parts that it may change. -/

namespace Sys2Proof.Machine

open Sys2Proof

theorem recordWake_ok {s : State} {kind from_ dom detail : Nat} : OnlyM 0x400 s (State.recordWake s kind from_ dom detail) := only_recordWake (OnlyM.refl _ _) rfl
theorem wakeDom_ok {s : State} {d kind detail : Nat} : OnlyM 0x20400 s (State.wakeDom s d kind detail) := only_wakeDom (OnlyM.refl _ _) rfl
theorem packageWake_ok {s : State} {kind detail : Nat} : OnlyM 0xe400 s (State.packageWake s kind detail) := only_packageWake (OnlyM.refl _ _) rfl
theorem wakeSource_ok {s : State} {i kind detail : Nat} : OnlyM 0xe400 s (State.wakeSource s i kind detail) := only_wakeSource (OnlyM.refl _ _) rfl
theorem wakeTile_ok {s : State} {t kind detail : Nat} : OnlyM 0x20400 s (State.wakeTile s t kind detail) := only_wakeTile (OnlyM.refl _ _) rfl
theorem wakeBank_ok {s : State} {t : Nat} : OnlyM 0x20400 s (State.wakeBank s t) := only_wakeBank (OnlyM.refl _ _) rfl
theorem hostWake_ok {s : State} {m : Nat} : OnlyM 0x20400 s (State.hostWake s m) := only_hostWake (OnlyM.refl _ _) rfl
theorem respond_ok {s : State} {m : Nat} {ws : List DWord} : OnlyM 0x420400 s (State.respond s m ws) := only_respond (OnlyM.refl _ _) rfl
theorem refuse_ok {s : State} {m : Nat} {bar2 : Bool} {off : Nat} {c : Code} {isRead : Bool} : OnlyM 0x420400 s (State.refuse s m bar2 off c isRead) := only_refuse (OnlyM.refl _ _) rfl
theorem traceTile_ok {s : State} {t kind stamp w : Nat} {wv : Bool} {a : Nat} {payload : List Nat} : OnlyM 0x400000000000008 s (State.traceTile s t kind stamp w wv a payload) := only_traceTile (OnlyM.refl _ _) rfl
theorem traceHub_ok {s : State} {x kind a : Nat} {payload : List Nat} {tg : Target} : OnlyM 0x100000000000000 s (State.traceHub s x kind a payload tg) := only_traceHub (OnlyM.refl _ _) rfl
theorem traceRack_ok {s : State} {r op m : Nat} {c : Code} {kind seq : Nat} : OnlyM 0x100000000000000 s (State.traceRack s r op m c kind seq) := only_traceRack (OnlyM.refl _ _) rfl
theorem colWrite_ok {s : State} {t a n v : Nat} : OnlyM 0x4 s (State.colWrite s t a n v) := only_colWrite (OnlyM.refl _ _) rfl
theorem colBytes_ok {s : State} {t a : Nat} {bs : List Byte} : OnlyM 0x4 s (State.colBytes s t a bs) := only_colBytes (OnlyM.refl _ _) rfl
theorem pushLoss_ok {s : State} {i : LossItem} : OnlyM 0x800000000000 s (State.pushLoss s i) := only_pushLoss (OnlyM.refl _ _) rfl
theorem raiseRack_ok {s : State} {r : Nat} : OnlyM 0x1000000 s (State.raiseRack s r) := only_raiseRack (OnlyM.refl _ _) rfl
theorem rackPut_ok {s : State} {r src : Nat} {msg : List DWord} : OnlyM 0x101000000 s (State.rackPut s r src msg) := only_rackPut (OnlyM.refl _ _) rfl
theorem dropMsg_ok {s : State} {r src : Nat} {w : Option Nat} {msg : List DWord} : OnlyM 0x100800100000000 s (State.dropMsg s r src w msg) := only_dropMsg (OnlyM.refl _ _) rfl
theorem postRecord_ok {s : State} {r src kind : Nat} {c : Code} {w : Option Nat} {body : List DWord} : OnlyM 0x100800101000000 s (State.postRecord s r src kind c w body) := only_postRecord (OnlyM.refl _ _) rfl
theorem postReserved_ok {s : State} {r kind : Nat} {c : Code} {body : List DWord} : OnlyM 0x100000101000000 s (State.postReserved s r kind c body) := only_postReserved (OnlyM.refl _ _) rfl
theorem postFault_ok {s : State} {event dom detail : Nat} : OnlyM 0x100800101000100 s (State.postFault s event dom detail) := only_postFault (OnlyM.refl _ _) rfl
theorem complete_ok {s : State} {c : ExecCmd} {code : Code} {results : List DWord} : OnlyM 0x100000103000000 s (State.complete s c code results) := only_complete (OnlyM.refl _ _) rfl
theorem completeAt_ok {s : State} {rk seq : Nat} {code : Code} {results : List DWord} : OnlyM 0x100000103000000 s (State.completeAt s rk seq code results) := only_completeAt (OnlyM.refl _ _) rfl
theorem begun_ok {s : State} {c : ExecCmd} : OnlyM 0x2000000 s (State.begun s c) := only_begun (OnlyM.refl _ _) rfl
theorem fenceMove_ok {s : State} {d : Nat} {st : FenceState} : OnlyM 0x104800101000100 s (State.fenceMove s d st) := only_fenceMove (OnlyM.refl _ _) rfl
theorem fenceStart_ok {s : State} {d us : Nat} {reset : Bool} {cmd : Option (Nat × Nat)} {wake detail : Nat} : OnlyM 0x10c800101020500 s (State.fenceStart s d us reset cmd wake detail) := only_fenceStart (OnlyM.refl _ _) rfl
theorem updateStart_ok {s : State} {d : Nat} : OnlyM 0x10c800101020500 s (State.updateStart s d) := only_updateStart (OnlyM.refl _ _) rfl
theorem stageUpdate_ok {s : State} {d : Nat} {l : List Section} : OnlyM 0x4000000000000 s (State.stageUpdate s d l) := only_stageUpdate (OnlyM.refl _ _) rfl
theorem amendCheck_ok {s : State} : OnlyM 0x100000103100000 s (State.amendCheck s) := only_amendCheck (OnlyM.refl _ _) rfl
theorem countCode_ok {s : State} {c : Code} : OnlyM 0x1000000000000 s (State.countCode s c) := only_countCode (OnlyM.refl _ _) rfl
theorem overflow_ok {s : State} {i : LossItem} : OnlyM 0x1000800000000 s (State.overflow s i) := only_overflow (OnlyM.refl _ _) rfl
theorem lossTurn_ok {s : State} {i : LossItem} : OnlyM 0x800000000 s (State.lossTurn s i) := only_lossTurn (OnlyM.refl _ _) rfl
theorem lossStore_ok {s : State} {k w0 w1 : Nat} : OnlyM 0x20404 s (State.lossStore s k w0 w1) := only_lossStore (OnlyM.refl _ _) rfl
theorem lossMarks_ok {s : State} {before : Nat} : OnlyM 0x100800101000100 s (State.lossMarks s before) := only_lossMarks (OnlyM.refl _ _) rfl
theorem lossWrite_ok {s : State} {i : LossItem} : OnlyM 0x105800901020504 s (State.lossWrite s i) := only_lossWrite (OnlyM.refl _ _) rfl
theorem lossNext_ok {s : State} : OnlyM 0x105800901020504 s (State.lossNext s) := only_lossNext (OnlyM.refl _ _) rfl
theorem lossDrain_ok {s : State} : OnlyM 0x105800901020504 s (State.lossDrain s) := only_lossDrain (OnlyM.refl _ _) rfl
theorem rackDrop_ok {s : State} {rk : Nat} : OnlyM 0x100000000 s (State.rackDrop s rk) := only_rackDrop (OnlyM.refl _ _) rfl
theorem rackReady_ok {s : State} {rk : Nat} : OnlyM 0x800100000000 s (State.rackReady s rk) := only_rackReady (OnlyM.refl _ _) rfl
theorem pushResult_ok {s : State} {m rk : Nat} {c : Code} : OnlyM 0x100400000 s (State.pushResult s m rk c) := only_pushResult (OnlyM.refl _ _) rfl
theorem traceRead_ok {s : State} {rk op m : Nat} {msg : List DWord} : OnlyM 0x100000000000000 s (State.traceRead s rk op m msg) := only_traceRead (OnlyM.refl _ _) rfl
theorem latchMsg_ok {s : State} {m win : Nat} {msg : List DWord} : OnlyM 0x420400 s (State.latchMsg s m win msg) := only_latchMsg (OnlyM.refl _ _) rfl
theorem setReady_ok {s : State} {x : RackSet} : OnlyM 0x800100000000 s (State.setReady s x) := only_setReady (OnlyM.refl _ _) rfl
theorem cmdWake_ok {s : State} {op : Nat} : OnlyM 0x20400 s (State.cmdWake s op) := only_cmdWake (OnlyM.refl _ _) rfl
theorem takeCmd_ok {s : State} {rk cpl : Nat} {msg : List DWord} : OnlyM 0x102000000 s (State.takeCmd s rk cpl msg).1 := only_takeCmd (OnlyM.refl _ _) rfl
theorem loseEvents_ok {s : State} {v : Volley} {c : Code} {rep : Coord} : OnlyM 0x800000000000 s (State.loseEvents s v c rep) := only_loseEvents (OnlyM.refl _ _) rfl
theorem countSent_ok {s : State} {st : Nat} {v : Volley} : OnlyM 0x8000000 s (State.countSent s st v) := only_countSent (OnlyM.refl _ _) rfl
theorem countRecv_ok {s : State} {st : Nat} {v : Volley} : OnlyM 0x8000000 s (State.countRecv s st v) := only_countRecv (OnlyM.refl _ _) rfl
theorem enqueue_ok {s : State} {px py inp : Nat} {v : Volley} : OnlyM 0x10000000000 s (State.enqueue s px py inp v) := only_enqueue (OnlyM.refl _ _) rfl
theorem countMark_ok {s : State} {k : Nat} {v : Volley} : OnlyM 0x80000000008 s (State.countMark s k v) := only_countMark (OnlyM.refl _ _) rfl
theorem deliver_ok {s : State} {k : Nat} {v : Volley} : OnlyM 0xa0000020408 s (State.deliver s k v) := only_deliver (OnlyM.refl _ _) rfl
theorem spanSend_ok {s : State} {k : Nat} {v : Volley} : OnlyM 0x900000020400 s (State.spanSend s k v) := only_spanSend (OnlyM.refl _ _) rfl
theorem toHub_ok {s : State} {v : Volley} : OnlyM 0x9a0008020408 s (State.toHub s v) := only_toHub (OnlyM.refl _ _) rfl
theorem inject_ok {s : State} {k : Nat} {v : Volley} : OnlyM 0x9b0008020408 s (State.inject s k v) := only_inject (OnlyM.refl _ _) rfl
theorem paced_ok {s : State} {k : Nat} {v : Volley} : OnlyM 0x9f0008020408 s (State.paced s k v) := only_paced (OnlyM.refl _ _) rfl
theorem send_ok {s : State} {k : Nat} {v : Volley} : OnlyM 0x9f0028020408 s (State.send s k v) := only_send (OnlyM.refl _ _) rfl
theorem toRoot_ok {s : State} {src st : Nat} {c : Ctl} : OnlyM 0x9b0008020408 s (State.toRoot s src st c) := only_toRoot (OnlyM.refl _ _) rfl
theorem fromRoot_ok {s : State} {st dstX : Nat} {c : Ctl} : OnlyM 0x10008000000 s (State.fromRoot s st dstX c) := only_fromRoot (OnlyM.refl _ _) rfl
theorem sendOpen_ok {s : State} {t : Nat} {o : OpenVolley} : OnlyM 0x9f0028020408 s (State.sendOpen s t o) := only_sendOpen (OnlyM.refl _ _) rfl
theorem addWord_ok {s : State} {t : Nat} {e : DWord} {w tau value : Nat} {ep : Bool} : OnlyM 0x9f0028020408 s (State.addWord s t e w tau value ep) := only_addWord (OnlyM.refl _ _) rfl
theorem fanEmit_ok {s : State} {t w n tau value : Nat} : OnlyM 0x9f0028020408 s (State.fanEmit s t w n tau value) := only_fanEmit (OnlyM.refl _ _) rfl
theorem emission_ok {s : State} {t w n tau value : Nat} : OnlyM 0x9f0028020408 s (State.emission s t w n tau value) := only_emission (OnlyM.refl _ _) rfl
theorem sendNotice_ok {s : State} {t g : Nat} : OnlyM 0x9f0028020408 s (State.sendNotice s t g) := only_sendNotice (OnlyM.refl _ _) rfl
theorem noticeGroup_ok {s : State} {g : Nat} : OnlyM 0x9f0028020408 s (State.noticeGroup s g) := only_noticeGroup (OnlyM.refl _ _) rfl
theorem hubNotice_ok {s : State} {k g : Nat} : OnlyM 0x9f0028020408 s (State.hubNotice s k g) := only_hubNotice (OnlyM.refl _ _) rfl
theorem hubNotices_ok {s : State} {g : Nat} : OnlyM 0x9f0028020428 s (State.hubNotices s g) := only_hubNotices (OnlyM.refl _ _) rfl
theorem post_ok {s : State} {dst : Nat} {b : MailBody} : OnlyM 0x200000000000 s (State.post s dst b) := only_post (OnlyM.refl _ _) rfl
theorem outsWorldSafe_ok {s : State} {w : Nat} : OnlyM 0x20 s (State.outsWorldSafe s w) := only_outsWorldSafe (OnlyM.refl _ _) rfl
theorem armWorld_ok {s : State} {w : Nat} : OnlyM 0x20 s (State.armWorld s w) := only_armWorld (OnlyM.refl _ _) rfl
theorem addIntake_ok {s : State} {w tau k : Nat} : OnlyM 0x800000000 s (State.addIntake s w tau k) := only_addIntake (OnlyM.refl _ _) rfl
theorem portFlush_ok {s : State} {n : Nat} : OnlyM 0x9f0028020428 s (State.portFlush s n) := only_portFlush (OnlyM.refl _ _) rfl
theorem portQueue_ok {s : State} {n : Nat} {e : DWord} {w value : Nat} : OnlyM 0x9f0828020428 s (State.portQueue s n e w value) := only_portQueue (OnlyM.refl _ _) rfl
theorem lockQueue_ok {s : State} {ep ch : Nat} {e : DWord} {w tau value : Nat} : OnlyM 0x10000000 s (State.lockQueue s ep ch e w tau value) := only_lockQueue (OnlyM.refl _ _) rfl
theorem portEvent_ok {s : State} {n ch : Nat} {e : DWord} {w off value : Nat} : OnlyM 0x9f0838020428 s (State.portEvent s n ch e w off value) := only_portEvent (OnlyM.refl _ _) rfl
theorem capture_ok {s : State} {n ch value : Nat} : OnlyM 0x9f0838020428 s (State.capture s n ch value) := only_capture (OnlyM.refl _ _) rfl
theorem lostEvents_ok {s : State} {n : Nat} {found : Bool} : OnlyM 0x9f0838020428 s (State.lostEvents s n found) := only_lostEvents (OnlyM.refl _ _) rfl
theorem portRecord_ok {s : State} {n cause : Nat} : OnlyM 0x100800101000020 s (State.portRecord s n cause) := only_portRecord (OnlyM.refl _ _) rfl
theorem detach_ok {s : State} {n : Nat} {cause : Nat} : OnlyM 0x1009f0939020428 s (State.detach s n cause) := only_detach (OnlyM.refl _ _) rfl
theorem attach_ok {s : State} {n : Nat} : OnlyM 0x1009f0939020428 s (State.attach s n) := only_attach (OnlyM.refl _ _) rfl
theorem enumerate_ok {s : State} {n cause : Nat} : OnlyM 0x1009f0939020428 s (State.enumerate s n cause) := only_enumerate (OnlyM.refl _ _) rfl
theorem enumFailed_ok {s : State} {n : Nat} : OnlyM 0x100800101000020 s (State.enumFailed s n) := only_enumFailed (OnlyM.refl _ _) rfl
theorem portResume_ok {s : State} {n : Nat} : OnlyM 0x1009f0939020428 s (State.portResume s n) := only_portResume (OnlyM.refl _ _) rfl
theorem portLeftovers_ok {s : State} {n : Nat} : OnlyM 0x840010000028 s (State.portLeftovers s n) := only_portLeftovers (OnlyM.refl _ _) rfl
theorem portFence_ok {s : State} {n : Nat} : OnlyM 0x100840111000028 s (State.portFence s n) := only_portFence (OnlyM.refl _ _) rfl
theorem tracePip_ok {s : State} {n op m : Nat} {c : Code} : OnlyM 0x100000000000000 s (State.tracePip s n op m c) := only_tracePip (OnlyM.refl _ _) rfl
theorem wakeWaiters_ok {s : State} {n : Nat} : OnlyM 0x100000501000000 s (State.wakeWaiters s n) := only_wakeWaiters (OnlyM.refl _ _) rfl
theorem putPip_ok {s : State} {n : Nat} {p : Pip} : OnlyM 0x100000501000000 s (State.putPip s n p) := only_putPip (OnlyM.refl _ _) rfl
theorem internalAdd_ok {s : State} {by_ n : Nat} {inc : Word} : OnlyM 0x100800501000000 s (State.internalAdd s by_ n inc) := only_internalAdd (OnlyM.refl _ _) rfl
theorem pipRes_ok {s : State} {m : Nat} {c : Code} {op : Nat} : OnlyM 0x100000000420400 s (State.pipRes s m c op) := only_pipRes (OnlyM.refl _ _) rfl
theorem register_ok {s : State} {m n cond : Nat} {value : Word} : OnlyM 0x500000000 s (State.register s m n cond value) := only_register (OnlyM.refl _ _) rfl
theorem writeRec_ok {s : State} {t : Nat} {b : Block} {a : Nat} {r : BitVec 128} : OnlyM 0xc s (State.writeRec s t b a r) := only_writeRec (OnlyM.refl _ _) rfl
theorem startRecords_ok {s : State} {t w anchor : Nat} : OnlyM 0xc s (State.startRecords s t w anchor) := only_startRecords (OnlyM.refl _ _) rfl
theorem sweepRecords_ok {s : State} {t w notice : Nat} : OnlyM 0x80000000000c s (State.sweepRecords s t w notice) := only_sweepRecords (OnlyM.refl _ _) rfl
theorem ageNotice_ok {s : State} {w notice : Nat} : OnlyM 0x9b0808020408 s (State.ageNotice s w notice) := only_ageNotice (OnlyM.refl _ _) rfl
theorem grantRoot_ok {s : State} {w st : Nat} : OnlyM 0x9b0008020408 s (State.grantRoot s w st) := only_grantRoot (OnlyM.refl _ _) rfl
theorem hubEmitAt_ok {s : State} {g n a b k : Nat} : OnlyM 0x9f0038020428 s (State.hubEmitAt s g n a b k) := only_hubEmitAt (OnlyM.refl _ _) rfl
theorem afterT_ok {s : State} {w old : Nat} : OnlyM 0x9f0838020428 s (State.afterT s w old) := only_afterT (OnlyM.refl _ _) rfl
theorem moveT_ok {s : State} {w : Nat} : OnlyM 0x9f0838020428 s (State.moveT s w) := only_moveT (OnlyM.refl _ _) rfl
theorem worldRecord_ok {s : State} {w kind : Nat} {body : List DWord} : OnlyM 0x100800101000000 s (State.worldRecord s w kind body) := only_worldRecord (OnlyM.refl _ _) rfl
theorem stillUpdates_ok {s : State} {ts : List Nat} : OnlyM 0x10c800101020500 s (State.stillUpdates s ts) := only_stillUpdates (OnlyM.refl _ _) rfl
theorem runningChanged_ok {s : State} {w : Nat} : OnlyM 0x10c9f0939020528 s (State.runningChanged s w) := only_runningChanged (OnlyM.refl _ _) rfl
theorem parkCore_ok {s : State} {w cause : Nat} : OnlyM 0x10c9f0939020528 s (State.parkCore s w cause) := only_parkCore (OnlyM.refl _ _) rfl
theorem parkFollowers_ok {s : State} {w : Nat} : OnlyM 0x10c9f0939020528 s (State.parkFollowers s w) := only_parkFollowers (OnlyM.refl _ _) rfl
theorem parkWorld_ok {s : State} {w cause : Nat} : OnlyM 0x10c9f0939020528 s (State.parkWorld s w cause) := only_parkWorld (OnlyM.refl _ _) rfl
theorem judgeLag_ok {s : State} {w : Nat} : OnlyM 0x10c9f0939020528 s (State.judgeLag s w) := only_judgeLag (OnlyM.refl _ _) rfl
theorem applyAdvance_ok {s : State} {w adv : Nat} : OnlyM 0x10c9f0939020528 s (State.applyAdvance s w adv) := only_applyAdvance (OnlyM.refl _ _) rfl
theorem inputCore_ok {s : State} {w u : Nat} : OnlyM 0x10c9f0939020528 s (State.inputCore s w u) := only_inputCore (OnlyM.refl _ _) rfl
theorem toPeer_ok {s : State} {lk : Nat} {c : Ctl} : OnlyM 0x900000020400 s (State.toPeer s lk c) := only_toPeer (OnlyM.refl _ _) rfl
theorem follow_ok {s : State} {w inc : Nat} : OnlyM 0x10c9f0939020528 s (State.follow s w inc) := only_follow (OnlyM.refl _ _) rfl
theorem input_ok {s : State} {w u : Nat} : OnlyM 0x10c9f0939020528 s (State.input s w u) := only_input (OnlyM.refl _ _) rfl
theorem hostAdvance_ok {s : State} {m w delta : Nat} : OnlyM 0x10c9f0939020528 s (State.hostAdvance s m w delta).1 := only_hostAdvance (OnlyM.refl _ _) rfl
theorem closeTurn_ok {s : State} {w : Nat} : OnlyM 0x1800000000 s (State.closeTurn s w) := only_closeTurn (OnlyM.refl _ _) rfl
theorem openTurn_ok {s : State} {w : Nat} : OnlyM 0x9f1828020408 s (State.openTurn s w) := only_openTurn (OnlyM.refl _ _) rfl
theorem boundaryUpdates_ok {s : State} {w : Nat} : OnlyM 0x10c800101020500 s (State.boundaryUpdates s w) := only_boundaryUpdates (OnlyM.refl _ _) rfl
theorem subscribePeer_ok {s : State} {w : Nat} : OnlyM 0x900000020400 s (State.subscribePeer s w) := only_subscribePeer (OnlyM.refl _ _) rfl
theorem startTiles_ok {s : State} {w : Nat} : OnlyM 0x80000000c s (State.startTiles s w) := only_startTiles (OnlyM.refl _ _) rfl
theorem startWorld_ok {s : State} {w anchor : Nat} : OnlyM 0x10c9f193902052c s (State.startWorld s w anchor) := only_startWorld (OnlyM.refl _ _) rfl
theorem unparkWorld_ok {s : State} {w1 w2 : DWord} : OnlyM 0x10c9f0939020528 s (State.unparkWorld s w1 w2) := only_unparkWorld (OnlyM.refl _ _) rfl
theorem putQuar_ok {s : State} {t u : Nat} : OnlyM 0x4 s (State.putQuar s t u) := only_putQuar (OnlyM.refl _ _) rfl
theorem autoFence_ok {s : State} {t u : Nat} : OnlyM 0x10c800101020500 s (State.autoFence s t u) := only_autoFence (OnlyM.refl _ _) rfl
theorem quarantine_ok {s : State} {t u0 : Nat} : OnlyM 0x10c80010102050c s (State.quarantine s t u0) := only_quarantine (OnlyM.refl _ _) rfl
theorem unitLost_ok {s : State} {t u kind : Nat} {ws : List (Nat × Nat)} : OnlyM 0x10c80010102050c s (State.unitLost s t u kind ws) := only_unitLost (OnlyM.refl _ _) rfl
theorem unitRead_ok {s : State} {t u : Nat} : OnlyM 0x8 s (State.unitRead s t u) := only_unitRead (OnlyM.refl _ _) rfl
theorem setSynapse_ok {s : State} {t u j v : Nat} : OnlyM 0x4 s (State.setSynapse s t u j v) := only_setSynapse (OnlyM.refl _ _) rfl
theorem depWord_ok {s : State} {t w stamp u n j : Nat} : OnlyM 0x4 s (State.depWord s t w stamp u n j) := only_depWord (OnlyM.refl _ _) rfl
theorem depression_ok {s : State} {t w row stamp : Nat} : OnlyM 0x10c80010102050c s (State.depression s t w row stamp) := only_depression (OnlyM.refl _ _) rfl
theorem potWord_ok {s : State} {t w stamp v j row : Nat} {r : RuleSet} : OnlyM 0x4 s (State.potWord s t w stamp v j row r) := only_potWord (OnlyM.refl _ _) rfl
theorem potentiation_ok {s : State} {t w n stamp : Nat} : OnlyM 0x10c80010102050c s (State.potentiation s t w n stamp) := only_potentiation (OnlyM.refl _ _) rfl
theorem sweepTimes_ok {s : State} {t w notice : Nat} : OnlyM 0x4 s (State.sweepTimes s t w notice) := only_sweepTimes (OnlyM.refl _ _) rfl
theorem foldWord_ok {s : State} {t row l u j : Nat} : OnlyM 0x4 s (State.foldWord s t row l u j) := only_foldWord (OnlyM.refl _ _) rfl
theorem rewriteWord_ok {s : State} {t row l u j v : Nat} : OnlyM 0x4 s (State.rewriteWord s t row l u j v) := only_rewriteWord (OnlyM.refl _ _) rfl
theorem consolWord_ok {s : State} {t row l u j : Nat} {extra : Nat × Nat} {g : Nat} : OnlyM 0xc s (State.consolWord s t row l u j extra g) := only_consolWord (OnlyM.refl _ _) rfl
theorem nondetAt_ok {s : State} {t w tau : Nat} : OnlyM 0x8 s (State.nondetAt s t w tau) := only_nondetAt (OnlyM.refl _ _) rfl
theorem tileDrop_ok {s : State} {t w tau : Nat} {wheel lock : Bool} {src : Coord} {row : Nat} {item : LossItem} : OnlyM 0x400800800000008 s (State.tileDrop s t w tau wheel lock src row item) := only_tileDrop (OnlyM.refl _ _) rfl
theorem contribute_ok {s : State} {t w row n seg due : Nat} {sum : Int} {lock : Bool} {src : Coord} : OnlyM 0x400800800000008 s (State.contribute s t w row n seg due sum lock src) := only_contribute (OnlyM.refl _ _) rfl
theorem passWord_ok {s : State} {t row k u j : Nat} {e : DWord} {ev : Ev} : OnlyM 0x400800800000008 s (State.passWord s t row k u j e ev) := only_passWord (OnlyM.refl _ _) rfl
theorem passSeg_ok {s : State} {t row k : Nat} {e : DWord} {evs : List Ev} : OnlyM 0x50c80090102050c s (State.passSeg s t row k e evs) := only_passSeg (OnlyM.refl _ _) rfl
theorem rowPass_ok {s : State} {t row : Nat} {evs : List Ev} : OnlyM 0x50c80090102050c s (State.rowPass s t row evs) := only_rowPass (OnlyM.refl _ _) rfl
theorem depEvent_ok {s : State} {t : Nat} {ev : Ev} : OnlyM 0x10c80010102050c s (State.depEvent s t ev) := only_depEvent (OnlyM.refl _ _) rfl
theorem macDone_ok {s : State} {t : Nat} {evs : List Ev} : OnlyM 0x10c80010102050c s (State.macDone s t evs) := only_macDone (OnlyM.refl _ _) rfl
theorem dispatchOne_ok {s : State} {t : Nat} {m : MergeEntry} : OnlyM 0x50c80090102050c s (State.dispatchOne s t m) := only_dispatchOne (OnlyM.refl _ _) rfl
theorem dispatch_ok {s : State} {t : Nat} {m : MergeEntry} : OnlyM 0x50c80090102050c s (State.dispatch s t m) := only_dispatch (OnlyM.refl _ _) rfl
theorem dispatchFull_ok {s : State} {t : Nat} : OnlyM 0x50c80090102050c s (State.dispatchFull s t) := only_dispatchFull (OnlyM.refl _ _) rfl
theorem joinMerge_ok {s : State} {t : Nat} {ev : Ev} : OnlyM 0x50c80090102050c s (State.joinMerge s t ev) := only_joinMerge (OnlyM.refl _ _) rfl
theorem reflexEvent_ok {s : State} {t : Nat} {ev : Ev} : OnlyM 0x10c9f0939020528 s (State.reflexEvent s t ev) := only_reflexEvent (OnlyM.refl _ _) rfl
theorem feed_ok {s : State} {t : Nat} : OnlyM 0x50c9f093902052c s (State.feed s t) := only_feed (OnlyM.refl _ _) rfl
theorem intakeEvent_ok {s : State} {t : Nat} {v : Volley} {e : Word} : OnlyM 0x50c80090102050c s (State.intakeEvent s t v e) := only_intakeEvent (OnlyM.refl _ _) rfl
theorem groupReports_ok {s : State} {t g : Nat} : OnlyM 0x9f0828020408 s (State.groupReports s t g) := only_groupReports (OnlyM.refl _ _) rfl
theorem afterF_ok {s : State} {t w : Nat} : OnlyM 0x50c9f093902052c s (State.afterF s t w) := only_afterF (OnlyM.refl _ _) rfl
theorem potentiate_ok {s : State} {t w c : Nat} : OnlyM 0x10c80010102050c s (State.potentiate s t w c) := only_potentiate (OnlyM.refl _ _) rfl
theorem finishUpdate_ok {s : State} {t w c : Nat} {lock : Bool} : OnlyM 0x50c9f093902052c s (State.finishUpdate s t w c lock) := only_finishUpdate (OnlyM.refl _ _) rfl
theorem startRun_ok {s : State} {t : Nat} {d : DueRun} : OnlyM 0x800000000008 s (State.startRun s t d) := only_startRun (OnlyM.refl _ _) rfl
theorem nextRun_ok {s : State} {t : Nat} : OnlyM 0x50c9f093902052c s (State.nextRun s t) := only_nextRun (OnlyM.refl _ _) rfl
theorem tracePc_ok {s : State} {t : Nat} {r : Run} : OnlyM 0x400000000000008 s (State.tracePc s t r) := only_tracePc (OnlyM.refl _ _) rfl
theorem traceRun_ok {s : State} {t : Nat} {r : Run} {abandoned : Bool} : OnlyM 0x400000000000008 s (State.traceRun s t r abandoned) := only_traceRun (OnlyM.refl _ _) rfl
theorem runWake_ok {s : State} {t : Nat} {r : Run} : OnlyM 0x400800800000008 s (State.runWake s t r) := only_runWake (OnlyM.refl _ _) rfl
theorem runEmit_ok {s : State} {t : Nat} {r : Run} {md : List DWord} : OnlyM 0x4009f0028020408 s (State.runEmit s t r md) := only_runEmit (OnlyM.refl _ _) rfl
theorem completeRun_ok {s : State} {t : Nat} {r : Run} : OnlyM 0x50c9f093902052c s (State.completeRun s t r) := only_completeRun (OnlyM.refl _ _) rfl
theorem abandonRun_ok {s : State} {t : Nat} {r : Run} {cause : Nat} : OnlyM 0x50c9f093902052c s (State.abandonRun s t r cause) := only_abandonRun (OnlyM.refl _ _) rfl
theorem lateVolley_ok {s : State} {t : Nat} {v : Volley} {e : Word} : OnlyM 0x800000000008 s (State.lateVolley s t v e) := only_lateVolley (OnlyM.refl _ _) rfl
theorem settle_ok {s : State} {t : Nat} : OnlyM 0x50c9f093902052c s (State.settle s t) := only_settle (OnlyM.refl _ _) rfl
theorem takeEvents_ok {s : State} {t : Nat} {v : Volley} : OnlyM 0x50c9f093902052c s (State.takeEvents s t v) := only_takeEvents (OnlyM.refl _ _) rfl
theorem beginUpdate_ok {s : State} {t w c : Nat} : OnlyM 0x800000008 s (State.beginUpdate s t w c) := only_beginUpdate (OnlyM.refl _ _) rfl
theorem sweep_ok {s : State} {t w notice : Nat} : OnlyM 0x81000800000c s (State.sweep s t w notice) := only_sweep (OnlyM.refl _ _) rfl
theorem nondetAll_ok {s : State} {t : Nat} : OnlyM 0x8 s (State.nondetAll s t) := only_nondetAll (OnlyM.refl _ _) rfl
theorem scrubUnit_ok {s : State} {t u : Nat} : OnlyM 0x10c80010102050c s (State.scrubUnit s t u) := only_scrubUnit (OnlyM.refl _ _) rfl
theorem scrub_ok {s : State} {t bank : Nat} : OnlyM 0x10c80010102050c s (State.scrub s t bank) := only_scrub (OnlyM.refl _ _) rfl
theorem turnAlt_ok {s : State} {px py out : Nat} {v : Volley} : OnlyM 0x10000000000 s (State.turnAlt s px py out v) := only_turnAlt (OnlyM.refl _ _) rfl
theorem popBuf_ok {s : State} {px py inp vc : Nat} : OnlyM 0x10000000000 s (State.popBuf s px py inp vc) := only_popBuf (OnlyM.refl _ _) rfl
theorem oldRecvAt_ok {s : State} {px py : Nat} {v : Volley} : OnlyM 0x8 s (State.oldRecvAt s px py v) := only_oldRecvAt (OnlyM.refl _ _) rfl
theorem absorb_ok {s : State} {px py : Nat} {v : Volley} {c : Code} : OnlyM 0x800008000008 s (State.absorb s px py v c) := only_absorb (OnlyM.refl _ _) rfl
theorem rootTake_ok {s : State} {st : Nat} {c : Ctl} : OnlyM 0x10200000020400 s (State.rootTake s st c) := only_rootTake (OnlyM.refl _ _) rfl
theorem localPort_ok {s : State} {px py : Nat} {v : Volley} : OnlyM 0x10aa0008020408 s (State.localPort s px py v) := only_localPort (OnlyM.refl _ _) rfl
theorem traceRoute_ok {s : State} {px py out : Nat} {v : Volley} {det mark : Bool} : OnlyM 0x400000000000008 s (State.traceRoute s px py out v det mark) := only_traceRoute (OnlyM.refl _ _) rfl
theorem moveVolley_ok {s : State} {px py inp out : Nat} {v : Volley} : OnlyM 0x410bb0008020408 s (State.moveVolley s px py inp out v) := only_moveVolley (OnlyM.refl _ _) rfl
theorem flipWorld_ok {s : State} {w f : Nat} : OnlyM 0x9b0808020408 s (State.flipWorld s w f) := only_flipWorld (OnlyM.refl _ _) rfl
theorem startFlip_ok {s : State} {cmd : Nat × Nat} : OnlyM 0x9b0808020408 s (State.startFlip s cmd) := only_startFlip (OnlyM.refl _ _) rfl
theorem toSteward_ok {s : State} {k : Nat} {c : Ctl} : OnlyM 0xb0008020408 s (State.toSteward s k c) := only_toSteward (OnlyM.refl _ _) rfl
theorem sendEnds_ok {s : State} : OnlyM 0xb0008020408 s (State.sendEnds s) := only_sendEnds (OnlyM.refl _ _) rfl
theorem sendDeltas_ok {s : State} : OnlyM 0xb0008020408 s (State.sendDeltas s) := only_sendDeltas (OnlyM.refl _ _) rfl
theorem drainAdd_ok {s : State} {n : Int} : OnlyM 0x100800509000000 s (State.drainAdd s n) := only_drainAdd (OnlyM.refl _ _) rfl
theorem drainLost_ok {s : State} : OnlyM 0x100800509000000 s (State.drainLost s) := only_drainLost (OnlyM.refl _ _) rfl
theorem drainCheck_ok {s0 : State} : OnlyM 0x100800d0b000000 s0 (State.drainCheck s0) := only_drainCheck (OnlyM.refl _ _) rfl
theorem ackChain_ok {s : State} {t from_ seq : Nat} : OnlyM 0x200000000000 s (State.ackChain s t from_ seq) := only_ackChain (OnlyM.refl _ _) rfl
theorem psumEntry_ok {s : State} {t from_ : Nat} {e : Nat × Nat × Nat × Int} : OnlyM 0x400800800000008 s (State.psumEntry s t from_ e) := only_psumEntry (OnlyM.refl _ _) rfl
theorem foldAll_ok {s : State} {t : Nat} : OnlyM 0x4 s (State.foldAll s t) := only_foldAll (OnlyM.refl _ _) rfl
theorem consolUnit_ok {s : State} {t row l u : Nat} {from_ : List (List Word)} : OnlyM 0x10c80010102050c s (State.consolUnit s t row l u from_) := only_consolUnit (OnlyM.refl _ _) rfl
theorem pointAdds_ok {s : State} {t : Nat} : OnlyM 0x10008000000 s (State.pointAdds s t) := only_pointAdds (OnlyM.refl _ _) rfl
theorem pointDone_ok {s : State} {t : Nat} : OnlyM 0x50c9f093902052c s (State.pointDone s t) := only_pointDone (OnlyM.refl _ _) rfl
theorem pointRecord_ok {s : State} {t n contributed worlds clamped changed : Nat} : OnlyM 0x100800101000000 s (State.pointRecord s t n contributed worlds clamped changed) := only_pointRecord (OnlyM.refl _ _) rfl
theorem memberMissing_ok {s : State} {t m : Nat} : OnlyM 0x800800000000 s (State.memberMissing s t m) := only_memberMissing (OnlyM.refl _ _) rfl
theorem homeFinish_ok {s : State} {t n : Nat} : OnlyM 0x50cbf293902052c s (State.homeFinish s t n) := only_homeFinish (OnlyM.refl _ _) rfl
theorem homeTry_ok {s : State} {t : Nat} : OnlyM 0x50cbf293902052c s (State.homeTry s t) := only_homeTry (OnlyM.refl _ _) rfl
theorem memberSend_ok {s : State} {t : Nat} : OnlyM 0xa0000000000c s (State.memberSend s t) := only_memberSend (OnlyM.refl _ _) rfl
theorem memberTry_ok {s : State} {t : Nat} : OnlyM 0x50c9f093902052c s (State.memberTry s t) := only_memberTry (OnlyM.refl _ _) rfl
theorem beginPoint_ok {s : State} {t : Nat} : OnlyM 0x50cbf293902052c s (State.beginPoint s t) := only_beginPoint (OnlyM.refl _ _) rfl
theorem learnWake_ok {s : State} {t : Nat} : OnlyM 0x20400 s (State.learnWake s t) := only_learnWake (OnlyM.refl _ _) rfl
theorem point_ok {s : State} {t : Nat} : OnlyM 0x50cbf293902052c s (State.point s t) := only_point (OnlyM.refl _ _) rfl
theorem enterSlot_ok {s : State} {t : Nat} : OnlyM 0x8 s (State.enterSlot s t) := only_enterSlot (OnlyM.refl _ _) rfl
theorem nextSlot_ok {s : State} {t : Nat} : OnlyM 0x8 s (State.nextSlot s t) := only_nextSlot (OnlyM.refl _ _) rfl
theorem gatherDispatch_ok {s : State} {t : Nat} {e : DWord} : OnlyM 0x50c80090102050c s (State.gatherDispatch s t e) := only_gatherDispatch (OnlyM.refl _ _) rfl
theorem gatherClear_ok {s : State} {t : Nat} {e : DWord} : OnlyM 0x8 s (State.gatherClear s t e) := only_gatherClear (OnlyM.refl _ _) rfl
theorem loLatch_ok {s : State} {m off size : Nat} {hi : Word} : OnlyM 0x400000 s (State.loLatch s m off size hi) := only_loLatch (OnlyM.refl _ _) rfl
theorem cfgSend_ok {s : State} {m t off size : Nat} {c : Ctl} : OnlyM 0x809b0008020408 s (State.cfgSend s m t off size c) := only_cfgSend (OnlyM.refl _ _) rfl
theorem barRead_ok {s : State} {m off size : Nat} : OnlyM 0x809b0008420408 s (State.barRead s m off size) := only_barRead (OnlyM.refl _ _) rfl
theorem slotRead_ok {s : State} {m off size : Nat} : OnlyM 0x420400 s (State.slotRead s m off size) := only_slotRead (OnlyM.refl _ _) rfl
theorem regPut_ok {s : State} {m off : Nat} {v : Word} : OnlyM 0x80db4009624c08 s (State.regPut s m off v) := only_regPut (OnlyM.refl _ _) rfl
theorem setCached_ok {s : State} {a key : Nat} {c : Option CacheLine} : OnlyM 0x400000000000 s (State.setCached s a key c) := only_setCached (OnlyM.refl _ _) rfl
theorem agentFail_ok {s : State} {a : Nat} {c : Code} : OnlyM 0x400000000000 s (State.agentFail s a c) := only_agentFail (OnlyM.refl _ _) rfl
theorem tracePool_ok {s : State} {win line msg agent : Nat} {queued : Bool} {st : Nat} : OnlyM 0x100000000000000 s (State.tracePool s win line msg agent queued st) := only_tracePool (OnlyM.refl _ _) rfl
theorem tell_ok {s : State} {a win line : Nat} {msg : DirMsg} : OnlyM 0x100400000000000 s (State.tell s a win line msg) := only_tell (OnlyM.refl _ _) rfl
theorem answer_ok {s : State} {win line kind rsp : Nat} : OnlyM 0x100400000000000 s (State.answer s win line kind rsp) := only_answer (OnlyM.refl _ _) rfl
theorem issue_ok {s : State} {o : PoolOp} : OnlyM 0x400000000000 s (State.issue s o) := only_issue (OnlyM.refl _ _) rfl
theorem grant_ok {s : State} {e : DirEntry} {r : DirReq} {d : BitVec 512} {dirty : Bool} : OnlyM 0x100400000000000 s (State.grant s e r d dirty) := only_grant (OnlyM.refl _ _) rfl
theorem startRead_ok {s : State} {e : DirEntry} {r : DirReq} : OnlyM 0xc00000000000 s (State.startRead s e r) := only_startRead (OnlyM.refl _ _) rfl
theorem written_ok {s : State} {e : DirEntry} : OnlyM 0x100400000000000 s (State.written s e) := only_written (OnlyM.refl _ _) rfl
theorem startWrite_ok {s : State} {e : DirEntry} {d : BitVec 512} : OnlyM 0x100c00000000000 s (State.startWrite s e d) := only_startWrite (OnlyM.refl _ _) rfl
theorem recallAll_ok {s : State} {e : DirEntry} {hs : List Nat} {why : Why} : OnlyM 0x100400000000000 s (State.recallAll s e hs why) := only_recallAll (OnlyM.refl _ _) rfl
theorem answered_ok {s : State} {e : DirEntry} {d : Option (BitVec 512)} {why : Why} : OnlyM 0x100c00000000000 s (State.answered s e d why) := only_answered (OnlyM.refl _ _) rfl
theorem serveLine_ok {s : State} {key : Nat} : OnlyM 0x100c00000000000 s (State.serveLine s key) := only_serveLine (OnlyM.refl _ _) rfl
theorem evictOne_ok {s : State} : OnlyM 0x100c00000000100 s (State.evictOne s) := only_evictOne (OnlyM.refl _ _) rfl
theorem request_ok {s : State} {win line : Nat} {r : DirReq} : OnlyM 0x100c00000000100 s (State.request s win line r) := only_request (OnlyM.refl _ _) rfl
theorem release_ok {s : State} {key : Nat} : OnlyM 0x100c00000000100 s (State.release s key) := only_release (OnlyM.refl _ _) rfl
theorem plainRead_ok {s : State} {a win line : Nat} : OnlyM 0xc00000000000 s (State.plainRead s a win line) := only_plainRead (OnlyM.refl _ _) rfl
theorem poolRead_ok {s : State} {a win line : Nat} {excl : Bool} : OnlyM 0x100c00000020500 s (State.poolRead s a win line excl) := only_poolRead (OnlyM.refl _ _) rfl
theorem plainWrite_ok {s : State} {a win line : Nat} {d : BitVec 512} : OnlyM 0x100c00000020400 s (State.plainWrite s a win line d) := only_plainWrite (OnlyM.refl _ _) rfl
theorem install_ok {s : State} {a win line : Nat} {d : BitVec 512} {dirty excl : Bool} : OnlyM 0x400000000000 s (State.install s a win line d dirty excl) := only_install (OnlyM.refl _ _) rfl
theorem sendAck_ok {s : State} {a win line : Nat} : OnlyM 0x400000000000 s (State.sendAck s a win line) := only_sendAck (OnlyM.refl _ _) rfl
theorem ackIn_ok {s : State} {a key : Nat} {d : Option (BitVec 512)} : OnlyM 0x100c00000000100 s (State.ackIn s a key d) := only_ackIn (OnlyM.refl _ _) rfl
theorem flushWin_ok {s : State} {win : Nat} : OnlyM 0x100c00000000000 s (State.flushWin s win) := only_flushWin (OnlyM.refl _ _) rfl
theorem putOp_ok {s : State} {o o1 : PoolOp} : OnlyM 0x400000000000 s (State.putOp s o o1) := only_putOp (OnlyM.refl _ _) rfl
theorem opDone_ok {s : State} {o : PoolOp} : OnlyM 0x100c00000000100 s (State.opDone s o) := only_opDone (OnlyM.refl _ _) rfl
theorem poolLinkDown_ok {s : State} : OnlyM 0x100c00000000100 s (State.poolLinkDown s) := only_poolLinkDown (OnlyM.refl _ _) rfl
theorem agentLost_ok {s : State} {a : Nat} : OnlyM 0x100c00000000100 s (State.agentLost s a) := only_agentLost (OnlyM.refl _ _) rfl
theorem poolDrain_ok {s : State} : OnlyM 0xc00000000000 s (State.poolDrain s) := only_poolDrain (OnlyM.refl _ _) rfl
theorem redo_ok {s : State} {o : PoolOp} {e : Nat} : OnlyM 0x100c00000000100 s (State.redo s o e) := only_redo (OnlyM.refl _ _) rfl
theorem outputWord_ok {s : State} {n : Nat} {v : Volley} {e : Word} : OnlyM 0x800000000020 s (State.outputWord s n v e) := only_outputWord (OnlyM.refl _ _) rfl
theorem haltRecords_ok {s : State} {cause : Nat} : OnlyM 0x100800101000020 s (State.haltRecords s cause) := only_haltRecords (OnlyM.refl _ _) rfl
theorem haltAssert_ok {s : State} : OnlyM 0x100800101001020 s (State.haltAssert s) := only_haltAssert (OnlyM.refl _ _) rfl
theorem protocolLoss_ok {s : State} {n : Nat} : OnlyM 0x1009f0939020428 s (State.protocolLoss s n) := only_protocolLoss (OnlyM.refl _ _) rfl
theorem i3cEntry_ok {s : State} {n : Nat} {e : DWord} {bytes : List Byte} : OnlyM 0x9f0838020428 s (State.i3cEntry s n e bytes) := only_i3cEntry (OnlyM.refl _ _) rfl
theorem retireTiles_ok {s : State} {w : Nat} : OnlyM 0x800000008 s (State.retireTiles s w) := only_retireTiles (OnlyM.refl _ _) rfl
theorem retireWorld_ok {s : State} {w : Nat} {cmd : Nat × Nat} : OnlyM 0x10c9f0939020528 s (State.retireWorld s w cmd) := only_retireWorld (OnlyM.refl _ _) rfl
theorem injectOne_ok {s : State} {w : Nat} {e : Option DWord × Nat × Nat × Nat} : OnlyM 0x9f0038020408 s (State.injectOne s w e) := only_injectOne (OnlyM.refl _ _) rfl
theorem applyStaged_ok {s : State} {w : Nat} : OnlyM 0x900800020400 s (State.applyStaged s w) := only_applyStaged (OnlyM.refl _ _) rfl
theorem turnOpens_ok {s : State} {w : Nat} : OnlyM 0x10c9f193b120528 s (State.turnOpens s w) := only_turnOpens (OnlyM.refl _ _) rfl
theorem subscribed_ok {s : State} {lk leader follower : Nat} : OnlyM 0x8000000000 s (State.subscribed s lk leader follower) := only_subscribed (OnlyM.refl _ _) rfl
theorem tempoForward_ok {s : State} {lk leader inc : Nat} : OnlyM 0x10c9f0939020528 s (State.tempoForward s lk leader inc) := only_tempoForward (OnlyM.refl _ _) rfl
theorem spanDown_ok {s : State} {k : Nat} : OnlyM 0x10c9f0939020528 s (State.spanDown s k) := only_spanDown (OnlyM.refl _ _) rfl
theorem peerCtl_ok {s : State} {lk : Nat} {c : Ctl} : OnlyM 0x10c9f8939020528 s (State.peerCtl s lk c) := only_peerCtl (OnlyM.refl _ _) rfl
theorem spanHeld_ok {s : State} {lk : Nat} : OnlyM 0x100000020000 s (State.spanHeld s lk) := only_spanHeld (OnlyM.refl _ _) rfl
theorem traceDrain_ok {s : State} : OnlyM 0x700000000000108 s (State.traceDrain s) := only_traceDrain (OnlyM.refl _ _) rfl
theorem traceReset_ok {s : State} : OnlyM 0x700000000000008 s (State.traceReset s) := only_traceReset (OnlyM.refl _ _) rfl
theorem traceTileReset_ok {s : State} {t : Nat} : OnlyM 0x700000000000008 s (State.traceTileReset s t) := only_traceTileReset (OnlyM.refl _ _) rfl
theorem domAwake_ok {s : State} {d : Nat} : OnlyM 0x20000 s (State.domAwake s d) := only_domAwake (OnlyM.refl _ _) rfl
theorem wakeDeep_ok {s : State} : OnlyM 0x20400 s (State.wakeDeep s) := only_wakeDeep (OnlyM.refl _ _) rfl
theorem powerLoss_ok {s : State} : OnlyM 0x7fffffffffffe7c s (State.powerLoss s) := only_powerLoss (OnlyM.refl _ _) rfl
theorem doldRecord_ok {s : State} : OnlyM 0x8000 s (State.doldRecord s) := only_doldRecord (OnlyM.refl _ _) rfl
theorem enterDoldrums_ok {s : State} : OnlyM 0x7fffffffffffe7c s (State.enterDoldrums s) := only_enterDoldrums (OnlyM.refl _ _) rfl
theorem sense_ok {s : State} {sensor tj : Nat} : OnlyM 0x10000 s (State.sense s sensor tj) := only_sense (OnlyM.refl _ _) rfl
theorem hot_ok {s : State} : OnlyM 0x50000 s (State.hot s) := only_hot (OnlyM.refl _ _) rfl
theorem inputAll_ok {s : State} {kind i : Nat} : OnlyM 0x10c9f0939020528 s (State.inputAll s kind i) := only_inputAll (OnlyM.refl _ _) rfl
theorem backCount_ok {s : State} {w : Nat} : OnlyM 0x10c9f0939020528 s (State.backCount s w) := only_backCount (OnlyM.refl _ _) rfl
theorem foreCount_ok {s : State} {w : Nat} : OnlyM 0x10c9f0939020528 s (State.foreCount s w) := only_foreCount (OnlyM.refl _ _) rfl
theorem colZero_ok {s : State} {t a n : Nat} : OnlyM 0x4 s (State.colZero s t a n) := only_colZero (OnlyM.refl _ _) rfl
theorem writeReserve_ok {s : State} {t : Nat} : OnlyM 0x4 s (State.writeReserve s t) := only_writeReserve (OnlyM.refl _ _) rfl
theorem putHost_ok {s : State} {e : HostEntry} : OnlyM 0x1000000 s (State.putHost s e) := only_putHost (OnlyM.refl _ _) rfl
theorem putRack_ok {s : State} {r : RackCfg} : OnlyM 0x100000000 s (State.putRack s r) := only_putRack (OnlyM.refl _ _) rfl
theorem putSet_ok {s : State} {c : SetCfg} : OnlyM 0x300000000 s (State.putSet s c) := only_putSet (OnlyM.refl _ _) rfl
theorem putWorld_ok {s : State} {w : Nat} {e : WorldEntry} : OnlyM 0x202412f492cc97c s (State.putWorld s w e) := only_putWorld (OnlyM.refl _ _) rfl
theorem putPort_ok {s : State} {n : Nat} {c : PortCfg} : OnlyM 0x20 s (State.putPort s n c) := only_putPort (OnlyM.refl _ _) rfl
theorem putWindows_ok {s : State} {c : PoolCfg} : OnlyM 0x400000000000 s (State.putWindows s c) := only_putWindows (OnlyM.refl _ _) rfl
theorem putPool_ok {s : State} {c : PoolCfg} : OnlyM 0x400000000000 s (State.putPool s c) := only_putPool (OnlyM.refl _ _) rfl
theorem putTrace_ok {s : State} {c : TraceCfg} : OnlyM 0x200000000000000 s (State.putTrace s c) := only_putTrace (OnlyM.refl _ _) rfl
theorem putColumn_ok {s : State} {t : Nat} {param : Word} {bytes : List Byte} : OnlyM 0x4 s (State.putColumn s t param bytes) := only_putColumn (OnlyM.refl _ _) rfl
theorem putSection_ok {s : State} {sec : Section} : OnlyM 0x202412f492cc97c s (State.putSection s sec) := only_putSection (OnlyM.refl _ _) rfl
theorem worldOutput_ok {s : State} {r src w ch value full : Nat} : OnlyM 0x100800901000000 s (State.worldOutput s r src w ch value full) := only_worldOutput (OnlyM.refl _ _) rfl
theorem bindWord_ok {s : State} {y : Nat} {v : Volley} {e : Word} : OnlyM 0x100800901000000 s (State.bindWord s y v e) := only_bindWord (OnlyM.refl _ _) rfl
theorem bulkFail_ok {s : State} {item : LossItem} : OnlyM 0xc00000000000 s (State.bulkFail s item) := only_bulkFail (OnlyM.refl _ _) rfl
theorem bulkWrite_ok {s : State} {who : Nat} {w0 w1 w2 : DWord} {r : Code × BitVec 512} {i t : Nat} : OnlyM 0xc00000020404 s (State.bulkWrite s who w0 w1 w2 r i t) := only_bulkWrite (OnlyM.refl _ _) rfl
theorem bulkLine_ok {s : State} {who : Nat} {w0 w1 w2 : DWord} {ext : List (Option (BitVec 512))} {i : Nat} : OnlyM 0xc00000020404 s (State.bulkLine s who w0 w1 w2 ext i) := only_bulkLine (OnlyM.refl _ _) rfl
theorem bulkLines_ok {s : State} {who : Nat} {w0 w1 w2 : DWord} {ext : List (Option (BitVec 512))} : OnlyM 0xc00000020404 s (State.bulkLines s who w0 w1 w2 ext) := only_bulkLines (OnlyM.refl _ _) rfl
theorem bootLog_ok {s : State} {code : Nat} {detail : Option Nat} : OnlyM 0x80100 s (State.bootLog s code detail) := only_bootLog (OnlyM.refl _ _) rfl
theorem clearLoaded_ok {s : State} : OnlyM 0x7fffffffffffe7c s (State.clearLoaded s) := only_clearLoaded (OnlyM.refl _ _) rfl
theorem pinsOff_ok {s : State} : OnlyM 0x20 s (State.pinsOff s) := only_pinsOff (OnlyM.refl _ _) rfl
theorem bootStops_ok {s : State} {code : Nat} : OnlyM 0x208020 s (State.bootStops s code) := only_bootStops (OnlyM.refl _ _) rfl
theorem readCharters_ok {s : State} : OnlyM 0x280100 s (State.readCharters s) := only_readCharters (OnlyM.refl _ _) rfl
theorem earlyDone_ok {s : State} {im : Image} : OnlyM 0x402c0100 s (State.earlyDone s im) := only_earlyDone (OnlyM.refl _ _) rfl
theorem early_ok {s : State} : OnlyM 0x402c8120 s (State.early s) := only_early (OnlyM.refl _ _) rfl
theorem fallBack_ok {s : State} : OnlyM 0x7ffffffffffff7c s (State.fallBack s) := only_fallBack (OnlyM.refl _ _) rfl
theorem bootFails_ok {s : State} {phase code : Nat} {detail : Option Nat} : OnlyM 0x7ffffffffffff7c s (State.bootFails s phase code detail) := only_bootFails (OnlyM.refl _ _) rfl
theorem bootStart_ok {s : State} : OnlyM 0x7ffffffffffff7c s (State.bootStart s) := only_bootStart (OnlyM.refl _ _) rfl
theorem zeroReserves_ok {s : State} {sts : List Nat} : OnlyM 0x4 s (State.zeroReserves s sts) := only_zeroReserves (OnlyM.refl _ _) rfl
theorem roll_ok {s : State} {sts : List Nat} : OnlyM 0x10000208000 s (State.roll s sts) := only_roll (OnlyM.refl _ _) rfl
theorem findDefects_ok {s : State} {st : Nat} : OnlyM 0x200000 s (State.findDefects s st) := only_findDefects (OnlyM.refl _ _) rfl
theorem declareAbsent_ok {s : State} {ts : List Nat} : OnlyM 0x10040288100 s (State.declareAbsent s ts) := only_declareAbsent (OnlyM.refl _ _) rfl
theorem remap_ok {s : State} {sts : List Nat} : OnlyM 0x10040288100 s (State.remap s sts) := only_remap (OnlyM.refl _ _) rfl
theorem rollAndMap_ok {s : State} : OnlyM 0x10040288104 s (State.rollAndMap s) := only_rollAndMap (OnlyM.refl _ _) rfl
theorem putAll_ok {s : State} {l : List (Section × Nat)} : OnlyM 0x202412f492cc97c s (State.putAll s l) := only_putAll (OnlyM.refl _ _) rfl
theorem putCopies_ok {s : State} {l : List (Section × Nat)} : OnlyM 0x4 s (State.putCopies s l) := only_putCopies (OnlyM.refl _ _) rfl
theorem runDirective_ok {s : State} {d : Directive} {data : Option (List Byte)} : OnlyM 0x4 s (State.runDirective s d data).1 := only_runDirective (OnlyM.refl _ _) rfl
theorem autostart_ok {s : State} : OnlyM 0x10c9f193902052c s (State.autostart s) := only_autostart (OnlyM.refl _ _) rfl
theorem portsReady_ok {s : State} : OnlyM 0x1009f0939020428 s (State.portsReady s) := only_portsReady (OnlyM.refl _ _) rfl
theorem bootReport_ok {s : State} {im : Image} : OnlyM 0x100800101000000 s (State.bootReport s im) := only_bootReport (OnlyM.refl _ _) rfl
theorem declareReady_ok {s : State} {im : Image} : OnlyM 0x72c9f193922852e s (State.declareReady s im) := only_declareReady (OnlyM.refl _ _) rfl
theorem bootFinish_ok {s : State} {im : Image} : OnlyM 0x7ffffffffffff7e s (State.bootFinish s im) := only_bootFinish (OnlyM.refl _ _) rfl
theorem bootOn_ok {s : State} {im : Image} : OnlyM 0x7ffffffffffff7e s (State.bootOn s im) := only_bootOn (OnlyM.refl _ _) rfl
theorem bootFresh_ok {s : State} : OnlyM 0x7ffffffffffff7c s (State.bootFresh s) := only_bootFresh (OnlyM.refl _ _) rfl
theorem restart_ok {s : State} : OnlyM 0x7ffffffffffff7c s (State.restart s) := only_restart (OnlyM.refl _ _) rfl
theorem fillRow_ok {s : State} {t u row l k : Nat} : OnlyM 0x4 s (State.fillRow s t u row l k) := only_fillRow (OnlyM.refl _ _) rfl
theorem fillCol_ok {s : State} {t v n l k : Nat} : OnlyM 0x4 s (State.fillCol s t v n l k) := only_fillCol (OnlyM.refl _ _) rfl
theorem fillUnit_ok {s : State} {t u src : Nat} : OnlyM 0x4 s (State.fillUnit s t u src) := only_fillUnit (OnlyM.refl _ _) rfl
theorem markRecovered_ok {s : State} {t u src : Nat} : OnlyM 0x8 s (State.markRecovered s t u src) := only_markRecovered (OnlyM.refl _ _) rfl
theorem recover_ok {s : State} {t u src : Nat} : OnlyM 0x80000000000c s (State.recover s t u src) := only_recover (OnlyM.refl _ _) rfl
theorem enterReset_ok {s : State} {d : Nat} : OnlyM 0x104900101000100 s (State.enterReset s d) := only_enterReset (OnlyM.refl _ _) rfl
theorem notify_ok {s : State} {d k : Nat} : OnlyM 0x109b0008020408 s (State.notify s d k) := only_notify (OnlyM.refl _ _) rfl
theorem loseWaiting_ok {s : State} {t : Nat} : OnlyM 0x800000000008 s (State.loseWaiting s t) := only_loseWaiting (OnlyM.refl _ _) rfl
theorem emptyFanout_ok {s : State} {t : Nat} : OnlyM 0x9f0028020408 s (State.emptyFanout s t) := only_emptyFanout (OnlyM.refl _ _) rfl
theorem drainTile_ok {s : State} {t : Nat} : OnlyM 0x9f0028020408 s (State.drainTile s t) := only_drainTile (OnlyM.refl _ _) rfl
theorem spanFence_ok {s : State} {k : Nat} : OnlyM 0x10c9f0939020528 s (State.spanFence s k) := only_spanFence (OnlyM.refl _ _) rfl
theorem drainDom_ok {s : State} {d : Nat} : OnlyM 0x70cdf0939020528 s (State.drainDom s d) := only_drainDom (OnlyM.refl _ _) rfl
theorem fenceDone_ok {s0 : State} {d : Nat} {c : Code} : OnlyM 0x105800903020504 s0 (State.fenceDone s0 d c) := only_fenceDone (OnlyM.refl _ _) rfl
theorem enterFenced_ok {s : State} {d : Nat} : OnlyM 0x1159b090b02050c s (State.enterFenced s d) := only_enterFenced (OnlyM.refl _ _) rfl
theorem heedUpstream_ok {s : State} {t : Nat} {ts : List Nat} {out : Bool} : OnlyM 0x8 s (State.heedUpstream s t ts out) := only_heedUpstream (OnlyM.refl _ _) rfl
theorem failChain_ok {s : State} {t : Nat} {ts : List Nat} : OnlyM 0x800000000008 s (State.failChain s t ts) := only_failChain (OnlyM.refl _ _) rfl
theorem goOnWithout_ok {s : State} {t : Nat} : OnlyM 0x50cbf293902052c s (State.goOnWithout s t) := only_goOnWithout (OnlyM.refl _ _) rfl
theorem noticeTile_ok {s : State} {t d k : Nat} : OnlyM 0x50cbf293902052c s (State.noticeTile s t d k) := only_noticeTile (OnlyM.refl _ _) rfl
theorem noticeHub_ok {s : State} {d : Nat} : OnlyM 0x180000103420400 s (State.noticeHub s d) := only_noticeHub (OnlyM.refl _ _) rfl
theorem noticeTempo_ok {s : State} {d : Nat} : OnlyM 0x800000000 s (State.noticeTempo s d) := only_noticeTempo (OnlyM.refl _ _) rfl
theorem noticePool_ok {s : State} {d : Nat} : OnlyM 0x100c00000000100 s (State.noticePool s d) := only_noticePool (OnlyM.refl _ _) rfl
theorem putUpdate_ok {s : State} {x : Section} : OnlyM 0x202412f492cc97c s (State.putUpdate s x) := only_putUpdate (OnlyM.refl _ _) rfl
theorem reclaim_ok {s : State} {t u : Nat} : OnlyM 0xc s (State.reclaim s t u) := only_reclaim (OnlyM.refl _ _) rfl
theorem reclaimAll_ok {s : State} {t : Nat} : OnlyM 0xc s (State.reclaimAll s t) := only_reclaimAll (OnlyM.refl _ _) rfl
theorem tileReset_ok {s : State} {t : Nat} : OnlyM 0x70080000000000c s (State.tileReset s t) := only_tileReset (OnlyM.refl _ _) rfl
theorem tileBack_ok {s : State} {t : Nat} : OnlyM 0x800000008 s (State.tileBack s t) := only_tileBack (OnlyM.refl _ _) rfl
theorem turnsWithout_ok {s : State} {t : Nat} : OnlyM 0x9f0828020408 s (State.turnsWithout s t) := only_turnsWithout (OnlyM.refl _ _) rfl
theorem takeHomeRows_ok {s : State} {t : Nat} : OnlyM 0x50c9f093902052c s (State.takeHomeRows s t) := only_takeHomeRows (OnlyM.refl _ _) rfl
theorem tileGoesOn_ok {s : State} {t : Nat} : OnlyM 0x50c9f093902052c s (State.tileGoesOn s t) := only_tileGoesOn (OnlyM.refl _ _) rfl
theorem stackEmpty_ok {s : State} {st : Nat} : OnlyM 0x4020000c s (State.stackEmpty s st) := only_stackEmpty (OnlyM.refl _ _) rfl
theorem stackRoll_ok {s : State} {st : Nat} : OnlyM 0x1004029ff00 s (State.stackRoll s st) := only_stackRoll (OnlyM.refl _ _) rfl
theorem restRecords_ok {s : State} {t : Nat} : OnlyM 0xc s (State.restRecords s t) := only_restRecords (OnlyM.refl _ _) rfl
theorem enterActive_ok {s : State} {d : Nat} : OnlyM 0x11d9b090b12050c s (State.enterActive s d) := only_enterActive (OnlyM.refl _ _) rfl
theorem tilesReturn_ok {s : State} {d : Nat} {ts : List Nat} : OnlyM 0x51d9f093b12052c s (State.tilesReturn s d ts) := only_tilesReturn (OnlyM.refl _ _) rfl
theorem stackFails_ok {s : State} {d : Nat} : OnlyM 0x105800903020504 s (State.stackFails s d) := only_stackFails (OnlyM.refl _ _) rfl
theorem stackForget_ok {s : State} {st : Nat} : OnlyM 0x10230000000008 s (State.stackForget s st) := only_stackForget (OnlyM.refl _ _) rfl
theorem stackRecords_ok {s : State} {st : Nat} : OnlyM 0x800000000000 s (State.stackRecords s st) := only_stackRecords (OnlyM.refl _ _) rfl
theorem stackFenced_ok {s : State} {st : Nat} : OnlyM 0x10c800101000100 s (State.stackFenced s st) := only_stackFenced (OnlyM.refl _ _) rfl
theorem flipWithout_ok {s : State} {st : Nat} : OnlyM 0x100800d0b000000 s (State.flipWithout s st) := only_flipWithout (OnlyM.refl _ _) rfl
theorem stewardFails_ok {s : State} : OnlyM 0x100000103000000 s (State.stewardFails s) := only_stewardFails (OnlyM.refl _ _) rfl
theorem stewardDown_ok {s : State} {cause : Nat} : OnlyM 0x120800103120520 s (State.stewardDown s cause) := only_stewardDown (OnlyM.refl _ _) rfl
theorem amendWorld_ok {s : State} {w : Nat} {e : WorldEntry} : OnlyM 0x202412f492cc97c s (State.amendWorld s w e) := only_amendWorld (OnlyM.refl _ _) rfl
theorem amendPut_ok {s : State} {x : Section} : OnlyM 0x302412f492cc97c s (State.amendPut s x) := only_amendPut (OnlyM.refl _ _) rfl
theorem amendShadow_ok {s : State} {x : Section} : OnlyM 0x202412f492cc97c s (State.amendShadow s x) := only_amendShadow (OnlyM.refl _ _) rfl
theorem shadow_ok {s : State} {im : Image} : OnlyM 0x202412f492cc97c s (State.shadow s im) := only_shadow (OnlyM.refl _ _) rfl
theorem amendRefused_ok {s : State} {c : ExecCmd} {ix : Option Nat} {code : Nat} : OnlyM 0x100000103180100 s (State.amendRefused s c ix code) := only_amendRefused (OnlyM.refl _ _) rfl
theorem amendStart_ok {s : State} {d : Nat} : OnlyM 0x10c800101020500 s (State.amendStart s d) := only_amendStart (OnlyM.refl _ _) rfl
theorem amendCommitted_ok {s : State} {a : Amending} : OnlyM 0x30ec12f4b3ecd7c s (State.amendCommitted s a) := only_amendCommitted (OnlyM.refl _ _) rfl
theorem hdmPoison_ok {s : State} {m : Nat} {c : Code} : OnlyM 0x400100 s (State.hdmPoison s m c) := only_hdmPoison (OnlyM.refl _ _) rfl
theorem hdmWake_ok {s : State} {m a : Nat} : OnlyM 0x20400 s (State.hdmWake s m a) := only_hdmWake (OnlyM.refl _ _) rfl
theorem hostParks_ok {s : State} {n : Nat} : OnlyM 0x10c9f0939020528 s (State.hostParks s n) := only_hostParks (OnlyM.refl _ _) rfl
theorem dropLd_ok {s : State} {n : Nat} {up : Bool} : OnlyM 0x10c9f093f520528 s (State.dropLd s n up) := only_dropLd (OnlyM.refl _ _) rfl
theorem dropPort_ok {s : State} {k : Nat} : OnlyM 0x10cdf093fd20528 s (State.dropPort s k) := only_dropPort (OnlyM.refl _ _) rfl
theorem outputsHalt_ok {s : State} : OnlyM 0x20 s (State.outputsHalt s) := only_outputsHalt (OnlyM.refl _ _) rfl
theorem porAssert_ok {s : State} : OnlyM 0x7fffffffffffe7c s (State.porAssert s) := only_porAssert (OnlyM.refl _ _) rfl
theorem tickWall_ok {s : State} : OnlyM 0x200 s (tickWall s) := only_tickWall (OnlyM.refl _ _) rfl
end Sys2Proof.Machine
end

