-- ==== Sys2Proof/Laws/Results.lean ====
section
/-! SUPPORT. What the shared operations answer: a message put, a reserved record, a command that runs and its completion. -/

set_option linter.unusedSimpArgs false
set_option linter.unusedVariables false

namespace Sys2Proof.Machine

open Sys2Proof

theorem ex_next {o : Host.Outcome State Fault Refusal} {P : State → Prop} {t : State} (h : o = .next t) (hp : P t) :
    ∃ t, o = .next t ∧ P t := ⟨t, h, hp⟩


@[simp] theorem respond_master_self (s : State) (m : Nat) (ws : List DWord) :
    (s.respond m ws).master m = { (s.master m) with resp := { words := ws, code := .done, poison := false } } := by
  simp [State.respond]

@[simp] theorem tget_tdel {α : Type} (d : α) (k : Nat) (t : Tab α) : tget d k (tdel k t) = d := by
  induction t with
  | nil => rfl
  | cons e r ih =>
    obtain ⟨k', v'⟩ := e
    by_cases h : k' = k <;> simp [tdel, tget, h, ih]

theorem rackPut_rack (s : State) (r src : Nat) (msg : List DWord) (j : Nat) :
    (s.rackPut r src msg).rack j = if j = r then
      { s.rack r with
        msgs := (s.rack r).msgs ++ [match msg with | [] => [] | h :: b => stampHeader h src r (s.rack r).next.toNat :: b]
        next := (s.rack r).next + 1 } else s.rack j := by
  unfold State.rackPut
  by_cases hj : j = r
  · subst hj; simp only []; split <;> simp <;> rfl
  · simp only [hj, if_false]; split <;> simp [modRack_rack_other _ hj]

theorem postReserved_rack (s : State) (r k : Nat) (c : Code) (b : List DWord) (j : Nat) :
    (s.postReserved r k c b).rack j = if j = r then
      { s.rack r with
        reserved := (s.rack r).reserved - 1
        next := (s.rack r).next + 1
        msgs := (s.rack r).msgs ++ [stampHeader (recHeader k c b) 1 r (s.rack r).next.toNat :: b] } else s.rack j := by
  unfold State.postReserved
  by_cases h : j = r
  · subst h; simp [rackPut_rack]
  · simp [rackPut_rack, h, modRack_rack_other _ h]

theorem runCmd_next {op : Nat} {q : ExecCmd → Bool} {f : State → ExecCmd → State} {rk seq : Nat} {s : State} {c : ExecCmd}
    (h : Begins s rk seq op c) (hq : q c = true) : runCmd op q f rk seq s = .next (f (s.cmdWake op) c) := by
  obtain ⟨h1, h2, h3, h4, h5⟩ := h
  unfold runCmd
  simp only [h1, h2, h3, h4, hq, decide_true, Bool.and_true, if_true]
  by_cases h6 : opUnit op = 2 <;> simp [h6]
  intro h7; rw [h5 h6] at h7; simp at h7

theorem runCmd_all {op : Nat} {f : State → ExecCmd → State} {rk seq : Nat} {s : State} {c : ExecCmd}
    (h : Begins s rk seq op c) : runCmd op (fun _ => true) f rk seq s = .next (f (s.cmdWake op) c) := runCmd_next h rfl

theorem cmdWake_only (s : State) (op : Nat) : OnlyM 0x20400 s (s.cmdWake op) := by
  unfold State.cmdWake
  split
  · exact (State.wakeDom s 1 10 op |> fun x => only_wakeDom (only_wakeDom (OnlyM.refl _ _) rfl) rfl)
  · exact only_wakeDom (OnlyM.refl _ _) rfl

theorem findExec_keys {s : State} {rk seq : Nat} {c : ExecCmd} (h : s.findExec rk seq = some c) : c.rk = rk ∧ c.seq = seq := by
  unfold State.findExec at h
  have := List.find?_some h
  simpa using this

theorem lds_raise (f : Nat × Ld → Nat × Ld) (hf : ∀ e, (f e).1 = e.1 ∧ (f e).2.enabled = e.2.enabled ∧ (f e).2.cmdRack = e.2.cmdRack ∧ (f e).2.cplRack = e.2.cplRack)
    (l : List (Nat × Ld)) (rk : Nat) :
    ((l.map f).find? (fun e => e.2.enabled && decide (e.2.cmdRack = rk))).map (·.1) = (l.find? (fun e => e.2.enabled && decide (e.2.cmdRack = rk))).map (·.1)
    ∧ ∀ n, (tget ({} : Ld) n (l.map f)).cplRack = (tget ({} : Ld) n l).cplRack := by
  induction l with
  | nil => simp
  | cons e r ih =>
    obtain ⟨h1, h2, h3, h4⟩ := hf e
    refine ⟨?_, fun n => ?_⟩
    · simp only [List.map_cons, List.find?_cons, h2, h3]
      cases h : (e.2.enabled && decide (e.2.cmdRack = rk))
      · simpa using ih.1
      · simp [h1]
    · obtain ⟨k, v⟩ := e
      rw [List.map_cons]
      cases hfe : f (k, v) with
      | mk k' v' =>
        simp only [hfe] at h1 h2 h3 h4
        simp only [tget, h1]
        split
        · exact h4
        · exact ih.2 n

theorem raise_fields (l : Ld) (v : Nat) : (l.raise v).enabled = l.enabled ∧ (l.raise v).cmdRack = l.cmdRack ∧ (l.raise v).cplRack = l.cplRack := by
  unfold Ld.raise; split <;> simp

theorem raiseRack_ld (s : State) (r rk : Nat) : (s.raiseRack r).ldOfRack rk = s.ldOfRack rk ∧ ∀ n, ((s.raiseRack r).ld n).cplRack = (s.ld n).cplRack := by
  unfold State.raiseRack State.ldOfRack State.ld
  apply lds_raise
  intro e
  by_cases h : (e.2.enabled && e.2.irq.getLsbD r) = true
  · simp only [h, if_true]; exact ⟨trivial, raise_fields _ _⟩
  · simp only [h]; simp

theorem rackPut_ld (s : State) (r src : Nat) (msg : List DWord) (rk : Nat) : (s.rackPut r src msg).ldOfRack rk = s.ldOfRack rk ∧ ∀ n, ((s.rackPut r src msg).ld n).cplRack = (s.ld n).cplRack := by
  unfold State.rackPut
  simp only []
  split
  · have := raiseRack_ld (s.modRack r (fun x => { x with msgs := x.msgs ++ [match msg with | [] => [] | h :: b => stampHeader h src r (s.rack r).next.toNat :: b], next := x.next + 1 })) r rk
    exact ⟨this.1.trans rfl, fun n => (this.2 n).trans rfl⟩
  · exact ⟨rfl, fun _ => rfl⟩

theorem postReserved_ld (s : State) (r k : Nat) (c : Code) (b : List DWord) (rk : Nat) : (s.postReserved r k c b).ldOfRack rk = s.ldOfRack rk ∧ ∀ n, ((s.postReserved r k c b).ld n).cplRack = (s.ld n).cplRack := by
  unfold State.postReserved
  have := rackPut_ld ((s.traceRack r 5 1 c k (s.rack r).next.toNat).modRack r (fun x => { x with reserved := x.reserved - 1 })) r 1 (recHeader k c b :: b) rk
  refine ⟨this.1.trans ?_, fun n => (this.2 n).trans ?_⟩ <;> simp

/-- What the completion of a command leaves (R213). -/
theorem complete_completed (s : State) (c : ExecCmd) (code : Code) (rs : List DWord) (h : code ≠ .failedLink) :
    Completed (s.complete c code rs) c.rk c.seq c.op code rs := by
  have hx : (s.complete c code rs).hub.executing = s.hub.executing.filter (fun d => !(d.rk = c.rk && d.seq = c.seq)) := by
    unfold State.complete
    simp only []
    split
    · rfl
    · rw [if_neg h]; simp
  refine ⟨?_, ?_⟩
  · unfold State.findExec
    rw [hx, List.find?_eq_none]
    intro d hd
    rw [List.mem_filter] at hd
    have := hd.2
    simp only [Bool.not_eq_true', Bool.and_eq_false_iff, decide_eq_false_iff_not] at this
    simp only [Bool.and_eq_true, decide_eq_true_eq, not_and]
    intro a b
    rcases this with x | x
    · exact x a
    · exact x b
  · intro n hn
    unfold State.complete at hn ⊢
    simp only [if_neg h] at hn ⊢
    split at hn
    · rename_i he
      have : (none : Option Nat) = some n := by rw [← he, ← hn]; rfl
      simp at this
    · rename_i k he
      have hp := postReserved_ld ({ s with hub.executing := s.hub.executing.filter (fun d => !(d.rk = c.rk && d.seq = c.seq)) } : State) (s.ld k).cplRack 0x80 code (BitVec.ofNat 64 (c.seq % 2 ^ 32 + c.op * 2 ^ 32 + c.rk * 2 ^ 40) :: rs) c.rk
      rw [hp.1] at hn
      have hkn : k = n := by
        have : some k = some n := by rw [← he, ← hn]; rfl
        simpa using this
      subst hkn
      refine ⟨((({ s with hub.executing := s.hub.executing.filter (fun d => !(d.rk = c.rk && d.seq = c.seq)) } : State).rack (s.ld k).cplRack).next.toNat), ?_⟩
      rw [hp.2 k]
      rw [postReserved_rack]
      have e : (({ s with hub.executing := s.hub.executing.filter (fun d => !(d.rk = c.rk && d.seq = c.seq)) } : State).ld k).cplRack = (s.ld k).cplRack := rfl
      rw [e, if_pos rfl]
      simp

end Sys2Proof.Machine
end

