-- ==== Sys2Proof/Laws/Near.lean ====
section
/-! SUPPORT. What the tempo unit's operations leave of a world: a move of T, a park, an advance and what follows it. -/

set_option linter.unusedSimpArgs false
set_option linter.unusedVariables false

namespace Sys2Proof.Machine

open Sys2Proof

/-- Two states whose worlds differ at most in what the hub notes of sweeps and EMIT slots. -/
structure Near (s t : State) : Prop where
  eq : ∀ i, { (t.world i) with hubEmit := 0, sweeps := [] } = { (s.world i) with hubEmit := 0, sweeps := [] }
  src : ∀ e ∈ t.tmp.worlds, e.2.srcKind = 5 → ∃ d ∈ s.tmp.worlds, d.1 = e.1 ∧ d.2.srcKind = 5 ∧ d.2.srcIndex = e.2.srcIndex

theorem Near.refl (s : State) : Near s s := ⟨fun _ => rfl, fun e h k => ⟨e, h, rfl, k, rfl⟩⟩
theorem Near.trans {s t u : State} (a : Near s t) (b : Near t u) : Near s u :=
  ⟨fun i => (b.eq i).trans (a.eq i), fun e h k => by
    obtain ⟨d, h1, h2, h3, h4⟩ := b.src e h k
    obtain ⟨c, g1, g2, g3, g4⟩ := a.src d h1 h3
    exact ⟨c, g1, g2.trans h2, g3, g4.trans h4⟩⟩
theorem Near.of_worlds {s t : State} (h : t.tmp.worlds = s.tmp.worlds) : Near s t :=
  ⟨fun i => by simp [State.world, h], fun e he k => ⟨e, h ▸ he, rfl, k, rfl⟩⟩
theorem near_foldl {α : Type} {f : State → α → State} (hf : ∀ s x, Near s (f s x)) (l : List α) (s : State) : Near s (l.foldl f s) := by
  induction l generalizing s with
  | nil => exact Near.refl s
  | cons a r ih => exact (hf s a).trans (ih _)

theorem tget_mem {α : Type} (d : α) (k : Nat) (l : Tab α) : tget d k l = d ∨ (k, tget d k l) ∈ l := by
  induction l with
  | nil => exact Or.inl rfl
  | cons e r ih =>
    obtain ⟨k', v⟩ := e
    by_cases h : k' = k
    · subst h; right; simp [tget]
    · simp only [tget, h, if_false]
      rcases ih with h1 | h1
      · exact Or.inl h1
      · exact Or.inr (List.mem_cons_of_mem _ h1)

theorem mem_tset {α : Type} (k : Nat) (v : α) (l : Tab α) (e : Nat × α) (h : e ∈ tset k v l) : e = (k, v) ∨ e ∈ l := by
  induction l with
  | nil => simpa [tset] using h
  | cons x r ih =>
    obtain ⟨k', v'⟩ := x
    simp only [tset] at h
    split at h
    · simpa using h
    · split at h
      · rcases List.mem_cons.mp h with h | h
        · exact Or.inl h
        · exact Or.inr (List.mem_cons_of_mem _ h)
      · rcases List.mem_cons.mp h with h | h
        · exact Or.inr (by simp [h])
        · rcases ih h with h | h
          · exact Or.inl h
          · exact Or.inr (List.mem_cons_of_mem _ h)

theorem src_modWorld (s : State) (w : Nat) (f : World → World) (hf : ∀ y, (f y).srcKind = y.srcKind ∧ (f y).srcIndex = y.srcIndex) :
    ∀ e ∈ (s.modWorld w f).tmp.worlds, e.2.srcKind = 5 → ∃ d ∈ s.tmp.worlds, d.1 = e.1 ∧ d.2.srcKind = 5 ∧ d.2.srcIndex = e.2.srcIndex := by
  intro e he k
  rcases mem_tset _ _ _ _ he with h | h
  · subst h
    simp only [] at k ⊢
    rcases tget_mem ({} : World) w s.tmp.worlds with h1 | h1
    · rw [(hf _).1, h1] at k; simp at k
    · exact ⟨_, h1, rfl, by rw [← (hf _).1]; exact k, (hf _).2.symm⟩
  · exact ⟨e, h, rfl, k, rfl⟩

theorem near_modWorld (s : State) (w : Nat) (f : World → World) (hf : ∀ y, { (f y) with hubEmit := 0, sweeps := [] } = { y with hubEmit := 0, sweeps := [] }) :
    Near s (s.modWorld w f) := by
  refine ⟨?_, src_modWorld s w f ?_⟩
  · intro i
    by_cases h : i = w
    · subst h; rw [modWorld_world]; exact hf _
    · rw [modWorld_world_other _ h]
  · intro y
    have := hf y
    simp only [World.mk.injEq] at this
    simp only [this]
    trivial

theorem near_hubEmit (n : Nat) : ∀ (s : State) (g : Nat), Near s (s.hubEmit g n) := by
  induction n with
  | zero => intro s g; exact Near.refl s
  | succ n ih =>
    intro s g
    unfold State.hubEmit
    have h1 : ∀ (s : State) (ws : List Nat) (e : Nat → World → Nat), Near s (ws.foldl (fun s w => s.modWorld w (fun y => { y with hubEmit := e w y })) s) := by
      intro s ws e
      exact near_foldl (fun s w => near_modWorld s w (fun y => { y with hubEmit := e w y }) (fun y => rfl)) ws s
    have h2 : ∀ (s : State) (l : List Nat) (g n a b : Nat), Near s (l.foldl (fun s k => s.hubEmitAt g n a b k) s) := by
      intro s l g n a b
      exact near_foldl (fun s k => Near.of_worlds (hubEmitAt_ok.worlds_eq (by decide))) l s
    simp only []
    split
    · exact Near.refl s
    · split
      · split
        · exact (h2 s _ _ _ _ _).trans ((h1 _ _ (fun w y => _)).trans (ih _ g))
        · exact Near.refl s
      · split
        · exact (h1 s _ (fun w y => _)).trans (ih _ g)
        · exact Near.refl s

theorem near_hubNotices (s : State) (g : Nat) : Near s (s.hubNotices g) :=
  Near.of_worlds (hubNotices_ok.worlds_eq (by decide))
theorem near_noticeGroup (s : State) (g : Nat) : Near s (s.noticeGroup g) :=
  Near.of_worlds (noticeGroup_ok.worlds_eq (by decide))
theorem near_runningChanged (s : State) (w : Nat) : Near s (s.runningChanged w) := by
  unfold State.runningChanged
  exact (near_noticeGroup s _).trans ((near_hubNotices _ _).trans ((near_hubEmit _ _ _).trans
    (Near.of_worlds (stillUpdates_ok.worlds_eq (by decide)))))
theorem near_ageNotice (s : State) (w n : Nat) : Near s (s.ageNotice w n) := by
  unfold State.ageNotice
  simp only []
  split
  · exact Near.refl s
  · exact (near_modWorld s w (fun y => { y with sweeps := y.sweeps ++ [(n, s.holders w)] }) (fun y => rfl)).trans
      (near_foldl (fun s st => Near.of_worlds (toRoot_ok.worlds_eq (by decide))) _ _)
theorem near_afterT (s : State) (w old : Nat) : Near s (s.afterT w old) := by
  unfold State.afterT
  simp only []
  split
  · exact Near.refl s
  · exact (near_foldl (fun s st => Near.of_worlds (grantRoot_ok.worlds_eq (by decide))) _ _).trans
      ((near_foldl (fun s m => near_ageNotice s w m) _ _).trans ((near_hubNotices _ _).trans (near_hubEmit _ _ _)))

theorem Near.fields {s t : State} (h : Near s t) (i : Nat) :
    (t.world i).st = (s.world i).st ∧ (t.world i).t = (s.world i).t ∧ (t.world i).s = (s.world i).s ∧ (t.world i).opened = (s.world i).opened
    ∧ (t.world i).closed = (s.world i).closed ∧ (t.world i).anchor = (s.world i).anchor ∧ (t.world i).parkCause = (s.world i).parkCause
    ∧ (t.world i).padv = (s.world i).padv ∧ (t.world i).rem = (s.world i).rem ∧ (t.world i).jumpTo = (s.world i).jumpTo
    ∧ (t.world i).srcKind = (s.world i).srcKind ∧ (t.world i).retireCmd = (s.world i).retireCmd ∧ (t.world i).turnLenM1 = (s.world i).turnLenM1 := by
  have := h.eq i
  simp only [World.mk.injEq] at this
  simp only [this]
  trivial

theorem complete_near (s : State) (c : ExecCmd) (k : Code) (r : List DWord) : Near s (s.complete c k r) :=
  Near.of_worlds ((complete_only s c k r).worlds_eq (by decide))

theorem startWorld_near (s : State) (w a : Nat) : ∃ u : State, Near u (s.startWorld w a) ∧ (u.world w).st = .running ∧ (u.world w).anchor = a ∧ (u.world w).s = a ∧ (u.world w).t = a
      ∧ (u.world w).opened = 0 ∧ (u.world w).closed = 0 := by
  unfold State.startWorld
  simp only []
  refine ⟨s.modWorld w (fun y =>
    { y with st := .running, anchor := a, s := a, t := a, rem := 0, debt := 0, opened := 0, closed := 0,
             parkCause := 0, overrun := false, lastAdv := s.aon.wall, sweeps := [], turns := [], skipped := 0, jumpTo := 0, freezes := [],
             flipTurn := none, flipAcks := [], notBefore := 0, hubEmit := a }), ?_, ?_⟩
  · refine Near.trans ?_ (near_runningChanged _ _)
    refine Near.trans ?_ (Near.of_worlds (subscribePeer_ok.worlds_eq (by decide)))
    refine Near.trans (t := _) ?_ (near_foldl ?_ _ _)
    · exact Near.of_worlds rfl
    · intro u t
      refine Near.of_worlds ?_
      rw [modTile_tmp]
      exact startRecords_ok.worlds_eq (by decide)
  · simp

/-- World i reads the same but for what the hub notes of sweeps and EMIT slots. -/
def NearAt (i : Nat) (s t : State) : Prop := { (t.world i) with hubEmit := 0, sweeps := [] } = { (s.world i) with hubEmit := 0, sweeps := [] }
theorem NearAt.trans {i : Nat} {s t u : State} (a : NearAt i s t) (b : NearAt i t u) : NearAt i s u := Eq.trans b a
theorem Near.at {s t : State} (h : Near s t) (i : Nat) : NearAt i s t := h.eq i
theorem NearAt.fields {i : Nat} {s t : State} (h : NearAt i s t) :
    (t.world i).st = (s.world i).st ∧ (t.world i).t = (s.world i).t ∧ (t.world i).s = (s.world i).s ∧ (t.world i).opened = (s.world i).opened
    ∧ (t.world i).closed = (s.world i).closed ∧ (t.world i).anchor = (s.world i).anchor ∧ (t.world i).parkCause = (s.world i).parkCause
    ∧ (t.world i).padv = (s.world i).padv ∧ (t.world i).rem = (s.world i).rem ∧ (t.world i).jumpTo = (s.world i).jumpTo
    ∧ (t.world i).srcKind = (s.world i).srcKind ∧ (t.world i).retireCmd = (s.world i).retireCmd ∧ (t.world i).turnLenM1 = (s.world i).turnLenM1
    ∧ (t.world i).overrun = (s.world i).overrun := by
  unfold NearAt at h
  simp only [World.mk.injEq] at h
  simp only [h]
  trivial

theorem parkCore_at (s : State) (w c i : Nat) (h : i ≠ w ∨ (s.world w).st ≠ .running) : NearAt i s (s.parkCore w c) := by
  unfold State.parkCore
  simp only []
  split
  · rfl
  · rcases h with h | h
    · refine NearAt.trans ?_ ((near_runningChanged _ _).at i)
      refine NearAt.trans ?_ ((Near.of_worlds (worldRecord_ok.worlds_eq (by decide))).at i)
      refine NearAt.trans ?_ ((Near.of_worlds (outsWorldSafe_ok.worlds_eq (by decide))).at i)
      unfold NearAt
      rw [modWorld_world_other _ h]
    · contradiction

theorem parkCore_self (s : State) (w c : Nat) (h : (s.world w).st = .running) :
    NearAt w (s.modWorld w (fun y => { y with st := .parked, parkCause := c })) (s.parkCore w c) := by
  unfold State.parkCore
  simp only [h, ne_eq, not_true_eq_false, if_false]
  refine NearAt.trans ?_ ((near_runningChanged _ _).at w)
  refine NearAt.trans ?_ ((Near.of_worlds (worldRecord_ok.worlds_eq (by decide))).at w)
  exact (Near.of_worlds (outsWorldSafe_ok.worlds_eq (by decide))).at w

theorem parkFold_at (l : List Nat) (c i : Nat) : ∀ s : State, (s.world i).st ≠ .running → NearAt i s (l.foldl (fun s f => s.parkCore f c) s) := by
  induction l with
  | nil => intro s _; rfl
  | cons a r ih =>
    intro s h
    have h1 : NearAt i s (s.parkCore a c) := parkCore_at s a c i (by by_cases e : i = a; subst e; exact Or.inr h; exact Or.inl e)
    exact h1.trans (ih _ (by rw [h1.fields.1]; exact h))

theorem parkWorld_self (s : State) (w c : Nat) (h : (s.world w).st = .running) :
    NearAt w (s.modWorld w (fun y => { y with st := .parked, parkCause := c })) (s.parkWorld w c) := by
  unfold State.parkWorld
  rw [if_pos h]
  have h1 := parkCore_self s w c h
  refine h1.trans ?_
  unfold State.parkFollowers
  apply parkFold_at
  rw [h1.fields.1, modWorld_world]
  simp

theorem moveT_at (s : State) (w i : Nat) : NearAt i (s.modWorld w (fun y => { y with t := max (s.world w).t (min (s.world w).s ((s.world w).start (s.world w).opened)) })) (s.moveT w) := by
  unfold State.moveT
  exact (near_afterT _ _ _).at i


theorem moveT_keep {w : Nat} {B X : State} (h : NearAt w B X) : ((X.moveT w).world w).st = (B.world w).st ∧ ((X.moveT w).world w).s = (B.world w).s
    ∧ ((X.moveT w).world w).padv = (B.world w).padv ∧ ((X.moveT w).world w).rem = (B.world w).rem ∧ ((X.moveT w).world w).srcKind = (B.world w).srcKind := by
  have hm := (moveT_at X w w).fields
  have := h.fields
  simp only [modWorld_world] at hm
  simp only [hm, this]
  trivial

theorem cmd_done (s X : State) {rk seq op : Nat} {c : ExecCmd} {k : Code} {rs : List DWord} (h : Begins s rk seq op c) (hk : k ≠ .failedLink) :
    Completed (X.complete c k rs) rk seq op k rs := by
  obtain ⟨e1, e2⟩ := findExec_keys h.1
  have := complete_completed X c k rs hk
  rw [e1, e2, h.2.1] at this
  exact this

theorem complete_tmp (s : State) (c : ExecCmd) (k : Code) (r : List DWord) : (s.complete c k r).tmp = s.tmp := (complete_only s c k r).tmp_eq (by decide)
theorem cmdWake_tmp (s : State) (op : Nat) : (s.cmdWake op).tmp = s.tmp := (cmdWake_only s op).tmp_eq (by decide)
theorem tmp_world {s t : State} (h : t.tmp = s.tmp) (i : Nat) : t.world i = s.world i := by simp [State.world, h]

theorem unparkCode_wake (s : State) (op m : Nat) (a b : DWord) : (s.cmdWake op).unparkCode m a b = s.unparkCode m a b := by
  unfold State.unparkCode State.sourceOk State.leaderOk State.boundPorts
  have hk := cmdWake_only s op
  simp only [hk.world_eq rfl, hk.worldLimit_eq rfl, hk.has_eq rfl rfl rfl, hk.worlds_eq rfl, hk.ld_eq rfl, hk.port_eq rfl, hk.ports_eq rfl, hk.pkg_eq rfl]

theorem retireTiles_at (w i : Nat) (s : State) : ∀ P : World → Prop, P (s.world i) → (∀ y n, P y → P { y with discarded := n }) → P ((s.retireTiles w).world i) := by
  intro P hP hd
  unfold State.retireTiles
  suffices h : ∀ (l : List (Nat × Tile)) (u : State), P (u.world i) → P ((l.foldl (fun s e =>
    let r := (s.tile e.1).retire w
    (s.modTile e.1 (fun _ => r.1)).modWorld w (fun y => { y with discarded := y.discarded + r.2 })) u).world i) from h _ _ hP
  intro l
  induction l with
  | nil => intro u hu; exact hu
  | cons e r ih =>
    intro u hu
    apply ih
    by_cases h : i = w
    · subst h; simp only [modWorld_world, modTile_world]; exact hd _ _ hu
    · simp only [modWorld_world_other _ h, modTile_world]; exact hu

theorem retireWorld_self (s : State) (w : Nat) (cmd : Nat × Nat) : ((s.retireWorld w cmd).world w).st = .retiring ∧ ((s.retireWorld w cmd).world w).retireCmd = some cmd := by
  unfold State.retireWorld
  simp only []
  generalize hX : (((({ s with hub.lockIn := s.hub.lockIn.filter (fun x => x.w ≠ w) } : State).modWorld w (fun y =>
    { y with st := .retiring, retireCmd := some cmd, discarded := (s.hub.lockIn.filter (fun x => x.w = w)).length, turns := [], sweeps := [] })).outsWorldSafe w)) = X
  have hx : (X.world w).st = .retiring ∧ (X.world w).retireCmd = some cmd := by
    subst hX
    simp only [outsWorldSafe_ok.world_eq rfl, modWorld_world]
    trivial
  have hy : ((X.retireTiles w).world w).st = .retiring ∧ ((X.retireTiles w).world w).retireCmd = some cmd :=
    retireTiles_at w w X (fun y => y.st = .retiring ∧ y.retireCmd = some cmd) hx (fun y n h => h)
  have h1 := (near_runningChanged (X.retireTiles w) w).fields w
  have h2 := parkFold_at (((X.retireTiles w).runningChanged w).followers w) 7 w ((X.retireTiles w).runningChanged w) (by simp only [h1, hy]; simp)
  have h3 := h2.fields
  unfold State.parkFollowers
  simp only [h3, h1, hy]
  trivial

theorem findExec_begun (s : State) (c : ExecCmd) {rk seq : Nat} (h : s.findExec rk seq = some c) : (s.begun c).findExec rk seq = some { c with stage := 1 } := by
  obtain ⟨e1, e2⟩ := findExec_keys h
  unfold State.findExec at h ⊢
  unfold State.begun
  simp only []
  generalize s.hub.executing = l at *
  induction l with
  | nil => simp at h
  | cons d r ih =>
    simp only [List.map_cons, List.find?_cons] at h ⊢
    by_cases hd : d.rk = rk ∧ d.seq = seq
    · have : (decide (d.rk = rk) && decide (d.seq = seq)) = true := by simp [hd]
      rw [this] at h
      simp only [Option.some.injEq] at h
      subst h
      simp [e1, e2]
    · have hf : (decide (d.rk = rk) && decide (d.seq = seq)) = false := by simpa using hd
      rw [hf] at h
      have h4 : (decide (d.rk = c.rk) && decide (d.seq = c.seq)) = false := by rw [e1, e2]; exact hf
      simp only [h4, Bool.false_eq_true, if_false, hf]
      exact ih h

theorem begun_world (s : State) (c : ExecCmd) (i : Nat) : (s.begun c).world i = s.world i := rfl

theorem not_follower {s t : State} {w : Nat} (h : ∀ e ∈ t.tmp.worlds, e.2.srcKind = 5 → ∃ d ∈ s.tmp.worlds, d.1 = e.1 ∧ d.2.srcKind = 5 ∧ d.2.srcIndex = e.2.srcIndex)
    (hn : w ∉ s.followers w) : w ∉ t.followers w := by
  intro hw
  apply hn
  unfold State.followers at hw ⊢
  rw [List.mem_map] at hw ⊢
  obtain ⟨e, he, h1⟩ := hw
  rw [List.mem_filter] at he
  simp only [Bool.and_eq_true, decide_eq_true_eq] at he
  obtain ⟨d, h2, h3, h4, h5⟩ := h e he.1 he.2.1
  exact ⟨d, List.mem_filter.mpr ⟨h2, by simp [h4, h5, he.2.2]⟩, h3.trans h1⟩

theorem mod_at (s : State) {w i : Nat} (h : i ≠ w) (f : World → World) : NearAt i s (s.modWorld w f) := by
  unfold NearAt; rw [modWorld_world_other _ h]

theorem judgeLag_at (s : State) {w i : Nat} (h : i ≠ w) : NearAt i s (s.judgeLag w) := by
  unfold State.judgeLag
  simp only []
  have h1 : NearAt i s (if (s.world w).overrun = true then s else (s.modWorld w (fun y => { y with overrun := true })).worldRecord w 0x82
          [BitVec.ofNat 64 (w + (s.world w).t * 2 ^ 24), BitVec.ofNat 64 (min ((s.world w).s - s.reach w (s.world w).s) 0xFFFF_FFFF)]) := by
    split
    · rfl
    · exact (mod_at s h _).trans ((Near.of_worlds (worldRecord_ok.worlds_eq (by decide))).at i)
  split
  · split
    · exact h1.trans (parkCore_at _ _ _ _ (Or.inl h))
    · exact h1
  · exact mod_at s h _

theorem applyAdvance_at (s : State) {w i : Nat} (h : i ≠ w) (adv : Nat) : NearAt i s (s.applyAdvance w adv) := by
  unfold State.applyAdvance
  split
  · exact parkCore_at _ _ _ _ (Or.inl h)
  · exact (mod_at s h _).trans (NearAt.trans (NearAt.trans (mod_at _ h _) (moveT_at _ w i)) (judgeLag_at _ h))

theorem inputCore_at (s : State) {w i : Nat} (h : i ≠ w) (u : Nat) : NearAt i s (s.inputCore w u) := by
  unfold State.inputCore
  simp only []
  split
  · refine NearAt.trans (NearAt.trans ?_ (mod_at _ h _)) (applyAdvance_at _ h _)
    unfold NearAt; rw [wakeDom_world]
  · exact mod_at s h _
  · rfl

theorem inputFold_at (l : List Nat) (u i : Nat) (h : i ∉ l) : ∀ s : State, NearAt i s (l.foldl (fun s f => s.inputCore f u) s) := by
  induction l with
  | nil => intro s; rfl
  | cons a r ih =>
    intro s
    exact (inputCore_at s (fun e => h (by simp [e])) u).trans (ih (fun e => h (List.mem_cons_of_mem _ e)) _)

theorem toPeerFold_near (l : List Nat) (c : Ctl) (s : State) : Near s (l.foldl (fun s lk => s.toPeer lk c) s) :=
  near_foldl (fun s lk => Near.of_worlds (toPeer_ok.worlds_eq (by decide))) l s

theorem follow_at (s : State) (w inc : Nat) (h : w ∉ s.followers w) : NearAt w s (s.follow w inc) := by
  unfold State.follow
  simp only []
  split
  · rfl
  · have h1 := toPeerFold_near ((s.tmp.subs.filter (fun e => e.2.1 = w)).map (·.1)).eraseDups (.tempoFwd w inc) s
    exact (h1.at w).trans (inputFold_at _ _ _ h _)

theorem hostAdvance_done (s : State) (m w delta : Nat) (hw : w < s.worldLimit) (hu : s.has m (.world w) .use = true) (hk : (s.world w).srcKind = 1) (hm : isHost m = true)
    (hi : (s.world w).srcIndex = ldOf m) (hr : (s.world w).st = .running) (ht : (s.world w).s + delta ≤ maxTempo) (hf : w ∉ s.followers w)
    (hl : ((s.world w).s + delta) - s.reach w ((s.world w).s + delta) ≤ (s.world w).limit) :
    (s.hostAdvance m w delta).2 = .done ∧ (((s.hostAdvance m w delta).1).world w).s = (s.world w).s + delta
     ∧ (((s.hostAdvance m w delta).1).world w).t = max (s.world w).t (min ((s.world w).s + delta) ((s.world w).start (s.world w).opened))
     ∧ (((s.hostAdvance m w delta).1).world w).st = .running := by
  unfold State.hostAdvance
  have hreach : ((s.wakeDom 1 3 w).modWorld w (fun y => { y with lastAdv := s.aon.wall })).reach w ((s.world w).s + delta) = s.reach w ((s.world w).s + delta) := by
    simp [State.reach, State.canOpen, World.start]
  have h1 : ¬ s.worldLimit ≤ w := by omega
  have h2 : ¬ maxTempo < (s.world w).s + delta := by omega
  have h3 : ¬ (s.world w).limit < ((s.world w).s + delta) - s.reach w ((s.world w).s + delta) := by omega
  simp only [h1, hu, hk, hm, hi, hr, h2, hreach, h3, decide_false, Bool.not_true, Bool.or_self, Bool.false_eq_true, if_false, ne_eq, not_true_eq_false]
  generalize hB : (((s.wakeDom 1 3 w).modWorld w (fun y => { y with lastAdv := s.aon.wall })).modWorld w (fun y => { y with s := y.s + delta })) = B
  have hb : (B.world w).s = (s.world w).s + delta ∧ (B.world w).t = (s.world w).t ∧ (B.world w).st = .running ∧ (B.world w).start (B.world w).opened = (s.world w).start (s.world w).opened := by
    subst hB
    simp only [modWorld_world, wakeDom_world, hr, World.start]
    trivial
  have hn : ∀ e ∈ (B.moveT w).tmp.worlds, e.2.srcKind = 5 → ∃ d ∈ s.tmp.worlds, d.1 = e.1 ∧ d.2.srcKind = 5 ∧ d.2.srcIndex = e.2.srcIndex := by
    intro e he k
    have hmv : Near (B.modWorld w (fun y => { y with t := max (B.world w).t (min (B.world w).s ((B.world w).start (B.world w).opened)) })) (B.moveT w) := by
      unfold State.moveT; exact near_afterT _ _ _
    obtain ⟨d, g1, g2, g3, g4⟩ := hmv.src e he k
    obtain ⟨d1, f1, f2, f3, f4⟩ := src_modWorld B w (fun y => { y with t := max (B.world w).t (min (B.world w).s ((B.world w).start (B.world w).opened)) }) (fun y => ⟨rfl, rfl⟩) d g1 g3
    subst hB
    obtain ⟨d2, i1, i2, i3, i4⟩ := src_modWorld _ w (fun y => { y with s := y.s + delta }) (fun y => ⟨rfl, rfl⟩) d1 f1 f3
    obtain ⟨d3, j1, j2, j3, j4⟩ := src_modWorld _ w (fun y => { y with lastAdv := s.aon.wall }) (fun y => ⟨rfl, rfl⟩) d2 i1 i3
    have e9 : (s.wakeDom 1 3 w).tmp.worlds = s.tmp.worlds := by rw [wakeDom_worlds]
    rw [e9] at j1
    exact ⟨d3, j1, j2.trans (i2.trans (f2.trans g2)), j3, j4.trans (i4.trans (f4.trans g4))⟩
  have h5 := (follow_at (B.moveT w) w (((B.moveT w).world w).t - (s.world w).t) (not_follower hn hf)).fields
  have h6 := (moveT_at B w w).fields
  simp only [modWorld_world, hb] at h6
  exact ⟨trivial, h5.2.2.1.trans h6.2.2.1, h5.2.1.trans h6.2.1, h5.1.trans h6.1⟩

theorem hostAdvance_busy (s : State) (m w delta : Nat) (hw : w < s.worldLimit) (hu : s.has m (.world w) .use = true) (hk : (s.world w).srcKind = 1) (hm : isHost m = true)
    (hi : (s.world w).srcIndex = ldOf m) (hr : (s.world w).st = .running) (ht : (s.world w).s + delta ≤ maxTempo)
    (hl : (s.world w).limit < ((s.world w).s + delta) - s.reach w ((s.world w).s + delta)) :
    (s.hostAdvance m w delta).2 = .busy ∧ (((s.hostAdvance m w delta).1).world w).s = (s.world w).s
     ∧ (((s.hostAdvance m w delta).1).world w).t = (s.world w).t ∧ (s.hostAdvance m w delta).1.tmp.advErrValid = s.tmp.advErrValid ∧ (s.hostAdvance m w delta).1.tmp.advErrCnt = s.tmp.advErrCnt := by
  unfold State.hostAdvance
  have hreach : ((s.wakeDom 1 3 w).modWorld w (fun y => { y with lastAdv := s.aon.wall })).reach w ((s.world w).s + delta) = s.reach w ((s.world w).s + delta) := by
    simp [State.reach, State.canOpen, World.start]
  have h1 : ¬ s.worldLimit ≤ w := by omega
  have h2 : ¬ maxTempo < (s.world w).s + delta := by omega
  simp only [h1, hu, hk, hm, hi, hr, h2, hreach, hl, decide_false, Bool.not_true, Bool.or_self, Bool.false_eq_true, if_false, if_true, ne_eq, not_true_eq_false]
  have ht : (s.wakeDom 1 3 w).tmp = s.tmp := (wakeDom_ok).tmp_eq (by decide)
  simp only [modWorld_world, wakeDom_world]
  refine ⟨trivial, trivial, trivial, ?_, ?_⟩
  · show (s.wakeDom 1 3 w).tmp.advErrValid = _; rw [ht]
  · show (s.wakeDom 1 3 w).tmp.advErrCnt = _; rw [ht]

theorem reach_wake (s : State) (op w S : Nat) : (s.cmdWake op).reach w S = s.reach w S := by
  have hk := cmdWake_only s op
  unfold State.reach State.canOpen
  simp only [hk.world_eq rfl, hk.pip_eq rfl]
theorem followers_wake (s : State) (op w : Nat) : (s.cmdWake op).followers w = s.followers w := by
  unfold State.followers; rw [cmdWake_tmp]

theorem hostAdvance_adv (s : State) (m w delta : Nat) : (s.hostAdvance m w delta).1.tmp.advErrCnt = s.tmp.advErrCnt := by
  have := (hostAdvance_ok (s := s) (m := m) (w := w) (delta := delta)) .advErr (by decide)
  simp only [Part.same, Prod.mk.injEq] at this
  exact this.2.2.2

end Sys2Proof.Machine
end

