-- ==== Sys2Proof/Laws/GambitRuns.lean ====
section
/-! SUPPORT. What one gambit instruction's step answers, by what its effect says: the run goes on, or it is complete. -/

set_option linter.unusedSimpArgs false
set_option linter.unusedVariables false

namespace Sys2Proof.Machine

theorem foldTile_inv {α : Type} (P : State → Prop) {f : State → α → State} (hf : ∀ s x, P s → P (f s x)) (l : List α) : ∀ s, P s → P (l.foldl f s) := by
  induction l with
  | nil => intro s h; exact h
  | cons a r ih => intro s h; exact ih _ (hf _ _ h)

/-- A state whose tiles differ from s's at most in tile t's trace FIFO. -/
def FifoOnly (s : State) (t : Nat) (u : State) : Prop :=
  (u.tile t = { s.tile t with traceFifo := (u.tile t).traceFifo }) ∧ (∀ j, j ≠ t → u.tile j = s.tile j) ∧ u.mem = s.mem ∧ u.flt = s.flt

theorem tracePc_fifo (s : State) (t : Nat) (r : Run) : FifoOnly s t (s.tracePc t r) := by
  unfold State.tracePc
  split
  · apply foldTile_inv (FifoOnly s t)
    · intro u x h
      split
      · refine ⟨?_, fun j hj => ?_, h.2.2.1, h.2.2.2⟩
        · rw [modTile_tile]; simp only []; rw [h.1]
        · rw [modTile_tile_other _ hj]; exact h.2.1 j hj
      · exact h
    · exact ⟨rfl, fun _ _ => rfl, rfl, rfl⟩
  · exact ⟨rfl, fun _ _ => rfl, rfl, rfl⟩

theorem traceTile_fifo (s : State) (t k st w : Nat) (wv : Bool) (a : Nat) (p : List Nat) : FifoOnly s t (s.traceTile t k st w wv a p) := by
  unfold State.traceTile
  apply foldTile_inv (FifoOnly s t)
  · intro u x h
    split
    · refine ⟨?_, fun j hj => ?_, h.2.2.1, h.2.2.2⟩
      · rw [modTile_tile]; simp only []; rw [h.1]
      · rw [modTile_tile_other _ hj]; exact h.2.1 j hj
    · exact h
  · exact ⟨rfl, fun _ _ => rfl, rfl, rfl⟩

theorem gExec_goOn {i : Instr} {t : Nat} {hc : Tile → Run → Nat} {f : Tile → Run → GStep} {s : State} {r r2 : Run} (h : Fetched s t i r)
    (hf : f (s.tile t) { r with steps := r.steps + 1, hc := r.hc + hc (s.tile t) r } = .goOn r2) :
    ∃ u, gExec i t hc f s = .next u ∧ RunGoesOn s u t r2 := by
  obtain ⟨h1, h2, h3, h4⟩ := h
  have hb := tracePc_fifo s t r
  apply ex_next (t := (((s.tracePc t r).modTile t (fun y => { y with gbSteps := y.gbSteps + 1 })).modTile t (fun y => { y with run := some r2 })))
  · unfold gExec
    simp only [h1, h2, h3, h4, Bool.false_eq_true, if_false, decide_true, Bool.and_self, if_true, hf]
  · refine ⟨?_, fun j hj => ?_, ?_⟩
    · simp only [modTile_tile]; rw [hb.1]
    · rw [modTile_tile_other _ hj, modTile_tile_other _ hj]; exact hb.2.1 j hj
    · have hk : OnlyM 0x400000000000008 s (((s.tracePc t r).modTile t (fun y => { y with gbSteps := y.gbSteps + 1 })).modTile t (fun y => { y with run := some r2 })) :=
        only_modTile (only_modTile (only_tracePc (OnlyM.refl _ _) (by decide)) (by decide)) (by decide)
      intro p hp
      exact hk p (by revert hp; cases p <;> simp <;> decide)

theorem gExec_done {i : Instr} {t : Nat} {hc : Tile → Run → Nat} {f : Tile → Run → GStep} {s : State} {r r2 : Run} (h : Fetched s t i r)
    (hf : f (s.tile t) { r with steps := r.steps + 1, hc := r.hc + hc (s.tile t) r } = .done r2) :
    gExec i t hc f s = .next ((((s.tracePc t r).modTile t (fun y => { y with gbSteps := y.gbSteps + 1 }))).completeRun t r2) := by
  obtain ⟨h1, h2, h3, h4⟩ := h
  unfold gExec
  simp only [h1, h2, h3, h4, Bool.false_eq_true, if_false, decide_true, Bool.and_self, if_true, hf]

end Sys2Proof.Machine
end

