-- ==== Sys2Proof/Laws/Inputs.lean ====
section
/-! SUPPORT. What an input of a world's source leaves in the world: S, T, the remainder and the time of its last advance. -/

set_option linter.unusedSimpArgs false

namespace Sys2Proof.Machine

open Sys2Proof

/-- Worlds of t that follow a leader followed it in s. -/
def Src (s t : State) : Prop :=
  ∀ e ∈ t.tmp.worlds, e.2.srcKind = 5 → ∃ d ∈ s.tmp.worlds, d.1 = e.1 ∧ d.2.srcKind = 5 ∧ d.2.srcIndex = e.2.srcIndex

theorem Src.refl (s : State) : Src s s := fun e h k => ⟨e, h, rfl, k, rfl⟩
theorem Src.trans {s t u : State} (a : Src s t) (b : Src t u) : Src s u := fun e h k => by
  obtain ⟨d, h1, h2, h3, h4⟩ := b e h k
  obtain ⟨c, g1, g2, g3, g4⟩ := a d h1 h3
  exact ⟨c, g1, g2.trans h2, g3, g4.trans h4⟩
theorem Src.near {s t : State} (h : Near s t) : Src s t := h.src
theorem Src.same {s t : State} (h : t.tmp.worlds = s.tmp.worlds) : Src s t := fun e he k => ⟨e, h ▸ he, rfl, k, rfl⟩
theorem src_mod (s : State) (w : Nat) (f : World → World) (hf : ∀ y, (f y).srcKind = y.srcKind ∧ (f y).srcIndex = y.srcIndex) :
    Src s (s.modWorld w f) := src_modWorld s w f hf
theorem src_foldl {α : Type} {f : State → α → State} (hf : ∀ s x, Src s (f s x)) (l : List α) (s : State) : Src s (l.foldl f s) := by
  induction l generalizing s with
  | nil => exact Src.refl s
  | cons a r ih => exact (hf s a).trans (ih _)

theorem src_parkCore (s : State) (w c : Nat) : Src s (s.parkCore w c) := by
  unfold State.parkCore
  simp only []
  split
  · exact Src.refl s
  · refine Src.trans ?_ (Src.near (near_runningChanged _ _))
    refine Src.trans ?_ (Src.same (worldRecord_ok.worlds_eq (by decide)))
    refine Src.trans (src_mod s w (fun y => { y with st := .parked, parkCause := c }) (by intro y; exact ⟨rfl, rfl⟩)) (Src.same ?_)
    rfl

theorem src_moveT (s : State) (w : Nat) : Src s (s.moveT w) := by
  unfold State.moveT
  exact (src_mod s w _ (by intro y; exact ⟨rfl, rfl⟩)).trans (Src.near (near_afterT _ _ _))

theorem src_judgeLag (s : State) (w : Nat) : Src s (s.judgeLag w) := by
  unfold State.judgeLag
  simp only []
  have h1 : Src s (if (s.world w).overrun = true then s else (s.modWorld w (fun y => { y with overrun := true })).worldRecord w 0x82
          [BitVec.ofNat 64 (w + (s.world w).t * 2 ^ 24), BitVec.ofNat 64 (min ((s.world w).s - s.reach w (s.world w).s) 0xFFFF_FFFF)]) := by
    split
    · exact Src.refl s
    · exact (src_mod s w _ (by intro y; exact ⟨rfl, rfl⟩)).trans (Src.same (worldRecord_ok.worlds_eq (by decide)))
  split
  · split
    · exact h1.trans (src_parkCore _ _ _)
    · exact h1
  · exact src_mod s w _ (by intro y; exact ⟨rfl, rfl⟩)

theorem src_applyAdvance (s : State) (w adv : Nat) : Src s (s.applyAdvance w adv) := by
  unfold State.applyAdvance
  split
  · exact src_parkCore _ _ _
  · exact ((src_mod s w _ (by intro y; exact ⟨rfl, rfl⟩)).trans (src_moveT _ _)).trans (src_judgeLag _ _)

theorem src_inputCore (s : State) (w u : Nat) : Src s (s.inputCore w u) := by
  unfold State.inputCore
  simp only []
  split
  · refine Src.trans (Src.trans (Src.same ?_) (src_mod _ w _ ?_)) (src_applyAdvance _ _ _)
    · rw [wakeDom_worlds]
    · intro y; exact ⟨rfl, rfl⟩
  · exact src_mod s w _ (by intro y; exact ⟨rfl, rfl⟩)
  · exact Src.refl s

theorem src_follow (s : State) (w inc : Nat) : Src s (s.follow w inc) := by
  unfold State.follow
  simp only []
  split
  · exact Src.refl s
  · exact (Src.near (toPeerFold_near _ _ _)).trans (src_foldl (fun s x => src_inputCore s x _) _ _)

/-- World i keeps S, T, the remainder and the time of its last advance; it may have parked. -/
def Holds (i : Nat) (s t : State) : Prop :=
  (t.world i).s = (s.world i).s ∧ (t.world i).t = (s.world i).t ∧ (t.world i).rem = (s.world i).rem
    ∧ (t.world i).lastAdv = (s.world i).lastAdv

theorem Holds.trans {i : Nat} {s t u : State} (a : Holds i s t) (b : Holds i t u) : Holds i s u :=
  ⟨b.1.trans a.1, b.2.1.trans a.2.1, b.2.2.1.trans a.2.2.1, b.2.2.2.trans a.2.2.2⟩
theorem NearAt.holds {i : Nat} {s t : State} (h : NearAt i s t) : Holds i s t := by
  unfold NearAt at h
  simp only [World.mk.injEq] at h
  unfold Holds
  simp only [h]
  trivial

theorem holds_parkCore (s : State) (w c : Nat) : Holds w s (s.parkCore w c) := by
  by_cases h : (s.world w).st = .running
  · refine Holds.trans ?_ (parkCore_self s w c h).holds
    unfold Holds; simp only [modWorld_world]; trivial
  · exact (parkCore_at s w c w (Or.inr h)).holds

theorem holds_judgeLag (s : State) (w : Nat) : Holds w s (s.judgeLag w) := by
  unfold State.judgeLag
  simp only []
  have h1 : Holds w s (if (s.world w).overrun = true then s else (s.modWorld w (fun y => { y with overrun := true })).worldRecord w 0x82
          [BitVec.ofNat 64 (w + (s.world w).t * 2 ^ 24), BitVec.ofNat 64 (min ((s.world w).s - s.reach w (s.world w).s) 0xFFFF_FFFF)]) := by
    split
    · exact ⟨rfl, rfl, rfl, rfl⟩
    · refine Holds.trans ?_ ((Near.of_worlds (worldRecord_ok.worlds_eq (by decide))).at w).holds
      unfold Holds; simp only [modWorld_world]; trivial
  split
  · split
    · exact h1.trans (holds_parkCore _ _ _)
    · exact h1
  · unfold Holds; simp only [modWorld_world]; trivial

theorem parkFold_ne (l : List Nat) (c i : Nat) (h : i ∉ l) : ∀ s : State, NearAt i s (l.foldl (fun s f => s.parkCore f c) s) := by
  induction l with
  | nil => intro s; rfl
  | cons a r ih =>
    intro s
    exact (parkCore_at s a c i (Or.inl (fun e => h (by simp [e])))).trans (ih (fun e => h (List.mem_cons_of_mem _ e)) _)

/-- An input of u units to a RUNNING world that its own advance cannot reach: S moves by the scaled quotient, T toward S, the
remainder is kept, and the tether restarts (R23, R26, R36). -/
theorem input_self (s : State) (w u : Nat) (hr : (s.world w).st = .running)
    (ht : (s.world w).s + ((s.world w).rem + u * (s.world w).scaleMul) / (s.world w).scaleDiv ≤ maxTempo)
    (hf : w ∉ s.followers w) :
    ((s.input w u).world w).s = (s.world w).s + ((s.world w).rem + u * (s.world w).scaleMul) / (s.world w).scaleDiv
    ∧ ((s.input w u).world w).t = max (s.world w).t
        (min ((s.world w).s + ((s.world w).rem + u * (s.world w).scaleMul) / (s.world w).scaleDiv)
          ((s.world w).start (s.world w).opened))
    ∧ ((s.input w u).world w).rem = ((s.world w).rem + u * (s.world w).scaleMul) % (s.world w).scaleDiv
    ∧ ((s.input w u).world w).lastAdv = s.aon.wall := by
  unfold State.input
  generalize hD : s.inputCore w u = D
  have hsD : Src s D := by rw [← hD]; exact src_inputCore _ _ _
  have hk : (D.world w).s = (s.world w).s + ((s.world w).rem + u * (s.world w).scaleMul) / (s.world w).scaleDiv
    ∧ (D.world w).t = max (s.world w).t
        (min ((s.world w).s + ((s.world w).rem + u * (s.world w).scaleMul) / (s.world w).scaleDiv)
          ((s.world w).start (s.world w).opened))
    ∧ (D.world w).rem = ((s.world w).rem + u * (s.world w).scaleMul) % (s.world w).scaleDiv
    ∧ (D.world w).lastAdv = s.aon.wall := by
    rw [← hD]
    unfold State.inputCore
    simp only [hr]
    generalize hq : ((s.world w).rem + u * (s.world w).scaleMul) / (s.world w).scaleDiv = q at ht ⊢
    unfold State.applyAdvance
    have h2 : ¬ maxTempo < (s.world w).s + q := by omega
    simp only [modWorld_world, wakeDom_world, h2, if_false]
    generalize hB : (((s.wakeDom 1 3 w).modWorld w (fun y => { y with lastAdv := s.aon.wall, rem := ((s.world w).rem + u * (s.world w).scaleMul) % y.scaleDiv })).modWorld w (fun y => { y with s := y.s + q })) = B
    have hb : (B.world w).s = (s.world w).s + q ∧ (B.world w).t = (s.world w).t ∧ (B.world w).start (B.world w).opened = (s.world w).start (s.world w).opened
        ∧ (B.world w).rem = ((s.world w).rem + u * (s.world w).scaleMul) % (s.world w).scaleDiv ∧ (B.world w).lastAdv = s.aon.wall := by
      subst hB
      simp only [modWorld_world, wakeDom_world, World.start]
      trivial
    have h6 := (moveT_at B w w).holds
    have h7 := h6.trans (holds_judgeLag (B.moveT w) w)
    unfold Holds at h7
    simp only [modWorld_world, hb] at h7
    exact h7
  dsimp only
  have h5 := follow_at D w ((D.world w).t - (s.world w).t) (not_follower hsD hf)
  have h8 : w ∉ (D.follow w ((D.world w).t - (s.world w).t)).followers w := not_follower (hsD.trans (src_follow _ _ _)) hf
  generalize D.follow w ((D.world w).t - (s.world w).t) = E at h5 h8 ⊢
  have h9 : Holds w D (State.afterPark s E w) := by
    unfold State.afterPark
    split
    · unfold State.parkFollowers
      exact (h5.trans (parkFold_ne _ _ _ h8 _)).holds
    · exact h5.holds
  exact ⟨h9.1.trans hk.1, h9.2.1.trans hk.2.1, h9.2.2.1.trans hk.2.2.1, h9.2.2.2.trans hk.2.2.2⟩

/-- An input to a PARKED world is discarded and counted (R37). -/
theorem input_parked (s : State) (w u : Nat) (hp : (s.world w).st = .parked) :
    (s.input w u).world w = { s.world w with padv := sat 32 (s.world w).padv 1 } := by
  unfold State.input State.inputCore
  simp only [hp]
  unfold State.follow State.afterPark
  simp only [modWorld_world, hp, Nat.sub_self, if_true, decide_false, reduceCtorEq, Bool.false_and, Bool.false_eq_true, if_false]

end Sys2Proof.Machine
end

