-- ==== Sys2Proof/Laws/Memory.lean ====
section
/-! SUPPORT. Memory: what a byte reads after a write, and that every operation keeps the canonical form. -/

namespace Sys2Proof.Machine

open Sys2Proof

/-! ### Reading after a write -/

theorem cellsGet_of_above {a : Nat} : ∀ {l : List Host.Cell}, cellsAbove a l = true → cellsGet a l = memDefault
  | [], _ => rfl
  | (k, _) :: r, h => by
    simp only [cellsAbove, Bool.and_eq_true, decide_eq_true_eq] at h
    simp [cellsGet, Nat.ne_of_gt h.1, cellsGet_of_above h.2]

theorem cellsAbove_mono {a b : Nat} (hab : a ≤ b) : ∀ {l : List Host.Cell}, cellsAbove b l = true → cellsAbove a l = true
  | [], _ => rfl
  | (_, _) :: _, h => by
    simp only [cellsAbove, Bool.and_eq_true, decide_eq_true_eq] at h ⊢
    exact ⟨Nat.lt_of_le_of_lt hab h.1, cellsAbove_mono hab h.2⟩

theorem cellsGet_cellsSet_same (a : Nat) (v : Byte) :
    ∀ {l : List Host.Cell}, cellsWf l = true → cellsGet a (cellsSet a v l) = v
  | [], _ => by
    simp only [cellsSet]
    split
    · simp_all [cellsGet]
    · simp [cellsGet]
  | (k, w) :: r, h => by
    simp only [cellsWf, Bool.and_eq_true] at h
    simp only [cellsSet]
    split
    · rename_i hk
      split
      · subst_vars
        exact cellsGet_of_above (by simp [cellsAbove, hk, cellsAbove_mono (Nat.le_of_lt hk) h.1.2])
      · simp [cellsGet]
    · split
      · subst_vars
        split
        · subst_vars; exact cellsGet_of_above h.1.2
        · simp [cellsGet]
      · rename_i hne
        simp [cellsGet, hne, cellsGet_cellsSet_same a v h.2]

theorem cellsGet_cellsSet_other {a b : Nat} (hab : b ≠ a) (v : Byte) :
    ∀ (l : List Host.Cell), cellsGet b (cellsSet a v l) = cellsGet b l
  | [] => by
    simp only [cellsSet]
    split
    · rfl
    · simp [cellsGet, Ne.symm hab]
  | (k, w) :: r => by
    simp only [cellsSet]
    split
    · split
      · rfl
      · simp [cellsGet, Ne.symm hab]
    · split
      · rename_i hk
        subst hk
        split <;> simp [cellsGet, Ne.symm hab]
      · simp [cellsGet, cellsGet_cellsSet_other hab v r]

/-- A byte written is the byte read. -/
theorem read_write_same {m : Memory} (h : m.wf = true) (a : Nat) (v : Byte) : (m.write a v).read a = v :=
  cellsGet_cellsSet_same a v h

/-- A write leaves every other byte alone. -/
theorem read_write_other (m : Memory) {a b : Nat} (h : b ≠ a) (v : Byte) : (m.write a v).read b = m.read b :=
  cellsGet_cellsSet_other h v m.cells

/-! ### The canonical form is kept -/

theorem cellsAbove_cellsSet {b a : Nat} (v : Byte) (hba : b < a) :
    ∀ {l : List Host.Cell}, cellsAbove b l = true → cellsAbove b (cellsSet a v l) = true
  | [], _ => by
    simp only [cellsSet]
    split <;> simp [cellsAbove, hba]
  | (k, w) :: r, h => by
    have h' := h
    simp only [cellsAbove, Bool.and_eq_true, decide_eq_true_eq] at h
    simp only [cellsSet]
    split
    · split
      · exact h'
      · simp [cellsAbove, hba, h]
    · split
      · split
        · exact h.2
        · simp [cellsAbove, hba, h]
      · simp [cellsAbove, h.1, cellsAbove_cellsSet v hba h.2]

theorem cellsWf_cellsSet (a : Nat) (v : Byte) :
    ∀ {l : List Host.Cell}, cellsWf l = true → cellsWf (cellsSet a v l) = true
  | [], _ => by
    simp only [cellsSet]
    split
    · rfl
    · simp_all [cellsWf, cellsAbove]
  | (k, w) :: r, h => by
    have h' := h
    simp only [cellsWf, Bool.and_eq_true] at h
    simp only [cellsSet]
    split
    · rename_i hk
      split
      · exact h'
      · rename_i hv
        simp [cellsWf, cellsAbove, hk, hv, h, cellsAbove_mono (Nat.le_of_lt hk) h.1.2, -ne_eq] at *
    · split
      · rename_i hk
        subst hk
        split
        · exact h.2
        · rename_i hv
          simp_all [cellsWf]
      · rename_i h1 h2
        have hka : k < a := by omega
        simp [cellsWf, cellsAbove_cellsSet v hka h.1.2, cellsWf_cellsSet a v h.2]
        simpa using h.1.1

theorem cellsAbove_filter {a : Nat} (p : Host.Cell → Bool) :
    ∀ {l : List Host.Cell}, cellsAbove a l = true → cellsAbove a (l.filter p) = true
  | [], _ => rfl
  | c :: r, h => by
    simp only [cellsAbove, Bool.and_eq_true, decide_eq_true_eq] at h
    simp only [List.filter]
    split
    · simp [cellsAbove, h.1, cellsAbove_filter p h.2]
    · exact cellsAbove_filter p h.2

theorem cellsWf_filter (p : Host.Cell → Bool) :
    ∀ {l : List Host.Cell}, cellsWf l = true → cellsWf (l.filter p) = true
  | [], _ => rfl
  | c :: r, h => by
    simp only [cellsWf, Bool.and_eq_true] at h
    simp only [List.filter]
    split
    · simp only [cellsWf, Bool.and_eq_true]
      exact ⟨⟨h.1.1, cellsAbove_filter p h.1.2⟩, cellsWf_filter p h.2⟩
    · exact cellsWf_filter p h.2

theorem wf_write {m : Memory} (h : m.wf = true) (a : Nat) (v : Byte) : (m.write a v).wf = true :=
  cellsWf_cellsSet a v h

theorem wf_writeBytes : ∀ (bs : List Byte) {m : Memory}, m.wf = true → ∀ a, (m.writeBytes a bs).wf = true
  | [], _, h, _ => h
  | b :: r, _, h, a => wf_writeBytes r (wf_write h a b) (a + 1)

theorem wf_writeLE : ∀ (n : Nat) {m : Memory}, m.wf = true → ∀ a v, (m.writeLE a n v).wf = true
  | 0, _, h, _, _ => h
  | n + 1, _, h, a, v => wf_writeLE n (wf_write h a _) (a + 1) (v / 256)

theorem wf_zero {m : Memory} (h : m.wf = true) (a n : Nat) : (m.zero a n).wf = true := cellsWf_filter _ h

@[simp] theorem wf_heal (m : Memory) (a n : Nat) : (m.heal a n).wf = m.wf := rfl

theorem wf_writeLine {m : Memory} (h : m.wf = true) (a : Nat) (v : BitVec 512) : (m.writeLine a v).wf = true := by
  unfold Memory.writeLine
  simpa using wf_writeLE _ h _ _

/-- The memory after reset is in the canonical form. -/
theorem wf_reset : State.reset.mem.wf = true := rfl

end Sys2Proof.Machine
end

