-- ==== Sys2Proof/Laws/Keeps.lean ====
section
/-! SUPPORT. `Keeps` is a preorder that updates, folds and outcomes carry along: the lemmas by which every operation's own
lemma is proved. -/

namespace Sys2Proof.Machine

open Sys2Proof

theorem FusesFrom.refl (f : Fuses) : FusesFrom f f := ⟨rfl, rfl, rfl, rfl, rfl, rfl, rfl, rfl, Nat.le_refl _⟩

theorem FusesFrom.trans {f g h : Fuses} (a : FusesFrom f g) (b : FusesFrom g h) : FusesFrom f h :=
  ⟨b.uid.trans a.uid, b.hubRev.trans a.hubRev, b.baseRev.trans a.baseRev, b.keyHash0.trans a.keyHash0,
   b.keyHash1.trans a.keyHash1, b.keyHash2.trans a.keyHash2, b.revoke.trans a.revoke, b.defects.trans a.defects,
   Nat.le_trans a.floor b.floor⟩

theorem Keeps.refl (s : State) : Keeps s s := ⟨rfl, .refl _, id, rfl⟩

theorem Keeps.trans {s t u : State} (a : Keeps s t) (b : Keeps t u) : Keeps s u :=
  ⟨b.pkg.trans a.pkg, a.fuses.trans b.fuses, fun h => b.mem (a.mem h), b.pending.trans a.pending⟩

/-- An update of other fields. -/
theorem keeps_upd_iff {z s : State} {aon pwr boot hub access racks pips tmp fab tiles pool ports portDest flt trc freeCtr} :
    Keeps z ⟨s.pkg, s.fuses, aon, pwr, boot, hub, access, racks, pips, tmp, fab, tiles, s.mem, pool, ports, portDest, flt,
      trc, freeCtr, s.pending⟩ ↔ Keeps z s :=
  ⟨fun h => ⟨h.pkg, h.fuses, h.mem, h.pending⟩, fun h => ⟨h.pkg, h.fuses, h.mem, h.pending⟩⟩

/-- An update of other fields and of the memory, to a canonical one where it was. -/
theorem keeps_mem {z s : State} {m : Memory} {aon pwr boot hub access racks pips tmp fab tiles pool ports portDest flt trc freeCtr}
    (h : Keeps z s) (hm : s.mem.wf = true → m.wf = true) :
    Keeps z ⟨s.pkg, s.fuses, aon, pwr, boot, hub, access, racks, pips, tmp, fab, tiles, m, pool, ports, portDest, flt,
      trc, freeCtr, s.pending⟩ :=
  ⟨h.pkg, h.fuses, fun w => hm (h.mem w), h.pending⟩

/-- An update of other fields and of the check bits of the memory. -/
theorem keeps_ecc_iff {z s : State} {bad soft : List Nat}
    {aon pwr boot hub access racks pips tmp fab tiles pool ports portDest flt trc freeCtr} :
    Keeps z ⟨s.pkg, s.fuses, aon, pwr, boot, hub, access, racks, pips, tmp, fab, tiles, ⟨s.mem.cells, bad, soft⟩, pool, ports,
      portDest, flt, trc, freeCtr, s.pending⟩ ↔ Keeps z s :=
  ⟨fun h => ⟨h.pkg, h.fuses, h.mem, h.pending⟩, fun h => ⟨h.pkg, h.fuses, h.mem, h.pending⟩⟩

theorem keeps_foldl {α : Type} {z s : State} {f : State → α → State} {l : List α}
    (hf : ∀ t x, Keeps t (f t x)) (h : Keeps z s) : Keeps z (l.foldl f s) := by
  induction l generalizing s with
  | nil => exact h
  | cons x r ih => exact ih (h.trans (hf s x))

/-- Every next state of an outcome may follow z. -/
def KeepsO (z : State) (o : Host.Outcome State Fault Refusal) : Prop := ∀ t, o = .next t → Keeps z t

theorem keepsO_next {z t : State} (h : Keeps z t) : KeepsO z (.next t) := by
  intro u e
  cases e
  exact h

theorem KeepsO.elim {z t : State} {o : Host.Outcome State Fault Refusal} (h : KeepsO z o) (e : o = .next t) : Keeps z t :=
  h t e

/-- The state an optional answer holds, if any, may follow z. -/
def KeepsP (z : State) (o : Option State) : Prop := ∀ t, o = some t → Keeps z t

theorem keepsP_some {z t : State} (h : Keeps z t) : KeepsP z (some t) := by
  intro u e
  cases e
  exact h

theorem keepsP_none {z : State} : KeepsP z none := by
  intro u e
  cases e

end Sys2Proof.Machine
end

