-- ==== Sys2Proof/Laws/KeepsOps.lean ====
section
/-! SUPPORT. Every operation of Machine/Ops.lean answers a state that may follow its own (`Keeps`). -/

set_option linter.unusedTactic false
set_option linter.unreachableTactic false
set_option linter.unusedVariables false
set_option linter.unusedSimpArgs false

namespace Sys2Proof.Machine

open Sys2Proof

theorem keeps_modMaster {z : State} {s : State} {m : Nat} {f : Master → Master} (h_s : Keeps z s) : Keeps z (State.modMaster s m f) := by
  unfold State.modMaster
  with_reducible
  repeat' first
    | assumption | exact Keeps.refl _ | (simp only [keeps_upd_iff])

theorem keeps_modLink {z : State} {s : State} {k : Nat} {f : Link → Link} (h_s : Keeps z s) : Keeps z (State.modLink s k f) := by
  unfold State.modLink
  with_reducible
  repeat' first
    | assumption | exact Keeps.refl _ | (simp only [keeps_upd_iff])

theorem keeps_modLd {z : State} {s : State} {n : Nat} {f : Ld → Ld} (h_s : Keeps z s) : Keeps z (State.modLd s n f) := by
  unfold State.modLd
  with_reducible
  repeat' first
    | assumption | exact Keeps.refl _ | (simp only [keeps_upd_iff])

theorem keeps_modRack {z : State} {s : State} {r : Nat} {f : Rack → Rack} (h_s : Keeps z s) : Keeps z (State.modRack s r f) := by
  unfold State.modRack
  with_reducible
  repeat' first
    | assumption | exact Keeps.refl _ | (simp only [keeps_upd_iff])

theorem keeps_modPip {z : State} {s : State} {n : Nat} {f : Pip → Pip} (h_s : Keeps z s) : Keeps z (State.modPip s n f) := by
  unfold State.modPip
  with_reducible
  repeat' first
    | assumption | exact Keeps.refl _ | (simp only [keeps_upd_iff])

theorem keeps_modWorld {z : State} {s : State} {w : Nat} {f : World → World} (h_s : Keeps z s) : Keeps z (State.modWorld s w f) := by
  unfold State.modWorld
  with_reducible
  repeat' first
    | assumption | exact Keeps.refl _ | (simp only [keeps_upd_iff])

theorem keeps_modTile {z : State} {s : State} {t : Nat} {f : Tile → Tile} (h_s : Keeps z s) : Keeps z (State.modTile s t f) := by
  unfold State.modTile
  with_reducible
  repeat' first
    | assumption | exact Keeps.refl _ | (simp only [keeps_upd_iff])

theorem keeps_modPort {z : State} {s : State} {n : Nat} {f : Port → Port} (h_s : Keeps z s) : Keeps z (State.modPort s n f) := by
  unfold State.modPort
  with_reducible
  repeat' first
    | assumption | exact Keeps.refl _ | (simp only [keeps_upd_iff])

theorem keeps_modSpan {z : State} {s : State} {k : Nat} {f : Span → Span} (h_s : Keeps z s) : Keeps z (State.modSpan s k f) := by
  unfold State.modSpan
  with_reducible
  repeat' first
    | assumption | exact Keeps.refl _ | (simp only [keeps_upd_iff])

theorem keeps_modFence {z : State} {s : State} {d : Nat} {f : Fence → Fence} (h_s : Keeps z s) : Keeps z (State.modFence s d f) := by
  unfold State.modFence
  with_reducible
  repeat' first
    | assumption | exact Keeps.refl _ | (simp only [keeps_upd_iff])

theorem keeps_modDom {z : State} {s : State} {d : Nat} {f : Dom → Dom} (h_s : Keeps z s) : Keeps z (State.modDom s d f) := by
  unfold State.modDom
  with_reducible
  repeat' first
    | assumption | exact Keeps.refl _ | (simp only [keeps_upd_iff])

theorem keeps_recordWake {z : State} {s : State} {kind from_ dom detail : Nat} (h_s : Keeps z s) : Keeps z (State.recordWake s kind from_ dom detail) := by
  unfold State.recordWake
  with_reducible
  repeat' first
    | assumption | exact Keeps.refl _ | (simp only [keeps_upd_iff])

theorem keeps_wakeDom {z : State} {s : State} {d kind detail : Nat} (h_s : Keeps z s) : Keeps z (State.wakeDom s d kind detail) := by
  unfold State.wakeDom
  with_reducible
  repeat' first
    | assumption | exact Keeps.refl _ | (simp only [keeps_upd_iff]) | split | apply keeps_modDom
    | apply keeps_recordWake | apply keeps_foldl | apply keepsO_next | intro _ | (dsimp only)

theorem keeps_packageWake {z : State} {s : State} {kind detail : Nat} (h_s : Keeps z s) : Keeps z (State.packageWake s kind detail) := by
  unfold State.packageWake
  with_reducible
  repeat' first
    | assumption | exact Keeps.refl _ | (simp only [keeps_upd_iff]) | split | apply keeps_recordWake

theorem keeps_wakeSource {z : State} {s : State} {i kind detail : Nat} (h_s : Keeps z s) : Keeps z (State.wakeSource s i kind detail) := by
  unfold State.wakeSource
  with_reducible
  repeat' first
    | assumption | exact Keeps.refl _ | (simp only [keeps_upd_iff]) | split | apply keeps_packageWake

theorem keeps_wakeTile {z : State} {s : State} {t kind detail : Nat} (h_s : Keeps z s) : Keeps z (State.wakeTile s t kind detail) := by
  unfold State.wakeTile
  with_reducible
  repeat' first
    | assumption | exact Keeps.refl _ | (simp only [keeps_upd_iff]) | split | apply keeps_wakeDom

theorem keeps_wakeBank {z : State} {s : State} {t : Nat} (h_s : Keeps z s) : Keeps z (State.wakeBank s t) := by
  unfold State.wakeBank
  with_reducible
  repeat' first
    | assumption | exact Keeps.refl _ | (simp only [keeps_upd_iff]) | split | apply keeps_wakeDom

theorem keeps_hostWake {z : State} {s : State} {m : Nat} (h_s : Keeps z s) : Keeps z (State.hostWake s m) := by
  unfold State.hostWake
  with_reducible
  repeat' first
    | assumption | exact Keeps.refl _ | (simp only [keeps_upd_iff]) | split | apply keeps_wakeDom

theorem keeps_respond {z : State} {s : State} {m : Nat} {ws : List DWord} (h_s : Keeps z s) : Keeps z (State.respond s m ws) := by
  unfold State.respond
  with_reducible
  repeat' first
    | assumption | exact Keeps.refl _ | (simp only [keeps_upd_iff]) | split | apply keeps_hostWake
    | apply keeps_modMaster

theorem keeps_refuse {z : State} {s : State} {m : Nat} {bar2 : Bool} {off : Nat} {c : Code} {isRead : Bool} (h_s : Keeps z s) : Keeps z (State.refuse s m bar2 off c isRead) := by
  unfold State.refuse
  with_reducible
  repeat' first
    | assumption | exact Keeps.refl _ | (simp only [keeps_upd_iff]) | split | apply keeps_hostWake
    | apply keeps_modMaster

theorem keeps_traceTile {z : State} {s : State} {t kind stamp w : Nat} {wv : Bool} {a : Nat} {payload : List Nat} (h_s : Keeps z s) : Keeps z (State.traceTile s t kind stamp w wv a payload) := by
  unfold State.traceTile
  with_reducible
  repeat' first
    | assumption | exact Keeps.refl _ | (simp only [keeps_upd_iff]) | split | apply keeps_modTile | apply keeps_foldl
    | apply keepsO_next | intro _

theorem keeps_traceHub {z : State} {s : State} {x kind a : Nat} {payload : List Nat} {tg : Target} (h_s : Keeps z s) : Keeps z (State.traceHub s x kind a payload tg) := by
  unfold State.traceHub
  with_reducible
  repeat' first
    | assumption | exact Keeps.refl _ | (simp only [keeps_upd_iff]) | split

theorem keeps_traceRack {z : State} {s : State} {r op m : Nat} {c : Code} {kind seq : Nat} (h_s : Keeps z s) : Keeps z (State.traceRack s r op m c kind seq) := by
  unfold State.traceRack
  with_reducible
  repeat' first
    | assumption | exact Keeps.refl _ | split | apply keeps_traceHub

theorem keeps_colWrite {z : State} {s : State} {t a n v : Nat} (h_s : Keeps z s) : Keeps z (State.colWrite s t a n v) := by
  unfold State.colWrite
  exact keeps_mem h_s (fun h => by simpa using wf_writeLE _ h _ _)

theorem wf_writeEach (s : State) (t a : Nat) : ∀ (bs : List (Byte × Nat)) (m : Memory), m.wf = true →
    (bs.foldl (fun m e => m.write (s.memAddr (colAddr t (a + e.2))) e.1) m).wf = true
  | [], _, h => h
  | _ :: r, _, h => wf_writeEach s t a r _ (wf_write h _ _)

theorem keeps_colBytes {z : State} {s : State} {t a : Nat} {bs : List Byte} (h_s : Keeps z s) : Keeps z (State.colBytes s t a bs) := by
  unfold State.colBytes
  exact keeps_mem h_s (fun h => by simpa using wf_writeEach _ _ _ _ _ h)

theorem keeps_pushLoss {z : State} {s : State} {i : LossItem} (h_s : Keeps z s) : Keeps z (State.pushLoss s i) := by
  unfold State.pushLoss
  with_reducible
  repeat' first
    | assumption | exact Keeps.refl _ | (simp only [keeps_upd_iff])

theorem keeps_modTurn {z : State} {s : State} {w n : Nat} {f : TurnInfo → TurnInfo} (h_s : Keeps z s) : Keeps z (State.modTurn s w n f) := by
  unfold State.modTurn
  with_reducible
  repeat' first
    | assumption | exact Keeps.refl _ | (simp only [keeps_upd_iff]) | split | apply keeps_modWorld | apply keeps_foldl
    | apply keepsO_next | intro _ | (dsimp only)

theorem keeps_raiseRack {z : State} {s : State} {r : Nat} (h_s : Keeps z s) : Keeps z (State.raiseRack s r) := by
  unfold State.raiseRack
  with_reducible
  repeat' first
    | assumption | exact Keeps.refl _ | (simp only [keeps_upd_iff])

theorem keeps_rackPut {z : State} {s : State} {r src : Nat} {msg : List DWord} (h_s : Keeps z s) : Keeps z (State.rackPut s r src msg) := by
  unfold State.rackPut
  with_reducible
  repeat' first
    | assumption | exact Keeps.refl _ | (simp only [keeps_upd_iff]) | split | apply keeps_modRack
    | apply keeps_raiseRack | apply keeps_foldl | apply keepsO_next | intro _ | (dsimp only)

theorem keeps_dropMsg {z : State} {s : State} {r src : Nat} {w : Option Nat} {msg : List DWord} (h_s : Keeps z s) : Keeps z (State.dropMsg s r src w msg) := by
  unfold State.dropMsg
  with_reducible
  repeat' first
    | assumption | exact Keeps.refl _ | split | apply keeps_traceRack | apply keeps_modRack | apply keeps_pushLoss

theorem keeps_postRecord {z : State} {s : State} {r src kind : Nat} {c : Code} {w : Option Nat} {body : List DWord} (h_s : Keeps z s) : Keeps z (State.postRecord s r src kind c w body) := by
  unfold State.postRecord
  with_reducible
  repeat' first
    | assumption | exact Keeps.refl _ | split | apply keeps_traceRack | apply keeps_rackPut | apply keeps_dropMsg

theorem keeps_postReserved {z : State} {s : State} {r kind : Nat} {c : Code} {body : List DWord} (h_s : Keeps z s) : Keeps z (State.postReserved s r kind c body) := by
  unfold State.postReserved
  with_reducible
  repeat' first
    | assumption | exact Keeps.refl _ | (simp only [keeps_upd_iff]) | split | apply keeps_traceRack
    | apply keeps_modRack | apply keeps_rackPut

theorem keeps_postFault {z : State} {s : State} {event dom detail : Nat} (h_s : Keeps z s) : Keeps z (State.postFault s event dom detail) := by
  unfold State.postFault
  with_reducible
  repeat' first
    | assumption | exact Keeps.refl _ | (simp only [keeps_upd_iff]) | split | apply keeps_postRecord

theorem keeps_complete {z : State} {s : State} {c : ExecCmd} {code : Code} {results : List DWord} (h_s : Keeps z s) : Keeps z (State.complete s c code results) := by
  unfold State.complete
  with_reducible
  repeat' first
    | assumption | exact Keeps.refl _ | (simp only [keeps_upd_iff]) | split | apply keeps_postReserved
    | apply keeps_modLd

theorem keeps_completeAt {z : State} {s : State} {rk seq : Nat} {code : Code} {results : List DWord} (h_s : Keeps z s) : Keeps z (State.completeAt s rk seq code results) := by
  unfold State.completeAt
  with_reducible
  repeat' first
    | assumption | exact Keeps.refl _ | (simp only [keeps_upd_iff]) | split | apply keeps_complete

theorem keeps_begun {z : State} {s : State} {c : ExecCmd} (h_s : Keeps z s) : Keeps z (State.begun s c) := by
  unfold State.begun
  with_reducible
  repeat' first
    | assumption | exact Keeps.refl _ | (simp only [keeps_upd_iff])

theorem keeps_fenceMove {z : State} {s : State} {d : Nat} {st : FenceState} (h_s : Keeps z s) : Keeps z (State.fenceMove s d st) := by
  unfold State.fenceMove
  with_reducible
  repeat' first
    | assumption | exact Keeps.refl _ | (simp only [keeps_upd_iff]) | split | apply keeps_modFence
    | apply keeps_postFault

theorem keeps_fenceStart {z : State} {s : State} {d us : Nat} {reset : Bool} {cmd : Option (Nat × Nat)} {wake detail : Nat} (h_s : Keeps z s) : Keeps z (State.fenceStart s d us reset cmd wake detail) := by
  unfold State.fenceStart
  with_reducible
  repeat' first
    | assumption | exact Keeps.refl _ | (simp only [keeps_upd_iff]) | split | apply keeps_wakeDom
    | apply keeps_modFence | apply keeps_fenceMove

theorem keeps_updateStart {z : State} {s : State} {d : Nat} (h_s : Keeps z s) : Keeps z (State.updateStart s d) := by
  unfold State.updateStart
  with_reducible
  repeat' first
    | assumption | exact Keeps.refl _ | (simp only [keeps_upd_iff]) | split | apply keeps_fenceStart
    | apply keeps_fenceMove

theorem keeps_stageUpdate {z : State} {s : State} {d : Nat} {l : List Section} (h_s : Keeps z s) : Keeps z (State.stageUpdate s d l) := by
  unfold State.stageUpdate
  with_reducible
  repeat' first
    | assumption | exact Keeps.refl _ | (simp only [keeps_upd_iff]) | split | apply keeps_modFence

theorem keeps_amendCheck {z : State} {s : State} (h_s : Keeps z s) : Keeps z (State.amendCheck s) := by
  unfold State.amendCheck
  with_reducible
  repeat' first
    | assumption | exact Keeps.refl _ | (simp only [keeps_upd_iff]) | split | apply keeps_completeAt

end Sys2Proof.Machine
end

