-- ==== Sys2Proof/Laws/KeepsLosses.lean ====
section
/-! SUPPORT. Every operation of Machine/Losses.lean answers a state that may follow its own (`Keeps`). -/

set_option linter.unusedTactic false
set_option linter.unreachableTactic false
set_option linter.unusedVariables false
set_option linter.unusedSimpArgs false

namespace Sys2Proof.Machine

open Sys2Proof

theorem keeps_countCode {z : State} {s : State} {c : Code} (h_s : Keeps z s) : Keeps z (State.countCode s c) := by
  unfold State.countCode
  with_reducible
  repeat' first
    | assumption | exact Keeps.refl _ | (simp only [keeps_upd_iff])

theorem keeps_overflow {z : State} {s : State} {i : LossItem} (h_s : Keeps z s) : Keeps z (State.overflow s i) := by
  unfold State.overflow
  with_reducible
  repeat' first
    | assumption | exact Keeps.refl _ | (simp only [keeps_upd_iff]) | split | apply keeps_countCode
    | apply keeps_modTurn

theorem keeps_lossTurn {z : State} {s : State} {i : LossItem} (h_s : Keeps z s) : Keeps z (State.lossTurn s i) := by
  unfold State.lossTurn
  with_reducible
  repeat' first
    | assumption | exact Keeps.refl _ | (simp only [keeps_upd_iff]) | split | apply keeps_modTurn

theorem keeps_lossStore {z : State} {s : State} {k w0 w1 : Nat} (h_s : Keeps z s) : Keeps z (State.lossStore s k w0 w1) := by
  unfold State.lossStore
  with_reducible
  repeat' first
    | assumption | exact Keeps.refl _ | split | apply keeps_wakeBank | apply keeps_colWrite

theorem keeps_lossMarks {z : State} {s : State} {before : Nat} (h_s : Keeps z s) : Keeps z (State.lossMarks s before) := by
  unfold State.lossMarks
  with_reducible
  repeat' first
    | assumption | exact Keeps.refl _ | (simp only [keeps_upd_iff]) | split | apply keeps_postFault
    | apply keeps_foldl | apply keepsO_next | intro _ | (dsimp only)

theorem keeps_lossWrite {z : State} {s : State} {i : LossItem} (h_s : Keeps z s) : Keeps z (State.lossWrite s i) := by
  unfold State.lossWrite
  with_reducible
  repeat' first
    | assumption | exact Keeps.refl _ | (simp only [keeps_upd_iff]) | split | apply keeps_lossStore
    | apply keeps_countCode | apply keeps_modFence | apply keeps_lossTurn | apply keeps_lossMarks | apply keeps_foldl
    | apply keepsO_next | intro _

theorem keeps_lossNext {z : State} {s : State} (h_s : Keeps z s) : Keeps z (State.lossNext s) := by
  unfold State.lossNext
  with_reducible
  repeat' first
    | assumption | exact Keeps.refl _ | (simp only [keeps_upd_iff]) | split | apply keeps_overflow
    | apply keeps_lossWrite

theorem keeps_lossDrain {z : State} {s : State} (h_s : Keeps z s) : Keeps z (State.lossDrain s) := by
  unfold State.lossDrain
  with_reducible
  repeat' first
    | assumption | exact Keeps.refl _ | (simp only [keeps_upd_iff]) | split | apply keeps_lossNext | apply keeps_foldl
    | apply keepsO_next | intro _

theorem keeps_execLossItem {z : State} {s : State} (h_s : Keeps z s) : KeepsO z (execLossItem s) := by
  unfold execLossItem
  with_reducible
  repeat' first
    | assumption | exact Keeps.refl _ | (simp only [keeps_upd_iff]) | split | apply keeps_lossNext | apply keeps_foldl
    | apply keepsO_next

end Sys2Proof.Machine
end

