-- ==== Sys2Proof/Laws/KeepsRacks.lean ====
section
/-! SUPPORT. Every operation of Machine/Racks.lean answers a state that may follow its own (`Keeps`). -/

set_option linter.unusedTactic false
set_option linter.unreachableTactic false
set_option linter.unusedVariables false
set_option linter.unusedSimpArgs false

namespace Sys2Proof.Machine

open Sys2Proof

theorem keeps_rackDrop {z : State} {s : State} {rk : Nat} (h_s : Keeps z s) : Keeps z (State.rackDrop s rk) := by
  unfold State.rackDrop
  with_reducible
  repeat' first
    | assumption | exact Keeps.refl _ | (simp only [keeps_upd_iff]) | split | apply keeps_modRack

theorem keeps_rackScrub {z : State} {s : State} {rk : Nat} {ind : Nat} (h_s : Keeps z s) : Keeps z (State.rackScrub s rk ind) := by
  induction ind generalizing s rk with
  | zero => unfold State.rackScrub; exact h_s
  | succ ind ih =>
    unfold State.rackScrub
    with_reducible
    repeat' first
      | assumption | apply ih | exact Keeps.refl _ | (simp only [keeps_upd_iff]) | split | apply keeps_rackDrop
      | apply keeps_pushLoss | apply keeps_foldl | apply keepsO_next | intro _ | (dsimp only)

theorem keeps_rackReady {z : State} {s : State} {rk : Nat} (h_s : Keeps z s) : Keeps z (State.rackReady s rk) := by
  unfold State.rackReady
  with_reducible
  repeat' first
    | assumption | exact Keeps.refl _ | (simp only [keeps_upd_iff]) | split | apply keeps_rackScrub

theorem keeps_pushResult {z : State} {s : State} {m rk : Nat} {c : Code} (h_s : Keeps z s) : Keeps z (State.pushResult s m rk c) := by
  unfold State.pushResult
  with_reducible
  repeat' first
    | assumption | exact Keeps.refl _ | split | apply keeps_modMaster | apply keeps_modRack

theorem keeps_execPush {z : State} {m rk : Nat} {hdr : DWord} {s : State} (h_s : Keeps z s) : KeepsO z (execPush m rk hdr s) := by
  unfold execPush
  with_reducible
  repeat' first
    | assumption | exact Keeps.refl _ | split | apply keeps_refuse | apply keeps_traceRack | apply keeps_rackPut
    | apply keeps_pushResult | apply keeps_respond | apply keeps_foldl | apply keepsO_next

theorem keeps_traceRead {z : State} {s : State} {rk op m : Nat} {msg : List DWord} (h_s : Keeps z s) : Keeps z (State.traceRead s rk op m msg) := by
  unfold State.traceRead
  with_reducible
  repeat' first
    | assumption | exact Keeps.refl _ | (simp only [keeps_upd_iff]) | split | apply keeps_traceRack

theorem keeps_latchMsg {z : State} {s : State} {m win : Nat} {msg : List DWord} (h_s : Keeps z s) : Keeps z (State.latchMsg s m win msg) := by
  unfold State.latchMsg
  with_reducible
  repeat' first
    | assumption | exact Keeps.refl _ | (simp only [keeps_upd_iff]) | split | apply keeps_modMaster
    | apply keeps_respond

theorem keeps_execPop {z : State} {m rk : Nat} {s : State} (h_s : Keeps z s) : KeepsO z (execPop m rk s) := by
  unfold execPop
  with_reducible
  repeat' first
    | assumption | exact Keeps.refl _ | (simp only [keeps_upd_iff]) | split | apply keeps_refuse
    | apply keeps_rackReady | apply keeps_traceRead | apply keeps_latchMsg | apply keeps_rackDrop | apply keeps_foldl
    | apply keepsO_next | intro _ | (dsimp only)

theorem keeps_execPeek {z : State} {m rk : Nat} {s : State} (h_s : Keeps z s) : KeepsO z (execPeek m rk s) := by
  unfold execPeek
  with_reducible
  repeat' first
    | assumption | exact Keeps.refl _ | split | apply keeps_refuse | apply keeps_rackReady | apply keeps_traceRead
    | apply keeps_respond | apply keeps_foldl | apply keepsO_next

theorem keeps_execLatch {z : State} {m rk : Nat} {s : State} (h_s : Keeps z s) : KeepsO z (execLatch m rk s) := by
  unfold execLatch
  with_reducible
  repeat' first
    | assumption | exact Keeps.refl _ | (simp only [keeps_upd_iff]) | split | apply keeps_refuse | apply keeps_respond
    | apply keeps_foldl | apply keepsO_next

theorem keeps_setReady {z : State} {s : State} {x : RackSet} (h_s : Keeps z s) : Keeps z (State.setReady s x) := by
  unfold State.setReady
  with_reducible
  repeat' first
    | assumption | exact Keeps.refl _ | (simp only [keeps_upd_iff]) | split | apply keeps_rackReady
    | apply keeps_foldl | apply keepsO_next | intro _

theorem keeps_execSetPop {z : State} {m set : Nat} {s : State} (h_s : Keeps z s) : KeepsO z (execSetPop m set s) := by
  unfold execSetPop
  with_reducible
  repeat' first
    | assumption | exact Keeps.refl _ | (simp only [keeps_upd_iff]) | split | apply keeps_refuse
    | apply keeps_setReady | apply keeps_latchMsg | apply keeps_traceRead | apply keeps_rackDrop | apply keeps_foldl
    | apply keepsO_next

theorem keeps_execSetPeek {z : State} {m set : Nat} {s : State} (h_s : Keeps z s) : KeepsO z (execSetPeek m set s) := by
  unfold execSetPeek
  with_reducible
  repeat' first
    | assumption | exact Keeps.refl _ | (simp only [keeps_upd_iff]) | split | apply keeps_refuse
    | apply keeps_setReady | apply keeps_respond | apply keeps_traceRead | apply keeps_foldl | apply keepsO_next
    | intro _ | (dsimp only)

theorem keeps_execRackAck {z : State} {m rk : Nat} {v : Word} {s : State} (h_s : Keeps z s) : KeepsO z (execRackAck m rk v s) := by
  unfold execRackAck
  with_reducible
  repeat' first
    | assumption | exact Keeps.refl _ | split | apply keeps_refuse | apply keeps_traceRack | apply keeps_modRack
    | apply keeps_modMaster | apply keeps_respond | apply keeps_foldl | apply keepsO_next

end Sys2Proof.Machine
end

