-- ==== Sys2Proof/Laws/KeepsCommands.lean ====
section
/-! SUPPORT. Every operation of Machine/Commands.lean answers a state that may follow its own (`Keeps`). -/

set_option linter.unusedTactic false
set_option linter.unreachableTactic false
set_option linter.unusedVariables false
set_option linter.unusedSimpArgs false

namespace Sys2Proof.Machine

open Sys2Proof

theorem keeps_cmdWake {z : State} {s : State} {op : Nat} (h_s : Keeps z s) : Keeps z (State.cmdWake s op) := by
  unfold State.cmdWake
  with_reducible
  repeat' first
    | assumption | exact Keeps.refl _ | (simp only [keeps_upd_iff]) | split | apply keeps_wakeDom

theorem keeps_runCmd {z : State} {op : Nat} {q : ExecCmd → Bool} {f : State → ExecCmd → State} {rk seq : Nat} {s : State} (h_f : ∀ t0 t1, Keeps t0 (f t0 t1)) (h_s : Keeps z s) : KeepsO z (runCmd op q f rk seq s) := by
  unfold runCmd
  with_reducible
  repeat' first
    | assumption | (refine Keeps.trans ?_ (h_f ..)) | exact Keeps.refl _ | (simp only [keeps_upd_iff]) | split
    | apply keeps_complete | apply keeps_cmdWake | apply keeps_foldl | apply keepsO_next

theorem keeps_takeCmd {z : State} {s : State} {rk cpl : Nat} {msg : List DWord} (h_s : Keeps z s) : Keeps z (State.takeCmd s rk cpl msg).1 := by
  unfold State.takeCmd
  with_reducible
  repeat' first
    | assumption | exact Keeps.refl _ | (simp only [keeps_upd_iff]) | split | apply keeps_rackDrop
    | apply keeps_modRack

theorem keeps_execCommandDispatch {z : State} {rk : Nat} {s : State} (h_s : Keeps z s) : KeepsO z (execCommandDispatch rk s) := by
  unfold execCommandDispatch
  with_reducible
  repeat' first
    | assumption | exact Keeps.refl _ | (simp only [keeps_upd_iff]) | split | apply keeps_rackReady
    | apply keeps_takeCmd | apply keeps_complete | apply keeps_foldl | apply keepsO_next

theorem keeps_execSync {z : State} {rk seq : Nat} {s : State} (h_s : Keeps z s) : KeepsO z (execSync rk seq s) := by
  unfold execSync
  with_reducible
  repeat' first
    | assumption | exact Keeps.refl _ | (simp only [keeps_upd_iff]) | split | apply keeps_runCmd
    | apply keeps_complete | apply keeps_foldl | apply keepsO_next | intro _

theorem keeps_execHostNop {z : State} {rk seq : Nat} {s : State} (h_s : Keeps z s) : KeepsO z (execHostNop rk seq s) := by
  unfold execHostNop
  with_reducible
  repeat' first
    | assumption | exact Keeps.refl _ | (simp only [keeps_upd_iff]) | split | apply keeps_runCmd
    | apply keeps_complete | apply keeps_foldl | apply keepsO_next | intro _

end Sys2Proof.Machine
end

