-- ==== Sys2Proof/Laws/KeepsSend.lean ====
section
/-! SUPPORT. Every operation of Machine/Send.lean answers a state that may follow its own (`Keeps`). -/

set_option linter.unusedTactic false
set_option linter.unreachableTactic false
set_option linter.unusedVariables false
set_option linter.unusedSimpArgs false

namespace Sys2Proof.Machine

open Sys2Proof

theorem keeps_loseEvents {z : State} {s : State} {v : Volley} {c : Code} {rep : Coord} (h_s : Keeps z s) : Keeps z (State.loseEvents s v c rep) := by
  unfold State.loseEvents
  with_reducible
  repeat' first
    | assumption | exact Keeps.refl _ | (simp only [keeps_upd_iff]) | split

theorem keeps_countSent {z : State} {s : State} {st : Nat} {v : Volley} (h_s : Keeps z s) : Keeps z (State.countSent s st v) := by
  unfold State.countSent
  with_reducible
  repeat' first
    | assumption | exact Keeps.refl _ | (simp only [keeps_upd_iff]) | split

theorem keeps_countRecv {z : State} {s : State} {st : Nat} {v : Volley} (h_s : Keeps z s) : Keeps z (State.countRecv s st v) := by
  unfold State.countRecv
  with_reducible
  repeat' first
    | assumption | exact Keeps.refl _ | (simp only [keeps_upd_iff]) | split

theorem keeps_enqueue {z : State} {s : State} {px py inp : Nat} {v : Volley} (h_s : Keeps z s) : Keeps z (State.enqueue s px py inp v) := by
  unfold State.enqueue
  with_reducible
  repeat' first
    | assumption | exact Keeps.refl _ | (simp only [keeps_upd_iff])

theorem keeps_countMark {z : State} {s : State} {k : Nat} {v : Volley} (h_s : Keeps z s) : Keeps z (State.countMark s k v) := by
  unfold State.countMark
  with_reducible
  repeat' first
    | assumption | exact Keeps.refl _ | (simp only [keeps_upd_iff]) | split | apply keeps_modTile

theorem keeps_deliver {z : State} {s : State} {k : Nat} {v : Volley} (h_s : Keeps z s) : Keeps z (State.deliver s k v) := by
  unfold State.deliver
  with_reducible
  repeat' first
    | assumption | exact Keeps.refl _ | (simp only [keeps_upd_iff]) | split | apply keeps_wakeDom
    | apply keeps_countMark

theorem keeps_spanSend {z : State} {s : State} {k : Nat} {v : Volley} (h_s : Keeps z s) : Keeps z (State.spanSend s k v) := by
  unfold State.spanSend
  with_reducible
  repeat' first
    | assumption | exact Keeps.refl _ | (simp only [keeps_upd_iff]) | split | apply keeps_loseEvents
    | apply keeps_modSpan | apply keeps_modDom | apply keeps_recordWake | apply keeps_foldl | apply keepsO_next
    | intro _ | (dsimp only)

theorem keeps_toHub {z : State} {s : State} {v : Volley} (h_s : Keeps z s) : Keeps z (State.toHub s v) := by
  unfold State.toHub
  with_reducible
  repeat' first
    | assumption | exact Keeps.refl _ | (simp only [keeps_upd_iff]) | split | apply keeps_countRecv
    | apply keeps_deliver | apply keeps_spanSend | apply keeps_loseEvents

theorem keeps_inject {z : State} {s : State} {k : Nat} {v : Volley} (h_s : Keeps z s) : Keeps z (State.inject s k v) := by
  unfold State.inject
  with_reducible
  repeat' first
    | assumption | exact Keeps.refl _ | split | apply keeps_countSent | apply keeps_enqueue | apply keeps_modTile
    | apply keeps_wakeDom | apply keeps_toHub

theorem keeps_modPace {z : State} {s : State} {k : Nat} {f : Pace → Pace} (h_s : Keeps z s) : Keeps z (State.modPace s k f) := by
  unfold State.modPace
  with_reducible
  repeat' first
    | assumption | exact Keeps.refl _ | (simp only [keeps_upd_iff]) | split | apply keeps_modTile

theorem keeps_paced {z : State} {s : State} {k : Nat} {v : Volley} (h_s : Keeps z s) : Keeps z (State.paced s k v) := by
  unfold State.paced
  with_reducible
  repeat' first
    | assumption | exact Keeps.refl _ | (simp only [keeps_upd_iff]) | split | apply keeps_inject | apply keeps_modPace
    | apply keeps_foldl | apply keepsO_next | intro _ | (dsimp only)

theorem keeps_send {z : State} {s : State} {k : Nat} {v : Volley} (h_s : Keeps z s) : Keeps z (State.send s k v) := by
  unfold State.send
  with_reducible
  repeat' first
    | assumption | exact Keeps.refl _ | (simp only [keeps_upd_iff]) | split | apply keeps_loseEvents
    | apply keeps_paced

theorem keeps_drainPace {z : State} {s : State} {k : Nat} {ind : Nat} (h_s : Keeps z s) : Keeps z (State.drainPace s k ind) := by
  induction ind generalizing s k with
  | zero => unfold State.drainPace; exact h_s
  | succ ind ih =>
    unfold State.drainPace
    with_reducible
    repeat' first
      | assumption | apply ih | exact Keeps.refl _ | (simp only [keeps_upd_iff]) | split | apply keeps_modPace
      | apply keeps_inject | apply keeps_foldl | apply keepsO_next | intro _ | (dsimp only)

theorem keeps_toRoot {z : State} {s : State} {src st : Nat} {c : Ctl} (h_s : Keeps z s) : Keeps z (State.toRoot s src st c) := by
  unfold State.toRoot
  with_reducible
  repeat' first
    | assumption | exact Keeps.refl _ | split | apply keeps_inject

theorem keeps_fromRoot {z : State} {s : State} {st dstX : Nat} {c : Ctl} (h_s : Keeps z s) : Keeps z (State.fromRoot s st dstX c) := by
  unfold State.fromRoot
  with_reducible
  repeat' first
    | assumption | exact Keeps.refl _ | split | apply keeps_countSent | apply keeps_enqueue

theorem keeps_sendOpen {z : State} {s : State} {t : Nat} {o : OpenVolley} (h_s : Keeps z s) : Keeps z (State.sendOpen s t o) := by
  unfold State.sendOpen
  with_reducible
  repeat' first
    | assumption | exact Keeps.refl _ | split | apply keeps_modTile | apply keeps_send

theorem keeps_flushOpen {z : State} {s : State} {t : Nat} {p : OpenVolley → Bool} (h_s : Keeps z s) : Keeps z (State.flushOpen s t p) := by
  unfold State.flushOpen
  with_reducible
  repeat' first
    | assumption | exact Keeps.refl _ | split | apply keeps_modTile | apply keeps_sendOpen | apply keeps_foldl
    | apply keepsO_next | intro _

theorem keeps_addWord {z : State} {s : State} {t : Nat} {e : DWord} {w tau value : Nat} {ep : Bool} (h_s : Keeps z s) : Keeps z (State.addWord s t e w tau value ep) := by
  unfold State.addWord
  with_reducible
  repeat' first
    | assumption | exact Keeps.refl _ | split | apply keeps_flushOpen | apply keeps_modTile | apply keeps_sendOpen

theorem keeps_fanEmit {z : State} {s : State} {t w n tau value : Nat} (h_s : Keeps z s) : Keeps z (State.fanEmit s t w n tau value) := by
  unfold State.fanEmit
  with_reducible
  repeat' first
    | assumption | exact Keeps.refl _ | split | apply keeps_addWord | apply keeps_wakeBank | apply keeps_foldl
    | apply keepsO_next | intro _

theorem keeps_emission {z : State} {s : State} {t w n tau value : Nat} (h_s : Keeps z s) : Keeps z (State.emission s t w n tau value) := by
  unfold State.emission
  with_reducible
  repeat' first
    | assumption | exact Keeps.refl _ | (simp only [keeps_upd_iff]) | split | apply keeps_modTile
    | apply keeps_fanEmit

theorem keeps_unstall {z : State} {s : State} {t : Nat} {ind : Nat} (h_s : Keeps z s) : Keeps z (State.unstall s t ind) := by
  induction ind generalizing s t with
  | zero => unfold State.unstall; exact h_s
  | succ ind ih =>
    unfold State.unstall
    with_reducible
    repeat' first
      | assumption | apply ih | exact Keeps.refl _ | (simp only [keeps_upd_iff]) | split | apply keeps_modTile
      | apply keeps_fanEmit

theorem keeps_sendNotice {z : State} {s : State} {t g : Nat} (h_s : Keeps z s) : Keeps z (State.sendNotice s t g) := by
  unfold State.sendNotice
  with_reducible
  repeat' first
    | assumption | exact Keeps.refl _ | split | apply keeps_flushOpen | apply keeps_send | apply keeps_modTile
    | apply keeps_foldl | apply keepsO_next | intro _

theorem keeps_noticeGroup {z : State} {s : State} {g : Nat} (h_s : Keeps z s) : Keeps z (State.noticeGroup s g) := by
  unfold State.noticeGroup
  with_reducible
  repeat' first
    | assumption | exact Keeps.refl _ | (simp only [keeps_upd_iff]) | split | apply keeps_sendNotice
    | apply keeps_foldl | apply keepsO_next | intro _

theorem keeps_hubNotice {z : State} {s : State} {k g : Nat} (h_s : Keeps z s) : Keeps z (State.hubNotice s k g) := by
  unfold State.hubNotice
  with_reducible
  repeat' first
    | assumption | exact Keeps.refl _ | split | apply keeps_send | apply keeps_foldl | apply keepsO_next | intro _

theorem keeps_hubNotices {z : State} {s : State} {g : Nat} (h_s : Keeps z s) : Keeps z (State.hubNotices s g) := by
  unfold State.hubNotices
  with_reducible
  repeat' first
    | assumption | exact Keeps.refl _ | split | apply keeps_hubNotice | apply keeps_foldl | apply keepsO_next
    | intro _

theorem keeps_takeInbox {z s t : State} {k : Nat} {q : Volley → Bool} {v : Volley} (h_s : Keeps z s)
    (e : State.takeInbox s k q = some (v, t)) : Keeps z t := by
  unfold State.takeInbox at e
  split at e
  · cases e; simpa only [keeps_upd_iff] using h_s
  · cases e

theorem keeps_takeMail {z s t : State} {q : Mail → Bool} {v : Mail} (h_s : Keeps z s)
    (e : State.takeMail s q = some (v, t)) : Keeps z t := by
  unfold State.takeMail at e
  split at e
  · cases e; simpa only [keeps_upd_iff] using h_s
  · cases e

theorem keeps_post {z : State} {s : State} {dst : Nat} {b : MailBody} (h_s : Keeps z s) : Keeps z (State.post s dst b) := by
  unfold State.post
  with_reducible
  repeat' first
    | assumption | exact Keeps.refl _ | (simp only [keeps_upd_iff])

end Sys2Proof.Machine
end

