-- ==== Sys2Proof/Laws/KeepsOutputs.lean ====
section
/-! SUPPORT. Every operation of Machine/Outputs.lean answers a state that may follow its own (`Keeps`). -/

set_option linter.unusedTactic false
set_option linter.unreachableTactic false
set_option linter.unusedVariables false
set_option linter.unusedSimpArgs false

namespace Sys2Proof.Machine

open Sys2Proof

theorem keeps_eachOut {z : State} {s : State} {q : OutDesc → Bool} {f : Port → Nat → OutDesc → Port} (h_s : Keeps z s) : Keeps z (State.eachOut s q f) := by
  unfold State.eachOut
  with_reducible
  repeat' first
    | assumption | exact Keeps.refl _ | (simp only [keeps_upd_iff])

theorem keeps_outsWorldSafe {z : State} {s : State} {w : Nat} (h_s : Keeps z s) : Keeps z (State.outsWorldSafe s w) := by
  unfold State.outsWorldSafe
  with_reducible
  repeat' first
    | assumption | exact Keeps.refl _ | (simp only [keeps_upd_iff]) | split | apply keeps_eachOut

theorem keeps_armPort {z : State} {s : State} {n : Nat} {q : OutDesc → Bool} (h_s : Keeps z s) : Keeps z (State.armPort s n q) := by
  unfold State.armPort
  with_reducible
  repeat' first
    | assumption | exact Keeps.refl _ | (simp only [keeps_upd_iff]) | split | apply keeps_modPort | apply keeps_foldl
    | apply keepsO_next | intro _

theorem keeps_armWorld {z : State} {s : State} {w : Nat} (h_s : Keeps z s) : Keeps z (State.armWorld s w) := by
  unfold State.armWorld
  with_reducible
  repeat' first
    | assumption | exact Keeps.refl _ | (simp only [keeps_upd_iff]) | split | apply keeps_armPort | apply keeps_foldl
    | apply keepsO_next | intro _

theorem keeps_addIntake {z : State} {s : State} {w tau k : Nat} (h_s : Keeps z s) : Keeps z (State.addIntake s w tau k) := by
  unfold State.addIntake
  with_reducible
  repeat' first
    | assumption | exact Keeps.refl _ | (simp only [keeps_upd_iff]) | split | apply keeps_modWorld | apply keeps_foldl
    | apply keepsO_next | intro _ | (dsimp only)

theorem keeps_portDrain {z : State} {s : State} {n : Nat} {ind : Nat} (h_s : Keeps z s) : Keeps z (State.portDrain s n ind) := by
  induction ind generalizing s n with
  | zero => unfold State.portDrain; exact h_s
  | succ ind ih =>
    unfold State.portDrain
    with_reducible
    repeat' first
      | assumption | apply ih | exact Keeps.refl _ | (simp only [keeps_upd_iff]) | split | apply keeps_modPort
      | apply keeps_send | apply keeps_foldl | apply keepsO_next | intro _ | (dsimp only)

theorem keeps_portFlush {z : State} {s : State} {n : Nat} (h_s : Keeps z s) : Keeps z (State.portFlush s n) := by
  unfold State.portFlush
  with_reducible
  repeat' first
    | assumption | exact Keeps.refl _ | split | apply keeps_send | apply keeps_modPort | apply keeps_foldl
    | apply keepsO_next | intro _

theorem keeps_portQueue {z : State} {s : State} {n : Nat} {e : DWord} {w value : Nat} (h_s : Keeps z s) : Keeps z (State.portQueue s n e w value) := by
  unfold State.portQueue
  with_reducible
  repeat' first
    | assumption | exact Keeps.refl _ | (simp only [keeps_upd_iff]) | split | apply keeps_modPort
    | apply keeps_portDrain | apply keeps_addIntake | apply keeps_pushLoss | apply keeps_foldl | apply keepsO_next
    | intro _ | (dsimp only)

theorem keeps_lockQueue {z : State} {s : State} {ep ch : Nat} {e : DWord} {w tau value : Nat} (h_s : Keeps z s) : Keeps z (State.lockQueue s ep ch e w tau value) := by
  unfold State.lockQueue
  with_reducible
  repeat' first
    | assumption | exact Keeps.refl _ | (simp only [keeps_upd_iff]) | split

theorem keeps_portEvent {z : State} {s : State} {n ch : Nat} {e : DWord} {w off value : Nat} (h_s : Keeps z s) : Keeps z (State.portEvent s n ch e w off value) := by
  unfold State.portEvent
  with_reducible
  repeat' first
    | assumption | exact Keeps.refl _ | (simp only [keeps_upd_iff]) | split | apply keeps_lockQueue
    | apply keeps_portQueue

theorem keeps_capture {z : State} {s : State} {n ch value : Nat} (h_s : Keeps z s) : Keeps z (State.capture s n ch value) := by
  unfold State.capture
  with_reducible
  repeat' first
    | assumption | exact Keeps.refl _ | (simp only [keeps_upd_iff]) | split | apply keeps_wakeDom
    | apply keeps_modPort | apply keeps_portEvent | apply keeps_foldl | apply keepsO_next | intro _ | (dsimp only)

theorem keeps_captures {z : State} {s : State} {n first : Nat} {ind : List Byte} (h_s : Keeps z s) : Keeps z (State.captures s n first ind) := by
  induction ind generalizing s n first with
  | nil => unfold State.captures; exact h_s
  | cons b1 ind ih =>
    unfold State.captures
    with_reducible
    repeat' first
      | assumption | apply ih | exact Keeps.refl _ | (simp only [keeps_upd_iff]) | split | apply keeps_capture

theorem keeps_lostEvents {z : State} {s : State} {n : Nat} {found : Bool} (h_s : Keeps z s) : Keeps z (State.lostEvents s n found) := by
  unfold State.lostEvents
  with_reducible
  repeat' first
    | assumption | exact Keeps.refl _ | (simp only [keeps_upd_iff]) | split | apply keeps_portEvent
    | apply keeps_foldl | apply keepsO_next | intro _ | (dsimp only)

theorem keeps_portRecord {z : State} {s : State} {n cause : Nat} (h_s : Keeps z s) : Keeps z (State.portRecord s n cause) := by
  unfold State.portRecord
  with_reducible
  repeat' first
    | assumption | exact Keeps.refl _ | split | apply keeps_modPort | apply keeps_postRecord

theorem keeps_detach {z : State} {s : State} {n : Nat} {cause : Nat} (h_s : Keeps z s) : Keeps z (State.detach s n cause) := by
  unfold State.detach
  with_reducible
  repeat' first
    | assumption | exact Keeps.refl _ | split | apply keeps_modPort | apply keeps_portFlush | apply keeps_lostEvents
    | apply keeps_eachOut | apply keeps_portRecord

theorem keeps_attach {z : State} {s : State} {n : Nat} (h_s : Keeps z s) : Keeps z (State.attach s n) := by
  unfold State.attach
  with_reducible
  repeat' first
    | assumption | exact Keeps.refl _ | split | apply keeps_modPort | apply keeps_lostEvents | apply keeps_armPort
    | apply keeps_portRecord

theorem keeps_enumerate {z : State} {s : State} {n cause : Nat} (h_s : Keeps z s) : Keeps z (State.enumerate s n cause) := by
  unfold State.enumerate
  with_reducible
  repeat' first
    | assumption | exact Keeps.refl _ | (simp only [keeps_upd_iff]) | split | apply keeps_modPort
    | apply keeps_portRecord | apply keeps_attach | apply keeps_foldl | apply keepsO_next | intro _ | (dsimp only)

theorem keeps_enumFailed {z : State} {s : State} {n : Nat} (h_s : Keeps z s) : Keeps z (State.enumFailed s n) := by
  unfold State.enumFailed
  with_reducible
  repeat' first
    | assumption | exact Keeps.refl _ | (simp only [keeps_upd_iff]) | split | apply keeps_modPort
    | apply keeps_portRecord

theorem keeps_portResume {z : State} {s : State} {n : Nat} (h_s : Keeps z s) : Keeps z (State.portResume s n) := by
  unfold State.portResume
  with_reducible
  repeat' first
    | assumption | exact Keeps.refl _ | (simp only [keeps_upd_iff]) | split | apply keeps_modPort
    | apply keeps_portRecord | apply keeps_enumerate | apply keeps_foldl | apply keepsO_next | intro _ | (dsimp only)

theorem keeps_portLeftovers {z : State} {s : State} {n : Nat} (h_s : Keeps z s) : Keeps z (State.portLeftovers s n) := by
  unfold State.portLeftovers
  with_reducible
  repeat' first
    | assumption | exact Keeps.refl _ | (simp only [keeps_upd_iff]) | split | apply keeps_pushLoss
    | apply keeps_loseEvents | apply keeps_modPort | apply keeps_modPace | apply keeps_foldl | apply keepsO_next
    | intro _

theorem keeps_portFence {z : State} {s : State} {n : Nat} (h_s : Keeps z s) : Keeps z (State.portFence s n) := by
  unfold State.portFence
  with_reducible
  repeat' first
    | assumption | exact Keeps.refl _ | split | apply keeps_portLeftovers | apply keeps_modPort | apply keeps_eachOut
    | apply keeps_portRecord

end Sys2Proof.Machine
end

