-- ==== Sys2Proof/Laws/KeepsPips.lean ====
section
/-! SUPPORT. Every operation of Machine/Pips.lean answers a state that may follow its own (`Keeps`). -/

set_option linter.unusedTactic false
set_option linter.unreachableTactic false
set_option linter.unusedVariables false
set_option linter.unusedSimpArgs false

namespace Sys2Proof.Machine

open Sys2Proof

theorem keeps_tracePip {z : State} {s : State} {n op m : Nat} {c : Code} (h_s : Keeps z s) : Keeps z (State.tracePip s n op m c) := by
  unfold State.tracePip
  with_reducible
  repeat' first
    | assumption | exact Keeps.refl _ | (simp only [keeps_upd_iff]) | split | apply keeps_traceHub

theorem keeps_wakeWaiters {z : State} {s : State} {n : Nat} (h_s : Keeps z s) : Keeps z (State.wakeWaiters s n) := by
  unfold State.wakeWaiters
  with_reducible
  repeat' first
    | assumption | exact Keeps.refl _ | (simp only [keeps_upd_iff]) | split | apply keeps_tracePip
    | apply keeps_postReserved | apply keeps_foldl | apply keepsO_next | intro _

theorem keeps_putPip {z : State} {s : State} {n : Nat} {p : Pip} (h_s : Keeps z s) : Keeps z (State.putPip s n p) := by
  unfold State.putPip
  with_reducible
  repeat' first
    | assumption | exact Keeps.refl _ | (simp only [keeps_upd_iff]) | split | apply keeps_wakeWaiters

theorem keeps_internalAdd {z : State} {s : State} {by_ n : Nat} {inc : Word} (h_s : Keeps z s) : Keeps z (State.internalAdd s by_ n inc) := by
  unfold State.internalAdd
  with_reducible
  repeat' first
    | assumption | exact Keeps.refl _ | (simp only [keeps_upd_iff]) | split | apply keeps_tracePip
    | apply keeps_putPip | apply keeps_pushLoss

theorem keeps_pipRes {z : State} {s : State} {m : Nat} {c : Code} {op : Nat} (h_s : Keeps z s) : Keeps z (State.pipRes s m c op) := by
  unfold State.pipRes
  with_reducible
  repeat' first
    | assumption | exact Keeps.refl _ | (simp only [keeps_upd_iff]) | split | apply keeps_tracePip
    | apply keeps_modMaster | apply keeps_respond

theorem keeps_pipOp {z : State} {m off op : Nat} {need : Right} {f : State → Nat → State × Code} {s : State} (h_f : ∀ t0 t1, Keeps t0 (f t0 t1).1) (h_s : Keeps z s) : KeepsO z (pipOp m off op need f s) := by
  unfold pipOp
  with_reducible
  repeat' first
    | assumption | (refine Keeps.trans ?_ (h_f ..)) | exact Keeps.refl _ | split | apply keeps_refuse
    | apply keeps_pipRes | apply keeps_foldl | apply keepsO_next

theorem keeps_execPipAdd {z : State} {m : Nat} {v : Word} {s : State} (h_s : Keeps z s) : KeepsO z (execPipAdd m v s) := by
  unfold execPipAdd
  with_reducible
  repeat' first
    | assumption | exact Keeps.refl _ | split | apply keeps_pipOp | apply keeps_putPip | apply keeps_foldl
    | apply keepsO_next | intro _

theorem keeps_execPipSet {z : State} {m : Nat} {v : Word} {s : State} (h_s : Keeps z s) : KeepsO z (execPipSet m v s) := by
  unfold execPipSet
  with_reducible
  repeat' first
    | assumption | exact Keeps.refl _ | split | apply keeps_pipOp | apply keeps_putPip | apply keeps_foldl
    | apply keepsO_next | intro _

theorem keeps_execPipTrysub {z : State} {m : Nat} {v : Word} {s : State} (h_s : Keeps z s) : KeepsO z (execPipTrysub m v s) := by
  unfold execPipTrysub
  with_reducible
  repeat' first
    | assumption | exact Keeps.refl _ | (simp only [keeps_upd_iff]) | split | apply keeps_pipOp | apply keeps_putPip
    | apply keeps_foldl | apply keepsO_next | intro _ | (dsimp only)

theorem keeps_register {z : State} {s : State} {m n cond : Nat} {value : Word} (h_s : Keeps z s) : Keeps z (State.register s m n cond value) := by
  unfold State.register
  with_reducible
  repeat' first
    | assumption | exact Keeps.refl _ | (simp only [keeps_upd_iff]) | split | apply keeps_modRack

theorem keeps_execPipArrive {z : State} {m : Nat} {v : Word} {s : State} (h_s : Keeps z s) : KeepsO z (execPipArrive m v s) := by
  unfold execPipArrive
  with_reducible
  repeat' first
    | assumption | exact Keeps.refl _ | (simp only [keeps_upd_iff]) | split | apply keeps_pipOp | apply keeps_register
    | apply keeps_putPip | apply keeps_foldl | apply keepsO_next | intro _ | (dsimp only)

theorem keeps_execPipWait {z : State} {m : Nat} {v : Word} {s : State} (h_s : Keeps z s) : KeepsO z (execPipWait m v s) := by
  unfold execPipWait
  with_reducible
  repeat' first
    | assumption | exact Keeps.refl _ | split | apply keeps_pipOp | apply keeps_register | apply keeps_wakeWaiters
    | apply keeps_foldl | apply keepsO_next | intro _

theorem keeps_execPipCancel {z : State} {m : Nat} {v : Word} {s : State} (h_s : Keeps z s) : KeepsO z (execPipCancel m v s) := by
  unfold execPipCancel
  with_reducible
  repeat' first
    | assumption | exact Keeps.refl _ | (simp only [keeps_upd_iff]) | split | apply keeps_pipOp | apply keeps_modRack
    | apply keeps_foldl | apply keepsO_next | intro _

theorem keeps_pipConfig {z : State} {f : Pip → Pip} {s : State} {n : Nat} (h_s : Keeps z s) : Keeps z (pipConfig f s n).1 := by
  unfold pipConfig
  with_reducible
  repeat' first
    | assumption | exact Keeps.refl _ | (simp only [keeps_upd_iff]) | split | apply keeps_putPip | apply keeps_foldl
    | apply keepsO_next | intro _ | (dsimp only)

theorem keeps_execPipTarget {z : State} {m : Nat} {v : Word} {s : State} (h_s : Keeps z s) : KeepsO z (execPipTarget m v s) := by
  unfold execPipTarget
  with_reducible
  repeat' first
    | assumption | exact Keeps.refl _ | (simp only [keeps_upd_iff]) | split | apply keeps_pipOp
    | apply keeps_pipConfig | apply keeps_foldl | apply keepsO_next | intro _

theorem keeps_execPipMode {z : State} {m : Nat} {v : Word} {s : State} (h_s : Keeps z s) : KeepsO z (execPipMode m v s) := by
  unfold execPipMode
  with_reducible
  repeat' first
    | assumption | exact Keeps.refl _ | (simp only [keeps_upd_iff]) | split | apply keeps_pipOp
    | apply keeps_pipConfig | apply keeps_foldl | apply keepsO_next | intro _

theorem keeps_execPipOvfClear {z : State} {m : Nat} {v : Word} {s : State} (h_s : Keeps z s) : KeepsO z (execPipOvfClear m v s) := by
  unfold execPipOvfClear
  with_reducible
  repeat' first
    | assumption | exact Keeps.refl _ | (simp only [keeps_upd_iff]) | split | apply keeps_pipOp
    | apply keeps_pipConfig | apply keeps_foldl | apply keepsO_next | intro _

end Sys2Proof.Machine
end

