-- ==== Sys2Proof/Laws/KeepsRecords.lean ====
section
/-! SUPPORT. Every operation of Machine/Records.lean answers a state that may follow its own (`Keeps`). -/

set_option linter.unusedTactic false
set_option linter.unreachableTactic false
set_option linter.unusedVariables false
set_option linter.unusedSimpArgs false

namespace Sys2Proof.Machine

open Sys2Proof

theorem keeps_writeRec {z : State} {s : State} {t : Nat} {b : Block} {a : Nat} {r : BitVec 128} (h_s : Keeps z s) : Keeps z (State.writeRec s t b a r) := by
  unfold State.writeRec
  with_reducible
  repeat' first
    | assumption | exact Keeps.refl _ | split | apply keeps_colWrite | apply keeps_modTile

theorem keeps_startRecords {z : State} {s : State} {t w anchor : Nat} (h_s : Keeps z s) : Keeps z (State.startRecords s t w anchor) := by
  unfold State.startRecords
  with_reducible
  repeat' first
    | assumption | exact Keeps.refl _ | split | apply keeps_writeRec | apply keeps_foldl | apply keepsO_next | intro _

theorem keeps_sweepRecords {z : State} {s : State} {t w notice : Nat} (h_s : Keeps z s) : Keeps z (State.sweepRecords s t w notice) := by
  unfold State.sweepRecords
  with_reducible
  repeat' first
    | assumption | exact Keeps.refl _ | (simp only [keeps_upd_iff]) | split | apply keeps_writeRec
    | apply keeps_pushLoss | apply keeps_foldl | apply keepsO_next | intro _ | (dsimp only)

end Sys2Proof.Machine
end

