-- ==== Sys2Proof/Laws/KeepsWorlds.lean ====
section
/-! SUPPORT. Every operation of Machine/Worlds.lean answers a state that may follow its own (`Keeps`). -/

set_option linter.unusedTactic false
set_option linter.unreachableTactic false
set_option linter.unusedVariables false
set_option linter.unusedSimpArgs false

namespace Sys2Proof.Machine

open Sys2Proof

theorem keeps_ageNotice {z : State} {s : State} {w notice : Nat} (h_s : Keeps z s) : Keeps z (State.ageNotice s w notice) := by
  unfold State.ageNotice
  with_reducible
  repeat' first
    | assumption | exact Keeps.refl _ | (simp only [keeps_upd_iff]) | split | apply keeps_toRoot
    | apply keeps_modWorld | apply keeps_foldl | apply keepsO_next | intro _ | (dsimp only)

theorem keeps_grantRoot {z : State} {s : State} {w st : Nat} (h_s : Keeps z s) : Keeps z (State.grantRoot s w st) := by
  unfold State.grantRoot
  with_reducible
  repeat' first
    | assumption | exact Keeps.refl _ | (simp only [keeps_upd_iff]) | split | apply keeps_toRoot

theorem keeps_hubEmitAt {z : State} {s : State} {g n a b k : Nat} (h_s : Keeps z s) : Keeps z (State.hubEmitAt s g n a b k) := by
  unfold State.hubEmitAt
  with_reducible
  repeat' first
    | assumption | exact Keeps.refl _ | (simp only [keeps_upd_iff]) | split | apply keeps_modPort | apply keeps_send
    | apply keeps_foldl | apply keepsO_next | intro _

theorem keeps_hubEmit {z : State} {s : State} {g : Nat} {ind : Nat} (h_s : Keeps z s) : Keeps z (State.hubEmit s g ind) := by
  induction ind generalizing s g with
  | zero => unfold State.hubEmit; exact h_s
  | succ ind ih =>
    unfold State.hubEmit
    with_reducible
    repeat' first
      | assumption | apply ih | exact Keeps.refl _ | (simp only [keeps_upd_iff]) | split | apply keeps_hubEmitAt
      | apply keeps_modWorld | apply keeps_foldl | apply keepsO_next | intro _ | (dsimp only)

theorem keeps_afterT {z : State} {s : State} {w old : Nat} (h_s : Keeps z s) : Keeps z (State.afterT s w old) := by
  unfold State.afterT
  with_reducible
  repeat' first
    | assumption | exact Keeps.refl _ | (simp only [keeps_upd_iff]) | split | apply keeps_grantRoot
    | apply keeps_ageNotice | apply keeps_hubNotices | apply keeps_hubEmit | apply keeps_foldl | apply keepsO_next
    | intro _ | (dsimp only)

theorem keeps_moveT {z : State} {s : State} {w : Nat} (h_s : Keeps z s) : Keeps z (State.moveT s w) := by
  unfold State.moveT
  with_reducible
  repeat' first
    | assumption | exact Keeps.refl _ | split | apply keeps_modWorld | apply keeps_afterT

theorem keeps_worldRecord {z : State} {s : State} {w kind : Nat} {body : List DWord} (h_s : Keeps z s) : Keeps z (State.worldRecord s w kind body) := by
  unfold State.worldRecord
  with_reducible
  repeat' first
    | assumption | exact Keeps.refl _ | (simp only [keeps_upd_iff]) | split | apply keeps_postRecord

theorem keeps_stillUpdates {z : State} {s : State} {ts : List Nat} (h_s : Keeps z s) : Keeps z (State.stillUpdates s ts) := by
  unfold State.stillUpdates
  with_reducible
  repeat' first
    | assumption | exact Keeps.refl _ | (simp only [keeps_upd_iff]) | split | apply keeps_updateStart
    | apply keeps_foldl | apply keepsO_next | intro _

theorem keeps_runningChanged {z : State} {s : State} {w : Nat} (h_s : Keeps z s) : Keeps z (State.runningChanged s w) := by
  unfold State.runningChanged
  with_reducible
  repeat' first
    | assumption | exact Keeps.refl _ | (simp only [keeps_upd_iff]) | split | apply keeps_noticeGroup
    | apply keeps_hubNotices | apply keeps_hubEmit | apply keeps_stillUpdates

theorem keeps_parkCore {z : State} {s : State} {w cause : Nat} (h_s : Keeps z s) : Keeps z (State.parkCore s w cause) := by
  unfold State.parkCore
  with_reducible
  repeat' first
    | assumption | exact Keeps.refl _ | (simp only [keeps_upd_iff]) | split | apply keeps_modWorld
    | apply keeps_outsWorldSafe | apply keeps_worldRecord | apply keeps_runningChanged | apply keeps_foldl
    | apply keepsO_next | intro _ | (dsimp only)

theorem keeps_parkFollowers {z : State} {s : State} {w : Nat} (h_s : Keeps z s) : Keeps z (State.parkFollowers s w) := by
  unfold State.parkFollowers
  with_reducible
  repeat' first
    | assumption | exact Keeps.refl _ | (simp only [keeps_upd_iff]) | split | apply keeps_parkCore | apply keeps_foldl
    | apply keepsO_next | intro _

theorem keeps_parkWorld {z : State} {s : State} {w cause : Nat} (h_s : Keeps z s) : Keeps z (State.parkWorld s w cause) := by
  unfold State.parkWorld
  with_reducible
  repeat' first
    | assumption | exact Keeps.refl _ | (simp only [keeps_upd_iff]) | split | apply keeps_parkCore
    | apply keeps_parkFollowers

theorem keeps_judgeLag {z : State} {s : State} {w : Nat} (h_s : Keeps z s) : Keeps z (State.judgeLag s w) := by
  unfold State.judgeLag
  with_reducible
  repeat' first
    | assumption | exact Keeps.refl _ | (simp only [keeps_upd_iff]) | split | apply keeps_modWorld
    | apply keeps_worldRecord | apply keeps_parkCore | apply keeps_foldl | apply keepsO_next | intro _ | (dsimp only)

theorem keeps_applyAdvance {z : State} {s : State} {w adv : Nat} (h_s : Keeps z s) : Keeps z (State.applyAdvance s w adv) := by
  unfold State.applyAdvance
  with_reducible
  repeat' first
    | assumption | exact Keeps.refl _ | (simp only [keeps_upd_iff]) | split | apply keeps_parkCore
    | apply keeps_modWorld | apply keeps_moveT | apply keeps_judgeLag

theorem keeps_inputCore {z : State} {s : State} {w u : Nat} (h_s : Keeps z s) : Keeps z (State.inputCore s w u) := by
  unfold State.inputCore
  with_reducible
  repeat' first
    | assumption | exact Keeps.refl _ | (simp only [keeps_upd_iff]) | split | apply keeps_wakeDom
    | apply keeps_modWorld | apply keeps_applyAdvance | apply keeps_foldl | apply keepsO_next | intro _ | (dsimp only)

theorem keeps_toPeer {z : State} {s : State} {lk : Nat} {c : Ctl} (h_s : Keeps z s) : Keeps z (State.toPeer s lk c) := by
  unfold State.toPeer
  with_reducible
  repeat' first
    | assumption | exact Keeps.refl _ | (simp only [keeps_upd_iff]) | split | apply keeps_spanSend

theorem keeps_follow {z : State} {s : State} {w inc : Nat} (h_s : Keeps z s) : Keeps z (State.follow s w inc) := by
  unfold State.follow
  with_reducible
  repeat' first
    | assumption | exact Keeps.refl _ | split | apply keeps_toPeer | apply keeps_inputCore | apply keeps_foldl
    | apply keepsO_next | intro _

theorem keeps_afterPark {z : State} {s0 s : State} {w : Nat} (h_s0 : Keeps z s0) (h_s : Keeps z s) : Keeps z (State.afterPark s0 s w) := by
  unfold State.afterPark
  with_reducible
  repeat' first
    | assumption | exact Keeps.refl _ | (simp only [keeps_upd_iff]) | split | apply keeps_parkFollowers

theorem keeps_input {z : State} {s : State} {w u : Nat} (h_s : Keeps z s) : Keeps z (State.input s w u) := by
  unfold State.input
  with_reducible
  repeat' first
    | assumption | exact Keeps.refl _ | split | apply keeps_inputCore | apply keeps_afterPark | apply keeps_follow

theorem keeps_hostAdvance {z : State} {s : State} {m w delta : Nat} (h_s : Keeps z s) : Keeps z (State.hostAdvance s m w delta).1 := by
  unfold State.hostAdvance
  with_reducible
  repeat' first
    | assumption | exact Keeps.refl _ | (simp only [keeps_upd_iff]) | split | apply keeps_modWorld
    | apply keeps_wakeDom | apply keeps_parkWorld | apply keeps_moveT | apply keeps_follow | apply keeps_foldl
    | apply keepsO_next | intro _ | (dsimp only)

theorem keeps_closeTurn {z : State} {s : State} {w : Nat} (h_s : Keeps z s) : Keeps z (State.closeTurn s w) := by
  unfold State.closeTurn
  with_reducible
  repeat' first
    | assumption | exact Keeps.refl _ | (simp only [keeps_upd_iff]) | split | apply keeps_modWorld

theorem keeps_openTurn {z : State} {s : State} {w : Nat} (h_s : Keeps z s) : Keeps z (State.openTurn s w) := by
  unfold State.openTurn
  with_reducible
  repeat' first
    | assumption | exact Keeps.refl _ | (simp only [keeps_upd_iff]) | split | apply keeps_modWorld

theorem keeps_boundaryUpdates {z : State} {s : State} {w : Nat} (h_s : Keeps z s) : Keeps z (State.boundaryUpdates s w) := by
  unfold State.boundaryUpdates
  with_reducible
  repeat' first
    | assumption | exact Keeps.refl _ | (simp only [keeps_upd_iff]) | split | apply keeps_updateStart
    | apply keeps_foldl | apply keepsO_next | intro _

theorem keeps_subscribePeer {z : State} {s : State} {w : Nat} (h_s : Keeps z s) : Keeps z (State.subscribePeer s w) := by
  unfold State.subscribePeer
  with_reducible
  repeat' first
    | assumption | exact Keeps.refl _ | (simp only [keeps_upd_iff]) | split | apply keeps_toPeer | apply keeps_foldl
    | apply keepsO_next | intro _ | (dsimp only)

theorem keeps_startTiles {z : State} {s : State} {w : Nat} (h_s : Keeps z s) : Keeps z (State.startTiles s w) := by
  unfold State.startTiles
  with_reducible
  repeat' first
    | assumption | exact Keeps.refl _ | (simp only [keeps_upd_iff]) | split | apply keeps_startRecords
    | apply keeps_modTile | apply keeps_modWorld | apply keeps_foldl | apply keepsO_next | intro _

theorem keeps_startWorld {z : State} {s : State} {w anchor : Nat} (h_s : Keeps z s) : Keeps z (State.startWorld s w anchor) := by
  unfold State.startWorld
  with_reducible
  repeat' first
    | assumption | exact Keeps.refl _ | (simp only [keeps_upd_iff]) | split | apply keeps_modWorld
    | apply keeps_hubEmit | apply keeps_startTiles | apply keeps_subscribePeer | apply keeps_runningChanged

theorem keeps_unparkWorld {z : State} {s : State} {w1 w2 : DWord} (h_s : Keeps z s) : Keeps z (State.unparkWorld s w1 w2) := by
  unfold State.unparkWorld
  with_reducible
  repeat' first
    | assumption | exact Keeps.refl _ | (simp only [keeps_upd_iff]) | split | apply keeps_modWorld
    | apply keeps_subscribePeer | apply keeps_armWorld | apply keeps_runningChanged | apply keeps_afterT
    | apply keeps_moveT | apply keeps_judgeLag | apply keeps_foldl | apply keepsO_next | intro _ | (dsimp only)

end Sys2Proof.Machine
end

