-- ==== Sys2Proof/Laws/KeepsLearn.lean ====
section
/-! SUPPORT. Every operation of Machine/Learn.lean answers a state that may follow its own (`Keeps`). -/

set_option linter.unusedTactic false
set_option linter.unreachableTactic false
set_option linter.unusedVariables false
set_option linter.unusedSimpArgs false

namespace Sys2Proof.Machine

open Sys2Proof

theorem keeps_putQuar {z : State} {s : State} {t u : Nat} (h_s : Keeps z s) : Keeps z (State.putQuar s t u) := by
  unfold State.putQuar
  with_reducible
  repeat' first
    | assumption | exact Keeps.refl _ | (simp only [keeps_upd_iff]) | split | apply keeps_colWrite | apply keeps_foldl
    | apply keepsO_next | intro _ | (dsimp only)

theorem keeps_autoFence {z : State} {s : State} {t u : Nat} (h_s : Keeps z s) : Keeps z (State.autoFence s t u) := by
  unfold State.autoFence
  with_reducible
  repeat' first
    | assumption | exact Keeps.refl _ | (simp only [keeps_upd_iff]) | split | apply keeps_stageUpdate
    | apply keeps_updateStart

theorem keeps_quarantine {z : State} {s : State} {t u0 : Nat} (h_s : Keeps z s) : Keeps z (State.quarantine s t u0) := by
  unfold State.quarantine
  with_reducible
  repeat' first
    | assumption | exact Keeps.refl _ | (simp only [keeps_upd_iff]) | split | apply keeps_modTile
    | apply keeps_putQuar | apply keeps_autoFence | apply keeps_postFault | apply keeps_foldl | apply keepsO_next
    | intro _ | (dsimp only)

theorem keeps_unitLost {z : State} {s : State} {t u kind : Nat} {ws : List (Nat × Nat)} (h_s : Keeps z s) : Keeps z (State.unitLost s t u kind ws) := by
  unfold State.unitLost
  with_reducible
  repeat' first
    | assumption | exact Keeps.refl _ | split | apply keeps_modTile | apply keeps_quarantine | apply keeps_pushLoss
    | apply keeps_foldl | apply keepsO_next | intro _

theorem keeps_unitRead {z : State} {s : State} {t u : Nat} (h_s : Keeps z s) : Keeps z (State.unitRead s t u) := by
  unfold State.unitRead
  with_reducible
  repeat' first
    | assumption | exact Keeps.refl _ | (simp only [keeps_upd_iff]) | split | apply keeps_modTile | apply keeps_foldl
    | apply keepsO_next | intro _ | (dsimp only)

theorem keeps_setSynapse {z : State} {s : State} {t u j v : Nat} (h_s : Keeps z s) : Keeps z (State.setSynapse s t u j v) := by
  unfold State.setSynapse
  with_reducible
  repeat' first
    | assumption | exact Keeps.refl _ | (simp only [keeps_upd_iff]) | split | apply keeps_colWrite

theorem keeps_setPlaneWord {z : State} {s : State} {t u j v : Nat} {ind : Nat} (h_s : Keeps z s) : Keeps z (State.setPlaneWord s t u j v ind) := by
  induction ind generalizing s t u j v with
  | zero => unfold State.setPlaneWord; exact h_s
  | succ ind ih =>
    unfold State.setPlaneWord
    with_reducible
    repeat' first
      | assumption | apply ih | exact Keeps.refl _ | (simp only [keeps_upd_iff]) | split | apply keeps_colWrite

theorem keeps_depWord {z : State} {s : State} {t w stamp u n j : Nat} (h_s : Keeps z s) : Keeps z (State.depWord s t w stamp u n j) := by
  unfold State.depWord
  with_reducible
  repeat' first
    | assumption | exact Keeps.refl _ | (simp only [keeps_upd_iff]) | split | apply keeps_colWrite | apply keeps_foldl
    | apply keepsO_next | intro _ | (dsimp only)

theorem keeps_depression {z : State} {s : State} {t w row stamp : Nat} (h_s : Keeps z s) : Keeps z (State.depression s t w row stamp) := by
  unfold State.depression
  with_reducible
  repeat' first
    | assumption | exact Keeps.refl _ | (simp only [keeps_upd_iff]) | split | apply keeps_unitLost
    | apply keeps_depWord | apply keeps_wakeBank | apply keeps_colWrite | apply keeps_modTile | apply keeps_foldl
    | apply keepsO_next | intro _ | (dsimp only)

theorem keeps_potWord {z : State} {s : State} {t w stamp v j row : Nat} {r : RuleSet} (h_s : Keeps z s) : Keeps z (State.potWord s t w stamp v j row r) := by
  unfold State.potWord
  with_reducible
  repeat' first
    | assumption | exact Keeps.refl _ | (simp only [keeps_upd_iff]) | split | apply keeps_setPlaneWord
    | apply keeps_foldl | apply keepsO_next | intro _ | (dsimp only)

theorem keeps_potentiation {z : State} {s : State} {t w n stamp : Nat} (h_s : Keeps z s) : Keeps z (State.potentiation s t w n stamp) := by
  unfold State.potentiation
  with_reducible
  repeat' first
    | assumption | exact Keeps.refl _ | (simp only [keeps_upd_iff]) | split | apply keeps_unitLost
    | apply keeps_potWord | apply keeps_wakeBank | apply keeps_modTile | apply keeps_foldl | apply keepsO_next
    | intro _ | (dsimp only)

theorem keeps_sweepTimes {z : State} {s : State} {t w notice : Nat} (h_s : Keeps z s) : Keeps z (State.sweepTimes s t w notice) := by
  unfold State.sweepTimes
  with_reducible
  repeat' first
    | assumption | exact Keeps.refl _ | (simp only [keeps_upd_iff]) | split | apply keeps_colWrite | apply keeps_foldl
    | apply keepsO_next | intro _ | (dsimp only)

theorem keeps_foldWord {z : State} {s : State} {t row l u j : Nat} (h_s : Keeps z s) : Keeps z (State.foldWord s t row l u j) := by
  unfold State.foldWord
  with_reducible
  repeat' first
    | assumption | exact Keeps.refl _ | split | apply keeps_setPlaneWord | apply keeps_colWrite

theorem keeps_rewriteWord {z : State} {s : State} {t row l u j v : Nat} (h_s : Keeps z s) : Keeps z (State.rewriteWord s t row l u j v) := by
  unfold State.rewriteWord
  with_reducible
  repeat' first
    | assumption | exact Keeps.refl _ | split | apply keeps_setSynapse | apply keeps_setPlaneWord

theorem keeps_consolWord {z : State} {s : State} {t row l u j : Nat} {extra : Nat × Nat} {g : Nat} (h_s : Keeps z s) : Keeps z (State.consolWord s t row l u j extra g) := by
  unfold State.consolWord
  with_reducible
  repeat' first
    | assumption | exact Keeps.refl _ | (simp only [keeps_upd_iff]) | split | apply keeps_rewriteWord
    | apply keeps_colWrite | apply keeps_modTile | apply keeps_foldl | apply keepsO_next | intro _ | (dsimp only)

end Sys2Proof.Machine
end

