-- ==== Sys2Proof/Laws/KeepsTileOps.lean ====
section
/-! SUPPORT. Every operation of Machine/TileOps.lean answers a state that may follow its own (`Keeps`). -/

set_option linter.unusedTactic false
set_option linter.unreachableTactic false
set_option linter.unusedVariables false
set_option linter.unusedSimpArgs false

namespace Sys2Proof.Machine

open Sys2Proof

theorem keeps_nondetAt {z : State} {s : State} {t w tau : Nat} (h_s : Keeps z s) : Keeps z (State.nondetAt s t w tau) := by
  unfold State.nondetAt
  with_reducible
  repeat' first
    | assumption | exact Keeps.refl _ | (simp only [keeps_upd_iff]) | split | apply keeps_modTile

theorem keeps_tileDrop {z : State} {s : State} {t w tau : Nat} {wheel lock : Bool} {src : Coord} {row : Nat} {item : LossItem} (h_s : Keeps z s) : Keeps z (State.tileDrop s t w tau wheel lock src row item) := by
  unfold State.tileDrop
  with_reducible
  repeat' first
    | assumption | exact Keeps.refl _ | (simp only [keeps_upd_iff]) | split | apply keeps_pushLoss
    | apply keeps_nondetAt | apply keeps_modTile | apply keeps_modWorld | apply keeps_traceTile | apply keeps_foldl
    | apply keepsO_next | intro _ | (dsimp only)

theorem keeps_contribute {z : State} {s : State} {t w row n seg due : Nat} {sum : Int} {lock : Bool} {src : Coord} (h_s : Keeps z s) : Keeps z (State.contribute s t w row n seg due sum lock src) := by
  unfold State.contribute
  with_reducible
  repeat' first
    | assumption | exact Keeps.refl _ | (simp only [keeps_upd_iff]) | split | apply keeps_pushLoss
    | apply keeps_modTile | apply keeps_tileDrop | apply keeps_foldl | apply keepsO_next | intro _ | (dsimp only)

theorem keeps_passWord {z : State} {s : State} {t row k u j : Nat} {e : DWord} {ev : Ev} (h_s : Keeps z s) : Keeps z (State.passWord s t row k u j e ev) := by
  unfold State.passWord
  with_reducible
  repeat' first
    | assumption | exact Keeps.refl _ | (simp only [keeps_upd_iff]) | split | apply keeps_contribute
    | apply keeps_foldl | apply keepsO_next | intro _ | (dsimp only)

theorem keeps_passSeg {z : State} {s : State} {t row k : Nat} {e : DWord} {evs : List Ev} (h_s : Keeps z s) : Keeps z (State.passSeg s t row k e evs) := by
  unfold State.passSeg
  with_reducible
  repeat' first
    | assumption | exact Keeps.refl _ | (simp only [keeps_upd_iff]) | split | apply keeps_unitLost
    | apply keeps_passWord | apply keeps_unitRead | apply keeps_foldl | apply keepsO_next | intro _ | (dsimp only)

theorem keeps_rowPass {z : State} {s : State} {t row : Nat} {evs : List Ev} (h_s : Keeps z s) : Keeps z (State.rowPass s t row evs) := by
  unfold State.rowPass
  with_reducible
  repeat' first
    | assumption | exact Keeps.refl _ | (simp only [keeps_upd_iff]) | split | apply keeps_wakeBank
    | apply keeps_modTile | apply keeps_passSeg | apply keeps_foldl | apply keepsO_next | intro _ | (dsimp only)

theorem keeps_depEvent {z : State} {s : State} {t : Nat} {ev : Ev} (h_s : Keeps z s) : Keeps z (State.depEvent s t ev) := by
  unfold State.depEvent
  with_reducible
  repeat' first
    | assumption | exact Keeps.refl _ | (simp only [keeps_upd_iff]) | split | apply keeps_depression
    | apply keeps_modTile

theorem keeps_macDone {z s : State} {t : Nat} {evs : List Ev} (h_s : Keeps z s) : Keeps z (State.macDone s t evs) := by
  unfold State.macDone
  refine keeps_foldl ?_ h_s
  intro u ev
  dsimp only
  split
  · split
    · exact keeps_modTile (.refl _)
    · exact keeps_depEvent (keeps_modTile (.refl _))
  · exact keeps_modTile (.refl _)

theorem keeps_dispatchOne {z : State} {s : State} {t : Nat} {m : MergeEntry} (h_s : Keeps z s) : Keeps z (State.dispatchOne s t m) := by
  unfold State.dispatchOne
  with_reducible
  repeat' first
    | assumption | exact Keeps.refl _ | split | apply keeps_modTile | apply keeps_rowPass | apply keeps_macDone

theorem keeps_dispatch {z : State} {s : State} {t : Nat} {m : MergeEntry} (h_s : Keeps z s) : Keeps z (State.dispatch s t m) := by
  unfold State.dispatch
  with_reducible
  repeat' first
    | assumption | exact Keeps.refl _ | (simp only [keeps_upd_iff]) | split | apply keeps_dispatchOne
    | apply keeps_foldl | apply keepsO_next | intro _

theorem keeps_dispatchFull {z : State} {s : State} {t : Nat} (h_s : Keeps z s) : Keeps z (State.dispatchFull s t) := by
  unfold State.dispatchFull
  with_reducible
  repeat' first
    | assumption | exact Keeps.refl _ | (simp only [keeps_upd_iff]) | split | apply keeps_dispatch

theorem keeps_joinMerge {z : State} {s : State} {t : Nat} {ev : Ev} (h_s : Keeps z s) : Keeps z (State.joinMerge s t ev) := by
  unfold State.joinMerge
  with_reducible
  repeat' first
    | assumption | exact Keeps.refl _ | (simp only [keeps_upd_iff]) | split | apply keeps_rowPass
    | apply keeps_macDone | apply keeps_modTile | apply keeps_dispatchFull | apply keeps_dispatch | apply keeps_foldl
    | apply keepsO_next | intro _ | (dsimp only)

theorem keeps_reflexEvent {z : State} {s : State} {t : Nat} {ev : Ev} (h_s : Keeps z s) : Keeps z (State.reflexEvent s t ev) := by
  unfold State.reflexEvent
  with_reducible
  repeat' first
    | assumption | exact Keeps.refl _ | (simp only [keeps_upd_iff]) | split | apply keeps_modTile
    | apply keeps_pushLoss | apply keeps_input | apply keeps_foldl | apply keepsO_next | intro _ | (dsimp only)

theorem keeps_feed {z : State} {s : State} {t : Nat} (h_s : Keeps z s) : Keeps z (State.feed s t) := by
  unfold State.feed
  with_reducible
  repeat' first
    | assumption | exact Keeps.refl _ | (simp only [keeps_upd_iff]) | split | apply keeps_reflexEvent
    | apply keeps_joinMerge | apply keeps_foldl | apply keepsO_next | intro _

theorem keeps_intakeEvent {z : State} {s : State} {t : Nat} {v : Volley} {e : Word} (h_s : Keeps z s) : Keeps z (State.intakeEvent s t v e) := by
  unfold State.intakeEvent
  with_reducible
  repeat' first
    | assumption | exact Keeps.refl _ | (simp only [keeps_upd_iff]) | split | apply keeps_macDone
    | apply keeps_pushLoss | apply keeps_modWorld | apply keeps_modTile | apply keeps_traceTile | apply keeps_tileDrop
    | apply keeps_foldl | apply keepsO_next | intro _ | (dsimp only)

theorem keeps_reports {z : State} {s : State} {t w : Nat} {ind : Nat} (h_s : Keeps z s) : Keeps z (State.reports s t w ind) := by
  induction ind generalizing s t w with
  | zero => unfold State.reports; exact h_s
  | succ ind ih =>
    unfold State.reports
    with_reducible
    repeat' first
      | assumption | apply ih | exact Keeps.refl _ | (simp only [keeps_upd_iff]) | split | apply keeps_flushOpen
      | apply keeps_send | apply keeps_modTile | apply keeps_modWorld | apply keeps_foldl | apply keepsO_next | intro _
      | (dsimp only)

theorem keeps_groupReports {z : State} {s : State} {t g : Nat} (h_s : Keeps z s) : Keeps z (State.groupReports s t g) := by
  unfold State.groupReports
  with_reducible
  repeat' first
    | assumption | exact Keeps.refl _ | (simp only [keeps_upd_iff]) | split | apply keeps_reports | apply keeps_foldl
    | apply keepsO_next | intro _

theorem keeps_afterF {z : State} {s : State} {t w : Nat} (h_s : Keeps z s) : Keeps z (State.afterF s t w) := by
  unfold State.afterF
  with_reducible
  repeat' first
    | assumption | exact Keeps.refl _ | split | apply keeps_macDone | apply keeps_depEvent | apply keeps_feed
    | apply keeps_sendNotice | apply keeps_reports | apply keeps_foldl | apply keepsO_next | intro _

theorem keeps_potentiate {z : State} {s : State} {t w c : Nat} (h_s : Keeps z s) : Keeps z (State.potentiate s t w c) := by
  unfold State.potentiate
  with_reducible
  repeat' first
    | assumption | exact Keeps.refl _ | split | apply keeps_modTile | apply keeps_potentiation | apply keeps_foldl
    | apply keepsO_next | intro _

theorem keeps_finishUpdate {z : State} {s : State} {t w c : Nat} {lock : Bool} (h_s : Keeps z s) : Keeps z (State.finishUpdate s t w c lock) := by
  unfold State.finishUpdate
  with_reducible
  repeat' first
    | assumption | exact Keeps.refl _ | split | apply keeps_potentiate | apply keeps_modTile | apply keeps_modWorld
    | apply keeps_afterF

end Sys2Proof.Machine
end

