-- ==== Sys2Proof/Laws/KeepsRuns.lean ====
section
/-! SUPPORT. Every operation of Machine/Runs.lean answers a state that may follow its own (`Keeps`). -/

set_option linter.unusedTactic false
set_option linter.unreachableTactic false
set_option linter.unusedVariables false
set_option linter.unusedSimpArgs false

namespace Sys2Proof.Machine

open Sys2Proof

theorem keeps_startRun {z : State} {s : State} {t : Nat} {d : DueRun} (h_s : Keeps z s) : Keeps z (State.startRun s t d) := by
  unfold State.startRun
  with_reducible
  repeat' first
    | assumption | exact Keeps.refl _ | (simp only [keeps_upd_iff]) | split | apply keeps_modTile
    | apply keeps_pushLoss | apply keeps_foldl | apply keepsO_next | intro _ | (dsimp only)

theorem keeps_nextRun {z : State} {s : State} {t : Nat} (h_s : Keeps z s) : Keeps z (State.nextRun s t) := by
  unfold State.nextRun
  with_reducible
  repeat' first
    | assumption | exact Keeps.refl _ | (simp only [keeps_upd_iff]) | split | apply keeps_modTile
    | apply keeps_startRun | apply keeps_finishUpdate | apply keeps_foldl | apply keepsO_next | intro _ | (dsimp only)

theorem keeps_tracePc {z : State} {s : State} {t : Nat} {r : Run} (h_s : Keeps z s) : Keeps z (State.tracePc s t r) := by
  unfold State.tracePc
  with_reducible
  repeat' first
    | assumption | exact Keeps.refl _ | (simp only [keeps_upd_iff]) | split | apply keeps_modTile | apply keeps_foldl
    | apply keepsO_next | intro _

theorem keeps_traceRun {z : State} {s : State} {t : Nat} {r : Run} {abandoned : Bool} (h_s : Keeps z s) : Keeps z (State.traceRun s t r abandoned) := by
  unfold State.traceRun
  with_reducible
  repeat' first
    | assumption | exact Keeps.refl _ | (simp only [keeps_upd_iff]) | split | apply keeps_traceTile

theorem keeps_runWake {z : State} {s : State} {t : Nat} {r : Run} (h_s : Keeps z s) : Keeps z (State.runWake s t r) := by
  unfold State.runWake
  with_reducible
  repeat' first
    | assumption | exact Keeps.refl _ | (simp only [keeps_upd_iff]) | split | apply keeps_modTile
    | apply keeps_tileDrop

theorem keeps_runEmit {z : State} {s : State} {t : Nat} {r : Run} {md : List DWord} (h_s : Keeps z s) : Keeps z (State.runEmit s t r md) := by
  unfold State.runEmit
  with_reducible
  repeat' first
    | assumption | exact Keeps.refl _ | (simp only [keeps_upd_iff]) | split | apply keeps_traceTile
    | apply keeps_emission | apply keeps_modTile | apply keeps_foldl | apply keepsO_next | intro _ | (dsimp only)

theorem keeps_completeRun {z : State} {s : State} {t : Nat} {r : Run} (h_s : Keeps z s) : Keeps z (State.completeRun s t r) := by
  unfold State.completeRun
  with_reducible
  repeat' first
    | assumption | exact Keeps.refl _ | split | apply keeps_modTile | apply keeps_writeRec | apply keeps_traceRun
    | apply keeps_runEmit | apply keeps_runWake | apply keeps_nextRun

theorem keeps_abandonRun {z : State} {s : State} {t : Nat} {r : Run} {cause : Nat} (h_s : Keeps z s) : Keeps z (State.abandonRun s t r cause) := by
  unfold State.abandonRun
  with_reducible
  repeat' first
    | assumption | exact Keeps.refl _ | split | apply keeps_modTile | apply keeps_nondetAt | apply keeps_traceRun
    | apply keeps_pushLoss | apply keeps_nextRun

theorem keeps_gExec {z : State} {i : Instr} {t : Nat} {hc : Tile → Run → Nat} {f : Tile → Run → GStep} {s : State} (h_s : Keeps z s) : KeepsO z (gExec i t hc f s) := by
  unfold gExec
  with_reducible
  repeat' first
    | assumption | exact Keeps.refl _ | (simp only [keeps_upd_iff]) | split | apply keeps_tracePc
    | apply keeps_abandonRun | apply keeps_modTile | apply keeps_completeRun | apply keeps_foldl | apply keepsO_next
    | intro _ | (dsimp only)

end Sys2Proof.Machine
end

