-- ==== Sys2Proof/Laws/KeepsTileCmds.lean ====
section
/-! SUPPORT. Every operation of Machine/TileCmds.lean answers a state that may follow its own (`Keeps`). -/

set_option linter.unusedTactic false
set_option linter.unreachableTactic false
set_option linter.unusedVariables false
set_option linter.unusedSimpArgs false

namespace Sys2Proof.Machine

open Sys2Proof

theorem keeps_lateVolley {z : State} {s : State} {t : Nat} {v : Volley} {e : Word} (h_s : Keeps z s) : Keeps z (State.lateVolley s t v e) := by
  unfold State.lateVolley
  with_reducible
  repeat' first
    | assumption | exact Keeps.refl _ | split | apply keeps_pushLoss | apply keeps_nondetAt

theorem keeps_settle {z : State} {s : State} {t : Nat} (h_s : Keeps z s) : Keeps z (State.settle s t) := by
  unfold State.settle
  with_reducible
  repeat' first
    | assumption | exact Keeps.refl _ | (simp only [keeps_upd_iff]) | split | apply keeps_feed | apply keeps_nextRun

theorem keeps_takeEvents {z : State} {s : State} {t : Nat} {v : Volley} (h_s : Keeps z s) : Keeps z (State.takeEvents s t v) := by
  unfold State.takeEvents
  with_reducible
  repeat' first
    | assumption | exact Keeps.refl _ | split | apply keeps_lateVolley | apply keeps_modTile | apply keeps_intakeEvent
    | apply keeps_settle | apply keeps_foldl | apply keepsO_next | intro _

theorem keeps_execEvents {z : State} {t : Nat} {s : State} (h_s : Keeps z s) : KeepsO z (execEvents t s) := by
  unfold execEvents
  with_reducible
  repeat' first
    | assumption | exact Keeps.refl _ | (simp only [keeps_upd_iff]) | split
    | (refine keeps_takeInbox ?_ (by assumption)) | apply keeps_wakeTile | apply keeps_takeEvents
    | apply keeps_loseEvents | apply keeps_foldl | apply keepsO_next | intro _ | (dsimp only)

theorem keeps_execMergeDispatch {z : State} {t : Nat} {s : State} (h_s : Keeps z s) : KeepsO z (execMergeDispatch t s) := by
  unfold execMergeDispatch
  with_reducible
  repeat' first
    | assumption | exact Keeps.refl _ | (simp only [keeps_upd_iff]) | split | apply keeps_dispatch | apply keeps_foldl
    | apply keepsO_next

theorem keeps_beginUpdate {z : State} {s : State} {t w c : Nat} (h_s : Keeps z s) : Keeps z (State.beginUpdate s t w c) := by
  unfold State.beginUpdate
  with_reducible
  repeat' first
    | assumption | exact Keeps.refl _ | (simp only [keeps_upd_iff]) | split | apply keeps_modTile
    | apply keeps_modTurn | apply keeps_foldl | apply keepsO_next | intro _ | (dsimp only)

theorem keeps_execStampUpdate {z : State} {t w : Nat} {s : State} (h_s : Keeps z s) : KeepsO z (execStampUpdate t w s) := by
  unfold execStampUpdate
  with_reducible
  repeat' first
    | assumption | exact Keeps.refl _ | (simp only [keeps_upd_iff]) | split | apply keeps_beginUpdate
    | apply keeps_nextRun | apply keeps_foldl | apply keepsO_next

theorem keeps_execFrontier {z : State} {t : Nat} {s : State} (h_s : Keeps z s) : KeepsO z (execFrontier t s) := by
  unfold execFrontier
  with_reducible
  repeat' first
    | assumption | exact Keeps.refl _ | (simp only [keeps_upd_iff]) | split
    | (refine keeps_takeInbox ?_ (by assumption)) | apply keeps_modTile | apply keeps_groupReports | apply keeps_foldl
    | apply keepsO_next | intro _ | (dsimp only)

theorem keeps_sweep {z : State} {s : State} {t w notice : Nat} (h_s : Keeps z s) : Keeps z (State.sweep s t w notice) := by
  unfold State.sweep
  with_reducible
  repeat' first
    | assumption | exact Keeps.refl _ | (simp only [keeps_upd_iff]) | split | apply keeps_sweepRecords
    | apply keeps_sweepTimes | apply keeps_fromRoot

theorem keeps_execAge {z : State} {t : Nat} {s : State} (h_s : Keeps z s) : KeepsO z (execAge t s) := by
  unfold execAge
  with_reducible
  repeat' first
    | assumption | exact Keeps.refl _ | (simp only [keeps_upd_iff]) | split
    | (refine keeps_takeMail ?_ (by assumption)) | apply keeps_wakeTile | apply keeps_sweep | apply keeps_foldl
    | apply keepsO_next

theorem keeps_execTempoGrant {z : State} {t : Nat} {s : State} (h_s : Keeps z s) : KeepsO z (execTempoGrant t s) := by
  unfold execTempoGrant
  with_reducible
  repeat' first
    | assumption | exact Keeps.refl _ | (simp only [keeps_upd_iff]) | split
    | (refine keeps_takeMail ?_ (by assumption)) | apply keeps_wakeTile | apply keeps_modTile | apply keeps_modWorld
    | apply keeps_settle | apply keeps_foldl | apply keepsO_next

theorem keeps_nondetAll {z : State} {s : State} {t : Nat} (h_s : Keeps z s) : Keeps z (State.nondetAll s t) := by
  unfold State.nondetAll
  with_reducible
  repeat' first
    | assumption | exact Keeps.refl _ | (simp only [keeps_upd_iff]) | split | apply keeps_nondetAt | apply keeps_foldl
    | apply keepsO_next | intro _

theorem keeps_execRefreshDue {z : State} {t bank : Nat} {s : State} (h_s : Keeps z s) : KeepsO z (execRefreshDue t bank s) := by
  unfold execRefreshDue
  with_reducible
  repeat' first
    | assumption | exact Keeps.refl _ | (simp only [keeps_upd_iff]) | split | apply keeps_modTile
    | apply keeps_nondetAll | apply keeps_foldl | apply keepsO_next | intro _ | (dsimp only)

theorem keeps_scrubUnit {z : State} {s : State} {t u : Nat} (h_s : Keeps z s) : Keeps z (State.scrubUnit s t u) := by
  unfold State.scrubUnit
  with_reducible
  repeat' first
    | assumption | exact Keeps.refl _ | split | apply keeps_unitRead | apply keeps_unitLost
    | (simp only [keeps_ecc_iff])

theorem keeps_scrub {z : State} {s : State} {t bank : Nat} (h_s : Keeps z s) : Keeps z (State.scrub s t bank) := by
  unfold State.scrub
  with_reducible
  repeat' first
    | assumption | exact Keeps.refl _ | split | apply keeps_scrubUnit | apply keeps_modTile | apply keeps_foldl
    | apply keepsO_next | intro _

theorem keeps_execScrubDeadline {z : State} {t bank : Nat} {s : State} (h_s : Keeps z s) : KeepsO z (execScrubDeadline t bank s) := by
  unfold execScrubDeadline
  with_reducible
  repeat' first
    | assumption | exact Keeps.refl _ | split | apply keeps_scrub | apply keeps_modTile | apply keeps_nondetAll
    | apply keeps_foldl | apply keepsO_next

theorem keeps_execScrubBurst {z : State} {t bank : Nat} {s : State} (h_s : Keeps z s) : KeepsO z (execScrubBurst t bank s) := by
  unfold execScrubBurst
  with_reducible
  repeat' first
    | assumption | exact Keeps.refl _ | (simp only [keeps_upd_iff]) | split | apply keeps_scrub | apply keeps_foldl
    | apply keepsO_next

theorem keeps_execLingerExpiry {z : State} {t : Nat} {s : State} (h_s : Keeps z s) : KeepsO z (execLingerExpiry t s) := by
  unfold execLingerExpiry
  with_reducible
  repeat' first
    | assumption | exact Keeps.refl _ | (simp only [keeps_upd_iff]) | split | apply keeps_modTile
    | apply keeps_sendOpen | apply keeps_foldl | apply keepsO_next

theorem keeps_execEcho {z : State} {ep : Nat} {s : State} (h_s : Keeps z s) : KeepsO z (execEcho ep s) := by
  unfold execEcho
  with_reducible
  repeat' first
    | assumption | exact Keeps.refl _ | (simp only [keeps_upd_iff]) | split
    | (refine keeps_takeInbox ?_ (by assumption)) | apply keeps_modPace | apply keeps_modTile | apply keeps_foldl
    | apply keepsO_next | intro _ | (dsimp only)

theorem keeps_execEchoSend {z : State} {t src : Nat} {s : State} (h_s : Keeps z s) : KeepsO z (execEchoSend t src s) := by
  unfold execEchoSend
  with_reducible
  repeat' first
    | assumption | exact Keeps.refl _ | (simp only [keeps_upd_iff]) | split | apply keeps_send | apply keeps_foldl
    | apply keepsO_next

theorem keeps_execRateRecovery {z : State} {ep : Nat} {s : State} (h_s : Keeps z s) : KeepsO z (execRateRecovery ep s) := by
  unfold execRateRecovery
  with_reducible
  repeat' first
    | assumption | exact Keeps.refl _ | (simp only [keeps_upd_iff]) | split | apply keeps_modPace | apply keeps_foldl
    | apply keepsO_next

theorem keeps_execTokenBucketRefill {z : State} {ep hc : Nat} {s : State} (h_s : Keeps z s) : KeepsO z (execTokenBucketRefill ep hc s) := by
  unfold execTokenBucketRefill
  with_reducible
  repeat' first
    | assumption | exact Keeps.refl _ | split | apply keeps_modPace | apply keeps_drainPace | apply keeps_unstall
    | apply keeps_nextRun | apply keeps_portDrain | apply keeps_foldl | apply keepsO_next

end Sys2Proof.Machine
end

