-- ==== Sys2Proof/Laws/KeepsFabric.lean ====
section
/-! SUPPORT. Every operation of Machine/Fabric.lean answers a state that may follow its own (`Keeps`). -/

set_option linter.unusedTactic false
set_option linter.unreachableTactic false
set_option linter.unusedVariables false
set_option linter.unusedSimpArgs false

namespace Sys2Proof.Machine

open Sys2Proof

theorem keeps_turnAlt {z : State} {s : State} {px py out : Nat} {v : Volley} (h_s : Keeps z s) : Keeps z (State.turnAlt s px py out v) := by
  unfold State.turnAlt
  with_reducible
  repeat' first
    | assumption | exact Keeps.refl _ | (simp only [keeps_upd_iff]) | split

theorem keeps_popBuf {z : State} {s : State} {px py inp vc : Nat} (h_s : Keeps z s) : Keeps z (State.popBuf s px py inp vc) := by
  unfold State.popBuf
  with_reducible
  repeat' first
    | assumption | exact Keeps.refl _ | (simp only [keeps_upd_iff])

theorem keeps_oldRecvAt {z : State} {s : State} {px py : Nat} {v : Volley} (h_s : Keeps z s) : Keeps z (State.oldRecvAt s px py v) := by
  unfold State.oldRecvAt
  with_reducible
  repeat' first
    | assumption | exact Keeps.refl _ | (simp only [keeps_upd_iff]) | split | apply keeps_modTile

theorem keeps_absorb {z : State} {s : State} {px py : Nat} {v : Volley} {c : Code} (h_s : Keeps z s) : Keeps z (State.absorb s px py v c) := by
  unfold State.absorb
  with_reducible
  repeat' first
    | assumption | exact Keeps.refl _ | split | apply keeps_countRecv | apply keeps_oldRecvAt | apply keeps_loseEvents

theorem keeps_rootTake {z : State} {s : State} {st : Nat} {c : Ctl} (h_s : Keeps z s) : Keeps z (State.rootTake s st c) := by
  unfold State.rootTake
  with_reducible
  repeat' first
    | assumption | exact Keeps.refl _ | (simp only [keeps_upd_iff]) | split | apply keeps_post | apply keeps_wakeDom
    | apply keeps_foldl | apply keepsO_next | intro _

theorem keeps_localPort {z : State} {s : State} {px py : Nat} {v : Volley} (h_s : Keeps z s) : Keeps z (State.localPort s px py v) := by
  unfold State.localPort
  with_reducible
  repeat' first
    | assumption | exact Keeps.refl _ | (simp only [keeps_upd_iff]) | split | apply keeps_countRecv
    | apply keeps_rootTake | apply keeps_oldRecvAt | apply keeps_wakeTile | apply keeps_deliver | apply keeps_absorb
    | apply keeps_foldl | apply keepsO_next | intro _ | (dsimp only)

theorem keeps_traceRoute {z : State} {s : State} {px py out : Nat} {v : Volley} {det mark : Bool} (h_s : Keeps z s) : Keeps z (State.traceRoute s px py out v det mark) := by
  unfold State.traceRoute
  with_reducible
  repeat' first
    | assumption | exact Keeps.refl _ | (simp only [keeps_upd_iff]) | split | apply keeps_traceTile

theorem keeps_moveVolley {z : State} {s : State} {px py inp out : Nat} {v : Volley} (h_s : Keeps z s) : Keeps z (State.moveVolley s px py inp out v) := by
  unfold State.moveVolley
  with_reducible
  repeat' first
    | assumption | exact Keeps.refl _ | (simp only [keeps_upd_iff]) | split | apply keeps_popBuf | apply keeps_turnAlt
    | apply keeps_traceRoute | apply keeps_localPort | apply keeps_toHub | apply keeps_wakeDom | apply keeps_enqueue
    | apply keeps_foldl | apply keepsO_next | intro _ | (dsimp only)

theorem keeps_execRouteVolley {z : State} {px py inp vc : Nat} {s : State} (h_s : Keeps z s) : KeepsO z (execRouteVolley px py inp vc s) := by
  unfold execRouteVolley
  with_reducible
  repeat' first
    | assumption | exact Keeps.refl _ | split | apply keeps_popBuf | apply keeps_countRecv | apply keeps_pushLoss
    | apply keeps_absorb | apply keeps_moveVolley | apply keeps_foldl | apply keepsO_next

end Sys2Proof.Machine
end

