-- ==== Sys2Proof/Laws/KeepsEpochs.lean ====
section
/-! SUPPORT. Every operation of Machine/Epochs.lean answers a state that may follow its own (`Keeps`). -/

set_option linter.unusedTactic false
set_option linter.unreachableTactic false
set_option linter.unusedVariables false
set_option linter.unusedSimpArgs false

namespace Sys2Proof.Machine

open Sys2Proof

theorem keeps_flipWorld {z : State} {s : State} {w f : Nat} (h_s : Keeps z s) : Keeps z (State.flipWorld s w f) := by
  unfold State.flipWorld
  with_reducible
  repeat' first
    | assumption | exact Keeps.refl _ | split | apply keeps_toRoot | apply keeps_modWorld | apply keeps_foldl
    | apply keepsO_next | intro _

theorem keeps_startFlip {z : State} {s : State} {cmd : Nat × Nat} (h_s : Keeps z s) : Keeps z (State.startFlip s cmd) := by
  unfold State.startFlip
  with_reducible
  repeat' first
    | assumption | exact Keeps.refl _ | (simp only [keeps_upd_iff]) | split | apply keeps_flipWorld
    | apply keeps_foldl | apply keepsO_next | intro _

theorem keeps_execEpochFlip {z : State} {rk seq : Nat} {s : State} (h_s : Keeps z s) : KeepsO z (execEpochFlip rk seq s) := by
  unfold execEpochFlip
  with_reducible
  repeat' first
    | assumption | exact Keeps.refl _ | (simp only [keeps_upd_iff]) | split | apply keeps_runCmd
    | apply keeps_complete | apply keeps_startFlip | apply keeps_begun | apply keeps_foldl | apply keepsO_next
    | intro _

theorem keeps_execEpochNotice {z : State} {st : Nat} {s : State} (h_s : Keeps z s) : KeepsO z (execEpochNotice st s) := by
  unfold execEpochNotice
  with_reducible
  repeat' first
    | assumption | exact Keeps.refl _ | (simp only [keeps_upd_iff]) | split
    | (refine keeps_takeMail ?_ (by assumption)) | apply keeps_fromRoot | apply keeps_foldl | apply keepsO_next

theorem keeps_execEpochAck {z : State} {s : State} (h_s : Keeps z s) : KeepsO z (execEpochAck s) := by
  unfold execEpochAck
  with_reducible
  repeat' first
    | assumption | exact Keeps.refl _ | (simp only [keeps_upd_iff]) | split
    | (refine keeps_takeInbox ?_ (by assumption)) | apply keeps_modWorld | apply keeps_foldl | apply keepsO_next

theorem keeps_toSteward {z : State} {s : State} {k : Nat} {c : Ctl} (h_s : Keeps z s) : Keeps z (State.toSteward s k c) := by
  unfold State.toSteward
  with_reducible
  repeat' first
    | assumption | exact Keeps.refl _ | (simp only [keeps_upd_iff]) | split | apply keeps_deliver
    | apply keeps_fromRoot

theorem keeps_sendEnds {z : State} {s : State} (h_s : Keeps z s) : Keeps z (State.sendEnds s) := by
  unfold State.sendEnds
  with_reducible
  repeat' first
    | assumption | exact Keeps.refl _ | (simp only [keeps_upd_iff]) | split | apply keeps_toSteward
    | apply keeps_foldl | apply keepsO_next | intro _

theorem keeps_sendDeltas {z : State} {s : State} (h_s : Keeps z s) : Keeps z (State.sendDeltas s) := by
  unfold State.sendDeltas
  with_reducible
  repeat' first
    | assumption | exact Keeps.refl _ | (simp only [keeps_upd_iff]) | split | apply keeps_toSteward
    | apply keeps_foldl | apply keepsO_next | intro _

theorem keeps_drainAdd {z : State} {s : State} {n : Int} (h_s : Keeps z s) : Keeps z (State.drainAdd s n) := by
  unfold State.drainAdd
  with_reducible
  repeat' first
    | assumption | exact Keeps.refl _ | (simp only [keeps_upd_iff]) | split | apply keeps_internalAdd

theorem keeps_drainLost {z : State} {s : State} (h_s : Keeps z s) : Keeps z (State.drainLost s) := by
  unfold State.drainLost
  with_reducible
  repeat' first
    | assumption | exact Keeps.refl _ | (simp only [keeps_upd_iff]) | split | apply keeps_pushLoss
    | apply keeps_internalAdd | apply keeps_foldl | apply keepsO_next | intro _

theorem keeps_drainCheck {z : State} {s0 : State} (h_s0 : Keeps z s0) : Keeps z (State.drainCheck s0) := by
  unfold State.drainCheck
  with_reducible
  repeat' first
    | assumption | exact Keeps.refl _ | (simp only [keeps_upd_iff]) | split | apply keeps_drainLost
    | apply keeps_completeAt

theorem keeps_execEpochEnd {z : State} {s : State} (h_s : Keeps z s) : KeepsO z (execEpochEnd s) := by
  unfold execEpochEnd
  with_reducible
  repeat' first
    | assumption | exact Keeps.refl _ | (simp only [keeps_upd_iff]) | split | apply keeps_sendEnds
    | (refine keeps_takeInbox ?_ (by assumption)) | apply keeps_drainAdd | apply keeps_drainCheck | apply keeps_foldl
    | apply keepsO_next

theorem keeps_execDrainDelta {z : State} {s : State} (h_s : Keeps z s) : KeepsO z (execDrainDelta s) := by
  unfold execDrainDelta
  with_reducible
  repeat' first
    | assumption | exact Keeps.refl _ | (simp only [keeps_upd_iff]) | split | apply keeps_sendDeltas
    | (refine keeps_takeInbox ?_ (by assumption)) | apply keeps_drainAdd | apply keeps_drainCheck | apply keeps_foldl
    | apply keepsO_next | intro _ | (dsimp only)

end Sys2Proof.Machine
end

