-- ==== Sys2Proof/Laws/KeepsBindings.lean ====
section
/-! SUPPORT. Every operation of Machine/Bindings.lean answers a state that may follow its own (`Keeps`). -/

set_option linter.unusedTactic false
set_option linter.unreachableTactic false
set_option linter.unusedVariables false
set_option linter.unusedSimpArgs false

namespace Sys2Proof.Machine

open Sys2Proof

theorem keeps_worldOutput {z : State} {s : State} {r src w ch value full : Nat} (h_s : Keeps z s) : Keeps z (State.worldOutput s r src w ch value full) := by
  unfold State.worldOutput
  with_reducible
  repeat' first
    | assumption | exact Keeps.refl _ | split | apply keeps_traceRack | apply keeps_rackPut | apply keeps_dropMsg
    | apply keeps_modTurn

theorem keeps_bindWord {z : State} {s : State} {y : Nat} {v : Volley} {e : Word} (h_s : Keeps z s) : Keeps z (State.bindWord s y v e) := by
  unfold State.bindWord
  with_reducible
  repeat' first
    | assumption | exact Keeps.refl _ | (simp only [keeps_upd_iff]) | split | apply keeps_worldOutput
    | apply keeps_modTurn | apply keeps_foldl | apply keepsO_next | intro _ | (dsimp only)

theorem keeps_execRackBindingEvent {z : State} {y : Nat} {s : State} (h_s : Keeps z s) : KeepsO z (execRackBindingEvent y s) := by
  unfold execRackBindingEvent
  with_reducible
  repeat' first
    | assumption | exact Keeps.refl _ | (simp only [keeps_upd_iff]) | split
    | (refine keeps_takeInbox ?_ (by assumption)) | apply keeps_bindWord | apply keeps_foldl | apply keepsO_next
    | intro _

theorem keeps_execPipAddMessage {z : State} {s : State} (h_s : Keeps z s) : KeepsO z (execPipAddMessage s) := by
  unfold execPipAddMessage
  with_reducible
  repeat' first
    | assumption | exact Keeps.refl _ | (simp only [keeps_upd_iff]) | split
    | (refine keeps_takeInbox ?_ (by assumption)) | apply keeps_internalAdd | apply keeps_foldl | apply keepsO_next

end Sys2Proof.Machine
end

