-- ==== Sys2Proof/Laws/KeepsPool.lean ====
section
/-! SUPPORT. Every operation of Machine/Pool.lean answers a state that may follow its own (`Keeps`). -/

set_option linter.unusedTactic false
set_option linter.unreachableTactic false
set_option linter.unusedVariables false
set_option linter.unusedSimpArgs false

namespace Sys2Proof.Machine

open Sys2Proof

theorem keeps_setCached {z : State} {s : State} {a key : Nat} {c : Option CacheLine} (h_s : Keeps z s) : Keeps z (State.setCached s a key c) := by
  unfold State.setCached
  with_reducible
  repeat' first
    | assumption | exact Keeps.refl _ | (simp only [keeps_upd_iff])

theorem keeps_agentFail {z : State} {s : State} {a : Nat} {c : Code} (h_s : Keeps z s) : Keeps z (State.agentFail s a c) := by
  unfold State.agentFail
  with_reducible
  repeat' first
    | assumption | exact Keeps.refl _ | (simp only [keeps_upd_iff])

theorem keeps_tracePool {z : State} {s : State} {win line msg agent : Nat} {queued : Bool} {st : Nat} (h_s : Keeps z s) : Keeps z (State.tracePool s win line msg agent queued st) := by
  unfold State.tracePool
  with_reducible
  repeat' first
    | assumption | exact Keeps.refl _ | (simp only [keeps_upd_iff]) | split | apply keeps_traceHub

theorem keeps_modEntry {z : State} {s : State} {key : Nat} {f : DirEntry → DirEntry} (h_s : Keeps z s) : Keeps z (State.modEntry s key f) := by
  unfold State.modEntry
  with_reducible
  repeat' first
    | assumption | exact Keeps.refl _ | (simp only [keeps_upd_iff])

theorem keeps_tell {z : State} {s : State} {a win line : Nat} {msg : DirMsg} (h_s : Keeps z s) : Keeps z (State.tell s a win line msg) := by
  unfold State.tell
  with_reducible
  repeat' first
    | assumption | exact Keeps.refl _ | (simp only [keeps_upd_iff]) | split | apply keeps_tracePool

theorem keeps_answer {z : State} {s : State} {win line kind rsp : Nat} (h_s : Keeps z s) : Keeps z (State.answer s win line kind rsp) := by
  unfold State.answer
  with_reducible
  repeat' first
    | assumption | exact Keeps.refl _ | (simp only [keeps_upd_iff]) | split | apply keeps_tracePool

theorem keeps_issue {z : State} {s : State} {o : PoolOp} (h_s : Keeps z s) : Keeps z (State.issue s o) := by
  unfold State.issue
  with_reducible
  repeat' first
    | assumption | exact Keeps.refl _ | (simp only [keeps_upd_iff])

theorem keeps_grant {z : State} {s : State} {e : DirEntry} {r : DirReq} {d : BitVec 512} {dirty : Bool} (h_s : Keeps z s) : Keeps z (State.grant s e r d dirty) := by
  unfold State.grant
  with_reducible
  repeat' first
    | assumption | exact Keeps.refl _ | (simp only [keeps_upd_iff]) | split | apply keeps_modEntry | apply keeps_tell

theorem keeps_startRead {z : State} {s : State} {e : DirEntry} {r : DirReq} (h_s : Keeps z s) : Keeps z (State.startRead s e r) := by
  unfold State.startRead
  with_reducible
  repeat' first
    | assumption | exact Keeps.refl _ | (simp only [keeps_upd_iff]) | split | apply keeps_modEntry
    | apply keeps_agentFail | apply keeps_issue | apply keeps_pushLoss

theorem keeps_written {z : State} {s : State} {e : DirEntry} (h_s : Keeps z s) : Keeps z (State.written s e) := by
  unfold State.written
  with_reducible
  repeat' first
    | assumption | exact Keeps.refl _ | split | apply keeps_modEntry | apply keeps_tell | apply keeps_grant
    | apply keeps_answer

theorem keeps_startWrite {z : State} {s : State} {e : DirEntry} {d : BitVec 512} (h_s : Keeps z s) : Keeps z (State.startWrite s e d) := by
  unfold State.startWrite
  with_reducible
  repeat' first
    | assumption | exact Keeps.refl _ | (simp only [keeps_upd_iff]) | split | apply keeps_issue | apply keeps_pushLoss
    | apply keeps_written

theorem keeps_recallAll {z : State} {s : State} {e : DirEntry} {hs : List Nat} {why : Why} (h_s : Keeps z s) : Keeps z (State.recallAll s e hs why) := by
  unfold State.recallAll
  with_reducible
  repeat' first
    | assumption | exact Keeps.refl _ | (simp only [keeps_upd_iff]) | split | apply keeps_tell | apply keeps_modEntry
    | apply keeps_foldl | apply keepsO_next | intro _

theorem keeps_answered {z : State} {s : State} {e : DirEntry} {d : Option (BitVec 512)} {why : Why} (h_s : Keeps z s) : Keeps z (State.answered s e d why) := by
  unfold State.answered
  with_reducible
  repeat' first
    | assumption | exact Keeps.refl _ | split | apply keeps_modEntry | apply keeps_grant | apply keeps_startWrite
    | apply keeps_startRead | apply keeps_answer

theorem keeps_serve {z : State} {s : State} {key : Nat} {ind : Nat} (h_s : Keeps z s) : Keeps z (State.serve s key ind) := by
  induction ind generalizing s key with
  | zero => unfold State.serve; exact h_s
  | succ ind ih =>
    unfold State.serve
    with_reducible
    repeat' first
      | assumption | apply ih | exact Keeps.refl _ | (simp only [keeps_upd_iff]) | split | apply keeps_modEntry
      | apply keeps_recallAll | apply keeps_answer | apply keeps_startRead

theorem keeps_serveLine {z : State} {s : State} {key : Nat} (h_s : Keeps z s) : Keeps z (State.serveLine s key) := by
  unfold State.serveLine
  with_reducible
  repeat' first
    | assumption | exact Keeps.refl _ | (simp only [keeps_upd_iff]) | split | apply keeps_serve

theorem keeps_evictOne {z : State} {s : State} (h_s : Keeps z s) : Keeps z (State.evictOne s) := by
  unfold State.evictOne
  with_reducible
  repeat' first
    | assumption | exact Keeps.refl _ | (simp only [keeps_upd_iff]) | split | apply keeps_modEntry
    | apply keeps_serveLine

theorem keeps_request {z : State} {s : State} {win line : Nat} {r : DirReq} (h_s : Keeps z s) : Keeps z (State.request s win line r) := by
  unfold State.request
  with_reducible
  repeat' first
    | assumption | exact Keeps.refl _ | (simp only [keeps_upd_iff]) | split | apply keeps_modEntry
    | apply keeps_serveLine | apply keeps_evictOne

theorem keeps_admit {z : State} {s : State} {ind : Nat} (h_s : Keeps z s) : Keeps z (State.admitWaiting s ind) := by
  induction ind generalizing s with
  | zero => unfold State.admitWaiting; exact h_s
  | succ ind ih =>
    unfold State.admitWaiting
    with_reducible
    repeat' first
      | assumption | apply ih | exact Keeps.refl _ | (simp only [keeps_upd_iff]) | split | apply keeps_request

theorem keeps_release {z : State} {s : State} {key : Nat} (h_s : Keeps z s) : Keeps z (State.release s key) := by
  unfold State.release
  with_reducible
  repeat' first
    | assumption | exact Keeps.refl _ | split | apply keeps_serveLine | apply keeps_admit

theorem keeps_joinRead {z s t : State} {a key : Nat} (h_s : Keeps z s) (e : State.joinRead s a key = some t) : Keeps z t := by
  unfold State.joinRead at e
  split at e
  · split at e
    · cases e; simpa only [keeps_upd_iff] using h_s
    · cases e
  · cases e

theorem keeps_plainRead {z : State} {s : State} {a win line : Nat} (h_s : Keeps z s) : Keeps z (State.plainRead s a win line) := by
  unfold State.plainRead
  with_reducible
  repeat' first
    | assumption | exact Keeps.refl _ | (simp only [keeps_upd_iff]) | split | apply keeps_agentFail
    | (refine keeps_joinRead ?_ (by assumption)) | apply keeps_issue | apply keeps_pushLoss

theorem keeps_poolRead {z : State} {s : State} {a win line : Nat} {excl : Bool} (h_s : Keeps z s) : Keeps z (State.poolRead s a win line excl) := by
  unfold State.poolRead
  with_reducible
  repeat' first
    | assumption | exact Keeps.refl _ | (simp only [keeps_upd_iff]) | split | apply keeps_agentFail
    | apply keeps_wakeDom | apply keeps_tracePool | apply keeps_request | apply keeps_plainRead

theorem keeps_execRdS {z : State} {agent win line : Nat} {s : State} (h_s : Keeps z s) : KeepsO z (execRdS agent win line s) := by
  unfold execRdS
  with_reducible
  repeat' first
    | assumption | exact Keeps.refl _ | (simp only [keeps_upd_iff]) | split | apply keeps_poolRead | apply keeps_foldl
    | apply keepsO_next

theorem keeps_execRdX {z : State} {agent win line : Nat} {s : State} (h_s : Keeps z s) : KeepsO z (execRdX agent win line s) := by
  unfold execRdX
  with_reducible
  repeat' first
    | assumption | exact Keeps.refl _ | (simp only [keeps_upd_iff]) | split | apply keeps_poolRead | apply keeps_foldl
    | apply keepsO_next

theorem keeps_plainWrite {z : State} {s : State} {a win line : Nat} {d : BitVec 512} (h_s : Keeps z s) : Keeps z (State.plainWrite s a win line d) := by
  unfold State.plainWrite
  with_reducible
  repeat' first
    | assumption | exact Keeps.refl _ | (simp only [keeps_upd_iff]) | split | apply keeps_agentFail
    | apply keeps_wakeDom | apply keeps_issue | apply keeps_pushLoss | apply keeps_tell

theorem keeps_execWb {z : State} {agent win line : Nat} {data : BitVec 512} {s : State} (h_s : Keeps z s) : KeepsO z (execWb agent win line data s) := by
  unfold execWb
  with_reducible
  repeat' first
    | assumption | exact Keeps.refl _ | (simp only [keeps_upd_iff]) | split | apply keeps_plainWrite
    | apply keeps_modEntry | apply keeps_tracePool | apply keeps_startWrite | apply keeps_release | apply keeps_foldl
    | apply keepsO_next | intro _ | (dsimp only)

theorem keeps_execEvc {z : State} {agent win line : Nat} {s : State} (h_s : Keeps z s) : KeepsO z (execEvc agent win line s) := by
  unfold execEvc
  with_reducible
  repeat' first
    | assumption | exact Keeps.refl _ | (simp only [keeps_upd_iff]) | split | apply keeps_setCached
    | apply keeps_modEntry | apply keeps_tracePool | apply keeps_serveLine | apply keeps_foldl | apply keepsO_next
    | intro _ | (dsimp only)

theorem keeps_takeDir {z s t : State} {a : Nat} {q : DirMsg → Bool} {v : Nat × Nat × DirMsg} (h_s : Keeps z s)
    (e : State.takeDir s a q = some (v, t)) : Keeps z t := by
  unfold State.takeDir at e
  split at e
  · cases e; simpa only [keeps_upd_iff] using h_s
  · cases e

theorem keeps_install {z : State} {s : State} {a win line : Nat} {d : BitVec 512} {dirty excl : Bool} (h_s : Keeps z s) : Keeps z (State.install s a win line d dirty excl) := by
  unfold State.install
  with_reducible
  repeat' first
    | assumption | exact Keeps.refl _ | (simp only [keeps_upd_iff]) | split | apply keeps_setCached

theorem keeps_execGrantS {z : State} {agent : Nat} {s : State} (h_s : Keeps z s) : KeepsO z (execGrantS agent s) := by
  unfold execGrantS
  with_reducible
  repeat' first
    | assumption | exact Keeps.refl _ | (simp only [keeps_upd_iff]) | split
    | (refine keeps_takeDir ?_ (by assumption)) | apply keeps_install | apply keeps_foldl | apply keepsO_next

theorem keeps_execGrantX {z : State} {agent : Nat} {store : Option (BitVec 512)} {s : State} (h_s : Keeps z s) : KeepsO z (execGrantX agent store s) := by
  unfold execGrantX
  with_reducible
  repeat' first
    | assumption | exact Keeps.refl _ | (simp only [keeps_upd_iff]) | split
    | (refine keeps_takeDir ?_ (by assumption)) | apply keeps_install | apply keeps_foldl | apply keepsO_next

theorem keeps_execWbDone {z : State} {agent : Nat} {s : State} (h_s : Keeps z s) : KeepsO z (execWbDone agent s) := by
  unfold execWbDone
  with_reducible
  repeat' first
    | assumption | exact Keeps.refl _ | (simp only [keeps_upd_iff]) | split
    | (refine keeps_takeDir ?_ (by assumption)) | apply keeps_setCached | apply keeps_foldl | apply keepsO_next

theorem keeps_sendAck {z : State} {s : State} {a win line : Nat} (h_s : Keeps z s) : Keeps z (State.sendAck s a win line) := by
  unfold State.sendAck
  with_reducible
  repeat' first
    | assumption | exact Keeps.refl _ | (simp only [keeps_upd_iff]) | split | apply keeps_setCached

theorem keeps_execRecall {z : State} {agent : Nat} {s : State} (h_s : Keeps z s) : KeepsO z (execRecall agent s) := by
  unfold execRecall
  with_reducible
  repeat' first
    | assumption | exact Keeps.refl _ | (simp only [keeps_upd_iff]) | split
    | (refine keeps_takeDir ?_ (by assumption)) | apply keeps_sendAck | apply keeps_foldl | apply keepsO_next

theorem keeps_execInv {z : State} {agent : Nat} {s : State} (h_s : Keeps z s) : KeepsO z (execInv agent s) := by
  unfold execInv
  with_reducible
  repeat' first
    | assumption | exact Keeps.refl _ | (simp only [keeps_upd_iff]) | split
    | (refine keeps_takeDir ?_ (by assumption)) | apply keeps_sendAck | apply keeps_foldl | apply keepsO_next

theorem keeps_ackIn {z : State} {s : State} {a key : Nat} {d : Option (BitVec 512)} (h_s : Keeps z s) : Keeps z (State.ackIn s a key d) := by
  unfold State.ackIn
  with_reducible
  repeat' first
    | assumption | exact Keeps.refl _ | (simp only [keeps_upd_iff]) | split | apply keeps_modEntry
    | apply keeps_answered | apply keeps_release | apply keeps_foldl | apply keepsO_next | intro _ | (dsimp only)

theorem keeps_execAck {z : State} {s : State} (h_s : Keeps z s) : KeepsO z (execAck s) := by
  unfold execAck
  with_reducible
  repeat' first
    | assumption | exact Keeps.refl _ | (simp only [keeps_upd_iff]) | split | apply keeps_tracePool
    | apply keeps_ackIn | apply keeps_foldl | apply keepsO_next

theorem keeps_execBisnp {z : State} {win line kind : Nat} {conflict : Bool} {s : State} (h_s : Keeps z s) : KeepsO z (execBisnp win line kind conflict s) := by
  unfold execBisnp
  with_reducible
  repeat' first
    | assumption | exact Keeps.refl _ | (simp only [keeps_upd_iff]) | split | apply keeps_wakeDom
    | apply keeps_tracePool | apply keeps_answer | apply keeps_modEntry | apply keeps_serveLine | apply keeps_foldl
    | apply keepsO_next

theorem keeps_flushWin {z : State} {s : State} {win : Nat} (h_s : Keeps z s) : Keeps z (State.flushWin s win) := by
  unfold State.flushWin
  with_reducible
  repeat' first
    | assumption | exact Keeps.refl _ | (simp only [keeps_upd_iff]) | split | apply keeps_modEntry
    | apply keeps_serveLine | apply keeps_foldl | apply keepsO_next | intro _

theorem keeps_putOp {z : State} {s : State} {o o1 : PoolOp} (h_s : Keeps z s) : Keeps z (State.putOp s o o1) := by
  unfold State.putOp
  with_reducible
  repeat' first
    | assumption | exact Keeps.refl _ | (simp only [keeps_upd_iff])

theorem keeps_opDone {z : State} {s : State} {o : PoolOp} (h_s : Keeps z s) : Keeps z (State.opDone s o) := by
  unfold State.opDone
  with_reducible
  repeat' first
    | assumption | exact Keeps.refl _ | (simp only [keeps_upd_iff]) | split | apply keeps_grant | apply keeps_release
    | apply keeps_written | apply keeps_tell | apply keeps_foldl | apply keepsO_next | intro _

theorem keeps_execPoolReadComplete {z : State} {win line : Nat} {data : BitVec 512} {s : State} (h_s : Keeps z s) : KeepsO z (execPoolReadComplete win line data s) := by
  unfold execPoolReadComplete
  with_reducible
  repeat' first
    | assumption | exact Keeps.refl _ | (simp only [keeps_upd_iff]) | split | apply keeps_putOp | apply keeps_opDone
    | apply keeps_foldl | apply keepsO_next | intro _ | (dsimp only)

theorem keeps_execPoolWriteComplete {z : State} {win line : Nat} {s : State} (h_s : Keeps z s) : KeepsO z (execPoolWriteComplete win line s) := by
  unfold execPoolWriteComplete
  with_reducible
  repeat' first
    | assumption | exact Keeps.refl _ | (simp only [keeps_upd_iff]) | split | apply keeps_putOp | apply keeps_opDone
    | apply keeps_foldl | apply keepsO_next | intro _ | (dsimp only)

theorem keeps_poolLinkDown {z : State} {s : State} (h_s : Keeps z s) : Keeps z (State.poolLinkDown s) := by
  unfold State.poolLinkDown
  with_reducible
  repeat' first
    | assumption | exact Keeps.refl _ | (simp only [keeps_upd_iff]) | split | apply keeps_agentFail
    | apply keeps_modEntry | apply keeps_release | apply keeps_foldl | apply keepsO_next | intro _

theorem keeps_execDirtyLineHoldExpiry {z : State} {s : State} (h_s : Keeps z s) : KeepsO z (execDirtyLineHoldExpiry s) := by
  unfold execDirtyLineHoldExpiry
  with_reducible
  repeat' first
    | assumption | exact Keeps.refl _ | split | apply keeps_pushLoss | apply keeps_setCached | apply keeps_modEntry
    | apply keeps_opDone | apply keeps_foldl | apply keepsO_next | intro _

theorem keeps_agentLost {z : State} {s : State} {a : Nat} (h_s : Keeps z s) : Keeps z (State.agentLost s a) := by
  unfold State.agentLost
  with_reducible
  repeat' first
    | assumption | exact Keeps.refl _ | (simp only [keeps_upd_iff]) | split | apply keeps_pushLoss | apply keeps_ackIn
    | apply keeps_release | apply keeps_foldl | apply keepsO_next | intro _

theorem keeps_poolDrain {z : State} {s : State} (h_s : Keeps z s) : Keeps z (State.poolDrain s) := by
  unfold State.poolDrain
  with_reducible
  repeat' first
    | assumption | exact Keeps.refl _ | (simp only [keeps_upd_iff]) | split | apply keeps_pushLoss
    | apply keeps_agentFail | apply keeps_foldl | apply keepsO_next | intro _

end Sys2Proof.Machine
end

