-- ==== Sys2Proof/Laws/KeepsBulk.lean ====
section
/-! SUPPORT. Every operation of Machine/Bulk.lean answers a state that may follow its own (`Keeps`). -/

set_option linter.unusedTactic false
set_option linter.unreachableTactic false
set_option linter.unusedVariables false
set_option linter.unusedSimpArgs false

namespace Sys2Proof.Machine

open Sys2Proof

theorem keeps_bulkFail {z : State} {s : State} {item : LossItem} (h_s : Keeps z s) : Keeps z (State.bulkFail s item) := by
  unfold State.bulkFail
  with_reducible
  repeat' first
    | assumption | exact Keeps.refl _ | (simp only [keeps_upd_iff]) | split | apply keeps_pushLoss

theorem keeps_bulkWrite {z s : State} {who : Nat} {w0 w1 w2 : DWord} {r : Code × BitVec 512} {i t : Nat} (h_s : Keeps z s) :
    Keeps z (State.bulkWrite s who w0 w1 w2 r i t) := by
  unfold State.bulkWrite
  dsimp only
  split
  · exact keeps_bulkFail h_s
  · split
    · exact keeps_bulkFail h_s
    · exact keeps_mem (keeps_wakeBank (keeps_wakeTile h_s)) (fun h => wf_writeLine h _ _)

theorem keeps_bulkLine {z : State} {s : State} {who : Nat} {w0 w1 w2 : DWord} {ext : List (Option (BitVec 512))} {i : Nat} (h_s : Keeps z s) : Keeps z (State.bulkLine s who w0 w1 w2 ext i) := by
  unfold State.bulkLine
  with_reducible
  repeat' first
    | assumption | exact Keeps.refl _ | split | apply keeps_bulkWrite | apply keeps_foldl | apply keepsO_next
    | intro _

theorem keeps_bulkLines {z : State} {s : State} {who : Nat} {w0 w1 w2 : DWord} {ext : List (Option (BitVec 512))} (h_s : Keeps z s) : Keeps z (State.bulkLines s who w0 w1 w2 ext) := by
  unfold State.bulkLines
  with_reducible
  repeat' first
    | assumption | exact Keeps.refl _ | (simp only [keeps_upd_iff]) | split | apply keeps_bulkLine | apply keeps_foldl
    | apply keepsO_next | intro _

theorem keeps_execBulkTransfer {z : State} {who : Nat} {w0 w1 w2 w3 : DWord} {ext : List (Option (BitVec 512))} {s : State} (h_s : Keeps z s) : KeepsO z (execBulkTransfer who w0 w1 w2 w3 ext s) := by
  unfold execBulkTransfer
  with_reducible
  repeat' first
    | assumption | exact Keeps.refl _ | (simp only [keeps_upd_iff]) | split | apply keeps_bulkLines
    | apply keeps_foldl | apply keepsO_next

theorem keeps_execBulkComplete {z : State} {s : State} (h_s : Keeps z s) : KeepsO z (execBulkComplete s) := by
  unfold execBulkComplete
  with_reducible
  repeat' first
    | assumption | exact Keeps.refl _ | (simp only [keeps_upd_iff]) | split | apply keeps_internalAdd
    | apply keeps_foldl | apply keepsO_next

end Sys2Proof.Machine
end

