-- ==== Sys2Proof/Laws/KeepsConsol.lean ====
section
/-! SUPPORT. Every operation of Machine/Consol.lean answers a state that may follow its own (`Keeps`). -/

set_option linter.unusedTactic false
set_option linter.unreachableTactic false
set_option linter.unusedVariables false
set_option linter.unusedSimpArgs false

namespace Sys2Proof.Machine

open Sys2Proof

theorem keeps_sendChain {z : State} {s : State} {t u : Nat} {mk : Nat → MailBody} (h_s : Keeps z s) : Keeps z (State.sendChain s t u mk) := by
  unfold State.sendChain
  with_reducible
  repeat' first
    | assumption | exact Keeps.refl _ | split | apply keeps_modTile | apply keeps_post | apply keeps_pushLoss
    | apply keeps_foldl | apply keepsO_next | intro _

theorem keeps_ackChain {z : State} {s : State} {t from_ seq : Nat} (h_s : Keeps z s) : Keeps z (State.ackChain s t from_ seq) := by
  unfold State.ackChain
  with_reducible
  repeat' first
    | assumption | exact Keeps.refl _ | (simp only [keeps_upd_iff]) | split | apply keeps_post

theorem keeps_psumEntry {z : State} {s : State} {t from_ : Nat} {e : Nat × Nat × Nat × Int} (h_s : Keeps z s) : Keeps z (State.psumEntry s t from_ e) := by
  unfold State.psumEntry
  with_reducible
  repeat' first
    | assumption | exact Keeps.refl _ | (simp only [keeps_upd_iff]) | split | apply keeps_pushLoss
    | apply keeps_contribute | apply keeps_foldl | apply keepsO_next | intro _ | (dsimp only)

theorem keeps_execPsum {z : State} {t : Nat} {s : State} (h_s : Keeps z s) : KeepsO z (execPsum t s) := by
  unfold execPsum
  with_reducible
  repeat' first
    | assumption | exact Keeps.refl _ | (simp only [keeps_upd_iff]) | split
    | (refine keeps_takeMail ?_ (by assumption)) | apply keeps_psumEntry | apply keeps_ackChain | apply keeps_foldl
    | apply keepsO_next | intro _

theorem keeps_execChainAck {z : State} {t : Nat} {s : State} (h_s : Keeps z s) : KeepsO z (execChainAck t s) := by
  unfold execChainAck
  with_reducible
  repeat' first
    | assumption | exact Keeps.refl _ | (simp only [keeps_upd_iff]) | split
    | (refine keeps_takeMail ?_ (by assumption)) | apply keeps_modTile | apply keeps_foldl | apply keepsO_next

theorem keeps_foldAll {z : State} {s : State} {t : Nat} (h_s : Keeps z s) : Keeps z (State.foldAll s t) := by
  unfold State.foldAll
  with_reducible
  repeat' first
    | assumption | exact Keeps.refl _ | (simp only [keeps_upd_iff]) | split | apply keeps_foldWord | apply keeps_foldl
    | apply keepsO_next | intro _

theorem keeps_consolUnit {z : State} {s : State} {t row l u : Nat} {from_ : List (List Word)} (h_s : Keeps z s) : Keeps z (State.consolUnit s t row l u from_) := by
  unfold State.consolUnit
  with_reducible
  repeat' first
    | assumption | exact Keeps.refl _ | split | apply keeps_unitLost | apply keeps_consolWord | apply keeps_foldl
    | apply keepsO_next | intro _

theorem keeps_pointAdds {z : State} {s : State} {t : Nat} (h_s : Keeps z s) : Keeps z (State.pointAdds s t) := by
  unfold State.pointAdds
  with_reducible
  repeat' first
    | assumption | exact Keeps.refl _ | (simp only [keeps_upd_iff]) | split | apply keeps_fromRoot | apply keeps_foldl
    | apply keepsO_next | intro _

theorem keeps_pointDone {z : State} {s : State} {t : Nat} (h_s : Keeps z s) : Keeps z (State.pointDone s t) := by
  unfold State.pointDone
  with_reducible
  repeat' first
    | assumption | exact Keeps.refl _ | (simp only [keeps_upd_iff]) | split | apply keeps_pointAdds
    | apply keeps_modTile | apply keeps_settle

theorem keeps_pointRecord {z : State} {s : State} {t n contributed worlds clamped changed : Nat} (h_s : Keeps z s) : Keeps z (State.pointRecord s t n contributed worlds clamped changed) := by
  unfold State.pointRecord
  with_reducible
  repeat' first
    | assumption | exact Keeps.refl _ | (simp only [keeps_upd_iff]) | split | apply keeps_postRecord

theorem keeps_memberMissing {z : State} {s : State} {t m : Nat} (h_s : Keeps z s) : Keeps z (State.memberMissing s t m) := by
  unfold State.memberMissing
  with_reducible
  repeat' first
    | assumption | exact Keeps.refl _ | split | apply keeps_pushLoss | apply keeps_modTurn | apply keeps_foldl
    | apply keepsO_next | intro _

theorem keeps_homeFinish {z : State} {s : State} {t n : Nat} (h_s : Keeps z s) : Keeps z (State.homeFinish s t n) := by
  unfold State.homeFinish
  with_reducible
  repeat' first
    | assumption | exact Keeps.refl _ | (simp only [keeps_upd_iff]) | split | apply keeps_memberMissing
    | apply keeps_consolUnit | apply keeps_sendChain | apply keeps_pointRecord | apply keeps_pointDone
    | apply keeps_foldl | apply keepsO_next | intro _

theorem keeps_homeTry {z : State} {s : State} {t : Nat} (h_s : Keeps z s) : Keeps z (State.homeTry s t) := by
  unfold State.homeTry
  with_reducible
  repeat' first
    | assumption | exact Keeps.refl _ | (simp only [keeps_upd_iff]) | split | apply keeps_homeFinish

theorem keeps_memberSend {z : State} {s : State} {t : Nat} (h_s : Keeps z s) : Keeps z (State.memberSend s t) := by
  unfold State.memberSend
  with_reducible
  repeat' first
    | assumption | exact Keeps.refl _ | split | apply keeps_sendChain | apply keeps_colWrite | apply keeps_foldl
    | apply keepsO_next | intro _

theorem keeps_memberTry {z : State} {s : State} {t : Nat} (h_s : Keeps z s) : Keeps z (State.memberTry s t) := by
  unfold State.memberTry
  with_reducible
  repeat' first
    | assumption | exact Keeps.refl _ | (simp only [keeps_upd_iff]) | split | apply keeps_pointDone
    | apply keeps_foldl | apply keepsO_next | intro _ | (dsimp only)

theorem keeps_beginPoint {z : State} {s : State} {t : Nat} (h_s : Keeps z s) : Keeps z (State.beginPoint s t) := by
  unfold State.beginPoint
  with_reducible
  repeat' first
    | assumption | exact Keeps.refl _ | split | apply keeps_foldAll | apply keeps_modTile | apply keeps_consolUnit
    | apply keeps_homeTry | apply keeps_memberSend | apply keeps_memberTry | apply keeps_foldl | apply keepsO_next
    | intro _

theorem keeps_learnWake {z : State} {s : State} {t : Nat} (h_s : Keeps z s) : Keeps z (State.learnWake s t) := by
  unfold State.learnWake
  with_reducible
  repeat' first
    | assumption | exact Keeps.refl _ | split | apply keeps_wakeTile | apply keeps_wakeDom

theorem keeps_point {z : State} {s : State} {t : Nat} (h_s : Keeps z s) : Keeps z (State.point s t) := by
  unfold State.point
  with_reducible
  repeat' first
    | assumption | exact Keeps.refl _ | (simp only [keeps_upd_iff]) | split | apply keeps_homeTry
    | apply keeps_memberTry | apply keeps_learnWake | apply keeps_beginPoint

theorem keeps_execConsolidationPoint {z : State} {t : Nat} {s : State} (h_s : Keeps z s) : KeepsO z (execConsolidationPoint t s) := by
  unfold execConsolidationPoint
  with_reducible
  repeat' first
    | assumption | exact Keeps.refl _ | (simp only [keeps_upd_iff]) | split | apply keeps_point | apply keeps_foldl
    | apply keepsO_next

theorem keeps_execLacc {z : State} {t : Nat} {s : State} (h_s : Keeps z s) : KeepsO z (execLacc t s) := by
  unfold execLacc
  with_reducible
  repeat' first
    | assumption | exact Keeps.refl _ | (simp only [keeps_upd_iff]) | split
    | (refine keeps_takeMail ?_ (by assumption)) | apply keeps_modTile | apply keeps_ackChain | apply keeps_homeTry
    | apply keeps_foldl | apply keepsO_next

theorem keeps_execRrow {z : State} {t : Nat} {s : State} (h_s : Keeps z s) : KeepsO z (execRrow t s) := by
  unfold execRrow
  with_reducible
  repeat' first
    | assumption | exact Keeps.refl _ | split | (refine keeps_takeMail ?_ (by assumption)) | apply keeps_rewriteWord
    | apply keeps_modTile | apply keeps_ackChain | apply keeps_memberTry | apply keeps_foldl | apply keepsO_next
    | intro _

end Sys2Proof.Machine
end

