-- ==== Sys2Proof/Laws/KeepsSlots.lean ====
section
/-! SUPPORT. Every operation of Machine/Slots.lean answers a state that may follow its own (`Keeps`). -/

set_option linter.unusedTactic false
set_option linter.unreachableTactic false
set_option linter.unusedVariables false
set_option linter.unusedSimpArgs false

namespace Sys2Proof.Machine

open Sys2Proof

theorem keeps_enterSlot {z : State} {s : State} {t : Nat} (h_s : Keeps z s) : Keeps z (State.enterSlot s t) := by
  unfold State.enterSlot
  with_reducible
  repeat' first
    | assumption | exact Keeps.refl _ | (simp only [keeps_upd_iff]) | split | apply keeps_modTile

theorem keeps_nextSlot {z : State} {s : State} {t : Nat} (h_s : Keeps z s) : Keeps z (State.nextSlot s t) := by
  unfold State.nextSlot
  with_reducible
  repeat' first
    | assumption | exact Keeps.refl _ | split | apply keeps_modTile

theorem keeps_slotRun {z : State} {op t : Nat} {q : State → DWord → Bool} {f : State → DWord → State} {s : State} (h_f : ∀ t0 t1, Keeps t0 (f t0 t1)) (h_s : Keeps z s) : KeepsO z (slotRun op t q f s) := by
  unfold slotRun
  with_reducible
  repeat' first
    | assumption | (refine Keeps.trans ?_ (h_f ..)) | exact Keeps.refl _ | (simp only [keeps_upd_iff]) | split
    | apply keeps_enterSlot | apply keeps_nextSlot | apply keeps_groupReports | apply keeps_foldl | apply keepsO_next
    | intro _ | (dsimp only)

theorem keeps_gatherDispatch {z : State} {s : State} {t : Nat} {e : DWord} (h_s : Keeps z s) : Keeps z (State.gatherDispatch s t e) := by
  unfold State.gatherDispatch
  with_reducible
  repeat' first
    | assumption | exact Keeps.refl _ | split | apply keeps_rowPass | apply keeps_macDone | apply keeps_foldl
    | apply keepsO_next | intro _

theorem keeps_gatherClear {z : State} {s : State} {t : Nat} {e : DWord} (h_s : Keeps z s) : Keeps z (State.gatherClear s t e) := by
  unfold State.gatherClear
  with_reducible
  repeat' first
    | assumption | exact Keeps.refl _ | split | apply keeps_modTile

theorem keeps_execGather {z : State} {t : Nat} {s : State} (h_s : Keeps z s) : KeepsO z (execGather t s) := by
  unfold execGather
  with_reducible
  repeat' first
    | assumption | exact Keeps.refl _ | (simp only [keeps_upd_iff]) | split | apply keeps_slotRun
    | apply keeps_gatherClear | apply keeps_gatherDispatch | apply keeps_foldl | apply keepsO_next | intro _

theorem keeps_execRunSlot {z : State} {t : Nat} {s : State} (h_s : Keeps z s) : KeepsO z (execRunSlot t s) := by
  unfold execRunSlot
  with_reducible
  repeat' first
    | assumption | exact Keeps.refl _ | (simp only [keeps_upd_iff]) | split | apply keeps_slotRun
    | apply keeps_beginUpdate | apply keeps_nextRun | apply keeps_foldl | apply keepsO_next | intro _

theorem keeps_execPot {z : State} {t : Nat} {s : State} (h_s : Keeps z s) : KeepsO z (execPot t s) := by
  unfold execPot
  with_reducible
  repeat' first
    | assumption | exact Keeps.refl _ | (simp only [keeps_upd_iff]) | split | apply keeps_slotRun
    | apply keeps_potentiate | apply keeps_foldl | apply keepsO_next | intro _

theorem keeps_execDep {z : State} {t : Nat} {s : State} (h_s : Keeps z s) : KeepsO z (execDep t s) := by
  unfold execDep
  with_reducible
  repeat' first
    | assumption | exact Keeps.refl _ | (simp only [keeps_upd_iff]) | split | apply keeps_slotRun
    | apply keeps_macDone | apply keeps_depEvent | apply keeps_foldl | apply keepsO_next | intro _

theorem keeps_execEmitSlot {z : State} {t : Nat} {s : State} (h_s : Keeps z s) : KeepsO z (execEmitSlot t s) := by
  unfold execEmitSlot
  with_reducible
  repeat' first
    | assumption | exact Keeps.refl _ | split | apply keeps_slotRun | apply keeps_flushOpen | apply keeps_modTile
    | apply keeps_send | apply keeps_foldl | apply keepsO_next | intro _

theorem keeps_scrubAll {z : State} {s : State} {t : Nat} {ind : Nat} (h_s : Keeps z s) : Keeps z (State.scrubAll s t ind) := by
  induction ind generalizing s t with
  | zero => unfold State.scrubAll; exact h_s
  | succ ind ih =>
    unfold State.scrubAll
    with_reducible
    repeat' first
      | assumption | apply ih | exact Keeps.refl _ | (simp only [keeps_upd_iff]) | split | apply keeps_scrub
      | apply keeps_foldl | apply keepsO_next | intro _

theorem keeps_sweepAll {z : State} {s : State} {t : Nat} {ind : Nat} (h_s : Keeps z s) : Keeps z (State.sweepAll s t ind) := by
  induction ind generalizing s t with
  | zero => unfold State.sweepAll; exact h_s
  | succ ind ih =>
    unfold State.sweepAll
    with_reducible
    repeat' first
      | assumption | apply ih | exact Keeps.refl _ | (simp only [keeps_upd_iff]) | split
      | (refine keeps_takeMail ?_ (by assumption)) | apply keeps_sweep

theorem keeps_execQuiet {z : State} {t : Nat} {s : State} (h_s : Keeps z s) : KeepsO z (execQuiet t s) := by
  unfold execQuiet
  with_reducible
  repeat' first
    | assumption | exact Keeps.refl _ | (simp only [keeps_upd_iff]) | split | apply keeps_slotRun
    | apply keeps_modTile | apply keeps_scrubAll | apply keeps_sweepAll | apply keeps_foldl | apply keepsO_next
    | intro _

theorem keeps_execLearnSlot {z : State} {t : Nat} {s : State} (h_s : Keeps z s) : KeepsO z (execLearnSlot t s) := by
  unfold execLearnSlot
  with_reducible
  repeat' first
    | assumption | exact Keeps.refl _ | (simp only [keeps_upd_iff]) | split | apply keeps_enterSlot
    | apply keeps_point | apply keeps_nextSlot | apply keeps_foldl | apply keepsO_next | intro _ | (dsimp only)

theorem keeps_execSlotMark {z : State} {t : Nat} {s : State} (h_s : Keeps z s) : KeepsO z (execSlotMark t s) := by
  unfold execSlotMark
  with_reducible
  repeat' first
    | assumption | exact Keeps.refl _ | (simp only [keeps_upd_iff]) | split
    | (refine keeps_takeInbox ?_ (by assumption)) | apply keeps_modTile | apply keeps_nondetAt | apply keeps_foldl
    | apply keepsO_next | intro _

end Sys2Proof.Machine
end

