-- ==== Sys2Proof/Laws/KeepsRegs.lean ====
section
/-! SUPPORT. Every operation of Machine/Regs.lean answers a state that may follow its own (`Keeps`). -/

set_option linter.unusedTactic false
set_option linter.unreachableTactic false
set_option linter.unusedVariables false
set_option linter.unusedSimpArgs false

namespace Sys2Proof.Machine

open Sys2Proof

theorem keeps_loLatch {z : State} {s : State} {m off size : Nat} {hi : Word} (h_s : Keeps z s) : Keeps z (State.loLatch s m off size hi) := by
  unfold State.loLatch
  with_reducible
  repeat' first
    | assumption | exact Keeps.refl _ | (simp only [keeps_upd_iff]) | split | apply keeps_modMaster

theorem keeps_cfgSend {z : State} {s : State} {m t off size : Nat} {c : Ctl} (h_s : Keeps z s) : Keeps z (State.cfgSend s m t off size c) := by
  unfold State.cfgSend
  with_reducible
  repeat' first
    | assumption | exact Keeps.refl _ | (simp only [keeps_upd_iff]) | split | apply keeps_toRoot

theorem keeps_barRead {z : State} {s : State} {m off size : Nat} (h_s : Keeps z s) : Keeps z (State.barRead s m off size) := by
  unfold State.barRead
  with_reducible
  repeat' first
    | assumption | exact Keeps.refl _ | (simp only [keeps_upd_iff]) | split | apply keeps_cfgSend
    | apply keeps_loLatch | apply keeps_respond

theorem keeps_slotRead {z : State} {s : State} {m off size : Nat} (h_s : Keeps z s) : Keeps z (State.slotRead s m off size) := by
  unfold State.slotRead
  with_reducible
  repeat' first
    | assumption | exact Keeps.refl _ | (simp only [keeps_upd_iff]) | split | apply keeps_refuse | apply keeps_respond
    | apply keeps_modMaster | apply keeps_foldl | apply keepsO_next | intro _ | (dsimp only)

theorem keeps_execLoRead {z : State} {m : Nat} {bar2 : Bool} {off size : Nat} {s : State} (h_s : Keeps z s) : KeepsO z (execLoRead m bar2 off size s) := by
  unfold execLoRead
  with_reducible
  repeat' first
    | assumption | exact Keeps.refl _ | (simp only [keeps_upd_iff]) | split | apply keeps_slotRead
    | apply keeps_refuse | apply keeps_barRead | apply keeps_foldl | apply keepsO_next

theorem keeps_execHiRead {z : State} {m off : Nat} {s : State} (h_s : Keeps z s) : KeepsO z (execHiRead m off s) := by
  unfold execHiRead
  with_reducible
  repeat' first
    | assumption | exact Keeps.refl _ | (simp only [keeps_upd_iff]) | split | apply keeps_refuse | apply keeps_loLatch
    | apply keeps_modMaster | apply keeps_respond | apply keeps_barRead | apply keeps_foldl | apply keepsO_next

theorem keeps_regPut {z : State} {s : State} {m off : Nat} {v : Word} (h_s : Keeps z s) : Keeps z (State.regPut s m off v) := by
  unfold State.regPut
  with_reducible
  repeat' first
    | assumption | exact Keeps.refl _ | (simp only [keeps_upd_iff]) | split | apply keeps_modMaster
    | apply keeps_modLd | apply keeps_cfgSend

theorem keeps_execRegisterWrite {z : State} {m : Nat} {bar2 : Bool} {off size : Nat} {v : BitVec 256} {s : State} (h_s : Keeps z s) : KeepsO z (execRegisterWrite m bar2 off size v s) := by
  unfold execRegisterWrite
  with_reducible
  repeat' first
    | assumption | exact Keeps.refl _ | split | apply keeps_refuse | apply keeps_respond | apply keeps_regPut
    | apply keeps_foldl | apply keepsO_next | intro _

theorem keeps_ownReg {z s : State} {m off : Nat} {need : Right} {f : State → Option State} (h_f : ∀ t, KeepsP t (f t))
    (h_s : Keeps z s) : KeepsO z (ownReg m off need f s) := by
  unfold ownReg
  split
  · exact keepsO_next (keeps_refuse h_s)
  · split
    · exact keepsO_next (keeps_respond (h_s.trans (h_f _ _ ‹_›)))
    · exact keepsO_next (keeps_refuse h_s)

theorem keeps_execCfgWrite {z : State} {t : Nat} {s : State} (h_s : Keeps z s) : KeepsO z (execCfgWrite t s) := by
  unfold execCfgWrite
  with_reducible
  repeat' first
    | assumption | exact Keeps.refl _ | split | (refine keeps_takeMail ?_ (by assumption)) | apply keeps_wakeTile
    | apply keeps_modTile | apply keeps_regPut | apply keeps_fromRoot | apply keeps_foldl | apply keepsO_next

theorem keeps_execCfgRead {z : State} {t : Nat} {s : State} (h_s : Keeps z s) : KeepsO z (execCfgRead t s) := by
  unfold execCfgRead
  with_reducible
  repeat' first
    | assumption | exact Keeps.refl _ | split | (refine keeps_takeMail ?_ (by assumption)) | apply keeps_wakeTile
    | apply keeps_fromRoot | apply keeps_foldl | apply keepsO_next

theorem keeps_execCfgReply {z : State} {s : State} (h_s : Keeps z s) : KeepsO z (execCfgReply s) := by
  unfold execCfgReply
  with_reducible
  repeat' first
    | assumption | exact Keeps.refl _ | (simp only [keeps_upd_iff]) | split
    | (refine keeps_takeInbox ?_ (by assumption)) | apply keeps_refuse | apply keeps_respond | apply keeps_loLatch
    | apply keeps_foldl | apply keepsO_next

theorem keeps_execTileClear {z : State} {m t : Nat} {v : Word} {s : State} (h_s : Keeps z s) : KeepsO z (execTileClear m t v s) := by
  unfold execTileClear
  with_reducible
  repeat' first
    | assumption | exact Keeps.refl _ | (simp only [keeps_upd_iff]) | split | apply keeps_ownReg | apply keeps_modTile
    | apply keeps_foldl | apply keepsO_next | intro _ | apply keepsP_some

theorem keeps_execTmpLearnGrp {z : State} {m g : Nat} {v : Word} {s : State} (h_s : Keeps z s) : KeepsO z (execTmpLearnGrp m g v s) := by
  unfold execTmpLearnGrp
  with_reducible
  repeat' first
    | assumption | exact Keeps.refl _ | (simp only [keeps_upd_iff]) | split | apply keeps_ownReg | apply keeps_foldl
    | apply keepsO_next | intro _ | apply keepsP_some

theorem keeps_execHubLossTail {z : State} {m : Nat} {v : Word} {s : State} (h_s : Keeps z s) : KeepsO z (execHubLossTail m v s) := by
  unfold execHubLossTail
  with_reducible
  repeat' first
    | assumption | exact Keeps.refl _ | (simp only [keeps_upd_iff]) | split | apply keeps_ownReg | apply keeps_foldl
    | apply keepsO_next | intro _ | apply keepsP_some | exact keepsP_none

theorem keeps_execMsixVectorUnmask {z : State} {m vec : Nat} {s : State} (h_s : Keeps z s) : KeepsO z (execMsixVectorUnmask m vec s) := by
  unfold execMsixVectorUnmask
  with_reducible
  repeat' first
    | assumption | exact Keeps.refl _ | (simp only [keeps_upd_iff]) | split | apply keeps_refuse | apply keeps_modLd
    | apply keeps_respond | apply keeps_foldl | apply keepsO_next

end Sys2Proof.Machine
end

