-- ==== Sys2Proof/Laws/KeepsKeeper.lean ====
section
/-! SUPPORT. Every operation of Machine/Keeper.lean answers a state that may follow its own (`Keeps`). -/

set_option linter.unusedTactic false
set_option linter.unreachableTactic false
set_option linter.unusedVariables false
set_option linter.unusedSimpArgs false

namespace Sys2Proof.Machine

open Sys2Proof

theorem keeps_redo {z : State} {s : State} {o : PoolOp} {e : Nat} (h_s : Keeps z s) : Keeps z (State.redo s o e) := by
  unfold State.redo
  with_reducible
  repeat' first
    | assumption | exact Keeps.refl _ | (simp only [keeps_upd_iff]) | split | apply keeps_putOp | apply keeps_opDone
    | apply keeps_pushLoss | apply keeps_agentFail | apply keeps_modEntry | apply keeps_release | apply keeps_foldl
    | apply keepsO_next | intro _

theorem keeps_execMemberFailed {z : State} {member : Nat} {s : State} (h_s : Keeps z s) : KeepsO z (execMemberFailed member s) := by
  unfold execMemberFailed
  with_reducible
  repeat' first
    | assumption | exact Keeps.refl _ | (simp only [keeps_upd_iff]) | split | apply keeps_wakeDom | apply keeps_redo
    | apply keeps_foldl | apply keepsO_next | intro _

theorem keeps_execRebuildWindow {z : State} {granted capacity : Nat} {s : State} (h_s : Keeps z s) : KeepsO z (execRebuildWindow granted capacity s) := by
  unfold execRebuildWindow
  with_reducible
  repeat' first
    | assumption | exact Keeps.refl _ | (simp only [keeps_upd_iff]) | split | apply keeps_foldl | apply keepsO_next

theorem keeps_execLeaseTick {z : State} {s : State} (h_s : Keeps z s) : KeepsO z (execLeaseTick s) := by
  unfold execLeaseTick
  with_reducible
  repeat' first
    | assumption | exact Keeps.refl _ | (simp only [keeps_upd_iff]) | split | apply keeps_foldl | apply keepsO_next

theorem keeps_execLeaseCheck {z : State} {lease : Nat} {claimed : Bool} {s : State} (h_s : Keeps z s) : KeepsO z (execLeaseCheck lease claimed s) := by
  unfold execLeaseCheck
  with_reducible
  repeat' first
    | assumption | exact Keeps.refl _ | (simp only [keeps_upd_iff]) | split | apply keeps_foldl | apply keepsO_next

theorem keeps_execPoolKeepCfg {z : State} {m : Nat} {v : Word} {s : State} (h_s : Keeps z s) : KeepsO z (execPoolKeepCfg m v s) := by
  unfold execPoolKeepCfg
  with_reducible
  repeat' first
    | assumption | exact Keeps.refl _ | (simp only [keeps_upd_iff]) | split | apply keeps_ownReg | apply keeps_foldl
    | apply keepsO_next | intro _ | apply keepsP_some | exact keepsP_none

theorem keeps_keepCmd {z : State} {m : Nat} {f : State → State} {s : State} (h_f : ∀ t0, Keeps t0 (f t0)) (h_s : Keeps z s) : KeepsO z (keepCmd m f s) := by
  unfold keepCmd
  with_reducible
  repeat' first
    | assumption | (refine Keeps.trans ?_ (h_f ..)) | exact Keeps.refl _ | (simp only [keeps_upd_iff]) | split
    | apply keeps_refuse | apply keeps_respond | apply keeps_foldl | apply keepsO_next

theorem keeps_execAddSpare {z : State} {m : Nat} {v : Word} {s : State} (h_s : Keeps z s) : KeepsO z (execAddSpare m v s) := by
  unfold execAddSpare
  with_reducible
  repeat' first
    | assumption | exact Keeps.refl _ | (simp only [keeps_upd_iff]) | split | apply keeps_keepCmd | apply keeps_foldl
    | apply keepsO_next | intro _

theorem keeps_execReinit {z : State} {m : Nat} {v : Word} {s : State} (h_s : Keeps z s) : KeepsO z (execReinit m v s) := by
  unfold execReinit
  with_reducible
  repeat' first
    | assumption | exact Keeps.refl _ | (simp only [keeps_upd_iff]) | split | apply keeps_keepCmd | apply keeps_foldl
    | apply keepsO_next | intro _

theorem keeps_execPoolFlush {z : State} {m : Nat} {v : Word} {s : State} (h_s : Keeps z s) : KeepsO z (execPoolFlush m v s) := by
  unfold execPoolFlush
  with_reducible
  repeat' first
    | assumption | exact Keeps.refl _ | (simp only [keeps_upd_iff]) | split | apply keeps_ownReg
    | apply keeps_flushWin | apply keeps_foldl | apply keepsO_next | intro _ | apply keepsP_some | exact keepsP_none
    | (dsimp only)

end Sys2Proof.Machine
end

