-- ==== Sys2Proof/Laws/KeepsPorts.lean ====
section
/-! SUPPORT. Every operation of Machine/Ports.lean answers a state that may follow its own (`Keeps`). -/

set_option linter.unusedTactic false
set_option linter.unreachableTactic false
set_option linter.unusedVariables false
set_option linter.unusedSimpArgs false

namespace Sys2Proof.Machine

open Sys2Proof

theorem keeps_outputWord {z : State} {s : State} {n : Nat} {v : Volley} {e : Word} (h_s : Keeps z s) : Keeps z (State.outputWord s n v e) := by
  unfold State.outputWord
  with_reducible
  repeat' first
    | assumption | exact Keeps.refl _ | (simp only [keeps_upd_iff]) | split | apply keeps_pushLoss
    | apply keeps_modPort | apply keeps_foldl | apply keepsO_next | intro _ | (dsimp only)

theorem keeps_execOutputEvent {z : State} {pt : Nat} {s : State} (h_s : Keeps z s) : KeepsO z (execOutputEvent pt s) := by
  unfold execOutputEvent
  with_reducible
  repeat' first
    | assumption | exact Keeps.refl _ | (simp only [keeps_upd_iff]) | split
    | (refine keeps_takeInbox ?_ (by assumption)) | apply keeps_outputWord | apply keeps_foldl | apply keepsO_next
    | intro _

theorem keeps_execCanSlotSend {z : State} {pt slot : Nat} {s : State} (h_s : Keeps z s) : KeepsO z (execCanSlotSend pt slot s) := by
  unfold execCanSlotSend
  with_reducible
  repeat' first
    | assumption | exact Keeps.refl _ | (simp only [keeps_upd_iff]) | split | apply keeps_modPort | apply keeps_foldl
    | apply keepsO_next | intro _ | (dsimp only)

theorem keeps_execHoldExpiry {z : State} {pt ch : Nat} {s : State} (h_s : Keeps z s) : KeepsO z (execHoldExpiry pt ch s) := by
  unfold execHoldExpiry
  with_reducible
  repeat' first
    | assumption | exact Keeps.refl _ | (simp only [keeps_upd_iff]) | split | apply keeps_modPort | apply keeps_foldl
    | apply keepsO_next

theorem keeps_execRampStep {z : State} {pt ch : Nat} {s : State} (h_s : Keeps z s) : KeepsO z (execRampStep pt ch s) := by
  unfold execRampStep
  with_reducible
  repeat' first
    | assumption | exact Keeps.refl _ | (simp only [keeps_upd_iff]) | split | apply keeps_modPort | apply keeps_foldl
    | apply keepsO_next

theorem keeps_execPwmPeriodStart {z : State} {pt ch : Nat} {s : State} (h_s : Keeps z s) : KeepsO z (execPwmPeriodStart pt ch s) := by
  unfold execPwmPeriodStart
  with_reducible
  repeat' first
    | assumption | exact Keeps.refl _ | (simp only [keeps_upd_iff]) | split | apply keeps_modPort | apply keeps_foldl
    | apply keepsO_next

theorem keeps_haltRecords {z : State} {s : State} {cause : Nat} (h_s : Keeps z s) : Keeps z (State.haltRecords s cause) := by
  unfold State.haltRecords
  with_reducible
  repeat' first
    | assumption | exact Keeps.refl _ | (simp only [keeps_upd_iff]) | split | apply keeps_portRecord
    | apply keeps_foldl | apply keepsO_next | intro _

theorem keeps_haltAssert {z : State} {s : State} (h_s : Keeps z s) : Keeps z (State.haltAssert s) := by
  unfold State.haltAssert
  with_reducible
  repeat' first
    | assumption | exact Keeps.refl _ | (simp only [keeps_upd_iff]) | split | apply keeps_eachOut
    | apply keeps_haltRecords

theorem keeps_execHaltNAssert {z : State} {ns : Nat} {s : State} (h_s : Keeps z s) : KeepsO z (execHaltNAssert ns s) := by
  unfold execHaltNAssert
  with_reducible
  repeat' first
    | assumption | exact Keeps.refl _ | (simp only [keeps_upd_iff]) | split | apply keeps_haltAssert
    | apply keeps_foldl | apply keepsO_next

theorem keeps_execHaltNRelease {z : State} {s : State} (h_s : Keeps z s) : KeepsO z (execHaltNRelease s) := by
  unfold execHaltNRelease
  with_reducible
  repeat' first
    | assumption | exact Keeps.refl _ | (simp only [keeps_upd_iff]) | split | apply keeps_haltRecords
    | apply keeps_foldl | apply keepsO_next

theorem keeps_execPresenceChange {z : State} {pt : Nat} {present : Bool} {s : State} (h_s : Keeps z s) : KeepsO z (execPresenceChange pt present s) := by
  unfold execPresenceChange
  with_reducible
  repeat' first
    | assumption | exact Keeps.refl _ | (simp only [keeps_upd_iff]) | split | apply keeps_modPort
    | apply keeps_wakeSource | apply keeps_wakeDom | apply keeps_enumerate | apply keeps_detach
    | apply keeps_portRecord | apply keeps_foldl | apply keepsO_next | intro _ | (dsimp only)

theorem keeps_execEnumerationComplete {z : State} {pt : Nat} {pids : List (BitVec 48)} {s : State} (h_s : Keeps z s) : KeepsO z (execEnumerationComplete pt pids s) := by
  unfold execEnumerationComplete
  with_reducible
  repeat' first
    | assumption | exact Keeps.refl _ | (simp only [keeps_upd_iff]) | split | apply keeps_enumFailed
    | apply keeps_attach | apply keeps_foldl | apply keepsO_next | intro _ | (dsimp only)

theorem keeps_execEnumerationTimeout {z : State} {pt : Nat} {s : State} (h_s : Keeps z s) : KeepsO z (execEnumerationTimeout pt s) := by
  unfold execEnumerationTimeout
  with_reducible
  repeat' first
    | assumption | exact Keeps.refl _ | (simp only [keeps_upd_iff]) | split | apply keeps_enumFailed
    | apply keeps_foldl | apply keepsO_next

theorem keeps_execEnumerationRetry {z : State} {pt : Nat} {s : State} (h_s : Keeps z s) : KeepsO z (execEnumerationRetry pt s) := by
  unfold execEnumerationRetry
  with_reducible
  repeat' first
    | assumption | exact Keeps.refl _ | (simp only [keeps_upd_iff]) | split | apply keeps_enumerate
    | apply keeps_foldl | apply keepsO_next

theorem keeps_protocolLoss {z : State} {s : State} {n : Nat} (h_s : Keeps z s) : Keeps z (State.protocolLoss s n) := by
  unfold State.protocolLoss
  with_reducible
  repeat' first
    | assumption | exact Keeps.refl _ | (simp only [keeps_upd_iff]) | split | apply keeps_detach

theorem keeps_execProtocolLoss {z : State} {pt : Nat} {s : State} (h_s : Keeps z s) : KeepsO z (execProtocolLoss pt s) := by
  unfold execProtocolLoss
  with_reducible
  repeat' first
    | assumption | exact Keeps.refl _ | (simp only [keeps_upd_iff]) | split | apply keeps_protocolLoss
    | apply keeps_foldl | apply keepsO_next

theorem keeps_i3cRead {z : State} {s : State} {n delta ch : Nat} {ind : List Byte} (h_s : Keeps z s) : Keeps z (State.i3cRead s n delta ch ind) := by
  induction ind generalizing s n delta ch with
  | nil => unfold State.i3cRead; exact h_s
  | cons b1 ind ih =>
    unfold State.i3cRead
    with_reducible
    repeat' first
      | assumption | apply ih | exact Keeps.refl _ | split | apply keeps_modPort | apply keeps_capture

theorem keeps_i3cEntry {z : State} {s : State} {n : Nat} {e : DWord} {bytes : List Byte} (h_s : Keeps z s) : Keeps z (State.i3cEntry s n e bytes) := by
  unfold State.i3cEntry
  with_reducible
  repeat' first
    | assumption | exact Keeps.refl _ | (simp only [keeps_upd_iff]) | split | apply keeps_i3cRead

theorem keeps_execI3cPoll {z : State} {pt entry : Nat} {bytes : List Byte} {s : State} (h_s : Keeps z s) : KeepsO z (execI3cPoll pt entry bytes s) := by
  unfold execI3cPoll
  with_reducible
  repeat' first
    | assumption | exact Keeps.refl _ | (simp only [keeps_upd_iff]) | split | apply keeps_i3cEntry | apply keeps_foldl
    | apply keepsO_next | intro _ | (dsimp only)

theorem keeps_execIbi {z : State} {pt target : Nat} {bytes : Tab (List Byte)} {s : State} (h_s : Keeps z s) : KeepsO z (execIbi pt target bytes s) := by
  unfold execIbi
  with_reducible
  repeat' first
    | assumption | exact Keeps.refl _ | (simp only [keeps_upd_iff]) | split | apply keeps_i3cEntry | apply keeps_foldl
    | apply keepsO_next | intro _ | (dsimp only)

theorem keeps_execHotJoin {z : State} {pt : Nat} {s : State} (h_s : Keeps z s) : KeepsO z (execHotJoin pt s) := by
  unfold execHotJoin
  with_reducible
  repeat' first
    | assumption | exact Keeps.refl _ | (simp only [keeps_upd_iff]) | split | apply keeps_detach
    | apply keeps_enumerate | apply keeps_portRecord | apply keeps_foldl | apply keepsO_next

theorem keeps_csiWords {z : State} {s : State} {n : Nat} {ind : List Word} (h_s : Keeps z s) : Keeps z (State.csiWords s n ind) := by
  induction ind generalizing s n with
  | nil => unfold State.csiWords; exact h_s
  | cons b1 ind ih =>
    unfold State.csiWords
    with_reducible
    repeat' first
      | assumption | apply ih | exact Keeps.refl _ | (simp only [keeps_upd_iff]) | split | apply keeps_capture
      | apply keeps_modPort

theorem keeps_execCsi2Packet {z : State} {pt vcn dt : Nat} {crcOk : Bool} {words : List Word} {s : State} (h_s : Keeps z s) : KeepsO z (execCsi2Packet pt vcn dt crcOk words s) := by
  unfold execCsi2Packet
  with_reducible
  repeat' first
    | assumption | exact Keeps.refl _ | (simp only [keeps_upd_iff]) | split | apply keeps_modPort
    | apply keeps_protocolLoss | apply keeps_csiWords | apply keeps_foldl | apply keepsO_next | intro _ | (dsimp only)

theorem keeps_execAerAddress {z : State} {pt : Nat} {addr : Byte} {s : State} (h_s : Keeps z s) : KeepsO z (execAerAddress pt addr s) := by
  unfold execAerAddress
  with_reducible
  repeat' first
    | assumption | exact Keeps.refl _ | (simp only [keeps_upd_iff]) | split | apply keeps_capture | apply keeps_foldl
    | apply keepsO_next

theorem keeps_execCanFrame {z : State} {pt : Nat} {ide remote : Bool} {fid : Nat} {data : List Byte} {s : State} (h_s : Keeps z s) : KeepsO z (execCanFrame pt ide remote fid data s) := by
  unfold execCanFrame
  with_reducible
  repeat' first
    | assumption | exact Keeps.refl _ | (simp only [keeps_upd_iff]) | split | apply keeps_captures | apply keeps_foldl
    | apply keepsO_next

theorem keeps_execIndexPulse {z : State} {pt : Nat} {s : State} (h_s : Keeps z s) : KeepsO z (execIndexPulse pt s) := by
  unfold execIndexPulse
  with_reducible
  repeat' first
    | assumption | exact Keeps.refl _ | (simp only [keeps_upd_iff]) | split | apply keeps_capture | apply keeps_foldl
    | apply keepsO_next

theorem keeps_execIllegalTransition {z : State} {pt : Nat} {s : State} (h_s : Keeps z s) : KeepsO z (execIllegalTransition pt s) := by
  unfold execIllegalTransition
  with_reducible
  repeat' first
    | assumption | exact Keeps.refl _ | (simp only [keeps_upd_iff]) | split | apply keeps_modPort
    | apply keeps_protocolLoss | apply keeps_foldl | apply keepsO_next | intro _ | (dsimp only)

theorem keeps_execPortRearm {z : State} {rk seq : Nat} {s : State} (h_s : Keeps z s) : KeepsO z (execPortRearm rk seq s) := by
  unfold execPortRearm
  with_reducible
  repeat' first
    | assumption | exact Keeps.refl _ | (simp only [keeps_upd_iff]) | split | apply keeps_runCmd
    | apply keeps_complete | apply keeps_modPort | apply keeps_foldl | apply keepsO_next | intro _ | (dsimp only)

end Sys2Proof.Machine
end

