-- ==== Sys2Proof/Laws/KeepsWorldCmds.lean ====
section
/-! SUPPORT. Every operation of Machine/WorldCmds.lean answers a state that may follow its own (`Keeps`). -/

set_option linter.unusedTactic false
set_option linter.unreachableTactic false
set_option linter.unusedVariables false
set_option linter.unusedSimpArgs false

namespace Sys2Proof.Machine

open Sys2Proof

theorem keeps_execAdvance {z : State} {rk seq : Nat} {s : State} (h_s : Keeps z s) : KeepsO z (execAdvance rk seq s) := by
  unfold execAdvance
  with_reducible
  repeat' first
    | assumption | exact Keeps.refl _ | split | apply keeps_runCmd | apply keeps_hostAdvance | apply keeps_complete
    | apply keeps_foldl | apply keepsO_next | intro _

theorem keeps_laneAdvance {z : State} {m delta : Nat} {a : State × Nat × Code} {w : Nat} (h_a : Keeps z a.1) :
    Keeps z (laneAdvance m delta a w).1 := by
  unfold laneAdvance
  dsimp only
  split
  · exact keeps_hostAdvance h_a
  · exact keeps_hostAdvance h_a

theorem keeps_lanes {z : State} {m delta : Nat} (l : List Nat) {a : State × Nat × Code} (h_a : Keeps z a.1) :
    Keeps z (l.foldl (laneAdvance m delta) a).1 := by
  induction l generalizing a with
  | nil => exact h_a
  | cons w r ih => exact ih (keeps_laneAdvance h_a)

theorem keeps_execGroupAdvance {z s : State} {rk seq : Nat} (h_s : Keeps z s) : KeepsO z (execGroupAdvance rk seq s) := by
  unfold execGroupAdvance
  exact keeps_runCmd (fun t _ => keeps_complete (keeps_lanes _ (.refl t))) h_s

theorem keeps_execStart {z : State} {rk seq : Nat} {s : State} (h_s : Keeps z s) : KeepsO z (execStart rk seq s) := by
  unfold execStart
  with_reducible
  repeat' first
    | assumption | exact Keeps.refl _ | (simp only [keeps_upd_iff]) | split | apply keeps_runCmd
    | apply keeps_startWorld | apply keeps_complete | apply keeps_foldl | apply keepsO_next | intro _ | (dsimp only)

theorem keeps_execPark {z : State} {rk seq : Nat} {s : State} (h_s : Keeps z s) : KeepsO z (execPark rk seq s) := by
  unfold execPark
  with_reducible
  repeat' first
    | assumption | exact Keeps.refl _ | (simp only [keeps_upd_iff]) | split | apply keeps_runCmd
    | apply keeps_complete | apply keeps_parkWorld | apply keeps_foldl | apply keepsO_next | intro _ | (dsimp only)

theorem keeps_execUnpark {z : State} {rk seq : Nat} {s : State} (h_s : Keeps z s) : KeepsO z (execUnpark rk seq s) := by
  unfold execUnpark
  with_reducible
  repeat' first
    | assumption | exact Keeps.refl _ | (simp only [keeps_upd_iff]) | split | apply keeps_runCmd
    | apply keeps_unparkWorld | apply keeps_complete | apply keeps_foldl | apply keepsO_next | intro _

theorem keeps_retireTiles {z : State} {s : State} {w : Nat} (h_s : Keeps z s) : Keeps z (State.retireTiles s w) := by
  unfold State.retireTiles
  with_reducible
  repeat' first
    | assumption | exact Keeps.refl _ | split | apply keeps_modTile | apply keeps_modWorld | apply keeps_foldl
    | apply keepsO_next | intro _

theorem keeps_retireWorld {z : State} {s : State} {w : Nat} {cmd : Nat × Nat} (h_s : Keeps z s) : Keeps z (State.retireWorld s w cmd) := by
  unfold State.retireWorld
  with_reducible
  repeat' first
    | assumption | exact Keeps.refl _ | (simp only [keeps_upd_iff]) | split | apply keeps_modWorld
    | apply keeps_outsWorldSafe | apply keeps_retireTiles | apply keeps_runningChanged | apply keeps_parkFollowers

theorem keeps_execRetire {z : State} {rk seq : Nat} {s : State} (h_s : Keeps z s) : KeepsO z (execRetire rk seq s) := by
  unfold execRetire
  with_reducible
  repeat' first
    | assumption | exact Keeps.refl _ | (simp only [keeps_upd_iff]) | split | apply keeps_runCmd
    | apply keeps_complete | apply keeps_retireWorld | apply keeps_begun | apply keeps_foldl | apply keepsO_next
    | intro _ | (dsimp only)

theorem keeps_execRetireComplete {z : State} {w : Nat} {s : State} (h_s : Keeps z s) : KeepsO z (execRetireComplete w s) := by
  unfold execRetireComplete
  with_reducible
  repeat' first
    | assumption | exact Keeps.refl _ | (simp only [keeps_upd_iff]) | split | apply keeps_worldRecord
    | apply keeps_modWorld | apply keeps_completeAt | apply keeps_amendCheck | apply keeps_foldl | apply keepsO_next
    | intro _ | (dsimp only)

theorem keeps_execTmpHostAdv {z : State} {m : Nat} {v : Word} {s : State} (h_s : Keeps z s) : KeepsO z (execTmpHostAdv m v s) := by
  unfold execTmpHostAdv
  with_reducible
  repeat' first
    | assumption | exact Keeps.refl _ | (simp only [keeps_upd_iff]) | split | apply keeps_refuse
    | apply keeps_hostAdvance | apply keeps_respond | apply keeps_foldl | apply keepsO_next

theorem keeps_injectOne {z : State} {s : State} {w : Nat} {e : Option DWord × Nat × Nat × Nat} (h_s : Keeps z s) : Keeps z (State.injectOne s w e) := by
  unfold State.injectOne
  with_reducible
  repeat' first
    | assumption | exact Keeps.refl _ | (simp only [keeps_upd_iff]) | split | apply keeps_send

theorem keeps_execInject {z : State} {rk seq : Nat} {s : State} (h_s : Keeps z s) : KeepsO z (execInject rk seq s) := by
  unfold execInject
  with_reducible
  repeat' first
    | assumption | exact Keeps.refl _ | (simp only [keeps_upd_iff]) | split | apply keeps_runCmd
    | apply keeps_injectOne | apply keeps_complete | apply keeps_foldl | apply keepsO_next | intro _

theorem keeps_execTurnReport {z : State} {s : State} (h_s : Keeps z s) : KeepsO z (execTurnReport s) := by
  unfold execTurnReport
  with_reducible
  repeat' first
    | assumption | exact Keeps.refl _ | (simp only [keeps_upd_iff]) | split
    | (refine keeps_takeInbox ?_ (by assumption)) | apply keeps_modTurn | apply keeps_reports | apply keeps_foldl
    | apply keepsO_next | intro _ | (dsimp only)

theorem keeps_applyStaged {z : State} {s : State} {w : Nat} (h_s : Keeps z s) : Keeps z (State.applyStaged s w) := by
  unfold State.applyStaged
  with_reducible
  repeat' first
    | assumption | exact Keeps.refl _ | (simp only [keeps_upd_iff]) | split | apply keeps_modWorld
    | apply keeps_subscribePeer

theorem keeps_turnOpens {z : State} {s : State} {w : Nat} (h_s : Keeps z s) : Keeps z (State.turnOpens s w) := by
  unfold State.turnOpens
  with_reducible
  repeat' first
    | assumption | exact Keeps.refl _ | split | apply keeps_openTurn | apply keeps_applyStaged
    | apply keeps_boundaryUpdates | apply keeps_amendCheck | apply keeps_moveT | apply keeps_hubEmit
    | apply keeps_judgeLag | apply keeps_afterPark | apply keeps_follow

theorem keeps_execTurnOpen {z : State} {w : Nat} {s : State} (h_s : Keeps z s) : KeepsO z (execTurnOpen w s) := by
  unfold execTurnOpen
  with_reducible
  repeat' first
    | assumption | exact Keeps.refl _ | (simp only [keeps_upd_iff]) | split | apply keeps_modWorld
    | apply keeps_turnOpens | apply keeps_foldl | apply keepsO_next | intro _ | (dsimp only)

theorem keeps_execTurnClose {z : State} {w : Nat} {s : State} (h_s : Keeps z s) : KeepsO z (execTurnClose w s) := by
  unfold execTurnClose
  with_reducible
  repeat' first
    | assumption | exact Keeps.refl _ | (simp only [keeps_upd_iff]) | split | apply keeps_closeTurn
    | apply keeps_foldl | apply keepsO_next

theorem keeps_execTetherExpiry {z : State} {w : Nat} {s : State} (h_s : Keeps z s) : KeepsO z (execTetherExpiry w s) := by
  unfold execTetherExpiry
  with_reducible
  repeat' first
    | assumption | exact Keeps.refl _ | (simp only [keeps_upd_iff]) | split | apply keeps_parkWorld
    | apply keeps_foldl | apply keepsO_next | intro _ | (dsimp only)

theorem keeps_subscribed {z : State} {s : State} {lk leader follower : Nat} (h_s : Keeps z s) : Keeps z (State.subscribed s lk leader follower) := by
  unfold State.subscribed
  with_reducible
  repeat' first
    | assumption | exact Keeps.refl _ | (simp only [keeps_upd_iff]) | split

theorem keeps_execSubscribe {z : State} {lk leader follower : Nat} {s : State} (h_s : Keeps z s) : KeepsO z (execSubscribe lk leader follower s) := by
  unfold execSubscribe
  with_reducible
  repeat' first
    | assumption | exact Keeps.refl _ | (simp only [keeps_upd_iff]) | split | apply keeps_subscribed
    | apply keeps_foldl | apply keepsO_next

theorem keeps_tempoForward {z : State} {s : State} {lk leader inc : Nat} (h_s : Keeps z s) : Keeps z (State.tempoForward s lk leader inc) := by
  unfold State.tempoForward
  with_reducible
  repeat' first
    | assumption | exact Keeps.refl _ | (simp only [keeps_upd_iff]) | split | apply keeps_inputCore
    | apply keeps_foldl | apply keepsO_next | intro _

theorem keeps_execTempoFwd {z : State} {lk leader inc : Nat} {s : State} (h_s : Keeps z s) : KeepsO z (execTempoFwd lk leader inc s) := by
  unfold execTempoFwd
  with_reducible
  repeat' first
    | assumption | exact Keeps.refl _ | (simp only [keeps_upd_iff]) | split | apply keeps_tempoForward
    | apply keeps_foldl | apply keepsO_next

theorem keeps_execLeaderParked {z : State} {lk leader : Nat} {s : State} (h_s : Keeps z s) : KeepsO z (execLeaderParked lk leader s) := by
  unfold execLeaderParked
  with_reducible
  repeat' first
    | assumption | exact Keeps.refl _ | (simp only [keeps_upd_iff]) | split | apply keeps_parkCore | apply keeps_foldl
    | apply keepsO_next | intro _

theorem keeps_execSweepAck {z : State} {s : State} (h_s : Keeps z s) : KeepsO z (execSweepAck s) := by
  unfold execSweepAck
  with_reducible
  repeat' first
    | assumption | exact Keeps.refl _ | (simp only [keeps_upd_iff]) | split
    | (refine keeps_takeInbox ?_ (by assumption)) | apply keeps_modWorld | apply keeps_foldl | apply keepsO_next
    | intro _ | (dsimp only)

end Sys2Proof.Machine
end

