-- ==== Sys2Proof/Laws/KeepsSpan.lean ====
section
/-! SUPPORT. Every operation of Machine/Span.lean answers a state that may follow its own (`Keeps`). -/

set_option linter.unusedTactic false
set_option linter.unreachableTactic false
set_option linter.unusedVariables false
set_option linter.unusedSimpArgs false

namespace Sys2Proof.Machine

open Sys2Proof

theorem keeps_spanDown {z : State} {s : State} {k : Nat} (h_s : Keeps z s) : Keeps z (State.spanDown s k) := by
  unfold State.spanDown
  with_reducible
  repeat' first
    | assumption | exact Keeps.refl _ | split | apply keeps_modSpan | apply keeps_loseEvents | apply keeps_parkWorld
    | apply keeps_postFault | apply keeps_foldl | apply keepsO_next | intro _

theorem keeps_execSpanAckTimeout {z : State} {lk : Nat} {s : State} (h_s : Keeps z s) : KeepsO z (execSpanAckTimeout lk s) := by
  unfold execSpanAckTimeout
  with_reducible
  repeat' first
    | assumption | exact Keeps.refl _ | (simp only [keeps_upd_iff]) | split | apply keeps_spanDown | apply keeps_foldl
    | apply keepsO_next | intro _ | (dsimp only)

theorem keeps_execSpanLinkRetrain {z : State} {lk : Nat} {s : State} (h_s : Keeps z s) : KeepsO z (execSpanLinkRetrain lk s) := by
  unfold execSpanLinkRetrain
  with_reducible
  repeat' first
    | assumption | exact Keeps.refl _ | (simp only [keeps_upd_iff]) | split | apply keeps_modSpan | apply keeps_foldl
    | apply keepsO_next

theorem keeps_execSpanLinkUp {z : State} {lk lanes : Nat} {s : State} (h_s : Keeps z s) : KeepsO z (execSpanLinkUp lk lanes s) := by
  unfold execSpanLinkUp
  with_reducible
  repeat' first
    | assumption | exact Keeps.refl _ | (simp only [keeps_upd_iff]) | split | apply keeps_modSpan | apply keeps_modDom
    | apply keeps_postFault | apply keeps_foldl | apply keepsO_next | intro _ | (dsimp only)

theorem keeps_execSpanFrame {z : State} {lk : Nat} {f : SpanFrame} {s : State} (h_s : Keeps z s) : KeepsO z (execSpanFrame lk f s) := by
  unfold execSpanFrame
  with_reducible
  repeat' first
    | assumption | exact Keeps.refl _ | (simp only [keeps_upd_iff]) | split | apply keeps_modSpan | apply keeps_foldl
    | apply keepsO_next | intro _ | (dsimp only)

theorem keeps_peerCtl {z : State} {s : State} {lk : Nat} {c : Ctl} (h_s : Keeps z s) : Keeps z (State.peerCtl s lk c) := by
  unfold State.peerCtl
  with_reducible
  repeat' first
    | assumption | exact Keeps.refl _ | (simp only [keeps_upd_iff]) | split | apply keeps_subscribed
    | apply keeps_tempoForward

theorem keeps_execSpanVolley {z : State} {lk : Nat} {s : State} (h_s : Keeps z s) : KeepsO z (execSpanVolley lk s) := by
  unfold execSpanVolley
  with_reducible
  repeat' first
    | assumption | exact Keeps.refl _ | (simp only [keeps_upd_iff]) | split | apply keeps_modSpan
    | apply keeps_peerCtl | apply keeps_loseEvents | apply keeps_inject | apply keeps_spanSend | apply keeps_foldl
    | apply keepsO_next

theorem keeps_spanHeld {z : State} {s : State} {lk : Nat} (h_s : Keeps z s) : Keeps z (State.spanHeld s lk) := by
  unfold State.spanHeld
  with_reducible
  repeat' first
    | assumption | exact Keeps.refl _ | (simp only [keeps_upd_iff]) | split | apply keeps_modSpan | apply keeps_modDom

theorem keeps_execLinkHold {z : State} {lk : Nat} {s : State} (h_s : Keeps z s) : KeepsO z (execLinkHold lk s) := by
  unfold execLinkHold
  with_reducible
  repeat' first
    | assumption | exact Keeps.refl _ | (simp only [keeps_upd_iff]) | split | apply keeps_spanHeld | apply keeps_foldl
    | apply keepsO_next

theorem keeps_execLinkHoldAck {z : State} {lk : Nat} {s : State} (h_s : Keeps z s) : KeepsO z (execLinkHoldAck lk s) := by
  unfold execLinkHoldAck
  with_reducible
  repeat' first
    | assumption | exact Keeps.refl _ | (simp only [keeps_upd_iff]) | split | apply keeps_spanHeld | apply keeps_foldl
    | apply keepsO_next

theorem keeps_execSpanHoldWake {z : State} {lk : Nat} {s : State} (h_s : Keeps z s) : KeepsO z (execSpanHoldWake lk s) := by
  unfold execSpanHoldWake
  with_reducible
  repeat' first
    | assumption | exact Keeps.refl _ | (simp only [keeps_upd_iff]) | split | apply keeps_modSpan | apply keeps_modDom
    | apply keeps_recordWake | apply keeps_foldl | apply keepsO_next

theorem keeps_execSpanHoldRetrainTimeout {z : State} {lk : Nat} {s : State} (h_s : Keeps z s) : KeepsO z (execSpanHoldRetrainTimeout lk s) := by
  unfold execSpanHoldRetrainTimeout
  with_reducible
  repeat' first
    | assumption | exact Keeps.refl _ | (simp only [keeps_upd_iff]) | split | apply keeps_spanDown | apply keeps_foldl
    | apply keepsO_next

end Sys2Proof.Machine
end

