-- ==== Sys2Proof/Laws/KeepsTrace.lean ====
section
/-! SUPPORT. Every operation of Machine/Trace.lean answers a state that may follow its own (`Keeps`). -/

set_option linter.unusedTactic false
set_option linter.unreachableTactic false
set_option linter.unusedVariables false
set_option linter.unusedSimpArgs false

namespace Sys2Proof.Machine

open Sys2Proof

theorem keeps_traceNext {z s t : State} {v : TraceRec} (h_s : Keeps z s) (e : State.traceNext s = some (v, t)) : Keeps z t := by
  unfold State.traceNext at e
  dsimp only at e
  split at e
  · cases e
  · split at e
    · split at e
      · cases e; apply keeps_modTile; simpa only [keeps_upd_iff] using h_s
      · cases e
    · split at e
      · cases e; simpa only [keeps_upd_iff] using h_s
      · cases e

theorem keeps_execTraceRecord {z : State} {s : State} (h_s : Keeps z s) : KeepsO z (execTraceRecord s) := by
  unfold execTraceRecord
  with_reducible
  repeat' first
    | assumption | exact Keeps.refl _ | (simp only [keeps_upd_iff]) | split
    | (refine keeps_traceNext ?_ (by assumption)) | apply keeps_foldl | apply keepsO_next

theorem keeps_traceFlush {z : State} {s : State} {ind : Nat} (h_s : Keeps z s) : Keeps z (State.traceFlush s ind) := by
  induction ind generalizing s with
  | zero => unfold State.traceFlush; exact h_s
  | succ ind ih =>
    unfold State.traceFlush
    with_reducible
    repeat' first
      | assumption | apply ih | exact Keeps.refl _ | (simp only [keeps_upd_iff]) | split
      | (refine keeps_traceNext ?_ (by assumption))

theorem keeps_execTracePortDrain {z : State} {halfwords : Nat} {s : State} (h_s : Keeps z s) : KeepsO z (execTracePortDrain halfwords s) := by
  unfold execTracePortDrain
  with_reducible
  repeat' first
    | assumption | exact Keeps.refl _ | (simp only [keeps_upd_iff]) | split | apply keeps_foldl | apply keepsO_next

theorem keeps_traceCmd {z : State} {op need : Nat} {idle : Bool} {ok : State → Nat → DWord → Bool} {f : State → ExecCmd → Nat → Word → Trace} {rk seq : Nat} {s : State} (h_s : Keeps z s) : KeepsO z (traceCmd op need idle ok f rk seq s) := by
  unfold traceCmd
  with_reducible
  repeat' first
    | assumption | exact Keeps.refl _ | (simp only [keeps_upd_iff]) | split | apply keeps_runCmd
    | apply keeps_complete | apply keeps_wakeDom | apply keeps_foldl | apply keepsO_next | intro _

theorem keeps_execTraceStop {z : State} {rk seq : Nat} {s : State} (h_s : Keeps z s) : KeepsO z (execTraceStop rk seq s) := by
  unfold execTraceStop
  with_reducible
  repeat' first
    | assumption | exact Keeps.refl _ | (simp only [keeps_upd_iff]) | split | apply keeps_runCmd
    | apply keeps_complete | apply keeps_wakeDom | apply keeps_traceFlush | apply keeps_foldl | apply keepsO_next
    | intro _

theorem keeps_execTraceStart {z : State} {rk seq : Nat} {s : State} (h_s : Keeps z s) : KeepsO z (execTraceStart rk seq s) := by
  unfold execTraceStart
  with_reducible
  repeat' first
    | assumption | exact Keeps.refl _ | (simp only [keeps_upd_iff]) | split | apply keeps_traceCmd

theorem keeps_execTraceSource {z : State} {rk seq : Nat} {s : State} (h_s : Keeps z s) : KeepsO z (execTraceSource rk seq s) := by
  unfold execTraceSource
  with_reducible
  repeat' first
    | assumption | exact Keeps.refl _ | split | apply keeps_traceCmd

theorem keeps_execTraceFilter {z : State} {rk seq : Nat} {s : State} (h_s : Keeps z s) : KeepsO z (execTraceFilter rk seq s) := by
  unfold execTraceFilter
  with_reducible
  repeat' first
    | assumption | exact Keeps.refl _ | split | apply keeps_traceCmd

theorem keeps_execTraceTrigger {z : State} {rk seq : Nat} {s : State} (h_s : Keeps z s) : KeepsO z (execTraceTrigger rk seq s) := by
  unfold execTraceTrigger
  with_reducible
  repeat' first
    | assumption | exact Keeps.refl _ | split | apply keeps_traceCmd

theorem keeps_execTraceOutput {z : State} {rk seq : Nat} {s : State} (h_s : Keeps z s) : KeepsO z (execTraceOutput rk seq s) := by
  unfold execTraceOutput
  with_reducible
  repeat' first
    | assumption | exact Keeps.refl _ | split | apply keeps_traceCmd

theorem keeps_execTraceClear {z : State} {rk seq : Nat} {s : State} (h_s : Keeps z s) : KeepsO z (execTraceClear rk seq s) := by
  unfold execTraceClear
  with_reducible
  repeat' first
    | assumption | exact Keeps.refl _ | split | apply keeps_traceCmd

theorem keeps_traceDrain {z : State} {s : State} (h_s : Keeps z s) : Keeps z (State.traceDrain s) := by
  unfold State.traceDrain
  with_reducible
  repeat' first
    | assumption | exact Keeps.refl _ | (simp only [keeps_upd_iff]) | split | apply keeps_traceFlush

theorem keeps_traceReset {z : State} {s : State} (h_s : Keeps z s) : Keeps z (State.traceReset s) := by
  unfold State.traceReset
  with_reducible
  repeat' first
    | assumption | exact Keeps.refl _ | (simp only [keeps_upd_iff])

theorem keeps_traceTileReset {z : State} {s : State} {t : Nat} (h_s : Keeps z s) : Keeps z (State.traceTileReset s t) := by
  unfold State.traceTileReset
  with_reducible
  repeat' first
    | assumption | exact Keeps.refl _ | (simp only [keeps_upd_iff]) | split | apply keeps_modTile

end Sys2Proof.Machine
end

