-- ==== Sys2Proof/Laws/KeepsPower.lean ====
section
/-! SUPPORT. Every operation of Machine/Power.lean answers a state that may follow its own (`Keeps`). -/

set_option linter.unusedTactic false
set_option linter.unreachableTactic false
set_option linter.unusedVariables false
set_option linter.unusedSimpArgs false

namespace Sys2Proof.Machine

open Sys2Proof

theorem keeps_execLullEntry {z : State} {dom : Nat} {s : State} (h_s : Keeps z s) : KeepsO z (execLullEntry dom s) := by
  unfold execLullEntry
  with_reducible
  repeat' first
    | assumption | exact Keeps.refl _ | (simp only [keeps_upd_iff]) | split | apply keeps_modDom | apply keeps_foldl
    | apply keepsO_next

theorem keeps_execHoldEntry {z : State} {dom : Nat} {s : State} (h_s : Keeps z s) : KeepsO z (execHoldEntry dom s) := by
  unfold execHoldEntry
  with_reducible
  repeat' first
    | assumption | exact Keeps.refl _ | (simp only [keeps_upd_iff]) | split | apply keeps_modSpan | apply keeps_modDom
    | apply keeps_foldl | apply keepsO_next

theorem keeps_domAwake {z : State} {s : State} {d : Nat} (h_s : Keeps z s) : Keeps z (State.domAwake s d) := by
  unfold State.domAwake
  with_reducible
  repeat' first
    | assumption | exact Keeps.refl _ | (simp only [keeps_upd_iff]) | split | apply keeps_modDom

theorem keeps_execDomainReady {z : State} {dom : Nat} {s : State} (h_s : Keeps z s) : KeepsO z (execDomainReady dom s) := by
  unfold execDomainReady
  with_reducible
  repeat' first
    | assumption | exact Keeps.refl _ | (simp only [keeps_upd_iff]) | split | apply keeps_domAwake | apply keeps_foldl
    | apply keepsO_next

theorem keeps_execPowerReqWake {z : State} {dom : Nat} {s : State} (h_s : Keeps z s) : KeepsO z (execPowerReqWake dom s) := by
  unfold execPowerReqWake
  with_reducible
  repeat' first
    | assumption | exact Keeps.refl _ | (simp only [keeps_upd_iff]) | split | apply keeps_wakeDom | apply keeps_foldl
    | apply keepsO_next

theorem keeps_execPowerReqIdle {z : State} {dom : Nat} {s : State} (h_s : Keeps z s) : KeepsO z (execPowerReqIdle dom s) := by
  unfold execPowerReqIdle
  with_reducible
  repeat' first
    | assumption | exact Keeps.refl _ | (simp only [keeps_upd_iff]) | split | apply keeps_modDom | apply keeps_foldl
    | apply keepsO_next

theorem keeps_execPowerReqState {z : State} {dom state : Nat} {s : State} (h_s : Keeps z s) : KeepsO z (execPowerReqState dom state s) := by
  unfold execPowerReqState
  with_reducible
  repeat' first
    | assumption | exact Keeps.refl _ | (simp only [keeps_upd_iff]) | split | apply keeps_modDom | apply keeps_foldl
    | apply keepsO_next

theorem keeps_execPowerReqCap {z : State} {dom : Nat} {on : Bool} {s : State} (h_s : Keeps z s) : KeepsO z (execPowerReqCap dom on s) := by
  unfold execPowerReqCap
  with_reducible
  repeat' first
    | assumption | exact Keeps.refl _ | (simp only [keeps_upd_iff]) | split | apply keeps_modTile | apply keeps_foldl
    | apply keepsO_next | intro _

theorem keeps_execCapWindow {z : State} {p : Nat} {s : State} (h_s : Keeps z s) : KeepsO z (execCapWindow p s) := by
  unfold execCapWindow
  with_reducible
  repeat' first
    | assumption | exact Keeps.refl _ | (simp only [keeps_upd_iff]) | split | apply keeps_foldl | apply keepsO_next

theorem keeps_powerSet {z : State} {op : Nat} {f : State → ExecCmd → DWord → State × Code} {rk seq : Nat} {s : State} (h_f : ∀ t0 t1 t2, Keeps t0 (f t0 t1 t2).1) (h_s : Keeps z s) : KeepsO z (powerSet op f rk seq s) := by
  unfold powerSet
  with_reducible
  repeat' first
    | assumption | (refine Keeps.trans ?_ (h_f ..)) | exact Keeps.refl _ | split | apply keeps_runCmd
    | apply keeps_complete | apply keeps_foldl | apply keepsO_next | intro _

theorem keeps_execPowerSetCap {z : State} {rk seq : Nat} {s : State} (h_s : Keeps z s) : KeepsO z (execPowerSetCap rk seq s) := by
  unfold execPowerSetCap
  with_reducible
  repeat' first
    | assumption | exact Keeps.refl _ | (simp only [keeps_upd_iff]) | split | apply keeps_powerSet | apply keeps_foldl
    | apply keepsO_next | intro _

theorem keeps_wakeDeep {z : State} {s : State} (h_s : Keeps z s) : Keeps z (State.wakeDeep s) := by
  unfold State.wakeDeep
  with_reducible
  repeat' first
    | assumption | exact Keeps.refl _ | (simp only [keeps_upd_iff]) | split | apply keeps_wakeDom | apply keeps_foldl
    | apply keepsO_next | intro _

theorem keeps_execPowerSetDepth {z : State} {rk seq : Nat} {s : State} (h_s : Keeps z s) : KeepsO z (execPowerSetDepth rk seq s) := by
  unfold execPowerSetDepth
  with_reducible
  repeat' first
    | assumption | exact Keeps.refl _ | (simp only [keeps_upd_iff]) | split | apply keeps_powerSet
    | apply keeps_wakeDeep | apply keeps_foldl | apply keepsO_next | intro _

theorem keeps_execPowerSetDoldrums {z : State} {rk seq : Nat} {s : State} (h_s : Keeps z s) : KeepsO z (execPowerSetDoldrums rk seq s) := by
  unfold execPowerSetDoldrums
  with_reducible
  repeat' first
    | assumption | exact Keeps.refl _ | (simp only [keeps_upd_iff]) | split | apply keeps_powerSet | apply keeps_foldl
    | apply keepsO_next | intro _

theorem keeps_powerLoss {z s : State} (h_s : Keeps z s) : Keeps z (State.powerLoss s) := by
  unfold State.powerLoss
  exact keeps_mem h_s (fun _ => rfl)

theorem keeps_doldRecord {z : State} {s : State} (h_s : Keeps z s) : Keeps z (State.doldRecord s) := by
  unfold State.doldRecord
  with_reducible
  repeat' first
    | assumption | exact Keeps.refl _ | (simp only [keeps_upd_iff])

theorem keeps_enterDoldrums {z : State} {s : State} (h_s : Keeps z s) : Keeps z (State.enterDoldrums s) := by
  unfold State.enterDoldrums
  with_reducible
  repeat' first
    | assumption | exact Keeps.refl _ | (simp only [keeps_upd_iff]) | split | apply keeps_eachOut
    | apply keeps_doldRecord | apply keeps_powerLoss | apply keeps_packageWake

theorem keeps_execDoldrumsEntry {z : State} {s : State} (h_s : Keeps z s) : KeepsO z (execDoldrumsEntry s) := by
  unfold execDoldrumsEntry
  with_reducible
  repeat' first
    | assumption | exact Keeps.refl _ | (simp only [keeps_upd_iff]) | split | apply keeps_enterDoldrums
    | apply keeps_foldl | apply keepsO_next

theorem keeps_execDoldrumsAuto {z : State} {s : State} (h_s : Keeps z s) : KeepsO z (execDoldrumsAuto s) := by
  unfold execDoldrumsAuto
  with_reducible
  repeat' first
    | assumption | exact Keeps.refl _ | (simp only [keeps_upd_iff]) | split | apply keeps_enterDoldrums
    | apply keeps_foldl | apply keepsO_next

theorem keeps_execWakeTimerExpiry {z : State} {s : State} (h_s : Keeps z s) : KeepsO z (execWakeTimerExpiry s) := by
  unfold execWakeTimerExpiry
  with_reducible
  repeat' first
    | assumption | exact Keeps.refl _ | (simp only [keeps_upd_iff]) | split | apply keeps_wakeDom
    | apply keeps_parkWorld | apply keeps_wakeSource | apply keeps_foldl | apply keepsO_next | intro _

theorem keeps_execPerstRelease {z : State} {port : Nat} {s : State} (h_s : Keeps z s) : KeepsO z (execPerstRelease port s) := by
  unfold execPerstRelease
  with_reducible
  repeat' first
    | assumption | exact Keeps.refl _ | (simp only [keeps_upd_iff]) | split | apply keeps_wakeSource
    | apply keeps_foldl | apply keepsO_next

theorem keeps_sense {z : State} {s : State} {sensor tj : Nat} (h_s : Keeps z s) : Keeps z (State.sense s sensor tj) := by
  unfold State.sense
  with_reducible
  repeat' first
    | assumption | exact Keeps.refl _ | (simp only [keeps_upd_iff])

theorem keeps_hot {z : State} {s : State} (h_s : Keeps z s) : Keeps z (State.hot s) := by
  unfold State.hot
  with_reducible
  repeat' first
    | assumption | exact Keeps.refl _ | (simp only [keeps_upd_iff])

theorem keeps_execThermalThrottle {z : State} {sensor tj : Nat} {s : State} (h_s : Keeps z s) : KeepsO z (execThermalThrottle sensor tj s) := by
  unfold execThermalThrottle
  with_reducible
  repeat' first
    | assumption | exact Keeps.refl _ | (simp only [keeps_upd_iff]) | split | apply keeps_sense | apply keeps_hot
    | apply keeps_foldl | apply keepsO_next

theorem keeps_execThermalClear {z : State} {tj : Nat} {s : State} (h_s : Keeps z s) : KeepsO z (execThermalClear tj s) := by
  unfold execThermalClear
  with_reducible
  repeat' first
    | assumption | exact Keeps.refl _ | (simp only [keeps_upd_iff]) | split | apply keeps_sense | apply keeps_foldl
    | apply keepsO_next

theorem keeps_execThermalTrip {z : State} {sensor tj : Nat} {s : State} (h_s : Keeps z s) : KeepsO z (execThermalTrip sensor tj s) := by
  unfold execThermalTrip
  with_reducible
  repeat' first
    | assumption | exact Keeps.refl _ | (simp only [keeps_upd_iff]) | split | apply keeps_sense | apply keeps_hot
    | apply keeps_enterDoldrums | apply keeps_foldl | apply keepsO_next

theorem keeps_execTripCooldown {z : State} {s : State} (h_s : Keeps z s) : KeepsO z (execTripCooldown s) := by
  unfold execTripCooldown
  with_reducible
  repeat' first
    | assumption | exact Keeps.refl _ | (simp only [keeps_upd_iff]) | split | apply keeps_packageWake
    | apply keeps_foldl | apply keepsO_next

theorem keeps_inputAll {z : State} {s : State} {kind i : Nat} (h_s : Keeps z s) : Keeps z (State.inputAll s kind i) := by
  unfold State.inputAll
  with_reducible
  repeat' first
    | assumption | exact Keeps.refl _ | (simp only [keeps_upd_iff]) | split | apply keeps_input | apply keeps_foldl
    | apply keepsO_next | intro _

theorem keeps_execTempoInEdge {z : State} {pin : Nat} {rising : Bool} {s : State} (h_s : Keeps z s) : KeepsO z (execTempoInEdge pin rising s) := by
  unfold execTempoInEdge
  with_reducible
  repeat' first
    | assumption | exact Keeps.refl _ | (simp only [keeps_upd_iff]) | split | apply keeps_inputAll
    | apply keeps_wakeSource | apply keeps_foldl | apply keepsO_next

theorem keeps_execTempoInGlitch {z : State} {pin ns : Nat} {s : State} (h_s : Keeps z s) : KeepsO z (execTempoInGlitch pin ns s) := by
  unfold execTempoInGlitch
  with_reducible
  repeat' first
    | assumption | exact Keeps.refl _ | (simp only [keeps_upd_iff]) | split | apply keeps_foldl | apply keepsO_next

theorem keeps_backCount {z : State} {s : State} {w : Nat} (h_s : Keeps z s) : Keeps z (State.backCount s w) := by
  unfold State.backCount
  with_reducible
  repeat' first
    | assumption | exact Keeps.refl _ | (simp only [keeps_upd_iff]) | split | apply keeps_wakeDom
    | apply keeps_modWorld | apply keeps_parkWorld | apply keeps_foldl | apply keepsO_next | intro _ | (dsimp only)

theorem keeps_foreCount {z : State} {s : State} {w : Nat} (h_s : Keeps z s) : Keeps z (State.foreCount s w) := by
  unfold State.foreCount
  with_reducible
  repeat' first
    | assumption | exact Keeps.refl _ | (simp only [keeps_upd_iff]) | split | apply keeps_wakeDom
    | apply keeps_modWorld | apply keeps_input | apply keeps_foldl | apply keepsO_next | intro _ | (dsimp only)

theorem keeps_execEncoderCount {z : State} {pt : Nat} {forward : Bool} {s : State} (h_s : Keeps z s) : KeepsO z (execEncoderCount pt forward s) := by
  unfold execEncoderCount
  with_reducible
  repeat' first
    | assumption | exact Keeps.refl _ | split | apply keeps_modPort | apply keeps_foreCount | apply keeps_backCount
    | apply keeps_foldl | apply keepsO_next | intro _

end Sys2Proof.Machine
end

