-- ==== Sys2Proof/Laws/KeepsLoad.lean ====
section
/-! SUPPORT. Every operation of Machine/Load.lean answers a state that may follow its own (`Keeps`). -/

set_option linter.unusedTactic false
set_option linter.unreachableTactic false
set_option linter.unusedVariables false
set_option linter.unusedSimpArgs false

namespace Sys2Proof.Machine

open Sys2Proof

theorem keeps_colItems {z s : State} {t n a : Nat} {l : List Nat} (h_s : Keeps z s) : Keeps z (State.colItems s t n a l) := by
  induction l generalizing s a with
  | nil => unfold State.colItems; exact h_s
  | cons x r ih => unfold State.colItems; exact ih (keeps_colWrite h_s)

theorem keeps_colZero {z s : State} {t a n : Nat} (h_s : Keeps z s) : Keeps z (State.colZero s t a n) := by
  unfold State.colZero
  exact keeps_mem h_s (fun h => by simpa using wf_zero h _ _)

theorem keeps_writeReserve {z : State} {s : State} {t : Nat} (h_s : Keeps z s) : Keeps z (State.writeReserve s t) := by
  unfold State.writeReserve
  with_reducible
  repeat' first
    | assumption | exact Keeps.refl _ | split | apply keeps_colZero | apply keeps_colWrite | apply keeps_colItems
    | apply keeps_foldl | apply keepsO_next | intro _

theorem keeps_putHost {z : State} {s : State} {e : HostEntry} (h_s : Keeps z s) : Keeps z (State.putHost s e) := by
  unfold State.putHost
  with_reducible
  repeat' first
    | assumption | exact Keeps.refl _ | split | apply keeps_modLd

theorem keeps_putRack {z : State} {s : State} {r : RackCfg} (h_s : Keeps z s) : Keeps z (State.putRack s r) := by
  unfold State.putRack
  with_reducible
  repeat' first
    | assumption | exact Keeps.refl _ | (simp only [keeps_upd_iff]) | split | apply keeps_modRack

theorem keeps_putSet {z : State} {s : State} {c : SetCfg} (h_s : Keeps z s) : Keeps z (State.putSet s c) := by
  unfold State.putSet
  with_reducible
  repeat' first
    | assumption | exact Keeps.refl _ | (simp only [keeps_upd_iff]) | split | apply keeps_modRack | apply keeps_foldl
    | apply keepsO_next | intro _

theorem keeps_putWorld {z : State} {s : State} {w : Nat} {e : WorldEntry} (h_s : Keeps z s) : Keeps z (State.putWorld s w e) := by
  unfold State.putWorld
  with_reducible
  repeat' first
    | assumption | exact Keeps.refl _ | split | apply keeps_modWorld

theorem keeps_putPort {z : State} {s : State} {n : Nat} {c : PortCfg} (h_s : Keeps z s) : Keeps z (State.putPort s n c) := by
  unfold State.putPort
  with_reducible
  repeat' first
    | assumption | exact Keeps.refl _ | split | apply keeps_modPort

theorem keeps_putWindows {z : State} {s : State} {c : PoolCfg} (h_s : Keeps z s) : Keeps z (State.putWindows s c) := by
  unfold State.putWindows
  with_reducible
  repeat' first
    | assumption | exact Keeps.refl _ | (simp only [keeps_upd_iff])

theorem keeps_putPool {z : State} {s : State} {c : PoolCfg} (h_s : Keeps z s) : Keeps z (State.putPool s c) := by
  unfold State.putPool
  with_reducible
  repeat' first
    | assumption | exact Keeps.refl _ | (simp only [keeps_upd_iff])

theorem keeps_putTrace {z : State} {s : State} {c : TraceCfg} (h_s : Keeps z s) : Keeps z (State.putTrace s c) := by
  unfold State.putTrace
  with_reducible
  repeat' first
    | assumption | exact Keeps.refl _ | (simp only [keeps_upd_iff])

theorem keeps_putColumn {z : State} {s : State} {t : Nat} {param : Word} {bytes : List Byte} (h_s : Keeps z s) : Keeps z (State.putColumn s t param bytes) := by
  unfold State.putColumn
  with_reducible
  repeat' first
    | assumption | exact Keeps.refl _ | (simp only [keeps_upd_iff]) | split | apply keeps_colBytes

theorem keeps_putSection {z : State} {s : State} {sec : Section} (h_s : Keeps z s) : Keeps z (State.putSection s sec) := by
  unfold State.putSection
  with_reducible
  repeat' first
    | assumption | exact Keeps.refl _ | (simp only [keeps_upd_iff]) | split | apply keeps_putHost | apply keeps_putSet
    | apply keeps_putRack | apply keeps_putWorld | apply keeps_putPort | apply keeps_putPool | apply keeps_putTrace
    | apply keeps_modTile | apply keeps_putColumn | apply keeps_foldl | apply keepsO_next | intro _

end Sys2Proof.Machine
end

