-- ==== Sys2Proof/Laws/KeepsBoot.lean ====
section
/-! SUPPORT. Every operation of Machine/Boot.lean answers a state that may follow its own (`Keeps`). -/

set_option linter.unusedTactic false
set_option linter.unreachableTactic false
set_option linter.unusedVariables false
set_option linter.unusedSimpArgs false

namespace Sys2Proof.Machine

open Sys2Proof

theorem keeps_bootLog {z : State} {s : State} {code : Nat} {detail : Option Nat} (h_s : Keeps z s) : Keeps z (State.bootLog s code detail) := by
  unfold State.bootLog
  with_reducible
  repeat' first
    | assumption | exact Keeps.refl _ | (simp only [keeps_upd_iff])

theorem keeps_clearLoaded {z : State} {s : State} (h_s : Keeps z s) : Keeps z (State.clearLoaded s) := by
  unfold State.clearLoaded
  with_reducible
  repeat' first
    | assumption | exact Keeps.refl _ | (simp only [keeps_upd_iff]) | split | apply keeps_powerLoss

theorem keeps_pinsOff {z : State} {s : State} (h_s : Keeps z s) : Keeps z (State.pinsOff s) := by
  unfold State.pinsOff
  with_reducible
  repeat' first
    | assumption | exact Keeps.refl _ | (simp only [keeps_upd_iff])

theorem keeps_bootStops {z : State} {s : State} {code : Nat} (h_s : Keeps z s) : Keeps z (State.bootStops s code) := by
  unfold State.bootStops
  with_reducible
  repeat' first
    | assumption | exact Keeps.refl _ | (simp only [keeps_upd_iff]) | split | apply keeps_pinsOff

theorem keeps_readCharters {z : State} {s : State} (h_s : Keeps z s) : Keeps z (State.readCharters s) := by
  unfold State.readCharters
  with_reducible
  repeat' first
    | assumption | exact Keeps.refl _ | (simp only [keeps_upd_iff]) | split | apply keeps_bootLog | apply keeps_foldl
    | apply keepsO_next | intro _

theorem keeps_earlyDone {z : State} {s : State} {im : Image} (h_s : Keeps z s) : Keeps z (State.earlyDone s im) := by
  unfold State.earlyDone
  with_reducible
  repeat' first
    | assumption | exact Keeps.refl _ | (simp only [keeps_upd_iff]) | split | apply keeps_readCharters

theorem keeps_early {z : State} {s : State} (h_s : Keeps z s) : Keeps z (State.early s) := by
  unfold State.early
  with_reducible
  repeat' first
    | assumption | exact Keeps.refl _ | (simp only [keeps_upd_iff]) | split | apply keeps_earlyDone
    | apply keeps_bootLog | apply keeps_bootStops

theorem keeps_fallBack {z : State} {s : State} (h_s : Keeps z s) : Keeps z (State.fallBack s) := by
  unfold State.fallBack
  with_reducible
  repeat' first
    | assumption | exact Keeps.refl _ | (simp only [keeps_upd_iff]) | split | apply keeps_bootLog | apply keeps_early
    | apply keeps_clearLoaded | apply keeps_pinsOff

theorem keeps_bootFails {z : State} {s : State} {phase code : Nat} {detail : Option Nat} (h_s : Keeps z s) : Keeps z (State.bootFails s phase code detail) := by
  unfold State.bootFails
  with_reducible
  repeat' first
    | assumption | exact Keeps.refl _ | (simp only [keeps_upd_iff]) | split | apply keeps_bootLog
    | apply keeps_fallBack | apply keeps_bootStops

theorem keeps_bootStart {z : State} {s : State} (h_s : Keeps z s) : Keeps z (State.bootStart s) := by
  unfold State.bootStart
  with_reducible
  repeat' first
    | assumption | exact Keeps.refl _ | (simp only [keeps_upd_iff]) | split | apply keeps_earlyDone
    | apply keeps_bootFails

theorem keeps_zeroReserves {z s : State} {sts : List Nat} (h_s : Keeps z s) : Keeps z (State.zeroReserves s sts) := by
  unfold State.zeroReserves
  exact keeps_mem h_s (fun h => cellsWf_filter _ h)

theorem keeps_roll {z : State} {s : State} {sts : List Nat} (h_s : Keeps z s) : Keeps z (State.roll s sts) := by
  unfold State.roll
  with_reducible
  repeat' first
    | assumption | exact Keeps.refl _ | (simp only [keeps_upd_iff]) | split | apply keeps_foldl | apply keepsO_next
    | intro _

theorem keeps_findDefects {z : State} {s : State} {st : Nat} (h_s : Keeps z s) : Keeps z (State.findDefects s st) := by
  unfold State.findDefects
  with_reducible
  repeat' first
    | assumption | exact Keeps.refl _ | (simp only [keeps_upd_iff])

theorem keeps_declareAbsent {z : State} {s : State} {ts : List Nat} (h_s : Keeps z s) : Keeps z (State.declareAbsent s ts) := by
  unfold State.declareAbsent
  with_reducible
  repeat' first
    | assumption | exact Keeps.refl _ | (simp only [keeps_upd_iff]) | split | apply keeps_bootLog | apply keeps_roll
    | apply keeps_foldl | apply keepsO_next | intro _

theorem keeps_remap {z : State} {s : State} {sts : List Nat} (h_s : Keeps z s) : Keeps z (State.remap s sts) := by
  unfold State.remap
  with_reducible
  repeat' first
    | assumption | exact Keeps.refl _ | (simp only [keeps_upd_iff]) | split | apply keeps_bootLog | apply keeps_roll
    | apply keeps_declareAbsent | apply keeps_foldl | apply keepsO_next | intro _

theorem keeps_rollAndMap {z : State} {s : State} (h_s : Keeps z s) : Keeps z (State.rollAndMap s) := by
  unfold State.rollAndMap
  with_reducible
  repeat' first
    | assumption | exact Keeps.refl _ | (simp only [keeps_upd_iff]) | split | apply keeps_zeroReserves
    | apply keeps_findDefects | apply keeps_roll | apply keeps_remap | apply keeps_declareAbsent | apply keeps_foldl
    | apply keepsO_next | intro _

end Sys2Proof.Machine
end

