-- ==== Sys2Proof/Laws/KeepsReady.lean ====
section
/-! SUPPORT. Every operation of Machine/Ready.lean answers a state that may follow its own (`Keeps`). -/

set_option linter.unusedTactic false
set_option linter.unreachableTactic false
set_option linter.unusedVariables false
set_option linter.unusedSimpArgs false

namespace Sys2Proof.Machine

open Sys2Proof

theorem keeps_putAll {z : State} {s : State} {l : List (Section × Nat)} (h_s : Keeps z s) : Keeps z (State.putAll s l) := by
  unfold State.putAll
  with_reducible
  repeat' first
    | assumption | exact Keeps.refl _ | (simp only [keeps_upd_iff]) | split | apply keeps_bootLog
    | apply keeps_putSection | apply keeps_foldl | apply keepsO_next | intro _

theorem keeps_putCopies {z : State} {s : State} {l : List (Section × Nat)} (h_s : Keeps z s) : Keeps z (State.putCopies s l) := by
  unfold State.putCopies
  with_reducible
  repeat' first
    | assumption | exact Keeps.refl _ | (simp only [keeps_upd_iff]) | split | apply keeps_writeReserve
    | apply keeps_foldl | apply keepsO_next | intro _

theorem keeps_State_load {z s t : State} {im : Image} (h_s : Keeps z s) (e : State.load s im = .inl t) : Keeps z t := by
  unfold State.load at e
  dsimp only at e
  split at e
  · cases e
  · cases e
  · split at e
    · cases e
    · cases e
      simp only [keeps_upd_iff]
      apply keeps_declareAbsent
      apply keeps_putCopies
      apply keeps_putAll
      simpa only [keeps_upd_iff] using h_s

theorem keeps_runDirective {z : State} {s : State} {d : Directive} {data : Option (List Byte)} (h_s : Keeps z s) : Keeps z (State.runDirective s d data).1 := by
  unfold State.runDirective
  with_reducible
  repeat' first
    | assumption | exact Keeps.refl _ | split | apply keeps_colBytes | apply keeps_foldl | apply keepsO_next | intro _

theorem keeps_runDirectives {z s : State} {l : List (Directive × Option (List Byte))} (h_s : Keeps z s) :
    Keeps z (State.runDirectives s l).1 := by
  induction l generalizing s with
  | nil => unfold State.runDirectives; simpa only [keeps_upd_iff] using h_s
  | cons x r ih =>
    unfold State.runDirectives
    dsimp only
    split
    · simpa only [keeps_upd_iff] using h_s
    · split
      · exact ih (keeps_runDirective h_s)
      · exact keeps_runDirective h_s

theorem keeps_autostart {z : State} {s : State} (h_s : Keeps z s) : Keeps z (State.autostart s) := by
  unfold State.autostart
  with_reducible
  repeat' first
    | assumption | exact Keeps.refl _ | (simp only [keeps_upd_iff]) | split | apply keeps_startWorld
    | apply keeps_foldl | apply keepsO_next | intro _

theorem keeps_portsReady {z : State} {s : State} (h_s : Keeps z s) : Keeps z (State.portsReady s) := by
  unfold State.portsReady
  with_reducible
  repeat' first
    | assumption | exact Keeps.refl _ | (simp only [keeps_upd_iff]) | split | apply keeps_modPort
    | apply keeps_enumerate | apply keeps_foldl | apply keepsO_next | intro _ | (dsimp only)

theorem keeps_bootReport {z : State} {s : State} {im : Image} (h_s : Keeps z s) : Keeps z (State.bootReport s im) := by
  unfold State.bootReport
  with_reducible
  repeat' first
    | assumption | exact Keeps.refl _ | (simp only [keeps_upd_iff]) | split | apply keeps_postRecord

/-- The floor rises where the image commits it, and nothing else of the fuses changes. -/
theorem keeps_floor {z s : State} {c : Bool} {n : Nat} {aon pwr boot hub access racks pips tmp fab tiles pool ports portDest flt trc freeCtr}
    (h : Keeps z s) :
    Keeps z ⟨s.pkg, { s.fuses with floor := if c = true then max s.fuses.floor n else s.fuses.floor }, aon, pwr, boot, hub, access,
      racks, pips, tmp, fab, tiles, s.mem, pool, ports, portDest, flt, trc, freeCtr, s.pending⟩ :=
  ⟨h.pkg, h.fuses.trans ⟨rfl, rfl, rfl, rfl, rfl, rfl, rfl, rfl, by dsimp only; split <;> omega⟩, h.mem, h.pending⟩

theorem keeps_declareReady {z s : State} {im : Image} (h_s : Keeps z s) : Keeps z (State.declareReady s im) := by
  unfold State.declareReady
  dsimp only
  split
  · simp only [keeps_upd_iff]
    apply keeps_bootReport
    apply keeps_portsReady
    apply keeps_autostart
    exact keeps_floor h_s
  · apply keeps_bootReport
    apply keeps_portsReady
    apply keeps_autostart
    exact keeps_floor h_s

theorem keeps_bootFinish {z : State} {s : State} {im : Image} (h_s : Keeps z s) : Keeps z (State.bootFinish s im) := by
  unfold State.bootFinish
  with_reducible
  repeat' first
    | assumption | exact Keeps.refl _ | (simp only [keeps_upd_iff]) | split | apply keeps_runDirectives
    | apply keeps_bootFails | apply keeps_declareReady | apply keeps_foldl | apply keepsO_next | intro _
    | (dsimp only)

theorem keeps_bootOn {z s : State} {im : Image} (h_s : Keeps z s) : Keeps z (State.bootOn s im) := by
  unfold State.bootOn
  dsimp only
  split
  · split
    · exact keeps_bootFails (keeps_rollAndMap h_s)
    · split
      · exact keeps_bootFails (keeps_rollAndMap h_s)
      · rename_i e
        have h := keeps_State_load (keeps_rollAndMap h_s) e
        split
        · exact keeps_bootFinish h
        · exact keeps_bootFails h
  · exact keeps_bootFails h_s

theorem keeps_execReady {z : State} {s : State} (h_s : Keeps z s) : KeepsO z (execReady s) := by
  unfold execReady
  with_reducible
  repeat' first
    | assumption | exact Keeps.refl _ | (simp only [keeps_upd_iff]) | split | apply keeps_bootOn
    | apply keeps_bootFinish | apply keeps_foldl | apply keepsO_next

theorem keeps_execStackLinkTimeout {z : State} {st : Nat} {s : State} (h_s : Keeps z s) : KeepsO z (execStackLinkTimeout st s) := by
  unfold execStackLinkTimeout
  with_reducible
  repeat' first
    | assumption | exact Keeps.refl _ | (simp only [keeps_upd_iff]) | split | apply keeps_modFence
    | apply keeps_bootFails | apply keeps_foldl | apply keepsO_next

theorem keeps_execSourceWaitExpiry {z : State} {s : State} (h_s : Keeps z s) : KeepsO z (execSourceWaitExpiry s) := by
  unfold execSourceWaitExpiry
  with_reducible
  repeat' first
    | assumption | exact Keeps.refl _ | (simp only [keeps_upd_iff]) | split | apply keeps_bootFails
    | apply keeps_foldl | apply keepsO_next

theorem keeps_bootFresh {z : State} {s : State} (h_s : Keeps z s) : Keeps z (State.bootFresh s) := by
  unfold State.bootFresh
  with_reducible
  repeat' first
    | assumption | exact Keeps.refl _ | (simp only [keeps_upd_iff]) | split | apply keeps_bootStart

theorem keeps_execPorRelease {z : State} {env : BootEnv} {s : State} (h_s : Keeps z s) : KeepsO z (execPorRelease env s) := by
  unfold execPorRelease
  with_reducible
  repeat' first
    | assumption | exact Keeps.refl _ | (simp only [keeps_upd_iff]) | split | apply keeps_bootFresh
    | apply keeps_powerLoss | apply keeps_foldl | apply keepsO_next

theorem keeps_restart {z : State} {s : State} (h_s : Keeps z s) : Keeps z (State.restart s) := by
  unfold State.restart
  with_reducible
  repeat' first
    | assumption | exact Keeps.refl _ | (simp only [keeps_upd_iff]) | split | apply keeps_eachOut
    | apply keeps_clearLoaded | apply keeps_bootFresh

theorem keeps_execRestart {z : State} {m : Nat} {v : Word} {s : State} (h_s : Keeps z s) : KeepsO z (execRestart m v s) := by
  unfold execRestart
  with_reducible
  repeat' first
    | assumption | exact Keeps.refl _ | (simp only [keeps_upd_iff]) | split | apply keeps_ownReg | apply keeps_restart
    | apply keeps_respond | apply keeps_refuse | apply keeps_foldl | apply keepsO_next | intro _ | apply keepsP_some

end Sys2Proof.Machine
end

