-- ==== Sys2Proof/Laws/KeepsRecovery.lean ====
section
/-! SUPPORT. Every operation of Machine/Recovery.lean answers a state that may follow its own (`Keeps`). -/

set_option linter.unusedTactic false
set_option linter.unreachableTactic false
set_option linter.unusedVariables false
set_option linter.unusedSimpArgs false

namespace Sys2Proof.Machine

open Sys2Proof

theorem keeps_fillRow {z : State} {s : State} {t u row l k : Nat} (h_s : Keeps z s) : Keeps z (State.fillRow s t u row l k) := by
  unfold State.fillRow
  with_reducible
  repeat' first
    | assumption | exact Keeps.refl _ | split | apply keeps_setSynapse | apply keeps_foldl | apply keepsO_next
    | intro _

theorem keeps_fillCol {z : State} {s : State} {t v n l k : Nat} (h_s : Keeps z s) : Keeps z (State.fillCol s t v n l k) := by
  unfold State.fillCol
  with_reducible
  repeat' first
    | assumption | exact Keeps.refl _ | (simp only [keeps_upd_iff]) | split | apply keeps_setPlaneWord
    | apply keeps_foldl | apply keepsO_next | intro _

theorem keeps_fillUnit {z s : State} {t u src : Nat} (h_s : Keeps z s) : Keeps z (State.fillUnit s t u src) := by
  unfold State.fillUnit
  dsimp only
  split
  · split
    · exact keeps_fillRow h_s
    · exact keeps_fillCol h_s
    · exact h_s
  · split
    · refine keeps_foldl ?_ h_s
      intro v x
      split
      · exact keeps_colWrite (.refl _)
      · exact .refl _
    · split
      · split
        · exact keeps_mem h_s (fun h => by simpa using wf_writeBytes _ h _)
        · exact h_s
      · exact h_s

theorem keeps_markRecovered {z : State} {s : State} {t u src : Nat} (h_s : Keeps z s) : Keeps z (State.markRecovered s t u src) := by
  unfold State.markRecovered
  with_reducible
  repeat' first
    | assumption | exact Keeps.refl _ | (simp only [keeps_upd_iff]) | split | apply keeps_modTile

theorem keeps_recover {z : State} {s : State} {t u src : Nat} (h_s : Keeps z s) : Keeps z (State.recover s t u src) := by
  unfold State.recover
  with_reducible
  repeat' first
    | assumption | exact Keeps.refl _ | split | apply keeps_markRecovered | apply keeps_colZero | apply keeps_fillUnit
    | apply keeps_putQuar | apply keeps_pushLoss

theorem keeps_recoverNext {z : State} {s : State} {t : Nat} {q : Nat → Bool} (h_s : Keeps z s) : Keeps z (State.recoverNext s t q) := by
  unfold State.recoverNext
  with_reducible
  repeat' first
    | assumption | exact Keeps.refl _ | (simp only [keeps_upd_iff]) | split | apply keeps_recover
    | apply keeps_stageUpdate | apply keeps_updateStart | apply keeps_foldl | apply keepsO_next | intro _
    | (dsimp only)

theorem keeps_execRecoveryComplete {z : State} {t : Nat} {s : State} (h_s : Keeps z s) : KeepsO z (execRecoveryComplete t s) := by
  unfold execRecoveryComplete
  with_reducible
  repeat' first
    | assumption | exact Keeps.refl _ | (simp only [keeps_upd_iff]) | split | apply keeps_recoverNext
    | apply keeps_foldl | apply keepsO_next

theorem keeps_execRecoveryRetry {z : State} {t : Nat} {s : State} (h_s : Keeps z s) : KeepsO z (execRecoveryRetry t s) := by
  unfold execRecoveryRetry
  with_reducible
  repeat' first
    | assumption | exact Keeps.refl _ | (simp only [keeps_upd_iff]) | split | apply keeps_recover | apply keeps_foldl
    | apply keepsO_next

end Sys2Proof.Machine
end

