-- ==== Sys2Proof/Laws/KeepsFences.lean ====
section
/-! SUPPORT. Every operation of Machine/Fences.lean answers a state that may follow its own (`Keeps`). -/

set_option linter.unusedTactic false
set_option linter.unreachableTactic false
set_option linter.unusedVariables false
set_option linter.unusedSimpArgs false

namespace Sys2Proof.Machine

open Sys2Proof

theorem keeps_execFence {z : State} {rk seq : Nat} {s : State} (h_s : Keeps z s) : KeepsO z (execFence rk seq s) := by
  unfold execFence
  with_reducible
  repeat' first
    | assumption | exact Keeps.refl _ | (simp only [keeps_upd_iff]) | split | apply keeps_runCmd
    | apply keeps_complete | apply keeps_fenceStart | apply keeps_begun | apply keeps_foldl | apply keepsO_next
    | intro _ | (dsimp only)

theorem keeps_enterReset {z : State} {s : State} {d : Nat} (h_s : Keeps z s) : Keeps z (State.enterReset s d) := by
  unfold State.enterReset
  with_reducible
  repeat' first
    | assumption | exact Keeps.refl _ | split | apply keeps_fenceMove | apply keeps_modSpan

theorem keeps_execResume {z : State} {rk seq : Nat} {env : BootEnv} {s : State} (h_s : Keeps z s) : KeepsO z (execResume rk seq env s) := by
  unfold execResume
  with_reducible
  repeat' first
    | assumption | exact Keeps.refl _ | (simp only [keeps_upd_iff]) | split | apply keeps_runCmd
    | apply keeps_complete | apply keeps_wakeDom | apply keeps_modFence | apply keeps_enterReset | apply keeps_begun
    | apply keeps_foldl | apply keepsO_next | intro _

theorem keeps_notify {z : State} {s : State} {d k : Nat} (h_s : Keeps z s) : Keeps z (State.notify s d k) := by
  unfold State.notify
  with_reducible
  repeat' first
    | assumption | exact Keeps.refl _ | (simp only [keeps_upd_iff]) | split | apply keeps_toRoot | apply keeps_foldl
    | apply keepsO_next | intro _

theorem keeps_loseWaiting {z : State} {s : State} {t : Nat} (h_s : Keeps z s) : Keeps z (State.loseWaiting s t) := by
  unfold State.loseWaiting
  with_reducible
  repeat' first
    | assumption | exact Keeps.refl _ | split | apply keeps_loseEvents | apply keeps_modTile | apply keeps_foldl
    | apply keepsO_next | intro _

theorem keeps_emptyFanout {z : State} {s : State} {t : Nat} (h_s : Keeps z s) : Keeps z (State.emptyFanout s t) := by
  unfold State.emptyFanout
  with_reducible
  repeat' first
    | assumption | exact Keeps.refl _ | split | apply keeps_loseWaiting | apply keeps_unstall | apply keeps_flushOpen
    | apply keeps_foldl | apply keepsO_next | intro _

theorem keeps_drainTile {z : State} {s : State} {t : Nat} (h_s : Keeps z s) : Keeps z (State.drainTile s t) := by
  unfold State.drainTile
  with_reducible
  repeat' first
    | assumption | exact Keeps.refl _ | (simp only [keeps_upd_iff]) | split | apply keeps_pushLoss
    | apply keeps_modTile | apply keeps_emptyFanout | apply keeps_foldl | apply keepsO_next | intro _

theorem keeps_spanFence {z : State} {s : State} {k : Nat} (h_s : Keeps z s) : Keeps z (State.spanFence s k) := by
  unfold State.spanFence
  with_reducible
  repeat' first
    | assumption | exact Keeps.refl _ | split | apply keeps_modSpan | apply keeps_loseEvents | apply keeps_parkWorld
    | apply keeps_foldl | apply keepsO_next | intro _

theorem keeps_drainDom {z : State} {s : State} {d : Nat} (h_s : Keeps z s) : Keeps z (State.drainDom s d) := by
  unfold State.drainDom
  with_reducible
  repeat' first
    | assumption | exact Keeps.refl _ | (simp only [keeps_upd_iff]) | split | apply keeps_drainTile
    | apply keeps_portFence | apply keeps_spanFence | apply keeps_poolDrain | apply keeps_traceDrain
    | apply keeps_foldl | apply keepsO_next | intro _

theorem keeps_fenceDone {z : State} {s0 : State} {d : Nat} {c : Code} (h_s0 : Keeps z s0) : Keeps z (State.fenceDone s0 d c) := by
  unfold State.fenceDone
  with_reducible
  repeat' first
    | assumption | exact Keeps.refl _ | (simp only [keeps_upd_iff]) | split | apply keeps_lossDrain
    | apply keeps_modFence | apply keeps_completeAt | apply keeps_foldl | apply keepsO_next | intro _ | (dsimp only)

theorem keeps_enterFenced {z : State} {s : State} {d : Nat} (h_s : Keeps z s) : Keeps z (State.enterFenced s d) := by
  unfold State.enterFenced
  with_reducible
  repeat' first
    | assumption | exact Keeps.refl _ | split | apply keeps_fenceMove | apply keeps_notify | apply keeps_fenceDone
    | apply keeps_enterReset

theorem keeps_execDrainEnd {z : State} {dom : Nat} {s : State} (h_s : Keeps z s) : KeepsO z (execDrainEnd dom s) := by
  unfold execDrainEnd
  with_reducible
  repeat' first
    | assumption | exact Keeps.refl _ | (simp only [keeps_upd_iff]) | split | apply keeps_drainDom
    | apply keeps_enterFenced | apply keeps_foldl | apply keepsO_next

theorem keeps_heedUpstream {z : State} {s : State} {t : Nat} {ts : List Nat} {out : Bool} (h_s : Keeps z s) : Keeps z (State.heedUpstream s t ts out) := by
  unfold State.heedUpstream
  with_reducible
  repeat' first
    | assumption | exact Keeps.refl _ | (simp only [keeps_upd_iff]) | split | apply keeps_modTile

theorem keeps_failChain {z : State} {s : State} {t : Nat} {ts : List Nat} (h_s : Keeps z s) : Keeps z (State.failChain s t ts) := by
  unfold State.failChain
  with_reducible
  repeat' first
    | assumption | exact Keeps.refl _ | split | apply keeps_modTile | apply keeps_pushLoss | apply keeps_foldl
    | apply keepsO_next | intro _

theorem keeps_goOnWithout {z : State} {s : State} {t : Nat} (h_s : Keeps z s) : Keeps z (State.goOnWithout s t) := by
  unfold State.goOnWithout
  with_reducible
  repeat' first
    | assumption | exact Keeps.refl _ | (simp only [keeps_upd_iff]) | split | apply keeps_groupReports
    | apply keeps_settle | apply keeps_homeTry | apply keeps_foldl | apply keepsO_next | intro _

theorem keeps_noticeTile {z : State} {s : State} {t d k : Nat} (h_s : Keeps z s) : Keeps z (State.noticeTile s t d k) := by
  unfold State.noticeTile
  with_reducible
  repeat' first
    | assumption | exact Keeps.refl _ | split | apply keeps_heedUpstream | apply keeps_failChain
    | apply keeps_goOnWithout

theorem keeps_noticeHub {z : State} {s : State} {d : Nat} (h_s : Keeps z s) : Keeps z (State.noticeHub s d) := by
  unfold State.noticeHub
  with_reducible
  repeat' first
    | assumption | exact Keeps.refl _ | (simp only [keeps_upd_iff]) | split | apply keeps_refuse
    | apply keeps_complete | apply keeps_foldl | apply keepsO_next | intro _

theorem keeps_noticeTempo {z : State} {s : State} {d : Nat} (h_s : Keeps z s) : Keeps z (State.noticeTempo s d) := by
  unfold State.noticeTempo
  with_reducible
  repeat' first
    | assumption | exact Keeps.refl _ | (simp only [keeps_upd_iff])

theorem keeps_noticePool {z : State} {s : State} {d : Nat} (h_s : Keeps z s) : Keeps z (State.noticePool s d) := by
  unfold State.noticePool
  with_reducible
  repeat' first
    | assumption | exact Keeps.refl _ | (simp only [keeps_upd_iff]) | split | apply keeps_agentLost

theorem keeps_execFenceNotice {z : State} {who : Nat} {s : State} (h_s : Keeps z s) : KeepsO z (execFenceNotice who s) := by
  unfold execFenceNotice
  with_reducible
  repeat' first
    | assumption | exact Keeps.refl _ | (simp only [keeps_upd_iff]) | split | apply keeps_noticeTile
    | apply keeps_noticeHub | apply keeps_noticePool | apply keeps_noticeTempo | apply keeps_foldl | apply keepsO_next

end Sys2Proof.Machine
end

