-- ==== Sys2Proof/Laws/KeepsReturns.lean ====
section
/-! SUPPORT. Every operation of Machine/Returns.lean answers a state that may follow its own (`Keeps`). -/

set_option linter.unusedTactic false
set_option linter.unreachableTactic false
set_option linter.unusedVariables false
set_option linter.unusedSimpArgs false

namespace Sys2Proof.Machine

open Sys2Proof

theorem keeps_putUpdate {z : State} {s : State} {x : Section} (h_s : Keeps z s) : Keeps z (State.putUpdate s x) := by
  unfold State.putUpdate
  with_reducible
  repeat' first
    | assumption | exact Keeps.refl _ | split | apply keeps_modTile | apply keeps_putSection

theorem keeps_reclaim {z s : State} {t u : Nat} (h_s : Keeps z s) : Keeps z (State.reclaim s t u) := by
  unfold State.reclaim
  dsimp only
  split
  · exact h_s
  · exact keeps_putQuar (keeps_mem (keeps_markRecovered h_s) (fun h => by simpa using wf_writeLE _ h _ _))

theorem keeps_reclaimAll {z : State} {s : State} {t : Nat} (h_s : Keeps z s) : Keeps z (State.reclaimAll s t) := by
  unfold State.reclaimAll
  with_reducible
  repeat' first
    | assumption | exact Keeps.refl _ | (simp only [keeps_upd_iff]) | split | apply keeps_reclaim | apply keeps_foldl
    | apply keepsO_next | intro _

theorem keeps_execUpdateWritten {z : State} {dom : Nat} {s : State} (h_s : Keeps z s) : KeepsO z (execUpdateWritten dom s) := by
  unfold execUpdateWritten
  with_reducible
  repeat' first
    | assumption | exact Keeps.refl _ | split | apply keeps_putUpdate | apply keeps_writeReserve
    | apply keeps_reclaimAll | apply keeps_modFence | apply keeps_enterReset | apply keeps_foldl | apply keepsO_next
    | intro _

theorem keeps_tileReset {z : State} {s : State} {t : Nat} (h_s : Keeps z s) : Keeps z (State.tileReset s t) := by
  unfold State.tileReset
  with_reducible
  repeat' first
    | assumption | exact Keeps.refl _ | split | apply keeps_traceTileReset | apply keeps_modTile
    | apply keeps_sweepRecords | apply keeps_sweepTimes | apply keeps_foldl | apply keepsO_next | intro _

theorem keeps_tileBack {z : State} {s : State} {t : Nat} (h_s : Keeps z s) : Keeps z (State.tileBack s t) := by
  unfold State.tileBack
  with_reducible
  repeat' first
    | assumption | exact Keeps.refl _ | split | apply keeps_modTile | apply keeps_modWorld | apply keeps_foldl
    | apply keepsO_next | intro _

theorem keeps_turnsWithout {z : State} {s : State} {t : Nat} (h_s : Keeps z s) : Keeps z (State.turnsWithout s t) := by
  unfold State.turnsWithout
  with_reducible
  repeat' first
    | assumption | exact Keeps.refl _ | (simp only [keeps_upd_iff]) | split | apply keeps_modWorld
    | apply keeps_reports | apply keeps_foldl | apply keepsO_next | intro _

theorem keeps_takeHomeRows {z : State} {s : State} {t : Nat} (h_s : Keeps z s) : Keeps z (State.takeHomeRows s t) := by
  unfold State.takeHomeRows
  with_reducible
  repeat' first
    | assumption | exact Keeps.refl _ | (simp only [keeps_upd_iff]) | split | apply keeps_rewriteWord
    | apply keeps_pointDone | apply keeps_foldl | apply keepsO_next | intro _ | (dsimp only)

theorem keeps_tileGoesOn {z : State} {s : State} {t : Nat} (h_s : Keeps z s) : Keeps z (State.tileGoesOn s t) := by
  unfold State.tileGoesOn
  with_reducible
  repeat' first
    | assumption | exact Keeps.refl _ | (simp only [keeps_upd_iff]) | split | apply keeps_afterF
    | apply keeps_takeHomeRows | apply keeps_settle | apply keeps_foldl | apply keepsO_next | intro _

theorem keeps_stackEmpty {z s : State} {st : Nat} (h_s : Keeps z s) : Keeps z (State.stackEmpty s st) := by
  unfold State.stackEmpty
  exact keeps_mem h_s (fun h => cellsWf_filter _ h)

theorem keeps_stackRoll {z : State} {s : State} {st : Nat} (h_s : Keeps z s) : Keeps z (State.stackRoll s st) := by
  unfold State.stackRoll
  with_reducible
  repeat' first
    | assumption | exact Keeps.refl _ | (simp only [keeps_upd_iff]) | split | apply keeps_roll
    | apply keeps_findDefects | apply keeps_remap

theorem keeps_stackDirectives {z s t : State} {st : Nat} {l : List (Directive × Option (List Byte))} (h_s : Keeps z s)
    (e : State.stackDirectives s st l = some t) : Keeps z t := by
  induction l generalizing s with
  | nil => unfold State.stackDirectives at e; cases e; exact h_s
  | cons x r ih =>
    unfold State.stackDirectives at e
    dsimp only at e
    split at e
    · exact ih h_s e
    · split at e
      · cases e
      · split at e
        · cases e
        · exact ih (keeps_foldl (fun _ _ => keeps_colBytes (.refl _)) h_s) e

theorem keeps_restRecords {z : State} {s : State} {t : Nat} (h_s : Keeps z s) : Keeps z (State.restRecords s t) := by
  unfold State.restRecords
  with_reducible
  repeat' first
    | assumption | exact Keeps.refl _ | (simp only [keeps_upd_iff]) | split | apply keeps_writeRec | apply keeps_foldl
    | apply keepsO_next | intro _

theorem keeps_stackBoot {z s t : State} {st : Nat} (h_s : Keeps z s) (e : State.stackBoot s st = some t) : Keeps z t := by
  unfold State.stackBoot at e
  dsimp only at e
  split at e
  · cases e
  · split at e
    · cases e
    · split at e
      · cases e
      · split at e
        · cases e
        · rename_i h
          have h1 := keeps_stackDirectives (keeps_putCopies (keeps_foldl (fun _ _ => keeps_putUpdate (.refl _))
            (keeps_putAll (keeps_stackRoll (keeps_stackEmpty h_s))))) h
          split at e
          · cases e
          · cases e
            exact keeps_foldl (fun _ _ => keeps_restRecords (.refl _)) h1

theorem keeps_enterActive {z : State} {s : State} {d : Nat} (h_s : Keeps z s) : Keeps z (State.enterActive s d) := by
  unfold State.enterActive
  with_reducible
  repeat' first
    | assumption | exact Keeps.refl _ | split | apply keeps_fenceMove | apply keeps_notify | apply keeps_fenceDone
    | apply keeps_updateStart | apply keeps_amendCheck

theorem keeps_tilesReturn {z : State} {s : State} {d : Nat} {ts : List Nat} (h_s : Keeps z s) : Keeps z (State.tilesReturn s d ts) := by
  unfold State.tilesReturn
  with_reducible
  repeat' first
    | assumption | exact Keeps.refl _ | split | apply keeps_turnsWithout | apply keeps_tileBack
    | apply keeps_tileGoesOn | apply keeps_enterActive | apply keeps_foldl | apply keepsO_next | intro _

theorem keeps_stackFails {z : State} {s : State} {d : Nat} (h_s : Keeps z s) : Keeps z (State.stackFails s d) := by
  unfold State.stackFails
  with_reducible
  repeat' first
    | assumption | exact Keeps.refl _ | (simp only [keeps_upd_iff]) | split | apply keeps_fenceMove
    | apply keeps_fenceDone

theorem keeps_execResetComplete {z : State} {dom : Nat} {s : State} (h_s : Keeps z s) : KeepsO z (execResetComplete dom s) := by
  unfold execResetComplete
  with_reducible
  repeat' first
    | assumption | exact Keeps.refl _ | (simp only [keeps_upd_iff]) | split | apply keeps_tileReset
    | apply keeps_tilesReturn | (refine keeps_stackBoot ?_ (by assumption)) | apply keeps_stackFails
    | apply keeps_modFence | apply keeps_enterActive | apply keeps_portResume | apply keeps_traceReset
    | apply keeps_foldl | apply keepsO_next

theorem keeps_stackForget {z : State} {s : State} {st : Nat} (h_s : Keeps z s) : Keeps z (State.stackForget s st) := by
  unfold State.stackForget
  with_reducible
  repeat' first
    | assumption | exact Keeps.refl _ | (simp only [keeps_upd_iff])

theorem keeps_stackRecords {z : State} {s : State} {st : Nat} (h_s : Keeps z s) : Keeps z (State.stackRecords s st) := by
  unfold State.stackRecords
  with_reducible
  repeat' first
    | assumption | exact Keeps.refl _ | (simp only [keeps_upd_iff]) | split | apply keeps_pushLoss | apply keeps_foldl
    | apply keepsO_next | intro _

theorem keeps_stackFenced {z : State} {s : State} {st : Nat} (h_s : Keeps z s) : Keeps z (State.stackFenced s st) := by
  unfold State.stackFenced
  with_reducible
  repeat' first
    | assumption | exact Keeps.refl _ | (simp only [keeps_upd_iff]) | split | apply keeps_modFence
    | apply keeps_postFault | apply keeps_fenceMove

theorem keeps_flipWithout {z : State} {s : State} {st : Nat} (h_s : Keeps z s) : Keeps z (State.flipWithout s st) := by
  unfold State.flipWithout
  with_reducible
  repeat' first
    | assumption | exact Keeps.refl _ | (simp only [keeps_upd_iff]) | split | apply keeps_drainCheck

theorem keeps_execStackLost {z : State} {st : Nat} {s : State} (h_s : Keeps z s) : KeepsO z (execStackLost st s) := by
  unfold execStackLost
  with_reducible
  repeat' first
    | assumption | exact Keeps.refl _ | (simp only [keeps_upd_iff]) | split | apply keeps_stackFenced
    | apply keeps_stackRecords | apply keeps_stackForget | apply keeps_notify | apply keeps_flipWithout
    | apply keeps_fenceDone | apply keeps_enterReset | apply keeps_foldl | apply keepsO_next

end Sys2Proof.Machine
end

