-- ==== Sys2Proof/Laws/KeepsSteward.lean ====
section
/-! SUPPORT. Every operation of Machine/Steward.lean answers a state that may follow its own (`Keeps`). -/

set_option linter.unusedTactic false
set_option linter.unreachableTactic false
set_option linter.unusedVariables false
set_option linter.unusedSimpArgs false

namespace Sys2Proof.Machine

open Sys2Proof

theorem keeps_stewardFails {z : State} {s : State} (h_s : Keeps z s) : Keeps z (State.stewardFails s) := by
  unfold State.stewardFails
  with_reducible
  repeat' first
    | assumption | exact Keeps.refl _ | (simp only [keeps_upd_iff]) | split | apply keeps_complete | apply keeps_foldl
    | apply keepsO_next | intro _

theorem keeps_stewardDown {z : State} {s : State} {cause : Nat} (h_s : Keeps z s) : Keeps z (State.stewardDown s cause) := by
  unfold State.stewardDown
  with_reducible
  repeat' first
    | assumption | exact Keeps.refl _ | (simp only [keeps_upd_iff]) | split | apply keeps_wakeDom
    | apply keeps_stewardFails | apply keeps_eachOut | apply keeps_postFault

theorem keeps_execStewardReset {z : State} {m : Nat} {v : Word} {s : State} (h_s : Keeps z s) : KeepsO z (execStewardReset m v s) := by
  unfold execStewardReset
  with_reducible
  repeat' first
    | assumption | exact Keeps.refl _ | (simp only [keeps_upd_iff]) | split | apply keeps_ownReg
    | apply keeps_stewardDown | apply keeps_foldl | apply keepsO_next | intro _ | apply keepsP_some

theorem keeps_execStewardWatchdog {z : State} {s : State} (h_s : Keeps z s) : KeepsO z (execStewardWatchdog s) := by
  unfold execStewardWatchdog
  with_reducible
  repeat' first
    | assumption | exact Keeps.refl _ | (simp only [keeps_upd_iff]) | split | apply keeps_stewardDown
    | apply keeps_foldl | apply keepsO_next

theorem keeps_execStewardMemoryError {z : State} {s : State} (h_s : Keeps z s) : KeepsO z (execStewardMemoryError s) := by
  unfold execStewardMemoryError
  with_reducible
  repeat' first
    | assumption | exact Keeps.refl _ | (simp only [keeps_upd_iff]) | split | apply keeps_stewardDown
    | apply keeps_foldl | apply keepsO_next

theorem keeps_execStewardRestart {z : State} {s : State} (h_s : Keeps z s) : KeepsO z (execStewardRestart s) := by
  unfold execStewardRestart
  with_reducible
  repeat' first
    | assumption | exact Keeps.refl _ | (simp only [keeps_upd_iff]) | split | apply keeps_bootLog
    | apply keeps_postFault | apply keeps_drainAdd | apply keeps_drainCheck | apply keeps_foldl | apply keepsO_next

end Sys2Proof.Machine
end

