-- ==== Sys2Proof/Laws/KeepsAmend.lean ====
section
/-! SUPPORT. Every operation of Machine/Amend.lean answers a state that may follow its own (`Keeps`). -/

set_option linter.unusedTactic false
set_option linter.unreachableTactic false
set_option linter.unusedVariables false
set_option linter.unusedSimpArgs false

namespace Sys2Proof.Machine

open Sys2Proof

theorem keeps_amendWorld {z : State} {s : State} {w : Nat} {e : WorldEntry} (h_s : Keeps z s) : Keeps z (State.amendWorld s w e) := by
  unfold State.amendWorld
  with_reducible
  repeat' first
    | assumption | exact Keeps.refl _ | (simp only [keeps_upd_iff]) | split | apply keeps_putWorld
    | apply keeps_modWorld

theorem keeps_amendPut {z : State} {s : State} {x : Section} (h_s : Keeps z s) : Keeps z (State.amendPut s x) := by
  unfold State.amendPut
  with_reducible
  repeat' first
    | assumption | exact Keeps.refl _ | (simp only [keeps_upd_iff]) | split | apply keeps_amendWorld
    | apply keeps_wakeWaiters | apply keeps_putSection | apply keeps_putWindows | apply keeps_foldl
    | apply keepsO_next | intro _

theorem keeps_amendShadow {z : State} {s : State} {x : Section} (h_s : Keeps z s) : Keeps z (State.amendShadow s x) := by
  unfold State.amendShadow
  with_reducible
  repeat' first
    | assumption | exact Keeps.refl _ | (simp only [keeps_upd_iff]) | split | apply keeps_putWorld
    | apply keeps_modWorld | apply keeps_putSection | apply keeps_foldl | apply keepsO_next | intro _

theorem keeps_shadow {z : State} {s : State} {im : Image} (h_s : Keeps z s) : Keeps z (State.shadow s im) := by
  unfold State.shadow
  with_reducible
  repeat' first
    | assumption | exact Keeps.refl _ | (simp only [keeps_upd_iff]) | split | apply keeps_amendShadow
    | apply keeps_foldl | apply keepsO_next | intro _

theorem keeps_amendRefused {z : State} {s : State} {c : ExecCmd} {ix : Option Nat} {code : Nat} (h_s : Keeps z s) : Keeps z (State.amendRefused s c ix code) := by
  unfold State.amendRefused
  with_reducible
  repeat' first
    | assumption | exact Keeps.refl _ | (simp only [keeps_upd_iff]) | split | apply keeps_bootLog
    | apply keeps_complete

theorem keeps_execAmend {z : State} {rk seq : Nat} {am : Option Image} {s : State} (h_s : Keeps z s) : KeepsO z (execAmend rk seq am s) := by
  unfold execAmend
  with_reducible
  repeat' first
    | assumption | exact Keeps.refl _ | (simp only [keeps_upd_iff]) | split | apply keeps_runCmd
    | apply keeps_complete | apply keeps_amendRefused | apply keeps_begun | apply keeps_foldl | apply keepsO_next
    | intro _

theorem keeps_amendTake {z s sh : State} {x : Section} (h_s : Keeps z s) : Keeps z (State.amendTake s sh x) := by
  unfold State.amendTake
  dsimp only
  split
  · exact keeps_bootLog h_s
  · split
    · split
      · simpa only [keeps_upd_iff] using keeps_amendPut h_s
      · exact keeps_amendPut h_s
    · exact keeps_foldl (fun _ _ => keeps_stageUpdate (.refl _)) h_s

theorem keeps_amendStart {z : State} {s : State} {d : Nat} (h_s : Keeps z s) : Keeps z (State.amendStart s d) := by
  unfold State.amendStart
  with_reducible
  repeat' first
    | assumption | exact Keeps.refl _ | (simp only [keeps_upd_iff]) | split | apply keeps_updateStart

theorem keeps_amendCommitted {z s : State} {a : Amending} (h_s : Keeps z s) : Keeps z (State.amendCommitted s a) := by
  unfold State.amendCommitted
  dsimp only
  apply keeps_amendCheck
  apply keeps_bootLog
  refine keeps_foldl (fun _ _ => keeps_amendStart (.refl _)) ?_
  refine keeps_foldl (fun _ _ => keeps_amendTake (.refl _)) ?_
  simpa only [keeps_upd_iff] using h_s

theorem keeps_execAmendCommit {z : State} {s : State} (h_s : Keeps z s) : KeepsO z (execAmendCommit s) := by
  unfold execAmendCommit
  with_reducible
  repeat' first
    | assumption | exact Keeps.refl _ | (simp only [keeps_upd_iff]) | split | apply keeps_amendCommitted
    | apply keeps_foldl | apply keepsO_next

end Sys2Proof.Machine
end

