-- ==== Sys2Proof/Laws/KeepsGambit.lean ====
section
/-! SUPPORT. Every operation of Machine/Gambit.lean answers a state that may follow its own (`Keeps`). -/

set_option linter.unusedTactic false
set_option linter.unreachableTactic false
set_option linter.unusedVariables false
set_option linter.unusedSimpArgs false

namespace Sys2Proof.Machine

open Sys2Proof

theorem keeps_execGNop {z : State} {t : Nat} {s : State} (h_s : Keeps z s) : KeepsO z (execGNop t s) := by
  unfold execGNop
  with_reducible
  repeat' first
    | assumption | exact Keeps.refl _ | (simp only [keeps_upd_iff]) | split | apply keeps_gExec

theorem keeps_execGMov {z : State} {t : Nat} {rd : BitVec 3} {ra : BitVec 3} {s : State} (h_s : Keeps z s) : KeepsO z (execGMov t rd ra s) := by
  unfold execGMov
  with_reducible
  repeat' first
    | assumption | exact Keeps.refl _ | (simp only [keeps_upd_iff]) | split | apply keeps_gExec

theorem keeps_execGMovi {z : State} {t : Nat} {rd : BitVec 3} {imm : BitVec 17} {s : State} (h_s : Keeps z s) : KeepsO z (execGMovi t rd imm s) := by
  unfold execGMovi
  with_reducible
  repeat' first
    | assumption | exact Keeps.refl _ | (simp only [keeps_upd_iff]) | split | apply keeps_gExec

theorem keeps_execGMovhi {z : State} {t : Nat} {rd : BitVec 3} {imm : BitVec 16} {s : State} (h_s : Keeps z s) : KeepsO z (execGMovhi t rd imm s) := by
  unfold execGMovhi
  with_reducible
  repeat' first
    | assumption | exact Keeps.refl _ | (simp only [keeps_upd_iff]) | split | apply keeps_gExec

theorem keeps_execGLdp {z : State} {t : Nat} {rd : BitVec 3} {k : BitVec 4} {s : State} (h_s : Keeps z s) : KeepsO z (execGLdp t rd k s) := by
  unfold execGLdp
  with_reducible
  repeat' first
    | assumption | exact Keeps.refl _ | (simp only [keeps_upd_iff]) | split | apply keeps_gExec

theorem keeps_execGLdf {z : State} {t : Nat} {rd : BitVec 3} {pos : BitVec 7} {wm1 : BitVec 5} {sx : Bool} {s : State} (h_s : Keeps z s) : KeepsO z (execGLdf t rd pos wm1 sx s) := by
  unfold execGLdf
  with_reducible
  repeat' first
    | assumption | exact Keeps.refl _ | (simp only [keeps_upd_iff]) | split | apply keeps_gExec

theorem keeps_execGStf {z : State} {t : Nat} {ra : BitVec 3} {pos : BitVec 7} {wm1 : BitVec 5} {sat : Bool} {s : State} (h_s : Keeps z s) : KeepsO z (execGStf t ra pos wm1 sat s) := by
  unfold execGStf
  with_reducible
  repeat' first
    | assumption | exact Keeps.refl _ | (simp only [keeps_upd_iff]) | split | apply keeps_gExec

theorem keeps_execGAdd {z : State} {t : Nat} {rd : BitVec 3} {ra : BitVec 3} {rb : BitVec 3} {s : State} (h_s : Keeps z s) : KeepsO z (execGAdd t rd ra rb s) := by
  unfold execGAdd
  with_reducible
  repeat' first
    | assumption | exact Keeps.refl _ | (simp only [keeps_upd_iff]) | split | apply keeps_gExec

theorem keeps_execGSub {z : State} {t : Nat} {rd : BitVec 3} {ra : BitVec 3} {rb : BitVec 3} {s : State} (h_s : Keeps z s) : KeepsO z (execGSub t rd ra rb s) := by
  unfold execGSub
  with_reducible
  repeat' first
    | assumption | exact Keeps.refl _ | (simp only [keeps_upd_iff]) | split | apply keeps_gExec

theorem keeps_execGAdds {z : State} {t : Nat} {rd : BitVec 3} {ra : BitVec 3} {rb : BitVec 3} {s : State} (h_s : Keeps z s) : KeepsO z (execGAdds t rd ra rb s) := by
  unfold execGAdds
  with_reducible
  repeat' first
    | assumption | exact Keeps.refl _ | (simp only [keeps_upd_iff]) | split | apply keeps_gExec

theorem keeps_execGSubs {z : State} {t : Nat} {rd : BitVec 3} {ra : BitVec 3} {rb : BitVec 3} {s : State} (h_s : Keeps z s) : KeepsO z (execGSubs t rd ra rb s) := by
  unfold execGSubs
  with_reducible
  repeat' first
    | assumption | exact Keeps.refl _ | (simp only [keeps_upd_iff]) | split | apply keeps_gExec

theorem keeps_execGAddi {z : State} {t : Nat} {rd : BitVec 3} {ra : BitVec 3} {imm : BitVec 17} {s : State} (h_s : Keeps z s) : KeepsO z (execGAddi t rd ra imm s) := by
  unfold execGAddi
  with_reducible
  repeat' first
    | assumption | exact Keeps.refl _ | (simp only [keeps_upd_iff]) | split | apply keeps_gExec

theorem keeps_execGAddsi {z : State} {t : Nat} {rd : BitVec 3} {ra : BitVec 3} {imm : BitVec 17} {s : State} (h_s : Keeps z s) : KeepsO z (execGAddsi t rd ra imm s) := by
  unfold execGAddsi
  with_reducible
  repeat' first
    | assumption | exact Keeps.refl _ | (simp only [keeps_upd_iff]) | split | apply keeps_gExec

theorem keeps_execGMin {z : State} {t : Nat} {rd : BitVec 3} {ra : BitVec 3} {rb : BitVec 3} {s : State} (h_s : Keeps z s) : KeepsO z (execGMin t rd ra rb s) := by
  unfold execGMin
  with_reducible
  repeat' first
    | assumption | exact Keeps.refl _ | (simp only [keeps_upd_iff]) | split | apply keeps_gExec

theorem keeps_execGMax {z : State} {t : Nat} {rd : BitVec 3} {ra : BitVec 3} {rb : BitVec 3} {s : State} (h_s : Keeps z s) : KeepsO z (execGMax t rd ra rb s) := by
  unfold execGMax
  with_reducible
  repeat' first
    | assumption | exact Keeps.refl _ | (simp only [keeps_upd_iff]) | split | apply keeps_gExec

theorem keeps_execGAnd {z : State} {t : Nat} {rd : BitVec 3} {ra : BitVec 3} {rb : BitVec 3} {s : State} (h_s : Keeps z s) : KeepsO z (execGAnd t rd ra rb s) := by
  unfold execGAnd
  with_reducible
  repeat' first
    | assumption | exact Keeps.refl _ | (simp only [keeps_upd_iff]) | split | apply keeps_gExec

theorem keeps_execGOr {z : State} {t : Nat} {rd : BitVec 3} {ra : BitVec 3} {rb : BitVec 3} {s : State} (h_s : Keeps z s) : KeepsO z (execGOr t rd ra rb s) := by
  unfold execGOr
  with_reducible
  repeat' first
    | assumption | exact Keeps.refl _ | (simp only [keeps_upd_iff]) | split | apply keeps_gExec

theorem keeps_execGXor {z : State} {t : Nat} {rd : BitVec 3} {ra : BitVec 3} {rb : BitVec 3} {s : State} (h_s : Keeps z s) : KeepsO z (execGXor t rd ra rb s) := by
  unfold execGXor
  with_reducible
  repeat' first
    | assumption | exact Keeps.refl _ | (simp only [keeps_upd_iff]) | split | apply keeps_gExec

theorem keeps_execGShli {z : State} {t : Nat} {rd : BitVec 3} {ra : BitVec 3} {sh : BitVec 5} {s : State} (h_s : Keeps z s) : KeepsO z (execGShli t rd ra sh s) := by
  unfold execGShli
  with_reducible
  repeat' first
    | assumption | exact Keeps.refl _ | (simp only [keeps_upd_iff]) | split | apply keeps_gExec

theorem keeps_execGShri {z : State} {t : Nat} {rd : BitVec 3} {ra : BitVec 3} {sh : BitVec 5} {s : State} (h_s : Keeps z s) : KeepsO z (execGShri t rd ra sh s) := by
  unfold execGShri
  with_reducible
  repeat' first
    | assumption | exact Keeps.refl _ | (simp only [keeps_upd_iff]) | split | apply keeps_gExec

theorem keeps_execGShrli {z : State} {t : Nat} {rd : BitVec 3} {ra : BitVec 3} {sh : BitVec 5} {s : State} (h_s : Keeps z s) : KeepsO z (execGShrli t rd ra sh s) := by
  unfold execGShrli
  with_reducible
  repeat' first
    | assumption | exact Keeps.refl _ | (simp only [keeps_upd_iff]) | split | apply keeps_gExec

theorem keeps_execGDecz {z : State} {t : Nat} {rd : BitVec 3} {ra : BitVec 3} {rb : BitVec 3} {s : State} (h_s : Keeps z s) : KeepsO z (execGDecz t rd ra rb s) := by
  unfold execGDecz
  with_reducible
  repeat' first
    | assumption | exact Keeps.refl _ | (simp only [keeps_upd_iff]) | split | apply keeps_gExec

theorem keeps_execGMulq {z : State} {t : Nat} {rd : BitVec 3} {ra : BitVec 3} {rb : BitVec 3} {sh : BitVec 5} {s : State} (h_s : Keeps z s) : KeepsO z (execGMulq t rd ra rb sh s) := by
  unfold execGMulq
  with_reducible
  repeat' first
    | assumption | exact Keeps.refl _ | (simp only [keeps_upd_iff]) | split | apply keeps_gExec

theorem keeps_execGMulqi {z : State} {t : Nat} {rd : BitVec 3} {ra : BitVec 3} {imm : BitVec 12} {sh : BitVec 5} {s : State} (h_s : Keeps z s) : KeepsO z (execGMulqi t rd ra imm sh s) := by
  unfold execGMulqi
  with_reducible
  repeat' first
    | assumption | exact Keeps.refl _ | (simp only [keeps_upd_iff]) | split | apply keeps_gExec

theorem keeps_execGLeak {z : State} {t : Nat} {rd : BitVec 3} {ra : BitVec 3} {rb : BitVec 3} {table : BitVec 3} {s : State} (h_s : Keeps z s) : KeepsO z (execGLeak t rd ra rb table s) := by
  unfold execGLeak
  with_reducible
  repeat' first
    | assumption | exact Keeps.refl _ | (simp only [keeps_upd_iff]) | split | apply keeps_gExec

theorem keeps_execGCmp {z : State} {t : Nat} {ra : BitVec 3} {rb : BitVec 3} {s : State} (h_s : Keeps z s) : KeepsO z (execGCmp t ra rb s) := by
  unfold execGCmp
  with_reducible
  repeat' first
    | assumption | exact Keeps.refl _ | (simp only [keeps_upd_iff]) | split | apply keeps_gExec

theorem keeps_execGCmpi {z : State} {t : Nat} {ra : BitVec 3} {imm : BitVec 17} {s : State} (h_s : Keeps z s) : KeepsO z (execGCmpi t ra imm s) := by
  unfold execGCmpi
  with_reducible
  repeat' first
    | assumption | exact Keeps.refl _ | (simp only [keeps_upd_iff]) | split | apply keeps_gExec

theorem keeps_execGB {z : State} {t : Nat} {cond : BitVec 3} {target : BitVec 9} {s : State} (h_s : Keeps z s) : KeepsO z (execGB t cond target s) := by
  unfold execGB
  with_reducible
  repeat' first
    | assumption | exact Keeps.refl _ | (simp only [keeps_upd_iff]) | split | apply keeps_gExec

theorem keeps_execGRand {z : State} {t : Nat} {rd : BitVec 3} {n : BitVec 5} {s : State} (h_s : Keeps z s) : KeepsO z (execGRand t rd n s) := by
  unfold execGRand
  with_reducible
  repeat' first
    | assumption | exact Keeps.refl _ | (simp only [keeps_upd_iff]) | split | apply keeps_gExec

theorem keeps_execGEmit {z : State} {t : Nat} {cond : BitVec 3} {ra : BitVec 3} {bin : Bool} {learn : Bool} {fin : Bool} {s : State} (h_s : Keeps z s) : KeepsO z (execGEmit t cond ra bin learn fin s) := by
  unfold execGEmit
  with_reducible
  repeat' first
    | assumption | exact Keeps.refl _ | split | apply keeps_modTile | apply keeps_gExec

theorem keeps_execGWake {z : State} {t : Nat} {ra : BitVec 3} {useImm : Bool} {imm : BitVec 6} {s : State} (h_s : Keeps z s) : KeepsO z (execGWake t ra useImm imm s) := by
  unfold execGWake
  with_reducible
  repeat' first
    | assumption | exact Keeps.refl _ | (simp only [keeps_upd_iff]) | split | apply keeps_gExec

theorem keeps_execGEnd {z : State} {t : Nat} {s : State} (h_s : Keeps z s) : KeepsO z (execGEnd t s) := by
  unfold execGEnd
  with_reducible
  repeat' first
    | assumption | exact Keeps.refl _ | (simp only [keeps_upd_iff]) | split | apply keeps_gExec

theorem keeps_execGambitStepOverrun {z : State} {t : Nat} {s : State} (h_s : Keeps z s) : KeepsO z (execGambitStepOverrun t s) := by
  unfold execGambitStepOverrun
  with_reducible
  repeat' first
    | assumption | exact Keeps.refl _ | (simp only [keeps_upd_iff]) | split | apply keeps_abandonRun
    | apply keeps_foldl | apply keepsO_next

end Sys2Proof.Machine
end

