-- ==== Sys2Proof/Laws/KeepsLink.lean ====
section
/-! SUPPORT. Every operation of Machine/Link.lean answers a state that may follow its own (`Keeps`). -/

set_option linter.unusedTactic false
set_option linter.unreachableTactic false
set_option linter.unusedVariables false
set_option linter.unusedSimpArgs false

namespace Sys2Proof.Machine

open Sys2Proof

theorem keeps_hdmPoison {z : State} {s : State} {m : Nat} {c : Code} (h_s : Keeps z s) : Keeps z (State.hdmPoison s m c) := by
  unfold State.hdmPoison
  with_reducible
  repeat' first
    | assumption | exact Keeps.refl _ | (simp only [keeps_upd_iff]) | split | apply keeps_modMaster

theorem keeps_hdmWake {z : State} {s : State} {m a : Nat} (h_s : Keeps z s) : Keeps z (State.hdmWake s m a) := by
  unfold State.hdmWake
  with_reducible
  repeat' first
    | assumption | exact Keeps.refl _ | (simp only [keeps_upd_iff]) | split | apply keeps_hostWake
    | apply keeps_wakeDom

theorem keeps_execHdmRead {z : State} {m line : Nat} {s : State} (h_s : Keeps z s) : KeepsO z (execHdmRead m line s) := by
  unfold execHdmRead
  with_reducible
  repeat' first
    | assumption | exact Keeps.refl _ | (simp only [keeps_upd_iff]) | split | apply keeps_hostWake
    | apply keeps_hdmPoison | apply keeps_hdmWake | apply keeps_modTile | apply keeps_respond | apply keeps_foldl
    | apply keepsO_next

theorem keeps_execHdmWrite {z s : State} {m line : Nat} {data : BitVec 512} (h_s : Keeps z s) : KeepsO z (execHdmWrite m line data s) := by
  unfold execHdmWrite
  dsimp only
  split
  · with_reducible
      apply keepsO_next
      simp only [keeps_upd_iff]
      apply keeps_hostWake h_s
  · with_reducible
      apply keepsO_next
      apply keeps_respond
      exact keeps_mem (keeps_hdmWake h_s) (fun h => wf_writeLine h _ _)

theorem keeps_execH2dSnoop {z : State} {port addr : Nat} {s : State} (h_s : Keeps z s) : KeepsO z (execH2dSnoop port addr s) := by
  unfold execH2dSnoop
  with_reducible
  repeat' first
    | assumption | exact Keeps.refl _ | (simp only [keeps_upd_iff]) | split | apply keeps_foldl | apply keepsO_next

theorem keeps_execSetLdAllocations {z : State} {ld : Nat} {whole : Option Bool} {s : State} (h_s : Keeps z s) : KeepsO z (execSetLdAllocations ld whole s) := by
  unfold execSetLdAllocations
  with_reducible
  repeat' first
    | assumption | exact Keeps.refl _ | (simp only [keeps_upd_iff]) | split | apply keeps_modLd | apply keeps_foldl
    | apply keepsO_next

theorem keeps_execGetLdInfo {z : State} {port : Nat} {s : State} (h_s : Keeps z s) : KeepsO z (execGetLdInfo port s) := by
  unfold execGetLdInfo
  with_reducible
  repeat' first
    | assumption | exact Keeps.refl _ | (simp only [keeps_upd_iff]) | split | apply keeps_foldl | apply keepsO_next

theorem keeps_execGetLdAllocations {z : State} {port : Nat} {s : State} (h_s : Keeps z s) : KeepsO z (execGetLdAllocations port s) := by
  unfold execGetLdAllocations
  with_reducible
  repeat' first
    | assumption | exact Keeps.refl _ | (simp only [keeps_upd_iff]) | split | apply keeps_foldl | apply keepsO_next

theorem keeps_failHeads {z : State} {s : State} {rk cpl : Nat} {ind : Nat} (h_s : Keeps z s) : Keeps z (State.failHeads s rk cpl ind) := by
  induction ind generalizing s rk cpl with
  | zero => unfold State.failHeads; exact h_s
  | succ ind ih =>
    unfold State.failHeads
    with_reducible
    repeat' first
      | assumption | apply ih | exact Keeps.refl _ | (simp only [keeps_upd_iff]) | split | apply keeps_takeCmd
      | apply keeps_complete

theorem keeps_hostParks {z : State} {s : State} {n : Nat} (h_s : Keeps z s) : Keeps z (State.hostParks s n) := by
  unfold State.hostParks
  with_reducible
  repeat' first
    | assumption | exact Keeps.refl _ | (simp only [keeps_upd_iff]) | split | apply keeps_parkWorld
    | apply keeps_foldl | apply keepsO_next | intro _

theorem keeps_dropLd {z : State} {s : State} {n : Nat} {up : Bool} (h_s : Keeps z s) : Keeps z (State.dropLd s n up) := by
  unfold State.dropLd
  with_reducible
  repeat' first
    | assumption | exact Keeps.refl _ | (simp only [keeps_upd_iff]) | split | apply keeps_hostParks
    | apply keeps_complete | apply keeps_failHeads | apply keeps_modMaster | apply keeps_modLd | apply keeps_foldl
    | apply keepsO_next | intro _

theorem keeps_dropPort {z : State} {s : State} {k : Nat} (h_s : Keeps z s) : Keeps z (State.dropPort s k) := by
  unfold State.dropPort
  with_reducible
  repeat' first
    | assumption | exact Keeps.refl _ | (simp only [keeps_upd_iff]) | split | apply keeps_poolLinkDown
    | apply keeps_dropLd | apply keeps_modLink | apply keeps_foldl | apply keepsO_next | intro _

theorem keeps_execLinkDrop {z : State} {what : LinkTarget} {s : State} (h_s : Keeps z s) : KeepsO z (execLinkDrop what s) := by
  unfold execLinkDrop
  with_reducible
  repeat' first
    | assumption | exact Keeps.refl _ | (simp only [keeps_upd_iff]) | split | apply keeps_dropPort
    | apply keeps_dropLd | apply keeps_foldl | apply keepsO_next

theorem keeps_execHotReset {z : State} {what : LinkTarget} {s : State} (h_s : Keeps z s) : KeepsO z (execHotReset what s) := by
  unfold execHotReset
  with_reducible
  repeat' first
    | assumption | exact Keeps.refl _ | (simp only [keeps_upd_iff]) | split | apply keeps_dropPort
    | apply keeps_dropLd | apply keeps_foldl | apply keepsO_next

theorem keeps_execLinkRecovery {z : State} {port : Nat} {s : State} (h_s : Keeps z s) : KeepsO z (execLinkRecovery port s) := by
  unfold execLinkRecovery
  with_reducible
  repeat' first
    | assumption | exact Keeps.refl _ | (simp only [keeps_upd_iff]) | split | apply keeps_modLink | apply keeps_foldl
    | apply keepsO_next

theorem keeps_execCxlLinkUp {z : State} {port width : Nat} {fast lopt pcie : Bool} {s : State} (h_s : Keeps z s) : KeepsO z (execCxlLinkUp port width fast lopt pcie s) := by
  unfold execCxlLinkUp
  with_reducible
  repeat' first
    | assumption | exact Keeps.refl _ | (simp only [keeps_upd_iff]) | split | apply keeps_modLink | apply keeps_modLd
    | apply keeps_foldl | apply keepsO_next | intro _

end Sys2Proof.Machine
end

