-- ==== Sys2Proof/Laws/KeepsSupplies.lean ====
section
/-! SUPPORT. Every operation of Machine/Supplies.lean answers a state that may follow its own (`Keeps`). -/

set_option linter.unusedTactic false
set_option linter.unreachableTactic false
set_option linter.unusedVariables false
set_option linter.unusedSimpArgs false

namespace Sys2Proof.Machine

open Sys2Proof

theorem keeps_execAonResetRelease {z : State} {s : State} (h_s : Keeps z s) : KeepsO z (execAonResetRelease s) := by
  unfold execAonResetRelease
  with_reducible
  repeat' first
    | assumption | exact Keeps.refl _ | (simp only [keeps_upd_iff]) | split | apply keeps_foldl | apply keepsO_next

theorem keeps_execPwrGoodTimeout {z : State} {s : State} (h_s : Keeps z s) : KeepsO z (execPwrGoodTimeout s) := by
  unfold execPwrGoodTimeout
  with_reducible
  repeat' first
    | assumption | exact Keeps.refl _ | (simp only [keeps_upd_iff]) | split | apply keeps_foldl | apply keepsO_next

theorem keeps_execRailRetry {z : State} {s : State} (h_s : Keeps z s) : KeepsO z (execRailRetry s) := by
  unfold execRailRetry
  with_reducible
  repeat' first
    | assumption | exact Keeps.refl _ | (simp only [keeps_upd_iff]) | split | apply keeps_foldl | apply keepsO_next

theorem keeps_outputsHalt {z : State} {s : State} (h_s : Keeps z s) : Keeps z (State.outputsHalt s) := by
  unfold State.outputsHalt
  with_reducible
  repeat' first
    | assumption | exact Keeps.refl _ | (simp only [keeps_upd_iff])

theorem keeps_porAssert {z : State} {s : State} (h_s : Keeps z s) : Keeps z (State.porAssert s) := by
  unfold State.porAssert
  with_reducible
  repeat' first
    | assumption | exact Keeps.refl _ | (simp only [keeps_upd_iff]) | split | apply keeps_outputsHalt
    | apply keeps_powerLoss

theorem keeps_execSupplyFault {z : State} {s : State} (h_s : Keeps z s) : KeepsO z (execSupplyFault s) := by
  unfold execSupplyFault
  with_reducible
  repeat' first
    | assumption | exact Keeps.refl _ | (simp only [keeps_upd_iff]) | split | apply keeps_porAssert
    | apply keeps_foldl | apply keepsO_next

theorem keeps_execResetN {z : State} {low : Bool} {us : Nat} {s : State} (h_s : Keeps z s) : KeepsO z (execResetN low us s) := by
  unfold execResetN
  with_reducible
  repeat' first
    | assumption | exact Keeps.refl _ | (simp only [keeps_upd_iff]) | split | apply keeps_porAssert
    | apply keeps_foldl | apply keepsO_next

theorem keeps_execAlwaysOnSupplyLoss {z s : State} (h_s : Keeps z s) : KeepsO z (execAlwaysOnSupplyLoss s) := by
  unfold execAlwaysOnSupplyLoss
  exact keepsO_next ⟨h_s.pkg, h_s.fuses, fun _ => rfl, h_s.pending⟩

end Sys2Proof.Machine
end

