-- ==== Sys2Proof/Laws/Mail.lean ====
section
/-! SUPPORT. Taking the message at the head of an endpoint's inbox or of the mail, and what an access answers. -/

namespace Sys2Proof.Machine

open Sys2Proof

theorem takeInbox_head {s : State} {k : Nat} {v : Volley} {r : List Volley} {p : Volley → Bool}
    (h : tget [] k s.fab.inbox = v :: r) (hp : p v = true) :
    s.takeInbox k p = some (v, { s with fab.inbox := if r.isEmpty then tdel k s.fab.inbox else tset k r s.fab.inbox }) := by
  unfold State.takeInbox
  rw [h]
  simp [takeVolley, hp]

theorem takeMail_head {s : State} {x : Mail} {r : List Mail} {p : Mail → Bool} (h : s.fab.mail = x :: r) (hp : p x = true) :
    s.takeMail p = some (x, { s with fab.mail := r }) := by
  unfold State.takeMail
  rw [h]
  simp [takeMail, hp]

theorem tfind_tdel {α : Type} (k : Nat) (t : Tab α) : tfind k (tdel k t) = none := by
  induction t with
  | nil => rfl
  | cons e r ih =>
    unfold tdel
    split
    · exact ih
    · rename_i h
      unfold tfind
      simp [h, ih]

theorem refused (s : State) (m off : Nat) (b2 : Bool) (c : Code) (r : Bool) : Refused s (s.refuse m b2 off c r) m off c r := by
  unfold Refused State.refuse
  simp only [modMaster_master, hostWake_master]
  exact ⟨trivial, trivial, trivial, trivial, trivial⟩

theorem answered (s : State) (m : Nat) (ws : List DWord) : Answered (s.respond m ws) m ws := by
  unfold Answered State.respond
  rw [modMaster_master]

theorem tfind_tset {α : Type} (k : Nat) (v : α) (t : Tab α) : tfind k (tset k v t) = some v := by
  induction t with
  | nil => simp [tset, tfind]
  | cons e r ih =>
    unfold tset
    split
    · simp [tfind]
    · split
      · simp [tfind]
      · rename_i h1 h2; unfold tfind; rw [if_neg (by intro h; exact h2 h)]; exact ih

end Sys2Proof.Machine
end

