-- ==== Sys2Proof/Laws/MemoryLE.lean ====
section
/-! SUPPORT. What a little-endian store leaves at each address. -/

namespace Sys2Proof.Machine

open Sys2Proof

theorem read_writeLE_out : ∀ (n : Nat) (m : Memory) (a v b : Nat), (b < a ∨ a + n ≤ b) → (m.writeLE a n v).read b = m.read b
  | 0, _, _, _, _, _ => rfl
  | n + 1, m, a, v, b, h => by
    unfold Memory.writeLE
    rw [read_writeLE_out n _ _ _ _ (by omega), read_write_other _ (by omega)]

theorem read_writeLE_in : ∀ (n : Nat) {m : Memory}, m.wf = true → ∀ (a v k : Nat), k < n →
    (m.writeLE a n v).read (a + k) = BitVec.ofNat 8 (v / 256 ^ k)
  | 0, _, _, _, _, _, h => absurd h (Nat.not_lt_zero _)
  | n + 1, m, hm, a, v, 0, _ => by
    unfold Memory.writeLE
    rw [read_writeLE_out n _ _ _ _ (by omega), Nat.add_zero, read_write_same hm]
    simp
  | n + 1, m, hm, a, v, k + 1, h => by
    unfold Memory.writeLE
    have := read_writeLE_in n (wf_write hm a (BitVec.ofNat 8 v)) (a + 1) (v / 256) k (by omega)
    rw [show a + (k + 1) = a + 1 + k by omega, this, Nat.div_div_eq_div_mul, Nat.pow_succ, Nat.mul_comm]

theorem ofNat_byte (d : BitVec 512) (k : Nat) : BitVec.ofNat 8 (d.toNat / 256 ^ k) = d.extractLsb' (8 * k) 8 := by
  apply BitVec.eq_of_toNat_eq
  rw [BitVec.toNat_ofNat, BitVec.extractLsb'_toNat, Nat.shiftRight_eq_div_pow, Nat.pow_mul]

theorem read_heal (m : Memory) (a n b : Nat) : (m.heal a n).read b = m.read b := rfl

theorem read_writeLine_in {m : Memory} (hm : m.wf = true) (a : Nat) (d : BitVec 512) {k : Nat} (h : k < 64) :
    (m.writeLine a d).read (a + k) = d.extractLsb' (8 * k) 8 := by
  unfold Memory.writeLine
  rw [read_heal, ← ofNat_byte, read_writeLE_in 64 hm a d.toNat k h]

theorem read_writeLine_out (m : Memory) (a : Nat) (d : BitVec 512) {b : Nat} (h : b < a ∨ a + 64 ≤ b) :
    (m.writeLine a d).read b = m.read b := by
  unfold Memory.writeLine
  rw [read_heal, read_writeLE_out 64 m a d.toNat b h]

end Sys2Proof.Machine
end

