-- ==== Sys2Proof/Laws/Ports.lean ====
section
/-! SUPPORT. What the shared operations of the stream ports leave of a port: its state, its counters of transitions, its
cause and its configuration. -/

set_option linter.unusedSimpArgs false

namespace Sys2Proof.Machine

open Sys2Proof

/-- Every port keeps everything but its queue, its counts of events, and its output stage. -/
def PortsKeep (s t : State) : Prop :=
  ∀ j, { (t.port j) with queue := [], sent := 0, dropped := 0, sampled := [], outs := [], slots := [] }
    = { (s.port j) with queue := [], sent := 0, dropped := 0, sampled := [], outs := [], slots := [] }

theorem PortsKeep.refl (s : State) : PortsKeep s s := fun _ => rfl
theorem PortsKeep.trans {s t u : State} (a : PortsKeep s t) (b : PortsKeep t u) : PortsKeep s u := fun j => (b j).trans (a j)
theorem PortsKeep.same {s t : State} (h : t.ports = s.ports) : PortsKeep s t := fun j => by simp [State.port, h]
theorem portsKeep_foldl {α : Type} {f : State → α → State} (hf : ∀ s x, PortsKeep s (f s x)) (l : List α) (s : State) :
    PortsKeep s (l.foldl f s) := by
  induction l generalizing s with
  | nil => exact PortsKeep.refl s
  | cons a r ih => exact (hf s a).trans (ih _)

theorem portsKeep_mod (s : State) (n : Nat) (f : Port → Port)
    (hf : ∀ p, { (f p) with queue := [], sent := 0, dropped := 0, sampled := [], outs := [], slots := [] }
      = { p with queue := [], sent := 0, dropped := 0, sampled := [], outs := [], slots := [] }) : PortsKeep s (s.modPort n f) := by
  intro j
  by_cases h : j = n
  · subst h; rw [modPort_port]; exact hf _
  · rw [modPort_port_other _ h]

theorem PortsKeep.fields {s t : State} (h : PortsKeep s t) (j : Nat) : (t.port j).st = (s.port j).st
    ∧ (t.port j).cfg = (s.port j).cfg ∧ (t.port j).detaches = (s.port j).detaches ∧ (t.port j).attaches = (s.port j).attaches
    ∧ (t.port j).enumFail = (s.port j).enumFail ∧ (t.port j).armPending = (s.port j).armPending ∧ (t.port j).pres = (s.port j).pres
    ∧ (t.port j).cause = (s.port j).cause := by
  have := h j
  simp only [Port.mk.injEq] at this
  simp only [this]
  trivial

theorem portsKeep_portDrain (n : Nat) : ∀ (k : Nat) (s : State), PortsKeep s (s.portDrain n k) := by
  intro k
  induction k with
  | zero => intro s; exact PortsKeep.refl s
  | succ k ih =>
    intro s
    unfold State.portDrain
    split
    · exact PortsKeep.refl s
    · simp only []
      split
      · refine PortsKeep.trans ?_ (ih _)
        exact (portsKeep_mod s n _ (by intro p; rfl)).trans (PortsKeep.same (send_ok.ports_eq (by decide)))
      · exact PortsKeep.refl s

theorem portsKeep_portFlush (s : State) (n : Nat) : PortsKeep s (s.portFlush n) := by
  unfold State.portFlush
  exact (portsKeep_mod s n _ (by intro p; rfl)).trans (portsKeep_foldl (fun s x => PortsKeep.same (send_ok.ports_eq (by decide))) _ _)

theorem portsKeep_portQueue (s : State) (n : Nat) (e : DWord) (w v : Nat) : PortsKeep s (s.portQueue n e w v) := by
  unfold State.portQueue
  simp only []
  split
  · exact (portsKeep_mod s n _ (by intro p; rfl)).trans (portsKeep_portDrain _ _ _)
  · have h : PortsKeep s ((s.modPort n (fun x =>
      { x with dropped := sat 32 x.dropped 1, sampled := tset (s.turnKey w (s.world w).t) (tget 0 (s.turnKey w (s.world w).t) (s.port n).sampled + 1) x.sampled })).addIntake w (s.world w).t 1) :=
      (portsKeep_mod s n _ (by intro p; rfl)).trans (PortsKeep.same (addIntake_ok.ports_eq (by decide)))
    split
    · exact h.trans (PortsKeep.same rfl)
    · exact h

theorem portsKeep_portEvent (s : State) (n ch : Nat) (e : DWord) (w off v : Nat) : PortsKeep s (s.portEvent n ch e w off v) := by
  unfold State.portEvent
  split
  · exact PortsKeep.same (lockQueue_ok.ports_eq (by decide))
  · exact portsKeep_portQueue _ _ _ _ _

theorem portsKeep_lostEvents (s : State) (n : Nat) (b : Bool) : PortsKeep s (s.lostEvents n b) := by
  unfold State.lostEvents
  exact portsKeep_foldl (fun s i => by
    dsimp only
    split
    · exact portsKeep_portEvent _ _ _ _ _ _ _
    · exact PortsKeep.refl s) _ _

/-- A port's output stage may change. -/
def OutsOnly (p q : Port) : Prop := { q with outs := [], slots := [] } = { p with outs := [], slots := [] }
theorem OutsOnly.trans {p q r : Port} (a : OutsOnly p q) (b : OutsOnly q r) : OutsOnly p r := Eq.trans b a
theorem outsOnly_modOut (p : Port) (c : Nat) (f : OutCh → OutCh) : OutsOnly p (p.modOut c f) := rfl
theorem outsOnly_modSlot (p : Port) (c : Nat) (f : CanSlot → CanSlot) : OutsOnly p (p.modSlot c f) := rfl
theorem outsOnly_canByte (p : Port) (c v : Nat) (b : Bool) : OutsOnly p (p.canByte c v b) := rfl
theorem outsOnly_enterSafe (p : Port) (c : Nat) (d : OutDesc) (b : Bool) : OutsOnly p (p.enterSafe c d b) := by
  unfold Port.enterSafe
  dsimp only
  split
  · rfl
  · split <;> rfl
theorem outsOnly_rampSafe (p : Port) (c : Nat) (d : OutDesc) : OutsOnly p (p.rampSafe c d) := by
  unfold Port.rampSafe
  split
  · rfl
  · rfl
  · split
    · exact outsOnly_enterSafe _ _ _ _
    · rfl
theorem outsOnly_fold {α : Type} {f : Port → α → Port} (hf : ∀ p x, OutsOnly p (f p x)) (l : List α) (p : Port) : OutsOnly p (l.foldl f p) := by
  induction l generalizing p with
  | nil => rfl
  | cons a r ih => exact (hf p a).trans (ih _)
theorem outsOnly_eachOut (p : Port) (q : OutDesc → Bool) (f : Port → Nat → OutDesc → Port) (hf : ∀ p c d, OutsOnly p (f p c d)) : OutsOnly p (p.eachOut q f) := by
  unfold Port.eachOut
  refine outsOnly_fold (fun p c => ?_) _ p
  split
  · split
    · exact hf _ _ _
    · rfl
  · rfl

theorem portsKeep_outs (s : State) (n : Nat) (f : Port → Port) (hf : ∀ p, OutsOnly p (f p)) : PortsKeep s (s.modPort n f) := by
  refine portsKeep_mod s n f (fun p => ?_)
  have := hf p
  unfold OutsOnly at this
  simp only [Port.mk.injEq] at this ⊢
  simp only [this]
  trivial

theorem portRecord_port (s : State) (n c : Nat) : (s.portRecord n c).port n = { s.port n with cause := c } := by
  unfold State.portRecord
  unfold State.port
  rw [postRecord_ok.ports_eq (by decide)]
  exact modPort_port s n _

theorem portRecord_other (s : State) {n j : Nat} (h : j ≠ n) (c : Nat) : (s.portRecord n c).port j = s.port j := by
  unfold State.portRecord
  unfold State.port
  rw [postRecord_ok.ports_eq (by decide)]
  exact modPort_port_other s h _

/-- A port that leaves ATTACHED: DETACHED, counted, with its cause (R221, R225, R241). -/
theorem detach_port (s : State) (n c : Nat) : ((s.detach n c).port n).st = .detached ∧ ((s.detach n c).port n).cause = c
    ∧ ((s.detach n c).port n).detaches = sat 16 (s.port n).detaches 1 ∧ ((s.detach n c).port n).cfg = (s.port n).cfg := by
  unfold State.detach
  dsimp only
  rw [portRecord_port]
  generalize hs1 : s.modPort n (fun x => { x with st := .detached, detaches := sat 16 x.detaches 1 }) = s1
  have e1 : (s1.port n).st = .detached ∧ (s1.port n).detaches = sat 16 (s.port n).detaches 1 ∧ (s1.port n).cfg = (s.port n).cfg := by
    rw [← hs1, modPort_port]; exact ⟨rfl, rfl, rfl⟩
  have h : PortsKeep s1 ((((s1.portFlush n).lostEvents n false).portFlush n).modPort n (fun p => p.eachOut (fun _ => true) Port.rampSafe)) :=
    (((portsKeep_portFlush _ _).trans (portsKeep_lostEvents _ _ _)).trans (portsKeep_portFlush _ _)).trans
      (portsKeep_outs _ _ _ (fun p => outsOnly_eachOut p _ _ outsOnly_rampSafe))
  obtain ⟨h1, h2, h3, _⟩ := h.fields n
  exact ⟨h1.trans e1.1, rfl, h3.trans e1.2.1, h2.trans e1.2.2⟩

theorem portsKeep_armPort (s : State) (n : Nat) (q : OutDesc → Bool) : PortsKeep s (s.armPort n q) := by
  unfold State.armPort
  refine portsKeep_foldl (fun s c => ?_) _ s
  split
  · split
    · exact portsKeep_outs _ _ _ (fun p => rfl)
    · exact PortsKeep.refl s
  · exact PortsKeep.refl s

/-- A port that reaches ATTACHED: counted, its failure cleared, its one-time arming done (R221, R240, R241). -/
theorem attach_port (s : State) (n : Nat) : ((s.attach n).port n).st = .attached ∧ ((s.attach n).port n).cause = 3
    ∧ ((s.attach n).port n).attaches = sat 16 (s.port n).attaches 1 ∧ ((s.attach n).port n).enumFail = false
    ∧ ((s.attach n).port n).armPending = false ∧ ((s.attach n).port n).cfg = (s.port n).cfg := by
  unfold State.attach
  dsimp only
  rw [portRecord_port]
  simp only [modPort_port]
  generalize hs1 : s.modPort n (fun x =>
    { x with st := .attached, attaches := sat 16 x.attaches 1, enumFail := false, badRun := 0, illegalRun := [] }) = s1
  have e1 : (s1.port n).st = .attached ∧ (s1.port n).attaches = sat 16 (s.port n).attaches 1 ∧ (s1.port n).enumFail = false ∧ (s1.port n).cfg = (s.port n).cfg := by
    rw [← hs1, modPort_port]; exact ⟨rfl, rfl, rfl, rfl⟩
  have h : PortsKeep s1 (if ((s1.lostEvents n true).port n).armPending then (s1.lostEvents n true).armPort n (fun _ => true) else s1.lostEvents n true) := by
    split
    · exact (portsKeep_lostEvents _ _ _).trans (portsKeep_armPort _ _ _)
    · exact portsKeep_lostEvents _ _ _
  obtain ⟨h1, h2, h3, h4, h5, _⟩ := h.fields n
  exact ⟨h1.trans e1.1, trivial, h4.trans e1.2.1, h5.trans e1.2.2.1, trivial, h2.trans e1.2.2.2⟩

/-- A port that starts to enumerate: ENUMERATING with its cause, or ATTACHED at once in modes AER, QUAD and OUT (R224). -/
theorem enumerate_port (s : State) (n c : Nat) :
    (((s.port n).cfg.mode = 3 ∨ (s.port n).cfg.mode = 4 ∨ (s.port n).cfg.mode = 5) →
      ((s.enumerate n c).port n).st = .attached ∧ ((s.enumerate n c).port n).attaches = sat 16 (s.port n).attaches 1)
    ∧ (¬((s.port n).cfg.mode = 3 ∨ (s.port n).cfg.mode = 4 ∨ (s.port n).cfg.mode = 5) →
      ((s.enumerate n c).port n) = { s.port n with st := .enumerating, cause := c }) := by
  unfold State.enumerate
  dsimp only
  have e : ((s.modPort n (fun x => { x with st := .enumerating })).portRecord n c).port n = { s.port n with st := .enumerating, cause := c } := by
    rw [portRecord_port, modPort_port]
  rw [e]
  refine ⟨fun h => ?_, fun h => ?_⟩
  · have hc : ((decide ((s.port n).cfg.mode = 3) || decide ((s.port n).cfg.mode = 4)) || decide ((s.port n).cfg.mode = 5)) = true := by
      rcases h with h | h | h <;> simp [h]
    simp only [hc, if_true]
    obtain ⟨h1, h2, h3, _⟩ := attach_port ((s.modPort n (fun x => { x with st := .enumerating })).portRecord n c) n
    rw [e] at h3
    exact ⟨h1, h3⟩
  · have hc : ((decide ((s.port n).cfg.mode = 3) || decide ((s.port n).cfg.mode = 4)) || decide ((s.port n).cfg.mode = 5)) = false := by
      simp at h ⊢; exact ⟨⟨h.1, h.2.1⟩, h.2.2⟩
    simp only [hc, Bool.false_eq_true, if_false, e]

end Sys2Proof.Machine
end

