-- ==== Sys2Proof/Laws/TileCore.lean ====
section
/-! SUPPORT. What sending a volley and reporting a turn leave alone in every tile. -/

namespace Sys2Proof.Machine

open Sys2Proof

/-- A tile without what sending a volley may change. -/
def Tile.sendCore (x : Tile) : Tile := { x with pace := {}, oldSent := 0, hwMarked := 0 }

/-- A tile without what closing open volleys and reporting turns may change. -/
def Tile.reportCore (x : Tile) : Tile :=
  { x with pace := {}, oldSent := 0, hwMarked := 0, worlds := [], openVols := [], lockSent := [] }

/-- In every tile only what sending changes differs. -/
structure SendCore (s u : State) : Prop where
  at_ : ∀ k, (u.tile k).sendCore = (s.tile k).sendCore
  ep : u.hub.epoch.state = s.hub.epoch.state ∧ u.hub.epoch.current = s.hub.epoch.current

/-- In every tile only what reporting changes differs. -/
structure ReportCore (s u : State) : Prop where
  at_ : ∀ k, (u.tile k).reportCore = (s.tile k).reportCore
  ep : u.hub.epoch.state = s.hub.epoch.state ∧ u.hub.epoch.current = s.hub.epoch.current

theorem SendCore.refl (s : State) : SendCore s s := ⟨fun _ => rfl, rfl, rfl⟩
theorem SendCore.trans {a b c : State} (h : SendCore a b) (g : SendCore b c) : SendCore a c := ⟨fun k => (g.at_ k).trans (h.at_ k), g.ep.1.trans h.ep.1, g.ep.2.trans h.ep.2⟩
theorem SendCore.of_tiles {s u : State} (h : u.tiles = s.tiles)
    (he : u.hub.epoch.state = s.hub.epoch.state ∧ u.hub.epoch.current = s.hub.epoch.current) : SendCore s u :=
  ⟨fun k => by unfold State.tile; rw [h], he⟩
theorem SendCore.after {s t u : State} (h : SendCore t u) (e : t.tiles = s.tiles)
    (he : t.hub.epoch.state = s.hub.epoch.state ∧ t.hub.epoch.current = s.hub.epoch.current) : SendCore s u :=
  (SendCore.of_tiles e he).trans h
theorem ReportCore.refl (s : State) : ReportCore s s := ⟨fun _ => rfl, rfl, rfl⟩
theorem ReportCore.trans {a b c : State} (h : ReportCore a b) (g : ReportCore b c) : ReportCore a c := ⟨fun k => (g.at_ k).trans (h.at_ k), g.ep.1.trans h.ep.1, g.ep.2.trans h.ep.2⟩

theorem reportCore_of_send {x y : Tile} (h : x.sendCore = y.sendCore) : x.reportCore = y.reportCore :=
  (congrArg (fun (z : Tile) => { z with worlds := [], openVols := [], lockSent := [] }) h : _)

theorem SendCore.report {s u : State} (h : SendCore s u) : ReportCore s u := ⟨fun k => reportCore_of_send (h.at_ k), h.ep⟩

theorem modTile_sendCore (s : State) (t : Nat) (f : Tile → Tile) (hf : ∀ x, (f x).sendCore = x.sendCore) : SendCore s (s.modTile t f) := by
  refine ⟨?_, rfl, rfl⟩; intro k
  by_cases h : k = t
  · subst h
    have : (s.modTile k f).tile k = f (s.tile k) := by unfold State.tile State.modTile tmod; simp
    rw [this, hf]
  · have : (s.modTile t f).tile k = s.tile k := by unfold State.tile State.modTile tmod; simp [tget_tset, h]
    rw [this]

theorem modTile_reportCore (s : State) (t : Nat) (f : Tile → Tile) (hf : ∀ x, (f x).reportCore = x.reportCore) :
    ReportCore s (s.modTile t f) := by
  refine ⟨?_, rfl, rfl⟩; intro k
  by_cases h : k = t
  · subst h
    have : (s.modTile k f).tile k = f (s.tile k) := by unfold State.tile State.modTile tmod; simp
    rw [this, hf]
  · have : (s.modTile t f).tile k = s.tile k := by unfold State.tile State.modTile tmod; simp [tget_tset, h]
    rw [this]

theorem foldl_sendCore {α : Type} (f : State → α → State) (hf : ∀ s a, SendCore s (f s a)) (l : List α) :
    ∀ s, SendCore s (l.foldl f s) := by
  induction l with
  | nil => intro s; exact SendCore.refl s
  | cons a r ih => intro s; exact (hf s a).trans (ih _)

theorem foldl_reportCore {α : Type} (f : State → α → State) (hf : ∀ s a, ReportCore s (f s a)) (l : List α) :
    ∀ s, ReportCore s (l.foldl f s) := by
  induction l with
  | nil => intro s; exact ReportCore.refl s
  | cons a r ih => intro s; exact (hf s a).trans (ih _)

theorem countSent_sendCore (s : State) (st : Nat) (v : Volley) : SendCore s (s.countSent st v) := by
  unfold State.countSent; split
  · exact SendCore.of_tiles rfl ⟨rfl, rfl⟩
  · exact SendCore.refl s

theorem countRecv_sendCore (s : State) (st : Nat) (v : Volley) : SendCore s (s.countRecv st v) := by
  unfold State.countRecv; split
  · exact SendCore.of_tiles rfl ⟨rfl, rfl⟩
  · exact SendCore.refl s

theorem loseEvents_sendCore (s : State) (v : Volley) (c : Code) (rep : Coord) : SendCore s (s.loseEvents v c rep) :=
  SendCore.of_tiles ((loseEvents_ok).tiles_eq (by decide)) (by rw [(loseEvents_ok).epoch_eq (by decide)]; exact ⟨rfl, rfl⟩)

theorem spanSend_sendCore (s : State) (k : Nat) (v : Volley) : SendCore s (s.spanSend k v) :=
  SendCore.of_tiles ((spanSend_ok).tiles_eq (by decide)) (by rw [(spanSend_ok).epoch_eq (by decide)]; exact ⟨rfl, rfl⟩)

theorem countMark_sendCore (s : State) (k : Nat) (v : Volley) : SendCore s (s.countMark k v) := by
  unfold State.countMark; split
  · dsimp only; split
    · refine SendCore.after (modTile_sendCore _ _ _ ?_) rfl ⟨rfl, rfl⟩
      intro x; rfl
    · exact SendCore.of_tiles rfl ⟨rfl, rfl⟩
  · exact SendCore.refl s

theorem wakeDom_sendCore (s : State) (d k e : Nat) : SendCore s (s.wakeDom d k e) := SendCore.of_tiles ((wakeDom_ok).tiles_eq (by decide)) (by rw [(wakeDom_ok).epoch_eq (by decide)]; exact ⟨rfl, rfl⟩)

theorem deliver_sendCore (s : State) (k : Nat) (v : Volley) : SendCore s (s.deliver k v) := by
  have h0 : SendCore s (if 2048 ≤ k then s.wakeDom (hubDom k) v.wakeKind.1 v.wakeKind.2 else s) := by
    split
    · exact wakeDom_sendCore ..
    · exact SendCore.refl s
  unfold State.deliver
  generalize (if 2048 ≤ k then s.wakeDom (hubDom k) v.wakeKind.1 v.wakeKind.2 else s) = s0 at h0
  refine h0.trans ?_
  by_cases h : (decide (2048 ≤ k) && v.body.isMark) = true
  · rw [if_pos h]; exact countMark_sendCore ..
  · rw [if_neg h]; exact (countMark_sendCore s0 k v).trans (SendCore.of_tiles rfl ⟨rfl, rfl⟩)

theorem toHub_sendCore (s : State) (v : Volley) : SendCore s (s.toHub v) := by
  unfold State.toHub
  split
  · exact (countRecv_sendCore ..).trans (deliver_sendCore ..)
  · split
    · split
      · exact (countRecv_sendCore ..).trans (spanSend_sendCore ..)
      · exact (countRecv_sendCore ..).trans (loseEvents_sendCore ..)
    · exact (countRecv_sendCore ..).trans (loseEvents_sendCore ..)

theorem enqueue_sendCore (s : State) (px py i : Nat) (v : Volley) : SendCore s (s.enqueue px py i v) := SendCore.of_tiles rfl ⟨rfl, rfl⟩

theorem inject_sendCore (s : State) (k : Nat) (v : Volley) : SendCore s (s.inject k v) := by
  unfold State.inject
  split
  · dsimp only; split
    · refine SendCore.trans ((countSent_sendCore ..).trans (enqueue_sendCore ..)) (modTile_sendCore _ _ _ ?_)
      intro x; rfl
    · exact (countSent_sendCore ..).trans (enqueue_sendCore ..)
  · dsimp only; split
    · exact ((countSent_sendCore ..).trans (wakeDom_sendCore ..)).trans (enqueue_sendCore ..)
    · exact (countSent_sendCore ..).trans (toHub_sendCore ..)

theorem modPace_sendCore (s : State) (k : Nat) (f : Pace → Pace) : SendCore s (s.modPace k f) := by
  unfold State.modPace; split
  · refine modTile_sendCore _ _ _ ?_
    intro x; rfl
  · exact SendCore.of_tiles rfl ⟨rfl, rfl⟩

theorem paced_sendCore (s : State) (k : Nat) (v : Volley) : SendCore s (s.paced k v) := by
  unfold State.paced; split
  · exact inject_sendCore ..
  · dsimp only; split
    · exact (modPace_sendCore ..).trans (inject_sendCore ..)
    · exact modPace_sendCore ..

theorem send_sendCore (s : State) (k : Nat) (v : Volley) : SendCore s (s.send k v) := by
  unfold State.send; split
  · exact SendCore.after (loseEvents_sendCore ..) rfl ⟨rfl, rfl⟩
  · exact paced_sendCore ..

theorem drainPace_sendCore (k : Nat) : ∀ (n : Nat) (s : State), SendCore s (s.drainPace k n) := by
  intro n; induction n with
  | zero => intro s; exact SendCore.refl s
  | succ n ih =>
    intro s; unfold State.drainPace; dsimp only; split
    · exact SendCore.refl s
    · split
      · exact ((modPace_sendCore ..).trans (inject_sendCore ..)).trans (ih _)
      · exact SendCore.refl s

theorem fromRoot_sendCore (s : State) (st x : Nat) (c : Ctl) : SendCore s (s.fromRoot st x c) := by
  unfold State.fromRoot; exact (countSent_sendCore ..).trans (enqueue_sendCore ..)

theorem sendOpen_reportCore (s : State) (t : Nat) (o : OpenVolley) : ReportCore s (s.sendOpen t o) := by
  unfold State.sendOpen; dsimp only; split
  · refine ReportCore.trans (modTile_reportCore _ _ _ ?_) (send_sendCore ..).report
    intro x; rfl
  · exact (send_sendCore ..).report

theorem flushOpen_reportCore (s : State) (t : Nat) (p : OpenVolley → Bool) : ReportCore s (s.flushOpen t p) := by
  unfold State.flushOpen
  exact (modTile_reportCore s t (fun x => { x with openVols := x.openVols.filter (fun o => !p o) }) (fun _ => rfl)).trans
    (foldl_reportCore _ (fun s o => sendOpen_reportCore s t o) _ _)

theorem reports_reportCore (t w : Nat) : ∀ (n : Nat) (s : State), ReportCore s (s.reports t w n) := by
  intro n; induction n with
  | zero => intro s; exact ReportCore.refl s
  | succ n ih =>
    intro s; unfold State.reports; dsimp only; split
    · refine ReportCore.trans ?_ (ih _)
      refine ReportCore.trans ((flushOpen_reportCore ..).trans (send_sendCore ..).report) (modTile_reportCore _ _ _ ?_)
      intro x; rfl
    · exact ReportCore.refl s

theorem groupReports_reportCore (s : State) (t g : Nat) : ReportCore s (s.groupReports t g) := by
  unfold State.groupReports
  exact foldl_reportCore _ (fun s l => reports_reportCore t (g * 32 + l) 8 s) _ _

/-- No volley opens in a tile. -/
structure OpenLess (s u : State) : Prop where
  at_ : ∀ k o, o ∈ (u.tile k).openVols → o ∈ (s.tile k).openVols

theorem OpenLess.refl (s : State) : OpenLess s s := ⟨fun _ _ h => h⟩
theorem OpenLess.trans {a b c : State} (h : OpenLess a b) (g : OpenLess b c) : OpenLess a c := ⟨fun k o m => h.at_ k o (g.at_ k o m)⟩
theorem SendCore.openLess {s u : State} (h : SendCore s u) : OpenLess s u := ⟨fun k o m => by
  have := congrArg Tile.openVols (h.at_ k)
  simp only [Tile.sendCore] at this
  rwa [this] at m⟩

theorem modTile_openLess (s : State) (t : Nat) (f : Tile → Tile) (hf : ∀ x o, o ∈ (f x).openVols → o ∈ x.openVols) :
    OpenLess s (s.modTile t f) := by
  constructor; intro k o
  by_cases h : k = t
  · subst h
    have : (s.modTile k f).tile k = f (s.tile k) := by unfold State.tile State.modTile tmod; simp
    rw [this]; exact hf _ _
  · have : (s.modTile t f).tile k = s.tile k := by unfold State.tile State.modTile tmod; simp [tget_tset, h]
    rw [this]; exact id

theorem foldl_openLess {α : Type} (f : State → α → State) (hf : ∀ s a, OpenLess s (f s a)) (l : List α) :
    ∀ s, OpenLess s (l.foldl f s) := by
  induction l with
  | nil => intro s; exact OpenLess.refl s
  | cons a r ih => intro s; exact (hf s a).trans (ih _)

theorem sendOpen_openLess (s : State) (t : Nat) (o : OpenVolley) : OpenLess s (s.sendOpen t o) := by
  unfold State.sendOpen; dsimp only; split
  · refine OpenLess.trans (modTile_openLess _ _ _ ?_) (send_sendCore ..).openLess
    intro x o h; exact h
  · exact (send_sendCore ..).openLess

theorem flushOpen_openLess (s : State) (t : Nat) (p : OpenVolley → Bool) : OpenLess s (s.flushOpen t p) := by
  unfold State.flushOpen
  exact (modTile_openLess s t (fun x => { x with openVols := x.openVols.filter (fun o => !p o) })
    (fun x o h => List.mem_of_mem_filter h)).trans (foldl_openLess _ (fun s o => sendOpen_openLess s t o) _ _)

/-- What a flush selects is open no more. -/
theorem flushOpen_gone (s : State) (t : Nat) (p : OpenVolley → Bool) (o : OpenVolley) (h : o ∈ ((s.flushOpen t p).tile t).openVols) :
    p o = false := by
  unfold State.flushOpen at h
  have := foldl_openLess _ (fun s o => sendOpen_openLess s t o) _ _ |>.at_ t o h
  have e : ((s.modTile t (fun x => { x with openVols := x.openVols.filter (fun o => !p o) })).tile t).openVols
      = (s.tile t).openVols.filter (fun o => !p o) := by unfold State.tile State.modTile tmod; simp
  rw [e] at this
  have := (List.mem_filter.mp this).2
  simpa using this

theorem reports_openLess (t w : Nat) : ∀ (n : Nat) (s : State), OpenLess s (s.reports t w n) := by
  intro n; induction n with
  | zero => intro s; exact OpenLess.refl s
  | succ n ih =>
    intro s; unfold State.reports; dsimp only; split
    · refine OpenLess.trans ?_ (ih _)
      refine OpenLess.trans ((flushOpen_openLess ..).trans (send_sendCore ..).openLess) (modTile_openLess _ _ _ ?_)
      intro x o h; exact h
    · exact OpenLess.refl s

theorem groupReports_openLess (s : State) (t g : Nat) : OpenLess s (s.groupReports t g) := by
  unfold State.groupReports
  exact foldl_openLess _ (fun s l => reports_openLess t (g * 32 + l) 8 s) _ _

/-- What the schedule that a tile runs depends on. -/
theorem curSchedule_of {s u : State} (t : Nat) (hc : (u.tile t).cfg = (s.tile t).cfg) (hb : (u.tile t).blocks = (s.tile t).blocks)
    (ht : (u.tile t).schedTurn = (s.tile t).schedTurn) (hq : ∀ k, (u.tile k).quar = (s.tile k).quar)
    (he : u.hub.epoch.state = s.hub.epoch.state ∧ u.hub.epoch.current = s.hub.epoch.current) (hm : u.mem = s.mem)
    (hw : u.tmp.worlds = s.tmp.worlds) : u.curSchedule t = s.curSchedule t := by
  have hr : ∀ w, (u.tile t).resident w = (s.tile t).resident w := by
    intro w; unfold Tile.resident; rw [hb]
  have h1 : u.schedBank t = s.schedBank t := by
    unfold State.schedBank; simp only [he.1, he.2, hw, ht, hr]
  have hl : ∀ a n, u.colLE t a n = s.colLE t a n := by
    intro a n; unfold State.colLE State.memAddr Tile.unitAddr Tile.quarOf; rw [hm, hq]
  unfold State.curSchedule State.schedule
  simp only [h1, hc, hl]

/-- Sending and reporting leave the schedule that a tile runs alone. -/
theorem curSchedule_eq {s u : State} (c : ReportCore s u) (hm : u.mem = s.mem) (hw : u.tmp.worlds = s.tmp.worlds) (t : Nat) :
    u.curSchedule t = s.curSchedule t := by
  have e1 := congrArg Tile.cfg (c.at_ t)
  have e2 := congrArg Tile.blocks (c.at_ t)
  have e3 := congrArg Tile.schedTurn (c.at_ t)
  simp only [Tile.reportCore] at e1 e2 e3
  refine curSchedule_of t e1 e2 e3 (fun k => ?_) c.ep hm hw
  have e4 := congrArg Tile.quar (c.at_ k)
  simp only [Tile.reportCore] at e4
  exact e4

end Sys2Proof.Machine
end

