-- ==== Sys2Proof/WellFormed.lean ====
section
/-! DEFINITION. The ranges of the commands' operands: what the spec's ids, widths and counts allow. `exec` asks for
none of them: an operand that names nothing finds nothing in the state (log 2). -/

namespace Sys2Proof

/-- A 6-bit master ID (R202). -/
def okMaster (m : Nat) : Bool := m < 64
/-- A column index (R171). -/
def okTile (t : Nat) : Bool := t < 2048
/-- A world id (R31). -/
def okWorld (w : Nat) : Bool := w < 8192
/-- A rack number (R149). -/
def okRack (rk : Nat) : Bool := rk < 256
/-- A 32-bit sequence number (R151). -/
def okSeq (seq : Nat) : Bool := seq < 2 ^ 32
/-- A stream port (R116). -/
def okPort (pt : Nat) : Bool := pt < 16
/-- A span link (R116). -/
def okLink (lk : Nat) : Bool := lk < 8
/-- An endpoint key: a tile or a hub endpoint (R116). -/
def okEndpoint (ep : Nat) : Bool := ep < 4096
/-- A stack (R2). -/
def okStack (st : Nat) : Bool := st < 16
/-- A 12-bit domain id (R269). -/
def okDomain (dom : Nat) : Bool := dom < 4096
/-- An access size of BAR0 (R199). -/
def okSize (size : Nat) : Bool := size = 4 || size = 8 || size = 16 || size = 32
/-- An access size of BAR0 or BAR2 (R199). -/
def okReadSize (size : Nat) : Bool := okSize size || size = 64
/-- An aligned offset within BAR0 (R198, R199). -/
def okOffset (off size : Nat) : Bool := off % size = 0 && off + size ≤ 2 ^ 26
/-- An issuer of bulk descriptors (R176): boot engine, steward, or a stack's tiles. -/
def okIssuer (who : Nat) : Bool := who < 2 || (0x24 ≤ who && who < 0x34)

/-- A port or LD that exists (R192, R196). -/
def LinkTarget.wf : LinkTarget → Bool
  | .port k => k < 2
  | .ld n => n < 16

/-- The fields of a volley fit its header (R122). -/
def WireVolley.wf (v : WireVolley) : Bool :=
  v.dst.p < 64 && v.dst.x < 64 && v.dst.y < 64 && v.src.p < 64 && v.src.x < 64 && v.src.y < 64 && v.group < 256
    && v.cls < 4 && v.kind < 16 && v.slot < 2 ^ 14 && v.tempoBase < 2 ^ 24 && v.phops < 8 && v.body.length ≤ 32
    && !v.body.isEmpty

/-- The fields of a span frame fit its trailer (R135). -/
def SpanFrame.wf (f : SpanFrame) : Bool :=
  f.seq < 2 ^ 12 && f.ack < 2 ^ 12 && f.credit0 < 256 && f.credit1 < 256 && f.credit2 < 256 && f.volleys.all WireVolley.wf

/-- The operands lie in their ranges. -/
def Instr.wf : Instr → Bool
  | .advance rk seq => okRack rk && okSeq seq
  | .groupAdvance rk seq => okRack rk && okSeq seq
  | .start rk seq => okRack rk && okSeq seq
  | .park rk seq => okRack rk && okSeq seq
  | .unpark rk seq => okRack rk && okSeq seq
  | .retire rk seq => okRack rk && okSeq seq
  | .inject rk seq => okRack rk && okSeq seq
  | .epochFlip rk seq => okRack rk && okSeq seq
  | .amend rk seq _ => okRack rk && okSeq seq
  | .portRearm rk seq => okRack rk && okSeq seq
  | .traceStop rk seq => okRack rk && okSeq seq
  | .traceStart rk seq => okRack rk && okSeq seq
  | .traceSource rk seq => okRack rk && okSeq seq
  | .traceFilter rk seq => okRack rk && okSeq seq
  | .traceTrigger rk seq => okRack rk && okSeq seq
  | .traceOutput rk seq => okRack rk && okSeq seq
  | .traceClear rk seq => okRack rk && okSeq seq
  | .powerSetCap rk seq => okRack rk && okSeq seq
  | .powerSetDepth rk seq => okRack rk && okSeq seq
  | .powerSetDoldrums rk seq => okRack rk && okSeq seq
  | .fence rk seq => okRack rk && okSeq seq
  | .resume rk seq _ => okRack rk && okSeq seq
  | .sync rk seq => okRack rk && okSeq seq
  | .hostNop rk seq => okRack rk && okSeq seq
  | .commandDispatch rk => okRack rk
  | .tmpHostAdv m _ => okMaster m
  | .tileClear m t _ => okMaster m && okTile t
  | .tmpLearnGrp m g _ => okMaster m && g < 256
  | .push m rk _ => okMaster m && okRack rk
  | .pop m rk => okMaster m && okRack rk
  | .peek m rk => okMaster m && okRack rk
  | .latch m rk => okMaster m && okRack rk
  | .setPop m set => okMaster m && set < 64
  | .setPeek m set => okMaster m && set < 64
  | .rackAck m rk _ => okMaster m && okRack rk
  | .pipAdd m _ => okMaster m
  | .pipSet m _ => okMaster m
  | .pipTrysub m _ => okMaster m
  | .pipArrive m _ => okMaster m
  | .pipWait m _ => okMaster m
  | .pipCancel m _ => okMaster m
  | .pipTarget m _ => okMaster m
  | .pipMode m _ => okMaster m
  | .pipOvfClear m _ => okMaster m
  | .poolKeepCfg m _ => okMaster m
  | .addSpare m _ => okMaster m
  | .reinit m _ => okMaster m
  | .poolFlush m _ => okMaster m
  | .hubLossTail m _ => okMaster m
  | .stewardReset m _ => okMaster m
  | .restart m _ => okMaster m
  | .loRead m _ off size => okMaster m && off < 2 ^ 27 && okReadSize size
  | .hiRead m off => okMaster m && okOffset off 4
  | .registerWrite m _ _ size _ => okMaster m && okSize size
  | .hdmRead m line => okMaster m && line < 2 ^ 33
  | .hdmWrite m line _ => okMaster m && line < 2 ^ 33
  | .h2dSnoop port _ => port < 2
  | .setLdAllocations ld _ => ld < 16
  | .getLdInfo port => port < 2
  | .getLdAllocations port => port < 2
  | .linkDrop what => what.wf
  | .linkRecovery port => port < 2
  | .hotReset what => what.wf
  | .cxlLinkUp port width _ _ _ => port < 2 && width ≤ 16
  | .gNop t => okTile t
  | .gMov t _ _ => okTile t
  | .gMovi t _ _ => okTile t
  | .gMovhi t _ _ => okTile t
  | .gLdp t _ _ => okTile t
  | .gLdf t _ _ _ _ => okTile t
  | .gStf t _ _ _ _ => okTile t
  | .gAdd t _ _ _ => okTile t
  | .gSub t _ _ _ => okTile t
  | .gAdds t _ _ _ => okTile t
  | .gSubs t _ _ _ => okTile t
  | .gAddi t _ _ _ => okTile t
  | .gAddsi t _ _ _ => okTile t
  | .gMin t _ _ _ => okTile t
  | .gMax t _ _ _ => okTile t
  | .gAnd t _ _ _ => okTile t
  | .gOr t _ _ _ => okTile t
  | .gXor t _ _ _ => okTile t
  | .gShli t _ _ _ => okTile t
  | .gShri t _ _ _ => okTile t
  | .gShrli t _ _ _ => okTile t
  | .gDecz t _ _ _ => okTile t
  | .gMulq t _ _ _ _ => okTile t
  | .gMulqi t _ _ _ _ => okTile t
  | .gLeak t _ _ _ _ => okTile t
  | .gCmp t _ _ => okTile t
  | .gCmpi t _ _ => okTile t
  | .gB t _ _ => okTile t
  | .gRand t _ _ => okTile t
  | .gEmit t _ _ _ _ _ => okTile t
  | .gWake t _ _ _ => okTile t
  | .gEnd t => okTile t
  | .gambitStepOverrun t => okTile t
  | .events t => okTile t
  | .mergeDispatch t => okTile t
  | .stampUpdate t w => okTile t && okWorld w
  | .frontier t => okTile t
  | .turnReport => true
  | .turnOpen w => okWorld w
  | .turnClose w => okWorld w
  | .tempoInEdge pin _ => pin < 4
  | .tempoInGlitch pin _ => pin < 4
  | .encoderCount pt _ => okPort pt
  | .indexPulse pt => okPort pt
  | .tetherExpiry w => okWorld w
  | .retireComplete w => okWorld w
  | .subscribe lk leader follower => okLink lk && okWorld leader && okWorld follower
  | .tempoFwd lk leader _ => okLink lk && okWorld leader
  | .age t => okTile t
  | .sweepAck => true
  | .tempoGrant t => okTile t
  | .psum t => okTile t
  | .lacc t => okTile t
  | .rrow t => okTile t
  | .chainAck t => okTile t
  | .consolidationPoint t => okTile t
  | .refreshDue t bank => okTile t && bank < 32
  | .scrubDeadline t bank => okTile t && bank < 32
  | .scrubBurst t bank => okTile t && bank < 32
  | .lingerExpiry t => okTile t
  | .echo ep => okEndpoint ep
  | .echoSend t src => okTile t && src < 4096
  | .rateRecovery ep => okEndpoint ep
  | .routeVolley px py inp vc => px < 32 && py < 68 && inp < 6 && vc < 3
  | .domainReady dom => okDomain dom
  | .spanVolley lk => okLink lk
  | .spanFrame lk f => okLink lk && f.wf
  | .spanAckTimeout lk => okLink lk
  | .spanLinkRetrain lk => okLink lk
  | .spanLinkUp lk lanes => okLink lk && lanes ≤ 12
  | .gather t => okTile t
  | .runSlot t => okTile t
  | .pot t => okTile t
  | .dep t => okTile t
  | .emitSlot t => okTile t
  | .quiet t => okTile t
  | .learnSlot t => okTile t
  | .slotMark t => okTile t
  | .epochNotice st => okStack st
  | .epochAck => true
  | .epochEnd => true
  | .drainDelta => true
  | .fenceNotice who => okEndpoint who
  | .pipAddMessage => true
  | .cfgWrite t => okTile t
  | .cfgRead t => okTile t
  | .cfgReply => true
  | .powerReqWake dom => okDomain dom
  | .powerReqIdle dom => okDomain dom
  | .powerReqState dom state => okDomain dom && state < 3
  | .linkHold lk => okLink lk
  | .linkHoldAck lk => okLink lk
  | .powerReqCap dom _ => okDomain dom
  | .rackBindingEvent y => y < 64
  | .outputEvent pt => okPort pt
  | .canSlotSend pt slot => okPort pt && slot < 16
  | .holdExpiry pt ch => okPort pt && ch < 64
  | .rampStep pt ch => okPort pt && ch < 64
  | .haltNAssert _ => true
  | .haltNRelease => true
  | .presenceChange pt _ => okPort pt
  | .enumerationComplete pt _ => okPort pt
  | .enumerationTimeout pt => okPort pt
  | .enumerationRetry pt => okPort pt
  | .protocolLoss pt => okPort pt
  | .i3cPoll pt entry _ => okPort pt && entry < 16
  | .ibi pt target _ => okPort pt && target < 16
  | .hotJoin pt => okPort pt
  | .csi2Packet pt vcn dt _ _ => okPort pt && vcn < 4 && dt < 64
  | .aerAddress pt _ => okPort pt
  | .canFrame pt _ _ fid data => okPort pt && fid < 2 ^ 29 && data.length ≤ 64
  | .bulkTransfer who _ _ _ _ _ => okIssuer who
  | .bulkComplete => true
  | .rdS agent win _ => agent < 17 && win < 64
  | .rdX agent win _ => agent < 17 && win < 64
  | .wb agent win _ _ => agent < 17 && win < 64
  | .evc agent win _ => agent < 17 && win < 64
  | .grantS agent => agent < 17
  | .grantX agent _ => agent < 17
  | .wbDone agent => agent < 17
  | .recall agent => agent < 17
  | .inv agent => agent < 17
  | .ack => true
  | .bisnp win _ kind _ => win < 64 && kind < 3
  | .poolWriteComplete win _ => win < 64
  | .leaseTick => true
  | .leaseCheck lease _ => lease < 2 ^ 32
  | .memberFailed member => member < 9
  | .rebuildWindow granted capacity => granted ≤ capacity
  | .lossItem => true
  | .drainEnd dom => okDomain dom
  | .updateWritten dom => okDomain dom
  | .resetComplete dom => okDomain dom
  | .stackLost st => okStack st
  | .recoveryComplete t => okTile t
  | .recoveryRetry t => okTile t
  | .stewardWatchdog => true
  | .stewardMemoryError => true
  | .stewardRestart => true
  | .amendCommit => true
  | .traceRecord => true
  | .lullEntry dom => okDomain dom
  | .holdEntry dom => okDomain dom
  | .capWindow _ => true
  | .thermalThrottle _ tj => tj < 128
  | .thermalClear tj => tj < 128
  | .thermalTrip _ tj => tj < 128
  | .doldrumsEntry => true
  | .doldrumsAuto => true
  | .wakeTimerExpiry => true
  | .perstRelease port => port < 2
  | .aonResetRelease => true
  | .porRelease _ => true
  | .stackLinkTimeout st => okStack st
  | .sourceWaitExpiry => true
  | .ready => true
  | .pwrGoodTimeout => true
  | .railRetry => true
  | .supplyFault => true
  | .resetN _ _ => true
  | .tokenBucketRefill ep _ => okEndpoint ep
  | .pwmPeriodStart pt ch => okPort pt && ch < 64
  | .illegalTransition pt => okPort pt
  | .msixVectorUnmask m vec => okMaster m && vec < 32
  | .spanHoldWake lk => okLink lk
  | .spanHoldRetrainTimeout lk => okLink lk
  | .poolReadComplete win _ _ => win < 64
  | .tracePortDrain _ => true
  | .tripCooldown => true
  | .alwaysOnSupplyLoss => true
  | .leaderParked lk leader => okLink lk && okWorld leader
  | .dirtyLineHoldExpiry => true

end Sys2Proof
end

