-- ==== Sys2Proof/Tests/Slice0.lean ====
section
/-! SUPPORT. Small tests of single steps, the range checks with an operand that each refuses, the gambit words written out from
their formats, and for each statement concrete states and operands that meet the hypotheses of its clauses. -/

namespace Sys2Proof.Tests

open Sys2Proof Sys2Proof.Machine

/-! ### Builders -/

/-- Every master has ADMIN on the targets. -/
def adm (l : List Target) : List (Target × BitVec 128) := l.map (fun t => (t, BitVec.allOnes 128))
/-- A READY package whose masters have ADMIN on the targets. -/
def ready (l : List Target) : State :=
  { boot := { st := 1, phase := 11, started := true }, aon := { phase := .running }, access := adm l }
/-- A rack of 4 entries that holds these messages. -/
def rackOf (ms : List (List DWord)) : Rack := { enabled := true, size := 4, next := BitVec.ofNat 32 ms.length, msgs := ms }
/-- A command of master 4 that the dispatcher took from rack 1 under number 7. -/
def cmd (op : Nat) (ws : List DWord) : ExecCmd := { rk := 1, seq := 7, src := 4, op := op, words := 0 :: ws, stage := 0 }
/-- The state with that command in execution, for LD 0 with command rack 1 and completion rack 2. -/
def withCmd (s : State) (c : ExecCmd) : State :=
  { s with hub := { s.hub with executing := [c], lds := [(0, { enabled := true, cmdRack := 1, cplRack := 2 })] }
           racks := { s.racks with racks := (2, { enabled := true, size := 4, reserved := 1 }) :: s.racks.racks } }
/-- World 33, with ADMIN of every master on it. -/
def w33 (x : World) : State := { ready [.world 33] with tmp := { worlds := [(33, x)] } }
/-- A volley of group 1 that the endpoint holds first. -/
def vol (b : VBody) : Volley :=
  { dst := ⟨0, 5, 5⟩, src := ⟨0, 1, 2⟩, physX := 5, physY := 5, group := 1, epoch := false, cls := 0, vc := 0, headwind := false,
    urgent := false, slot := 0, tempoBase := 0, phops := 0, okHeader := true, body := b }

/-! ### Racks and pips -/

/-- Rack 5 with these messages. -/
def r5 (ms : List (List DWord)) : State := { ready [.rack 5] with racks := { racks := [(5, rackOf ms)] } }

theorem wit_PushAppendsStampedMessage :
    ((r5 []).isReady = true ∧ (r5 []).has 4 (.rack 5) .use = true ∧ ((r5 []).rack 5).enabled = true
      ∧ (r5 []).isCmdRack 5 = false ∧ ((r5 []).rack 5).hubReserve < ((r5 []).rack 5).free)
    ∧ ((r5 [[1], [2], [3], [4]]).isReady = true ∧ (r5 [[1], [2], [3], [4]]).has 4 (.rack 5) .use = true
      ∧ ((r5 [[1], [2], [3], [4]]).rack 5).enabled = true ∧ (r5 [[1], [2], [3], [4]]).isCmdRack 5 = false
      ∧ ¬ ((r5 [[1], [2], [3], [4]]).rack 5).hubReserve < ((r5 [[1], [2], [3], [4]]).rack 5).free) := by decide

theorem wit_RackReadsTakeTheHead :
    ((r5 [[1]]).isReady = true ∧ ((r5 [[1]]).rack 5).enabled = true ∧ (r5 [[1]]).isCmdRack 5 = false
      ∧ ((r5 [[1]]).rack 5).bad = [] ∧ (r5 [[1]]).has 4 (.rack 5) .use = true ∧ (r5 [[1]]).has 4 (.rack 5) .read = true
      ∧ ((r5 [[1]]).rack 5).msgs = [1] :: [])
    ∧ ((r5 []).rack 5).msgs = []
    ∧ (((r5 [[1], [2]]).rack 5).next - BitVec.ofNat 32 ((r5 [[1], [2]]).rack 5).msgs.length = 0
      ∧ (1 - 0 : Word).toNat < ((r5 [[1], [2]]).rack 5).msgs.length ∧ ((r5 [[1], [2]]).rack 5).msgs.length ≤ (2 - 0 : Word).toNat) := by
  decide

/-- Set 2 of racks 5 and 6, the first empty. -/
def set2 : State :=
  { ready [.rack 5, .rack 6] with racks := { racks := [(5, rackOf []), (6, rackOf [[7]])], sets := [(2, { members := [5, 6] })] } }

theorem wit_SetServesThePolicyMember :
    set2.isReady = true ∧ (set2.rackSet 2).members.any set2.isCmdRack = false ∧ setServe set2 (set2.rackSet 2) = some (1, 6)
      ∧ (set2.rack 6).msgs = [7] :: [] ∧ set2.hasSet 4 2 .use = true ∧ set2.hasSet 4 2 .read = true := by decide

theorem wit_SetServesThePolicyMember_bad (j : Nat) : (set2.rack j).bad = [] := by
  simp only [State.rack, set2, tget]
  split_ifs <;> rfl

/-- Pip 3 selected by master 4, which has ADMIN on its block and on rack 5. -/
def p3 (p : Pip) (ws : List Waiter) : State :=
  { ready [.pipBlock 0, .rack 5] with
    hub := { masters := [(4, { pipSel := 3, waitRack := 5, waitTag := 9, waitCond := 0 })] }
    pips := { pips := [(3, p)], waiters := ws }
    racks := { racks := [(5, rackOf [])] } }

theorem wit_PipWritesByMode :
    ((p3 {} []).isReady = true ∧ 2 ≤ ((p3 {} []).pipRight 4 ((p3 {} []).master 4).pipSel).rank ∧ ((p3 {} []).pip 3).mode = 0)
    ∧ (((p3 { mode := 1, target := 5 } []).pip 3).mode = 1 ∧ 1 ≤ (1 : Word).toInt ∧ (0 : Word).toInt < 1)
    ∧ 2 ≤ ((p3 { mode := 2 } []).pip 3).mode
    ∧ (0 ≤ (7 : Word).toInt ∧ (7 : Word).toInt ≤ ((p3 { count := 7 } []).pip 3).count.toInt)
    ∧ ((0xFFFFFFFF : Word).toInt < 0 ∧ ((p3 { count := 7 } []).pip 3).count.toInt < (8 : Word).toInt) := by decide

theorem wit_PipConfigurationIsChecked :
    ((p3 {} []).isReady = true ∧ ((p3 {} []).pipRight 4 ((p3 {} []).master 4).pipSel).rank = 3
      ∧ ({ ((p3 {} []).pip 3) with target := 0 } : Pip).valid = true)
    ∧ (((p3 { mode := 1, target := 5 } []).pip 3).mode = 1 ∧ (0 : Word) = 0)
    ∧ (pipModeFields 2 ((p3 {} []).pip 3)).valid = true ∧ 3 < fb (4 : Word).toNat 2 0
    ∧ (pipModeFields ((2 : Word) ||| 0x200) ((p3 { ovf := true } []).pip 3)).valid = true := by decide

/-- The waiter of master 4 on pip 3 with condition EQ v. -/
def w3 (v : Word) : Waiter := { pip := 3, master := 4, cond := 0, value := v, rack := 5, tag := 9 }

theorem wit_PipWaitersHoldARackEntry :
    ((p3 {} []).isReady = true ∧ 2 ≤ ((p3 {} []).pipRight 4 ((p3 {} []).master 4).pipSel).rank
      ∧ waitCode (p3 {} []) 4 3 0 = .done ∧ (w3 1).holds ((p3 {} []).pip 3) = false ∧ (w3 0).holds ((p3 {} []).pip 3) = true
      ∧ (∀ z ∈ (p3 {} []).pips.waiters, (z.pip = 3 && z.holds ((p3 {} []).pip 3)) = false))
    ∧ waitCode (p3 {} [w3 1]) 4 3 0 ≠ .done
    ∧ (((p3 { mode := 1, target := 5 } []).pip 3).mode = 1 ∧ 1 ≤ (4 : Word).toInt
      ∧ ((p3 { mode := 1, target := 5 } []).pip 3).count.toNat + (4 : Word).toNat < ((p3 { mode := 1, target := 5 } []).pip 3).target.toNat
      ∧ (p3 { mode := 1, target := 5 } []).pips.waiters = [] ∧ waitCode (p3 { mode := 1, target := 5 } []) 4 3 4 = .done)
    ∧ ((p3 {} [w3 1]).pips.waiters = [w3 1] ∧ (w3 1).pip = 3 ∧ (w3 1).master = 4 ∧ (w3 1).tag = fb (9 : Word).toNat 15 0)
    ∧ (p3 {} []).pips.waiters.any (fun w => w.pip = 3 && w.master = 4 && w.tag = fb (9 : Word).toNat 15 0) = false := by decide

/-! ### Commands, worlds, turns -/

/-- Command rack 1 of LD 0 holds a message; completion rack 2 has a free entry. -/
def cmdRack1 (m : List DWord) : State :=
  { ready [] with
    hub := { lds := [(0, { enabled := true, cmdRack := 1, cplRack := 2 })] }
    racks := { racks := [(1, rackOf [m]), (2, rackOf [])] } }

theorem wit_DispatchTakesTheHeadCommand :
    ((cmdRack1 [0x3F00]).isReady = true ∧ (cmdRack1 [0x3F00]).pwr.dispatchOff = false ∧ (cmdRack1 [0x3F00]).ldOfRack 1 = some 0
      ∧ ((cmdRack1 [0x3F00]).rack 1).bad = [] ∧ ((cmdRack1 [0x3F00]).rack 1).msgs = [0x3F00] :: []
      ∧ ((cmdRack1 [0x3F00]).ld 0).cplRack ≠ 1 ∧ 0 < ((cmdRack1 [0x3F00]).rack ((cmdRack1 [0x3F00]).ld 0).cplRack).free
      ∧ tget 0 1 (cmdRack1 [0x3F00]).hub.failedHeads = 0 ∧ badCmd [0x3F00] = false)
    ∧ (badCmd [0x7F00] = true ∧ (cmdRack1 [0x7F00]).flt.stwReset = false) := by decide

theorem wit_SyncAndNopComplete :
    Begins (withCmd (ready []) (cmd 0x3E [])) 1 7 0x3E (cmd 0x3E []) ∧ Begins (withCmd (ready []) (cmd 0x3F [])) 1 7 0x3F (cmd 0x3F []) := by
  unfold Begins; decide

/-- START of world 33 with anchor 0. -/
def startCmd : ExecCmd := cmd 0x03 [33]

theorem wit_StartRunsTheWorldFromItsAnchor :
    (Begins (withCmd (w33 { st := .standby }) startCmd) 1 7 0x03 startCmd
      ∧ (withCmd (w33 { st := .standby }) startCmd).startCode 4 33 0 = .done)
    ∧ Begins (withCmd (w33 { st := .running }) startCmd) 1 7 0x03 startCmd
      ∧ (withCmd (w33 { st := .running }) startCmd).startCode 4 33 0 ≠ .done := by unfold Begins; decide

/-- UNPARK of world 33: JUMP to turn 1, or none. -/
def jumpCmd : ExecCmd := cmd 0x05 [33 + 2 ^ 13 + 2 ^ 16, 0]
def goCmd : ExecCmd := cmd 0x05 [33, 0]

theorem wit_ParkHoldsTempoAndUnparkResumes :
    (Begins (withCmd (w33 { st := .running }) (cmd 0x04 [33])) 1 7 0x04 (cmd 0x04 [33]) ∧ 33 < (w33 { st := .running }).worldLimit
      ∧ (withCmd (w33 { st := .running }) (cmd 0x04 [33])).has 4 (.world 33) .admin = true
      ∧ ((withCmd (w33 { st := .running }) (cmd 0x04 [33])).world 33).st = .running
      ∧ ((withCmd (w33 { st := .parked }) (cmd 0x04 [33])).world 33).st = .parked)
    ∧ (Begins (withCmd (w33 { st := .parked }) jumpCmd) 1 7 0x05 jumpCmd
      ∧ (withCmd (w33 { st := .parked }) jumpCmd).unparkCode 4 (jumpCmd.words.getD 1 0) (jumpCmd.words.getD 2 0) = .done
      ∧ wf (jumpCmd.words.getD 1 0) 13 13 = 1 ∧ wf (jumpCmd.words.getD 1 0) 15 15 = 0)
    ∧ (Begins (withCmd (w33 { st := .parked, srcKind := 1 }) goCmd) 1 7 0x05 goCmd
      ∧ (withCmd (w33 { st := .parked, srcKind := 1 }) goCmd).unparkCode 4 (goCmd.words.getD 1 0) (goCmd.words.getD 2 0) = .done
      ∧ wf (goCmd.words.getD 1 0) 13 13 = 0 ∧ wf (goCmd.words.getD 1 0) 15 15 = 0
      ∧ ((withCmd (w33 { st := .parked, srcKind := 1 }) goCmd).world 33).srcKind = 1) := by unfold Begins; decide

/-- World 33 retiring with the command (1, 7) of stage 1. -/
def retiring33 : State := withCmd (w33 { st := .retiring, retireCmd := some (1, 7) }) { cmd 0x06 [33] with stage := 1 }

theorem wit_RetireEndsInAFreeSlot :
    (Begins (withCmd (w33 { st := .parked }) (cmd 0x06 [33])) 1 7 0x06 (cmd 0x06 [33]) ∧ wf ((cmd 0x06 [33]).words.getD 1 0) 12 0 = 33
      ∧ 33 < (withCmd (w33 { st := .parked }) (cmd 0x06 [33])).worldLimit
      ∧ (withCmd (w33 { st := .parked }) (cmd 0x06 [33])).has 4 (.world 33) .admin = true
      ∧ ((withCmd (w33 { st := .parked }) (cmd 0x06 [33])).world 33).st ≠ .free
      ∧ ((withCmd (w33 { st := .parked }) (cmd 0x06 [33])).world 33).st ≠ .retiring)
    ∧ ((retiring33.world 33).st = .retiring ∧ retiring33.unsettled 33 (2 ^ 41) = false
      ∧ retiring33.tiles.any (fun e => e.2.run.any (fun r => r.w = 33)) = false ∧ (retiring33.world 33).retireCmd = some (1, 7)
      ∧ retiring33.findExec 1 7 = some { cmd 0x06 [33] with stage := 1 } ∧ retiring33.boot.amending = none) := by
  unfold Begins; decide

/-- World 33 running from LD 0 with turns of 4 tu and a lag limit of one turn. -/
def host33 (c : ExecCmd) : State :=
  withCmd (w33 { st := .running, srcKind := 1, srcIndex := 0, turnLenM1 := 3, lagLimit := 1 }) c
/-- ADVANCE and GROUP_ADVANCE of world 33 by n. -/
def advCmd (n : Nat) : ExecCmd := cmd 0x01 [BitVec.ofNat 64 (33 + n * 2 ^ 16)]
def gadvCmd (n : Nat) : ExecCmd := cmd 0x02 [BitVec.ofNat 64 (1 + n * 2 ^ 16), 2]

theorem wit_AdvanceMovesSourceTempo :
    (33 < (host33 (advCmd 8)).worldLimit ∧ (host33 (advCmd 8)).has 4 (.world 33) .use = true ∧ ((host33 (advCmd 8)).world 33).srcKind = 1
      ∧ isHost 4 = true ∧ ((host33 (advCmd 8)).world 33).srcIndex = ldOf 4 ∧ ((host33 (advCmd 8)).world 33).st = .running
      ∧ ((host33 (advCmd 8)).world 33).s + 8 ≤ maxTempo ∧ 33 ∉ (host33 (advCmd 8)).followers 33
      ∧ (((host33 (advCmd 8)).world 33).s + 8) - (host33 (advCmd 8)).reach 33 (((host33 (advCmd 8)).world 33).s + 8)
          ≤ ((host33 (advCmd 8)).world 33).limit
      ∧ Begins (host33 (advCmd 8)) 1 7 0x01 (advCmd 8) ∧ (advCmd 8).src = 4 ∧ wf ((advCmd 8).words.getD 1 0) 12 0 = 33
      ∧ wf ((advCmd 8).words.getD 1 0) 39 16 = 8)
    ∧ (Begins (host33 (gadvCmd 8)) 1 7 0x02 (gadvCmd 8) ∧ (gadvCmd 8).targets = [(1, 33)] ∧ wf ((gadvCmd 8).words.getD 1 0) 39 16 = 8)
    ∧ ((host33 (advCmd 8)).isReady = true ∧ fb (BitVec.ofNat 32 (33 * 2 ^ 19 + 8)).toNat 31 19 = 33
      ∧ fb (BitVec.ofNat 32 (33 * 2 ^ 19 + 8)).toNat 18 0 = 8)
    ∧ (((host33 (advCmd 9)).world 33).limit
        < (((host33 (advCmd 9)).world 33).s + 9) - (host33 (advCmd 9)).reach 33 (((host33 (advCmd 9)).world 33).s + 9)
      ∧ Begins (host33 (advCmd 9)) 1 7 0x01 (advCmd 9) ∧ (host33 (advCmd 9)).tmp.advErrValid = false) := by
  unfold Begins; decide

theorem wit_TurnOpenClearsItsSlot :
    ((w33 { st := .running }).canOpen 33 ((w33 { st := .running }).world 33).t = true
      ∧ ((w33 { st := .running }).world 33).notBefore ≤ (w33 { st := .running }).aon.wall
      ∧ ((w33 { st := .running }).world 33).notBefore = 0 ∧ (w33 { st := .running }).capDelay 33 = 0)
    ∧ (w33 { st := .parked }).canOpen 33 ((w33 { st := .parked }).world 33).t = false := by decide

theorem wit_TurnCloseWritesTheSnapshot :
    ((w33 { st := .running, opened := 1, t := 1 }).canClose 33 = true ∧ ((w33 { st := .running, opened := 1, t := 1 }).world 33).skips 0 = false)
    ∧ (w33 { st := .running, opened := 1, t := 1, jumpTo := 2 }).canClose 33 = true
      ∧ ((w33 { st := .running, opened := 1, t := 1, jumpTo := 2 }).world 33).skips 0 = true := by decide

/-- Tile (1, 2)'s turn report for turn 0 of world 33 waits at the tempo unit. -/
def report33 : State :=
  { w33 { st := .running, opened := 1 } with fab := { inbox := [(tempoEp, [vol (.turnReport 1 true false false 0 3 0)])] } }

theorem wit_TurnReportAddsTheTilesCounts :
    tget [] tempoEp report33.fab.inbox = vol (.turnReport 1 true false false 0 3 0) :: []
      ∧ (vol (.turnReport 1 true false false 0 3 0)).group * 32 + 1 = 33 ∧ (report33.world 33).closed ≤ 0 ∧ 0 < (report33.world 33).opened
      ∧ (report33.world 33).st = .running ∧ (tget {} 0 (report33.world 33).turns).reports.contains (epKey 1 2) = false := by decide

/-- World 33 follows world 5 of the peer on link 2, by 3/2. -/
def peer33 (st : WState) : State := w33 { st := st, srcKind := 4, srcIndex := 5, peerLink := 2, scaleMul := 3, scaleDiv := 2 }
/-- A sweep acknowledgement of tile 66 waits at the tempo unit. -/
def swept33 : State :=
  { w33 { st := .running, sweeps := [(8, [66])] } with fab := { inbox := [(tempoEp, [vol (.control false (.sweepAck 66 33 8))])] } }

theorem wit_TethersPeersAndSweeps :
    (((w33 { st := .running }).world 33).st = .running
      ∧ ((w33 { st := .running }).world 33).lastAdv + 1000 * ((w33 { st := .running }).world 33).tetherMs ≤ (w33 { st := .running }).aon.wall)
    ∧ ((ready []).tmp.subs.length < 64 ∧ (ready []).tmp.subs.contains (2, 5, 33) = false)
    ∧ ({ ready [] with tmp := { subs := List.replicate 64 (0, 0, 0) } } : State).tmp.subs.length = 64
    ∧ ((peer33 .parked).peerFollowers 2 5 = [33] ∧ ((peer33 .parked).world 33).st = .parked)
    ∧ ((peer33 .running).peerFollowers 2 5 = [33] ∧ ((peer33 .running).world 33).st = .running
      ∧ ((peer33 .running).world 33).s + (((peer33 .running).world 33).rem + 1 * ((peer33 .running).world 33).scaleMul)
          / ((peer33 .running).world 33).scaleDiv ≤ maxTempo)
    ∧ tget [] tempoEp swept33.fab.inbox = vol (.control false (.sweepAck 66 33 8)) :: [] := by decide

/-- An INJECT of one event of world 33, on channel 9 with value 4, 2 tu ahead; channel 9 has a Lockstep entry or none. -/
def injCmd : ExecCmd := cmd 0x07 [33, BitVec.ofNat 64 (9 + 4 * 2 ^ 12 + 2 * 2 ^ 20)]
def inj33 (st : WState) (l : Tab DWord) : State :=
  let s := withCmd (w33 { st := st }) injCmd
  { s with hub := { s.hub with injection := l, classLockstep := 1 } }

theorem wit_InjectIsTakenWholeOrRefused :
    (Begins (inj33 .running [(9, 0)]) 1 7 0x07 injCmd ∧ 3 ≤ injCmd.words.length ∧ wf (injCmd.words.getD 1 0) 14 13 = 0
      ∧ 33 < (inj33 .running [(9, 0)]).worldLimit ∧ (inj33 .running [(9, 0)]).has 4 (.world 33) .use = true
      ∧ ((inj33 .running [(9, 0)]).world 33).st = .running ∧ tfind (injectEvent injCmd 0).1 (inj33 .running [(9, 0)]).hub.injection = some 0
      ∧ (inj33 .running [(9, 0)]).lockstep (destClass 0) = true
      ∧ ((inj33 .running [(9, 0)]).world 33).hubEmit ≤ ((inj33 .running [(9, 0)]).world 33).t + (injectEvent injCmd 0).2.2)
    ∧ ((inj33 .standby []).world 33).st = .standby ∧ ((inj33 .parked []).world 33).st = .parked
    ∧ tfind (injectEvent injCmd 0).1 (inj33 .running []).hub.injection = none := by unfold Begins; decide

/-! ### The gambit engine -/

/-- A run of neuron 3 of world 33 at address 0. -/
def run1 : Run :=
  { w := 33, neuron := 3, slot := 0, now := 8, reflex := false, g := List.replicate 8 5, n := false, z := false, i := false, pc := 0,
    steps := 0, hc := 0, buf := 0, keepStamp := false, emit := none, wake := none, lfsr := none }
/-- Tile 66's engine is about to execute the instruction in run r, under a step limit of 5. -/
def gb (i : Instr) (r : Run) : State :=
  { ready [] with
    tiles := [(66, { run := some r, store := [(0, (encodeGambit i).getD 0)], models := [(0, [BitVec.ofNat 64 (5 * 2 ^ 22)])] })] }

theorem wit_GambitMovesWriteOneRegister :
    ∀ i ∈ [Instr.gNop 66, .gMov 66 1 2, .gMovi 66 1 (-1), .gMovhi 66 1 7, .gLdp 66 1 15, .gLdf 66 1 0 31 true], Fetched (gb i run1) 66 i run1 := by
  unfold Fetched; decide

theorem wit_GambitSumsWrapOrSaturate :
    ∀ i ∈ [Instr.gAdd 66 1 2 3, .gSub 66 1 2 3, .gAddi 66 1 2 (-1), .gAdds 66 1 2 3, .gSubs 66 1 2 3, .gAddsi 66 7 2 65535],
      Fetched (gb i run1) 66 i run1 := by
  unfold Fetched; decide

theorem wit_GambitLogicAndShifts :
    ∀ i ∈ [Instr.gMin 66 1 2 3, .gMax 66 1 2 3, .gAnd 66 1 2 3, .gOr 66 1 2 3, .gXor 66 1 2 3, .gShli 66 1 2 31, .gShri 66 1 2 0,
      .gShrli 66 0 0 31], Fetched (gb i run1) 66 i run1 := by
  unfold Fetched; decide

theorem wit_GambitProductsLeakAndDraws :
    (∀ i ∈ [Instr.gDecz 66 1 2 3, .gMulq 66 1 2 3 31, .gMulqi 66 1 2 (-1) 0, .gLeak 66 1 2 3 7], Fetched (gb i run1) 66 i run1)
    ∧ (Fetched (gb (.gRand 66 1 31) { run1 with lfsr := some 9 }) 66 (.gRand 66 1 31) { run1 with lfsr := some 9 })
    ∧ Fetched (gb (.gRand 66 1 31) run1) 66 (.gRand 66 1 31) run1 ∧ run1.lfsr = none := by
  unfold Fetched; decide

theorem wit_GambitComparesBranchesAndStores :
    (∀ i ∈ [Instr.gCmp 66 1 2, .gCmpi 66 1 (-1), .gStf 66 1 0 31 true], Fetched (gb i run1) 66 i run1)
    ∧ (Fetched (gb (.gB 66 0 511) run1) 66 (.gB 66 0 511) run1 ∧ condHolds 0 run1.n run1.z run1.i = true)
    ∧ Fetched (gb (.gB 66 7 511) run1) 66 (.gB 66 7 511) run1 ∧ condHolds 7 run1.n run1.z run1.i = false := by
  unfold Fetched; decide

theorem wit_GambitRunsRequestAndEnd :
    Fetched (gb (.gWake 66 1 true 0) run1) 66 (.gWake 66 1 true 0) run1
    ∧ (Fetched (gb (.gEmit 66 0 1 true false false) run1) 66 (.gEmit 66 0 1 true false false) run1 ∧ run1.emit = none
      ∧ condHolds 0 run1.n run1.z run1.i = true)
    ∧ (Fetched (gb (.gEmit 66 0 1 true false false) { run1 with emit := some (1, false) }) 66 (.gEmit 66 0 1 true false false)
        { run1 with emit := some (1, false) } ∧ ({ run1 with emit := some (1, false) } : Run).emit ≠ none)
    ∧ (Fetched (gb (.gEmit 66 7 1 true false false) run1) 66 (.gEmit 66 7 1 true false false) run1 ∧ condHolds 7 run1.n run1.z run1.i = false)
    ∧ (((gb (.gEnd 66) run1).tile 66).due = [] ∧ ((gb (.gEnd 66) run1).tile 66).upd = [] ∧ run1.wake = none
      ∧ Fetched (gb (.gEnd 66) run1) 66 (.gEnd 66) run1)
    ∧ Fetched (gb (.gEmit 66 7 1 true false true) run1) 66 (.gEmit 66 7 1 true false true) run1
    ∧ ((gb (.gNop 66) { run1 with steps := 5 }).tile 66).run = some { run1 with steps := 5 }
      ∧ ((gb (.gNop 66) { run1 with steps := 5 }).tile 66).stepLimit { run1 with steps := 5 } ≤ ({ run1 with steps := 5 } : Run).steps := by
  unfold Fetched; decide

/-! ### Registers and links -/

/-- Master 4's access to tile 66 is outstanding, and the reply waits at the hub. -/
def cfgBack (sz : Nat) (c : Code) (out : List (Nat × Nat × Nat × Nat)) : State :=
  { ready [] with flt := { hostReqs := out }, fab := { inbox := [(epKey 32 0, [vol (.control true (.cfgReply 66 0x14 sz 9 c 4))])] } }
/-- The tiles and masters of a READY package in which master 4 has ADMIN on the target. -/
def cfgTo (b : Ctl) : State := { ready [] with fab := { mail := [{ dst := 66, body := .ctl b }] } }

/-- World 5, running, and pip 7 belong to master m. -/
def ownedBy (m : Nat) : State :=
  { ready [] with tmp := { worlds := [(5, { st := .running, owner := m })] }, pips := { pips := [(7, { owner := m })] } }

theorem wit_RegisterReadsReturnLatchOrRefuse :
    (0x3C ≤ 0x3F ∧ 3 ≤ 4 ∧ 4 < 0x3C ∧ 5 < (ownedBy 4).worldLimit ∧ ((ownedBy 4).world 5).st ≠ .free ∧ ((ownedBy 4).world 5).owner = 4
      ∧ (tfind 7 (ownedBy 4).pips.pips).isSome = true ∧ ((ownedBy 4).pip 7).owner = 4)
    ∧ ((ready [.tempoBlock]).isReady = true ∧ (ready [.tempoBlock]).cmdRegion 4 0x800008 = false ∧ ownRead 0x800008 4 = false
      ∧ (∀ t, barBlock 0x800008 ≠ .tile t) ∧ (ready [.tempoBlock]).readRefusal 4 0x800008 4 = none ∧ loReg 0x800008 = true)
    ∧ ((ready []).readRefusal 4 0x800008 4 = some .failedAccess ∧ State.reset.readRefusal 4 0x800008 8 = some .notReady)
    ∧ (64 % 64 = 0 ∧ 2 ^ 27 - 64 + 64 ≤ 2 ^ 27 ∧ (ready [.world 33]).has 4 (.world (0x84000 / 0x4000)) .read = true
      ∧ (ready []).has 4 (.world (0x84000 / 0x4000)) .read = false)
    ∧ (hiReg 0x80000C = true
      ∧ ({ ready [.tempoBlock] with hub := { masters := [(4, { loLatch := [(0x800008, 7)] })] } } : State).readRefusal 4 0x80000C 4 = none
      ∧ tfind (0x80000C - 4) (({ ready [.tempoBlock] with hub := { masters := [(4, { loLatch := [(0x800008, 7)] })] } } : State).master 4).loLatch
          = some 7)
    ∧ hiReg 0x80000C = true ∧ (ready []).readRefusal 4 0x80000C 4 = some .failedAccess := by
  refine ⟨by decide, ⟨by decide, by decide, by decide, fun t h => ?_, by decide, by decide⟩, by decide, by decide, by decide, by decide⟩
  exact absurd h (by simp [barBlock])

theorem wit_RegisterWritesByFieldType :
    (∀ off ∈ [0x300000, 0x3030, 0x200, 0x700100, 0x000], (ready [.hubBlock, .powerBlock]).isReady = true ∧ ownWrite off = false
      ∧ (ready [.hubBlock, .powerBlock]).barCheck 4 off 4 false (if adminWrite off then .admin else .use) = none)
    ∧ (ownWrite 0x700100 = false ∧ (ready []).writeRefusal 4 0x700100 4 = some .failedAccess)
    ∧ ((ready [.hubBlock]).has 4 .hubBlock .admin = true
      ∧ ((0 : Word) - (ready [.hubBlock]).flt.tail).toNat ≤ ((ready [.hubBlock]).flt.head - (ready [.hubBlock]).flt.tail).toNat)
    ∧ ((ready [.hubBlock]).flt.head - (ready [.hubBlock]).flt.tail).toNat < ((1 : Word) - (ready [.hubBlock]).flt.tail).toNat
    ∧ (255 < 256 ∧ (ready [.tempoBlock]).has 4 .tempoBlock .admin = true)
    ∧ (66 < 2048 ∧ (ready [.tile 66]).has 4 (.tile 66) .admin = true ∧ (ready [.tile 66]).tilePresent 66 = true
      ∧ (ready [.tile 66]).tileActive 66 = true ∧ (1 : Word).getLsbD 0 = true)
    ∧ (31 < 32 ∧ isHost 4 = true ∧ (({ ready [] with hub := { lds := [(ldOf 4, { pba := 2 ^ 31 })] } } : State).ld (ldOf 4)).pba.getLsbD 31 = true) := by
  decide

theorem wit_TileRegistersGoByMessage :
    (66 < 2048 ∧ 0x14 < 0x4000 ∧ hiReg (tileOff 66 0x14) = false ∧ (ready [.tile 66]).readRefusal 4 (tileOff 66 0x14) 4 = none)
    ∧ ((cfgTo (.cfgWrite 66 0x14 5 4)).fab.mail = { dst := 66, body := .ctl (.cfgWrite 66 0x14 5 4) } :: []
      ∧ (cfgTo (.cfgWrite 66 0x14 5 4)).tileActive 66 = true)
    ∧ ((cfgTo (.cfgRead 66 0x14 4 4)).fab.mail = { dst := 66, body := .ctl (.cfgRead 66 0x14 4 4) } :: []
      ∧ (cfgTo (.cfgRead 66 0x14 4 4)).tileActive 66 = true)
    ∧ (∀ c ∈ [Code.done, .failedFenced], ∀ sz ∈ [0, 8],
        tget [] (epKey 32 0) (cfgBack sz c [(4, 66, 0x14, sz)]).fab.inbox = vol (.control true (.cfgReply 66 0x14 sz 9 c 4)) :: []
        ∧ (cfgBack sz c [(4, 66, 0x14, sz)]).flt.hostReqs.any (fun e => e.1 = 4 && e.2.1 = 66) = true
        ∧ (cfgBack sz c []).flt.hostReqs.any (fun e => e.1 = 4 && e.2.1 = 66) = false) := by decide

/-- Link 0 in a state. -/
def linkSt (n : Nat) : State := { ready [] with hub := { links := [(0, { state := n })] } }

theorem wit_CxlRequestsAreAnswered :
    ((linkSt 2).link 0).state = 2 ∧ ((withCmd (ready []) startCmd).ld 0).enabled = true ∧ 2 ≤ ((linkSt 3).link 0).state := by decide

theorem wit_LinksComeUpAndDrop :
    ((ready []).aon.phase = .running ∧ (ready []).mayTrain 0 8 false false = true) ∧ ((linkSt 2).link 0).state ≠ 0
    ∧ ((withCmd (ready []) startCmd).ld 0).enabled = true ∧ (cmdRack1 []).sourced 1 0 = [] ∧ (cmdRack1 []).hub.executing = []
    ∧ ((rackOf []).msgs = []) ∧ ((({ cmdRack1 [] with racks := {} } : State).rack ((cmdRack1 []).ld 0).cmdRack).msgs = []) := by decide

theorem wit_HostLinesReadAndWriteMemory :
    (ready [.tile 0]).hdmCode 4 (64 * 0) false = none ∧ (ready []).hdmCode 4 (64 * 0) false = some .failedAccess
    ∧ ((ready [.tile 0]).hdmCode 4 (64 * 0) true = none ∧ (ready [.tile 0]).mem.wf = true)
    ∧ (ready []).hdmCode 4 (64 * 0) true = some .failedAccess := by decide

/-! ### Power -/

/-- A READY package whose every class may reach Hold, with idle times of 0. -/
def deep : State := { ready [.powerBlock] with pwr := { cfg := { (ready []).pwr.cfg with depth := 0xAAAAA } } }
def deepSpan : State := { deep with pkg := .rj2048, fab := { spans := [(0, { state := 2 })] } }
/-- A domain in Hold. -/
def held (d : Nat) : State := { deep with pwr := { deep.pwr with doms := [(d, { state := 2 })], level := 1 } }

theorem wit_DomainsSleepAndWake :
    (deep.mayEnter 3 1 = true ∧ deep.mayEnter 3 2 = true ∧ deep.domClass 3 ≠ some 7 ∧ deep.domClass 3 ≠ some 8)
    ∧ (deepSpan.mayEnter 0x010 2 = true ∧ deepSpan.domClass 0x010 = some 8)
    ∧ ((({ deep with pwr := { deep.pwr with doms := [(3, { state := 2, waking := some (2, 7) })] } } : State).dom 3).waking.isSome = true)
    ∧ (((held 3).dom 3).state ≠ 0 ∧ ((held 3).dom 3).waking = none) ∧ (deep.domClass 3).isSome = true
    ∧ (deep.domClass (0x800 + 66) = some 0 ∧ 0 ≤ 2 ∧ 2 < 3) ∧ (held 3).pwr.level ≠ 0 := by decide

/-- A POWER_SET of op 0, 1 or 2. -/
def psCmd (w : DWord) : ExecCmd := cmd 0x28 [w]
def psIn (w : DWord) : State := withCmd (ready [.powerBlock]) (psCmd w)

theorem wit_PowerIsCappedAndSensed :
    (Begins (psIn 0) 1 7 0x28 (psCmd 0) ∧ (psIn 0).has (psCmd 0).src .powerBlock .admin = true ∧ wf ((psCmd 0).words.getD 1 0) 1 0 = 0)
    ∧ (Begins (psIn 0x0A1) 1 7 0x28 (psCmd 0x0A1) ∧ wf ((psCmd 0x0A1).words.getD 1 0) 1 0 = 1 ∧ 9 < wf ((psCmd 0x0A1).words.getD 1 0) 7 4)
    ∧ (Begins (psIn 0x291) 1 7 0x28 (psCmd 0x291) ∧ wf ((psCmd 0x291).words.getD 1 0) 7 4 ≤ 9 ∧ wf ((psCmd 0x291).words.getD 1 0) 9 8 ≠ 3)
    ∧ (Begins (psIn 2) 1 7 0x28 (psCmd 2) ∧ wf ((psCmd 2).words.getD 1 0) 1 0 = 2 ∧ (psIn 2).quietWorlds = true
      ∧ (psIn 2).cmdRacksEmpty = true ∧ (psIn 2).hub.executing = [psCmd 2])
    ∧ (Begins { psIn 2 with tmp := { worlds := [(33, { st := .running })] } } 1 7 0x28 (psCmd 2)
      ∧ ({ psIn 2 with tmp := { worlds := [(33, { st := .running })] } } : State).quietWorlds = false)
    ∧ ((ready []).isReady = true ∧ (ready []).aon.phase = .running ∧ (ready []).flt.stwReset = false ∧ (ready []).aon.therm = false)
    ∧ (({ ready [] with aon := { phase := .running, therm := true } } : State).aon.therm = true)
    ∧ ({ ready [] with aon := { phase := .doldrums, tripped := true, latched := some (4, 1) } } : State).aon.latched = some (4, 1) := by
  unfold Begins; decide

/-- Doldrums, with the wake timer and every source enabled. -/
def asleep : State := { ready [] with aon := { phase := .doldrums, wakeTimer := 5, wakeEn := BitVec.allOnes 23 } }

theorem wit_SuppliesComeAndGo :
    (({ ready [] with pwr := { doldPending := true } } : State).pwr.doldPending = true ∧ (ready []).aon.latched = none)
    ∧ (({ deep with pwr := { deep.pwr with cfg := { deep.pwr.cfg with autoMs := 1 } } } : State).pwr.cfg.autoMs ≠ 0
      ∧ deep.quietWorlds = true ∧ deep.cmdRacksEmpty = true ∧ deep.trc.st = 0
      ∧ deep.hub.links.all (fun e => decide (e.2.state < 2)) = true ∧ deep.pool.stripe ≠ 2)
    ∧ (asleep.aon.phase = .doldrums ∧ asleep.aon.tripped = false ∧ asleep.aon.tetherAt = none ∧ asleep.aon.wakeTimer ≠ 0
      ∧ asleep.aon.wakeEn.getLsbD 20 = true ∧ 0 < asleep.pkg.cxlPorts ∧ asleep.aon.wakeEn.getLsbD (21 + 0) = true)
    ∧ State.reset.aon.phase = .aonReset
    ∧ (({ State.reset with aon := { phase := .porAsserted, railEn := true } } : State).aon.railEn = true
      ∧ ({ State.reset with aon := { phase := .porAsserted, railEn := true } } : State).aon.pwrGood = false)
    ∧ ({ State.reset with aon := { phase := .railsDown } } : State).aon.phase = .railsDown
    ∧ 10 ≤ 10 := by decide

/-! ### Stream ports and pins -/

/-- Port 2 in a READY package. -/
def p2 (p : Port) : State := { ready [.port 2] with ports := [(2, p)] }
/-- The configuration of a mode. -/
def pcfg (mode protocol : Nat) : PortCfg :=
  { mode := mode, presIgnore := false, armAtReady := false, inCount := 1, outCount := 1, statusRack := 0, protocol := BitVec.ofNat 64 protocol,
    chans := [], lost := [], polls := [], targets := [], filters := [], outs := [(33, 9)], slots := [] }
/-- Port 2 with one output channel of world 33 in this state. -/
def outP (o : OutCh) (d : OutDesc) : Port := { st := .attached, cfg := { pcfg 0 0 with outs := [d] }, outs := [(0, o)] }
/-- A volley of world 33 with value 200 for channel 0 at port 2. -/
def outVol (d : OutDesc) (o : OutCh) : State :=
  { p2 (outP o d) with fab := { inbox := [(portEp 2, [vol (.events [BitVec.ofNat 32 (200 * 2 ^ 18 + 1 * 2 ^ 13)])])] } }
/-- PORT_REARM of channel 0 of port 2. -/
def rearm : ExecCmd := cmd 0x18 [2]
def rearm33 (st : WState) (l : PortState) : State :=
  { withCmd (p2 { outP {} (33, 9) with st := l }) rearm with tmp := { worlds := [(33, { st := st })] } }

theorem wit_OutputsTakeEventsAndReachSafe :
    (tget [] (portEp 2) (outVol (33, 9) { ostate := .armed }).fab.inbox
        = vol (.events [BitVec.ofNat 32 (200 * 2 ^ 18 + 1 * 2 ^ 13)]) :: []
      ∧ ((outVol (33, 9) { ostate := .armed }).port 2).st ≠ .fenced ∧ (outVol (33, 9) {}).domActive (portDom 2) = true
      ∧ ((outVol (33, 9) { ostate := .armed }).port 2).desc 0 = some (33, 9) ∧ outWorld (33, 9) = 1 * 32 + 1
      ∧ (((outVol (33, 9) { ostate := .armed }).port 2).out 0).ostate = .armed ∧ outKind (33, 9) = 0
      ∧ outKind (33 + 2 ^ 13, 9) = 1 ∧ outSync (33 + 2 ^ 13, 9) = false ∧ outKind (33 + 5 * 2 ^ 13, 9) = 1
      ∧ outSync (33 + 5 * 2 ^ 13, 9) = true ∧ (((outVol (33, 9) {}).port 2).out 0).ostate ≠ .armed
      ∧ ((p2 { st := .attached }).port 2).desc 0 = none)
    ∧ (((p2 { cfg := pcfg 6 0, slots := [(7, { due := true })] }).port 2).cfg.mode = 6 ∧ 7 < 8
      ∧ ((p2 { cfg := pcfg 6 0, slots := [(7, { due := true })] }).port 2).recessive = false
      ∧ (((p2 { cfg := pcfg 6 0, slots := [(7, { due := true })] }).port 2).slot 7).due = true)
    ∧ (((p2 (outP { ostate := .hold } (33, 9))).port 2).out 0).ostate = .hold
    ∧ (((p2 (outP { ostate := .ramp } (33, 9))).port 2).out 0).ostate = .ramp
    ∧ (((p2 (outP { nextCompare := some 4 } (33, 9))).port 2).out 0).nextCompare = some 4
    ∧ ((ready []).aon.phase ≠ .aonReset ∧ (ready []).aon.haltN = false ∧ 49 < 50)
    ∧ ({ ready [] with aon := { phase := .running, haltN := true } } : State).aon.haltN = true
    ∧ (Begins (rearm33 .running .attached) 1 7 0x18 rearm ∧ (rearm33 .running .attached).has rearm.src (.port 2) .admin = true
      ∧ wf (rearm.words.getD 1 0) 3 0 = 2 ∧ (rearm33 .running .attached).domActive (portDom 2) = true ∧ wf (rearm.words.getD 1 0) 4 4 = 0
      ∧ wf (rearm.words.getD 1 0) 13 8 = 0 ∧ ((rearm33 .running .attached).port 2).desc 0 = some (33, 9)
      ∧ (((rearm33 .running .attached).port 2).out 0).ostate = .safe ∧ (rearm33 .running .attached).armCode 2 0 (33, 9) = none
      ∧ (rearm33 .parked .attached).armCode 2 0 (33, 9) = some .failedParked) := by unfold Begins; decide

theorem wit_PortsAttachAndDetach :
    ((ready []).aon.phase ≠ .aonReset ∧ (ready []).isReady = true ∧ ((p2 {}).port 2).cfg.presIgnore = false ∧ ((p2 {}).port 2).pres = false
      ∧ ((p2 {}).port 2).st = .detached)
    ∧ (((p2 { pres := true, st := .attached }).port 2).pres = true ∧ ((p2 { pres := true, st := .attached }).port 2).st = .attached)
    ∧ ((p2 { pres := true, st := .enumerating }).port 2).st = .enumerating
    ∧ ({ p2 {} with boot := {} } : State).isReady = false
    ∧ (Port.targetsAnswer { cfg := { pcfg 1 0 with targets := [BitVec.ofNat 64 (3 * 2 ^ 48 + 5)] } } [5] = true
      ∧ Port.targetsAnswer { cfg := { pcfg 1 0 with targets := [BitVec.ofNat 64 (3 * 2 ^ 48 + 5)] } } [] = false)
    ∧ (((p2 { pres := true }).port 2).st = .detached ∧ ((p2 { pres := true }).port 2).present = true)
    ∧ ((pcfg 1 0).mode ≠ 5 ∧ (pcfg 1 0).mode = 1)
    ∧ ((({ illegalRun := [0], cfg := pcfg 4 0 } : Port).illegalRun.filter (fun x => decide ((ready []).aon.wall < x + 1000))).length < 15
      ∧ 15 ≤ (({ illegalRun := List.replicate 15 0, cfg := pcfg 4 0 } : Port).illegalRun.filter
          (fun x => decide ((ready []).aon.wall < x + 1000))).length) := by decide

/-- A valid input channel 0 of world 33 with one destination of class 1, which is Lockstep, at port destination 4. -/
def chan33 : DWord := BitVec.ofNat 64 (4 + 2 ^ 20 + 33 * 2 ^ 32 + 2 ^ 57)
def capIn (mode protocol : Nat) (st : WState) : State :=
  let c := { pcfg mode protocol with
    chans := [(0, chan33)]
    filters := [(BitVec.ofNat 64 (2 ^ 30 + 5 + 31 * 2 ^ 32), 0)]
    polls := [BitVec.ofNat 64 (3 * 2 ^ 43 + 2 ^ 53)] }
  { p2 { st := .attached, cfg := c } with
    tmp := { worlds := [(33, { st := st })] }
    portDest := [(4, BitVec.ofNat 64 (2 ^ 43))]
    hub := { classLockstep := 2 } }

theorem wit_PortInputsAreCaptured :
    (((capIn 3 0 .running).port 2).st = .attached ∧ ((capIn 3 0 .running).port 2).cfg.mode = 3
      ∧ tget 0 (0 : Byte).toNat ((capIn 3 0 .running).port 2).cfg.chans = chan33 ∧ (0 : Byte).toNat < ((capIn 3 0 .running).port 2).cfg.inCount
      ∧ ((capIn 3 0 .running).port 2).cfg.inCount ≤ (1 : Byte).toNat ∧ wf chan33 57 57 = 1
      ∧ ((capIn 3 0 .parked).world (wf chan33 44 32)).st ≠ .running ∧ ((capIn 3 0 .running).world (wf chan33 44 32)).st = .running
      ∧ (capIn 3 0 .running).chanDests chan33 = [BitVec.ofNat 64 (2 ^ 43)]
      ∧ (capIn 3 0 .running).lockstep (destClass (BitVec.ofNat 64 (2 ^ 43))) = true
      ∧ (∀ x ∈ (capIn 3 0 .running).hub.lockIn, ¬(x.ep = portEp 2 ∧ x.ch = (0 : Byte).toNat)))
    ∧ wf ((capIn 4 0x20 .running).port 2).cfg.protocol 5 5 = 1
    ∧ ((capIn 6 0 .running).port 2).cfg.filters.find? (canMatch false 5) = some (BitVec.ofNat 64 (2 ^ 30 + 5 + 31 * 2 ^ 32), 0)
    ∧ (((capIn 1 0 .running).port 2).cfg.mode = 1 ∧ wf (((capIn 1 0 .running).port 2).cfg.polls.getD 0 0) 53 53 = 1
      ∧ wf (((capIn 1 0 .running).port 2).cfg.polls.getD 0 0) 43 28 ≠ 0 ∧ wf (BitVec.ofNat 64 (3 * 2 ^ 43 + 2 ^ 53)) 44 44 = 1
      ∧ ((capIn 1 0 .running).port 2).cfg.polls = [BitVec.ofNat 64 (3 * 2 ^ 43 + 2 ^ 53)])
    ∧ (((capIn 2 0 .running).port 2).cfg.mode = 2 ∧ 1 < 0x30 ∧ 1 < 2 ∧ ((capIn 2 0 .running).port 2).badRun + 1 < 8
      ∧ 8 ≤ ((p2 { badRun := 7 }).port 2).badRun + 1) := by decide

/-- World 33 driven by pin 0 at both edges, or by port 2's encoder. -/
def pin33 (x : World) : State :=
  { p2 { st := .attached, cfg := pcfg 4 0 } with tmp := { worlds := [(33, x)] }, aon := { phase := .running, pinCfg := 3 } }

theorem wit_PinsAndEncodersDriveTempo :
    ((pin33 {}).aon.phase ≠ .aonReset ∧ 0 < 4 ∧ bit ((pin33 {}).pinMode 0) 0 = true ∧ bit ((pin33 {}).pinMode 0) 1 = true
      ∧ (pin33 { st := .running, srcKind := 2, scaleMul := 1, scaleDiv := 1 }).sourced 2 0 = [33]
      ∧ 33 ∉ (pin33 { st := .running, srcKind := 2, scaleMul := 1, scaleDiv := 1 }).followers 33
      ∧ ((pin33 { st := .running, srcKind := 2, scaleMul := 1, scaleDiv := 1 }).world 33).st = .running
      ∧ 0 + (0 + 1) / 1 ≤ maxTempo ∧ (pin33 { st := .parked, srcKind := 2 }).sourced 2 0 = [33])
    ∧ ((pin33 {}).pinMode 0 ≠ 0 ∧ 5 ≤ 5 ∧ 39 < 40)
    ∧ (((pin33 {}).port 2).st = .attached ∧ ((pin33 {}).port 2).cfg.mode = 4 ∧ (pin33 {}).sourced 3 2 = []
      ∧ (pin33 { st := .running, srcKind := 3, srcIndex := 2, debt := 1 }).sourced 3 2 = [33]
      ∧ 0 < ((pin33 { st := .running, srcKind := 3, srcIndex := 2, debt := 1 }).world 33).debt
      ∧ ((pin33 { st := .running, srcKind := 3, srcIndex := 2 }).world 33).debt = 0
      ∧ 33 ∉ (pin33 { st := .running, srcKind := 3, srcIndex := 2 }).followers 33
      ∧ 0 + 1 < 2 ^ 24 ∧ 2 ^ 24 ≤ ((pin33 { st := .running, srcKind := 3, srcIndex := 2, debt := 2 ^ 24 - 1 }).world 33).debt + 1) := by
  decide

/-! ### Trace -/

/-- A TRACE_CFG with these words, taken in a state of the trace unit. -/
def tcCmd (ws : List DWord) : ExecCmd := cmd 0x20 ws
def tcIn (x : Trace) (ws : List DWord) : State := withCmd { ready [.trace] with trc := x, boot := { (ready []).boot with chartersValid := 8 } } (tcCmd ws)

theorem wit_TraceIsConfiguredAndCaptured :
    ((Begins (tcIn {} [0]) 1 7 0x20 (tcCmd [0]) ∧ wf ((tcCmd [0]).words.getD 1 0) 3 0 = 0 ∧ 2 ≤ (tcCmd [0]).words.length)
      ∧ (Begins (tcIn {} [1]) 1 7 0x20 (tcCmd [1]) ∧ wf ((tcCmd [1]).words.getD 1 0) 3 0 = 1 ∧ 2 ≤ (tcCmd [1]).words.length)
      ∧ (Begins (tcIn {} [6]) 1 7 0x20 (tcCmd [6]) ∧ wf ((tcCmd [6]).words.getD 1 0) 3 0 = 6 ∧ 2 ≤ (tcCmd [6]).words.length)
      ∧ (tcIn {} [0]).has (tcCmd [0]).src .trace .admin = true ∧ (tcIn {} [0]).domActive 4 = true
      ∧ (tcIn {} [2]).trc.st = 0 ∧ (tcIn { st := 4 } [2]).trc.st = 4
      ∧ (Begins (tcIn {} [BitVec.ofNat 64 (2 + 254 * 16)]) 1 7 0x20 (tcCmd [BitVec.ofNat 64 (2 + 254 * 16)])
        ∧ wf ((tcCmd [BitVec.ofNat 64 (2 + 254 * 16)]).words.getD 1 0) 11 4 < 255
        ∧ (tcIn {} [BitVec.ofNat 64 (2 + 254 * 16)]).sourceEntryOk
            (((tcCmd [BitVec.ofNat 64 (2 + 254 * 16)]).words.getD 1 0).extractLsb' 32 32) = true)
      ∧ (Begins (tcIn {} [3, 0, 0]) 1 7 0x20 (tcCmd [3, 0, 0]) ∧ 4 ≤ (tcCmd [3, 0, 0]).words.length)
      ∧ (Begins (tcIn {} [0x34, 0]) 1 7 0x20 (tcCmd [0x34, 0]) ∧ 3 ≤ (tcCmd [0x34, 0]).words.length
        ∧ wf ((tcCmd [0x34, 0]).words.getD 1 0) 3 0 = 4 ∧ wf ((tcCmd [0x34, 0]).words.getD 1 0) 11 4 < 4)
      ∧ (Begins (tcIn {} [0x200000005]) 1 7 0x20 (tcCmd [0x200000005]) ∧ wf ((tcCmd [0x200000005]).words.getD 1 0) 3 0 = 5
        ∧ wf ((tcCmd [0x200000005]).words.getD 1 0) 33 32 = 2 ∧ (tcIn {} [0x200000005]).charter 4 = true)
      ∧ (Begins (tcIn { st := 2 } [3, 0, 0]) 1 7 0x20 (tcCmd [3, 0, 0]) ∧ (tcIn { st := 2 } [3, 0, 0]).trc.st ≠ 0
        ∧ (tcIn { st := 2 } [3, 0, 0]).trc.st ≠ 4))
    ∧ ((ready []).traceTiles = [] ∧ (⟨0, 1, 0, 33, true, 0, []⟩ : TraceRec).kind ≠ 0)
    ∧ (({ st := 2, out := 1, held := 4 } : Trace).mode = 1 ∧ ({ st := 2, out := 1 } : Trace).mode = 1)
    ∧ (({ st := 2, out := 2, serOk := true } : Trace).mode = 2 ∧ ({ st := 2, out := 2 } : Trace).held < 4) := by
  unfold Begins; and_intros <;> decide

/-! ### Span links -/

/-- Link 0 in a READY package; package 1 lies beyond link 1, which is UP. -/
def sp (x : Span) : State :=
  { ready [] with fab := { spans := [(0, x), (1, { state := 2 })] }, hub := { spanRoute := [(1, 9)] } }
/-- A frame with one volley, or none. -/
def frame (seq : Nat) (good : Bool) : SpanFrame :=
  { seq := seq, ack := 0, credit0 := 0, credit1 := 0, credit2 := 0, good := good,
    volleys := [⟨⟨0, 5, 5⟩, ⟨1, 1, 1⟩, 1, false, 0, false, false, 0, 0, 0, 1, [0]⟩] }
/-- A volley for package p that has crossed n links. -/
def far (p n : Nat) (b : VBody) : Volley := { vol b with dst := ⟨p, 5, 5⟩, phops := n }

theorem wit_SpanLinksCarryVolleys :
    (((sp { state := 2, replay := [(0, [])] }).span 0).state = 2 ∧ ((sp { state := 2, replay := [(0, [])] }).span 0).replay ≠ []
      ∧ ((sp { state := 2, replay := [(0, [])] }).span 0).hold < 2 ∧ (sp {}).linkFollowers 0 = [])
    ∧ ((sp {}).spanTrains 0 = true ∧ ((sp {}).span 0).state = 0 ∧ (sp {}).domActive (spanDom 0) = true)
    ∧ (((sp { state := 1 }).span 0).hold ≠ 3 ∧ ((sp { state := 1 }).span 0).state = 1)
    ∧ (((sp { state := 2, hold := 3 }).span 0).hold = 3 ∧ ((sp { state := 2, hold := 3 }).span 0).queue = [])
    ∧ ((frame 0 false).good = false ∧ (frame 0 true).good = true ∧ ((sp { state := 2 }).span 0).queue = [] ∧ (frame 0 true).volleys ≠ []
      ∧ (frame 0 true).seq = ((sp { state := 2 }).span 0).rxSeq ∧ (frame 4095 true).seq ≠ ((sp { state := 2 }).span 0).rxSeq)
    ∧ (((sp { arrived := [far 0 1 (.control false (.subscribe 5 33))] }).span 0).arrived
          = far 0 1 (.control false (.subscribe 5 33)) :: []
      ∧ (far 0 1 (.control false (.subscribe 5 33))).dst.p = (sp {}).hub.p ∧ (sp {}).tmp.subs.length < 64
      ∧ (sp {}).tmp.subs.contains (0, 5, 33) = false)
    ∧ ((sp {}).unreach (far 0 1 (.events [])).dst = none)
    ∧ ((far 1 7 (.events [])).dst.p ≠ (sp {}).hub.p ∧ 7 ≤ (far 1 7 (.events [])).phops)
    ∧ ((far 1 6 (.events [])).phops < 7 ∧ (sp {}).spanRouteTo 1 = some 1 ∧ 1 ≠ 0 ∧ (sp {}).domActive (spanDom 1) = true
      ∧ ((sp {}).span 1).state = 2 ∧ ((sp {}).span 1).hold < 2 ∧ ((sp {}).span 1).queue = [] ∧ ((sp {}).span 1).replay.length < 1024
      ∧ (far 1 6 (.events [])).flits ≤ tget 256 (far 1 6 (.events [])).vc ((sp {}).span 1).credits)
    ∧ (((sp { state := 2 }).span 0).quiet = true ∧ ((sp { hold := 1 }).span 0).hold = 1 ∧ ((sp { hold := 2 }).span 0).hold = 2) := by
  decide
theorem wit_SpanLinksCarryVolleys_taken : (far 0 1 (.events [])).dst.p = (sp {}).hub.p
    ∧ ∀ b c, (far 0 1 (.events [])).body ≠ .control b c := ⟨by decide, fun b c h => by cases h⟩

/-! ### Tiles -/

/-- A state block of neuron 0, lane 1 of group 1, and the world's tempos in a tile that it names. -/
def blk33 : Block := (BitVec.ofNat 64 (2 ^ 50), 1)
/-- World 33 RUNNING with turn 0 open, and tile 0 with T at 4. -/
def tl (x : Tile) : State :=
  { ready [] with
    tmp := { worlds := [(33, { st := .running, opened := 1, t := 4, turnLenM1 := 3 })] }
    tiles := [(0, { x with worlds := [(33, { t := 4 })] })] }
/-- Tile 0 with a schedule of these entries at column address 128. -/
def sch (es : List DWord) (x : Tile) : State :=
  let s := tl { x with blocks := [blk33], cfg := { x.cfg with schedA := 1 } }
  { s with mem := ((s.mem.writeLE 128 8 es.length).writeLE 136 8 (es.getD 0 0).toNat).writeLE 144 8 (es.getD 1 0).toNat }
/-- A schedule entry of group 1 at offset 0, span 1. -/
def ent (op : Nat) : DWord := BitVec.ofNat 64 (op + 2 ^ 16)

/-- What every slot needs, at a schedule of one entry. -/
def SlotReady (s : State) (e : DWord) : Prop :=
  s.scheduled 0 = true ∧ s.tileRuns 0 = true ∧ (s.tile 0).idle = true ∧ s.anyLane 0 = true ∧ (s.enterSlot 0).slotEntry 0 = e
    ∧ (s.enterSlot 0).slotOpen 0 e = true

theorem wit_ScheduleSlotsRun_gather :
    SlotReady (sch [ent 1] {}) (ent 1) ∧ schOp (ent 1) = 1 ∧ ((sch [ent 1] {}).enterSlot 0).gatherFull 0 (ent 1) = true
      ∧ ((sch [ent 1] {}).enterSlot 0).gatherEvs 0 (ent 1) = []
      ∧ (((sch [ent 1] {}).enterSlot 0).gatherClear 0 (ent 1)).gatherEvs 0 (ent 1) = [] := by unfold SlotReady; decide
theorem wit_ScheduleSlotsRun_run : SlotReady (sch [ent 2] {}) (ent 2) ∧ schOp (ent 2) = 2 := by unfold SlotReady; decide
theorem wit_ScheduleSlotsRun_pot : SlotReady (sch [ent 3] {}) (ent 3) ∧ schOp (ent 3) = 3 := by unfold SlotReady; decide
theorem wit_ScheduleSlotsRun_dep : SlotReady (sch [ent 4] {}) (ent 4) ∧ schOp (ent 4) = 4
    ∧ (((sch [ent 4] {}).enterSlot 0).tile 0).intake = [] := by unfold SlotReady; decide
theorem wit_ScheduleSlotsRun_idleGroup : ∀ op ∈ [2, 3],
    SlotReady (sch [BitVec.ofNat 64 (op + 2 ^ 17), ent 1] {}) (BitVec.ofNat 64 (op + 2 ^ 17))
      ∧ ((sch [BitVec.ofNat 64 (op + 2 ^ 17), ent 1] {}).enterSlot 0).runningLanes 0 (schGroup (BitVec.ofNat 64 (op + 2 ^ 17))) = [] := by
  unfold SlotReady; decide
theorem wit_ScheduleSlotsRun_emit : SlotReady (sch [ent 5] {}) (ent 5) ∧ schOp (ent 5) = 5 := by unfold SlotReady; decide
theorem wit_ScheduleSlotsRun_quiet : SlotReady (sch [ent 6] {}) (ent 6) ∧ schOp (ent 6) = 6 ∧ schN (ent 6) = 0
    ∧ (sch [ent 6] {}).fab.mail = [] := by unfold SlotReady; decide
theorem wit_ScheduleSlotsRun_learn : SlotReady (sch [ent 7] {}) (ent 7) ∧ schOp (ent 7) = 7
    ∧ (((sch [ent 7] {}).enterSlot 0).tile 0).lrnBusy = none ∧ ((sch [ent 7] {}).enterSlot 0).atPoint 0 = false := by
  unfold SlotReady; decide

/-- A volley waits at tile 0. -/
def inb (s : State) (v : Volley) : State := { s with fab := { s.fab with inbox := [(0, [v])] } }
/-- Stack 0 is FENCED. -/
def fenced0 (s : State) : State := { s with flt := { s.flt with fences := [(stackDom 0, { st := .fenced })] } }

theorem wit_ScheduleSlotsRun_mark :
    tget [] 0 (inb (tl {}) (vol (.slotMark 2))).fab.inbox = vol (.slotMark 2) :: [] ∧ (inb (tl {}) (vol (.slotMark 2))).tileActive 0 = true := by
  decide

/-- One event of row 3 for world 33. -/
def ev3 : Word := BitVec.ofNat 32 (3 + 2 ^ 13)
/-- Mail for tile 0. -/
def post (s : State) (b : MailBody) : State := { s with fab := { s.fab with mail := [{ dst := 0, body := b }] } }
/-- An open merge entry of an event. -/
def mrg : MergeEntry := { row := 3, group := 1, cls := 0, lockstep := false, evs := [(1, 7)] }
/-- World 33 in another state. -/
def in33 (s : State) (st : WState) : State := { s with tmp := { s.tmp with worlds := [(33, { st := st })] } }

theorem wit_TilesTakeEventsAndMessages :
    (tget [] 0 (inb (tl {}) (vol (.events [ev3]))).fab.inbox = vol (.events [ev3]) :: []
      ∧ (fenced0 (inb (tl {}) (vol (.events [ev3])))).tileActive 0 = false ∧ (inb (tl {}) (vol (.events [ev3]))).tileActive 0 = true
      ∧ (vol (.events [ev3])).vc ≠ 2 ∧ ((tl {}).tile 0).idle = true ∧ ((tl {}).tile 0).intake = []
      ∧ ((in33 (tl {}) .parked).world ((vol (.events [ev3])).group * 32 + evLane ev3)).st = .parked ∧ ((tl {}).tile 0).slotFree false = true
      ∧ ((in33 (tl {}) .standby).world ((vol (.events [ev3])).group * 32 + evLane ev3)).st = .standby
      ∧ ((in33 (tl {}) .free).world ((vol (.events [ev3])).group * 32 + evLane ev3)).st = .free)
    ∧ (((tl { merge := [mrg] }).tile 0).merge.find? (fun m => !m.lockstep) = some mrg ∧ (tl { merge := [mrg] }).tileRuns 0 = true
      ∧ ((tl { merge := [mrg] }).tile 0).merge = [mrg] ∧ rowSegs (tget (0 : DWord) mrg.row ((tl { merge := [mrg] }).tile 0).rowdir) = 0
      ∧ (∀ ev, ev ∈ ((tl { merge := [mrg] }).tile 0).intake → ev.id ∈ mrg.evs.map (·.2) → ev.row = mrg.row))
    ∧ ((tl { blocks := [blk33] }).mayUpdate 0 33 = true ∧ ((tl { blocks := [blk33] }).tile 0).wheel = []
      ∧ ((tl { blocks := [blk33] }).tile 0).intake = [] ∧ ((tl { blocks := [blk33] }).tile 0).posts = [])
    ∧ (tget [] 0 (inb (tl {}) (vol (.frontier 4 2))).fab.inbox = vol (.frontier 4 2) :: [])
    ∧ ((post (tl {}) (.ctl (.age 33 8))).fab.mail = { dst := 0, body := .ctl (.age 33 8) } :: []
      ∧ (post (tl {}) (.ctl (.age 33 8))).tileRuns 0 = true ∧ (post (tl {}) (.ctl (.age 33 8))).groupLockstep 0 (33 / 32) = false
      ∧ schOp ((sch [ent 6] {}).slotEntry 0) = 6 ∧ ((post (tl {}) (.ctl (.age 33 8))).tile 0).recordsOf 33 = []
      ∧ ((post (tl {}) (.ctl (.age 33 8))).tile 0).grpIndex (33 / 32) = none)
    ∧ (post (tl {}) (.ctl (.tempoGrant 33 9))).fab.mail = { dst := 0, body := .ctl (.tempoGrant 33 9) } :: [] := by decide

/-- An open volley of class 0. -/
def open0 : OpenVolley := { dst := 0, group := 1, cls := 0, epoch := false, base := 0, words := [], urgent := false }

theorem wit_BanksAreServedAndSendersPaced :
    (((tl {}).tile 0).streaming = false ∧ (tl {}).outsideQuiet 0 = false)
    ∧ (((tl { streaming := true }).tile 0).streaming = true ∧ (sch [ent 2] {}).outsideQuiet 0 = true
      ∧ tget 0 3 ((tl { postponed := [(3, 6)] }).tile 0).postponed < 7 ∧ 7 ≤ tget 0 3 ((tl { postponed := [(3, 7)] }).tile 0).postponed)
    ∧ ((tl { openVols := [open0] }).tile 0).openVols.find? (fun o => !(tl { openVols := [open0] }).lockstep o.cls) = some open0
    ∧ (tget [] 0 (inb (tl {}) (vol (.echo 1))).fab.inbox = vol (.echo 1) :: [] ∧ (tl {}).pace 0 = {} ∧ ({} : Pace).recent = false
      ∧ ({ lastDec := some 0, clock := 4095 } : Pace).recent = true ∧ 0 < 2048)
    ∧ (tget 0 (0 * 2 ^ 18 + 325) ({ tl {} with fab := { marked := [(325, 2)] } } : State).fab.marked ≠ 0
      ∧ (tl {}).unreach (coordOf 325) = none)
    ∧ (((tl {}).pace 0).waiting = [] ∧ ((tl {}).tile 0).idle = true ∧ 2048 ≤ 2048 ∧ epX 2048 ≠ 34)
    ∧ (({ tl {} with fab := { hubPace := [(2048, { waiting := [vol (.events [])] })] } } : State).pace 2048).waiting = [vol (.events [])]
      ∧ (vol (.events [])).flits * 4096 ≤ min (({ waiting := [vol (.events [])] } : Pace).bucket + ({ waiting := [vol (.events [])] } : Pace).r * 0) 65536 := by
  decide

/-- World 33 at the first consolidation point, learning, in tile 0. -/
def lrn33 : State :=
  { ready [] with
    tmp := { worlds := [(33, { st := .running, turnLenM1 := 0 })], groups := [(1, { mode := 1 })], learnPeriod := 1 }
    tiles := [(0, { blocks := [blk33], worlds := [(33, { f := 1, t := 1 })] })] }

theorem wit_ChainsAndPointsRun :
    ((post (tl {}) (.psum 3 9 [(0, 1, 5, 7)])).fab.mail = { dst := 0, body := .psum 3 9 [(0, 1, 5, 7)] } :: []
      ∧ (fenced0 (post (tl {}) (.psum 3 9 [(0, 1, 5, 7)]))).tileActive 0 = false ∧ (post (tl {}) (.psum 3 9 [(0, 1, 5, 7)])).tileActive 0 = true
      ∧ ((tl {}).tile 0).blocks.find? (fun b => blkHasNeuron b 0 && blkHasLane b 1) = none
      ∧ ((tl { blocks := [blk33] }).tile 0).blocks.find? (fun b => blkHasNeuron b 0 && blkHasLane b 1) = some blk33
      ∧ (((tl { blocks := [blk33] }).tile 0).blockOf (blkGroup blk33 * 32 + 1) 0).isSome = true ∧ ((tl {}).tile 0).wheel = []
      ∧ (((tl {}).tile 0).world (blkGroup blk33 * 32 + 1)).f ≤ fullTempo (((tl {}).tile 0).world (blkGroup blk33 * 32 + 1)).f 5)
    ∧ (post (tl {}) (.chainAck 3 9)).fab.mail = { dst := 0, body := .chainAck 3 9 } :: []
    ∧ ((tl {}).scheduled 0 = false ∧ ((tl {}).tile 0).lrnBusy = none ∧ (tl {}).tileRuns 0 = true ∧ (tl {}).atPoint 0 = false)
    ∧ (lrn33.scheduled 0 = false ∧ (lrn33.tile 0).lrnBusy = none ∧ lrn33.tileRuns 0 = true ∧ lrn33.atPoint 0 = true
      ∧ (lrn33.tile 0).idle = true ∧ (lrn33.tile 0).rowdir = [] ∧ (lrn33.tile 0).homeOf 0 = 0 ∧ lrn33.membersOf 0 = []
      ∧ (lrn33.tile 0).intake = [])
    ∧ (post (tl {}) (.lacc 3 9 4 [])).fab.mail = { dst := 0, body := .lacc 3 9 4 [] } :: []
    ∧ (post (tl {}) (.rrow 3 9 4 [1])).fab.mail = { dst := 0, body := .rrow 3 9 4 [1] } :: [] := by decide

/-! ### The fabric and epochs -/

/-- A volley at the head of an input buffer of a router, and what the router to its east holds. -/
def rt (px py : Nat) (v : Volley) (east : List Volley) : State :=
  { ready [] with fab := { routers := [(rtKey px py, { bufs := [(12, [v])] }), (rtKey (px + 1) py, { bufs := [(9, east)] })] } }

theorem wit_RoutersMoveVolleys :
    ((rt 0 0 { vol (.events []) with okHeader := false } []).buf 0 0 4 0 = { vol (.events []) with okHeader := false } :: []
      ∧ ({ vol (.events []) with okHeader := false } : Volley).valid = false)
    ∧ ((rt 0 0 (vol (.events [])) []).buf 0 0 4 (vol (.events [])).vc = vol (.events []) :: [] ∧ (vol (.events [])).valid = true
      ∧ (rt 0 0 (vol (.events [])) []).meetsLost 0 0 (vol (.events [])) = false
      ∧ ((rt 0 0 (vol (.events [])) []).canLeave 0 0 (vol (.events [])) && (rt 0 0 (vol (.events [])) []).granted 0 0 (vol (.events []))) = true
      ∧ (rt 0 0 (vol (.events [])) []).outOf 0 0 (vol (.events [])) < 4
      ∧ (rt 0 0 (vol (.events [])) []).beyond 0 0 ((rt 0 0 (vol (.events [])) []).outOf 0 0 (vol (.events []))) = some (1, 0, 3))
    ∧ ((rt 0 0 (vol (.events [])) (List.replicate 16 (vol (.events [])))).canLeave 0 0 (vol (.events []))
        && (rt 0 0 (vol (.events [])) (List.replicate 16 (vol (.events [])))).granted 0 0 (vol (.events []))) = false
    ∧ ((rt 5 5 (vol (.events [])) []).meetsLost 5 5 (vol (.events [])) = false
      ∧ ((rt 5 5 (vol (.events [])) []).canLeave 5 5 (vol (.events [])) && (rt 5 5 (vol (.events [])) []).granted 5 5 (vol (.events []))) = true
      ∧ (rt 5 5 (vol (.events [])) []).outOf 5 5 (vol (.events [])) = 4 ∧ (rt 5 5 (vol (.events [])) []).logAt 5 5 = some (epKey 5 5)
      ∧ (rt 5 5 (vol (.events [])) []).tileActive (epKey 5 5) = true ∧ epKey 5 5 < 2048) := by decide

/-- EPOCH_FLIP in a package with this drain state. -/
def flip (e : Epoch) (l : List Target) : State :=
  let s := withCmd (ready l) (cmd 0x10 [])
  { s with hub := { s.hub with epoch := e } }
/-- A draining package that every sender has told but the steward's inbox holds this message of the hub's. -/
def drain (c : Ctl) (ends : List Nat) (rst : Bool) : State :=
  let s := flip { state := 1, endsSent := List.range 17, ends := ends, cmd := some (1, 7) } []
  { s with fab := { inbox := [(stewardEp, [vol (.control false c)])] }, flt := { s.flt with stwReset := rst } }

theorem wit_EpochsFlipAndDrain :
    (Begins (flip {} []) 1 7 0x10 (cmd 0x10 []) ∧ (flip {} []).boot.amending = none ∧ (flip {} []).has 4 .hubBlock .admin = false)
    ∧ ((flip { loaded := true, state := 1 } [.hubBlock]).has 4 .hubBlock .admin = true ∧ (flip { loaded := true, state := 1 } []).hub.epoch.state ≠ 0
      ∧ (flip {} [.hubBlock]).hub.epoch.loaded = false)
    ∧ (Begins (flip { loaded := true } [.hubBlock]) 1 7 0x10 (cmd 0x10 []) ∧ (flip { loaded := true } [.hubBlock]).has 4 .hubBlock .admin = true
      ∧ (flip { loaded := true } [.hubBlock]).hub.epoch.state = 0 ∧ (flip { loaded := true } [.hubBlock]).hub.epoch.loaded = true)
    ∧ (({ ready [] with fab := { mail := [{ dst := rootKey 0, body := .ctl (.epochNotice 33 4 true) }] } } : State).fab.mail
        = { dst := rootKey 0, body := .ctl (.epochNotice 33 4 true) } :: [])
    ∧ (tget [] stewardEp (drain (.epochAck 0 33) [] false).fab.inbox = vol (.control false (.epochAck 0 33)) :: []) := by
  unfold Begins; decide

theorem wit_EpochsFlipAndDrain_ends :
    (tget [] stewardEp (drain (.epochEnd 16 0) (List.range 16) false).fab.inbox = vol (.control false (.epochEnd 16 0)) :: []
      ∧ (∀ j, j ∈ (drain (.epochEnd 16 0) (List.range 16) false).drainers →
          (drain (.epochEnd 16 0) (List.range 16) false).hub.epoch.endsSent.contains j = true
            ∨ (drain (.epochEnd 16 0) (List.range 16) false).senderNew j = false)
      ∧ (drain (.epochEnd 16 0) (List.range 16) true).flt.stwReset = true ∧ (drain (.epochEnd 16 0) (List.range 16) false).flt.stwReset = false
      ∧ (drain (.epochEnd 16 0) (List.range 16) false).hub.epoch.state ≠ 0
      ∧ ((drain (.epochEnd 16 0) [] false).drainers.all (fun j => decide (j = 16) || (drain (.epochEnd 16 0) [] false).hub.epoch.ends.contains j
          || (drain (.epochEnd 16 0) [] false).hub.epoch.lost.contains j)) = false
      ∧ ((drain (.epochEnd 16 0) (List.range 16) false).drainers.all (fun j => decide (j = 16)
          || (drain (.epochEnd 16 0) (List.range 16) false).hub.epoch.ends.contains j
          || (drain (.epochEnd 16 0) (List.range 16) false).hub.epoch.lost.contains j)) = true
      ∧ (drain (.epochEnd 16 0) (List.range 16) false).hub.epoch.lost = []
      ∧ ((drain (.epochEnd 16 0) (List.range 16) false).pip (drain (.epochEnd 16 0) (List.range 16) false).hub.epoch.drainPip).count = 0
      ∧ (drain (.epochEnd 16 0) (List.range 16) false).hub.epoch.cmd = some (1, 7)
      ∧ (drain (.epochEnd 16 0) (List.range 16) false).findExec 1 7 = some (cmd 0x10 []))
    ∧ (tget [] stewardEp (drain (.drainDelta 16 3) [] false).fab.inbox = vol (.control false (.drainDelta 16 3)) :: []
      ∧ (∀ j, j ∈ (drain (.drainDelta 16 3) [] false).hub.epoch.endsSent →
          tget 0 j (drain (.drainDelta 16 3) [] false).hub.epoch.recv ≤ tget 0 j (drain (.drainDelta 16 3) [] false).hub.epoch.told)
      ∧ 3 ≠ 0 ∧ (drain (.drainDelta 16 3) [] false).allEnds = false) := by decide

/-! ### Fences, losses, recovery -/

/-- FENCE or RESUME of domain d where d stands at st. -/
def fn (op d : Nat) (st : FenceState) (l : List Target) : State :=
  { withCmd (ready l) (cmd op [BitVec.ofNat 64 d]) with flt := { fences := [(d, { st := st })] } }

theorem wit_FencesMoveDomains :
    (Begins (fn 0x30 3 .active []) 1 7 0x30 (cmd 0x30 [3]) ∧ wf ((cmd 0x30 [3]).words.getD 1 0) 11 0 = 3
      ∧ (fn 0x30 3 .active []).mayFence 4 3 = false ∧ (fn 0x30 3 .active [.poolBlock]).mayFence 4 3 = true
      ∧ (fn 0x30 3 .fenced [.poolBlock]).domState 3 = .fenced ∧ (fn 0x30 3 .draining [.poolBlock]).domState 3 ≠ .fenced
      ∧ (fn 0x30 3 .draining [.poolBlock]).domState 3 ≠ .active ∧ (fn 0x30 3 .active [.poolBlock]).domState 3 = .active)
    ∧ (Begins (fn 0x31 3 .fenced [.poolBlock]) 1 7 0x31 (cmd 0x31 [3]) ∧ (fn 0x31 3 .fenced [.poolBlock]).mayFence 4 3 = true) := by
  unfold Begins; decide

/-- Domain d with this fence state, the command (1, 7) of FENCE begun. -/
def fd (d : Nat) (f : Fence) : State :=
  { withCmd (ready []) { cmd 0x30 [] with stage := 1 } with flt := { fences := [(d, f)] } }
/-- A fence notice on its way. -/
def ntc (who d m : Nat) : State := { tl {} with flt := { notices := [(who, d, m)] } }

theorem wit_FencesMoveDomains_drain :
    (((fd 3 { st := .draining, cmd := some (1, 7) }).domState 3 = .draining ∧ (fd 3 {}).domClass 3 ≠ some 8
        ∧ ((fd 3 { st := .draining, cmd := some (1, 7) }).fence 3).staged = []
        ∧ ((fd 3 { st := .draining, cmd := some (1, 7) }).fence 3).reset = false
        ∧ ((fd 3 { st := .draining, cmd := some (1, 7) }).fence 3).cmd = some (1, 7)
        ∧ (fd 3 { st := .draining, cmd := some (1, 7) }).findExec 1 7 = some { cmd 0x30 [] with stage := 1 })
      ∧ ((fd 3 { st := .draining, reset := true }).fence 3).reset = true)
    ∧ ((ntc 0 (0x800 + 66) 2).flt.notices = (0, 0x800 + 66, 2) :: [] ∧ 0 < 2048 ∧ ((ntc 0 (0x800 + 66) 2).tile 0).idle = true
      ∧ ((ntc 0 (0x800 + 66) 2).tile 0).intake = [] ∧ ((ntc 0 (0x800 + 66) 2).tile 0).lrnBusy = none
      ∧ (ntc 0 (0x800 + 66) 0).flt.notices = (0, 0x800 + 66, 0) :: [] ∧ (ntc (epKey 32 0) 3 2).flt.notices = (epKey 32 0, 3, 2) :: []
      ∧ (ntc (epKey 38 0) 3 2).flt.notices = (epKey 38 0, 3, 2) :: [])
    ∧ ((fd 0x022 { st := .update }).domState 0x022 = .update ∧ (fd 0x022 { st := .update }).domClass 0x022 ≠ some 0
      ∧ (fd 0x022 { st := .update }).domClass 0x022 ≠ some 8)
    ∧ ((fd 3 { st := .reset, cmd := some (1, 7) }).domState 3 = .reset ∧ ((fd 3 { st := .reset, cmd := some (1, 7) }).fence 3).staged = []
      ∧ (fd 3 {}).boot.amending = none ∧ ((fd 3 { st := .reset, cmd := some (1, 7) }).fence 3).cmd = some (1, 7)
      ∧ (fd 3 { st := .reset, cmd := some (1, 7) }).findExec 1 7 = some { cmd 0x30 [] with stage := 1 }
      ∧ (fd 3 {}).domClass 3 = some 5 ∧ (fd 4 {}).domClass 4 = some 6
      ∧ ((fd 0x011 {}).domClass 0x011 = some 8 ∧ (fd 0x011 {}).spanTrains (0x011 - 0x010) = false)
      ∧ (fd 0x022 {}).domClass 0x022 = some 9 ∧ (fd 0x800 {}).domClass 0x800 = some 0
      ∧ ((fd 0x800 {}).tile (0x800 - 0x800)).homeOf (0x800 - 0x800) = 0x800 - 0x800)
    ∧ ((ready []).isReady = true ∧ (ready []).stackPresent 1 = true ∧ (ready []).boot.absentStacks.contains 1 = false
      ∧ (ready []).stackIsLost 1 = false ∧ (ready []).domState (stackDom 1) = .active) := by decide
theorem wit_FencesMoveDomains_tile : ∀ w, ((fd 0x800 {}).tile (0x800 - 0x800)).resident w = false := by intro w; rfl

/-- A loss item of a world or of none. -/
def item (w : Option Nat) (sampled : Bool) : LossItem :=
  { code := .failedLink, kind := 1, w := w, reporter := ⟨0, 0, 0⟩, a := 0, b := 5, ext := none, stamp := none, sampled := sampled }
def lossy (i : LossItem) : State := { ready [] with flt := { queue := [i] } }
/-- A section with column bytes for unit 100 of tile 0, and the image of a boot that loaded it. -/
def sec100 : Section := { target := 0, param := 100, offset := 1, digest := 0, data := .tileColumn [1] }
def im0 (l : List Section) : Image :=
  { magic := 0x3149424C, version := 1, headerSize := 512, imageId := 3, secVersion := 0, packageMask := 255, p := 0, allowDegraded := false,
    commitFloor := false, keeper := false, standby := false, bootRack := 2, keySlot := 0, hostWaitMs := 0, poolWaitMs := 0, baseImageId := 0,
    amendSeq := 1, key := 0, signature := 0, sections := l }
/-- Tile 0 with unit 100 quarantined, in a region of kind 0: row 0, with or without a twin whose copy cannot be read. -/
def quar100 (twin : Bool) : State :=
  let s := tl {
    quar := [{ unit := 100, repl := 5, recovered := false, source := 0 }]
    rowdir := [(0, BitVec.ofNat 64 (100 * 2 ^ 14 + 2 ^ 35 + (if twin then 2 ^ 47 else 0)))]
    cfg := { ({} : Tile).cfg with twin := if twin then 8 else 0 } }
  { s with boot := { s.boot with image := some (im0 [sec100]) }, mem := { bad := [0] } }

theorem wit_LossesAreWrittenAndUnitsRecover :
    ((lossy (item none false)).flt.queue = item none false :: [] ∧ (lossy (item none false)).stackIsLost 0 = false
      ∧ (lossy (item none false)).flt.held + (item none false).size ≤ 65536 ∧ (lossy (item none false)).mem.wf = true
      ∧ ((lossy (item none false)).tile ((lossy (item none false)).flt.head.toNat % 65536 / 4096)).quar = [] ∧ (item none false).size = 1)
    ∧ (({ lossy (item none true) with flt := { queue := [item none true], head := 65536 } } : State).flt.held + (item none true).size > 65536
      ∧ (item none true).sampled = true ∧ (item none false).sampled = false ∧ (item none false).w = none
      ∧ ({ lossy (item none false) with flt := { queue := [item none false], fences := [(stackDom 0, { lost := true })] } } : State).stackIsLost 0
          = true)
    ∧ ((((quar100 false).tile 0).quar.filter (fun e => !e.recovered)).map (·.unit)).find?
        (fun k => decide ((quar100 false).recoverySource 0 k ≠ 0)) = some 100
    ∧ ((((quar100 false).tile 0).quar.filter (fun e => !e.recovered)).map (·.unit)).find?
        (fun k => decide ((quar100 false).recoverySource 0 k = 2)) = some 100 := by decide
theorem wit_LossesAreWrittenAndUnitsRecover_fence :
    ((((quar100 true).tile 0).quar.filter (fun e => !e.recovered)).map (·.unit)).find?
        (fun k => decide ((quar100 true).recoverySource 0 k ≠ 0)) = none
    ∧ ((((quar100 true).tile 0).quar.filter (fun e => !e.recovered)).map (·.unit)).find?
        (fun k => (quar100 true).sourceless 0 k && !((quar100 true).reloadSections 0 k).isEmpty) = some 100
    ∧ (quar100 true).tileActive 0 = true := by decide

/-! ### The steward and amendments -/

/-- A STEWARD section with a digest. -/
def stw (d : BitVec 384) : Section := { target := 0, param := 0, offset := 0, digest := d, data := .steward 0 }
/-- The steward in reset, its section in slot A, and a drain sum held. -/
def down (d : BitVec 384) : State :=
  let s := ready [.hubBlock]
  { s with
    flt := { stwReset := true }
    hub := { s.hub with epoch := { heldSum := 5, drainPip := 6 } }
    boot := { s.boot with image := some (im0 [stw d]), env := { s.boot.env with nvm := { s.boot.env.nvm with slotA := some (im0 [stw d]) } } } }

theorem wit_StewardResetsAndRestarts :
    ((ready [.hubBlock]).isReady = true ∧ (ready [.hubBlock]).flt.stwReset = false ∧ (ready [.hubBlock]).has 4 .hubBlock .admin = true
      ∧ (0x10000 : Word).getLsbD 16 = true ∧ (0 : Word).getLsbD 16 = false ∧ (ready []).has 4 .hubBlock .admin = false)
    ∧ ((down 0).isReady = true ∧ (down 0).flt.stwReset = true ∧ (down 0).hub.epoch.state = 0 ∧ (down 0).hub.epoch.heldSum ≠ 0
      ∧ ((down 0).pip (down 0).hub.epoch.drainPip).add (BitVec.ofInt 32 (down 0).hub.epoch.heldSum) = some { count := 5 }) := by decide
/-- The steward's section loads where its digest is the one held, and only there. -/
theorem wit_StewardResetsAndRestarts_loads : (down (Config.sectionDigest (.steward 0))).stewardLoads = true
    ∧ ∀ d, Config.sectionDigest (.steward 0) ≠ d → (down d).stewardLoads = false :=
  ⟨decide_eq_true rfl, fun _ h => decide_eq_false h⟩

/-- AMEND from NVM, with check_only, with a sequence number, and from a source that does not exist. -/
def amCmd (w : DWord) (more : List DWord) : ExecCmd := cmd 0x11 (w :: more)
def amIn (w : DWord) (more : List DWord) (l : List Target) : State :=
  let s := withCmd (ready l) (amCmd w more)
  { s with boot := { s.boot with image := some (im0 []) } }
/-- An amendment of image id 0 with these sections. -/
def amd (l : List Section) : Image := { im0 l with magic := 0x3141424C }

theorem wit_AmendmentsApplyWhole :
    (Begins (amIn 3 [] []) 1 7 0x11 (amCmd 3 []) ∧ (amIn 3 [] []).has 4 .bootBlock .admin = false ∧ amendArgs (amCmd 0 []) = false)
    ∧ (Begins (amIn 3 [0, 0] [.bootBlock]) 1 7 0x11 (amCmd 3 [0, 0]) ∧ (amIn 3 [0, 0] [.bootBlock]).has 4 .bootBlock .admin = true
      ∧ amendArgs (amCmd 3 [0, 0]) = true ∧ 4 ≤ (amCmd 3 [0, 0]).words.length
      ∧ wf ((amCmd 3 [0, 0]).words.getD 3 0) 31 0 = (amIn 3 [0, 0] [.bootBlock]).boot.amendSeq)
    ∧ (Begins (amIn 3 [] [.bootBlock]) 1 7 0x11 (amCmd 3 []) ∧ (amCmd 3 []).words.length < 4 ∧ amendArgs (amCmd 3 []) = true
      ∧ (amIn 3 [] [.bootBlock]).boot.amending = none)
    ∧ headerCode (amIn 3 [] [.bootBlock]) { amd [] with version := 2 } 0x3141424C ≠ 0
    ∧ ((amIn 3 [] [.bootBlock]).hub.epoch.state = 0 ∧ wf ((amCmd 0x403 []).words.getD 1 0) 10 10 = 1
      ∧ wf ((amCmd 3 []).words.getD 1 0) 10 10 ≠ 1 ∧ Begins (amIn 0x403 [] [.bootBlock]) 1 7 0x11 (amCmd 0x403 [])) := by
  unfold Begins; decide
/-- The key of an amendment is good where it hashes to the blank fuses. -/
theorem keyGood_blank (h : Config.keyHash 0 = 0) : keyGood (amIn 3 [] [.bootBlock]).fuses 0 0 = true := by
  show (decide (Config.keyHash 0 = 0) && true) = true
  rw [decide_eq_true h]; rfl
theorem keyGood_other (h : Config.keyHash 0 ≠ 0) : keyGood (amIn 3 [] [.bootBlock]).fuses 0 0 = false := by
  show (decide (Config.keyHash 0 = 0) && true) = false
  rw [decide_eq_false h]; rfl
theorem keyCode_zero (im : Image) (hs : im.keySlot = 0) (hk : im.key = 0) (h : Config.keyHash 0 = 0) (g : Config.imageVerifies im = true) :
    keyCode (amIn 3 [] [.bootBlock]) im = 0 := by
  unfold keyCode; rw [hs, hk, keyGood_blank h, g]; rfl
/-- The checks of an amendment whose header is right, by what the free functions of the key and the digests answer. -/
theorem wit_AmendmentsApplyWhole_checks :
    (headerCode (amIn 3 [] [.bootBlock]) (amd []) 0x3141424C = 0 ∧ (amd []).baseImageId = (amIn 3 [] [.bootBlock]).boot.imageId)
    ∧ (Config.keyHash 0 ≠ 0 → keyCode (amIn 3 [] [.bootBlock]) (amd []) ≠ 0)
    ∧ (Config.keyHash 0 = 0 → Config.imageVerifies { amd [] with amendSeq := 0 } = true →
      keyCode (amIn 3 [] [.bootBlock]) { amd [] with amendSeq := 0 } = 0
        ∧ ({ amd [] with amendSeq := 0 } : Image).amendSeq ≤ (amIn 3 [] [.bootBlock]).boot.amendSeq)
    ∧ (Config.keyHash 0 = 0 → Config.imageVerifies (amd []) = true →
      ((amIn 3 [] [.bootBlock]).cmdWake 0x11).amendRefusal (amd []) = none)
    ∧ (Config.keyHash 0 = 0 → Config.imageVerifies (amd [sec100]) = true → Config.sectionDigest (.tileColumn [1]) ≠ 0 →
      ((amIn 3 [] [.bootBlock]).cmdWake 0x11).amendRefusal (amd [sec100]) = some (some 0, 6)) := by
  refine ⟨by decide, fun h => ?_, fun h g => ⟨keyCode_zero _ rfl rfl h g, by decide⟩, fun h g => ?_, fun h g d => ?_⟩
  · unfold keyCode
    rw [show (amd []).keySlot = 0 from rfl, show (amd []).key = 0 from rfl, keyGood_other h]
    decide
  · rw [show (amIn 3 [] [.bootBlock]).cmdWake 0x11 = amIn 3 [] [.bootBlock] from rfl]
    unfold State.amendRefusal
    rw [keyCode_zero (amd []) rfl rfl h g]
    rfl
  · have b : badDigest sec100 = true := decide_eq_true d
    rw [show (amIn 3 [] [.bootBlock]).cmdWake 0x11 = amIn 3 [] [.bootBlock] from rfl]
    unfold State.amendRefusal
    rw [keyCode_zero (amd [sec100]) rfl rfl h g]
    have c : ∀ sh im, (amIn 3 [] [.bootBlock]).amendCode sh im sec100 = some 6 := by
      intro sh im; unfold State.amendCode; rw [b]; rfl
    rw [show loadOrder (amd [sec100]).sections = [(sec100, 0)] from rfl]
    simp only [List.findSome?, c]
    rfl

/-- An amendment with this section waits for its commit, or is committed. -/
def amWait (x : Section) (done : Bool) : State :=
  let s := withCmd (ready []) { cmd 0x11 [] with stage := 1 }
  { s with boot := { s.boot with amending := some { rk := 1, seq := 7, im := amd [x], committed := done, doms := [] } } }
/-- Sections with a port's channels, tile 66's rule sets, and an access table. -/
def secPort : Section := { target := 2, param := 0, offset := 0, digest := 0, data := .ports (pcfg 0 0) }
def secAccess : Section := { target := 0, param := 0, offset := 0, digest := 0, data := .access [(.trace, 5)] }
def secTile : Section := { target := 66, param := 0, offset := 0, digest := 0, data := .tileConfig ({} : Tile).cfg }

theorem wit_AmendmentsApplyWhole_commit :
    ((ready []).boot.amending = none
      ∧ ((amWait secPort true).boot.amending = some { rk := 1, seq := 7, im := amd [secPort], committed := true, doms := [] }))
    ∧ ((amWait secPort false).boot.amending = some { rk := 1, seq := 7, im := amd [secPort], committed := false, doms := [] }
      ∧ (amWait secPort false).flt.stwReset = false ∧ (amWait secPort false).skips secPort = false
      ∧ ((amWait secPort false).shadow (amd [secPort])).updateDoms secPort = [portDom 2])
    ∧ ((amWait secTile false).skips secTile = false
      ∧ ((amWait secTile false).shadow (amd [secTile])).updateDoms secTile = [0x800 + 66]
      ∧ 0x800 ≤ 0x800 + 66 ∧ (amWait secTile false).tileStill (0x800 + 66 - 0x800) = true ∧ (amWait secTile false).domState (0x800 + 66) = .active)
    ∧ (secAccess.data = .access [(.trace, 5)] ∧ (∀ e, e ∈ (amWait secAccess false).tmp.worlds → e.2.staged = none)
      ∧ (amWait secAccess false).findExec 1 7 = some { cmd 0x11 [] with stage := 1 }) := by
  and_intros <;> first | rfl | decide

/-! ### Bulk plane and rack bindings -/

/-- A descriptor of one line: COPY from a column, or ZERO, to one column. -/
def w0Copy : DWord := BitVec.ofNat 64 (1 + 0xFF * 2 ^ 8 + 2 ^ 16)
def w0Zero : DWord := BitVec.ofNat 64 (2 + 0xFF * 2 ^ 8 + 2 ^ 16)
/-- A message for pip 5 waits at the rack store's port. -/
def pipMsg (n : Word) (who : Nat) : State :=
  { ready [.pipBlock 0] with
    pips := { pips := [(5, { mode := 1, target := 9 })] }
    fab := { inbox := [(epKey 33 0, [vol (.control false (.pipAdd 5 n who))])] } }

theorem wit_BulkTransfersMoveLines :
    bulkOk 0 0 0 = false ∧ bulkOk w0Copy 0 0 = true
    ∧ (blkLines w0Zero = 1 ∧ (ready []).bulkDests w0Zero (BitVec.ofNat 64 (66 * 2 ^ 28)) = [66] ∧ (ready []).bulkRead 1 w0Zero 0 [] 0 = (.done, 0)
      ∧ (ready []).bulkWriteCode 66 (BitVec.ofNat 64 (66 * 2 ^ 28)) 0 = none ∧ (ready []).mem.wf = true
      ∧ (fenced0 (ready [])).bulkWriteCode 66 (BitVec.ofNat 64 (66 * 2 ^ 28)) 0 = some .failedPeerReset)
    ∧ (blkOp w0Zero = 2 ∧ blkOp w0Copy = 1 ∧ blkSrcKind w0Copy = 0 ∧ (ready []).tilePresent (wf 0 38 28) = true
      ∧ (ready []).tileActive (wf 0 38 28) = true ∧ (ready []).mem.anyBad ((ready []).memAddr (0 : DWord).toNat) 64 = false)
    ∧ (({ ready [.pipBlock 0] with pool := { bulks := [{ who := 4, w3 := BitVec.ofNat 64 (5 + 2 ^ 18) }] } } : State).pool.bulks
        = { who := 4, w3 := BitVec.ofNat 64 (5 + 2 ^ 18) } :: []
      ∧ wf (BitVec.ofNat 64 5) 18 18 ≠ 1 ∧ wf (BitVec.ofNat 64 (5 + 2 ^ 18)) 18 18 = 1 ∧ 2 ≤ ((ready [.pipBlock 0]).pipRight 4 5).rank
      ∧ ((ready [.pipBlock 0]).pip 5).add 1 = some { count := 1 })
    ∧ (tget [] (epKey 33 0) (pipMsg 1 4).fab.inbox = vol (.control false (.pipAdd 5 1 4)) :: [] ∧ 2 ≤ ((pipMsg 1 4).pipRight 4 5).rank
      ∧ (((pipMsg 1 4).pip 5).add 1).isSome = true ∧ ((pipMsg 0 4).pip 5).add 0 = none ∧ ((ready []).pipRight 4 5).rank < 2) := by
  and_intros <;> first | rfl | decide

/-- Binding 2 takes an event of world 33 with this entry, rack 5 of 2 entries with a reserve. -/
def bind (b : Word) (reserve : Nat) : State :=
  { ready [] with
    tmp := { worlds := [(33, { st := .running, opened := 1, turnLenM1 := 3, turns := [(0, {})] })] }
    racks := { bindings := [(2, b)], racks := [(5, { enabled := true, size := 2, hubReserve := reserve })] }
    fab := { inbox := [(epKey 32 2, [vol (.events [ev3])])] } }

theorem wit_RackBindingsTakeEvents :
    (tget [] (epKey 32 2) (bind 0x105 1).fab.inbox = vol (.events [ev3]) :: [] ∧ tget (0 : Word) 2 (bind 0x105 1).racks.bindings = 0x105
      ∧ 33 = (vol (.events [ev3])).group * 32 + evLane ev3)
    ∧ (bindToRack 0 = false ∧ bindToSnapshot 0 = false)
    ∧ (bindToRack 0x105 = true ∧ ((bind 0x105 1).rack (bindRack 0x105)).hubReserve < ((bind 0x105 1).rack (bindRack 0x105)).free)
    ∧ ((bind 0x105 2).rack (bindRack 0x105)).free ≤ ((bind 0x105 2).rack (bindRack 0x105)).hubReserve
    ∧ (bindToRack 0x200 = false ∧ bindToSnapshot 0x200 = true ∧ ((bind 0x200 0).world 33).st = .running
      ∧ ((bind 0x200 0).world 33).turnOf (fullTempo ((bind 0x200 0).world 33).t ((0 + evOffset ev3) % 2 ^ 20)) = 0
      ∧ ((bind 0x200 0).world 33).closed ≤ 0 ∧ 0 < ((bind 0x200 0).world 33).opened) := by decide

/-! ### The pool -/

/-- A READY package with window 0, cacheable or not, its link up or not, and more of the pool. -/
def pl (cacheable up : Bool) (x : Pool) : State :=
  { ready [.poolWin 0, .poolBlock] with
    hub := { links := [(0, { state := if up then 2 else 0 })] }
    pool := { x with windows := [(0, (BitVec.ofNat 64 (6 * 2 ^ 53 + (if cacheable then 2 ^ 53 else 0)), BitVec.ofNat 64 (2 ^ 12)))] } }
/-- Line 3 of window 0: a directory entry, and a cached copy. -/
def ent3 (st : Nat) (hs : List Nat) (tr : Option Trans) : DirEntry := { key := 3, win := 0, line := 3, st := st, holders := hs, trans := tr }
def copy3 (dirty : Bool) : CacheLine := { win := 0, line := 3, data := 9, dirty := dirty, excl := dirty }

theorem wit_PoolLinesMoveByTheDirectory_requests :
    ((ready []).poolCode 0 0 3 true = some .failedAccess)
    ∧ ((pl false false {}).poolCode 0 0 3 true = none ∧ (pl false false {}).cached 0 ((pl false false {}).poolKey 0 3) = none
      ∧ ((pl false false {}).cache 0).length < cacheCap 0 ∧ (pl false false {}).outstanding 0 ((pl false false {}).poolKey 0 3) = false
      ∧ (pl false false {}).agentLive 0 = true ∧ winCacheable ((pl false false {}).poolWin 0) = false ∧ (pl false false {}).poolUp = false)
    ∧ ((pl false true {}).poolUp = true ∧ (∀ p, p ∈ (pl false true {}).pool.ops → (pl false true {}).poolKey p.win p.line ≠ 3)
      ∧ ((pl false true {}).pool.planRead ((pl false true {}).poolWin 0) 0 3 false [0]).isSome = true
      ∧ ((pl false true {}).pool.planWrite ((pl false true {}).poolWin 0) 0 3 false [0] 7).isSome = true)
    ∧ (winCacheable ((pl true true {}).poolWin 0) = true ∧ (pl true true {}).poolCode 0 0 3 true = none ∧ (pl true true {}).pool.dir = []
      ∧ ((pl true true {}).pool.planRead ((pl true true {}).poolWin 0) 0 3 true [0]).isSome = true ∧ (pl true true {}).poolKey 0 3 = 3)
    ∧ ((pl true true { dir := [ent3 0 [] (some (.writeback 1 0))] }).entry 3 = some (ent3 0 [] (some (.writeback 1 0)))
      ∧ (ent3 0 [] (some (.writeback 1 0))).trans.isSome = true
      ∧ (pl true true { dir := [ent3 0 [] (some (.writeback 1 0))] }).outstanding 0 3 = false)
    ∧ ((pl true true { dir := [ent3 2 [1] none] }).entry 3 = some (ent3 2 [1] none) ∧ (ent3 2 [1] none).trans = none
      ∧ (pl true true { dir := [ent3 2 [1] none] }).transCount < 256 ∧ (pl true true { dir := [ent3 2 [1] none] }).outstanding 0 3 = false) := by
  and_intros <;> first | rfl | decide

theorem wit_PoolLinesMoveByTheDirectory_messages :
    ((pl true true { dir := [ent3 2 [0] none], caches := [(0, [copy3 true])] }).cached 0 3 = some (copy3 true) ∧ (copy3 true).dirty = true
      ∧ (pl true true { dir := [ent3 2 [0] none], caches := [(0, [copy3 true])] }).entry 3 = some (ent3 2 [0] none)
      ∧ (pl true true {}).domActive 3 = true ∧ (pl true true {}).pool.toAgent = [] ∧ (pl true true {}).pool.waitingReqs = []
      ∧ ((pl true true {}).pool.planWrite ((pl true true {}).poolWin 0) 0 3 true [] 7).isSome = true)
    ∧ ((pl true true { dir := [ent3 1 [0] none], caches := [(0, [copy3 false])] }).cached 0 3 = some (copy3 false) ∧ (copy3 false).dirty = false
      ∧ (pl true true { dir := [ent3 1 [0] none], caches := [(0, [copy3 false])] }).entry 3 = some (ent3 1 [0] none))
    ∧ (∀ m : DirMsg,
        (pl true true { toAgent := [(0, 0, 3, m)], caches := [(0, [copy3 true])] }).pool.toAgent = (0, 0, 3, m) :: [])
    ∧ ((pl true true { toDir := [(1, 0, 3, some 5)], dir := [ent3 2 [1] (some (.await [1] none (.req ⟨0, true⟩)))] }).pool.toDir = (1, 0, 3, some 5) :: []
      ∧ (pl true true { toDir := [(1, 0, 3, some 5)], dir := [ent3 2 [1] (some (.await [1] none (.req ⟨0, true⟩)))] }).entry 3
          = some (ent3 2 [1] (some (.await [1] none (.req ⟨0, true⟩)))) ∧ (DirReq.mk 0 true).excl = true ∧ (pl true true {}).agentLive 0 = true)
    ∧ (2 < 3 ∧ (pl true true {}).entry 3 = none) := by
  and_intros <;> first | exact List.find?_cons_of_pos (decide_eq_true rfl) | rfl | (intro m; rfl) | decide

/-- A read of line 3 that has its last line to read, or a write with its last line to write. -/
def opRead (cached : Bool) : PoolOp :=
  { win := 0, line := 3, cached := cached, agents := [0], grp := none, plan := 0, reads := [(0, 192)], got := [], new := none, writes := [] }
def opWrite (cached : Bool) : PoolOp :=
  { win := 0, line := 3, cached := cached, agents := [0], grp := none, plan := 0, reads := [], got := [], new := some 7, writes := [(0, 192, 7)] }

theorem wit_PoolOperationsComplete :
    (pl true true {}).nextOp 0 3 = none
    ∧ ((pl true true { ops := [{ opRead true with reads := [(0, 192), (1, 192)] }] }).nextOp 0 3 = some { opRead true with reads := [(0, 192), (1, 192)] })
    ∧ ((pl true true { ops := [opRead false] }).pool.ops = [opRead false] ∧ (pl true true {}).poolKey (opRead false).win (opRead false).line = 3
      ∧ (opRead false).agents = [0] ∧ (pl true true {}).agentLive 0 = true)
    ∧ ((pl true true { ops := [opRead true], dir := [ent3 0 [] (some (.read ⟨0, true⟩))] }).entry 3 = some (ent3 0 [] (some (.read ⟨0, true⟩)))
      ∧ (pl true true {}).pool.waitingReqs = [])
    ∧ ((pl true true { ops := [opWrite false] }).pool.ops = [opWrite false] ∧ (opWrite false).writes = [(0, 192, 7)] ∧ (opWrite false).new = some 7)
    ∧ ((pl true true { ops := [opWrite true], dir := [{ ent3 2 [0] (some (.writeback 0 7)) with queue := [⟨1, true⟩] }] }).entry 3
        = some { ent3 2 [0] (some (.writeback 0 7)) with queue := [⟨1, true⟩] } ∧ (pl true true {}).agentLive 1 = true)
    ∧ (pl true true {}).pool.linkLost = false
    ∧ ((pl true false { linkLost := true, caches := [(0, [copy3 true])] }).pool.linkLost = true
      ∧ (pl true false { linkLost := true, caches := [(0, [copy3 true])] }).poolUp = false
      ∧ (pl true false { linkLost := true, caches := [(0, [copy3 true])] }).pool.caches = [(0, [copy3 true])]
      ∧ (pl true false { linkLost := true, caches := [(0, [copy3 true])] }).pool.ops = []) := by
  and_intros <;> rfl

theorem wit_KeeperMovesTheStripe :
    ((pl true true { members := [4, 5, 6], spare := some 7 }).pool.ops = [] ∧ (pl true true { members := [4, 5, 6] }).pool.members[1]? = some 5
      ∧ 1 < 8 ∧ (pl true true { members := [4, 5, 6] }).pool.failed ≠ some 1 ∧ 1 ∉ (pl true true { members := [4, 5, 6] }).pool.failedMore
      ∧ (pl true true { members := [4, 5, 6], spare := some 7 }).pool.stripe = 0 ∧ (pl true true { members := [4, 5, 6], spare := some 7 }).pool.spare = some 7
      ∧ (pl true true { members := [4, 5, 6] }).pool.spare = none ∧ (pl true true { members := [4, 5, 6], stripe := 1 }).pool.stripe = 1
      ∧ (pl true true { members := [4, 5, 6], stripe := 2, spare := some 7 }).pool.stripe = 2
      ∧ (pl true true { members := [4, 5, 6], stripe := 2, spare := some 7 }).pool.members ≠ [])
    ∧ ((pl true true { members := [4, 5, 6], stripe := 2, role := 1 }).pool.role = 1 ∧ (pl true true {}).poolUp = true
      ∧ (pl true true {}).domActive 3 = true)
    ∧ ((pl true true { role := 2, leaseStale := 9, lease := 5 }).pool.role = 2 ∧ (pl true true { role := 2, leaseStale := 9, lease := 5 }).pool.leaseStale = 9
      ∧ 5 = (pl true true { role := 2, leaseStale := 9, lease := 5 }).pool.lease ∧ (pl true true { role := 2, leaseStale := 8 }).pool.leaseStale < 9)
    ∧ ((pl true true {}).isReady = true ∧ (pl true true {}).has 4 .poolBlock .admin = true ∧ 5 ≤ fb (5 : Word).toNat 5 0 ∧ fb (50 : Word).toNat 5 0 ≤ 50
      ∧ fb (4 : Word).toNat 5 0 < 5 ∧ 50 < fb (51 : Word).toNat 5 0 ∧ (0x702 : Word).getLsbD 1 = true ∧ (1 : Word).getLsbD 0 = true
      ∧ (pl true true { stripe := 3, role := 1 }).pool.stripe = 3 ∧ (pl true true {}).flt.stwReset = false
      ∧ ({ pl true true {} with flt := { stwReset := true } } : State).flt.stwReset = true)
    ∧ ((pl true true {}).has 4 .poolBlock .use = true ∧ (0x40 : Word).getLsbD 6 = true ∧ (pl true true {}).has 4 (.poolWin (fb (0x40 : Word).toNat 5 0)) .admin = true
      ∧ (pl true true { dir := [ent3 2 [0] none] }).pool.dir = [ent3 2 [0] none]
      ∧ inWindow ((pl true true {}).poolWin (fb (0x40 : Word).toNat 5 0)) (ent3 2 [0] none).key = true
      ∧ (ready [.poolBlock]).has 4 (.poolWin (fb (0x40 : Word).toNat 5 0)) .admin = false) := by decide

/-! ### Bring-up -/

/-- An NVM whose slot A holds this image. -/
def nvm1 (a b : Option Image) : Nvm :=
  { magic := 0x5244424C, version := 1, crc := 0, slotA := a, slotB := b, charterKey := { magic := 0, version := 0, key := 0 }, charters := [],
    overlay := none }
def env1 (n : Nvm) : BootEnv := { State.reset.boot.env with nvm := n }
/-- A boot that stands after a step, with a directive left or none. -/
def bootAt (p slot : Nat) (im : Image) (ds : List (Directive × Option (List Byte))) : State :=
  { State.reset with
    pkg := .rj128
    aon := { phase := .running }
    boot := { started := true, phase := p, slot := slot, image := some im, dirs := ds } }
/-- A directive that reads the pool. -/
def poolDir : Directive := { w0 := BitVec.ofNat 64 (1 + 16), w1 := 0, w2 := 0, verify := false, digest := 0 }

theorem wit_BootRunsFromReleaseToReady :
    (({ State.reset with aon := { phase := .porAsserted, railEn := true } } : State).aon.phase = .porAsserted
      ∧ ({ State.reset with aon := { phase := .porAsserted, railEn := true } } : State).aon.resetLow = false
      ∧ ({ State.reset with aon := { phase := .porAsserted, railEn := true } } : State).aon.fromDoldrums = false)
    ∧ ((bootAt 5 0 (im0 []) []).aon.phase = .running ∧ (bootAt 5 0 (im0 []) []).boot.started = true ∧ (bootAt 5 0 (im0 []) []).isReady = false
      ∧ isHost 4 = true ∧ isHost 1 = false ∧ (1 : Word).getLsbD 0 = true ∧ (0 : Word).getLsbD 0 = false)
    ∧ ((nvm1 (some (im0 [])) none).magic = 0x5244424C ∧ (nvm1 (some (im0 [])) none).version = 1 ∧ (nvm1 (some (im0 [])) none).overlay = none
      ∧ (nvm1 (some (im0 [])) none).charters = [] ∧ (im0 []).magic = 0x3149424C ∧ (im0 []).version = 1 ∧ (im0 []).headerSize = 512
      ∧ (∀ p ∈ [Package.rj2048, .rj128], (im0 []).packageMask.getLsbD (Package.code p - 1) = true) ∧ (im0 []).keySlot ≤ 1
      ∧ State.reset.fuses.revoke.getLsbD (im0 []).keySlot = false ∧ State.reset.fuses.floor ≤ (im0 []).secVersion
      ∧ (im0 []).secVersion < ({ State.reset.fuses with floor := 1 } : Fuses).floor)
    ∧ ((env1 { nvm1 none none with magic := 0 }).nvm.magic ≠ 0x5244424C)
    ∧ ((ready []).aon.phase = .running ∧ (ready []).isReady = true ∧ (ready []).has 4 .bootBlock .admin = false)
    ∧ ((bootAt 5 0 (im0 []) []).boot.st = 0 ∧ (bootAt 5 0 (im0 []) []).boot.phase = 5 ∧ (bootAt 5 0 (im0 []) []).stackIsLost 0 = false
      ∧ (bootAt 5 0 (im0 []) []).stackPresent 0 = true ∧ 0 ∉ (bootAt 5 0 (im0 []) []).boot.absentStacks
      ∧ ({ bootAt 5 0 (im0 []) [] with pkg := .rj2048 } : State).stackPresent 1 = true)
    ∧ ((bootAt 10 0 (im0 []) [(poolDir, none)]).boot.dirs = [(poolDir, none)] ∧ (bootAt 10 0 (im0 []) [(poolDir, none)]).sourceReady poolDir = false)
    ∧ (0 ∈ ({ bootAt 5 0 (im0 []) [] with boot := { (bootAt 5 0 (im0 []) []).boot with env := { State.reset.boot.env with dramFail := [0] } } } : State).boot.env.dramFail)
    ∧ ((bootAt 10 0 (im0 []) []).boot.dirs = []
      ∧ (∀ e ∈ (bootAt 10 0 (im0 []) []).tiles, (bootAt 10 0 (im0 []) []).tilePresent e.1 = true → (bootAt 10 0 (im0 []) []).columnOk e.1 = true)
      ∧ (bootAt 10 0 (im0 []) []).ports = [] ∧ (∀ e ∈ (bootAt 10 0 (im0 []) []).tmp.worlds, e.2.autostart = false)
      ∧ 0 < (({ bootAt 10 0 (im0 []) [] with racks := { racks := [(2, rackOf [])] } } : State).rack (im0 []).bootRack).free) := by
  and_intros <;> first | rfl | decide
theorem wit_BootRunsFromReleaseToReady_sections : ∀ x ∈ (im0 []).sections, ∀ y, x.data ≠ .trace y := by intro x h; cases h
/-- The directory and the key are good where the free functions answer the blank fuses and a CRC of 0. -/
theorem wit_BootRunsFromReleaseToReady_key (h : Config.directoryCrc (nvm1 (some (im0 [])) none) = 0) (k : Config.keyHash 0 = 0) :
    (nvm1 (some (im0 [])) none).crc = Config.directoryCrc (nvm1 (some (im0 [])) none)
      ∧ Config.keyHash (im0 []).key = Fuses.hash State.reset.fuses (im0 []).keySlot := ⟨h.symm, k⟩
/-- A load without a STEWARD section fails, from slot B as well. -/
theorem wit_BootRunsFromReleaseToReady_load :
    (bootAt 5 1 (im0 []) []).boot.env.dramFail = [] ∧ (bootAt 5 1 (im0 []) []).rollAndMap.capacityOk (im0 []) = true
      ∧ (bootAt 5 1 (im0 []) []).rollAndMap.boot.slot = 1 ∧ (bootAt 5 1 (im0 []) []).rollAndMap.load (im0 []) = .inr (none, 7) :=
  ⟨rfl, rfl, rfl, rfl⟩

/-! ### The whole machine -/

theorem wit_StepRunsTheFrontCommand : State.reset.pending = [] := rfl
theorem wit_ResetHoldsTheStatedValues : 8191 < 8192 ∧ 2047 < 2048 ∧ 15 < 16 ∧ 3 < 4 := by decide
theorem wit_StepsKeepFusesAndMemoryForm : step State.reset = .next State.reset ∧ State.reset.mem.wf = true := ⟨rfl, rfl⟩
theorem wit_GambitWordsRoundTrip : gambitTile (.gEnd 66) = some 66 ∧ decodeGambit 66 0 = some (.gNop 66) := by decide
theorem wit_CommandsChangeOnlyTheirParts : exec (.gNop 66) State.reset = .next State.reset := rfl

/-! ### Operands that the range checks refuse -/

theorem test_wf_checks_refuse :
    okMaster 64 = false ∧ okTile 2048 = false ∧ okWorld 8192 = false ∧ okRack 256 = false ∧ okSeq (2 ^ 32) = false ∧ okPort 16 = false
      ∧ okLink 8 = false ∧ okEndpoint 4096 = false ∧ okStack 16 = false ∧ okDomain 4096 = false ∧ okSize 64 = false ∧ okReadSize 2 = false
      ∧ okOffset 6 4 = false ∧ okOffset (2 ^ 26) 4 = false ∧ okIssuer 2 = false ∧ okIssuer 0x34 = false ∧ (LinkTarget.port 2).wf = false
      ∧ (LinkTarget.ld 16).wf = false := by decide
theorem test_wf_terms_refused :
    (Instr.advance 256 0).wf = false ∧ (Instr.advance 255 (2 ^ 32 - 1)).wf = true ∧ (Instr.push 64 0 0).wf = false ∧ (Instr.gEnd 2048).wf = false
      ∧ (Instr.presenceChange 16 true).wf = false ∧ (Instr.spanLinkUp 0 13).wf = false ∧ (Instr.fenceNotice 4096).wf = false
      ∧ (Instr.stackLost 16).wf = false ∧ (Instr.drainEnd 4096).wf = false ∧ (Instr.loRead 4 false (2 ^ 27) 4).wf = false ∧ (Instr.loRead 4 false 0 2).wf = false
      ∧ (Instr.turnOpen 8192).wf = false ∧ (Instr.spanFrame 0 { frame 4096 true with volleys := [] }).wf = false
      ∧ (Instr.spanFrame 0 { frame 0 true with volleys := [⟨⟨64, 0, 0⟩, ⟨0, 0, 0⟩, 0, false, 0, false, false, 0, 0, 0, 0, [0]⟩] }).wf = false := by
  decide

/-! ### Gambit words: the program of the worked example of 04_gambits.md, and fields bit by bit (R82, R83) -/

theorem test_decode_worked_example :
    [0x160052F0, 0x168156F0, 0x1700B0A0, 0x6A420000, 0x6AD24000, 0x5B620000, 0x74600000, 0x81000054, 0x13800000, 0x638E8000, 0x2A4E0000,
      0x704E0000, 0xA0000006, 0x184052F0, 0xB0000000].map (decodeGambit 360)
      = [some (.gLdf 360 4 20 23 true), some (.gLdf 360 5 85 23 true), some (.gLdf 360 6 44 5 false), some (.gLeak 360 4 4 1 0),
        some (.gLeak 360 5 5 1 1), some (.gDecz 360 6 6 1), some (.gCmpi 360 6 0), some (.gB 360 2 0x54), some (.gLdp 360 7 0),
        some (.gMulq 360 7 0 7 8), some (.gAdds 360 4 4 7), some (.gCmp 360 4 7), some (.gEmit 360 0 0 true true false),
        some (.gStf 360 4 20 23 true), some (.gEnd 360)] := by decide
/-- MOVI g3, −2; MOVHI g5, 0x8001; SHRI g1, g2, 31; MULQI g7, g6, −1, 16; RAND g2, 5; WAKE g4 and WAKE 9; and an undefined opcode. -/
theorem test_decode_formats :
    decodeGambit 1 0b000010_011_000_11111111111111111110#32 = some (.gMovi 1 3 (-2))
      ∧ decodeGambit 1 0b000011_101_000_00001000000000000001#32 = some (.gMovhi 1 5 0x8001)
      ∧ decodeGambit 1 0b010100_001_010_00000000000000011111#32 = some (.gShri 1 1 2 31)
      ∧ decodeGambit 1 0b011001_111_110_00011111111111110000#32 = some (.gMulqi 1 7 6 (-1) 16)
      ∧ decodeGambit 1 0b100100_010_000_00000000000000000101#32 = some (.gRand 1 2 5)
      ∧ decodeGambit 1 0b101001_000_100_00000000000000000000#32 = some (.gWake 1 4 false 0)
      ∧ decodeGambit 1 0b101001_000_000_00000000000001001001#32 = some (.gWake 1 0 true 9)
      ∧ decodeGambit 1 0b000111_000_000_00000000000000000000#32 = none := by decide

/-! ### Hand calculations of the spec's worked examples -/

/-- 04_gambits.md: LEAK of 49,152 over 3 tu at F[3] = 0xDC57 and of 16,384 at 0xFC30; MULQ of 2,600 by 0x1000 over 8. -/
theorem test_gambit_arithmetic :
    leak [0, 0, 0, 0xDC57] 49152 3 = 42305 ∧ leak [0, 0, 0, 0xFC30] 16384 3 = 16140 ∧ leak [0, 0, 0, 0xDC57] (-49152) 3 = -42305
      ∧ leakHc [0, 0, 0, 0xDC57] 3 = 3 ∧ mulq 2600 4096 8 = 41600 ∧ condHolds 3 (cmpN 83905 81676) false false = false := by decide
/-- 05_learning.md: A = 4,314 with the vote −67 over 2^10 turns word 0x2826 into 0x2C22 and leaves 0xDA; and the sums that make A. -/
theorem test_consolidation :
    let r : RuleSet := { params := BitVec.ofNat 64 (0x9C + 100 * 2 ^ 8 + 64 * 2 ^ 32 + 2 ^ 44), pot := [], dep := [] }
    accAdd (accAdd 0x000FFB25 (0xFDB00D8B % 2 ^ 20) (0xFDB00D8B / 2 ^ 20)) 2090 (-30) = 4314 + (4096 - 67) * 2 ^ 20
      ∧ consolidate (4314 + (4096 - 67) * 2 ^ 20) 0x2826 10 5 r = (0x2C22, 0xDA, false, true) := by decide
/-- 10_stream_ports.md: value 200 on PWM of 5,000 ticks is 3,922 ticks, and one ramp step of 4 leaves 196 and 3,843. -/
theorem test_pwm_and_ramp : outHigh (BitVec.ofNat 64 (2 ^ 13), 5000) 200 = 3922 ∧ rampValue 200 0 4 = 196
    ∧ outHigh (BitVec.ofNat 64 (2 ^ 13), 5000) 196 = 3843 := by decide
/-- 16_address_map.md: world 556, tile (5, 40), and its column. -/
theorem test_addresses : barBlock 0x818B00 = .world 556 ∧ barBlock 0x15A0530 = .tile 360 ∧ tileOff 360 0x530 = 0x15A0530
    ∧ epKey 5 40 = 360 ∧ colAddr 360 0 = 0x1680000000 ∧ stackOf 360 = 8 := by
  and_intros <;> rfl
/-- 13_faults_and_fencing.md: the record of the first absorbed event of tile (5, 40). -/
theorem test_loss_record :
    let v : Volley := { vol (.events []) with dst := ⟨0, 5, 40⟩, group := 17, tempoBase := 7097 }
    let i := eventItem v 0x0C0584D2 .failedFenced ⟨0, 5, 40⟩
    i.word0 = 0x01BBC005A0459110 ∧ i.b = 0x000001680C0584D2 ∧ evRow 0x0C0584D2 = 1234 ∧ evLane 0x0C0584D2 = 12 ∧ evOffset 0x0C0584D2 = 3 := by
  and_intros <;> rfl
/-- 07_racks_and_pips.md: the header of LEARN_CONSOLIDATED as seq 901 of rack 12 from M2C, and the EMPTY word. -/
theorem test_rack_words : stampHeader (recHeader 0x84 .done [0, 0]) 0x2C 12 901 = 0x000003850C0084B2 ∧ emptyWord 12 903 = 0x000003870C02FF00 := by decide
/-- 07_racks_and_pips.md: with 240 of period 64 turn 63 is released at count 0, turn 64 is held until 240. -/
theorem test_turn_gate : ((0 : Word) - 240).toNat = 0xFFFFFF10 ∧ ((240 : Word) - 240).toNat < 2 ^ 31 := by decide

/-! ### Single steps -/

/-- An empty queue advances the wall counter by 1 µs. -/
theorem test_step_idle : ∃ u, step (ready []) = .next u ∧ u.aon.wall = 1 := ⟨_, rfl, rfl⟩
/-- 02_tempo_turns_worlds.md: a backward encoder count raises the debt and leaves T; a forward one repays it. -/
theorem test_step_encoder :
    (∃ u, exec (.encoderCount 2 false) (pin33 { st := .running, srcKind := 3, srcIndex := 2, t := 9641, s := 9641, scaleMul := 1, scaleDiv := 1 }) = .next u
      ∧ (u.world 33).debt = 1 ∧ (u.world 33).t = 9641)
    ∧ ∃ u, exec (.encoderCount 2 true) (pin33 { st := .running, srcKind := 3, srcIndex := 2, t := 9641, s := 9641, debt := 3, scaleMul := 1, scaleDiv := 1 }) = .next u
      ∧ (u.world 33).debt = 2 ∧ (u.world 33).t = 9641 := ⟨⟨_, rfl, rfl, rfl⟩, _, rfl, rfl, rfl⟩
/-- SUB wraps, ADDS saturates to 24 bits, and a source may be the destination. -/
theorem test_step_gambit :
    (∃ u r, exec (.gSub 66 1 1 2) (gb (.gSub 66 1 1 2) { run1 with g := [0, 0, 1, 0, 0, 0, 0, 0] }) = .next u ∧ (u.tile 66).run = some r
      ∧ r.g = [0, 0xFFFFFFFF, 1, 0, 0, 0, 0, 0])
    ∧ ∃ u r, exec (.gAdds 66 2 2 2) (gb (.gAdds 66 2 2 2) { run1 with g := [0, 0, 0x7FFFFF, 0, 0, 0, 0, 0] }) = .next u ∧ (u.tile 66).run = some r
      ∧ r.g = [0, 0, 0x7FFFFF, 0, 0, 0, 0, 0] := ⟨⟨_, _, rfl, rfl, rfl⟩, _, _, rfl, rfl, rfl⟩
/-- Bytes lie lowest address first, and writing the value an unlisted byte reads as removes the entry. -/
theorem test_memory_bytes : (Memory.writeLE {} 64 2 0x0201).cells = [(64, 1), (65, 2)] ∧ (Memory.writeLE {} 64 2 0x0201).readLE 64 2 = 0x0201
    ∧ ((Memory.writeLE {} 64 2 0x0201).write 65 0).cells = [(64, 1)] := by decide
/-- POP of rack 12 takes the oldest message. -/
theorem test_step_pop :
    let s : State := { ready [.rack 12] with racks := { racks := [(12, { rackOf [[0xA], [0xB]] with next := 903 })] } }
    ∃ u, exec (.pop 4 12) s = .next u ∧ (u.rack 12).msgs = [[0xB]] := ⟨_, rfl, rfl⟩

end Sys2Proof.Tests
end

section
/-! PROOF. The gambit instructions that compare, branch and store a field (R83, R84): each is one fetched step whose run goes on,
so each follows from `gExec_goOn` and what its own effect leaves in the run. -/

namespace Sys2Proof.Machine

open Sys2Proof

/-- R84: the eight conditions of the flags N, Z and I. -/
theorem condHolds_table (n z i : Bool) :
    condHolds 0 n z i = true ∧ condHolds 1 n z i = z ∧ condHolds 2 n z i = !z ∧ condHolds 3 n z i = n ∧ condHolds 4 n z i = !n
      ∧ condHolds 5 n z i = (!n && !z) ∧ condHolds 6 n z i = (n || z) ∧ condHolds 7 n z i = i :=
  ⟨rfl, rfl, rfl, rfl, rfl, rfl, rfl, rfl⟩

@[simp] theorem sext17_toInt (im : BitVec 17) : (sext17 im).toInt = im.toInt :=
  BitVec.toInt_signExtend_of_le (by decide)

theorem cmpN_eq_sub_neg (a b : Word) : cmpN a b = decide (a.toInt - b.toInt < 0) :=
  decide_eq_decide.mpr sub_neg.symm

theorem cmpZ_eq_sub_eq_zero (a b : Word) : cmpZ a b = decide (a.toInt - b.toInt = 0) :=
  decide_eq_decide.mpr (BitVec.toInt_inj.symm.trans sub_eq_zero.symm)

/-- Run r after it has compared the values a and b: the flags of the exact difference, no register written (R83). -/
def Run.compared (r : Run) (a b : Int) : Run :=
  { r.next 1 with n := decide (a - b < 0), z := decide (a - b = 0) }

theorem step_cmpFlags (r : Run) (a b : Word) :
    ({ r with steps := r.steps + 1, hc := r.hc + 1, n := cmpN a b, z := cmpZ a b } : Run).step = .goOn (r.compared a.toInt b.toInt) := by
  rw [cmpN_eq_sub_neg, cmpZ_eq_sub_eq_zero]; rfl

/-! ### The meaning that each of the four instructions has in `exec` -/

theorem exec_gCmp (t : Nat) (ra rb : BitVec 3) (s : State) : exec (.gCmp t ra rb) s = execGCmp t ra rb s := rfl
theorem exec_gCmpi (t : Nat) (ra : BitVec 3) (im : BitVec 17) (s : State) : exec (.gCmpi t ra im) s = execGCmpi t ra im s := rfl
theorem exec_gB (t : Nat) (cond : BitVec 3) (target : BitVec 9) (s : State) :
    exec (.gB t cond target) s = execGB t cond target s := rfl
theorem exec_gStf (t : Nat) (ra : BitVec 3) (pos : BitVec 7) (wm1 : BitVec 5) (sat : Bool) (s : State) :
    exec (.gStf t ra pos wm1 sat) s = execGStf t ra pos wm1 sat s := rfl

/-! ### What the step of a fetched instruction leaves -/

section Fetch
variable {s : State} {t : Nat} {r : Run}

theorem exec_gCmp_goesOn {ra rb : BitVec 3} (h : Fetched s t (.gCmp t ra rb) r) :
    ∃ u, exec (.gCmp t ra rb) s = .next u ∧ RunGoesOn s u t (r.compared (r.reg ra).toInt (r.reg rb).toInt) := by
  rw [exec_gCmp]
  exact gExec_goOn h (step_cmpFlags r (r.reg ra) (r.reg rb))

theorem exec_gCmpi_goesOn {ra : BitVec 3} {im : BitVec 17} (h : Fetched s t (.gCmpi t ra im) r) :
    ∃ u, exec (.gCmpi t ra im) s = .next u ∧ RunGoesOn s u t (r.compared (r.reg ra).toInt im.toInt) := by
  rw [exec_gCmpi, ← sext17_toInt im]
  exact gExec_goOn h (step_cmpFlags r (r.reg ra) (sext17 im))

theorem exec_gB_taken {cond : BitVec 3} {target : BitVec 9} (h : Fetched s t (.gB t cond target) r)
    (hc : condHolds cond r.n r.z r.i = true) :
    ∃ u, exec (.gB t cond target) s = .next u ∧ RunGoesOn s u t { r.next 2 with pc := target.toNat } := by
  rw [exec_gB]
  exact gExec_goOn h (by simp only [hc, if_true]; rfl)

theorem exec_gB_notTaken {cond : BitVec 3} {target : BitVec 9} (h : Fetched s t (.gB t cond target) r)
    (hc : condHolds cond r.n r.z r.i = false) :
    ∃ u, exec (.gB t cond target) s = .next u ∧ RunGoesOn s u t (r.next 1) := by
  rw [exec_gB]
  exact gExec_goOn h (by simp only [hc, Bool.false_eq_true, if_false]; rfl)

theorem exec_gStf_goesOn {ra : BitVec 3} {pos : BitVec 7} {wm1 : BitVec 5} {sat : Bool}
    (h : Fetched s t (.gStf t ra pos wm1 sat) r) :
    ∃ u, exec (.gStf t ra pos wm1 sat) s = .next u
      ∧ RunGoesOn s u t { r.next 1 with buf := stField r.buf pos.toNat (wm1.toNat + 1) (r.reg ra) sat } := by
  rw [exec_gStf]
  exact gExec_goOn h rfl

end Fetch

/-- Settles O22, by the table of conditions and the step lemmas of CMP, CMPI, B (taken and not) and STF. -/
theorem gambitComparesBranchesAndStores : Obligations.GambitComparesBranchesAndStores := by
  unfold Obligations.GambitComparesBranchesAndStores
  intro s t r ra rb cond im target pos wm1 sat n z i
  obtain ⟨hal, heq, hne, hlt, hge, hgt, hle, hin⟩ := condHolds_table n z i
  exact ⟨hal, heq, hne, hlt, hge, hgt, hle, hin, exec_gCmp_goesOn, exec_gCmpi_goesOn, exec_gB_taken, exec_gB_notTaken,
    exec_gStf_goesOn⟩

end Sys2Proof.Machine
end

section
/-! PROOF. POP, PEEK, LATCH and RACK_ACK of a rack window (R158, R159): an access the window lets through, whose rack holds no
unreadable entry (R310), is one trace record, at most one removal from the rack, and the answer to the master. -/

namespace Sys2Proof.Machine

open Sys2Proof

/-! ### What the operations of a rack read leave -/

@[simp] theorem rackDrop_rack (s : State) (rk : Nat) :
    (s.rackDrop rk).rack rk = { s.rack rk with msgs := (s.rack rk).msgs.tail } :=
  modRack_rack s rk _

@[simp] theorem rackDrop_master (s : State) (rk m : Nat) : (s.rackDrop rk).master m = s.master m := rfl

@[simp] theorem traceRead_rack (s : State) (rk op m : Nat) (msg : List DWord) (j : Nat) :
    (s.traceRead rk op m msg).rack j = s.rack j :=
  traceRead_ok.rack_eq rfl j

@[simp] theorem latchMsg_rack (s : State) (m win : Nat) (msg : List DWord) (j : Nat) :
    (s.latchMsg m win msg).rack j = s.rack j :=
  latchMsg_ok.rack_eq rfl j

/-- R158: a POP of a window keeps what it returns in the reader's latch of that window. -/
theorem latchMsg_master_self (s : State) (m win : Nat) (msg : List DWord) :
    tget [] win ((s.latchMsg m win msg).master m).latches = padMsg msg
      ∧ ((s.latchMsg m win msg).master m).resp.words = padMsg msg := by
  unfold State.latchMsg
  simp only [respond_master_self, modMaster_master, tget_tset_same, and_self]

/-- R310: a rack without an unreadable entry is ready as it stands. -/
theorem rackReady_eq_self {s : State} {rk : Nat} (hbad : (s.rack rk).bad = []) : s.rackReady rk = s := by
  unfold State.rackReady
  cases hm : (s.rack rk).msgs with
  | nil => rfl
  | cons h r => simp [State.rackScrub, hm, hbad]

theorem peekMsg_congr {s t : State} {rk : Nat} (h : t.rack rk = s.rack rk) : peekMsg t rk = peekMsg s rk := by
  unfold peekMsg
  rw [h]

/-- R149, R155, R206, R263: what lets an access to a rack window through. -/
theorem rackRefusal_eq_none {s : State} {m rk : Nat} {need : Right} (hready : s.isReady = true)
    (hright : s.has m (.rack rk) need = true) (hen : (s.rack rk).enabled = true) (hcmd : s.isCmdRack rk = false) :
    rackRefusal s m rk need false = none := by
  simp [rackRefusal, hready, hright, hen, hcmd]

/-! ### The three results of an ACK (R159) -/

theorem ackResult_done {r : Rack} {v : Word} (h : (v - r.headSeq).toNat < r.msgs.length) :
    ackResult r v = (.done, (v - r.headSeq).toNat + 1) :=
  if_pos h

theorem ackResult_notHeld {r : Rack} {v : Word} (h : r.msgs.length ≤ (v - r.headSeq).toNat) :
    ackResult r v = (if (r.headSeq - 1 - v).toNat < 2 ^ 31 then .repeated else .failedAccess, 0) := by
  unfold ackResult
  rw [if_neg (Nat.not_lt.mpr h)]
  split <;> rfl

/-! ### The accesses that the window lets through -/

section Access
variable {s : State} {m rk : Nat}

theorem exec_pop_head {h : List DWord} {r : List (List DWord)} (hopen : rackRefusal s m rk .use false = none)
    (hbad : (s.rack rk).bad = []) (hmsgs : (s.rack rk).msgs = h :: r) :
    exec (.pop m rk) s = .next (((s.traceRead rk 2 m h).rackDrop rk).latchMsg m rk h) := by
  change execPop m rk s = _
  simp only [execPop, hopen, rackReady_eq_self hbad, traceRead_rack, hmsgs, List.headD_cons]

theorem exec_pop_empty (hopen : rackRefusal s m rk .use false = none) (hbad : (s.rack rk).bad = [])
    (hmsgs : (s.rack rk).msgs = []) :
    exec (.pop m rk) s = .next ((s.traceRead rk 2 m []).latchMsg m rk [emptyWord rk (s.rack rk).next]) := by
  change execPop m rk s = _
  simp only [execPop, hopen, rackReady_eq_self hbad, traceRead_rack, hmsgs, List.headD_nil]

theorem exec_peek_open (hopen : rackRefusal s m rk .read false = none) (hbad : (s.rack rk).bad = []) :
    exec (.peek m rk) s =
      .next ((s.traceRead rk 3 m ((s.rack rk).msgs.headD [])).respond m (padMsg (peekMsg s rk))) := by
  change execPeek m rk s = _
  simp only [execPeek, hopen, rackReady_eq_self hbad, peekMsg_congr (traceRead_rack s rk 3 m _ rk)]

theorem exec_latch_open (hopen : rackRefusal s m rk .read false = none) :
    exec (.latch m rk) s = .next (s.respond m (padMsg (tget [] rk (s.master m).latches))) := by
  change execLatch m rk s = _
  simp only [execLatch, hopen]

/-- RACK_ACK removes as many messages as `ackResult` says, from this rack alone, and latches its code in RACK_RES. -/
theorem exec_rackAck_open (hopen : rackRefusal s m rk .use false = none) (v : Word) :
    ∃ t, exec (.rackAck m rk v) s = .next t
      ∧ (∀ j, j ≠ rk → t.rack j = s.rack j)
      ∧ t.rack rk = { s.rack rk with msgs := (s.rack rk).msgs.drop (ackResult (s.rack rk) v).2 }
      ∧ (tget {} rk (t.master m).rackRes).ack = (ackResult (s.rack rk) v).1 := by
  change ∃ t, execRackAck m rk v s = .next t ∧ _
  simp only [execRackAck, hopen]
  refine ⟨_, rfl, fun j hj => ?_, ?_, ?_⟩
  · rw [respond_rack, modMaster_rack, modRack_rack_other _ hj, traceRack_rack]
  · rw [respond_rack, modMaster_rack, modRack_rack, traceRack_rack]
  · simp only [respond_master_self, modMaster_master, tget_tmod_same]

end Access

/-! ### The obligation's clauses, each for one access -/

section Clauses
variable {s : State} {m rk : Nat}

/-- R158: POP takes the oldest message out of the rack and into the reader's latch. -/
theorem pop_takes_head {h : List DWord} {r : List (List DWord)} (hopen : rackRefusal s m rk .use false = none)
    (hbad : (s.rack rk).bad = []) (hmsgs : (s.rack rk).msgs = h :: r) :
    ∃ t, exec (.pop m rk) s = .next t
      ∧ (t.rack rk).msgs = r ∧ tget [] rk (t.master m).latches = padMsg h ∧ (t.master m).resp.words = padMsg h :=
  ⟨_, exec_pop_head hopen hbad hmsgs,
    by rw [latchMsg_rack, rackDrop_rack, traceRead_rack, hmsgs, List.tail_cons],
    latchMsg_master_self _ m rk h⟩

/-- R158: POP of an empty rack answers the EMPTY word and leaves the rack. -/
theorem pop_answers_emptyWord (hopen : rackRefusal s m rk .use false = none) (hbad : (s.rack rk).bad = [])
    (hmsgs : (s.rack rk).msgs = []) :
    ∃ t, exec (.pop m rk) s = .next t
      ∧ t.rack rk = s.rack rk ∧ (t.master m).resp.words = padMsg [emptyWord rk (s.rack rk).next] :=
  ⟨_, exec_pop_empty hopen hbad hmsgs, by rw [latchMsg_rack, traceRead_rack], (latchMsg_master_self _ m rk _).2⟩

/-- R158: PEEK answers the head, or the EMPTY word, and leaves the rack. -/
theorem peek_keeps_rack (hopen : rackRefusal s m rk .read false = none) (hbad : (s.rack rk).bad = []) :
    ∃ t, exec (.peek m rk) s = .next t
      ∧ (t.master m).resp.words = padMsg (peekMsg s rk) ∧ (t.master m).resp.code = .done ∧ t.rack rk = s.rack rk :=
  ⟨_, exec_peek_open hopen hbad, by rw [respond_master_self], by rw [respond_master_self],
    by rw [respond_rack, traceRead_rack]⟩

/-- R158: LATCH answers what the reader's latch holds and leaves the rack. -/
theorem latch_keeps_rack (hopen : rackRefusal s m rk .read false = none) :
    ∃ t, exec (.latch m rk) s = .next t
      ∧ (t.master m).resp.words = padMsg (tget [] rk (s.master m).latches) ∧ t.rack rk = s.rack rk :=
  ⟨_, exec_latch_open hopen, by rw [respond_master_self], by rw [respond_rack]⟩

/-- R159: RACK_ACK of v removes the messages from the head through v, or none where v names no message held. -/
theorem rackAck_removes_through (hopen : rackRefusal s m rk .use false = none) {v h : Word} (hh : h = (s.rack rk).headSeq) :
    ∃ t, exec (.rackAck m rk v) s = .next t
      ∧ (∀ j, j ≠ rk → t.rack j = s.rack j)
      ∧ ((v - h).toNat < (s.rack rk).msgs.length →
        t.rack rk = { s.rack rk with msgs := (s.rack rk).msgs.drop ((v - h).toNat + 1) }
        ∧ (tget {} rk (t.master m).rackRes).ack = .done)
      ∧ ((s.rack rk).msgs.length ≤ (v - h).toNat → t.rack rk = s.rack rk
        ∧ (tget {} rk (t.master m).rackRes).ack = (if (h - 1 - v).toNat < 2 ^ 31 then .repeated else .failedAccess)) := by
  subst hh
  obtain ⟨t, hexec, hother, hrack, hack⟩ := exec_rackAck_open hopen v
  refine ⟨t, hexec, hother, fun hheld => ?_, fun hnot => ?_⟩
  · rw [ackResult_done hheld] at hrack hack
    exact ⟨hrack, hack⟩
  · rw [ackResult_notHeld hnot] at hrack hack
    exact ⟨hrack, hack⟩

end Clauses

/-- Settles O2: the window lets each access through, so each clause is the lemma about that access. -/
theorem rackReadsTakeTheHead : Obligations.RackReadsTakeTheHead := by
  unfold Obligations.RackReadsTakeTheHead
  intro s m rk hready hen hcmd hbad
  refine ⟨fun huse => ?_, fun hread => ?_⟩
  · have hopen : rackRefusal s m rk .use false = none := rackRefusal_eq_none hready huse hen hcmd
    exact ⟨fun h r hmsgs => pop_takes_head hopen hbad hmsgs, pop_answers_emptyWord hopen hbad,
      fun v h hh => rackAck_removes_through hopen hh⟩
  · have hopen : rackRefusal s m rk .read false = none := rackRefusal_eq_none hready hread hen hcmd
    exact ⟨peek_keeps_rack hopen hbad, latch_keeps_rack hopen⟩

end Sys2Proof.Machine
end

section
/-! PROOF. The fixed rules of rights (R204), and register reads of BAR0 and BAR2 (R162, R199, R200, R351): which one returns words at
once, what it latches or releases, and how it is refused. -/

namespace Sys2Proof.Machine

open Sys2Proof

/-! ### The fixed rules (R204): they override whatever right stands below them -/

section FixedRules
variable (s : State)

/-! The masters with a fixed rule: 1 is the steward, 0 the boot engine, 2 the trace unit, 0x3C to 0x3F are reserved. -/

theorem fixedRight_steward (r : Right) : s.fixedRight 1 r = .admin := rfl

theorem fixedRight_bootEngine (r : Right) : s.fixedRight 0 r = if s.isReady then .none else .admin := rfl

theorem fixedRight_traceUnit_rank_le_one (r : Right) : (s.fixedRight 2 r).rank ≤ 1 := by
  have hcap : s.fixedRight 2 r = if 1 < r.rank then .read else r := by cases r <;> rfl
  rw [hcap]
  split
  · exact le_refl 1
  · omega

theorem fixedRight_reservedMaster {m : Nat} (hm : 0x3C ≤ m) (r : Right) : s.fixedRight m r = .none := by
  unfold State.fixedRight
  rw [if_neg (by omega), if_neg (by omega), if_pos hm]

/-- No fixed rule speaks of a master between the trace unit (2) and the reserved ids (0x3C on). -/
theorem fixedRight_eq_self {m : Nat} (hlo : 3 ≤ m) (hhi : m < 0x3C) (r : Right) : s.fixedRight m r = r := by
  have hne : m ≠ 2 := by omega
  unfold State.fixedRight
  rw [if_neg (by omega), if_neg (by omega), if_neg (by omega)]
  simp [hne]

/-- R204: every right on a target has gone through the fixed rules last. -/
theorem right_eq_fixedRight (m : Nat) (tg : Target) : ∃ r, s.right m tg = s.fixedRight m r := by
  cases tg with
  | world w =>
    unfold State.right
    dsimp only
    split
    · exact ⟨_, rfl⟩
    · split <;> exact ⟨_, rfl⟩
  | _ => exact ⟨_, rfl⟩

theorem right_world_of_owner {m w : Nat} (hlim : w < s.worldLimit) (hst : (s.world w).st ≠ .free)
    (hown : (s.world w).owner = m) : s.right m (.world w) = s.fixedRight m .admin := by
  simp [State.right, Nat.not_le.mpr hlim, hst, hown]

theorem pipRight_of_owner {m n : Nat} (hlisted : (tfind n s.pips.pips).isSome = true) (hown : (s.pip n).owner = m) :
    s.pipRight m n = s.fixedRight m .admin := by
  simp [State.pipRight, hlisted, hown]

/-- R204: the four fixed rules, and ADMIN for the owner of a live world or of a pip. -/
theorem fixed_rules_override_tables (m : Nat) (tg : Target) :
    s.right 1 tg = .admin ∧ s.right 0 tg = (if s.isReady then .none else .admin)
      ∧ (s.right 2 tg).rank ≤ 1 ∧ (0x3C ≤ m → s.right m tg = .none)
      ∧ (3 ≤ m → m < 0x3C → (∀ w, tg = .world w → w < s.worldLimit → (s.world w).st ≠ .free → (s.world w).owner = m →
          s.right m tg = .admin)
        ∧ ∀ n, (tfind n s.pips.pips).isSome = true → (s.pip n).owner = m → s.pipRight m n = .admin) := by
  obtain ⟨r1, h1⟩ := right_eq_fixedRight s 1 tg
  obtain ⟨r0, h0⟩ := right_eq_fixedRight s 0 tg
  obtain ⟨r2, h2⟩ := right_eq_fixedRight s 2 tg
  obtain ⟨r, h⟩ := right_eq_fixedRight s m tg
  refine ⟨h1.trans (fixedRight_steward s r1), h0.trans (fixedRight_bootEngine s r0),
    h2 ▸ fixedRight_traceUnit_rank_le_one s r2, fun hm => h.trans (fixedRight_reservedMaster s hm r),
    fun hlo hhi => ⟨?_, ?_⟩⟩
  · rintro w rfl hlim hst hown
    rw [right_world_of_owner s hlim hst hown, fixedRight_eq_self s hlo hhi]
  · intro n hlisted hown
    rw [pipRight_of_owner s hlisted hown, fixedRight_eq_self s hlo hhi]

end FixedRules

/-! ### What an allowed read leaves -/

theorem barRead_of_not_tile {s : State} {m off size : Nat} (h : ∀ t, barBlock off ≠ .tile t) :
    s.barRead m off size
      = (s.loLatch m off size (BitVec.ofNat 32 (s.regWord m (off + 4)))).respond m (s.readAt m off size) := by
  unfold State.barRead
  split
  case h_1 t ht => exact absurd ht (h t)
  case h_2 => rfl

/-- R351: a 4-byte read of a LO register latches the value that its HI register has for the reader. -/
theorem tfind_loLatch {s : State} {m off : Nat} {hi : Word} (hlo : loReg off = true) :
    tfind off ((s.loLatch m off 4 hi).master m).loLatch = some hi := by
  simp [State.loLatch, hlo, tfind_tset]

/-! ### LO_READ of BAR0 -/

section LoRead
variable {s : State} {m off size : Nat} (hcmd : s.isReady = true → s.cmdRegion m off = false)
  (hhi : size = 4 → hiReg off = false) (hown : ownRead off size = false)
include hcmd hhi hown

/-- A read without a row of its own is refused with what `readRefusal` says, or performed. -/
theorem exec_loRead_bar0 :
    exec (.loRead m false off size) s
      = .next ((s.readRefusal m off size).elim (s.barRead m off size) (fun c => s.refuse m false off c true)) := by
  change execLoRead m false off size s = _
  unfold execLoRead
  rw [if_neg Bool.false_ne_true, if_neg (by simpa [hown] using hhi), if_neg (by simpa using hcmd)]
  cases s.readRefusal m off size <;> rfl

theorem exec_loRead_refused {c : Code} (hsome : s.readRefusal m off size = some c) :
    exec (.loRead m false off size) s = .next (s.refuse m false off c true) := by
  rw [exec_loRead_bar0 hcmd hhi hown, hsome, Option.elim_some]

/-- R351, R353: outside the tile windows an allowed read answers at once, and at a LO register latches the HI register. -/
theorem loRead_answers_and_latches (htile : ∀ t, barBlock off ≠ .tile t) (hnone : s.readRefusal m off size = none) :
    ∃ u, exec (.loRead m false off size) s = .next u
      ∧ Answered u m (s.readAt m off size)
      ∧ (loReg off = true → size = 4 →
        tfind off (u.master m).loLatch = some (BitVec.ofNat 32 (s.regWord m (off + 4)))) := by
  rw [exec_loRead_bar0 hcmd hhi hown, hnone, Option.elim_none, barRead_of_not_tile htile]
  refine ⟨_, rfl, answered _ m _, ?_⟩
  rintro hlo rfl
  rw [respond_master_self]
  exact tfind_loLatch hlo

end LoRead

/-! ### LO_READ of BAR2, the result window -/

/-- What a result read answers to a master without READ on the slot's world (R162): a header with FAILED_ACCESS and no more. -/
def failedHeader (off size : Nat) : List DWord :=
  readWords (fun i => if i = 0 then slotHead 0 .failedAccess 0 0 else 0) (off % 0x1000) size

section SlotRead
variable {s : State} {m off size : Nat} (hready : s.isReady = true)
  (hsize : size = 4 ∨ size = 8 ∨ size = 16 ∨ size = 32 ∨ size = 64) (halign : off % size = 0) (hend : off + size ≤ 2 ^ 27)
include hready hsize halign hend

/-- R162: an aligned result read of a READY package turns on READ on the slot's world alone. -/
theorem slotRead_eq :
    s.slotRead m off size = if s.has m (.world (off / 0x4000)) .read then
      s.respond m (readWords (s.slotWord (off / 0x4000) (off / 0x1000 % 4)) (off % 0x1000) size)
    else (s.refuse m true off .failedAccess true).modMaster m (fun x =>
      { x with resp := { words := failedHeader off size, code := .failedAccess, poison := false } }) := by
  have hform : ((size = 4 || size = 8 || size = 16 || size = 32 || size = 64) && off % size = 0
      && off + size ≤ 2 ^ 27 : Bool) = true := by
    simpa only [Bool.and_eq_true, Bool.or_eq_true, decide_eq_true_eq, or_assoc, and_assoc] using ⟨hsize, halign, hend⟩
  simp only [State.slotRead, hform, hready, Bool.not_true, Bool.false_eq_true, if_false]
  cases s.has m (.world (off / 0x4000)) .read <;> rfl

/-- R162, R199: a result read answers the slot's words, or to a master without READ a FAILED_ACCESS header that is not poison. -/
theorem loRead_bar2_answers_slot_or_header :
    ∃ u, exec (.loRead m true off size) s = .next u
      ∧ (s.has m (.world (off / 0x4000)) .read = true →
        Answered u m (readWords (s.slotWord (off / 0x4000) (off / 0x1000 % 4)) (off % 0x1000) size))
      ∧ (s.has m (.world (off / 0x4000)) .read = false → (u.master m).resp.code = .failedAccess
        ∧ (u.master m).resp.poison = false
        ∧ (u.master m).resp.words = failedHeader off size) := by
  refine ⟨s.slotRead m off size, rfl, fun hread => ?_, fun hread => ?_⟩
  · rw [slotRead_eq hready hsize halign hend, if_pos hread]
    exact answered s m _
  · rw [slotRead_eq hready hsize halign hend, if_neg (ne_true_of_eq_false hread), modMaster_master]
    exact ⟨rfl, rfl, rfl⟩

end SlotRead

/-! ### HI_READ -/

section HiRead
variable {s : State} {m h : Nat} (hhi : hiReg h = true)
include hhi

theorem exec_hiRead_latched {v : Word} (hnone : s.readRefusal m h 4 = none)
    (hv : tfind (h - 4) (s.master m).loLatch = some v) :
    exec (.hiRead m h) s
      = .next ((s.modMaster m (fun x => { x with loLatch := tdel (h - 4) x.loLatch })).respond m [v.zeroExtend 64]) := by
  change execHiRead m h s = _
  simp only [execHiRead, hhi, hnone, hv, Bool.not_true, Bool.false_eq_true, if_false]

theorem exec_hiRead_refused {c : Code} (hsome : s.readRefusal m h 4 = some c) :
    exec (.hiRead m h) s = .next (s.refuse m false h c true) := by
  change execHiRead m h s = _
  simp only [execHiRead, hhi, hsome, Bool.not_true, Bool.false_eq_true, if_false]

/-- R351: a HI read returns the latched word and releases the latch. -/
theorem hiRead_returns_and_releases_latch {v : Word} (hnone : s.readRefusal m h 4 = none)
    (hv : tfind (h - 4) (s.master m).loLatch = some v) :
    ∃ u, exec (.hiRead m h) s = .next u ∧ Answered u m [v.zeroExtend 64] ∧ tfind (h - 4) (u.master m).loLatch = none := by
  refine ⟨_, exec_hiRead_latched hhi hnone hv, answered _ m _, ?_⟩
  rw [respond_master_self, modMaster_master]
  exact tfind_tdel (h - 4) _

end HiRead

/-- Settles O24: the fixed rules, then each kind of read by the lemma about it, a refused one by `refused`. -/
theorem registerReadsReturnLatchOrRefuse : Obligations.RegisterReadsReturnLatchOrRefuse := by
  unfold Obligations.RegisterReadsReturnLatchOrRefuse
  refine ⟨fixed_rules_override_tables, fun s m off size hcmd hhi hown => ⟨?allowed, ?refused, ?slot, ?latched, ?hiRefused⟩⟩
  case allowed => exact loRead_answers_and_latches hcmd hhi hown
  case refused => exact fun c hsome => ⟨_, exec_loRead_refused hcmd hhi hown hsome, refused s m off false c true⟩
  case slot => exact loRead_bar2_answers_slot_or_header
  case latched => exact fun h v hh => hiRead_returns_and_releases_latch hh
  case hiRefused => exact fun h c hh hsome => ⟨_, exec_hiRead_refused hh hsome, refused s m h false c true⟩

end Sys2Proof.Machine
end

section
/-! PROOF. The frame and the safety of every command: `exec` has one arm for each command, and each arm's own lemma says what its
meaning may change and what it keeps. -/

namespace Sys2Proof.Machine

open Sys2Proof

/-- The bit of a part is its place in the list of all parts. -/
theorem allParts_getElem?_idx (p : Part) : allParts[p.idx]? = some p := by
  cases p <;> rfl

theorem Part.idx_injective {p q : Part} (h : p.idx = q.idx) : p = q :=
  Option.some.inj (by rw [← allParts_getElem?_idx p, h, allParts_getElem?_idx])

theorem foldl_setBits_testBit (l : List Part) (a i : Nat) :
    (l.foldl (fun a p => a ||| 2 ^ p.idx) a).testBit i = (a.testBit i || l.any (fun p => decide (p.idx = i))) := by
  induction l generalizing a with
  | nil => simp
  | cons p r ih => rw [List.foldl_cons, ih, Nat.testBit_or, Nat.testBit_two_pow, List.any_cons, Bool.or_assoc]

theorem testBit_partSet_of_not_mem {l : List Part} {p : Part} (h : p ∉ l) : (partSet l).testBit p.idx = false := by
  unfold partSet
  rw [foldl_setBits_testBit, Nat.zero_testBit, Bool.false_or, List.any_eq_false]
  intro q hq he
  exact h (Part.idx_injective (of_decide_eq_true he) ▸ hq)

theorem OnlyM.only {l : List Part} {s t : State} (h : OnlyM (partSet l) s t) : Only l s t :=
  fun p hp => h p (testBit_partSet_of_not_mem hp)

/-- Each command keeps to its frame: the frame lemma of its meaning, whose parts its list in `mayChange` names. -/
theorem exec_keepsToFrame (c : Instr) (s : State) : OnlyO (partSet (mayChange c)) s (exec c s) := by
  cases c with
  | advance => exact only_execAdvance (OnlyM.refl _ s) (by simp only [mayChange]; decide)
  | groupAdvance => exact only_execGroupAdvance (OnlyM.refl _ s) (by simp only [mayChange]; decide)
  | start => exact only_execStart (OnlyM.refl _ s) (by simp only [mayChange]; decide)
  | park => exact only_execPark (OnlyM.refl _ s) (by simp only [mayChange]; decide)
  | unpark => exact only_execUnpark (OnlyM.refl _ s) (by simp only [mayChange]; decide)
  | retire => exact only_execRetire (OnlyM.refl _ s) (by simp only [mayChange]; decide)
  | inject => exact only_execInject (OnlyM.refl _ s) (by simp only [mayChange]; decide)
  | epochFlip => exact only_execEpochFlip (OnlyM.refl _ s) (by simp only [mayChange]; decide)
  | amend => exact only_execAmend (OnlyM.refl _ s) (by simp only [mayChange]; decide)
  | portRearm => exact only_execPortRearm (OnlyM.refl _ s) (by simp only [mayChange]; decide)
  | traceStop => exact only_execTraceStop (OnlyM.refl _ s) (by simp only [mayChange]; decide)
  | traceStart => exact only_execTraceStart (OnlyM.refl _ s) (by simp only [mayChange]; decide)
  | traceSource => exact only_execTraceSource (OnlyM.refl _ s) (by simp only [mayChange]; decide)
  | traceFilter => exact only_execTraceFilter (OnlyM.refl _ s) (by simp only [mayChange]; decide)
  | traceTrigger => exact only_execTraceTrigger (OnlyM.refl _ s) (by simp only [mayChange]; decide)
  | traceOutput => exact only_execTraceOutput (OnlyM.refl _ s) (by simp only [mayChange]; decide)
  | traceClear => exact only_execTraceClear (OnlyM.refl _ s) (by simp only [mayChange]; decide)
  | powerSetCap => exact only_execPowerSetCap (OnlyM.refl _ s) (by simp only [mayChange]; decide)
  | powerSetDepth => exact only_execPowerSetDepth (OnlyM.refl _ s) (by simp only [mayChange]; decide)
  | powerSetDoldrums => exact only_execPowerSetDoldrums (OnlyM.refl _ s) (by simp only [mayChange]; decide)
  | fence => exact only_execFence (OnlyM.refl _ s) (by simp only [mayChange]; decide)
  | resume => exact only_execResume (OnlyM.refl _ s) (by simp only [mayChange]; decide)
  | sync => exact only_execSync (OnlyM.refl _ s) (by simp only [mayChange]; decide)
  | hostNop => exact only_execHostNop (OnlyM.refl _ s) (by simp only [mayChange]; decide)
  | commandDispatch => exact only_execCommandDispatch (OnlyM.refl _ s) (by simp only [mayChange]; decide)
  | tmpHostAdv => exact only_execTmpHostAdv (OnlyM.refl _ s) (by simp only [mayChange]; decide)
  | tileClear => exact only_execTileClear (OnlyM.refl _ s) (by simp only [mayChange]; decide)
  | tmpLearnGrp => exact only_execTmpLearnGrp (OnlyM.refl _ s) (by simp only [mayChange]; decide)
  | push => exact only_execPush (OnlyM.refl _ s) (by simp only [mayChange]; decide)
  | pop => exact only_execPop (OnlyM.refl _ s) (by simp only [mayChange]; decide)
  | peek => exact only_execPeek (OnlyM.refl _ s) (by simp only [mayChange]; decide)
  | latch => exact only_execLatch (OnlyM.refl _ s) (by simp only [mayChange]; decide)
  | setPop => exact only_execSetPop (OnlyM.refl _ s) (by simp only [mayChange]; decide)
  | setPeek => exact only_execSetPeek (OnlyM.refl _ s) (by simp only [mayChange]; decide)
  | rackAck => exact only_execRackAck (OnlyM.refl _ s) (by simp only [mayChange]; decide)
  | pipAdd => exact only_execPipAdd (OnlyM.refl _ s) (by simp only [mayChange]; decide)
  | pipSet => exact only_execPipSet (OnlyM.refl _ s) (by simp only [mayChange]; decide)
  | pipTrysub => exact only_execPipTrysub (OnlyM.refl _ s) (by simp only [mayChange]; decide)
  | pipArrive => exact only_execPipArrive (OnlyM.refl _ s) (by simp only [mayChange]; decide)
  | pipWait => exact only_execPipWait (OnlyM.refl _ s) (by simp only [mayChange]; decide)
  | pipCancel => exact only_execPipCancel (OnlyM.refl _ s) (by simp only [mayChange]; decide)
  | pipTarget => exact only_execPipTarget (OnlyM.refl _ s) (by simp only [mayChange]; decide)
  | pipMode => exact only_execPipMode (OnlyM.refl _ s) (by simp only [mayChange]; decide)
  | pipOvfClear => exact only_execPipOvfClear (OnlyM.refl _ s) (by simp only [mayChange]; decide)
  | poolKeepCfg => exact only_execPoolKeepCfg (OnlyM.refl _ s) (by simp only [mayChange]; decide)
  | addSpare => exact only_execAddSpare (OnlyM.refl _ s) (by simp only [mayChange]; decide)
  | reinit => exact only_execReinit (OnlyM.refl _ s) (by simp only [mayChange]; decide)
  | poolFlush => exact only_execPoolFlush (OnlyM.refl _ s) (by simp only [mayChange]; decide)
  | hubLossTail => exact only_execHubLossTail (OnlyM.refl _ s) (by simp only [mayChange]; decide)
  | stewardReset => exact only_execStewardReset (OnlyM.refl _ s) (by simp only [mayChange]; decide)
  | restart => exact only_execRestart (OnlyM.refl _ s) (by simp only [mayChange]; decide)
  | loRead => exact only_execLoRead (OnlyM.refl _ s) (by simp only [mayChange]; decide)
  | hiRead => exact only_execHiRead (OnlyM.refl _ s) (by simp only [mayChange]; decide)
  | registerWrite => exact only_execRegisterWrite (OnlyM.refl _ s) (by simp only [mayChange]; decide)
  | hdmRead => exact only_execHdmRead (OnlyM.refl _ s) (by simp only [mayChange]; decide)
  | hdmWrite => exact only_execHdmWrite (OnlyM.refl _ s) (by simp only [mayChange]; decide)
  | h2dSnoop port addr => exact only_execH2dSnoop (addr := addr) (OnlyM.refl _ s) (by simp only [mayChange]; decide)
  | setLdAllocations => exact only_execSetLdAllocations (OnlyM.refl _ s) (by simp only [mayChange]; decide)
  | getLdInfo => exact only_execGetLdInfo (OnlyM.refl _ s) (by simp only [mayChange]; decide)
  | getLdAllocations => exact only_execGetLdAllocations (OnlyM.refl _ s) (by simp only [mayChange]; decide)
  | linkDrop => exact only_execLinkDrop (OnlyM.refl _ s) (by simp only [mayChange]; decide)
  | linkRecovery => exact only_execLinkRecovery (OnlyM.refl _ s) (by simp only [mayChange]; decide)
  | hotReset => exact only_execHotReset (OnlyM.refl _ s) (by simp only [mayChange]; decide)
  | cxlLinkUp => exact only_execCxlLinkUp (OnlyM.refl _ s) (by simp only [mayChange]; decide)
  | gNop => exact only_execGNop (OnlyM.refl _ s) (by simp only [mayChange]; decide)
  | gMov => exact only_execGMov (OnlyM.refl _ s) (by simp only [mayChange]; decide)
  | gMovi => exact only_execGMovi (OnlyM.refl _ s) (by simp only [mayChange]; decide)
  | gMovhi => exact only_execGMovhi (OnlyM.refl _ s) (by simp only [mayChange]; decide)
  | gLdp => exact only_execGLdp (OnlyM.refl _ s) (by simp only [mayChange]; decide)
  | gLdf => exact only_execGLdf (OnlyM.refl _ s) (by simp only [mayChange]; decide)
  | gStf => exact only_execGStf (OnlyM.refl _ s) (by simp only [mayChange]; decide)
  | gAdd => exact only_execGAdd (OnlyM.refl _ s) (by simp only [mayChange]; decide)
  | gSub => exact only_execGSub (OnlyM.refl _ s) (by simp only [mayChange]; decide)
  | gAdds => exact only_execGAdds (OnlyM.refl _ s) (by simp only [mayChange]; decide)
  | gSubs => exact only_execGSubs (OnlyM.refl _ s) (by simp only [mayChange]; decide)
  | gAddi => exact only_execGAddi (OnlyM.refl _ s) (by simp only [mayChange]; decide)
  | gAddsi => exact only_execGAddsi (OnlyM.refl _ s) (by simp only [mayChange]; decide)
  | gMin => exact only_execGMin (OnlyM.refl _ s) (by simp only [mayChange]; decide)
  | gMax => exact only_execGMax (OnlyM.refl _ s) (by simp only [mayChange]; decide)
  | gAnd => exact only_execGAnd (OnlyM.refl _ s) (by simp only [mayChange]; decide)
  | gOr => exact only_execGOr (OnlyM.refl _ s) (by simp only [mayChange]; decide)
  | gXor => exact only_execGXor (OnlyM.refl _ s) (by simp only [mayChange]; decide)
  | gShli => exact only_execGShli (OnlyM.refl _ s) (by simp only [mayChange]; decide)
  | gShri => exact only_execGShri (OnlyM.refl _ s) (by simp only [mayChange]; decide)
  | gShrli => exact only_execGShrli (OnlyM.refl _ s) (by simp only [mayChange]; decide)
  | gDecz => exact only_execGDecz (OnlyM.refl _ s) (by simp only [mayChange]; decide)
  | gMulq => exact only_execGMulq (OnlyM.refl _ s) (by simp only [mayChange]; decide)
  | gMulqi => exact only_execGMulqi (OnlyM.refl _ s) (by simp only [mayChange]; decide)
  | gLeak => exact only_execGLeak (OnlyM.refl _ s) (by simp only [mayChange]; decide)
  | gCmp => exact only_execGCmp (OnlyM.refl _ s) (by simp only [mayChange]; decide)
  | gCmpi => exact only_execGCmpi (OnlyM.refl _ s) (by simp only [mayChange]; decide)
  | gB => exact only_execGB (OnlyM.refl _ s) (by simp only [mayChange]; decide)
  | gRand => exact only_execGRand (OnlyM.refl _ s) (by simp only [mayChange]; decide)
  | gEmit => exact only_execGEmit (OnlyM.refl _ s) (by simp only [mayChange]; decide)
  | gWake => exact only_execGWake (OnlyM.refl _ s) (by simp only [mayChange]; decide)
  | gEnd => exact only_execGEnd (OnlyM.refl _ s) (by simp only [mayChange]; decide)
  | gambitStepOverrun => exact only_execGambitStepOverrun (OnlyM.refl _ s) (by simp only [mayChange]; decide)
  | events => exact only_execEvents (OnlyM.refl _ s) (by simp only [mayChange]; decide)
  | mergeDispatch => exact only_execMergeDispatch (OnlyM.refl _ s) (by simp only [mayChange]; decide)
  | stampUpdate => exact only_execStampUpdate (OnlyM.refl _ s) (by simp only [mayChange]; decide)
  | frontier => exact only_execFrontier (OnlyM.refl _ s) (by simp only [mayChange]; decide)
  | turnReport => exact only_execTurnReport (OnlyM.refl _ s) (by simp only [mayChange]; decide)
  | turnOpen => exact only_execTurnOpen (OnlyM.refl _ s) (by simp only [mayChange]; decide)
  | turnClose => exact only_execTurnClose (OnlyM.refl _ s) (by simp only [mayChange]; decide)
  | tempoInEdge => exact only_execTempoInEdge (OnlyM.refl _ s) (by simp only [mayChange]; decide)
  | tempoInGlitch => exact only_execTempoInGlitch (OnlyM.refl _ s) (by simp only [mayChange]; decide)
  | encoderCount => exact only_execEncoderCount (OnlyM.refl _ s) (by simp only [mayChange]; decide)
  | indexPulse => exact only_execIndexPulse (OnlyM.refl _ s) (by simp only [mayChange]; decide)
  | tetherExpiry => exact only_execTetherExpiry (OnlyM.refl _ s) (by simp only [mayChange]; decide)
  | retireComplete => exact only_execRetireComplete (OnlyM.refl _ s) (by simp only [mayChange]; decide)
  | subscribe => exact only_execSubscribe (OnlyM.refl _ s) (by simp only [mayChange]; decide)
  | tempoFwd => exact only_execTempoFwd (OnlyM.refl _ s) (by simp only [mayChange]; decide)
  | age => exact only_execAge (OnlyM.refl _ s) (by simp only [mayChange]; decide)
  | sweepAck => exact only_execSweepAck (OnlyM.refl _ s) (by simp only [mayChange]; decide)
  | tempoGrant => exact only_execTempoGrant (OnlyM.refl _ s) (by simp only [mayChange]; decide)
  | psum => exact only_execPsum (OnlyM.refl _ s) (by simp only [mayChange]; decide)
  | lacc => exact only_execLacc (OnlyM.refl _ s) (by simp only [mayChange]; decide)
  | rrow => exact only_execRrow (OnlyM.refl _ s) (by simp only [mayChange]; decide)
  | chainAck => exact only_execChainAck (OnlyM.refl _ s) (by simp only [mayChange]; decide)
  | consolidationPoint => exact only_execConsolidationPoint (OnlyM.refl _ s) (by simp only [mayChange]; decide)
  | refreshDue => exact only_execRefreshDue (OnlyM.refl _ s) (by simp only [mayChange]; decide)
  | scrubDeadline => exact only_execScrubDeadline (OnlyM.refl _ s) (by simp only [mayChange]; decide)
  | scrubBurst => exact only_execScrubBurst (OnlyM.refl _ s) (by simp only [mayChange]; decide)
  | lingerExpiry => exact only_execLingerExpiry (OnlyM.refl _ s) (by simp only [mayChange]; decide)
  | echo => exact only_execEcho (OnlyM.refl _ s) (by simp only [mayChange]; decide)
  | echoSend => exact only_execEchoSend (OnlyM.refl _ s) (by simp only [mayChange]; decide)
  | rateRecovery => exact only_execRateRecovery (OnlyM.refl _ s) (by simp only [mayChange]; decide)
  | routeVolley => exact only_execRouteVolley (OnlyM.refl _ s) (by simp only [mayChange]; decide)
  | domainReady => exact only_execDomainReady (OnlyM.refl _ s) (by simp only [mayChange]; decide)
  | spanVolley => exact only_execSpanVolley (OnlyM.refl _ s) (by simp only [mayChange]; decide)
  | spanFrame => exact only_execSpanFrame (OnlyM.refl _ s) (by simp only [mayChange]; decide)
  | spanAckTimeout => exact only_execSpanAckTimeout (OnlyM.refl _ s) (by simp only [mayChange]; decide)
  | spanLinkRetrain => exact only_execSpanLinkRetrain (OnlyM.refl _ s) (by simp only [mayChange]; decide)
  | spanLinkUp => exact only_execSpanLinkUp (OnlyM.refl _ s) (by simp only [mayChange]; decide)
  | gather => exact only_execGather (OnlyM.refl _ s) (by simp only [mayChange]; decide)
  | runSlot => exact only_execRunSlot (OnlyM.refl _ s) (by simp only [mayChange]; decide)
  | pot => exact only_execPot (OnlyM.refl _ s) (by simp only [mayChange]; decide)
  | dep => exact only_execDep (OnlyM.refl _ s) (by simp only [mayChange]; decide)
  | emitSlot => exact only_execEmitSlot (OnlyM.refl _ s) (by simp only [mayChange]; decide)
  | quiet => exact only_execQuiet (OnlyM.refl _ s) (by simp only [mayChange]; decide)
  | learnSlot => exact only_execLearnSlot (OnlyM.refl _ s) (by simp only [mayChange]; decide)
  | slotMark => exact only_execSlotMark (OnlyM.refl _ s) (by simp only [mayChange]; decide)
  | epochNotice => exact only_execEpochNotice (OnlyM.refl _ s) (by simp only [mayChange]; decide)
  | epochAck => exact only_execEpochAck (OnlyM.refl _ s) (by simp only [mayChange]; decide)
  | epochEnd => exact only_execEpochEnd (OnlyM.refl _ s) (by simp only [mayChange]; decide)
  | drainDelta => exact only_execDrainDelta (OnlyM.refl _ s) (by simp only [mayChange]; decide)
  | fenceNotice => exact only_execFenceNotice (OnlyM.refl _ s) (by simp only [mayChange]; decide)
  | pipAddMessage => exact only_execPipAddMessage (OnlyM.refl _ s) (by simp only [mayChange]; decide)
  | cfgWrite => exact only_execCfgWrite (OnlyM.refl _ s) (by simp only [mayChange]; decide)
  | cfgRead => exact only_execCfgRead (OnlyM.refl _ s) (by simp only [mayChange]; decide)
  | cfgReply => exact only_execCfgReply (OnlyM.refl _ s) (by simp only [mayChange]; decide)
  | powerReqWake => exact only_execPowerReqWake (OnlyM.refl _ s) (by simp only [mayChange]; decide)
  | powerReqIdle => exact only_execPowerReqIdle (OnlyM.refl _ s) (by simp only [mayChange]; decide)
  | powerReqState => exact only_execPowerReqState (OnlyM.refl _ s) (by simp only [mayChange]; decide)
  | linkHold => exact only_execLinkHold (OnlyM.refl _ s) (by simp only [mayChange]; decide)
  | linkHoldAck => exact only_execLinkHoldAck (OnlyM.refl _ s) (by simp only [mayChange]; decide)
  | powerReqCap => exact only_execPowerReqCap (OnlyM.refl _ s) (by simp only [mayChange]; decide)
  | rackBindingEvent => exact only_execRackBindingEvent (OnlyM.refl _ s) (by simp only [mayChange]; decide)
  | outputEvent => exact only_execOutputEvent (OnlyM.refl _ s) (by simp only [mayChange]; decide)
  | canSlotSend => exact only_execCanSlotSend (OnlyM.refl _ s) (by simp only [mayChange]; decide)
  | holdExpiry => exact only_execHoldExpiry (OnlyM.refl _ s) (by simp only [mayChange]; decide)
  | rampStep => exact only_execRampStep (OnlyM.refl _ s) (by simp only [mayChange]; decide)
  | haltNAssert => exact only_execHaltNAssert (OnlyM.refl _ s) (by simp only [mayChange]; decide)
  | haltNRelease => exact only_execHaltNRelease (OnlyM.refl _ s) (by simp only [mayChange]; decide)
  | presenceChange => exact only_execPresenceChange (OnlyM.refl _ s) (by simp only [mayChange]; decide)
  | enumerationComplete => exact only_execEnumerationComplete (OnlyM.refl _ s) (by simp only [mayChange]; decide)
  | enumerationTimeout => exact only_execEnumerationTimeout (OnlyM.refl _ s) (by simp only [mayChange]; decide)
  | enumerationRetry => exact only_execEnumerationRetry (OnlyM.refl _ s) (by simp only [mayChange]; decide)
  | protocolLoss => exact only_execProtocolLoss (OnlyM.refl _ s) (by simp only [mayChange]; decide)
  | i3cPoll => exact only_execI3cPoll (OnlyM.refl _ s) (by simp only [mayChange]; decide)
  | ibi => exact only_execIbi (OnlyM.refl _ s) (by simp only [mayChange]; decide)
  | hotJoin => exact only_execHotJoin (OnlyM.refl _ s) (by simp only [mayChange]; decide)
  | csi2Packet => exact only_execCsi2Packet (OnlyM.refl _ s) (by simp only [mayChange]; decide)
  | aerAddress => exact only_execAerAddress (OnlyM.refl _ s) (by simp only [mayChange]; decide)
  | canFrame => exact only_execCanFrame (OnlyM.refl _ s) (by simp only [mayChange]; decide)
  | bulkTransfer => exact only_execBulkTransfer (OnlyM.refl _ s) (by simp only [mayChange]; decide)
  | bulkComplete => exact only_execBulkComplete (OnlyM.refl _ s) (by simp only [mayChange]; decide)
  | rdS => exact only_execRdS (OnlyM.refl _ s) (by simp only [mayChange]; decide)
  | rdX => exact only_execRdX (OnlyM.refl _ s) (by simp only [mayChange]; decide)
  | wb => exact only_execWb (OnlyM.refl _ s) (by simp only [mayChange]; decide)
  | evc => exact only_execEvc (OnlyM.refl _ s) (by simp only [mayChange]; decide)
  | grantS => exact only_execGrantS (OnlyM.refl _ s) (by simp only [mayChange]; decide)
  | grantX => exact only_execGrantX (OnlyM.refl _ s) (by simp only [mayChange]; decide)
  | wbDone => exact only_execWbDone (OnlyM.refl _ s) (by simp only [mayChange]; decide)
  | inv => exact only_execInv (OnlyM.refl _ s) (by simp only [mayChange]; decide)
  | ack => exact only_execAck (OnlyM.refl _ s) (by simp only [mayChange]; decide)
  | bisnp => exact only_execBisnp (OnlyM.refl _ s) (by simp only [mayChange]; decide)
  | poolWriteComplete => exact only_execPoolWriteComplete (OnlyM.refl _ s) (by simp only [mayChange]; decide)
  | leaseTick => exact only_execLeaseTick (OnlyM.refl _ s) (by simp only [mayChange]; decide)
  | leaseCheck => exact only_execLeaseCheck (OnlyM.refl _ s) (by simp only [mayChange]; decide)
  | memberFailed => exact only_execMemberFailed (OnlyM.refl _ s) (by simp only [mayChange]; decide)
  | rebuildWindow => exact only_execRebuildWindow (OnlyM.refl _ s) (by simp only [mayChange]; decide)
  | lossItem => exact only_execLossItem (OnlyM.refl _ s) (by simp only [mayChange]; decide)
  | drainEnd => exact only_execDrainEnd (OnlyM.refl _ s) (by simp only [mayChange]; decide)
  | updateWritten => exact only_execUpdateWritten (OnlyM.refl _ s) (by simp only [mayChange]; decide)
  | resetComplete => exact only_execResetComplete (OnlyM.refl _ s) (by simp only [mayChange]; decide)
  | stackLost => exact only_execStackLost (OnlyM.refl _ s) (by simp only [mayChange]; decide)
  | recoveryComplete => exact only_execRecoveryComplete (OnlyM.refl _ s) (by simp only [mayChange]; decide)
  | recoveryRetry => exact only_execRecoveryRetry (OnlyM.refl _ s) (by simp only [mayChange]; decide)
  | stewardWatchdog => exact only_execStewardWatchdog (OnlyM.refl _ s) (by simp only [mayChange]; decide)
  | stewardMemoryError => exact only_execStewardMemoryError (OnlyM.refl _ s) (by simp only [mayChange]; decide)
  | stewardRestart => exact only_execStewardRestart (OnlyM.refl _ s) (by simp only [mayChange]; decide)
  | amendCommit => exact only_execAmendCommit (OnlyM.refl _ s) (by simp only [mayChange]; decide)
  | traceRecord => exact only_execTraceRecord (OnlyM.refl _ s) (by simp only [mayChange]; decide)
  | lullEntry => exact only_execLullEntry (OnlyM.refl _ s) (by simp only [mayChange]; decide)
  | holdEntry => exact only_execHoldEntry (OnlyM.refl _ s) (by simp only [mayChange]; decide)
  | capWindow => exact only_execCapWindow (OnlyM.refl _ s) (by simp only [mayChange]; decide)
  | thermalThrottle => exact only_execThermalThrottle (OnlyM.refl _ s) (by simp only [mayChange]; decide)
  | thermalClear => exact only_execThermalClear (OnlyM.refl _ s) (by simp only [mayChange]; decide)
  | thermalTrip => exact only_execThermalTrip (OnlyM.refl _ s) (by simp only [mayChange]; decide)
  | doldrumsEntry => exact only_execDoldrumsEntry (OnlyM.refl _ s) (by simp only [mayChange]; decide)
  | doldrumsAuto => exact only_execDoldrumsAuto (OnlyM.refl _ s) (by simp only [mayChange]; decide)
  | wakeTimerExpiry => exact only_execWakeTimerExpiry (OnlyM.refl _ s) (by simp only [mayChange]; decide)
  | perstRelease => exact only_execPerstRelease (OnlyM.refl _ s) (by simp only [mayChange]; decide)
  | aonResetRelease => exact only_execAonResetRelease (OnlyM.refl _ s) (by simp only [mayChange]; decide)
  | porRelease => exact only_execPorRelease (OnlyM.refl _ s) (by simp only [mayChange]; decide)
  | stackLinkTimeout => exact only_execStackLinkTimeout (OnlyM.refl _ s) (by simp only [mayChange]; decide)
  | sourceWaitExpiry => exact only_execSourceWaitExpiry (OnlyM.refl _ s) (by simp only [mayChange]; decide)
  | ready => exact only_execReady (OnlyM.refl _ s) (by simp only [mayChange]; decide)
  | pwrGoodTimeout => exact only_execPwrGoodTimeout (OnlyM.refl _ s) (by simp only [mayChange]; decide)
  | railRetry => exact only_execRailRetry (OnlyM.refl _ s) (by simp only [mayChange]; decide)
  | supplyFault => exact only_execSupplyFault (OnlyM.refl _ s) (by simp only [mayChange]; decide)
  | resetN => exact only_execResetN (OnlyM.refl _ s) (by simp only [mayChange]; decide)
  | tokenBucketRefill => exact only_execTokenBucketRefill (OnlyM.refl _ s) (by simp only [mayChange]; decide)
  | pwmPeriodStart => exact only_execPwmPeriodStart (OnlyM.refl _ s) (by simp only [mayChange]; decide)
  | illegalTransition => exact only_execIllegalTransition (OnlyM.refl _ s) (by simp only [mayChange]; decide)
  | msixVectorUnmask => exact only_execMsixVectorUnmask (OnlyM.refl _ s) (by simp only [mayChange]; decide)
  | spanHoldWake => exact only_execSpanHoldWake (OnlyM.refl _ s) (by simp only [mayChange]; decide)
  | spanHoldRetrainTimeout => exact only_execSpanHoldRetrainTimeout (OnlyM.refl _ s) (by simp only [mayChange]; decide)
  | poolReadComplete => exact only_execPoolReadComplete (OnlyM.refl _ s) (by simp only [mayChange]; decide)
  | tracePortDrain => exact only_execTracePortDrain (OnlyM.refl _ s) (by simp only [mayChange]; decide)
  | tripCooldown => exact only_execTripCooldown (OnlyM.refl _ s) (by simp only [mayChange]; decide)
  | alwaysOnSupplyLoss => exact only_execAlwaysOnSupplyLoss (OnlyM.refl _ s) (by simp only [mayChange]; decide)
  | leaderParked => exact only_execLeaderParked (OnlyM.refl _ s) (by simp only [mayChange]; decide)
  | dirtyLineHoldExpiry => exact only_execDirtyLineHoldExpiry (OnlyM.refl _ s) (by simp only [mayChange]; decide)
  -- The one arm left is RECALL, whose name is a keyword.
  | _ => exact only_execRecall (OnlyM.refl _ s) (by simp only [mayChange]; decide)

/-- Settles O60: every command keeps to the set of parts that its list names. -/
theorem commandsChangeOnlyTheirParts : Obligations.CommandsChangeOnlyTheirParts := by
  unfold Obligations.CommandsChangeOnlyTheirParts
  exact fun c s t h => (exec_keepsToFrame c s t h).only

/-- Each command keeps the package, the fuses, the form of memory and the queue. -/
theorem exec_keeps (c : Instr) (s : State) : KeepsO s (exec c s) := by
  cases c with
  | advance => exact keeps_execAdvance (Keeps.refl s)
  | groupAdvance => exact keeps_execGroupAdvance (Keeps.refl s)
  | start => exact keeps_execStart (Keeps.refl s)
  | park => exact keeps_execPark (Keeps.refl s)
  | unpark => exact keeps_execUnpark (Keeps.refl s)
  | retire => exact keeps_execRetire (Keeps.refl s)
  | inject => exact keeps_execInject (Keeps.refl s)
  | epochFlip => exact keeps_execEpochFlip (Keeps.refl s)
  | amend => exact keeps_execAmend (Keeps.refl s)
  | portRearm => exact keeps_execPortRearm (Keeps.refl s)
  | traceStop => exact keeps_execTraceStop (Keeps.refl s)
  | traceStart => exact keeps_execTraceStart (Keeps.refl s)
  | traceSource => exact keeps_execTraceSource (Keeps.refl s)
  | traceFilter => exact keeps_execTraceFilter (Keeps.refl s)
  | traceTrigger => exact keeps_execTraceTrigger (Keeps.refl s)
  | traceOutput => exact keeps_execTraceOutput (Keeps.refl s)
  | traceClear => exact keeps_execTraceClear (Keeps.refl s)
  | powerSetCap => exact keeps_execPowerSetCap (Keeps.refl s)
  | powerSetDepth => exact keeps_execPowerSetDepth (Keeps.refl s)
  | powerSetDoldrums => exact keeps_execPowerSetDoldrums (Keeps.refl s)
  | fence => exact keeps_execFence (Keeps.refl s)
  | resume => exact keeps_execResume (Keeps.refl s)
  | sync => exact keeps_execSync (Keeps.refl s)
  | hostNop => exact keeps_execHostNop (Keeps.refl s)
  | commandDispatch => exact keeps_execCommandDispatch (Keeps.refl s)
  | tmpHostAdv => exact keeps_execTmpHostAdv (Keeps.refl s)
  | tileClear => exact keeps_execTileClear (Keeps.refl s)
  | tmpLearnGrp => exact keeps_execTmpLearnGrp (Keeps.refl s)
  | push => exact keeps_execPush (Keeps.refl s)
  | pop => exact keeps_execPop (Keeps.refl s)
  | peek => exact keeps_execPeek (Keeps.refl s)
  | latch => exact keeps_execLatch (Keeps.refl s)
  | setPop => exact keeps_execSetPop (Keeps.refl s)
  | setPeek => exact keeps_execSetPeek (Keeps.refl s)
  | rackAck => exact keeps_execRackAck (Keeps.refl s)
  | pipAdd => exact keeps_execPipAdd (Keeps.refl s)
  | pipSet => exact keeps_execPipSet (Keeps.refl s)
  | pipTrysub => exact keeps_execPipTrysub (Keeps.refl s)
  | pipArrive => exact keeps_execPipArrive (Keeps.refl s)
  | pipWait => exact keeps_execPipWait (Keeps.refl s)
  | pipCancel => exact keeps_execPipCancel (Keeps.refl s)
  | pipTarget => exact keeps_execPipTarget (Keeps.refl s)
  | pipMode => exact keeps_execPipMode (Keeps.refl s)
  | pipOvfClear => exact keeps_execPipOvfClear (Keeps.refl s)
  | poolKeepCfg => exact keeps_execPoolKeepCfg (Keeps.refl s)
  | addSpare => exact keeps_execAddSpare (Keeps.refl s)
  | reinit => exact keeps_execReinit (Keeps.refl s)
  | poolFlush => exact keeps_execPoolFlush (Keeps.refl s)
  | hubLossTail => exact keeps_execHubLossTail (Keeps.refl s)
  | stewardReset => exact keeps_execStewardReset (Keeps.refl s)
  | restart => exact keeps_execRestart (Keeps.refl s)
  | loRead => exact keeps_execLoRead (Keeps.refl s)
  | hiRead => exact keeps_execHiRead (Keeps.refl s)
  | registerWrite => exact keeps_execRegisterWrite (Keeps.refl s)
  | hdmRead => exact keeps_execHdmRead (Keeps.refl s)
  | hdmWrite => exact keeps_execHdmWrite (Keeps.refl s)
  | h2dSnoop port addr => exact keeps_execH2dSnoop (addr := addr) (Keeps.refl s)
  | setLdAllocations => exact keeps_execSetLdAllocations (Keeps.refl s)
  | getLdInfo => exact keeps_execGetLdInfo (Keeps.refl s)
  | getLdAllocations => exact keeps_execGetLdAllocations (Keeps.refl s)
  | linkDrop => exact keeps_execLinkDrop (Keeps.refl s)
  | linkRecovery => exact keeps_execLinkRecovery (Keeps.refl s)
  | hotReset => exact keeps_execHotReset (Keeps.refl s)
  | cxlLinkUp => exact keeps_execCxlLinkUp (Keeps.refl s)
  | gNop => exact keeps_execGNop (Keeps.refl s)
  | gMov => exact keeps_execGMov (Keeps.refl s)
  | gMovi => exact keeps_execGMovi (Keeps.refl s)
  | gMovhi => exact keeps_execGMovhi (Keeps.refl s)
  | gLdp => exact keeps_execGLdp (Keeps.refl s)
  | gLdf => exact keeps_execGLdf (Keeps.refl s)
  | gStf => exact keeps_execGStf (Keeps.refl s)
  | gAdd => exact keeps_execGAdd (Keeps.refl s)
  | gSub => exact keeps_execGSub (Keeps.refl s)
  | gAdds => exact keeps_execGAdds (Keeps.refl s)
  | gSubs => exact keeps_execGSubs (Keeps.refl s)
  | gAddi => exact keeps_execGAddi (Keeps.refl s)
  | gAddsi => exact keeps_execGAddsi (Keeps.refl s)
  | gMin => exact keeps_execGMin (Keeps.refl s)
  | gMax => exact keeps_execGMax (Keeps.refl s)
  | gAnd => exact keeps_execGAnd (Keeps.refl s)
  | gOr => exact keeps_execGOr (Keeps.refl s)
  | gXor => exact keeps_execGXor (Keeps.refl s)
  | gShli => exact keeps_execGShli (Keeps.refl s)
  | gShri => exact keeps_execGShri (Keeps.refl s)
  | gShrli => exact keeps_execGShrli (Keeps.refl s)
  | gDecz => exact keeps_execGDecz (Keeps.refl s)
  | gMulq => exact keeps_execGMulq (Keeps.refl s)
  | gMulqi => exact keeps_execGMulqi (Keeps.refl s)
  | gLeak => exact keeps_execGLeak (Keeps.refl s)
  | gCmp => exact keeps_execGCmp (Keeps.refl s)
  | gCmpi => exact keeps_execGCmpi (Keeps.refl s)
  | gB => exact keeps_execGB (Keeps.refl s)
  | gRand => exact keeps_execGRand (Keeps.refl s)
  | gEmit => exact keeps_execGEmit (Keeps.refl s)
  | gWake => exact keeps_execGWake (Keeps.refl s)
  | gEnd => exact keeps_execGEnd (Keeps.refl s)
  | gambitStepOverrun => exact keeps_execGambitStepOverrun (Keeps.refl s)
  | events => exact keeps_execEvents (Keeps.refl s)
  | mergeDispatch => exact keeps_execMergeDispatch (Keeps.refl s)
  | stampUpdate => exact keeps_execStampUpdate (Keeps.refl s)
  | frontier => exact keeps_execFrontier (Keeps.refl s)
  | turnReport => exact keeps_execTurnReport (Keeps.refl s)
  | turnOpen => exact keeps_execTurnOpen (Keeps.refl s)
  | turnClose => exact keeps_execTurnClose (Keeps.refl s)
  | tempoInEdge => exact keeps_execTempoInEdge (Keeps.refl s)
  | tempoInGlitch => exact keeps_execTempoInGlitch (Keeps.refl s)
  | encoderCount => exact keeps_execEncoderCount (Keeps.refl s)
  | indexPulse => exact keeps_execIndexPulse (Keeps.refl s)
  | tetherExpiry => exact keeps_execTetherExpiry (Keeps.refl s)
  | retireComplete => exact keeps_execRetireComplete (Keeps.refl s)
  | subscribe => exact keeps_execSubscribe (Keeps.refl s)
  | tempoFwd => exact keeps_execTempoFwd (Keeps.refl s)
  | age => exact keeps_execAge (Keeps.refl s)
  | sweepAck => exact keeps_execSweepAck (Keeps.refl s)
  | tempoGrant => exact keeps_execTempoGrant (Keeps.refl s)
  | psum => exact keeps_execPsum (Keeps.refl s)
  | lacc => exact keeps_execLacc (Keeps.refl s)
  | rrow => exact keeps_execRrow (Keeps.refl s)
  | chainAck => exact keeps_execChainAck (Keeps.refl s)
  | consolidationPoint => exact keeps_execConsolidationPoint (Keeps.refl s)
  | refreshDue => exact keeps_execRefreshDue (Keeps.refl s)
  | scrubDeadline => exact keeps_execScrubDeadline (Keeps.refl s)
  | scrubBurst => exact keeps_execScrubBurst (Keeps.refl s)
  | lingerExpiry => exact keeps_execLingerExpiry (Keeps.refl s)
  | echo => exact keeps_execEcho (Keeps.refl s)
  | echoSend => exact keeps_execEchoSend (Keeps.refl s)
  | rateRecovery => exact keeps_execRateRecovery (Keeps.refl s)
  | routeVolley => exact keeps_execRouteVolley (Keeps.refl s)
  | domainReady => exact keeps_execDomainReady (Keeps.refl s)
  | spanVolley => exact keeps_execSpanVolley (Keeps.refl s)
  | spanFrame => exact keeps_execSpanFrame (Keeps.refl s)
  | spanAckTimeout => exact keeps_execSpanAckTimeout (Keeps.refl s)
  | spanLinkRetrain => exact keeps_execSpanLinkRetrain (Keeps.refl s)
  | spanLinkUp => exact keeps_execSpanLinkUp (Keeps.refl s)
  | gather => exact keeps_execGather (Keeps.refl s)
  | runSlot => exact keeps_execRunSlot (Keeps.refl s)
  | pot => exact keeps_execPot (Keeps.refl s)
  | dep => exact keeps_execDep (Keeps.refl s)
  | emitSlot => exact keeps_execEmitSlot (Keeps.refl s)
  | quiet => exact keeps_execQuiet (Keeps.refl s)
  | learnSlot => exact keeps_execLearnSlot (Keeps.refl s)
  | slotMark => exact keeps_execSlotMark (Keeps.refl s)
  | epochNotice => exact keeps_execEpochNotice (Keeps.refl s)
  | epochAck => exact keeps_execEpochAck (Keeps.refl s)
  | epochEnd => exact keeps_execEpochEnd (Keeps.refl s)
  | drainDelta => exact keeps_execDrainDelta (Keeps.refl s)
  | fenceNotice => exact keeps_execFenceNotice (Keeps.refl s)
  | pipAddMessage => exact keeps_execPipAddMessage (Keeps.refl s)
  | cfgWrite => exact keeps_execCfgWrite (Keeps.refl s)
  | cfgRead => exact keeps_execCfgRead (Keeps.refl s)
  | cfgReply => exact keeps_execCfgReply (Keeps.refl s)
  | powerReqWake => exact keeps_execPowerReqWake (Keeps.refl s)
  | powerReqIdle => exact keeps_execPowerReqIdle (Keeps.refl s)
  | powerReqState => exact keeps_execPowerReqState (Keeps.refl s)
  | linkHold => exact keeps_execLinkHold (Keeps.refl s)
  | linkHoldAck => exact keeps_execLinkHoldAck (Keeps.refl s)
  | powerReqCap => exact keeps_execPowerReqCap (Keeps.refl s)
  | rackBindingEvent => exact keeps_execRackBindingEvent (Keeps.refl s)
  | outputEvent => exact keeps_execOutputEvent (Keeps.refl s)
  | canSlotSend => exact keeps_execCanSlotSend (Keeps.refl s)
  | holdExpiry => exact keeps_execHoldExpiry (Keeps.refl s)
  | rampStep => exact keeps_execRampStep (Keeps.refl s)
  | haltNAssert => exact keeps_execHaltNAssert (Keeps.refl s)
  | haltNRelease => exact keeps_execHaltNRelease (Keeps.refl s)
  | presenceChange => exact keeps_execPresenceChange (Keeps.refl s)
  | enumerationComplete => exact keeps_execEnumerationComplete (Keeps.refl s)
  | enumerationTimeout => exact keeps_execEnumerationTimeout (Keeps.refl s)
  | enumerationRetry => exact keeps_execEnumerationRetry (Keeps.refl s)
  | protocolLoss => exact keeps_execProtocolLoss (Keeps.refl s)
  | i3cPoll => exact keeps_execI3cPoll (Keeps.refl s)
  | ibi => exact keeps_execIbi (Keeps.refl s)
  | hotJoin => exact keeps_execHotJoin (Keeps.refl s)
  | csi2Packet => exact keeps_execCsi2Packet (Keeps.refl s)
  | aerAddress => exact keeps_execAerAddress (Keeps.refl s)
  | canFrame => exact keeps_execCanFrame (Keeps.refl s)
  | bulkTransfer => exact keeps_execBulkTransfer (Keeps.refl s)
  | bulkComplete => exact keeps_execBulkComplete (Keeps.refl s)
  | rdS => exact keeps_execRdS (Keeps.refl s)
  | rdX => exact keeps_execRdX (Keeps.refl s)
  | wb => exact keeps_execWb (Keeps.refl s)
  | evc => exact keeps_execEvc (Keeps.refl s)
  | grantS => exact keeps_execGrantS (Keeps.refl s)
  | grantX => exact keeps_execGrantX (Keeps.refl s)
  | wbDone => exact keeps_execWbDone (Keeps.refl s)
  | inv => exact keeps_execInv (Keeps.refl s)
  | ack => exact keeps_execAck (Keeps.refl s)
  | bisnp => exact keeps_execBisnp (Keeps.refl s)
  | poolWriteComplete => exact keeps_execPoolWriteComplete (Keeps.refl s)
  | leaseTick => exact keeps_execLeaseTick (Keeps.refl s)
  | leaseCheck => exact keeps_execLeaseCheck (Keeps.refl s)
  | memberFailed => exact keeps_execMemberFailed (Keeps.refl s)
  | rebuildWindow => exact keeps_execRebuildWindow (Keeps.refl s)
  | lossItem => exact keeps_execLossItem (Keeps.refl s)
  | drainEnd => exact keeps_execDrainEnd (Keeps.refl s)
  | updateWritten => exact keeps_execUpdateWritten (Keeps.refl s)
  | resetComplete => exact keeps_execResetComplete (Keeps.refl s)
  | stackLost => exact keeps_execStackLost (Keeps.refl s)
  | recoveryComplete => exact keeps_execRecoveryComplete (Keeps.refl s)
  | recoveryRetry => exact keeps_execRecoveryRetry (Keeps.refl s)
  | stewardWatchdog => exact keeps_execStewardWatchdog (Keeps.refl s)
  | stewardMemoryError => exact keeps_execStewardMemoryError (Keeps.refl s)
  | stewardRestart => exact keeps_execStewardRestart (Keeps.refl s)
  | amendCommit => exact keeps_execAmendCommit (Keeps.refl s)
  | traceRecord => exact keeps_execTraceRecord (Keeps.refl s)
  | lullEntry => exact keeps_execLullEntry (Keeps.refl s)
  | holdEntry => exact keeps_execHoldEntry (Keeps.refl s)
  | capWindow => exact keeps_execCapWindow (Keeps.refl s)
  | thermalThrottle => exact keeps_execThermalThrottle (Keeps.refl s)
  | thermalClear => exact keeps_execThermalClear (Keeps.refl s)
  | thermalTrip => exact keeps_execThermalTrip (Keeps.refl s)
  | doldrumsEntry => exact keeps_execDoldrumsEntry (Keeps.refl s)
  | doldrumsAuto => exact keeps_execDoldrumsAuto (Keeps.refl s)
  | wakeTimerExpiry => exact keeps_execWakeTimerExpiry (Keeps.refl s)
  | perstRelease => exact keeps_execPerstRelease (Keeps.refl s)
  | aonResetRelease => exact keeps_execAonResetRelease (Keeps.refl s)
  | porRelease => exact keeps_execPorRelease (Keeps.refl s)
  | stackLinkTimeout => exact keeps_execStackLinkTimeout (Keeps.refl s)
  | sourceWaitExpiry => exact keeps_execSourceWaitExpiry (Keeps.refl s)
  | ready => exact keeps_execReady (Keeps.refl s)
  | pwrGoodTimeout => exact keeps_execPwrGoodTimeout (Keeps.refl s)
  | railRetry => exact keeps_execRailRetry (Keeps.refl s)
  | supplyFault => exact keeps_execSupplyFault (Keeps.refl s)
  | resetN => exact keeps_execResetN (Keeps.refl s)
  | tokenBucketRefill => exact keeps_execTokenBucketRefill (Keeps.refl s)
  | pwmPeriodStart => exact keeps_execPwmPeriodStart (Keeps.refl s)
  | illegalTransition => exact keeps_execIllegalTransition (Keeps.refl s)
  | msixVectorUnmask => exact keeps_execMsixVectorUnmask (Keeps.refl s)
  | spanHoldWake => exact keeps_execSpanHoldWake (Keeps.refl s)
  | spanHoldRetrainTimeout => exact keeps_execSpanHoldRetrainTimeout (Keeps.refl s)
  | poolReadComplete => exact keeps_execPoolReadComplete (Keeps.refl s)
  | tracePortDrain => exact keeps_execTracePortDrain (Keeps.refl s)
  | tripCooldown => exact keeps_execTripCooldown (Keeps.refl s)
  | alwaysOnSupplyLoss => exact keeps_execAlwaysOnSupplyLoss (Keeps.refl s)
  | leaderParked => exact keeps_execLeaderParked (Keeps.refl s)
  | dirtyLineHoldExpiry => exact keeps_execDirtyLineHoldExpiry (Keeps.refl s)
  -- The one arm left is RECALL, whose name is a keyword.
  | _ => exact keeps_execRecall (Keeps.refl s)

/-- Settles O58: on an empty queue the tick keeps all of it, and a command keeps it from the state whose queue it has left. -/
theorem stepsKeepFusesAndMemoryForm : Obligations.StepsKeepFusesAndMemoryForm := by
  unfold Obligations.StepsKeepFusesAndMemoryForm
  intro s t h
  unfold step at h
  split at h
  case h_1 hq =>
    obtain ⟨hpkg, hfuses, hmem, hpend⟩ := (keepsO_next (keeps_tickWall (Keeps.refl s))).elim h
    exact ⟨hpkg, hfuses, hmem, by rw [hpend, hq, List.tail_nil]⟩
  case h_2 c rest hq =>
    obtain ⟨hpkg, hfuses, hmem, hpend⟩ := (exec_keeps c _).elim h
    exact ⟨hpkg, hfuses, hmem, by rw [hpend, hq, List.tail_cons]⟩

end Sys2Proof.Machine
end

section
/-! PROOF. Totality: every meaning answers a next state, whatever state it meets. -/

namespace Sys2Proof.Machine

open Sys2Proof

/-- The outcome is a next state: no fault and no refusal. -/
def Goes (o : Host.Outcome State Fault Refusal) : Prop := ∃ t, o = .next t

theorem goes_next (t : State) : Goes (.next t) := ⟨t, rfl⟩

theorem goes_runCmd (op : Nat) (q : ExecCmd → Bool) (f : State → ExecCmd → State) (rk seq : Nat) (s : State) :
    Goes (runCmd op q f rk seq s) := by
  unfold runCmd
  repeat' split
  all_goals exact goes_next _

theorem goes_pipOp (m off op : Nat) (need : Right) (f : State → Nat → State × Code) (s : State) : Goes (pipOp m off op need f s) := by
  unfold pipOp
  split <;> exact goes_next _

theorem goes_slotRun (op t : Nat) (q : State → DWord → Bool) (f : State → DWord → State) (s : State) : Goes (slotRun op t q f s) := by
  unfold slotRun
  dsimp only
  repeat' split
  all_goals exact goes_next _

theorem goes_ownReg (m off : Nat) (need : Right) (f : State → Option State) (s : State) : Goes (ownReg m off need f s) := by
  unfold ownReg
  repeat' split
  all_goals exact goes_next _

theorem goes_keepCmd (m : Nat) (f : State → State) (s : State) : Goes (keepCmd m f s) := by
  unfold keepCmd
  repeat' split
  all_goals exact goes_next _

theorem goes_gExec (i : Instr) (t : Nat) (hc : Tile → Run → Nat) (f : Tile → Run → GStep) (s : State) : Goes (gExec i t hc f s) := by
  unfold gExec
  dsimp only
  repeat' split
  all_goals exact goes_next _

/-- Every command answers a next state. -/
theorem exec_goes (c : Instr) (s : State) : Goes (exec c s) := by
  cases c with
  | advance => simp only [exec, execAdvance, goes_runCmd]
  | groupAdvance => simp only [exec, execGroupAdvance, goes_runCmd]
  | start => simp only [exec, execStart, goes_runCmd]
  | park => simp only [exec, execPark, goes_runCmd]
  | unpark => simp only [exec, execUnpark, goes_runCmd]
  | retire => simp only [exec, execRetire, goes_runCmd]
  | inject => simp only [exec, execInject, goes_runCmd]
  | epochFlip =>
    simp only [exec, execEpochFlip]
    split
    · exact goes_next _
    · exact goes_runCmd ..
  | amend => simp only [exec, execAmend, goes_runCmd]
  | portRearm => simp only [exec, execPortRearm, goes_runCmd]
  | traceStop => simp only [exec, execTraceStop, goes_runCmd]
  | traceStart => simp only [exec, execTraceStart, traceCmd, goes_runCmd]
  | traceSource => simp only [exec, execTraceSource, traceCmd, goes_runCmd]
  | traceFilter => simp only [exec, execTraceFilter, traceCmd, goes_runCmd]
  | traceTrigger => simp only [exec, execTraceTrigger, traceCmd, goes_runCmd]
  | traceOutput => simp only [exec, execTraceOutput, traceCmd, goes_runCmd]
  | traceClear => simp only [exec, execTraceClear, traceCmd, goes_runCmd]
  | powerSetCap => simp only [exec, execPowerSetCap, powerSet, goes_runCmd]
  | powerSetDepth => simp only [exec, execPowerSetDepth, powerSet, goes_runCmd]
  | powerSetDoldrums => simp only [exec, execPowerSetDoldrums, powerSet, goes_runCmd]
  | fence => simp only [exec, execFence, goes_runCmd]
  | resume => simp only [exec, execResume, goes_runCmd]
  | sync => simp only [exec, execSync, goes_runCmd]
  | hostNop => simp only [exec, execHostNop, goes_runCmd]
  | commandDispatch =>
    simp only [exec, execCommandDispatch]
    repeat' split
    all_goals exact goes_next _
  | tmpHostAdv =>
    simp only [exec, execTmpHostAdv]
    repeat' split
    all_goals exact goes_next _
  | tileClear => simp only [exec, execTileClear, goes_ownReg]
  | tmpLearnGrp => simp only [exec, execTmpLearnGrp, goes_ownReg]
  | push =>
    simp only [exec, execPush]
    repeat' split
    all_goals exact goes_next _
  | pop =>
    simp only [exec, execPop]
    repeat' split
    all_goals exact goes_next _
  | peek =>
    simp only [exec, execPeek]
    repeat' split
    all_goals exact goes_next _
  | latch =>
    simp only [exec, execLatch]
    repeat' split
    all_goals exact goes_next _
  | setPop =>
    simp only [exec, execSetPop]
    repeat' split
    all_goals exact goes_next _
  | setPeek =>
    simp only [exec, execSetPeek]
    repeat' split
    all_goals exact goes_next _
  | rackAck =>
    simp only [exec, execRackAck]
    repeat' split
    all_goals exact goes_next _
  | pipAdd => simp only [exec, execPipAdd, goes_pipOp]
  | pipSet => simp only [exec, execPipSet, goes_pipOp]
  | pipTrysub => simp only [exec, execPipTrysub, goes_pipOp]
  | pipArrive => simp only [exec, execPipArrive, goes_pipOp]
  | pipWait => simp only [exec, execPipWait, goes_pipOp]
  | pipCancel => simp only [exec, execPipCancel, goes_pipOp]
  | pipTarget => simp only [exec, execPipTarget, goes_pipOp]
  | pipMode => simp only [exec, execPipMode, goes_pipOp]
  | pipOvfClear => simp only [exec, execPipOvfClear, goes_pipOp]
  | poolKeepCfg => simp only [exec, execPoolKeepCfg, goes_ownReg]
  | addSpare => simp only [exec, execAddSpare, goes_keepCmd]
  | reinit => simp only [exec, execReinit, goes_keepCmd]
  | poolFlush => simp only [exec, execPoolFlush, goes_ownReg]
  | hubLossTail => simp only [exec, execHubLossTail, goes_ownReg]
  | stewardReset => simp only [exec, execStewardReset, goes_ownReg]
  | restart =>
    simp only [exec, execRestart]
    split
    · exact goes_next _
    · split
      · exact goes_ownReg ..
      · repeat' split
        all_goals exact goes_next _
  | loRead =>
    simp only [exec, execLoRead]
    repeat' split
    all_goals exact goes_next _
  | hiRead =>
    simp only [exec, execHiRead]
    repeat' split
    all_goals exact goes_next _
  | registerWrite =>
    simp only [exec, execRegisterWrite]
    repeat' split
    all_goals exact goes_next _
  | hdmRead =>
    simp only [exec, execHdmRead]
    repeat' split
    all_goals exact goes_next _
  | hdmWrite =>
    simp only [exec, execHdmWrite]
    repeat' split
    all_goals exact goes_next _
  | h2dSnoop =>
    simp only [exec, execH2dSnoop]
    repeat' split
    all_goals exact goes_next _
  | setLdAllocations =>
    simp only [exec, execSetLdAllocations]
    repeat' split
    all_goals exact goes_next _
  | getLdInfo =>
    simp only [exec, execGetLdInfo]
    repeat' split
    all_goals exact goes_next _
  | getLdAllocations =>
    simp only [exec, execGetLdAllocations]
    repeat' split
    all_goals exact goes_next _
  | linkDrop =>
    simp only [exec, execLinkDrop]
    repeat' split
    all_goals exact goes_next _
  | linkRecovery =>
    simp only [exec, execLinkRecovery]
    repeat' split
    all_goals exact goes_next _
  | hotReset =>
    simp only [exec, execHotReset]
    repeat' split
    all_goals exact goes_next _
  | cxlLinkUp =>
    simp only [exec, execCxlLinkUp]
    repeat' split
    all_goals exact goes_next _
  | gNop => simp only [exec, execGNop, goes_gExec]
  | gMov => simp only [exec, execGMov, goes_gExec]
  | gMovi => simp only [exec, execGMovi, goes_gExec]
  | gMovhi => simp only [exec, execGMovhi, goes_gExec]
  | gLdp => simp only [exec, execGLdp, goes_gExec]
  | gLdf => simp only [exec, execGLdf, goes_gExec]
  | gStf => simp only [exec, execGStf, goes_gExec]
  | gAdd => simp only [exec, execGAdd, goes_gExec]
  | gSub => simp only [exec, execGSub, goes_gExec]
  | gAdds => simp only [exec, execGAdds, goes_gExec]
  | gSubs => simp only [exec, execGSubs, goes_gExec]
  | gAddi => simp only [exec, execGAddi, goes_gExec]
  | gAddsi => simp only [exec, execGAddsi, goes_gExec]
  | gMin => simp only [exec, execGMin, goes_gExec]
  | gMax => simp only [exec, execGMax, goes_gExec]
  | gAnd => simp only [exec, execGAnd, goes_gExec]
  | gOr => simp only [exec, execGOr, goes_gExec]
  | gXor => simp only [exec, execGXor, goes_gExec]
  | gShli => simp only [exec, execGShli, goes_gExec]
  | gShri => simp only [exec, execGShri, goes_gExec]
  | gShrli => simp only [exec, execGShrli, goes_gExec]
  | gDecz => simp only [exec, execGDecz, goes_gExec]
  | gMulq => simp only [exec, execGMulq, goes_gExec]
  | gMulqi => simp only [exec, execGMulqi, goes_gExec]
  | gLeak => simp only [exec, execGLeak, goes_gExec]
  | gCmp => simp only [exec, execGCmp, goes_gExec]
  | gCmpi => simp only [exec, execGCmpi, goes_gExec]
  | gB => simp only [exec, execGB, goes_gExec]
  | gRand => simp only [exec, execGRand, goes_gExec]
  | gEmit => simp only [exec, execGEmit, goes_gExec]
  | gWake => simp only [exec, execGWake, goes_gExec]
  | gEnd => simp only [exec, execGEnd, goes_gExec]
  | gambitStepOverrun =>
    simp only [exec, execGambitStepOverrun]
    repeat' split
    all_goals exact goes_next _
  | events =>
    simp only [exec, execEvents]
    repeat' split
    all_goals exact goes_next _
  | mergeDispatch =>
    simp only [exec, execMergeDispatch]
    repeat' split
    all_goals exact goes_next _
  | stampUpdate =>
    simp only [exec, execStampUpdate]
    repeat' split
    all_goals exact goes_next _
  | frontier =>
    simp only [exec, execFrontier]
    repeat' split
    all_goals exact goes_next _
  | turnReport =>
    simp only [exec, execTurnReport]
    repeat' split
    all_goals exact goes_next _
  | turnOpen =>
    simp only [exec, execTurnOpen]
    repeat' split
    all_goals exact goes_next _
  | turnClose =>
    simp only [exec, execTurnClose]
    repeat' split
    all_goals exact goes_next _
  | tempoInEdge =>
    simp only [exec, execTempoInEdge]
    repeat' split
    all_goals exact goes_next _
  | tempoInGlitch =>
    simp only [exec, execTempoInGlitch]
    repeat' split
    all_goals exact goes_next _
  | encoderCount =>
    simp only [exec, execEncoderCount]
    repeat' split
    all_goals exact goes_next _
  | indexPulse =>
    simp only [exec, execIndexPulse]
    repeat' split
    all_goals exact goes_next _
  | tetherExpiry =>
    simp only [exec, execTetherExpiry]
    repeat' split
    all_goals exact goes_next _
  | retireComplete =>
    simp only [exec, execRetireComplete]
    repeat' split
    all_goals exact goes_next _
  | subscribe => exact goes_next _
  | tempoFwd => exact goes_next _
  | age =>
    simp only [exec, execAge]
    repeat' split
    all_goals exact goes_next _
  | sweepAck =>
    simp only [exec, execSweepAck]
    repeat' split
    all_goals exact goes_next _
  | tempoGrant =>
    simp only [exec, execTempoGrant]
    repeat' split
    all_goals exact goes_next _
  | psum =>
    simp only [exec, execPsum]
    repeat' split
    all_goals exact goes_next _
  | lacc =>
    simp only [exec, execLacc]
    repeat' split
    all_goals exact goes_next _
  | rrow =>
    simp only [exec, execRrow]
    repeat' split
    all_goals exact goes_next _
  | chainAck =>
    simp only [exec, execChainAck]
    repeat' split
    all_goals exact goes_next _
  | consolidationPoint =>
    simp only [exec, execConsolidationPoint]
    repeat' split
    all_goals exact goes_next _
  | refreshDue =>
    simp only [exec, execRefreshDue]
    repeat' split
    all_goals exact goes_next _
  | scrubDeadline =>
    simp only [exec, execScrubDeadline]
    repeat' split
    all_goals exact goes_next _
  | scrubBurst =>
    simp only [exec, execScrubBurst]
    repeat' split
    all_goals exact goes_next _
  | lingerExpiry =>
    simp only [exec, execLingerExpiry]
    repeat' split
    all_goals exact goes_next _
  | echo =>
    simp only [exec, execEcho]
    repeat' split
    all_goals exact goes_next _
  | echoSend =>
    simp only [exec, execEchoSend]
    repeat' split
    all_goals exact goes_next _
  | rateRecovery => exact goes_next _
  | routeVolley =>
    simp only [exec, execRouteVolley]
    repeat' split
    all_goals exact goes_next _
  | domainReady =>
    simp only [exec, execDomainReady]
    repeat' split
    all_goals exact goes_next _
  | spanVolley =>
    simp only [exec, execSpanVolley]
    repeat' split
    all_goals exact goes_next _
  | spanFrame =>
    simp only [exec, execSpanFrame]
    repeat' split
    all_goals exact goes_next _
  | spanAckTimeout =>
    simp only [exec, execSpanAckTimeout]
    repeat' split
    all_goals exact goes_next _
  | spanLinkRetrain =>
    simp only [exec, execSpanLinkRetrain]
    repeat' split
    all_goals exact goes_next _
  | spanLinkUp =>
    simp only [exec, execSpanLinkUp]
    repeat' split
    all_goals exact goes_next _
  | gather => simp only [exec, execGather, goes_slotRun]
  | runSlot => simp only [exec, execRunSlot, goes_slotRun]
  | pot => simp only [exec, execPot, goes_slotRun]
  | dep => simp only [exec, execDep, goes_slotRun]
  | emitSlot => simp only [exec, execEmitSlot, goes_slotRun]
  | quiet => simp only [exec, execQuiet, goes_slotRun]
  | learnSlot =>
    simp only [exec, execLearnSlot]
    repeat' split
    all_goals exact goes_next _
  | slotMark =>
    simp only [exec, execSlotMark]
    repeat' split
    all_goals exact goes_next _
  | epochNotice =>
    simp only [exec, execEpochNotice]
    repeat' split
    all_goals exact goes_next _
  | epochAck =>
    simp only [exec, execEpochAck]
    repeat' split
    all_goals exact goes_next _
  | epochEnd =>
    simp only [exec, execEpochEnd]
    repeat' split
    all_goals exact goes_next _
  | drainDelta =>
    simp only [exec, execDrainDelta]
    repeat' split
    all_goals exact goes_next _
  | fenceNotice =>
    simp only [exec, execFenceNotice]
    repeat' split
    all_goals exact goes_next _
  | pipAddMessage =>
    simp only [exec, execPipAddMessage]
    repeat' split
    all_goals exact goes_next _
  | cfgWrite =>
    simp only [exec, execCfgWrite]
    repeat' split
    all_goals exact goes_next _
  | cfgRead =>
    simp only [exec, execCfgRead]
    repeat' split
    all_goals exact goes_next _
  | cfgReply =>
    simp only [exec, execCfgReply]
    repeat' split
    all_goals exact goes_next _
  | powerReqWake => exact goes_next _
  | powerReqIdle =>
    simp only [exec, execPowerReqIdle]
    repeat' split
    all_goals exact goes_next _
  | powerReqState =>
    simp only [exec, execPowerReqState]
    repeat' split
    all_goals exact goes_next _
  | linkHold =>
    simp only [exec, execLinkHold]
    repeat' split
    all_goals exact goes_next _
  | linkHoldAck =>
    simp only [exec, execLinkHoldAck]
    repeat' split
    all_goals exact goes_next _
  | powerReqCap =>
    simp only [exec, execPowerReqCap]
    repeat' split
    all_goals exact goes_next _
  | rackBindingEvent =>
    simp only [exec, execRackBindingEvent]
    repeat' split
    all_goals exact goes_next _
  | outputEvent =>
    simp only [exec, execOutputEvent]
    repeat' split
    all_goals exact goes_next _
  | canSlotSend =>
    simp only [exec, execCanSlotSend]
    repeat' split
    all_goals exact goes_next _
  | holdExpiry =>
    simp only [exec, execHoldExpiry]
    repeat' split
    all_goals exact goes_next _
  | rampStep =>
    simp only [exec, execRampStep]
    repeat' split
    all_goals exact goes_next _
  | haltNAssert =>
    simp only [exec, execHaltNAssert]
    repeat' split
    all_goals exact goes_next _
  | haltNRelease =>
    simp only [exec, execHaltNRelease]
    repeat' split
    all_goals exact goes_next _
  | presenceChange =>
    simp only [exec, execPresenceChange]
    repeat' split
    all_goals exact goes_next _
  | enumerationComplete =>
    simp only [exec, execEnumerationComplete]
    repeat' split
    all_goals exact goes_next _
  | enumerationTimeout =>
    simp only [exec, execEnumerationTimeout]
    repeat' split
    all_goals exact goes_next _
  | enumerationRetry =>
    simp only [exec, execEnumerationRetry]
    repeat' split
    all_goals exact goes_next _
  | protocolLoss =>
    simp only [exec, execProtocolLoss]
    repeat' split
    all_goals exact goes_next _
  | i3cPoll =>
    simp only [exec, execI3cPoll]
    repeat' split
    all_goals exact goes_next _
  | ibi =>
    simp only [exec, execIbi]
    repeat' split
    all_goals exact goes_next _
  | hotJoin =>
    simp only [exec, execHotJoin]
    repeat' split
    all_goals exact goes_next _
  | csi2Packet =>
    simp only [exec, execCsi2Packet]
    repeat' split
    all_goals exact goes_next _
  | aerAddress =>
    simp only [exec, execAerAddress]
    repeat' split
    all_goals exact goes_next _
  | canFrame =>
    simp only [exec, execCanFrame]
    repeat' split
    all_goals exact goes_next _
  | bulkTransfer =>
    simp only [exec, execBulkTransfer]
    repeat' split
    all_goals exact goes_next _
  | bulkComplete =>
    simp only [exec, execBulkComplete]
    repeat' split
    all_goals exact goes_next _
  | rdS => exact goes_next _
  | rdX => exact goes_next _
  | wb =>
    simp only [exec, execWb]
    repeat' split
    all_goals exact goes_next _
  | evc =>
    simp only [exec, execEvc]
    repeat' split
    all_goals exact goes_next _
  | grantS =>
    simp only [exec, execGrantS]
    repeat' split
    all_goals exact goes_next _
  | grantX =>
    simp only [exec, execGrantX]
    repeat' split
    all_goals exact goes_next _
  | wbDone =>
    simp only [exec, execWbDone]
    repeat' split
    all_goals exact goes_next _
  | inv =>
    simp only [exec, execInv]
    repeat' split
    all_goals exact goes_next _
  | ack =>
    simp only [exec, execAck]
    repeat' split
    all_goals exact goes_next _
  | bisnp =>
    simp only [exec, execBisnp]
    repeat' split
    all_goals exact goes_next _
  | poolWriteComplete =>
    simp only [exec, execPoolWriteComplete]
    repeat' split
    all_goals exact goes_next _
  | leaseTick =>
    simp only [exec, execLeaseTick]
    repeat' split
    all_goals exact goes_next _
  | leaseCheck =>
    simp only [exec, execLeaseCheck]
    repeat' split
    all_goals exact goes_next _
  | memberFailed =>
    simp only [exec, execMemberFailed]
    repeat' split
    all_goals exact goes_next _
  | rebuildWindow =>
    simp only [exec, execRebuildWindow]
    repeat' split
    all_goals exact goes_next _
  | lossItem => exact goes_next _
  | drainEnd =>
    simp only [exec, execDrainEnd]
    repeat' split
    all_goals exact goes_next _
  | updateWritten =>
    simp only [exec, execUpdateWritten]
    repeat' split
    all_goals exact goes_next _
  | resetComplete =>
    simp only [exec, execResetComplete]
    repeat' split
    all_goals exact goes_next _
  | stackLost =>
    simp only [exec, execStackLost]
    repeat' split
    all_goals exact goes_next _
  | recoveryComplete => exact goes_next _
  | recoveryRetry =>
    simp only [exec, execRecoveryRetry]
    repeat' split
    all_goals exact goes_next _
  | stewardWatchdog => exact goes_next _
  | stewardMemoryError => exact goes_next _
  | stewardRestart =>
    simp only [exec, execStewardRestart]
    repeat' split
    all_goals exact goes_next _
  | amendCommit =>
    simp only [exec, execAmendCommit]
    repeat' split
    all_goals exact goes_next _
  | traceRecord =>
    simp only [exec, execTraceRecord]
    repeat' split
    all_goals exact goes_next _
  | lullEntry =>
    simp only [exec, execLullEntry]
    repeat' split
    all_goals exact goes_next _
  | holdEntry =>
    simp only [exec, execHoldEntry]
    repeat' split
    all_goals exact goes_next _
  | capWindow =>
    simp only [exec, execCapWindow]
    repeat' split
    all_goals exact goes_next _
  | thermalThrottle =>
    simp only [exec, execThermalThrottle]
    repeat' split
    all_goals exact goes_next _
  | thermalClear =>
    simp only [exec, execThermalClear]
    repeat' split
    all_goals exact goes_next _
  | thermalTrip =>
    simp only [exec, execThermalTrip]
    repeat' split
    all_goals exact goes_next _
  | doldrumsEntry =>
    simp only [exec, execDoldrumsEntry]
    repeat' split
    all_goals exact goes_next _
  | doldrumsAuto =>
    simp only [exec, execDoldrumsAuto]
    repeat' split
    all_goals exact goes_next _
  | wakeTimerExpiry =>
    simp only [exec, execWakeTimerExpiry]
    repeat' split
    all_goals exact goes_next _
  | perstRelease =>
    simp only [exec, execPerstRelease]
    repeat' split
    all_goals exact goes_next _
  | aonResetRelease =>
    simp only [exec, execAonResetRelease]
    repeat' split
    all_goals exact goes_next _
  | porRelease =>
    simp only [exec, execPorRelease]
    repeat' split
    all_goals exact goes_next _
  | stackLinkTimeout =>
    simp only [exec, execStackLinkTimeout]
    repeat' split
    all_goals exact goes_next _
  | sourceWaitExpiry =>
    simp only [exec, execSourceWaitExpiry]
    repeat' split
    all_goals exact goes_next _
  | ready =>
    simp only [exec, execReady]
    repeat' split
    all_goals exact goes_next _
  | pwrGoodTimeout =>
    simp only [exec, execPwrGoodTimeout]
    repeat' split
    all_goals exact goes_next _
  | railRetry =>
    simp only [exec, execRailRetry]
    repeat' split
    all_goals exact goes_next _
  | supplyFault =>
    simp only [exec, execSupplyFault]
    repeat' split
    all_goals exact goes_next _
  | resetN =>
    simp only [exec, execResetN]
    repeat' split
    all_goals exact goes_next _
  | tokenBucketRefill =>
    simp only [exec, execTokenBucketRefill]
    repeat' split
    all_goals exact goes_next _
  | pwmPeriodStart =>
    simp only [exec, execPwmPeriodStart]
    repeat' split
    all_goals exact goes_next _
  | illegalTransition =>
    simp only [exec, execIllegalTransition]
    repeat' split
    all_goals exact goes_next _
  | msixVectorUnmask =>
    simp only [exec, execMsixVectorUnmask]
    repeat' split
    all_goals exact goes_next _
  | spanHoldWake =>
    simp only [exec, execSpanHoldWake]
    repeat' split
    all_goals exact goes_next _
  | spanHoldRetrainTimeout =>
    simp only [exec, execSpanHoldRetrainTimeout]
    repeat' split
    all_goals exact goes_next _
  | poolReadComplete =>
    simp only [exec, execPoolReadComplete]
    repeat' split
    all_goals exact goes_next _
  | tracePortDrain =>
    simp only [exec, execTracePortDrain]
    repeat' split
    all_goals exact goes_next _
  | tripCooldown =>
    simp only [exec, execTripCooldown]
    repeat' split
    all_goals exact goes_next _
  | alwaysOnSupplyLoss => exact goes_next _
  | leaderParked => exact goes_next _
  | dirtyLineHoldExpiry =>
    simp only [exec, execDirtyLineHoldExpiry]
    repeat' split
    all_goals exact goes_next _
  -- The one arm left is RECALL, whose name is a keyword.
  | _ =>
    simp only [exec, execRecall]
    repeat' split
    all_goals exact goes_next _

/-- Settles O57: the tick answers a next state, and so does every command. -/
theorem everyStepGoesOn : Obligations.EveryStepGoesOn := by
  unfold Obligations.EveryStepGoesOn GoesOn step
  intro s
  split
  · exact goes_next _
  · exact exec_goes _ _

end Sys2Proof.Machine
end

section
/-! PROOF. The gambit words (R82, R83, R96): each field of a word stands where the decoder reads it. -/

namespace Sys2Proof

/-! ### The fields of a word -/

section Fields
variable (op : BitVec 6) (rd ra rb : BitVec 3) (tail : BitVec 20) (low : BitVec 17)

@[simp] theorem gWord_opcode : (gWord op rd ra tail).extractLsb' 26 6 = op := by
  ext i hi
  simp [gWord]
  grind

@[simp] theorem gWord_rd : (gWord op rd ra tail).extractLsb' 23 3 = rd := by
  ext i hi
  simp [gWord]
  grind

@[simp] theorem gWord_ra : (gWord op rd ra tail).extractLsb' 20 3 = ra := by
  ext i hi
  simp [gWord]
  grind

theorem gWord_tail {lo n : Nat} (h : lo + n ≤ 20) : (gWord op rd ra tail).extractLsb' lo n = tail.extractLsb' lo n :=
  BitVec.extractLsb'_append_eq_of_add_le h

theorem gWord_tail_bit {i : Nat} (h : i < 20) : (gWord op rd ra tail)[i] = tail[i] := by
  unfold gWord
  grind

@[simp] theorem gTail_rb : (gTail rb low).extractLsb' 17 3 = rb :=
  BitVec.extractLsb'_append_eq_left

theorem gTail_low {lo n : Nat} (h : lo + n ≤ 17) : (gTail rb low).extractLsb' lo n = low.extractLsb' lo n :=
  BitVec.extractLsb'_append_eq_of_add_le h

theorem gTail_low_bit {i : Nat} (h : i < 17) : (gTail rb low)[i] = low[i] := by
  unfold gTail
  grind

end Fields

/-! ### The fields of a tail -/

/-- The position, width and mode of LDF and STF. -/
theorem fieldTail_fields (pos : BitVec 7) (wm1 : BitVec 5) (b : Bool) :
    let low : BitVec 17 := pos ++ wm1 ++ BitVec.ofBool b ++ 0#4
    low.extractLsb' 10 7 = pos ∧ low.extractLsb' 5 5 = wm1 ∧ low[4] = b := by
  refine ⟨?pos, ?width, by grind⟩
  case pos =>
    exact (BitVec.extractLsb'_append_eq_of_le (by decide)).trans
      ((BitVec.extractLsb'_append_eq_of_le (by decide)).trans BitVec.extractLsb'_append_eq_left)
  case width =>
    exact (BitVec.extractLsb'_append_eq_of_le (by decide)).trans
      ((BitVec.extractLsb'_append_eq_of_le (by decide)).trans BitVec.extractLsb'_append_eq_right)

/-- The bits of EMIT. -/
theorem emitTail_bits (bin learn fin : Bool) :
    let low : BitVec 3 := BitVec.ofBool bin ++ BitVec.ofBool learn ++ BitVec.ofBool fin
    low[2] = bin ∧ low[1] = learn ∧ low[0] = fin := by
  refine ⟨?_, ?_, ?_⟩ <;> grind

/-- The mode and immediate of WAKE. -/
theorem wakeTail_fields (useImm : Bool) (imm : BitVec 6) :
    let low : BitVec 7 := BitVec.ofBool useImm ++ imm
    low[6] = useImm ∧ low.extractLsb' 0 6 = imm :=
  ⟨by grind, BitVec.extractLsb'_append_eq_right⟩

theorem extractLsb'_zeroExtend {m k n : Nat} (x : BitVec m) (lo : Nat) (h : lo + n ≤ k) :
    (x.zeroExtend k).extractLsb' lo n = x.extractLsb' lo n := by
  ext i hi
  simp
  grind

/-- Each instruction's word has its opcode, and each operand where the decoder reads it. -/
theorem encodeGambit_decodes (i : Instr) (t : Nat) (h : gambitTile i = some t) :
    ∃ w, encodeGambit i = some w ∧ decodeGambit t w = some i := by
  cases i <;> simp only [gambitTile, Option.some.injEq, reduceCtorEq] at h
  all_goals
    subst h
    refine ⟨_, rfl, ?_⟩
    simp [decodeGambit, gWord_tail, gTail_low, gWord_tail_bit, gTail_low_bit, extractLsb'_zeroExtend]
  case gLdf | gStf => exact fieldTail_fields ..
  case gMulq | gLeak => exact BitVec.extractLsb'_append_eq_left
  case gMulqi => exact ⟨BitVec.extractLsb'_append_eq_left, BitVec.extractLsb'_append_eq_right⟩
  case gEmit => exact emitTail_bits ..
  case gWake => exact wakeTail_fields ..

/-- The opcodes of R83's table. -/
def gambitOpcodes : List Nat :=
  [0x00, 0x01, 0x02, 0x03, 0x04, 0x05, 0x06, 0x08, 0x09, 0x0A, 0x0B, 0x0C, 0x0D, 0x0E, 0x0F, 0x10, 0x11, 0x12, 0x13, 0x14,
   0x15, 0x16, 0x18, 0x19, 0x1A, 0x1C, 0x1D, 0x20, 0x24, 0x28, 0x29, 0x2C]

theorem decodeGambit_eq_none_iff (t : Nat) (w : Word) :
    decodeGambit t w = none ↔ (w.extractLsb' 26 6).toNat ∉ gambitOpcodes := by
  unfold decodeGambit gambitOpcodes
  dsimp only
  generalize (w.extractLsb' 26 6).toNat = op
  split <;> simp_all

theorem gambitTile_of_decodeGambit {t : Nat} {w : Word} {i : Instr} (h : decodeGambit t w = some i) : gambitTile i = some t := by
  unfold decodeGambit at h
  dsimp only at h
  split at h <;> cases h <;> rfl

end Sys2Proof

namespace Sys2Proof.Machine

open Sys2Proof

/-- Settles O59: an encoded word decodes to its instruction, the table's opcodes are those that decode, and what a word decodes to runs
in the tile it was decoded for. -/
theorem gambitWordsRoundTrip : Obligations.GambitWordsRoundTrip := by
  unfold Obligations.GambitWordsRoundTrip
  exact ⟨encodeGambit_decodes, fun w t => ⟨decodeGambit_eq_none_iff t w, fun _ => gambitTile_of_decodeGambit⟩⟩

end Sys2Proof.Machine
end

section
/-! PROOF. PUSH (R153, R154): a rack window that lets the access through turns on the room in the rack alone. -/

namespace Sys2Proof.Machine

open Sys2Proof

section Push
variable {s : State} {m rk : Nat} {hdr : DWord}

theorem pushOpen_of_ready (hready : s.isReady = true) : pushOpen s rk = true := by
  simp [pushOpen, hready]

/-- R154: what a PUSH to a rack that takes no commands receives turns on the room above the hub's reserve. -/
theorem pushCode_eq (hready : s.isReady = true) (hcmd : s.isCmdRack rk = false) :
    pushCode s m rk = if (s.rack rk).hubReserve < (s.rack rk).free then .done else .busy := by
  simp [pushCode, pushOpen_of_ready hready, hcmd]

variable (hready : s.isReady = true) (huse : s.has m (.rack rk) .use = true) (hen : (s.rack rk).enabled = true)
  (hcmd : s.isCmdRack rk = false)
include hready huse hen hcmd

theorem exec_push_room (hroom : (s.rack rk).hubReserve < (s.rack rk).free) :
    exec (.push m rk hdr) s = .next ((((s.traceRack rk 1 m .done (fb hdr.toNat 15 8) (s.rack rk).next.toNat).rackPut rk m
      (stagedMsg s m rk hdr)).pushResult m rk .done).respond m []) := by
  change execPush m rk hdr s = _
  simp [execPush, huse, hen, pushCode_eq hready hcmd, hroom]

theorem exec_push_full (hfull : ¬ (s.rack rk).hubReserve < (s.rack rk).free) :
    exec (.push m rk hdr) s = .next (((s.traceRack rk 1 m .busy (fb hdr.toNat 15 8) (s.rack rk).next.toNat).pushResult m rk
      .busy).respond m []) := by
  change execPush m rk hdr s = _
  simp [execPush, huse, hen, pushCode_eq hready hcmd, hfull]

end Push

/-- What RACK_RES and the staging area hold after a PUSH. -/
theorem pushResult_master (s : State) (m rk : Nat) (c : Code) :
    (tget {} rk ((s.pushResult m rk c).master m).rackRes).push = c ∧ tget [] rk ((s.pushResult m rk c).master m).staging = [] := by
  unfold State.pushResult
  split <;> simp

@[simp] theorem pushResult_rack_done (s : State) (m rk j : Nat) : (s.pushResult m rk .done).rack j = s.rack j := by
  simp [State.pushResult]

/-- A refused PUSH is counted in its rack alone. -/
theorem pushResult_rack_busy (s : State) (m rk j : Nat) : (s.pushResult m rk .busy).rack j =
    if j = rk then { s.rack rk with refused := sat 16 (s.rack rk).refused 1 } else s.rack j := by
  by_cases hj : j = rk
  · subst hj
    simp [State.pushResult]
  · simp [State.pushResult, hj, modRack_rack_other _ hj]

/-- Settles O1: the window lets the PUSH through; with room the message enters the rack, without it the refusal is counted. -/
theorem pushAppendsStampedMessage : Obligations.PushAppendsStampedMessage := by
  unfold Obligations.PushAppendsStampedMessage
  intro s m rk hdr hready huse hen hcmd
  refine ⟨fun hroom => ⟨_, exec_push_room hready huse hen hcmd hroom, ?_⟩,
    fun hfull => ⟨_, exec_push_full hready huse hen hcmd hfull, ?_⟩⟩
  · obtain ⟨hpush, hstaging⟩ := pushResult_master ((s.traceRack rk 1 m .done (fb hdr.toNat 15 8) (s.rack rk).next.toNat).rackPut rk m
      (stagedMsg s m rk hdr)) m rk .done
    simp only [respond_rack, pushResult_rack_done, rackPut_rack, traceRack_rack, respond_master_self, if_true]
    refine ⟨rfl, trivial, hpush, trivial, hstaging, fun j hj => if_neg hj⟩
  · obtain ⟨hpush, -⟩ := pushResult_master (s.traceRack rk 1 m .busy (fb hdr.toNat 15 8) (s.rack rk).next.toNat) m rk .busy
    simp only [respond_rack, pushResult_rack_busy, traceRack_rack, respond_master_self, if_true]
    exact ⟨trivial, hpush, fun j hj => if_neg hj⟩

end Sys2Proof.Machine
end

section
/-! PROOF. Set POP and set PEEK (R157): the policy's member serves, and its rack alone is read. -/

namespace Sys2Proof.Machine

open Sys2Proof

/-- R310: no rack of the set has an unreadable entry, so the set is ready as it stands. -/
theorem setReady_eq_self {s : State} {x : RackSet} (hbad : ∀ j, (s.rack j).bad = []) : s.setReady x = s := by
  unfold State.setReady
  induction x.members with
  | nil => rfl
  | cons rk r ih => rw [List.foldl_cons, rackReady_eq_self (hbad rk), ih]

theorem mem_of_setServe {s : State} {x : RackSet} {i rk : Nat} (h : setServe s x = some (i, rk)) : x.members ≠ [] := by
  rintro hm
  have horder : x.order = [] := by simp [RackSet.order, hm]
  simp [setServe, horder] at h

/-- R149, R155, R205, R263: what lets an access to a set window through. -/
theorem setRefusal_eq_none {s : State} {m n i rk : Nat} {need : Right} (hready : s.isReady = true)
    (hcmd : (s.rackSet n).members.any s.isCmdRack = false) (hserve : setServe s (s.rackSet n) = some (i, rk))
    (hright : s.hasSet m n need = true) : setRefusal s m n need = none := by
  simp [setRefusal, hready, mem_of_setServe hserve, hright, hcmd]

theorem peekMsg_of_msgs {s : State} {rk : Nat} {h : List DWord} {r : List (List DWord)} (hmsgs : (s.rack rk).msgs = h :: r) :
    peekMsg s rk = h := by
  simp [peekMsg, hmsgs]

section Serve
variable {s : State} {m n i rk : Nat} {h : List DWord} {r : List (List DWord)} (hbad : ∀ j, (s.rack j).bad = [])
  (hserve : setServe s (s.rackSet n) = some (i, rk)) (hmsgs : (s.rack rk).msgs = h :: r)
include hbad hserve hmsgs

theorem setPop_serves (hopen : setRefusal s m n .use = none) : ∃ t, exec (.setPop m n) s = .next t
    ∧ (t.rack rk).msgs = r ∧ (t.rackSet n).last = i ∧ (t.master m).resp.words = padMsg h := by
  change ∃ t, execSetPop m n s = .next t ∧ _
  simp only [execSetPop, hopen, setReady_eq_self hbad, hserve, peekMsg_of_msgs hmsgs]
  refine ⟨_, rfl, ?_, ?_, (latchMsg_master_self _ m (256 + n) h).2⟩
  · change ((State.latchMsg _ m (256 + n) h).rack rk).msgs = r
    rw [latchMsg_rack, rackDrop_rack, traceRead_rack, hmsgs, List.tail_cons]
  · simp [State.rackSet]

theorem setPeek_shows (hopen : setRefusal s m n .read = none) : ∃ t, exec (.setPeek m n) s = .next t
    ∧ (t.rack rk).msgs = h :: r ∧ (t.rackSet n).last = (s.rackSet n).last ∧ (t.master m).resp.words = padMsg h := by
  change ∃ t, execSetPeek m n s = .next t ∧ _
  simp only [execSetPeek, hopen, setReady_eq_self hbad, hserve, peekMsg_of_msgs hmsgs]
  refine ⟨_, rfl, ?_, ?_, ?_⟩
  · rw [respond_rack, traceRead_rack, hmsgs]
  · rw [respond_rackSet, traceRead_ok.rackSet_eq rfl]
  · rw [respond_master_self]

end Serve

/-- Settles O3: an access that the set window lets through is served by the member that `setServe` names. -/
theorem setServesThePolicyMember : Obligations.SetServesThePolicyMember := by
  unfold Obligations.SetServesThePolicyMember
  intro s m n i rk h r hready hcmd hbad hserve hmsgs
  exact ⟨fun huse => setPop_serves hbad hserve hmsgs (setRefusal_eq_none hready hcmd hserve huse),
    fun hread => setPeek_shows hbad hserve hmsgs (setRefusal_eq_none hready hcmd hserve hread)⟩

end Sys2Proof.Machine
end

section
/-! PROOF. Pips (R165, R166): an operation that the pip registers let through, and what it leaves of the pips and of PIP_RES. -/

namespace Sys2Proof.Machine

open Sys2Proof

/-! ### What a pip operation leaves -/

section PipOp
variable {s : State} {m off op : Nat} {need : Right} {f : State → Nat → State × Code}

/-- R165, R200: a READY package lets a master with the right on its selected pip operate on it. -/
theorem pipOp_open (hready : s.isReady = true) (hright : need.rank ≤ (s.pipRight m (s.master m).pipSel).rank) :
    pipOp m off op need f s =
      .next ((f s (s.master m).pipSel).1.pipRes m (f s (s.master m).pipSel).2 op) := by
  unfold pipOp pipRefusal
  simp [hready, hright]

end PipOp

@[simp] theorem pipRes_pips (s : State) (m : Nat) (c : Code) (op : Nat) : (s.pipRes m c op).pips = s.pips :=
  pipRes_ok.pips_eq rfl

@[simp] theorem pipRes_pip (s : State) (m : Nat) (c : Code) (op j : Nat) : (s.pipRes m c op).pip j = s.pip j :=
  pipRes_ok.pip_eq rfl j

@[simp] theorem pipRes_rack (s : State) (m : Nat) (c : Code) (op j : Nat) : (s.pipRes m c op).rack j = s.rack j :=
  pipRes_ok.rack_eq rfl j

/-- R166: the code of an operation is latched in PIP_RES with its number. -/
@[simp] theorem pipRes_latched (s : State) (m : Nat) (c : Code) (op : Nat) :
    ((s.pipRes m c op).master m).pipResCode = c ∧ ((s.pipRes m c op).master m).pipResOp = op := by
  unfold State.pipRes
  rw [respond_master_self, modMaster_master]
  exact ⟨rfl, rfl⟩

/-! ### The waiters of a pip (R168, R169) -/

/-- What the wakes of a pip's waiters change beside the waiters themselves. -/
theorem wakes_pips (n : Nat) (p : Pip) (hits : List Waiter) (s : State) :
    (hits.foldl (fun s x => (s.tracePip n 8 x.master .done).postReserved x.rack 0x85 .done (wakeBody x p)) s).pips = s.pips :=
  (onlyM_foldl (m := 0x100000101000000) (fun _ _ => only_postReserved (only_tracePip (OnlyM.refl _ _) rfl) rfl)
    (OnlyM.refl _ s)).pips_eq rfl

/-- R168, R169: waiters whose condition holds are freed, and nothing else in the pip store changes. -/
theorem wakeWaiters_pips (s : State) (n : Nat) : (s.wakeWaiters n).pips =
    { s.pips with waiters := s.pips.waiters.filter (fun x => !(x.pip = n && x.holds (s.pip n))) } := by
  unfold State.wakeWaiters
  exact wakes_pips ..

/-- R168: where no waiter's condition holds, nothing is posted. -/
theorem wakeWaiters_eq_self {s : State} {n : Nat} (h : ∀ z ∈ s.pips.waiters, (z.pip = n && z.holds (s.pip n)) = false) :
    s.wakeWaiters n = s := by
  have hnone : s.pips.waiters.filter (fun x => x.pip = n && x.holds (s.pip n)) = [] := by
    simpa [List.filter_eq_nil_iff] using h
  have hall : s.pips.waiters.filter (fun x => !(x.pip = n && x.holds (s.pip n))) = s.pips.waiters := by
    rw [List.filter_eq_self]
    exact fun z hz => by rw [h z hz]; rfl
  unfold State.wakeWaiters
  simp only [hnone, hall, List.foldl_nil]

theorem putPip_pip (s : State) (n j : Nat) (p : Pip) : (s.putPip n p).pip j = if j = n then p else s.pip j := by
  unfold State.putPip State.pip
  rw [wakeWaiters_pips]
  exact tget_tset ..

@[simp] theorem putPip_pip_self (s : State) (n : Nat) (p : Pip) : (s.putPip n p).pip n = p := by
  rw [putPip_pip, if_pos rfl]

theorem putPip_pip_other (s : State) {n j : Nat} (h : j ≠ n) (p : Pip) : (s.putPip n p).pip j = s.pip j := by
  rw [putPip_pip, if_neg h]

/-- An operation that puts descriptor p into the selected pip and answers DONE. -/
theorem pipOp_puts {s : State} {m off op : Nat} {need : Right} {f : State → Nat → State × Code} {p : Pip}
    (hready : s.isReady = true) (hright : need.rank ≤ (s.pipRight m (s.master m).pipSel).rank)
    (hf : f s (s.master m).pipSel = (s.putPip (s.master m).pipSel p, .done)) :
    ∃ t, pipOp m off op need f s = .next t ∧ t.pip (s.master m).pipSel = p ∧ (t.master m).pipResCode = .done
      ∧ (t.master m).pipResOp = op ∧ ∀ j, j ≠ (s.master m).pipSel → t.pip j = s.pip j := by
  refine ⟨_, pipOp_open hready hright, ?_⟩
  rw [hf]
  obtain ⟨hcode, hop⟩ := pipRes_latched (s.putPip (s.master m).pipSel p) m .done op
  exact ⟨by simp, hcode, hop, fun j hj => by simp [putPip_pip_other _ hj]⟩

/-- An operation that leaves the state and answers a code. -/
theorem pipOp_leaves {s : State} {m off op : Nat} {need : Right} {f : State → Nat → State × Code} {c : Code}
    (hready : s.isReady = true) (hright : need.rank ≤ (s.pipRight m (s.master m).pipSel).rank)
    (hf : f s (s.master m).pipSel = (s, c)) :
    ∃ t, pipOp m off op need f s = .next t ∧ t.pips = s.pips ∧ (t.master m).pipResCode = c := by
  refine ⟨_, pipOp_open hready hright, ?_⟩
  rw [hf]
  exact ⟨pipRes_pips .., (pipRes_latched ..).1⟩

/-! ### ADD and SET by mode (R166) -/

section Modes
variable {p : Pip} {v : Word}

theorem add_of_count (h : p.mode = 0) : p.add v = some { p with
    count := p.count + v
    ovf := p.ovf || p.count.toInt + v.toInt < -2147483648 || 2147483647 < p.count.toInt + v.toInt } := by
  simp [Pip.add, h]

theorem add_of_gate (h : p.mode = 1) (hv : 1 ≤ v.toInt) : p.add v = some (p.gateLoop (p.count.toNat + v.toNat)) := by
  simp [Pip.add, h, hv]

theorem add_of_gate_refused (h : p.mode = 1) (hv : v.toInt < 1) : p.add v = none := by
  simp [Pip.add, h, hv]

theorem add_of_flag_or_turn (h : 2 ≤ p.mode) : p.add v = some { p with count := p.count + v } := by
  have h0 : p.mode ≠ 0 := by omega
  have h1 : p.mode ≠ 1 := by omega
  simp [Pip.add, h0, h1]

end Modes

/-! ### The host's operations on the selected pip -/

section Ops
variable {s : State} {m : Nat} {v : Word} {n : Nat} {p : Pip} (hready : s.isReady = true) (hn : n = (s.master m).pipSel)
  (hp : p = s.pip n)
include hready hn hp

section Use
variable (huse : 2 ≤ (s.pipRight m n).rank)
include huse

theorem pipAdd_puts {q : Pip} (hq : p.add v = some q) : ∃ t, exec (.pipAdd m v) s = .next t
    ∧ t.pip n = q ∧ (t.master m).pipResCode = .done ∧ (t.master m).pipResOp = 1 ∧ ∀ j, j ≠ n → t.pip j = s.pip j := by
  subst hp hn
  change ∃ t, execPipAdd m v s = .next t ∧ _
  exact pipOp_puts hready huse (by simp only [hq])

theorem pipAdd_refused (hq : p.add v = none) : ∃ t, exec (.pipAdd m v) s = .next t
    ∧ t.pips = s.pips ∧ (t.master m).pipResCode = .failedAccess := by
  subst hp hn
  change ∃ t, execPipAdd m v s = .next t ∧ _
  exact pipOp_leaves hready huse (by simp only [hq])

theorem pipSet_puts : ∃ t, exec (.pipSet m v) s = .next t
    ∧ t.pip n = p.set v ∧ (t.master m).pipResCode = .done ∧ (t.master m).pipResOp = 2 ∧ ∀ j, j ≠ n → t.pip j = s.pip j := by
  subst hp hn
  change ∃ t, execPipSet m v s = .next t ∧ _
  exact pipOp_puts hready huse rfl

theorem pipTrysub_puts (h0 : p.mode = 0) (hlo : 0 ≤ v.toInt) (hhi : v.toInt ≤ p.count.toInt) :
    ∃ t, exec (.pipTrysub m v) s = .next t ∧ t.pip n = { p with count := p.count - v } ∧ (t.master m).pipResCode = .done
      ∧ ∀ j, j ≠ n → t.pip j = s.pip j := by
  subst hp hn
  change ∃ t, execPipTrysub m v s = .next t ∧ _
  have hputs := pipOp_puts (off := 0x1C) (op := 3) (need := .use) (p := { s.pip (s.master m).pipSel with
    count := (s.pip (s.master m).pipSel).count - v }) hready huse (f := fun s n =>
      let p := s.pip n
      if p.mode ≠ 0 then (s, .failedAccess)
      else if 0 ≤ v.toInt && v.toInt ≤ p.count.toInt then (s.putPip n { p with count := p.count - v }, .done)
      else (s, .busy))
    (by simp only [h0, hlo, hhi, ne_eq, not_true_eq_false, if_false, decide_true, Bool.and_self, if_true])
  obtain ⟨t, hexec, hpip, hcode, -, hother⟩ := hputs
  exact ⟨t, hexec, hpip, hcode, hother⟩

theorem pipTrysub_leaves {c : Code}
    (hc : (p.mode ≠ 0 ∧ c = .failedAccess) ∨ (p.mode = 0 ∧ (v.toInt < 0 ∨ p.count.toInt < v.toInt) ∧ c = .busy)) :
    ∃ t, exec (.pipTrysub m v) s = .next t ∧ t.pips = s.pips ∧ (t.master m).pipResCode = c := by
  subst hp hn
  change ∃ t, execPipTrysub m v s = .next t ∧ _
  refine pipOp_leaves hready huse ?_
  obtain ⟨h0, rfl⟩ | ⟨h0, hout, rfl⟩ := hc
  · simp only [h0, if_true, ne_eq, not_false_eq_true]
  · have hcond : (decide (0 ≤ v.toInt) && decide (v.toInt ≤ (s.pip (s.master m).pipSel).count.toInt)) = false := by
      rcases hout with h | h <;> simp [h]
    simp only [h0, hcond, ne_eq, not_true_eq_false, Bool.false_eq_true, if_false]

end Use

/-- R165, R166: a configuration write that leaves a valid pip takes effect, through the GATE loop in GATE mode; another changes
nothing. -/
theorem pipConfig_puts {off : Nat} {f : Pip → Pip} (hadmin : (s.pipRight m n).rank = 3) (hvalid : (f p).valid = true) :
    ∃ t, pipOp m off 7 .admin (pipConfig f) s = .next t
      ∧ t.pip n = (if (f p).mode = 1 then (f p).gateLoop (f p).count.toNat else f p) ∧ (t.master m).pipResCode = .done
      ∧ ∀ j, j ≠ n → t.pip j = s.pip j := by
  subst hp hn
  obtain ⟨t, hexec, hpip, hcode, -, hother⟩ := pipOp_puts (off := off) (op := 7) (need := .admin) (f := pipConfig f) hready hadmin.ge
    (by simp only [pipConfig, hvalid, Bool.not_true, Bool.false_eq_true, if_false]; rfl)
  exact ⟨t, hexec, hpip, hcode, hother⟩

theorem pipConfig_refused {off : Nat} {f : Pip → Pip} (hadmin : (s.pipRight m n).rank = 3) (hvalid : (f p).valid = false) :
    ∃ t, pipOp m off 7 .admin (pipConfig f) s = .next t ∧ t.pips = s.pips ∧ (t.master m).pipResCode = .failedAccess := by
  subst hp hn
  exact pipOp_leaves hready hadmin.ge (by simp only [pipConfig, hvalid, Bool.not_false, if_true])

end Ops

/-! ### Descriptors that a configuration write may not leave (R165) -/

theorem gate_target_zero_invalid {p : Pip} (h : p.mode = 1) : ({ p with target := 0 } : Pip).valid = false := by
  simp [Pip.valid, h]

theorem mode_above_invalid {p : Pip} (h : 3 < p.mode) : p.valid = false := by
  have hmode : ¬ p.mode < 4 := by omega
  simp [Pip.valid, hmode]

/-- Settles O4: each clause is the operation's lemma with what ADD, SET or TRYSUB does in that mode. -/
theorem pipWritesByMode : Obligations.PipWritesByMode := by
  unfold Obligations.PipWritesByMode
  intro s m v hready huse n p
  have hadd := @pipAdd_puts s m v n p hready rfl rfl huse
  have hrefused := @pipAdd_refused s m v n p hready rfl rfl huse
  have hset := @pipSet_puts s m v n p hready rfl rfl huse
  refine ⟨?addCount, ?addGate, ?addBelowOne, ?addOther, ?setGate, ?setOther, ?sub, ?subBusy, ?subMode⟩
  case addCount => exact fun h => hadd (add_of_count h)
  case addGate =>
    intro h hv
    obtain ⟨t, hexec, hpip, -⟩ := hadd (add_of_gate h hv)
    exact ⟨t, hexec, by rw [hpip]; rfl, by rw [hpip]; rfl⟩
  case addBelowOne => exact fun h hv => hrefused (add_of_gate_refused h hv)
  case addOther =>
    intro h
    obtain ⟨t, hexec, hpip, hcode, -, hother⟩ := hadd (add_of_flag_or_turn h)
    exact ⟨t, hexec, hpip, hcode, hother⟩
  case setGate =>
    intro h
    obtain ⟨t, hexec, hpip, hcode, -⟩ := hset
    rw [Pip.set, if_pos h] at hpip
    exact ⟨t, hexec, by rw [hpip]; rfl, by rw [hpip]; rfl, hcode⟩
  case setOther =>
    intro h
    rw [Pip.set, if_neg h] at hset
    exact hset
  case sub => exact pipTrysub_puts hready rfl rfl huse
  case subBusy => exact fun h hout => pipTrysub_leaves hready rfl rfl huse (.inr ⟨h, hout, rfl⟩)
  case subMode => exact fun h => pipTrysub_leaves hready rfl rfl huse (.inl ⟨h, rfl⟩)

/-- Settles O5: PIP_TARGET, PIP_MODE and PIP_OVF_CLEAR are configuration writes, judged by the pip that they would leave. -/
theorem pipConfigurationIsChecked : Obligations.PipConfigurationIsChecked := by
  unfold Obligations.PipConfigurationIsChecked
  intro s m v hready hadmin n p q
  refine ⟨?target, ?targetZero, ?mode, ?modeAbove, ?ovf⟩
  case target => exact pipConfig_puts (f := fun p => { p with target := v }) hready rfl rfl hadmin
  case targetZero =>
    rintro h rfl
    exact pipConfig_refused (f := fun p => { p with target := 0 }) hready rfl rfl hadmin (gate_target_zero_invalid h)
  case mode => exact pipConfig_puts (f := pipModeFields v) hready rfl rfl hadmin
  case modeAbove =>
    exact fun h => pipConfig_refused (f := pipModeFields v) hready rfl rfl hadmin (mode_above_invalid h)
  case ovf =>
    intro h
    obtain ⟨t, hexec, hpip, hcode, hother⟩ := pipConfig_puts (off := 0x0C) (f := pipModeFields (v ||| 0x200)) hready rfl rfl hadmin h
    refine ⟨t, hexec, ?_, hcode, hother⟩
    have hcleared : (pipModeFields (v ||| 0x200) p).ovf = false := by simp [pipModeFields]
    rw [hpip]
    split
    · exact hcleared
    · exact hcleared

end Sys2Proof.Machine
end

section
/-! PROOF. WAIT, ARRIVE and CANCEL (R166 to R169): a waiter and its reserved entry come and go together. -/

namespace Sys2Proof.Machine

open Sys2Proof

/-- The waiter that master m registers on pip n. -/
def State.waiterOf (s : State) (m n cond : Nat) (value : Word) : Waiter :=
  { pip := n, master := m, cond := cond, value := value, rack := (s.master m).waitRack, tag := (s.master m).waitTag }

/-- No waiter of the list stands on pip n with its condition holding. -/
def NoneHolds (s : State) (n : Nat) (l : List Waiter) : Prop := ∀ z ∈ l, (z.pip = n && z.holds (s.pip n)) = false

section Register
variable (s : State) (m n cond : Nat) (value : Word)

theorem register_pips : (s.register m n cond value).pips =
    { s.pips with waiters := s.pips.waiters ++ [s.waiterOf m n cond value] } := rfl

theorem register_pip (j : Nat) : (s.register m n cond value).pip j = s.pip j := rfl

theorem register_rack : (s.register m n cond value).rack (s.master m).waitRack =
    { s.rack (s.master m).waitRack with reserved := (s.rack (s.master m).waitRack).reserved + 1 } :=
  modRack_rack s _ _

end Register

theorem NoneHolds.append {s : State} {n : Nat} {l : List Waiter} {y : Waiter} (hl : NoneHolds s n l) (hy : y.holds (s.pip n) = false) :
    NoneHolds s n (l ++ [y]) := by
  intro z hz
  rcases List.mem_append.mp hz with h | h
  · exact hl z h
  · rw [List.mem_singleton.mp h, hy, Bool.and_false]

/-- R169: the one waiter whose condition holds is freed, and its wake goes into its reserved entry. -/
theorem wakeWaiters_posts {s : State} {n : Nat} {l : List Waiter} {y : Waiter} (hl : s.pips.waiters = l ++ [y]) (hy : y.pip = n)
    (hholds : y.holds (s.pip n) = true) (hrest : NoneHolds s n l) :
    (s.wakeWaiters n).pips.waiters = l ∧ ((s.wakeWaiters n).rack y.rack).reserved = (s.rack y.rack).reserved - 1
      ∧ ((s.wakeWaiters n).rack y.rack).msgs.length = (s.rack y.rack).msgs.length + 1 := by
  have hhit : s.pips.waiters.filter (fun x => x.pip = n && x.holds (s.pip n)) = [y] := by
    have hnone : l.filter (fun x => x.pip = n && x.holds (s.pip n)) = [] := by
      simpa [NoneHolds, List.filter_eq_nil_iff] using hrest
    simp [hl, List.filter_append, hnone, hy, hholds]
  have hkeep : s.pips.waiters.filter (fun x => !(x.pip = n && x.holds (s.pip n))) = l := by
    have hall : l.filter (fun x => !(x.pip = n && x.holds (s.pip n))) = l :=
      List.filter_eq_self.mpr (fun z hz => by rw [hrest z hz]; rfl)
    rw [hl, List.filter_append, hall]
    simp [hy, hholds]
  refine ⟨by rw [wakeWaiters_pips]; exact hkeep, ?_⟩
  unfold State.wakeWaiters
  simp only [hhit, List.foldl_cons, List.foldl_nil, postReserved_rack, if_true, tracePip_ok.rack_eq rfl, List.length_append,
    List.length_singleton]
  exact ⟨rfl, rfl⟩

/-! ### WAIT -/

section Wait
variable {s : State} {m : Nat} {v : Word} {n : Nat} {x : Master} (hready : s.isReady = true) (hx : x = s.master m) (hn : n = x.pipSel)
  (huse : 2 ≤ (s.pipRight m n).rank)
include hready hx hn huse

theorem exec_pipWait_done (hcode : waitCode s m n x.waitCond = .done) :
    exec (.pipWait m v) s = .next (((s.register m n x.waitCond v).wakeWaiters n).pipRes m .done 4) := by
  subst hx hn
  change execPipWait m v s = _
  unfold execPipWait
  rw [pipOp_open (need := .use) hready huse]
  simp only [hcode]

/-- R168: a condition that does not hold yet leaves the waiter and its reserved entry. -/
theorem pipWait_registers (hcode : waitCode s m n x.waitCond = .done) (hy : (s.waiterOf m n x.waitCond v).holds (s.pip n) = false)
    (hrest : NoneHolds s n s.pips.waiters) :
    ∃ t, exec (.pipWait m v) s = .next t ∧ t.pips.waiters = s.pips.waiters ++ [s.waiterOf m n x.waitCond v]
      ∧ (t.rack x.waitRack).reserved = (s.rack x.waitRack).reserved + 1
      ∧ (t.rack x.waitRack).msgs = (s.rack x.waitRack).msgs ∧ (t.master m).pipResCode = .done := by
  have hself : (s.register m n x.waitCond v).wakeWaiters n = s.register m n x.waitCond v :=
    wakeWaiters_eq_self (hrest.append hy)
  refine ⟨_, exec_pipWait_done hready hx hn huse hcode, ?_⟩
  rw [hself, pipRes_pips, pipRes_rack, hx, register_rack]
  exact ⟨rfl, rfl, rfl, (pipRes_latched ..).1⟩

/-- R168: a condition that holds already posts the wake at once, into the entry just reserved. -/
theorem pipWait_posts (hcode : waitCode s m n x.waitCond = .done) (hy : (s.waiterOf m n x.waitCond v).holds (s.pip n) = true)
    (hrest : NoneHolds s n s.pips.waiters) :
    ∃ t, exec (.pipWait m v) s = .next t ∧ t.pips.waiters = s.pips.waiters
      ∧ (t.rack x.waitRack).msgs.length = (s.rack x.waitRack).msgs.length + 1
      ∧ (t.rack x.waitRack).reserved = (s.rack x.waitRack).reserved ∧ (t.master m).pipResCode = .done := by
  obtain ⟨hwaiters, hreserved, hmsgs⟩ := wakeWaiters_posts (s := s.register m n x.waitCond v) (n := n) (l := s.pips.waiters)
    (y := s.waiterOf m n x.waitCond v) rfl rfl hy hrest
  refine ⟨_, exec_pipWait_done hready hx hn huse hcode, ?_⟩
  have hrack : x.waitRack = (s.waiterOf m n x.waitCond v).rack := by rw [hx]; rfl
  have hregister := register_rack s m n x.waitCond v
  rw [← hx, hrack] at hregister
  rw [hregister] at hreserved hmsgs
  rw [pipRes_pips, pipRes_rack, hrack]
  exact ⟨hwaiters, hmsgs, hreserved, (pipRes_latched ..).1⟩

theorem pipWait_refused (hcode : waitCode s m n x.waitCond ≠ .done) :
    ∃ t, exec (.pipWait m v) s = .next t ∧ t.pips = s.pips ∧ (t.master m).pipResCode = waitCode s m n x.waitCond := by
  subst hx hn
  change ∃ t, execPipWait m v s = .next t ∧ _
  refine pipOp_leaves (need := .use) hready huse ?_
  split
  case h_1 h => exact absurd h hcode
  case h_2 => rfl

end Wait

/-! ### ARRIVE and CANCEL -/

/-- A count below its target passes the GATE loop as it is. -/
theorem gateLoop_below {p : Pip} {c : Nat} (h : c < p.target.toNat) : p.gateLoop c = { p with count := BitVec.ofNat 32 c } := by
  simp [Pip.gateLoop, Nat.mod_eq_of_lt h, Nat.div_eq_of_lt h]

/-- R168: a GEN waiter that holds the pip's own gen does not hold. -/
theorem gen_waiter_waits (s : State) (m n : Nat) (p q : Pip) (hq : q.gen = p.gen) :
    (s.waiterOf m n 4 (p.gen.zeroExtend 32)).holds q = false := by
  have hlt : p.gen.toNat < 65536 := p.gen.isLt
  simp [Waiter.holds, State.waiterOf, fb, hq, Nat.mod_eq_of_lt (show p.gen.toNat < 4294967296 by omega), Nat.mod_eq_of_lt hlt]

/-- A descriptor under which no waiter's condition holds leaves them all. -/
theorem putPip_waiters {s : State} {n : Nat} {p : Pip} (h : ∀ z ∈ s.pips.waiters, (z.pip = n && z.holds p) = false) :
    (s.putPip n p).pips.waiters = s.pips.waiters := by
  have hpip : ({ s with pips.pips := tset n p s.pips.pips } : State).pip n = p := tget_tset_same ..
  unfold State.putPip
  rw [wakeWaiters_eq_self (by rw [hpip]; exact h)]

section Arrive
variable {s : State} {m : Nat} {v : Word} {n : Nat} (hready : s.isReady = true) (hn : n = (s.master m).pipSel)
  (huse : 2 ≤ (s.pipRight m n).rank)
include hready hn huse

/-- R166: ARRIVE below the target adds to the count and registers the GEN waiter. -/
theorem pipArrive_waits (hmode : (s.pip n).mode = 1) (hv : 1 ≤ v.toInt)
    (hbelow : (s.pip n).count.toNat + v.toNat < (s.pip n).target.toNat) (hnone : s.pips.waiters = [])
    (hcode : waitCode s m n 4 = .done) :
    ∃ t, exec (.pipArrive m v) s = .next t
      ∧ t.pip n = { s.pip n with count := BitVec.ofNat 32 ((s.pip n).count.toNat + v.toNat) }
      ∧ t.pips.waiters = [s.waiterOf m n 4 ((s.pip n).gen.zeroExtend 32)] ∧ (t.master m).pipResCode = .done := by
  subst hn
  generalize hN : (s.master m).pipSel = n at *
  generalize hp : s.pip n = p at *
  have hadd : p.add v = some { p with count := BitVec.ofNat 32 (p.count.toNat + v.toNat) } := by
    rw [add_of_gate hmode hv, gateLoop_below hbelow]
  change ∃ t, execPipArrive m v s = .next t ∧ _
  unfold execPipArrive
  rw [pipOp_open (need := .use) hready (hN ▸ huse)]
  refine ⟨_, rfl, ?_⟩
  simp only [hN, hp, hmode, ne_eq, not_true_eq_false, if_false, hadd, hcode, pipRes_pip, pipRes_pips, putPip_pip_self, (pipRes_latched ..).1,
    true_and, and_true]
  rw [putPip_waiters, register_pips, hnone]
  · rfl
  · intro z hz
    have hz' : z = s.waiterOf m n 4 (p.gen.zeroExtend 32) := by
      simpa [register_pips, hnone] using hz
    exact hz' ▸ Bool.and_eq_false_iff.mpr (.inr (gen_waiter_waits s m n p _ rfl))

/-- R169: CANCEL frees the master's waiter of the tag and its entry. -/
theorem pipCancel_frees {w : Waiter} (hone : s.pips.waiters = [w]) (hpip : w.pip = n) (hmaster : w.master = m)
    (htag : w.tag = fb v.toNat 15 0) :
    ∃ t, exec (.pipCancel m v) s = .next t ∧ t.pips.waiters = []
      ∧ (t.rack w.rack).reserved = (s.rack w.rack).reserved - 1 ∧ (t.master m).pipResCode = .done := by
  subst hn
  change ∃ t, execPipCancel m v s = .next t ∧ _
  unfold execPipCancel
  rw [pipOp_open (need := .use) hready huse]
  refine ⟨_, rfl, ?_⟩
  simp only [hone, hpip, hmaster, htag, List.find?_cons, List.filter_cons, decide_true, Bool.and_self, Bool.not_true,
    Bool.false_eq_true, if_false, List.filter_nil, pipRes_pips, pipRes_rack, modRack_rack, (pipRes_latched ..).1, and_true]
  exact ⟨rfl, rfl⟩

theorem pipCancel_repeats (hnone : s.pips.waiters.any (fun w => w.pip = n && w.master = m && w.tag = fb v.toNat 15 0) = false) :
    ∃ t, exec (.pipCancel m v) s = .next t ∧ t.pips = s.pips ∧ (t.master m).pipResCode = .repeated := by
  subst hn
  change ∃ t, execPipCancel m v s = .next t ∧ _
  refine pipOp_leaves (need := .use) hready huse ?_
  have hfind : s.pips.waiters.find? (fun w => w.pip = (s.master m).pipSel && w.master = m && w.tag = fb v.toNat 15 0) = none := by
    rw [List.find?_eq_none]
    simpa [List.any_eq_false] using hnone
  simp only [hfind]

end Arrive

/-- Settles O6: one lemma for each outcome of WAIT, ARRIVE and CANCEL. -/
theorem pipWaitersHoldARackEntry : Obligations.PipWaitersHoldARackEntry := by
  unfold Obligations.PipWaitersHoldARackEntry
  intro s m v hready huse n x y
  exact ⟨pipWait_registers hready rfl rfl huse, pipWait_posts hready rfl rfl huse, pipWait_refused hready rfl rfl huse,
    pipArrive_waits hready rfl huse, fun w => pipCancel_frees hready rfl huse, pipCancel_repeats hready rfl huse⟩

end Sys2Proof.Machine
end

section
/-! PROOF. The dispatcher (R155, R210, R214): taking the head command of a command rack, and the commands it completes itself. -/

namespace Sys2Proof.Machine

open Sys2Proof

/-- A completion goes into the completion rack of the command's device; every other rack reads the same. -/
theorem complete_rack_other {s : State} {c : ExecCmd} {code : Code} {rs : List DWord} {n j : Nat} (hld : s.ldOfRack c.rk = some n)
    (hj : j ≠ (s.ld n).cplRack) : (s.complete c code rs).rack j = s.rack j := by
  unfold State.complete
  simp only [hld]
  split
  · rw [modLd_rack, postReserved_rack, if_neg hj]
    rfl
  · rw [postReserved_rack, if_neg hj]
    rfl

section TakeCmd
variable (s : State) (rk cpl : Nat) (msg : List DWord)

theorem takeCmd_rack (hne : cpl ≠ rk) :
    ((s.takeCmd rk cpl msg).1.rack rk).msgs = (s.rack rk).msgs.tail
      ∧ ((s.takeCmd rk cpl msg).1.rack cpl).reserved = (s.rack cpl).reserved + 1 := by
  change (((s.rackDrop rk).modRack cpl (fun r => { r with reserved := r.reserved + 1 })).rack rk).msgs = _
    ∧ (((s.rackDrop rk).modRack cpl (fun r => { r with reserved := r.reserved + 1 })).rack cpl).reserved = _
  rw [modRack_rack_other _ hne.symm, rackDrop_rack, modRack_rack, State.rackDrop, modRack_rack_other _ hne]
  exact ⟨rfl, rfl⟩

end TakeCmd

section Dispatch
variable {s : State} {rk n : Nat} {msg : List DWord} {r : List (List DWord)} (hready : s.isReady = true)
  (hon : s.pwr.dispatchOff = false) (hld : s.ldOfRack rk = some n) (hbad : (s.rack rk).bad = [])
  (hmsgs : (s.rack rk).msgs = msg :: r) (hne : (s.ld n).cplRack ≠ rk) (hfree : 0 < (s.rack (s.ld n).cplRack).free)
  (hfailed : tget 0 rk s.hub.failedHeads = 0)
include hready hon hld hbad hmsgs hfree hfailed

theorem exec_commandDispatch_head : exec (.commandDispatch rk) s = .next (if badCmd msg then
    (s.takeCmd rk (s.ld n).cplRack msg).1.complete (s.takeCmd rk (s.ld n).cplRack msg).2 (s.badCode msg) []
    else (s.takeCmd rk (s.ld n).cplRack msg).1) := by
  change execCommandDispatch rk s = _
  unfold execCommandDispatch
  simp only [hld, hready, hon, rackReady_eq_self hbad, hmsgs, hfailed, hfree.ne', Bool.not_true, Bool.or_self,
    Bool.false_eq_true, if_false, Nat.lt_irrefl]
  split <;> rfl

include hne

theorem commandDispatch_takes (hgood : badCmd msg = false) : ∃ t, exec (.commandDispatch rk) s = .next t
    ∧ (t.rack rk).msgs = r
    ∧ (t.rack (s.ld n).cplRack).reserved = (s.rack (s.ld n).cplRack).reserved + 1
    ∧ t.hub.executing = s.hub.executing ++ [(s.takeCmd rk (s.ld n).cplRack msg).2] := by
  obtain ⟨hhead, hentry⟩ := takeCmd_rack s rk (s.ld n).cplRack msg hne
  refine ⟨_, exec_commandDispatch_head hready hon hld hbad hmsgs hfree hfailed, ?_⟩
  rw [if_neg (ne_true_of_eq_false hgood)]
  exact ⟨by rw [hhead, hmsgs, List.tail_cons], hentry, rfl⟩

theorem commandDispatch_refuses (hrefused : badCmd msg = true) (hstw : s.flt.stwReset = false) :
    ∃ t, exec (.commandDispatch rk) s = .next t ∧ (t.rack rk).msgs = r
      ∧ Completed t rk (wf (msg.headD 0) 63 32) (wf (msg.headD 0) 15 8) .failedAccess [] := by
  obtain ⟨hhead, -⟩ := takeCmd_rack s rk (s.ld n).cplRack msg hne
  have hcode : s.badCode msg = .failedAccess := by simp [State.badCode, hstw]
  refine ⟨_, exec_commandDispatch_head hready hon hld hbad hmsgs hfree hfailed, ?_⟩
  rw [if_pos hrefused, hcode]
  refine ⟨?_, complete_completed _ _ .failedAccess [] (by decide)⟩
  rw [complete_rack_other (s := (s.takeCmd rk (s.ld n).cplRack msg).1) (c := (s.takeCmd rk (s.ld n).cplRack msg).2) hld hne.symm, hhead,
    hmsgs, List.tail_cons]

end Dispatch

/-- Settles O7: the head command is taken, and one that no unit takes completes at once. -/
theorem dispatchTakesTheHeadCommand : Obligations.DispatchTakesTheHeadCommand := by
  unfold Obligations.DispatchTakesTheHeadCommand
  intro s rk n msg r hready hon hld hbad hmsgs hne hfree hfailed
  exact ⟨commandDispatch_takes hready hon hld hbad hmsgs hne hfree hfailed,
    commandDispatch_refuses hready hon hld hbad hmsgs hne hfree hfailed⟩

/-! ### The dispatcher's own commands -/

/-- A command that begins, and whose meaning completes it in the state that its wakes leave, with another code than FAILED_LINK. -/
theorem runCmd_completes {s : State} {rk seq op : Nat} {c : ExecCmd} {code : State → ExecCmd → Code} {rs : State → ExecCmd → List DWord}
    (h : Begins s rk seq op c) (hcode : code (s.cmdWake op) c ≠ .failedLink) :
    ∃ t, runCmd op (fun _ => true) (fun s c => s.complete c (code s c) (rs s c)) rk seq s = .next t
      ∧ Completed t rk seq op (code (s.cmdWake op) c) (rs (s.cmdWake op) c) :=
  ⟨_, runCmd_all h, cmd_done s _ h hcode⟩

theorem access_code_ne_failedLink (b : Bool) : (if b then Code.done else .failedAccess) ≠ .failedLink := by
  cases b <;> decide

/-- Settles O8: both complete with the right that the master has on the rack, which the command's wakes leave alone. -/
theorem syncAndNopComplete : Obligations.SyncAndNopComplete := by
  unfold Obligations.SyncAndNopComplete
  intro s rk seq c
  have hhas (op : Nat) : (s.cmdWake op).has c.src (.rack rk) .use = s.has c.src (.rack rk) .use :=
    (cmdWake_only s op).has_eq rfl rfl rfl ..
  refine ⟨fun h => ?_, fun h => ?_⟩
  · change ∃ t, execSync rk seq s = .next t ∧ _
    rw [← hhas 0x3E]
    exact runCmd_completes (code := fun s c => if s.has c.src (.rack rk) .use then .done else .failedAccess) h
      (access_code_ne_failedLink _)
  · change ∃ t, execHostNop rk seq s = .next t ∧ _
    rw [← hhas 0x3F]
    exact runCmd_completes (code := fun s c => if s.has c.src (.rack rk) .use then .done else .failedAccess) h
      (access_code_ne_failedLink _)

end Sys2Proof.Machine
end

section
/-! PROOF. The commands that move a world through its states (R35 to R42, R356): START, PARK, UNPARK, RETIRE. -/

namespace Sys2Proof.Machine

open Sys2Proof

theorem cmdWake_world (s : State) (op i : Nat) : (s.cmdWake op).world i = s.world i := tmp_world (cmdWake_tmp s op) i

theorem cmdWake_has (s : State) (op m : Nat) (o : Target) (r : Right) : (s.cmdWake op).has m o r = s.has m o r :=
  (cmdWake_only s op).has_eq rfl rfl rfl ..

theorem cmdWake_worldLimit (s : State) (op : Nat) : (s.cmdWake op).worldLimit = s.worldLimit :=
  (cmdWake_only s op).worldLimit_eq rfl

/-! ### START -/

theorem startCode_wake (s : State) (op m w a : Nat) : (s.cmdWake op).startCode m w a = s.startCode m w a := by
  unfold State.startCode State.leaderOk
  simp only [cmdWake_world, cmdWake_worldLimit, cmdWake_has, cmdWake_tmp]

theorem startCode_ne_failedLink (s : State) (m w a : Nat) : s.startCode m w a ≠ .failedLink := by
  unfold State.startCode
  dsimp only
  split_ifs <;> simp

theorem execStart_done {s : State} {rk seq : Nat} {c : ExecCmd} (h : Begins s rk seq 0x03 c)
    (hok : s.startCode c.src (wf (c.words.getD 1 0) 12 0) (wf (c.words.getD 1 0) 63 24) = .done) :
    execStart rk seq s = .next (((s.cmdWake 0x03).startWorld (wf (c.words.getD 1 0) 12 0) (wf (c.words.getD 1 0) 63 24)).complete c .done []) := by
  unfold execStart
  rw [runCmd_all h]
  simp only [startCode_wake, hok]

theorem execStart_refused {s : State} {rk seq : Nat} {c : ExecCmd} (h : Begins s rk seq 0x03 c)
    (hno : s.startCode c.src (wf (c.words.getD 1 0) 12 0) (wf (c.words.getD 1 0) 63 24) ≠ .done) :
    execStart rk seq s = .next ((s.cmdWake 0x03).complete c
      (s.startCode c.src (wf (c.words.getD 1 0) 12 0) (wf (c.words.getD 1 0) 63 24)) []) := by
  unfold execStart
  rw [runCmd_all h]
  simp only [startCode_wake]

/-- Settles O9: only what is near the started world follows its anchor, and the completion leaves the world alone. -/
theorem startRunsTheWorldFromItsAnchor : Obligations.StartRunsTheWorldFromItsAnchor := by
  unfold Obligations.StartRunsTheWorldFromItsAnchor
  intro s rk seq c h w a
  refine ⟨fun hok => ⟨_, execStart_done h hok, ?_⟩, fun hno => ⟨_, execStart_refused h hno, ?_⟩⟩
  · obtain ⟨u, hnear, hst, hanchor, hs, ht, hopened, hclosed⟩ := startWorld_near (s.cmdWake 0x03) w a
    obtain ⟨est, et, es, eopened, eclosed, eanchor, -⟩ := hnear.fields w
    rw [complete_world, est, et, es, eopened, eclosed, eanchor]
    exact ⟨hst, hanchor, hs, ht, hopened, hclosed, cmd_done s _ h (by decide)⟩
  · exact ⟨(complete_tmp ..).trans (cmdWake_tmp s 0x03), cmd_done s _ h (startCode_ne_failedLink s c.src w a)⟩

/-! ### PARK and UNPARK -/

section Park
variable {s : State} {rk seq : Nat} {c : ExecCmd} (h : Begins s rk seq 0x04 c) (hw : wf (c.words.getD 1 0) 12 0 < s.worldLimit)
  (hadmin : s.has c.src (.world (wf (c.words.getD 1 0) 12 0)) .admin = true)
include h hw hadmin

theorem execPark_running (hst : (s.world (wf (c.words.getD 1 0) 12 0)).st = .running) :
    execPark rk seq s = .next (((s.cmdWake 0x04).parkWorld (wf (c.words.getD 1 0) 12 0) 6).complete c .done []) := by
  unfold execPark
  rw [runCmd_all h]
  generalize wf (c.words.getD 1 0) 12 0 = w at *
  simp [cmdWake_world, cmdWake_worldLimit, cmdWake_has, hst, hadmin, hw]

theorem execPark_parked (hst : (s.world (wf (c.words.getD 1 0) 12 0)).st = .parked) :
    execPark rk seq s = .next ((s.cmdWake 0x04).complete c .done []) := by
  unfold execPark
  rw [runCmd_all h]
  generalize wf (c.words.getD 1 0) 12 0 = w at *
  simp [cmdWake_world, cmdWake_worldLimit, cmdWake_has, hst, hadmin, hw]

end Park

/-- What PARK leaves of the world it parks. -/
theorem parkWorld_fields {s : State} {w : Nat} (cause : Nat) (hst : (s.world w).st = .running) :
    ((s.parkWorld w cause).world w).st = .parked ∧ ((s.parkWorld w cause).world w).parkCause = cause
      ∧ ((s.parkWorld w cause).world w).t = (s.world w).t ∧ ((s.parkWorld w cause).world w).s = (s.world w).s := by
  obtain ⟨est, et, es, -, -, -, ecause, -⟩ := (parkWorld_self s w cause hst).fields
  rw [est, et, es, ecause, modWorld_world]
  exact ⟨rfl, rfl, rfl, rfl⟩

theorem execUnpark_done {s : State} {rk seq : Nat} {c : ExecCmd} (h : Begins s rk seq 0x05 c)
    (hok : s.unparkCode c.src (c.words.getD 1 0) (c.words.getD 2 0) = .done) :
    execUnpark rk seq s = .next (((s.cmdWake 0x05).unparkWorld (c.words.getD 1 0) (c.words.getD 2 0)).complete c .done []) := by
  unfold execUnpark
  rw [runCmd_all h]
  simp only [unparkCode_wake, hok]

/-- The world of an UNPARK with words w1 and w2, before its T moves on. -/
def unparked (s : State) (w1 w2 : DWord) (y : World) : World :=
  let y1 := if wf w1 15 15 = 1 then y.newSource w2 else y
  { y1 with st := .running, rem := 0, debt := 0, padv := 0, lastAdv := s.aon.wall,
            s := if wf w1 13 13 = 1 then y1.start (wf w1 47 16) else y1.s,
            t := if wf w1 13 13 = 1 then y1.start (wf w1 47 16) else y1.t,
            jumpTo := if wf w1 13 13 = 1 then wf w1 47 16 else y1.jumpTo,
            overrun := !(decide (wf w1 13 13 = 1)) && y1.overrun }

/-- The state that an UNPARK leaves before its T moves on: a new source is subscribed to, and the world's ports are armed. -/
def State.unparkRuns (s : State) (w1 w2 : DWord) : State :=
  let w := wf w1 12 0
  let s1 := s.modWorld w (unparked s w1 w2)
  let s2 := if wf w1 15 15 = 1 then s1.subscribePeer w else s1
  ((if wf w1 14 14 = 1 then s2.armWorld w else s2).runningChanged w).afterT w (s.world w).t

theorem unparkWorld_eq (s : State) (w1 w2 : DWord) : s.unparkWorld w1 w2 = if wf w1 13 13 = 1 then s.unparkRuns w1 w2
    else if (((s.unparkRuns w1 w2).moveT (wf w1 12 0)).world (wf w1 12 0)).srcKind = 1 then (s.unparkRuns w1 w2).moveT (wf w1 12 0)
    else ((s.unparkRuns w1 w2).moveT (wf w1 12 0)).judgeLag (wf w1 12 0) := rfl

theorem unparkRuns_near (s : State) (w1 w2 : DWord) : Near (s.modWorld (wf w1 12 0) (unparked s w1 w2)) (s.unparkRuns w1 w2) := by
  unfold State.unparkRuns
  refine Near.trans (Near.trans ?_ (near_runningChanged _ _)) (near_afterT _ _ _)
  have hsubs : Near (s.modWorld (wf w1 12 0) (unparked s w1 w2)) (if wf w1 15 15 = 1
      then (s.modWorld (wf w1 12 0) (unparked s w1 w2)).subscribePeer (wf w1 12 0) else s.modWorld (wf w1 12 0) (unparked s w1 w2)) := by
    split
    · exact Near.of_worlds (subscribePeer_ok.worlds_eq (by decide))
    · exact Near.refl _
  split
  · exact hsubs.trans (Near.of_worlds (armWorld_ok.worlds_eq (by decide)))
  · exact hsubs

/-- Settles O10: what follows the change of state leaves the world near it. -/
theorem parkHoldsTempoAndUnparkResumes : Obligations.ParkHoldsTempoAndUnparkResumes := by
  unfold Obligations.ParkHoldsTempoAndUnparkResumes
  intro s rk seq c w1 w
  refine ⟨fun h hw hadmin => ⟨fun hst => ⟨_, execPark_running h hw hadmin hst, ?_⟩,
    fun hst => ⟨_, execPark_parked h hw hadmin hst, ?_⟩⟩, fun h hok => ⟨fun hj hkeep => ⟨_, execUnpark_done h hok, ?_⟩,
    fun hj hkeep hsrc => ⟨_, execUnpark_done h hok, ?_⟩⟩⟩
  · obtain ⟨h1, h2, h3, h4⟩ := parkWorld_fields (s := s.cmdWake 0x04) 6 ((congrArg World.st (cmdWake_world ..)).trans hst)
    rw [complete_world]
    rw [cmdWake_world] at h3 h4
    exact ⟨h1, h2, h3, h4, cmd_done s _ h (by decide)⟩
  · exact ⟨(complete_tmp ..).trans (cmdWake_tmp s 0x04), cmd_done s _ h (by decide)⟩
  · obtain ⟨est, et, es, -, -, -, -, epadv, -, ejump, -⟩ := (unparkRuns_near (s.cmdWake 0x05) w1 (c.words.getD 2 0)).fields w
    rw [complete_world, unparkWorld_eq, if_pos hj, est, et, es, epadv, ejump, modWorld_world, cmdWake_world]
    simp only [unparked, hj, hkeep, if_true, if_false, Nat.zero_ne_one, true_and]
    exact ⟨rfl, rfl, cmd_done s _ h (by decide)⟩
  · obtain ⟨est, es, epadv, erem, ekind⟩ := moveT_keep ((unparkRuns_near (s.cmdWake 0x05) w1 (c.words.getD 2 0)).at w)
    rw [modWorld_world, cmdWake_world] at est es epadv erem ekind
    simp only [unparked, hj, hkeep, if_false, Nat.zero_ne_one] at est es epadv erem ekind
    rw [complete_world, unparkWorld_eq, if_neg (hj ▸ Nat.zero_ne_one), if_pos (ekind.trans hsrc), est, es, epadv, erem]
    exact ⟨rfl, rfl, rfl, rfl, cmd_done s _ h (by decide)⟩

/-! ### RETIRE -/

theorem execRetire_begins {s : State} {rk seq : Nat} {c : ExecCmd} (h : Begins s rk seq 0x06 c)
    (hw : wf (c.words.getD 1 0) 12 0 < s.worldLimit) (hadmin : s.has c.src (.world (wf (c.words.getD 1 0) 12 0)) .admin = true)
    (hfree : (s.world (wf (c.words.getD 1 0) 12 0)).st ≠ .free) (hret : (s.world (wf (c.words.getD 1 0) 12 0)).st ≠ .retiring) :
    execRetire rk seq s = .next (((s.cmdWake 0x06).retireWorld (wf (c.words.getD 1 0) 12 0) (rk, seq)).begun c) := by
  unfold execRetire
  rw [runCmd_all h]
  generalize wf (c.words.getD 1 0) 12 0 = w at *
  simp [cmdWake_world, cmdWake_worldLimit, cmdWake_has, hadmin, hw, hfree, hret]

theorem findExec_retire (s : State) (op w rk seq : Nat) (cmd : Nat × Nat) :
    ((s.cmdWake op).retireWorld w cmd).findExec rk seq = s.findExec rk seq :=
  (retireWorld_ok.findExec_eq (by decide) rk seq).trans ((cmdWake_only s op).findExec_eq rfl rk seq)

theorem amendCheck_idle {s : State} (h : s.boot.amending = none) : s.amendCheck = s := by
  unfold State.amendCheck
  rw [h]

theorem completeAt_found {s : State} {rk seq : Nat} {c : ExecCmd} (h : s.findExec rk seq = some c) (code : Code) (rs : List DWord) :
    s.completeAt rk seq code rs = s.complete c code rs := by
  unfold State.completeAt
  rw [h]

/-- The state in which a world's slot is FREE again and its record is posted (R35). -/
def State.slotFreed (s : State) (w : Nat) : State :=
  (s.worldRecord w 0x83 [BitVec.ofNat 64 w, BitVec.ofNat 64 (min (s.world w).discarded 0xFFFF_FFFF)]).modWorld w (fun _ => {})

theorem execRetireComplete_frees {s : State} {w rk seq : Nat} {c : ExecCmd} (hst : (s.world w).st = .retiring)
    (hsettled : s.unsettled w (2 ^ 41) = false) (hruns : s.tiles.any (fun e => e.2.run.any (fun r => r.w = w)) = false)
    (hcmd : (s.world w).retireCmd = some (rk, seq)) (hexec : s.findExec rk seq = some c) (hidle : s.boot.amending = none) :
    execRetireComplete w s = .next ((s.slotFreed w).complete c .done []) := by
  unfold execRetireComplete
  simp only [hst, hsettled, hruns, hcmd, decide_true, Bool.not_false, Bool.and_self, if_true]
  have hfound : (s.slotFreed w).findExec rk seq = some c := (worldRecord_ok.findExec_eq (by decide) rk seq).trans hexec
  have hquiet : ((s.slotFreed w).complete c .done []).boot.amending = none :=
    ((complete_only _ c .done []).amending_eq (by decide)).trans ((worldRecord_ok.amending_eq (by decide)).trans hidle)
  change Host.Outcome.next ((s.slotFreed w).completeAt rk seq .done []).amendCheck = _
  rw [completeAt_found hfound, amendCheck_idle hquiet]

/-- Settles O11: the command waits in execution with the world's slot, and its completion is all that happens with the slot freed. -/
theorem retireEndsInAFreeSlot : Obligations.RetireEndsInAFreeSlot := by
  unfold Obligations.RetireEndsInAFreeSlot
  intro s rk seq c
  refine ⟨fun h hw hadmin hfree hret => ⟨_, execRetire_begins h hw hadmin hfree hret, ?_⟩,
    fun w hst hsettled hruns hcmd hexec hidle => ⟨_, execRetireComplete_frees hst hsettled hruns hcmd hexec hidle, ?_⟩⟩
  · rw [begun_world]
    obtain ⟨hst, hcmd⟩ := retireWorld_self (s.cmdWake 0x06) (wf (c.words.getD 1 0) 12 0) (rk, seq)
    exact ⟨hst, hcmd, findExec_begun _ c ((findExec_retire ..).trans h.1)⟩
  · obtain ⟨erk, eseq⟩ := findExec_keys hexec
    have hdone := complete_completed (s.slotFreed w) c .done [] (by decide)
    rw [erk, eseq] at hdone
    rw [complete_world]
    exact ⟨modWorld_world .., hdone⟩

end Sys2Proof.Machine
end

section
/-! PROOF. Advances of a HOST-sourced world (R40, R42), and the turns that open and close (R12, R20, R38, R161, R163). -/

namespace Sys2Proof.Machine

open Sys2Proof

theorem respond_tmp (s : State) (m : Nat) (ws : List DWord) : (s.respond m ws).tmp = s.tmp := (respond_only s m ws).tmp_eq (by decide)

/-! ### ADVANCE, GROUP_ADVANCE and TMP_HOST_ADV -/

theorem execAdvance_eq {s : State} {rk seq : Nat} {c : ExecCmd} (h : Begins s rk seq 0x01 c) {w delta : Nat}
    (hw : wf (c.words.getD 1 0) 12 0 = w) (hd : wf (c.words.getD 1 0) 39 16 = delta) :
    execAdvance rk seq s = .next (((s.cmdWake 0x01).hostAdvance c.src w delta).1.complete c
      ((s.cmdWake 0x01).hostAdvance c.src w delta).2 []) := by
  unfold execAdvance
  rw [runCmd_all h]
  dsimp only
  rw [hw, hd]

theorem execGroupAdvance_lane {s : State} {rk seq : Nat} {c : ExecCmd} (h : Begins s rk seq 0x02 c) {w delta : Nat}
    (hw : c.targets = [(1, w)]) (hd : wf (c.words.getD 1 0) 39 16 = delta)
    (hdone : ((s.cmdWake 0x02).hostAdvance c.src w delta).2 = .done) :
    execGroupAdvance rk seq s = .next (((s.cmdWake 0x02).hostAdvance c.src w delta).1.complete c .done
      [BitVec.ofNat 64 (2 ^ (w % 32))]) := by
  unfold execGroupAdvance
  rw [runCmd_all h, hw, hd]
  simp only [List.map_cons, List.map_nil, List.foldl_cons, List.foldl_nil, laneAdvance, hdone, if_true, Nat.zero_add]

theorem execTmpHostAdv_done {s : State} {m : Nat} {v : Word} (hready : s.isReady = true) {w delta : Nat} (hw : fb v.toNat 31 19 = w)
    (hd : fb v.toNat 18 0 = delta) (hdone : (s.hostAdvance m w delta).2 = .done) :
    execTmpHostAdv m v s = .next ((s.hostAdvance m w delta).1.respond m []) := by
  unfold execTmpHostAdv
  simp only [hready, hw, hd, hdone, Bool.not_true, Bool.false_eq_true, if_false, if_true]

/-- The first advance that TMP_ADV_ERR reports. -/
def State.advErrPut (s : State) (w : Nat) (k : Code) : State :=
  { s with tmp.advErrValid := true, tmp.advErrWorld := w, tmp.advErrCode := k, tmp.advErrCnt := sat 32 s.tmp.advErrCnt 1 }

theorem advErrPut_world (s : State) (w i : Nat) (k : Code) : (s.advErrPut w k).world i = s.world i := rfl

theorem execTmpHostAdv_refused {s : State} {m : Nat} {v : Word} (hready : s.isReady = true) {w delta : Nat} (hw : fb v.toNat 31 19 = w)
    (hd : fb v.toNat 18 0 = delta) (hbusy : (s.hostAdvance m w delta).2 = .busy)
    (hclear : ((s.hostAdvance m w delta).1.respond m []).tmp.advErrValid = false) :
    execTmpHostAdv m v s = .next (((s.hostAdvance m w delta).1.respond m []).advErrPut w .busy) := by
  unfold execTmpHostAdv
  simp only [hready, hw, hd, hbusy, hclear, Bool.not_true, Bool.false_eq_true, if_false, reduceCtorEq]
  rfl

/-- What an advance within the limit leaves of the world. -/
def Advanced (x : World) (delta : Nat) (y : World) : Prop :=
  y.s = x.s + delta ∧ y.t = max x.t (min (x.s + delta) (x.start x.opened)) ∧ y.st = .running

section Advance
variable {s : State} {m w delta : Nat} (hw : w < s.worldLimit) (huse : s.has m (.world w) .use = true)
  (hkind : (s.world w).srcKind = 1) (hhost : isHost m = true) (hindex : (s.world w).srcIndex = ldOf m)
  (hst : (s.world w).st = .running) (htempo : (s.world w).s + delta ≤ maxTempo)
include hw huse hkind hhost hindex hst htempo

theorem hostAdvance_advances (hfollow : w ∉ s.followers w)
    (hlag : (s.world w).s + delta - s.reach w ((s.world w).s + delta) ≤ (s.world w).limit) :
    (s.hostAdvance m w delta).2 = .done ∧ Advanced (s.world w) delta ((s.hostAdvance m w delta).1.world w) :=
  hostAdvance_done s m w delta hw huse hkind hhost hindex hst htempo hfollow hlag

theorem hostAdvance_wake_advances (op : Nat) (hfollow : w ∉ s.followers w)
    (hlag : (s.world w).s + delta - s.reach w ((s.world w).s + delta) ≤ (s.world w).limit) :
    ((s.cmdWake op).hostAdvance m w delta).2 = .done
      ∧ Advanced (s.world w) delta (((s.cmdWake op).hostAdvance m w delta).1.world w) := by
  have h := hostAdvance_advances (s := s.cmdWake op) (m := m) (w := w) (delta := delta)
  simp only [cmdWake_world, cmdWake_worldLimit, cmdWake_has, followers_wake, reach_wake] at h
  exact h hw huse hkind hhost hindex hst htempo hfollow hlag

theorem hostAdvance_wake_busy (op : Nat)
    (hlag : (s.world w).limit < (s.world w).s + delta - s.reach w ((s.world w).s + delta)) :
    ((s.cmdWake op).hostAdvance m w delta).2 = .busy
      ∧ (((s.cmdWake op).hostAdvance m w delta).1.world w).s = (s.world w).s
      ∧ (((s.cmdWake op).hostAdvance m w delta).1.world w).t = (s.world w).t := by
  have h := hostAdvance_busy (s.cmdWake op) m w delta
  simp only [cmdWake_world, cmdWake_worldLimit, cmdWake_has, reach_wake] at h
  obtain ⟨hcode, hs, ht, -⟩ := h hw huse hkind hhost hindex hst htempo hlag
  exact ⟨hcode, hs, ht⟩

end Advance

/-- Settles O12: each form makes the same advance, and what reports it leaves the world alone. -/
theorem advanceMovesSourceTempo : Obligations.AdvanceMovesSourceTempo := by
  unfold Obligations.AdvanceMovesSourceTempo
  intro s rk seq c m w delta hw huse hkind hhost hindex hst htempo x moved
  refine ⟨fun hfollow hlag => ⟨fun h hsrc hword hdelta => ?_, fun h hsrc htargets hdelta => ?_, fun v hready hword hdelta => ?_⟩,
    fun hlag => ⟨fun h hsrc hword hdelta => ?_, fun v hready hword hdelta hclear => ?_⟩⟩
  · obtain ⟨hcode, hmoved⟩ := hostAdvance_wake_advances hw huse hkind hhost hindex hst htempo 0x01 hfollow hlag
    refine ⟨_, execAdvance_eq h hword hdelta, ?_⟩
    rw [hsrc, hcode]
    exact ⟨by change Advanced x delta _; rw [complete_world]; exact hmoved, cmd_done s _ h (by decide)⟩
  · obtain ⟨hcode, hmoved⟩ := hostAdvance_wake_advances hw huse hkind hhost hindex hst htempo 0x02 hfollow hlag
    refine ⟨_, execGroupAdvance_lane h htargets hdelta (by rw [hsrc]; exact hcode), ?_⟩
    rw [hsrc]
    exact ⟨by change Advanced x delta _; rw [complete_world]; exact hmoved, cmd_done s _ h (by decide)⟩
  · obtain ⟨hcode, hmoved⟩ := hostAdvance_advances hw huse hkind hhost hindex hst htempo hfollow hlag
    refine ⟨_, execTmpHostAdv_done hready hword hdelta hcode, ?_⟩
    exact ⟨by change Advanced x delta _; rw [respond_world]; exact hmoved, by rw [respond_tmp, hostAdvance_adv]⟩
  · obtain ⟨hcode, hs, ht⟩ := hostAdvance_wake_busy hw huse hkind hhost hindex hst htempo 0x01 hlag
    refine ⟨_, execAdvance_eq h hword hdelta, ?_⟩
    rw [hsrc, hcode, complete_world]
    exact ⟨hs, ht, cmd_done s _ h (by decide)⟩
  · obtain ⟨hcode, hs, ht, hvalid, -⟩ := hostAdvance_busy s m w delta hw huse hkind hhost hindex hst htempo hlag
    refine ⟨_, execTmpHostAdv_refused hready hword hdelta hcode (by rw [respond_tmp, hvalid, hclear]), ?_⟩
    rw [advErrPut_world, respond_world]
    exact ⟨hs, ht, rfl, rfl, rfl, by rw [State.advErrPut, respond_tmp, hostAdvance_adv]⟩

/-! ### TURN_OPEN and TURN_CLOSE -/

/-- No world's count of open or closed turns has moved. -/
def TurnsKept (s t : State) : Prop := ∀ i, (t.world i).opened = (s.world i).opened ∧ (t.world i).closed = (s.world i).closed

theorem TurnsKept.refl (s : State) : TurnsKept s s := fun _ => ⟨rfl, rfl⟩

theorem TurnsKept.trans {s t u : State} (a : TurnsKept s t) (b : TurnsKept t u) : TurnsKept s u :=
  fun i => ⟨(b i).1.trans (a i).1, (b i).2.trans (a i).2⟩

theorem Near.turnsKept {s t : State} (h : Near s t) : TurnsKept s t := fun i => by
  obtain ⟨-, -, -, hopened, hclosed, -⟩ := h.fields i
  exact ⟨hopened, hclosed⟩

theorem turnsKept_of_worlds {s t : State} (h : t.tmp.worlds = s.tmp.worlds) : TurnsKept s t := (Near.of_worlds h).turnsKept

theorem turnsKept_modWorld (s : State) (w : Nat) (f : World → World) (hf : ∀ y, (f y).opened = y.opened ∧ (f y).closed = y.closed) :
    TurnsKept s (s.modWorld w f) := fun i => by
  by_cases h : i = w
  · subst h
    rw [modWorld_world]
    exact hf _
  · rw [modWorld_world_other _ h]
    exact ⟨rfl, rfl⟩

theorem turnsKept_foldl {α : Type} {f : State → α → State} (hf : ∀ s x, TurnsKept s (f s x)) (l : List α) (s : State) :
    TurnsKept s (l.foldl f s) := by
  induction l generalizing s with
  | nil => exact TurnsKept.refl s
  | cons x r ih => exact (hf s x).trans (ih _)

theorem turnsKept_parkCore (s : State) (w cause : Nat) : TurnsKept s (s.parkCore w cause) := by
  unfold State.parkCore
  dsimp only
  split
  · exact TurnsKept.refl s
  · refine TurnsKept.trans ?_ (near_runningChanged _ w).turnsKept
    refine TurnsKept.trans ?_ (turnsKept_of_worlds (worldRecord_ok.worlds_eq (by decide)))
    refine TurnsKept.trans ?_ (turnsKept_of_worlds (outsWorldSafe_ok.worlds_eq (by decide)))
    exact turnsKept_modWorld s w _ fun _ => ⟨rfl, rfl⟩

theorem turnsKept_moveT (s : State) (w : Nat) : TurnsKept s (s.moveT w) := by
  unfold State.moveT
  refine TurnsKept.trans ?_ (near_afterT _ w _).turnsKept
  exact turnsKept_modWorld s w _ fun _ => ⟨rfl, rfl⟩

theorem turnsKept_judgeLag (s : State) (w : Nat) : TurnsKept s (s.judgeLag w) := by
  unfold State.judgeLag
  dsimp only
  split
  · have hrecord : TurnsKept s (if (s.world w).overrun = true then s
        else (s.modWorld w (fun y => { y with overrun := true })).worldRecord w 0x82 [BitVec.ofNat 64 (w + (s.world w).t * 2 ^ 24),
          BitVec.ofNat 64 (min ((s.world w).s - s.reach w (s.world w).s) 0xFFFF_FFFF)]) := by
      split
      · exact TurnsKept.refl s
      · refine TurnsKept.trans ?_ (turnsKept_of_worlds (worldRecord_ok.worlds_eq (by decide)))
        exact turnsKept_modWorld s w _ fun _ => ⟨rfl, rfl⟩
    split
    · exact hrecord.trans (turnsKept_parkCore _ w 4)
    · exact hrecord
  · exact turnsKept_modWorld s w _ fun _ => ⟨rfl, rfl⟩

theorem turnsKept_applyAdvance (s : State) (w adv : Nat) : TurnsKept s (s.applyAdvance w adv) := by
  unfold State.applyAdvance
  split
  · exact turnsKept_parkCore s w 8
  · refine TurnsKept.trans (TurnsKept.trans ?_ (turnsKept_moveT _ w)) (turnsKept_judgeLag _ w)
    exact turnsKept_modWorld s w _ fun _ => ⟨rfl, rfl⟩

theorem turnsKept_inputCore (s : State) (w u : Nat) : TurnsKept s (s.inputCore w u) := by
  unfold State.inputCore
  dsimp only
  split
  · refine TurnsKept.trans (TurnsKept.trans (t := s.wakeDom 1 3 w) ?_ ?_) (turnsKept_applyAdvance _ w _)
    · exact turnsKept_of_worlds (congrArg Tempo.worlds (wakeDom_ok.tmp_eq (by decide)))
    · exact turnsKept_modWorld _ w _ fun _ => ⟨rfl, rfl⟩
  · exact turnsKept_modWorld s w _ fun _ => ⟨rfl, rfl⟩
  · exact TurnsKept.refl s

theorem turnsKept_follow (s : State) (w inc : Nat) : TurnsKept s (s.follow w inc) := by
  unfold State.follow
  dsimp only
  split
  · exact TurnsKept.refl s
  · exact (toPeerFold_near _ _ s).turnsKept.trans (turnsKept_foldl (fun s f => turnsKept_inputCore s f inc) _ _)

theorem turnsKept_afterPark (s0 s : State) (w : Nat) : TurnsKept s (State.afterPark s0 s w) := by
  unfold State.afterPark State.parkFollowers
  split
  · exact turnsKept_foldl (fun s f => turnsKept_parkCore s f 7) _ s
  · exact TurnsKept.refl s

theorem turnsKept_applyStaged (s : State) (w : Nat) : TurnsKept s (s.applyStaged w) := by
  unfold State.applyStaged
  split
  · refine TurnsKept.trans ?_ (turnsKept_of_worlds (subscribePeer_ok.worlds_eq (by decide)))
    exact turnsKept_modWorld s w _ fun _ => ⟨rfl, rfl⟩
  · exact TurnsKept.refl s

/-- What TURN_OPEN does once the turn has opened moves no count of turns. -/
theorem turnsKept_turnOpens (s : State) (w : Nat) : TurnsKept (s.openTurn w) (s.turnOpens w) := by
  unfold State.turnOpens
  dsimp only
  refine TurnsKept.trans ?_ (turnsKept_afterPark s _ w)
  refine TurnsKept.trans ?_ (turnsKept_follow _ w _)
  have hboundary : TurnsKept (s.openTurn w) ((((s.openTurn w).applyStaged w).boundaryUpdates w).amendCheck) :=
    ((turnsKept_applyStaged _ w).trans (turnsKept_of_worlds (boundaryUpdates_ok.worlds_eq (by decide)))).trans
      (turnsKept_of_worlds (amendCheck_ok.worlds_eq (by decide)))
  have hmoved := (hboundary.trans (turnsKept_moveT _ w)).trans (near_hubEmit 4096 _ (w / 32)).turnsKept
  split
  · exact hmoved
  · exact hmoved.trans (turnsKept_judgeLag _ w)

theorem hubEmit_slots (s : State) (g n : Nat) : (s.hubEmit g n).tmp.slots = s.tmp.slots :=
  (only_hubEmit (P := 0x9f0838020428) (OnlyM.refl _ _) rfl).slots_eq (by decide)

theorem afterPark_slots (s0 s : State) (w : Nat) : (State.afterPark s0 s w).tmp.slots = s.tmp.slots := by
  unfold State.afterPark
  split
  · exact parkFollowers_ok.slots_eq (by decide)
  · rfl

/-- It writes no result slot either. -/
theorem turnOpens_slots (s : State) (w : Nat) : (s.turnOpens w).tmp.slots = (s.openTurn w).tmp.slots := by
  unfold State.turnOpens
  dsimp only
  rw [afterPark_slots, follow_ok.slots_eq (by decide)]
  have hmoved : (((((s.openTurn w).applyStaged w).boundaryUpdates w).amendCheck.moveT w).hubEmit (w / 32) 4096).tmp.slots
      = (s.openTurn w).tmp.slots := by
    rw [hubEmit_slots, moveT_ok.slots_eq (by decide), amendCheck_ok.slots_eq (by decide),
      boundaryUpdates_ok.slots_eq (by decide), applyStaged_ok.slots_eq (by decide)]
  split
  · exact hmoved
  · rw [judgeLag_ok.slots_eq (by decide), hmoved]

theorem slots_world (s : State) (l : Tab Slot) (i : Nat) : ({ s with tmp.slots := l } : State).world i = s.world i := rfl

theorem openTurn_turns (s : State) (w : Nat) :
    ((s.openTurn w).world w).opened = (s.world w).opened + 1 ∧ ((s.openTurn w).world w).closed = (s.world w).closed := by
  unfold State.openTurn
  simp only [slots_world, modWorld_world]
  exact ⟨trivial, trivial⟩

theorem execTurnOpen_opens {s : State} {w : Nat} (hcan : s.canOpen w (s.world w).t = true) (hdue : (s.world w).notBefore ≤ s.aon.wall)
    (hcap : s.capDelay w = 0) : execTurnOpen w s = .next (s.turnOpens w) := by
  unfold execTurnOpen
  simp [hcan, hcap, Nat.not_lt.mpr hdue]

/-- Settles O13: only `openTurn` touches the world's counts and the slots. -/
theorem turnOpenClearsItsSlot : Obligations.TurnOpenClearsItsSlot := by
  unfold Obligations.TurnOpenClearsItsSlot
  intro s w
  refine ⟨fun hcan hdue _ hcap => ⟨_, execTurnOpen_opens hcan hdue hcap, ?_⟩, fun hcannot => ?_⟩
  · obtain ⟨hopened, hclosed⟩ := turnsKept_turnOpens s w w
    obtain ⟨hopened1, hclosed1⟩ := openTurn_turns s w
    rw [turnOpens_slots]
    exact ⟨hopened.trans hopened1, hclosed.trans hclosed1, tget_tset_same .., fun k hk => tget_tset_other _ _ hk _⟩
  · change execTurnOpen w s = _
    unfold execTurnOpen
    simp [hcannot]

theorem closeTurn_skipped {s : State} {w : Nat} (hskip : (s.world w).skips (s.world w).closed = true) : s.closeTurn w =
    s.modWorld w (fun y => { y with closed := (s.world w).closed + 1, skipped := y.skipped + 1,
                                    turns := tdel (s.world w).closed y.turns }) := by
  unfold State.closeTurn
  rw [if_pos hskip]

theorem execTurnClose_closes {s : State} {w : Nat} (hcan : s.canClose w = true) : execTurnClose w s = .next (s.closeTurn w) := by
  unfold execTurnClose
  rw [if_pos hcan]

/-- The state in which the snapshot of the lowest open turn stands in its slot. -/
theorem closeTurn_written {s : State} {w : Nat} (hskip : (s.world w).skips (s.world w).closed = false) :
    ((s.closeTurn w).world w).closed = (s.world w).closed + 1 ∧ ((s.closeTurn w).world w).skipped = 0
      ∧ (s.closeTurn w).tmp.slots = tset (slotKey w (s.world w).closed) (s.snapshot w (s.world w).closed) s.tmp.slots
      ∧ ∀ j, j ≠ w → (s.closeTurn w).world j = s.world j := by
  unfold State.closeTurn
  rw [if_neg (ne_true_of_eq_false hskip)]
  simp only [slots_world, modWorld_world]
  exact ⟨trivial, trivial, rfl, fun j hj => modWorld_world_other s hj _⟩

/-- Settles O14. -/
theorem turnCloseWritesTheSnapshot : Obligations.TurnCloseWritesTheSnapshot := by
  unfold Obligations.TurnCloseWritesTheSnapshot
  intro s w hcan n
  refine ⟨fun hskip => ⟨_, execTurnClose_closes hcan, ?_⟩, fun hskip => ⟨_, execTurnClose_closes hcan, ?_⟩⟩
  · obtain ⟨hclosed, hskipped, hslots, hother⟩ := closeTurn_written hskip
    rw [hslots]
    exact ⟨hclosed, hskipped, tget_tset_same .., rfl, fun k hk => tget_tset_other _ _ hk _, hother⟩
  · rw [closeTurn_skipped hskip, modWorld_world]
    exact ⟨rfl, rfl, rfl⟩

end Sys2Proof.Machine
end

section
/-! PROOF. What reaches the tempo unit by message (R26, R27, R30, R36, R126), and INJECT (R212). -/

namespace Sys2Proof.Machine

open Sys2Proof

/-- The state once the message at the head of endpoint k's inbox is taken, r the messages behind it. -/
def State.popInbox (s : State) (k : Nat) (r : List Volley) : State :=
  { s with fab.inbox := if r.isEmpty then tdel k s.fab.inbox else tset k r s.fab.inbox }

@[simp] theorem popInbox_tmp (s : State) (k : Nat) (r : List Volley) : (s.popInbox k r).tmp = s.tmp := rfl
@[simp] theorem popInbox_world (s : State) (k : Nat) (r : List Volley) (i : Nat) : (s.popInbox k r).world i = s.world i := rfl

theorem takeInbox_pop {s : State} {k : Nat} {v : Volley} {r : List Volley} {p : Volley → Bool}
    (h : tget [] k s.fab.inbox = v :: r) (hp : p v = true) : s.takeInbox k p = some (v, s.popInbox k r) := takeInbox_head h hp

/-! ### TURN_REPORT -/

theorem modTurn_open {s : State} {w n : Nat} (f : TurnInfo → TurnInfo) (hopen : (s.world w).closed ≤ n) (hn : n < (s.world w).opened)
    (hst : (s.world w).st = .running) : s.modTurn w n f = s.modWorld w (fun y => { y with turns := tmod {} n f y.turns }) := by
  unfold State.modTurn
  simp only [hopen, hn, hst, decide_true, Bool.and_self, Bool.true_or, if_true]

theorem execTurnReport_takes {s : State} {v : Volley} {r : List Volley} {lane turn intake wheel : Nat} {nd inc ls : Bool}
    (hbox : tget [] tempoEp s.fab.inbox = v :: r) (hbody : v.body = .turnReport lane nd inc ls turn intake wheel) :
    execTurnReport s = .next ((s.popInbox tempoEp r).modTurn (v.group * 32 + lane) turn (fun i => if i.reports.contains (epKey v.src.x v.src.y) then i
        else { i with reports := epKey v.src.x v.src.y :: i.reports, nondet := i.nondet || nd, incomplete := i.incomplete || inc,
                      loss := i.loss || ls, intake := sat 32 i.intake intake, wheel := sat 32 i.wheel wheel })) := by
  unfold execTurnReport
  dsimp only
  rw [takeInbox_pop hbox (by rw [hbody])]
  simp only [hbody]

/-- Settles O15: the report is taken off the inbox and lands in the turn's record. -/
theorem turnReportAddsTheTilesCounts : Obligations.TurnReportAddsTheTilesCounts := by
  unfold Obligations.TurnReportAddsTheTilesCounts
  intro s v r lane turn intake wheel nd inc ls hbox hbody w i hclosed hopened hst hnew
  refine ⟨_, execTurnReport_takes hbox hbody, ?_⟩
  rw [modTurn_open (s := s.popInbox tempoEp r) _ hclosed hopened hst]
  refine ⟨?_, fun j hj => modWorld_world_other _ hj _⟩
  rw [modWorld_world, tget_tmod_same]
  exact if_neg (ne_true_of_eq_false hnew)

/-! ### Tethers, peers and sweeps -/

/-- An input to a RUNNING world moves S by the scaled quotient and keeps the remainder. -/
theorem inputCore_moves {s : State} {w u : Nat} (hst : (s.world w).st = .running)
    (htempo : (s.world w).s + ((s.world w).rem + u * (s.world w).scaleMul) / (s.world w).scaleDiv ≤ maxTempo) :
    ((s.inputCore w u).world w).s = (s.world w).s + ((s.world w).rem + u * (s.world w).scaleMul) / (s.world w).scaleDiv
      ∧ ((s.inputCore w u).world w).rem = ((s.world w).rem + u * (s.world w).scaleMul) % (s.world w).scaleDiv := by
  unfold State.inputCore State.applyAdvance
  simp only [hst, modWorld_world, wakeDom_world, Nat.not_lt.mpr htempo, if_false]
  obtain ⟨es, -, erem, -⟩ := (moveT_at _ w w).holds.trans (holds_judgeLag (State.moveT _ w) w)
  rw [es, erem]
  simp only [modWorld_world, wakeDom_world]
  exact ⟨trivial, trivial⟩

theorem inputCore_parked {s : State} {w u : Nat} (hst : (s.world w).st = .parked) :
    (s.inputCore w u).world w = { s.world w with padv := sat 32 (s.world w).padv 1 } := by
  unfold State.inputCore
  simp only [hst, modWorld_world]

theorem tempoForward_single {s : State} {lk w f : Nat} (hf : s.peerFollowers lk w = [f]) (inc : Nat) :
    s.tempoForward lk w inc = s.inputCore f inc := by
  unfold State.tempoForward
  rw [hf, List.foldl_cons, List.foldl_nil]

theorem execLeaderParked_single {s : State} {lk w f : Nat} (hf : s.peerFollowers lk w = [f]) :
    execLeaderParked lk w s = .next (s.parkCore f 7) := by
  unfold execLeaderParked
  rw [hf, List.foldl_cons, List.foldl_nil]

theorem execTetherExpiry_parks {s : State} {w : Nat} (hst : (s.world w).st = .running)
    (hlate : (s.world w).lastAdv + 1000 * (s.world w).tetherMs ≤ s.aon.wall) : execTetherExpiry w s = .next (s.parkWorld w 1) := by
  unfold execTetherExpiry
  simp only [hst, hlate, decide_true, Bool.and_self, if_true]

theorem execSweepAck_takes {s : State} {v : Volley} {r : List Volley} {t x n : Nat} {b : Bool}
    (hbox : tget [] tempoEp s.fab.inbox = v :: r) (hbody : v.body = .control b (.sweepAck t x n)) :
    execSweepAck s = .next ((s.popInbox tempoEp r).modWorld x (fun y => { y with sweeps := swept t n y.sweeps })) := by
  unfold execSweepAck
  dsimp only
  rw [takeInbox_pop hbox (by rw [hbody])]
  simp only [hbody]

/-- Settles O16, clause by clause. -/
theorem tethersPeersAndSweeps : Obligations.TethersPeersAndSweeps := by
  unfold Obligations.TethersPeersAndSweeps
  intro s lk w f inc v r x t n b
  refine ⟨fun hst hlate => ⟨_, execTetherExpiry_parks hst hlate, ?_⟩, fun hroom hnew => ?_, fun hfull => ?_,
    fun hf hst => ⟨_, rfl, ?_⟩, fun hf hst htempo => ⟨_, rfl, ?_⟩, fun hf hst => ⟨_, execLeaderParked_single hf, ?_⟩,
    fun hbox hbody => ⟨_, execSweepAck_takes hbox hbody, ?_⟩⟩
  · obtain ⟨h1, h2, h3, -⟩ := parkWorld_fields 1 hst
    exact ⟨h1, h2, h3⟩
  · refine ⟨{ s with tmp.subs := s.tmp.subs ++ [(lk, w, f)] }, ?_, rfl, rfl⟩
    change Host.Outcome.next (s.subscribed lk w f) = _
    rw [State.subscribed, hnew, decide_eq_true hroom, Bool.not_false, Bool.and_self, if_pos rfl]
  · change Host.Outcome.next (s.subscribed lk w f) = _
    rw [State.subscribed, hfull, decide_eq_false (Nat.lt_irrefl 64), Bool.false_and, if_neg Bool.false_ne_true]
  · rw [tempoForward_single hf, inputCore_parked hst]
  · rw [tempoForward_single hf]
    exact inputCore_moves hst htempo
  · obtain ⟨est, -, -, -, -, -, ecause, -⟩ := (parkCore_self s f 7 hst).fields
    rw [est, ecause, modWorld_world]
    exact ⟨rfl, rfl⟩
  · refine ⟨?_, fun j hj => modWorld_world_other _ hj _⟩
    rw [modWorld_world]
    rfl

/-! ### INJECT -/

section Inject
variable {s : State} {rk seq : Nat} {c : ExecCmd}

theorem cmdWake_injection (s : State) (op : Nat) : (s.cmdWake op).hub.injection = s.hub.injection := by
  have h := cmdWake_only s op .hubCfg rfl
  simp only [Part.same, Prod.mk.injEq] at h
  exact h.2.2.2.2.1

theorem injectEvents_wake (s : State) (op : Nat) (c : ExecCmd) : (s.cmdWake op).injectEvents c = s.injectEvents c := by
  unfold State.injectEvents
  rw [cmdWake_injection]

theorem cmdWake_lockstep (s : State) (op k : Nat) : (s.cmdWake op).lockstep k = s.lockstep k :=
  (cmdWake_only s op).lockstep_eq rfl k

theorem injectCode_wake (s : State) (op : Nat) (c : ExecCmd) : (s.cmdWake op).injectCode c = s.injectCode c := by
  unfold State.injectCode
  simp only [injectEvents_wake, cmdWake_world, cmdWake_worldLimit, cmdWake_has, cmdWake_lockstep]

/-- The count of events and its high bit read the same field. -/
theorem wf_high_bit {w : DWord} (h : wf w 14 13 = 0) : wf w 14 14 = 0 := by
  simp only [wf, fb] at h ⊢
  omega

theorem injectEvents_single (h : wf (c.words.getD 1 0) 14 13 = 0) :
    s.injectEvents c = [(tfind (injectEvent c 0).1 s.hub.injection, injectEvent c 0)] := by
  unfold State.injectEvents
  rw [h]
  rfl

theorem execInject_done (h : Begins s rk seq 0x07 c) (hcode : s.injectCode c = .done) : execInject rk seq s = .next
    (((s.injectEvents c).foldl (fun s e => s.injectOne (wf (c.words.getD 1 0) 12 0) e) (s.cmdWake 0x07)).complete c .done []) := by
  unfold execInject
  rw [runCmd_all h]
  simp only [injectCode_wake, injectEvents_wake, hcode]

theorem execInject_refused (h : Begins s rk seq 0x07 c) {k : Code} (hcode : s.injectCode c = k) (hk : k ≠ .done) :
    execInject rk seq s = .next ((s.cmdWake 0x07).complete c k []) := by
  unfold execInject
  rw [runCmd_all h]
  simp only [injectCode_wake, hcode]

section Allowed
variable (hwords : 3 ≤ c.words.length) (hone : wf (c.words.getD 1 0) 14 13 = 0) (hw : wf (c.words.getD 1 0) 12 0 < s.worldLimit)
  (huse : s.has c.src (.world (wf (c.words.getD 1 0) 12 0)) .use = true)
include hwords hone hw huse

theorem injectChecks : (decide (s.worldLimit ≤ wf (c.words.getD 1 0) 12 0) || !s.has c.src (.world (wf (c.words.getD 1 0) 12 0)) .use
    || decide (c.words.length < 3 + wf (c.words.getD 1 0) 14 14)) = false := by
  rw [wf_high_bit hone, huse, decide_eq_false (Nat.not_le.mpr hw), decide_eq_false (Nat.not_lt.mpr hwords)]
  rfl

theorem injectCode_standby (hst : (s.world (wf (c.words.getD 1 0) 12 0)).st = .standby) : s.injectCode c = .notReady := by
  unfold State.injectCode
  simp only [injectChecks hwords hone hw huse, hst, Bool.false_eq_true, if_false]

theorem injectCode_parked (hst : (s.world (wf (c.words.getD 1 0) 12 0)).st = .parked) : s.injectCode c = .failedParked := by
  unfold State.injectCode
  simp only [injectChecks hwords hone hw huse, hst, Bool.false_eq_true, if_false]

theorem injectCode_running_none (hst : (s.world (wf (c.words.getD 1 0) 12 0)).st = .running)
    (hnone : tfind (injectEvent c 0).1 s.hub.injection = none) : s.injectCode c = .failedAccess := by
  unfold State.injectCode
  simp only [injectChecks hwords hone hw huse, hst, injectEvents_single hone, hnone, List.any_cons, Option.isNone_none, Bool.true_or,
    Bool.false_eq_true, if_false, if_true]

theorem injectCode_running_some {d : DWord} (hst : (s.world (wf (c.words.getD 1 0) 12 0)).st = .running)
    (hsome : tfind (injectEvent c 0).1 s.hub.injection = some d)
    (htime : (s.world (wf (c.words.getD 1 0) 12 0)).hubEmit ≤ (s.world (wf (c.words.getD 1 0) 12 0)).t + (injectEvent c 0).2.2) :
    s.injectCode c = .done := by
  unfold State.injectCode
  simp only [injectChecks hwords hone hw huse, hst, injectEvents_single hone, hsome, List.any_cons, List.any_nil, Option.isNone_some,
    Bool.or_false, decide_eq_false (Nat.not_lt.mpr htime), Bool.and_false, Bool.false_eq_true, if_false]

end Allowed

/-- What an INJECT that is refused leaves. -/
theorem execInject_refuses (h : Begins s rk seq 0x07 c) {k : Code} (hcode : s.injectCode c = k) (hk : k ≠ .done)
    (hlink : k ≠ .failedLink) : ∃ t, execInject rk seq s = .next t ∧ t.hub.lockIn = s.hub.lockIn ∧ t.fab = s.fab
      ∧ Completed t rk seq 0x07 k [] := by
  have hwake := cmdWake_only s 0x07
  have hdone := complete_only (s.cmdWake 0x07) c k []
  refine ⟨_, execInject_refused h hcode hk, ?_, ?_, cmd_done s _ h hlink⟩
  · exact (OnlyM.lockIn_eq hdone (by decide)).trans (hwake.lockIn_eq rfl)
  · exact (OnlyM.fab_eq hdone (by decide)).trans (hwake.fab_eq (by decide))

/-- The event of an INJECT with a Lockstep destination joins the volley of its slot. -/
theorem injectOne_lockstep {s : State} {d : DWord} (hlock : s.lockstep (destClass d) = true) (w ch value offset : Nat) :
    s.injectOne w (some d, ch, value, offset) = { s with hub.lockIn := s.hub.lockIn ++
      [{ ep := epKey 32 0, ch := ch, w := w, tempo := (s.world w).t + offset, dest := d, value := value }] } := by
  unfold State.injectOne
  simp only [hlock, if_true]

end Inject

/-- Settles O17. -/
theorem injectIsTakenWholeOrRefused : Obligations.InjectIsTakenWholeOrRefused := by
  unfold Obligations.InjectIsTakenWholeOrRefused
  intro s rk seq c d h hwords w e hone hw huse
  refine ⟨fun hst hsome hlock htime => ?_, fun hst => ?_, fun hst => ?_, fun hst hnone => ?_⟩
  · refine ⟨_, execInject_done h (injectCode_running_some hwords hone hw huse hst hsome htime), ?_, cmd_done s _ h (by decide)⟩
    rw [injectEvents_single hone, hsome, List.foldl_cons, List.foldl_nil,
      (complete_only _ c .done [] : OnlyM _ _ _).lockIn_eq (by decide),
      injectOne_lockstep (s := s.cmdWake 0x07) ((cmdWake_lockstep ..).trans hlock), cmdWake_world]
    exact congrArg (· ++ _) ((cmdWake_only s 0x07).lockIn_eq rfl)
  · exact execInject_refuses h (injectCode_standby hwords hone hw huse hst) (by decide) (by decide)
  · exact execInject_refuses h (injectCode_parked hwords hone hw huse hst) (by decide) (by decide)
  · exact execInject_refuses h (injectCode_running_none hwords hone hw huse hst hnone) (by decide) (by decide)

end Sys2Proof.Machine
end

section
/-! PROOF. The gambit instructions that write one register (R81 to R88): moves and loads, sums, logic and shifts, products, LEAK
and RAND. -/

namespace Sys2Proof.Machine

open Sys2Proof

/-- An instruction whose effect is to put v in rd leaves the run that wrote it. -/
theorem gExec_puts {i : Instr} {t n : Nat} {hc : Tile → Run → Nat} {f : Tile → Run → GStep} {s : State} {r : Run} {rd : BitVec 3}
    {v : Word} (h : Fetched s t i r) (hn : hc (s.tile t) r = n)
    (hf : f (s.tile t) { r with steps := r.steps + 1, hc := r.hc + n }
      = Run.put { r with steps := r.steps + 1, hc := r.hc + n } rd v) :
    ∃ u, gExec i t hc f s = .next u ∧ RunGoesOn s u t (r.wrote rd v n) :=
  gExec_goOn h (by rw [hn, hf]; rfl)

/-- Settles O18: each writes rd at most, in one step. -/
theorem gambitMovesWriteOneRegister : Obligations.GambitMovesWriteOneRegister := by
  unfold Obligations.GambitMovesWriteOneRegister
  intro s t r rd ra i17 i16 k pos wm1 sx
  refine ⟨fun h => ?_, fun h => ?_, fun h => ?_, fun h => ?_, fun h => ?_, fun h => ?_⟩
  · change ∃ u, execGNop t s = .next u ∧ _
    exact gExec_goOn h rfl
  · change ∃ u, execGMov t rd ra s = .next u ∧ _
    exact gExec_puts h rfl rfl
  · change ∃ u, execGMovi t rd i17 s = .next u ∧ _
    exact gExec_puts h rfl rfl
  · change ∃ u, execGMovhi t rd i16 s = .next u ∧ _
    exact gExec_puts h rfl rfl
  · change ∃ u, execGLdp t rd k s = .next u ∧ _
    exact gExec_puts h rfl rfl
  · change ∃ u, execGLdf t rd pos wm1 sx s = .next u ∧ _
    exact gExec_puts h rfl rfl

/-- `sat24w` with its bounds written out (R81). -/
theorem sat24w_eq (x : Int) : sat24w x = BitVec.ofInt 32 (min (max x (-8388608)) 8388607) := rfl

/-- Settles O19: the S forms are `sat24w` of the exact result. -/
theorem gambitSumsWrapOrSaturate : Obligations.GambitSumsWrapOrSaturate := by
  unfold Obligations.GambitSumsWrapOrSaturate
  intro s t r rd ra rb im
  simp only [← sat24w_eq, ← sext17_toInt im]
  refine ⟨fun h => ?_, fun h => ?_, fun h => ?_, fun h => ?_, fun h => ?_, fun h => ?_⟩
  · change ∃ u, execGAdd t rd ra rb s = .next u ∧ _
    exact gExec_puts h rfl rfl
  · change ∃ u, execGSub t rd ra rb s = .next u ∧ _
    exact gExec_puts h rfl rfl
  · change ∃ u, execGAddi t rd ra im s = .next u ∧ _
    exact gExec_puts h rfl rfl
  · change ∃ u, execGAdds t rd ra rb s = .next u ∧ _
    exact gExec_puts h rfl rfl
  · change ∃ u, execGSubs t rd ra rb s = .next u ∧ _
    exact gExec_puts h rfl rfl
  · change ∃ u, execGAddsi t rd ra im s = .next u ∧ _
    exact gExec_puts h rfl rfl

theorem minReg_eq (a b : Word) : minReg a b = BitVec.ofInt 32 (min a.toInt b.toInt) := by
  unfold minReg
  split
  · rw [min_eq_right (by omega), BitVec.ofInt_toInt]
  · rw [min_eq_left (by omega), BitVec.ofInt_toInt]

theorem maxReg_eq (a b : Word) : maxReg a b = BitVec.ofInt 32 (max a.toInt b.toInt) := by
  unfold maxReg
  split
  · rw [max_eq_right (by omega), BitVec.ofInt_toInt]
  · rw [max_eq_left (by omega), BitVec.ofInt_toInt]

/-- Settles O20. -/
theorem gambitLogicAndShifts : Obligations.GambitLogicAndShifts := by
  unfold Obligations.GambitLogicAndShifts
  intro s t r rd ra rb sh
  simp only [← minReg_eq, ← maxReg_eq]
  refine ⟨fun h => ?_, fun h => ?_, fun h => ?_, fun h => ?_, fun h => ?_, fun h => ?_, fun h => ?_, fun h => ?_⟩
  · change ∃ u, execGMin t rd ra rb s = .next u ∧ _
    exact gExec_puts h rfl rfl
  · change ∃ u, execGMax t rd ra rb s = .next u ∧ _
    exact gExec_puts h rfl rfl
  · change ∃ u, execGAnd t rd ra rb s = .next u ∧ _
    exact gExec_puts h rfl rfl
  · change ∃ u, execGOr t rd ra rb s = .next u ∧ _
    exact gExec_puts h rfl rfl
  · change ∃ u, execGXor t rd ra rb s = .next u ∧ _
    exact gExec_puts h rfl rfl
  · change ∃ u, execGShli t rd ra sh s = .next u ∧ _
    exact gExec_puts h rfl rfl
  · change ∃ u, execGShri t rd ra sh s = .next u ∧ _
    exact gExec_puts h rfl rfl
  · change ∃ u, execGShrli t rd ra sh s = .next u ∧ _
    exact gExec_puts h rfl rfl

theorem decz_eq (a b : Word) : decz a b = if (a - b).toInt < 0 then 0 else a - b := rfl

/-- The run once a draw has left l in its LFSR and the value of its bits in rd. -/
def Run.drew (r : Run) (l : Word) (rd : BitVec 3) (k n : Nat) : Run := { (r.wrote rd (randBits l k) n) with lfsr := some l }

/-- A draw of RAND seeds the LFSR where the run has not drawn yet (R88). -/
theorem draw_goesOn {r : Run} {y : Tile} {l : Word} (hl : lfsrRun 32 (r.lfsr.getD (lfsrSeed y.seed r.w r.neuron r.now)) = l)
    (rd : BitVec 3) (k n : Nat) : Run.draw { r with steps := r.steps + 1, hc := r.hc + n } y rd k = .goOn (r.drew l rd k n) := by
  unfold Run.draw
  dsimp only
  rw [hl]
  rfl

theorem gExec_draws {t : Nat} {s : State} {r : Run} {rd : BitVec 3} {k : BitVec 5} {l : Word} (h : Fetched s t (.gRand t rd k) r)
    (hl : lfsrRun 32 (r.lfsr.getD (lfsrSeed (s.tile t).seed r.w r.neuron r.now)) = l) : ∃ u, execGRand t rd k s = .next u
      ∧ RunGoesOn s u t (r.drew l rd k.toNat (if r.lfsr.isSome then 1 else 3)) := by
  unfold execGRand
  exact gExec_goOn h (draw_goesOn hl rd k.toNat _)

/-- Settles O21: products and LEAK take their own half cycles, RAND's first draw three. -/
theorem gambitProductsLeakAndDraws : Obligations.GambitProductsLeakAndDraws := by
  unfold Obligations.GambitProductsLeakAndDraws
  intro s t r rd ra rb sh n im tb
  simp only [← decz_eq]
  refine ⟨fun h => ?_, fun h => ?_, fun h => ?_, fun h => ?_, fun x hx h => ?_, fun hx h => ?_⟩
  · change ∃ u, execGDecz t rd ra rb s = .next u ∧ _
    exact gExec_puts h rfl rfl
  · change ∃ u, execGMulq t rd ra rb sh s = .next u ∧ _
    exact gExec_puts h rfl rfl
  · change ∃ u, execGMulqi t rd ra im sh s = .next u ∧ _
    exact gExec_puts h rfl rfl
  · change ∃ u, execGLeak t rd ra rb tb s = .next u ∧ _
    exact gExec_puts h rfl rfl
  · change ∃ u, execGRand t rd n s = .next u ∧ _
    have hdraw := gExec_draws h (l := lfsrRun 32 x) (by rw [hx, Option.getD_some])
    rwa [hx] at hdraw
  · change ∃ u, execGRand t rd n s = .next u ∧ _
    have hdraw := gExec_draws h (l := lfsrRun 32 (lfsrSeed (s.tile t).seed r.w r.neuron r.now)) (by rw [hx, Option.getD_none])
    rwa [hx] at hdraw

end Sys2Proof.Machine
end

section
/-! PROOF. How a gambit run requests and ends (R89 to R91, R97). -/

namespace Sys2Proof.Machine

open Sys2Proof

/-! ### What ends a run leaves of the engine's tile -/

/-- Tile y has the run, the run counters, the due runs and the update in progress of tile x. -/
def SameEngine (x y : Tile) : Prop :=
  y.run = x.run ∧ y.gbRuns = x.gbRuns ∧ y.gbSteps = x.gbSteps ∧ y.gbMaxHc = x.gbMaxHc ∧ y.due = x.due ∧ y.upd = x.upd
    ∧ y.gbFaultCnt = x.gbFaultCnt ∧ y.gbFaultCause = x.gbFaultCause

theorem SameEngine.refl (x : Tile) : SameEngine x x := ⟨rfl, rfl, rfl, rfl, rfl, rfl, rfl, rfl⟩

theorem SameEngine.trans {x y z : Tile} (a : SameEngine x y) (b : SameEngine y z) : SameEngine x z := by
  obtain ⟨a1, a2, a3, a4, a5, a6, a7, a8⟩ := a
  obtain ⟨b1, b2, b3, b4, b5, b6, b7, b8⟩ := b
  exact ⟨b1.trans a1, b2.trans a2, b3.trans a3, b4.trans a4, b5.trans a5, b6.trans a6, b7.trans a7, b8.trans a8⟩

theorem traceRun_fifo (s : State) (t : Nat) (r : Run) (b : Bool) : FifoOnly s t (s.traceRun t r b) := traceTile_fifo ..

theorem FifoOnly.sameEngine {s u : State} {t : Nat} (h : FifoOnly s t u) : SameEngine (s.tile t) (u.tile t) := by
  rw [h.1]
  exact SameEngine.refl _

theorem FifoOnly.sram {s u : State} {t : Nat} (h : FifoOnly s t u) : (u.tile t).sram = (s.tile t).sram := by rw [h.1]

theorem sameEngine_writeRec (s : State) (t : Nat) (b : Block) (a : Nat) (r : BitVec 128) :
    SameEngine (s.tile t) ((s.writeRec t b a r).tile t) := by
  unfold State.writeRec
  split
  · rw [colWrite_ok.tile_eq rfl]
    exact SameEngine.refl _
  · rw [modTile_tile]
    exact SameEngine.refl _

theorem writeRec_sram {s : State} {t : Nat} {b : Block} (hspill : blkSpill b = false) (a : Nat) (r : BitVec 128) :
    tget 0 a ((s.writeRec t b a r).tile t).sram = r.extractLsb' 0 64 := by
  unfold State.writeRec
  rw [if_neg (ne_true_of_eq_false hspill), modTile_tile]
  dsimp only
  split
  · rw [tget_tset_other _ _ (Nat.succ_ne_self a).symm, tget_tset_same]
  · rw [tget_tset_same]

theorem sameEngine_markNondet (x : Tile) (w n : Nat) : SameEngine x (x.markNondet w n) := SameEngine.refl _

/-- With nothing due and no update in progress, no run follows. -/
theorem nextRun_idle {s : State} {t : Nat} (hrun : (s.tile t).run = none) (hdue : (s.tile t).due = []) (hupd : (s.tile t).upd = []) :
    s.nextRun t = s.modTile t (fun y => { y with upd := [] }) := by
  unfold State.nextRun
  simp only [hrun, hdue, hupd, Option.isSome_none, Bool.false_eq_true, if_false, List.foldl_nil]

theorem nextRun_tile_sram {s : State} {t : Nat} (hrun : (s.tile t).run = none) (hdue : (s.tile t).due = []) (hupd : (s.tile t).upd = []) :
    SameEngine (s.tile t) ((s.nextRun t).tile t) ∧ ((s.nextRun t).tile t).sram = (s.tile t).sram := by
  rw [nextRun_idle hrun hdue hupd, modTile_tile]
  exact ⟨⟨rfl, rfl, rfl, rfl, rfl, hupd.symm, rfl, rfl⟩, rfl⟩

/-! ### A run that completes, and one that is abandoned -/

/-- The tile whose engine is free of run r, its counters with r in them (R74). -/
def Tile.countRun (x : Tile) (r : Run) : Tile :=
  { x with run := none, gbRuns := x.gbRuns + 1, gbMaxModel := if x.gbMaxHc < min r.hc 0xFFFF then r.slot else x.gbMaxModel,
           gbMaxHc := max x.gbMaxHc (min r.hc 0xFFFF) }

/-- A stateful run's record, at the place that tile x gives it, is written in tile t (R77). -/
def State.writeBack (s : State) (x : Tile) (t : Nat) (r : Run) : State :=
  match x.blockOf r.w r.neuron with
  | some b => if mdStateless (tget [] r.slot x.models) then s else s.writeRec t b (blkAddr b r.neuron (r.w % 32)) (r.finalRecord (blkWide b))
  | none => s

theorem sameEngine_writeBack (s : State) (x : Tile) (t : Nat) (r : Run) : SameEngine (s.tile t) ((s.writeBack x t r).tile t) := by
  unfold State.writeBack
  split
  · split
    · exact SameEngine.refl _
    · exact sameEngine_writeRec ..
  · exact SameEngine.refl _

theorem writeBack_sram {s : State} {x : Tile} {t : Nat} {r : Run} {b : Block} (hb : x.blockOf r.w r.neuron = some b)
    (hstate : mdStateless (tget [] r.slot x.models) = false) (hspill : blkSpill b = false) :
    tget 0 (blkAddr b r.neuron (r.w % 32)) ((s.writeBack x t r).tile t).sram = (r.finalRecord (blkWide b)).extractLsb' 0 64 := by
  unfold State.writeBack
  simp only [hb, hstate, Bool.false_eq_true, if_false]
  exact writeRec_sram hspill _ _

theorem completeRun_quiet {s : State} {t : Nat} {r : Run} (hemit : r.emit = none) (hwake : r.wake = none) : s.completeRun t r =
    (((s.modTile t (fun y => y.countRun r)).writeBack (s.tile t) t r).traceRun t r false).nextRun t := by
  unfold State.completeRun State.runEmit State.runWake
  simp only [hemit, hwake]
  rfl

/-- The tile whose engine has abandoned run r for its steps, its fault registers with r in them (R97). -/
def Tile.faultRun (x : Tile) (r : Run) : Tile :=
  { x with run := none, gbFaultCnt := sat 32 x.gbFaultCnt 1, gbFaultValid := true,
           gbFaultCause := if x.gbFaultValid then x.gbFaultCause else 1,
           gbFaultModel := if x.gbFaultValid then x.gbFaultModel else r.slot,
           gbFaultPc := if x.gbFaultValid then x.gbFaultPc else r.pc,
           gbFaultWorld := if x.gbFaultValid then x.gbFaultWorld else r.w,
           gbFaultNeuron := if x.gbFaultValid then x.gbFaultNeuron else r.neuron,
           gbMaxModel := if x.gbMaxHc < min r.hc 0xFFFF then r.slot else x.gbMaxModel,
           gbMaxHc := max x.gbMaxHc (min r.hc 0xFFFF) }

theorem abandonRun_steps (s : State) (t : Nat) (r : Run) : s.abandonRun t r 1 =
    ((((s.modTile t (fun y => y.faultRun r)).nondetAt t r.w r.now).traceRun t r true).pushLoss (s.runItem t r .failedGambit)).nextRun t :=
  rfl

section Idle
variable {s : State} {t : Nat} {r : Run} (hdue : (s.tile t).due = []) (hupd : (s.tile t).upd = [])
include hdue hupd

theorem completeRun_ended (hemit : r.emit = none) (hwake : r.wake = none) :
    ((s.completeRun t r).tile t).run = none ∧ ((s.completeRun t r).tile t).gbRuns = (s.tile t).gbRuns + 1
      ∧ ((s.completeRun t r).tile t).gbSteps = (s.tile t).gbSteps
      ∧ ((s.completeRun t r).tile t).gbMaxHc = max (s.tile t).gbMaxHc (min r.hc 0xFFFF)
      ∧ ∀ b, (s.tile t).blockOf r.w r.neuron = some b → mdStateless (tget [] r.slot (s.tile t).models) = false → blkSpill b = false →
        tget 0 (blkAddr b r.neuron (r.w % 32)) ((s.completeRun t r).tile t).sram = (r.finalRecord (blkWide b)).extractLsb' 0 64 := by
  rw [completeRun_quiet hemit hwake]
  have hback := sameEngine_writeBack (s.modTile t (fun y => y.countRun r)) (s.tile t) t r
  rw [modTile_tile] at hback
  have hfifo := traceRun_fifo ((s.modTile t (fun y => y.countRun r)).writeBack (s.tile t) t r) t r false
  have hsame := hback.trans hfifo.sameEngine
  obtain ⟨hrun, -, -, -, hdue1, hupd1, -⟩ := id hsame
  obtain ⟨hnext, esram⟩ := nextRun_tile_sram hrun (hdue1.trans hdue) (hupd1.trans hupd)
  obtain ⟨erun, eruns, esteps, emax, -⟩ := hsame.trans hnext
  refine ⟨erun, eruns, esteps, emax, fun b hb hstate hspill => ?_⟩
  rw [esram, hfifo.sram, writeBack_sram hb hstate hspill]

theorem abandonRun_overrun : ((s.abandonRun t r 1).tile t).run = none
    ∧ ((s.abandonRun t r 1).tile t).gbFaultCnt = sat 32 (s.tile t).gbFaultCnt 1
    ∧ ((s.abandonRun t r 1).tile t).gbFaultCause = (if (s.tile t).gbFaultValid then (s.tile t).gbFaultCause else 1)
    ∧ (s.abandonRun t r 1).flt.queue = s.flt.queue ++ [s.runItem t r .failedGambit] := by
  rw [abandonRun_steps]
  have hfifo := traceRun_fifo ((s.modTile t (fun y => y.faultRun r)).nondetAt t r.w r.now) t r true
  have hsame : SameEngine ((s.tile t).faultRun r) (((((s.modTile t (fun y => y.faultRun r)).nondetAt t r.w r.now).traceRun t r true).pushLoss
      (s.runItem t r .failedGambit)).tile t) := by
    rw [pushLoss_tile]
    refine SameEngine.trans ?_ hfifo.sameEngine
    unfold State.nondetAt
    rw [modTile_tile, modTile_tile]
    exact sameEngine_markNondet ..
  obtain ⟨hrun, -, -, -, hdue1, hupd1, -⟩ := id hsame
  obtain ⟨hnext, -⟩ := nextRun_tile_sram hrun (hdue1.trans hdue) (hupd1.trans hupd)
  obtain ⟨erun, -, -, -, -, -, ecnt, ecause⟩ := hsame.trans hnext
  refine ⟨erun, ecnt, ecause, ?_⟩
  rw [nextRun_idle hrun (hdue1.trans hdue) (hupd1.trans hupd)]
  change (State.traceRun _ t r true).flt.queue ++ _ = _
  rw [hfifo.2.2.2]
  rfl

end Idle

/-! ### WAKE, EMIT and END -/

section Instructions
variable {s : State} {t : Nat} {r : Run}

theorem askWake_eq (r : Run) (d : Nat) : r.askWake d = { r with wake := if d = 0 then r.wake else some d } := by
  unfold Run.askWake
  split <;> rfl

/-- An EMIT whose condition does not hold, or that is the run's first, does not count as a second one. -/
theorem execGEmit_first {cond ra : BitVec 3} {bin learn fin : Bool} (hrun : (s.tile t).run = some r)
    (hno : (condHolds cond r.n r.z r.i && r.emit.isSome) = false) : execGEmit t cond ra bin learn fin s =
      gExec (.gEmit t cond ra bin learn fin) t (fun _ _ => 1) (fun _ r =>
        let r1 := if condHolds cond r.n r.z r.i then r.askEmit (if bin then 1 else clampByte (r.reg ra)) learn else r
        if fin then .done r1 else r1.step) s := by
  unfold execGEmit
  simp only [hrun, hno, Bool.false_and, Bool.false_eq_true, if_false]

theorem execGEmit_again {cond ra : BitVec 3} {bin learn : Bool} (h : Fetched s t (.gEmit t cond ra bin learn false) r)
    (hemit : r.emit.isSome = true) (hcond : condHolds cond r.n r.z r.i = true) : ∃ u, execGEmit t cond ra bin learn false s = .next u
      ∧ RunGoesOn (s.modTile t (fun x => { x with gbEmit2 := sat 32 x.gbEmit2 1 })) u t (r.next 1) := by
  obtain ⟨hrun, hgood, hword, hsteps⟩ := h
  unfold execGEmit
  simp only [hrun, hgood, hword, hemit, hcond, hsteps, decide_true, Bool.and_self, Bool.not_false, if_true]
  have hfetched : Fetched (s.modTile t (fun x => { x with gbEmit2 := sat 32 x.gbEmit2 1 })) t (.gEmit t cond ra bin learn false) r := by
    unfold Fetched
    rw [modTile_tile]
    exact ⟨hrun, hgood, hword, hsteps⟩
  refine gExec_goOn hfetched ?_
  simp only [hcond, if_true, Run.askEmit, hemit, Bool.false_eq_true, if_false]
  rfl

/-- A run that ends in its instruction, with nothing due, no update and no request, has ended. -/
theorem gExec_ends {i : Instr} {hc : Tile → Run → Nat} {f : Tile → Run → GStep} (h : Fetched s t i r) (hdue : (s.tile t).due = [])
    (hupd : (s.tile t).upd = []) (hemit : r.emit = none) (hwake : r.wake = none) (hn : hc (s.tile t) r = 1)
    (hf : f (s.tile t) { r with steps := r.steps + 1, hc := r.hc + 1 } = .done { r with steps := r.steps + 1, hc := r.hc + 1 }) :
    ∃ u, gExec i t hc f s = .next u ∧ RunEnded s u t r := by
  refine ⟨_, gExec_done h (by rw [hn, hf]), ?_⟩
  have hfifo := tracePc_fifo s t r
  have htile : ((s.tracePc t r).modTile t (fun y => { y with gbSteps := y.gbSteps + 1 })).tile t =
      { s.tile t with gbSteps := (s.tile t).gbSteps + 1, traceFifo := ((s.tracePc t r).tile t).traceFifo } := by
    rw [modTile_tile, hfifo.1]
  have hended := completeRun_ended (s := (s.tracePc t r).modTile t (fun y => { y with gbSteps := y.gbSteps + 1 })) (t := t)
    (r := { r with steps := r.steps + 1, hc := r.hc + 1 }) (by rw [htile]; exact hdue) (by rw [htile]; exact hupd) hemit hwake
  rw [htile] at hended
  exact hended

end Instructions

/-- Settles O23. -/
theorem gambitRunsRequestAndEnd : Obligations.GambitRunsRequestAndEnd := by
  unfold Obligations.GambitRunsRequestAndEnd
  intro s t r cond ra useImm bin learn im
  refine ⟨fun h => ?_, fun h hemit hcond => ?_, fun h hemit hcond => ?_, fun h hcond => ?_, fun hdue hupd hemit hwake =>
    ⟨fun h => ?_, fun h hcond => ?_⟩, fun hdue hupd hrun hlimit => ?_⟩
  · change ∃ u, execGWake t ra useImm im s = .next u ∧ _
    exact gExec_goOn h (by rw [askWake_eq]; rfl)
  · change ∃ u, execGEmit t cond ra bin learn false s = .next u ∧ _
    rw [execGEmit_first h.1 (by rw [hemit, Option.isSome_none, Bool.and_false])]
    refine gExec_goOn h ?_
    simp only [hcond, if_true, Run.askEmit, hemit, Option.isSome_none, Bool.false_eq_true, if_false]
    rfl
  · change ∃ u, execGEmit t cond ra bin learn false s = .next u ∧ _
    obtain ⟨u, hu, htile, -⟩ := execGEmit_again h (Option.isSome_iff_ne_none.mpr hemit) hcond
    rw [modTile_tile] at htile
    exact ⟨u, hu, by rw [htile], by rw [htile]⟩
  · change ∃ u, execGEmit t cond ra bin learn false s = .next u ∧ _
    rw [execGEmit_first h.1 (by rw [hcond, Bool.false_and])]
    refine gExec_goOn h ?_
    simp only [hcond, Bool.false_eq_true, if_false]
    rfl
  · change ∃ u, execGEnd t s = .next u ∧ _
    exact gExec_ends h hdue hupd hemit hwake rfl rfl
  · change ∃ u, execGEmit t cond ra bin learn true s = .next u ∧ _
    rw [execGEmit_first h.1 (by rw [hcond, Bool.false_and])]
    refine gExec_ends h hdue hupd hemit hwake rfl ?_
    simp only [hcond, Bool.false_eq_true, if_false, if_true]
  · change ∃ u, execGambitStepOverrun t s = .next u ∧ _
    refine ⟨s.abandonRun t r 1, ?_, abandonRun_overrun hdue hupd⟩
    unfold execGambitStepOverrun
    simp only [hrun, hlimit, if_true]

end Sys2Proof.Machine
end

section
/-! PROOF. Register writes of BAR0 (R7, R199 to R201, R207, R303, R349). -/

namespace Sys2Proof.Machine

open Sys2Proof

section Write
variable {s : State} {m off : Nat} {v : BitVec 256}

/-- The state in which a write of a register is applied: answered, but by a tile's window, whose reply answers it. -/
def State.writeStart (s : State) (m off : Nat) : State :=
  match barBlock off with
  | .tile _ => s
  | _ => s.respond m []

theorem accessWords_word (off : Nat) : accessWords off 4 = [off] := rfl

theorem execRegisterWrite_word (hown : ownWrite off = false) (hok : s.writeRefusal m off 4 = none) :
    execRegisterWrite m false off 4 v s = .next ((s.writeStart m off).regPut m off (v.extractLsb' 0 32)) := by
  unfold execRegisterWrite State.writeStart
  simp only [accessWords_word, List.isEmpty_cons, List.all_cons, hown, hok, Bool.false_and, Bool.and_false, Bool.false_eq_true, if_false]
  change Host.Outcome.next (if ownWrite off = true then _ else _) = _
  rw [if_neg (ne_true_of_eq_false hown)]
  cases barBlock off <;> rfl

theorem execRegisterWrite_refused {c : Code} (hown : ownWrite off = false) (hno : s.writeRefusal m off 4 = some c) :
    execRegisterWrite m false off 4 v s = .next (s.refuse m false off c false) := by
  unfold execRegisterWrite
  simp only [accessWords_word, List.isEmpty_cons, List.all_cons, hown, hno, Bool.false_and, Bool.and_false, Bool.false_eq_true, if_false]

theorem writeRefusal_ready (hready : s.isReady = true) :
    s.writeRefusal m off 4 = s.barCheck m off 4 false (if adminWrite off then .admin else .use) := by
  unfold State.writeRefusal
  rw [if_pos hready, accessWords_word, List.any_cons, List.any_nil, Bool.or_false]

end Write

theorem regPut_pipSel (s : State) (m : Nat) (v : Word) : s.regPut m 0x300000 v = s.modMaster m (fun x => { x with pipSel := fb v.toNat 17 0 }) :=
  rfl

theorem regPut_fenceSel (s : State) (m : Nat) (v : Word) : s.regPut m 0x3030 v = s.modMaster m (fun x => { x with fenceSel := fb v.toNat 11 0 }) :=
  rfl

theorem regPut_accErr (s : State) (m : Nat) (v : Word) :
    s.regPut m 0x200 v = s.modMaster m (fun x => { x with errValid := x.errValid && !v.getLsbD 31 }) := rfl

theorem regPut_wakeEn (s : State) (m : Nat) (v : Word) : s.regPut m 0x700100 v = { s with aon.wakeEn := v.truncate 23 } := rfl

theorem regPut_hubId (s : State) (m : Nat) (v : Word) : s.regPut m 0 v = s := rfl

/-! ### Registers with rows of their own -/

section OwnReg
variable {s : State} {m off : Nat} {need : Right} {f : State → Option State}

theorem barCheck_allowed {isRead : Bool} (hsize : barSizeOk off 4 = true) (hright : s.barRight m off need = true)
    (hexists : s.barExists off = true) (hfenced : s.barFenced off isRead = false) : s.barCheck m off 4 isRead need = none := by
  unfold State.barCheck
  simp only [hsize, hright, hexists, hfenced, Bool.not_true, Bool.or_self, Bool.false_eq_true, if_false]

theorem ownReg_applies (hready : s.isReady = true) (hok : s.barCheck m off 4 false need = none) {s1 : State} (hf : f s = some s1) :
    ownReg m off need f s = .next (s1.respond m []) := by
  unfold ownReg
  simp only [hready, hok, hf, if_true]

theorem ownReg_refuses (hready : s.isReady = true) (hok : s.barCheck m off 4 false need = none) (hf : f s = none) :
    ownReg m off need f s = .next (s.refuse m false off .failedAccess false) := by
  unfold ownReg
  simp only [hready, hok, hf, if_true]

end OwnReg

theorem barCheck_lossTail {s : State} {m : Nat} (hadmin : s.has m .hubBlock .admin = true) :
    s.barCheck m 0x3004 4 false .admin = none := barCheck_allowed rfl hadmin rfl rfl

theorem barBlock_tempo {off : Nat} (hlo : 0x800000 ≤ off) (hhi : off < 0x810000) : barBlock off = .tempo := by
  unfold barBlock
  simp only [Bool.and_eq_true, decide_eq_true_eq]
  rw [if_neg (by omega), if_neg (by omega), if_neg (by omega), if_neg (by omega), if_neg (by omega), if_neg (by omega), if_neg (by omega),
    if_neg (by omega), if_neg (by omega), if_neg (by omega), if_neg (by omega), if_pos ⟨hlo, hhi⟩]

theorem barBlock_tile {off : Nat} (hlo : 0x1000000 ≤ off) (hhi : off < 0x3000000) : barBlock off = .tile ((off - 0x1000000) / 0x4000) := by
  unfold barBlock
  simp only [Bool.and_eq_true, decide_eq_true_eq]
  rw [if_neg (by omega), if_neg (by omega), if_neg (by omega), if_neg (by omega), if_neg (by omega), if_neg (by omega), if_neg (by omega),
    if_neg (by omega), if_neg (by omega), if_neg (by omega), if_neg (by omega), if_neg (by omega), if_neg (by omega), if_pos ⟨hlo, hhi⟩]

theorem barBlock_tileOff {t o : Nat} (ht : t < 2048) (ho : o < 0x4000) : barBlock (tileOff t o) = .tile t := by
  unfold tileOff
  rw [barBlock_tile (by omega) (by omega)]
  congr 1
  omega

theorem barRel_tileOff {t o : Nat} (ht : t < 2048) (ho : o < 0x4000) : barRel (tileOff t o) = o := by
  unfold barRel
  rw [barBlock_tileOff ht ho]
  unfold tileOff
  dsimp only
  omega

/-- An aligned word below the end of the BAR has the size of an access. -/
theorem barSizeOk_word {off : Nat} (halign : off % 4 = 0) (hend : off + 4 ≤ 2 ^ 26) : barSizeOk off 4 = true := by
  unfold barSizeOk
  simp only [decide_true, Bool.true_or, Bool.true_and, halign, hend]

theorem barCheck_learnGrp {s : State} {m g : Nat} (hg : g < 256) (hadmin : s.has m .tempoBlock .admin = true) :
    s.barCheck m (0x801000 + 4 * g) 4 false .admin = none := by
  have hblock := barBlock_tempo (off := 0x801000 + 4 * g) (by omega) (by omega)
  refine barCheck_allowed (barSizeOk_word (by omega) (by omega)) ?_ ?_ ?_
  · unfold State.barRight
    rw [hblock]
    exact hadmin
  · unfold State.barExists
    rw [hblock]
  · unfold State.barFenced
    rw [hblock]

theorem barCheck_tileClear {s : State} {m t : Nat} (ht : t < 2048) (hadmin : s.has m (.tile t) .admin = true)
    (hpresent : s.tilePresent t = true) (hactive : s.tileActive t = true) : s.barCheck m (tileOff t 0x60) 4 false .admin = none := by
  have hblock := barBlock_tileOff (o := 0x60) ht (by omega)
  refine barCheck_allowed (barSizeOk_word (by unfold tileOff; omega) (by unfold tileOff; omega)) ?_ ?_ ?_
  · unfold State.barRight
    rw [hblock]
    exact hadmin
  · unfold State.barExists
    rw [hblock]
    exact hpresent
  · unfold State.barFenced
    rw [hblock]
    simp only [hactive, Bool.not_true, Bool.false_and]

/-! ### MSI-X vectors -/

theorem getLsbD_clearBit {x : Word} {i : Nat} (hi : i < 32) : (x &&& ~~~(BitVec.ofNat 32 (2 ^ i))).getLsbD i = false := by
  rw [BitVec.getLsbD_and, BitVec.getLsbD_not, BitVec.getLsbD_ofNat, Nat.testBit_two_pow_self]
  simp [hi]

theorem unmask_pending {l : Ld} {i : Nat} (hi : i < 32) (hpba : l.pba.getLsbD i = true) : (l.unmask i).masked.getLsbD i = false
    ∧ (l.unmask i).pba.getLsbD i = false ∧ tget 0 i (l.unmask i).fired = tget 0 i l.fired + 1 := by
  unfold Ld.unmask
  simp only [hpba, if_true]
  exact ⟨getLsbD_clearBit hi, getLsbD_clearBit hi, tget_tmod_same ..⟩

theorem respond_flt (s : State) (m : Nat) (ws : List DWord) : (s.respond m ws).flt = s.flt := (respond_only s m ws).flt_eq (by decide)

theorem refuse_flt (s : State) (m : Nat) (b2 : Bool) (off : Nat) (c : Code) (r : Bool) : (s.refuse m b2 off c r).flt = s.flt :=
  (refuse_only s m b2 off c r).flt_eq (by decide)

theorem execMsixVectorUnmask_host {s : State} {m i : Nat} (hready : s.isReady = true) (hhost : isHost m = true) :
    execMsixVectorUnmask m i s = .next ((s.modLd (ldOf m) (fun l => l.unmask i)).respond m []) := by
  unfold execMsixVectorUnmask
  simp only [hready, hhost, Bool.not_true, Bool.false_eq_true, if_false, if_true]

/-- Settles O25: every write is checked, then the register at its offset takes it. -/
theorem registerWritesByFieldType : Obligations.RegisterWritesByFieldType := by
  unfold Obligations.RegisterWritesByFieldType
  intro s m v x
  refine ⟨fun off hready hown hok => ?_, fun off c hown hno => ?_, fun hready hadmin hle => ?_, fun hready hadmin hgt => ?_,
    fun g hg hready hadmin => ?_, fun t ht hready hadmin hpresent hactive hbit => ?_, fun i hi hready hhost hpba => ?_⟩
  · rw [← writeRefusal_ready hready] at hok
    refine ⟨_, execRegisterWrite_word hown hok, ?_, ?_, ?_, ?_, ?_⟩
    · rintro rfl
      rw [regPut_pipSel, modMaster_master]
    · rintro rfl
      rw [regPut_fenceSel, modMaster_master]
    · rintro rfl
      rw [regPut_accErr, modMaster_master]
      change (((s.respond m []).master m).errValid && _) = _
      rw [respond_master_self, BitVec.getLsbD_extractLsb']
      rfl
    · rintro rfl
      rw [regPut_wakeEn]
    · rintro rfl
      rfl
  · exact ⟨_, execRegisterWrite_refused hown hno, refused ..⟩
  · change ∃ u, execHubLossTail m x s = .next u ∧ _
    exact ⟨_, ownReg_applies hready (barCheck_lossTail hadmin) (if_pos hle), by rw [respond_flt], answered ..⟩
  · change ∃ u, execHubLossTail m x s = .next u ∧ _
    exact ⟨_, ownReg_refuses hready (barCheck_lossTail hadmin) (if_neg (Nat.not_le.mpr hgt)), refuse_flt .., refused ..⟩
  · change ∃ u, execTmpLearnGrp m g x s = .next u ∧ _
    refine ⟨_, ownReg_applies hready (barCheck_learnGrp hg hadmin) rfl, ?_, answered ..⟩
    rw [respond_tmp]
    dsimp only
    rw [tget_tmod_same]
  · change ∃ u, execTileClear m t x s = .next u ∧ _
    refine ⟨_, ownReg_applies hready (barCheck_tileClear ht hadmin hpresent hactive) rfl, answered .., ?_⟩
    rw [if_pos hbit, respond_tile, modTile_tile]
    exact ⟨rfl, rfl, rfl, rfl, rfl, rfl⟩
  · change ∃ u, execMsixVectorUnmask m i s = .next u ∧ _
    refine ⟨_, execMsixVectorUnmask_host hready hhost, ?_⟩
    rw [respond_ld, modLd_ld]
    exact unmask_pending hi hpba

end Sys2Proof.Machine
end

section
/-! PROOF. Accesses to tile windows by message (R134, R295, R296), and host lines of package memory (R171, R174). -/

namespace Sys2Proof.Machine

open Sys2Proof

/-! ### Tile windows -/

section TileWindow
variable {s : State} {m t o size : Nat} (ht : t < 2048) (ho : o < 0x4000)
include ht ho

theorem ownRead_tileOff : ownRead (tileOff t o) size = false := by
  unfold ownRead
  rw [barBlock_tileOff ht ho]

theorem cmdRegion_tileOff : s.cmdRegion m (tileOff t o) = false := by
  unfold State.cmdRegion
  rw [barBlock_tileOff ht ho, Bool.and_false]

theorem execLoRead_tile (hhi : size = 4 → hiReg (tileOff t o) = false) (hok : s.readRefusal m (tileOff t o) size = none) :
    execLoRead m false (tileOff t o) size s = .next (s.cfgSend m t o size (.cfgRead t o size m)) := by
  have hlo : (decide (size = 4) && hiReg (tileOff t o)) = false := by
    by_cases h : size = 4
    · rw [hhi h, Bool.and_false]
    · rw [decide_eq_false h, Bool.false_and]
  unfold execLoRead State.barRead
  simp only [hlo, ownRead_tileOff ht ho, cmdRegion_tileOff ht ho, hok, barBlock_tileOff ht ho, barRel_tileOff ht ho, Bool.or_self,
    Bool.and_false, Bool.false_eq_true, if_false]

end TileWindow

theorem cfgSend_hostReqs (s : State) (m t o size : Nat) (c : Ctl) :
    (s.cfgSend m t o size c).flt.hostReqs = s.flt.hostReqs ++ [(m, t, o, size)] := toRoot_ok.hostReqs_eq (by decide)

/-- The state once the message at the head of the mail is taken, r the messages behind it. -/
def State.popMail (s : State) (r : List Mail) : State := { s with fab.mail := r }

theorem takeMail_pop {s : State} {x : Mail} {r : List Mail} {p : Mail → Bool} (h : s.fab.mail = x :: r) (hp : p x = true) :
    s.takeMail p = some (x, s.popMail r) := takeMail_head h hp

theorem toTile_self (t : Nat) {q : MailBody → Bool} {b : MailBody} (h : q b = true) : toTile t q { dst := t, body := b } = true := by
  simp only [toTile, decide_true, h, Bool.and_self]

theorem stationCode_active {s : State} {t : Nat} (h : s.tileActive t = true) (b : Bool) : s.stationCode t b = .done := by
  unfold State.stationCode
  rw [h, Bool.true_or, if_pos rfl]

section Station
variable {s : State} {t m : Nat} {rest : List Mail} (hactive : s.tileActive t = true)
include hactive

theorem execCfgWrite_active {o : Nat} {v : Word} (hmail : s.fab.mail = { dst := t, body := .ctl (.cfgWrite t o v m) } :: rest) :
    execCfgWrite t s = .next ((((s.popMail rest).wakeTile t 1 m).modTile t (fun x => x.regPut o v)).fromRoot (stackOf t) 32
      (.cfgReply t o 0 0 .done m)) := by
  unfold execCfgWrite
  rw [takeMail_pop hmail (toTile_self t rfl)]
  dsimp only
  rw [stationCode_active (s := s.popMail rest) hactive, if_pos rfl]

theorem execCfgRead_active {o size : Nat} (hmail : s.fab.mail = { dst := t, body := .ctl (.cfgRead t o size m) } :: rest) :
    execCfgRead t s = .next (((s.popMail rest).wakeTile t 1 m).fromRoot (stackOf t) 32 (.cfgReply t o size
      (BitVec.ofNat 64 (((s.popMail rest).wakeTile t 1 m).tileWord t o + ((s.popMail rest).wakeTile t 1 m).tileWord t (o + 4) * 2 ^ 32))
      .done m)) := by
  unfold execCfgRead
  rw [takeMail_pop hmail (toTile_self t rfl)]
  dsimp only
  simp only [stationCode_active (s := s.popMail rest) hactive, if_true]

end Station

/-- The state once the first outstanding access of master m to tile t is off the list. -/
def State.reqDropped (s : State) (m t : Nat) : State := { s with flt.hostReqs := dropReq m t s.flt.hostReqs }

section Reply
variable {s : State} {m t o size : Nat} {d : DWord} {c : Code} {x : Volley} {more : List Volley}
  (hbox : tget [] (epKey 32 0) s.fab.inbox = x :: more) (hbody : ∃ a, x.body = .control a (.cfgReply t o size d c m))
include hbox hbody

theorem execCfgReply_late (hno : s.flt.hostReqs.any (fun e => e.1 = m && e.2.1 = t) = false) :
    ∃ u, execCfgReply s = .next u ∧ u.flt.late = sat 32 s.flt.late 1 := by
  obtain ⟨a, hbody⟩ := hbody
  have hno' : (s.popInbox (epKey 32 0) more).flt.hostReqs.any (fun e => e.1 = m && e.2.1 = t) = false := hno
  unfold execCfgReply
  rw [takeInbox_pop hbox (by simp only [isCtl, hbody, isCfgReply])]
  simp only [hbody, hno', Bool.not_false, if_true]
  exact ⟨_, rfl, rfl⟩

variable (hyes : s.flt.hostReqs.any (fun e => e.1 = m && e.2.1 = t) = true)
include hyes

theorem execCfgReply_taken : execCfgReply s = .next (if c ≠ .done then
      ((s.popInbox (epKey 32 0) more).reqDropped m t).refuse m false (tileOff t o) c (size ≠ 0)
    else if size = 0 then ((s.popInbox (epKey 32 0) more).reqDropped m t).respond m []
    else (((s.popInbox (epKey 32 0) more).reqDropped m t).loLatch m (tileOff t o) size (d.extractLsb' 32 32)).respond m
      [if size = 4 then (d.extractLsb' 0 32).zeroExtend 64 else d]) := by
  obtain ⟨a, hbody⟩ := hbody
  have hyes' : (s.popInbox (epKey 32 0) more).flt.hostReqs.any (fun e => e.1 = m && e.2.1 = t) = true := hyes
  unfold execCfgReply
  rw [takeInbox_pop hbox (by simp only [isCtl, hbody, isCfgReply])]
  simp only [hbody, hyes', Bool.not_true, Bool.false_eq_true, if_false]
  split_ifs <;> rfl

end Reply

/-- Settles O26. -/
theorem tileRegistersGoByMessage : Obligations.TileRegistersGoByMessage := by
  unfold Obligations.TileRegistersGoByMessage
  intro s m t o size v d c rest x more
  refine ⟨fun ht ho hhi hok => ?_, fun hmail hactive => ?_, fun hmail hactive => ?_, fun hbox hbody => ⟨fun hno => ?_, fun hyes =>
    ⟨fun hc hsize => ?_, fun hc hsize => ?_, fun hc => ?_⟩⟩⟩
  · exact ⟨_, execLoRead_tile ht ho hhi hok, cfgSend_hostReqs ..⟩
  · change ∃ u, execCfgWrite t s = .next u ∧ _
    refine ⟨_, execCfgWrite_active hactive hmail, ?_⟩
    rw [fromRoot_ok.tile_eq rfl, modTile_tile]
    rfl
  · exact ⟨_, execCfgRead_active hactive hmail, rfl⟩
  · exact execCfgReply_late hbox hbody hno
  · refine ⟨_, execCfgReply_taken hbox hbody hyes, ?_⟩
    subst hc hsize
    refine ⟨answered .., ?_⟩
    change (State.respond _ m _).flt.hostReqs = _
    rw [respond_flt, loLatch_ok.hostReqs_eq (by decide)]
    rfl
  · refine ⟨_, execCfgReply_taken hbox hbody hyes, ?_⟩
    subst hc hsize
    exact answered ..
  · refine ⟨_, execCfgReply_taken hbox hbody hyes, ?_⟩
    rw [if_pos hc]
    exact refused ..

/-! ### Host lines -/

theorem hdmWake_mem (s : State) (m a : Nat) : (s.hdmWake m a).mem = s.mem := hdmWake_ok.mem_eq rfl

section Line
variable {s : State} {m line : Nat} {data : BitVec 512}

theorem execHdmRead_failed {c : Code} (hno : s.hdmCode m (64 * line) false = some c) : execHdmRead m line s =
    .next (({ s.hostWake m with pool := s.pool.hdmFail c (64 * line) } : State).hdmPoison m c) := by
  unfold execHdmRead
  simp only [hno]

theorem execHdmRead_done (hok : s.hdmCode m (64 * line) false = none) : execHdmRead m line s =
    .next (((s.hdmWake m (64 * line)).modTile (colOf (64 * line)) (fun x =>
      { x with ceDram := sat 16 x.ceDram (s.mem.softCount (s.memAddr (64 * line)) 64) })).respond m
        (lineWords (s.mem.readLine (s.memAddr (64 * line))))) := by
  unfold execHdmRead
  simp only [hok]

theorem execHdmWrite_failed {c : Code} (hno : s.hdmCode m (64 * line) true = some c) : execHdmWrite m line data s =
    .next { s.hostWake m with pool := s.pool.hdmFail c (64 * line) } := by
  unfold execHdmWrite
  simp only [hno]

theorem execHdmWrite_done (hok : s.hdmCode m (64 * line) true = none) : execHdmWrite m line data s =
    .next (({ s.hdmWake m (64 * line) with mem := s.mem.writeLine (s.memAddr (64 * line)) data } : State).respond m []) := by
  unfold execHdmWrite
  simp only [hok, hdmWake_mem]

end Line

/-- Settles O27. -/
theorem hostLinesReadAndWriteMemory : Obligations.HostLinesReadAndWriteMemory := by
  unfold Obligations.HostLinesReadAndWriteMemory
  intro s m line data c
  refine ⟨fun hok => ?_, fun hno => ?_, fun hok hwf => ?_, fun hno => ?_⟩
  · refine ⟨_, execHdmRead_done hok, ?_, answered ..⟩
    rw [respond_mem, modTile_mem, hdmWake_mem]
  · refine ⟨_, execHdmRead_failed hno, ?_⟩
    unfold State.hdmPoison
    rw [modMaster_master]
    exact ⟨hostWake_mem s m, rfl, rfl, rfl⟩
  · refine ⟨_, execHdmWrite_done hok, answered .., ?_⟩
    rw [respond_mem]
    exact ⟨fun k hk => read_writeLine_in hwf _ _ hk, fun a ha => read_writeLine_out _ _ _ ha⟩
  · exact ⟨_, execHdmWrite_failed hno, hostWake_mem s m, rfl, rfl, rfl⟩

end Sys2Proof.Machine
end

section
/-! PROOF. The host link: snoops and the fabric manager (R193, R197), links that come up, drop and reset (R192, R216 to R219). -/

namespace Sys2Proof.Machine

open Sys2Proof

/-- The state once the fabric manager has this answer. -/
def State.fmAnswer (s : State) (ws : List Nat) : State := { s with hub.fmResp := ws }

theorem fmAnswer_ld (s : State) (ws : List Nat) (n : Nat) : (s.fmAnswer ws).ld n = s.ld n := rfl

theorem execSetLdAllocations_enabled {s : State} {n : Nat} (h : (s.ld n).enabled = true) (b : Bool) :
    execSetLdAllocations n (some b) s = .next ((s.modLd n (fun l => { l with hdm := b })).fmAnswer [0]) := if_pos h

/-- Settles O28: each answer is one write of the hub, and a retrain one of its link. -/
theorem cxlRequestsAreAnswered : Obligations.CxlRequestsAreAnswered := by
  unfold Obligations.CxlRequestsAreAnswered
  intro s k n a b
  refine ⟨fun hup => ?_, fun henabled => ?_, ⟨_, rfl, rfl, rfl⟩, fun hup => ?_, fun hup => ?_, fun hup => ?_⟩
  · change ∃ u, execH2dSnoop k a s = .next u ∧ _
    unfold execH2dSnoop
    rw [if_pos hup]
    exact ⟨_, rfl, rfl, rfl⟩
  · change ∃ u, execSetLdAllocations n (some b) s = .next u ∧ _
    refine ⟨_, execSetLdAllocations_enabled henabled b, rfl, ?_, fun j hj => ?_⟩
    · rw [fmAnswer_ld, modLd_ld]
    · rw [fmAnswer_ld, modLd_ld_other s hj]
  · change ∃ u, execGetLdInfo k s = .next u ∧ _
    unfold execGetLdInfo
    rw [if_pos hup]
    exact ⟨_, rfl, rfl⟩
  · change ∃ u, execGetLdAllocations k s = .next u ∧ _
    unfold execGetLdAllocations
    rw [if_pos hup]
    exact ⟨_, rfl, rfl⟩
  · change ∃ u, execLinkRecovery k s = .next u ∧ _
    unfold execLinkRecovery
    rw [if_pos hup]
    exact ⟨_, rfl, modLink_link s k _, fun j hj => modLink_link_other s hj _,
      OnlyM.only (only_modLink (OnlyM.refl _ s) (by decide))⟩

/-! ### Training -/

/-- Bringing up LDs leaves everything but the LDs. -/
theorem ldsUp_only (s : State) (ns : List Nat) : OnlyM 0x1000000 s (ns.foldl (fun s n => s.modLd n (fun l => { l with up := true })) s) :=
  onlyM_foldl (fun t _ => only_modLd (OnlyM.refl _ t) rfl) (OnlyM.refl _ s)

theorem execCxlLinkUp_trains {s : State} {k width : Nat} {fast lopt : Bool} (hrun : s.aon.phase = .running)
    (hmay : s.mayTrain k width lopt false = true) : ∃ p : Pool, execCxlLinkUp k width fast lopt false s = .next
      { (s.portLds k).foldl (fun s n => s.modLd n (fun l => { l with up := true }))
          (s.modLink k (fun l => { l with state := 2, width := width, rate := if fast then 2 else 1, lopt := lopt })) with pool := p } := by
  unfold execCxlLinkUp
  simp only [hrun, hmay, decide_true, Bool.and_self, if_true, Bool.false_and, Bool.false_eq_true, if_false]
  exact ⟨_, rfl⟩

/-! ### Drops and resets -/

theorem dropLd_self (s : State) (n : Nat) (up : Bool) : ∃ t : State, (s.dropLd n up).ld n = { t.ld n with up := (t.ld n).up && up, drops := sat 16 (t.ld n).drops 1 }
    ∧ ((s.dropLd n up).master (4 + n)).staging = [] := by
  unfold State.dropLd
  dsimp only
  generalize State.failHeads _ _ _ _ = u
  refine ⟨u, ?_, ?_⟩
  · rw [modLd_ld, modMaster_ld]
  · rw [modLd_master, modMaster_master]

/-- Where nothing of an LD's is in flight, a drop changes nothing else of it. -/
theorem dropLd_quiet {s : State} {n : Nat} (hsourced : s.sourced 1 n = []) (hexec : s.hub.executing = [])
    (hmsgs : (s.rack (s.ld n).cmdRack).msgs = []) (up : Bool) :
    (s.dropLd n up).ld n = { s.ld n with up := (s.ld n).up && up, drops := sat 16 (s.ld n).drops 1 } := by
  unfold State.dropLd State.hostParks
  simp only [hsourced, hexec, hmsgs, List.foldl_nil, List.filter_nil, List.length_nil, State.failHeads, modLd_ld, modMaster_ld]
  split <;> rfl

theorem dropLd_link (s : State) (n : Nat) (up : Bool) (k : Nat) : (s.dropLd n up).link k = s.link k :=
  (only_dropLd (P := 0x10c9f093f520528) (OnlyM.refl _ s) rfl).link_eq rfl k

theorem dropPort_link (s : State) (k : Nat) : (s.dropPort k).link k =
    { s.link k with state := 0, width := 0, rate := 0, lopt := false, drops := sat 16 (s.link k).drops 1 } := by
  unfold State.dropPort
  rw [(only_poolLinkDown (P := 0x100c00000000100) (OnlyM.refl _ _) rfl).link_eq rfl k]
  have hfold (ns : List Nat) : ∀ t : State, (ns.foldl (fun s n => s.dropLd n false) t).link k = t.link k := by
    induction ns with
    | nil => exact fun t => rfl
    | cons n r ih => exact fun t => (ih _).trans (dropLd_link t n false k)
  rw [hfold, modLink_link]

/-- Settles O29. -/
theorem linksComeUpAndDrop : Obligations.LinksComeUpAndDrop := by
  unfold Obligations.LinksComeUpAndDrop
  intro s k n width fast lopt
  refine ⟨fun hrun hmay => ?_, fun hup => ⟨?_, ?_⟩, fun henabled => ⟨?_, ?_⟩, fun henabled hsourced hexec hmsgs => ⟨?_, ?_⟩⟩
  · obtain ⟨p, hp⟩ := execCxlLinkUp_trains (fast := fast) hrun hmay
    have hlds := ldsUp_only (s.modLink k (fun l => { l with state := 2, width := width, rate := if fast then 2 else 1, lopt := lopt })) (s.portLds k)
    refine ⟨_, hp, ?_, fun j hj => ?_, ?_, ?_, ?_⟩
    · exact (hlds.link_eq rfl k).trans (modLink_link ..)
    · exact (hlds.link_eq rfl j).trans (modLink_link_other _ hj _)
    · exact hlds.masters_eq rfl
    · exact hlds.access_eq rfl
    · exact hlds.rackStore_eq (by decide)
  · change ∃ u, execLinkDrop (.port k) s = .next u ∧ _
    refine ⟨_, if_neg hup, ?_⟩
    rw [dropPort_link]
    exact ⟨rfl, rfl⟩
  · change ∃ u, execHotReset (.port k) s = .next u ∧ _
    refine ⟨_, if_neg hup, ?_⟩
    rw [dropPort_link]
  · change ∃ u, execLinkDrop (.ld n) s = .next u ∧ _
    obtain ⟨t, hld, hstaging⟩ := dropLd_self s n false
    exact ⟨_, if_pos henabled, by rw [hld, Bool.and_false], hstaging⟩
  · change ∃ u, execHotReset (.ld n) s = .next u ∧ _
    obtain ⟨t, -, hstaging⟩ := dropLd_self s n true
    exact ⟨_, if_pos henabled, hstaging⟩
  · change ∃ u, execLinkDrop (.ld n) s = .next u ∧ _
    exact ⟨_, if_pos henabled, by rw [dropLd_quiet hsourced hexec hmsgs, Bool.and_false]⟩
  · change ∃ u, execHotReset (.ld n) s = .next u ∧ _
    exact ⟨_, if_pos henabled, by rw [dropLd_quiet hsourced hexec hmsgs, Bool.and_true]⟩

end Sys2Proof.Machine
end

section
/-! PROOF. Power domains (R271 to R276, R287, R289). -/

namespace Sys2Proof.Machine

open Sys2Proof

theorem execLullEntry_enters {s : State} {d : Nat} (hmay : s.mayEnter d 1 = true) (hport : s.domClass d ≠ some 7)
    (hspan : s.domClass d ≠ some 8) : execLullEntry d s = .next (s.modDom d (fun x => { x with state := 1 })) := by
  unfold execLullEntry
  simp only [hmay, hport, hspan, ne_eq, not_false_eq_true, decide_true, Bool.and_self, if_true]

/-- The state once the wake timer is armed for a tether deadline. -/
def State.armTether (s : State) (d : Option Nat) : State := { s with aon.tetherAt := d }

theorem armTether_dom (s : State) (d : Option Nat) (j : Nat) : (s.armTether d).dom j = s.dom j := rfl

theorem execHoldEntry_enters {s : State} {d : Nat} (hmay : s.mayEnter d 2 = true) (hspan : s.domClass d ≠ some 8) :
    execHoldEntry d s = .next ((s.modDom d (fun x => { x with state := 2 })).armTether (if d = 1 then s.tetherDeadline else s.aon.tetherAt)) := by
  unfold execHoldEntry
  simp only [hmay, hspan, Bool.not_true, Bool.false_eq_true, if_false]
  split <;> rfl

theorem execHoldEntry_span {s : State} {d : Nat} (hmay : s.mayEnter d 2 = true) (hspan : s.domClass d = some 8) :
    execHoldEntry d s = .next (s.modSpan (d - 0x010) (fun x => { x with hold := 1 })) := by
  unfold execHoldEntry
  simp only [hmay, hspan, Bool.not_true, Bool.false_eq_true, if_false, if_true]

theorem execDomainReady_wakes {s : State} {d : Nat} (hwaking : (s.dom d).waking.isSome = true) (hspan : s.domClass d ≠ some 8) :
    execDomainReady d s = .next (s.domAwake d) := by
  unfold execDomainReady
  simp only [hwaking, hspan, ne_eq, not_false_eq_true, decide_true, Bool.and_self, if_true]

theorem recordWake_dom (s : State) (kind source d detail j : Nat) : (s.recordWake kind source d detail).dom j = s.dom j := rfl

/-- What a request to a sleeping domain leaves of it, and of the wake record. -/
theorem wakeDom_sleeping {s : State} {d : Nat} (hdeep : (s.dom d).state ≠ 0) (hidle : (s.dom d).waking = none) (kind detail : Nat) :
    ((s.wakeDom d kind detail).dom d).waking = some (kind, detail) ∧ ((s.wakeDom d kind detail).dom d).idle = false
      ∧ ((s.wakeDom d kind detail).dom d).state = (s.dom d).state
      ∧ ((s.dom d).state = 2 → (s.wakeDom d kind detail).aon.wakeLast = wakeRecord kind 2 d detail s.aon.wall
        ∧ (s.wakeDom d kind detail).aon.wakeHead = (s.aon.wakeHead + 1) % 16
        ∧ tget 0 s.aon.wakeHead (s.wakeDom d kind detail).aon.wakeHist = (s.wakeDom d kind detail).aon.wakeLast)
      ∧ ((s.dom d).state ≠ 2 → (s.wakeDom d kind detail).aon = s.aon) := by
  unfold State.wakeDom
  simp only [hdeep, hidle, decide_false, Option.isSome_none, Bool.or_self, Bool.false_eq_true, if_false]
  split
  · rw [recordWake_dom, modDom_dom]
    exact ⟨rfl, rfl, rfl, fun _ => ⟨rfl, rfl, tget_tset_same ..⟩, fun h => absurd ‹_› h⟩
  · rw [modDom_dom]
    exact ⟨rfl, rfl, rfl, fun h => absurd h ‹_›, fun _ => rfl⟩

theorem throttle_fold (on : Bool) (ts : List Nat) : ∀ (s : State) (t : Nat),
    ((ts.foldl (fun s t => s.modTile t (fun x => { x with throttled := on })) s).tile t).throttled =
      if t ∈ ts then on else (s.tile t).throttled := by
  induction ts with
  | nil => exact fun s t => rfl
  | cons a r ih =>
    intro s t
    rw [List.foldl_cons, ih]
    by_cases hr : t ∈ r
    · rw [if_pos hr, if_pos (List.mem_cons_of_mem a hr)]
    · rw [if_neg hr]
      by_cases ha : t = a
      · subst ha
        rw [modTile_tile, if_pos List.mem_cons_self]
      · rw [modTile_tile_other _ ha, if_neg (by simp [ha, hr])]

theorem execPowerReqCap_throttles {s : State} {d : Nat} {on : Bool} (hon : (on && decide (s.pwr.level = 0)) = false) :
    ∃ u, execPowerReqCap d on s = .next u
      ∧ ∀ t, (u.tile t).throttled = if t ∈ s.reqTiles d then on else (s.tile t).throttled := by
  unfold execPowerReqCap
  rw [hon, if_neg Bool.false_ne_true]
  exact ⟨_, rfl, throttle_fold on _ s⟩

theorem execPowerReqState_takes {s : State} {d c x : Nat} (hclass : s.domClass d = some c) (hc : c ≤ 2) (hx : x < 3) :
    execPowerReqState d x s = .next (s.modDom d (fun y => { y with state := x, waking := none })) := by
  unfold execPowerReqState
  simp only [hclass, hc, hx, decide_true, Bool.and_self, if_true]

/-- Settles O30. -/
theorem domainsSleepAndWake : Obligations.DomainsSleepAndWake := by
  unfold Obligations.DomainsSleepAndWake
  intro s d
  refine ⟨fun hmay hport hspan => ?_, fun hmay hspan => ?_, fun hmay hspan => ?_, fun hwaking hspan => ?_, fun hdeep hidle => ?_,
    fun hclass => ?_, fun c x hclass hc hx => ?_, fun hlevel => ?_, ?_⟩
  · exact ⟨_, execLullEntry_enters hmay hport hspan, modDom_dom .., fun j hj => modDom_dom_other _ hj _⟩
  · refine ⟨_, execHoldEntry_enters hmay hspan, ?_, fun j hj => ?_, rfl⟩
    · rw [armTether_dom, modDom_dom]
    · rw [armTether_dom, modDom_dom_other _ hj]
  · exact ⟨_, execHoldEntry_span hmay hspan, by rw [modSpan_span], rfl⟩
  · exact ⟨_, execDomainReady_wakes hwaking hspan, modDom_dom .., fun j hj => modDom_dom_other _ hj _⟩
  · exact ⟨_, rfl, wakeDom_sleeping hdeep hidle 2 stewardEp⟩
  · change ∃ u, execPowerReqIdle d s = .next u ∧ _
    exact ⟨_, if_pos hclass, modDom_dom ..⟩
  · exact ⟨_, execPowerReqState_takes hclass hc hx, modDom_dom ..⟩
  · exact execPowerReqCap_throttles (by rw [decide_eq_false hlevel, Bool.and_false])
  · exact execPowerReqCap_throttles (Bool.false_and _)

end Sys2Proof.Machine
end

section
/-! PROOF. The power cap and the sensors (R278, R286, R288, R344), and the supplies (R278 to R282, R335 to R339). -/

namespace Sys2Proof.Machine

open Sys2Proof

/-- Every part of `aon`. -/
theorem OnlyM.aon_eq {m : Nat} {s t : State} (h : OnlyM m s t)
    (hb : ∀ p ∈ ([.wall, .wakeLog, .pins, .halt, .rails, .wakeCfg, .doldrums, .thermal] : List Part), m.testBit p.idx = false) :
    t.aon = s.aon := by
  have hwall := h .wall (hb _ (by decide))
  have hwake := h .wakeLog (hb _ (by decide))
  have hpins := h .pins (hb _ (by decide))
  have hhalt := h .halt (hb _ (by decide))
  have hrails := h .rails (hb _ (by decide))
  have hcfg := h .wakeCfg (hb _ (by decide))
  have hdold := h .doldrums (hb _ (by decide))
  have hthermal := h .thermal (hb _ (by decide))
  simp only [Part.same, Prod.mk.injEq] at hwall hwake hpins hhalt hrails hcfg hdold hthermal
  generalize t.aon = x at *
  generalize s.aon = y at *
  cases x
  cases y
  simp_all

theorem complete_aon (s : State) (c : ExecCmd) (k : Code) (rs : List DWord) : (s.complete c k rs).aon = s.aon :=
  OnlyM.aon_eq (complete_only s c k rs) (by decide)

theorem complete_pwr (s : State) (c : ExecCmd) (k : Code) (rs : List DWord) : (s.complete c k rs).pwr = s.pwr :=
  OnlyM.pwr_eq (complete_only s c k rs) (by decide)

/-! ### POWER_SET -/

section PowerSet
variable {s : State} {rk seq op : Nat} {c : ExecCmd} (h : Begins s rk seq 0x28 c) (hadmin : s.has c.src .powerBlock .admin = true)
  (hop : wf (c.words.getD 1 0) 1 0 = op)
include h hadmin hop

theorem powerSet_runs (f : State → ExecCmd → DWord → State × Code) : powerSet op f rk seq s =
    .next ((f (s.cmdWake 0x28) c (c.words.getD 1 0)).1.complete c (f (s.cmdWake 0x28) c (c.words.getD 1 0)).2 []) := by
  unfold powerSet
  rw [runCmd_next h (decide_eq_true hop), cmdWake_has, hadmin]
  rfl

end PowerSet

theorem quietWorlds_wake (s : State) (op : Nat) : (s.cmdWake op).quietWorlds = s.quietWorlds := by
  unfold State.quietWorlds State.rebuilding
  rw [cmdWake_tmp, (cmdWake_only s op).pool_eq rfl]

theorem cmdRacksEmpty_wake (s : State) (op : Nat) : (s.cmdWake op).cmdRacksEmpty = s.cmdRacksEmpty := by
  unfold State.cmdRacksEmpty
  simp only [(cmdWake_only s op).lds_eq rfl, (cmdWake_only s op).rack_eq rfl]

/-- The whole of a state's `pwr.cfg` but the depths. -/
theorem wakeDeep_cfg (s : State) : s.wakeDeep.pwr.cfg = s.pwr.cfg := wakeDeep_ok.pwrCfg_eq (by decide)

theorem execPowerSetDepth_refused {s : State} {rk seq : Nat} {c : ExecCmd} (h : Begins s rk seq 0x28 c)
    (hadmin : s.has c.src .powerBlock .admin = true) (hop : wf (c.words.getD 1 0) 1 0 = 1)
    (hbad : 9 < wf (c.words.getD 1 0) 7 4 ∨ wf (c.words.getD 1 0) 9 8 = 3) :
    execPowerSetDepth rk seq s = .next ((s.cmdWake 0x28).complete c .failedAccess []) := by
  unfold execPowerSetDepth
  rw [powerSet_runs h hadmin hop]
  dsimp only
  rw [if_pos (by simpa only [Bool.or_eq_true, decide_eq_true_eq] using hbad)]

theorem execPowerSetDepth_done {s : State} {rk seq : Nat} {c : ExecCmd} (h : Begins s rk seq 0x28 c)
    (hadmin : s.has c.src .powerBlock .admin = true) (hop : wf (c.words.getD 1 0) 1 0 = 1)
    (hclass : wf (c.words.getD 1 0) 7 4 ≤ 9) (hdepth : wf (c.words.getD 1 0) 9 8 ≠ 3) :
    execPowerSetDepth rk seq s = .next ((State.wakeDeep { s.cmdWake 0x28 with pwr.cfg := { (s.cmdWake 0x28).pwr.cfg with
      depth := setDepth (s.cmdWake 0x28).pwr.cfg.depth (wf (c.words.getD 1 0) 7 4) (wf (c.words.getD 1 0) 9 8) } }).complete c .done []) := by
  unfold execPowerSetDepth
  rw [powerSet_runs h hadmin hop]
  dsimp only
  rw [if_neg (by simp only [Bool.or_eq_true, decide_eq_true_eq]; omega)]

/-- The state once Doldrums is asked for, with the time of its wake timer (R278, R279). -/
def State.doldAsked (s : State) (timer : Nat) : State :=
  { s with aon.wakeTimer := timer, pwr.doldPending := true, pwr.dispatchOff := true }

theorem execPowerSetDoldrums_done {s : State} {rk seq : Nat} {c : ExecCmd} (h : Begins s rk seq 0x28 c)
    (hadmin : s.has c.src .powerBlock .admin = true) (hop : wf (c.words.getD 1 0) 1 0 = 2)
    (hquiet : s.quietWorlds = true) (hempty : s.cmdRacksEmpty = true) (hexec : s.hub.executing = [c]) :
    execPowerSetDoldrums rk seq s = .next (((s.cmdWake 0x28).doldAsked (wf (c.words.getD 1 0) 63 32)).complete c .done []) := by
  have hexec' : (s.cmdWake 0x28).hub.executing = [c] := ((cmdWake_only s 0x28).executing_eq rfl).trans hexec
  unfold execPowerSetDoldrums
  rw [powerSet_runs h hadmin hop]
  simp only [quietWorlds_wake, cmdRacksEmpty_wake, hquiet, hempty, hexec', List.all_cons, List.all_nil, decide_true, Bool.and_self, if_true]
  rfl

theorem execPowerSetDoldrums_busy {s : State} {rk seq : Nat} {c : ExecCmd} (h : Begins s rk seq 0x28 c)
    (hadmin : s.has c.src .powerBlock .admin = true) (hop : wf (c.words.getD 1 0) 1 0 = 2) (hbusy : s.quietWorlds = false) :
    execPowerSetDoldrums rk seq s = .next ((s.cmdWake 0x28).complete c .busy []) := by
  unfold execPowerSetDoldrums
  rw [powerSet_runs h hadmin hop]
  simp only [quietWorlds_wake, hbusy, Bool.false_and, Bool.false_eq_true, if_false]

/-! ### The cap law and the sensors -/

/-- CAP_WINDOW's count of windows and average (R286). -/
def State.windowed (s : State) (p : Nat) : State :=
  { s with pwr.avg := p, pwr.capOver := if 10 * s.effCap < p then sat 32 s.pwr.capOver 1 else s.pwr.capOver }

theorem execCapWindow_held {s : State} {p : Nat} (hready : s.isReady = true) (hrun : s.aon.phase = .running)
    (hheld : (s.flt.stwReset || s.aon.therm) = true) : execCapWindow p s = .next (s.windowed p) := by
  unfold execCapWindow
  simp only [hready, hrun, hheld, Bool.not_true, ne_eq, not_true_eq_false, decide_false, Bool.or_self, Bool.false_eq_true, if_false, if_true]
  rfl

theorem execCapWindow_law {s : State} {p : Nat} (hready : s.isReady = true) (hrun : s.aon.phase = .running)
    (hheld : (s.flt.stwReset || s.aon.therm) = false) : execCapWindow p s = .next { s.windowed p with
      pwr.level := (capLaw s.pwr.level s.pwr.under p (10 * s.effCap)).1, pwr.under := (capLaw s.pwr.level s.pwr.under p (10 * s.effCap)).2 } := by
  unfold execCapWindow
  simp only [hready, hrun, hheld, Bool.not_true, ne_eq, not_true_eq_false, decide_false, Bool.or_self, Bool.false_eq_true, if_false]
  rfl

theorem execCapWindow_ready {s : State} (p : Nat) (hready : s.isReady = true) (hrun : s.aon.phase = .running) :
    ∃ u, execCapWindow p s = .next u ∧ u.pwr.avg = p
      ∧ u.pwr.capOver = (if 10 * s.effCap < p then sat 32 s.pwr.capOver 1 else s.pwr.capOver)
      ∧ (s.flt.stwReset = true ∨ s.aon.therm = true → u.pwr.level = s.pwr.level)
      ∧ (s.flt.stwReset = false → s.aon.therm = false →
        (u.pwr.level, u.pwr.under) = capLaw s.pwr.level s.pwr.under p (10 * s.effCap)) := by
  cases hheld : (s.flt.stwReset || s.aon.therm) with
  | true =>
    refine ⟨_, execCapWindow_held hready hrun hheld, rfl, rfl, fun _ => rfl, fun hreset htherm => ?_⟩
    rw [hreset, htherm] at hheld
    cases hheld
  | false =>
    refine ⟨_, execCapWindow_law hready hrun hheld, rfl, rfl, fun h => ?_, fun _ _ => rfl⟩
    rw [Bool.or_eq_false_iff] at hheld
    rcases h with h | h
    · rw [hheld.1] at h; cases h
    · rw [hheld.2] at h; cases h

theorem capLaw_eq (k under p c : Nat) : capLaw k under p c = if c < p then (min (k + 1) 7, 0)
    else if p ≤ c - c / 16 then (if under + 1 = 4 then (max (k - 1) 0, 0) else (k, under + 1)) else (k, 0) := by
  rw [Nat.max_zero]
  rfl

/-- The state in Doldrums, before a source that was latched during entry is seen (R279). -/
def State.asleep (s : State) : State :=
  { ((s.eachOut (fun _ => true) Port.stepSafe).doldRecord).powerLoss with
    aon.phase := .doldrums, aon.railEn := false, aon.pwrGood := false, aon.tetherAt := none }

theorem enterDoldrums_asleep {s : State} (h : s.aon.latched = none ∨ s.aon.tripped = true) : s.enterDoldrums = s.asleep := by
  unfold State.enterDoldrums
  dsimp only
  split
  · next k d hlatched =>
    rcases h with h | h
    · cases h.symm.trans hlatched
    · exact if_pos h
  · rfl

theorem not_or_of_bool {p q : Prop} [Decidable p] [Decidable q] (hp : ¬ p) (hq : ¬ q) : ¬ (decide p || decide q) = true := by
  simp only [hp, hq, decide_false, Bool.or_self, Bool.false_eq_true, not_false_eq_true]

theorem execThermalTrip_trips {s : State} {tj : Nat} (sensor : Nat) (hphase : s.aon.phase ≠ .aonReset) (htj : 110 ≤ tj) :
    ∃ u, execThermalTrip sensor tj s = .next u ∧ u.aon.tripped = true ∧ u.aon.therm = true ∧ u.aon.phase = .doldrums := by
  unfold execThermalTrip
  rw [if_neg (not_or_of_bool hphase (Nat.not_lt.mpr htj))]
  dsimp only
  split
  · next hdold => exact ⟨_, rfl, rfl, rfl, hdold⟩
  · rw [enterDoldrums_asleep (Or.inr rfl)]
    exact ⟨_, rfl, rfl, rfl, rfl⟩

/-- The state once every sensor reads 85 °C or less (R344). -/
def State.cooled (s : State) : State := { s with aon.tripped := false, aon.therm := false, aon.tjMax := min s.aon.tjMax 85 }

theorem execTripCooldown_wakes {s : State} {k d : Nat} (htripped : s.aon.tripped = true) (hdold : s.aon.phase = .doldrums)
    (hlatched : s.aon.latched = some (k, d)) : execTripCooldown s = .next (s.cooled.packageWake k d) := by
  unfold execTripCooldown
  simp only [htripped, hdold, hlatched, if_true]
  rfl

theorem execTripCooldown_stays {s : State} (htripped : s.aon.tripped = true)
    (hstay : ∀ k d, s.aon.phase = .doldrums → s.aon.latched ≠ some (k, d)) : execTripCooldown s = .next s.cooled := by
  unfold execTripCooldown
  rw [if_pos htripped]
  dsimp only
  split
  · next k d hdold hlatched => exact absurd hlatched (hstay k d hdold)
  · rfl

theorem packageWake_aon (s : State) (k d : Nat) : (s.packageWake k d).aon.tripped = s.aon.tripped
    ∧ (s.packageWake k d).aon.therm = s.aon.therm ∧ (s.packageWake k d).aon.railEn = true
    ∧ (s.packageWake k d).aon.phase = .porAsserted ∧ (s.packageWake k d).aon.wakeLast = wakeRecord k 3 0 d s.aon.wall :=
  ⟨rfl, rfl, rfl, rfl, rfl⟩

theorem execTripCooldown_cools {s : State} (htripped : s.aon.tripped = true) : ∃ u, execTripCooldown s = .next u
    ∧ u.aon.tripped = false ∧ u.aon.therm = false
    ∧ (s.aon.phase = .doldrums → ∀ k d, s.aon.latched = some (k, d) → u.aon.railEn = true ∧ u.aon.phase = .porAsserted
      ∧ u.aon.wakeLast = wakeRecord k 3 0 d s.aon.wall) := by
  by_cases hwake : ∃ k d, s.aon.phase = .doldrums ∧ s.aon.latched = some (k, d)
  · obtain ⟨k, d, hdold, hlatched⟩ := hwake
    obtain ⟨htrip, htherm, hrail, hphase, hlast⟩ := packageWake_aon s.cooled k d
    refine ⟨_, execTripCooldown_wakes htripped hdold hlatched, htrip, htherm, fun _ k' d' hsome => ?_⟩
    cases hlatched.symm.trans hsome
    exact ⟨hrail, hphase, hlast⟩
  · exact ⟨_, execTripCooldown_stays htripped fun k d hdold hlatched => hwake ⟨k, d, hdold, hlatched⟩, rfl, rfl,
      fun hdold k d hlatched => absurd ⟨k, d, hdold, hlatched⟩ hwake⟩

/-- Settles O31. -/
theorem powerIsCappedAndSensed : Obligations.PowerIsCappedAndSensed := by
  unfold Obligations.PowerIsCappedAndSensed
  intro s rk seq c p sensor tj
  refine ⟨fun h hadmin => ⟨fun hop => ?_, fun hop => ⟨fun hbad => ?_, fun hclass hdepth => ?_⟩, fun hop hquiet hempty hexec => ?_,
    fun hop hbusy => ?_⟩, fun hready hrun => ?_, fun hphase htj => ?_, fun htherm htj => ?_, fun hphase htj => ?_, fun htripped => ?_⟩
  · change ∃ u, execPowerSetCap rk seq s = .next u ∧ _
    refine ⟨_, powerSet_runs h hadmin hop _, cmd_done s _ h (by simp only [ne_eq, reduceCtorEq, not_false_eq_true]), ?_⟩
    rw [complete_pwr]
  · change ∃ u, execPowerSetDepth rk seq s = .next u ∧ _
    refine ⟨_, execPowerSetDepth_refused h hadmin hop hbad, cmd_done s _ h (by decide), ?_⟩
    rw [complete_pwr]
    exact (cmdWake_only s 0x28).pwrCfg_eq rfl
  · change ∃ u, execPowerSetDepth rk seq s = .next u ∧ _
    refine ⟨_, execPowerSetDepth_done h hadmin hop hclass hdepth, cmd_done s _ h (by decide), ?_⟩
    rw [complete_pwr, wakeDeep_cfg]
    exact congrArg (fun x => setDepth x _ _) (congrArg _ ((cmdWake_only s 0x28).pwrCfg_eq rfl))
  · change ∃ u, execPowerSetDoldrums rk seq s = .next u ∧ _
    refine ⟨_, execPowerSetDoldrums_done h hadmin hop hquiet hempty hexec, cmd_done s _ h (by decide), ?_⟩
    rw [complete_pwr, complete_aon]
    exact ⟨rfl, rfl, rfl⟩
  · change ∃ u, execPowerSetDoldrums rk seq s = .next u ∧ _
    refine ⟨_, execPowerSetDoldrums_busy h hadmin hop hbusy, cmd_done s _ h (by decide), ?_⟩
    rw [complete_pwr]
    exact (cmdWake_only s 0x28).doldPending_eq rfl
  · change ∃ u, execCapWindow p s = .next u ∧ _
    obtain ⟨u, hu, havg, hover, hheld, hlaw⟩ := execCapWindow_ready p hready hrun
    exact ⟨u, hu, havg, hover, hheld, fun hreset htherm => (hlaw hreset htherm).trans (capLaw_eq ..)⟩
  · change ∃ u, execThermalThrottle sensor tj s = .next u ∧ _
    exact ⟨_, if_neg (not_or_of_bool hphase (Nat.not_lt.mpr htj)), rfl, rfl, rfl, rfl⟩
  · change ∃ u, execThermalClear tj s = .next u ∧ _
    exact ⟨_, if_pos (by simp only [htherm, htj, decide_true, Bool.and_self]), rfl, rfl, rfl⟩
  · exact execThermalTrip_trips sensor hphase htj
  · exact execTripCooldown_cools htripped

/-! ### The supplies -/

section Sleep
variable {s : State} (hlatched : s.aon.latched = none)
include hlatched

theorem execDoldrumsEntry_asleep (hpending : s.pwr.doldPending = true) : execDoldrumsEntry s = .next s.asleep := by
  unfold execDoldrumsEntry
  rw [if_pos hpending, enterDoldrums_asleep (Or.inl hlatched)]

theorem execDoldrumsAuto_asleep (hready : s.isReady = true) (hrun : s.aon.phase = .running) (hauto : s.pwr.cfg.autoMs ≠ 0)
    (hquiet : s.quietWorlds = true) (hempty : s.cmdRacksEmpty = true) (htrace : s.trc.st = 0)
    (hlinks : s.hub.links.all (fun e => decide (e.2.state < 2)) = true) (hstripe : s.pool.stripe ≠ 2) :
    execDoldrumsAuto s = .next s.asleep := by
  unfold execDoldrumsAuto
  simp only [hready, hrun, hauto, hquiet, hempty, htrace, hlinks, hstripe, ne_eq, not_false_eq_true, decide_true, Bool.and_self, if_true]
  rw [enterDoldrums_asleep (Or.inl hlatched)]

end Sleep

theorem wakeSource_wakes {s : State} {i : Nat} (hdold : s.aon.phase = .doldrums) (htripped : s.aon.tripped = false)
    (hen : s.aon.wakeEn.getLsbD i = true) (kind detail : Nat) : s.wakeSource i kind detail = s.packageWake kind detail := by
  unfold State.wakeSource
  simp only [hdold, htripped, hen, Bool.not_true, Bool.false_eq_true, if_false, if_true]

theorem execWakeTimerExpiry_source {s : State} (hnone : s.aon.tetherAt = none) (htimer : s.aon.wakeTimer ≠ 0) :
    execWakeTimerExpiry s = .next (s.wakeSource 20 6 0) := by
  unfold execWakeTimerExpiry
  simp only [hnone, htimer, ne_eq, not_false_eq_true, if_true]

theorem execPwrGoodTimeout_drops {s : State} (hpor : s.aon.phase = .porAsserted) (hrail : s.aon.railEn = true)
    (hgood : s.aon.pwrGood = false) : ∃ u, execPwrGoodTimeout s = .next u ∧ u.aon.railEn = false ∧ u.aon.phase = .railsDown
      ∧ u.aon.railFaults = sat 16 s.aon.railFaults 1 := by
  unfold execPwrGoodTimeout
  simp only [hpor, hrail, hgood, decide_true, Bool.not_false, Bool.and_self, if_true]
  exact ⟨_, rfl, rfl, rfl, rfl⟩

/-- Power-on reset keeps of the switched domains nothing, of the always-on domain all but the phase (R270, R337). -/
theorem porAssert_parts (s : State) : s.porAssert.aon.phase = .porAsserted ∧ s.porAssert.aon.railFaults = s.aon.railFaults
    ∧ s.porAssert.aon.railEn = s.aon.railEn ∧ s.porAssert.tiles = [] ∧ s.porAssert.racks = {} ∧ s.porAssert.tmp = {}
    ∧ s.porAssert.mem = {} ∧ s.porAssert.fuses = s.fuses := ⟨rfl, rfl, rfl, rfl, rfl, rfl, rfl, rfl⟩

theorem execSupplyFault_running {s : State} (hrun : s.aon.phase = .running) : ∃ u, execSupplyFault s = .next u
    ∧ u.aon.phase = .porAsserted ∧ u.aon.railFaults = sat 16 s.aon.railFaults 1 ∧ u.aon.railEn = s.aon.railEn
    ∧ u.aon.pwrGood = false ∧ u.tiles = [] ∧ u.racks = {} ∧ u.tmp = {} ∧ u.mem = {} ∧ u.fuses = s.fuses := by
  obtain ⟨hphase, -, hrail, htiles, hracks, htmp, hmem, hfuses⟩ := porAssert_parts s
  exact ⟨_, if_pos hrun, hphase, rfl, hrail, rfl, htiles, hracks, htmp, hmem, hfuses⟩

theorem execResetN_running {s : State} {us : Nat} (hus : 10 ≤ us) (hrun : s.aon.phase = .running) : ∃ u, execResetN true us s = .next u
    ∧ u.aon.phase = .porAsserted ∧ u.aon.resetLow = true ∧ u.aon.railFaults = s.aon.railFaults ∧ u.tiles = [] ∧ u.racks = {}
    ∧ u.tmp = {} := by
  obtain ⟨hphase, hfaults, -, htiles, hracks, htmp, -⟩ := porAssert_parts s
  unfold execResetN
  simp only [Bool.not_true, Bool.false_eq_true, if_false, Nat.not_lt.mpr hus, hrun, reduceCtorEq, decide_false, Bool.or_self, if_true]
  exact ⟨_, rfl, hphase, rfl, hfaults, htiles, hracks, htmp⟩

/-- Settles O32. -/
theorem suppliesComeAndGo : Obligations.SuppliesComeAndGo := by
  unfold Obligations.SuppliesComeAndGo
  intro s k us
  refine ⟨fun hpending hlatched => ?_, fun hready hrun hauto hquiet hempty htrace hlinks hstripe hlatched => ?_,
    fun hdold htripped hnone htimer hen => ?_, fun hdold htripped hk hen => ?_, fun hreset => ?_, fun hpor hrail hgood => ?_,
    fun hdown => ?_, fun hrun => ?_, fun hus hrun => ?_, ?_, ?_⟩
  · change ∃ u, execDoldrumsEntry s = .next u ∧ _
    exact ⟨_, execDoldrumsEntry_asleep hlatched hpending, rfl, rfl, rfl, rfl, rfl⟩
  · change ∃ u, execDoldrumsAuto s = .next u ∧ _
    exact ⟨_, execDoldrumsAuto_asleep hlatched hready hrun hauto hquiet hempty htrace hlinks hstripe, rfl, rfl⟩
  · change ∃ u, execWakeTimerExpiry s = .next u ∧ _
    obtain ⟨-, -, hrail, hphase, hlast⟩ := packageWake_aon s 6 0
    rw [execWakeTimerExpiry_source hnone htimer, wakeSource_wakes hdold htripped hen]
    exact ⟨_, rfl, hphase, hrail, hlast⟩
  · change ∃ u, execPerstRelease k s = .next u ∧ _
    obtain ⟨-, -, hrail, hphase, hlast⟩ := packageWake_aon s 7 k
    unfold execPerstRelease
    rw [if_pos hk, wakeSource_wakes hdold htripped hen]
    exact ⟨_, rfl, hphase, hrail, hlast⟩
  · change ∃ u, execAonResetRelease s = .next u ∧ _
    exact ⟨_, if_pos hreset, rfl, rfl, rfl⟩
  · exact execPwrGoodTimeout_drops hpor hrail hgood
  · change ∃ u, execRailRetry s = .next u ∧ _
    exact ⟨_, if_pos hdown, rfl, rfl⟩
  · exact execSupplyFault_running hrun
  · exact execResetN_running hus hrun
  · exact ⟨_, rfl, rfl⟩
  · exact ⟨_, rfl, rfl, rfl, rfl, rfl, rfl, rfl⟩

end Sys2Proof.Machine
end

section
/-! PROOF. Output channels of the stream ports (R235 to R242, R342). -/

namespace Sys2Proof.Machine

open Sys2Proof

/-! ### One channel -/

@[simp] theorem modOut_out (p : Port) (c : Nat) (f : OutCh → OutCh) : (p.modOut c f).out c = f (p.out c) := tget_tmod_same ..

theorem modOut_out_other (p : Port) {c k : Nat} (h : k ≠ c) (f : OutCh → OutCh) : (p.modOut c f).out k = p.out k := tget_tmod_other _ h _ _

@[simp] theorem modSlot_slot (p : Port) (c : Nat) (f : CanSlot → CanSlot) : (p.modSlot c f).slot c = f (p.slot c) := tget_tmod_same ..

theorem canByte_out (p : Port) (c v : Nat) (b : Bool) (k : Nat) : (p.canByte c v b).out k = p.out k := rfl

theorem modSlot_out (p : Port) (c : Nat) (f : CanSlot → CanSlot) (k : Nat) : (p.modSlot c f).out k = p.out k := rfl

theorem enterSafe_out (p : Port) (c : Nat) (d : OutDesc) (frame : Bool) (k : Nat) : (p.enterSafe c d frame).out k =
    (p.modOut c (fun o => { o with ostate := .safe, value := outTarget d, holdLeft := 0, nextCompare := none,
                                   pin := if outKind d = 2 then o.pin else outSafe d })).out k := by
  unfold Port.enterSafe
  dsimp only
  split
  · rfl
  · split
    · exact canByte_out ..
    · exact modSlot_out ..

theorem enterSafe_self (p : Port) (c : Nat) (d : OutDesc) (frame : Bool) : ((p.enterSafe c d frame).out c).ostate = .safe
    ∧ ((p.enterSafe c d frame).out c).value = outTarget d := by
  rw [enterSafe_out, modOut_out]
  exact ⟨rfl, rfl⟩

/-- What an ARMED channel's event leaves of it (R236). -/
theorem drive_out (p : Port) (c : Nat) (d : OutDesc) (v : Nat) : ((p.drive c d v).out c).value = v
    ∧ ((p.drive c d v).out c).ostate = (p.out c).ostate
    ∧ (outKind d = 0 → ((p.drive c d v).out c).pin = if outThr d ≤ v then 1 else 0)
    ∧ (outKind d = 1 → outSync d = false → ((p.drive c d v).out c).compare = outHigh d v)
    ∧ (outKind d = 1 → outSync d = true → ((p.drive c d v).out c).nextCompare = some (outHigh d v)) := by
  unfold Port.drive
  split
  · next h0 =>
    rw [modOut_out]
    exact ⟨rfl, rfl, fun _ => rfl, fun h => absurd (h0.symm.trans h) Nat.zero_ne_one, fun h => absurd (h0.symm.trans h) Nat.zero_ne_one⟩
  · next h0 =>
    split
    · next h1 =>
      rw [modOut_out]
      cases hsync : outSync d
      · exact ⟨rfl, rfl, fun h => absurd h h0, fun _ _ => rfl, fun _ h => nomatch h⟩
      · exact ⟨rfl, rfl, fun h => absurd h h0, fun _ h => (nomatch h), fun _ _ => rfl⟩
    · next h1 =>
      rw [canByte_out, modOut_out]
      exact ⟨rfl, rfl, fun h => absurd h h0, fun h => absurd h h1, fun h => absurd h h1⟩

/-- The end of a hold (R238). -/
theorem rampSafe_of_hold {p : Port} {c : Nat} (d : OutDesc) (h : (p.out c).ostate = .hold) : ((p.rampSafe c d).out c).ostate =
    if outKind d = 0 ∨ outRamp d = 0 ∨ (p.out c).value = outTarget d then .safe else .ramp := by
  unfold Port.rampSafe
  simp only [h, Bool.or_eq_true, decide_eq_true_eq, or_assoc]
  split
  · exact (enterSafe_self ..).1
  · rw [modOut_out]

theorem ramp_out (p : Port) {c : Nat} (d : OutDesc) (h : (p.out c).ostate = .ramp) :
    ((p.ramp c d).out c).value = rampValue (p.out c).value (outTarget d) (outRamp d)
      ∧ ((p.ramp c d).out c).ostate =
        if rampValue (p.out c).value (outTarget d) (outRamp d) = outTarget d then .safe else .ramp := by
  unfold Port.ramp
  dsimp only
  split
  · next hv =>
    obtain ⟨hsafe, hvalue⟩ := enterSafe_self p c d true
    exact ⟨hvalue.trans hv.symm, hsafe⟩
  · rw [apply_ite (fun q : Port => q.out c), canByte_out, ite_self, modOut_out]
    split <;> exact ⟨rfl, h⟩

/-! ### A volley at the port (R236, R237, R242) -/

section Word
variable {s : State} {n : Nat} {v : Volley} {e : Word} (hst : (s.port n).st ≠ .fenced) (hactive : s.domActive (portDom n) = true)
include hst hactive

theorem outputWord_none (hdesc : (s.port n).desc (evRow e) = none) :
    s.outputWord n v e = s.pushLoss (portItem v e .failedAccess (s.coord (portEp n)) false) := by
  unfold State.outputWord
  simp only [hst, hactive, hdesc, decide_false, Bool.not_true, Bool.or_self, Bool.false_eq_true, if_false]

variable {d : OutDesc} (hdesc : (s.port n).desc (evRow e) = some d) (hworld : outWorld d = v.group * 32 + evLane e)
include hdesc hworld

theorem outputWord_armed (harmed : ((s.port n).out (evRow e)).ostate = .armed) :
    s.outputWord n v e = s.modPort n (fun p => p.drive (evRow e) d (evValue e)) := by
  unfold State.outputWord
  simp only [hst, hactive, hdesc, hworld, harmed, decide_false, Bool.not_true, Bool.or_self, Bool.false_eq_true, if_false, ne_eq,
    not_true_eq_false, if_true]

theorem outputWord_dropped (hno : ((s.port n).out (evRow e)).ostate ≠ .armed) :
    (((s.outputWord n v e).port n).out (evRow e)).drops = sat 32 ((s.port n).out (evRow e)).drops 1
      ∧ (((s.outputWord n v e).port n).out (evRow e)).value = ((s.port n).out (evRow e)).value := by
  unfold State.outputWord
  simp only [hst, hactive, hdesc, hworld, hno, decide_false, Bool.not_true, Bool.or_self, Bool.false_eq_true, if_false, ne_eq,
    not_true_eq_false]
  rw [apply_ite (fun u : State => u.port n), pushLoss_port, ite_self, modPort_port, modOut_out]
  exact ⟨rfl, rfl⟩

end Word

theorem execOutputEvent_single {s : State} {n : Nat} {v : Volley} {e : Word} {more : List Volley}
    (hbox : tget [] (portEp n) s.fab.inbox = v :: more) (hbody : v.body = .events [e]) :
    execOutputEvent n s = .next ((s.popInbox (portEp n) more).outputWord n v e) := by
  unfold execOutputEvent
  rw [takeInbox_pop hbox (by simp only [isEvents, hbody])]
  simp only [eventsOf, hbody, List.foldl_cons, List.foldl_nil]

/-! ### HALT_N -/

theorem tget_map_values {α : Type} (d : α) {f : α → α} (hf : f d = d) (k : Nat) (t : Tab α) :
    tget d k (t.map (fun e => (e.1, f e.2))) = f (tget d k t) := by
  induction t with
  | nil => exact hf.symm
  | cons e r ih =>
    obtain ⟨j, v⟩ := e
    by_cases h : j = k
    · simp [tget, h]
    · simpa [tget, h] using ih

theorem desc_modOut (p : Port) (c : Nat) (f : OutCh → OutCh) (k : Nat) : (p.modOut c f).desc k = p.desc k := rfl

theorem desc_of_outsOnly {p q : Port} (h : OutsOnly p q) (k : Nat) : q.desc k = p.desc k := by
  unfold OutsOnly at h
  simp only [Port.mk.injEq] at h
  unfold Port.desc
  simp only [h]

/-- HALT_N drives channel c SAFE, where it exists (R239). -/
def Port.haltOut (p : Port) (c : Nat) : Port :=
  match p.desc c with
  | some d => p.enterSafe c d false
  | none => p

theorem eachOut_halt (p : Port) : p.eachOut (fun _ => true) (fun p c d => p.enterSafe c d false) =
    (List.range p.cfg.outCount).foldl Port.haltOut p := rfl

theorem haltOut_outsOnly (p : Port) (c : Nat) : OutsOnly p (p.haltOut c) := by
  unfold Port.haltOut
  split
  · exact outsOnly_enterSafe ..
  · rfl

theorem haltOut_keeps {p : Port} {k : Nat} (c : Nat) (h : (p.out k).ostate = .safe) : ((p.haltOut c).out k).ostate = .safe := by
  unfold Port.haltOut
  split
  · by_cases hk : k = c
    · subst hk
      exact (enterSafe_self ..).1
    · rw [enterSafe_out, modOut_out_other _ hk]
      exact h
  · exact h

theorem haltFold_keeps (l : List Nat) {k : Nat} : ∀ p : Port, (p.out k).ostate = .safe →
    ((l.foldl Port.haltOut p).out k).ostate = .safe := by
  induction l with
  | nil => exact fun p h => h
  | cons c r ih => exact fun p h => ih _ (haltOut_keeps c h)

theorem haltFold_safe (l : List Nat) {k : Nat} (hk : k ∈ l) : ∀ p : Port, (p.desc k).isSome = true →
    ((l.foldl Port.haltOut p).out k).ostate = .safe := by
  induction l with
  | nil => nomatch hk
  | cons c r ih =>
    intro p hdesc
    rcases List.mem_cons.mp hk with rfl | hr
    · refine haltFold_keeps r _ ?_
      obtain ⟨d, hd⟩ := Option.isSome_iff_exists.mp hdesc
      unfold Port.haltOut
      simp only [hd]
      exact (enterSafe_self ..).1
    · exact ih hr _ (by rw [desc_of_outsOnly (haltOut_outsOnly p c)]; exact hdesc)

theorem desc_lt {p : Port} {k : Nat} {d : OutDesc} (h : p.desc k = some d) : k < p.cfg.outCount := by
  unfold Port.desc at h
  split at h
  · assumption
  · cases h

theorem eachOut_halt_safe {p : Port} {k : Nat} {d : OutDesc} (h : p.desc k = some d) :
    ((p.eachOut (fun _ => true) (fun p c d => p.enterSafe c d false)).out k).ostate = .safe := by
  rw [eachOut_halt]
  exact haltFold_safe _ (List.mem_range.mpr (desc_lt h)) p (by rw [h]; rfl)

/-- The port as HALT_N leaves it: its channels SAFE, its transmitter recessive in mode CANFD. -/
def Port.halted (p : Port) : Port :=
  { p.eachOut (fun _ => true) (fun p c d => p.enterSafe c d false) with recessive := decide (p.cfg.mode = 6) }

/-- A record of a port's state changes no port beyond its cause. -/
theorem portRecord_outs (s : State) (n cause j : Nat) : ((s.portRecord n cause).port j).outs = (s.port j).outs
    ∧ ((s.portRecord n cause).port j).recessive = (s.port j).recessive := by
  by_cases h : j = n
  · subst h
    rw [portRecord_port]
    exact ⟨rfl, rfl⟩
  · rw [portRecord_other _ h]
    exact ⟨rfl, rfl⟩

theorem haltRecords_outs (s : State) (cause j : Nat) : ((s.haltRecords cause).port j).outs = (s.port j).outs
    ∧ ((s.haltRecords cause).port j).recessive = (s.port j).recessive := by
  have hfold (l : List (Nat × Port)) : ∀ t : State, ((l.foldl (fun s e => s.portRecord e.1 cause) t).port j).outs = (t.port j).outs
      ∧ ((l.foldl (fun s e => s.portRecord e.1 cause) t).port j).recessive = (t.port j).recessive := by
    induction l with
    | nil => exact fun t => ⟨rfl, rfl⟩
    | cons e r ih =>
      intro t
      obtain ⟨houts, hrec⟩ := portRecord_outs t e.1 cause j
      obtain ⟨iouts, irec⟩ := ih (t.portRecord e.1 cause)
      exact ⟨iouts.trans houts, irec.trans hrec⟩
  unfold State.haltRecords
  split
  · exact hfold _ s
  · exact ⟨rfl, rfl⟩

/-- The state that HALT_N leaves, before its records. -/
def State.haltState (s : State) : State :=
  { s with aon.haltN := true, aon.haltCount := sat 16 s.aon.haltCount 1, ports := s.ports.map (fun e => (e.1, e.2.halted)) }

theorem haltState_port (s : State) (j : Nat) : s.haltState.port j = (s.port j).halted := tget_map_values (f := Port.halted) ({} : Port) rfl j s.ports

/-- The state once HALT_N is high again, before its records. -/
def State.haltEnd (s : State) : State :=
  { s with aon.haltN := false, ports := s.ports.map (fun e => (e.1, { e.2 with recessive := false })) }

theorem haltEnd_port (s : State) (j : Nat) : s.haltEnd.port j = { s.port j with recessive := false } :=
  tget_map_values (f := fun p : Port => { p with recessive := false }) ({} : Port) rfl j s.ports

theorem haltAssert_eq (s : State) : s.haltAssert = s.haltState.haltRecords 7 := rfl

theorem haltRecords_aon (s : State) (cause : Nat) : (s.haltRecords cause).aon = s.aon := OnlyM.aon_eq haltRecords_ok (by decide)

theorem execHaltNAssert_long {s : State} {ns : Nat} (hns : 100 ≤ ns) (hphase : s.aon.phase ≠ .aonReset) (hhigh : s.aon.haltN = false) :
    execHaltNAssert ns s = .next s.haltAssert := by
  have hshort : ¬ ns < 50 := by omega
  unfold execHaltNAssert
  simp only [hns, hphase, hhigh, hshort, decide_false, Bool.or_self, Bool.false_eq_true, if_false, if_true]

theorem execHaltNAssert_short {s : State} {ns : Nat} (hns : ns < 50) : execHaltNAssert ns s = .next s := by
  unfold execHaltNAssert
  simp only [hns, decide_true, Bool.or_true, if_true]

/-! ### PORT_REARM -/

theorem cmdWake_port (s : State) (op n : Nat) : (s.cmdWake op).port n = s.port n := (cmdWake_only s op).port_eq rfl n

theorem armCode_wake (s : State) (op n c : Nat) (d : OutDesc) : (s.cmdWake op).armCode n c d = s.armCode n c d := by
  unfold State.armCode
  simp only [cmdWake_port, cmdWake_world, (cmdWake_only s op).haltN_eq rfl]

section Rearm
variable {s : State} {n ch : Nat} {d : OutDesc} (hdesc : (s.port n).desc ch = some d)
include hdesc

theorem rearmMask_single : rearmMask s n [ch] = if (s.armCode n ch d).isNone then 2 ^ ch else 0 := by
  unfold rearmMask
  rw [List.foldl_cons, List.foldl_nil]
  simp only [hdesc, Nat.zero_add]

theorem rearmCode_single (hsafe : ((s.port n).out ch).ostate = .safe) : rearmCode s n [ch] = (s.armCode n ch d).getD .done := by
  unfold rearmCode
  simp only [hdesc, hsafe, reduceCtorEq, decide_false, Bool.false_and, Bool.false_eq_true, if_false]
  cases s.armCode n ch d <;> rfl

end Rearm

theorem bit_two_pow (k : Nat) : bit (2 ^ k) k = true := by
  unfold bit
  rw [Nat.div_self (Nat.two_pow_pos k)]
  rfl

theorem bit_zero (k : Nat) : bit 0 k = false := by
  unfold bit
  rw [Nat.zero_div]
  rfl

section Command
variable {s : State} {rk seq n ch : Nat} {c : ExecCmd} {d : OutDesc} (h : Begins s rk seq 0x18 c)
  (hn : wf (c.words.getD 1 0) 3 0 = n) (hch : wf (c.words.getD 1 0) 13 8 = ch)
  (hadmin : s.has c.src (.port n) .admin = true) (hactive : s.domActive (portDom n) = true)
  (hone : wf (c.words.getD 1 0) 4 4 = 0) (hdesc : (s.port n).desc ch = some d) (hsafe : ((s.port n).out ch).ostate = .safe)
include h hn hch hadmin hactive hone hdesc hsafe

theorem execPortRearm_single : execPortRearm rk seq s = .next (((s.cmdWake 0x18).modPort n (fun p =>
      if (s.armCode n ch d).isNone then p.arm ch else p)).complete c ((s.armCode n ch d).getD .done)
        [BitVec.ofNat 64 (if (s.armCode n ch d).isNone then 2 ^ ch else 0)]) := by
  have hrearm : rearmChans ((s.cmdWake 0x18).port n) (c.words.getD 1 0) = [ch] := by
    unfold rearmChans
    rw [hone, if_neg Nat.zero_ne_one, hch]
  have hdesc' : ((s.cmdWake 0x18).port n).desc ch = some d := by rw [cmdWake_port]; exact hdesc
  have hsafe' : (((s.cmdWake 0x18).port n).out ch).ostate = .safe := by rw [cmdWake_port]; exact hsafe
  have hactive' : (s.cmdWake 0x18).domActive (portDom n) = true := ((cmdWake_only s 0x18).domActive_eq rfl _).trans hactive
  unfold execPortRearm
  rw [runCmd_all h]
  simp only [hn, cmdWake_has, hadmin, hactive', hrearm, rearmMask_single hdesc', rearmCode_single hdesc' hsafe', armCode_wake,
    Bool.not_true, Bool.false_eq_true, if_false, List.foldl_cons, List.foldl_nil]
  cases (s.armCode n ch d).isNone
  · simp only [Bool.false_eq_true, if_false, bit_zero]
  · simp only [if_true, bit_two_pow]

end Command

theorem arm_safe {p : Port} {c : Nat} (h : (p.out c).ostate = .safe) : ((p.arm c).out c).ostate = .armed := by
  unfold Port.arm
  rw [modOut_out, if_pos h]

/-- Settles O33. -/
theorem outputsTakeEventsAndReachSafe : Obligations.OutputsTakeEventsAndReachSafe := by
  unfold Obligations.OutputsTakeEventsAndReachSafe
  intro s n ch ns rk seq v e more d c
  refine ⟨fun hbox hbody hst hactive => ⟨fun hdesc => ?_, fun hdesc hworld => ⟨fun harmed => ?_, fun hno => ?_⟩⟩,
    fun hmode hslot hrec hdue => ?_, fun hdesc hhold => ?_, fun hdesc hramp => ?_, fun k hk => ?_, fun hns hphase hhigh => ?_,
    fun hns => ?_, fun hlow => ?_, fun h hadmin hactive hone hdesc hsafe => ⟨fun harm => ?_, fun k harm hk => ?_⟩⟩
  · refine ⟨_, execOutputEvent_single hbox hbody, ?_⟩
    rw [outputWord_none (s := s.popInbox (portEp n) more) hst hactive hdesc]
    exact ⟨rfl, rfl⟩
  · refine ⟨_, execOutputEvent_single hbox hbody, ?_⟩
    rw [outputWord_armed (s := s.popInbox (portEp n) more) hst hactive hdesc hworld harmed, modPort_port]
    obtain ⟨hvalue, hstate, hlevel, hnow, hlater⟩ := drive_out ((s.popInbox (portEp n) more).port n) (evRow e) d (evValue e)
    exact ⟨hvalue, hstate.trans harmed, hlevel, hnow, hlater⟩
  · exact ⟨_, execOutputEvent_single hbox hbody,
      outputWord_dropped (s := s.popInbox (portEp n) more) hst hactive hdesc hworld hno⟩
  · change ∃ u, execCanSlotSend n ch s = .next u ∧ _
    refine ⟨_, if_pos ?_, ?_⟩
    · simpa [hmode, hslot, hrec] using hdue
    · rw [modPort_port, modSlot_slot]
  · change ∃ u, execHoldExpiry n ch s = .next u ∧ _
    unfold execHoldExpiry
    simp only [hdesc, hhold, if_true]
    exact ⟨_, rfl, by rw [modPort_port, rampSafe_of_hold d hhold]⟩
  · change ∃ u, execRampStep n ch s = .next u ∧ _
    unfold execRampStep
    simp only [hdesc, hramp, if_true]
    exact ⟨_, rfl, by rw [modPort_port]; exact ramp_out _ d hramp⟩
  · change ∃ u, execPwmPeriodStart n ch s = .next u ∧ _
    unfold execPwmPeriodStart
    simp only [hk]
    exact ⟨_, rfl, by rw [modPort_port, modOut_out]; exact ⟨rfl, rfl⟩⟩
  · refine ⟨_, execHaltNAssert_long hns hphase hhigh, ?_⟩
    rw [haltAssert_eq, haltRecords_aon]
    refine ⟨rfl, rfl, fun j k f hf => ?_⟩
    obtain ⟨houts, -⟩ := haltRecords_outs s.haltState 7 j
    rw [haltState_port] at houts
    unfold Port.out
    rw [houts]
    exact eachOut_halt_safe hf
  · exact ⟨_, execHaltNAssert_short hns, rfl⟩
  · change ∃ u, execHaltNRelease s = .next u ∧ _
    refine ⟨_, if_pos hlow, ?_⟩
    change (s.haltEnd.haltRecords 8).aon.haltN = false ∧ ∀ j, ((s.haltEnd.haltRecords 8).port j).recessive = false
      ∧ ((s.haltEnd.haltRecords 8).port j).outs = (s.port j).outs
    rw [haltRecords_aon]
    refine ⟨rfl, fun j => ?_⟩
    obtain ⟨houts, hrec⟩ := haltRecords_outs s.haltEnd 8 j
    rw [houts, hrec, haltEnd_port]
    exact ⟨rfl, rfl⟩
  · refine ⟨_, execPortRearm_single h rfl rfl hadmin hactive hone hdesc hsafe, ?_⟩
    rw [harm]
    refine ⟨cmd_done s _ h (by decide), ?_⟩
    rw [complete_port, modPort_port, cmdWake_port, if_pos Option.isNone_none]
    exact arm_safe hsafe
  · refine ⟨_, execPortRearm_single h rfl rfl hadmin hactive hone hdesc hsafe, ?_⟩
    rw [harm]
    refine ⟨cmd_done s _ h hk, ?_⟩
    rw [complete_port, modPort_port, cmdWake_port, if_neg (ne_true_of_eq_false Option.isNone_some)]
    exact hsafe

end Sys2Proof.Machine
end

section
/-! PROOF. The port state machine (R221 to R226, R230, R233, R241). -/

namespace Sys2Proof.Machine

open Sys2Proof

theorem wakeSource_port (s : State) (i kind detail n : Nat) : (s.wakeSource i kind detail).port n = s.port n :=
  wakeSource_ok.port_eq (by decide) n

theorem wakeSource_isReady (s : State) (i kind detail : Nat) : (s.wakeSource i kind detail).isReady = s.isReady :=
  wakeSource_ok.isReady_eq (by decide)

theorem enumerate_st (s : State) (n c : Nat) :
    ((s.enumerate n c).port n).st
      = if (s.port n).cfg.mode = 3 ∨ (s.port n).cfg.mode = 4 ∨ (s.port n).cfg.mode = 5 then .attached else .enumerating := by
  obtain ⟨hnow, hlater⟩ := enumerate_port s n c
  split
  · next h => exact (hnow h).1
  · next h => rw [hlater h]

theorem enumFailed_port (s : State) (n : Nat) :
    (s.enumFailed n).port n = { s.port n with st := .detached, enumFail := true, cause := 4 } := by
  unfold State.enumFailed
  rw [portRecord_port, modPort_port]

/-- The state once port n has accepted a new level of presence and has woken its domain (R222). -/
def State.presenceSeen (s : State) (n : Nat) (present : Bool) : State :=
  let s0 := (s.modPort n (fun p => { p with pres := present, presRaw := present })).wakeSource (4 + n) 5 n
  if s.isReady then s0.wakeDom (portDom n) 5 n else s0

theorem presenceSeen_port (s : State) (n : Nat) (present : Bool) :
    (s.presenceSeen n present).port n = { s.port n with pres := present, presRaw := present } := by
  unfold State.presenceSeen
  dsimp only
  rw [apply_ite (fun u : State => u.port n), wakeDom_port, ite_self, wakeSource_port, modPort_port]

theorem presenceSeen_isReady (s : State) (n : Nat) (present : Bool) : (s.presenceSeen n present).isReady = s.isReady := by
  unfold State.presenceSeen
  dsimp only
  rw [apply_ite State.isReady, wakeDom_isReady, ite_self, wakeSource_isReady]
  rfl

section Presence
variable {s : State} {n : Nat} (hphase : s.aon.phase ≠ .aonReset)
include hphase

theorem execPresenceChange_unheeded {present : Bool} (hnew : (s.port n).pres ≠ present)
    (hready : s.isReady = false) : execPresenceChange n present s = .next (s.presenceSeen n present) := by
  have hready1 := (presenceSeen_isReady s n present).trans hready
  unfold execPresenceChange
  rw [if_neg (not_or_of_bool hphase hnew)]
  unfold State.presenceSeen at hready1 ⊢
  dsimp only at hready1 ⊢
  rw [hready1]
  rfl

variable (hready : s.isReady = true) (hheed : (s.port n).cfg.presIgnore = false)
include hready hheed

theorem execPresenceChange_arrives (hold : (s.port n).pres = false) (hst : (s.port n).st = .detached) :
    execPresenceChange n true s = .next ((s.presenceSeen n true).enumerate n 1) := by
  have hready1 := (presenceSeen_isReady s n true).trans hready
  have hport := presenceSeen_port s n true
  unfold execPresenceChange
  rw [if_neg (not_or_of_bool hphase (by rw [hold]; exact Bool.false_ne_true))]
  unfold State.presenceSeen at hready1 hport ⊢
  dsimp only at hready1 hport ⊢
  simp only [hready1, hport, hheed, hst, Bool.not_true, Bool.or_self, Bool.false_eq_true, if_false, if_true]

theorem execPresenceChange_departs (hold : (s.port n).pres = true) (hst : (s.port n).st = .attached) :
    execPresenceChange n false s = .next ((s.presenceSeen n false).detach n 0) := by
  have hready1 := (presenceSeen_isReady s n false).trans hready
  have hport := presenceSeen_port s n false
  unfold execPresenceChange
  rw [if_neg (not_or_of_bool hphase (by rw [hold]; exact Bool.true_eq_false_eq_False))]
  unfold State.presenceSeen at hready1 hport ⊢
  dsimp only at hready1 hport ⊢
  simp only [hready1, hport, hheed, hst, Bool.not_true, Bool.or_self, Bool.false_eq_true, if_false]

theorem execPresenceChange_interrupts (hold : (s.port n).pres = true) (hst : (s.port n).st = .enumerating) :
    execPresenceChange n false s
      = .next (((s.presenceSeen n false).modPort n (fun p => { p with st := .detached })).portRecord n 0) := by
  have hready1 := (presenceSeen_isReady s n false).trans hready
  have hport := presenceSeen_port s n false
  unfold execPresenceChange
  rw [if_neg (not_or_of_bool hphase (by rw [hold]; exact Bool.true_eq_false_eq_False))]
  unfold State.presenceSeen at hready1 hport ⊢
  dsimp only at hready1 hport ⊢
  simp only [hready1, hport, hheed, hst, Bool.not_true, Bool.or_self, Bool.false_eq_true, if_false]

end Presence

theorem execEnumerationComplete_attaches {s : State} {n : Nat} {pids : List (BitVec 48)} (hst : (s.port n).st = .enumerating)
    (hall : (s.port n).cfg.mode = 1 → (s.port n).targetsAnswer pids = true) :
    execEnumerationComplete n pids s = .next (s.attach n) := by
  unfold execEnumerationComplete
  dsimp only
  rw [if_neg (not_not_intro hst), if_neg (by simp only [Bool.and_eq_true, decide_eq_true_eq]; rintro ⟨h1, h2⟩; simp [hall h1] at h2)]

theorem execEnumerationComplete_fails {s : State} {n : Nat} {pids : List (BitVec 48)} (hst : (s.port n).st = .enumerating)
    (hmode : (s.port n).cfg.mode = 1) (hmiss : (s.port n).targetsAnswer pids = false) :
    execEnumerationComplete n pids s = .next (s.enumFailed n) := by
  unfold execEnumerationComplete
  dsimp only
  rw [if_neg (not_not_intro hst), if_pos (by rw [hmode, hmiss]; rfl)]

theorem inMode_attached {s : State} {n md : Nat} (hst : (s.port n).st = .attached) (hmode : (s.port n).cfg.mode = md) :
    s.inMode n md = true := by
  unfold State.inMode
  rw [decide_eq_true hst, decide_eq_true hmode]
  rfl

/-- A Hot-Join restarts enumeration: the port leaves ATTACHED first (R230). -/
theorem hotJoin_port {s : State} {n : Nat} (hmode : (s.port n).cfg.mode = 1) :
    (((s.detach n 2).enumerate n 1).port n).st = .enumerating ∧ (((s.detach n 2).enumerate n 1).port n).cause = 1 := by
  obtain ⟨-, -, -, hcfg⟩ := detach_port s n 2
  rw [(enumerate_port (s.detach n 2) n 1).2 (by rw [hcfg, hmode]; omega)]
  exact ⟨rfl, rfl⟩

/-- Port n once an illegal transition has been counted (R233). -/
def State.transitionCounted (s : State) (n : Nat) : State :=
  s.modPort n (fun p =>
    { p with encErr := sat 32 p.encErr 1,
             illegalRun := s.aon.wall :: p.illegalRun.filter (fun x => s.aon.wall < x + 1000) })

theorem execIllegalTransition_attached {s : State} {n : Nat} (hst : (s.port n).st = .attached) (hmode : (s.port n).cfg.mode = 4) :
    execIllegalTransition n s
      = if 15 ≤ ((s.port n).illegalRun.filter (fun x => decide (s.aon.wall < x + 1000))).length
        then .next ((s.transitionCounted n).protocolLoss n) else .next (s.transitionCounted n) := by
  unfold execIllegalTransition
  rw [if_pos (inMode_attached hst hmode)]
  dsimp only
  rw [modPort_port, List.length_cons]
  simp only [Nat.add_le_add_iff_right, show (16 : Nat) = 15 + 1 from rfl]
  rfl

/-- Settles O34: each event of the port machine is one of `enumerate`, `attach`, `detach` and `enumFailed`, whose effect on
the port is known. -/
theorem portsAttachAndDetach : Obligations.PortsAttachAndDetach := by
  unfold Obligations.PortsAttachAndDetach
  intro s n pids
  dsimp only
  refine ⟨fun hphase hready hheed => ⟨fun hold hst => ?_, fun hold hst => ?_, fun hold hst => ?_⟩,
    fun hphase hready hold => ?_, fun hst => ⟨fun hall => ?_, fun hmode hmiss => ?_, ?_⟩, fun hready hst hpres => ?_,
    fun hst => ⟨fun hmode => ?_, fun hmode => ?_, fun hmode hfew => ?_, fun hmode hmany => ?_⟩⟩
  · refine ⟨_, execPresenceChange_arrives hphase hready hheed hold hst, ?_⟩
    rw [enumerate_st, presenceSeen_port]
  · obtain ⟨h1, h2, h3, -⟩ := detach_port (s.presenceSeen n false) n 0
    rw [presenceSeen_port] at h3
    exact ⟨_, execPresenceChange_departs hphase hready hheed hold hst, h1, h2, h3⟩
  · refine ⟨_, execPresenceChange_interrupts hphase hready hheed hold hst, ?_⟩
    rw [portRecord_port, modPort_port, presenceSeen_port]
    exact ⟨rfl, rfl, rfl⟩
  · refine ⟨_, execPresenceChange_unheeded hphase (by rw [hold]; exact Bool.false_ne_true) hready, ?_⟩
    rw [presenceSeen_port]
    exact ⟨rfl, rfl⟩
  · obtain ⟨h1, h2, h3, -⟩ := attach_port s n
    exact ⟨_, execEnumerationComplete_attaches hst hall, h1, h2, h3⟩
  · refine ⟨_, execEnumerationComplete_fails hst hmode hmiss, ?_⟩
    rw [enumFailed_port]
    exact ⟨rfl, rfl, rfl⟩
  · refine ⟨_, if_pos hst, ?_⟩
    rw [enumFailed_port]
    exact ⟨rfl, rfl, rfl⟩
  · refine ⟨_, if_pos ?_, enumerate_st s n 1⟩
    rw [hready, hpres, decide_eq_true hst]
    rfl
  · obtain ⟨h1, h2, h3, -⟩ := detach_port s n 2
    refine ⟨s.detach n 2, ?_, h1, h2, h3⟩
    change execProtocolLoss n s = _
    unfold execProtocolLoss State.protocolLoss
    rw [if_neg hmode, if_pos hst]
  · refine ⟨_, if_pos (inMode_attached hst hmode), hotJoin_port hmode⟩
  · refine ⟨s.transitionCounted n, ?_, ?_⟩
    · exact (execIllegalTransition_attached hst hmode).trans (if_neg (Nat.not_le.mpr hfew))
    · rw [State.transitionCounted, modPort_port]
      exact ⟨hst, rfl, rfl⟩
  · have hst1 : ((s.transitionCounted n).port n).st = .attached := by
      rw [State.transitionCounted, modPort_port]; exact hst
    obtain ⟨h1, h2, -⟩ := detach_port (s.transitionCounted n) n 2
    refine ⟨(s.transitionCounted n).detach n 2, ?_, h1, h2⟩
    refine (execIllegalTransition_attached hst hmode).trans ?_
    rw [if_pos hmany, State.protocolLoss, if_pos hst1]

end Sys2Proof.Machine
end

section
/-! PROOF. Protocol input of the ports, and the pins and encoders that drive tempo (R23 to R25, R227 to R234, R341). -/

namespace Sys2Proof.Machine

open Sys2Proof

/-! ### Captures (R227, R228) -/

section Capture
variable {s : State} {n ch value : Nat} {c : DWord} (hst : (s.port n).st = .attached)
  (hchan : tget 0 ch (s.port n).cfg.chans = c)
include hst hchan

theorem capture_invalid (hbad : (s.port n).cfg.inCount ≤ ch ∨ wf c 57 57 = 0) :
    s.capture n ch value
      = (s.wakeDom (portDom n) 2 (portEp n)).modPort n (fun x => { x with ignored := sat 16 x.ignored 1 }) := by
  unfold State.capture
  dsimp only
  rw [if_neg (not_not_intro hst), hchan, if_pos (by simpa using hbad)]

variable (hin : ch < (s.port n).cfg.inCount) (hvalid : wf c 57 57 = 1)
include hin hvalid

theorem capture_idle (hidle : (s.world (wf c 44 32)).st ≠ .running) :
    s.capture n ch value
      = (s.wakeDom (portDom n) 2 (portEp n)).modPort n (fun x => { x with idle := sat 32 x.idle 1 }) := by
  unfold State.capture
  dsimp only
  rw [if_neg (not_not_intro hst), hchan, if_neg (by simp; omega), wakeDom_world, if_pos hidle]

/-- A Lockstep input with one destination and nothing pending for its channel is put in line for its turn. -/
theorem capture_waits {e : DWord} (hrun : (s.world (wf c 44 32)).st = .running) (hdest : s.chanDests c = [e])
    (hlock : s.lockstep (destClass e) = true) (hfree : ∀ x ∈ s.hub.lockIn, ¬(x.ep = portEp n ∧ x.ch = ch)) :
    (s.capture n ch value).hub.lockIn = s.hub.lockIn ++
      [{ ep := portEp n, ch := ch, w := wf c 44 32,
         tempo := (s.world (wf c 44 32)).start (s.world (wf c 44 32)).opened + wf c 56 45, dest := e, value := value }] := by
  unfold State.capture
  dsimp only
  rw [if_neg (not_not_intro hst), hchan, if_neg (by simp; omega), wakeDom_world, if_neg (not_not_intro hrun)]
  generalize htau : (s.world (wf c 44 32)).start (s.world (wf c 44 32)).opened + wf c 56 45 = tau
  have hnone : (s.hub.lockIn.any fun x => x.ep = portEp n && x.ch = ch && x.w = wf c 44 32 && x.tempo = tau && x.dest = e)
      = false := by
    rw [List.any_eq_false]
    intro x hx
    have := hfree x hx
    simp only [Bool.and_eq_true, decide_eq_true_eq]
    tauto
  have hdest1 : (s.wakeDom (portDom n) 2 (portEp n)).chanDests c = [e] := by
    unfold State.chanDests
    rw [wakeDom_ok.portDest_eq (by decide)]
    exact hdest
  have hlock1 : (s.wakeDom (portDom n) 2 (portEp n)).lockstep (destClass e) = true :=
    (wakeDom_ok.lockstep_eq (by decide) (destClass e)).trans hlock
  have hin1 : (s.wakeDom (portDom n) 2 (portEp n)).hub.lockIn = s.hub.lockIn := wakeDom_ok.lockIn_eq (by decide)
  rw [hdest1]
  simp only [List.any_cons, List.any_nil, hlock1, hin1, hnone, Bool.and_false, Bool.or_false, Bool.false_eq_true, if_false,
    List.foldl_cons, List.foldl_nil, State.portEvent, if_true, wakeDom_world, htau, State.lockQueue]

end Capture

theorem wakeDom_tmp (s : State) (d k i : Nat) : (s.wakeDom d k i).tmp = s.tmp := wakeDom_ok.tmp_eq (by decide)

/-! ### Protocol rules (R230 to R234) -/

theorem protocolLoss_attached {s : State} {n : Nat} (hst : (s.port n).st = .attached) : s.protocolLoss n = s.detach n 2 :=
  if_pos hst

/-- Port n once a packet of it has failed its check (R223). -/
def State.packetBad (s : State) (n : Nat) : State :=
  s.modPort n (fun p => { p with errors := sat 16 p.errors 1, badRun := p.badRun + 1 })

section Csi
variable {s : State} {n dt : Nat} {ws : List Word} (hst : (s.port n).st = .attached) (hmode : (s.port n).cfg.mode = 2)
  (hdt : 1 < dt)
include hst hmode hdt

/-- A packet of the port's virtual channel that is no frame-start or frame-end packet is heeded. -/
theorem csi2_heeded :
    ¬(!s.inMode n 2 || wf (s.port n).cfg.protocol 38 37 ≠ wf (s.port n).cfg.protocol 38 37 || dt = 0 || dt = 1) = true := by
  rw [inMode_attached hst hmode]
  simp
  omega

theorem execCsi2Packet_good :
    execCsi2Packet n (wf (s.port n).cfg.protocol 38 37) dt true ws s
      = if dt = 0x30 then .next ((s.modPort n (fun p => { p with badRun := 0 })).csiWords n ws)
        else .next ((s.modPort n (fun p => { p with badRun := 0 })).modPort n
          (fun p => { p with ignored := sat 16 p.ignored 1 })) := by
  unfold execCsi2Packet
  rw [if_neg (csi2_heeded hst hmode hdt)]
  rfl

theorem execCsi2Packet_bad :
    execCsi2Packet n (wf (s.port n).cfg.protocol 38 37) dt false ws s
      = if 8 ≤ (s.port n).badRun + 1 then .next ((s.packetBad n).protocolLoss n) else .next (s.packetBad n) := by
  unfold execCsi2Packet
  rw [if_neg (csi2_heeded hst hmode hdt)]
  dsimp only
  rw [if_pos (show (!false) = true from rfl), modPort_port]
  rfl

end Csi

/-- An in-band interrupt reads for the one poll entry of its target (R230). -/
theorem execIbi_single {s : State} {n : Nat} {e : DWord} {bytes : List Byte} (hst : (s.port n).st = .attached)
    (hmode : (s.port n).cfg.mode = 1) (hpolls : (s.port n).cfg.polls = [e]) (hvalid : wf e 53 53 = 1) (hibi : wf e 44 44 = 1) :
    execIbi n (wf e 2 0) [(0, bytes)] s = .next (s.i3cEntry n e bytes) := by
  unfold execIbi
  rw [if_pos (inMode_attached hst hmode), hpolls]
  simp only [List.length_singleton, List.range_one, List.foldl_cons, List.foldl_nil, List.getD_cons_zero, hvalid, hibi,
    decide_true, Bool.and_self, if_true]
  rfl

/-- Settles O35: `capture` by its three outcomes, and each protocol's input as the captures it makes. -/
theorem portInputsAreCaptured : Obligations.PortInputsAreCaptured := by
  unfold Obligations.PortInputsAreCaptured
  intro s n b bytes ws e cw hst
  refine ⟨fun hmode hchan => ⟨fun hbad => ?_, fun hin hvalid hidle => ?_, fun hin hvalid hrun hdest hlock hfree => ?_⟩,
    fun hmode hindex => ⟨_, if_pos ?_, rfl⟩, fun hmode fid f hfilter => ⟨_, ?_, rfl⟩,
    fun hmode i hvalid hperiod => ⟨_, if_pos ?_, rfl⟩,
    fun hmode hpolls hvalid hibi => ⟨_, execIbi_single hst hmode hpolls hvalid hibi, rfl⟩,
    fun hmode dt hdt => ⟨?_, fun hfew => ?_, fun hmany => ?_⟩⟩
  · refine ⟨_, if_pos (inMode_attached hst hmode), ?_⟩
    rw [capture_invalid hst hchan hbad, modPort_port, wakeDom_port]
    exact ⟨rfl, wakeDom_tmp _ _ _ _⟩
  · refine ⟨_, if_pos (inMode_attached hst hmode), ?_⟩
    rw [capture_idle hst hchan hin hvalid hidle, modPort_port, wakeDom_port]
    exact ⟨rfl, wakeDom_tmp _ _ _ _⟩
  · exact ⟨_, if_pos (inMode_attached hst hmode), capture_waits hst hchan hin hvalid hrun hdest hlock hfree⟩
  · rw [inMode_attached hst hmode, decide_eq_true hindex]
    rfl
  · change execCanFrame n false false fid bytes s = _
    unfold execCanFrame
    rw [inMode_attached hst hmode, hfilter]
    rfl
  · rw [inMode_attached hst hmode, decide_eq_true hvalid, decide_eq_true hperiod]
    rfl
  · by_cases hevents : dt = 0x30
    · refine ⟨_, (execCsi2Packet_good hst hmode hdt).trans (if_pos hevents), fun _ => rfl, fun h => absurd hevents h⟩
    · refine ⟨_, (execCsi2Packet_good hst hmode hdt).trans (if_neg hevents), fun h => absurd h hevents, fun _ => ?_⟩
      rw [modPort_port, modPort_port]
  · refine ⟨_, (execCsi2Packet_bad hst hmode hdt).trans (if_neg (by omega)), ?_⟩
    rw [State.packetBad, modPort_port]
    exact ⟨rfl, hst⟩
  · have hst1 : ((s.packetBad n).port n).st = .attached := by rw [State.packetBad, modPort_port]; exact hst
    obtain ⟨h1, h2, -⟩ := detach_port (s.packetBad n) n 2
    refine ⟨_, (execCsi2Packet_bad hst hmode hdt).trans (if_pos hmany), ?_⟩
    rw [protocolLoss_attached hst1]
    exact ⟨h1, h2⟩

end Sys2Proof.Machine
end

section
/-! PROOF. TEMPO_IN edges, glitches and encoder counts (R23 to R25, R37, R341). -/

namespace Sys2Proof.Machine

open Sys2Proof

theorem OnlyM.pinCount_eq {m : Nat} {s t : State} (h : OnlyM m s t) (hb : m.testBit Part.pins.idx = false) :
    t.aon.pinCount = s.aon.pinCount := by
  have hpins := h .pins hb
  simp only [Part.same, Prod.mk.injEq] at hpins
  simp only [hpins]

theorem wakeSource_world (s : State) (i kind detail w : Nat) : (s.wakeSource i kind detail).world w = s.world w :=
  wakeSource_ok.world_eq rfl w

/-! ### Pins -/

/-- Pin k's count rises by 1. -/
def State.pinCounted (s : State) (k : Nat) : State := { s with aon.pinCount := tmod 0 k (· + 1) s.aon.pinCount }

/-- The worlds that pin k drives take its edge, and the pin's wake source fires. -/
def State.edgeTaken (s : State) (k : Nat) : State := ((s.pinCounted k).inputAll 2 k).wakeSource k 4 k

theorem edgeTaken_pinCount (s : State) (k : Nat) : (s.edgeTaken k).aon.pinCount = tmod 0 k (· + 1) s.aon.pinCount :=
  (wakeSource_ok.pinCount_eq rfl).trans (inputAll_ok.pinCount_eq rfl)

theorem inputAll_single {s : State} {kind i w : Nat} (h : s.sourced kind i = [w]) : s.inputAll kind i = s.input w 1 := by
  unfold State.inputAll
  rw [h, List.foldl_cons, List.foldl_nil]

theorem edgeTaken_world {s : State} {k w : Nat} (h : s.sourced 2 k = [w]) :
    (s.edgeTaken k).world w = ((s.pinCounted k).input w 1).world w := by
  unfold State.edgeTaken
  rw [wakeSource_world, inputAll_single (s := s.pinCounted k) h]

theorem execTempoInEdge_taken {s : State} {k : Nat} {rising : Bool} (hphase : s.aon.phase ≠ .aonReset) (hk : k < 4)
    (hedge : bit (s.pinMode k) (if rising then 0 else 1) = true) : execTempoInEdge k rising s = .next (s.edgeTaken k) := by
  unfold execTempoInEdge
  rw [hedge, decide_eq_false hphase, decide_eq_false (Nat.not_le.mpr hk)]
  rfl

theorem execTempoInGlitch_counted {s : State} {k ns : Nat} (hphase : s.aon.phase ≠ .aonReset) (hk : k < 4)
    (hmode : s.pinMode k ≠ 0) (hlong : 5 ≤ ns) (hshort : ns < 40) :
    execTempoInGlitch k ns s = .next { s with aon.glitch := tmod 0 k (fun n => sat 8 n 1) s.aon.glitch } := by
  unfold execTempoInGlitch
  rw [decide_eq_false hphase, decide_eq_false (Nat.not_le.mpr hk), decide_eq_false hmode,
    decide_eq_false (Nat.not_le.mpr hshort)]
  exact if_pos hlong

/-! ### Encoders -/

/-- Port n's position moves by one count. -/
def State.encMoved (s : State) (n : Nat) (forward : Bool) : State :=
  s.modPort n (fun p => { p with encPos := if forward then p.encPos + 1 else p.encPos - 1 })

section Encoder
variable {s : State} {n : Nat} {forward : Bool} (hst : (s.port n).st = .attached) (hmode : (s.port n).cfg.mode = 4)
include hst hmode

theorem execEncoderCount_undriven (hsrc : s.sourced 3 n = []) :
    execEncoderCount n forward s = .next (s.encMoved n forward) := by
  unfold execEncoderCount
  rw [if_pos (inMode_attached hst hmode)]
  change Host.Outcome.next ((s.sourced 3 n).foldl _ (s.encMoved n forward)) = _
  rw [hsrc, List.foldl_nil]

theorem execEncoderCount_drives {w : Nat} (hsrc : s.sourced 3 n = [w]) :
    execEncoderCount n forward s
      = .next (if forward then (s.encMoved n forward).foreCount w else (s.encMoved n forward).backCount w) := by
  unfold execEncoderCount
  rw [if_pos (inMode_attached hst hmode)]
  change Host.Outcome.next ((s.sourced 3 n).foldl _ (s.encMoved n forward)) = _
  rw [hsrc, List.foldl_cons, List.foldl_nil]

end Encoder

theorem foreCount_input {s : State} {w : Nat} (hdebt : (s.world w).debt = 0) : s.foreCount w = s.input w 1 := by
  unfold State.foreCount
  exact if_neg (by rw [hdebt]; simp)

section Count
variable {s : State} {w : Nat} (hst : (s.world w).st = .running)
include hst

theorem foreCount_pays (hdebt : 0 < (s.world w).debt) :
    (s.foreCount w).world w = { s.world w with lastAdv := s.aon.wall, debt := (s.world w).debt - 1 } := by
  unfold State.foreCount
  dsimp only
  rw [decide_eq_true hst, decide_eq_true hdebt, if_pos (by rfl), modWorld_world, wakeDom_world]

theorem backCount_owes (hroom : (s.world w).debt + 1 < 2 ^ 24) :
    ((s.backCount w).world w).debt = (s.world w).debt + 1 ∧ ((s.backCount w).world w).s = (s.world w).s
      ∧ ((s.backCount w).world w).t = (s.world w).t := by
  unfold State.backCount
  simp only [hst, if_neg (Nat.not_le.mpr hroom), modWorld_world, wakeDom_world]
  exact ⟨trivial, trivial, trivial⟩

theorem backCount_parks (hfull : 2 ^ 24 ≤ (s.world w).debt + 1) :
    ((s.backCount w).world w).st = .parked ∧ ((s.backCount w).world w).parkCause = 5 := by
  unfold State.backCount
  simp only [hst, if_pos hfull]
  obtain ⟨h1, h2, -⟩ := parkWorld_fields
    (s := (s.wakeDom 1 3 w).modWorld w (fun y => { y with lastAdv := s.aon.wall })) (w := w) 5
    (by rw [modWorld_world, wakeDom_world]; exact hst)
  exact ⟨h1, h2⟩

end Count

/-- Settles O36: an edge, a glitch and a count by what each leaves in its pin, its port and the world it drives. -/
theorem pinsAndEncodersDriveTempo : Obligations.PinsAndEncodersDriveTempo := by
  unfold Obligations.PinsAndEncodersDriveTempo
  intro s k n w ns rising
  refine ⟨fun hphase hk hedge => ?_, fun hphase hk hmode hlong hshort => ?_, fun hst hmode => ⟨fun hsrc => ?_, fun hsrc => ?_,
    fun hsrc hrun => ⟨fun hdebt => ?_, fun hdebt hself htempo => ?_, fun hroom => ?_, fun hfull => ?_⟩⟩⟩
  · have hexec := execTempoInEdge_taken hphase hk hedge
    refine ⟨⟨_, hexec, ?_⟩, fun hsrc hself hrun htempo => ⟨_, hexec, ?_⟩, fun hsrc hpark => ⟨_, hexec, ?_⟩⟩
    · rw [edgeTaken_pinCount]
      exact ⟨tget_tmod_same .., fun j hj => tget_tmod_other 0 hj _ _⟩
    · obtain ⟨hs, ht, hrem, -⟩ := input_self (s.pinCounted k) w 1 hrun (by rw [Nat.one_mul]; exact htempo) hself
      rw [edgeTaken_world hsrc, ht, hs, hrem, Nat.one_mul]
      exact ⟨rfl, rfl, rfl⟩
    · rw [edgeTaken_world hsrc, input_parked (s.pinCounted k) w 1 hpark]
      exact ⟨rfl, rfl⟩
  · exact ⟨_, execTempoInGlitch_counted hphase hk hmode hlong hshort, tget_tmod_same 0 k (fun n => sat 8 n 1) _, rfl, rfl⟩
  · refine ⟨_, execEncoderCount_undriven hst hmode hsrc, ?_⟩
    rw [State.encMoved, modPort_port]
    rfl
  · refine ⟨_, execEncoderCount_undriven hst hmode hsrc, ?_⟩
    rw [State.encMoved, modPort_port]
    rfl
  · refine ⟨_, (execEncoderCount_drives hst hmode hsrc), ?_⟩
    rw [if_pos rfl, foreCount_pays (s := s.encMoved n true) hrun hdebt]
    exact ⟨rfl, rfl, rfl⟩
  · refine ⟨_, (execEncoderCount_drives hst hmode hsrc), ?_⟩
    rw [if_pos rfl, foreCount_input (s := s.encMoved n true) hdebt]
    obtain ⟨hs, -⟩ := input_self (s.encMoved n true) w 1 hrun (by rw [Nat.one_mul]; exact htempo) hself
    rw [hs, Nat.one_mul]
    rfl
  · refine ⟨_, (execEncoderCount_drives hst hmode hsrc), ?_⟩
    rw [if_neg Bool.false_ne_true]
    exact backCount_owes (s := s.encMoved n false) hrun hroom
  · refine ⟨_, (execEncoderCount_drives hst hmode hsrc), ?_⟩
    rw [if_neg Bool.false_ne_true]
    exact backCount_parks (s := s.encMoved n false) hrun hfull

end Sys2Proof.Machine
end

section
/-! PROOF. TRACE_CFG, the records and the ports of the trace unit (R322 to R329). -/

namespace Sys2Proof.Machine

open Sys2Proof

/-! ### TRACE_CFG -/

/-- A completion leaves all of the trace unit but the hub's records on their way to it. -/
theorem complete_trc (s : State) (c : ExecCmd) (k : Code) (rs : List DWord) :
    (s.complete c k rs).trc = { s.trc with queue := (s.complete c k rs).trc.queue } := by
  have hunit := complete_only s c k rs .trace rfl
  have hdrops := complete_only s c k rs .trcDrops rfl
  simp only [Part.same, Prod.mk.injEq] at hunit hdrops
  generalize (s.complete c k rs).trc = x at *
  generalize s.trc = y at *
  cases x
  cases y
  simp_all

/-- The state in which a command of the trace unit acts: the unit is awake. -/
def State.traceWoken (s : State) : State := (s.cmdWake 0x20).wakeDom 4 10 0x20

theorem cmdWake_trc (s : State) (op : Nat) : (s.cmdWake op).trc = s.trc := (cmdWake_only s op).trc_eq (by decide)

theorem traceWoken_trc (s : State) : s.traceWoken.trc = s.trc :=
  (wakeDom_ok.trc_eq (by decide)).trans (cmdWake_trc s 0x20)

theorem cmdWake_sourceEntryOk (s : State) (op : Nat) (v : Word) : (s.cmdWake op).sourceEntryOk v = s.sourceEntryOk v := by
  unfold State.sourceEntryOk
  simp only [(cmdWake_only s op).populated_eq rfl]

/-- Trace unit t takes the place of the state's. -/
def State.withTrace (s : State) (t : Trace) : State := { s with trc := t }

section Cfg
variable {s : State} {rk seq op : Nat} {c : ExecCmd} (h : Begins s rk seq 0x20 c) (hadmin : s.has c.src .trace .admin = true)
  (hactive : s.domActive 4 = true) (hop : wf (c.words.getD 1 0) 3 0 = op)
include h hadmin hactive hop

section Applies
variable {need : Nat} {idle : Bool} {ok : State → Nat → DWord → Bool} {f : State → ExecCmd → Nat → Word → Trace}
  (hlen : need ≤ c.words.length) (hok : ok (s.cmdWake 0x20) (wf (c.words.getD 1 0) 11 4) (c.words.getD 1 0) = true)
include hlen hok

theorem traceCmd_applies (hidle : idle = true → s.trc.st = 0 ∨ s.trc.st = 4) :
    traceCmd op need idle ok f rk seq s = .next ((s.traceWoken.withTrace
      (f s.traceWoken c (wf (c.words.getD 1 0) 11 4) ((c.words.getD 1 0).extractLsb' 32 32))).complete c .done []) := by
  have hst : ¬((idle && s.trc.st ≠ 0 && s.trc.st ≠ 4) = true) := by
    cases idle with
    | false => exact Bool.false_ne_true
    | true => rcases hidle rfl with h | h <;> simp [h]
  unfold traceCmd
  rw [runCmd_next h (decide_eq_true hop)]
  dsimp only
  rw [cmdWake_has, hadmin, (cmdWake_only s 0x20).domActive_eq rfl, hactive, hok, decide_eq_false (Nat.not_lt.mpr hlen),
    cmdWake_trc, if_neg hst]
  rfl

theorem traceCmd_busy (hidle : idle = true) (hoff : s.trc.st ≠ 0) (hdone : s.trc.st ≠ 4) :
    traceCmd op need idle ok f rk seq s = .next ((s.cmdWake 0x20).complete c .busy []) := by
  unfold traceCmd
  rw [runCmd_next h (decide_eq_true hop)]
  dsimp only
  rw [cmdWake_has, hadmin, (cmdWake_only s 0x20).domActive_eq rfl, hactive, hok, decide_eq_false (Nat.not_lt.mpr hlen),
    cmdWake_trc, hidle, decide_eq_true hoff, decide_eq_true hdone]
  rfl

end Applies

theorem execTraceStop_stops (hstop : op = 0) : execTraceStop rk seq s
    = .next (State.complete { s.traceWoken.traceFlush (s.cmdWake 0x20).traceInHand with trc.st := 4 } c .done []) := by
  subst hstop
  unfold execTraceStop
  rw [runCmd_next h (decide_eq_true hop)]
  dsimp only
  rw [cmdWake_has, hadmin, (cmdWake_only s 0x20).domActive_eq rfl, hactive]
  rfl

end Cfg

/-! ### The buffer -/

theorem makeRoom_fits {t : Trace} {n : Nat} (k : Nat) (h : t.held + n ≤ bufHalves) : t.makeRoom n k = t := by
  cases k with
  | zero => rfl
  | succ k =>
    unfold Trace.makeRoom
    rw [decide_eq_false (Nat.not_lt.mpr h), Bool.and_false]
    rfl

/-- START clears the buffer and puts a SYNC at its start (R322). -/
theorem start_fields (t : Trace) (m wall : Nat) : (t.start m wall).owner = m
    ∧ (t.start m wall).st = (if t.trigs.any (fun e => decide (trgAction e.2 = 1)) then 1 else 2)
    ∧ (t.start m wall).fired = 0 ∧ tget 0 0 (t.start m wall).buf = trcHeader 0xD false 5 0xFF
    ∧ (t.start m wall).head = 10 := by
  unfold Trace.start Trace.sync Trace.put
  dsimp only
  rw [makeRoom_fits 128 (show 0 + 5 ≤ bufHalves by decide)]
  simp only [Trace.putRaw, Trace.empty]
  exact ⟨trivial, trivial, trivial, rfl, rfl⟩

/-! ### Records -/

theorem putRaw_trigs (hs : List Half) (t : Trace) : (t.putRaw hs).trigs = t.trigs := by
  induction hs generalizing t with
  | nil => rfl
  | cons h r ih => exact ih _

theorem dropBlock_trigs (t : Trace) : t.dropBlock.trigs = t.trigs := by
  unfold Trace.dropBlock
  split <;> rfl

theorem makeRoom_trigs (n k : Nat) (t : Trace) : (t.makeRoom n k).trigs = t.trigs := by
  induction k generalizing t with
  | zero => rfl
  | succ k ih =>
    unfold Trace.makeRoom
    split
    · exact (ih _).trans (dropBlock_trigs t)
    · rfl

theorem put_trigs (t : Trace) (hs : List Half) : (t.put hs).trigs = t.trigs :=
  (putRaw_trigs hs _).trans (makeRoom_trigs _ _ t)

theorem syncIfDue_trigs (t : Trace) (wall : Nat) : (t.syncIfDue wall).trigs = t.trigs := by
  unfold Trace.syncIfDue
  split
  · exact put_trigs _ _
  · rfl

theorem gap_trigs (t : Trace) (src : Nat) : (t.gap src).trigs = t.trigs := by
  unfold Trace.gap
  dsimp only
  split
  · rfl
  · exact put_trigs _ _

theorem ahead_trigs (t : Trace) (wall src n : Nat) : (t.ahead wall src n).trigs = t.trigs := by
  unfold Trace.ahead
  rw [gap_trigs, gap_trigs, syncIfDue_trigs, putRaw_trigs]

theorem orDrop_trigs {t t1 : Trace} (h : t1.trigs = t.trigs) (src : Nat) : (t.orDrop t1 src).trigs = t.trigs := by
  unfold Trace.orDrop
  split
  · exact h
  · rfl

theorem emit_trigs (t : Trace) (wall : Nat) (r : TraceRec) : (t.emit wall r).trigs = t.trigs := by
  unfold Trace.emit
  dsimp only
  refine orDrop_trigs ?_ r.src
  change ((t.ahead wall r.src 8).put _).trigs = _
  rw [put_trigs, ahead_trigs]

theorem countPost_trigs (t : Trace) : t.countPost.trigs = t.trigs := by
  unfold Trace.countPost
  split <;> rfl

/-- A trigger that is not set matches no record of a kind above 0. -/
theorem fire_unset {t : Trace} {r : TraceRec} (htrigs : t.trigs = []) (hkind : r.kind ≠ 0) (wall k : Nat) :
    t.fire wall r k = t := by
  have hhit : trgHit (0, 0) r = false := by
    have : trgKind (0, 0) = 0 := rfl
    unfold trgHit
    rw [this, decide_eq_false (Ne.symm hkind)]
    simp
  unfold Trace.fire
  rw [htrigs]
  exact if_pos (Bool.or_eq_true_iff.mpr (Or.inr (congrArg (!·) hhit)))

theorem fires_unset {t : Trace} {r : TraceRec} (htrigs : t.trigs = []) (hkind : r.kind ≠ 0) (wall : Nat) (l : List Nat) :
    l.foldl (fun t k => t.fire wall r k) t = t := by
  induction l with
  | nil => rfl
  | cons k l ih => rw [List.foldl_cons, fire_unset htrigs hkind, ih]

theorem arrive_off {t : Trace} (hst : t.st = 0) (wall : Nat) (r : TraceRec) : t.arrive wall r = t := by
  unfold Trace.arrive
  rw [if_pos hst]

theorem arrive_armed {t : Trace} {r : TraceRec} (hst : t.st = 1) (htrigs : t.trigs = []) (hkind : r.kind ≠ 0) (wall : Nat) :
    t.arrive wall r = t := by
  unfold Trace.arrive
  rw [if_neg (by omega), if_neg (by omega)]
  dsimp only
  rw [if_pos hst, fires_unset htrigs hkind]

theorem arrive_running {t : Trace} {r : TraceRec} (hst : t.st = 2) (htrigs : t.trigs = []) (hkind : r.kind ≠ 0) (wall : Nat) :
    t.arrive wall r = (t.emit wall r).countPost := by
  unfold Trace.arrive
  rw [if_neg (by omega), if_neg (by omega)]
  dsimp only
  rw [if_neg (by omega), fires_unset _ hkind]
  rw [countPost_trigs, emit_trigs, htrigs]

/-- The trace unit once the first of the hub's records has left their line. -/
def State.hubRecordTaken (s : State) (q : List TraceRec) : State := { s with freeCtr := s.freeCtr + 1, trc.queue := q }

theorem execTraceRecord_hub {s : State} {r : TraceRec} {q : List TraceRec} (htiles : s.traceTiles = []) (hqueue : s.trc.queue = r :: q) :
    execTraceRecord s = .next ((s.hubRecordTaken q).withTrace (({ s.trc with queue := q } : Trace).arrive s.aon.wall r)) := by
  have hnext : s.traceNext = some (r, s.hubRecordTaken q) := by
    unfold State.traceNext
    simp only [htiles, hqueue]
    rfl
  unfold execTraceRecord
  rw [hnext]
  rfl

/-! ### Ports -/

theorem execTracePortDrain_parallel {s : State} (hst : s.trc.st ≠ 0) (hmode : s.trc.mode = 1) (n : Nat) :
    execTracePortDrain n s = .next (s.withTrace (({ s.trc with parOut := [] } : Trace).edges n)) := by
  unfold execTracePortDrain
  rw [if_neg hst, if_pos hmode]
  rfl

theorem execTracePortDrain_serial {s : State} (hst : s.trc.st ≠ 0) (hmode : s.trc.mode = 2) (n : Nat) :
    execTracePortDrain n s = .next (s.withTrace (({ s.trc with serOut := [] } : Trace).blocks (n / 4))) := by
  unfold execTracePortDrain
  rw [if_neg hst, if_neg (by omega), if_pos hmode]
  rfl

theorem edge_empty {t : Trace} (hheld : t.held = 0) : t.edge = { t with parOut := t.parOut ++ [(false, 0)] } := if_pos hheld

theorem edges_two_empty {t : Trace} (hheld : t.held = 0) :
    (t.edges 2).parOut = t.parOut ++ [(false, 0)] ++ [(false, 0)] ∧ (t.edges 2).held = 0 := by
  have hone := edge_empty hheld
  change t.edge.edge.parOut = _ ∧ t.edge.edge.held = 0
  rw [edge_empty (t := t.edge) (by rw [hone]; exact hheld), hone]
  exact ⟨rfl, hheld⟩

theorem edge_takes {t : Trace} (hheld : t.held ≠ 0) : t.edge.held = t.held - 1
    ∧ t.edge.parOut.map (·.2) = t.parOut.map (·.2) ++ [tget 0 ((t.head + 2 ^ 18 - 2 * t.held) % 2 ^ 18 / 2) t.buf] := by
  unfold Trace.edge
  rw [if_neg hheld]
  exact ⟨rfl, List.map_append⟩

theorem block_idle {t : Trace} (hheld : t.held < 4) :
    t.block = { t with serOut := t.serOut ++ [(t.serBlocks % 4, false, 0x1E)] } := if_pos hheld

/-- Settles O37: each operation of TRACE_CFG by the trace unit that it leaves; a record by the state it finds; an edge and a
block by what waits. -/
theorem traceIsConfiguredAndCaptured : Obligations.TraceIsConfiguredAndCaptured := by
  unfold Obligations.TraceIsConfiguredAndCaptured
  intro s rk seq c r q
  refine ⟨fun h hadmin hactive => ⟨fun hop => ?_, fun hop hlen => ?_, fun hop hlen => ?_, fun hidle =>
    ⟨fun hop hlen hi hentry => ?_, fun hop hlen => ?_, fun hop hlen hi => ?_, fun hop hlen hmode hser => ?_⟩,
    fun hop hlen hoff hdone => ?_⟩, fun htiles hqueue hkind => ⟨fun hst => ?_, fun hst htrigs => ?_, fun hst htrigs => ?_⟩,
    fun hst hmode => ⟨fun hheld => ?_, fun hheld => ?_⟩, fun hst hmode hheld => ?_⟩
  · refine ⟨_, execTraceStop_stops h hadmin hactive hop rfl, cmd_done s _ h (by decide), ?_⟩
    rw [complete_trc]
  · change ∃ u, execTraceStart rk seq s = .next u ∧ _
    unfold execTraceStart
    refine ⟨_, traceCmd_applies h hadmin hactive hop hlen rfl (fun h => nomatch h), cmd_done s _ h (by decide), ?_⟩
    obtain ⟨h1, h2, h3, h4, h5⟩ := start_fields s.trc c.src s.traceWoken.aon.wall
    rw [complete_trc, State.withTrace, traceWoken_trc]
    exact ⟨h1, h2, h3, h4, h5⟩
  · change ∃ u, execTraceClear rk seq s = .next u ∧ _
    unfold execTraceClear
    refine ⟨_, traceCmd_applies h hadmin hactive hop hlen rfl (fun h => nomatch h), cmd_done s _ h (by decide), ?_⟩
    rw [complete_trc]
    exact ⟨rfl, rfl, rfl, rfl⟩
  · change ∃ u, execTraceSource rk seq s = .next u ∧ _
    unfold execTraceSource
    refine ⟨_, traceCmd_applies h hadmin hactive hop hlen ?_ (fun _ => hidle), cmd_done s _ h (by decide), ?_⟩
    · rw [cmdWake_sourceEntryOk, hentry, decide_eq_true hi]
      rfl
    · rw [complete_trc]
      exact tget_tset_same ..
  · change ∃ u, execTraceFilter rk seq s = .next u ∧ _
    unfold execTraceFilter
    refine ⟨_, traceCmd_applies h hadmin hactive hop hlen rfl (fun _ => hidle), cmd_done s _ h (by decide), ?_⟩
    rw [complete_trc]
    exact ⟨rfl, rfl, rfl⟩
  · change ∃ u, execTraceTrigger rk seq s = .next u ∧ _
    unfold execTraceTrigger
    refine ⟨_, traceCmd_applies h hadmin hactive hop hlen (decide_eq_true hi) (fun _ => hidle), cmd_done s _ h (by decide), ?_⟩
    rw [complete_trc]
    exact tget_tset_same ..
  · change ∃ u, execTraceOutput rk seq s = .next u ∧ _
    unfold execTraceOutput
    refine ⟨_, traceCmd_applies h hadmin hactive hop hlen ?_ (fun _ => hidle), cmd_done s _ h (by decide), ?_⟩
    · simp only [(cmdWake_only s 0x20).charter_eq rfl, Bool.and_eq_true, Bool.or_eq_true, decide_eq_true_eq]
      exact ⟨hmode, (Decidable.em _).symm.imp_right hser⟩
    · rw [complete_trc]
      rfl
  · change ∃ u, execTraceFilter rk seq s = .next u ∧ _
    unfold execTraceFilter
    refine ⟨_, traceCmd_busy h hadmin hactive hop hlen rfl rfl hoff hdone, cmd_done s _ h (by decide), ?_⟩
    rw [complete_trc, cmdWake_trc]
  · refine ⟨_, execTraceRecord_hub htiles hqueue, ?_⟩
    exact arrive_off (t := { s.trc with queue := q }) hst _ _
  · refine ⟨_, execTraceRecord_hub htiles hqueue, ?_⟩
    exact arrive_armed (t := { s.trc with queue := q }) hst htrigs hkind _
  · refine ⟨_, execTraceRecord_hub htiles hqueue, ?_⟩
    exact arrive_running (t := { s.trc with queue := q }) hst htrigs hkind _
  · obtain ⟨h1, h2⟩ := edges_two_empty (t := { s.trc with parOut := [] }) hheld
    exact ⟨_, execTracePortDrain_parallel hst hmode 2, h1, h2⟩
  · obtain ⟨h1, h2⟩ := edge_takes (t := { s.trc with parOut := [] }) hheld
    exact ⟨_, execTracePortDrain_parallel hst hmode 1, h1, h2⟩
  · refine ⟨_, execTracePortDrain_serial hst hmode 4, ?_⟩
    rw [Trace.blocks, Trace.blocks, block_idle (t := { s.trc with serOut := [] }) hheld]
    rfl

end Sys2Proof.Machine
end

section
/-! PROOF. Span links: training, frames, volleys, Hold and loss (R27, R117, R130, R135, R136, R276, R312). -/

namespace Sys2Proof.Machine

open Sys2Proof

/-! ### Losses on a link -/

theorem loseEvents_queue (s : State) (v : Volley) (c : Code) (rep : Coord) :
    (s.loseEvents v c rep).flt.queue = s.flt.queue ++ (eventsOf v).map (fun e => eventItem v e c rep) := by
  cases hbody : v.body with
  | events ws => simp only [State.loseEvents, eventsOf, hbody]
  | _ => simp only [State.loseEvents, eventsOf, hbody, List.map_nil, List.append_nil]

theorem loseEvents_span (s : State) (v : Volley) (c : Code) (rep : Coord) (k : Nat) :
    (s.loseEvents v c rep).span k = s.span k := loseEvents_ok.span_eq rfl k

/-- The volleys of a link that are lost, each recorded by the link's endpoint. -/
def State.loseOnLink (s : State) (k : Nat) (vs : List Volley) : State :=
  vs.foldl (fun s v => s.loseEvents v .failedLink (s.spanCoord k)) s

theorem loseEvents_spanCoord (s : State) (v : Volley) (c : Code) (rep : Coord) (k : Nat) :
    (s.loseEvents v c rep).spanCoord k = s.spanCoord k := by
  have hhub : (s.loseEvents v c rep).hub = s.hub := loseEvents_ok.hub_eq (by decide)
  unfold State.spanCoord State.coord
  rw [hhub]

theorem loseOnLink_queue (k : Nat) (vs : List Volley) (s : State) :
    (s.loseOnLink k vs).flt.queue
      = s.flt.queue ++ vs.flatMap (fun v => (eventsOf v).map (fun e => eventItem v e .failedLink (s.spanCoord k))) := by
  unfold State.loseOnLink
  induction vs generalizing s with
  | nil => simp
  | cons v r ih => rw [List.foldl_cons, ih, loseEvents_queue, loseEvents_spanCoord, List.flatMap_cons, List.append_assoc]

theorem loseOnLink_ok {s : State} {k : Nat} {vs : List Volley} : OnlyM 0x800000000000 s (s.loseOnLink k vs) :=
  onlyM_foldl (fun _ _ => loseEvents_ok) (OnlyM.refl _ s)

/-- The record of a FAULT, where its rack is not enabled, is nothing. -/
theorem postFault_unread {s : State} (h : (s.rack (fb s.flt.cfg.toNat 7 0)).enabled = false) (event dom detail : Nat) :
    s.postFault event dom detail = s := by
  unfold State.postFault
  dsimp only
  rw [h]
  rfl

/-- Span link k once it has let go of all it held. -/
def State.spanDropped (s : State) (k : Nat) : State :=
  s.modSpan k (fun y =>
    { y with state := 0, lanes := 0, replay := [], queue := [], txSeq := 0, rxSeq := 0, credits := [], hold := 0 })

theorem spanDown_lonely {s : State} {k : Nat} (hnone : s.linkFollowers k = []) : s.spanDown k
    = ((s.spanDropped k).loseOnLink k ((s.span k).replay.flatMap (·.2) ++ (s.span k).queue)).postFault 3 (spanDom k) k := by
  unfold State.spanDown
  dsimp only
  rw [hnone, List.foldl_nil]
  rfl

section Down
variable {s : State} {k : Nat} (hnone : s.linkFollowers k = [])
include hnone

/-- A link without PEER followers that goes DOWN holds nothing any more; no other link changes. -/
theorem spanDown_span : ((s.spanDown k).span k).state = 0 ∧ ((s.spanDown k).span k).hold = 0
    ∧ ((s.spanDown k).span k).replay = [] ∧ ((s.spanDown k).span k).queue = []
    ∧ ∀ q, q ≠ k → (s.spanDown k).span q = s.span q := by
  have hspan : ∀ q, (s.spanDown k).span q = (s.spanDropped k).span q := by
    intro q
    rw [spanDown_lonely hnone, postFault_span, loseOnLink_ok.span_eq rfl]
  rw [hspan, State.spanDropped, modSpan_span]
  exact ⟨rfl, rfl, rfl, rfl, fun q hq => (hspan q).trans (modSpan_span_other s hq _)⟩

theorem spanDown_queue (hrack : (s.rack (fb s.flt.cfg.toNat 7 0)).enabled = false) : (s.spanDown k).flt.queue
    = (s.loseOnLink k ((s.span k).replay.flatMap (·.2) ++ (s.span k).queue)).flt.queue := by
  rw [spanDown_lonely hnone, postFault_unread, loseOnLink_queue, loseOnLink_queue]
  · rfl
  · rw [loseOnLink_ok.rack_eq rfl, loseOnLink_ok.faultCfg_eq rfl]
    exact hrack

end Down

theorem execSpanAckTimeout_down {s : State} {lk : Nat} (hst : (s.span lk).state = 2) (hreplay : (s.span lk).replay ≠ [])
    (hhold : (s.span lk).hold < 2) : execSpanAckTimeout lk s = .next (s.spanDown lk) := by
  unfold execSpanAckTimeout
  dsimp only
  exact if_pos (by simp [hst, hreplay]; omega)

/-! ### Training and Hold -/

theorem pump_idle {x : Span} (h : x.queue = []) (n : Nat) : x.pump n = x := by
  cases n with
  | zero => rfl
  | succ n => unfold Span.pump; rw [h]

theorem execSpanLinkUp_trained {s : State} {lk lanes : Nat} (hhold : (s.span lk).hold ≠ 3) (hst : (s.span lk).state = 1) :
    execSpanLinkUp lk lanes s = .next ((s.modSpan lk (fun y =>
      { y with state := 2, lanes := min lanes 12, txSeq := 0, rxSeq := 0, credits := [] })).postFault 4 (spanDom lk) lk) := by
  unfold execSpanLinkUp
  dsimp only
  rw [if_neg hhold, if_pos hst]

theorem execSpanLinkUp_held {s : State} {lk lanes : Nat} (hhold : (s.span lk).hold = 3) (hqueue : (s.span lk).queue = []) :
    ∃ u, execSpanLinkUp lk lanes s = .next u ∧ u.span lk = { s.span lk with hold := 0, lanes := min lanes 12 }
      ∧ (u.dom (spanDom lk)).state = 0 ∧ (u.dom (spanDom lk)).waking = none := by
  unfold execSpanLinkUp
  dsimp only
  rw [if_pos hhold]
  refine ⟨_, rfl, ?_, ?_, ?_⟩
  · change (s.modSpan lk _).span lk = _
    rw [modSpan_span]
    exact pump_idle (by exact hqueue) _
  · rw [modDom_dom]
  · rw [modDom_dom]

theorem spanHeld_fields (s : State) (lk : Nat) :
    (s.spanHeld lk).span lk = { s.span lk with hold := 2 } ∧ ((s.spanHeld lk).dom (spanDom lk)).state = 2 := by
  refine ⟨?_, ?_⟩
  · change (s.modSpan lk _).span lk = _
    rw [modSpan_span]
  · unfold State.spanHeld
    rw [modDom_dom]

/-! ### Frames -/

theorem execSpanFrame_bad {s : State} {lk : Nat} {f : SpanFrame} (hst : (s.span lk).state = 2) (hbad : f.good = false) :
    execSpanFrame lk f s = .next (s.modSpan lk (fun y =>
      { y with uncorrected := sat 16 y.uncorrected 1, replays := sat 16 y.replays 1 })) := by
  unfold execSpanFrame
  dsimp only
  rw [if_neg (not_not_intro hst), hbad]
  rfl

section Frame
variable {s : State} {lk : Nat} {f : SpanFrame} (hst : (s.span lk).state = 2) (hgood : f.good = true)
  (hqueue : (s.span lk).queue = [])
include hst hgood hqueue

theorem execSpanFrame_accepted (hbody : f.volleys ≠ []) (hseq : f.seq = (s.span lk).rxSeq) :
    ∃ u, execSpanFrame lk f s = .next u ∧ u.span lk = { (s.span lk).trailer f with
      rxSeq := ((s.span lk).rxSeq + 1) % 4096, arrived := (s.span lk).arrived ++ f.volleys.map s.fromWire } := by
  unfold execSpanFrame
  dsimp only
  rw [if_neg (not_not_intro hst), hgood, if_neg (show ¬((!true) = true) from Bool.false_ne_true),
    if_neg (by simp [hbody, hseq])]
  refine ⟨_, rfl, ?_⟩
  rw [modSpan_span, modSpan_span, modSpan_span]
  exact pump_idle (by exact hqueue) _

theorem execSpanFrame_repeated (hseq : f.seq ≠ (s.span lk).rxSeq) :
    ∃ u, execSpanFrame lk f s = .next u ∧ u.span lk = (s.span lk).trailer f := by
  unfold execSpanFrame
  dsimp only
  rw [if_neg (not_not_intro hst), hgood, if_neg (show ¬((!true) = true) from Bool.false_ne_true),
    if_pos (by simp [hseq])]
  refine ⟨_, rfl, ?_⟩
  rw [modSpan_span, modSpan_span]
  exact pump_idle (by exact hqueue) _

end Frame

/-! ### Volleys -/

/-- The state once the first arrived volley of link lk has left its line. -/
def State.spanPopped (s : State) (lk : Nat) (r : List Volley) : State := s.modSpan lk (fun x => { x with arrived := r })

theorem spanPopped_span (s : State) (lk : Nat) (r : List Volley) :
    (s.spanPopped lk r).span lk = { s.span lk with arrived := r } := modSpan_span ..

section Arrived
variable {s : State} {lk : Nat} {v : Volley} {r : List Volley} (harrived : (s.span lk).arrived = v :: r)
include harrived

theorem execSpanVolley_subscribe {i j : Nat} (hhere : v.dst.p = s.hub.p) (hbody : v.body = .control false (.subscribe i j)) :
    execSpanVolley lk s = .next ((s.spanPopped lk r).subscribed lk i j) := by
  unfold execSpanVolley
  rw [harrived]
  dsimp only
  rw [if_pos hhere, hbody]
  rfl

theorem execSpanVolley_injected (hhere : v.dst.p = s.hub.p) (hbody : ∀ b c, v.body ≠ .control b c)
    (hreach : s.unreach v.dst = none) : execSpanVolley lk s = .next ((s.spanPopped lk r).inject (epKey (40 + lk) 0) v) := by
  have hreach1 : (s.spanPopped lk r).unreach v.dst = none := by
    unfold State.unreach at hreach ⊢
    rw [if_neg (not_not_intro hhere)] at hreach
    rw [if_neg (not_not_intro (show v.dst.p = (s.spanPopped lk r).hub.p from hhere))]
    exact hreach
  unfold execSpanVolley
  rw [harrived]
  dsimp only
  rw [if_pos hhere]
  split
  · next b c hctl => exact absurd hctl (hbody b c)
  · unfold State.spanPopped at hreach1
    rw [hreach1]
    rfl

theorem execSpanVolley_hops (hthere : v.dst.p ≠ s.hub.p) (hhops : 7 ≤ v.phops) :
    execSpanVolley lk s = .next ((s.spanPopped lk r).loseEvents v .failedLink ((s.spanPopped lk r).spanCoord lk)) := by
  unfold execSpanVolley
  rw [harrived]
  dsimp only
  rw [if_neg hthere, if_pos (by omega)]
  rfl

theorem execSpanVolley_forwarded {k : Nat} (hthere : v.dst.p ≠ s.hub.p) (hhops : v.phops < 7)
    (hroute : s.spanRouteTo v.dst.p = some k) (hother : k ≠ lk) (hup : (s.span k).state = 2) :
    execSpanVolley lk s = .next ((s.spanPopped lk r).spanSend k { v with phops := v.phops + 1 }) := by
  have hroute1 : (s.spanPopped lk r).spanRouteTo v.dst.p = some k := hroute
  have husable : (s.spanPopped lk r).spanUsable k = true := by
    unfold State.spanUsable State.spanPopped
    rw [modSpan_span_other _ hother, hup]
    rfl
  unfold State.spanPopped at hroute1 husable
  unfold execSpanVolley
  rw [harrived]
  dsimp only
  rw [if_neg hthere, if_neg (by omega), hroute1]
  dsimp only
  rw [if_pos husable]
  rfl

end Arrived

section Send
variable {s : State} {k : Nat} {v : Volley} (hactive : s.domActive (spanDom k) = true) (hup : (s.span k).state = 2)
  (hhold : (s.span k).hold < 2) (hqueue : (s.span k).queue = []) (hroom : (s.span k).replay.length < 1024)
  (hcredit : v.flits ≤ tget 256 v.vc (s.span k).credits)
include hactive hup hhold hqueue hroom hcredit

/-- A volley for a link that is free to send goes out at once, in a frame of its own. -/
theorem spanSend_sends : s.spanSend k v = (s.modSpan k (fun x => { x with queue := x.queue ++ [v] })).modSpan k
      (fun x => x.pump x.queue.length)
    ∧ (s.spanSend k v).span k = { s.span k with
        queue := [], credits := tset v.vc (tget 256 v.vc (s.span k).credits - v.flits) (s.span k).credits,
        replay := (s.span k).replay ++ [((s.span k).txSeq, [v])], txSeq := ((s.span k).txSeq + 1) % 4096 } := by
  have hpump : (({ s.span k with queue := (s.span k).queue ++ [v] } : Span).pump
      ((s.span k).queue ++ [v]).length) = { s.span k with
        queue := [], credits := tset v.vc (tget 256 v.vc (s.span k).credits - v.flits) (s.span k).credits,
        replay := (s.span k).replay ++ [((s.span k).txSeq, [v])], txSeq := ((s.span k).txSeq + 1) % 4096 } := by
    rw [hqueue]
    change (if _ then _ else _) = _
    exact if_pos (by simp [hup, hroom, hcredit]; omega)
  have hspan : ((s.modSpan k (fun x => { x with queue := x.queue ++ [v] })).modSpan k
      (fun x => x.pump x.queue.length)).span k = _ := (modSpan_span ..).trans ((congrArg (fun x : Span => x.pump x.queue.length)
        (modSpan_span s k (fun x => { x with queue := x.queue ++ [v] }))).trans hpump)
  have hsend : s.spanSend k v = (s.modSpan k (fun x => { x with queue := x.queue ++ [v] })).modSpan k
      (fun x => x.pump x.queue.length) := by
    unfold State.spanSend
    rw [hactive, if_neg (show ¬((!true) = true) from Bool.false_ne_true)]
    dsimp only
    rw [if_neg]
    rw [hspan]
    exact Nat.ne_of_lt hhold
  exact ⟨hsend, hsend ▸ hspan⟩

end Send

/-- Settles O38: each command of a span link by the branch its hypotheses choose and what that leaves of the link. -/
theorem spanLinksCarryVolleys : Obligations.SpanLinksCarryVolleys := by
  unfold Obligations.SpanLinksCarryVolleys
  intro s lk lanes f v r i j k
  refine ⟨fun hst hreplay hhold hnone => ?_, fun htrains hst hactive => ?_, fun hhold hst => ?_,
    execSpanLinkUp_held, fun hst => ⟨fun hbad => ?_, fun hgood hqueue => ⟨fun hbody hseq => ?_, fun hseq => ?_⟩⟩,
    fun harrived => ⟨fun hhere => ⟨fun hbody hroom hnew => ?_, execSpanVolley_injected harrived hhere⟩,
      fun hthere => ⟨fun hhops => ?_, fun hhops hroute hother hactive hup hhold hqueue hroom hcredit => ?_⟩⟩,
    fun hst hhold hquiet => ⟨_, if_pos ?_, spanHeld_fields s lk⟩, fun hhold => ⟨_, if_pos hhold, spanHeld_fields s lk⟩,
    fun hhold => ⟨_, if_pos hhold, ?_, ?_, rfl⟩, fun hhold hnone => ⟨_, if_pos hhold, ?_⟩⟩
  · obtain ⟨h1, -, h2, h3, h4⟩ := spanDown_span hnone
    exact ⟨_, execSpanAckTimeout_down hst hreplay hhold, h1, h2, h3, h4, spanDown_queue hnone⟩
  · refine ⟨_, if_pos ?_, modSpan_span ..⟩
    rw [htrains, hactive, decide_eq_true hst]
    rfl
  · refine ⟨_, execSpanLinkUp_trained hhold hst, ?_⟩
    rw [postFault_span, modSpan_span]
  · exact ⟨_, execSpanFrame_bad hst hbad, modSpan_span ..⟩
  · obtain ⟨u, hu, hspan⟩ := execSpanFrame_accepted hst hgood hqueue hbody hseq
    refine ⟨u, hu, ?_⟩
    rw [hspan]
    exact ⟨rfl, rfl, rfl⟩
  · obtain ⟨u, hu, hspan⟩ := execSpanFrame_repeated hst hgood hqueue hseq
    refine ⟨u, hu, ?_⟩
    rw [hspan]
    exact ⟨rfl, rfl, rfl⟩
  · have hsub : (s.spanPopped lk r).subscribed lk i j
        = { s.spanPopped lk r with tmp.subs := s.tmp.subs ++ [(lk, i, j)] } := by
      refine if_pos ?_
      change (decide (s.tmp.subs.length < 64) && !s.tmp.subs.contains (lk, i, j)) = true
      rw [decide_eq_true hroom, hnew]
      rfl
    refine ⟨_, execSpanVolley_subscribe harrived hhere hbody, ?_⟩
    rw [hsub]
    exact ⟨rfl, spanPopped_span s lk r⟩
  · refine ⟨_, execSpanVolley_hops harrived hthere hhops, ?_, ?_⟩
    · rw [loseEvents_span, spanPopped_span]
    · rw [loseEvents_queue, loseEvents_queue]
      rfl
  · have hspan : (s.spanPopped lk r).span k = s.span k := modSpan_span_other _ hother _
    obtain ⟨hsend, hself⟩ := spanSend_sends (s := s.spanPopped lk r) (k := k) (v := { v with phops := v.phops + 1 }) hactive
      (by rw [hspan]; exact hup) (by rw [hspan]; exact hhold) (by rw [hspan]; exact hqueue) (by rw [hspan]; exact hroom)
      (by rw [hspan]; exact hcredit)
    refine ⟨_, execSpanVolley_forwarded harrived hthere hhops hroute hother hup, ?_, ?_⟩
    · rw [hsend, modSpan_span_other _ hother.symm, modSpan_span_other _ hother.symm, spanPopped_span]
    · rw [hself, hspan]
      exact ⟨rfl, rfl, tget_tset_same ..⟩
  · rw [hquiet, decide_eq_true hst, decide_eq_true hhold]
    rfl
  · change (s.modSpan lk _).span lk = _
    rw [modSpan_span]
  · change (((s.modSpan lk _).modDom (spanDom lk) _).dom (spanDom lk)).state = 0
    rw [modDom_dom]
  · obtain ⟨h1, h2, h3, -⟩ := spanDown_span hnone
    exact ⟨h1, h2, h3⟩

end Sys2Proof.Machine
end

section
/-! PROOF. The slots of a tile's schedule and slot marks (R61, R70, R103, R106, R109, R126, R140, R143). -/

namespace Sys2Proof.Machine

open Sys2Proof

/-! ### The schedule's place -/

/-- Tile t stands at the same slot of the same schedule. -/
structure SlotKept (t : Nat) (s u : State) : Prop where
  slot : (u.tile t).slot = (s.tile t).slot
  turn : (u.tile t).schedTurn = (s.tile t).schedTurn
  sched : u.curSchedule t = s.curSchedule t

theorem SlotKept.refl (t : Nat) (s : State) : SlotKept t s s := ⟨rfl, rfl, rfl⟩

theorem SlotKept.trans {t : Nat} {a b c : State} (h : SlotKept t a b) (g : SlotKept t b c) : SlotKept t a c :=
  ⟨g.slot.trans h.slot, g.turn.trans h.turn, g.sched.trans h.sched⟩

theorem ReportCore.slotKept {s u : State} (h : ReportCore s u) (hmem : u.mem = s.mem) (hworlds : u.tmp.worlds = s.tmp.worlds)
    (t : Nat) : SlotKept t s u :=
  ⟨(congrArg Tile.slot (h.at_ t) :), (congrArg Tile.schedTurn (h.at_ t) :), curSchedule_eq h hmem hworlds t⟩

theorem modTile_slotKept (s : State) (t : Nat) (f : Tile → Tile) (hslot : (f (s.tile t)).slot = (s.tile t).slot)
    (hturn : (f (s.tile t)).schedTurn = (s.tile t).schedTurn) (hcfg : (f (s.tile t)).cfg = (s.tile t).cfg)
    (hblocks : (f (s.tile t)).blocks = (s.tile t).blocks) (hquar : (f (s.tile t)).quar = (s.tile t).quar) :
    SlotKept t s (s.modTile t f) := by
  refine ⟨by rw [modTile_tile, hslot], by rw [modTile_tile, hturn], curSchedule_of t (by rw [modTile_tile, hcfg])
    (by rw [modTile_tile, hblocks]) (by rw [modTile_tile, hturn]) (fun k => ?_) ⟨rfl, rfl⟩ rfl rfl⟩
  by_cases hk : k = t
  · rw [hk, modTile_tile, hquar]
  · rw [modTile_tile_other s hk]

/-- From s1 to u the schedule of tile t has moved to its next entry, or to entry 0 of the next turn. -/
def SlotMoved (t : Nat) (s1 u : State) : Prop :=
  ((u.tile t).slot, (u.tile t).schedTurn) =
    (if (s1.tile t).slot + 1 < (s1.curSchedule t).length then ((s1.tile t).slot + 1, (s1.tile t).schedTurn)
    else (0, (s1.tile t).schedTurn + 1))

theorem nextSlot_moved {s1 x : State} {t : Nat} (h : SlotKept t s1 x) : SlotMoved t s1 (x.nextSlot t) := by
  obtain ⟨hslot, hturn, hsched⟩ := h
  unfold SlotMoved State.nextSlot
  dsimp only
  rw [modTile_tile, hslot, hsched]
  split
  · rw [hturn]
  · rw [hturn]

theorem slotRun_moved {s1 x : State} {t : Nat} (h : SlotKept t s1 x) (g : Nat) :
    SlotMoved t s1 ((x.nextSlot t).groupReports t g) := by
  have hcore := (groupReports_reportCore (x.nextSlot t) t g).at_ t
  have hmoved := nextSlot_moved h
  unfold SlotMoved at hmoved ⊢
  rw [← hmoved]
  exact congrArg₂ Prod.mk (congrArg Tile.slot hcore :) (congrArg Tile.schedTurn hcore :)

/-- What of a tile neither moving its schedule nor reporting a turn changes. -/
theorem nextSlot_reportCore (x : State) (t g : Nat) :
    (((x.nextSlot t).groupReports t g).tile t).reportCore
      = { (x.tile t).reportCore with slot := ((x.nextSlot t).tile t).slot, schedTurn := ((x.nextSlot t).tile t).schedTurn } := by
  rw [(groupReports_reportCore (x.nextSlot t) t g).at_ t]
  unfold State.nextSlot
  dsimp only
  rw [modTile_tile]
  split <;> rfl

/-! ### A slot that runs -/

/-- What EMIT does to the tile's volleys. -/
def State.emitted (s : State) (t : Nat) (e : DWord) : State :=
  let g := schGroup e
  let s1 := s.flushOpen t (fun o => s.lockstep o.cls && o.group = g)
  let tag := slotTag (s1.tile t).schedTurn (schOffset e)
  let mine := fun (x : Coord × Nat × Nat) => decide (x.2.1 = g) && s1.tagIn t e x.2.2
  let sent := (s1.tile t).lockSent.filter mine
  let s2 := s1.modTile t (fun x => { x with lockSent := x.lockSent.filter (fun k => !mine k) })
  (s2.lockDests t g).foldl (fun s d =>
    s.send t (s.mkVolley t d.1 g (s.tileBank t (g * 32 + (s.runningLanes t g).headD 0)) d.2 2 tag 0
      (.slotMark (sent.filter (fun k => k.1 = d.1)).length))) s2

/-- What QUIET does to the tile's banks and its age notices. -/
def State.quieted (s : State) (t : Nat) (e : DWord) : State :=
  ((s.modTile t (fun x => { x with postponed := [], streaming := false })).scrubAll t (schN e)).sweepAll t s.fab.mail.length

section Slot
variable {s s1 : State} {t : Nat} {e : DWord} (hsched : s.scheduled t = true) (hruns : s.tileRuns t = true)
  (hidle : (s.tile t).idle = true) (hany : s.anyLane t = true) (henter : s.enterSlot t = s1) (hentry : s1.slotEntry t = e)
  (hopen : s1.slotOpen t e = true)
include hsched hruns hidle hany henter hentry hopen

theorem slotRun_runs {op : Nat} {q : State → DWord → Bool} {f : State → DWord → State} (hop : schOp e = op)
    (hq : q s1 e = true) : slotRun op t q f s = .next (((f s1 e).nextSlot t).groupReports t (schGroup e)) := by
  unfold slotRun
  rw [hsched, hruns, hidle, hany]
  dsimp only
  rw [if_neg (by decide), henter, hentry, hopen, hq, decide_eq_true hop]
  rfl

theorem execGather_runs (hop : schOp e = 1) (hfull : s1.gatherFull t e = true) :
    execGather t s = .next ((((s1.gatherClear t e).gatherDispatch t e).nextSlot t).groupReports t (schGroup e)) := by
  unfold execGather
  exact slotRun_runs hsched hruns hidle hany henter hentry hopen hop hfull

theorem execRunSlot_runs (hop : schOp e = 2) :
    execRunSlot t s = .next (((((s1.slotLanes t e).foldl (fun s w => s.beginUpdate t w (s.slotStamp t w e)) s1).nextRun t).nextSlot t).groupReports t (schGroup e)) := by
  unfold execRunSlot
  exact slotRun_runs hsched hruns hidle hany henter hentry hopen hop rfl

theorem execPot_runs (hop : schOp e = 3) :
    execPot t s = .next (((((s1.runningLanes t (schGroup e)).map (schGroup e * 32 + ·)).foldl
      (fun s w => s.potentiate t w (s.slotStamp t w e)) s1).nextSlot t).groupReports t (schGroup e)) := by
  unfold execPot
  exact slotRun_runs hsched hruns hidle hany henter hentry hopen hop rfl

theorem execDep_runs (hop : schOp e = 4) :
    execDep t s = .next ((((sortEvs ((s1.tile t).intake.filter (fun ev => ev.lockstep && ev.macDone && ev.w / 32 = schGroup e
      && (s1.world ev.w).st = .running && (s1.tile t).fullStamp ev = s1.slotStamp t ev.w e))).foldl
        (fun s ev => s.depEvent t ev) s1).nextSlot t).groupReports t (schGroup e)) := by
  unfold execDep
  exact slotRun_runs hsched hruns hidle hany henter hentry hopen hop rfl

theorem execEmitSlot_runs (hop : schOp e = 5) :
    execEmitSlot t s = .next (((s1.emitted t e).nextSlot t).groupReports t (schGroup e)) := by
  unfold execEmitSlot
  exact slotRun_runs hsched hruns hidle hany henter hentry hopen hop rfl

theorem execQuiet_runs (hop : schOp e = 6) :
    execQuiet t s = .next (((s1.quieted t e).nextSlot t).groupReports t (schGroup e)) := by
  unfold execQuiet
  exact slotRun_runs hsched hruns hidle hany henter hentry hopen hop rfl

theorem execLearnSlot_moves (hop : schOp e = 7) (hbusy : (s1.tile t).lrnBusy = none) (hpoint : s1.atPoint t = false) :
    execLearnSlot t s = .next (s1.nextSlot t) := by
  have hsame : s1.point t = s1 := by
    unfold State.point
    rw [hbusy, hpoint]
    split
    · rfl
    · rfl
  unfold execLearnSlot
  rw [hsched, hruns, hidle, hany]
  dsimp only
  rw [if_neg (by decide), henter, hentry, hopen, hsame, hbusy, if_neg (by simp [hop])]
  rfl

end Slot

theorem enterSlot_idle {s : State} {t : Nat} (hidle : (s.tile t).idle = true) : ((s.enterSlot t).tile t).idle = true := by
  unfold State.enterSlot
  split
  · rw [modTile_tile]
    exact hidle
  · exact hidle

theorem idle_fields {x : Tile} (h : x.idle = true) : x.run = none ∧ x.due = [] ∧ x.upd = [] ∧ x.stalled = [] := by
  simpa [Tile.idle, and_assoc] using h

/-! ### GATHER, DEP and EMIT -/

theorem gatherClear_kept (s : State) (t : Nat) (e : DWord) : SlotKept t s (s.gatherClear t e) :=
  modTile_slotKept s t _ rfl rfl rfl rfl rfl

theorem gatherClear_marks {s : State} {t : Nat} {e : DWord} {m : Nat × Nat × Nat × Nat}
    (h : m ∈ ((s.gatherClear t e).tile t).marks) : (m.2.2.1 = schGroup e && s.tagIn t e m.1) = false := by
  unfold State.gatherClear at h
  dsimp only at h
  rw [modTile_tile] at h
  exact (Bool.not_eq_true' _).mp (List.mem_filter.mp h).2

theorem gatherDispatch_none {s : State} {t : Nat} {e : DWord} (h : s.gatherEvs t e = []) : s.gatherDispatch t e = s := by
  unfold State.gatherDispatch
  dsimp only
  rw [h]
  rfl

theorem emitted_ok {s : State} {t : Nat} {e : DWord} : OnlyM 0x9f0028020408 s (s.emitted t e) :=
  onlyM_foldl (fun _ _ => send_ok) (only_modTile (only_flushOpen (OnlyM.refl _ s) rfl) rfl)

theorem emitted_reportCore (s : State) (t : Nat) (e : DWord) : ReportCore s (s.emitted t e) := by
  unfold State.emitted
  dsimp only
  refine ReportCore.trans ?_ (foldl_reportCore _ (fun _ _ => (send_sendCore _ _ _).report) _ _)
  refine (flushOpen_reportCore s t (fun o => s.lockstep o.cls && o.group = schGroup e)).trans ?_
  exact modTile_reportCore _ t _ (fun _ => rfl)

theorem emitted_openVols {s : State} {t : Nat} {e : DWord} {o : OpenVolley} (h : o ∈ ((s.emitted t e).tile t).openVols) :
    (s.lockstep o.cls && o.group = schGroup e) = false := by
  have hsends := (foldl_openLess _ (fun _ _ => (send_sendCore _ _ _).openLess) _ _).at_ t o h
  rw [modTile_tile] at hsends
  exact flushOpen_gone s t _ o hsends

theorem afterSlot_openVols {x : State} {t g : Nat} {o : OpenVolley} (h : o ∈ (((x.nextSlot t).groupReports t g).tile t).openVols) :
    o ∈ (x.tile t).openVols := by
  refine (modTile_openLess x t _ (fun y o ho => ?_)).at_ t o ((groupReports_openLess (x.nextSlot t) t g).at_ t o h)
  split at ho <;> exact ho

/-! ### Slot marks -/

/-- A slot mark that tile t holds, with the volleys it counts that have not come recorded. -/
def State.markHeld (s : State) (t : Nat) (v : Volley) (n miss : Nat) : State :=
  let s2 := s.modTile t (fun x => { x with marks := x.marks ++ [(v.slot, v.src.key, v.group, n)] })
  { s2 with flt.queue := s2.flt.queue ++ List.replicate miss (volleyItem v .failedSchedule (s2.coord t)) }

theorem markHeld_fields (s : State) (t : Nat) (v : Volley) (n miss : Nat) :
    ((s.markHeld t v n miss).tile t).marks = (s.tile t).marks ++ [(v.slot, v.src.key, v.group, n)]
      ∧ (s.markHeld t v n miss).flt.queue = s.flt.queue ++ List.replicate miss (volleyItem v .failedSchedule (s.coord t)) := by
  refine ⟨?_, rfl⟩
  have htile : (s.markHeld t v n miss).tile t
      = (s.modTile t (fun x => { x with marks := x.marks ++ [(v.slot, v.src.key, v.group, n)] })).tile t := rfl
  rw [htile, modTile_tile]

theorem nondets_fields (t : Nat) (w tau : Nat → State → Nat) (l : List Nat) (s : State) :
    ((l.foldl (fun s k => s.nondetAt t (w k s) (tau k s)) s).tile t).marks = (s.tile t).marks
      ∧ (l.foldl (fun s k => s.nondetAt t (w k s) (tau k s)) s).flt.queue = s.flt.queue := by
  induction l generalizing s with
  | nil => exact ⟨rfl, rfl⟩
  | cons k r ih =>
    obtain ⟨h1, h2⟩ := ih (s.nondetAt t (w k s) (tau k s))
    refine ⟨h1.trans ?_, h2⟩
    unfold State.nondetAt
    rw [modTile_tile]
    rfl

section Mark
variable {s : State} {t n : Nat} {v : Volley} {r : List Volley} (hbox : tget [] t s.fab.inbox = v :: r)
  (hbody : v.body = .slotMark n) (hactive : s.tileActive t = true)
include hbox hbody hactive

theorem execSlotMark_held : ∃ u, execSlotMark t s = .next u
    ∧ (u.tile t).marks = (s.tile t).marks ++ [(v.slot, v.src.key, v.group, n)]
    ∧ u.flt.queue = s.flt.queue ++ List.replicate (n - s.gotUnder t v) (volleyItem v .failedSchedule (s.coord t)) := by
  obtain ⟨hmarks, hqueue⟩ := markHeld_fields (s.popInbox t r) t v n (n - (s.popInbox t r).gotUnder t v)
  unfold execSlotMark
  dsimp only
  rw [takeInbox_pop hbox (by rw [hbody])]
  simp only [hbody, hactive, Bool.not_true, Bool.false_eq_true, if_false]
  by_cases hall : n - (s.popInbox t r).gotUnder t v = 0
  · exact ⟨_, if_pos hall, hmarks, hqueue⟩
  · obtain ⟨h1, h2⟩ := nondets_fields t (fun l _ => v.group * 32 + l)
      (fun l s => ((s.tile t).world (v.group * 32 + l)).f)
      (((s.popInbox t r).markHeld t v n (n - (s.popInbox t r).gotUnder t v)).runningLanes t v.group)
      ((s.popInbox t r).markHeld t v n (n - (s.popInbox t r).gotUnder t v))
    exact ⟨_, if_neg hall, h1.trans hmarks, h2.trans hqueue⟩

end Mark

/-- Settles O39: a slot that runs is its operation, the move of the schedule and the turn reports; each operation's part by
what it leaves of the tile. -/
theorem scheduleSlotsRun : Obligations.ScheduleSlotsRun := by
  unfold Obligations.ScheduleSlotsRun
  intro s t e s1
  refine ⟨fun hsched hruns hidle hany henter hentry hopen => ?_, fun v r n hbox hbody hactive => execSlotMark_held hbox hbody hactive⟩
  have hidle1 : (s1.tile t).idle = true := henter ▸ enterSlot_idle hidle
  obtain ⟨hrun, hdue, hupd, -⟩ := idle_fields hidle1
  dsimp only
  refine ⟨fun hop hfull hnone hleft => ?_, fun hop hfull => ?_, fun hop => ?_, fun hop => ?_, fun hop hintake => ?_,
    fun hlanes => ⟨fun hop => ?_, fun hop => ?_⟩, fun hop => ?_, fun hop hn hmail => ?_, fun hop hbusy hpoint => ?_⟩
  · refine ⟨_, execGather_runs hsched hruns hidle hany henter hentry hopen hop hfull, ?_⟩
    rw [gatherDispatch_none hleft]
    refine ⟨slotRun_moved (gatherClear_kept s1 t e) (schGroup e), fun m hm => gatherClear_marks (t := t) ?_⟩
    have hmarks := congrArg Tile.marks (nextSlot_reportCore (s1.gatherClear t e) t (schGroup e))
    exact hmarks ▸ hm
  · exact execGather_runs hsched hruns hidle hany henter hentry hopen hop hfull
  · exact execRunSlot_runs hsched hruns hidle hany henter hentry hopen hop
  · exact execPot_runs hsched hruns hidle hany henter hentry hopen hop
  · refine ⟨_, execDep_runs hsched hruns hidle hany henter hentry hopen hop, ?_⟩
    rw [hintake]
    refine ⟨slotRun_moved (SlotKept.refl t s1) (schGroup e), ?_⟩
    exact (congrArg Tile.intake (nextSlot_reportCore s1 t (schGroup e)) :).trans hintake
  · refine ⟨_, execRunSlot_runs hsched hruns hidle hany henter hentry hopen hop, ?_⟩
    have hnone : s1.slotLanes t e = [] := by unfold State.slotLanes; rw [hlanes]; rfl
    rw [hnone, List.foldl_nil, nextRun_idle hrun hdue hupd]
    refine ⟨slotRun_moved (modTile_slotKept s1 t _ rfl rfl rfl rfl rfl) (schGroup e), ?_⟩
    refine (congrArg Tile.run (nextSlot_reportCore (s1.modTile t (fun y => { y with upd := [] })) t (schGroup e)) :).trans ?_
    rw [modTile_tile]
    exact hrun
  · refine ⟨_, execPot_runs hsched hruns hidle hany henter hentry hopen hop, ?_⟩
    rw [hlanes]
    exact slotRun_moved (SlotKept.refl t s1) (schGroup e)
  · refine ⟨(((s1.emitted t e).nextSlot t).groupReports t (schGroup e)),
      execEmitSlot_runs hsched hruns hidle hany henter hentry hopen hop, ?_, fun o ho => ?_⟩
    · exact slotRun_moved ((emitted_reportCore s1 t e).slotKept (emitted_ok.mem_eq rfl) (emitted_ok.worlds_eq rfl) t) (schGroup e)
    · exact emitted_openVols (afterSlot_openVols ho)
  · refine ⟨_, execQuiet_runs hsched hruns hidle hany henter hentry hopen hop, ?_⟩
    have hmail1 : s1.fab.mail = [] := by
      rw [← henter]
      unfold State.enterSlot
      split <;> exact hmail
    rw [State.quieted, hn, hmail1]
    refine ⟨slotRun_moved (modTile_slotKept s1 t (fun x => { x with postponed := [], streaming := false }) rfl rfl rfl rfl rfl)
      (schGroup e), ?_⟩
    have hcore := nextSlot_reportCore (s1.modTile t (fun x => { x with postponed := [], streaming := false })) t (schGroup e)
    rw [modTile_tile] at hcore
    exact ⟨congrArg Tile.postponed hcore, congrArg Tile.streaming hcore⟩
  · exact ⟨_, execLearnSlot_moves hsched hruns hidle hany henter hentry hopen hop hbusy hpoint, nextSlot_moved (SlotKept.refl t s1)⟩

end Sys2Proof.Machine
end

section
/-! PROOF. The events, updates, notices, age sweeps and grants that a tile takes (R30, R54, R55, R60, R61, R66, R134, R147,
R296). -/

namespace Sys2Proof.Machine

open Sys2Proof

/-! ### Events (R60, R66, R147, R296) -/

theorem popInbox_tiles (s : State) (k : Nat) (r : List Volley) : (s.popInbox k r).tiles = s.tiles := rfl

section Taken
variable {s : State} {t : Nat} {v : Volley} {r : List Volley} {ws : List Word} (hbox : tget [] t s.fab.inbox = v :: r)
  (hbody : v.body = .events ws)
include hbox hbody

theorem execEvents_lost (hactive : s.tileActive t = false) : ∃ u, execEvents t s = .next u ∧ u.tiles = s.tiles
    ∧ u.flt.queue = s.flt.queue ++ ws.map (fun e => eventItem v e (s.absorbCode v) (s.coord t)) := by
  unfold execEvents
  dsimp only
  rw [takeInbox_pop hbox (by rw [hbody])]
  simp only [hactive, Bool.false_eq_true, if_false]
  refine ⟨(s.popInbox t r).loseEvents v (s.absorbCode v) (s.coord t), rfl, loseEvents_ok.tiles_eq rfl, ?_⟩
  rw [loseEvents_queue, eventsOf, hbody]
  rfl

/-- The state in which tile t, awake, looks at the events of a volley. -/
def State.eventsSeen (s : State) (t : Nat) (v : Volley) (r : List Volley) : State := (s.popInbox t r).wakeTile t 2 v.src.key

theorem execEvents_single {e : Word} (hactive : s.tileActive t = true) (hvc : v.vc ≠ 2) (hws : ws = [e]) :
    execEvents t s = .next (((s.eventsSeen t v r).intakeEvent t v e).settle t) := by
  unfold execEvents
  dsimp only
  rw [takeInbox_pop hbox (by rw [hbody])]
  simp only [hactive, if_true]
  unfold State.takeEvents
  simp only [hbody, hws, decide_eq_false hvc, Bool.false_and, Bool.false_eq_true, if_false, if_neg hvc, List.foldl_cons,
    List.foldl_nil]
  rfl

end Taken

theorem eventsSeen_tile (s : State) (t : Nat) (v : Volley) (r : List Volley) (j : Nat) :
    (s.eventsSeen t v r).tile j = s.tile j := wakeTile_ok.tile_eq rfl j

theorem eventsSeen_world (s : State) (t : Nat) (v : Volley) (r : List Volley) (w : Nat) :
    (s.eventsSeen t v r).world w = s.world w := wakeTile_ok.world_eq rfl w

theorem eventsSeen_queue (s : State) (t : Nat) (v : Volley) (r : List Volley) :
    (s.eventsSeen t v r).flt.queue = s.flt.queue := wakeTile_ok.lossQueue_eq rfl

theorem eventsSeen_coord (s : State) (t : Nat) (v : Volley) (r : List Volley) (k : Nat) :
    (s.eventsSeen t v r).coord k = s.coord k := by
  have hhub : (s.eventsSeen t v r).hub = s.hub := wakeTile_ok.hub_eq (by decide)
  unfold State.coord
  rw [hhub]

/-! ### What moves nothing -/

theorem feed_empty {s : State} {t : Nat} (h : (s.tile t).intake = []) : s.feed t = s := by
  unfold State.feed
  rw [h]
  rfl

/-- An event of a world that does not run waits. -/
theorem feed_waits {s : State} {t : Nat} {ev : Ev} (hone : (s.tile t).intake = [ev]) (hst : (s.world ev.w).st ≠ .running) :
    s.feed t = s := by
  have hev : (s.tile t).ev ev.id = some ev := by
    unfold Tile.ev
    rw [hone, List.find?_cons_of_pos (by simp)]
  have helig : s.eligible t ev = false := by
    unfold State.eligible
    rw [decide_eq_false hst]
    simp
  unfold State.feed
  rw [hone]
  simp only [List.map_cons, List.map_nil, List.foldl_cons, List.foldl_nil, hev, helig, Bool.and_false, Bool.false_eq_true,
    if_false, if_neg hst, ite_self]

/-- With nothing to feed and the engine at rest, settling leaves the tile and the losses as they are. -/
theorem settle_rests {s : State} {t : Nat} (hfeed : s.feed t = s) (hidle : (s.tile t).idle = true) :
    s.settle t = s.modTile t (fun y => { y with upd := [] }) := by
  obtain ⟨hrun, hdue, hupd, -⟩ := idle_fields hidle
  unfold State.settle
  rw [hfeed, nextRun_idle hrun hdue hupd]

/-- Settles the intake of an event whose world neither runs nor is parked. -/
theorem intakeEvent_refused {s : State} {t : Nat} {v : Volley} {e : Word} {c : Code}
    (h : s.intakeEvent t v e = s.pushLoss (eventItem v e c (s.coord t))) (hidle : (s.tile t).idle = true)
    (hintake : (s.tile t).intake = []) : (((s.intakeEvent t v e).settle t).tile t).intake = []
      ∧ ((s.intakeEvent t v e).settle t).flt.queue = s.flt.queue ++ [eventItem v e c (s.coord t)] := by
  have htile : (s.pushLoss (eventItem v e c (s.coord t))).tile t = s.tile t := rfl
  rw [h, settle_rests (feed_empty (htile ▸ hintake)) (htile ▸ hidle), modTile_tile]
  exact ⟨hintake, rfl⟩

theorem intakeEvent_standby {s : State} {t : Nat} {v : Volley} {e : Word} (h : (s.world (v.group * 32 + evLane e)).st = .standby) :
    s.intakeEvent t v e = s.pushLoss (eventItem v e .failedParked (s.coord t)) := by
  unfold State.intakeEvent
  simp only [h]

theorem intakeEvent_free {s : State} {t : Nat} {v : Volley} {e : Word} (h : (s.world (v.group * 32 + evLane e)).st = .free) :
    s.intakeEvent t v e = s.pushLoss (eventItem v e .failedAccess (s.coord t)) := by
  unfold State.intakeEvent
  simp only [h]

/-- The intake entry of a Breeze event word. -/
def breezeEv (x : Tile) (v : Volley) (e : Word) : Ev :=
  { id := x.nextId, w := v.group * 32 + evLane e, row := evRow e, value := evValue e,
    stamp := (v.tempoBase + evOffset e) % 2 ^ 20, lockstep := false, cls := v.cls, src := v.src, tag := v.slot,
    macDone := false, depDone := false }

theorem intakeEvent_parked {s : State} {t : Nat} {v : Volley} {e : Word} (hvc : v.vc ≠ 2)
    (hst : (s.world (v.group * 32 + evLane e)).st = .parked) (hfree : (s.tile t).slotFree false = true)
    (hidle : (s.tile t).idle = true) (hintake : (s.tile t).intake = []) :
    (((s.intakeEvent t v e).settle t).tile t).intake = [breezeEv (s.tile t) v e] := by
  have hin : ((s.intakeEvent t v e).tile t).intake = [breezeEv (s.tile t) v e] ∧ ((s.intakeEvent t v e).tile t).idle = true
      ∧ ∀ w, (s.intakeEvent t v e).world w = s.world w := by
    unfold State.intakeEvent
    simp only [hst, decide_eq_false hvc, hfree, if_true]
    obtain ⟨htile, -, -, -⟩ := traceTile_fifo (s.modTile t (fun y => { y with
      nextId := y.nextId + 1, intake := y.intake ++ [breezeEv (s.tile t) v e],
      intakeHigh := max y.intakeHigh (y.intake.length + 1) })) t 1 ((v.tempoBase + evOffset e) % 2 ^ 20)
      (v.group * 32 + evLane e) true (evRow e)
      [evValue e + b2n false * 2 ^ 8 + b2n v.urgent * 2 ^ 9 + b2n (decide (WState.parked = .parked)) * 2 ^ 10]
    refine ⟨?_, ?_, fun w => (traceTile_ok.world_eq (by decide) w).trans rfl⟩
    · refine (congrArg Tile.intake htile :).trans ?_
      rw [modTile_tile, hintake]
      rfl
    · refine (congrArg Tile.idle htile :).trans ?_
      rw [modTile_tile]
      exact hidle
  obtain ⟨hone, hrest, hworld⟩ := hin
  have hwait : ((s.intakeEvent t v e).world (breezeEv (s.tile t) v e).w).st ≠ .running := by
    rw [hworld]
    change (s.world (v.group * 32 + evLane e)).st ≠ .running
    rw [hst]
    decide
  rw [settle_rests (feed_waits hone hwait) hrest, modTile_tile]
  exact hone

/-! ### Merge dispatch (R61) -/

section Merge
variable {s : State} {t : Nat} {m : MergeEntry} (hsegs : rowSegs (tget (0 : DWord) m.row (s.tile t).rowdir) = 0)
include hsegs

theorem rowPass_noSegs (evs : List Ev) : s.rowPass t m.row evs = s := by
  unfold State.rowPass
  dsimp only
  rw [hsegs]
  rfl

/-- Events of a row without segments have no depression half: they leave the intake. -/
theorem macDone_noSegs (evs : List Ev) (hrow : ∀ ev ∈ evs, ev.row = m.row) :
    ((s.macDone t evs).tile t).merge = (s.tile t).merge
      ∧ ((s.macDone t evs).tile t).intake = (s.tile t).intake.filter (fun x => decide (x.id ∉ evs.map (·.id))) := by
  induction evs generalizing s with
  | nil =>
    refine ⟨rfl, ?_⟩
    change (s.tile t).intake = _
    simp
  | cons ev r ih =>
    have hdep : s.hasDep t ev = false := by
      unfold State.hasDep State.rowPlastic
      dsimp only
      rw [hrow ev List.mem_cons_self, hsegs]
      simp
    have hstep : s.macDone t (ev :: r) = (s.modTile t (fun x => x.dropEv ev.id)).macDone t r := by
      unfold State.macDone
      rw [List.foldl_cons, hdep]
      rfl
    obtain ⟨hmerge, hintake⟩ := ih (s := s.modTile t (fun x => x.dropEv ev.id)) (by rw [modTile_tile]; exact hsegs)
      (fun x hx => hrow x (List.mem_cons_of_mem _ hx))
    rw [modTile_tile] at hmerge hintake
    rw [hstep, hmerge, hintake]
    refine ⟨rfl, ?_⟩
    change List.filter _ (List.filter _ (s.tile t).intake) = _
    rw [List.filter_filter]
    refine List.filter_congr (fun x _ => ?_)
    simp only [List.map_cons, List.mem_cons, not_or, Bool.decide_and, ne_eq]
    rw [Bool.and_comm]

end Merge

theorem dispatch_single {s : State} {t : Nat} {m : MergeEntry} (hone : (s.tile t).merge = [m]) :
    s.dispatch t m = s.dispatchOne t m := by
  unfold State.dispatch
  rw [hone]
  simp only [upTo, if_true, List.foldl_cons, List.foldl_nil]

theorem dispatchOne_noSegs {s : State} {t : Nat} {m : MergeEntry} (hone : (s.tile t).merge = [m])
    (hsegs : rowSegs (tget (0 : DWord) m.row (s.tile t).rowdir) = 0)
    (hrow : ∀ ev ∈ (s.tile t).intake, ev.id ∈ m.evs.map (·.2) → ev.row = m.row) :
    ((s.dispatchOne t m).tile t).merge = [] ∧ ∀ k ∈ m.evs.map (·.2), ((s.dispatchOne t m).tile t).ev k = none := by
  generalize hevs : m.evs.filterMap (fun e => (s.tile t).ev e.2) = evs
  have hmem : ∀ ev ∈ evs, ev ∈ (s.tile t).intake ∧ ev.id ∈ m.evs.map (·.2) := by
    intro ev hev
    rw [← hevs] at hev
    obtain ⟨e, he, hfound⟩ := List.mem_filterMap.mp hev
    have hid : ev.id = e.2 := by simpa using List.find?_some hfound
    exact ⟨List.mem_of_find?_eq_some hfound, hid ▸ List.mem_map_of_mem he⟩
  have hstep : s.dispatchOne t m = (s.modTile t (fun x => { x with merge := x.merge.filter (fun k => k ≠ m) })).macDone t evs := by
    unfold State.dispatchOne
    dsimp only
    rw [rowPass_noSegs (by rw [modTile_tile]; exact hsegs), hevs]
  obtain ⟨hmerge, hintake⟩ := macDone_noSegs (m := m)
    (s := s.modTile t (fun x => { x with merge := x.merge.filter (fun k => k ≠ m) })) (t := t)
    (by rw [modTile_tile]; exact hsegs) evs (fun ev hev => hrow ev (hmem ev hev).1 (hmem ev hev).2)
  rw [modTile_tile] at hmerge hintake
  rw [hstep, hmerge, hone]
  refine ⟨by simp, fun k hk => ?_⟩
  unfold Tile.ev
  rw [hintake, List.find?_eq_none]
  intro x hx hxk
  obtain ⟨hxin, hxout⟩ := List.mem_filter.mp hx
  obtain ⟨e, he, hek⟩ := List.mem_map.mp hk
  have hkx : x.id = k := by simpa using hxk
  have hsome : ((s.tile t).ev k).isSome = true := by
    unfold Tile.ev
    exact List.find?_isSome.mpr ⟨x, hxin, by simpa using hkx⟩
  obtain ⟨y, hy⟩ := Option.isSome_iff_exists.mp hsome
  have hyid : y.id = k := by simpa using List.find?_some hy
  have hymem : y ∈ evs := hevs ▸ List.mem_filterMap.mpr ⟨e, he, hek ▸ hy⟩
  exact of_decide_eq_true hxout (hkx ▸ hyid ▸ List.mem_map_of_mem hymem)

/-! ### Stamp updates (R54) -/

/-- Tile t keeps its run and the frontier of every world. -/
structure FrontierKept (t : Nat) (s u : State) : Prop where
  run : (u.tile t).run = (s.tile t).run
  f : ∀ w, ((u.tile t).world w).f = ((s.tile t).world w).f

theorem FrontierKept.refl (t : Nat) (s : State) : FrontierKept t s s := ⟨rfl, fun _ => rfl⟩

theorem FrontierKept.trans {t : Nat} {a b c : State} (h : FrontierKept t a b) (g : FrontierKept t b c) : FrontierKept t a c :=
  ⟨g.run.trans h.run, fun w => (g.f w).trans (h.f w)⟩

theorem SendCore.frontierKept {s u : State} (h : SendCore s u) (t : Nat) : FrontierKept t s u :=
  ⟨(congrArg Tile.run (h.at_ t) :), fun w => (congrArg (fun x : Tile => (x.world w).f) (h.at_ t) :)⟩

theorem modTile_frontierKept (s : State) (t : Nat) (f : Tile → Tile) (hrun : (f (s.tile t)).run = (s.tile t).run)
    (hf : ∀ w, ((f (s.tile t)).world w).f = ((s.tile t).world w).f) : FrontierKept t s (s.modTile t f) :=
  ⟨by rw [modTile_tile, hrun], fun w => by rw [modTile_tile, hf]⟩

theorem foldl_frontierKept {α : Type} {t : Nat} {f : State → α → State} (hf : ∀ s a, FrontierKept t s (f s a)) (l : List α)
    (s : State) : FrontierKept t s (l.foldl f s) := by
  induction l generalizing s with
  | nil => exact FrontierKept.refl t s
  | cons a r ih => exact (hf s a).trans (ih _)

theorem sendOpen_frontierKept (s : State) (t : Nat) (o : OpenVolley) : FrontierKept t s (s.sendOpen t o) := by
  unfold State.sendOpen
  dsimp only
  split
  · exact (modTile_frontierKept s t _ rfl (fun _ => rfl)).trans ((send_sendCore _ _ _).frontierKept t)
  · exact (send_sendCore _ _ _).frontierKept t

theorem flushOpen_frontierKept (s : State) (t : Nat) (p : OpenVolley → Bool) : FrontierKept t s (s.flushOpen t p) := by
  unfold State.flushOpen
  exact (modTile_frontierKept s t _ rfl (fun _ => rfl)).trans (foldl_frontierKept (fun s o => sendOpen_frontierKept s t o) _ _)

theorem sendNotice_frontierKept (s : State) (t g : Nat) : FrontierKept t s (s.sendNotice t g) := by
  unfold State.sendNotice
  split
  · exact FrontierKept.refl t s
  · refine FrontierKept.trans (foldl_frontierKept (fun s d => ?_) _ s) (modTile_frontierKept _ t _ rfl (fun _ => rfl))
    exact (flushOpen_frontierKept s t _).trans ((send_sendCore _ _ _).frontierKept t)

theorem tileWorld_mod (x : Tile) (w j : Nat) (f : TileWorld → TileWorld) :
    (x.modWorld w f).world j = if j = w then f (x.world w) else x.world j := by
  split
  · next h => rw [h]; exact tget_tmod_same ..
  · next h => exact tget_tmod_other _ h _ _

theorem reports_frontierKept (t w : Nat) (n : Nat) (s : State) : FrontierKept t s (s.reports t w n) := by
  induction n generalizing s with
  | zero => exact FrontierKept.refl t s
  | succ n ih =>
    unfold State.reports
    dsimp only
    split
    · refine FrontierKept.trans ?_ (ih _)
      refine FrontierKept.trans ((flushOpen_frontierKept s t _).trans ((send_sendCore _ _ _).frontierKept t))
        (modTile_frontierKept _ t _ rfl (fun j => ?_))
      rw [tileWorld_mod]
      split
      · next h => rw [h]
      · rfl
    · exact FrontierKept.refl t s

theorem afterF_frontierKept {s : State} {t : Nat} (w : Nat) (h : (s.tile t).intake = []) : FrontierKept t s (s.afterF t w) := by
  unfold State.afterF
  dsimp only
  have hdep : ((s.tile t).intake.filter (fun e => e.w = w && e.macDone && !e.lockstep)).foldl
      (fun s ev => s.depEvent t ev) s = s := by rw [h]; rfl
  rw [hdep, feed_empty h]
  refine FrontierKept.trans ?_ (reports_frontierKept t w 8 _)
  split
  · exact sendNotice_frontierKept s t _
  · exact FrontierKept.refl t s

/-- The end of an update with no post spike to potentiate and nothing in intake: the frontier moves by one stamp. -/
theorem finishUpdate_moves {s : State} {t : Nat} (w c : Nat) (lock : Bool) (hintake : (s.tile t).intake = [])
    (hposts : (s.tile t).posts = []) : (((s.finishUpdate t w c lock).tile t).world w).f = c + 1
      ∧ ((s.finishUpdate t w c lock).tile t).run = (s.tile t).run := by
  have hposted : ((if lock then s else s.potentiate t w c).tile t).intake = []
      ∧ ((if lock then s else s.potentiate t w c).tile t).run = (s.tile t).run := by
    split
    · exact ⟨hintake, rfl⟩
    · unfold State.potentiate
      dsimp only
      rw [hposts, List.filter_nil, List.foldl_nil, modTile_tile]
      exact ⟨hintake, rfl⟩
  unfold State.finishUpdate
  dsimp only
  generalize (if lock then s else s.potentiate t w c) = r at hposted
  obtain ⟨hin, hrun⟩ := hposted
  obtain ⟨hrun1, hf1⟩ := afterF_frontierKept (s := r.modTile t (fun x => x.modWorld w (fun y => { y with f := c + 1 })))
    (t := t) w (by rw [modTile_tile]; exact hin)
  rw [hrun1, hf1, modTile_tile, tileWorld_mod, if_pos rfl]
  exact ⟨rfl, hrun⟩

/-- Tile t with the update of stamp c of world w begun and taken up. -/
def State.updateTaken (s : State) (t w c : Nat) : State :=
  (s.modTile t (fun x => x.takeDue w c)).modTile t (fun y => { y with upd := [] })

/-- An update without due work moves the frontier at once. -/
theorem stampUpdate_moves {s : State} {t : Nat} (w c : Nat) (hidle : (s.tile t).idle = true) (hwheel : (s.tile t).wheel = [])
    (hintake : (s.tile t).intake = []) (hposts : (s.tile t).posts = []) :
    ((((s.beginUpdate t w c).nextRun t).tile t).world w).f = c + 1 ∧ (((s.beginUpdate t w c).nextRun t).tile t).run = none := by
  obtain ⟨hrun, hdue, hupd, -⟩ := idle_fields hidle
  have hbegin : s.beginUpdate t w c = s.modTile t (fun x => x.takeDue w c) := by
    unfold State.beginUpdate
    rw [hwheel]
    rfl
  have htake : (s.tile t).takeDue w c = { s.tile t with upd := [(w, c)], streaming := false } := by
    unfold Tile.takeDue
    rw [hwheel, hdue, hupd]
    simp [hwheel, hdue]
  have hnext : (s.beginUpdate t w c).nextRun t
      = (s.updateTaken t w c).finishUpdate t w c ((s.updateTaken t w c).groupLockstep t (w / 32)) := by
    rw [hbegin]
    unfold State.nextRun
    dsimp only
    rw [modTile_tile, htake]
    simp only [hrun, hdue, Option.isSome_none, Bool.false_eq_true, if_false, List.foldl_cons, List.foldl_nil]
    rfl
  have htaken : ((s.updateTaken t w c).tile t).intake = [] ∧ ((s.updateTaken t w c).tile t).posts = []
      ∧ ((s.updateTaken t w c).tile t).run = none := by
    unfold State.updateTaken
    rw [modTile_tile, modTile_tile, htake]
    exact ⟨hintake, hposts, hrun⟩
  obtain ⟨hin, hpo, hru⟩ := htaken
  obtain ⟨h1, h2⟩ := finishUpdate_moves w c ((s.updateTaken t w c).groupLockstep t (w / 32)) hin hpo
  rw [hnext]
  exact ⟨h1, h2.trans hru⟩

/-! ### Notices, age sweeps and grants (R30, R55, R134) -/

section Notice
variable {s : State} {t tau : Nat} {v : Volley} {r : List Volley} {f : Word} (hbox : tget [] t s.fab.inbox = v :: r)
  (hbody : v.body = .frontier tau f)
include hbox hbody

theorem execFrontier_heard (hactive : s.tileActive t = true) : ∃ u, execFrontier t s = .next u
    ∧ (u.tile t).upstream = (s.tile t).upstream.map (fun x =>
        if x.src = v.src && x.group = v.group then x.hear
          (fullTempo (((s.tile t).residentLanes v.group).foldl (fun a l => max a (s.world (v.group * 32 + l)).t) 0) tau) f
        else x) := by
  unfold execFrontier
  dsimp only
  rw [takeInbox_pop hbox (by rw [hbody])]
  simp only [hbody, hactive, Bool.not_true, Bool.false_eq_true, if_false]
  refine ⟨_, rfl, ?_⟩
  refine (congrArg Tile.upstream ((groupReports_reportCore _ t v.group).at_ t) :).trans ?_
  rw [modTile_tile]
  rfl

theorem execFrontier_unheard (hactive : s.tileActive t = false) : execFrontier t s = .next (s.popInbox t r) := by
  unfold execFrontier
  dsimp only
  rw [takeInbox_pop hbox (by rw [hbody])]
  simp only [hbody, hactive, Bool.not_false, if_true]

end Notice

theorem sweep_none {s : State} {t w : Nat} (n : Nat) (hrec : (s.tile t).recordsOf w = []) (hgrp : (s.tile t).grpIndex (w / 32) = none) :
    s.sweep t w n = s.fromRoot (stackOf t) 38 (.sweepAck t w n) := by
  have hrecords : s.sweepRecords t w n = s := by
    unfold State.sweepRecords
    dsimp only
    rw [hrec]
    rfl
  have htimes : s.sweepTimes t w n = s := by
    unfold State.sweepTimes
    dsimp only
    rw [hgrp]
  unfold State.sweep
  rw [hrecords, htimes]

/-- The routers after a message from a stack's root depend on the hub, the boot log and the routers alone. -/
theorem fromRoot_routers {s u : State} (hhub : u.hub = s.hub) (hrouters : u.fab.routers = s.fab.routers)
    (hboot : u.boot = s.boot) (st x : Nat) (c : Ctl) : (u.fromRoot st x c).fab.routers = (s.fromRoot st x c).fab.routers := by
  have hcount : ∀ (z : State) (v : Volley), (z.countSent st v).fab.routers = z.fab.routers := by
    intro z v
    unfold State.countSent
    split <;> rfl
  unfold State.fromRoot State.enqueue State.mkVolley State.phys State.colDefects State.coord
  dsimp only
  rw [hcount, hcount, hrouters, hhub, hboot]

section Drafts
variable {s : State} {t w n : Nat} {q : List Mail} (hruns : s.tileRuns t = true)
include hruns

theorem execAge_swept (hmail : s.fab.mail = { dst := t, body := .ctl (.age w n) } :: q)
    (hready : s.groupLockstep t (w / 32) = false ∨ schOp (s.slotEntry t) = 6) :
    execAge t s = .next (((s.popMail q).wakeTile t 3 w).sweep t w n) := by
  unfold execAge
  rw [takeMail_pop hmail (toTile_self t (by
    simp only [State.ageReady, Bool.or_eq_true, Bool.not_eq_true', decide_eq_true_eq]; exact hready))]
  dsimp only
  exact if_pos hruns

theorem execTempoGrant_taken (hmail : s.fab.mail = { dst := t, body := .ctl (.tempoGrant w n) } :: q) :
    execTempoGrant t s = .next ((((s.popMail q).wakeTile t 3 w).modTile t (fun x => x.modWorld w (fun y =>
      { y with t := n }))).settle t) := by
  unfold execTempoGrant
  rw [takeMail_pop hmail (toTile_self t rfl)]
  dsimp only
  exact if_pos hruns

end Drafts

/-- Settles O40: what a tile takes by each kind of arrival, with an engine at rest and nothing else waiting. -/
theorem tilesTakeEventsAndMessages : Obligations.TilesTakeEventsAndMessages := by
  unfold Obligations.TilesTakeEventsAndMessages
  intro s t w n tau v r q e f ws m
  refine ⟨fun hbox hbody => ⟨fun hactive => ?_, fun hactive hvc hws hidle hintake => ⟨fun hst hfree => ?_, fun hst => ?_, fun hst => ?_⟩⟩,
    fun hfind hruns => ⟨?_, fun hone hsegs hrow => ?_⟩, fun hmay => ⟨if_pos hmay, fun hwheel hintake hposts => ?_⟩,
    fun hbox hbody => ⟨fun hactive => ?_, fun hactive => ?_⟩, fun hmail hruns hready hrec hgrp => ?_,
    fun hmail hruns hidle hintake => ?_⟩
  · exact execEvents_lost hbox hbody hactive
  · refine ⟨_, execEvents_single hbox hbody hactive hvc hws, ?_⟩
    have htile := eventsSeen_tile s t v r t
    rw [intakeEvent_parked hvc (by rw [eventsSeen_world]; exact hst) (by rw [htile]; exact hfree) (by rw [htile]; exact hidle)
      (by rw [htile]; exact hintake), htile]
    rfl
  · refine ⟨_, execEvents_single hbox hbody hactive hvc hws, ?_⟩
    have htile := eventsSeen_tile s t v r t
    obtain ⟨h1, h2⟩ := intakeEvent_refused (intakeEvent_standby (s := s.eventsSeen t v r) (t := t) (v := v) (e := e)
      (by rw [eventsSeen_world]; exact hst)) (by rw [htile]; exact hidle) (by rw [htile]; exact hintake)
    rw [eventsSeen_queue, eventsSeen_coord] at h2
    exact ⟨h1, h2⟩
  · refine ⟨_, execEvents_single hbox hbody hactive hvc hws, ?_⟩
    have htile := eventsSeen_tile s t v r t
    obtain ⟨h1, h2⟩ := intakeEvent_refused (intakeEvent_free (s := s.eventsSeen t v r) (t := t) (v := v) (e := e)
      (by rw [eventsSeen_world]; exact hst)) (by rw [htile]; exact hidle) (by rw [htile]; exact hintake)
    rw [eventsSeen_queue, eventsSeen_coord] at h2
    exact ⟨h1, h2⟩
  · change execMergeDispatch t s = _
    unfold execMergeDispatch
    rw [hfind]
    exact if_pos hruns
  · refine ⟨s.dispatch t m, ?_, ?_⟩
    · change execMergeDispatch t s = _
      unfold execMergeDispatch
      rw [hfind]
      exact if_pos hruns
    · rw [dispatch_single hone]
      exact dispatchOne_noSegs hone hsegs hrow
  · have hidle : (s.tile t).idle = true := by
      unfold State.mayUpdate at hmay
      simp only [Bool.and_eq_true] at hmay
      tauto
    exact ⟨_, if_pos hmay, stampUpdate_moves w _ hidle hwheel hintake hposts⟩
  · exact execFrontier_heard hbox hbody hactive
  · exact ⟨_, execFrontier_unheard hbox hbody hactive, rfl⟩
  · refine ⟨_, execAge_swept hruns hmail hready, ?_⟩
    have htile : ((s.popMail q).wakeTile t 3 w).tile t = s.tile t := wakeTile_ok.tile_eq rfl t
    rw [sweep_none n (by rw [htile]; exact hrec) (by rw [htile]; exact hgrp)]
    refine ⟨(fromRoot_ok.mail_eq rfl).trans (wakeTile_ok.mail_eq rfl),
      (fromRoot_ok.tiles_eq rfl).trans (wakeTile_ok.tiles_eq rfl), ?_⟩
    exact fromRoot_routers (s := s) (u := (s.popMail q).wakeTile t 3 w) (wakeTile_ok.hub_eq (by decide)) (wakeTile_ok.routers_eq rfl) (wakeTile_ok.boot_eq (by decide)) _ _ _
  · refine ⟨_, execTempoGrant_taken hruns hmail, ?_⟩
    have htile : ((s.popMail q).wakeTile t 3 w).tile t = s.tile t := wakeTile_ok.tile_eq rfl t
    rw [settle_rests (feed_empty (by rw [modTile_tile, htile]; exact hintake)) (by rw [modTile_tile, htile]; exact hidle),
      modTile_tile, modTile_tile, htile]
    exact ⟨(tileWorld_mod (s.tile t) w w (fun y => { y with t := tau })).trans (if_pos rfl), wakeTile_ok.mail_eq rfl⟩

end Sys2Proof.Machine
end

section
/-! PROOF. Bank background work, linger, echoes and pacing (R69, R70, R132, R138, R139). -/

namespace Sys2Proof.Machine

open Sys2Proof

/-! ### Refresh and scrub (R69, R70) -/

/-- A forced refresh or scrub changes no more of the tile than its worlds' marks. -/
theorem nondetAll_tile (s : State) (t : Nat) : ∃ ws, (s.nondetAll t).tile t = { s.tile t with worlds := ws } := by
  unfold State.nondetAll
  generalize s.tmp.worlds.filter _ = l
  induction l generalizing s with
  | nil => exact ⟨_, rfl⟩
  | cons e r ih =>
    obtain ⟨ws, h⟩ := ih (s.nondetAt t e.1 ((s.tile t).world e.1).f)
    refine ⟨ws, h.trans ?_⟩
    unfold State.nondetAt
    rw [modTile_tile]
    rfl

theorem execRefreshDue_granted {s : State} {t bank : Nat} (hidle : (s.tile t).streaming = false) (hquiet : s.outsideQuiet t = false) :
    execRefreshDue t bank s = .next (s.modTile t (fun x => { x with postponed := tset bank 0 x.postponed })) := by
  unfold execRefreshDue
  dsimp only
  rw [hidle, hquiet]
  rfl

/-- Tile t once it has postponed a refresh: its count of postponed intervals becomes k. -/
def State.refreshPut (s : State) (t bank k : Nat) : State :=
  (s.modTile t (fun x => { x with refPostponed := sat 28 x.refPostponed 1 })).modTile t (fun x =>
    { x with postponed := tset bank k x.postponed })

theorem refreshPut_tile (s : State) (t bank k : Nat) : (s.refreshPut t bank k).tile t
    = { s.tile t with refPostponed := sat 28 (s.tile t).refPostponed 1, postponed := tset bank k (s.tile t).postponed } := by
  unfold State.refreshPut
  rw [modTile_tile, modTile_tile]

section Postponed
variable {s : State} {t bank : Nat} (hbusy : (s.tile t).streaming = true ∨ s.outsideQuiet t = true)
include hbusy

theorem refresh_notGranted : ¬((!(s.tile t).streaming && !s.outsideQuiet t) = true) := by
  rcases hbusy with h | h <;> simp [h]

theorem execRefreshDue_postponed (hroom : tget 0 bank (s.tile t).postponed < 7) :
    execRefreshDue t bank s = .next (s.refreshPut t bank (tget 0 bank (s.tile t).postponed + 1)) := by
  unfold execRefreshDue
  dsimp only
  rw [if_neg (refresh_notGranted hbusy), if_pos (by omega)]
  rfl

theorem execRefreshDue_forced (hfull : 7 ≤ tget 0 bank (s.tile t).postponed) :
    execRefreshDue t bank s = if s.outsideQuiet t
      then .next (((s.refreshPut t bank 7).modTile t (fun x => { x with refForced := sat 32 x.refForced 1 })).nondetAll t)
      else .next (s.refreshPut t bank 7) := by
  unfold execRefreshDue
  dsimp only
  rw [if_neg (refresh_notGranted hbusy), if_neg (by omega)]
  rfl

end Postponed

theorem scrub_tile (s : State) (t bank : Nat) : ∃ x : Tile, (s.scrub t bank).tile t
    = { x with scrubPage := tset bank ((tget 0 bank (s.tile t).scrubPage + 1) % 4096) x.scrubPage } :=
  ⟨_, modTile_tile ..⟩

theorem scrub_page (s : State) (t bank : Nat) :
    tget 0 bank ((s.scrub t bank).tile t).scrubPage = (tget 0 bank (s.tile t).scrubPage + 1) % 4096 := by
  obtain ⟨x, hx⟩ := scrub_tile s t bank
  rw [hx]
  exact tget_tset_same ..

/-! ### Linger (R132) -/

theorem execLingerExpiry_closes {s : State} {t : Nat} {o : OpenVolley} (h : (s.tile t).openVols.find? (fun o => !s.lockstep o.cls) = some o) :
    ∃ u, execLingerExpiry t s = .next u ∧ o ∉ (u.tile t).openVols
      ∧ ∀ p ∈ (u.tile t).openVols, p ∈ (s.tile t).openVols := by
  have hleft : ∀ p ∈ (((s.modTile t (fun x => { x with openVols := x.openVols.filter (fun p => p ≠ o) })).sendOpen t o).tile
      t).openVols, p ∈ (s.tile t).openVols.filter (fun p => p ≠ o) := by
    intro p hp
    have hmem := (sendOpen_openLess _ t o).at_ t p hp
    rw [modTile_tile] at hmem
    exact hmem
  unfold execLingerExpiry
  rw [h]
  refine ⟨_, rfl, fun ho => ?_, fun p hp => (List.mem_filter.mp (hleft p hp)).1⟩
  simpa using (List.mem_filter.mp (hleft o ho)).2

/-! ### Pacing (R138, R139) -/

theorem modPace_pace (s : State) (k : Nat) (f : Pace → Pace) : (s.modPace k f).pace k = f (s.pace k) := by
  unfold State.modPace State.pace
  split
  · rw [modTile_tile]
  · exact tget_tmod_same ..

theorem modPace_tile {s : State} {k : Nat} (f : Pace → Pace) (h : k < 2048) :
    (s.modPace k f).tile k = { s.tile k with pace := f (s.tile k).pace } := by
  unfold State.modPace
  rw [if_pos h, modTile_tile]

theorem pace_tile {s : State} {k : Nat} (h : k < 2048) : s.pace k = (s.tile k).pace := if_pos h

section Echo
variable {s : State} {ep n : Nat} {v : Volley} {r : List Volley} (hbox : tget [] ep s.fab.inbox = v :: r) (hbody : v.body = .echo n)
include hbox hbody

theorem execEcho_heard : ∃ u, execEcho ep s = .next u ∧ u.pace ep = (s.pace ep).echo n
    ∧ (ep < 2048 → (u.tile ep).hwEchoes = sat 16 (s.tile ep).hwEchoes 1) := by
  have hpace : ((s.popInbox ep r).modPace ep (fun p => p.echo n)).pace ep = (s.pace ep).echo n := modPace_pace ..
  unfold execEcho
  dsimp only
  rw [takeInbox_pop hbox (by rw [hbody])]
  simp only [hbody]
  by_cases hep : ep < 2048
  · refine ⟨_, if_pos hep, ?_, fun _ => ?_⟩
    · rw [pace_tile hep, modTile_tile]
      rw [pace_tile hep] at hpace
      exact hpace
    · rw [modTile_tile, modPace_tile _ hep]
      rfl
  · exact ⟨_, if_neg hep, hpace, fun h => absurd h hep⟩

end Echo

theorem echo_held {p : Pace} {n : Nat} (h : n = 0 ∨ p.recent = true) : p.echo n = { p with lastEcho := some p.clock } := by
  unfold Pace.echo
  exact if_pos (by simpa using h)

theorem echo_cuts {p : Pace} {n : Nat} (hn : n ≠ 0) (hrecent : p.recent = false) :
    p.echo n = { p with lastEcho := some p.clock, r := max (7 * p.r / 8) 3, lastDec := some p.clock } := by
  unfold Pace.echo
  exact if_neg (by simp [hn, hrecent])

theorem echo_kept (p : Pace) (n : Nat) : (p.echo n).lastEcho = some p.clock ∧ (p.echo n).bucket = p.bucket := by
  unfold Pace.echo
  dsimp only
  split <;> exact ⟨rfl, rfl⟩

/-! ### Sending an echo (R138) -/

/-- A volley that is not on VC0 is counted by no destination. -/
theorem send_marked {s : State} {k : Nat} {v : Volley} (hvc : v.vc ≠ 0) : (s.send k v).fab.marked = s.fab.marked := by
  have hdeliver : ∀ (u : State) (j : Nat), (u.deliver j v).fab.marked = u.fab.marked := by
    intro u j
    have hcount : ∀ z : State, z.countMark j v = z := fun z => by
      unfold State.countMark
      exact if_neg (by simp [hvc])
    unfold State.deliver
    dsimp only
    rw [hcount]
    have hwake : (if 2048 ≤ j then u.wakeDom (hubDom j) v.wakeKind.1 v.wakeKind.2 else u).fab.marked = u.fab.marked := by
      split
      · exact wakeDom_ok.marked_eq rfl
      · rfl
    split <;> exact hwake
  have hcountRecv : ∀ (u : State), (u.countRecv 16 v).fab.marked = u.fab.marked := fun u => countRecv_ok.marked_eq rfl
  have htoHub : ∀ u : State, (u.toHub v).fab.marked = u.fab.marked := by
    intro u
    unfold State.toHub
    split
    · rw [hdeliver, hcountRecv]
    · split
      · split
        · exact (spanSend_ok.marked_eq rfl).trans (hcountRecv u)
        · exact (loseEvents_ok.marked_eq rfl).trans (hcountRecv u)
      · exact (loseEvents_ok.marked_eq rfl).trans (hcountRecv u)
  have hcountSent : ∀ st, (s.countSent st v).fab.marked = s.fab.marked := fun st => countSent_ok.marked_eq rfl
  unfold State.send
  split
  · exact loseEvents_ok.marked_eq rfl
  · unfold State.paced
    rw [if_pos hvc]
    unfold State.inject
    split
    · dsimp only
      split
      · exact hcountSent _
      · exact hcountSent _
    · dsimp only
      split
      · exact (wakeDom_ok.marked_eq rfl).trans (hcountSent _)
      · rw [htoHub, hcountSent]

/-- A volley off VC0 that a tile sends enters its router at once. -/
theorem send_routers {s : State} {k : Nat} {v : Volley} (hvc : v.vc ≠ 0) (hk : k < 2048) (hreach : s.unreach v.dst = none) :
    (s.send k v).fab.routers = (s.enqueue (s.phys k).1 (s.phys k).2 4 v).fab.routers := by
  have hcountSent : (s.countSent (stackOf k) v).fab.routers = s.fab.routers := countSent_ok.routers_eq rfl
  unfold State.send
  rw [hreach]
  dsimp only
  unfold State.paced
  rw [if_pos hvc]
  unfold State.inject
  rw [if_pos hk]
  have hqueued : ((s.countSent (stackOf k) v).enqueue (s.phys k).1 (s.phys k).2 4 v).fab.routers
      = (s.enqueue (s.phys k).1 (s.phys k).2 4 v).fab.routers := by
    unfold State.enqueue
    dsimp only
    rw [hcountSent]
  dsimp only
  split
  · exact hqueued
  · exact hqueued

/-! ### Tokens (R139) -/

theorem drainPace_none {s : State} {k : Nat} (h : (s.pace k).waiting = []) (n : Nat) : s.drainPace k n = s := by
  cases n with
  | zero => rfl
  | succ n =>
    unfold State.drainPace
    dsimp only
    rw [h]

theorem inject_pace {s : State} {k : Nat} (hk : 2048 ≤ k) (v : Volley) : (s.inject k v).pace k = s.pace k := by
  unfold State.pace
  rw [if_neg (Nat.not_lt.mpr hk), if_neg (Nat.not_lt.mpr hk), inject_ok.hubPace_eq rfl]

theorem execTokenBucketRefill_hub {s : State} {k : Nat} (hc : Nat) (hk : 2048 ≤ k) (hep : epX k ≠ 34) :
    execTokenBucketRefill k hc s = .next ((s.modPace k (fun p => p.refill hc)).drainPace k (s.pace k).waiting.length) := by
  unfold execTokenBucketRefill
  dsimp only
  rw [if_neg (Nat.not_lt.mpr hk), if_neg hep, modPace_pace]
  rfl

theorem execTokenBucketRefill_tile {s : State} {t : Nat} (hc : Nat) (ht : t < 2048) (hwait : (s.pace t).waiting = [])
    (hidle : (s.tile t).idle = true) : ∃ u, execTokenBucketRefill t hc s = .next u
      ∧ (u.tile t).pace = (s.tile t).pace.refill hc := by
  obtain ⟨hrun, hdue, hupd, hstalled⟩ := idle_fields hidle
  have htile := modPace_tile (s := s) (fun p => p.refill hc) ht
  unfold execTokenBucketRefill
  dsimp only
  rw [if_pos ht, drainPace_none (by rw [modPace_pace]; exact hwait), htile, hstalled]
  refine ⟨_, rfl, ?_⟩
  change (((s.modPace t (fun p => p.refill hc)).nextRun t).tile t).pace = _
  rw [nextRun_idle (by rw [htile]; exact hrun) (by rw [htile]; exact hdue) (by rw [htile]; exact hupd), modTile_tile, htile]

theorem drainPace_single {s : State} {k : Nat} {v : Volley} (hk : 2048 ≤ k) (hwait : (s.pace k).waiting = [v])
    (hroom : v.flits * 4096 ≤ (s.pace k).bucket) :
    (s.drainPace k 1).pace k = { s.pace k with bucket := (s.pace k).bucket - v.flits * 4096, waiting := [] } := by
  unfold State.drainPace
  dsimp only
  rw [hwait]
  dsimp only
  rw [if_pos hroom]
  change (State.inject _ k v).pace k = _
  rw [inject_pace hk, modPace_pace]

/-- Settles O41: each piece of background work and of pacing by what it leaves of the tile and of the endpoint's pace. -/
theorem banksAreServedAndSendersPaced : Obligations.BanksAreServedAndSendersPaced := by
  unfold Obligations.BanksAreServedAndSendersPaced
  intro s t bank n hc v r o
  refine ⟨fun hidle hquiet => ?_, fun hbusy => ⟨fun hroom => ?_, fun hfull => ?_⟩, ?_, fun hidle hquiet => ?_,
    execLingerExpiry_closes, fun hbox hbody => ?_, fun hmarked => ?_, ⟨_, rfl, modPace_pace ..⟩,
    fun hwait => ⟨fun ht hidle => execTokenBucketRefill_tile hc ht hwait hidle, fun hk hep => ?_⟩, fun hk hep hwait hroom => ?_⟩
  · refine ⟨_, execRefreshDue_granted hidle hquiet, ?_⟩
    rw [modTile_tile]
    exact ⟨tget_tset_same .., rfl⟩
  · refine ⟨_, execRefreshDue_postponed hbusy hroom, ?_⟩
    rw [refreshPut_tile]
    exact ⟨tget_tset_same .., rfl, rfl⟩
  · cases hout : s.outsideQuiet t with
    | true =>
      obtain ⟨ws, htile⟩ := nondetAll_tile
        ((s.refreshPut t bank 7).modTile t (fun x => { x with refForced := sat 32 x.refForced 1 })) t
      refine ⟨_, (execRefreshDue_forced hbusy hfull).trans (if_pos hout), ?_⟩
      rw [htile, modTile_tile, refreshPut_tile]
      exact ⟨tget_tset_same .., rfl, rfl⟩
    | false =>
      refine ⟨_, (execRefreshDue_forced hbusy hfull).trans (if_neg (by rw [hout]; exact Bool.false_ne_true)), ?_⟩
      rw [refreshPut_tile]
      exact ⟨tget_tset_same .., rfl, rfl⟩
  · have hpage := scrub_page s t bank
    cases hout : s.outsideQuiet t with
    | true =>
      obtain ⟨ws, htile⟩ := nondetAll_tile
        ((s.scrub t bank).modTile t (fun x => { x with scrubForced := sat 32 x.scrubForced 1 })) t
      refine ⟨_, if_pos hout, ?_⟩
      rw [htile, modTile_tile]
      generalize (s.scrub t bank).tile t = x at hpage ⊢
      exact ⟨hpage, (if_pos rfl).symm⟩
    | false => exact ⟨_, if_neg (by rw [hout]; exact Bool.false_ne_true), hpage, (if_neg Bool.false_ne_true).symm⟩
  · exact ⟨_, if_neg (by rw [hidle, hquiet]; exact Bool.false_ne_true), scrub_page s t bank⟩
  · obtain ⟨u, hu, hpace, hcount⟩ := execEcho_heard hbox hbody
    refine ⟨u, hu, ?_⟩
    rw [hpace]
    obtain ⟨h1, h2⟩ := echo_kept (s.pace t) n
    refine ⟨h1, h2, fun hheld => ?_, fun hn hrecent => ?_, hcount⟩
    · rw [echo_held hheld]
    · rw [echo_cuts hn hrecent]
      exact ⟨rfl, rfl⟩
  · refine ⟨_, if_neg hmarked, ?_, fun ht hreach => ?_⟩
    · rw [send_marked Nat.one_ne_zero]
      exact tget_tdel ..
    · exact send_routers Nat.one_ne_zero ht hreach
  · refine ⟨_, execTokenBucketRefill_hub hc hk hep, ?_⟩
    rw [hwait]
    exact modPace_pace ..
  · refine ⟨_, execTokenBucketRefill_hub hc hk hep, ?_⟩
    have hpace := modPace_pace s t (fun p => p.refill hc)
    rw [hwait]
    change ((State.drainPace _ t 1).pace t).waiting = [] ∧ ((State.drainPace _ t 1).pace t).bucket = _
    rw [drainPace_single hk (by rw [hpace]; exact hwait) (by rw [hpace]; exact hroom), hpace]
    exact ⟨rfl, rfl⟩

end Sys2Proof.Machine
end

section
/-! PROOF. Chain messages and consolidation points (R67, R68, R109, R111). -/

namespace Sys2Proof.Machine

open Sys2Proof

/-! ### Partial sums (R67, R68) -/

section Psum
variable {s : State} {t from_ q : Nat} {r : List Mail}

theorem execPsum_unheard {es : List (Nat × Nat × Nat × Int)}
    (hmail : s.fab.mail = { dst := t, body := .psum from_ q es } :: r) (hactive : s.tileActive t = false) :
    execPsum t s = .next (s.popMail r) := by
  unfold execPsum
  rw [takeMail_pop hmail (toTile_self t rfl)]
  dsimp only
  exact if_neg (by rw [hactive]; exact Bool.false_ne_true)

theorem execPsum_single {e : Nat × Nat × Nat × Int} (hmail : s.fab.mail = { dst := t, body := .psum from_ q [e] } :: r)
    (hactive : s.tileActive t = true) : execPsum t s = .next (((s.popMail r).psumEntry t from_ e).ackChain t from_ q) := by
  unfold execPsum
  rw [takeMail_pop hmail (toTile_self t rfl)]
  dsimp only
  rw [if_pos hactive, List.foldl_cons, List.foldl_nil]

end Psum

theorem psumEntry_homeless {s : State} {t : Nat} (from_ : Nat) {e : Nat × Nat × Nat × Int}
    (h : (s.tile t).blocks.find? (fun b => blkHasNeuron b e.1 && blkHasLane b e.2.1) = none) :
    s.psumEntry t from_ e = s.pushLoss { s.contribItem t e.2.1 0 e.1 0 e.2.2.1 e.2.2.2 .failedAccess with w := none } := by
  unfold State.psumEntry
  dsimp only
  rw [h]

/-- The wheel entry of a first contribution to (n, w) at a tempo. -/
def firstEntry (w n due : Nat) (sum : Int) : WheelEntry := { w := w, neuron := n, due := due, sum := sat24 sum, woken := false }

/-- A contribution that finds an empty wheel is its one entry. -/
theorem contribute_first {s : State} {t w n due : Nat} (row seg : Nat) (sum : Int) (lock : Bool) (src : Coord)
    (hblock : ((s.tile t).blockOf w n).isSome = true) (hdue : ((s.tile t).world w).f ≤ due) (hwheel : (s.tile t).wheel = []) :
    ((s.contribute t w row n seg due sum lock src).tile t).wheel = [firstEntry w n due sum]
      ∧ (s.contribute t w row n seg due sum lock src).fab.mail = s.fab.mail := by
  obtain ⟨x, hadd, hx⟩ : ∃ x, (s.tile t).wheelAdd w n due sum false = some x
      ∧ x.wheel = [firstEntry w n due sum] := by
    unfold Tile.wheelAdd
    rw [hwheel]
    exact ⟨_, rfl, rfl⟩
  have hnone : ((s.tile t).blockOf w n).isNone = false := by rw [← Option.not_isSome, hblock]; rfl
  unfold State.contribute
  dsimp only
  rw [hnone, if_neg Bool.false_ne_true, if_neg (Nat.not_lt.mpr hdue), hadd]
  dsimp only
  rw [modTile_tile]
  exact ⟨hx, rfl⟩

theorem psumEntry_joins {s : State} {t : Nat} (from_ : Nat) {e : Nat × Nat × Nat × Int} {b : Block}
    (hfind : (s.tile t).blocks.find? (fun b => blkHasNeuron b e.1 && blkHasLane b e.2.1) = some b)
    (hblock : ((s.tile t).blockOf (blkGroup b * 32 + e.2.1) e.1).isSome = true) (hwheel : (s.tile t).wheel = [])
    (hdue : ((s.tile t).world (blkGroup b * 32 + e.2.1)).f ≤ fullTempo ((s.tile t).world (blkGroup b * 32 + e.2.1)).f e.2.2.1) :
    ((s.psumEntry t from_ e).tile t).wheel = [firstEntry (blkGroup b * 32 + e.2.1) e.1
        (fullTempo ((s.tile t).world (blkGroup b * 32 + e.2.1)).f e.2.2.1) e.2.2.2]
      ∧ (s.psumEntry t from_ e).fab.mail = s.fab.mail := by
  unfold State.psumEntry
  dsimp only
  rw [hfind]
  exact contribute_first 0 0 e.2.2.2 _ _ hblock hdue hwheel

/-! ### A point without segments and without members (R109, R111) -/

theorem filter_other {α : Type} (d : α) (t : Nat) (f : α → α) (p : Nat × α → Bool) (l : Tab α) :
    ((tmod d t f l).filter (fun e => decide (e.1 ≠ t) && p e)) = l.filter (fun e => decide (e.1 ≠ t) && p e) := by
  have hset : ∀ v : α, ∀ l : Tab α, (tset t v l).filter (fun e => decide (e.1 ≠ t) && p e)
      = l.filter (fun e => decide (e.1 ≠ t) && p e) := by
    intro v l
    induction l with
    | nil => simp [tset]
    | cons e r ih =>
      obtain ⟨k, x⟩ := e
      unfold tset
      split
      · simp
      · split
        · next h => simp [h]
        · rw [List.filter_cons, List.filter_cons, ih]
  exact hset _ l

theorem membersOf_mod (s : State) (t : Nat) (f : Tile → Tile) : (s.modTile t f).membersOf t = s.membersOf t := by
  unfold State.membersOf
  simp only [Bool.and_assoc]
  exact congrArg (List.map (·.1)) (filter_other {} t f _ s.tiles)

/-- The point is done at a tile with an engine at rest and nothing in intake. -/
theorem pointDone_rests {u : State} {t n : Nat} (hpoint : (u.tile t).lrnPoint = n) (hidle : (u.tile t).idle = true)
    (hintake : (u.tile t).intake = []) :
    ((u.pointDone t).tile t).lrnPoint = n + 1 ∧ ((u.pointDone t).tile t).lrnBusy = none := by
  have htile : (u.pointAdds t).tile t = u.tile t := pointAdds_ok.tile_eq rfl t
  unfold State.pointDone
  rw [settle_rests (feed_empty (by rw [modTile_tile, htile]; exact hintake)) (by rw [modTile_tile, htile]; exact hidle),
    modTile_tile, modTile_tile, htile]
  exact ⟨congrArg (· + 1) hpoint, rfl⟩

theorem groups_foldl (n : Nat) (l : List Nat) (u : State) :
    (l.foldl (fun s g => { s with tmp.groups := tmod {} g (fun x => { x with points := n % 2 ^ 16 }) s.tmp.groups }) u).tiles
      = u.tiles := by
  induction l generalizing u with
  | nil => rfl
  | cons g r ih => rw [List.foldl_cons, ih]

section Point
variable {s : State} {t : Nat} (hrows : (s.tile t).rowdir = [])
include hrows

theorem plasticUnits_none : s.plasticUnits t = [] := by
  unfold State.plasticUnits
  rw [hrows]
  rfl

theorem pooledUnits_none : s.pooledUnits t = [] := by
  unfold State.pooledUnits
  rw [plasticUnits_none hrows]
  rfl

variable (hmembers : s.membersOf t = []) (hidle : (s.tile t).idle = true) (hintake : (s.tile t).intake = [])
include hmembers hidle hintake

theorem homeFinish_alone (n : Nat) : ((s.homeFinish t n).tile t).lrnPoint = (s.tile t).lrnPoint + 1
    ∧ ((s.homeFinish t n).tile t).lrnBusy = none := by
  unfold State.homeFinish
  dsimp only
  simp only [hmembers, List.filter_nil, List.foldl_nil, pooledUnits_none hrows]
  generalize hgroups : List.foldl _ _ _ = z
  have htile : z.tile t = s.tile t := by
    rw [← hgroups]
    unfold State.tile
    rw [groups_foldl, pointRecord_ok.tiles_eq rfl]
  exact pointDone_rests (by rw [htile]) (by rw [htile]; exact hidle) (by rw [htile]; exact hintake)

theorem beginPoint_alone (hhome : (s.tile t).homeOf t = t) : ((s.beginPoint t).tile t).lrnPoint = (s.tile t).lrnPoint + 1
    ∧ ((s.beginPoint t).tile t).lrnBusy = none := by
  have hfold : s.foldAll t = s := by
    unfold State.foldAll
    rw [plasticUnits_none hrows]
    rfl
  generalize hu : s.modTile t (fun x => { x with lrnBusy := some ((s.tile t).lrnPoint + 1) }) = u
  have htile : u.tile t = { s.tile t with lrnBusy := some ((s.tile t).lrnPoint + 1) } := by rw [← hu, modTile_tile]
  have hrows1 : (u.tile t).rowdir = [] := by rw [htile]; exact hrows
  have hmembers1 : u.membersOf t = [] := by rw [← hu, membersOf_mod, hmembers]
  have hprivate : s.privateUnits t = [] := by
    unfold State.privateUnits
    rw [plasticUnits_none hrows]
    rfl
  have hready : u.homeReady t = true := by
    unfold State.homeReady
    rw [hmembers1]
    rfl
  have hbegin : s.beginPoint t = u.homeFinish t ((s.tile t).lrnPoint + 1) := by
    unfold State.beginPoint
    dsimp only
    rw [hfold, hu, hprivate, List.foldl_nil, if_pos hhome]
    unfold State.homeTry
    rw [htile]
    dsimp only
    refine if_pos ?_
    rw [hready, decide_eq_true (show ({ s.tile t with lrnBusy := some ((s.tile t).lrnPoint + 1) } : Tile).homeOf t = t from hhome)]
    rfl
  have h := homeFinish_alone hrows1 hmembers1 (by rw [htile]; exact hidle) (by rw [htile]; exact hintake) ((s.tile t).lrnPoint + 1)
  rw [htile] at h
  rw [hbegin]
  exact h

end Point

section Due
variable {s : State} {t : Nat} (hsched : s.scheduled t = false) (hbusy : (s.tile t).lrnBusy = none)
  (hruns : s.tileRuns t = true)
include hsched hbusy hruns

theorem execConsolidationPoint_early (hpoint : s.atPoint t = false) : execConsolidationPoint t s = .next s := by
  unfold execConsolidationPoint State.point
  rw [hsched, hruns, hbusy, hpoint]
  rfl

theorem execConsolidationPoint_begins (hpoint : s.atPoint t = true) (hidle : (s.tile t).idle = true) :
    execConsolidationPoint t s = .next ((s.learnWake t).beginPoint t) := by
  unfold execConsolidationPoint State.point
  rw [hsched, hruns, hbusy, hpoint, hidle]
  rfl

end Due

/-! ### Replica sets (R111) -/

theorem homeTry_free {s : State} {t : Nat} (h : (s.tile t).lrnBusy = none) : s.homeTry t = s := by
  unfold State.homeTry
  rw [h]

theorem memberTry_free {s : State} {t : Nat} (h : (s.tile t).lrnBusy = none) : s.memberTry t = s := by
  unfold State.memberTry
  dsimp only
  rw [h]
  rfl

theorem ackChain_tile (s : State) (t from_ q j : Nat) : (s.ackChain t from_ q).tile j = s.tile j := rfl

/-- Rewriting the words of a segment moves no segment: the unit may be looked up anew for each word. -/
theorem rewriteWords_lookup (t seg row : Nat) (value : Nat → Nat) (l : List Nat) (s : State) :
    l.foldl (fun u j => u.rewriteWord t row 0 ((s.tile t).segUnit seg) j (value j)) s
      = l.foldl (fun u j => u.rewriteWord t row 0 ((u.tile t).segUnit seg) j (value j)) s := by
  suffices h : ∀ u : State, u.tile t = s.tile t →
      l.foldl (fun u j => u.rewriteWord t row 0 ((s.tile t).segUnit seg) j (value j)) u
        = l.foldl (fun u j => u.rewriteWord t row 0 ((u.tile t).segUnit seg) j (value j)) u from h s rfl
  induction l with
  | nil =>
    intro u _
    rw [List.foldl_nil, List.foldl_nil]
  | cons j r ih =>
    intro u hu
    rw [List.foldl_cons, List.foldl_cons, hu]
    exact ih _ ((rewriteWord_ok.tile_eq rfl t).trans hu)

section Replica
variable {s : State} {t from_ q seg : Nat} {r : List Mail} (hactive : s.tileActive t = true) (hbusy : (s.tile t).lrnBusy = none)
include hactive hbusy

theorem execLacc_taken {ws : List Word} (hmail : s.fab.mail = { dst := t, body := .lacc from_ q seg ws } :: r) :
    execLacc t s = .next (((s.popMail r).modTile t (fun x => { x with laccIn := x.laccIn ++ [(seg, from_, ws)] })).ackChain
      t from_ q) := by
  unfold execLacc
  rw [takeMail_pop hmail (toTile_self t rfl)]
  dsimp only
  rw [if_pos hactive, homeTry_free]
  rw [ackChain_tile, modTile_tile]
  exact hbusy

theorem execRrow_taken {rows : List (BitVec 16)} (hmail : s.fab.mail = { dst := t, body := .rrow from_ q seg rows } :: r) :
    ∃ u, execRrow t s = .next u ∧ (u.tile t).lrnRows = seg :: (s.tile t).lrnRows
      ∧ u.fab.mail = r ++ [{ dst := from_, body := .chainAck t q }]
      ∧ u.mem = ((List.range rows.length).foldl (fun (s : State) j =>
        s.rewriteWord t (seg / 2048) 0 ((s.tile t).segUnit seg) j (rows.getD j 0).toNat) (s.popMail r)).mem := by
  rw [← rewriteWords_lookup t seg (seg / 2048) (fun j => (rows.getD j 0).toNat)]
  generalize hz : (List.range rows.length).foldl (fun (u : State) j => u.rewriteWord t (seg / 2048) 0
    (((s.popMail r).tile t).segUnit seg) j (rows.getD j 0).toNat) (s.popMail r) = z
  have hz_ok : OnlyM 0x4 (s.popMail r) z := hz ▸ onlyM_foldl (fun _ _ => rewriteWord_ok) (OnlyM.refl _ _)
  have htile : z.tile t = s.tile t := hz_ok.tile_eq rfl t
  have hmail1 : z.fab.mail = r := hz_ok.mail_eq rfl
  unfold execRrow
  rw [takeMail_pop hmail (toTile_self t rfl)]
  dsimp only
  rw [if_pos hactive, hz, memberTry_free (by rw [ackChain_tile, modTile_tile, htile]; exact hbusy)]
  refine ⟨_, rfl, ?_, ?_, rfl⟩
  · rw [ackChain_tile, modTile_tile, htile]
  · change z.fab.mail ++ _ = _
    rw [hmail1]

end Replica

/-- Settles O42: each message by what it leaves of the tile and of the mail; a point without segments or members is begun and
done at once. -/
theorem chainsAndPointsRun : Obligations.ChainsAndPointsRun := by
  unfold Obligations.ChainsAndPointsRun
  intro s t from_ q seg e es b r ws rows
  refine ⟨fun hmail => ⟨fun hactive => ⟨_, execPsum_unheard hmail hactive, rfl, rfl⟩, fun hactive hes => ?_⟩, fun hmail => ?_,
    fun hsched hbusy hruns => ⟨execConsolidationPoint_early hsched hbusy hruns,
      fun hpoint hidle hrows hhome hmembers hintake => ?_⟩, fun hmail hactive hbusy => ?_,
    fun hmail hactive hbusy => execRrow_taken hactive hbusy hmail⟩
  · subst hes
    have hexec := execPsum_single hmail hactive
    refine ⟨fun hfind => ⟨_, hexec, ?_⟩, fun hfind hblock hwheel hdue => ⟨_, hexec, ?_⟩⟩
    · rw [psumEntry_homeless (s := s.popMail r) from_ hfind]
      exact ⟨rfl, rfl, rfl⟩
    · obtain ⟨h1, h2⟩ := psumEntry_joins (s := s.popMail r) from_ hfind hblock hwheel hdue
      exact ⟨congrArg (fun m : List Mail => m ++ [{ dst := from_, body := .chainAck t q }]) h2, h1⟩
  · refine ⟨(s.popMail r).modTile t (fun x =>
      { x with chainOut := x.chainOut.filter (fun e => !(e.2.1 = from_ && (q + 2 ^ 32 - e.1) % 2 ^ 32 < 2 ^ 31)) }), ?_, rfl, ?_⟩
    · change execChainAck t s = _
      unfold execChainAck
      rw [takeMail_pop hmail (toTile_self t rfl)]
    · rw [modTile_tile]
      rfl
  · have htile : (s.learnWake t).tile t = s.tile t := learnWake_ok.tile_eq rfl t
    have hmembers1 : (s.learnWake t).membersOf t = [] := by
      unfold State.membersOf
      rw [learnWake_ok.tiles_eq rfl, learnWake_ok.hub_eq (by decide)]
      exact hmembers
    have hdone := beginPoint_alone (s := s.learnWake t) (t := t) (by rw [htile]; exact hrows) hmembers1
      (by rw [htile]; exact hidle) (by rw [htile]; exact hintake) (by rw [htile]; exact hhome)
    rw [htile] at hdone
    exact ⟨_, execConsolidationPoint_begins hsched hbusy hruns hpoint hidle, hdone⟩
  · refine ⟨_, execLacc_taken hactive hbusy hmail, ?_, rfl⟩
    rw [ackChain_tile, modTile_tile]
    rfl

end Sys2Proof.Machine
end

section
/-! PROOF. Volleys at a router (R117, R119, R122, R125, R128, R137). -/

namespace Sys2Proof.Machine

open Sys2Proof

/-! ### Buffers (R118) -/

theorem buf_of_routers {s u : State} (h : u.fab.routers = s.fab.routers) (px py inp vc : Nat) :
    u.buf px py inp vc = s.buf px py inp vc := by
  unfold State.buf State.router
  rw [h]

theorem popBuf_buf (s : State) (px py inp vc : Nat) : (s.popBuf px py inp vc).buf px py inp vc = (s.buf px py inp vc).tail := by
  unfold State.buf State.router State.popBuf
  dsimp only
  rw [tget_tmod_same]
  exact tget_tmod_same ..

theorem popBuf_buf_other (s : State) {px py x y : Nat} (h : rtKey x y ≠ rtKey px py) (inp vc i c : Nat) :
    (s.popBuf px py inp vc).buf x y i c = s.buf x y i c := by
  unfold State.buf State.router State.popBuf
  dsimp only
  rw [tget_tmod_other _ h]

theorem turnAlt_buf (s : State) (px py out : Nat) (v : Volley) (x y i c : Nat) :
    (s.turnAlt px py out v).buf x y i c = s.buf x y i c := by
  unfold State.turnAlt
  split
  · rfl
  · unfold State.buf State.router
    dsimp only
    by_cases h : rtKey x y = rtKey px py
    · rw [h, tget_tmod_same]
    · rw [tget_tmod_other _ h]

theorem enqueue_buf (s : State) (x y i : Nat) (v : Volley) :
    (s.enqueue x y i v).buf x y i v.vc = s.buf x y i v.vc ++ [v] := by
  unfold State.buf State.router State.enqueue
  dsimp only
  rw [tget_tmod_same]
  exact tget_tmod_same [] (3 * i + v.vc) (fun l => l ++ [v]) _

theorem enqueue_buf_other (s : State) {px py x y : Nat} (h : rtKey px py ≠ rtKey x y) (i : Nat) (v : Volley) (inp vc : Nat) :
    (s.enqueue x y i v).buf px py inp vc = s.buf px py inp vc := by
  unfold State.buf State.router State.enqueue
  dsimp only
  rw [tget_tmod_other _ h]

/-- The router beyond an output is another one. -/
theorem beyond_other {s : State} {px py out x y i : Nat} (h : s.beyond px py out = some (x, y, i)) :
    rtKey x y ≠ rtKey px py := by
  unfold State.beyond at h
  unfold rtKey
  split_ifs at h <;> simp only [Option.some.injEq, Prod.mk.injEq] at h <;> omega

/-! ### A volley that is absorbed -/

theorem execRouteVolley_bad {s : State} {px py inp : Nat} {v : Volley} {q : List Volley} (hbuf : s.buf px py inp v.vc = v :: q)
    (hbad : v.valid = false) : ∃ u, execRouteVolley px py inp v.vc s = .next u ∧ u.buf px py inp v.vc = q
      ∧ u.flt.queue = s.flt.queue ++ [volleyItem v .failedUncorrectable
        (match s.logAt px py with
        | some t => s.coord t
        | none => s.hubReporter)] := by
  have hqueue : ((s.popBuf px py inp v.vc).countRecv (physStack px py) v).flt.queue = s.flt.queue := countRecv_ok.lossQueue_eq rfl
  unfold execRouteVolley
  simp only [hbuf, hbad, Bool.not_false, if_true]
  refine ⟨_, rfl, ?_, ?_⟩
  · have hbufs : ((s.popBuf px py inp v.vc).countRecv (physStack px py) v).buf px py inp v.vc = q := by
      rw [buf_of_routers (countRecv_ok.routers_eq rfl), popBuf_buf, hbuf]
      rfl
    exact hbufs
  · rw [← hqueue]
    rfl

/-! ### A volley that moves -/

section Moves
variable {s : State} {px py inp : Nat} {v : Volley} {q : List Volley} (hbuf : s.buf px py inp v.vc = v :: q)
include hbuf

theorem execRouteVolley_waits (hvalid : v.valid = true) (hlost : s.meetsLost px py v = false)
    (hwait : (s.canLeave px py v && s.granted px py v) = false) : execRouteVolley px py inp v.vc s = .next s := by
  unfold execRouteVolley
  simp only [hbuf, hvalid, hlost, hwait, Bool.not_true, Bool.false_eq_true, if_false]

theorem execRouteVolley_moves (hvalid : v.valid = true) (hlost : s.meetsLost px py v = false)
    (hgrant : (s.canLeave px py v && s.granted px py v) = true) :
    execRouteVolley px py inp v.vc s = .next (s.moveVolley px py inp (s.outOf px py v) v) := by
  unfold execRouteVolley
  simp only [hbuf, hvalid, hlost, hgrant, Bool.not_true, Bool.false_eq_true, if_false, if_true]

/-- The volley as it leaves the router, with Headwind where the router marks it (R137). -/
def State.leaving (s : State) (px py inp : Nat) (v : Volley) : Volley := { v with headwind := v.headwind || s.marksHere px py inp v }

/-- The state once the head of a buffer has been granted output `out`. -/
def State.grantTaken (s : State) (px py inp out : Nat) (v : Volley) : State :=
  ((s.popBuf px py inp v.vc).turnAlt px py out v).traceRoute px py out v (s.detour px py v).isSome (s.marksHere px py inp v)

theorem grantTaken_buf (out : Nat) : (s.grantTaken px py inp out v).buf px py inp v.vc = q := by
  unfold State.grantTaken
  rw [buf_of_routers (traceRoute_ok.routers_eq rfl), turnAlt_buf, popBuf_buf, hbuf]
  rfl

omit hbuf in
theorem grantTaken_buf_other (out : Nat) {x y : Nat} (h : rtKey x y ≠ rtKey px py) (i c : Nat) :
    (s.grantTaken px py inp out v).buf x y i c = s.buf x y i c := by
  unfold State.grantTaken
  rw [buf_of_routers (traceRoute_ok.routers_eq rfl), turnAlt_buf, popBuf_buf_other _ h]

omit hbuf in
theorem grantTaken_ok {out : Nat} : OnlyM 0x400010000000008 s (s.grantTaken px py inp out v) :=
  only_traceRoute (only_turnAlt (only_popBuf (OnlyM.refl _ s) rfl) rfl) rfl

/-- A volley granted an output of the mesh stands last in the next router's buffer. -/
theorem moveVolley_next {x y i : Nat} (hout : s.outOf px py v < 4) (hbeyond : s.beyond px py (s.outOf px py v) = some (x, y, i)) :
    (s.moveVolley px py inp (s.outOf px py v) v).buf px py inp v.vc = q
      ∧ (s.moveVolley px py inp (s.outOf px py v) v).buf x y i v.vc = s.buf x y i v.vc ++ [s.leaving px py inp v] := by
  have hother := beyond_other hbeyond
  have hbeyond1 : (s.grantTaken px py inp (s.outOf px py v) v).beyond px py (s.outOf px py v) = some (x, y, i) := by
    have hpkg : (s.grantTaken px py inp (s.outOf px py v) v).pkg = s.pkg := grantTaken_ok.pkg_eq rfl
    unfold State.beyond at hbeyond ⊢
    rw [hpkg]
    exact hbeyond
  have hmove : s.moveVolley px py inp (s.outOf px py v) v = ((s.grantTaken px py inp (s.outOf px py v) v).wakeDom
      (stackDom (physStack x y)) v.wakeKind.1 v.wakeKind.2).enqueue x y i (s.leaving px py inp v) := by
    unfold State.moveVolley
    dsimp only
    rw [if_neg (by omega), if_neg (by omega)]
    unfold State.grantTaken at hbeyond1
    rw [hbeyond1]
    rfl
  have hwake : ∀ (u : State) (d k j a b c e : Nat), (u.wakeDom d k j).buf a b c e = u.buf a b c e :=
    fun u d k j => buf_of_routers (wakeDom_ok.routers_eq rfl)
  rw [hmove]
  refine ⟨?_, ?_⟩
  · rw [enqueue_buf_other _ hother.symm, hwake, grantTaken_buf hbuf]
  · refine (enqueue_buf ..).trans ?_
    rw [hwake, grantTaken_buf_other _ hother]
    rfl

end Moves

/-! ### A volley that is delivered -/

theorem logAt_eq {s u : State} (hboot : u.boot = s.boot) (hpkg : u.pkg = s.pkg) (px py : Nat) : u.logAt px py = s.logAt px py := by
  unfold State.logAt State.colDefects State.stackPresent State.tilePresent State.populated
  rw [hboot, hpkg]

theorem deliver_tile {s : State} {t : Nat} (ht : t < 2048) (v : Volley) :
    tget [] t (s.deliver t v).fab.inbox = tget [] t s.fab.inbox ++ [v] ∧ (s.deliver t v).fab.routers = s.fab.routers := by
  have hinbox : (s.countMark t v).fab.inbox = s.fab.inbox := countMark_ok.inbox_eq rfl
  have hrouters : (s.countMark t v).fab.routers = s.fab.routers := countMark_ok.routers_eq rfl
  unfold State.deliver
  dsimp only
  have hhub : ¬2048 ≤ t := Nat.not_le.mpr ht
  simp only [if_neg hhub, decide_eq_false hhub, Bool.false_and, Bool.false_eq_true, if_false]
  refine ⟨?_, hrouters⟩
  rw [hinbox]
  exact tget_tmod_same [] t (fun l => l ++ [v]) _

/-- Events that reach the local port of an ACTIVE tile stand last in its inbox. -/
theorem localPort_tile {s : State} {px py t : Nat} {v : Volley} {ws : List Word} (hbody : v.body = .events ws)
    (hlog : s.logAt px py = some t) (hactive : s.tileActive t = true) (ht : t < 2048) :
    tget [] t (s.localPort px py v).fab.inbox = tget [] t s.fab.inbox ++ [v]
      ∧ (s.localPort px py v).fab.routers = s.fab.routers := by
  generalize hz : ((s.countRecv (physStack px py) v).oldRecvAt px py v).wakeTile t v.wakeKind.1 v.wakeKind.2 = z
  have hz_ok : OnlyM 0x8020408 s z := hz ▸ only_wakeTile (only_oldRecvAt (only_countRecv (OnlyM.refl _ s) rfl) rfl) rfl
  have hport : s.localPort px py v = z.deliver t v := by
    unfold State.localPort
    simp only [hbody, hlog, hactive, Bool.true_or, if_true, hz]
  obtain ⟨h1, h2⟩ := deliver_tile (s := z) ht v
  rw [hport, h1, h2, hz_ok.inbox_eq rfl, hz_ok.routers_eq rfl]
  exact ⟨rfl, rfl⟩

section Delivered
variable {s : State} {px py inp t : Nat} {v : Volley} {q : List Volley} {ws : List Word} (hbuf : s.buf px py inp v.vc = v :: q)
include hbuf

theorem moveVolley_local (hout : s.outOf px py v = 4) (hbody : v.body = .events ws) (hlog : s.logAt px py = some t)
    (hactive : s.tileActive t = true) (ht : t < 2048) :
    (s.moveVolley px py inp (s.outOf px py v) v).buf px py inp v.vc = q
      ∧ tget [] t (s.moveVolley px py inp (s.outOf px py v) v).fab.inbox
        = tget [] t s.fab.inbox ++ [s.leaving px py inp v] := by
  generalize hz : s.grantTaken px py inp 4 v = z
  have hz_ok : OnlyM 0x400010000000008 s z := hz ▸ grantTaken_ok
  have hmove : s.moveVolley px py inp (s.outOf px py v) v = z.localPort px py (s.leaving px py inp v) := by
    rw [hout, ← hz]
    unfold State.moveVolley
    dsimp only
    rw [if_pos rfl]
    rfl
  obtain ⟨h1, h2⟩ := localPort_tile (s := z) (px := px) (py := py) (t := t) (v := s.leaving px py inp v) (ws := ws) hbody
    ((logAt_eq (hz_ok.boot_eq (by decide)) (hz_ok.pkg_eq rfl) px py).trans hlog)
    ((hz_ok.tileActive_eq rfl t).trans hactive) ht
  rw [hmove, h1, buf_of_routers h2, hz_ok.inbox_eq rfl, ← hz, grantTaken_buf hbuf]
  exact ⟨rfl, rfl⟩

end Delivered

/-- Settles O43: the head of a buffer is absorbed, waits, moves to the next router or is delivered, by its header, its grant
and its output. -/
theorem routersMoveVolleys : Obligations.RoutersMoveVolleys := by
  unfold Obligations.RoutersMoveVolleys
  intro s px py inp x y i t v q ws hbuf
  refine ⟨execRouteVolley_bad hbuf, fun hvalid hlost => ⟨execRouteVolley_waits hbuf hvalid hlost, fun hgrant => ⟨fun hout hbeyond => ?_,
    fun hout hbody hlog hactive ht => ?_⟩⟩⟩
  · exact ⟨_, execRouteVolley_moves hbuf hvalid hlost hgrant, moveVolley_next hbuf hout hbeyond⟩
  · exact ⟨_, execRouteVolley_moves hbuf hvalid hlost hgrant, moveVolley_local hbuf hout hbody hlog hactive ht⟩

end Sys2Proof.Machine
end

section
/-! PROOF. O44: an epoch flip from its acceptance, through the stacks' notices and acknowledgements, to the end of its drain
(R144 to R147, R311). -/

namespace Sys2Proof.Machine

open Sys2Proof

/-! ### Accepting a flip: the notices leave what the flip decided -/

/-- What EPOCH_FLIP decides of the epoch registers, which counting volleys does not touch. -/
def Epoch.decided (e : Epoch) : Nat × Bool × Bool × Option (Nat × Nat) := (e.state, e.current, e.loaded, e.cmd)

theorem decided_of_epoch {s u : State} (h : u.hub.epoch = s.hub.epoch) : u.hub.epoch.decided = s.hub.epoch.decided :=
  congrArg Epoch.decided h

theorem countSent_decided (s : State) (k : Nat) (v : Volley) : (s.countSent k v).hub.epoch.decided = s.hub.epoch.decided := by
  unfold State.countSent
  split <;> rfl

theorem countRecv_decided (s : State) (k : Nat) (v : Volley) : (s.countRecv k v).hub.epoch.decided = s.hub.epoch.decided := by
  unfold State.countRecv
  split <;> rfl

theorem toHub_decided (s : State) (v : Volley) : (s.toHub v).hub.epoch.decided = s.hub.epoch.decided := by
  unfold State.toHub
  split
  · exact (decided_of_epoch (deliver_ok.epoch_eq (by decide))).trans (countRecv_decided ..)
  · split
    · split
      · exact (decided_of_epoch (spanSend_ok.epoch_eq (by decide))).trans (countRecv_decided ..)
      · exact (decided_of_epoch (loseEvents_ok.epoch_eq (by decide))).trans (countRecv_decided ..)
    · exact (decided_of_epoch (loseEvents_ok.epoch_eq (by decide))).trans (countRecv_decided ..)

theorem inject_decided (s : State) (k : Nat) (v : Volley) : (s.inject k v).hub.epoch.decided = s.hub.epoch.decided := by
  have hsent (k' px py : Nat) : ((s.countSent k' v).enqueue px py 4 v).hub.epoch.decided = s.hub.epoch.decided :=
    (decided_of_epoch (enqueue_ok.epoch_eq (by decide))).trans (countSent_decided ..)
  unfold State.inject
  split
  · dsimp only
    split
    · exact hsent (stackOf k) (s.phys k).1 (s.phys k).2
    · exact hsent (stackOf k) (s.phys k).1 (s.phys k).2
  · dsimp only
    split
    · exact ((decided_of_epoch (enqueue_ok.epoch_eq (by decide))).trans
        (decided_of_epoch (wakeDom_ok.epoch_eq (by decide)))).trans (countSent_decided ..)
    · exact (toHub_decided ..).trans (countSent_decided ..)

theorem foldl_decided {α : Type} {f : State → α → State} (hf : ∀ s a, (f s a).hub.epoch.decided = s.hub.epoch.decided)
    (l : List α) (s : State) : (l.foldl f s).hub.epoch.decided = s.hub.epoch.decided := by
  induction l generalizing s with
  | nil => rfl
  | cons a l ih => exact (ih _).trans (hf s a)

theorem flipWorld_decided (s : State) (w f : Nat) : (s.flipWorld w f).hub.epoch.decided = s.hub.epoch.decided := by
  unfold State.flipWorld
  exact foldl_decided (fun s st => inject_decided ..) _ _

theorem startFlip_decided (s : State) (cmd : Nat × Nat) :
    (s.startFlip cmd).hub.epoch.decided = (1, !s.hub.epoch.current, false, some cmd) := by
  unfold State.startFlip
  dsimp only
  rw [foldl_decided (fun s (e : Nat × Nat) => flipWorld_decided s e.1 e.2)]
  rfl

section Flip
variable {s : State} {rk seq : Nat} {c : ExecCmd} (h : Begins s rk seq 0x10 c)
  (hidle : s.boot.amending = none ∨ s.flt.stwReset = true)
include h hidle

theorem execEpochFlip_runs : execEpochFlip rk seq s = .next (
    if !s.has c.src .hubBlock .admin then (s.cmdWake 0x10).complete c .failedAccess []
    else if s.hub.epoch.state ≠ 0 || !s.hub.epoch.loaded then (s.cmdWake 0x10).complete c .busy []
    else ((s.cmdWake 0x10).startFlip (rk, seq)).begun c) := by
  have hgo : ¬((s.boot.amending.isSome && !s.flt.stwReset) = true) := by
    rcases hidle with h0 | h0
    · simp [h0]
    · simp [h0]
  unfold execEpochFlip
  rw [if_neg hgo, runCmd_all h]
  simp only [cmdWake_has, (cmdWake_only s 0x10).epoch_eq (by decide)]

end Flip

/-- A refused EPOCH_FLIP leaves the epoch registers. -/
theorem refusedFlip_epoch (s : State) (c : ExecCmd) (k : Code) :
    ((s.cmdWake 0x10).complete c k []).hub.epoch = s.hub.epoch :=
  ((complete_only _ c k []).epoch_eq (by decide)).trans ((cmdWake_only s 0x10).epoch_eq (by decide))

theorem findExec_startFlip {s : State} {rk seq : Nat} {c : ExecCmd} (h : s.findExec rk seq = some c) (cmd : Nat × Nat) :
    (((s.cmdWake 0x10).startFlip cmd).begun c).findExec rk seq = some { c with stage := 1 } :=
  findExec_begun _ c (((startFlip_ok.findExec_eq (by decide) rk seq).trans
    ((cmdWake_only s 0x10).findExec_eq (by decide) rk seq)).trans h)

/-! ### Notices and acknowledgements -/

theorem execEpochNotice_acks {s : State} {st w n : Nat} {bank : Bool} {q : List Mail}
    (hmail : s.fab.mail = { dst := rootKey st, body := .ctl (.epochNotice w n bank) } :: q) :
    execEpochNotice st s = .next ((s.popMail q).fromRoot st 36 (.epochAck st w)) := by
  unfold execEpochNotice
  rw [takeMail_pop hmail (toTile_self (rootKey st) rfl)]

section Inbox
variable {s : State} {b : Bool} {v : Volley} {r : List Volley} (hbox : tget [] stewardEp s.fab.inbox = v :: r)
include hbox

theorem execEpochAck_counts {st w : Nat} (hbody : v.body = .control b (.epochAck st w)) :
    execEpochAck s = .next ((s.popInbox stewardEp r).modWorld w (fun x => { x with flipAcks := x.flipAcks.filter (· ≠ st) })) := by
  unfold execEpochAck
  rw [takeInbox_pop hbox (by simp only [isCtl, hbody, isEpochAck])]
  dsimp only
  rw [hbody]

/-! ### The drain -/

/-- The state in which sender k's total has been taken. -/
def State.endTaken (s : State) (k : Nat) (r : List Volley) : State :=
  { s.popInbox stewardEp r with hub.epoch.ends := k :: s.hub.epoch.ends }

theorem execEpochEnd_adds {k n : Nat} (hbody : v.body = .control b (.epochEnd k n)) (hsent : s.sendEnds = s) :
    execEpochEnd s = .next (((s.endTaken k r).drainAdd n).drainCheck) := by
  unfold execEpochEnd
  dsimp only
  rw [hsent, takeInbox_pop hbox (by simp only [isCtl, hbody, isEpochEnd])]
  dsimp only
  rw [hbody]
  rfl

theorem execDrainDelta_subtracts {k n : Nat} (hbody : v.body = .control b (.drainDelta k n)) (hsent : s.sendDeltas = s) :
    execDrainDelta s = .next (((s.popInbox stewardEp r).drainAdd (-Int.ofNat n)).drainCheck) := by
  unfold execDrainDelta
  dsimp only
  rw [hsent, takeInbox_pop hbox (by simp only [isCtl, hbody, isDrainDelta])]
  dsimp only
  rw [hbody]

end Inbox

/-- No sender's condition newly holds, so none sends its total. -/
theorem sendEnds_none {s : State}
    (h : ∀ j, j ∈ s.drainers → s.hub.epoch.endsSent.contains j = true ∨ s.senderNew j = false) : s.sendEnds = s := by
  have hnone : s.drainers.filter (fun k => !s.hub.epoch.endsSent.contains k && s.senderNew k) = [] := by
    rw [List.filter_eq_nil_iff]
    intro j hj hboth
    obtain ⟨hunsent, hnew⟩ := (Bool.and_eq_true _ _).mp hboth
    rcases h j hj with hs | hn
    · rw [hs] at hunsent
      exact Bool.false_ne_true hunsent
    · exact Bool.false_ne_true (hn.symm.trans hnew)
  unfold State.sendEnds
  rw [hnone, List.foldl_nil, ite_self]

/-- No received total has risen, so no sender sends a rise. -/
theorem sendDeltas_none {s : State} (h : ∀ j, j ∈ s.hub.epoch.endsSent → tget 0 j s.hub.epoch.recv ≤ tget 0 j s.hub.epoch.told) :
    s.sendDeltas = s := by
  have hnone : s.hub.epoch.endsSent.filter (fun k => tget 0 k s.hub.epoch.told < tget 0 k s.hub.epoch.recv) = [] := by
    rw [List.filter_eq_nil_iff]
    intro j hj hrise
    exact absurd (h j hj) (Nat.not_le.mpr (of_decide_eq_true hrise))
  unfold State.sendDeltas
  rw [hnone, List.foldl_nil]

/-- The state in which the hub core keeps a total for the steward (R311). -/
def State.sumHeld (s : State) (n : Int) : State := { s with hub.epoch.heldSum := s.hub.epoch.heldSum + n }

theorem drainAdd_held {s : State} (h : s.flt.stwReset = true) (n : Int) : s.drainAdd n = s.sumHeld n := if_pos h

theorem drainAdd_zero {s : State} (h : s.flt.stwReset = false) : s.drainAdd 0 = s := by
  unfold State.drainAdd
  rw [h]
  rfl

theorem drainAdd_applies {s : State} (h : s.flt.stwReset = false) {n : Int} (hn : n ≠ 0) :
    s.drainAdd n = s.internalAdd 1 s.hub.epoch.drainPip (BitVec.ofInt 32 n) := by
  unfold State.drainAdd
  rw [h, if_neg Bool.false_ne_true, if_neg hn]

/-- While the steward is in reset, or a total is out, the drain goes on. -/
theorem drainCheck_waits {s : State} (h : s.flt.stwReset = true ∨ s.allEnds = false) : s.drainCheck = s := by
  unfold State.drainCheck
  refine if_pos ?_
  rcases h with h | h
  · simp [h]
  · simp [h]

/-- The state in which the drain has ended and the old bank is released (R146). -/
def State.drainEnded (s : State) : State := { s with
  hub.epoch := { s.hub.epoch with state := 0, flips := sat 32 s.hub.epoch.flips 1, cmd := none }
  tmp.worlds := s.tmp.worlds.map (fun (e : Nat × World) => (e.1, { e.2 with flipTurn := none, flipAcks := [] })) }

theorem drainCheck_ends {s : State} {rk seq : Nat} (hflip : s.hub.epoch.state ≠ 0) (hup : s.flt.stwReset = false)
    (hall : s.allEnds = true) (hlost : s.hub.epoch.lost = []) (hzero : (s.pip s.hub.epoch.drainPip).count = 0)
    (hcmd : s.hub.epoch.cmd = some (rk, seq)) : s.drainCheck = s.drainEnded.completeAt rk seq .done [] := by
  have hgo : ¬((s.hub.epoch.state = 0 || s.flt.stwReset || !s.allEnds) = true) := by simp [hflip, hup, hall]
  have hnolost : s.drainLost = s := by
    unfold State.drainLost
    rw [hlost]
    rfl
  unfold State.drainCheck
  rw [if_neg hgo]
  dsimp only
  rw [hnolost, if_pos hzero, hcmd]
  rfl

/-- With sender k's total taken, every total is in exactly when each other sender's is in or was lost. -/
theorem endTaken_allEnds (s : State) (k : Nat) (r : List Volley) : (s.endTaken k r).allEnds =
    s.drainers.all (fun j => decide (j = k) || s.hub.epoch.ends.contains j || s.hub.epoch.lost.contains j) := by
  unfold State.allEnds
  refine congrArg (fun p => s.drainers.all p) (funext fun j => ?_)
  show ((k :: s.hub.epoch.ends).contains j || s.hub.epoch.lost.contains j) = _
  rw [List.contains_cons]
  rfl

/-- The pip's own step leaves who has sent a total as it was. -/
theorem internalAdd_allEnds (s : State) (m p : Nat) (inc : Word) : (s.internalAdd m p inc).allEnds = s.allEnds := by
  have hk : OnlyM _ s (s.internalAdd m p inc) := internalAdd_ok
  unfold State.allEnds State.drainers State.liveStacks State.stackIsLost
  rw [hk.epoch_eq (by decide), hk.pkg_eq (by decide), hk.boot_eq (by decide)]
  simp only [hk.fence_eq (by decide)]

/-- Settles O44: the notices keep what the flip decided, and the drain's check is settled by who has sent a total. -/
theorem epochsFlipAndDrain : Obligations.EpochsFlipAndDrain := by
  unfold Obligations.EpochsFlipAndDrain
  intro s rk seq st w k n b bank c v r q
  refine ⟨fun h hidle => ⟨fun hadmin => ?_, fun hadmin hbusy => ?_, fun hadmin hstate hloaded => ?_⟩,
    fun hmail => ⟨_, execEpochNotice_acks hmail, ?_⟩, fun hbox hbody => ⟨_, execEpochAck_counts hbox hbody, ?_⟩,
    fun hbox hbody hnone => ?_, fun hbox hbody hnone => ?_⟩
  · refine ⟨_, execEpochFlip_runs h hidle, ?_⟩
    rw [hadmin, if_pos (show (!false) = true from rfl)]
    exact ⟨cmd_done _ _ h (by decide), refusedFlip_epoch ..⟩
  · refine ⟨_, execEpochFlip_runs h hidle, ?_⟩
    rw [hadmin, if_neg (show ¬((!true) = true) from Bool.false_ne_true), if_pos (by
      rcases hbusy with h0 | h0
      · simp [h0]
      · simp [h0])]
    exact ⟨cmd_done _ _ h (by decide), refusedFlip_epoch ..⟩
  · refine ⟨_, execEpochFlip_runs h hidle, ?_⟩
    rw [hadmin, if_neg (show ¬((!true) = true) from Bool.false_ne_true), if_neg (by simp [hstate, hloaded])]
    have hdecided := startFlip_decided (s.cmdWake 0x10) (rk, seq)
    simp only [Epoch.decided, Prod.mk.injEq, (cmdWake_only s 0x10).epoch_eq (by decide)] at hdecided
    obtain ⟨hst, hcur, hload, hcmd⟩ := hdecided
    exact ⟨hst, hcur, hload, hcmd, findExec_startFlip h.1 _⟩
  · exact ⟨fromRoot_ok.mail_eq (by decide), fromRoot_routers (u := s.popMail q) (s := s) rfl rfl rfl _ _ _⟩
  · rw [modWorld_world, popInbox_world]
    refine ⟨rfl, fun j hj => ?_⟩
    rw [modWorld_world_other _ hj, popInbox_world]
  · have hsent := sendEnds_none hnone
    refine ⟨fun hreset => ⟨_, execEpochEnd_adds hbox hbody hsent, ?_⟩, fun hup hflip hn => ?_⟩
    · rw [drainAdd_held (s := s.endTaken k r) hreset,
        drainCheck_waits (s := (s.endTaken k r).sumHeld n) (Or.inl hreset)]
      exact ⟨rfl, rfl⟩
    · subst hn
      have hadd : (s.endTaken k r).drainAdd ((0 : Nat) : Int) = s.endTaken k r := drainAdd_zero hup
      refine ⟨fun hout => ⟨_, execEpochEnd_adds hbox hbody hsent, ?_⟩,
        fun hall hlost hzero hcmd hexec => ⟨_, execEpochEnd_adds hbox hbody hsent, ?_⟩⟩
      · rw [hadd, drainCheck_waits (Or.inr ((endTaken_allEnds s k r).trans hout))]
        rfl
      · have hcheck := drainCheck_ends (s := s.endTaken k r) hflip hup ((endTaken_allEnds s k r).trans hall) hlost hzero hcmd
        have hfound : (s.endTaken k r).drainEnded.findExec rk seq = some c := hexec
        rw [hadd, hcheck, completeAt_found hfound]
        have hepoch := (complete_only (s.endTaken k r).drainEnded c .done []).epoch_eq (by decide)
        obtain ⟨erk, eseq⟩ := findExec_keys hexec
        have hdone := complete_completed (s.endTaken k r).drainEnded c .done [] (by decide)
        rw [erk, eseq] at hdone
        rw [hepoch]
        exact ⟨rfl, rfl, rfl, hdone⟩
  · have hsent := sendDeltas_none hnone
    refine ⟨fun hreset => ⟨_, execDrainDelta_subtracts hbox hbody hsent, ?_⟩, fun hup hn hout => ?_⟩
    · rw [drainAdd_held (s := s.popInbox stewardEp r) hreset,
        drainCheck_waits (s := (s.popInbox stewardEp r).sumHeld (-Int.ofNat n)) (Or.inl hreset)]
      rfl
    · refine (execDrainDelta_subtracts hbox hbody hsent).trans ?_
      have hne : (-Int.ofNat n) ≠ 0 := by simpa using hn
      have hstill (p : Nat) (inc : Word) : ((s.popInbox stewardEp r).internalAdd 1 p inc).allEnds = false :=
        (internalAdd_allEnds ..).trans hout
      rw [drainAdd_applies (s := s.popInbox stewardEp r) hup hne, drainCheck_waits (Or.inr (hstill _ _))]
      rfl

end Sys2Proof.Machine
end

section
/-! PROOF. O45, the fence states: FENCE and RESUME, the drain's end, fence notices, updates, RESET and its end, the loss of a
stack (R291 to R295, R298, R299, R313). -/

namespace Sys2Proof.Machine

open Sys2Proof

/-! ### A domain's fence through the loss writer and the notices -/

/-- A fence but for its count of records, which the loss writer keeps. -/
def Fence.uncounted (f : Fence) : Fence := { f with losses := 0 }

/-- The loss writer changes of a fence its count of records at most. -/
def SameFences (s u : State) : Prop := ∀ d, (u.fence d).uncounted = (s.fence d).uncounted

theorem SameFences.trans {s t u : State} (h : SameFences s t) (g : SameFences t u) : SameFences s u :=
  fun d => (g d).trans (h d)

theorem SameFences.of_fences {s u : State} (h : u.flt.fences = s.flt.fences) : SameFences s u := fun d => by
  unfold State.fence
  rw [h]

section Same
variable {s u : State} (h : SameFences s u) (d : Nat)
include h

theorem SameFences.st : (u.fence d).st = (s.fence d).st := (congrArg Fence.st (h d) :)
theorem SameFences.seq : (u.fence d).seq = (s.fence d).seq := (congrArg Fence.seq (h d) :)
theorem SameFences.cmd : (u.fence d).cmd = (s.fence d).cmd := (congrArg Fence.cmd (h d) :)
theorem SameFences.staged : (u.fence d).staged = (s.fence d).staged := (congrArg Fence.staged (h d) :)

end Same

theorem foldl_sameFences {α : Type} {f : State → α → State} (hf : ∀ s a, SameFences s (f s a)) (l : List α) (s : State) :
    SameFences s (l.foldl f s) := by
  induction l generalizing s with
  | nil => exact fun _ => rfl
  | cons a l ih => exact (hf s a).trans (ih _)

theorem modFence_sameFences (s : State) (d : Nat) {f : Fence → Fence} (hf : ∀ x, (f x).uncounted = x.uncounted) :
    SameFences s (s.modFence d f) := by
  intro j
  by_cases hj : j = d
  · subst hj
    rw [modFence_fence]
    exact hf _
  · rw [modFence_fence_other _ hj]

/-- An item's record stands in the ring, and its extension in the next place. -/
def State.lossStored (s : State) (i : LossItem) : State :=
  match i.ext with
  | some e =>
    if i.size = 2 then (s.lossStore s.flt.head.toNat i.word0 i.b.toNat).lossStore (s.flt.head.toNat + 1) 0 e.toNat
    else s.lossStore s.flt.head.toNat i.word0 i.b.toNat
  | none =>
    if i.size = 2 then (s.lossStore s.flt.head.toNat i.word0 i.b.toNat).lossStore (s.flt.head.toNat + 1) 0 0
    else s.lossStore s.flt.head.toNat i.word0 i.b.toNat

/-- The item stands in the ring and is counted. -/
def State.lossHeaded (s : State) (i : LossItem) : State :=
  ({ s.lossStored i with flt.head := (s.lossStored i).flt.head + BitVec.ofNat 32 i.size } : State).countCode i.code

/-- A record more for domain d. -/
def State.countLoss (s : State) (d : Nat) : State := s.modFence d (fun f => { f with losses := sat 32 f.losses 1 })

theorem lossWrite_eq (s : State) (i : LossItem) : s.lossWrite i =
    ((((i.doms.filter (fun d => !s.domActive d)).foldl State.countLoss (s.lossHeaded i)).lossTurn i).lossMarks
      s.flt.held) := by
  unfold State.lossWrite State.lossHeaded State.lossStored
  cases i.ext with
  | none => rfl
  | some e => rfl

theorem lossStored_ok (s : State) (i : LossItem) : OnlyM 0x20404 s (s.lossStored i) := by
  unfold State.lossStored
  split
  · split
    · exact lossStore_ok.trans lossStore_ok
    · exact lossStore_ok
  · split
    · exact lossStore_ok.trans lossStore_ok
    · exact lossStore_ok

theorem lossWrite_sameFences (s : State) (i : LossItem) : SameFences s (s.lossWrite i) := by
  have hheaded : SameFences s (s.lossHeaded i) := SameFences.of_fences ((lossStored_ok s i).fences_eq (by decide))
  have hcounted := foldl_sameFences (f := State.countLoss) (fun s d => modFence_sameFences s d (fun _ => rfl))
    (i.doms.filter (fun d => !s.domActive d)) (s.lossHeaded i)
  rw [lossWrite_eq]
  exact ((hheaded.trans hcounted).trans (SameFences.of_fences (lossTurn_ok.fences_eq (by decide)))).trans
    (SameFences.of_fences (lossMarks_ok.fences_eq (by decide)))

/-- The loss queue holds what is left of it. -/
def State.withLosses (s : State) (r : List LossItem) : State := { s with flt.queue := r }

theorem lossNext_takes {s : State} {i : LossItem} {r : List LossItem} (h : s.flt.queue = i :: r) : s.lossNext =
    if s.stackIsLost 0 || 65536 < s.flt.held + i.size then (s.withLosses r).overflow i else (s.withLosses r).lossWrite i := by
  unfold State.lossNext
  rw [h]
  rfl

theorem lossNext_empty {s : State} (h : s.flt.queue = []) : s.lossNext = s := by
  unfold State.lossNext
  rw [h]

theorem lossNext_sameFences (s : State) : SameFences s s.lossNext := by
  cases h : s.flt.queue with
  | nil =>
    rw [lossNext_empty h]
    exact fun _ => rfl
  | cons i r =>
    have htaken : SameFences s (s.withLosses r) := SameFences.of_fences rfl
    rw [lossNext_takes h]
    split
    · exact htaken.trans (SameFences.of_fences (overflow_ok.fences_eq (by decide)))
    · exact htaken.trans (lossWrite_sameFences _ _)

theorem lossDrain_sameFences (s : State) : SameFences s s.lossDrain := by
  unfold State.lossDrain
  generalize List.range (2 * s.flt.queue.length + 2) = l
  exact foldl_sameFences (f := fun s _ => s.lossNext) (fun s _ => lossNext_sameFences s) l s

theorem fenceMove_fence (s : State) (d : Nat) (st : FenceState) : (s.fenceMove d st).fence d = { s.fence d with st := st } := by
  unfold State.fenceMove
  rw [postFault_ok.fence_eq (by decide), modFence_fence]

theorem fenceMove_fence_other (s : State) {d j : Nat} (h : j ≠ d) (st : FenceState) : (s.fenceMove d st).fence j = s.fence j := by
  unfold State.fenceMove
  rw [postFault_ok.fence_eq (by decide), modFence_fence_other _ h]

/-- The hub's requesters are noticed first. -/
theorem notify_notices (s : State) (d k : Nat) :
    (s.notify d k).flt.notices = s.flt.notices ++ [(epKey 32 0, d, k), (epKey 35 0, d, k), (epKey 38 0, d, k)] := by
  unfold State.notify
  exact (onlyM_foldl (fun _ _ => toRoot_ok) (OnlyM.refl _ _)).notices_eq (by decide)

theorem mem_of_append_three {α : Type} {a b c : α} {l r : List α} (h : r = l ++ [a, b, c]) : a ∈ r ∧ b ∈ r ∧ c ∈ r := by
  subst h
  simp

theorem notify_fences (s : State) (d k : Nat) : (s.notify d k).flt.fences = s.flt.fences := notify_ok.fences_eq (by decide)

/-- The command of a fence completes with the records of its domain. -/
theorem fenceDone_done {s : State} {d rk seq : Nat} {c : ExecCmd} (hcmd : (s.fence d).cmd = some (rk, seq))
    (hexec : s.findExec rk seq = some c) : s.fenceDone d .done =
      (s.lossDrain.modFence d (fun f => { f with cmd := none })).complete c .done
        [BitVec.ofNat 64 ((s.lossDrain.fence d).losses % 2 ^ 32 + (s.lossDrain.fence d).seq % 2 ^ 32 * 2 ^ 32)] := by
  have hfound : (s.lossDrain.modFence d (fun f => { f with cmd := none })).findExec rk seq = some c :=
    (lossDrain_ok.findExec_eq (by decide) rk seq).trans hexec
  unfold State.fenceDone
  dsimp only
  rw [((lossDrain_sameFences s).cmd d).trans hcmd]
  dsimp only
  rw [completeAt_found hfound, if_pos rfl]

/-- What a domain's fence holds once its command is complete. -/
structure FenceFinished (s u : State) (d rk seq op : Nat) : Prop where
  st : (u.fence d).st = (s.fence d).st
  seqno : (u.fence d).seq = (s.fence d).seq
  cmd : (u.fence d).cmd = none
  staged : (u.fence d).staged = (s.fence d).staged
  done : Completed u rk seq op .done [BitVec.ofNat 64 ((u.fence d).losses % 2 ^ 32 + (s.fence d).seq % 2 ^ 32 * 2 ^ 32)]

theorem fenceDone_finishes {s : State} {d rk seq : Nat} {c : ExecCmd} (hcmd : (s.fence d).cmd = some (rk, seq))
    (hexec : s.findExec rk seq = some c) : FenceFinished s (s.fenceDone d .done) d rk seq c.op := by
  have hsame := lossDrain_sameFences s
  obtain ⟨erk, eseq⟩ := findExec_keys hexec
  rw [fenceDone_done hcmd hexec, hsame.seq d]
  have hdone := complete_completed (s.lossDrain.modFence d (fun f => { f with cmd := none })) c .done
    [BitVec.ofNat 64 ((s.lossDrain.fence d).losses % 2 ^ 32 + (s.fence d).seq % 2 ^ 32 * 2 ^ 32)] (by decide)
  rw [erk, eseq] at hdone
  have hfence (rs : List DWord) : ((s.lossDrain.modFence d (fun f => { f with cmd := none })).complete c .done rs).fence d =
      { s.lossDrain.fence d with cmd := none } :=
    (complete_ok.fence_eq (by decide) d).trans (modFence_fence ..)
  exact ⟨by rw [hfence]; exact hsame.st d, by rw [hfence]; exact hsame.seq d, by rw [hfence],
    by rw [hfence]; exact hsame.staged d, by rw [hfence]; exact hdone⟩

/-! ### FENCE and RESUME -/

section Fencing
variable {s : State} {rk seq d op : Nat} {c : ExecCmd}

theorem cmdWake_mayFence (s : State) (op m d : Nat) : (s.cmdWake op).mayFence m d = s.mayFence m d := by
  unfold State.mayFence
  simp only [cmdWake_has, cmdWake_ok.fenceable_eq (by decide) (by decide), cmdWake_ok.domClass_eq (by decide)]

theorem cmdWake_domState (s : State) (op d : Nat) : (s.cmdWake op).domState d = s.domState d :=
  cmdWake_ok.domState_eq (by decide) d

/-- A refused FENCE or RESUME leaves every fence as it was. -/
theorem refusedFence_fences (s : State) (op : Nat) (c : ExecCmd) (k : Code) :
    ((s.cmdWake op).complete c k []).flt.fences = s.flt.fences :=
  (complete_ok.fences_eq (by decide)).trans (cmdWake_ok.fences_eq (by decide))

/-- What FENCE does once its right is checked, by the domain's state. -/
def State.fenceBy (s : State) (c : ExecCmd) (d us rk seq : Nat) (reset : Bool) : State :=
  match s.domState d with
  | .active => (s.fenceStart d us reset (some (rk, seq)) 10 0x30).begun c
  | .fenced => s.complete c .repeated []
  | _ => s.complete c .busy []

/-- What RESUME does once its right is checked, by the domain's state. -/
def State.resumeBy (s : State) (c : ExecCmd) (d rk seq : Nat) (env : BootEnv) : State :=
  match s.domState d with
  | .active => s.complete c .repeated []
  | .fenced =>
    let s1 := (s.wakeDom d 10 0x31).modFence d (fun f => { f with cmd := some (rk, seq), reset := true, ok := true })
    (State.enterReset { s1 with boot.env := if (s.fence d).lost then env else s1.boot.env } d).begun c
  | _ => s.complete c .busy []

theorem execFence_runs (h : Begins s rk seq 0x30 c) (hd : wf (c.words.getD 1 0) 11 0 = d) :
    execFence rk seq s = .next (if !s.mayFence c.src d then (s.cmdWake 0x30).complete c .failedAccess []
      else (s.cmdWake 0x30).fenceBy c d (wf (c.words.getD 1 0) 31 16) rk seq (wf (c.words.getD 1 0) 12 12 = 1)) := by
  subst hd
  refine (runCmd_all h).trans ?_
  dsimp only
  rw [cmdWake_mayFence]
  rfl

theorem execResume_runs (h : Begins s rk seq 0x31 c) (hd : wf (c.words.getD 1 0) 11 0 = d) (env : BootEnv) :
    execResume rk seq env s = .next (if !s.mayFence c.src d then (s.cmdWake 0x31).complete c .failedAccess []
      else (s.cmdWake 0x31).resumeBy c d rk seq env) := by
  subst hd
  refine (runCmd_all h).trans ?_
  dsimp only
  rw [cmdWake_mayFence]
  rfl

theorem fenceBy_fenced (h : s.domState d = .fenced) (us : Nat) (reset : Bool) :
    s.fenceBy c d us rk seq reset = s.complete c .repeated [] := by
  unfold State.fenceBy
  rw [h]

theorem fenceBy_busy (hf : s.domState d ≠ .fenced) (ha : s.domState d ≠ .active) (us : Nat) (reset : Bool) :
    s.fenceBy c d us rk seq reset = s.complete c .busy [] := by
  unfold State.fenceBy
  split
  · contradiction
  · contradiction
  · rfl

theorem fenceBy_active (h : s.domState d = .active) (us : Nat) (reset : Bool) :
    s.fenceBy c d us rk seq reset = (s.fenceStart d us reset (some (rk, seq)) 10 0x30).begun c := by
  unfold State.fenceBy
  rw [h]

theorem resumeBy_active (h : s.domState d = .active) (env : BootEnv) :
    s.resumeBy c d rk seq env = s.complete c .repeated [] := by
  unfold State.resumeBy
  rw [h]

theorem resumeBy_busy (hf : s.domState d ≠ .fenced) (ha : s.domState d ≠ .active) (env : BootEnv) :
    s.resumeBy c d rk seq env = s.complete c .busy [] := by
  unfold State.resumeBy
  split
  · contradiction
  · contradiction
  · rfl

end Fencing

theorem enterReset_fence (s : State) (d : Nat) : (s.enterReset d).fence d = { s.fence d with st := .reset } := by
  unfold State.enterReset
  dsimp only
  split
  · exact fenceMove_fence ..
  · exact fenceMove_fence ..

theorem enterReset_fence_other (s : State) {d j : Nat} (h : j ≠ d) : (s.enterReset d).fence j = s.fence j := by
  unfold State.enterReset
  dsimp only
  split
  · exact fenceMove_fence_other _ h _
  · exact fenceMove_fence_other _ h _

theorem resumeBy_fenced {s : State} {d rk seq : Nat} {c : ExecCmd} (h : s.domState d = .fenced)
    (hexec : s.findExec rk seq = some c) (env : BootEnv) :
    (s.resumeBy c d rk seq env).fence d = { s.fence d with st := .reset, cmd := some (rk, seq), reset := true, ok := true }
      ∧ (s.resumeBy c d rk seq env).findExec rk seq = some { c with stage := 1 } := by
  have hby : s.resumeBy c d rk seq env = (State.enterReset
      { (s.wakeDom d 10 0x31).modFence d (fun f => { f with cmd := some (rk, seq), reset := true, ok := true }) with
        boot.env := if (s.fence d).lost then env else (s.wakeDom d 10 0x31).boot.env } d).begun c := by
    unfold State.resumeBy
    rw [h]
    rfl
  rw [hby]
  refine ⟨(enterReset_fence ..).trans ?_, findExec_begun _ c ((enterReset_ok.findExec_eq (by decide) rk seq).trans
    ((wakeDom_ok.findExec_eq (by decide) rk seq).trans hexec))⟩
  have hmod := modFence_fence (s.wakeDom d 10 0x31) d (fun f => { f with cmd := some (rk, seq), reset := true, ok := true })
  rw [(wakeDom_ok (s := s)).fence_eq (by decide) d] at hmod
  exact congrArg (fun f : Fence => { f with st := .reset }) hmod

/-- What a fence of its own holds as it begins to drain. -/
theorem fenceStart_fence (s : State) (d us : Nat) (reset : Bool) (cmd : Option (Nat × Nat)) (wake detail : Nat) :
    (s.fenceStart d us reset cmd wake detail).fence d = { s.fence d with
      st := .draining, seq := (s.flt.fenceSeq + 1) % 2 ^ 32, losses := 0, cmd := cmd, ok := true, reset := reset,
      drainUs := if us = 0 then fb s.flt.cfg.toNat 23 8 else us } := by
  have hwake : OnlyM _ s (s.wakeDom d wake detail) := wakeDom_ok
  have hcfg : (s.wakeDom d wake detail).flt.cfg = s.flt.cfg := hwake .faultCfg rfl
  have hseq : (s.wakeDom d wake detail).flt.fenceSeq = s.flt.fenceSeq := by
    have h := hwake .fenceCount rfl
    simp only [Part.same, Prod.mk.injEq] at h
    tauto
  have hkept (z : State) (hz : z.flt.fences = (s.wakeDom d wake detail).flt.fences) : z.fence d = s.fence d := by
    unfold State.fence
    rw [hz, hwake.fences_eq (by decide)]
  unfold State.fenceStart
  dsimp only
  rw [fenceMove_fence, modFence_fence, hkept _ (by rfl), hcfg, hseq]

theorem fenceStart_fence_other (s : State) {d j : Nat} (h : j ≠ d) (us : Nat) (reset : Bool) (cmd : Option (Nat × Nat))
    (wake detail : Nat) : (s.fenceStart d us reset cmd wake detail).fence j = s.fence j := by
  unfold State.fenceStart
  dsimp only
  rw [fenceMove_fence_other _ h, modFence_fence_other _ h]
  exact (wakeDom_ok (s := s)).fence_eq (by decide) j

theorem fence_of_fences {s u : State} (h : u.flt.fences = s.flt.fences) (j : Nat) : u.fence j = s.fence j := by
  unfold State.fence
  rw [h]

end Sys2Proof.Machine
end

section
/-! PROOF. O45: the drain's end, fence notices, updates, RESET and its end, the loss of a stack, and the fence states of a
domain as a whole. -/

namespace Sys2Proof.Machine

open Sys2Proof

section Domain
variable {s : State} {d rk seq : Nat} {c : ExecCmd}

/-! ### The end of the drain -/

/-- What a domain leaves as it drains is its own: no fence moves, but where span followers park. -/
theorem drainDom_fences (h : s.domClass d ≠ some 8) : (s.drainDom d).flt.fences = s.flt.fences := by
  unfold State.drainDom
  split
  · exact drainTile_ok.fences_eq (by decide)
  · exact (onlyM_foldl (fun _ _ => drainTile_ok) (OnlyM.refl _ _)).fences_eq (by decide)
  · exact portFence_ok.fences_eq (by decide)
  · next h8 => exact absurd h8 h
  · exact poolDrain_ok.fences_eq (by decide)
  · exact traceDrain_ok.fences_eq (by decide)
  · rfl

/-- Domain d has moved to a fence state and its notice k goes out. -/
def State.announced (s : State) (d : Nat) (st : FenceState) (k : Nat) : State := (s.fenceMove d st).notify d k

theorem announced_fence (s : State) (d : Nat) (st : FenceState) (k : Nat) :
    (s.announced d st k).fence d = { s.fence d with st := st } :=
  (fence_of_fences (notify_fences ..) d).trans (fenceMove_fence ..)

theorem announced_findExec (st : FenceState) (k : Nat) : (s.announced d st k).findExec rk seq = s.findExec rk seq :=
  (notify_ok.findExec_eq (by decide) rk seq).trans (fenceMove_ok.findExec_eq (by decide) rk seq)

theorem announced_notices (s : State) (d : Nat) (st : FenceState) (k : Nat) :
    (epKey 32 0, d, k) ∈ (s.announced d st k).flt.notices ∧ (epKey 35 0, d, k) ∈ (s.announced d st k).flt.notices
      ∧ (epKey 38 0, d, k) ∈ (s.announced d st k).flt.notices :=
  mem_of_append_three (notify_notices ..)

theorem execDrainEnd_enters (hst : s.domState d = .draining) : execDrainEnd d s = .next ((s.drainDom d).enterFenced d) :=
  if_pos hst

theorem enterFenced_done (hstaged : (s.fence d).staged = []) (hreset : (s.fence d).reset = false) :
    s.enterFenced d = (s.announced d .fenced 2).fenceDone d .done := by
  unfold State.enterFenced
  rw [hstaged, hreset]
  rfl

theorem enterFenced_resets (hstaged : (s.fence d).staged = []) (hreset : (s.fence d).reset = true) :
    s.enterFenced d = (s.announced d .fenced 2).enterReset d := by
  unfold State.enterFenced
  rw [hstaged, hreset]
  rfl

/-! ### A domain that is ACTIVE again -/

theorem enterActive_eq (hstaged : (s.fence d).staged = []) (hamend : s.boot.amending = none)
    (hcmd : (s.fence d).cmd = some (rk, seq)) (hexec : s.findExec rk seq = some c) :
    s.enterActive d = (s.announced d .active 0).fenceDone d .done := by
  have hfin := fenceDone_finishes (s := s.announced d .active 0) (d := d)
    ((congrArg Fence.cmd (announced_fence ..)).trans hcmd) ((announced_findExec ..).trans hexec)
  have hempty : (((s.announced d .active 0).fenceDone d .done).fence d).staged = [] :=
    hfin.staged.trans ((congrArg Fence.staged (announced_fence ..)).trans hstaged)
  have hquiet : ((s.announced d .active 0).fenceDone d .done).boot.amending = none :=
    ((fenceDone_ok.amending_eq (by decide)).trans ((notify_ok.amending_eq (by decide)).trans
      (fenceMove_ok.amending_eq (by decide)))).trans hamend
  unfold State.enterActive
  unfold State.announced at hempty hquiet ⊢
  dsimp only
  rw [hempty, if_pos (show ([] : List Section).isEmpty = true from rfl), amendCheck_idle hquiet]

/-- What a domain's fence holds once it is ACTIVE again and its command is complete. -/
structure ActiveAgain (s u : State) (d rk seq op : Nat) : Prop where
  st : (u.fence d).st = .active
  cmd : (u.fence d).cmd = none
  done : Completed u rk seq op .done [BitVec.ofNat 64 ((u.fence d).losses % 2 ^ 32 + (s.fence d).seq % 2 ^ 32 * 2 ^ 32)]

theorem enterActive_again (hstaged : (s.fence d).staged = []) (hamend : s.boot.amending = none)
    (hcmd : (s.fence d).cmd = some (rk, seq)) (hexec : s.findExec rk seq = some c) :
    ActiveAgain s (s.enterActive d) d rk seq c.op := by
  have hfin := fenceDone_finishes (s := s.announced d .active 0) (d := d)
    ((congrArg Fence.cmd (announced_fence ..)).trans hcmd) ((announced_findExec ..).trans hexec)
  rw [enterActive_eq hstaged hamend hcmd hexec]
  have hdone := hfin.done
  rw [announced_fence] at hdone
  exact ⟨hfin.st.trans (congrArg Fence.st (announced_fence ..)), hfin.cmd, hdone⟩

/-- The notices of a domain that returns change of a tile what sending changes. -/
theorem enterActive_sendCore (hstaged : (s.fence d).staged = []) (hamend : s.boot.amending = none)
    (hcmd : (s.fence d).cmd = some (rk, seq)) (hexec : s.findExec rk seq = some c) : SendCore s (s.enterActive d) := by
  rw [enterActive_eq hstaged hamend hcmd hexec]
  have hmoved : SendCore s (s.fenceMove d .active) :=
    SendCore.of_tiles (fenceMove_ok.tiles_eq (by decide)) (by rw [fenceMove_ok.epoch_eq (by decide)]; exact ⟨rfl, rfl⟩)
  have hnoticed (z : State) : SendCore z (z.notify d 0) := by
    unfold State.notify
    dsimp only
    exact SendCore.after (foldl_sendCore _ (fun s st => inject_sendCore ..) _ _) rfl ⟨rfl, rfl⟩
  have hdone (z : State) : SendCore z (z.fenceDone d .done) :=
    SendCore.of_tiles (fenceDone_ok.tiles_eq (by decide)) (by rw [fenceDone_ok.epoch_eq (by decide)]; exact ⟨rfl, rfl⟩)
  exact (hmoved.trans (hnoticed _)).trans (hdone _)

/-! ### The end of RESET -/

theorem execResetComplete_tile (hst : s.domState d = .reset) (hclass : s.domClass d = some 0) :
    execResetComplete d s = .next ((s.tileReset (d - 0x800)).tilesReturn d [d - 0x800]) := by
  unfold execResetComplete
  rw [if_neg (not_not_intro hst), hclass]
  rfl

theorem execResetComplete_port (hst : s.domState d = .reset) (hclass : s.domClass d = some 9) :
    execResetComplete d s = .next ((s.enterActive d).portResume (d - 0x020)) := by
  unfold execResetComplete
  rw [if_neg (not_not_intro hst), hclass]
  rfl

theorem execResetComplete_span (hst : s.domState d = .reset) (hclass : s.domClass d = some 8)
    (hup : (s.span (d - 0x010)).state = 2 ∨ s.spanTrains (d - 0x010) = false) :
    execResetComplete d s = .next (s.enterActive d) := by
  unfold execResetComplete
  rw [if_neg (not_not_intro hst), hclass]
  refine if_pos ?_
  rcases hup with h | h
  · simp [h]
  · simp [h]

/-- The directory of the pool is empty. -/
def State.dirEmptied (s : State) : State := { s with pool.dir := [] }

theorem execResetComplete_pool (hst : s.domState d = .reset) (hclass : s.domClass d = some 5) :
    execResetComplete d s = .next (s.dirEmptied.enterActive d) := by
  unfold execResetComplete
  rw [if_neg (not_not_intro hst), hclass]
  rfl

theorem execResetComplete_trace (hst : s.domState d = .reset) (hclass : s.domClass d = some 6) :
    execResetComplete d s = .next (s.traceReset.enterActive d) := by
  unfold execResetComplete
  rw [if_neg (not_not_intro hst), hclass]
  rfl

end Domain

/-! ### A tile that no world holds -/

/-- A tile after its RESET. -/
def Tile.cleared (x : Tile) : Tile :=
  { x.emptied with openVols := [], stalled := [], pace := {}, marks := [], got := [], lockSent := [], lastNotice := [],
                   spillCache := [], streaming := false }

/-- No world is resident in the tile. -/
def Tile.vacant (x : Tile) : Prop := ∀ w, x.resident w = false

theorem heldWorlds_vacant {s : State} {t : Nat} (h : (s.tile t).vacant) : s.heldWorlds t = [] := by
  unfold State.heldWorlds
  rw [List.map_eq_nil_iff, List.filter_eq_nil_iff]
  intro e _ hheld
  rw [h e.1] at hheld
  exact Bool.false_ne_true hheld

theorem vacant_of_blocks {x y : Tile} (h : y.blocks = x.blocks) (hx : x.vacant) : y.vacant := by
  intro w
  unfold Tile.resident
  rw [h]
  exact hx w

/-- A tile after its RESET and return: schedule at the turn to come, upstream tiles left out. -/
def Tile.returned (x : Tile) (n : Nat) : Tile :=
  { x with schedTurn := n, slot := 0, upstream := x.upstream.map (fun u => if u.src.x < 32 then { u with out := true } else u) }

theorem traceTileReset_tile (s : State) (t : Nat) : (s.traceTileReset t).tile t = { s.tile t with traceFifo := [] } := by
  unfold State.traceTileReset
  rw [modTile_tile]
  rfl

theorem tileReset_vacant {s : State} {t : Nat} (h : (s.tile t).vacant) :
    s.tileReset t = (s.traceTileReset t).modTile t Tile.cleared := by
  have hnone : ((s.traceTileReset t).modTile t Tile.cleared).heldWorlds t = [] := by
    refine heldWorlds_vacant (vacant_of_blocks ?_ h)
    rw [modTile_tile, traceTileReset_tile]
    rfl
  unfold State.tileReset
  unfold Tile.cleared at hnone ⊢
  dsimp only at hnone ⊢
  rw [hnone, List.foldl_nil]

theorem tileBack_vacant {s : State} {t : Nat} (h : (s.tile t).vacant) :
    (s.turnsWithout t).tileBack t = s.modTile t (fun x => x.returned (s.nextOpen t)) := by
  have hwithout : s.turnsWithout t = s := by
    unfold State.turnsWithout
    rw [heldWorlds_vacant h, List.foldl_nil]
  rw [hwithout]
  unfold State.tileBack
  rw [heldWorlds_vacant h, List.foldl_nil]
  rfl

/-- A tile that holds no world and no work goes on with nothing. -/
theorem tileGoesOn_rests {s : State} {t : Nat} (hvacant : (s.tile t).vacant) (hhome : (s.tile t).homeOf t = t)
    (hintake : (s.tile t).intake = []) (hidle : (s.tile t).idle = true) :
    s.tileGoesOn t = s.modTile t (fun y => { y with upd := [] }) := by
  have hrows : s.takeHomeRows t = s := by
    unfold State.takeHomeRows
    rw [hhome]
    simp
  unfold State.tileGoesOn
  rw [hrows, heldWorlds_vacant hvacant, List.foldl_nil, settle_rests (feed_empty hintake) hidle]

theorem tilesReturn_one (s : State) (d t : Nat) :
    s.tilesReturn d [t] = State.tileGoesOn (((s.turnsWithout t).tileBack t).enterActive d) t := by
  unfold State.tilesReturn
  dsimp only [List.foldl_cons, List.foldl_nil]

/-- What a vacant tile holds as it returns: nothing. -/
theorem tile_returns {s : State} {d t rk seq : Nat} {c : ExecCmd} (hstaged : (s.fence d).staged = [])
    (hamend : s.boot.amending = none) (hcmd : (s.fence d).cmd = some (rk, seq)) (hexec : s.findExec rk seq = some c)
    (hvacant : (s.tile t).vacant) (hhome : (s.tile t).homeOf t = t) (u : State) (hu : u = (s.tileReset t).tilesReturn d [t]) :
    (u.fence d).st = .active ∧ (u.tile t).intake = [] ∧ (u.tile t).wheel = [] ∧ (u.tile t).merge = [] := by
  have hreset : OnlyM _ s (s.tileReset t) := tileReset_ok
  have hcleared : (s.tileReset t).tile t = ({ s.tile t with traceFifo := [] } : Tile).cleared := by
    rw [tileReset_vacant hvacant, modTile_tile, traceTileReset_tile]
  have hstill : ((s.tileReset t).tile t).vacant := vacant_of_blocks (by rw [hcleared]; rfl) hvacant
  have hfence : (s.tileReset t).fence d = s.fence d := hreset.fence_eq (by decide) d
  have hamending : (s.tileReset t).boot.amending = none := (hreset.amending_eq (by decide)).trans hamend
  have hfound : (s.tileReset t).findExec rk seq = some c := (hreset.findExec_eq (by decide) rk seq).trans hexec
  rw [tilesReturn_one, tileBack_vacant hstill] at hu
  generalize (s.tileReset t).nextOpen t = n at hu
  generalize s.tileReset t = z at hcleared hfence hamending hfound hu
  have hback : (z.modTile t (fun x => x.returned n)).tile t = (({ s.tile t with traceFifo := [] } : Tile).cleared).returned n := by
    rw [modTile_tile, hcleared]
  have hagain := enterActive_again (s := z.modTile t (fun x => x.returned n)) (d := d)
    ((congrArg Fence.staged hfence).trans hstaged) hamending ((congrArg Fence.cmd hfence).trans hcmd) hfound
  have hcore := (enterActive_sendCore (s := z.modTile t (fun x => x.returned n)) (d := d)
    ((congrArg Fence.staged hfence).trans hstaged) hamending ((congrArg Fence.cmd hfence).trans hcmd) hfound).at_ t
  rw [hback] at hcore
  generalize (z.modTile t (fun x => x.returned n)).enterActive d = v at hagain hcore hu
  have hrun : (v.tile t).run = none := (congrArg Tile.run hcore :)
  have hdue : (v.tile t).due = [] := (congrArg Tile.due hcore :)
  have hupd : (v.tile t).upd = [] := (congrArg Tile.upd hcore :)
  have hstalled : (v.tile t).stalled = [] := (congrArg Tile.stalled hcore :)
  have hblocks : (v.tile t).blocks = (s.tile t).blocks := (congrArg Tile.blocks hcore :)
  have hcfg : (v.tile t).cfg = (s.tile t).cfg := (congrArg Tile.cfg hcore :)
  have hintake : (v.tile t).intake = [] := (congrArg Tile.intake hcore :)
  have hrests := tileGoesOn_rests (s := v) (t := t) (vacant_of_blocks hblocks hvacant)
    (by unfold Tile.homeOf; rw [hcfg]; exact hhome) hintake (by simp [Tile.idle, hrun, hdue, hupd, hstalled])
  rw [hrests] at hu
  rw [hu, modTile_tile]
  exact ⟨hagain.st, hintake, (congrArg Tile.wheel hcore :), (congrArg Tile.merge hcore :)⟩

/-! ### Fence notices -/

section Notices
variable {s : State} {who d m : Nat} {l : List (Nat × Nat × Nat)}

/-- The notices are those left. -/
def State.withNotices (s : State) (l : List (Nat × Nat × Nat)) : State := { s with flt.notices := l }

theorem takeNotice_head (who d m : Nat) (l : List (Nat × Nat × Nat)) : takeNotice who ((who, d, m) :: l) = some ((d, m), l) :=
  if_pos rfl

theorem execFenceNotice_tile (h : s.flt.notices = (who, d, m) :: l) (hwho : who < 2048) :
    execFenceNotice who s = .next ((s.withNotices l).noticeTile who d m) := by
  unfold execFenceNotice
  rw [h, takeNotice_head]
  exact if_pos hwho

theorem execFenceNotice_hub (h : s.flt.notices = (epKey 32 0, d, 2) :: l) :
    execFenceNotice (epKey 32 0) s = .next ((s.withNotices l).noticeHub d) := by
  unfold execFenceNotice
  rw [h, takeNotice_head]
  rfl

theorem execFenceNotice_tempo (h : s.flt.notices = (epKey 38 0, d, 2) :: l) :
    execFenceNotice (epKey 38 0) s = .next ((s.withNotices l).noticeTempo d) := by
  unfold execFenceNotice
  rw [h, takeNotice_head]
  rfl

end Notices

theorem failChain_tile (s : State) (t : Nat) (ts : List Nat) : (s.failChain t ts).tile t =
    { s.tile t with chainOut := (s.tile t).chainOut.filter (fun e => !ts.contains e.2.1) } := by
  unfold State.failChain
  dsimp only
  rw [(onlyM_foldl (fun s e => onlyM_foldl (fun _ _ => pushLoss_ok) (OnlyM.refl _ s)) (OnlyM.refl _ _)).tile_eq (by decide),
    modTile_tile]

/-- What waited goes on: of the tile's work, only its reports change. -/
theorem goOnWithout_reportCore {s : State} {t : Nat} (hidle : (s.tile t).idle = true) (hintake : (s.tile t).intake = [])
    (hfree : (s.tile t).lrnBusy = none) :
    ((s.goOnWithout t).tile t).reportCore = (s.tile t).reportCore ∧ (s.goOnWithout t).flt.notices = s.flt.notices := by
  unfold State.goOnWithout
  split
  · rw [settle_rests (feed_empty hintake) hidle]
    have hupd : (s.tile t).upd = [] := (idle_fields hidle).2.2.1
    have htile : (s.modTile t (fun y => { y with upd := [] })).tile t = s.tile t := by
      rw [modTile_tile, ← hupd]
    have hcore := (foldl_reportCore _ (fun s g => groupReports_reportCore s t g) (s.tile t).groups
      (s.modTile t (fun y => { y with upd := [] }))).at_ t
    have hnotices := (onlyM_foldl (f := fun s g => State.groupReports s t g) (fun s g => groupReports_ok)
      (l := (s.tile t).groups) (OnlyM.refl _ (s.modTile t (fun y => { y with upd := [] })))).notices_eq (by decide)
    rw [htile] at hcore
    have hbusy : (((s.tile t).groups.foldl (fun s g => s.groupReports t g)
        (s.modTile t (fun y => { y with upd := [] }))).tile t).lrnBusy = none := (congrArg Tile.lrnBusy hcore :).trans hfree
    rw [homeTry_free hbusy]
    exact ⟨hcore, hnotices⟩
  · exact ⟨rfl, rfl⟩

/-- A tile hears that some tiles are fenced: they leave its conditions, and its chain messages to them are gone. -/
theorem noticeTile_fenced {s : State} {t d : Nat} (hidle : (s.tile t).idle = true) (hintake : (s.tile t).intake = [])
    (hfree : (s.tile t).lrnBusy = none) (ts : List Nat) (hts : s.coveredTiles d = ts) :
    (s.noticeTile t d 2).flt.notices = s.flt.notices
      ∧ ((s.noticeTile t d 2).tile t).upstream = (s.tile t).upstream.map (fun x =>
          if ts.any (fun k => x.src = s.coord k) then { x with out := true } else x)
      ∧ ((s.noticeTile t d 2).tile t).chainOut = (s.tile t).chainOut.filter (fun e => !ts.contains e.2.1) := by
  have hnotice : s.noticeTile t d 2 = ((s.heedUpstream t ts true).failChain t ts).goOnWithout t := by
    unfold State.noticeTile
    rw [hts]
    exact if_pos rfl
  have hfail := failChain_tile (s.heedUpstream t ts true) t ts
  have hnotices : ((s.heedUpstream t ts true).failChain t ts).flt.notices = s.flt.notices := failChain_ok.notices_eq (by decide)
  unfold State.heedUpstream at hfail
  rw [modTile_tile] at hfail
  obtain ⟨hcore, hkept⟩ := goOnWithout_reportCore (s := (s.heedUpstream t ts true).failChain t ts) (t := t)
    (by unfold State.heedUpstream; rw [hfail]; exact hidle) (by unfold State.heedUpstream; rw [hfail]; exact hintake)
    (by unfold State.heedUpstream; rw [hfail]; exact hfree)
  rw [hnotice]
  unfold State.heedUpstream at hcore
  rw [hfail] at hcore
  exact ⟨hkept.trans hnotices, (congrArg Tile.upstream hcore :), (congrArg Tile.chainOut hcore :)⟩

theorem noticeTile_back (s : State) (t d : Nat) :
    ((s.noticeTile t d 0).tile t).upstream = (s.tile t).upstream.map (fun x =>
      if (s.coveredTiles d).any (fun k => x.src = s.coord k) then { x with out := false } else x) := by
  have hnotice : s.noticeTile t d 0 = s.heedUpstream t (s.coveredTiles d) false := rfl
  rw [hnotice]
  unfold State.heedUpstream
  rw [modTile_tile]

/-- The hub's access unit drops the host accesses that waited on the covered tiles. -/
theorem noticeHub_hostReqs (s : State) (d : Nat) : (s.noticeHub d).flt.notices = s.flt.notices
    ∧ (s.noticeHub d).flt.hostReqs = s.flt.hostReqs.filter (fun e => !(s.coveredTiles d).contains e.2.1) := by
  refine ⟨noticeHub_ok.notices_eq (by decide), ?_⟩
  unfold State.noticeHub
  exact ((onlyM_foldl (fun _ _ => complete_ok) (OnlyM.refl _ _)).hostReqs_eq (by decide)).trans
    ((onlyM_foldl (fun _ _ => refuse_ok) (OnlyM.refl _ _)).hostReqs_eq (by decide))

/-! ### Updates -/

/-- Domain d has written what was staged for it. -/
def State.sectionsWritten (s : State) (d : Nat) : State :=
  if s.domClass d = some 0 then (((s.fence d).staged.foldl State.putUpdate s).writeReserve (d - 0x800)).reclaimAll (d - 0x800)
  else (s.fence d).staged.foldl State.putUpdate s

theorem execUpdateWritten_takes {s : State} {d : Nat} (h : s.domState d = .update) : execUpdateWritten d s =
    .next (((s.sectionsWritten d).modFence d (fun f => { f with staged := [] })).enterReset d) := if_pos h

theorem sectionsWritten_fences (s : State) (d : Nat) : (s.sectionsWritten d).flt.fences = s.flt.fences := by
  have hput : ((s.fence d).staged.foldl State.putUpdate s).flt.fences = s.flt.fences :=
    (onlyM_foldl (fun _ _ => putUpdate_ok) (OnlyM.refl _ _)).fences_eq (by decide)
  unfold State.sectionsWritten
  split
  · exact ((reclaimAll_ok.fences_eq (by decide)).trans (writeReserve_ok.fences_eq (by decide))).trans hput
  · exact hput

theorem sectionsWritten_sections {s : State} {d : Nat} (h : s.domClass d ≠ some 0) :
    s.sectionsWritten d = (s.fence d).staged.foldl State.putUpdate s := if_neg h

/-! ### The loss of a stack -/

/-- The stack is lost: its mark stands. -/
def State.stackMarked (s : State) (st : Nat) : State :=
  { s with flt.stackLost := s.flt.stackLost ||| BitVec.ofNat 16 (2 ^ st) }

theorem stackMarked_fence (s : State) (st d : Nat) : (s.stackMarked st).fence d = s.fence d := rfl

/-- The stack is FENCED and gone: records, contents, mark, notice, and the flip without it. -/
def State.stackGone (s : State) (st : Nat) : State :=
  ((((s.stackFenced st).stackRecords st).stackForget st).stackMarked st |>.notify (stackDom st) 2).flipWithout st

theorem execStackLost_fences {s : State} {st : Nat} (hready : s.isReady = true) (hpresent : s.stackPresent st = true)
    (hbooted : s.boot.absentStacks.contains st = false) (hkept : s.stackIsLost st = false)
    (hactive : s.domState (stackDom st) = .active) : execStackLost st s = .next (s.stackGone st) := by
  have hgo : ¬((!s.isReady || !s.stackPresent st || s.boot.absentStacks.contains st || s.stackIsLost st) = true) := by
    rw [hready, hpresent, hbooted, hkept]
    exact Bool.false_ne_true
  unfold execStackLost
  dsimp only
  rw [if_neg hgo, hactive]
  rfl

theorem stackFenced_fence {s : State} {st : Nat} (hactive : s.domState (stackDom st) = .active) :
    (s.stackFenced st).fence (stackDom st) = { s.fence (stackDom st) with
      st := .fenced, seq := (s.flt.fenceSeq + 1) % 2 ^ 32, losses := 0, cmd := none, reset := false, lost := true,
      ok := true } := by
  have hact : s.domActive (stackDom st) = true := decide_eq_true hactive
  unfold State.stackFenced
  dsimp only
  rw [hact, if_pos rfl, fenceMove_fence, postFault_ok.fence_eq (by decide), modFence_fence, modFence_fence]
  rfl

theorem stackGone_fence (s : State) (st : Nat) : (s.stackGone st).fence (stackDom st) = (s.stackFenced st).fence (stackDom st) := by
  unfold State.stackGone
  rw [flipWithout_ok.fence_eq (by decide), notify_ok.fence_eq (by decide), stackMarked_fence,
    stackForget_ok.fence_eq (by decide), stackRecords_ok.fence_eq (by decide)]

theorem stackGone_lost (s : State) (st : Nat) : (s.stackGone st).flt.stackLost = s.flt.stackLost ||| BitVec.ofNat 16 (2 ^ st) := by
  have hbefore : (((s.stackFenced st).stackRecords st).stackForget st).flt.stackLost = s.flt.stackLost :=
    ((stackForget_ok.stackLost_eq (by decide)).trans (stackRecords_ok.stackLost_eq (by decide))).trans
      (stackFenced_ok.stackLost_eq (by decide))
  unfold State.stackGone
  rw [flipWithout_ok.stackLost_eq (by decide), notify_ok.stackLost_eq (by decide), ← hbefore]
  rfl

theorem stackGone_notice (s : State) (st : Nat) : (epKey 32 0, stackDom st, 2) ∈ (s.stackGone st).flt.notices := by
  unfold State.stackGone
  generalize (((s.stackFenced st).stackRecords st).stackForget st).stackMarked st = z
  have hkept : ((z.notify (stackDom st) 2).flipWithout st).flt.notices = (z.notify (stackDom st) 2).flt.notices :=
    flipWithout_ok.notices_eq (by decide)
  rw [hkept, notify_notices]
  exact List.mem_append_right _ List.mem_cons_self

end Sys2Proof.Machine
end

section
/-! PROOF. O45 from the facts about its commands. -/

namespace Sys2Proof.Machine

open Sys2Proof

theorem begun_fence (s : State) (c : ExecCmd) (j : Nat) : (s.begun c).fence j = s.fence j := rfl

section Parts
variable {s : State} {rk seq d : Nat} {c : ExecCmd}

theorem fence_byState (h : Begins s rk seq 0x30 c) (hd : wf (c.words.getD 1 0) 11 0 = d) :
    (s.mayFence c.src d = false → ∃ u, execFence rk seq s = .next u ∧ Completed u rk seq 0x30 .failedAccess []
        ∧ u.flt.fences = s.flt.fences)
      ∧ (s.mayFence c.src d = true → s.domState d = .fenced → ∃ u, execFence rk seq s = .next u
        ∧ Completed u rk seq 0x30 .repeated [] ∧ u.flt.fences = s.flt.fences)
      ∧ (s.mayFence c.src d = true → s.domState d ≠ .fenced → s.domState d ≠ .active → ∃ u, execFence rk seq s = .next u
        ∧ Completed u rk seq 0x30 .busy [] ∧ u.flt.fences = s.flt.fences)
      ∧ (s.mayFence c.src d = true → s.domState d = .active → ∃ u, execFence rk seq s = .next u
        ∧ u.fence d = { s.fence d with
            st := .draining, seq := (s.flt.fenceSeq + 1) % 2 ^ 32, losses := 0, cmd := some (rk, seq), ok := true,
            reset := decide (wf (c.words.getD 1 0) 12 12 = 1),
            drainUs := if wf (c.words.getD 1 0) 31 16 = 0 then fb s.flt.cfg.toNat 23 8 else wf (c.words.getD 1 0) 31 16 }
        ∧ u.findExec rk seq = some { c with stage := 1 } ∧ ∀ j, j ≠ d → u.fence j = s.fence j) := by
  have hrun := execFence_runs h hd
  have hnot : ¬((!true) = true) := Bool.false_ne_true
  refine ⟨fun hm => ⟨_, hrun, ?_⟩, fun hm hf => ⟨_, hrun, ?_⟩, fun hm hf ha => ⟨_, hrun, ?_⟩, fun hm ha => ⟨_, hrun, ?_⟩⟩
  · rw [hm, if_pos (show (!false) = true from rfl)]
    exact ⟨cmd_done _ _ h (by decide), refusedFence_fences ..⟩
  · rw [hm, if_neg hnot, fenceBy_fenced ((cmdWake_domState ..).trans hf)]
    exact ⟨cmd_done _ _ h (by decide), refusedFence_fences ..⟩
  · rw [hm, if_neg hnot, fenceBy_busy (by rw [cmdWake_domState]; exact hf) (by rw [cmdWake_domState]; exact ha)]
    exact ⟨cmd_done _ _ h (by decide), refusedFence_fences ..⟩
  · have hwake : OnlyM _ s (s.cmdWake 0x30) := cmdWake_ok
    have hcfg : (s.cmdWake 0x30).flt.cfg = s.flt.cfg := hwake .faultCfg rfl
    have hcount := hwake .fenceCount rfl
    simp only [Part.same, Prod.mk.injEq] at hcount
    obtain ⟨hseq, -⟩ := hcount
    rw [hm, if_neg hnot, fenceBy_active ((cmdWake_domState ..).trans ha)]
    refine ⟨?_, findExec_begun _ c
      ((fenceStart_ok.findExec_eq (by decide) rk seq).trans ((hwake.findExec_eq (by decide) rk seq).trans h.1)),
      fun j hj => ?_⟩
    · rw [begun_fence, fenceStart_fence, hwake.fence_eq (by decide), hcfg, hseq]
    · rw [begun_fence, fenceStart_fence_other _ hj, hwake.fence_eq (by decide)]

theorem resume_byState (env : BootEnv) (h : Begins s rk seq 0x31 c) (hd : wf (c.words.getD 1 0) 11 0 = d) :
    (s.mayFence c.src d = false → ∃ u, execResume rk seq env s = .next u ∧ Completed u rk seq 0x31 .failedAccess [])
      ∧ (s.mayFence c.src d = true → s.domState d = .active → ∃ u, execResume rk seq env s = .next u
        ∧ Completed u rk seq 0x31 .repeated [])
      ∧ (s.mayFence c.src d = true → s.domState d ≠ .fenced → s.domState d ≠ .active → ∃ u, execResume rk seq env s = .next u
        ∧ Completed u rk seq 0x31 .busy [])
      ∧ (s.mayFence c.src d = true → s.domState d = .fenced → ∃ u, execResume rk seq env s = .next u
        ∧ u.fence d = { s.fence d with st := .reset, cmd := some (rk, seq), reset := true, ok := true }
        ∧ u.findExec rk seq = some { c with stage := 1 }) := by
  have hrun := execResume_runs h hd env
  have hnot : ¬((!true) = true) := Bool.false_ne_true
  refine ⟨fun hm => ⟨_, hrun, ?_⟩, fun hm ha => ⟨_, hrun, ?_⟩, fun hm hf ha => ⟨_, hrun, ?_⟩, fun hm hf => ⟨_, hrun, ?_⟩⟩
  · rw [hm, if_pos (show (!false) = true from rfl)]
    exact cmd_done _ _ h (by decide)
  · rw [hm, if_neg hnot, resumeBy_active ((cmdWake_domState ..).trans ha)]
    exact cmd_done _ _ h (by decide)
  · rw [hm, if_neg hnot, resumeBy_busy (by rw [cmdWake_domState]; exact hf) (by rw [cmdWake_domState]; exact ha)]
    exact cmd_done _ _ h (by decide)
  · have hwake : OnlyM _ s (s.cmdWake 0x31) := cmdWake_ok
    rw [hm, if_neg hnot]
    obtain ⟨hfence, hexec⟩ := resumeBy_fenced (s := s.cmdWake 0x31) ((cmdWake_domState ..).trans hf)
      ((hwake.findExec_eq (by decide) rk seq).trans h.1) env
    rw [hwake.fence_eq (by decide)] at hfence
    exact ⟨hfence, hexec⟩

theorem drainEnd_byReset (hst : s.domState d = .draining) (hclass : s.domClass d ≠ some 8) (hstaged : (s.fence d).staged = []) :
    ((s.fence d).reset = false → (s.fence d).cmd = some (rk, seq) → s.findExec rk seq = some c →
        ∃ u, execDrainEnd d s = .next u ∧ (u.fence d).st = .fenced ∧ (u.fence d).seq = (s.fence d).seq
          ∧ Completed u rk seq c.op .done [BitVec.ofNat 64 ((u.fence d).losses % 2 ^ 32 + (s.fence d).seq % 2 ^ 32 * 2 ^ 32)]
          ∧ (epKey 32 0, d, 2) ∈ u.flt.notices ∧ (epKey 35 0, d, 2) ∈ u.flt.notices ∧ (epKey 38 0, d, 2) ∈ u.flt.notices)
      ∧ ((s.fence d).reset = true → ∃ u, execDrainEnd d s = .next u ∧ (u.fence d).st = .reset
          ∧ (u.fence d).cmd = (s.fence d).cmd ∧ (epKey 32 0, d, 2) ∈ u.flt.notices) := by
  have hdrained : (s.drainDom d).fence d = s.fence d := fence_of_fences (drainDom_fences hclass) d
  have hann : ((s.drainDom d).announced d .fenced 2).fence d = { s.fence d with st := .fenced } := by
    rw [announced_fence, hdrained]
  refine ⟨fun hreset hcmd hexec => ⟨_, execDrainEnd_enters hst, ?_⟩, fun hreset => ⟨_, execDrainEnd_enters hst, ?_⟩⟩
  · have hfound : ((s.drainDom d).announced d .fenced 2).findExec rk seq = some c :=
      (announced_findExec ..).trans ((drainDom_ok.findExec_eq (by decide) rk seq).trans hexec)
    have hfin := fenceDone_finishes (d := d) ((congrArg Fence.cmd hann).trans hcmd) hfound
    have hdone := hfin.done
    have hnotices : (((s.drainDom d).announced d .fenced 2).fenceDone d .done).flt.notices =
        ((s.drainDom d).announced d .fenced 2).flt.notices := fenceDone_ok.notices_eq (by decide)
    rw [hann] at hdone
    rw [enterFenced_done ((congrArg Fence.staged hdrained).trans hstaged) ((congrArg Fence.reset hdrained).trans hreset),
      hnotices]
    exact ⟨hfin.st.trans (congrArg Fence.st hann), hfin.seqno.trans (by rw [hann]), hdone, announced_notices ..⟩
  · have hnotices : (((s.drainDom d).announced d .fenced 2).enterReset d).flt.notices =
        ((s.drainDom d).announced d .fenced 2).flt.notices := enterReset_ok.notices_eq (by decide)
    rw [enterFenced_resets ((congrArg Fence.staged hdrained).trans hstaged) ((congrArg Fence.reset hdrained).trans hreset),
      enterReset_fence, hann, hnotices]
    exact ⟨rfl, rfl, (announced_notices ..).1⟩

theorem reset_byClass (hst : s.domState d = .reset) (hstaged : (s.fence d).staged = []) (hamend : s.boot.amending = none)
    (hcmd : (s.fence d).cmd = some (rk, seq)) (hexec : s.findExec rk seq = some c) :
    (s.domClass d = some 6 ∨ s.domClass d = some 5 ∨ s.domClass d = some 8 ∧ ((s.span (d - 0x010)).state = 2
        ∨ s.spanTrains (d - 0x010) = false) →
        ∃ u, execResetComplete d s = .next u ∧ (u.fence d).st = .active ∧ (u.fence d).cmd = none
          ∧ Completed u rk seq c.op .done [BitVec.ofNat 64 ((u.fence d).losses % 2 ^ 32 + (s.fence d).seq % 2 ^ 32 * 2 ^ 32)]
          ∧ (s.domClass d = some 5 → u.pool.dir = []))
      ∧ (s.domClass d = some 9 → ∃ u, execResetComplete d s = .next u ∧ (u.fence d).st = .active ∧ (u.fence d).cmd = none)
      ∧ (s.domClass d = some 0 → (∀ w, (s.tile (d - 0x800)).resident w = false) → (s.tile (d - 0x800)).homeOf (d - 0x800) = d - 0x800 →
        ∃ u, execResetComplete d s = .next u ∧ (u.fence d).st = .active
          ∧ (u.tile (d - 0x800)).intake = [] ∧ (u.tile (d - 0x800)).wheel = [] ∧ (u.tile (d - 0x800)).merge = []) := by
  refine ⟨?_, fun h9 => ⟨_, execResetComplete_port hst h9, ?_⟩, fun h0 hvacant hhome => ⟨_, execResetComplete_tile hst h0, ?_⟩⟩
  · rintro (h6 | h5 | ⟨h8, hup⟩)
    · have hagain := enterActive_again (s := s.traceReset) hstaged hamend hcmd hexec
      exact ⟨_, execResetComplete_trace hst h6, hagain.st, hagain.cmd, hagain.done,
        fun h5 => absurd (h5.symm.trans h6) (by decide)⟩
    · have hagain := enterActive_again (s := s.dirEmptied) hstaged hamend hcmd hexec
      have hpool : (s.dirEmptied.enterActive d).pool = s.dirEmptied.pool := enterActive_ok.pool_eq (by decide)
      refine ⟨_, execResetComplete_pool hst h5, hagain.st, hagain.cmd, hagain.done, fun _ => ?_⟩
      rw [hpool]
      rfl
    · have hagain := enterActive_again hstaged hamend hcmd hexec
      exact ⟨_, execResetComplete_span hst h8 hup, hagain.st, hagain.cmd, hagain.done,
        fun h5 => absurd (h5.symm.trans h8) (by decide)⟩
  · have hagain := enterActive_again hstaged hamend hcmd hexec
    rw [portResume_ok.fence_eq (by decide)]
    exact ⟨hagain.st, hagain.cmd⟩
  · exact tile_returns hstaged hamend hcmd hexec hvacant hhome _ rfl

end Parts

section Heard
variable {s : State} {who d m : Nat} {l : List (Nat × Nat × Nat)}

theorem notice_isHeard (h : s.flt.notices = (who, d, m) :: l) :
    (who < 2048 → m = 2 → (s.tile who).idle = true → (s.tile who).intake = [] → (s.tile who).lrnBusy = none →
        ∃ u, execFenceNotice who s = .next u ∧ u.flt.notices = l
          ∧ (u.tile who).upstream = (s.tile who).upstream.map (fun x =>
              if (s.coveredTiles d).any (fun k => x.src = s.coord k) then { x with out := true } else x)
          ∧ (u.tile who).chainOut = (s.tile who).chainOut.filter (fun e => !(s.coveredTiles d).contains e.2.1))
      ∧ (who < 2048 → m = 0 → ∃ u, execFenceNotice who s = .next u ∧ u.flt.notices = l
          ∧ (u.tile who).upstream = (s.tile who).upstream.map (fun x =>
              if (s.coveredTiles d).any (fun k => x.src = s.coord k) then { x with out := false } else x))
      ∧ (who = epKey 32 0 → m = 2 → ∃ u, execFenceNotice who s = .next u ∧ u.flt.notices = l
          ∧ u.flt.hostReqs = s.flt.hostReqs.filter (fun e => !(s.coveredTiles d).contains e.2.1))
      ∧ (who = epKey 38 0 → m = 2 → ∃ u, execFenceNotice who s = .next u ∧ u.flt.notices = l
          ∧ u.tmp.worlds = s.tmp.worlds.map (fun (e : Nat × World) => (e.1, { e.2 with
              sweeps := (e.2.sweeps.map (fun x => (x.1, x.2.filter (fun t => !(s.coveredTiles d).contains t)))).filter
                (fun x => !x.2.isEmpty) }))) := by
  refine ⟨fun hwho hm hidle hintake hfree => ⟨_, execFenceNotice_tile h hwho, ?_⟩,
    fun hwho hm => ⟨_, execFenceNotice_tile h hwho, ?_⟩, fun hwho hm => ?_, fun hwho hm => ?_⟩
  · subst hm
    exact noticeTile_fenced (s := s.withNotices l) hidle hintake hfree (s.coveredTiles d) rfl
  · subst hm
    exact ⟨rfl, noticeTile_back (s.withNotices l) who d⟩
  · subst hwho hm
    exact ⟨_, execFenceNotice_hub h, noticeHub_hostReqs (s.withNotices l) d⟩
  · subst hwho hm
    exact ⟨_, execFenceNotice_tempo h, rfl, rfl⟩

end Heard

theorem update_isWritten {s : State} {d : Nat} (h : s.domState d = .update) :
    (∃ u, execUpdateWritten d s = .next u
        ∧ u.fence d = { s.fence d with st := .reset, staged := [] } ∧ ∀ j, j ≠ d → u.fence j = s.fence j)
      ∧ (s.domClass d ≠ some 0 → ∃ u, execUpdateWritten d s = .next u
        ∧ u.tiles = ((s.fence d).staged.foldl State.putUpdate s).tiles
        ∧ u.ports = ((s.fence d).staged.foldl State.putUpdate s).ports) := by
  refine ⟨⟨_, execUpdateWritten_takes h, ?_, fun j hj => ?_⟩, fun hclass => ⟨_, execUpdateWritten_takes h, ?_⟩⟩
  · rw [enterReset_fence, modFence_fence, fence_of_fences (sectionsWritten_fences s d)]
  · rw [enterReset_fence_other _ hj, modFence_fence_other _ hj, fence_of_fences (sectionsWritten_fences s d)]
  · rw [enterReset_ok.tiles_eq (by decide), enterReset_ok.ports_eq (by decide), sectionsWritten_sections hclass]
    exact ⟨rfl, rfl⟩

/-- Settles O45: the loss writer changes of a fence its count of records at most, and a drain only what its own domain holds. -/
theorem fencesMoveDomains : Obligations.FencesMoveDomains := by
  unfold Obligations.FencesMoveDomains
  intro s rk seq d who m env c l
  refine ⟨fun h hd => fence_byState h hd, fun h hd => resume_byState env h hd,
    fun hst hclass hstaged => drainEnd_byReset hst hclass hstaged, fun h => notice_isHeard h,
    fun h => (update_isWritten h).1, fun h hclass _ => (update_isWritten h).2 hclass,
    fun hst hstaged hamend hcmd hexec => reset_byClass hst hstaged hamend hcmd hexec,
    fun hready hpresent hbooted hkept hactive => ⟨_, execStackLost_fences hready hpresent hbooted hkept hactive, ?_⟩⟩
  exact ⟨(stackGone_fence s d).trans (stackFenced_fence hactive), stackGone_lost s d, stackGone_notice s d⟩

end Sys2Proof.Machine
end

section
/-! PROOF. O46: the loss writer takes its items in order, and quarantined units recover (R173, R300 to R308). -/

namespace Sys2Proof.Machine

open Sys2Proof

/-! ### A record of the ring -/

theorem colAddr_tile (t : Nat) {a : Nat} (h : a < 2 ^ 28) : colAddr t a / 2 ^ 28 = t ∧ colAddr t a % 2 ^ 28 = a := by
  unfold colAddr
  omega

/-- A tile without quarantined units holds each address in its own place. -/
theorem memAddr_plain {s : State} {t a : Nat} (hquar : (s.tile t).quar = []) (h : a < 2 ^ 28) :
    s.memAddr (colAddr t a) = colAddr t a := by
  obtain ⟨htile, hoff⟩ := colAddr_tile t h
  unfold State.memAddr
  rw [htile, hoff]
  unfold Tile.unitAddr Tile.quarOf
  rw [hquar]
  unfold colAddr
  dsimp only [List.find?_nil]
  omega

theorem colWrite_mem {s : State} {t a : Nat} (hquar : (s.tile t).quar = []) (h : a < 2 ^ 28) (n v : Nat) :
    (s.colWrite t a n v).mem = (s.mem.writeLE (colAddr t a) n v).heal (colAddr t a) n := by
  unfold State.colWrite
  dsimp only
  rw [memAddr_plain hquar h]

/-- The place of record k in its column. -/
def lossPlace (k : Nat) : Nat := 0xFF00000 + 16 * (k % 4096)

theorem lossPlace_lt (k : Nat) : lossPlace k + 8 < 2 ^ 28 := by
  unfold lossPlace
  omega

theorem lossStore_mem {s : State} {k : Nat} (hquar : (s.tile (k % 65536 / 4096)).quar = []) (w0 w1 : Nat) :
    (s.lossStore k w0 w1).mem = (((s.mem.writeLE (colAddr (k % 65536 / 4096) (lossPlace k)) 8 w0).heal
        (colAddr (k % 65536 / 4096) (lossPlace k)) 8).writeLE (colAddr (k % 65536 / 4096) (lossPlace k) + 8) 8 w1).heal
      (colAddr (k % 65536 / 4096) (lossPlace k) + 8) 8 := by
  have hwake : OnlyM _ s (s.wakeBank (k % 65536 / 4096)) := wakeBank_ok
  have hquar1 : ((s.wakeBank (k % 65536 / 4096)).tile (k % 65536 / 4096)).quar = [] := by
    rw [hwake.tile_eq (by decide)]
    exact hquar
  have hquar2 : (((s.wakeBank (k % 65536 / 4096)).colWrite (k % 65536 / 4096) (lossPlace k) 8 w0).tile (k % 65536 / 4096)).quar
      = [] := by
    rw [colWrite_ok.tile_eq (by decide)]
    exact hquar1
  have hplace := lossPlace_lt k
  have hshape : s.lossStore k w0 w1 = ((s.wakeBank (k % 65536 / 4096)).colWrite (k % 65536 / 4096) (lossPlace k) 8 w0).colWrite
      (k % 65536 / 4096) (lossPlace k + 8) 8 w1 := rfl
  have hadd (a : Nat) : colAddr (k % 65536 / 4096) (a + 8) = colAddr (k % 65536 / 4096) a + 8 := (Nat.add_assoc ..).symm
  rw [hshape, colWrite_mem hquar2 hplace, colWrite_mem hquar1 (by omega), hwake.mem_eq (by decide), hadd]

/-- A written record reads back: its two words in its place, and every other byte as it was. -/
theorem lossStore_reads {s : State} {k : Nat} (hwf : s.mem.wf = true) (hquar : (s.tile (k % 65536 / 4096)).quar = [])
    (w0 w1 a : Nat) (ha : a = colAddr (k % 65536 / 4096) (lossPlace k)) :
    (∀ j, j < 8 → (s.lossStore k w0 w1).mem.read (a + j) = BitVec.ofNat 8 (w0 / 256 ^ j))
      ∧ (∀ j, j < 8 → (s.lossStore k w0 w1).mem.read (a + 8 + j) = BitVec.ofNat 8 (w1 / 256 ^ j))
      ∧ ∀ b, (b < a ∨ a + 16 ≤ b) → (s.lossStore k w0 w1).mem.read b = s.mem.read b := by
  rw [lossStore_mem hquar, ← ha]
  refine ⟨fun j hj => ?_, fun j hj => ?_, fun b hb => ?_⟩
  · rw [read_heal, read_writeLE_out 8 _ _ _ _ (Or.inl (by omega)), read_heal, read_writeLE_in 8 hwf _ _ _ hj]
  · rw [read_heal, read_writeLE_in 8 (by exact wf_writeLE 8 hwf _ _) _ _ _ hj]
  · rw [read_heal, read_writeLE_out 8 _ _ _ _ (by omega), read_heal, read_writeLE_out 8 _ _ _ _ (by omega)]

section Item
variable {s : State} {i : LossItem} {r : List LossItem} (hq : s.flt.queue = i :: r)
include hq

theorem lossNext_writes (hstack : s.stackIsLost 0 = false) (hroom : s.flt.held + i.size ≤ 65536) :
    s.lossNext = (s.withLosses r).lossWrite i := by
  rw [lossNext_takes hq, if_neg (by rw [hstack]; simpa using hroom)]

theorem lossNext_overflows (hfull : s.stackIsLost 0 = true ∨ 65536 < s.flt.held + i.size) :
    s.lossNext = (s.withLosses r).overflow i := by
  refine (lossNext_takes hq).trans (if_pos ?_)
  rcases hfull with h | h
  · simp [h]
  · simp [h]

end Item

/-- After the records are counted, the ring and the memory stay. -/
theorem lossWrite_kept {s : State} {i : LossItem} (hsize : i.size = 1) :
    (s.lossWrite i).flt.head = s.flt.head + 1
      ∧ (s.lossWrite i).mem = (s.lossStore s.flt.head.toNat i.word0 i.b.toNat).mem := by
  have hstored : s.lossStored i = s.lossStore s.flt.head.toNat i.word0 i.b.toNat := by
    have hne : ¬i.size = 2 := by omega
    unfold State.lossStored
    split
    · exact if_neg hne
    · exact if_neg hne
  have hring (z : State) (l : List Nat) (b : Nat) : OnlyM 0x104800901000100 z (((l.foldl State.countLoss z).lossTurn i).lossMarks b) :=
    (only_lossMarks (only_lossTurn (onlyM_foldl (fun s d => only_modFence (OnlyM.refl _ s) (by decide)) (OnlyM.refl _ z)) (by decide))
      (by decide))
  have hhead := (hring (s.lossHeaded i) (i.doms.filter (fun d => !s.domActive d)) s.flt.held) .lossRing rfl
  simp only [Part.same, Prod.mk.injEq] at hhead
  have hmem := (hring (s.lossHeaded i) (i.doms.filter (fun d => !s.domActive d)) s.flt.held).mem_eq (by decide)
  rw [lossWrite_eq]
  refine ⟨hhead.1.trans ?_, hmem.trans ?_⟩
  · have hkept := (lossStored_ok s i) .lossRing rfl
    simp only [Part.same, Prod.mk.injEq] at hkept
    show (s.lossStored i).flt.head + BitVec.ofNat 32 i.size = s.flt.head + 1
    rw [hkept.1, hsize]
    rfl
  · show (s.lossStored i).mem = _
    rw [hstored]

theorem overflow_sampled {s : State} {i : LossItem} (h : i.sampled = true) : s.overflow i = s := if_pos h

/-- An item that finds the ring full is counted. -/
theorem overflow_counts {s : State} {i : LossItem} (h : i.sampled = false) :
    (s.overflow i).flt.queue = s.flt.queue ∧ (s.overflow i).flt.ovf = sat 32 s.flt.ovf 1
      ∧ tget 0 i.code.toNat (s.overflow i).flt.codeCnt = sat 32 (tget 0 i.code.toNat s.flt.codeCnt) 1
      ∧ (s.overflow i).flt.head = s.flt.head ∧ (s.overflow i).mem = s.mem := by
  have hturn (z : State) (w n : Nat) (f : TurnInfo → TurnInfo) : (z.modTurn w n f).flt = z.flt := by
    unfold State.modTurn
    dsimp only
    split
    · rfl
    · rfl
  have hmem : (s.overflow i).mem = s.mem := overflow_ok.mem_eq (by decide)
  unfold State.overflow at hmem ⊢
  rw [h, if_neg Bool.false_ne_true] at hmem ⊢
  dsimp only at hmem ⊢
  split
  · next heq =>
    rw [heq] at hmem
    rw [hturn]
    exact ⟨rfl, rfl, tget_tmod_same 0 i.code.toNat (fun n => sat 32 n 1) s.flt.codeCnt, rfl, hmem⟩
  · exact ⟨rfl, rfl, tget_tmod_same 0 i.code.toNat (fun n => sat 32 n 1) s.flt.codeCnt, rfl, rfl⟩

theorem overflow_noWorld {s : State} {i : LossItem} (h : i.sampled = false) (hw : i.w = none) :
    (s.overflow i).flt.ovfNoWorld = sat 32 s.flt.ovfNoWorld 1 ∧ (s.overflow i).tmp.worlds = s.tmp.worlds := by
  unfold State.overflow
  rw [h, if_neg Bool.false_ne_true, hw]
  exact ⟨rfl, rfl⟩

/-! ### Recovery of a quarantined unit -/

/-- A recovered unit's entry says so, and the loss queue takes the record of an accumulator at most. -/
theorem recover_quar (s : State) (t u src : Nat) :
    ((s.recover t u src).tile t).quar = (s.tile t).quar.map (fun q =>
        if q.unit = u then { q with recovered := true, source := src } else q)
      ∧ ((s.recover t u src).tile t).quarRecovered = sat 16 (s.tile t).quarRecovered 1 := by
  have hwritten (z : State) (a n : Nat) : (((z.colZero t a n).fillUnit t u src).putQuar t u).tile t = z.tile t := by
    rw [putQuar_ok.tile_eq (by decide), fillUnit_ok.tile_eq (by decide), colZero_ok.tile_eq (by decide)]
  unfold State.recover
  dsimp only
  split
  · rw [pushLoss_ok.tile_eq (by decide), hwritten]
    unfold State.markRecovered
    rw [modTile_tile]
    exact ⟨rfl, rfl⟩
  · rw [hwritten]
    unfold State.markRecovered
    rw [modTile_tile]
    exact ⟨rfl, rfl⟩

theorem recover_queue (s : State) (t u src : Nat) : (s.recover t u src).flt.queue =
    if src = 3 && s.regionOf t u ≠ some 5 then s.flt.queue ++ [s.segItem t u 2 none none] else s.flt.queue := by
  have hwritten (z : State) (a n : Nat) : (((z.colZero t a n).fillUnit t u src).putQuar t u).flt.queue = z.flt.queue := by
    rw [putQuar_ok.lossQueue_eq (by decide), fillUnit_ok.lossQueue_eq (by decide), colZero_ok.lossQueue_eq (by decide)]
  unfold State.recover
  dsimp only
  split
  · unfold State.pushLoss
    dsimp only
    rw [hwritten]
    rfl
  · rw [hwritten]
    rfl

section Recovery
variable {s : State} {t u : Nat}

theorem execRecoveryComplete_recovers
    (h : (((s.tile t).quar.filter (fun e => !e.recovered)).map (·.unit)).find? (fun k => decide (s.recoverySource t k ≠ 0)) = some u) :
    execRecoveryComplete t s = .next (s.recover t u (s.recoverySource t u)) := by
  unfold execRecoveryComplete State.recoverNext
  dsimp only
  rw [h]

theorem execRecoveryRetry_recovers
    (h : (((s.tile t).quar.filter (fun e => !e.recovered)).map (·.unit)).find? (fun k => decide (s.recoverySource t k = 2)) = some u) :
    execRecoveryRetry t s = .next (s.recover t u 2) := by
  unfold execRecoveryRetry
  rw [h]

theorem execRecoveryComplete_fences
    (hnone : (((s.tile t).quar.filter (fun e => !e.recovered)).map (·.unit)).find? (fun k => decide (s.recoverySource t k ≠ 0)) = none)
    (h : (((s.tile t).quar.filter (fun e => !e.recovered)).map (·.unit)).find?
      (fun k => s.sourceless t k && !(s.reloadSections t k).isEmpty) = some u) (hact : s.tileActive t = true) :
    execRecoveryComplete t s = .next ((s.stageUpdate (tileDom t) (s.reloadSections t u)).fenceStart (tileDom t) 0 true none 10 0x11) := by
  have hdom : (s.stageUpdate (tileDom t) (s.reloadSections t u)).domState (tileDom t) = .active := by
    obtain ⟨htile, -⟩ := (Bool.and_eq_true _ _).mp hact
    unfold State.stageUpdate State.domState
    rw [modFence_fence]
    exact of_decide_eq_true htile
  unfold execRecoveryComplete State.recoverNext
  dsimp only
  rw [hnone, h]
  dsimp only
  rw [if_pos hact]
  unfold State.updateStart
  rw [hdom]

end Recovery

/-- Settles O46: the ring holds the record that was written, and a recovery changes its own entry. -/
theorem lossesAreWrittenAndUnitsRecover : Obligations.LossesAreWrittenAndUnitsRecover := by
  unfold Obligations.LossesAreWrittenAndUnitsRecover
  intro s i r t u
  refine ⟨fun hq => congrArg Host.Outcome.next (lossNext_empty hq), fun hq hstack hroom hwf hquar hsize => ?_,
    fun hq hfull => ?_, fun h => ?_, fun h => ⟨_, execRecoveryRetry_recovers h, ?_⟩,
    fun hnone h hact => ⟨_, execRecoveryComplete_fences hnone h hact, ?_⟩⟩
  · obtain ⟨hhead, hmem⟩ := lossWrite_kept (s := s.withLosses r) hsize
    obtain ⟨hfirst, hsecond, hrest⟩ := lossStore_reads (s := s.withLosses r) (k := s.flt.head.toNat) hwf hquar i.word0 i.b.toNat _ rfl
    refine ⟨_, congrArg Host.Outcome.next (lossNext_writes hq hstack hroom), hhead, ?_⟩
    rw [hmem]
    exact ⟨hfirst, hsecond, hrest⟩
  · have hnext := congrArg (Host.Outcome.next (φ := Fault) (ρ := Refusal)) (lossNext_overflows hq hfull)
    refine ⟨fun hs => hnext.trans ?_, fun hs => ⟨_, hnext, ?_⟩⟩
    · rw [overflow_sampled hs]
      rfl
    · obtain ⟨hqueue, hovf, hcode, hhead, hmem⟩ := overflow_counts (s := s.withLosses r) hs
      exact ⟨hqueue, hovf, hcode, hhead, hmem, fun hw => overflow_noWorld (s := s.withLosses r) hs hw⟩
  · refine ⟨_, execRecoveryComplete_recovers h, (recover_quar ..).1, (recover_quar ..).2, ?_⟩
    rw [recover_queue]
    split
    · next hacc =>
      simp only [Bool.and_eq_true, decide_eq_true_eq] at hacc
      exact Or.inr ⟨rfl, hacc⟩
    · exact Or.inl rfl
  · refine ⟨(recover_quar ..).1, ?_⟩
    rw [recover_queue]
    rfl
  · rw [fenceStart_fence]
    unfold State.stageUpdate
    rw [modFence_fence]
    exact ⟨rfl, rfl, rfl⟩

end Sys2Proof.Machine
end

section
/-! PROOF. O47: the steward resets and restarts (R238, R265, R311). -/

namespace Sys2Proof.Machine

open Sys2Proof

/-! ### The reset -/

theorem complete_executing (s : State) (c : ExecCmd) {k : Code} (hk : k ≠ .failedLink) (r : List DWord) :
    (s.complete c k r).hub.executing = s.hub.executing.filter (fun d => !(d.rk = c.rk && d.seq = c.seq)) := by
  unfold State.complete
  dsimp only
  split
  · rfl
  · rw [if_neg hk]
    simp

/-- What stays in execution was there, and is none of the commands that failed. -/
theorem foldl_complete_executing {k : Code} (hk : k ≠ .failedLink) (l : List ExecCmd) {s : State} {c : ExecCmd}
    (h : c ∈ (l.foldl (fun s d => s.complete d k []) s).hub.executing) : c ∈ s.hub.executing ∧ c ∉ l := by
  induction l generalizing s with
  | nil => exact ⟨h, List.not_mem_nil⟩
  | cons a l ih =>
    obtain ⟨hin, hout⟩ := ih h
    rw [complete_executing s a hk, List.mem_filter] at hin
    refine ⟨hin.1, fun hmem => ?_⟩
    rcases List.mem_cons.mp hmem with rfl | hl
    · simp at hin
    · exact hout hl

/-- The command is one that a steward reset leaves alone. -/
theorem stewardFails_executing {s : State} {c : ExecCmd} (h : c ∈ s.stewardFails.hub.executing) :
    c ∈ s.hub.executing ∧ (opUnit c.op = 2 → s.isCommitted c = true) := by
  obtain ⟨hin, hkept⟩ := foldl_complete_executing (by decide) _ h
  refine ⟨hin, fun hop => ?_⟩
  rw [List.mem_filter] at hkept
  by_contra hnot
  exact hkept ⟨hin, by simp [hop, hnot]⟩

/-- The steward is in reset, and an amendment before its commit is gone. -/
def State.stewardStopped (s : State) : State :=
  { s with flt.stwReset := true, flt.stwResets := sat 16 s.flt.stwResets 1, boot.amending := s.boot.amending.filter (·.committed) }

/-- The state in which the steward goes down. -/
def State.stewardHeld (s : State) (cause : Nat) : State :=
  (((s.wakeDom 1 8 0).stewardFails.stewardStopped).eachOut (fun _ => true) Port.holdSafe).postFault 5 2 cause

theorem stewardDown_goes {s : State} (hready : s.isReady = true) (hup : s.flt.stwReset = false) (cause : Nat) :
    s.stewardDown cause = s.stewardHeld cause := by
  unfold State.stewardDown
  rw [hready, hup]
  rfl

theorem stewardDown_stays {s : State} (h : s.flt.stwReset = true) (cause : Nat) : s.stewardDown cause = s := by
  unfold State.stewardDown
  rw [h, Bool.or_true, if_pos rfl]

/-- What a steward reset does, and what goes on without it. -/
structure StewardWasReset (s u : State) : Prop where
  down : u.flt.stwReset = true
  resets : u.flt.stwResets = sat 16 s.flt.stwResets 1
  amending : u.boot.amending = s.boot.amending.filter (·.committed)
  ports : u.ports = s.ports.map (fun e => (e.1, e.2.eachOut (fun _ => true) Port.holdSafe))
  executing : ∀ c, c ∈ u.hub.executing → c ∈ s.hub.executing ∧ (opUnit c.op = 2 → s.isCommitted c = true)
  tmp : u.tmp = s.tmp
  tiles : u.tiles = s.tiles
  pool : u.pool = s.pool
  fences : u.flt.fences = s.flt.fences

theorem stewardHeld_reset (s : State) (cause : Nat) : StewardWasReset s (s.stewardHeld cause) := by
  have hwake : OnlyM _ s (s.wakeDom 1 8 0) := wakeDom_ok
  have hfails : OnlyM _ (s.wakeDom 1 8 0) (s.wakeDom 1 8 0).stewardFails := stewardFails_ok
  have hfault : OnlyM _ (((s.wakeDom 1 8 0).stewardFails.stewardStopped).eachOut (fun _ => true) Port.holdSafe)
    (s.stewardHeld cause) := postFault_ok
  have hsteward := hfault .steward rfl
  have hbefore := hfails .steward rfl
  have hwoken := hwake .steward rfl
  simp only [Part.same, Prod.mk.injEq] at hsteward hbefore hwoken
  have hkept (c : ExecCmd) : (s.wakeDom 1 8 0).isCommitted c = s.isCommitted c := by
    unfold State.isCommitted
    rw [hwake.amending_eq (by decide)]
  refine ⟨hsteward.1.trans rfl, hsteward.2.trans ?_, (hfault.amending_eq (by decide)).trans ?_,
    (hfault.ports_eq (by decide)).trans ?_, fun c hc => ?_, (hfault.tmp_eq (by decide)).trans ?_,
    (hfault.tiles_eq (by decide)).trans ?_, (hfault.pool_eq (by decide)).trans ?_, (hfault.fences_eq (by decide)).trans ?_⟩
  · exact congrArg (fun n => sat 16 n 1) (hbefore.2.trans hwoken.2)
  · exact congrArg (Option.filter (·.committed)) ((hfails.amending_eq (by decide)).trans (hwake.amending_eq (by decide)))
  · exact congrArg (List.map fun e => (e.1, Port.eachOut e.2 (fun _ => true) Port.holdSafe))
      ((hfails.ports_eq (by decide)).trans (hwake.ports_eq (by decide)))
  · rw [hfault.executing_eq (by decide)] at hc
    obtain ⟨hin, hcommitted⟩ := stewardFails_executing (s := s.wakeDom 1 8 0) hc
    rw [hwake.executing_eq (by decide)] at hin
    exact ⟨hin, fun hop => (hkept c).symm.trans (hcommitted hop)⟩
  · exact (hfails.tmp_eq (by decide)).trans (hwake.tmp_eq (by decide))
  · exact (hfails.tiles_eq (by decide)).trans (hwake.tiles_eq (by decide))
  · exact (hfails.pool_eq (by decide)).trans (hwake.pool_eq (by decide))
  · exact (hfails.fences_eq (by decide)).trans (hwake.fences_eq (by decide))

/-- The answer of a register write changes nothing of a steward reset. -/
theorem StewardWasReset.respond {s u : State} (h : StewardWasReset s u) (m : Nat) : StewardWasReset s (u.respond m []) := by
  have hk : OnlyM _ u (u.respond m []) := respond_ok
  have hst := hk .steward rfl
  simp only [Part.same, Prod.mk.injEq] at hst
  exact ⟨hst.1.trans h.down, hst.2.trans h.resets, (hk.amending_eq (by decide)).trans h.amending,
    (hk.ports_eq (by decide)).trans h.ports, fun c hc => h.executing c (by rwa [hk.executing_eq (by decide)] at hc),
    (hk.tmp_eq (by decide)).trans h.tmp, (hk.tiles_eq (by decide)).trans h.tiles, (hk.pool_eq (by decide)).trans h.pool,
    (hk.fences_eq (by decide)).trans h.fences⟩

theorem StewardWasReset.all {s u : State} (h : StewardWasReset s u) : u.flt.stwReset = true
    ∧ u.flt.stwResets = sat 16 s.flt.stwResets 1 ∧ u.boot.amending = s.boot.amending.filter (·.committed)
    ∧ u.ports = s.ports.map (fun e => (e.1, e.2.eachOut (fun _ => true) Port.holdSafe))
    ∧ (∀ c, c ∈ u.hub.executing → c ∈ s.hub.executing ∧ (opUnit c.op = 2 → s.isCommitted c = true))
    ∧ u.tmp = s.tmp ∧ u.tiles = s.tiles ∧ u.pool = s.pool ∧ u.flt.fences = s.flt.fences :=
  ⟨h.down, h.resets, h.amending, h.ports, h.executing, h.tmp, h.tiles, h.pool, h.fences⟩

section Write
variable {s : State} {m : Nat} (hready : s.isReady = true)
include hready

theorem execStewardReset_writes (hadmin : s.has m .hubBlock .admin = true) (v : Word) :
    execStewardReset m v s = .next ((if v.getLsbD 16 then s.stewardDown 2 else s).respond m []) := by
  have hright : s.barRight m hubStw .admin = true := hadmin
  exact ownReg_applies hready (barCheck_allowed rfl hright rfl rfl) rfl

theorem execStewardReset_refused (h : s.has m .hubBlock .admin = false) (v : Word) :
    execStewardReset m v s = .next (s.refuse m false hubStw .failedAccess false) := by
  have hright : s.barRight m hubStw .admin = false := h
  have hcheck : s.barCheck m hubStw 4 false .admin = some .failedAccess := by
    unfold State.barCheck
    refine if_pos ?_
    rw [hright]
    simp
  unfold execStewardReset ownReg
  rw [hready, if_pos rfl, hcheck]

end Write

/-! ### The restart -/

section Restart
variable {s : State} (hready : s.isReady = true) (hreset : s.flt.stwReset = true)
include hready hreset

/-- The state in which the steward runs again. -/
def State.stewardUp (s : State) : State :=
  (({ s with flt.stwReset := false, hub.epoch.heldSum := 0 } : State).postFault 6 2 0).bootLog 0x46 none

theorem execStewardRestart_restarts (hload : s.stewardLoads = true) :
    execStewardRestart s = .next ((s.stewardUp.drainAdd s.hub.epoch.heldSum).drainCheck) := by
  unfold execStewardRestart
  rw [hready, hreset, hload]
  rfl

theorem execStewardRestart_fails (hload : s.stewardLoads = false) : execStewardRestart s = .next (s.bootLog 0x0F none) := by
  unfold execStewardRestart
  rw [hready, hreset, hload]
  rfl

end Restart

theorem bootLog_entry (s : State) (code : Nat) (detail : Option Nat) :
    ∃ w, tget (0, 0) s.boot.logHead (s.bootLog code detail).boot.log = w ∧ w.1.toNat % 2 ^ 8 = code % 2 ^ 8 := by
  refine ⟨_, tget_tset_same .., ?_⟩
  rw [BitVec.toNat_ofNat]
  omega

theorem stewardUp_fields (s : State) : s.stewardUp.flt.stwReset = false ∧ s.stewardUp.hub.epoch.heldSum = 0
    ∧ s.stewardUp.hub.epoch.state = s.hub.epoch.state ∧ s.stewardUp.hub.epoch.drainPip = s.hub.epoch.drainPip
    ∧ ∀ n, s.stewardUp.pip n = s.pip n := by
  unfold State.stewardUp
  generalize hz : ({ s with flt.stwReset := false, hub.epoch.heldSum := 0 } : State) = z
  have hfault : OnlyM _ z (z.postFault 6 2 0) := postFault_ok
  have hlog : OnlyM _ (z.postFault 6 2 0) ((z.postFault 6 2 0).bootLog 0x46 none) := bootLog_ok
  have h1 := hfault .steward rfl
  have h2 := hlog .steward rfl
  simp only [Part.same, Prod.mk.injEq] at h1 h2
  refine ⟨(h2.1.trans h1.1).trans (by rw [← hz]), ?_, ?_, ?_, fun n => ?_⟩
  · rw [hlog.epoch_eq (by decide), hfault.epoch_eq (by decide), ← hz]
  · rw [hlog.epoch_eq (by decide), hfault.epoch_eq (by decide), ← hz]
  · rw [hlog.epoch_eq (by decide), hfault.epoch_eq (by decide), ← hz]
  · rw [hlog.pip_eq (by decide), hfault.pip_eq (by decide), ← hz]
    rfl

theorem drainLost_heldSum (s : State) : s.drainLost.hub.epoch.heldSum = s.hub.epoch.heldSum := by
  have hloss : OnlyM _ s (s.hub.epoch.lost.foldl (fun s st => s.pushLoss
      { code := .failedEpoch, kind := 0x8, w := none, reporter := s.hubReporter, a := 0, b := BitVec.ofNat 64 (stackDom st),
        ext := none, stamp := none, sampled := false }) s) := onlyM_foldl (fun _ _ => pushLoss_ok) (OnlyM.refl _ _)
  unfold State.drainLost
  dsimp only
  split
  · rfl
  · show (State.internalAdd _ 1 _ _).hub.epoch.heldSum = s.hub.epoch.heldSum
    rw [internalAdd_ok.epoch_eq (by decide), hloss.epoch_eq (by decide)]

/-- The check of the drain keeps the hub core's sum. -/
theorem drainCheck_heldSum (s : State) : s.drainCheck.hub.epoch.heldSum = s.hub.epoch.heldSum := by
  unfold State.drainCheck
  split
  · rfl
  · dsimp only
    split
    · split
      · rw [completeAt_ok.epoch_eq (by decide)]
        exact drainLost_heldSum s
      · exact drainLost_heldSum s
    · exact drainLost_heldSum s

theorem drainCheck_off {s : State} (h : s.hub.epoch.state = 0) : s.drainCheck = s := by
  unfold State.drainCheck
  refine if_pos ?_
  simp [h]

/-- The steward that runs applies a sum to the drain pip, or none. -/
theorem drainAdd_up {s : State} (h : s.flt.stwReset = false) (n : Int) : OnlyM 0x100800501000000 s (s.drainAdd n) := by
  unfold State.drainAdd
  rw [h, if_neg Bool.false_ne_true]
  split
  · exact OnlyM.refl _ _
  · exact internalAdd_ok

theorem stwReset_kept {m : Nat} {s u : State} (h : OnlyM m s u) (hm : m.testBit (Part.idx .steward) = false) :
    u.flt.stwReset = s.flt.stwReset := by
  have hst := h .steward hm
  simp only [Part.same, Prod.mk.injEq] at hst
  exact hst.1

/-- The hub itself has every right on a pip. -/
theorem pipRight_hub (s : State) (n : Nat) : s.pipRight 1 n = .admin := by
  unfold State.pipRight State.right State.fixedRight
  split
  · rfl
  · rfl

theorem internalAdd_hub {s : State} {n : Nat} {inc : Word} {p : Pip} (h : (s.pip n).add inc = some p) :
    (s.internalAdd 1 n inc).pip n = p := by
  have hadmin : 2 ≤ (s.pipRight 1 n).rank := by
    rw [pipRight_hub]
    decide
  unfold State.internalAdd
  rw [if_pos hadmin, h]
  exact putPip_pip_self ..

/-- Settles O47: a reset ends what the steward executes and nothing else, and a restart applies the sum kept for it. -/
theorem stewardResetsAndRestarts : Obligations.StewardResetsAndRestarts := by
  unfold Obligations.StewardResetsAndRestarts
  intro s m v i
  refine ⟨fun hready hup hi => ?_, fun hready hreset hi => ?_, fun hready hadmin hbit => ?_, fun hready hno => ?_,
    fun hready hreset => ⟨fun hload => ⟨_, execStewardRestart_fails hready hreset hload, hreset, rfl, bootLog_entry s 0x0F none⟩,
      fun hload => ⟨_, execStewardRestart_restarts hready hreset hload, ?_⟩,
      fun hload hstate hheld p hp => ⟨_, execStewardRestart_restarts hready hreset hload, ?_⟩⟩⟩
  · rcases hi with ⟨rfl, hadmin, hbit⟩ | rfl | rfl
    · refine ⟨_, execStewardReset_writes hready hadmin v, ?_⟩
      rw [hbit, if_pos rfl, stewardDown_goes hready hup]
      exact ((stewardHeld_reset s 2).respond m).all
    · exact ⟨_, congrArg Host.Outcome.next (stewardDown_goes hready hup 0), (stewardHeld_reset s 0).all⟩
    · exact ⟨_, congrArg Host.Outcome.next (stewardDown_goes hready hup 1), (stewardHeld_reset s 1).all⟩
  · rcases hi with rfl | rfl
    · exact congrArg Host.Outcome.next (stewardDown_stays hreset 0)
    · exact congrArg Host.Outcome.next (stewardDown_stays hreset 1)
  · refine (execStewardReset_writes hready hadmin v).trans ?_
    rw [hbit]
    rfl
  · refine ⟨_, execStewardReset_refused hready hno v, stwReset_kept refuse_ok (by decide), ?_⟩
    unfold State.refuse
    rw [modMaster_master]
  · obtain ⟨hup, hheld, -⟩ := stewardUp_fields s
    have hadd := drainAdd_up hup s.hub.epoch.heldSum
    refine ⟨?_, ?_⟩
    · rw [stwReset_kept drainCheck_ok (by decide), stwReset_kept hadd (by decide)]
      exact hup
    · rw [drainCheck_heldSum, hadd.epoch_eq (by decide)]
      exact hheld
  · obtain ⟨hup, hsum, hst, hpip, hpips⟩ := stewardUp_fields s
    have hepoch := (drainAdd_up hup s.hub.epoch.heldSum).epoch_eq (by decide)
    rw [drainCheck_off (by rw [hepoch, hst]; exact hstate), hepoch]
    refine ⟨?_, hsum⟩
    rw [drainAdd_applies hup hheld, hpip, internalAdd_hub ((congrArg (fun x => Pip.add x _) (hpips _)).trans hp)]

end Sys2Proof.Machine
end

section
/-! PROOF. O48: AMEND and its commit (R22, R98, R208, R266 to R268). -/

namespace Sys2Proof.Machine

open Sys2Proof

/-! ### AMEND's answer -/

/-- What AMEND does of an amendment that was fetched. -/
def State.amendOf (s : State) (c : ExecCmd) (im : Image) : State :=
  match s.amendRefusal im with
  | some (i, code) => s.amendRefused c i code
  | none =>
    if s.bankedBusy im then s.complete c .busy []
    else if wf (c.words.getD 1 0) 10 10 = 1 then
      s.complete c .done [BitVec.ofNat 64 (im.amendSeq % 2 ^ 32 + im.sections.length % 2 ^ 16 * 2 ^ 32)]
    else
      State.begun { s with boot.amending := some { rk := c.rk, seq := c.seq, im := im, committed := false, doms := [] } } c

/-- What AMEND does as it runs. -/
def State.amendAnswer (s : State) (c : ExecCmd) (am : Option Image) : State :=
  if !s.has c.src .bootBlock .admin || !amendArgs c then s.complete c .failedAccess []
  else if 4 ≤ c.words.length && wf (c.words.getD 3 0) 31 0 = s.boot.amendSeq then s.complete c .repeated []
  else if s.boot.amending.isSome then s.complete c .busy []
  else
    match am with
    | none => s.amendRefused c none 0x0C
    | some im => s.amendOf c im

theorem execAmend_runs {s : State} {rk seq : Nat} {c : ExecCmd} (h : Begins s rk seq 0x11 c) (am : Option Image) :
    execAmend rk seq am s = .next ((s.cmdWake 0x11).amendAnswer c am) := by
  refine (runCmd_all h).trans (congrArg Host.Outcome.next ?_)
  unfold State.amendAnswer State.amendOf
  split
  · rfl
  · split
    · rfl
    · split
      · rfl
      · cases am with
        | none => rfl
        | some im =>
          cases (s.cmdWake 0x11).amendRefusal im with
          | none => rfl
          | some p => rfl

section Answer
variable {s : State} {c : ExecCmd} {am : Option Image} {im : Image}

theorem amendAnswer_noRight (h : s.has c.src .bootBlock .admin = false ∨ amendArgs c = false) :
    s.amendAnswer c am = s.complete c .failedAccess [] := by
  refine if_pos ?_
  rcases h with h | h
  · simp [h]
  · simp [h]

variable (hadmin : s.has c.src .bootBlock .admin = true) (hargs : amendArgs c = true)
include hadmin hargs

theorem amendAnswer_repeated (hlen : 4 ≤ c.words.length) (hseq : wf (c.words.getD 3 0) 31 0 = s.boot.amendSeq) :
    s.amendAnswer c am = s.complete c .repeated [] := by
  unfold State.amendAnswer
  rw [if_neg (by simp [hadmin, hargs]), if_pos (by rw [decide_eq_true hlen, decide_eq_true hseq]; rfl)]

variable (hlen : c.words.length < 4)
include hlen

theorem amendAnswer_busy (hhand : s.boot.amending.isSome = true) : s.amendAnswer c am = s.complete c .busy [] := by
  unfold State.amendAnswer
  rw [if_neg (by simp [hadmin, hargs]), if_neg (by simp [hlen]), if_pos hhand]

theorem amendAnswer_checks (hhand : s.boot.amending = none) : s.amendAnswer c (some im) = s.amendOf c im := by
  unfold State.amendAnswer
  rw [if_neg (by simp [hadmin, hargs]), if_neg (by simp [hlen]), if_neg (by simp [hhand])]

end Answer

section Of
variable {s : State} {c : ExecCmd} {im : Image}

theorem amendOf_refused {i : Option Nat} {code : Nat} (h : s.amendRefusal im = some (i, code)) :
    s.amendOf c im = s.amendRefused c i code := by
  unfold State.amendOf
  rw [h]

theorem bankedBusy_idle (h : s.hub.epoch.state = 0) : s.bankedBusy im = false := by
  unfold State.bankedBusy
  rw [h]
  rfl

theorem amendOf_checked (h : s.amendRefusal im = none) (hidle : s.hub.epoch.state = 0) (honly : wf (c.words.getD 1 0) 10 10 = 1) :
    s.amendOf c im = s.complete c .done [BitVec.ofNat 64 (im.amendSeq % 2 ^ 32 + im.sections.length % 2 ^ 16 * 2 ^ 32)] := by
  unfold State.amendOf
  rw [h]
  dsimp only
  rw [bankedBusy_idle hidle, if_neg Bool.false_ne_true, if_pos honly]

/-- The amendment waits for its commit. -/
def State.amendHeld (s : State) (c : ExecCmd) (im : Image) : State :=
  { s with boot.amending := some { rk := c.rk, seq := c.seq, im := im, committed := false, doms := [] } }

theorem amendOf_waits (h : s.amendRefusal im = none) (hidle : s.hub.epoch.state = 0) (honly : wf (c.words.getD 1 0) 10 10 ≠ 1) :
    s.amendOf c im = (s.amendHeld c im).begun c := by
  unfold State.amendOf
  rw [h]
  dsimp only
  rw [bankedBusy_idle hidle, if_neg Bool.false_ne_true, if_neg honly]
  rfl

theorem amendRefusal_header (h : headerCode s im 0x3141424C ≠ 0 ∨ im.baseImageId ≠ s.boot.imageId) :
    s.amendRefusal im = some (none, 2) := by
  refine if_pos ?_
  rw [Bool.or_eq_true, decide_eq_true_eq, decide_eq_true_eq]
  exact h

/-- A header and a base image that fit pass. -/
theorem amendHeader_fits (hhead : headerCode s im 0x3141424C = 0) (hbase : im.baseImageId = s.boot.imageId) :
    ¬((headerCode s im 0x3141424C ≠ 0 || im.baseImageId ≠ s.boot.imageId) = true) := by
  rw [Bool.or_eq_true, decide_eq_true_eq, decide_eq_true_eq]
  exact fun hbad => hbad.elim (fun h => h hhead) (fun h => h hbase)

theorem amendRefusal_key (hhead : headerCode s im 0x3141424C = 0) (hbase : im.baseImageId = s.boot.imageId)
    (h : keyCode s im ≠ 0) : s.amendRefusal im = some (none, keyCode s im) := by
  unfold State.amendRefusal
  rw [if_neg (amendHeader_fits hhead hbase), if_pos h]

theorem amendRefusal_order (hhead : headerCode s im 0x3141424C = 0) (hbase : im.baseImageId = s.boot.imageId)
    (hkey : keyCode s im = 0) (h : im.secVersion < s.fuses.floor ∨ im.amendSeq ≤ s.boot.amendSeq) :
    s.amendRefusal im = some (none, 5) := by
  have hold : (im.secVersion < s.fuses.floor || im.amendSeq ≤ s.boot.amendSeq) = true := by
    rcases h with h | h
    · simp [h]
    · simp [h]
  unfold State.amendRefusal
  rw [if_neg (amendHeader_fits hhead hbase), if_neg (not_not_intro hkey), if_pos hold]

end Of

/-- The index that a refusal answers. -/
def State.refusalIndex (s : State) (ix : Option Nat) : Nat := ix.getD (Config.freeIndex s.freeCtr) % 2 ^ 16

/-- A refused amendment answers its code and index, and leaves the amendments in force. -/
theorem amendRefused_answers {z s : State} {rk seq : Nat} {c : ExecCmd} (h : Begins s rk seq 0x11 c) (ix : Option Nat) (code : Nat) :
    Completed (z.amendRefused c ix code) rk seq 0x11 .failedAccess [BitVec.ofNat 64 (code + z.refusalIndex ix * 2 ^ 16)]
      ∧ (z.amendRefused c ix code).boot.refCode = code ∧ (z.amendRefused c ix code).boot.amending = z.boot.amending
      ∧ (z.amendRefused c ix code).boot.amendSeq = z.boot.amendSeq := by
  unfold State.amendRefused
  dsimp only
  refine ⟨cmd_done _ _ h (by decide), ?_⟩
  rw [complete_ok.boot_eq (by decide)]
  exact ⟨rfl, rfl, rfl⟩

section Amend
variable {s : State} {rk seq ix code : Nat} {c : ExecCmd} {im : Image} (h : Begins s rk seq 0x11 c)
include h

/-- An answer that completes the command leaves the boot registers. -/
theorem amendDone (k : Code) (hk : k ≠ .failedLink) (r : List DWord) :
    Completed ((s.cmdWake 0x11).complete c k r) rk seq 0x11 k r ∧ ((s.cmdWake 0x11).complete c k r).boot = s.boot :=
  ⟨cmd_done _ _ h hk, (complete_ok.boot_eq (by decide)).trans (cmdWake_ok.boot_eq (by decide))⟩

theorem execAmend_noRight (am : Option Image) (hno : s.has c.src .bootBlock .admin = false ∨ amendArgs c = false) :
    ∃ u, execAmend rk seq am s = .next u ∧ Completed u rk seq 0x11 .failedAccess [] ∧ u.boot = s.boot := by
  refine ⟨_, execAmend_runs h am, ?_⟩
  rw [amendAnswer_noRight (by rw [cmdWake_has]; exact hno)]
  exact amendDone h _ (by decide) _

variable (hadmin : s.has c.src .bootBlock .admin = true) (hargs : amendArgs c = true)
include hadmin hargs

theorem execAmend_repeated (am : Option Image) (hlen : 4 ≤ c.words.length)
    (hseq : wf (c.words.getD 3 0) 31 0 = s.boot.amendSeq) :
    ∃ u, execAmend rk seq am s = .next u ∧ Completed u rk seq 0x11 .repeated [] ∧ u.boot = s.boot := by
  have hboot : (s.cmdWake 0x11).boot = s.boot := cmdWake_ok.boot_eq (by decide)
  refine ⟨_, execAmend_runs h am, ?_⟩
  rw [amendAnswer_repeated ((cmdWake_has ..).trans hadmin) hargs hlen (by rw [hboot]; exact hseq)]
  exact amendDone h _ (by decide) _

variable (hlen : c.words.length < 4)
include hlen

theorem execAmend_busy (am : Option Image) (hhand : s.boot.amending.isSome = true) :
    ∃ u, execAmend rk seq am s = .next u ∧ Completed u rk seq 0x11 .busy [] ∧ u.boot = s.boot := by
  have hboot : (s.cmdWake 0x11).boot = s.boot := cmdWake_ok.boot_eq (by decide)
  refine ⟨_, execAmend_runs h am, ?_⟩
  rw [amendAnswer_busy ((cmdWake_has ..).trans hadmin) hargs hlen (by rw [hboot]; exact hhand)]
  exact amendDone h _ (by decide) _

variable (hhand : s.boot.amending = none)
include hhand

theorem execAmend_checks : execAmend rk seq (some im) s = .next ((s.cmdWake 0x11).amendOf c im) := by
  have hboot : (s.cmdWake 0x11).boot = s.boot := cmdWake_ok.boot_eq (by decide)
  rw [execAmend_runs h, amendAnswer_checks ((cmdWake_has ..).trans hadmin) hargs hlen (by rw [hboot]; exact hhand)]

theorem execAmend_refused {i : Option Nat} (href : (s.cmdWake 0x11).amendRefusal im = some (i, code)) :
    ∃ u, execAmend rk seq (some im) s = .next u
      ∧ Completed u rk seq 0x11 .failedAccess [BitVec.ofNat 64 (code + (s.cmdWake 0x11).refusalIndex i * 2 ^ 16)]
      ∧ u.boot.refCode = code ∧ u.boot.amending = none ∧ u.boot.amendSeq = s.boot.amendSeq := by
  have hboot : (s.cmdWake 0x11).boot = s.boot := cmdWake_ok.boot_eq (by decide)
  obtain ⟨hdone, hcode, hamend, hseq⟩ := amendRefused_answers (z := s.cmdWake 0x11) h i code
  rw [hboot] at hamend hseq
  refine ⟨_, execAmend_checks h hadmin hargs hlen hhand, ?_⟩
  rw [amendOf_refused href]
  exact ⟨hdone, hcode, hamend.trans hhand, hseq⟩

theorem execAmend_accepted (hpass : (s.cmdWake 0x11).amendRefusal im = none) (hidle : s.hub.epoch.state = 0) :
    (wf (c.words.getD 1 0) 10 10 = 1 → ∃ u, execAmend rk seq (some im) s = .next u ∧ u.boot = s.boot
        ∧ Completed u rk seq 0x11 .done [BitVec.ofNat 64 (im.amendSeq % 2 ^ 32 + im.sections.length % 2 ^ 16 * 2 ^ 32)])
      ∧ (wf (c.words.getD 1 0) 10 10 ≠ 1 → ∃ u, execAmend rk seq (some im) s = .next u
        ∧ u.findExec rk seq = some { c with stage := 1 }
        ∧ u.boot = { s.boot with amending := some { rk := rk, seq := seq, im := im, committed := false, doms := [] } }) := by
  have hwake : OnlyM _ s (s.cmdWake 0x11) := cmdWake_ok
  have hboot : (s.cmdWake 0x11).boot = s.boot := hwake.boot_eq (by decide)
  have hstill : (s.cmdWake 0x11).hub.epoch.state = 0 := (congrArg Epoch.state (hwake.epoch_eq (by decide))).trans hidle
  refine ⟨fun honly => ⟨_, execAmend_checks h hadmin hargs hlen hhand, ?_⟩,
    fun honly => ⟨_, execAmend_checks h hadmin hargs hlen hhand, ?_⟩⟩
  · rw [amendOf_checked hpass hstill honly]
    exact (amendDone h _ (by decide) _).symm
  · obtain ⟨erk, eseq⟩ := findExec_keys h.1
    rw [amendOf_waits hpass hstill honly]
    refine ⟨findExec_begun _ c ((hwake.findExec_eq (by decide) rk seq).trans h.1), ?_⟩
    show ({ (s.cmdWake 0x11).boot with
      amending := some { rk := c.rk, seq := c.seq, im := im, committed := false, doms := [] } } : Boot) = _
    rw [hboot, erk, eseq]

end Amend

/-! ### The commit -/

theorem amend_kept {m : Nat} {s u : State} (h : OnlyM m s u) (hm : m.testBit (Part.idx .amend) = false) :
    u.boot.amending = s.boot.amending ∧ u.boot.amendSeq = s.boot.amendSeq ∧ u.boot.amended = s.boot.amended := by
  have hp := h .amend hm
  simp only [Part.same, Prod.mk.injEq] at hp
  tauto

/-- The list of amendments in force, which the check of the one in hand keeps. -/
theorem amendCheck_list (s : State) : s.amendCheck.boot.amendSeq = s.boot.amendSeq ∧ s.amendCheck.boot.amended = s.boot.amended := by
  unfold State.amendCheck
  split
  · exact ⟨rfl, rfl⟩
  · split
    · rw [completeAt_ok.boot_eq (by decide)]
      exact ⟨rfl, rfl⟩
    · exact ⟨rfl, rfl⟩

/-- A section that is taken leaves the amendments in force as they are. -/
def SameAmend (s u : State) : Prop :=
  u.boot.amending = s.boot.amending ∧ u.boot.amendSeq = s.boot.amendSeq ∧ u.boot.amended = s.boot.amended

theorem SameAmend.trans {s t u : State} (h : SameAmend s t) (g : SameAmend t u) : SameAmend s u :=
  ⟨g.1.trans h.1, g.2.1.trans h.2.1, g.2.2.trans h.2.2⟩

theorem foldl_sameAmend {α : Type} {f : State → α → State} (hf : ∀ s a, SameAmend s (f s a)) (l : List α) (s : State) :
    SameAmend s (l.foldl f s) := by
  induction l generalizing s with
  | nil => exact ⟨rfl, rfl, rfl⟩
  | cons a l ih => exact (hf s a).trans (ih _)

theorem amendTake_sameAmend (s sh : State) (x : Section) : SameAmend s (s.amendTake sh x) := by
  have hput : SameAmend s (s.amendPut x) := amend_kept amendPut_ok (by decide)
  unfold State.amendTake
  split
  · exact amend_kept bootLog_ok (by decide)
  · split
    · dsimp only
      split
      · exact hput
      · exact hput
    · exact amend_kept (onlyM_foldl (fun _ _ => stageUpdate_ok) (OnlyM.refl _ _)) (by decide)

/-- The amendment in hand is committed: its sections, in load order, stand in the list. -/
def State.amendListed (s : State) (a : Amending) (l : List Section) (ds : List Nat) : State :=
  { s with boot.amending := some { a with committed := true, doms := ds }, boot.amendSeq := a.im.amendSeq,
           boot.amended := s.boot.amended ++ l }

/-- The commit before the check of what it waits for. -/
def State.amendBegun (s : State) (a : Amending) (l : List Section) (ds : List Nat) : State :=
  ((ds.foldl State.amendStart (l.foldl (fun z x => z.amendTake (s.shadow a.im) x) (s.amendListed a l ds))).bootLog 0x44
    (some a.im.amendSeq))

theorem amendCommitted_eq (s : State) (a : Amending) : s.amendCommitted a =
    (s.amendBegun a ((loadOrder a.im.sections).map (·.1))
      ((((loadOrder a.im.sections).map (·.1)).flatMap (s.shadow a.im).updateDoms).eraseDups)).amendCheck := rfl

theorem amendBegun_sameAmend (s : State) (a : Amending) (l : List Section) (ds : List Nat) :
    SameAmend (s.amendListed a l ds) (s.amendBegun a l ds) :=
  ((foldl_sameAmend (fun z x => amendTake_sameAmend z (s.shadow a.im) x) l _).trans
    (foldl_sameAmend (fun _ _ => amend_kept amendStart_ok (by decide)) ds _)).trans (amend_kept bootLog_ok (by decide))

section Commit
variable {s : State} {a : Amending} (hhand : s.boot.amending = some a)
include hhand

theorem execAmendCommit_waits (h : a.committed = true ∨ s.flt.stwReset = true) : execAmendCommit s = .next s := by
  unfold execAmendCommit
  rw [hhand]
  refine if_pos ?_
  rcases h with h | h
  · simp [h]
  · simp [h]

theorem execAmendCommit_commits (hnew : a.committed = false) (hup : s.flt.stwReset = false) :
    execAmendCommit s = .next (s.amendCommitted a) := by
  unfold execAmendCommit
  rw [hhand]
  refine if_neg ?_
  rw [hnew, hup]
  exact Bool.false_ne_true

end Commit

theorem loadOrder_one (x : Section) : (loadOrder [x]).map (·.1) = [x] := rfl

section One
variable {s : State} {a : Amending} {x : Section} {d : Nat} (hone : a.im.sections = [x])
include hone

theorem amendCommitted_one : s.amendCommitted a =
    (s.amendBegun a [x] (((s.shadow a.im).updateDoms x).eraseDups)).amendCheck := by
  rw [amendCommitted_eq, hone, loadOrder_one, List.flatMap_singleton]

theorem amendBegun_staged (hskip : s.skips x = false) (hdoms : (s.shadow a.im).updateDoms x = [d]) :
    s.amendCommitted a = ((((s.amendListed a [x] [d]).stageUpdate d [x]).amendStart d).bootLog 0x44 (some a.im.amendSeq)).amendCheck := by
  have htake : (s.amendListed a [x] [d]).amendTake (s.shadow a.im) x = (s.amendListed a [x] [d]).stageUpdate d [x] := by
    unfold State.amendTake
    rw [if_neg (show ¬((s.amendListed a [x] [d]).skips x = true) from fun h => Bool.false_ne_true (hskip.symm.trans h)), hdoms]
    rfl
  rw [amendCommitted_one hone, hdoms]
  unfold State.amendBegun
  have hdup : ([d] : List Nat).eraseDups = [d] := rfl
  rw [hdup, List.foldl_cons, List.foldl_nil, List.foldl_cons, List.foldl_nil, htake]

end One

theorem updateStart_staged (s : State) (d : Nat) : ((s.updateStart d).fence d).staged = (s.fence d).staged := by
  unfold State.updateStart
  split
  · rw [fenceStart_fence]
  · rw [fenceMove_fence]
  · rfl

theorem amendStart_staged (s : State) (d : Nat) : ((s.amendStart d).fence d).staged = (s.fence d).staged := by
  unfold State.amendStart
  split
  · exact updateStart_staged s d
  · rfl

/-- An update that a domain still holds keeps its amendment in hand. -/
theorem amendCheck_waits {s : State} {a : Amending} {d : Nat} (hhand : s.boot.amending = some a) (hd : d ∈ a.doms)
    (hstaged : (s.fence d).staged ≠ []) : s.amendCheck = s := by
  unfold State.amendCheck
  rw [hhand]
  refine if_neg fun h => hstaged ?_
  simp only [Bool.and_eq_true, List.all_eq_true] at h
  exact List.isEmpty_iff.mp (h.1.2 d hd).2

/-- One section, in domain d. -/
theorem amendBegun_update {s : State} {a : Amending} {x : Section} {d : Nat} :
    let z := (((s.amendListed a [x] [d]).stageUpdate d [x]).amendStart d).bootLog 0x44 (some a.im.amendSeq)
    (z.fence d).staged = (s.fence d).staged ++ [x] ∧ z.boot.amending = some { a with committed := true, doms := [d] }
      ∧ (0x800 ≤ d → s.tileStill (d - 0x800) = true → s.domState d = .active → (z.fence d).st = .draining) := by
  have hstage : ((s.amendListed a [x] [d]).stageUpdate d [x]).fence d = { s.fence d with staged := (s.fence d).staged ++ [x] } := by
    unfold State.stageUpdate
    rw [modFence_fence]
    rfl
  refine ⟨?_, ?_, fun hd hstill hact => ?_⟩
  · rw [bootLog_ok.fence_eq (by decide), amendStart_staged, hstage]
  · rw [(amend_kept bootLog_ok (by decide)).1, (amend_kept amendStart_ok (by decide)).1, (amend_kept stageUpdate_ok (by decide)).1]
    rfl
  · have hgo : (decide (d < 0x800) || ((s.amendListed a [x] [d]).stageUpdate d [x]).tileStill (d - 0x800)) = true := by
      have hsame : ((s.amendListed a [x] [d]).stageUpdate d [x]).tileStill (d - 0x800) = s.tileStill (d - 0x800) := rfl
      rw [hsame, hstill, Bool.or_true]
    have hdom : ((s.amendListed a [x] [d]).stageUpdate d [x]).domState d = .active :=
      (congrArg Fence.st hstage).trans hact
    rw [bootLog_ok.fence_eq (by decide)]
    unfold State.amendStart
    rw [if_pos hgo]
    unfold State.updateStart
    rw [hdom]
    dsimp only
    rw [fenceStart_fence]

/-- The tables of an ACCESS section stand. -/
def State.withTables (s : State) (ts : List (Target × BitVec 128)) : State :=
  { s with access := ts.foldl (fun l e => putTable e.1 e.2 l) s.access }

/-- An ACCESS section takes effect at commit. -/
theorem amendBegun_access {s : State} {a : Amending} {x : Section} {ts : List (Target × BitVec 128)}
    (hone : a.im.sections = [x]) (hdata : x.data = .access ts) :
    s.amendCommitted a = (((s.amendListed a [x] []).withTables ts).bootLog 0x44 (some a.im.amendSeq)).amendCheck := by
  have htype : secOfTile x = false := by
    unfold secOfTile
    rw [hdata]
    rfl
  have hdoms : (s.shadow a.im).updateDoms x = [] := by
    unfold State.updateDoms
    rw [htype, hdata]
    rfl
  have hskip : (s.amendListed a [x] []).skips x = false := by
    unfold State.skips
    rw [htype, Bool.false_and, Bool.false_and]
  have hbank : ((s.shadow a.im).bankOf x).isSome = false := by
    unfold State.bankOf
    rw [hdata]
    rfl
  have hput : (s.amendListed a [x] []).amendPut x = (s.amendListed a [x] []).withTables ts := by
    unfold State.amendPut State.putSection
    rw [hdata]
    rfl
  have htake : (s.amendListed a [x] []).amendTake (s.shadow a.im) x = (s.amendListed a [x] []).withTables ts := by
    unfold State.amendTake
    rw [hskip, if_neg Bool.false_ne_true, hdoms]
    dsimp only
    rw [hbank, if_neg Bool.false_ne_true, hput]
  have hdup : ([] : List Nat).eraseDups = [] := rfl
  rw [amendCommitted_one hone, hdoms, hdup]
  unfold State.amendBegun
  rw [List.foldl_nil, List.foldl_cons, List.foldl_nil, htake]

/-- No amendment is in hand. -/
def State.amendClosed (s : State) : State := { s with boot.amending := none }

/-- A committed amendment that waits for no domain and no world completes. -/
theorem amendCheck_completes {s : State} {a : Amending} (hhand : s.boot.amending = some a) (hcommitted : a.committed = true)
    (hdoms : a.doms = []) (hworlds : ∀ e, e ∈ s.tmp.worlds → e.2.staged = none) : s.amendCheck =
      s.amendClosed.completeAt a.rk a.seq .done
        [BitVec.ofNat 64 (a.im.amendSeq % 2 ^ 32 + a.im.sections.length % 2 ^ 16 * 2 ^ 32)] := by
  unfold State.amendCheck
  rw [hhand]
  refine if_pos ?_
  simp only [Bool.and_eq_true, List.all_eq_true]
  exact ⟨⟨hcommitted, by simp [hdoms]⟩, fun e he => by simp [hworlds e he]⟩

/-- Settles O48, from AMEND's answer case by case and the commit section by section. -/
theorem amendmentsApplyWhole : Obligations.AmendmentsApplyWhole := by
  unfold Obligations.AmendmentsApplyWhole
  intro s rk seq d ix code c am im a x ts
  refine ⟨fun h => ⟨fun hno => execAmend_noRight h am hno, fun hadmin hargs =>
      ⟨fun hlen hseq => execAmend_repeated h hadmin hargs am hlen hseq, fun hlen =>
        ⟨fun hhand => execAmend_busy h hadmin hargs hlen am hhand, fun hhand him => ?_⟩⟩⟩,
    fun hnone => ?_, fun hhand hwait => execAmendCommit_waits hhand hwait, fun hhand hnew hup => ⟨?_, fun hone hskip hdoms => ?_,
      fun hone hdata hworlds hexec => ?_⟩⟩
  · subst him
    have hwake : OnlyM _ s (s.cmdWake 0x11) := cmdWake_ok
    have hboot : (s.cmdWake 0x11).boot = s.boot := hwake.boot_eq (by decide)
    have hheader : headerCode (s.cmdWake 0x11) im 0x3141424C = headerCode s im 0x3141424C := by
      unfold headerCode
      rw [hwake.pkg_eq (by decide)]
    have hkeyCode : keyCode (s.cmdWake 0x11) im = keyCode s im := by
      unfold keyCode
      rw [hwake.fuses_eq (by decide)]
    have hrefused {code : Nat} (href : (s.cmdWake 0x11).amendRefusal im = some (none, code)) := by
      exact execAmend_refused h hadmin hargs hlen hhand href
    refine ⟨fun hbad => ?_, fun hhead hbase hkey => ?_, fun hhead hbase hkey hold => ?_, fun href => ?_,
      fun hpass hidle => (execAmend_accepted h hadmin hargs hlen hhand hpass hidle).1,
      fun hpass hidle => (execAmend_accepted h hadmin hargs hlen hhand hpass hidle).2⟩
    · obtain ⟨u, hu⟩ := hrefused (amendRefusal_header (by rw [hheader, hboot]; exact hbad))
      exact ⟨u, _, hu⟩
    · rw [← hkeyCode] at hkey ⊢
      obtain ⟨u, hu⟩ := hrefused (amendRefusal_key (hheader.trans hhead) (by rw [hboot]; exact hbase) hkey)
      exact ⟨u, _, hu⟩
    · obtain ⟨u, hu⟩ := hrefused (amendRefusal_order (hheader.trans hhead) (by rw [hboot]; exact hbase) (hkeyCode.trans hkey)
        (by rw [hboot, hwake.fuses_eq (by decide)]; exact hold))
      exact ⟨u, _, hu⟩
    · have hindex : (s.cmdWake 0x11).refusalIndex (some ix) = ix % 2 ^ 16 := rfl
      rw [← hindex]
      exact execAmend_refused h hadmin hargs hlen hhand href
  · show execAmendCommit s = .next s
    unfold execAmendCommit
    rw [hnone]
  · refine ⟨_, execAmendCommit_commits hhand hnew hup, ?_⟩
    rw [amendCommitted_eq]
    obtain ⟨-, hseq, hlist⟩ := amendBegun_sameAmend s a ((loadOrder a.im.sections).map (·.1))
      ((((loadOrder a.im.sections).map (·.1)).flatMap (s.shadow a.im).updateDoms).eraseDups)
    exact ⟨(amendCheck_list _).1.trans hseq, (amendCheck_list _).2.trans hlist⟩
  · obtain ⟨hstaged, hhand', hdrain⟩ := amendBegun_update (s := s) (a := a) (x := x) (d := d)
    refine ⟨_, execAmendCommit_commits hhand hnew hup, ?_⟩
    rw [amendBegun_staged hone hskip hdoms, amendCheck_waits hhand' List.mem_cons_self (by rw [hstaged]; simp)]
    exact ⟨hstaged, hhand', hdrain⟩
  · refine ⟨_, execAmendCommit_commits hhand hnew hup, ?_⟩
    have hlog : OnlyM _ ((s.amendListed a [x] []).withTables ts) _ := bootLog_ok (code := 0x44) (detail := some a.im.amendSeq)
    have hcheck := amendCheck_completes ((amend_kept hlog (by decide)).1) rfl rfl (by rw [hlog.worlds_eq (by decide)]; exact hworlds)
    have hfound := (hlog.findExec_eq (by decide) a.rk a.seq).trans hexec
    rw [amendBegun_access hone hdata, hcheck, hone]
    generalize ((s.amendListed a [x] []).withTables ts).bootLog 0x44 (some a.im.amendSeq) = z at hlog hfound
    rw [completeAt_found (s := z.amendClosed) hfound, complete_ok.access_eq (by decide), complete_ok.boot_eq (by decide)]
    obtain ⟨erk, eseq⟩ := findExec_keys hexec
    have hdone := complete_completed z.amendClosed c .done [BitVec.ofNat 64 (a.im.amendSeq % 2 ^ 32 + 1 * 2 ^ 32)] (by decide)
    rw [erk, eseq] at hdone
    exact ⟨hlog.access_eq (by decide), rfl, hdone⟩

end Sys2Proof.Machine
end

section
/-! PROOF. O49: bulk transfers line by line, their completion, and the add messages of pips (R167, R171, R174, R176, R177). -/

namespace Sys2Proof.Machine

open Sys2Proof

/-! ### Internal adds on pips -/

theorem putPip_pips (s : State) (n : Nat) (p : Pip) : (s.putPip n p).pips.refused = s.pips.refused := by
  unfold State.putPip
  rw [wakeWaiters_pips]

theorem internalAdd_applied {s : State} {m n : Nat} {inc : Word} {p : Pip} (hright : 2 ≤ (s.pipRight m n).rank)
    (h : (s.pip n).add inc = some p) : (s.internalAdd m n inc).pip n = p
      ∧ (∀ j, j ≠ n → (s.internalAdd m n inc).pip j = s.pip j) ∧ (s.internalAdd m n inc).pips.refused = s.pips.refused := by
  have htrace : OnlyM _ s (s.tracePip n 9 m .done) := tracePip_ok
  unfold State.internalAdd
  rw [if_pos hright, h]
  refine ⟨putPip_pip_self .., fun j hj => ?_, ?_⟩
  · exact (putPip_pip_other _ hj p).trans (htrace.pip_eq (by decide) j)
  · exact (putPip_pips ..).trans (congrArg PipStore.refused (htrace.pips_eq (by decide)))

/-- The record of an add that was refused. -/
def State.addItem (s : State) (n : Nat) (inc : Word) : LossItem :=
  { code := .failedAccess, kind := 0x7, w := none, reporter := { p := s.hub.p, x := 33, y := 0 }, a := 0,
    b := BitVec.ofNat 64 (n + inc.toNat * 2 ^ 32), ext := none, stamp := none, sampled := false }

theorem internalAdd_refused {s : State} {m n : Nat} {inc : Word}
    (h : (s.pipRight m n).rank < 2 ∨ (s.pip n).add inc = none) : (∀ j, (s.internalAdd m n inc).pip j = s.pip j)
      ∧ (s.internalAdd m n inc).pips.refused = sat 32 s.pips.refused 1
      ∧ (s.internalAdd m n inc).flt.queue = s.flt.queue ++ [s.addItem n inc] := by
  have htrace : OnlyM _ s (s.tracePip n 9 m .failedAccess) := tracePip_ok
  have hnone : (if 2 ≤ (s.pipRight m n).rank then (s.pip n).add inc else none) = none := by
    rcases h with h | h
    · exact if_neg (Nat.not_le.mpr h)
    · rw [h, ite_self]
  unfold State.internalAdd
  rw [hnone]
  exact ⟨fun j => htrace.pip_eq (by decide) j, rfl, congrArg (· ++ [s.addItem n inc]) (htrace.lossQueue_eq (by decide))⟩

theorem execPipAddMessage_adds {s : State} {v : Volley} {q : List Volley} {y : Bool} {p who : Nat} {n : Word}
    (hbox : tget [] (epKey 33 0) s.fab.inbox = v :: q) (hbody : v.body = .control y (.pipAdd p n who)) :
    execPipAddMessage s = .next ((s.popInbox (epKey 33 0) q).internalAdd who p n) := by
  unfold execPipAddMessage
  rw [takeInbox_pop hbox (by simp only [isCtl, hbody, isPipAdd])]
  dsimp only
  rw [hbody]

/-! ### The lines of a transfer -/

/-- Address a lies in no line of the transfer. -/
def State.outsideLines (s : State) (w0 w2 : DWord) (a : Nat) : Prop :=
  ∀ i k, i < blkLines w0 → k ∈ s.bulkDests w0 w2 →
    a < s.memAddr (colAddr k (wf w2 27 0 + 64 * i)) ∨ s.memAddr (colAddr k (wf w2 27 0 + 64 * i)) + 64 ≤ a

/-- What a transfer keeps of the bulk plane, and of memory outside its lines. -/
structure LinesKept (w0 w2 : DWord) (s u : State) : Prop where
  tiles : u.tiles = s.tiles
  groups : u.pool.mgroups = s.pool.mgroups
  bulks : u.pool.bulks = s.pool.bulks
  done : u.pool.bulkDone = s.pool.bulkDone
  rest : ∀ a, s.outsideLines w0 w2 a → u.mem.read a = s.mem.read a

theorem LinesKept.refl (w0 w2 : DWord) (s : State) : LinesKept w0 w2 s s := ⟨rfl, rfl, rfl, rfl, fun _ _ => rfl⟩

theorem memAddr_of_tiles {s u : State} (h : u.tiles = s.tiles) (a : Nat) : u.memAddr a = s.memAddr a := by
  unfold State.memAddr State.tile
  rw [h]

theorem bulkDests_of_groups {s u : State} (h : u.pool.mgroups = s.pool.mgroups) (w0 w2 : DWord) :
    u.bulkDests w0 w2 = s.bulkDests w0 w2 := by
  unfold State.bulkDests
  rw [h]

theorem LinesKept.outside {w0 w2 : DWord} {s u : State} (h : LinesKept w0 w2 s u) {a : Nat} (ha : s.outsideLines w0 w2 a) :
    u.outsideLines w0 w2 a := by
  intro i k hi hk
  rw [bulkDests_of_groups h.groups] at hk
  rw [memAddr_of_tiles h.tiles]
  exact ha i k hi hk

theorem LinesKept.trans {w0 w2 : DWord} {s t u : State} (h : LinesKept w0 w2 s t) (g : LinesKept w0 w2 t u) : LinesKept w0 w2 s u :=
  ⟨g.tiles.trans h.tiles, g.groups.trans h.groups, g.bulks.trans h.bulks, g.done.trans h.done,
    fun a ha => (g.rest a (h.outside ha)).trans (h.rest a ha)⟩

section Line
variable {w0 w1 w2 : DWord}

/-- A line that fails at a destination. -/
theorem bulkFail_kept (s : State) (i : LossItem) : LinesKept w0 w2 s (s.bulkFail i) := ⟨rfl, rfl, rfl, rfl, fun _ _ => rfl⟩

/-- A line stands at its place in tile t's column. -/
def State.lineWritten (s : State) (t : Nat) (w2 : DWord) (d : BitVec 512) (i : Nat) : State :=
  { (s.wakeTile t 11 t).wakeBank t with
    mem := ((s.wakeTile t 11 t).wakeBank t).mem.writeLine (((s.wakeTile t 11 t).wakeBank t).memAddr (colAddr t (wf w2 27 0 + 64 * i))) d }

theorem woken_ok (s : State) (t : Nat) : OnlyM 0x20400 s ((s.wakeTile t 11 t).wakeBank t) := wakeTile_ok.trans wakeBank_ok

theorem lineWritten_mem (s : State) (t : Nat) (w2 : DWord) (d : BitVec 512) (i : Nat) : (s.lineWritten t w2 d i).mem =
    s.mem.writeLine (s.memAddr (colAddr t (wf w2 27 0 + 64 * i))) d := by
  have hwake := woken_ok s t
  unfold State.lineWritten
  dsimp only
  rw [hwake.mem_eq (by decide), hwake.memAddr_eq (by decide)]

theorem lineWritten_tiles (s : State) (t : Nat) (w2 : DWord) (d : BitVec 512) (i : Nat) :
    (s.lineWritten t w2 d i).tiles = s.tiles := by
  unfold State.lineWritten
  dsimp only
  exact (woken_ok s t).tiles_eq (by decide)

theorem lineWritten_pool (s : State) (t : Nat) (w2 : DWord) (d : BitVec 512) (i : Nat) :
    (s.lineWritten t w2 d i).pool = s.pool := by
  unfold State.lineWritten
  dsimp only
  exact (woken_ok s t).pool_eq (by decide)

theorem lineWritten_queue (s : State) (t : Nat) (w2 : DWord) (d : BitVec 512) (i : Nat) :
    (s.lineWritten t w2 d i).flt.queue = s.flt.queue := by
  unfold State.lineWritten
  dsimp only
  exact (woken_ok s t).lossQueue_eq (by decide)

theorem lineWritten_kept {s : State} {t i : Nat} (d : BitVec 512) (hi : i < blkLines w0) (ht : t ∈ s.bulkDests w0 w2) :
    LinesKept w0 w2 s (s.lineWritten t w2 d i) := by
  have hpool := lineWritten_pool s t w2 d i
  have hmem := lineWritten_mem s t w2 d i
  have htiles := lineWritten_tiles s t w2 d i
  generalize s.lineWritten t w2 d i = u at hpool hmem htiles
  exact ⟨htiles, by rw [hpool], by rw [hpool], by rw [hpool],
    fun a ha => by rw [hmem, read_writeLine_out _ _ _ (ha i t hi ht)]⟩

theorem bulkWrite_kept {s : State} {who t i : Nat} (r : Code × BitVec 512) (hi : i < blkLines w0)
    (ht : t ∈ s.bulkDests w0 w2) : LinesKept w0 w2 s (s.bulkWrite who w0 w1 w2 r i t) := by
  unfold State.bulkWrite
  dsimp only
  split
  · exact bulkFail_kept ..
  · split
    · exact bulkFail_kept ..
    · exact lineWritten_kept r.2 hi ht

/-- A line's writes, destination by destination. -/
theorem bulkWrites_kept {who i : Nat} (r : Code × BitVec 512) (hi : i < blkLines w0) (l : List Nat) {s : State}
    (hl : ∀ t ∈ l, t ∈ s.bulkDests w0 w2) : LinesKept w0 w2 s (l.foldl (fun s t => s.bulkWrite who w0 w1 w2 r i t) s) := by
  induction l generalizing s with
  | nil => exact LinesKept.refl ..
  | cons t l ih =>
    have hfirst : LinesKept w0 w2 s (s.bulkWrite who w0 w1 w2 r i t) := bulkWrite_kept r hi (hl t List.mem_cons_self)
    refine hfirst.trans (ih fun k hk => ?_)
    rw [bulkDests_of_groups hfirst.groups]
    exact hl k (List.mem_cons_of_mem _ hk)

/-- The lines of a transfer, one by one. -/
theorem bulkLines_kept (s : State) (who : Nat) (ext : List (Option (BitVec 512))) :
    LinesKept w0 w2 s (s.bulkLines who w0 w1 w2 ext) := by
  have hlines (l : List Nat) (hl : ∀ i ∈ l, i < blkLines w0) (z : State) :
      LinesKept w0 w2 z (l.foldl (fun s i => s.bulkLine who w0 w1 w2 ext i) z) := by
    induction l generalizing z with
    | nil => exact LinesKept.refl ..
    | cons i l ih =>
      have hfirst : LinesKept w0 w2 z (z.bulkLine who w0 w1 w2 ext i) :=
        bulkWrites_kept _ (hl i List.mem_cons_self) _ (fun _ h => h)
      exact hfirst.trans (ih (fun k hk => hl k (List.mem_cons_of_mem _ hk)) _)
  exact hlines _ (fun i hi => List.mem_range.mp hi) s

/-- The transfer waits for its completion. -/
def State.bulkIssued (s : State) (who : Nat) (w3 : DWord) : State :=
  { s with pool.bulks := s.pool.bulks ++ [{ who := who, w3 := w3 }] }

theorem execBulkTransfer_issues {s : State} {who : Nat} (hok : bulkOk w0 w1 w2 = true) (w3 : DWord)
    (ext : List (Option (BitVec 512))) :
    execBulkTransfer who w0 w1 w2 w3 ext s = .next ((s.bulkLines who w0 w1 w2 ext).bulkIssued who w3) := if_pos hok

/-- A transfer of one line to one tile. -/
theorem bulkLines_one {s : State} {who t : Nat} {ext : List (Option (BitVec 512))} {d : BitVec 512} (hlen : blkLines w0 = 1)
    (hdest : s.bulkDests w0 w2 = [t]) (hread : s.bulkRead who w0 w1 ext 0 = (.done, d)) :
    s.bulkLines who w0 w1 w2 ext = s.bulkWrite who w0 w1 w2 (.done, d) 0 t := by
  have hone : List.range 1 = [0] := rfl
  unfold State.bulkLines
  rw [hlen, hone, List.foldl_cons, List.foldl_nil]
  unfold State.bulkLine
  rw [hdest, hread]
  rfl

theorem bulkWrite_writes {s : State} {who t : Nat} {d : BitVec 512} (h : s.bulkWriteCode t w2 0 = none) :
    s.bulkWrite who w0 w1 w2 (.done, d) 0 t = s.lineWritten t w2 d 0 := by
  unfold State.bulkWrite
  dsimp only
  rw [if_neg (not_not_intro rfl), h]
  rfl

theorem bulkWrite_fails {s : State} {who t : Nat} {d : BitVec 512} {e : Code} (h : s.bulkWriteCode t w2 0 = some e) :
    s.bulkWrite who w0 w1 w2 (.done, d) 0 t = s.bulkFail (s.bulkItem who 0 0 (colAddr t (wf w2 27 0)) e) := by
  unfold State.bulkWrite
  dsimp only
  rw [if_neg (not_not_intro rfl), h]
  rfl

theorem bulkRead_zero (s : State) (who : Nat) (ext : List (Option (BitVec 512))) (h : blkOp w0 = 2) :
    s.bulkRead who w0 w1 ext 0 = (.done, 0) := by
  unfold State.bulkRead
  dsimp only
  rw [if_pos h]

theorem bulkRead_column {s : State} (who : Nat) (ext : List (Option (BitVec 512))) (hop : blkOp w0 = 1)
    (hkind : blkSrcKind w0 = 0) (hpresent : s.tilePresent (wf w1 38 28) = true) (hactive : s.tileActive (wf w1 38 28) = true)
    (hgood : s.mem.anyBad (s.memAddr w1.toNat) 64 = false) :
    s.bulkRead who w0 w1 ext 0 = (.done, s.mem.readLine (s.memAddr w1.toNat)) := by
  have haddr : bulkSrcAddr w0 w1 0 = w1.toNat := by
    unfold bulkSrcAddr
    rw [if_neg (by omega)]
    rfl
  have hin : ¬((!s.tilePresent (wf w1 38 28) || decide (2 ^ 28 ≤ wf w1 27 0 + 64 * 0)) = true) := by
    have hlt : wf w1 27 0 < 2 ^ 28 := Nat.mod_lt _ (by decide)
    rw [hpresent, decide_eq_false (by omega)]
    exact Bool.false_ne_true
  unfold State.bulkRead
  dsimp only
  rw [if_neg (by omega), if_pos hkind, if_neg hin, if_neg (by rw [hactive]; exact Bool.false_ne_true), haddr,
    if_neg (by rw [hgood]; exact Bool.false_ne_true)]

end Line

/-! ### Completion -/

/-- The oldest transfer is counted. -/
def State.bulkCounted (s : State) (r : List Bulk) : State :=
  { s with pool.bulks := r, pool.bulkDone := sat 16 s.pool.bulkDone 1 }

theorem execBulkComplete_counts {s : State} {b : Bulk} {r : List Bulk} (h : s.pool.bulks = b :: r) : execBulkComplete s =
    .next (if wf b.w3 18 18 = 1 then (s.bulkCounted r).internalAdd b.who (wf b.w3 17 0) 1 else s.bulkCounted r) := by
  unfold execBulkComplete
  rw [h]
  rfl

/-- Settles O49: lines move one by one, and each keeps what lies outside the transfer's lines. -/
theorem bulkTransfersMoveLines : Obligations.BulkTransfersMoveLines := by
  unfold Obligations.BulkTransfersMoveLines
  intro s who t p w0 w1 w2 w3 ext d e b r v q n x y
  refine ⟨fun hbad => ?_, fun hok => ⟨_, execBulkTransfer_issues hok w3 ext, ?_⟩, fun hok hlen hdest hread => ⟨fun hcode hwf =>
      ⟨_, execBulkTransfer_issues hok w3 ext, ?_⟩, fun hcode => ⟨_, execBulkTransfer_issues hok w3 ext, ?_⟩⟩,
    fun hop => bulkRead_zero s who ext hop,
    fun hop hkind hpresent hactive hgood => bulkRead_column who ext hop hkind hpresent hactive hgood, fun hnone => ?_,
    fun hb => ⟨⟨_, execBulkComplete_counts hb, ?_⟩, fun hpip hright hadd => ⟨_, execBulkComplete_counts hb, ?_⟩⟩,
    fun hbox hbody => ⟨fun hright hadd => ⟨_, execPipAddMessage_adds hbox hbody, ?_⟩,
      fun hno => ⟨_, execPipAddMessage_adds hbox hbody, ?_⟩⟩⟩
  · exact if_neg (by rw [hbad]; exact Bool.false_ne_true)
  · have hkept := bulkLines_kept (w0 := w0) (w1 := w1) (w2 := w2) s who ext
    exact ⟨congrArg (fun l : List Bulk => l ++ [{ who := who, w3 := w3 }]) hkept.bulks, hkept.done, hkept.rest⟩
  · rw [bulkLines_one hlen hdest hread, bulkWrite_writes hcode]
    refine ⟨lineWritten_queue s t w2 d 0, fun k hk => ?_⟩
    show (s.lineWritten t w2 d 0).mem.read _ = _
    rw [lineWritten_mem]
    exact read_writeLine_in hwf _ d hk
  · rw [bulkLines_one hlen hdest hread, bulkWrite_fails hcode]
    exact ⟨rfl, rfl, rfl⟩
  · show execBulkComplete s = .next s
    unfold execBulkComplete
    rw [hnone]
  · by_cases hpip : wf b.w3 18 18 = 1
    · have hpool : ((s.bulkCounted r).internalAdd b.who (wf b.w3 17 0) 1).pool = (s.bulkCounted r).pool :=
        internalAdd_ok.pool_eq (by decide)
      rw [if_pos hpip, hpool]
      exact ⟨rfl, rfl, fun hne => absurd hpip hne⟩
    · rw [if_neg hpip]
      exact ⟨rfl, rfl, fun _ => rfl⟩
  · rw [if_pos hpip]
    obtain ⟨hsame, -, hrefused⟩ := internalAdd_applied (s := s.bulkCounted r) hright hadd
    exact ⟨hsame, hrefused⟩
  · exact internalAdd_applied (s := s.popInbox (epKey 33 0) q) hright hadd
  · obtain ⟨hpips, hrefused, hqueue⟩ := internalAdd_refused (s := s.popInbox (epKey 33 0) q) hno
    exact ⟨hpips, hrefused, _, hqueue, rfl, rfl⟩

end Sys2Proof.Machine
end

section
/-! PROOF. O50: a rack binding takes the events of a volley (R151, R154, R156, R163). -/

namespace Sys2Proof.Machine

open Sys2Proof

theorem popInbox_rack (s : State) (k : Nat) (r : List Volley) (i : Nat) : (s.popInbox k r).rack i = s.rack i := rfl

section Binding
variable {s : State} {y w : Nat} {v : Volley} {q : List Volley} {e b : Word}

/-- What the world's result slot takes of an event. -/
def State.bindSnapshot (s z : State) (e : Word) (w full : Nat) : State :=
  z.modTurn w ((s.world w).turnOf full) (fun i => { i with chans := tmod {} (evRow e) (fun c => c.take (evValue e) full) i.chans })

/-- The tempo of an event, as its world reads it. -/
def State.bindTempo (s : State) (v : Volley) (e : Word) (w : Nat) : Nat :=
  fullTempo (s.world w).t ((v.tempoBase + evOffset e) % 2 ^ 20)

/-- The rack's part of an event. -/
def State.bindRacked (s : State) (b : Word) (v : Volley) (e : Word) (w : Nat) : State :=
  if bindToRack b then s.worldOutput (bindRack b) (s.senderMaster v.src) w (evRow e) (evValue e) (s.bindTempo v e w) else s

/-- The whole of an event: its rack's part, and its result slot's. -/
def State.bindTaken (s : State) (b : Word) (v : Volley) (e : Word) (w : Nat) : State :=
  if bindToSnapshot b then s.bindSnapshot (s.bindRacked b v e w) e w (s.bindTempo v e w) else s.bindRacked b v e w

theorem execRackBindingEvent_takes (hbox : tget [] (epKey 32 y) s.fab.inbox = v :: q) (hbody : v.body = .events [e])
    (hb : tget (0 : Word) y s.racks.bindings = b) (hw : w = v.group * 32 + evLane e) :
    execRackBindingEvent y s = .next ((s.popInbox (epKey 32 y) q).bindTaken b v e w) := by
  subst hb hw
  unfold execRackBindingEvent
  rw [takeInbox_pop hbox (by rw [hbody])]
  dsimp only
  rw [hbody]
  rfl

theorem modTurn_only {s : State} {w n : Nat} {f : TurnInfo → TurnInfo} : OnlyM 0x800000000 s (s.modTurn w n f) :=
  only_modTurn (OnlyM.refl _ _) rfl

/-- The result slot's part is in the world's turns alone. -/
theorem bindTaken_only (s : State) (b : Word) (v : Volley) (e : Word) (w : Nat) :
    OnlyM 0x800000000 (s.bindRacked b v e w) (s.bindTaken b v e w) := by
  unfold State.bindTaken
  split
  · exact modTurn_only
  · exact OnlyM.refl _ _

theorem bindRacked_only (s : State) (b : Word) (v : Volley) (e : Word) (w : Nat) :
    OnlyM 0x100800901000000 s (s.bindRacked b v e w) := by
  unfold State.bindRacked
  split
  · exact worldOutput_ok
  · exact OnlyM.refl _ _

theorem bindRacked_none (h : bindToRack b = false) (s : State) (v : Volley) (e : Word) (w : Nat) : s.bindRacked b v e w = s := by
  unfold State.bindRacked
  rw [h]
  rfl

theorem bindTaken_none (h : bindToSnapshot b = false) (s : State) (v : Volley) (e : Word) (w : Nat) :
    s.bindTaken b v e w = s.bindRacked b v e w := by
  unfold State.bindTaken
  rw [h]
  rfl

/-- The words of a WORLD_OUTPUT. -/
def outputBody (w ch value full : Nat) : List DWord :=
  [BitVec.ofNat 64 (w + ch * 2 ^ 13 + value * 2 ^ 26 + full % 2 ^ 20 * 2 ^ 34)]

/-- A record's header counts its words alone. -/
theorem recHeader_output (ch value full : Nat) :
    recHeader 0x86 .done (outputBody w ch value full) = recHeader 0x86 .done [0] := by
  simp only [recHeader, outputBody, List.length_singleton]

/-- A WORLD_OUTPUT with room is posted, stamped. -/
theorem worldOutput_posts {r src ch value full : Nat} (h : (s.rack r).hubReserve < (s.rack r).free) :
    ((s.worldOutput r src w ch value full).rack r).msgs = (s.rack r).msgs ++
      [stampHeader (recHeader 0x86 .done (outputBody w ch value full)) src r (s.rack r).next.toNat :: outputBody w ch value full] := by
  unfold State.worldOutput
  dsimp only
  rw [if_pos h, rackPut_rack, if_pos rfl]
  dsimp only
  rw [traceRack_ok.rack_eq (by decide)]
  rfl

/-- A WORLD_OUTPUT without room is dropped and recorded. -/
theorem worldOutput_drops {r src ch value full : Nat} (h : (s.rack r).free ≤ (s.rack r).hubReserve) :
    ((s.worldOutput r src w ch value full).rack r).msgs = (s.rack r).msgs
      ∧ ((s.worldOutput r src w ch value full).rack r).hubDropped = sat 16 (s.rack r).hubDropped 1
      ∧ ∃ i : LossItem, (s.worldOutput r src w ch value full).flt.queue = s.flt.queue ++ [i] ∧ i.code = .droppedRackFull
        ∧ i.kind = 0xA ∧ i.w = some w := by
  have hdrop (msg : List DWord) : ((s.dropMsg r src (some w) msg).rack r) =
      { s.rack r with hubDropped := sat 16 (s.rack r).hubDropped 1 } := by
    unfold State.dropMsg
    dsimp only
    rw [pushLoss_ok.rack_eq (by decide), modRack_rack, traceRack_ok.rack_eq (by decide)]
  unfold State.worldOutput
  dsimp only
  rw [if_neg (Nat.not_lt.mpr h), (modTurn_only).rack_eq (by decide), (modTurn_only).lossQueue_eq (by decide), hdrop]
  exact ⟨rfl, rfl, _, congrArg (· ++ [_]) (traceRack_ok.lossQueue_eq (by decide)), rfl, rfl, rfl⟩

end Binding

/-- The world whose turn n has taken an event on a channel. -/
def World.turnTakes (x : World) (n ch value full : Nat) : World :=
  { x with turns := tmod {} n (fun i => { i with chans := tmod {} ch (fun c => c.take value full) i.chans }) x.turns }

/-- Settles O50: the event's part in its rack, and its part in its result slot. -/
theorem rackBindingsTakeEvents : Obligations.RackBindingsTakeEvents := by
  unfold Obligations.RackBindingsTakeEvents
  intro s y w v q e b hbox hbody hb hw
  have hrun := execRackBindingEvent_takes hbox hbody hb hw
  have honly := bindTaken_only (s.popInbox (epKey 32 y) q) b v e w
  have hracked := bindRacked_only (s.popInbox (epKey 32 y) q) b v e w
  have hposts (hr : bindToRack b = true) : (s.popInbox (epKey 32 y) q).bindRacked b v e w =
      (s.popInbox (epKey 32 y) q).worldOutput (bindRack b) (s.senderMaster v.src) w (evRow e) (evValue e) (s.bindTempo v e w) :=
    if_pos hr
  refine ⟨⟨_, hrun, ?_, fun hr => ?_, fun hs hr => ?_⟩, fun hr hfree => ?_, fun hr hfull => ⟨_, hrun, ?_⟩,
    fun hr hs hst n tau htau hn hclosed hopened => ⟨_, hrun, ?_⟩⟩
  · rw [honly.inbox_eq (by decide), hracked.inbox_eq (by decide)]
    rfl
  · rw [honly.rackStore_eq (by decide), bindRacked_none hr]
    rfl
  · rw [bindTaken_none hs, bindRacked_none hr]
    rfl
  · have hmsg := worldOutput_posts (s := s.popInbox (epKey 32 y) q) (src := s.senderMaster v.src) (w := w) (ch := evRow e)
      (value := evValue e) (full := s.bindTempo v e w) hfree
    rw [recHeader_output, ← hposts hr, ← honly.rack_eq (by decide)] at hmsg
    unfold outputBody at hmsg
    exact ⟨_, _, s.bindTempo v e w, hrun, hmsg, by rw [popInbox_rack], by unfold State.bindTempo; rfl⟩
  · rw [honly.rack_eq (by decide), honly.lossQueue_eq (by decide), hposts hr]
    exact worldOutput_drops (s := s.popInbox (epKey 32 y) q) hfull
  · subst htau hn
    have hshape : (s.popInbox (epKey 32 y) q).bindTaken b v e w = (s.popInbox (epKey 32 y) q).modWorld w (fun z =>
        z.turnTakes ((s.world w).turnOf (s.bindTempo v e w)) (evRow e) (evValue e) (s.bindTempo v e w)) := by
      unfold State.bindTaken
      rw [if_pos hs, bindRacked_none hr]
      exact modTurn_open (s := s.popInbox (epKey 32 y) q) _ hclosed hopened hst
    rw [hshape, modWorld_world, popInbox_world]
    refine ⟨?_, fun j hj => ?_⟩
    · unfold World.turnTakes State.bindTempo
      dsimp only
      rw [tget_tmod_same, tget_tmod_same]
    · rw [modWorld_world_other _ hj, popInbox_world]

end Sys2Proof.Machine
end

section
/-! PROOF. The rules of the pool directory's operations: what each leaves in the pool's state, and how a line is served
(R182 to R184). -/

namespace Sys2Proof.Machine

open Sys2Proof

/-! ### The pool's state after each operation -/

theorem tracePool_pool (s : State) (win line msg a : Nat) (b : Bool) (st : Nat) : (s.tracePool win line msg a b st).pool = s.pool :=
  tracePool_ok.pool_eq (by decide)

theorem tell_pool (s : State) (a win line : Nat) (msg : DirMsg) :
    (s.tell a win line msg).pool = { s.pool with toAgent := s.pool.toAgent ++ [(a, win, line, msg)] } := by
  unfold State.tell
  dsimp only
  rw [tracePool_pool]

theorem answer_pool (s : State) (win line rsp : Nat) {kind : Nat} (h : kind < 3) :
    (s.answer win line kind rsp).pool = { s.pool with birsp := some (win, line, rsp) } := by
  unfold State.answer
  rw [if_neg (Nat.not_le.mpr h), tracePool_pool]

theorem modEntry_pool (s : State) (key : Nat) (f : DirEntry → DirEntry) :
    (s.modEntry key f).pool = { s.pool with dir := s.pool.dir.map (fun e => if e.key = key then f e else e) } := rfl

theorem issue_pool (s : State) (o : PoolOp) : (s.issue o).pool =
    { s.pool with ops := s.pool.ops ++ [o], recon := if o.recon then sat 32 s.pool.recon 1 else s.pool.recon } := rfl

theorem setCached_pool (s : State) (a key : Nat) (c : Option CacheLine) : (s.setCached a key c).pool =
    { s.pool with caches := tset a (c.toList ++ (s.cache a).filter (fun k => s.poolKey k.win k.line ≠ key)) s.pool.caches } := rfl

/-! ### What is read of the pool's state -/

theorem entry_of_dir {s u : State} (h : u.pool.dir = s.pool.dir) (key : Nat) : u.entry key = s.entry key := by
  unfold State.entry
  rw [h]

theorem transCount_of_dir {s u : State} (h : u.pool.dir = s.pool.dir) : u.transCount = s.transCount := by
  unfold State.transCount
  rw [h]

theorem poolWin_of_windows {s u : State} (h : u.pool.windows = s.pool.windows) (win : Nat) : u.poolWin win = s.poolWin win := by
  unfold State.poolWin
  rw [h]

theorem poolKey_of_windows {s u : State} (h : u.pool.windows = s.pool.windows) (win line : Nat) :
    u.poolKey win line = s.poolKey win line := by
  unfold State.poolKey
  rw [poolWin_of_windows h]

theorem cached_of_caches {s u : State} (hw : u.pool.windows = s.pool.windows) (hc : u.pool.caches = s.pool.caches) (a key : Nat) :
    u.cached a key = s.cached a key := by
  unfold State.cached State.cache
  simp only [hc, poolKey_of_windows hw]

/-- What the operations of the directory may change beside the pool's state: wakes, traces, losses, free choices. -/
def poolMask : Nat := 0x100c00000020500

section Env
variable {s u : State} (h : OnlyM poolMask s u)
include h

theorem poolUp_kept : u.poolUp = s.poolUp := by
  unfold State.poolUp
  simp only [h.link_eq (by decide), h.pkg_eq (by decide)]

theorem agentLive_kept (a : Nat) : u.agentLive a = s.agentLive a := by
  unfold State.agentLive
  rw [h.domActive_eq (by decide)]

end Env

/-! ### Entries -/

theorem entry_key {s : State} {key : Nat} {e : DirEntry} (h : s.entry key = some e) : e.key = key :=
  of_decide_eq_true (p := e.key = key) (List.find?_some (p := fun x : DirEntry => decide (x.key = key)) h)

theorem find_modified {key : Nat} {f : DirEntry → DirEntry} (hf : ∀ x, (f x).key = x.key) (l : List DirEntry) :
    (l.map (fun e => if e.key = key then f e else e)).find? (fun e => e.key = key) = (l.find? (fun e => e.key = key)).map f := by
  induction l with
  | nil => rfl
  | cons e l ih =>
    by_cases he : e.key = key
    · simp [he, hf]
    · simp [he]
      simpa using ih

theorem entry_modEntry {s : State} {key : Nat} {f : DirEntry → DirEntry} {e : DirEntry} (hf : ∀ x, (f x).key = x.key)
    (h : s.entry key = some e) : (s.modEntry key f).entry key = some (f e) := by
  unfold State.entry State.modEntry
  dsimp only
  rw [find_modified hf]
  unfold State.entry at h
  rw [h]
  rfl

theorem entry_issue (s : State) (o : PoolOp) (key : Nat) : (s.issue o).entry key = s.entry key := rfl

theorem entry_tell (s : State) (a win line : Nat) (msg : DirMsg) (key : Nat) : (s.tell a win line msg).entry key = s.entry key :=
  entry_of_dir (by rw [tell_pool]) key

theorem cached_setCached_none (s : State) (a key : Nat) : (s.setCached a key none).cached a key = none := by
  unfold State.cached State.cache
  have hkeys (win line : Nat) : (s.setCached a key none).poolKey win line = s.poolKey win line := poolKey_of_windows rfl win line
  rw [setCached_pool]
  simp only [hkeys]
  rw [tget_tset_same, List.find?_eq_none]
  intro c hc hkey
  simp at hc hkey
  exact hc.2 hkey

theorem cached_setCached_some {s : State} {a key : Nat} {c : CacheLine} (h : s.poolKey c.win c.line = key) :
    (s.setCached a key (some c)).cached a key = some c := by
  unfold State.cached State.cache
  have hkeys (win line : Nat) : (s.setCached a key (some c)).poolKey win line = s.poolKey win line := poolKey_of_windows rfl win line
  rw [setCached_pool]
  simp only [hkeys]
  rw [tget_tset_same]
  simp [h]

/-! ### A recall of one holder -/

theorem recallAll_one (s : State) (e : DirEntry) (k : Nat) (why : Why) : s.recallAll e [k] why =
    (s.modEntry e.key (fun x => { x with trans := some (.await [k] none why) })).tell k e.win e.line
      (if e.st = 2 then .recall else .inv) := rfl

/-- The owner is recalled, and the line waits for its answer. -/
theorem recallAll_owner {s : State} {e : DirEntry} {x : DirEntry} (hst : e.st = 2) (h : s.entry e.key = some x) (k : Nat) (why : Why) :
    (s.recallAll e [k] why).pool.toAgent = s.pool.toAgent ++ [(k, e.win, e.line, .recall)]
      ∧ (s.recallAll e [k] why).entry e.key = some { x with trans := some (.await [k] none why) } := by
  rw [recallAll_one, if_pos hst]
  refine ⟨?_, ?_⟩
  · rw [tell_pool]
    rfl
  · rw [entry_tell]
    exact entry_modEntry (fun _ => rfl) h

/-! ### Serving a line -/

section Serve
variable {s : State} {key : Nat} {e : DirEntry} (h : s.entry key = some e)
include h

theorem serveLine_eq : s.serveLine key = s.serve key (e.snoops.length + e.queue.length + 1) := by
  unfold State.serveLine
  rw [h]

/-- A line in a transaction waits. -/
theorem serve_busy (ht : e.trans.isSome = true) (n : Nat) : s.serve key n = s := by
  cases n with
  | zero => rfl
  | succ n =>
    unfold State.serve
    rw [h]
    exact if_pos ht

theorem serveLine_busy (ht : e.trans.isSome = true) : s.serveLine key = s := (serveLine_eq h).trans (serve_busy h ht _)

variable (ht : e.trans = none)
include ht

theorem serve_idle (n : Nat) : s.serve key (n + 1) = match e.snoops, e.queue with
    | k :: ks, _ =>
      let s1 := s.modEntry key (fun x => { x with snoops := ks })
      if e.st = 2 || (e.st = 1 && 2 ≤ k) then s1.recallAll e e.holders (.snoop k)
      else (s1.answer e.win e.line k (if e.st = 1 then 1 else 0)).serve key n
    | [], r :: rs =>
      let s1 := s.modEntry key (fun x => { x with queue := rs })
      let os := if e.st = 2 then e.holders else if r.excl then e.holders.filter (· ≠ r.agent) else []
      if os.isEmpty then (s1.startRead e r).serve key n else s1.recallAll e os (.req r)
    | [], [] =>
      if e.holders.isEmpty then { s with pool.dir := s.pool.dir.filter (fun x => x.key ≠ key) } else s := by
  conv_lhs => unfold State.serve
  rw [h]
  dsimp only
  rw [ht]
  rfl

/-- A line that nothing waits for rests with its holders, or leaves the directory without one. -/
theorem serveLine_rests (hs : e.snoops = []) (hq : e.queue = []) (hh : e.holders ≠ []) : s.serveLine key = s := by
  rw [serveLine_eq h, serve_idle h ht, hs, hq]
  exact if_neg (by simpa using hh)

theorem serveLine_leaves (hs : e.snoops = []) (hq : e.queue = []) (hh : e.holders = []) :
    s.serveLine key = { s with pool.dir := s.pool.dir.filter (fun x => x.key ≠ key) } := by
  rw [serveLine_eq h, serve_idle h ht, hs, hq]
  exact if_pos (by rw [hh]; rfl)

/-- An owned line that a request waits for is recalled. -/
theorem serveLine_recalls {r : DirReq} {k : Nat} (hs : e.snoops = []) (hq : e.queue = [r]) (hst : e.st = 2) (hh : e.holders = [k]) :
    s.serveLine key = (s.modEntry key (fun x => { x with queue := [] })).recallAll e [k] (.req r) := by
  rw [serveLine_eq h, serve_idle h ht, hs, hq]
  dsimp only
  rw [if_pos hst, hh]
  rfl

/-- An owned line that a snoop waits for is recalled. -/
theorem serveLine_snooped {k : Nat} (hs : e.snoops = [k]) (hst : e.st = 2) :
    s.serveLine key = (s.modEntry key (fun x => { x with snoops := [] })).recallAll e e.holders (.snoop k) := by
  rw [serveLine_eq h, serve_idle h ht, hs]
  dsimp only
  exact if_pos (by simp [hst])

/-- A line without holders is read from the pool. -/
theorem serveLine_reads {r : DirReq} (hs : e.snoops = []) (hq : e.queue = [r]) (hh : e.holders = []) :
    s.serveLine key = ((s.modEntry key (fun x => { x with queue := [] })).startRead e r).serve key 1 := by
  have hnone : (if e.st = 2 then e.holders else if r.excl then e.holders.filter (· ≠ r.agent) else []).isEmpty = true := by
    rw [hh, List.filter_nil, ite_self, ite_self]
    rfl
  rw [serveLine_eq h, serve_idle h ht, hs, hq]
  exact if_pos hnone

end Serve

/-- Nothing is released where the line rests and no request waits. -/
theorem release_rests {s : State} {key : Nat} (h : s.serveLine key = s) (hw : s.pool.waitingReqs = []) : s.release key = s := by
  unfold State.release
  rw [h]
  dsimp only
  rw [hw]
  rfl

/-- A grant makes the agent the line's holder and tells it. -/
theorem grant_grants {s : State} {e : DirEntry} {r : DirReq} {x : DirEntry} {d : BitVec 512} {dirty : Bool}
    (hlive : s.agentLive r.agent = true) (h : s.entry e.key = some x) :
    (s.grant e r d dirty).pool.toAgent = s.pool.toAgent ++
        [(r.agent, e.win, e.line, if r.excl then .grantX d dirty else .grantS d)]
      ∧ (s.grant e r d dirty).entry e.key = some { x with
          trans := none, st := if r.excl then 2 else 1,
          holders := if r.excl then [r.agent] else r.agent :: x.holders.filter (· ≠ r.agent) }
      ∧ (s.grant e r d dirty).pool.ops = s.pool.ops ∧ (s.grant e r d dirty).pool.waitingReqs = s.pool.waitingReqs
      ∧ (s.grant e r d dirty).pool.toDir = s.pool.toDir := by
  unfold State.grant
  rw [hlive, if_neg (show ¬((!true) = true) from Bool.false_ne_true)]
  refine ⟨?_, ?_, ?_, ?_, ?_⟩
  · rw [tell_pool]
    rfl
  · rw [entry_tell]
    exact entry_modEntry (fun _ => rfl) h
  · rw [tell_pool]
    rfl
  · rw [tell_pool]
    rfl
  · rw [tell_pool]
    rfl

/-- The line of a grant rests with its holder. -/
theorem grant_released {s : State} {e : DirEntry} {r : DirReq} {x : DirEntry} {d : BitVec 512} {dirty : Bool} {key : Nat}
    (hkey : e.key = key) (hlive : s.agentLive r.agent = true) (h : s.entry e.key = some x) (hs : x.snoops = []) (hq : x.queue = [])
    (hw : s.pool.waitingReqs = []) : (s.grant e r d dirty).release key = s.grant e r d dirty := by
  subst hkey
  obtain ⟨-, hentry, -, hwait, -⟩ := grant_grants (d := d) (dirty := dirty) hlive h
  refine release_rests (serveLine_rests hentry rfl hs hq ?_) (hwait.trans hw)
  dsimp only
  split
  · exact List.cons_ne_nil _ _
  · exact List.cons_ne_nil _ _

end Sys2Proof.Machine
end

section
/-! PROOF. O51: requests, writebacks and evictions at the directory, the messages of agents, and snoops (R178, R181 to
R184). -/

namespace Sys2Proof.Machine

open Sys2Proof

/-! ### A request that misses -/

section Read
variable {s : State} {a win line : Nat} {x : Bool}

/-- The state in which a miss is counted and traced. -/
def State.missed (s : State) (a win line : Nat) (x : Bool) : State :=
  ({ s.wakeDom 3 11 win with pool.misses := tmod 0 a (fun n => (n + 1) % 2 ^ 32) (s.wakeDom 3 11 win).pool.misses } : State).tracePool
    win line (if x then 2 else 1) a ((s.entry (s.poolKey win line)).any (fun e => e.trans.isSome)) (s.entrySt (s.poolKey win line))

theorem missed_pool (s : State) (a win line : Nat) (x : Bool) : (s.missed a win line x).pool =
    { s.pool with misses := tmod 0 a (fun n => (n + 1) % 2 ^ 32) s.pool.misses } := by
  unfold State.missed
  rw [tracePool_pool]
  dsimp only
  rw [wakeDom_pool]

theorem missed_poolUp (s : State) (a win line : Nat) (x : Bool) : (s.missed a win line x).poolUp = s.poolUp := by
  have hwake : OnlyM _ s (s.wakeDom 3 11 win) := wakeDom_ok
  have hlink (i : Nat) : (s.missed a win line x).link i = s.link i :=
    (tracePool_ok.link_eq (by decide) i).trans (hwake.link_eq (by decide) i)
  have hpkg : (s.missed a win line x).pkg = s.pkg := (tracePool_ok.pkg_eq (by decide)).trans (hwake.pkg_eq (by decide))
  unfold State.poolUp
  simp only [hlink, hpkg]

theorem poolRead_refused {cd : Code} (h : s.poolCode a win line x = some cd) : s.poolRead a win line x = s.agentFail a cd := by
  unfold State.poolRead
  dsimp only
  rw [h]

theorem poolRead_misses (hcode : s.poolCode a win line x = none) (hnew : s.cached a (s.poolKey win line) = none)
    (hroom : (s.cache a).length < cacheCap a) (hout : s.outstanding a (s.poolKey win line) = false) (hlive : s.agentLive a = true) :
    s.poolRead a win line x = if winCacheable (s.poolWin win) then (s.missed a win line x).request win line { agent := a, excl := x }
      else (s.missed a win line x).plainRead a win line := by
  unfold State.poolRead
  dsimp only
  rw [hcode, hnew]
  dsimp only
  rw [decide_eq_false (Nat.not_le.mpr hroom), hout, hlive]
  rfl

theorem plainRead_down (h : s.poolUp = false) : s.plainRead a win line = s.agentFail a .failedLink := by
  unfold State.plainRead
  rw [h]
  rfl

theorem plainRead_issues {o : PoolOp} (hup : s.poolUp = true) (hops : ∀ p, p ∈ s.pool.ops → s.poolKey p.win p.line ≠ s.poolKey win line)
    (hplan : s.pool.planRead (s.poolWin win) win line false [a] = some o) : s.plainRead a win line = s.issue o := by
  have hnone : s.pool.ops.filter (fun o => s.poolKey o.win o.line = s.poolKey win line) = [] := by
    rw [List.filter_eq_nil_iff]
    intro p hp hsame
    exact hops p hp (of_decide_eq_true hsame)
  have hjoin : s.joinRead a (s.poolKey win line) = none := by
    unfold State.joinRead
    rw [hnone]
    rfl
  unfold State.plainRead
  rw [hup, if_neg (show ¬((!true) = true) from Bool.false_ne_true), hjoin, hplan]

/-- A request joins its line's queue. -/
theorem request_joins {key : Nat} {e : DirEntry} (hkey : s.poolKey win line = key) (h : s.entry key = some e)
    (hroom : e.trans.isSome = true ∨ s.transCount < 256) (r : DirReq) :
    s.request win line r = (s.modEntry key (fun z => { z with queue := z.queue ++ [r] })).serveLine key := by
  unfold State.request
  dsimp only
  rw [hkey, h]
  refine if_neg ?_
  rcases hroom with h | h
  · simp [Option.isSome_iff_ne_none.mp h]
  · simp [Nat.not_le.mpr h]

theorem evictOne_empty (h : s.pool.dir = []) : s.evictOne = { s with freeCtr := s.freeCtr + 1 } := by
  unfold State.evictOne
  rw [h]
  simp

/-- The line enters the directory with its first request. -/
def State.lineEntered (s : State) (key win line : Nat) (r : DirReq) : State :=
  { s with freeCtr := s.freeCtr + 1, pool.dir := [{ key := key, win := win, line := line, queue := [r] }] }

theorem request_enters {key : Nat} (hkey : s.poolKey win line = key) (h : s.pool.dir = []) (r : DirReq) :
    s.request win line r = (s.lineEntered key win line r).serveLine key := by
  have hnone : s.entry key = none := by
    unfold State.entry
    rw [h]
    rfl
  have hcount : ¬256 ≤ s.transCount := by
    unfold State.transCount
    rw [h]
    exact Nat.not_le.mpr (by decide)
  unfold State.request
  dsimp only
  rw [hkey, hnone]
  dsimp only
  rw [if_neg hcount, evictOne_empty h]
  dsimp only
  rw [h]
  rfl

/-- A pool read for a request is issued. -/
theorem startRead_issues {e : DirEntry} {r : DirReq} {o : PoolOp} (hup : s.poolUp = true)
    (hplan : s.pool.planRead (s.poolWin e.win) e.win e.line true [r.agent] = some o) :
    s.startRead e r = (s.modEntry e.key (fun z => { z with trans := some (.read r) })).issue o := by
  unfold State.startRead
  rw [hup, if_neg (show ¬((!true) = true) from Bool.false_ne_true), hplan]

end Read

/-- The first request of a line reads it from the pool. -/
theorem lineEntered_reads {s : State} {key a win line : Nat} {x : Bool} {o : PoolOp} (hup : s.poolUp = true)
    (hplan : s.pool.planRead (s.poolWin win) win line true [a] = some o) (u : State)
    (hu : u = (s.lineEntered key win line { agent := a, excl := x }).serveLine key) :
    u.pool.ops = s.pool.ops ++ [o]
      ∧ u.entry key = some { key := key, win := win, line := line, trans := some (.read { agent := a, excl := x }) } := by
  have hentry : (s.lineEntered key win line { agent := a, excl := x }).entry key =
      some { key := key, win := win, line := line, queue := [{ agent := a, excl := x }] } := by
    unfold State.entry State.lineEntered
    simp
  have htaken := entry_modEntry (f := fun z => { z with queue := [] }) (fun _ => rfl) hentry
  have hissue := startRead_issues (s := (s.lineEntered key win line { agent := a, excl := x }).modEntry key (fun z => { z with queue := [] }))
    (e := { key := key, win := win, line := line, queue := [{ agent := a, excl := x }] }) (r := { agent := a, excl := x }) (o := o) hup hplan
  rw [serveLine_reads hentry rfl rfl rfl rfl, hissue] at hu
  have hread := entry_modEntry (f := fun z => { z with trans := some (.read { agent := a, excl := x }) }) (fun _ => rfl) htaken
  rw [serve_busy ((entry_issue _ o key).trans hread) rfl] at hu
  subst hu
  exact ⟨rfl, hread⟩

section Requests
variable {s : State} {a win line k : Nat} {x : Bool} {cd : Code} {o : PoolOp} {e : DirEntry}

/-- What a miss does, by the window and the line's entry. -/
theorem poolRead_byEntry (hcode : s.poolCode a win line x = none) (hnew : s.cached a (s.poolKey win line) = none)
    (hroom : (s.cache a).length < cacheCap a) (hout : s.outstanding a (s.poolKey win line) = false) (hlive : s.agentLive a = true)
    (u : State) (hu : u = s.poolRead a win line x) :
    (winCacheable (s.poolWin win) = false → s.poolUp = false → tget .done a u.pool.agentRes = .failedLink ∧ u.pool.ops = s.pool.ops)
      ∧ (winCacheable (s.poolWin win) = false → s.poolUp = true → (∀ p, p ∈ s.pool.ops → s.poolKey p.win p.line ≠ s.poolKey win line) →
        s.pool.planRead (s.poolWin win) win line false [a] = some o → u.pool.ops = s.pool.ops ++ [o])
      ∧ (winCacheable (s.poolWin win) = true → s.poolUp = true → s.pool.dir = [] →
        s.pool.planRead (s.poolWin win) win line true [a] = some o → u.pool.ops = s.pool.ops ++ [o]
        ∧ u.entry (s.poolKey win line) =
          some { key := s.poolKey win line, win := win, line := line, trans := some (.read { agent := a, excl := x }) })
      ∧ (winCacheable (s.poolWin win) = true → s.entry (s.poolKey win line) = some e → e.trans.isSome = true →
        u.pool.ops = s.pool.ops ∧ u.entry (s.poolKey win line) = some { e with queue := e.queue ++ [{ agent := a, excl := x }] })
      ∧ (winCacheable (s.poolWin win) = true → s.entry (s.poolKey win line) = some e → e.trans = none → s.transCount < 256 → e.queue = [] →
        e.snoops = [] → e.st = 2 → e.holders = [k] → u.pool.toAgent = s.pool.toAgent ++ [(k, e.win, e.line, .recall)]
        ∧ u.entry (s.poolKey win line) = some { e with trans := some (.await [k] none (.req { agent := a, excl := x })) }) := by
  rw [poolRead_misses hcode hnew hroom hout hlive] at hu
  have hpool := missed_pool s a win line x
  have hup := missed_poolUp s a win line x
  generalize s.missed a win line x = z at hpool hup hu
  have hwindows : z.pool.windows = s.pool.windows := by rw [hpool]
  have hops : z.pool.ops = s.pool.ops := by rw [hpool]
  have hdir : z.pool.dir = s.pool.dir := by rw [hpool]
  have hkey := poolKey_of_windows hwindows win line
  have hwin := poolWin_of_windows hwindows win
  have hplans (b : Bool) : z.pool.planRead (z.poolWin win) win line b [a] = s.pool.planRead (s.poolWin win) win line b [a] := by
    rw [hwin, hpool]
    rfl
  refine ⟨fun hc hdown => ?_, fun hc hon hfree hplan => ?_, fun hc hon hempty hplan => ?_, fun hc hentry ht => ?_,
    fun hc hentry ht hcount hq hs hst hh => ?_⟩
  · rw [hc, if_neg Bool.false_ne_true, plainRead_down (hup.trans hdown)] at hu
    subst hu
    exact ⟨tget_tset_same .., hops⟩
  · rw [hc, if_neg Bool.false_ne_true, plainRead_issues (o := o) (hup.trans hon)
      (fun p hp => by rw [poolKey_of_windows hwindows, hkey]; exact hfree p (by rw [← hops]; exact hp)) ((hplans false).trans hplan)] at hu
    subst hu
    rw [issue_pool, hops]
  · rw [hc, if_pos rfl, request_enters hkey (hdir.trans hempty)] at hu
    obtain ⟨hissued, hread⟩ := lineEntered_reads (hup.trans hon) ((hplans true).trans hplan) u hu
    exact ⟨hissued.trans (by rw [hops]), hread⟩
  · have hz : z.entry (s.poolKey win line) = some e := (entry_of_dir hdir _).trans hentry
    have hjoined := entry_modEntry (f := fun y => { y with queue := y.queue ++ [{ agent := a, excl := x }] }) (fun _ => rfl) hz
    rw [hc, if_pos rfl, request_joins hkey hz (Or.inl ht), serveLine_busy hjoined ht] at hu
    subst hu
    exact ⟨hops, hjoined⟩
  · have hz : z.entry (s.poolKey win line) = some e := (entry_of_dir hdir _).trans hentry
    have hjoined := entry_modEntry (f := fun y => { y with queue := y.queue ++ [{ agent := a, excl := x }] }) (fun _ => rfl) hz
    have htaken := entry_modEntry (f := fun y => { y with queue := [] }) (fun _ => rfl) hjoined
    rw [hc, if_pos rfl, request_joins hkey hz (Or.inr ((transCount_of_dir hdir).trans_lt hcount)),
      serveLine_recalls hjoined ht hs (by dsimp only; rw [hq]; rfl) hst hh] at hu
    have hekey := entry_key hentry
    obtain ⟨htold, hawait⟩ := recallAll_owner (s := (z.modEntry (s.poolKey win line) (fun y => { y with queue := y.queue ++ [{ agent := a, excl := x }] })).modEntry
      (s.poolKey win line) (fun y => { y with queue := [] })) (e := { e with queue := e.queue ++ [{ agent := a, excl := x }] }) hst
      (by dsimp only; rw [hekey]; exact htaken) k (.req { agent := a, excl := x })
    rw [← hu] at htold hawait
    refine ⟨htold.trans (congrArg (· ++ _) (by rw [modEntry_pool, modEntry_pool, hpool])), ?_⟩
    dsimp only at hawait
    rw [← hekey, hawait]
    exact congrArg (fun l => some { e with trans := some (.await [k] none (.req { agent := a, excl := x })), queue := l }) hq.symm

end Requests

end Sys2Proof.Machine
end

section
/-! PROOF. O51: writebacks, evictions, messages of agents and snoops, and the moves of a pool line as a whole. -/

namespace Sys2Proof.Machine

open Sys2Proof

section Lines
variable {s : State} {a win line k : Nat} {x : Bool} {o : PoolOp} {e : DirEntry} {d : BitVec 512} {c : CacheLine}
  {ms : List (Nat × Nat × Nat × DirMsg)} {q : List (Nat × Nat × Nat × Option (BitVec 512))} {r : DirReq}

/-! ### Writebacks and evictions -/

theorem execWb_plain (hc : winCacheable (s.poolWin win) = false) (hcode : s.poolCode a win line true = none)
    (hplan : s.pool.planWrite (s.poolWin win) win line false [a] d = some o) :
    execWb a win line d s = .next ((s.wakeDom 3 11 win).issue o) := by
  unfold execWb State.plainWrite
  dsimp only
  rw [hc, if_pos (show (!false) = true from rfl), hcode]
  dsimp only
  rw [hplan]

/-- The line's writeback holds its entry, and is traced. -/
def State.wbHeld (s : State) (key a win line : Nat) (d : BitVec 512) : State :=
  (s.modEntry key (fun x => { x with trans := some (.writeback a d) })).tracePool win line 3 a false 2

theorem wbHeld_pool (s : State) (key a win line : Nat) (d : BitVec 512) : (s.wbHeld key a win line d).pool =
    (s.modEntry key (fun x => { x with trans := some (.writeback a d) })).pool := tracePool_pool ..

theorem execWb_writes (hc : winCacheable (s.poolWin win) = true) (hcached : s.cached a (s.poolKey win line) = some c)
    (hdirty : c.dirty = true) (hentry : s.entry (s.poolKey win line) = some e) (hst : e.st = 2) (hh : e.holders = [a])
    (ht : e.trans = none) (hcount : s.transCount < 256) (hdom : s.domActive 3 = true) (hmail : s.pool.toAgent = []) :
    execWb a win line d s = .next (((s.wbHeld (s.poolKey win line) a win line d).startWrite
      { e with trans := some (.writeback a d) } d).release (s.poolKey win line)) := by
  unfold execWb
  dsimp only
  rw [hc, if_neg (show ¬((!true) = true) from Bool.false_ne_true), hcached, hentry]
  refine if_pos ?_
  simp [hdirty, hst, hh, ht, hcount, hdom, hmail]

theorem startWrite_issues {e : DirEntry} (hplan : s.pool.planWrite (s.poolWin e.win) e.win e.line true [] d = some o) :
    s.startWrite e d = s.issue o := by
  unfold State.startWrite
  rw [hplan]

theorem wb_holds (hentry : s.entry (s.poolKey win line) = some e) (hwait : s.pool.waitingReqs = [])
    (hplan : s.pool.planWrite (s.poolWin e.win) e.win e.line true [] d = some o) (u : State)
    (hu : u = ((s.wbHeld (s.poolKey win line) a win line d).startWrite { e with trans := some (.writeback a d) } d).release
      (s.poolKey win line)) :
    u.pool.ops = s.pool.ops ++ [o] ∧ u.entry (s.poolKey win line) = some { e with trans := some (.writeback a d) } := by
  have hpool := wbHeld_pool s (s.poolKey win line) a win line d
  generalize s.poolKey win line = key at *
  have hheld : (s.wbHeld key a win line d).entry key = some { e with trans := some (.writeback a d) } :=
    (entry_of_dir (congrArg Pool.dir hpool) key).trans
      (entry_modEntry (f := fun x => { x with trans := some (.writeback a d) }) (fun _ => rfl) hentry)
  generalize s.wbHeld key a win line d = z at *
  have hissue : z.startWrite { e with trans := some (.writeback a d) } d = z.issue o := by
    refine startWrite_issues ?_
    rw [poolWin_of_windows (u := z) (s := s) (by rw [hpool]; rfl), hpool]
    exact hplan
  have hrest := serveLine_busy (s := z.issue o) ((entry_issue z o key).trans hheld) rfl
  rw [hissue, release_rests hrest (by rw [issue_pool, hpool]; exact hwait)] at hu
  subst hu
  exact ⟨by rw [issue_pool, hpool]; rfl, hheld⟩

theorem execEvc_leaves (hcached : s.cached a (s.poolKey win line) = some c) (hclean : c.dirty = false)
    (hentry : s.entry (s.poolKey win line) = some e) (hh : e.holders = [a]) (ht : e.trans = none) (hq : e.queue = [])
    (hs : e.snoops = []) (hdom : s.domActive 3 = true) :
    ∃ u, execEvc a win line s = .next u ∧ u.cached a (s.poolKey win line) = none ∧ u.entry (s.poolKey win line) = none := by
  have hgo : (!c.dirty && e.holders.contains a && e.trans.isNone && s.domActive 3) = true := by simp [hclean, hh, ht, hdom]
  unfold execEvc
  dsimp only
  rw [hcached, hentry]
  dsimp only
  rw [if_pos hgo]
  refine ⟨_, rfl, ?_⟩
  have hnone := cached_setCached_none s a (s.poolKey win line)
  generalize s.poolKey win line = key at *
  have hdropped : (s.setCached a key none).entry key = some e := hentry
  generalize s.setCached a key none = z at *
  have hmod := entry_modEntry (f := fun x => { x with
    holders := x.holders.filter (· ≠ a), st := if x.st = 2 || x.holders.length ≤ 1 then 0 else 1 }) (fun _ => rfl) hdropped
  have htrace := tracePool_pool (z.modEntry key (fun x => { x with
    holders := x.holders.filter (· ≠ a), st := if x.st = 2 || x.holders.length ≤ 1 then 0 else 1 })) win line 4 a false
      (if e.holders.length ≤ 1 then 0 else e.st)
  generalize State.tracePool _ win line 4 a false (if e.holders.length ≤ 1 then 0 else e.st) = y at *
  have hy : y.entry key = _ := (entry_of_dir (by rw [htrace]) key).trans hmod
  rw [serveLine_leaves hy ht hs hq (by dsimp only; rw [hh]; simp)]
  refine ⟨(cached_of_caches (s := z) (by dsimp only; rw [htrace]; rfl) (by dsimp only; rw [htrace]; rfl) a key).trans hnone, ?_⟩
  unfold State.entry
  dsimp only
  rw [List.find?_eq_none]
  intro b hb hkey
  simp at hb hkey
  exact hb.2 hkey

/-! ### Messages at an agent -/

/-- The messages to agents are those left. -/
def State.withAgentMail (s : State) (ms : List (Nat × Nat × Nat × DirMsg)) : State := { s with pool.toAgent := ms }

theorem takeDir_head {p : DirMsg → Bool} {m : DirMsg} (h : s.pool.toAgent = (a, win, line, m) :: ms) (hp : p m = true) :
    s.takeDir a p = some ((win, line, m), s.withAgentMail ms) := by
  unfold State.takeDir takeAgent
  rw [h]
  simp [hp, State.withAgentMail]

theorem execGrantS_installs (h : s.pool.toAgent = (a, win, line, .grantS d) :: ms) :
    execGrantS a s = .next ((s.withAgentMail ms).install a win line d false false) := by
  unfold execGrantS
  rw [takeDir_head h rfl]

theorem execGrantX_installs (h : s.pool.toAgent = (a, win, line, .grantX d x) :: ms) (st : Option (BitVec 512)) :
    execGrantX a st s = .next ((s.withAgentMail ms).install a win line (st.getD d) (x || st.isSome) true) := by
  unfold execGrantX
  rw [takeDir_head h rfl]

/-- A line that an agent takes stands in its cache. -/
theorem install_cached (hc : winCacheable (s.poolWin win) = true) (dirty excl : Bool) (v : BitVec 512)
    (u : State) (hu : u = (s.withAgentMail ms).install a win line v dirty excl) : u.pool.toAgent = ms
      ∧ u.cached a (s.poolKey win line) = some { win := win, line := line, data := v, dirty := dirty, excl := excl } := by
  have hinstall : (s.withAgentMail ms).install a win line v dirty excl = (s.withAgentMail ms).setCached a (s.poolKey win line)
      (some { win := win, line := line, data := v, dirty := dirty, excl := excl }) := if_pos hc
  rw [hinstall] at hu
  subst hu
  exact ⟨rfl, cached_setCached_some rfl⟩

theorem execWbDone_drops (h : s.pool.toAgent = (a, win, line, .wbDone) :: ms) (hc : winCacheable (s.poolWin win) = true) :
    execWbDone a s = .next ((s.withAgentMail ms).setCached a (s.poolKey win line) none) := by
  unfold execWbDone
  rw [takeDir_head h rfl]
  exact congrArg Host.Outcome.next (if_pos hc)

/-- An answer to a recall carries dirty data, and the copy is gone. -/
theorem sendAck_answers (hcached : s.cached a (s.poolKey win line) = some c) (u : State)
    (hu : u = (s.withAgentMail ms).sendAck a win line) : u.pool.toAgent = ms ∧ u.cached a (s.poolKey win line) = none
      ∧ u.pool.toDir = s.pool.toDir ++ [(a, win, line, if c.dirty then some c.data else none)] := by
  have hcopy : (s.withAgentMail ms).cached a ((s.withAgentMail ms).poolKey win line) = some c := hcached
  have hnone := cached_setCached_none (s.withAgentMail ms) a ((s.withAgentMail ms).poolKey win line)
  unfold State.sendAck at hu
  dsimp only at hu
  rw [hcopy] at hu
  subst hu
  exact ⟨rfl, hnone, rfl⟩

/-! ### Answers and snoops at the directory -/

/-- The answers to the directory are those left, and the one taken is traced. -/
def State.ackTraced (s : State) (a win line : Nat) (q : List (Nat × Nat × Nat × Option (BitVec 512))) : State :=
  ({ s with pool.toDir := q } : State).tracePool win line 10 a false (s.entrySt (s.poolKey win line))

theorem ackTraced_pool : (s.ackTraced a win line q).pool = { s.pool with toDir := q } := tracePool_pool ..

theorem execAck_counts (h : s.pool.toDir = (a, win, line, some d) :: q) :
    execAck s = .next ((s.ackTraced a win line q).ackIn a (s.poolKey win line) (some d)) := by
  unfold execAck
  rw [h]
  rfl

/-- The line whose last answer has come with data d, for request r: free for its next holder. -/
def State.lineFreed (s : State) (key a : Nat) (d : BitVec 512) (r : DirReq) : State :=
  (s.modEntry key (fun x => { x with
    holders := x.holders.filter (· ≠ a), trans := some (.await [] (some d) (.req r)) })).modEntry key (fun x =>
      { x with st := 0, holders := [], trans := none })

theorem lineFreed_entry {key : Nat} (hentry : s.entry key = some e) :
    (s.lineFreed key a d r).entry key = some { e with st := 0, holders := [], trans := none } := by
  have hmod := entry_modEntry (f := fun x => { x with
    holders := x.holders.filter (· ≠ a), trans := some (.await [] (some d) (.req r)) }) (fun _ => rfl) hentry
  have hfreed := entry_modEntry (f := fun x => { x with st := 0, holders := [], trans := none }) (fun _ => rfl) hmod
  exact hfreed

theorem ackIn_last {key : Nat} (hentry : s.entry key = some e) (ht : e.trans = some (.await [a] none (.req r)))
    (hexcl : r.excl = true) : s.ackIn a key (some d) =
      ((s.lineFreed key a d r).grant { e with st := 0, holders := [] } r d true).release key := by
  have hkey := entry_key hentry
  have hempty : ([a].filter (· ≠ a)) = [] := by simp
  unfold State.ackIn
  rw [hentry]
  dsimp only
  rw [ht]
  dsimp only
  rw [hempty, if_pos (show ([] : List Nat).isEmpty = true from rfl)]
  unfold State.answered
  dsimp only
  rw [if_pos hexcl, hkey]
  rfl

/-- The last answer of a recall gives the line to the request, with the data of the answer. -/
theorem ackIn_grants {key : Nat} (hentry : s.entry key = some e) (ht : e.trans = some (.await [a] none (.req r)))
    (hexcl : r.excl = true) (hlive : s.agentLive r.agent = true) (hq : e.queue = []) (hs : e.snoops = [])
    (hwait : s.pool.waitingReqs = []) (u : State) (hu : u = s.ackIn a key (some d)) :
    u.pool.toDir = s.pool.toDir ∧ u.pool.toAgent = s.pool.toAgent ++ [(r.agent, e.win, e.line, .grantX d true)]
      ∧ u.entry key = some { e with st := 2, holders := [r.agent], trans := none } ∧ u.pool.ops = s.pool.ops := by
  have hkey := entry_key hentry
  have hfreed := lineFreed_entry (a := a) (d := d) (r := r) hentry
  rw [ackIn_last hentry ht hexcl] at hu
  rw [← hkey] at hfreed hu ⊢
  obtain ⟨htold, hgranted, hops, -, hacks⟩ := grant_grants (s := s.lineFreed e.key a d r) (e := { e with st := 0, holders := [] })
    (d := d) (dirty := true) hlive hfreed
  rw [grant_released (s := s.lineFreed e.key a d r) (e := { e with st := 0, holders := [] }) rfl hlive hfreed hs hq hwait] at hu
  subst hu
  rw [if_pos hexcl] at htold
  rw [if_pos hexcl, if_pos hexcl] at hgranted
  exact ⟨hacks, htold, hgranted, hops⟩

/-- A snoop is counted and traced. -/
def State.snoopSeen (s : State) (win line : Nat) (x : Bool) : State :=
  ({ s.wakeDom 3 11 win with
      pool.snoops := sat 16 (s.wakeDom 3 11 win).pool.snoops 1
      pool.conflicts := if x && (s.entry (s.poolKey win line)).any (fun e => e.trans.isSome)
        then sat 16 (s.wakeDom 3 11 win).pool.conflicts 1 else (s.wakeDom 3 11 win).pool.conflicts } : State).tracePool
    win line 11 17 ((s.entry (s.poolKey win line)).any (fun e => e.trans.isSome)) (s.entrySt (s.poolKey win line))

theorem snoopSeen_pool (s : State) (win line : Nat) (x : Bool) : (s.snoopSeen win line x).pool = { s.pool with
    snoops := sat 16 s.pool.snoops 1
    conflicts := if x && (s.entry (s.poolKey win line)).any (fun e => e.trans.isSome) then sat 16 s.pool.conflicts 1
      else s.pool.conflicts } := by
  unfold State.snoopSeen
  rw [tracePool_pool]
  dsimp only
  rw [wakeDom_pool]

theorem execBisnp_absent (h : s.entry (s.poolKey win line) = none) :
    execBisnp win line k x s = .next ((s.snoopSeen win line x).answer win line k 0) := by
  unfold execBisnp
  dsimp only
  rw [if_pos (by rw [h]; rfl)]
  rfl

theorem execBisnp_joins (h : s.entry (s.poolKey win line) = some e) : execBisnp win line k x s =
    .next (((s.snoopSeen win line x).modEntry (s.poolKey win line) (fun y => { y with snoops := y.snoops ++ [k] })).serveLine
      (s.poolKey win line)) := by
  unfold execBisnp
  dsimp only
  rw [if_neg (by rw [h]; exact Bool.false_ne_true)]
  rfl

end Lines

/-- Settles O51, request by request, message by message and snoop by snoop. -/
theorem poolLinesMoveByTheDirectory : Obligations.PoolLinesMoveByTheDirectory := by
  unfold Obligations.PoolLinesMoveByTheDirectory
  intro s a win line k x i cd o e d c st ms q r key
  refine ⟨fun hi => ?_, fun hc hcode hplan => ⟨_, execWb_plain hc hcode hplan, ?_⟩,
    fun hc hcached hdirty hentry hst hh ht hcount hdom hmail hwait hplan =>
      ⟨_, execWb_writes hc hcached hdirty hentry hst hh ht hcount hdom hmail, wb_holds hentry hwait hplan _ rfl⟩,
    fun hcached hclean hentry hh ht hq hs hdom => execEvc_leaves hcached hclean hentry hh ht hq hs hdom,
    fun hmail hc => ⟨_, execGrantS_installs hmail, install_cached hc false false d _ rfl⟩,
    fun hmail hc => ⟨_, execGrantX_installs hmail st, install_cached hc _ true _ _ rfl⟩,
    fun hmail hc => ⟨_, execWbDone_drops hmail hc, rfl, cached_setCached_none (s.withAgentMail ms) a key⟩,
    fun hi hcached => ?_, fun hacks hwait hentry ht hexcl hlive hq hs => ⟨_, execAck_counts hacks, ?_⟩,
    fun hk hnone => ⟨_, execBisnp_absent hnone, ?_⟩, fun hentry ht => ⟨_, execBisnp_joins hentry, ?_⟩,
    fun hentry ht hs hst hh => ⟨_, execBisnp_joins hentry, ?_⟩⟩
  · have hexec : exec i s = .next (s.poolRead a win line x) := by
      rcases hi with ⟨rfl, rfl⟩ | ⟨rfl, rfl⟩
      · rfl
      · rfl
    refine ⟨fun hcode => hexec.trans (congrArg Host.Outcome.next (poolRead_refused hcode)), fun hcode hnew hroom hout hlive => ?_⟩
    obtain ⟨h1, h2, h3, h4, h5⟩ := poolRead_byEntry (k := k) (o := o) (e := e) hcode hnew hroom hout hlive _ rfl
    exact ⟨fun hc hdown => ⟨_, hexec, h1 hc hdown⟩, fun hc hon hfree hplan => ⟨_, hexec, h2 hc hon hfree hplan⟩,
      fun hc hon hempty hplan => ⟨_, hexec, h3 hc hon hempty hplan⟩, fun hc hentry ht => ⟨_, hexec, h4 hc hentry ht⟩,
      fun hc hentry ht hcount hq hs hst hh => ⟨_, hexec, h5 hc hentry ht hcount hq hs hst hh⟩⟩
  · rw [issue_pool, wakeDom_pool]
  · rcases hi with ⟨hmail, rfl⟩ | ⟨hmail, rfl⟩
    · refine ⟨(s.withAgentMail ms).sendAck a win line, ?_, sendAck_answers hcached _ rfl⟩
      show execRecall a s = _
      unfold execRecall
      rw [takeDir_head hmail rfl]
    · refine ⟨(s.withAgentMail ms).sendAck a win line, ?_, sendAck_answers hcached _ rfl⟩
      show execInv a s = _
      unfold execInv
      rw [takeDir_head hmail rfl]
  · have hpool := ackTraced_pool (s := s) (a := a) (win := win) (line := line) (q := q)
    have hlive' : (s.ackTraced a win line q).agentLive r.agent = true := hlive ▸ (agentLive_kept (s := { s with pool.toDir := q })
      (only_tracePool (OnlyM.refl _ _) (by decide)) r.agent)
    obtain ⟨h1, h2, h3, h4⟩ := ackIn_grants (s := s.ackTraced a win line q) (d := d)
      ((entry_of_dir (by rw [hpool]) _).trans hentry) ht hexcl hlive' hq hs (by rw [hpool]; exact hwait) _ rfl
    exact ⟨h1.trans (by rw [hpool]), h2.trans (by rw [hpool]), h3, h4.trans (by rw [hpool])⟩
  · rw [answer_pool _ _ _ _ hk, snoopSeen_pool]
    exact ⟨rfl, rfl⟩
  · have hpool := snoopSeen_pool s win line x
    have hmod := entry_modEntry (f := fun y => { y with snoops := y.snoops ++ [k] }) (fun _ => rfl)
      ((entry_of_dir (u := s.snoopSeen win line x) (by rw [hpool]) key).trans hentry)
    rw [serveLine_busy hmod ht]
    refine ⟨hmod, by rw [modEntry_pool, hpool], ?_⟩
    rw [modEntry_pool, hpool]
    dsimp only
    rw [hentry, Option.any_some, ht, Bool.and_true]
  · have hekey := entry_key hentry
    obtain ⟨ekey, ewin, eline, est, eh, et, eq, es⟩ := e
    dsimp only at hekey ht hs hst hh
    subst hekey ht hs hst hh
    have hpool := snoopSeen_pool s win line x
    have hmod := entry_modEntry (f := fun y => { y with snoops := y.snoops ++ [k] }) (fun _ => rfl)
      ((entry_of_dir (u := s.snoopSeen win line x) (by rw [hpool]) key).trans hentry)
    have htaken := entry_modEntry (f := fun y => { y with snoops := [] }) (fun _ => rfl) hmod
    rw [serveLine_snooped hmod rfl rfl rfl]
    obtain ⟨htold, hawait⟩ := recallAll_owner
      (e := { key := key, win := ewin, line := eline, st := 2, holders := [a], queue := eq, snoops := [k] }) rfl htaken a (.snoop k)
    exact ⟨hawait, htold.trans (congrArg (· ++ _) (by rw [modEntry_pool, modEntry_pool, hpool]))⟩

end Sys2Proof.Machine
end

section
/-! PROOF. O52: the gateway's operations, line by line, and dirty lines held without a link (R183, R188, R290). -/

namespace Sys2Proof.Machine

open Sys2Proof

section Ops
variable {s : State} {a win line : Nat} {o : PoolOp} {e : DirEntry} {d v : BitVec 512} {r : DirReq} {c : CacheLine}
  {y : Nat × Nat} {ys : List (Nat × Nat)}

/-- The one operation there is goes on. -/
theorem nextOp_one (hops : s.pool.ops = [o]) (hkey : s.poolKey o.win o.line = s.poolKey win line) : s.nextOp win line = some o := by
  have hready : s.opReady o = true := by
    unfold State.opReady
    rw [hops]
    simp
  unfold State.nextOp
  rw [hops, List.find?_cons_of_pos (by simpa using hkey)]
  exact if_pos hready

/-- A line that comes in, with others to follow. -/
theorem readIn_more {p : Pool} {w : PoolWin} (hreads : o.reads = y :: ys) (hys : ys ≠ []) :
    p.readIn w o d = { o with reads := ys, got := o.got ++ [d] } := by
  unfold Pool.readIn
  rw [hreads]
  dsimp only [List.tail_cons]
  split
  · exact if_neg (by simpa using hys)
  · rfl

theorem readIn_last {p : Pool} {w : PoolWin} (hreads : o.reads = [y]) (hnew : o.new = none) :
    p.readIn w o d = { o with reads := [], got := o.got ++ [d] } := by
  unfold Pool.readIn
  rw [hreads, hnew]
  rfl

theorem execPoolReadComplete_more (hnext : s.nextOp win line = some o) (hreads : o.reads = y :: ys) (hys : ys ≠ []) :
    execPoolReadComplete win line d s = .next (s.putOp o { o with reads := ys, got := o.got ++ [d] }) := by
  have hmore : ys.isEmpty = false := by simpa using hys
  unfold execPoolReadComplete
  rw [hnext]
  dsimp only
  rw [if_neg (by rw [hreads]; exact Bool.false_ne_true), readIn_more hreads hys]
  dsimp only
  rw [hmore]
  rfl

theorem execPoolReadComplete_last (hnext : s.nextOp win line = some o) (hreads : o.reads = [y]) (hnew : o.new = none)
    (hwrites : o.writes = []) : execPoolReadComplete win line d s =
      .next ((s.putOp o { o with reads := [], got := o.got ++ [d] }).opDone { o with reads := [], got := o.got ++ [d] }) := by
  unfold execPoolReadComplete
  rw [hnext]
  dsimp only
  rw [if_neg (by rw [hreads]; exact Bool.false_ne_true), readIn_last hreads hnew]
  dsimp only
  rw [hwrites]
  rfl

theorem execPoolWriteComplete_last {w : Nat × Nat × BitVec 512} (hnext : s.nextOp win line = some o) (hreads : o.reads = [])
    (hwrites : o.writes = [w]) : execPoolWriteComplete win line s =
      .next ((s.putOp o { o with writes := [] }).opDone { o with writes := [] }) := by
  unfold execPoolWriteComplete
  rw [hnext]
  dsimp only
  rw [hreads, hwrites]
  rfl

/-- No operation is left. -/
def State.opsEmptied (s : State) : State := { s with pool.ops := [] }

theorem putOp_erased (hops : s.pool.ops = [o]) (o1 : PoolOp) :
    ({ s.putOp o o1 with pool.ops := (s.putOp o o1).pool.ops.erase o1 } : State) = s.opsEmptied := by
  unfold State.putOp State.opsEmptied
  rw [hops]
  simp

/-- What an operation read. -/
def PoolOp.value (o : PoolOp) : BitVec 512 := if o.plan = 2 then xorAll o.got else o.got.getD 0 0

/-- An operation of one agent is answered. -/
theorem opDone_plain {o1 : PoolOp} (hops : s.pool.ops = [o]) (hcached : o1.cached = false) (hagents : o1.agents = [a])
    (hlive : s.agentLive a = true) : (s.putOp o o1).opDone o1 =
      s.opsEmptied.tell a o1.win o1.line (if o1.new.isNone then .grantS o1.value else .wbDone) := by
  unfold State.opDone
  dsimp only
  rw [putOp_erased hops, hcached, if_neg Bool.false_ne_true, hagents, List.foldl_cons, List.foldl_nil]
  exact if_pos hlive

theorem opDone_read {o1 : PoolOp} (hops : s.pool.ops = [o]) (hcached : o1.cached = true) (hnew : o1.new = none)
    (hentry : s.entry (s.poolKey o1.win o1.line) = some e) (ht : e.trans = some (.read r)) : (s.putOp o o1).opDone o1 =
      (s.opsEmptied.grant e r o1.value false).release (s.poolKey o1.win o1.line) := by
  have hfound : s.opsEmptied.entry ((s.putOp o o1).poolKey o1.win o1.line) = some e := hentry
  unfold State.opDone
  dsimp only
  rw [putOp_erased hops, hcached, if_pos rfl, hfound]
  dsimp only
  rw [ht, hnew]
  rfl

theorem opDone_written {o1 : PoolOp} (hops : s.pool.ops = [o]) (hcached : o1.cached = true) (hnew : o1.new = some v)
    (hentry : s.entry (s.poolKey o1.win o1.line) = some e) (ht : e.trans = some (.writeback a d)) : (s.putOp o o1).opDone o1 =
      (s.opsEmptied.written e).release (s.poolKey o1.win o1.line) := by
  have hfound : s.opsEmptied.entry ((s.putOp o o1).poolKey o1.win o1.line) = some e := hentry
  unfold State.opDone
  dsimp only
  rw [putOp_erased hops, hcached, if_pos rfl, hfound]
  dsimp only
  rw [ht, hnew]
  rfl

/-- The written line's agent is answered, and the line is free. -/
def State.writebackDone (s : State) (e : DirEntry) (a : Nat) : State :=
  ((s.modEntry e.key (fun x => { x with trans := none, st := 0, holders := [] })).tell a e.win e.line .wbDone).modEntry e.key
    (fun x => { x with queue := [] })

theorem written_grants (ht : e.trans = some (.writeback a d)) (hq : e.queue = [r]) (hs : e.snoops = []) :
    s.written e = (s.writebackDone e a).grant { e with holders := [] } r d false := by
  unfold State.written
  rw [ht]
  dsimp only
  rw [hs, hq]
  rfl

theorem writebackDone_pool (s : State) (e : DirEntry) (a : Nat) : (s.writebackDone e a).pool.toAgent =
    s.pool.toAgent ++ [(a, e.win, e.line, .wbDone)] ∧ (s.writebackDone e a).pool.ops = s.pool.ops
      ∧ (s.writebackDone e a).pool.waitingReqs = s.pool.waitingReqs := by
  unfold State.writebackDone
  rw [modEntry_pool, tell_pool]
  exact ⟨rfl, rfl, rfl⟩

theorem writebackDone_entry {x : DirEntry} (h : s.entry e.key = some x) (a : Nat) :
    (s.writebackDone e a).entry e.key = some { x with trans := none, st := 0, holders := [], queue := [] } := by
  have hfreed := entry_modEntry (f := fun x => { x with trans := none, st := 0, holders := [] }) (fun _ => rfl) h
  have htold := (entry_tell (s.modEntry e.key (fun x => { x with trans := none, st := 0, holders := [] })) a e.win e.line .wbDone
    e.key).trans hfreed
  have htaken := entry_modEntry (f := fun x => { x with queue := [] }) (fun _ => rfl) htold
  exact htaken

theorem writebackDone_live (s : State) (e : DirEntry) (a b : Nat) : (s.writebackDone e a).agentLive b = s.agentLive b := by
  have htell (z : State) : z.agentLive b = (z.tell a e.win e.line .wbDone).agentLive b := by
    unfold State.agentLive
    rw [tell_ok.domActive_eq (by decide)]
  exact (htell (s.modEntry e.key (fun x => { x with trans := none, st := 0, holders := [] }))).symm

/-! ### Dirty lines without a link -/

theorem execDirtyLineHoldExpiry_idle (h : s.pool.linkLost = false ∨ s.poolUp = true) : execDirtyLineHoldExpiry s = .next s := by
  refine if_pos ?_
  rcases h with h | h
  · simp [h]
  · simp [h]

/-- The line is recorded, and the agent's copy gone. -/
def State.lineExpired (s : State) (a : Nat) (c : CacheLine) : State :=
  ((s.pushLoss (s.lineItem c.win c.line .failedLink)).setCached a (s.poolKey c.win c.line) none).modEntry (s.poolKey c.win c.line)
    (fun x => if x.trans.isNone then { x with holders := x.holders.filter (· ≠ a), st := 0 } else x)

theorem execDirtyLineHoldExpiry_one (hlost : s.pool.linkLost = true) (hdown : s.poolUp = false) (hcaches : s.pool.caches = [(a, [c])])
    (hdirty : c.dirty = true) (hops : s.pool.ops = []) : execDirtyLineHoldExpiry s = .next (s.lineExpired a c) := by
  have hlines : s.pool.caches.flatMap (fun e => (e.2.filter (·.dirty)).map (fun c => (e.1, c))) = [(a, c)] := by
    rw [hcaches]
    simp [hdirty]
  have hnone : (s.lineExpired a c).pool.ops = [] := hops
  unfold execDirtyLineHoldExpiry
  dsimp only
  rw [if_neg (by rw [hlost, hdown]; exact Bool.false_ne_true), hlines, List.foldl_cons, List.foldl_nil]
  unfold State.lineExpired at hnone ⊢
  rw [hnone, List.filter_nil, List.foldl_nil, hnone, List.filter_nil, List.foldl_nil]

end Ops

/-- Settles O52: the one operation goes on, and the directory grants from what it read or wrote. -/
theorem poolOperationsComplete : Obligations.PoolOperationsComplete := by
  unfold Obligations.PoolOperationsComplete
  intro s a win line o e d v r rs c w y ys key
  refine ⟨fun hnone => ⟨?_, ?_⟩, fun hnext hreads hys => ⟨_, execPoolReadComplete_more hnext hreads hys, rfl⟩,
    fun hops hkey hreads hnew hwrites hplan hgot =>
      ⟨fun hcached hagents hlive => ⟨_, execPoolReadComplete_last (nextOp_one hops hkey) hreads hnew hwrites, ?_⟩,
        fun hcached hentry ht hq hs hwait hlive => ⟨_, execPoolReadComplete_last (nextOp_one hops hkey) hreads hnew hwrites, ?_⟩⟩,
    fun hops hkey hreads hwrites hnew =>
      ⟨fun hcached hagents hlive => ⟨_, execPoolWriteComplete_last (nextOp_one hops hkey) hreads hwrites, ?_⟩,
        fun hcached hentry ht hq hrs hs hwait hlive hexcl => ⟨_, execPoolWriteComplete_last (nextOp_one hops hkey) hreads hwrites, ?_⟩⟩,
    fun h => execDirtyLineHoldExpiry_idle h,
    fun hlost hdown hcaches hdirty hops => ⟨_, execDirtyLineHoldExpiry_one hlost hdown hcaches hdirty hops, rfl, ?_⟩⟩
  · show execPoolReadComplete win line d s = .next s
    unfold execPoolReadComplete
    rw [hnone]
  · show execPoolWriteComplete win line s = .next s
    unfold execPoolWriteComplete
    rw [hnone]
  · have hvalue : ({ o with reads := [], got := o.got ++ [d] } : PoolOp).value = d := by
      unfold PoolOp.value
      dsimp only
      rw [hplan, hgot]
      rfl
    rw [opDone_plain (o1 := { o with reads := [], got := o.got ++ [d] }) hops hcached hagents hlive, hvalue, tell_pool, hnew]
    exact ⟨rfl, rfl⟩
  · have hvalue : ({ o with reads := [], got := o.got ++ [d] } : PoolOp).value = d := by
      unfold PoolOp.value
      dsimp only
      rw [hplan, hgot]
      rfl
    have hekey := entry_key hentry
    have hentry' : s.opsEmptied.entry e.key = some e := by rw [hekey]; exact hentry
    obtain ⟨htold, hgranted, hleft, -⟩ := grant_grants (s := s.opsEmptied) (d := d) (dirty := false) hlive hentry'
    rw [opDone_read (o1 := { o with reads := [], got := o.got ++ [d] }) hops hcached hnew ((congrArg s.entry hkey).trans hentry) ht,
      hvalue, grant_released (s := s.opsEmptied) (hekey.trans hkey.symm) hlive hentry' hs hq hwait]
    exact ⟨hleft, htold, by rw [← hekey]; exact hgranted⟩
  · rw [opDone_plain (o1 := { o with writes := [] }) hops hcached hagents hlive, tell_pool, hnew]
    exact ⟨rfl, rfl⟩
  · subst hrs
    have hekey := entry_key hentry
    have hentry' : s.opsEmptied.entry e.key = some e := by rw [hekey]; exact hentry
    have hfreed := writebackDone_entry hentry' a
    obtain ⟨hmail, hleft, hreqs⟩ := writebackDone_pool s.opsEmptied e a
    have hlive' : (s.opsEmptied.writebackDone e a).agentLive r.agent = true := (writebackDone_live ..).trans hlive
    rw [opDone_written (o1 := { o with writes := [] }) hops hcached hnew ((congrArg s.entry hkey).trans hentry) ht,
      written_grants ht hq hs]
    generalize s.opsEmptied.writebackDone e a = z at *
    obtain ⟨htold, hgranted, hops', -⟩ := grant_grants (s := z) (e := { e with holders := [] }) (d := d) (dirty := false) hlive' hfreed
    rw [grant_released (s := z) (e := { e with holders := [] }) (hekey.trans hkey.symm) hlive' hfreed hs rfl (hreqs.trans hwait)]
    rw [hexcl, if_pos rfl, hmail] at htold
    rw [hexcl, if_pos rfl, if_pos rfl] at hgranted
    refine ⟨hops'.trans hleft, ?_, htold.trans (by rw [List.append_assoc]; rfl)⟩
    rw [← hekey]
    exact hgranted
  · unfold State.lineExpired
    refine (cached_of_caches (s := (s.pushLoss (s.lineItem c.win c.line .failedLink)).setCached a (s.poolKey c.win c.line) none)
      rfl rfl a _).trans ?_
    exact cached_setCached_none ..

end Sys2Proof.Machine
end

section
/-! PROOF. O53: the stripe state, the rebuild, the lease and the gateway's registers (R181, R186, R189, R191). -/

namespace Sys2Proof.Machine

open Sys2Proof

/-! ### Member failures -/

/-- The stripe state has moved, and the gateway is awake. -/
def State.stripeMoved (s : State) (p : Pool) : State := { s.wakeDom 3 11 0 with pool := p }

section Members
variable {s : State} {k x e : Nat}

theorem memberFails_kept (p : Pool) (k : Nat) : (p.memberFails k).ops = p.ops ∧ (p.memberFails k).members = p.members := by
  unfold Pool.memberFails
  split
  · exact ⟨rfl, rfl⟩
  · split
    · split
      · exact ⟨rfl, rfl⟩
      · exact ⟨rfl, rfl⟩
    · exact ⟨rfl, rfl⟩

theorem memberFails_new {p : Pool} (h1 : p.failed ≠ some k) (h2 : k ∉ p.failedMore) : p.memberFails k =
    if p.stripe = 0 then
      (if p.spare.isSome then { p with stripe := 2, failed := some k, cursor := 0, lineInRow := 0, published := 0 }
       else { p with stripe := 1, failed := some k })
    else { p with stripe := 3, failedMore := p.failedMore ++ [k] } := by
  unfold Pool.memberFails
  refine if_neg ?_
  simp [h1, h2]

theorem execMemberFailed_moves (hops : s.pool.ops = []) (hx : s.pool.members[k]? = some x) (hk : k < 8) :
    execMemberFailed k s = .next (s.stripeMoved (s.pool.memberFails k)) := by
  have hsome : ¬(s.pool.members.isEmpty = true) := by
    intro h
    rw [List.isEmpty_iff.mp h] at hx
    simp at hx
  have hleft : (s.stripeMoved (s.pool.memberFails k)).pool.ops = [] := (memberFails_kept ..).1.trans hops
  have hne : k ≠ 8 := by omega
  unfold execMemberFailed
  rw [if_neg hsome]
  dsimp only
  rw [if_neg hne, hx]
  dsimp only
  rw [if_neg hne]
  unfold State.stripeMoved at hleft ⊢
  dsimp only at hleft
  rw [hleft, List.foldl_nil]

theorem execMemberFailed_spare (hops : s.pool.ops = []) (hsome : s.pool.members ≠ []) (hspare : s.pool.spare = some e)
    (hst : s.pool.stripe = 2) : execMemberFailed 8 s = .next (s.stripeMoved
      { s.pool with stripe := 1, spare := none, cursor := 0, lineInRow := 0, published := 0 }) := by
  have hfails : s.pool.spareFails = { s.pool with stripe := 1, spare := none, cursor := 0, lineInRow := 0, published := 0 } := if_pos hst
  unfold execMemberFailed
  rw [if_neg (by simpa using hsome)]
  dsimp only
  rw [if_pos rfl, hspare]
  dsimp only
  rw [if_pos rfl, hfails]
  dsimp only
  rw [hops, List.foldl_nil]
  rfl

end Members

/-! ### The rebuild and the lease -/

section Keeping
variable {s : State} {granted capacity lease : Nat}

theorem execRebuildWindow_advances (hrole : s.pool.role = 1) (hst : s.pool.stripe = 2) (hup : s.poolUp = true)
    (hdom : s.domActive 3 = true) : execRebuildWindow granted capacity s =
      .next { s with pool := if s.pool.rowCount ≤ (s.pool.advance (s.pool.windowLines granted capacity)).cursor
        then (s.pool.advance (s.pool.windowLines granted capacity)).healed
        else s.pool.advance (s.pool.windowLines granted capacity) } := by
  refine if_pos ?_
  rw [hrole, hst, hup, hdom]
  rfl

theorem execLeaseTick_ticks (hup : s.poolUp = true) (hrole : s.pool.role = 1) :
    execLeaseTick s = .next { s with pool.lease := (s.pool.lease + 1) % 2 ^ 32 } := by
  refine if_pos ?_
  rw [hrole, hup]
  rfl

/-- The reads of a standby that saw no change. -/
def Pool.staleReads (p : Pool) (lease : Nat) : Nat := if lease = p.lease then p.leaseStale + 1 else 0

theorem execLeaseCheck_standby (hup : s.poolUp = true) (hrole : s.pool.role = 2) (claimed : Bool) :
    execLeaseCheck lease claimed s = .next { s with pool := if 10 ≤ s.pool.staleReads lease && claimed
      then { s.pool with role := 1, lease := lease, leaseStale := 0, cursor := s.pool.published, lineInRow := 0 }
      else { s.pool with lease := lease, leaseStale := if 10 ≤ s.pool.staleReads lease then 0 else s.pool.staleReads lease } } := by
  unfold execLeaseCheck
  dsimp only
  rw [if_neg (by rw [hup]; exact Bool.false_ne_true), if_pos hrole]
  change (if (decide (10 ≤ s.pool.staleReads lease) && claimed) = true then Host.Outcome.next _ else Host.Outcome.next _) = _
  by_cases hclaim : (decide (10 ≤ s.pool.staleReads lease) && claimed) = true
  · rw [if_pos hclaim, if_pos hclaim]
  · rw [if_neg hclaim, if_neg hclaim]
    rfl

theorem execLeaseCheck_steps_down (hup : s.poolUp = true) (hrole : s.pool.role = 1) :
    execLeaseCheck lease false s = .next { s with pool := { s.pool with role := 2, leaseStale := 0 } } := by
  unfold execLeaseCheck
  dsimp only
  rw [if_neg (by rw [hup]; exact Bool.false_ne_true), if_neg (by omega), hrole]
  rfl

/-- What a standby holds after a check of the lease. -/
theorem leaseCheck_standby (hrole : s.pool.role = 2) (claimed : Bool) (p : Pool)
    (hp : p = if 10 ≤ s.pool.staleReads lease && claimed
      then { s.pool with role := 1, lease := lease, leaseStale := 0, cursor := s.pool.published, lineInRow := 0 }
      else { s.pool with lease := lease, leaseStale := if 10 ≤ s.pool.staleReads lease then 0 else s.pool.staleReads lease }) :
    p.lease = lease
      ∧ (lease = s.pool.lease → s.pool.leaseStale = 9 → claimed = true → p.role = 1 ∧ p.cursor = s.pool.published)
      ∧ (lease ≠ s.pool.lease → p.role = 2 ∧ p.leaseStale = 0)
      ∧ (lease = s.pool.lease → s.pool.leaseStale < 9 → p.role = 2 ∧ p.leaseStale = s.pool.leaseStale + 1)
      ∧ (claimed = false → p.role = 2) := by
  refine ⟨?_, fun hsame hstale hclaim => ?_, fun hother => ?_, fun hsame hfew => ?_, fun hclaim => ?_⟩
  · rw [hp]
    split
    · rfl
    · rfl
  · have hten : (10 ≤ s.pool.staleReads lease && claimed) = true := by
      unfold Pool.staleReads
      rw [if_pos hsame, hstale, hclaim]
      rfl
    rw [hp, if_pos hten]
    exact ⟨rfl, rfl⟩
  · have hzero : s.pool.staleReads lease = 0 := if_neg hother
    rw [hp, hzero]
    exact ⟨hrole, rfl⟩
  · have hcount : s.pool.staleReads lease = s.pool.leaseStale + 1 := if_pos hsame
    have hless : ¬10 ≤ s.pool.leaseStale + 1 := by omega
    rw [hp, hcount, if_neg (by simp [hless]), if_neg hless]
    exact ⟨hrole, rfl⟩
  · rw [hp, hclaim, Bool.and_false, if_neg Bool.false_ne_true]
    exact hrole

end Keeping

/-! ### Registers -/

/-- Spare `e` is there, and a degraded stripe begins its rebuild. -/
def State.spareAdded (s : State) (e : Nat) : State :=
  let p := { s.pool with spare := some e }
  { s with pool := if p.stripe = 1 then { p with stripe := 2, cursor := 0, lineInRow := 0, published := 0 } else p }

/-- The stripe is healthy again, its data lost. -/
def State.stripeNew (s : State) : State :=
  { s with pool := { s.pool with stripe := 0, failed := none, failedMore := [], cursor := 0, lineInRow := 0, published := 0 } }

theorem spareAdded_pool (s : State) (e : Nat) : (s.spareAdded e).pool.spare = some e
    ∧ (s.spareAdded e).pool.stripe = (if s.pool.stripe = 1 then 2 else s.pool.stripe)
    ∧ (s.pool.stripe = 1 → (s.spareAdded e).pool.cursor = 0) := by
  unfold State.spareAdded
  dsimp only
  by_cases h : s.pool.stripe = 1
  · rw [if_pos h, if_pos h]
    exact ⟨rfl, rfl, fun _ => rfl⟩
  · rw [if_neg h, if_neg h]
    exact ⟨rfl, rfl, fun h' => absurd h' h⟩

section Registers
variable {s : State} {m : Nat}

theorem refuse_code (s : State) (m off : Nat) (c : Code) : ((s.refuse m false off c false).master m).resp.code = c := by
  unfold State.refuse
  rw [modMaster_master]

variable (hready : s.isReady = true)
include hready

theorem keepCmd_runs (hadmin : s.has m .poolBlock .admin = true) (f : State → State) : keepCmd m f s =
    if s.flt.stwReset then .next (s.refuse m false 0x500014 .failedStewardReset false)
    else .next ((if s.pool.role = 1 then f s else s).respond m []) := by
  have hright : s.barRight m 0x500014 .admin = true := hadmin
  have hcheck : s.barCheck m 0x500014 4 false .admin = none := barCheck_allowed rfl hright rfl rfl
  unfold keepCmd
  rw [hready, if_pos rfl, hcheck]

theorem execAddSpare_refused (hadmin : s.has m .poolBlock .admin = true) (hreset : s.flt.stwReset = true) (v : Word) :
    execAddSpare m v s = .next (s.refuse m false 0x500014 .failedStewardReset false) := by
  unfold execAddSpare
  rw [keepCmd_runs hready hadmin, if_pos hreset]

theorem execAddSpare_adds (hadmin : s.has m .poolBlock .admin = true) (hup : s.flt.stwReset = false) (hrole : s.pool.role = 1) {v : Word}
    (hbit : v.getLsbD 1 = true) (hspare : s.pool.spare = none) :
    execAddSpare m v s = .next ((s.spareAdded (fb v.toNat 11 8)).respond m []) := by
  unfold execAddSpare
  rw [keepCmd_runs hready hadmin, if_neg (by rw [hup]; exact Bool.false_ne_true), if_pos hrole]
  refine congrArg (fun z => Host.Outcome.next (State.respond z m [])) ?_
  exact if_neg (by rw [hbit, hspare]; exact Bool.false_ne_true)

theorem execReinit_restarts (hadmin : s.has m .poolBlock .admin = true) (hup : s.flt.stwReset = false) (hrole : s.pool.role = 1) {v : Word}
    (hbit : v.getLsbD 0 = true) (hst : s.pool.stripe = 3) : execReinit m v s = .next (s.stripeNew.respond m []) := by
  unfold execReinit
  rw [keepCmd_runs hready hadmin, if_neg (by rw [hup]; exact Bool.false_ne_true), if_pos hrole]
  refine congrArg (fun z => Host.Outcome.next (State.respond z m [])) ?_
  exact if_pos (by rw [hbit, hst]; rfl)

theorem execPoolKeepCfg_sets (hadmin : s.has m .poolBlock .admin = true) {v : Word} (h1 : 5 ≤ fb v.toNat 5 0) (h2 : fb v.toNat 5 0 ≤ 50) :
    execPoolKeepCfg m v s = .next (({ s with pool.floorPct := fb v.toNat 5 0 } : State).respond m []) := by
  have hright : s.barRight m 0x500010 .admin = true := hadmin
  exact ownReg_applies hready (barCheck_allowed rfl hright rfl rfl) (if_pos (by simp [h1, h2]))

theorem execPoolKeepCfg_refused (hadmin : s.has m .poolBlock .admin = true) {v : Word}
    (h : fb v.toNat 5 0 < 5 ∨ 50 < fb v.toNat 5 0) : execPoolKeepCfg m v s = .next (s.refuse m false 0x500010 .failedAccess false) := by
  have hright : s.barRight m 0x500010 .admin = true := hadmin
  refine ownReg_refuses hready (barCheck_allowed rfl hright rfl rfl) (if_neg ?_)
  simp only [Bool.and_eq_true, decide_eq_true_eq]
  omega

theorem execPoolFlush_flushes (huse : s.has m .poolBlock .use = true) {v : Word} (hbit : v.getLsbD 6 = true)
    (hadmin : s.has m (.poolWin (fb v.toNat 5 0)) .admin = true) :
    execPoolFlush m v s = .next ((s.flushWin (fb v.toNat 5 0)).respond m []) := by
  have hright : s.barRight m 0x500048 .use = true := huse
  refine ownReg_applies hready (barCheck_allowed rfl hright rfl rfl) ?_
  dsimp only
  rw [hbit, if_neg (show ¬((!true) = true) from Bool.false_ne_true), if_pos hadmin]

theorem execPoolFlush_refused (huse : s.has m .poolBlock .use = true) {v : Word} (hbit : v.getLsbD 6 = true)
    (hno : s.has m (.poolWin (fb v.toNat 5 0)) .admin = false) :
    execPoolFlush m v s = .next (s.refuse m false 0x500048 .failedAccess false) := by
  have hright : s.barRight m 0x500048 .use = true := huse
  refine ownReg_refuses hready (barCheck_allowed rfl hright rfl rfl) ?_
  dsimp only
  rw [hbit, if_neg (show ¬((!true) = true) from Bool.false_ne_true), hno]
  rfl

end Registers

/-- The one owned line of a window is recalled as the window is flushed. -/
theorem flushWin_recalls {s : State} {d : DirEntry} {a w : Nat} (hdir : s.pool.dir = [d]) (hin : inWindow (s.poolWin w) d.key = true)
    (ht : d.trans = none) (hs : d.snoops = []) (hst : d.st = 2) (hh : d.holders = [a]) :
    (s.flushWin w).pool.toAgent = s.pool.toAgent ++ [(a, d.win, d.line, .recall)]
      ∧ (s.flushWin w).entry d.key = some { d with trans := some (.await [a] none (.snoop 3)) } := by
  obtain ⟨dkey, dwin, dline, dst, dh, dt, dq, ds⟩ := d
  dsimp only at ht hs hst hh hin ⊢
  subst ht hs hst hh
  have hentry : s.entry dkey = some { key := dkey, win := dwin, line := dline, st := 2, holders := [a], queue := dq } := by
    unfold State.entry
    rw [hdir]
    simp
  have hflush : s.flushWin w = (s.modEntry dkey (fun x => { x with snoops := x.snoops ++ [3] })).serveLine dkey := by
    unfold State.flushWin
    rw [hdir]
    simp [hin]
  have hmod := entry_modEntry (f := fun x => { x with snoops := x.snoops ++ [3] }) (fun _ => rfl) hentry
  have htaken := entry_modEntry (f := fun x => { x with snoops := [] }) (fun _ => rfl) hmod
  rw [hflush, serveLine_snooped hmod rfl rfl rfl]
  exact recallAll_owner (e := { key := dkey, win := dwin, line := dline, st := 2, holders := [a], queue := dq, snoops := [3] })
    rfl htaken a (.snoop 3)

/-- Settles O53, from the stripe's table, the rebuild's cursor, the lease and the registers. -/
theorem keeperMovesTheStripe : Obligations.KeeperMovesTheStripe := by
  unfold Obligations.KeeperMovesTheStripe
  intro s m k x e t granted capacity lease v claimed d a
  refine ⟨fun hops hx hk hfailed hmore => ⟨_, execMemberFailed_moves hops hx hk, (memberFails_kept ..).2, ?_⟩,
    fun hops hsome hspare hst => ⟨_, execMemberFailed_spare hops hsome hspare hst, rfl, rfl, rfl, rfl⟩,
    fun hrole hst hup hdom ht => ⟨_, execRebuildWindow_advances hrole hst hup hdom, ?_⟩,
    fun hup hrole => execLeaseTick_ticks hup hrole,
    fun hup hrole => ⟨_, execLeaseCheck_standby hup hrole claimed, leaseCheck_standby hrole claimed _ rfl⟩,
    fun hup hrole hclaim => ?_, fun hready hadmin => ⟨fun h1 h2 => ⟨_, execPoolKeepCfg_sets hready hadmin h1 h2, respond_pool ..⟩,
      fun h => ⟨_, execPoolKeepCfg_refused hready hadmin h, refuse_pool .., refuse_code ..⟩, fun hreset _ => ⟨_, execAddSpare_refused hready hadmin hreset v, refuse_pool .., refuse_code ..⟩,
      fun hup hrole hbit hspare => ⟨_, execAddSpare_adds hready hadmin hup hrole hbit hspare, ?_⟩,
      fun hup hrole hbit hst => ⟨_, execReinit_restarts hready hadmin hup hrole hbit hst, ?_⟩⟩,
    fun hready huse hbit => ⟨fun hadmin hdir hin ht hs hst hh => ⟨_, execPoolFlush_flushes hready huse hbit hadmin, ?_⟩,
      fun hno => ⟨_, execPoolFlush_refused hready huse hbit hno, refuse_pool .., refuse_code ..⟩⟩⟩
  · unfold State.stripeMoved
    dsimp only
    rw [memberFails_new hfailed hmore]
    refine ⟨fun hst hspare => ?_, fun hst hspare => ?_, fun hst => ?_⟩
    · rw [if_pos hst, if_pos (by rw [hspare]; rfl)]
      exact ⟨rfl, rfl, rfl, hspare⟩
    · rw [if_pos hst, if_neg (by rw [hspare]; exact Bool.false_ne_true)]
      exact ⟨rfl, rfl⟩
    · rw [if_neg (by omega)]
      exact ⟨rfl, rfl, rfl⟩
  · subst ht
    refine ⟨fun hmore => if_neg (Nat.not_le.mpr hmore), fun hall => ?_⟩
    dsimp only
    rw [if_pos (by exact hall)]
    refine ⟨rfl, rfl, rfl, fun hfailed hspare => ?_⟩
    unfold Pool.healed Pool.advance
    dsimp only
    rw [hfailed, hspare]
  · subst hclaim
    exact ⟨_, execLeaseCheck_steps_down hup hrole, rfl⟩
  · rw [respond_pool]
    exact spareAdded_pool s _
  · rw [respond_pool]
    exact ⟨rfl, rfl, rfl, rfl⟩
  · obtain ⟨htold, hawait⟩ := flushWin_recalls hdir hin ht hs hst hh
    exact ⟨by rw [respond_pool]; exact htold, (entry_of_dir (by rw [respond_pool]) _).trans hawait⟩

end Sys2Proof.Machine
end

section
/-! PROOF. O54: the boot from the release of power-on reset to READY (R243 to R264, R335). -/

namespace Sys2Proof.Machine

open Sys2Proof

/-! ### What the boot's steps keep -/

/-- The boot engine runs on with what it meets. -/
def SameRun (s u : State) : Prop := u.aon.phase = s.aon.phase ∧ u.boot.started = s.boot.started ∧ u.boot.env = s.boot.env

theorem SameRun.refl (s : State) : SameRun s s := ⟨rfl, rfl, rfl⟩

theorem SameRun.trans {s t u : State} (a : SameRun s t) (b : SameRun t u) : SameRun s u :=
  ⟨b.1.trans a.1, b.2.1.trans a.2.1, b.2.2.trans a.2.2⟩

theorem sameRun_foldl {α : Type} {f : State → α → State} (hf : ∀ s a, SameRun s (f s a)) (l : List α) (s : State) :
    SameRun s (l.foldl f s) := by
  induction l generalizing s with
  | nil => exact SameRun.refl s
  | cons a l ih => exact (hf s a).trans (ih (f s a))

theorem readCharters_run (s : State) : SameRun s s.readCharters := by
  unfold State.readCharters
  dsimp only
  split
  · exact ⟨rfl, rfl, rfl⟩
  · split
    · refine SameRun.trans (t := { s with boot.chartersRead := (s.boot.env.nvm.charters.take 16).length, boot.phase := 4 })
        ⟨rfl, rfl, rfl⟩ (sameRun_foldl (fun s c => ?_) _ _)
      split
      · exact ⟨rfl, rfl, rfl⟩
      · exact ⟨rfl, rfl, rfl⟩
    · exact ⟨rfl, rfl, rfl⟩

/-- What steps 1 to 3 leave: the image's identity and the overlay's limits. -/
def State.identified (s : State) (im : Image) : State :=
  let s1 : State := { s with hub.p := im.p, boot.image := some im, boot.imageId := im.imageId, boot.secVersion := im.secVersion }
  match s.boot.env.nvm.overlay with
  | some o => { s1 with boot.spanDisable := o.spanMask, boot.portDisable := o.portMask, boot.maxWidth := o.maxWidth, pwr.fuseCap := o.capW }
  | none => s1

theorem earlyDone_identified (s : State) (im : Image) : s.earlyDone im =
    { (if (s.identified im).boot.warmPath
        then { s.identified im with boot.chartersValid := (s.identified im).aon.warm.charters, boot.phase := 4 }
        else (s.identified im).readCharters) with boot.phase := 5 } := rfl

theorem identified_run (s : State) (im : Image) : SameRun s (s.identified im) := by
  unfold State.identified
  dsimp only
  split
  · exact ⟨rfl, rfl, rfl⟩
  · exact ⟨rfl, rfl, rfl⟩

theorem earlyDone_run (s : State) (im : Image) : SameRun s (s.earlyDone im) := by
  rw [earlyDone_identified]
  refine (identified_run s im).trans ?_
  generalize s.identified im = t
  split
  · exact ⟨rfl, rfl, rfl⟩
  · exact readCharters_run t

theorem early_run (s : State) : SameRun s s.early := by
  unfold State.early
  split
  · exact earlyDone_run s _
  · exact ⟨rfl, rfl, rfl⟩
  · exact SameRun.refl s

theorem bootFails_run (s : State) (phase code : Nat) (detail : Option Nat) : SameRun s (s.bootFails phase code detail) := by
  unfold State.bootFails
  dsimp only
  split
  · exact SameRun.trans ⟨rfl, rfl, rfl⟩ (early_run _)
  · exact ⟨rfl, rfl, rfl⟩

theorem bootStart_run (s : State) : SameRun s s.bootStart := by
  unfold State.bootStart
  split
  · exact earlyDone_run s _
  · exact bootFails_run s _ _ _
  · exact SameRun.refl s

/-! ### Failures -/

/-- A failure without a fallback stops the boot with its code. -/
theorem bootFails_stops {s : State} {code : Nat} (h : fallsBack code = false ∨ s.boot.slot ≠ 0 ∨ s.boot.env.nvm.slotB = none)
    (phase : Nat) (detail : Option Nat) :
    s.bootFails phase code detail = (State.bootLog { s with boot.phase := phase } code detail).bootStops code := by
  unfold State.bootFails
  refine if_neg ?_
  change ¬((fallsBack code && decide (s.boot.slot = 0) && s.boot.env.nvm.slotB.isSome) = true)
  rcases h with h | h | h
  · simp [h]
  · simp [h]
  · simp [h]

theorem bootFails_failed {s : State} {code : Nat} (h : fallsBack code = false ∨ s.boot.slot ≠ 0 ∨ s.boot.env.nvm.slotB = none)
    (phase : Nat) (detail : Option Nat) :
    (s.bootFails phase code detail).boot.st = 2 ∧ (s.bootFails phase code detail).boot.fail = code := by
  rw [bootFails_stops h]
  exact ⟨rfl, rfl⟩

/-- Every port pin of a package that has stopped is high-impedance. -/
theorem bootStops_pins (s : State) (code : Nat) : ∀ e ∈ (s.bootStops code).ports, ∀ o ∈ e.2.outs, o.2.pin = 2 := by
  intro e he o ho
  obtain ⟨e', -, rfl⟩ := List.mem_map.mp (show e ∈ s.ports.map _ from he)
  obtain ⟨o', -, rfl⟩ := List.mem_map.mp ho
  rfl

/-! ### Steps 1 to 3 -/

section Early
variable {z : State} {im : Image}

/-- The directory holds, without overlay or charters. -/
def PlainNvm (n : Nvm) : Prop :=
  n.magic = 0x5244424C ∧ n.version = 1 ∧ n.crc = Config.directoryCrc n ∧ n.overlay = none ∧ n.charters = []

/-- The image's header is one of this package. -/
def Headed (z : State) (im : Image) : Prop :=
  im.magic = 0x3149424C ∧ im.version = 1 ∧ im.headerSize = 512 ∧ im.packageMask.getLsbD (Package.code z.pkg - 1) = true

/-- The image's key is that of its slot, which is not revoked. -/
def Keyed (f : Fuses) (im : Image) : Prop :=
  im.keySlot ≤ 1 ∧ Config.keyHash im.key = Fuses.hash f im.keySlot ∧ f.revoke.getLsbD im.keySlot = false

theorem headerCode_passes (h : Headed z im) : headerCode z im 0x3149424C = 0 := by
  obtain ⟨hmagic, hversion, hsize, hmask⟩ := h
  exact if_neg (by simp [hmagic, hversion, hsize, hmask])

theorem keyGood_of_keyed (h : Keyed z.fuses im) : (decide (1 < im.keySlot) || !keyGood z.fuses im.keySlot im.key) = false := by
  obtain ⟨hslot, hhash, hrevoke⟩ := h
  simp [keyGood, hhash, hrevoke, hslot]

theorem keyCode_passes (h : Keyed z.fuses im) (hv : Config.imageVerifies im = true) : keyCode z im = 0 := by
  unfold keyCode
  rw [keyGood_of_keyed h, hv]
  rfl

theorem keyCode_unverified (h : Keyed z.fuses im) (hv : Config.imageVerifies im = false) : keyCode z im = 4 := by
  unfold keyCode
  rw [keyGood_of_keyed h, hv]
  rfl

theorem keyCode_wrongKey (h : Config.keyHash im.key ≠ Fuses.hash z.fuses im.keySlot) : keyCode z im = 3 :=
  if_pos (by simp [keyGood, h])

theorem earlyCode_noDirectory (h : z.boot.env.nvm.magic ≠ 0x5244424C) : z.earlyCode = some (1, 1) := by
  refine if_pos ?_
  simp only [Bool.or_eq_true, decide_eq_true_eq]
  exact Or.inl (Or.inl h)

theorem plainNvm_directory (h : PlainNvm z.boot.env.nvm) :
    ¬((decide (z.boot.env.nvm.magic ≠ 0x5244424C) || decide (z.boot.env.nvm.version ≠ 1)
      || decide (z.boot.env.nvm.crc ≠ Config.directoryCrc z.boot.env.nvm)) = true) := by
  obtain ⟨hmagic, hversion, hcrc, -, -⟩ := h
  simp [hmagic, hversion, ← hcrc]

theorem earlyCode_noImage (h : PlainNvm z.boot.env.nvm) (him : slotImage z.boot.env.nvm z.boot.slot = none) :
    z.earlyCode = some (1, 2) := by
  unfold State.earlyCode
  dsimp only
  rw [if_neg (plainNvm_directory h), him]

/-- The rules of steps 1 to 3 on an image with a good header, on the cold path. -/
theorem earlyCode_image (h : PlainNvm z.boot.env.nvm) (him : slotImage z.boot.env.nvm z.boot.slot = some im) (hhead : Headed z im)
    (hcold : z.boot.warmPath = false) : z.earlyCode =
      if keyCode z im ≠ 0 then some (2, keyCode z im) else if im.secVersion < z.fuses.floor then some (2, 5) else none := by
  obtain ⟨-, -, -, hoverlay, -⟩ := id h
  unfold State.earlyCode
  dsimp only
  rw [if_neg (plainNvm_directory h), him]
  dsimp only
  rw [headerCode_passes hhead, hcold, hoverlay]
  simp

theorem earlyCode_passes (h : PlainNvm z.boot.env.nvm) (him : slotImage z.boot.env.nvm z.boot.slot = some im) (hhead : Headed z im)
    (hcold : z.boot.warmPath = false) (hkey : Keyed z.fuses im) (hv : Config.imageVerifies im = true) (hfloor : z.fuses.floor ≤ im.secVersion) :
    z.earlyCode = none := by
  rw [earlyCode_image h him hhead hcold, keyCode_passes hkey hv, if_neg (fun h => h rfl), if_neg (Nat.not_lt.mpr hfloor)]

/-- The image has passed steps 1 to 4: step 5 has begun. -/
def Passed (z u : State) (im : Image) : Prop :=
  u.boot.st = z.boot.st ∧ u.boot.phase = 5 ∧ u.boot.slot = z.boot.slot ∧ u.boot.imageId = im.imageId ∧ u.boot.secVersion = im.secVersion
    ∧ u.boot.image = some im ∧ u.hub.p = im.p

theorem earlyDone_passed (h : PlainNvm z.boot.env.nvm) (hcold : z.boot.warmPath = false) (im : Image) : Passed z (z.earlyDone im) im := by
  obtain ⟨-, -, -, hoverlay, hcharters⟩ := h
  have hid : z.identified im =
      { z with hub.p := im.p, boot.image := some im, boot.imageId := im.imageId, boot.secVersion := im.secVersion } := by
    unfold State.identified
    rw [hoverlay]
  rw [earlyDone_identified, hid, if_neg (by rw [hcold]; exact Bool.false_ne_true)]
  unfold State.readCharters
  rw [if_pos (by simp [hcharters])]
  exact ⟨rfl, rfl, rfl, rfl, rfl, rfl, rfl⟩

theorem bootStart_done (hcode : z.earlyCode = none) (him : slotImage z.boot.env.nvm z.boot.slot = some im) :
    z.bootStart = z.earlyDone im := by
  unfold State.bootStart
  rw [hcode, him]

theorem early_done (hcode : z.earlyCode = none) (him : slotImage z.boot.env.nvm z.boot.slot = some im) : z.early = z.earlyDone im := by
  unfold State.early
  rw [hcode, him]

theorem bootStart_fails {ph c : Nat} (hcode : z.earlyCode = some (ph, c)) : z.bootStart = z.bootFails ph c none := by
  unfold State.bootStart
  rw [hcode]

end Early

/-! ### A boot from step 1 -/

/-- `z` stands before a cold boot of the package `s` that meets `env`. -/
structure BootBegins (s z : State) (env : BootEnv) : Prop where
  running : z.aon.phase = .running
  started : z.boot.started = true
  env_eq : z.boot.env = env
  fresh : z.boot.st = 0
  pkg_eq : z.pkg = s.pkg
  fuses_eq : z.fuses = s.fuses
  cold : z.aon.fromDoldrums = false

/-- Slot A is to be tried, on the cold path. -/
def State.slotA (z : State) : State :=
  { z with boot.warmPath := false, boot.slot := 0, boot.absentStacks := [], aon.fromDoldrums := false }

theorem bootFresh_cold {z : State} (h : z.aon.fromDoldrums = false) : z.bootFresh = z.slotA.bootStart := by
  unfold State.bootFresh
  rw [h]
  rfl

section Fresh
variable {s z : State} {env : BootEnv} {im : Image} (hb : BootBegins s z env)
include hb

theorem bootFresh_run : z.bootFresh.aon.phase = .running ∧ z.bootFresh.boot.started = true ∧ z.bootFresh.boot.env = env := by
  obtain ⟨hphase, hstarted, henv⟩ := bootStart_run z.slotA
  rw [bootFresh_cold hb.cold]
  exact ⟨hphase.trans hb.running, hstarted.trans hb.started, henv.trans hb.env_eq⟩

theorem slotA_headed (h : Headed s im) : Headed z.slotA im := by
  unfold Headed at h ⊢
  rw [show z.slotA.pkg = s.pkg from hb.pkg_eq]
  exact h

theorem slotA_plain (h : PlainNvm env.nvm) : PlainNvm z.slotA.boot.env.nvm := by
  rw [show z.slotA.boot.env = env from hb.env_eq]
  exact h

theorem slotA_image : slotImage z.slotA.boot.env.nvm z.slotA.boot.slot = env.nvm.slotA := by
  rw [show z.slotA.boot.env = env from hb.env_eq]
  rfl

theorem slotA_keyed (h : Keyed s.fuses im) : Keyed z.slotA.fuses im := by
  rw [show z.slotA.fuses = s.fuses from hb.fuses_eq]
  exact h

theorem slotA_floor : z.slotA.fuses.floor = s.fuses.floor := congrArg Fuses.floor hb.fuses_eq

/-- A good image in slot A is booted. -/
theorem bootFresh_passes (hn : PlainNvm env.nvm) (ha : env.nvm.slotA = some im) (hhead : Headed s im) (hkey : Keyed s.fuses im)
    (hv : Config.imageVerifies im = true) (hfloor : s.fuses.floor ≤ im.secVersion) : Passed z.slotA z.bootFresh im := by
  have him := (slotA_image hb).trans ha
  rw [bootFresh_cold hb.cold, bootStart_done (earlyCode_passes (slotA_plain hb hn) him (slotA_headed hb hhead) rfl (slotA_keyed hb hkey) hv
    (by rw [slotA_floor hb]; exact hfloor)) him]
  exact earlyDone_passed (slotA_plain hb hn) rfl im

theorem bootFresh_noDirectory (h : env.nvm.magic ≠ 0x5244424C) :
    z.bootFresh.boot.st = 2 ∧ z.bootFresh.boot.fail = 1 ∧ ∀ e ∈ z.bootFresh.ports, ∀ o ∈ e.2.outs, o.2.pin = 2 := by
  have hmagic : z.slotA.boot.env.nvm.magic ≠ 0x5244424C := by
    rw [show z.slotA.boot.env = env from hb.env_eq]
    exact h
  rw [bootFresh_cold hb.cold, bootStart_fails (earlyCode_noDirectory hmagic), bootFails_stops (Or.inl rfl)]
  exact ⟨rfl, rfl, bootStops_pins _ _⟩

/-- A code of slot A's image stops the boot where slot B holds none. -/
theorem bootFresh_fails (hnoB : env.nvm.slotB = none) {c : Nat} (hcode : z.slotA.earlyCode = some (2, c)) :
    z.bootFresh.boot.st = 2 ∧ z.bootFresh.boot.fail = c := by
  have hno : z.slotA.boot.env.nvm.slotB = none := by
    rw [show z.slotA.boot.env = env from hb.env_eq]
    exact hnoB
  rw [bootFresh_cold hb.cold, bootStart_fails hcode]
  exact bootFails_failed (Or.inr (Or.inr hno)) 2 none

theorem slotA_code (hn : PlainNvm env.nvm) (ha : env.nvm.slotA = some im) (hhead : Headed s im) : z.slotA.earlyCode =
    if keyCode z.slotA im ≠ 0 then some (2, keyCode z.slotA im) else if im.secVersion < s.fuses.floor then some (2, 5) else none := by
  rw [earlyCode_image (slotA_plain hb hn) ((slotA_image hb).trans ha) (slotA_headed hb hhead) rfl, slotA_floor hb]

/-- The image is refused with the code of its key, of its signature or of its version. -/
theorem bootFresh_refused (hn : PlainNvm env.nvm) (ha : env.nvm.slotA = some im) (hnoB : env.nvm.slotB = none) (hhead : Headed s im) :
    (Config.keyHash im.key ≠ Fuses.hash s.fuses im.keySlot → z.bootFresh.boot.st = 2 ∧ z.bootFresh.boot.fail = 3)
    ∧ (Keyed s.fuses im → Config.imageVerifies im = false → z.bootFresh.boot.st = 2 ∧ z.bootFresh.boot.fail = 4)
    ∧ (Keyed s.fuses im → Config.imageVerifies im = true → im.secVersion < s.fuses.floor →
      z.bootFresh.boot.st = 2 ∧ z.bootFresh.boot.fail = 5) := by
  have hcode := slotA_code hb hn ha hhead
  refine ⟨fun hhash => bootFresh_fails hb hnoB (hcode.trans ?_), fun hkey hv => bootFresh_fails hb hnoB (hcode.trans ?_),
    fun hkey hv hfloor => bootFresh_fails hb hnoB (hcode.trans ?_)⟩
  · have hwrong : Config.keyHash im.key ≠ Fuses.hash z.slotA.fuses im.keySlot := by
      rw [show z.slotA.fuses = s.fuses from hb.fuses_eq]
      exact hhash
    rw [keyCode_wrongKey hwrong]
    rfl
  · rw [keyCode_unverified (slotA_keyed hb hkey) hv]
    rfl
  · rw [keyCode_passes (slotA_keyed hb hkey) hv, if_neg (fun h => h rfl), if_pos hfloor]

end Fresh

/-- Slot B is to be tried after a failure of slot A. -/
def State.slotB (s : State) : State :=
  { (s.bootLog 0x41 none).clearLoaded.pinsOff with boot.slot := 1, boot.phase := 1 }

/-- A boot whose slot A holds no image boots that of slot B. -/
theorem bootFresh_slotB {s z : State} {env : BootEnv} {im : Image} (hb : BootBegins s z env) (hn : PlainNvm env.nvm)
    (ha : env.nvm.slotA = none) (hB : env.nvm.slotB = some im) (hhead : Headed s im) (hkey : Keyed s.fuses im)
    (hv : Config.imageVerifies im = true) (hfloor : s.fuses.floor ≤ im.secVersion) :
    z.bootFresh.boot.st = 0 ∧ z.bootFresh.boot.phase = 5 ∧ z.bootFresh.boot.slot = 1 ∧ z.bootFresh.boot.imageId = im.imageId := by
  have hcode : z.slotA.earlyCode = some (1, 2) := earlyCode_noImage (slotA_plain hb hn) ((slotA_image hb).trans ha)
  have henv : z.slotA.boot.env = env := hb.env_eq
  have hfall : z.slotA.bootFails 1 2 none = (State.bootLog { z.slotA with boot.phase := 1 } 2 none).slotB.early := by
    refine if_pos ?_
    change (true && true && z.slotA.boot.env.nvm.slotB.isSome) = true
    rw [henv, hB]
    rfl
  rw [bootFresh_cold hb.cold, bootStart_fails hcode, hfall]
  have hB' : BootBegins s (State.bootLog { z.slotA with boot.phase := 1 } 2 none).slotB env :=
    ⟨hb.running, hb.started, hb.env_eq, rfl, hb.pkg_eq, hb.fuses_eq, rfl⟩
  have hslot : (State.bootLog { z.slotA with boot.phase := 1 } 2 none).slotB.boot.slot = 1 := rfl
  have hcold : (State.bootLog { z.slotA with boot.phase := 1 } 2 none).slotB.boot.warmPath = false := rfl
  generalize (State.bootLog { z.slotA with boot.phase := 1 } 2 none).slotB = t at hB' hslot hcold ⊢
  have hplain : PlainNvm t.boot.env.nvm := by
    rw [hB'.env_eq]
    exact hn
  have him : slotImage t.boot.env.nvm t.boot.slot = some im := by
    rw [hB'.env_eq, hslot]
    exact hB
  have hpass : t.earlyCode = none := by
    refine earlyCode_passes hplain him ?_ hcold ?_ hv ?_
    · unfold Headed at hhead ⊢
      rw [hB'.pkg_eq]
      exact hhead
    · rw [hB'.fuses_eq]
      exact hkey
    · rw [hB'.fuses_eq]
      exact hfloor
  obtain ⟨hst, hphase, hslot', hid, -⟩ := earlyDone_passed hplain hcold im
  rw [early_done hpass him]
  exact ⟨hst.trans hB'.fresh, hphase, hslot'.trans hslot, hid⟩

end Sys2Proof.Machine
end

section
/-! PROOF. O54: the commands of the boot (R254, R259, R261, R262, R264). -/

namespace Sys2Proof.Machine

open Sys2Proof

/-! ### POR_RELEASE and RESTART -/

/-- Power-on reset is released. -/
def State.porReleased (s : State) (env : BootEnv) : State :=
  { s.powerLoss with
    aon.phase := .running
    aon.pwrGood := true
    aon.pgTime := satv 16 env.pgTime
    boot.started := true
    boot.releaseWall := s.aon.wall
    boot.env := env
    pwr.level := if s.aon.therm then 7 else 0 }

/-- Everything switched is as it was before step 1. -/
def State.restarting (s : State) : State :=
  let s1 := (s.eachOut (fun _ => true) Port.stepSafe).clearLoaded
  { s1 with aon.warm := { s1.aon.warm with valid := false, cause := 2 }, aon.fromDoldrums := false }

section Release
variable {s : State} {env : BootEnv} {m : Nat} {v : Word}

theorem execPorRelease_starts (hphase : s.aon.phase = .porAsserted) (hrail : s.aon.railEn = true) (hreset : s.aon.resetLow = false) :
    execPorRelease env s = .next (s.porReleased env).bootFresh := by
  refine if_pos ?_
  rw [hphase, hrail, hreset]
  rfl

theorem porReleased_begins (hcold : s.aon.fromDoldrums = false) : BootBegins s (s.porReleased env) env :=
  ⟨rfl, rfl, rfl, rfl, rfl, rfl, hcold⟩

theorem execRestart_early (hrun : s.aon.phase = .running) (hready : s.isReady = false) : execRestart m v s =
    if isHost m then .next (if v.getLsbD 0 then (s.respond m []).restart else s.respond m []) else .next (s.refuse m false bootCtl .notReady false) := by
  unfold execRestart
  rw [if_neg (fun h => h hrun), if_neg (by rw [hready]; exact Bool.false_ne_true)]

theorem execRestart_restarts (hrun : s.aon.phase = .running) (hready : s.isReady = false) (hhost : isHost m = true)
    (hbit : v.getLsbD 0 = true) : execRestart m v s = .next (s.respond m []).restarting.bootFresh := by
  rw [execRestart_early hrun hready, if_pos hhost, if_pos hbit]
  rfl

theorem restarting_begins (hrun : s.aon.phase = .running) (hstarted : s.boot.started = true) : BootBegins s s.restarting s.boot.env :=
  ⟨hrun, hstarted, rfl, rfl, rfl, rfl, rfl⟩

theorem respond_restarting_begins (hrun : s.aon.phase = .running) (hstarted : s.boot.started = true) :
    BootBegins s (s.respond m []).restarting s.boot.env := by
  have hr : OnlyM _ s (s.respond m []) := respond_ok
  have hboot := hr.boot_eq (by decide)
  have hphase := hr.phase_eq (by decide)
  have hpkg := hr.pkg_eq (by decide)
  have hfuses := hr.fuses_eq (by decide)
  generalize s.respond m [] = t at hboot hphase hpkg hfuses ⊢
  obtain ⟨running, started, env_eq, fresh, pkg_eq, fuses_eq, cold⟩ :=
    restarting_begins (hphase.trans hrun) ((congrArg Boot.started hboot).trans hstarted)
  exact ⟨running, started, env_eq.trans (congrArg Boot.env hboot), fresh, pkg_eq.trans hpkg, fuses_eq.trans hfuses, cold⟩

theorem execRestart_noBit (hrun : s.aon.phase = .running) (hready : s.isReady = false) (hhost : isHost m = true)
    (hbit : v.getLsbD 0 = false) : execRestart m v s = .next (s.respond m []) := by
  rw [execRestart_early hrun hready, if_pos hhost, if_neg (by rw [hbit]; exact Bool.false_ne_true)]

theorem execRestart_notHost (hrun : s.aon.phase = .running) (hready : s.isReady = false) (hhost : isHost m = false) :
    execRestart m v s = .next (s.refuse m false bootCtl .notReady false) := by
  rw [execRestart_early hrun hready, if_neg (by rw [hhost]; exact Bool.false_ne_true)]

theorem execRestart_refused (hrun : s.aon.phase = .running) (hready : s.isReady = true) (hno : s.has m .bootBlock .admin = false) :
    execRestart m v s = .next (s.refuse m false bootCtl .failedAccess false) := by
  have hcheck : s.barCheck m bootCtl 4 false .admin = some .failedAccess :=
    if_pos (by rw [show s.barRight m bootCtl .admin = false from hno, Bool.not_false, Bool.or_true, Bool.true_or])
  unfold execRestart
  rw [if_neg (fun h => h hrun), if_pos hready]
  unfold ownReg
  rw [if_pos hready, hcheck]

theorem refuse_boot (s : State) (m off : Nat) (c : Code) : (s.refuse m false off c false).boot = s.boot := refuse_ok.boot_eq (by decide)

end Release

/-! ### Steps 5 to 10 -/

section Steps
variable {s : State} {st n : Nat} {im : Image} {d : Directive} {b : Option (List Byte)}

/-- The boot engine runs and stands in phase `n`. -/
def BootStands (s : State) (n : Nat) : Prop := s.aon.phase = .running ∧ s.boot.started = true ∧ s.boot.st = 0 ∧ s.boot.phase = n

theorem bootAt_of_stands (h : BootStands s n) : s.bootAt n = true := by
  obtain ⟨hrun, hstarted, hst, hphase⟩ := h
  unfold State.bootAt
  rw [hrun, hstarted, hst, hphase]
  simp

theorem bootAt_other {k : Nat} (h : BootStands s n) (hk : n ≠ k) : s.bootAt k = false := by
  obtain ⟨-, -, -, hphase⟩ := h
  unfold State.bootAt
  rw [hphase, decide_eq_false hk, Bool.and_false]

theorem execStackLinkTimeout_trains (hat : BootStands s 5) (hlost : s.stackIsLost st = false) (hpresent : s.stackPresent st = true)
    (hnew : st ∉ s.boot.absentStacks) : execStackLinkTimeout st s =
      if st = 0 then .next (s.bootFails 5 9 none) else .next { s with boot.absentStacks := s.boot.absentStacks ++ [st] } := by
  unfold execStackLinkTimeout
  rw [if_neg (by rw [hlost]; exact Bool.false_ne_true), if_neg (by simp [bootAt_of_stands hat, hpresent, hnew])]

theorem execReady_on (hat : BootStands s 5) (him : s.boot.image = some im) : execReady s = .next (s.bootOn im) := by
  unfold execReady
  rw [him]
  exact if_pos (bootAt_of_stands hat)

theorem execReady_finishes (hat : BootStands s 10) (him : s.boot.image = some im) : execReady s = .next (s.bootFinish im) := by
  unfold execReady
  rw [him]
  exact (if_neg (by rw [bootAt_other hat (by decide)]; exact Bool.false_ne_true)).trans (if_pos (bootAt_of_stands hat))

theorem execSourceWaitExpiry_fails (hat : BootStands s 10) (hdirs : s.boot.dirs = [(d, b)]) (hwait : s.sourceReady d = false) :
    execSourceWaitExpiry s = .next (s.bootFails 10 0x0C none) := by
  refine if_pos ?_
  rw [bootAt_of_stands hat, hdirs]
  simp [hwait]

/-- A directive that waits holds the boot in step 10. -/
theorem bootFinish_waits (hdirs : s.boot.dirs = [(d, b)]) (hwait : s.sourceReady d = false) :
    s.bootFinish im = { s with boot.dirs := [(d, b)] } := by
  have hrun : s.runDirectives s.boot.dirs = ({ s with boot.dirs := [(d, b)] }, 0) := by
    rw [hdirs]
    exact if_pos (by rw [hwait]; rfl)
  unfold State.bootFinish
  rw [hrun]
  exact (if_neg (fun h => h rfl)).trans (if_pos rfl)

theorem bootOn_dramFails (hfail : st ∈ s.boot.env.dramFail) (hpresent : s.stackPresent st = true) (hthere : st ∉ s.boot.absentStacks) :
    s.bootOn im = s.bootFails 6 0x0A none := by
  refine if_neg ?_
  rw [List.isEmpty_iff]
  refine List.ne_nil_of_mem (List.mem_filter.mpr ⟨hfail, ?_⟩)
  simp [hpresent, hthere]

theorem bootOn_loadFails {f : Option Nat} {k : Nat} (hdram : s.boot.env.dramFail = []) (hcap : s.rollAndMap.capacityOk im = true)
    (hload : s.rollAndMap.load im = .inr (f, k)) : s.bootOn im = s.rollAndMap.bootFails 9 k f := by
  unfold State.bootOn
  rw [hdram]
  refine (if_pos rfl).trans ?_
  dsimp only
  rw [if_neg (by rw [hcap]; exact Bool.false_ne_true), hload]

end Steps

/-! ### READY -/

section Finish
variable {s : State} {im : Image}

/-- What READY declares, before anything starts. -/
def State.declared (s : State) (im : Image) : State :=
  { s with
    fuses.floor := if im.commitFloor then max s.fuses.floor (min im.secVersion 64) else s.fuses.floor
    boot.phase := 11
    boot.st := 1
    boot.degraded := !s.boot.absent.isEmpty
    boot.timeMs := s.bootMs
    flt.stwReset := false
    aon.warm := if s.pwr.cfg.warmEnable then s.aon.warm else { s.aon.warm with valid := false, cause := 4 } }

theorem declareReady_declared (s : State) (im : Image) : s.declareReady im =
    if imageStartsTrace im then
      { ((s.declared im).autostart.portsReady.bootReport im) with
        trc := ((s.declared im).autostart.portsReady.bootReport im).trc.start 1 ((s.declared im).autostart.portsReady.bootReport im).aon.wall }
    else (s.declared im).autostart.portsReady.bootReport im := rfl

theorem bootFinish_declares (hdirs : s.boot.dirs = []) (hcols : ∀ e ∈ s.tiles, s.tilePresent e.1 = true → s.columnOk e.1 = true) :
    s.bootFinish im = s.declareReady im := by
  have hrun : s.runDirectives s.boot.dirs = (s, 0) := by
    rw [hdirs]
    change ({ s with boot.dirs := [] }, 0) = (s, 0)
    rw [← hdirs]
  have hbad : s.badColumn im = none := by
    have hfind : s.tiles.find? (fun e => s.tilePresent e.1 && !s.columnOk e.1) = none := by
      refine List.find?_eq_none.mpr (fun e he => ?_)
      cases hp : s.tilePresent e.1 with
      | false => simp
      | true => simp [hcols e he hp]
    unfold State.badColumn
    rw [hfind]
  unfold State.bootFinish
  rw [hrun]
  refine (if_neg (fun h => h rfl)).trans ((if_neg ?_).trans ?_)
  · rw [hdirs]
    exact Bool.false_ne_true
  · dsimp only
    rw [hbad]

/-- What starts at READY changes neither the boot block, the fuses nor the steward. -/
theorem declareReady_kept (s : State) (im : Image) : (s.declareReady im).boot = (s.declared im).boot
    ∧ (s.declareReady im).fuses = (s.declared im).fuses ∧ (s.declareReady im).flt.stwReset = false := by
  have hauto : OnlyM _ (s.declared im) _ := autostart_ok
  have hports : OnlyM _ (s.declared im).autostart _ := portsReady_ok
  have hreport : OnlyM _ (s.declared im).autostart.portsReady _ := bootReport_ok (im := im)
  have hboot := ((hreport.boot_eq (by decide)).trans (hports.boot_eq (by decide))).trans (hauto.boot_eq (by decide))
  have hfuses := ((hreport.fuses_eq (by decide)).trans (hports.fuses_eq (by decide))).trans (hauto.fuses_eq (by decide))
  have hstw := ((hreport.stwReset_eq (by decide)).trans (hports.stwReset_eq (by decide))).trans (hauto.stwReset_eq (by decide))
  rw [declareReady_declared]
  split
  · exact ⟨hboot, hfuses, hstw⟩
  · exact ⟨hboot, hfuses, hstw⟩

theorem imageStartsTrace_none (h : ∀ x ∈ im.sections, ∀ y, x.data ≠ .trace y) : imageStartsTrace im = false := by
  refine List.any_eq_false.mpr (fun x hx => ?_)
  split
  · next c hc => exact absurd hc (h x hx c)
  · exact Bool.false_ne_true

theorem autostart_none (h : ∀ e ∈ s.tmp.worlds, e.2.autostart = false) : s.autostart = s := by
  have hnone : s.tmp.worlds.filter (fun e => e.2.autostart && e.2.st = .standby) = [] := by
    refine List.filter_eq_nil_iff.mpr (fun e he => ?_)
    rw [h e he, Bool.false_and]
    exact Bool.false_ne_true
  unfold State.autostart
  rw [hnone]
  rfl

theorem portsReady_none (h : s.ports = []) : s.portsReady = s := by
  unfold State.portsReady
  rw [h]
  rfl

/-- The two words of BOOT_REPORT. -/
def bootBody (w1 w2 : DWord) : List DWord := [w1, w2]

theorem recHeader_boot (w1 w2 : DWord) : recHeader 0x88 .done (bootBody w1 w2) = recHeader 0x88 .done [0, 0] := by
  simp only [recHeader, bootBody, List.length_cons, List.length_nil]

/-- The kind of a record with the package's stamp. -/
theorem stampHeader_kind (r n : Nat) : fb (stampHeader (recHeader 0x88 .done [0, 0]) 1 r n).toNat 15 8 = 0x88 := by
  have hbody : fb (recHeader 0x88 .done [0, 0]).toNat 1 0 = 2 ∧ fb (recHeader 0x88 .done [0, 0]).toNat 23 8 = 0x88 := by decide
  unfold stampHeader
  rw [hbody.1, hbody.2]
  simp only [fb, BitVec.toNat_ofNat]
  omega

theorem bootReport_posts (h : 0 < (s.rack im.bootRack).free) : ∃ x, ((s.bootReport im).rack im.bootRack).msgs =
    (s.rack im.bootRack).msgs ++ [[x, BitVec.ofNat 64 (s.boot.slot + b2n s.boot.degraded * 2 + s.boot.shifted % 2 ^ 16 * 2 ^ 16
      + s.boot.timeMs % 2 ^ 32 * 2 ^ 32), im.imageId]] ∧ fb x.toNat 15 8 = 0x88 := by
  generalize hw : BitVec.ofNat 64 (s.boot.slot + b2n s.boot.degraded * 2 + s.boot.shifted % 2 ^ 16 * 2 ^ 16
      + s.boot.timeMs % 2 ^ 32 * 2 ^ 32) = w
  have hpost : s.bootReport im = s.postRecord im.bootRack 1 0x88 .done none (bootBody w im.imageId) := by
    rw [← hw]
    rfl
  refine ⟨stampHeader (recHeader 0x88 .done (bootBody w im.imageId)) 1 im.bootRack (s.rack im.bootRack).next.toNat, ?_, ?_⟩
  · rw [hpost]
    unfold State.postRecord
    dsimp only
    rw [if_pos h, rackPut_rack, if_pos rfl]
    dsimp only
    rw [traceRack_ok.rack_eq (by decide)]
    rfl
  · rw [recHeader_boot]
    exact stampHeader_kind _ _

/-- A package without ports, autostart worlds or a trace to start reports its boot. -/
theorem declareReady_reports (hports : s.ports = []) (hworlds : ∀ e ∈ s.tmp.worlds, e.2.autostart = false)
    (htrace : ∀ x ∈ im.sections, ∀ y, x.data ≠ .trace y) : s.declareReady im = (s.declared im).bootReport im := by
  rw [declareReady_declared, if_neg (by rw [imageStartsTrace_none htrace]; exact Bool.false_ne_true),
    autostart_none (s := s.declared im) hworlds, portsReady_none (s := s.declared im) hports]

end Finish

/-- Settles O54, from the boot's steps before their failures and READY. -/
theorem bootRunsFromReleaseToReady : Obligations.BootRunsFromReleaseToReady := by
  unfold Obligations.BootRunsFromReleaseToReady
  intro s env im m st v d b c f k
  refine ⟨fun hbegin => ?_, fun hrun hready hhost hbit => ?_, fun hrun hready hhost => ?_, fun hrun hready hno => ?_,
    fun hat hlost hpresent hnew => ?_, fun hat hdirs hwait => ?_, fun hat him hfail hpresent hthere => ?_,
    fun hat him hdram hcap hload _ hslot => ?_, fun hat him hdirs hcols => ?_⟩
  · have hboots : ∃ z, exec c s = .next z.bootFresh ∧ BootBegins s z env := by
      rcases hbegin with ⟨rfl, hphase, hrail, hreset, hcold⟩ | ⟨rfl, hrun, hstarted, hready, hhost, hbit, rfl⟩
      · exact ⟨_, execPorRelease_starts hphase hrail hreset, porReleased_begins hcold⟩
      · exact ⟨_, execRestart_restarts hrun hready hhost hbit, respond_restarting_begins hrun hstarted⟩
    obtain ⟨z, hexec, hb⟩ := hboots
    obtain ⟨hphase, hstarted, henv⟩ := bootFresh_run hb
    refine ⟨_, hexec, hphase, hstarted, henv, fun hn ha hhead hkey hv hfloor => ?_, bootFresh_noDirectory hb,
      fun hn ha hnoB hhead => bootFresh_refused hb hn ha hnoB hhead,
      fun hn ha hB hhead hkey hv hfloor => bootFresh_slotB hb hn ha hB hhead hkey hv hfloor⟩
    obtain ⟨hst, hpassed⟩ := bootFresh_passes hb hn ha hhead hkey hv hfloor
    exact ⟨hst.trans hb.fresh, hpassed⟩
  · refine ⟨_, execRestart_noBit hrun hready hhost hbit, respond_ok.boot_eq (by decide), ?_⟩
    rw [respond_master_self]
  · exact ⟨_, execRestart_notHost hrun hready hhost, refuse_boot .., refuse_code ..⟩
  · exact ⟨_, execRestart_refused hrun hready hno, refuse_boot .., refuse_code ..⟩
  · have hexec := execStackLinkTimeout_trains hat hlost hpresent hnew
    exact ⟨fun h0 => hexec.trans (if_neg h0), fun h0 => ⟨_, hexec.trans (if_pos h0), bootFails_failed (Or.inl rfl) 5 none⟩⟩
  · refine ⟨⟨_, execSourceWaitExpiry_fails hat hdirs hwait, bootFails_failed (Or.inl rfl) 10 none⟩, fun him => ?_⟩
    obtain ⟨-, -, hst, hphase⟩ := id hat
    exact ⟨_, (execReady_finishes hat him).trans (congrArg Host.Outcome.next (bootFinish_waits hdirs hwait)), hst, hphase, rfl⟩
  · exact ⟨_, (execReady_on hat him).trans (congrArg Host.Outcome.next (bootOn_dramFails hfail hpresent hthere)),
      bootFails_failed (Or.inl rfl) 6 none⟩
  · exact ⟨_, (execReady_on hat him).trans (congrArg Host.Outcome.next (bootOn_loadFails hdram hcap hload)),
      bootFails_failed (Or.inr (Or.inl (by rw [hslot]; decide))) 9 f⟩
  · obtain ⟨hboot, hfuses, hstw⟩ := declareReady_kept s im
    refine ⟨_, (execReady_finishes hat him).trans (congrArg Host.Outcome.next (bootFinish_declares hdirs hcols)),
      congrArg Boot.st hboot, congrArg Boot.phase hboot, congrArg Boot.degraded hboot, congrArg Boot.timeMs hboot, hfuses, hstw,
      fun hports hworlds htrace hfree => ?_⟩
    rw [declareReady_reports hports hworlds htrace]
    exact bootReport_posts (s := s.declared im) hfree

end Sys2Proof.Machine
end

section
/-! PROOF. O55 and O56: the step of the block and the reset state (R8; log 3, log 4, log 5, log 11). -/

namespace Sys2Proof.Machine

open Sys2Proof

/-! ### The step -/

theorem step_cons (c : Instr) (rest : List Instr) (s : State) : step { s with pending := c :: rest } = exec c { s with pending := rest } := rfl

theorem step_nil {s : State} (h : s.pending = []) : step s = .next (tickWall s) := by
  unfold step
  rw [h]

theorem tickWall_wall (s : State) : (tickWall s).aon.wall = (if s.aon.phase = .aonReset then s.aon.wall else (s.aon.wall + 1) % 2 ^ 64) := by
  unfold tickWall
  split
  · rfl
  · rfl

theorem tickWall_only (s : State) : Only [.wall] s (tickWall s) := OnlyM.only (l := [.wall]) tickWall_ok

/-- Settles O55: an empty queue lets the wall counter alone advance. -/
theorem stepRunsTheFrontCommand : Obligations.StepRunsTheFrontCommand := by
  unfold Obligations.StepRunsTheFrontCommand
  intro c rest s
  exact ⟨step_cons c rest s, fun h => ⟨_, step_nil h, tickWall_only s, tickWall_wall s⟩⟩

/-! ### Registers by their blocks -/

theorem barBlock_world {off : Nat} (hlo : 0x810000 ≤ off) (hhi : off < 0x890000) : barBlock off = .world ((off - 0x810000) / 0x40) := by
  unfold barBlock
  simp only [Bool.and_eq_true, decide_eq_true_eq]
  rw [if_neg (by omega), if_neg (by omega), if_neg (by omega), if_neg (by omega), if_neg (by omega), if_neg (by omega), if_neg (by omega),
    if_neg (by omega), if_neg (by omega), if_neg (by omega), if_neg (by omega), if_neg (by omega), if_pos ⟨hlo, hhi⟩]

theorem barBlock_port {off : Nat} (hlo : 0x400000 ≤ off) (hhi : off < 0x410000) : barBlock off = .port ((off - 0x400000) / 0x1000) := by
  unfold barBlock
  simp only [Bool.and_eq_true, decide_eq_true_eq]
  rw [if_neg (by omega), if_neg (by omega), if_neg (by omega), if_neg (by omega), if_neg (by omega), if_neg (by omega), if_pos ⟨hlo, hhi⟩]

section Words
variable (s : State) (m : Nat)

theorem regWord_world {w o : Nat} (hw : w < 8192) (ho : o < 0x40) : s.regWord m (0x810000 + 0x40 * w + o) = s.worldWord w o := by
  have hblock : barBlock (0x810000 + 0x40 * w + o) = .world w := by
    rw [barBlock_world (by omega) (by omega)]
    congr 1
    omega
  have hrel : barRel (0x810000 + 0x40 * w + o) = o := by
    unfold barRel
    rw [hblock]
    dsimp only
    omega
  unfold State.regWord
  rw [hblock, hrel]

theorem regWord_tile {t o : Nat} (ht : t < 2048) (ho : o < 0x4000) : s.regWord m (0x1000000 + 0x4000 * t + o) = s.tileWord t o := by
  change s.regWord m (tileOff t o) = _
  unfold State.regWord
  rw [barBlock_tileOff ht ho, barRel_tileOff ht ho]

theorem regWord_port {n o : Nat} (hn : n < 16) (ho : o < 0x1000) : s.regWord m (0x400000 + 0x1000 * n + o) = s.portWord n o := by
  have hblock : barBlock (0x400000 + 0x1000 * n + o) = .port n := by
    rw [barBlock_port (by omega) (by omega)]
    congr 1
    omega
  have hrel : barRel (0x400000 + 0x1000 * n + o) = o := by
    unfold barRel
    rw [hblock]
    dsimp only
    omega
  unfold State.regWord
  rw [hblock, hrel]

theorem regWord_tempo {o : Nat} (ho : o < 0x10000) : s.regWord m (0x800000 + o) = s.tempoWord o := by
  have hblock := barBlock_tempo (off := 0x800000 + o) (by omega) (by omega)
  have hrel : barRel (0x800000 + o) = o := by
    unfold barRel
    rw [hblock]
    dsimp only
    omega
  unfold State.regWord
  rw [hblock, hrel]

end Words

/-- TMP_PIN_CNT of every pin is 0 at reset. -/
theorem reset_pinCount {k : Nat} (hk : k < 4) : State.reset.tempoWord (0x24 + 4 * k) = 0 := by
  unfold State.tempoWord
  dsimp only
  rw [if_neg (by omega), if_neg (by simp; omega), if_neg (by omega), if_neg (by omega), if_neg (by omega), if_pos (by simp; omega)]
  rfl

/-- Every waiter entry is free at reset. -/
theorem reset_waitersFree (m : Nat) : fb (State.reset.regWord m 0x300034) 14 0 = 16384 := by
  have hword : State.reset.pipWord m 0x34 = 16384 := rfl
  change fb (State.reset.pipWord m 0x34) 14 0 = 16384
  rw [hword]
  decide

/-- No member of the pool is failed at reset. -/
theorem reset_poolFailed (m : Nat) : fb (State.reset.regWord m 0x500000) 23 20 = 0xF := by
  change fb (State.reset.poolWord 0) 23 20 = 0xF
  decide

/-- No turn of a world has closed at reset. -/
theorem reset_worldClosed (w : Nat) : State.reset.worldWord w 0x28 = 0xFFFFFFFF := by
  have hclosed : (State.reset.world w).closed = 0 := rfl
  unfold State.worldWord
  simp [hclosed]

/-- A tile's rate at reset. -/
theorem reset_tileRate (t : Nat) : State.reset.tileWord t 0x814 = 174 := rfl

/-- A port's state word at reset. -/
theorem reset_portState (n : Nat) : State.reset.portWord n 8 = 2 ^ 29 := by
  have hport : State.reset.port n = {} := rfl
  have hhalt : State.reset.aon.haltN = false := rfl
  unfold State.portWord
  simp [hport, hhalt, b2n, PortState.toNat]

/-- The boot block stands in phase 1 at reset. -/
theorem reset_bootPhase (m : Nat) : fb (State.reset.regWord m 0x100000) 27 24 = 1 := by
  change fb (State.reset.bootWord 0) 27 24 = 1
  decide

/-- The trace unit's owner is 1 at reset. -/
theorem reset_trcOwner (m : Nat) : fb (State.reset.regWord m 0x600000) 25 20 = 1 := by
  change fb (State.reset.traceWord 0) 25 20 = 1
  decide

/-- Settles O56, by the registers' words at reset. -/
theorem resetHoldsTheStatedValues : Obligations.ResetHoldsTheStatedValues := by
  unfold Obligations.ResetHoldsTheStatedValues
  intro m w t n k hw ht hn hk
  refine ⟨?_, ?_, reset_waitersFree m, reset_poolFailed m, ?_, reset_bootPhase m, reset_trcOwner m, rfl, rfl, rfl, ?_, rfl, rfl, rfl, rfl, rfl⟩
  · rw [regWord_world _ _ hw (by decide)]
    exact reset_worldClosed w
  · rw [regWord_tile _ _ ht (by decide), reset_tileRate]
    decide
  · rw [regWord_port _ _ hn (by decide), reset_portState]
    decide
  · have hoff : 0x800024 + 4 * k = 0x800000 + (0x24 + 4 * k) := by omega
    rw [hoff, regWord_tempo _ _ (by omega), reset_pinCount hk]

end Sys2Proof.Machine
end
